-- ==== Sys2Proof/Word.lean ====
section
/-!
DEFINITION. Sys2Proof/Word.lean: the word types of the device and the plainest arithmetic over them.  Registers are
32-bit words (R10), memory is bytes, and times are counted exactly (01_architecture.md, 02_time_base.md).
-/
namespace Sys2Proof

/-- One byte of memory. -/
abbrev Byte := BitVec 8

/-- One 32-bit register or memory word (R10, R554). -/
abbrev Word := BitVec 32

/-- Bits lo + len - 1 down to lo of a natural number. -/
def natBits (x lo len : Nat) : Nat := x / 2 ^ lo % 2 ^ len

/-- Bits lo + len - 1 down to lo of a word. -/
def Word.bits (w : Word) (lo len : Nat) : Nat := natBits w.toNat lo len

/-- The value of a len-bit field read as two's complement. -/
def signed (len x : Nat) : Int := if 2 ^ (len - 1) ≤ x % 2 ^ len then (x % 2 ^ len : Nat) - (2 ^ len : Nat) else (x % 2 ^ len : Nat)

/-- The len-bit two's complement code of an integer. -/
def unsigned (len : Nat) (x : Int) : Nat := (x % (2 ^ len : Nat)).toNat

/-- A count that stops at its largest value. -/
def satAdd (max a n : Nat) : Nat := min max (a + n)

end Sys2Proof
end

