-- ==== Sys2Proof/Syntax.lean ====
section
/-!
DEFINITION. Sys2Proof/Syntax.lean: the commands and events of the block, one constructor of Instr for each row of
spec/opcode_table.json, with the operands the row's rule names; and the plain types those operands have.
-/
namespace Sys2Proof

/-- The two time domains of R34. -/
inductive Dom where
  | A | B
  deriving DecidableEq, Repr

/-- Who sends a register access (Table 20-3, R557). -/
inductive Requester where
  /-- A Steward pair or the boot ROM. -/
  | steward
  /-- A run on VSC instance k. -/
  | vsc (k : Nat)
  /-- The physical function, by its BAR0 MBX pages or the CSR window. -/
  | hostPF (window : Bool)
  /-- A virtual function, by its BAR0 MBX pages. -/
  | hostVF (f : Nat)
  /-- JTAG. -/
  | jtag
  deriving DecidableEq, Repr

/-- The static level a PPS input sits at (R69). -/
inductive PinLevel where
  | low | mid | high
  deriving DecidableEq, Repr

/-- The output pins whose readback is checked (R546, Table 19 of 19_pins_and_package.md). -/
inductive OutPin where
  | whsOut (n : Nat) | ppsOut (i : Nat) | clk10m | xoffOut (n : Nat)
  deriving DecidableEq, Repr

/-- What the check bits of a word show at an access, besides what it held (R261): nothing new, an error within the code's power at a
bit or symbol position, one beyond it with the data bits as read, or a correction that the stack's on-die ECC reports. -/
inductive Upset where
  | none
  | correctable (pos : Nat)
  | uncorrectable (pos : Nat) (asRead : List Byte)
  | onDie
  deriving DecidableEq, Repr

/-- The faults an MXC detects by itself (Table 6-5, causes 0x30, 0x31 and 0x33). -/
inductive MxcFaultKind where
  | residue | parity | bus
  deriving DecidableEq, Repr

/-- The hardware faults of Table 5-13 that a core detects, with what each names. -/
inductive VscFaultKind where
  | residue | parity | ecc | bus (addr : Nat) | fetch | poisonIn (port : Fin 8) (addr : Nat)
  deriving DecidableEq, Repr

/-- The hardware faults of Table 7-5. -/
inductive EngineFaultKind where
  | residue | parity | ecc | stageCrc | bus (addr : Nat) | poisonIn (port : Fin 8) (addr : Nat)
  deriving DecidableEq, Repr

/-- An input that GDX serves (R118): a stream queue or a host transport ring. -/
inductive StreamSrc where
  | queue (q : BitVec 10)
  | ring (r : BitVec 9)
  deriving DecidableEq, Repr

/-- What a physical data lane identified in phase 2 of coupler training: nothing, a partner lane with its polarity (R375), or the
regular pattern of a clock (R376). -/
inductive LaneSeen where
  | nothing | partner (lane : Fin 4) (inverted : Bool) | clock
  deriving DecidableEq, Repr

/-- A CAP set (Table 13-5). -/
structure CapSet where
  major : Nat
  minor : Nat
  role : Nat
  car : Nat
  carValid : Bool
  ack : Bool
  features : Nat
  rxStreams : Nat
  txStreams : Nat
  converters : Nat
  vendor : Nat
  deriving DecidableEq, Repr

/-- A TOKEN message: the fields of its data blocks and the buffer bytes (R397). -/
structure TokenMsg where
  car : Nat
  template : Nat
  node : Nat
  port : Nat
  kind : Nat
  tag : Nat
  hops : Nat
  slotWord : Nat
  flowTag : Nat
  user : Nat
  length : Nat
  payload : List Byte
  deriving DecidableEq, Repr

/-- What a coupler sends samples from: a stream queue it consumes (R390), or n bytes of a port's raw transmit FIFO on a stream
(R392). -/
inductive SampleSrc where
  | queue (q : BitVec 10)
  | raw (port : Fin 16) (sid : BitVec 8) (n : Nat)
  deriving DecidableEq, Repr


/-- One PRB of a received U-plane section: its exponent (block floating point) or compShift (µ-law), 0 without compression, and the
24 codes of its 12 REs, real part first (R238, R239). -/
structure PrbData where
  exp : Nat
  codes : List Int
  deriving DecidableEq, Repr

/-- A U-plane section: section ID, startPrbu, udCompHdr as received or static, and its PRBs (Table 12-9). -/
structure USection where
  id : Nat
  startPrb : Nat
  compHdr : Nat
  prbs : List PrbData
  deriving DecidableEq, Repr

/-- The body of an eCPRI message (R254): IQ data, real-time control with its section type, extensions and whether their weight
compression is supported (Table 8-6), one-way delay with its measurement ID, or another type. -/
inductive EcpriBody where
  | uPlane (sections : List USection)
  | cPlane (sectionType : Nat) (extensions : List Nat) (weightsOk : Bool) (bytes : List Byte)
  | delay (measurementId : Nat)
  | other
  deriving DecidableEq, Repr

/-- An eCPRI message as its headers say it (R356, R357). -/
structure EcpriMsg where
  revision : Nat
  sizeOk : Bool
  eaxc : Nat
  seqid : Nat
  e : Bool
  subseq : Nat
  frameId : Nat
  subframeId : Nat
  slotId : Nat
  symbolId : Nat
  body : EcpriBody
  deriving DecidableEq, Repr

/-- What an Ethernet frame carries after at most one tag: a PFC frame with its enabled priorities and times, another MAC control
frame, eCPRI messages, a PTP message (messageType, domainNumber, sequenceId; over UDP in an IPv4 or IPv6 frame), or another
EtherType. -/
inductive FrameBody where
  | pfc (enable : BitVec 8) (times : List Nat)
  | pause
  | ecpri (msgs : List EcpriMsg)
  | ptp (mtype domainNumber seq : Nat) (udp : Option Nat)
  | other (etherType : Nat)
  deriving DecidableEq, Repr

/-- A received frame: addresses, VID of its tag if it has one, whether its EtherType is 0x88E5 and, if so, whether MACsec validates
it, what it carries (after decryption), its bytes from the destination address to the end of the payload, and its length with
FCS. -/
structure EthFrame where
  dest : Nat
  src : Nat
  vid : Option Nat
  secured : Bool
  valid : Bool
  body : FrameBody
  bytes : List Byte
  length : Nat
  deriving DecidableEq, Repr


/-! ### Carriers and partitions (08_radio_standards_coverage.md, 14_host_interface_and_brildo.md) -/

/-- The carrier types of Table 8-2. -/
inductive CarrierType where
  | nrFr1Mu0 | nrFr1Mu1 | nrFr1Mu2 | nrFr2Mu2 | nrFr2Mu3 | lte | ltem | nbiot15 | nbiot375
  deriving DecidableEq, Repr

/-- A carrier descriptor of CONFIGURE (Table 14-7) as decoded: type, bandwidth with its PRB count, CP, streams per direction, coupler
antennas or fronthaul, dynamic spectrum sharing, an option of Table 8-7 that no other field shows; its timelines with what their
table entries hold; queues, rings, coupler stream entries, templates; for REFERENCE the whistle channels with their entries; and
whether another car holds a timeline with its tag that differs (R98). -/
structure CarrierDesc where
  type : CarrierType
  khz : Nat
  prbs : Nat
  ecp : Bool
  dl : Nat
  ul : Nat
  coupler : Bool
  dss : Bool
  excluded : Bool
  tls : List Nat
  tag : Nat
  offset : Int
  tddPtr : Nat
  pattern : List Nat
  streamBase : Nat
  corrPtr : Nat
  queues : List Nat
  rings : List Nat
  streams : List Nat
  templates : List Nat
  reference : Bool
  whistles : List (Nat × List Nat)
  peerDiffers : Bool
  deriving DecidableEq, Repr

/-- What PARTITION gives a virtual function (R404, Table 14-7): ranges, first and last, of each resource; stream-units in hundredths
per direction, carriers, and CLAIM_WAIT in seconds. -/
structure Partition where
  mailboxes : List (Nat × Nat)
  rings : List (Nat × Nat)
  queues : List (Nat × Nat)
  templates : List (Nat × Nat)
  creditPools : List (Nat × Nat)
  bufPools : List (Nat × Nat)
  whistles : List (Nat × Nat)
  timelines : List (Nat × Nat)
  suDl : Nat
  suUl : Nat
  carriers : Nat
  claimWait : Nat
  deriving DecidableEq, Repr

/-! ### Records of the record store as decoded (Table 18-8) -/

/-- The board descriptor: REF_SEL, KEEP_MODE for a strap that defers to it, network lanes with TX_INV, transmit FFE words per lane, and
the precedence default. -/
structure BoardDesc where
  refSel : Fin 3
  lpreg : Bool
  txInv : List (Fin 32)
  ffe : List (Fin 32 × BitVec 24)
  prec : List Nat
  deriving DecidableEq, Repr

/-- The cable table: EXT_RX and EXT_TX in ps per network port (R64), ASYM in ps per coupler port (R384). -/
structure CableTable where
  net : List (Fin 32 × Word × Word)
  cpl : List (Fin 16 × Word)
  deriving DecidableEq, Repr

/-- An entry of the coupler equalisation record (R381, R570): port, rate, and the value of CPL_PORT_EQ with its class. -/
structure EqEntry where
  port : Fin 16
  rate : Fin 3
  eq : BitVec 26
  deriving DecidableEq, Repr

/-! ### Faults (17_dependability.md) -/

/-- A unit that Steol takes as faulty (R485): an executor by its index, bench ones included (log entry 9), a block-mover slice, or an
MXC. -/
inductive FaultUnit where
  | exec (e : Fin 416)
  | slice (engine : Fin 32) (slice : Fin 9)
  | mxc (cluster : Fin 24)
  deriving DecidableEq, Repr

/-- What rotates on its own (Table 17-3): the cores of a cluster, the MXCs, the slices of a block mover, one bench of an engine type. -/
inductive RotGroup where
  | vsc (cluster : Fin 24)
  | mxc
  | slice (engine : Fin 32)
  | engine (cls : Fin 10) (bench : Fin 2)
  deriving DecidableEq, Repr

/-! ### Brildo (14_host_interface_and_brildo.md) -/

/-- What Steol finds in the TLV items of a request (R416, Table 14-5): nothing wrong, LENGTH beyond the items, or a malformed or unknown
mandatory item. -/
inductive TlvCheck where
  | good | beyond | bad
  deriving DecidableEq, Repr

/-- How the work of an asynchronous command ended, where the device's own state does not decide it: done, no room for the image
(cause 0xB of Table 4-6, 0x6 of R190), or failed. -/
inductive JobOutcome where
  | done | noRoom | failed
  deriving DecidableEq, Repr

/-- TEMPLATE_OP. -/
inductive TplOp where
  | remove | block | unblock
  deriving DecidableEq, Repr

/-- QUEUE_CONFIG. -/
inductive QueueOp where
  | entry (ws : List Word)
  | enable | disable | reset
  deriving DecidableEq, Repr

/-- The kinds of ring (R427). -/
inductive RingKind where
  | data | control | event
  deriving DecidableEq, Repr

/-- The parameters of RING_CREATE (R428); entries as written, and the vector with its coalescing settings. -/
structure RingParams where
  out : Bool
  kind : RingKind
  inHost : Bool
  base : Nat
  entries : Nat
  wbAddr : Nat
  tl : Nat
  stagePool : Nat
  dataBase : Nat
  dataSize : Nat
  errRing : Option Nat
  level0 : Bool
  vector : Nat
  irq : Bool
  coalItems : Nat
  coalUs : Nat
  deriving DecidableEq, Repr

/-- A lane that LANE_TEST names: of the network, or of a coupler port. -/
inductive TestLane where
  | net (lane : Fin 32)
  | cpl (port : Fin 16) (lane : Fin 5)
  deriving DecidableEq, Repr

/-- The records that READ_RECORD and WRITE_RECORD name (Table 18-8). -/
inductive RecKind where
  | board | cable | equalisation | repairMap
  deriving DecidableEq, Repr

/-- Contents of WRITE_RECORD: the body words of a record, or the removal of an entry of the repair map (R485). -/
inductive RecBody where
  | words (l : List Word)
  | removeUnit (unit : BitVec 16)
  deriving DecidableEq, Repr

/-- The captures that ERR_CLEAR_FIRST names (R502): of memory by the place of its class in Table 9-8. -/
inductive FirstClass where
  | ecc (n : Fin 12) | vsc (k : BitVec 8) | mxc (c : Fin 24) | engine (cls : Fin 10) (k : BitVec 8) | ump | erq (sev : Fin 3)
  deriving DecidableEq, Repr


/-- The commands: one constructor for each row of the opcode table, in its order. -/
inductive Instr where
  /-- REGISTER_WRITE (R10). A write to a register with no row of its own stores or acts on the value by its access code. -/
  | registerWrite (req : Requester) (addr : Nat) (value : Word)
  /-- COUNTER_READ_CLEAR (R562). A Steward or VSC read of an RC field returns the count and restarts it from the increments of the read's own cycle. -/
  | counterReadClear (req : Requester) (addr : Nat)
  /-- TIMING_PLL_LOCK (R38). On the first lock of the timing PLL after a cold start or brown-out, both counters start from zero with TIME_VALID = 0. -/
  | timingPllLock
  /-- INC_NS_WRITE (R42). A write to INC_NS schedules a commit of both increment values at the next tick. -/
  | incNsWrite (d : Dom) (value : Word)
  /-- INCREMENT_COMMIT (R43). At the next tick the pending increment pair is applied, or it is refused with INC_REFUSED if it lies outside 1.5996 ns to 1.6004 ns. -/
  | incrementCommit (d : Dom)
  /-- TBU_STEP_REQUEST (R44). STEP_CTRL GO with MODE = 0 requests a signed step of one domain counter two ticks later. -/
  | tbuStepRequest (d : Dom)
  /-- TBU_SET_REQUEST (R47). STEP_CTRL GO with MODE = 1 requests an absolute set of one domain counter two ticks later. -/
  | tbuSetRequest (d : Dom)
  /-- STEP_APPLY (R45). At the second tick the step is applied, or refused with JUMP_REFUSED when it exceeds the jump limit on the active domain. -/
  | stepApply (d : Dom)
  /-- SET_APPLY (R47). At the second tick the set loads the counter exactly, or is refused with SET_REFUSED. -/
  | setApply (d : Dom)
  /-- JUMP_LIMIT_WRITE (R46). A write to TBU_JUMP_LIMIT stores LIMIT_NS, clamped to 1 to 1,000,000,000. -/
  | jumpLimitWrite (value : Word)
  /-- TBU_SWITCH_REQUEST (R52). A TBU_SWITCH GO requests a switch of the active domain at the next switch point. -/
  | tbuSwitchRequest (target : Dom) (force : Bool) (refTl : BitVec 8)
  /-- SWITCH_POINT (R52). At the switch point the residual is computed and the switch is accepted, forced or refused. -/
  | switchPoint
  /-- SLEW_COMPLETE (R53). The slew residual reaches zero and SLEWING clears. -/
  | slewComplete
  /-- SNAPSHOT_REQUEST (R75). A write of TBU_SNAP.CAPTURE requests a capture of domain A, domain B and the active time. -/
  | snapshotRequest
  /-- SNAPSHOT_CAPTURE (R75). In the first tick after the write, the counters and the active time are captured. -/
  | snapshotCapture
  /-- REFCLK_LOSS (R39). No REFCLK_IN edge for 1 µs sets REF_LOC and REF_LOC_SEEN, and the PLL holds. -/
  | refclkLoss
  /-- REFCLK_FREQ_CHECK (R39). Every 1 ms REFCLK_IN is counted against the Tender oscillator, and a deviation above 1,000 ppm sets FREQ_ERR. -/
  | refclkFreqCheck (ppm : BitVec 16)
  /-- REFCLK_RELOCK (R40). After the reference has been in tolerance for 10 ms, the PLL relocks and REF_LOC and FREQ_ERR clear. -/
  | refclkRelock
  /-- PPS_IN_EDGE (R68). An accepted PPS input edge is stamped in both domains and sets NEW, or OVERRUN, or counts EXTRA_EDGES. -/
  | ppsInEdge (input : Fin 2) (falling : Bool) (sub : Fin 26)
  /-- PPS_IN_TIMEOUT (R69). No PPS edge for 1.5 s sets LOST, STUCK_HI or STUCK_LO. -/
  | ppsInTimeout (input : Fin 2) (level : PinLevel)
  /-- PPS_OUT_EDGE (R70). PPS_OUT drives a rising edge at each second boundary of the selected time, shifted by its offset. -/
  | ppsOutEdge (output : Fin 2)
  /-- TIMELINE_ENABLE (R81). AFT_TL_CMD OP 0 checks the timeline entry and copies it, or refuses with a cause. -/
  | timelineEnable (tl : BitVec 8)
  /-- TIMELINE_DISABLE (R82). AFT_TL_CMD OP 1 disables a timeline, disarms its whistles and leaves live instances ORPHAN. -/
  | timelineDisable (tl : BitVec 8)
  /-- TDD_UPDATE (R83). AFT_TL_CMD OP 2 checks a new TDD pattern and makes it pending. -/
  | tddUpdate (tl : BitVec 8)
  /-- TDD_UPDATE_APPLY (R83). At the next even-frame boundary the pending pattern replaces TDD_PTR and PATTERN_LEN. -/
  | tddUpdateApply (tl : BitVec 8)
  /-- AFT_SLOT_BOUNDARY (R84). At each slot boundary the AFT reads the TDD word and the stream delay entries for the slot. -/
  | aftSlotBoundary (tl : BitVec 8)
  /-- WHS_ARM (R88). WHS_ARM GO checks a whistle entry, resolves its first occurrence and arms it, judging past occurrences. -/
  | whsArm (channel : BitVec 10)
  /-- WHS_DISARM (R88). WHS_DISARM GO clears ARMED of a channel. -/
  | whsDisarm (channel : BitVec 10)
  /-- WHS_ENABLE (R573). WHS_CTRL.EN from 0 to 1 judges every armed channel and pin as if armed in that tick. -/
  | whsEnable
  /-- WHISTLE_SPILL (R90). Firings beyond 4 per tick are delivered in later ticks and counted in WHS_SPILL. -/
  | whistleSpill (channel : BitVec 10)
  /-- MARK (R86). A MARK whistle occurrence fires and only counts. -/
  | mark (channel : BitVec 10)
  /-- CREATE (R116). A CREATE whistle occurrence creates a slot instance of the named template for the coordinate slot. -/
  | create (channel : BitVec 10)
  /-- CANCEL (R138). A CANCEL whistle occurrence cancels the named slot instance. -/
  | cancel (channel : BitVec 10)
  /-- REFILL (R124). A REFILL whistle occurrence sets or adds to a credit pool balance and admits waiting entries that fit. -/
  | refill (channel : BitVec 10)
  /-- CONV_START (R393). A CONV_START whistle places a start CONV block on a coupler port. -/
  | convStart (channel : BitVec 10)
  /-- CONV_CTRL (R393). A CONV_CTRL whistle places a control CONV block on a coupler port. -/
  | convCtrl (channel : BitVec 10)
  /-- QUIET_EXIT_FOR_CONV (R394). For a quiet transmitter, the port leaves QUIET early so that the CONV block goes out on time, then returns to QUIET. -/
  | quietExitForConv (port : Fin 16)
  /-- GAP_OPEN (R383). A GAP_OPEN whistle opens a gap on each named coupler port that is UP with minor 1 or more. -/
  | gapOpen (channel : BitVec 10)
  /-- GAP_CLOSE (R383). A GAP_CLOSE whistle sends GAP END, and the port computes the delays. -/
  | gapClose (channel : BitVec 10)
  /-- CAL_TX (R99). A CAL_TX whistle starts a calibration transmission on one stream. -/
  | calTx (channel : BitVec 10)
  /-- CAL_RX (R99). A CAL_RX whistle starts a calibration capture. -/
  | calRx (channel : BitVec 10)
  /-- CORR_SWAP (R100). A CORR_SWAP whistle flips CUR_BANK of the timeline for later instances. -/
  | corrSwap (channel : BitVec 10)
  /-- POWER (R447). A POWER whistle requests a power transition of a domain. -/
  | power (channel : BitVec 10)
  /-- PIN_ARM (R96). Writing WHS_PIN CTRL.EN from 0 to 1 arms the pin whistle or refuses a too-wide periodic pulse. -/
  | pinArm (pin : Fin 64)
  /-- PIN_FIRE (R95). A pin whistle drives its pin to the active level at its instant. -/
  | pinFire (pin : Fin 64)
  /-- PIN_PULSE_END (R95). After WIDTH × 10 ns the pin returns to idle, and a one-shot clears EN. -/
  | pinPulseEnd (pin : Fin 64)
  /-- OUTPUT_SHORT (R546). Two readback samples differing from the driven level park the output at Hi-Z and report a short. -/
  | outputShort (output : OutPin)
  /-- INST_CMD_CREATE (R116). GDX_INST_CMD with OP = 1 creates a slot instance for the slot in GDX_INST_STATUS. -/
  | instCmdCreate (template : BitVec 12) (tl : BitVec 8)
  /-- INST_CMD_CANCEL (R137). GDX_INST_CMD with OP = 0 cancels the slot instance by id. -/
  | instCmdCancel (id : BitVec 12)
  /-- TEMPLATE_INSTALL (R112). GDX_TPL_CMD OP 0 checks a whole graph image and installs its templates, or refuses with a cause. -/
  | templateInstall (regionLen : Nat) (fits : Bool)
  /-- TEMPLATE_REMOVE (R113). GDX_TPL_CMD OP 1 removes a template for later creations. -/
  | templateRemove (template : BitVec 12)
  /-- TEMPLATE_BLOCK (R113). GDX_TPL_CMD OP 2 blocks a template for later creations. -/
  | templateBlock (template : BitVec 12)
  /-- TEMPLATE_UNBLOCK (R113). GDX_TPL_CMD OP 3 unblocks a template. -/
  | templateUnblock (template : BitVec 12)
  /-- TOKEN_ARRIVAL (R108). A token arrives at an input port of a node instance and may complete its inputs. -/
  | tokenArrival (sameCycle : Bool)
  /-- STREAM_ITEM_TAKE (R118). GDX acts on the item at the head of a bound queue or ring: token, stale, or wait. -/
  | streamItemTake (src : StreamSrc) (sameCycle : Bool)
  /-- NODE_DISPATCH (R128). GDX selects a ready node instance, chooses a permitted free executor, allocates output buffers and delivers the dispatch record. -/
  | nodeDispatch (cls : Fin 10)
  /-- COMPLETION_REPORT (R132). An executor completes a run with a status code and a signature, and GDX acts on it. -/
  | completionReport (e : BitVec 9)
  /-- RELEASE_BUFFER_ENTRY_FREE (R135). A completing non-head member held for lack of a release-buffer entry takes one when it frees. -/
  | releaseBufferEntryFree (e : BitVec 9) (cycles : Nat)
  /-- RING_SINK_SPACE (R136). A release held by a full ring sink proceeds when space appears. -/
  | ringSinkSpace (ring : BitVec 9) (cycles : Nat)
  /-- TELEMETRY_COPY (R155). Steol copies each telemetry record to the host ring within 1 ms, or drops it when the ring is full. -/
  | telemetryCopy
  /-- GDX_SNAP_HOLD (R154). Writing GDX_SNAP.HOLD captures or releases the dispatcher measures in one cycle. -/
  | gdxSnapHold (hold : Bool)
  /-- RESERVE_WRITE (R150). A write of GDX_CLASS RESERVE stores the count, clamping at the active count minus 1 and setting OVERCOMMIT. -/
  | reserveWrite (cls : Fin 10) (value : Word)
  /-- BUNDLE_ISSUE (R165). A VSC issues one bundle when all its sources are ready, performs its operations and then its control action. -/
  | bundleIssue (vsc : BitVec 8) (stall squashed : Nat)
  /-- MXC_LOCK_GRANT (R201). The MXC grants the lock to the next requester in request order. -/
  | mxcLockGrant (c : Fin 24) (waited : Nat)
  /-- MXC_OP_EXECUTE (R198). The MXC starts a queued operation, after a lazy state switch if needed, and writes it back at commit. -/
  | mxcOpExecute (c : Fin 24)
  /-- MXC_FAULT (R214). A residue, parity or bus fault in the MXC takes it out of service and ends the runs that hold or wait for it. -/
  | mxcFault (c : Fin 24) (kind : MxcFaultKind)
  /-- MXC_SERVICE_WRITE (R215). A Steward write of MXC_CTRL.SERVICE places the MXC in service or starts its removal. -/
  | mxcServiceWrite (c : Fin 24) (service : Bool)
  /-- MXC_REMOVAL_COMPLETE (R215). Once no live run in the cluster has issued MXLOCK, the removal completes and IN_SERVICE clears. -/
  | mxcRemovalComplete (c : Fin 24)
  /-- ICACHE_FILL (R161). A missed instruction-cache line is fetched from HBM and the core resumes. -/
  | icacheFill (vsc : BitVec 8)
  /-- ICACHE_INV (R192). A write of ICACHE_INV invalidates the instruction cache of an idle core. -/
  | icacheInv (vsc : BitVec 8)
  /-- RUN_WATCHDOG (R185). A run that lasts 4 × COST cycles ends with cause WDOG. -/
  | runWatchdog (vsc : BitVec 8)
  /-- VSC_HARDWARE_FAULT (R186). A detected residue, parity, ECC, bus or poison fault ends the run within 64 cycles with its code. -/
  | vscHardwareFault (vsc : BitVec 8) (kind : VscFaultKind)
  /-- LDD_DECODE (R227). An LDD job decodes NR LDPC code blocks and writes results and the transport block. -/
  | lddDecode (k : BitVec 8) (cycles busy : Nat)
  /-- CEN_LDPC (R231). A CEN job encodes and rate-matches NR LDPC code blocks. -/
  | cenLdpc (k : BitVec 8) (cycles busy : Nat)
  /-- CEN_POLAR (R231). A CEN job encodes downlink polar payloads. -/
  | cenPolar (k : BitVec 8) (cycles busy : Nat)
  /-- CEN_TURBO (R231). A CEN job encodes LTE turbo code blocks. -/
  | cenTurbo (k : BitVec 8) (cycles busy : Nat)
  /-- TRD_DECODE (R231). A TRD job decodes LTE turbo code blocks. -/
  | trdDecode (k : BitVec 8) (cycles busy : Nat)
  /-- PLD_DECODE_UL (R231). A PLD job decodes uplink polar UCI. -/
  | pldDecodeUl (k : BitVec 8) (cycles busy : Nat)
  /-- PLD_DECODE_DL (R231). A PLD job decodes downlink polar for test. -/
  | pldDecodeDl (k : BitVec 8) (cycles busy : Nat)
  /-- FXE_RX (R227). An FXE job performs OFDM receive FFTs. -/
  | fxeRx (k : BitVec 8) (cycles busy : Nat)
  /-- FXE_TX (R227). An FXE job performs OFDM transmit IFFTs. -/
  | fxeTx (k : BitVec 8) (cycles busy : Nat)
  /-- FXE_TPDFT (R227). An FXE job performs a transform-precoding DFT. -/
  | fxeTpdft (k : BitVec 8) (cycles busy : Nat)
  /-- FXE_TPIDFT (R227). An FXE job performs a transform-precoding IDFT. -/
  | fxeTpidft (k : BitVec 8) (cycles busy : Nat)
  /-- MDE_DETECT (R227). An MDE job detects with supplied weights. -/
  | mdeDetect (k : BitVec 8) (cycles busy : Nat)
  /-- MDE_MMSE (R227). An MDE job computes MMSE weights and detects. -/
  | mdeMmse (k : BitVec 8) (cycles busy : Nat)
  /-- MDE_MMSE_IRC (R227). An MDE job computes MMSE-IRC weights and detects. -/
  | mdeMmseIrc (k : BitVec 8) (cycles busy : Nat)
  /-- MDE_CAL_EST (R227). An MDE job estimates reciprocity calibration gains and delays. -/
  | mdeCalEst (k : BitVec 8) (cycles busy : Nat)
  /-- MDE_DEMAP (R227). An MDE job soft-demaps symbols to LLRs. -/
  | mdeDemap (k : BitVec 8) (cycles busy : Nat)
  /-- BWA_PRECODE (R233). A BWA job precodes layers onto antennas, applying the bound correction bank. -/
  | bwaPrecode (k : BitVec 8) (cycles busy : Nat)
  /-- BWA_COMBINE (R233). A BWA job combines antennas into beams, applying receive corrections. -/
  | bwaCombine (k : BitVec 8) (cycles busy : Nat)
  /-- PRD_DETECT (R227). A PRD job detects PRACH preambles. -/
  | prdDetect (k : BitVec 8) (cycles busy : Nat)
  /-- HCE_COMBINE (R235). An HCE job rate-dematches and combines LLRs with stored soft buffers. -/
  | hceCombine (k : BitVec 8) (cycles busy : Nat)
  /-- HCE_STORE (R237). An HCE job writes soft-buffer entries for failed code blocks and invalidates passed ones. -/
  | hceStore (k : BitVec 8) (cycles busy : Nat)
  /-- ENGINE_WATCHDOG (R228). A job that lasts 4 × COST cycles ends with cause WDOG. -/
  | engineWatchdog (cls : Fin 10) (k : BitVec 8) (busy : Nat)
  /-- ENGINE_HARDWARE_FAULT (R228). A detected engine fault ends the job within 64 cycles with its cause and code. -/
  | engineHardwareFault (cls : Fin 10) (k : BitVec 8) (kind : EngineFaultKind) (busy : Nat)
  /-- ENGINE_MAP_PHYS_WRITE (R217). A Steward write of T_CTRL.MAP_PHYS requests a new physical engine behind an instance. -/
  | engineMapPhysWrite (cls : Fin 10) (k : BitVec 8) (phys : BitVec 8)
  /-- ENGINE_MAP_APPLY (R217). The engine map change takes effect in the first cycle both engines are idle. -/
  | engineMapApply (cls : Fin 10) (k : BitVec 8)
  /-- BMV_CH_CLAIM (R290). A run claims an unheld cluster channel by writing CLAIM. -/
  | bmvChClaim (vsc : BitVec 8) (ch : Fin 8)
  /-- BMV_GO (R293). GO checks the shadow set and starts it or queues it behind the active transfer. -/
  | bmvGo (req : Requester) (e : Fin 32) (ch : Fin 8)
  /-- BMV_CLEAR (R307). CLEAR returns a halted system channel to IDLE. -/
  | bmvClear (req : Requester) (e : Fin 32) (ch : Fin 8)
  /-- BMV_STOP (R307). STOP on a busy system channel stops issuing and enters STOPPING. -/
  | bmvStop (req : Requester) (e : Fin 32) (ch : Fin 8)
  /-- BMV_BURST_ISSUE (R299). A channel issues a burst when its credit, outstanding limit, request line and the port allow. -/
  | bmvBurstIssue (e : Fin 32) (ch : Fin 8) (cycles waited : Nat)
  /-- BMV_BURST_COMPLETE (R308). Burst responses complete bytes, setting HALF and DONE and loading the shadow set or restarting a cyclic transfer. -/
  | bmvBurstComplete (e : Fin 32) (ch : Fin 8) (burst : Nat) (host : List Byte)
  /-- BMV_BUS_ERROR (R303). A bus error stops issue, retries the burst, or halts the channel when retries are exhausted. -/
  | bmvBusError (e : Fin 32) (ch : Fin 8) (burst : Nat)
  /-- BMV_POISON_RESPONSE (R305). A poison read propagates poison from an input buffer or halts the channel with ERR_POISON. -/
  | bmvPoisonResponse (e : Fin 32) (ch : Fin 8) (burst : Nat) (offset : Nat) (host : List Byte)
  /-- BMV_PARITY_ERROR (R306). A parity error halts the channel with ERR_INTERNAL and sets OUT. -/
  | bmvParityError (e : Fin 32) (ch : Fin 8)
  /-- BMV_ENG_MAP_WRITE (R288). A Steward write of BMV_ENG_MAP is checked and pends until the channels are idle. -/
  | bmvEngMapWrite (e : Fin 32) (map : Word)
  /-- BMV_MAP_APPLY (R288). Each remapped channel takes its new slice when idle and unheld. -/
  | bmvMapApply (e : Fin 32)
  /-- QUEUE_ENABLE (R315). SQ_CMD enable checks and copies the queue entry and restarts sequence numbers. -/
  | queueEnable (q : BitVec 10)
  /-- QUEUE_DISABLE (R331). SQ_CMD disable makes later producer items drop while consumption continues. -/
  | queueDisable (q : BitVec 10)
  /-- QUEUE_RESET (R331). SQ_CMD reset empties a disabled, unheld queue. -/
  | queueReset (q : BitVec 10)
  /-- ITEM_OFFER (R323). A producer offers an item, which is accepted or dropped, with a GAP marker before the next accepted item. -/
  | itemOffer (q : BitVec 10) (symbol stream slot : Nat) (payload extra : List Byte)
  /-- ITEM_FREE (R319). A consumer frees an item, and the read index advances past freed items in order. -/
  | itemFree (q : BitVec 10) (place : Nat)
  /-- PFC_REFRESH (R330). Every REFRESH_US while the OR stays set, the PFC frame is repeated. -/
  | pfcRefresh (port : Fin 32) (prio : Fin 8)
  /-- CREDIT_REPORT (R326). Returned credits are reported after CREDIT_BATCH or 1 µs. -/
  | creditReport (q : BitVec 10)
  /-- XOFF_IN_CHANGE (R332). A recognised XOFF_IN change pauses or resumes coupler sample and token transmission. -/
  | xoffInChange (pin : Fin 16) (level : Bool)
  /-- XOFF_IN_STUCK (R333). XOFF_IN asserted for 10 ms sets STUCK and writes an error record. -/
  | xoffInStuck (pin : Fin 16)
  /-- NET_GROUP_APPLY (R337). NET_GRP_CFG APPLY checks placement and reconfigures the group, or sets CFG_REFUSED. -/
  | netGroupApply (g : Fin 8)
  /-- PORT_ENABLE (R339). Setting a port's EN to 1 starts a link attempt. -/
  | portEnable (port : Fin 32)
  /-- AUTONEG_COMPLETE (R339). Autonegotiation of an attempt completes. -/
  | autonegComplete (port : Fin 32) (fallback : Option (Fin 4))
  /-- LINK_TRAINING_COMPLETE (R339). Link training of an attempt completes. -/
  | linkTrainingComplete (port : Fin 32) (polarity : BitVec 4) (ffe : List (BitVec 24))
  /-- PCS_LOCK (R339). PCS lock completes and the port becomes UP. -/
  | pcsLock (port : Fin 32) (laneMap : BitVec 8)
  /-- ATTEMPT_FAIL (R339). A stage timer expires and the attempt fails, possibly entering NOPARTNER. -/
  | attemptFail (port : Fin 32)
  /-- NOPARTNER_RETRY (R339). In NOPARTNER a new attempt starts 1 s after the previous one. -/
  | nopartnerRetry (port : Fin 32)
  /-- LINK_FAIL (R340). An UP port whose PCS reports link fail returns to ATTEMPT and retries at once. -/
  | linkFail (port : Fin 32)
  /-- POLARITY_SEARCH (R341). Without lock for 4 ms, a lane inverts its receive polarity and tries again. -/
  | polaritySearch (lane : Fin 32)
  /-- ADAPTATION_UPDATE (R343). Every 4,096 UI the receive equaliser taps update with leakage toward the trained point. -/
  | adaptationUpdate (lane : Fin 32) (delta : List Int)
  /-- ADAPTATION_FREEZE (R344). Adaptation freezes on low-power idle or low transition density, and resumes 10 µs after both end. -/
  | adaptationFreeze (lane : Fin 32) (lpi density : Bool) (us : Nat)
  /-- NET_LANE_FAULT (R347). Steol declares a network lane faulty, retires it and falls back or sets FAULTY. -/
  | netLaneFault (lane : Fin 32) (pass : Bool)
  /-- FRAME_RECEIVE (R349). A received frame is stamped and classified in the order of Table 12-5. -/
  | frameReceive (port : Fin 32) (frame : EthFrame) (fcsOk : Bool) (sub : Fin 26) (codewords corrected uncorrected : Nat) (disagree : Nat) (erased : List Nat)
  /-- PFC_PAUSE_EXPIRY (R350). The pause time of a received PFC frame runs out and transmission of the priority resumes. -/
  | pfcPauseExpiry (port : Fin 32) (prio : Fin 8)
  /-- TX_ITEM_SEND (R360). Among due head items, the port builds and sends the frame whose window closes first. -/
  | txItemSend (port : Fin 32) (sub : Fin 26) (prbs disagree erased : Nat)
  /-- TX_LATE_DISCARD (R359). A transmit item not started by its window close is discarded and counted. -/
  | txLateDiscard (port : Fin 32) (q : BitVec 10) (sub : Fin 26)
  /-- FH_RELOAD (R355). NET_FH_CMD.RELOAD copies the fronthaul lookup table between frames. -/
  | fhReload (port : Fin 32)
  /-- MACSEC_SA_INSTALL (R353). NET_MACSEC_SA_CMD.INSTALL installs the key, SCI and packet number of the selected SA. -/
  | macsecSaInstall (port : Fin 32) (sci pn : BitVec 64)
  /-- PRBS_CTRL_WRITE (R362). A write starting a PRBS generator, checker or loop takes effect only on a lane whose port is disabled. -/
  | prbsCtrlWrite (lane : Fin 32) (value : Word)
  /-- PRBS_INJECT (R363). INJ injects one error of the selected kind into the generator. -/
  | prbsInject (lane : Fin 32)
  /-- PRBS_LOCK (R363). The checker locks after 256 error-free bits, or loses lock at 32 errors in 256 bits. -/
  | prbsLock (lane : Fin 32) (lock : Bool) (bits errors : Nat)
  /-- CPL_PORT_ENABLE (R374). Setting a coupler port's EN to 1 starts training from phase 1. -/
  | cplPortEnable (port : Fin 16)
  /-- CLOCK_DETECT (R374). Phase 1 ends when CK has held the rate's clock frequency for 100 µs. -/
  | clockDetect (port : Fin 16) (clock : Bool)
  /-- LANE_DETECT (R375). Phase 2 ends when every data lane has identified a distinct partner lane and polarity. -/
  | laneDetect (port : Fin 16) (l0 l1 l2 l3 : LaneSeen) (aligned : BitVec 4)
  /-- SYMBOL_ALIGNMENT (R377). Phase 3 ends when all lanes MATCH and READY is received. -/
  | symbolAlignment (port : Fin 16)
  /-- DESKEW (R374). Phase 4 ends when three marker sets align. -/
  | deskew (port : Fin 16)
  /-- CAPABILITY_EXCHANGE (R379). Phase 5 ends with agreed versions and the port UP, or REFUSED. -/
  | capabilityExchange (port : Fin 16)
  /-- TRAINING_PHASE_TIMEOUT (R374). A phase not ended within 10 ms fails the attempt. -/
  | trainingPhaseTimeout (port : Fin 16)
  /-- TRAINING_RETRY (R374). After a hold-off or 1 s in NOPARTNER, a new training attempt starts. -/
  | trainingRetry (port : Fin 16)
  /-- CK_ACTIVITY_LOSS (R374). Loss of CK during phases 2 to 5 restarts training at phase 1 after 50 ms. -/
  | ckActivityLoss (port : Fin 16)
  /-- SLIP (R377). A write of CPL_LANE_CTRL.SLIP moves the lane's block boundary one bit later. -/
  | slip (port : Fin 16) (lane : Fin 5) (aligned : Bool)
  /-- CAP_SET_RECEIVED (R378). A received CAP set is accepted after two identical valid sets. -/
  | capSetReceived (port : Fin 16) (set : CapSet) (crcOk : Bool)
  /-- MARKER_RECEIVED (R369). A received MARKER checks alignment and its BIP-8. -/
  | markerReceived (port : Fin 16) (lane : Fin 5) (aligned : Bool) (bip : Fin 9) (headerErrors : Nat)
  /-- SAMPLE_MESSAGE_RECEIVED (R390). A received SAMPLE message is looked up by SID and written into the stream queue. -/
  | sampleMessageReceived (port : Fin 16) (sid : BitVec 8) (slot : Word) (symbol : Fin 16) (samples : List Byte) (crcOk : Bool)
  /-- SAMPLE_SEND (R390). A transmit sample buffer is sent as a SAMPLE message within its window. -/
  | sampleSend (src : SampleSrc)
  /-- SAMPLE_LATE_DISCARD (R390). A sample message not started by its window close is discarded and counted. -/
  | sampleLateDiscard (q : BitVec 10)
  /-- TOKEN_MESSAGE_SEND (R397). A released remote token is sent as a TOKEN message by the route for its car, or discarded. -/
  | tokenMessageSend (k : Nat)
  /-- TOKEN_MESSAGE_RECEIVED (R397). A received TOKEN is delivered as a remote token or forwarded. -/
  | tokenMessageReceived (port : Fin 16) (seq : BitVec 16) (msg : TokenMsg) (crcOk sameCycle : Bool)
  /-- TOKEN_ACK_SEND (R399). The receiver sends ACK every 16 messages or 1 µs after an unacknowledged arrival. -/
  | tokenAckSend (port : Fin 16)
  /-- ACK_RECEIVED (R399). A received ACK frees acknowledged token buffers. -/
  | ackReceived (port : Fin 16) (seq : BitVec 16)
  /-- NAK_RECEIVED (R399). A received NAK resends tokens from the named number, and a fourth NAK takes the port down. -/
  | nakReceived (port : Fin 16) (seq : BitVec 16)
  /-- TIME_MESSAGE_SEND (R396). Every TIME_PERIOD_US a port with TIME_TX sends a TIME message. -/
  | timeMessageSend (port : Fin 16) (locked : Bool)
  /-- TIME_MESSAGE_RECEIVED (R396). A TIME message on UP_PORT is stamped and CPL_TIME_OFFSET is written. -/
  | timeMessageReceived (port : Fin 16) (delay : Bool) (sec : BitVec 48) (ns : BitVec 30) (frac : Word) (car hops : Fin 8) (locked crcOk : Bool) (sub : Fin 320)
  /-- CREDIT_RECEIVED (R391). A CREDIT block adds credits for a link queue. -/
  | creditReceived (port : Fin 16) (linkQueue : BitVec 8) (credits : BitVec 16)
  /-- GAP_BEGIN_RECEIVED (R383). A received GAP BEGIN is answered with ACK and the side enters the gap. -/
  | gapBeginReceived (port : Fin 16)
  /-- GAP_ACK_RECEIVED (R383). A GAP ACK starts the PROBE exchange. -/
  | gapAckReceived (port : Fin 16)
  /-- GAP_END_RECEIVED (R384). GAP END resumes traffic and the port computes RTT and one-way delays. -/
  | gapEndReceived (port : Fin 16)
  /-- GAP_TIMEOUT (R383). A gap reaching CPL_GAP_MAX_NS sends END and sets GAP_TIMEOUT. -/
  | gapTimeout (port : Fin 16)
  /-- PROBE_RECEIVED (R384). A received PROBE is answered with an ECHO. -/
  | probeReceived (port : Fin 16) (seq : BitVec 8) (turnaround : BitVec 40)
  /-- ECHO_RECEIVED (R384). A received ECHO yields one round-trip measurement. -/
  | echoReceived (port : Fin 16) (seq : BitVec 8) (elapsed turnaround : BitVec 40)
  /-- QUIET_ENTER_RECEIVED (R386). A receiver in ON with AUTO_LISTEN enters LISTEN on QUIET_ENTER. -/
  | quietEnterReceived (port : Fin 16)
  /-- LANE_DROP_RECEIVED (R387). A received LANE_DROP moves the direction to three-lane striping. -/
  | laneDropReceived (port : Fin 16) (lane : Fin 4)
  /-- DRIFT (R382). A lane's phase tracker reaching ±0.25 UI sets DRIFT and DRIFT_SEEN. -/
  | drift (port : Fin 16) (lane : Fin 4) (late : Bool)
  /-- LANE_RETRAIN (R382). A drifting lane is retrained in a qualifying gap and DRIFT clears. -/
  | laneRetrain (port : Fin 16) (lane : Fin 4) (held : Bool)
  /-- CPL_LANE_FAULT (R387). Steol declares a coupler lane faulty and drops to three lanes or sets FAULTY. -/
  | cplLaneFault (port : Fin 16) (lane : Fin 4) (pass : Bool)
  /-- CPL_LINK_DOWN (R388). Loss of CK, loss of deskew or 64 header errors take the port down to retrain after 50 ms. -/
  | cplLinkDown (port : Fin 16) (headerErrors : Nat)
  /-- PERST_N_RELEASE (R403). Release of PERST_N brings the PCIe link to L0 and configuration space ready. -/
  | perstNRelease
  /-- FLR (R436). A function-level reset drops the function's requests, closes its sessions and detaches its rings. -/
  | flr (f : Fin 17)
  /-- PCIE_HOT_RESET (R436). A hot reset or link-down acts as an FLR of every function. -/
  | pcieHotReset
  /-- CLAIM_WAIT_EXPIRY (R436). With no CLAIM within CLAIM_WAIT, Steol removes the function's carriers and destroys its rings. -/
  | claimWaitExpiry (f : Fin 17)
  /-- CSR_WINDOW_WRITE (R406). A host write through the CSR window takes effect only while secure debug is unlocked. -/
  | csrWindowWrite (offset : BitVec 24) (value : Word)
  /-- BAR2_ACCESS (R407). A host access to BAR2 reaches HBM or system SRAM, or receives Unsupported Request. -/
  | bar2Access (f : Fin 17) (offset : BitVec 48) (write : Option (List Byte))
  /-- MBX_DOORBELL (R411). A doorbell write moves an idle or done mailbox to PENDING, or is ignored with DB_IGNORED. -/
  | mbxDoorbell (f : Fin 17) (m : BitVec 8) (seq : BitVec 16)
  /-- REQUEST_TAKE (R414). Steol takes a PENDING request, copies it, checks the header and executes or replays the command. -/
  | requestTake (tlv : TlvCheck)
  /-- ASYNC_COMMAND_COMPLETE (R414). An asynchronous command finishes and Steol sends a COMPLETION event. -/
  | asyncCommandComplete (m : BitVec 8) (seq : BitVec 16) (outcome : JobOutcome)
  /-- OPEN (R418). OPEN chooses the session version and returns features and the session. -/
  | openSession (m : BitVec 8) (lower upper : BitVec 16) (base : BitVec 64)
  /-- CLOSE (R421). CLOSE ends the mailbox's session. -/
  | closeSession (m : BitVec 8)
  /-- PING (R421). PING returns the Steol version and the active pair. -/
  | ping (m : BitVec 8)
  /-- PARTITION (R422). PARTITION gives a VF its resources and limits. -/
  | partition (m : BitVec 8) (f : Fin 17) (part : Partition)
  /-- EVENT_RING (R426). EVENT_RING names the output ring and mask for events. -/
  | eventRing (m : BitVec 8) (ring : BitVec 9) (mask : BitVec 11)
  /-- GET_DEVICE (R421). GET_DEVICE returns the device identity and versions. -/
  | getDevice (m : BitVec 8)
  /-- GET_UNITS (R421). GET_UNITS returns unit counts per type. -/
  | getUnits (m : BitVec 8)
  /-- GET_CAPACITY (R421). GET_CAPACITY returns capacity used and free. -/
  | getCapacity (m : BitVec 8)
  /-- CONFIGURE (R423). CONFIGURE removes and adds carriers after the checks of R32, or refuses the whole request. -/
  | configure (m : BitVec 8) (remove : List Nat) (add : List CarrierDesc)
  /-- GET_CARRIER (R421). GET_CARRIER returns a carrier's state and cost. -/
  | getCarrier (m : BitVec 8) (handle : Nat)
  /-- START (R572). START enables a carrier's queues and streams, arming whistles for reference templates. -/
  | startCarrier (m : BitVec 8) (handle : Nat) (locked delay : Bool)
  /-- STOP (R421). STOP stops a carrier. -/
  | stopCarrier (m : BitVec 8) (handle : Nat)
  /-- SET_PRECEDENCE (R496). SET_PRECEDENCE sets the shedding order of carriers. -/
  | setPrecedence (m : BitVec 8) (handles : List Nat)
  /-- CLAIM (R436). CLAIM takes back a function's carriers and rings after a reset. -/
  | claim (m : BitVec 8) (handles : List Nat) (rings : List Nat)
  /-- INSTALL_GRAPH (R424). INSTALL_GRAPH installs a graph image asynchronously. -/
  | installGraph (m : BitVec 8) (addr : BitVec 48) (length : Word)
  /-- INSTALL_KERNEL (R190). INSTALL_KERNEL checks and installs a kernel image asynchronously. -/
  | installKernel (m : BitVec 8) (addr : BitVec 48) (length : Word)
  /-- TEMPLATE_OP (R421). TEMPLATE_OP removes, blocks or unblocks a template. -/
  | templateOp (m : BitVec 8) (template : BitVec 12) (op : TplOp)
  /-- REMOVE_KERNEL (R421). REMOVE_KERNEL removes a kernel. -/
  | removeKernel (m : BitVec 8) (kernel : BitVec 16)
  /-- LIST (R421). LIST returns templates and kernels with revisions and live instances. -/
  | list (m : BitVec 8)
  /-- SET_RESERVE (R150). SET_RESERVE sets a class reserve count. -/
  | setReserve (m : BitVec 8) (cls : Nat) (n : Nat)
  /-- SET_REPLAY (R421). SET_REPLAY sets REPLAY_MAX and L0_LIMIT_NS. -/
  | setReplay (m : BitVec 8) (replays limit : Nat)
  /-- TIME_STATUS (R421). TIME_STATUS returns the state of both time domains. -/
  | timeStatus (m : BitVec 8)
  /-- TIME_SOURCE (R50). TIME_SOURCE binds a domain to a source. -/
  | timeSource (m : BitVec 8) (d : Dom) (source : Fin 4) (ports : List (Fin 32)) (ptpDomain : BitVec 8) (synce : Option (Fin 32)) (upPort : Fin 16)
  /-- JUMP_LIMIT (R46). JUMP_LIMIT sets the host's jump limit. -/
  | jumpLimit (m : BitVec 8) (ns : Word)
  /-- SWITCH (R52). SWITCH requests a domain switch. -/
  | switch (m : BitVec 8) (target : Dom) (force : Bool) (refTl : BitVec 8)
  /-- TIME_OF_DAY (R57). TIME_OF_DAY supplies TAI seconds and the UTC offset. -/
  | timeOfDay (m : BitVec 8) (sec : BitVec 48) (utc : Int)
  /-- PTP_PORT (R421). PTP_PORT configures a PTP port. -/
  | ptpPort (m : BitVec 8) (port : Fin 32) (profile role : Nat) (oneStep synceOut ecpriDelay : Bool)
  /-- CONSIST (R421). CONSIST returns the consist state and TL_MISMATCH tags. -/
  | consist (m : BitVec 8)
  /-- WHISTLE_ARM (R421). WHISTLE_ARM writes and arms a whistle channel. -/
  | whistleArm (m : BitVec 8) (channel : BitVec 10) (words : List Word)
  /-- WHISTLE_DISARM (R421). WHISTLE_DISARM disarms a whistle channel. -/
  | whistleDisarm (m : BitVec 8) (channel : BitVec 10)
  /-- WHISTLE_GET (R421). WHISTLE_GET returns a whistle entry. -/
  | whistleGet (m : BitVec 8) (channel : BitVec 10)
  /-- GRACE (R91). GRACE sets the whistle grace. -/
  | grace (m : BitVec 8) (ns : Word)
  /-- PIN (R421). PIN configures a pin whistle. -/
  | pin (m : BitVec 8) (pin : BitVec 6) (ctrl coord delta timing : Word)
  /-- RING_CREATE (R428). RING_CREATE creates a host transport ring. -/
  | ringCreate (m : BitVec 8) (ring : BitVec 9) (params : RingParams)
  /-- RING_DESTROY (R421). RING_DESTROY destroys a ring. -/
  | ringDestroy (m : BitVec 8) (ring : BitVec 9)
  /-- QUEUE_CONFIG (R421). QUEUE_CONFIG writes, enables, disables or resets a queue. -/
  | queueConfig (m : BitVec 8) (queue : BitVec 10) (op : QueueOp)
  /-- QUEUE_STATUS (R421). QUEUE_STATUS returns queue level and flags. -/
  | queueStatus (m : BitVec 8) (queue : BitVec 10)
  /-- BUFPOOL (R109). BUFPOOL writes a buffer pool entry. -/
  | bufpool (m : BitVec 8) (pool : BitVec 6) (words : List Word)
  /-- XOFF_IN (R333). XOFF_IN sets a pin's policy and polarity. -/
  | xoffIn (m : BitVec 8) (pin : Fin 16) (ignore polarity : Bool)
  /-- BAR2_WINDOW (R407). BAR2_WINDOW points a VF window at an HBM range. -/
  | bar2Window (m : BitVec 8) (f : Fin 17) (window : Fin 8) (base : BitVec 48)
  /-- COUPLER_PORT (R421). COUPLER_PORT sets gap and transmit-window values of a port. -/
  | couplerPort (m : BitVec 8) (port : Fin 16) (gapMax probes advMin advMax : Nat)
  /-- POWER_POLICY (R448). POWER_POLICY sets the deepest state, dwell and retained banks of a domain. -/
  | powerPolicy (m : BitVec 8) (domain : BitVec 8) (deepest : Fin 6) (dwellUs : Nat) (retain : BitVec 25) (sources : List (Fin 25 × BitVec 48 × List Nat))
  /-- POWER_STATE (R421). POWER_STATE returns domain states and abandoned counts. -/
  | powerState (m : BitVec 8)
  /-- TENDER_RULE (R421). TENDER_RULE writes a Tender rule. -/
  | tenderRule (m : BitVec 8) (rule : Fin 32) (cfg timing thresh action : Word)
  /-- HIBERNATE (R452). HIBERNATE arms wake rules and performs the chip entry into HIBERNATE. -/
  | hibernate (m : BitVec 8) (wakeMask : Word)
  /-- SELFTEST (R491). SELFTEST queues a self-test of a unit at its bench visit. -/
  | selftest (m : BitVec 8) (unitType index : Nat)
  /-- LANE_TEST (R425). LANE_TEST runs a loop test on a lane, or replies BUSY on a live port. -/
  | laneTest (m : BitVec 8) (lane : TestLane) (loop pattern : Nat)
  /-- READ_CSR (R421). READ_CSR returns CSR words. -/
  | readCsr (m : BitVec 8) (addr : BitVec 28) (n : Nat)
  /-- WRITE_CSR (R421). WRITE_CSR writes a CSR while secure debug is unlocked. -/
  | writeCsr (m : BitVec 8) (addr : BitVec 28) (value : Word)
  /-- TELEMETRY (R155). TELEMETRY names the host ring for telemetry records. -/
  | telemetry (m : BitVec 8) (ring : BitVec 9)
  /-- SNAPSHOT (R154). SNAPSHOT returns dispatcher measures read under one hold. -/
  | snapshot (m : BitVec 8)
  /-- READ_RECORD (R421). READ_RECORD returns a record-store record. -/
  | readRecord (m : BitVec 8) (kind : RecKind)
  /-- WRITE_RECORD (R421). WRITE_RECORD writes a record-store record. -/
  | writeRecord (m : BitVec 8) (kind : RecKind) (body : RecBody)
  /-- FAULT_LOG (R421). FAULT_LOG returns persistent fault-log records. -/
  | faultLog (m : BitVec 8) (first n : Nat)
  /-- FW_STAGE (R437). FW_STAGE authenticates a firmware image and loads it into the standby pair. -/
  | fwStage (m : BitVec 8) (signature : Bool) (secver : BitVec 7) (version : Nat) (supports : Bool) (revoke : BitVec 4) (signer : Fin 4)
  /-- FW_STATUS (R421). FW_STATUS returns the staging state. -/
  | fwStatus (m : BitVec 8)
  /-- FW_SWAP (R438). FW_SWAP makes the standby pair active at the next slot boundary. -/
  | fwSwap (m : BitVec 8) (refTl : Option (BitVec 8))
  /-- FW_SWAP_POINT (R438). At the swap point the pairs exchange roles. -/
  | fwSwapPoint
  /-- FW_COMMIT (R519). FW_COMMIT writes the image to flash, updates the descriptor and raises anti-rollback. -/
  | fwCommit (m : BitVec 8)
  /-- FW_ABORT (R438). FW_ABORT swaps back to the old firmware. -/
  | fwAbort (m : BitVec 8)
  /-- ERR_READ (R421). ERR_READ returns error records. -/
  | errRead (m : BitVec 8) (sev : Fin 3) (n : Nat)
  /-- ERR_CLEAR_FIRST (R502). ERR_CLEAR_FIRST clears a first-error capture. -/
  | errClearFirst (m : BitVec 8) (cls : FirstClass)
  /-- ERR_STREAM (R501). ERR_STREAM names a ring for error records. -/
  | errStream (m : BitVec 8) (ring : BitVec 9) (mask : BitVec 3)
  /-- MBX_RING_DB (R430). A ring doorbell write advances TAIL or HEAD, or is ignored with DB_BAD. -/
  | mbxRingDb (f : Fin 17) (ring : BitVec 9) (index : Word)
  /-- RING_ITEM_FETCH (R431). The ring engine fetches and stages new input items and hands them to GDX as tokens. -/
  | ringItemFetch (ring : BitVec 9) (item : List Word) (payload : List Byte)
  /-- RING_COALESCE_TIMER (R434). COAL_US after the oldest unsignalled item, the ring sends its vector. -/
  | ringCoalesceTimer (ring : BitVec 9)
  /-- PARAM_REQUEST (R435). Steol answers a PARAM.request from a control ring. -/
  | paramRequest (ring : BitVec 9)
  /-- CONFIG_REQUEST (R435). Steol handles a CONFIG.request as a CONFIGURE and replies in CONFIG.response. -/
  | configRequest (ring : BitVec 9) (remove : List Nat) (add : List CarrierDesc)
  /-- START_REQUEST (R435). Steol handles a START.request from a control ring. -/
  | startRequest (ring : BitVec 9) (locked delay : Bool)
  /-- STOP_REQUEST (R435). Steol handles a STOP.request from a control ring. -/
  | stopRequest (ring : BitVec 9)
  /-- POWER_REQUEST (R448). PWR_REQ GO requests a transition of a domain, judged by the causes of R448. -/
  | powerRequest (domain : BitVec 8) (target : BitVec 3)
  /-- AUTO_DOZE (R443). An idle cluster or row enters DOZE after IDLE_NS and its dwell. -/
  | autoDoze (domain : BitVec 8)
  /-- DOMAIN_DRAIN_COMPLETE (R449). The last run of a draining domain ends and entry continues to its next step. -/
  | domainDrainComplete (domain : BitVec 8)
  /-- ENTRY_STEP_COMPLETE (R449). An entry step ends, and the entry continues or is abandoned at an abort point. -/
  | entryStepComplete (domain : BitVec 8)
  /-- WAKE_COMPLETE (R451). A wake completes after its fixed delays and the domain's executors become free. -/
  | wakeComplete (domain : BitVec 8) (bad : List (Fin 25))
  /-- TRIM_CHANGE_COMPLETE (R449). A 2 µs transition into or out of TRIM completes. -/
  | trimChangeComplete (domain : BitVec 8)
  /-- STACK_WAKE_ON_ACCESS (R445). An access to a sleeping stack starts its wake and waits. -/
  | stackWakeOnAccess (addr : BitVec 48)
  /-- CHIP_WAKE (R453). A wake rule starts the wake order from HIBERNATE. -/
  | chipWake (rule : Fin 32)
  /-- WAKE_FAIL (R453). A rail not in tolerance by 2.5 ms fails the wake; one retry follows after 100 ms. -/
  | wakeFail
  /-- BROWNOUT (R455). The keep-domain supply falls below its threshold and the chip cold-starts. -/
  | brownout
  /-- TENDER_RULE_SAMPLE (R459). Each PERIOD a Tender rule samples and filters its input and acts on assertion. -/
  | tenderRuleSample (rule : Fin 32) (measured : BitVec 16)
  /-- SENSOR_SAMPLE (R468). A sensor is sampled at its interval and judged against the limits and the trip. -/
  | sensorSample (sensor : Fin 100) (count : BitVec 16)
  /-- TRIP_SUPPLY_OFF (R475). After the record program ends or 25 µs, the supply enables deassert. -/
  | tripSupplyOff
  /-- TRIP_RESTART (R479). After every Tender sensor reads below 90 °C for 1 s, the Tender starts a cold start unless locked out. -/
  | tripRestart
  /-- WARN_RESPONSE (R470). Steol sends a THERMAL event and writes a record when WARN sets. -/
  | warnResponse
  /-- THROTTLE_RESPONSE (R471). Steol sheds carriers to 512 SU and requests TRIM within 1 ms of THROTTLE. -/
  | throttleResponse
  /-- THROTTLE_SHED_TIMER (R471). While THROTTLE stays set, Steol sheds the next carrier every 10 ms. -/
  | throttleShedTimer
  /-- THROTTLE_RESTORE (R471). After THROTTLE is clear for 1 s, domains return to RUN and carriers are restored one per 100 ms. -/
  | throttleRestore
  /-- THM_LIMIT_WRITE (R469). A THM_LIMIT write stores the limits or is ignored with LIMIT_REFUSED. -/
  | thmLimitWrite (value : Word)
  /-- UNIT_FAULT_HANDLE (R485). Steol maps a bench replacement within 50 µs, records the retired unit and self-tests it. -/
  | unitFaultHandle (unit : FaultUnit) (pass : Bool)
  /-- ROTATION_STEP (R488). At each rotation step the next unit of a type leaves service for the tested bench unit. -/
  | rotationStep (group : RotGroup)
  /-- ROTATION_MAP_SWAP (R488). When the outgoing unit is idle, the bench map is rewritten in one cycle. -/
  | rotationMapSwap (group : RotGroup)
  /-- BENCH_SELF_TEST (R489). A bench unit's self-test ends, passing or retiring the unit. -/
  | benchSelfTest (unit : BitVec 16) (pass : Bool)
  /-- STEWARD_FAILOVER (R492). On lockstep mismatch or missing heartbeat the standby pair takes over. -/
  | stewardFailover
  /-- STANDBY_READY (R492). The failed pair passes its self-test, loads Steol and is mirrored, or is retired. -/
  | standbyReady (pass : Bool)
  /-- DEGRADED_DECLARE (R494). Steol declares a cluster- or row-scale fault, retires the domain and sheds carriers to D. -/
  | degradedDeclare (domain : Fin 28)
  /-- CARRIER_RESTORE (R498). Every 100 ms Steol restores one shed carrier that capacity allows again. -/
  | carrierRestore
  /-- ERROR_REPORT (R499). A block's error report is merged into a recent record, written as a new record, or dropped. -/
  | errorReport (kind cls sev id detail addr : Nat)
  /-- ECC_ERQ_PUSH_GO (R499). ECC_ERQ_PUSH_GO submits Steol's pushed record as a report. -/
  | eccErqPushGo
  /-- ERQ_RD_WRITE (R501). A write of ECC_ERQ RD advances the read index only forward and not past WR. -/
  | erqRdWrite (sev : Fin 3) (value : BitVec 16)
  /-- ERROR_RECORD_READ (R501). Steol reads each record, streams it, logs severity-2 records and sends ERROR_RECORD events. -/
  | errorRecordRead (sev : Fin 3)
  /-- MEMORY_READ (R263). A memory read corrects a CE with write-back, poisons a UE, or returns UNINIT zeros. -/
  | memoryRead (addr : BitVec 48) (table : Bool) (hbmClass : Fin 4) (upset : Upset)
  /-- FULL_WORD_WRITE (R269). A full-word write stores new check bits without reading, clearing poison. -/
  | fullWordWrite (addr : BitVec 48) (data : List Byte) (hbmClass : Fin 4)
  /-- PARTIAL_WRITE (R270). A partial write reads, merges and writes the word, keeping poison if present. -/
  | partialWrite (addr : BitVec 48) (data : List Byte) (hbmClass : Fin 4) (upset : Upset)
  /-- GRANULE_READY (R272). The HBM init engine passes the end of a granule and it becomes ready. -/
  | granuleReady (stack : Fin 4)
  /-- RCS_PROGRAM (R523). RCS_CMD GO starts a 32-byte word program, or is ignored or blocked. -/
  | rcsProgram
  /-- RCS_PROGRAM_COMPLETE (R523). A word program ends and its read-back verify passes or sets VERIFY_FAIL. -/
  | rcsProgramComplete (ok : Bool)
  /-- COLD_START (R511). A cold start runs the full boot sequence from the ROM. -/
  | coldStart (car : BitVec 3) (keep : BitVec 2) (pair0 : Bool) (board : BoardDesc) (search : Option (Fin 3))
  /-- BOOT_IMAGE_VERIFY (R517). The ROM checks a boot slot and starts Steol or tries the other slot. -/
  | bootImageVerify (fault : Fin 5) (secver : BitVec 7)
  /-- HBM_TRAINING_COMPLETE (R282). A stack finishes training, queued repairs run, and the init engine starts. -/
  | hbmTrainingComplete (stack : Fin 4) (ok : Bool) (noRes : List Nat) (left : BitVec 16)
  /-- STEOL_READY (R511). Steol reaches BOOT_STATE 5, sets STEOL_READY and stops the watchdog. -/
  | steolReady (board : BoardDesc) (cable : CableTable) (eq : List EqEntry)
  /-- WARM_RESET (R506). A warm reset resets logic outside the keep domain and reruns boot. -/
  | warmReset (pair0 : Bool)
  /-- RESET_N_RELEASE (R507). RESET_N low for at least 1 µs and released starts a warm reset or ends a lockout. -/
  | resetNRelease (pair0 : Bool)
  /-- RST_CTRL_WARM (R509). RST_CTRL.WARM with KEY 0x5A starts a warm reset. -/
  | rstCtrlWarm (key : BitVec 8)
  /-- RST_DOMAIN (R509). RST_DOMAIN GO resets an out-of-service or OFF cluster or row, or is refused. -/
  | rstDomain (domain : BitVec 8)
  /-- BOOT_WATCHDOG_EXPIRY (R512). The boot watchdog expires, sets BOOT_SLOT_NEXT and warm-resets, or fails the boot. -/
  | bootWatchdogExpiry
  /-- WDOG_KICK (R512). BOOT_CTRL.WDOG_KICK restarts the boot watchdog. -/
  | wdogKick
  /-- WDOG_STOP (R512). BOOT_CTRL.WDOG_STOP stops the boot watchdog. -/
  | wdogStop
  /-- DBG_REQ (R525). BOOT_DBG_CTRL.REQ fills a challenge under debug policy 1. -/
  | dbgReq (scope : BitVec 3)
  /-- DBG_GO (R525). BOOT_DBG_CTRL.GO verifies the response and unlocks or counts a failure. -/
  | dbgGo (ok : Bool)
  /-- DBG_LOCK (R526). BOOT_DBG_CTRL.LOCK ends the unlock. -/
  | dbgLock
  /-- RAIL_IN_BAND (R535). A rail enters its band and the next enable asserts 0.2 ms later, or power-on reset ends. -/
  | railInBand (rail : Fin 8)
  /-- RAIL_TIMEOUT (R536). A rail not in band within 5 ms deasserts the enables and retries after 1 s or locks out. -/
  | railTimeout
  /-- POWER_FAULT (R538). A rail beyond its monitor limit for 10 µs drops the enables and reruns power-up after 1 s. -/
  | powerFault (rail : Fin 7)
  /-- AVSBUS_WRITE (R534). The device writes a VDD_CORE setpoint; no acknowledge within 100 µs leaves it and writes a record. -/
  | avsbusWrite (mv : BitVec 12) (ack : Bool)
  /-- SMBUS_STATUS (R544). SMBus STATUS returns boot, brown-out, trip and rail status. -/
  | smbusStatus
  /-- TEMP_MAX (R544). SMBus TEMP_MAX returns the highest sensor reading. -/
  | tempMax
  /-- TEMP_TENDER (R544). SMBus TEMP_TENDER returns the highest Tender sensor. -/
  | tempTender
  /-- RAIL (R544). SMBus RAIL returns a rail voltage. -/
  | rail (n : Fin 8)
  /-- ALERT_RULES (R544). SMBus ALERT_RULES returns the asserted Tender rules. -/
  | alertRules
  /-- STATE (R544). SMBus STATE returns the chip state code. -/
  | state
  /-- SMBUS_TIMEOUT (R544). SMB_CLK low for 25 ms resets the SMBus interface and releases the lines. -/
  | smbusTimeout
  /-- SCL_MAP_WRITE (R565). A Steward write of SCL_MAP is checked and pends until the cores are idle. -/
  | sclMapWrite (c : Fin 24) (map : Word)
  /-- SCL_MAP_APPLY (R565). Each remapped slot takes its new core when both cores are idle. -/
  | sclMapApply (c : Fin 24)
  /-- SCL_LEND_WRITE (R566). A Steward write of SCL_LEND requests or ends the lending of a bench core to another cluster. -/
  | sclLendWrite (c : Fin 24) (logical : BitVec 8) (en : Bool)
  /-- SCL_LEND_APPLY (R566). The lend starts or ends in the first cycle the bench core is idle. -/
  | sclLendApply (c : Fin 24)
  /-- TIMING_CLOCK_TICK (R35). At every tick of the 625 MHz timing clock each domain counter adds its increment, and the slew unit moves the residual toward zero. -/
  | timingClockTick
  /-- VDD_AON_REMOVAL (R480). Removal of VDD_AON takes the chip to OFF and clears the trip history and the latched brown-out and trip causes. -/
  | vddAonRemoval
  /-- RESET_N_ASSERT (R507). RESET_N held low for at least 1 µs puts the chip into reset, waiting up to 20 µs for a record-store program in progress. -/
  | resetNAssert
  /-- RETURN_OF_SIGNAL (R386). A coupler receive direction in LISTEN returns to ON 150 ns after signal returns on its data lanes, restored to its trained point. -/
  | returnOfSignal (port : Fin 16)
  deriving DecidableEq, Repr

end Sys2Proof
end

