-- ==== Sys2Proof/Decode.lean ====
section
/-!
DEFINITION. Sys2Proof/Decode.lean: the command that a word spells by the bits of the opcode table.  The table gives no bits for any row of
this block: its commands are register accesses, messages and events, and no word spells one.
-/
namespace Sys2Proof

/-- The command of an instruction word: none, for the table gives no row any bits. -/
def decodeTableWord (_nbits _w : Nat) : Option Instr := none

end Sys2Proof
end

