-- ==== Sys2Proof/Machine/Tab.lean ====
section
/-!
DEFINITION. Sys2Proof/Machine/Tab.lean: sparse tables (a value for every key, the listed ones first) and the byte memory in its
canonical form: addresses strictly rising and no listed byte equal to 0, which an unlisted address reads as.
-/
namespace Sys2Proof.Machine

/-- A table: listed keys hold the listed value, every other key a default the reader names. -/
abbrev Tab (κ : Type) (α : Type) := List (κ × α)

/-- The value of a key, or d where the key is not listed. -/
def Tab.get {κ α : Type} [DecidableEq κ] (d : α) : Tab κ α → κ → α
  | [], _ => d
  | (k', v) :: m, k => if k' = k then v else Tab.get d m k

/-- The table with one key changed, in place where it is listed. -/
def Tab.set {κ α : Type} [DecidableEq κ] : Tab κ α → κ → α → Tab κ α
  | [], k, v => [(k, v)]
  | (k', v') :: m, k, v => if k' = k then (k, v) :: m else (k', v') :: Tab.set m k v

/-- The listed value of a key, if any. -/
def Tab.find {κ α : Type} [DecidableEq κ] : Tab κ α → κ → Option α
  | [], _ => none
  | (k', v) :: m, k => if k' = k then some v else Tab.find m k

/-- The table without one key. -/
def Tab.erase {κ α : Type} [DecidableEq κ] (m : Tab κ α) (k : κ) : Tab κ α := m.filter (fun p => p.1 ≠ k)

/-- The byte memory: R550's memories in one list of (address, byte) pairs. -/
abbrev Memory := List Host.Cell

/-- One byte; an unlisted address reads as 0 (R271 to R273; log entry 4). -/
def Memory.read : Memory → Nat → Byte
  | [], _ => 0
  | (b, w) :: m, a => if b = a then w else Memory.read m a

/-- Write one byte and keep the canonical form. -/
def Memory.write : Memory → Nat → Byte → Memory
  | [], a, v => if v = 0 then [] else [(a, v)]
  | (b, w) :: m, a, v =>
    if a < b then (if v = 0 then (b, w) :: m else (a, v) :: (b, w) :: m)
    else if a = b then (if v = 0 then m else (a, v) :: m)
    else (b, w) :: Memory.write m a v

/-- Addresses above lo, strictly rising, and no byte 0. -/
def Memory.wfFrom : Nat → Memory → Bool
  | _, [] => true
  | lo, (b, w) :: m => decide (lo ≤ b) && decide (w ≠ 0) && Memory.wfFrom (b + 1) m

/-- The canonical form. -/
def Memory.wf (m : Memory) : Bool := Memory.wfFrom 0 m

/-- Write bytes at rising addresses. -/
def Memory.writeBytes : Memory → Nat → List Byte → Memory
  | m, _, [] => m
  | m, a, b :: bs => Memory.writeBytes (m.write a b) (a + 1) bs

/-- n bytes from a on. -/
def Memory.readBytes (m : Memory) (a : Nat) : Nat → List Byte
  | 0 => []
  | n + 1 => m.read a :: Memory.readBytes m (a + 1) n

/-- The number that bytes spell, least significant first. -/
def leNat : List Byte → Nat
  | [] => 0
  | b :: bs => b.toNat + 256 * leNat bs

/-- n bytes of a number, least significant first. -/
def natLe : Nat → Nat → List Byte
  | 0, _ => []
  | n + 1, x => BitVec.ofNat 8 x :: natLe n (x / 256)

/-- The little-endian number of n bytes at a. -/
def Memory.readLE (m : Memory) (a n : Nat) : Nat := leNat (m.readBytes a n)

/-- Write n bytes of x, least significant first. -/
def Memory.writeLE (m : Memory) (a n x : Nat) : Memory := m.writeBytes a (natLe n x)

/-- The 32-bit word at a. -/
def Memory.word (m : Memory) (a : Nat) : Nat := m.readLE a 4

/-- Write the 32-bit word at a. -/
def Memory.setWord (m : Memory) (a x : Nat) : Memory := m.writeLE a 4 x

end Sys2Proof.Machine
end

