-- ==== Sys2Proof/Config.lean ====
section
/-!
DEFINITION. Sys2Proof/Config.lean: the free values, that is, the values the spec leaves open and after which the device goes
on.  Each is a constant with no body, applied to the counter State.free (or to the operands it depends on), so nothing can be
proved about which value it is.  The log entry that declares each one is named beside it.
-/
namespace Sys2Proof.Config

/-- A free natural number, by the use counter (log entry 3). -/
opaque freeNat : Nat → Nat

/-- A free integer, by the use counter (log entry 3). -/
opaque freeInt : Nat → Int

/-- A free choice, by the use counter (log entry 3). -/
opaque freeBool : Nat → Bool

/-- A free byte, by the use counter and a position (log entry 3). -/
opaque freeByte : Nat → Nat → Byte

/-- The SRAM macro an address lies in, in the 16 bits of MACRO (Table 9-5); the spec gives no geometry (log entry 11). -/
opaque macroOf : Nat → Nat

/-- The cluster an SRAM macro lies in, above 23 for system SRAM (log entry 11). -/
opaque macroCluster : Nat → Nat

/-- The bank of an HBM line within its channel (log entry 11). -/
opaque bankOf : Nat → Nat

/-- The row an address lies in within its macro or bank (log entry 11). -/
opaque rowOf : Nat → Nat

/-- The column of bit position p of the word at an address, within its macro (log entry 11). -/
opaque colOf : Nat → Nat → Nat

/-- A result the spec states no value for, by an operation code and the operands (log entry 12). -/
opaque openNat : List Int → Nat

/-- A value of an engine's result that the spec leaves to the radio standards: a function of the operation and parameters, the
input bytes, and which value it is (R219, R231; log entry 15). -/
opaque engine : List Nat → List (List Byte) → List Nat → Nat

end Sys2Proof.Config
end

