-- ==== Sys2Proof/Machine/Reg.lean ====
section
/-!
DEFINITION. Sys2Proof/Machine/Reg.lean: the names of the registers, one constructor for each row of Table 20-6 of
20_register_reference.md (R568), in its order; the blocks that hold them; the access codes of R10; and the shape of
a register key, a field name and a field description.  A register T_x of Table 20-6 is written once and is told apart
by the engine instance of its key; TBU[d].x is written TBU_D_x.
-/
namespace Sys2Proof.Machine

/-- A register name of Table 20-6 (R568). -/
inductive Reg where
  | ACR_PORT_BYTES | ACR_PORT_WAIT | ACR_STATUS | AFT_SNAP_BANK_REFS | AFT_SNAP_COORD | AFT_SNAP_OFFSET_NS 
  | AFT_SNAP_SEL | AFT_STATUS | AFT_STREAM_TABLE_BASE | AFT_TDD_TABLE_BASE | AFT_TL_CMD | AFT_TL_CMD_ARG 
  | AFT_TL_EN | AFT_TL_TABLE_BASE | BLOCKED_CREATE | BMV_ACT_CFG | BMV_ACT_DST_HI | BMV_ACT_DST_LO 
  | BMV_ACT_FILL | BMV_ACT_LEN | BMV_ACT_SRC_HI | BMV_ACT_SRC_LO | BMV_CH_CLAIM | BMV_CH_CMP_OFFSET 
  | BMV_CH_CTRL | BMV_CH_DONE_BYTES | BMV_CH_ERR_DST_LO | BMV_CH_ERR_HI | BMV_CH_ERR_LEN | BMV_CH_ERR_SRC_LO 
  | BMV_CH_INTDEST | BMV_CH_OWNER | BMV_CH_REMAINING | BMV_CH_REQ_WAIT | BMV_CH_STATUS | BMV_ENG_BYTES 
  | BMV_ENG_FOREIGN_WR | BMV_ENG_INJ | BMV_ENG_MAP | BMV_ENG_STATUS | BMV_SH_CFG | BMV_SH_DST_HI 
  | BMV_SH_DST_LO | BMV_SH_FILL | BMV_SH_LEN | BMV_SH_SRC_HI | BMV_SH_SRC_LO | BOOT_CTRL | BOOT_DBG_CHAL 
  | BOOT_DBG_CTRL | BOOT_DBG_RESP | BOOT_DBG_STATUS | BOOT_STATUS | CANCEL_NOINST | CANCEL_SAME_CYCLE 
  | CPL_BIP_ERR | CPL_CONSIST | CPL_CONV_SENT | CPL_CRC_ERR_SAMPLE | CPL_CRC_ERR_TOKEN | CPL_DELAY_ASYM 
  | CPL_DELAY_OWD_RX | CPL_DELAY_OWD_TX | CPL_DELAY_RTT | CPL_GAP_IGNORED | CPL_GAP_MAX | CPL_HDR_ERR 
  | CPL_LANE_CTRL | CPL_LANE_LOOP_ERR | CPL_LANE_PHASE | CPL_LANE_STATUS | CPL_LINK_DOWN | CPL_PORT_CTRL 
  | CPL_PORT_EQ | CPL_PORT_EVENTS | CPL_PORT_LANE_MAP | CPL_PORT_PARTNER | CPL_PORT_PFEAT | CPL_PORT_STATUS 
  | CPL_RETRAINS | CPL_ROUTE | CPL_ROUTE_EN | CPL_SID_NOMATCH | CPL_STREAM_TABLE_BASE | CPL_TIME_INFO 
  | CPL_TIME_OFFSET | CPL_TOKEN_LOST | CPL_TOKEN_NOBUF | CPL_TOKEN_POOL | CPL_TOKEN_RESENT | CPL_TOKEN_TOOBIG 
  | CPL_TX_ADV_MAX | CPL_TX_ADV_MIN | CPL_TX_LATE | DEADLINE_LATE_CANCEL | DUP_CREATE | DUP_TOKEN | ECC_CE_HBM 
  | ECC_CE_RCS | ECC_CE_SRAM | ECC_CTRL | ECC_ERQ_CTRL | ECC_ERQ_FIRST | ECC_ERQ_FIRST_VALID | ECC_ERQ_LOST 
  | ECC_ERQ_PUSH | ECC_ERQ_PUSH_GO | ECC_ERQ_BASE | ECC_ERQ_COALESCED | ECC_ERQ_RD | ECC_ERQ_STATUS 
  | ECC_ERQ_WR | ECC_FIRST_ADDR_HI | ECC_FIRST_ADDR_LO | ECC_FIRST_STATUS | ECC_INJ | ECC_INJ_ADDR_HI 
  | ECC_INJ_ADDR_LO | ECC_POISON_MERGE | ECC_POISON_READ | ECC_ROW_EVICT | ECC_ROWTAB_ID | ECC_ROWTAB_ROW 
  | ECC_ROWTAB_SEL | ECC_UE_HBM | ECC_UE_RCS | ECC_UE_SRAM | ECC_UNINIT_READ | FAILED | FCE_BADMETH | FCE_CTRL 
  | FCE_DISAGREE | FCE_ERASED | FCE_PRB | FUS_DATA | FUS_SEL | FUS_SPARE | FUS_SPARE_SEL | FUS_STATUS 
  | GDX_ADM_REFUSED | GDX_BUFPOOL_BASE | GDX_CFG | GDX_CLASS_DEPTH | GDX_CLASS_RESERVE | GDX_CLASS_STATE 
  | GDX_CTRL | GDX_HIST | GDX_INST_CMD | GDX_INST_STATUS | GDX_LOAD | GDX_POOL_BAL_HI | GDX_POOL_BAL_LO 
  | GDX_POOL_SEL | GDX_SNAP | GDX_STATUS | GDX_TELEM_BASE | GDX_TELEM_LOST | GDX_TELEM_RD | GDX_TELEM_SIZE 
  | GDX_TELEM_WR | GDX_TPL_ADDR_HI | GDX_TPL_ADDR_LO | GDX_TPL_CMD | GDX_TPL_STATUS | GDX_WAIT_MAX | INST_LIVE 
  | INST_REFUSED | L0_OVER | MBX_CSR_WIN | MBX_DEV_EVENT | MBX_DEV_STATUS | MBX_DEV_TIME_NS 
  | MBX_DEV_TIME_SEC_HI | MBX_DEV_TIME_SEC_LO | MBX_DOORBELL | MBX_IRQ | MBX_OWNER | MBX_RING_DB 
  | MBX_RING_DETACH_DROP | MBX_RING_ERR_DROP | MBX_RING_HEAD | MBX_RING_IRQ | MBX_RING_STALE | MBX_RING_STATUS 
  | MBX_RING_TAIL | MBX_STATUS | MEM_CH_BYTES | MEM_CH_ERASE | MEM_CH_ERASE_HITS | MEM_CH_ODECC | MEM_CH_SEL 
  | MEM_INIT | MEM_PPR | MEM_READY_HI | MEM_READY_LO | MEM_STATUS | MXC_BUSY | MXC_CTRL | MXC_FAULT 
  | MXC_LOCK_WAIT | MXC_OWNER | MXC_RESTORES | MXC_SAVES | MXC_SQUASHED | MXC_STATUS | MXC_WAITERS 
  | NET_CTRLQ_DROP | NET_FALLBACK | NET_FAULTY_LANE | NET_FEC_CORR_SYM | NET_FEC_CW | NET_FEC_UNCORR 
  | NET_FH_CMD | NET_FH_CP_EXTRA | NET_FH_LUT_BASE | NET_FH_RX_MAX | NET_FH_RX_MIN | NET_FH_TX_MAX 
  | NET_FH_TX_MIN | NET_GRP_CFG | NET_LANE_CTRL | NET_LANE_FROZEN_US | NET_LANE_PRBS_BITS_HI 
  | NET_LANE_PRBS_BITS_LO | NET_LANE_PRBS_CTRL | NET_LANE_PRBS_ERR | NET_LANE_PRBS_STATUS | NET_LANE_STATUS 
  | NET_LANE_TXFFE | NET_LINK_DOWN | NET_MACSEC_BYPASS | NET_MACSEC_DROP | NET_MACSEC_KEY | NET_MACSEC_SA_CMD 
  | NET_MACSEC_SA_SEL | NET_NOPARTNER | NET_PFC_RX | NET_PFC_TX | NET_PORT_CTRL | NET_PORT_CTRLQ 
  | NET_PORT_FRAME | NET_PORT_MAC_HI | NET_PORT_MAC_LO | NET_PORT_MCAST | NET_PORT_STATUS | NET_RX_CPLANE_BAD 
  | NET_RX_EARLY | NET_RX_ECPRI_BAD | NET_RX_FCS_ERR | NET_RX_FILTER | NET_RX_FRAMES | NET_RX_LATE 
  | NET_RX_NOMATCH | NET_RX_PAUSE | NET_RX_SEQ_ERR | NET_RX_SIZE_ERR | NET_TX_BAD | NET_TX_DOWN_DROP 
  | NET_TX_FRAMES | NET_TX_LATE | NET_TX_NOMATCH | NODE_LIVE | POOL_EMPTY | PWR_AUTO_DOZE | PWR_DOM_ABANDONED 
  | PWR_DOM_ENTRIES | PWR_DOM_POLICY | PWR_DOM_REFUSED | PWR_DOM_RETAIN | PWR_DOM_SEL | PWR_DOM_STATE 
  | PWR_DOM_WAKES | PWR_KEEP | PWR_REQ | PWR_REQ_STATUS | PWR_RET_LOST | RCS_ADDR | RCS_CMD | RCS_DATA 
  | RCS_PROGRAMS | RCS_STATUS | REFILL_BAD | RELBUF_STALL | RELBUF_USED | REMOTE_HOLD_DROP | REPLAYS 
  | RST_CAUSE | RST_CTRL | RST_DOMAIN | RST_DOMAIN_STATUS | SCL_LEND | SCL_MAP | SCL_STATUS | SIG_A_HI 
  | SIG_A_LO | SIG_B_HI | SIG_B_LO | SIG_C_HI | SIG_C_LO | SINK_FULL | SQ_CMD | SQ_CMD_STATUS | SQ_CTRL 
  | SQ_PFC_CFG | SQ_Q_CREDITS | SQ_Q_DROPS | SQ_Q_GAPS | SQ_Q_LEVEL | SQ_Q_SEQ | SQ_Q_STATUS | SQ_SEL 
  | SQ_TABLE_BASE | SQ_XOFF_IN_POL | SQ_XOFF_IN_POLICY | SQ_XOFF_IN_STATE | SQ_XOFF_IN_STUCK_SEEN 
  | SQ_XOFF_OUT_POL | SQ_XOFF_OUT_STATE | STALE_INPUT | TBU_ACT_SNAP_FRAC | TBU_ACT_SNAP_NS 
  | TBU_ACT_SNAP_SEC_HI | TBU_ACT_SNAP_SEC_LO | TBU_CLK10M_CTRL | TBU_CTRL | TBU_HOLDOVER | TBU_JUMP_LIMIT 
  | TBU_PORT_CFG | TBU_PORT_CORR_RX | TBU_PORT_CORR_TX | TBU_PORT_EXT_RX | TBU_PORT_EXT_TX | TBU_PORT_TS_LOST 
  | TBU_PPS_IN_CTRL | TBU_PPS_IN_STAMP_A_FRAC | TBU_PPS_IN_STAMP_A_NS | TBU_PPS_IN_STAMP_A_SEC 
  | TBU_PPS_IN_STAMP_B_FRAC | TBU_PPS_IN_STAMP_B_NS | TBU_PPS_IN_STAMP_B_SEC | TBU_PPS_IN_STATUS 
  | TBU_PPS_OUT_CTRL | TBU_PPS_OUT_OFFSET_NS | TBU_REF_STATUS | TBU_SLEW_RESID_NS | TBU_SNAP | TBU_STATUS 
  | TBU_SWITCH | TBU_D_INC_FRAC | TBU_D_INC_NS | TBU_D_SET_SEC_HI | TBU_D_SET_SEC_LO | TBU_D_SNAP_FRAC 
  | TBU_D_SNAP_NS | TBU_D_SNAP_SEC_HI | TBU_D_SNAP_SEC_LO | TBU_D_SOURCE | TBU_D_STATUS | TBU_D_STEP_CTRL 
  | TBU_D_STEP_FRAC | TBU_D_STEP_NS | THM_CTRL | THM_FAILED | THM_INJ | THM_LIMIT | THM_MAX | THM_PEAK 
  | THM_SENSOR | THM_SENSOR_COUNT | THM_SENSOR_SEL | THM_STATUS | THM_TRIP_AGE | THM_TRIP_HIST | TND_CTRL 
  | TND_INPUT_SEL | TND_INPUT_VALUE | TND_RULE_ACTION | TND_RULE_CFG | TND_RULE_THRESH | TND_RULE_TIMING 
  | TND_STATUS | T_AUX | T_BUSY | T_CTRL | T_DESC | T_FAIL | T_FAULT | T_ITEMS | T_JOBS | T_STATUS | UMP_CTRL 
  | UMP_FIRST_EXEC | UMP_FIRST_NODE | UMP_FIRST_TIE | UMP_INJECT | UMP_MATCH | UMP_MISMATCH | UMP_NOMATCH 
  | UMP_ONE_FAULT | UMP_SINGLE | UMP_TIE_A | UMP_TIE_B | VSC_CTRL | VSC_FAULT | VSC_FAULT_PC | VSC_STALL 
  | VSC_STATUS | VSC_STICKY | WHS_ARM | WHS_CTRL | WHS_DISARM | WHS_GRACE | WHS_PIN_LATE | WHS_PIN_MISSED 
  | WHS_PIN_MISSED_CNT | WHS_PIN_SHORT | WHS_PIN_COORD | WHS_PIN_CTRL | WHS_PIN_DELTA_NS | WHS_PIN_TIMING 
  | WHS_SPILL | WHS_STATUS | WHS_TABLE_BASE 
  deriving DecidableEq, Repr

/-- The block whose page holds a register (Table 20-6); the nine engine types share ENG. -/
inductive Block where
  | ACR | AFT | GDX | BMV | BOOT | CPL | CPL_CMN | ECC | FCE | FUS | MBX | MEM | MXC | NET | PWR | RCS | RST | SCL | UMP | SQ | TBU | THM | TND | ENG | VSC | WHS
  deriving DecidableEq, Repr

/-- The access codes of Table 0-4 (R10).  RSV bits are the bits no field covers. -/
inductive Acc where
  | RW | RO | WO | W1C | W1S | RC
  deriving DecidableEq, Repr

/-- Which register: its name, the instance of its block (Table 20-2), and the index inside the instance (a port, lane,
channel, pin, mailbox, ring or word; for a view register of R564 the element viewed). -/
structure RegKey where
  reg : Reg
  inst : Nat
  idx : Nat
  deriving DecidableEq, Repr

/-- A field of a register: its lowest bit and its length. -/
structure Fld where
  reg : Reg
  lo : Nat
  len : Nat
  deriving DecidableEq, Repr

/-- One row of a register table: bits, access code and the value of the Reset column (R10, R559). -/
structure FieldDef where
  lo : Nat
  len : Nat
  acc : Acc
  reset : Nat
  deriving DecidableEq, Repr

/-- Where Table 20-6 puts a register: block, offset of index 0, stride and count of its index, and stride and count of
an outer index where it has two. -/
structure Place where
  block : Block
  off : Nat
  stride : Nat
  count : Nat
  stride2 : Nat
  count2 : Nat
  deriving DecidableEq, Repr

end Sys2Proof.Machine
end

