-- ==== Sys2Proof/Machine/RegTable.lean ====
section
/-!
DEFINITION. Sys2Proof/Machine/RegTable.lean: the register tables of the spec as data.  Reg.fields gives every field of
every register with its access code and reset value, from the register tables of the owning chapters; bits that no field
covers are reserved (RSV, read 0).  Reg.place gives Table 20-6.  The names F.<register>_<field> are the fields.
A reset that the tables leave unstated, "straps", "instance" or "—" stands here as 0; notes/assumptions/1.md names them.
-/
namespace Sys2Proof.Machine

/-- The fields of a register (tables named in INVENTORY.md, State). -/
def Reg.fields : Reg → List FieldDef
  | .ACR_PORT_BYTES => [⟨0, 32, .RC, 0x0⟩]
  | .ACR_PORT_WAIT => [⟨0, 32, .RC, 0x0⟩]
  | .ACR_STATUS => [⟨0, 1, .RO, 0x0⟩]
  | .AFT_SNAP_BANK_REFS => [⟨0, 1, .RO, 0x0⟩, ⟨8, 8, .RO, 0x0⟩, ⟨16, 8, .RO, 0x0⟩]
  | .AFT_SNAP_COORD => [⟨0, 32, .RO, 0x0⟩]
  | .AFT_SNAP_OFFSET_NS => [⟨0, 19, .RO, 0x0⟩]
  | .AFT_SNAP_SEL => [⟨0, 8, .RW, 0x0⟩]
  | .AFT_STATUS => [⟨0, 1, .W1C, 0x0⟩, ⟨1, 3, .RO, 0x0⟩, ⟨4, 1, .RO, 0x0⟩]
  | .AFT_STREAM_TABLE_BASE => [⟨0, 26, .RW, 0x0⟩]
  | .AFT_TDD_TABLE_BASE => [⟨0, 26, .RW, 0x0⟩]
  | .AFT_TL_CMD => [⟨0, 8, .RW, 0x0⟩, ⟨8, 2, .RW, 0x0⟩, ⟨31, 1, .WO, 0x0⟩]
  | .AFT_TL_CMD_ARG => [⟨0, 16, .RW, 0x0⟩, ⟨16, 8, .RW, 0x0⟩]
  | .AFT_TL_EN => [⟨0, 32, .RO, 0x0⟩]
  | .AFT_TL_TABLE_BASE => [⟨0, 26, .RW, 0x0⟩]
  | .BLOCKED_CREATE => [⟨0, 32, .RC, 0x0⟩]
  | .BMV_ACT_CFG => [⟨0, 2, .RO, 0x0⟩, ⟨2, 2, .RO, 0x0⟩, ⟨4, 1, .RO, 0x0⟩, ⟨5, 1, .RO, 0x0⟩, ⟨6, 1, .RO, 0x0⟩, ⟨7, 1, .RO, 0x0⟩, ⟨8, 6, .RO, 0x0⟩, ⟨16, 3, .RO, 0x0⟩, ⟨19, 2, .RO, 0x0⟩, ⟨24, 8, .RO, 0x0⟩]
  | .BMV_ACT_DST_HI => [⟨0, 16, .RO, 0x0⟩]
  | .BMV_ACT_DST_LO => [⟨0, 32, .RO, 0x0⟩]
  | .BMV_ACT_FILL => [⟨0, 32, .RO, 0x0⟩]
  | .BMV_ACT_LEN => [⟨0, 32, .RO, 0x0⟩]
  | .BMV_ACT_SRC_HI => [⟨0, 16, .RO, 0x0⟩]
  | .BMV_ACT_SRC_LO => [⟨0, 32, .RO, 0x0⟩]
  | .BMV_CH_CLAIM => [⟨0, 1, .W1S, 0x0⟩]
  | .BMV_CH_CMP_OFFSET => [⟨0, 32, .RO, 0x0⟩]
  | .BMV_CH_CTRL => [⟨0, 1, .WO, 0x0⟩, ⟨1, 1, .WO, 0x0⟩, ⟨2, 1, .WO, 0x0⟩]
  | .BMV_CH_DONE_BYTES => [⟨0, 32, .RO, 0x0⟩]
  | .BMV_CH_ERR_DST_LO => [⟨0, 32, .RO, 0x0⟩]
  | .BMV_CH_ERR_HI => [⟨0, 16, .RO, 0x0⟩, ⟨16, 16, .RO, 0x0⟩]
  | .BMV_CH_ERR_LEN => [⟨0, 10, .RO, 0x0⟩]
  | .BMV_CH_ERR_SRC_LO => [⟨0, 32, .RO, 0x0⟩]
  | .BMV_CH_INTDEST => [⟨0, 11, .RW, 0x0⟩, ⟨11, 1, .RW, 0x0⟩]
  | .BMV_CH_OWNER => [⟨0, 4, .RO, 0x0⟩, ⟨4, 1, .RO, 0x0⟩, ⟨16, 16, .RO, 0x0⟩]
  | .BMV_CH_REMAINING => [⟨0, 32, .RO, 0x0⟩]
  | .BMV_CH_REQ_WAIT => [⟨0, 32, .RC, 0x0⟩]
  | .BMV_CH_STATUS => [⟨0, 2, .RO, 0x0⟩, ⟨2, 1, .RO, 0x0⟩, ⟨3, 1, .W1C, 0x0⟩, ⟨4, 1, .W1C, 0x0⟩, ⟨5, 1, .W1C, 0x0⟩, ⟨6, 1, .W1C, 0x0⟩, ⟨7, 1, .W1C, 0x0⟩, ⟨8, 3, .RO, 0x0⟩, ⟨11, 1, .W1C, 0x0⟩, ⟨12, 1, .W1C, 0x0⟩, ⟨13, 1, .RO, 0x0⟩, ⟨14, 1, .RO, 0x0⟩, ⟨16, 16, .RO, 0x0⟩]
  | .BMV_ENG_BYTES => [⟨0, 32, .RC, 0x0⟩]
  | .BMV_ENG_FOREIGN_WR => [⟨0, 32, .RC, 0x0⟩]
  | .BMV_ENG_INJ => [⟨0, 3, .RW, 0x0⟩, ⟨31, 1, .W1S, 0x0⟩]
  | .BMV_ENG_MAP => [⟨0, 32, .RW, 0x76543210⟩]
  | .BMV_ENG_STATUS => [⟨0, 1, .W1C, 0x0⟩, ⟨1, 12, .RO, 0x0⟩, ⟨13, 1, .RO, 0x0⟩, ⟨14, 1, .W1C, 0x0⟩, ⟨16, 4, .RO, 0x8⟩]
  | .BMV_SH_CFG => [⟨0, 2, .RW, 0x0⟩, ⟨2, 2, .RW, 0x2⟩, ⟨4, 1, .RW, 0x0⟩, ⟨5, 1, .RW, 0x0⟩, ⟨6, 1, .RW, 0x0⟩, ⟨7, 1, .RW, 0x0⟩, ⟨8, 6, .RW, 0x0⟩, ⟨16, 3, .RW, 0x3⟩, ⟨19, 2, .RW, 0x3⟩, ⟨24, 8, .RW, 0x1F⟩]
  | .BMV_SH_DST_HI => [⟨0, 16, .RW, 0x0⟩]
  | .BMV_SH_DST_LO => [⟨0, 32, .RW, 0x0⟩]
  | .BMV_SH_FILL => [⟨0, 32, .RW, 0x0⟩]
  | .BMV_SH_LEN => [⟨0, 32, .RW, 0x0⟩]
  | .BMV_SH_SRC_HI => [⟨0, 16, .RW, 0x0⟩]
  | .BMV_SH_SRC_LO => [⟨0, 32, .RW, 0x0⟩]
  | .BOOT_CTRL => [⟨0, 1, .WO, 0x0⟩, ⟨1, 1, .WO, 0x0⟩, ⟨2, 1, .RO, 0x0⟩, ⟨3, 1, .RO, 0x0⟩]
  | .BOOT_DBG_CHAL => [⟨0, 32, .RO, 0x0⟩]
  | .BOOT_DBG_CTRL => [⟨0, 1, .WO, 0x0⟩, ⟨1, 3, .RW, 0x0⟩, ⟨4, 1, .WO, 0x0⟩, ⟨5, 1, .WO, 0x0⟩]
  | .BOOT_DBG_RESP => [⟨0, 32, .WO, 0x0⟩]
  | .BOOT_DBG_STATUS => [⟨0, 1, .RO, 0x0⟩, ⟨1, 3, .RO, 0x0⟩, ⟨4, 2, .RO, 0x0⟩, ⟨6, 1, .RO, 0x0⟩, ⟨7, 1, .RO, 0x0⟩]
  | .BOOT_STATUS => [⟨0, 4, .RO, 0x0⟩, ⟨4, 1, .RO, 0x0⟩, ⟨5, 1, .RO, 0x0⟩, ⟨6, 1, .RO, 0x0⟩, ⟨7, 1, .RO, 0x0⟩, ⟨8, 4, .RO, 0x0⟩, ⟨12, 4, .RO, 0x0⟩, ⟨16, 7, .RO, 0x0⟩, ⟨23, 7, .RO, 0x0⟩]
  | .CANCEL_NOINST => [⟨0, 32, .RC, 0x0⟩]
  | .CANCEL_SAME_CYCLE => [⟨0, 32, .RC, 0x0⟩]
  | .CPL_BIP_ERR => [⟨0, 32, .RC, 0x0⟩]
  | .CPL_CONSIST => [⟨0, 3, .RO, 0x0⟩, ⟨3, 4, .RW, 0x0⟩, ⟨7, 1, .RW, 0x0⟩, ⟨8, 16, .RW, 0x3E8⟩]
  | .CPL_CONV_SENT => [⟨0, 32, .RC, 0x0⟩]
  | .CPL_CRC_ERR_SAMPLE => [⟨0, 32, .RC, 0x0⟩]
  | .CPL_CRC_ERR_TOKEN => [⟨0, 32, .RC, 0x0⟩]
  | .CPL_DELAY_ASYM => [⟨0, 32, .RW, 0x0⟩]
  | .CPL_DELAY_OWD_RX => [⟨0, 32, .RO, 0x0⟩]
  | .CPL_DELAY_OWD_TX => [⟨0, 32, .RO, 0x0⟩]
  | .CPL_DELAY_RTT => [⟨0, 32, .RO, 0x0⟩]
  | .CPL_GAP_IGNORED => [⟨0, 32, .RC, 0x0⟩]
  | .CPL_GAP_MAX => [⟨0, 15, .RW, 0xFA0⟩]
  | .CPL_HDR_ERR => [⟨0, 32, .RC, 0x0⟩]
  | .CPL_LANE_CTRL => [⟨0, 1, .WO, 0x0⟩, ⟨1, 2, .RW, 0x0⟩, ⟨3, 1, .RW, 0x0⟩]
  | .CPL_LANE_LOOP_ERR => [⟨0, 32, .RC, 0x0⟩]
  | .CPL_LANE_PHASE => [⟨0, 16, .RO, 0x0⟩]
  | .CPL_LANE_STATUS => [⟨0, 1, .RO, 0x0⟩, ⟨1, 1, .RO, 0x0⟩, ⟨2, 1, .RO, 0x0⟩, ⟨3, 1, .W1C, 0x0⟩, ⟨4, 1, .RO, 0x0⟩, ⟨5, 1, .W1C, 0x0⟩, ⟨6, 1, .W1C, 0x0⟩, ⟨7, 1, .RO, 0x0⟩, ⟨8, 7, .RO, 0x0⟩]
  | .CPL_LINK_DOWN => [⟨0, 32, .RC, 0x0⟩]
  | .CPL_PORT_CTRL => [⟨0, 1, .RW, 0x0⟩, ⟨1, 2, .RW, 0x0⟩, ⟨3, 1, .RW, 0x1⟩, ⟨4, 1, .RW, 0x0⟩, ⟨5, 2, .RW, 0x0⟩, ⟨7, 2, .RW, 0x0⟩, ⟨9, 1, .RW, 0x1⟩, ⟨10, 4, .RW, 0x4⟩]
  | .CPL_PORT_EQ => [⟨0, 5, .RW, 0x0⟩, ⟨5, 5, .RW, 0x0⟩, ⟨10, 5, .RW, 0x0⟩, ⟨15, 4, .RW, 0x0⟩, ⟨19, 4, .RW, 0x0⟩, ⟨23, 3, .RW, 0x0⟩]
  | .CPL_PORT_EVENTS => [⟨0, 1, .W1C, 0x0⟩, ⟨1, 1, .W1C, 0x0⟩, ⟨2, 1, .W1C, 0x0⟩, ⟨3, 1, .W1C, 0x0⟩]
  | .CPL_PORT_LANE_MAP => [⟨0, 8, .RO, 0x0⟩, ⟨8, 4, .RO, 0x0⟩, ⟨12, 3, .RO, 0x0⟩]
  | .CPL_PORT_PARTNER => [⟨0, 8, .RO, 0x0⟩, ⟨8, 8, .RO, 0x0⟩, ⟨16, 4, .RO, 0x0⟩, ⟨20, 3, .RO, 0x0⟩, ⟨23, 1, .RO, 0x0⟩, ⟨24, 8, .RO, 0x0⟩]
  | .CPL_PORT_PFEAT => [⟨0, 32, .RO, 0x0⟩]
  | .CPL_PORT_STATUS => [⟨0, 4, .RO, 0x0⟩, ⟨4, 3, .RO, 0x0⟩, ⟨7, 3, .RO, 0x0⟩, ⟨10, 4, .RO, 0x0⟩, ⟨14, 1, .RO, 0x0⟩, ⟨15, 1, .RO, 0x0⟩, ⟨16, 1, .RO, 0x0⟩, ⟨17, 1, .RO, 0x0⟩]
  | .CPL_RETRAINS => [⟨0, 32, .RC, 0x0⟩]
  | .CPL_ROUTE => [⟨0, 32, .RW, 0x0⟩]
  | .CPL_ROUTE_EN => [⟨0, 8, .RW, 0x0⟩]
  | .CPL_SID_NOMATCH => [⟨0, 32, .RC, 0x0⟩]
  | .CPL_STREAM_TABLE_BASE => [⟨0, 26, .RW, 0x0⟩]
  | .CPL_TIME_INFO => [⟨0, 3, .RO, 0x0⟩, ⟨3, 3, .RO, 0x0⟩, ⟨6, 1, .RO, 0x0⟩, ⟨7, 1, .W1C, 0x0⟩]
  | .CPL_TIME_OFFSET => [⟨0, 32, .RO, 0x0⟩]
  | .CPL_TOKEN_LOST => [⟨0, 32, .RC, 0x0⟩]
  | .CPL_TOKEN_NOBUF => [⟨0, 32, .RC, 0x0⟩]
  | .CPL_TOKEN_POOL => [⟨0, 6, .RW, 0x0⟩]
  | .CPL_TOKEN_RESENT => [⟨0, 32, .RC, 0x0⟩]
  | .CPL_TOKEN_TOOBIG => [⟨0, 32, .RC, 0x0⟩]
  | .CPL_TX_ADV_MAX => [⟨0, 21, .RW, 0xF4240⟩]
  | .CPL_TX_ADV_MIN => [⟨0, 21, .RW, 0x0⟩]
  | .CPL_TX_LATE => [⟨0, 32, .RC, 0x0⟩]
  | .DEADLINE_LATE_CANCEL => [⟨0, 32, .RC, 0x0⟩]
  | .DUP_CREATE => [⟨0, 32, .RC, 0x0⟩]
  | .DUP_TOKEN => [⟨0, 32, .RC, 0x0⟩]
  | .ECC_CE_HBM => [⟨0, 32, .RC, 0x0⟩]
  | .ECC_CE_RCS => [⟨0, 32, .RC, 0x0⟩]
  | .ECC_CE_SRAM => [⟨0, 32, .RC, 0x0⟩]
  | .ECC_CTRL => [⟨0, 1, .RW, 0x1⟩]
  | .ECC_ERQ_CTRL => [⟨0, 1, .RW, 0x0⟩, ⟨1, 1, .RW, 0x1⟩]
  | .ECC_ERQ_FIRST => [⟨0, 32, .RO, 0x0⟩]
  | .ECC_ERQ_FIRST_VALID => [⟨0, 3, .W1C, 0x0⟩]
  | .ECC_ERQ_LOST => [⟨0, 32, .RC, 0x0⟩]
  | .ECC_ERQ_PUSH => [⟨0, 32, .WO, 0x0⟩]
  | .ECC_ERQ_PUSH_GO => [⟨0, 1, .WO, 0x0⟩]
  | .ECC_ERQ_BASE => [⟨0, 26, .RW, 0x0⟩]
  | .ECC_ERQ_COALESCED => [⟨0, 32, .RC, 0x0⟩]
  | .ECC_ERQ_RD => [⟨0, 16, .RW, 0x0⟩]
  | .ECC_ERQ_STATUS => [⟨0, 1, .W1C, 0x0⟩, ⟨1, 1, .RO, 0x0⟩, ⟨16, 10, .RO, 0x0⟩]
  | .ECC_ERQ_WR => [⟨0, 16, .RO, 0x0⟩]
  | .ECC_FIRST_ADDR_HI => [⟨0, 16, .RO, 0x0⟩]
  | .ECC_FIRST_ADDR_LO => [⟨0, 32, .RO, 0x0⟩]
  | .ECC_FIRST_STATUS => [⟨0, 1, .W1C, 0x0⟩, ⟨8, 8, .RO, 0x0⟩, ⟨16, 16, .RO, 0x0⟩]
  | .ECC_INJ => [⟨0, 2, .RW, 0x0⟩, ⟨31, 1, .W1S, 0x0⟩]
  | .ECC_INJ_ADDR_HI => [⟨0, 16, .RW, 0x0⟩]
  | .ECC_INJ_ADDR_LO => [⟨0, 32, .RW, 0x0⟩]
  | .ECC_POISON_MERGE => [⟨0, 32, .RC, 0x0⟩]
  | .ECC_POISON_READ => [⟨0, 32, .RC, 0x0⟩]
  | .ECC_ROW_EVICT => [⟨0, 32, .RC, 0x0⟩]
  | .ECC_ROWTAB_ID => [⟨0, 32, .RO, 0x0⟩]
  | .ECC_ROWTAB_ROW => [⟨0, 18, .RO, 0x0⟩, ⟨18, 3, .RO, 0x0⟩, ⟨21, 1, .RO, 0x0⟩]
  | .ECC_ROWTAB_SEL => [⟨0, 9, .RW, 0x0⟩]
  | .ECC_UE_HBM => [⟨0, 32, .RC, 0x0⟩]
  | .ECC_UE_RCS => [⟨0, 32, .RC, 0x0⟩]
  | .ECC_UE_SRAM => [⟨0, 32, .RC, 0x0⟩]
  | .ECC_UNINIT_READ => [⟨0, 32, .RC, 0x0⟩]
  | .FAILED => [⟨0, 32, .RC, 0x0⟩]
  | .FCE_BADMETH => [⟨0, 32, .RC, 0x0⟩]
  | .FCE_CTRL => [⟨0, 1, .W1S, 0x0⟩]
  | .FCE_DISAGREE => [⟨0, 32, .RC, 0x0⟩]
  | .FCE_ERASED => [⟨0, 32, .RC, 0x0⟩]
  | .FCE_PRB => [⟨0, 32, .RC, 0x0⟩]
  | .FUS_DATA => [⟨0, 32, .RO, 0x0⟩]
  | .FUS_SEL => [⟨0, 12, .RW, 0x0⟩]
  | .FUS_SPARE => [⟨0, 2, .RO, 0x0⟩, ⟨2, 2, .RO, 0x0⟩]
  | .FUS_SPARE_SEL => [⟨0, 16, .RW, 0x0⟩]
  | .FUS_STATUS => [⟨0, 1, .RO, 0x0⟩, ⟨1, 1, .W1C, 0x0⟩]
  | .GDX_ADM_REFUSED => [⟨0, 32, .RC, 0x0⟩]
  | .GDX_BUFPOOL_BASE => [⟨0, 26, .RW, 0x0⟩]
  | .GDX_CFG => [⟨0, 2, .RW, 0x1⟩, ⟨8, 12, .RW, 0xFA⟩]
  | .GDX_CLASS_DEPTH => [⟨0, 16, .RO, 0x0⟩, ⟨16, 16, .RC, 0x0⟩]
  | .GDX_CLASS_RESERVE => [⟨0, 8, .RW, 0x0⟩]
  | .GDX_CLASS_STATE => [⟨0, 8, .RO, 0x0⟩, ⟨8, 8, .RO, 0x0⟩, ⟨16, 8, .RO, 0x0⟩]
  | .GDX_CTRL => [⟨0, 1, .RW, 0x0⟩]
  | .GDX_HIST => [⟨0, 32, .RC, 0x0⟩]
  | .GDX_INST_CMD => [⟨0, 12, .RW, 0x0⟩, ⟨12, 2, .RW, 0x0⟩, ⟨14, 8, .RW, 0x0⟩, ⟨31, 1, .WO, 0x0⟩]
  | .GDX_INST_STATUS => [⟨0, 32, .RW, 0x0⟩]
  | .GDX_LOAD => [⟨0, 21, .RO, 0x0⟩]
  | .GDX_POOL_BAL_HI => [⟨0, 8, .RO, 0x0⟩, ⟨16, 8, .RO, 0x0⟩]
  | .GDX_POOL_BAL_LO => [⟨0, 32, .RO, 0x0⟩]
  | .GDX_POOL_SEL => [⟨0, 10, .RW, 0x0⟩]
  | .GDX_SNAP => [⟨0, 1, .RW, 0x0⟩]
  | .GDX_STATUS => [⟨0, 1, .RO, 0x1⟩, ⟨1, 1, .RO, 0x0⟩, ⟨2, 1, .W1C, 0x0⟩]
  | .GDX_TELEM_BASE => [⟨0, 26, .RW, 0x0⟩]
  | .GDX_TELEM_LOST => [⟨0, 32, .RC, 0x0⟩]
  | .GDX_TELEM_RD => [⟨0, 16, .RW, 0x0⟩]
  | .GDX_TELEM_SIZE => [⟨0, 16, .RW, 0x0⟩]
  | .GDX_TELEM_WR => [⟨0, 16, .RO, 0x0⟩]
  | .GDX_TPL_ADDR_HI => [⟨0, 16, .RW, 0x0⟩]
  | .GDX_TPL_ADDR_LO => [⟨0, 32, .RW, 0x0⟩]
  | .GDX_TPL_CMD => [⟨0, 2, .RW, 0x0⟩, ⟨4, 12, .RW, 0x0⟩, ⟨31, 1, .WO, 0x0⟩]
  | .GDX_TPL_STATUS => [⟨0, 1, .RO, 0x0⟩, ⟨1, 1, .W1C, 0x0⟩, ⟨4, 4, .RO, 0x0⟩, ⟨8, 13, .RO, 0x0⟩]
  | .GDX_WAIT_MAX => [⟨0, 32, .RC, 0x0⟩]
  | .INST_LIVE => [⟨0, 13, .RO, 0x0⟩]
  | .INST_REFUSED => [⟨0, 32, .RC, 0x0⟩]
  | .L0_OVER => [⟨0, 32, .RC, 0x0⟩]
  | .MBX_CSR_WIN => [⟨0, 4, .RW, 0x0⟩, ⟨31, 1, .RO, 0x0⟩]
  | .MBX_DEV_EVENT => [⟨0, 1, .W1C, 0x0⟩, ⟨1, 1, .W1C, 0x0⟩, ⟨2, 1, .W1C, 0x0⟩]
  | .MBX_DEV_STATUS => [⟨0, 4, .RO, 0x0⟩, ⟨4, 1, .RO, 0x0⟩, ⟨5, 1, .RO, 0x0⟩, ⟨6, 1, .RO, 0x0⟩, ⟨7, 1, .RO, 0x0⟩, ⟨16, 16, .RO, 0x0⟩]
  | .MBX_DEV_TIME_NS => [⟨0, 30, .RO, 0x0⟩]
  | .MBX_DEV_TIME_SEC_HI => [⟨0, 16, .RO, 0x0⟩]
  | .MBX_DEV_TIME_SEC_LO => [⟨0, 32, .RO, 0x0⟩]
  | .MBX_DOORBELL => [⟨0, 16, .WO, 0x0⟩]
  | .MBX_IRQ => [⟨0, 11, .RW, 0x0⟩, ⟨11, 1, .RW, 0x0⟩]
  | .MBX_OWNER => [⟨0, 5, .RO, 0x0⟩, ⟨5, 1, .RO, 0x0⟩, ⟨16, 16, .RO, 0x0⟩]
  | .MBX_RING_DB => [⟨0, 32, .WO, 0x0⟩]
  | .MBX_RING_DETACH_DROP => [⟨0, 32, .RC, 0x0⟩]
  | .MBX_RING_ERR_DROP => [⟨0, 32, .RC, 0x0⟩]
  | .MBX_RING_HEAD => [⟨0, 32, .RO, 0x0⟩]
  | .MBX_RING_IRQ => [⟨0, 11, .RW, 0x0⟩, ⟨11, 1, .RW, 0x0⟩, ⟨12, 8, .RW, 0x1⟩, ⟨20, 12, .RW, 0x0⟩]
  | .MBX_RING_STALE => [⟨0, 32, .RC, 0x0⟩]
  | .MBX_RING_STATUS => [⟨0, 1, .RO, 0x0⟩, ⟨1, 1, .RO, 0x0⟩, ⟨2, 1, .RO, 0x0⟩, ⟨3, 1, .W1C, 0x0⟩, ⟨4, 1, .W1C, 0x0⟩]
  | .MBX_RING_TAIL => [⟨0, 32, .RO, 0x0⟩]
  | .MBX_STATUS => [⟨0, 2, .RO, 0x0⟩, ⟨2, 1, .W1C, 0x0⟩, ⟨3, 1, .W1C, 0x0⟩, ⟨4, 1, .W1C, 0x0⟩, ⟨16, 16, .RO, 0x0⟩]
  | .MEM_CH_BYTES => [⟨0, 32, .RC, 0x0⟩]
  | .MEM_CH_ERASE => [⟨0, 6, .RW, 0x0⟩, ⟨6, 1, .RW, 0x0⟩]
  | .MEM_CH_ERASE_HITS => [⟨0, 32, .RC, 0x0⟩]
  | .MEM_CH_ODECC => [⟨0, 32, .RC, 0x0⟩]
  | .MEM_CH_SEL => [⟨0, 4, .RW, 0x0⟩]
  | .MEM_INIT => [⟨0, 6, .RO, 0x0⟩, ⟨6, 1, .RO, 0x0⟩, ⟨8, 24, .RO, 0x0⟩]
  | .MEM_PPR => [⟨0, 16, .RO, 0x0⟩, ⟨16, 16, .RO, 0x0⟩]
  | .MEM_READY_HI => [⟨0, 4, .RO, 0x0⟩]
  | .MEM_READY_LO => [⟨0, 32, .RO, 0x0⟩]
  | .MEM_STATUS => [⟨0, 1, .RO, 0x0⟩, ⟨1, 1, .RO, 0x0⟩, ⟨2, 1, .RO, 0x0⟩]
  | .MXC_BUSY => [⟨0, 32, .RC, 0x0⟩]
  | .MXC_CTRL => [⟨0, 1, .W1S, 0x0⟩, ⟨1, 1, .W1S, 0x0⟩, ⟨2, 1, .RW, 0x0⟩]
  | .MXC_FAULT => [⟨0, 8, .RO, 0x0⟩, ⟨8, 4, .RO, 0x0⟩, ⟨12, 1, .W1C, 0x0⟩, ⟨16, 16, .RO, 0x0⟩]
  | .MXC_LOCK_WAIT => [⟨0, 32, .RC, 0x0⟩]
  | .MXC_OWNER => [⟨0, 16, .RO, 0x0⟩]
  | .MXC_RESTORES => [⟨0, 32, .RC, 0x0⟩]
  | .MXC_SAVES => [⟨0, 32, .RC, 0x0⟩]
  | .MXC_SQUASHED => [⟨0, 32, .RC, 0x0⟩]
  | .MXC_STATUS => [⟨0, 1, .RO, 0x0⟩, ⟨1, 1, .RO, 0x0⟩, ⟨2, 4, .RO, 0x0⟩, ⟨6, 4, .RO, 0x0⟩, ⟨10, 1, .RO, 0x0⟩, ⟨11, 4, .RO, 0x0⟩, ⟨16, 16, .RO, 0x0⟩]
  | .MXC_WAITERS => [⟨0, 9, .RO, 0x0⟩]
  | .NET_CTRLQ_DROP => [⟨0, 32, .RC, 0x0⟩]
  | .NET_FALLBACK => [⟨0, 32, .RC, 0x0⟩]
  | .NET_FAULTY_LANE => [⟨0, 32, .RC, 0x0⟩]
  | .NET_FEC_CORR_SYM => [⟨0, 32, .RC, 0x0⟩]
  | .NET_FEC_CW => [⟨0, 32, .RC, 0x0⟩]
  | .NET_FEC_UNCORR => [⟨0, 32, .RC, 0x0⟩]
  | .NET_FH_CMD => [⟨0, 1, .WO, 0x0⟩]
  | .NET_FH_CP_EXTRA => [⟨0, 21, .RW, 0x0⟩]
  | .NET_FH_LUT_BASE => [⟨0, 26, .RW, 0x0⟩]
  | .NET_FH_RX_MAX => [⟨0, 21, .RW, 0xF4240⟩]
  | .NET_FH_RX_MIN => [⟨0, 21, .RW, 0x0⟩]
  | .NET_FH_TX_MAX => [⟨0, 21, .RW, 0xF4240⟩]
  | .NET_FH_TX_MIN => [⟨0, 21, .RW, 0x0⟩]
  | .NET_GRP_CFG => [⟨0, 2, .RW, 0x0⟩, ⟨2, 4, .RW, 0x0⟩, ⟨6, 4, .RW, 0x0⟩, ⟨10, 4, .RW, 0x0⟩, ⟨14, 16, .RW, 0x0⟩, ⟨30, 1, .W1C, 0x0⟩, ⟨31, 1, .WO, 0x0⟩]
  | .NET_LANE_CTRL => [⟨0, 1, .RW, 0x0⟩, ⟨1, 1, .RW, 0x0⟩, ⟨2, 1, .RW, 0x0⟩, ⟨3, 1, .RW, 0x1⟩, ⟨4, 4, .RW, 0xA⟩, ⟨8, 8, .RW, 0x10⟩]
  | .NET_LANE_FROZEN_US => [⟨0, 32, .RC, 0x0⟩]
  | .NET_LANE_PRBS_BITS_HI => [⟨0, 16, .RC, 0x0⟩]
  | .NET_LANE_PRBS_BITS_LO => [⟨0, 32, .RC, 0x0⟩]
  | .NET_LANE_PRBS_CTRL => [⟨0, 1, .RW, 0x0⟩, ⟨1, 1, .RW, 0x0⟩, ⟨2, 3, .RW, 0x0⟩, ⟨5, 2, .RW, 0x0⟩, ⟨7, 2, .RW, 0x0⟩, ⟨9, 6, .RW, 0x0⟩, ⟨31, 1, .W1S, 0x0⟩]
  | .NET_LANE_PRBS_ERR => [⟨0, 32, .RC, 0x0⟩]
  | .NET_LANE_PRBS_STATUS => [⟨0, 1, .RO, 0x0⟩, ⟨1, 1, .W1C, 0x0⟩]
  | .NET_LANE_STATUS => [⟨0, 1, .RO, 0x0⟩, ⟨1, 1, .RO, 0x0⟩, ⟨2, 1, .RO, 0x0⟩, ⟨3, 2, .RO, 0x0⟩, ⟨5, 1, .W1C, 0x0⟩, ⟨6, 1, .W1C, 0x0⟩]
  | .NET_LANE_TXFFE => [⟨0, 8, .RW, 0x0⟩, ⟨8, 8, .RW, 0x0⟩, ⟨16, 8, .RW, 0x0⟩]
  | .NET_LINK_DOWN => [⟨0, 32, .RC, 0x0⟩]
  | .NET_MACSEC_BYPASS => [⟨0, 16, .RW, 0x0⟩]
  | .NET_MACSEC_DROP => [⟨0, 32, .RC, 0x0⟩]
  | .NET_MACSEC_KEY => [⟨0, 32, .WO, 0x0⟩]
  | .NET_MACSEC_SA_CMD => [⟨0, 1, .WO, 0x0⟩]
  | .NET_MACSEC_SA_SEL => [⟨0, 5, .RW, 0x0⟩]
  | .NET_NOPARTNER => [⟨0, 32, .RC, 0x0⟩]
  | .NET_PFC_RX => [⟨0, 32, .RC, 0x0⟩]
  | .NET_PFC_TX => [⟨0, 32, .RC, 0x0⟩]
  | .NET_PORT_CTRL => [⟨0, 1, .RW, 0x0⟩, ⟨1, 1, .RW, 0x0⟩, ⟨2, 1, .RW, 0x1⟩, ⟨3, 1, .RW, 0x0⟩, ⟨4, 1, .RW, 0x1⟩, ⟨5, 1, .RW, 0x0⟩, ⟨6, 1, .RW, 0x0⟩, ⟨7, 1, .RW, 0x0⟩, ⟨8, 1, .RW, 0x0⟩]
  | .NET_PORT_CTRLQ => [⟨0, 10, .RW, 0x0⟩, ⟨10, 1, .RW, 0x0⟩]
  | .NET_PORT_FRAME => [⟨0, 14, .RW, 0x2600⟩, ⟨14, 1, .RW, 0x0⟩]
  | .NET_PORT_MAC_HI => [⟨0, 16, .RW, 0x0⟩]
  | .NET_PORT_MAC_LO => [⟨0, 32, .RW, 0x0⟩]
  | .NET_PORT_MCAST => [⟨0, 32, .RW, 0x0⟩]
  | .NET_PORT_STATUS => [⟨0, 3, .RO, 0x0⟩, ⟨3, 1, .W1C, 0x0⟩, ⟨4, 4, .RO, 0x0⟩, ⟨8, 4, .RO, 0x0⟩, ⟨12, 8, .RO, 0x0⟩, ⟨20, 4, .RO, 0x0⟩]
  | .NET_RX_CPLANE_BAD => [⟨0, 32, .RC, 0x0⟩]
  | .NET_RX_EARLY => [⟨0, 32, .RC, 0x0⟩]
  | .NET_RX_ECPRI_BAD => [⟨0, 32, .RC, 0x0⟩]
  | .NET_RX_FCS_ERR => [⟨0, 32, .RC, 0x0⟩]
  | .NET_RX_FILTER => [⟨0, 32, .RC, 0x0⟩]
  | .NET_RX_FRAMES => [⟨0, 32, .RC, 0x0⟩]
  | .NET_RX_LATE => [⟨0, 32, .RC, 0x0⟩]
  | .NET_RX_NOMATCH => [⟨0, 32, .RC, 0x0⟩]
  | .NET_RX_PAUSE => [⟨0, 32, .RC, 0x0⟩]
  | .NET_RX_SEQ_ERR => [⟨0, 32, .RC, 0x0⟩]
  | .NET_RX_SIZE_ERR => [⟨0, 32, .RC, 0x0⟩]
  | .NET_TX_BAD => [⟨0, 32, .RC, 0x0⟩]
  | .NET_TX_DOWN_DROP => [⟨0, 32, .RC, 0x0⟩]
  | .NET_TX_FRAMES => [⟨0, 32, .RC, 0x0⟩]
  | .NET_TX_LATE => [⟨0, 32, .RC, 0x0⟩]
  | .NET_TX_NOMATCH => [⟨0, 32, .RC, 0x0⟩]
  | .NODE_LIVE => [⟨0, 17, .RO, 0x0⟩]
  | .POOL_EMPTY => [⟨0, 32, .RC, 0x0⟩]
  | .PWR_AUTO_DOZE => [⟨0, 12, .RW, 0xC8⟩]
  | .PWR_DOM_ABANDONED => [⟨0, 32, .RC, 0x0⟩]
  | .PWR_DOM_ENTRIES => [⟨0, 32, .RC, 0x0⟩]
  | .PWR_DOM_POLICY => [⟨0, 3, .RW, 0x2⟩, ⟨8, 24, .RW, 0x0⟩]
  | .PWR_DOM_REFUSED => [⟨0, 32, .RC, 0x0⟩]
  | .PWR_DOM_RETAIN => [⟨0, 25, .RW, 0x0⟩]
  | .PWR_DOM_SEL => [⟨0, 8, .RW, 0x0⟩]
  | .PWR_DOM_STATE => [⟨0, 3, .RO, 0x0⟩, ⟨3, 3, .RO, 0x0⟩, ⟨6, 1, .RO, 0x0⟩, ⟨7, 1, .RO, 0x0⟩, ⟨8, 3, .RO, 0x0⟩, ⟨11, 1, .RO, 0x0⟩, ⟨12, 3, .RO, 0x0⟩]
  | .PWR_DOM_WAKES => [⟨0, 32, .RC, 0x0⟩]
  | .PWR_KEEP => [⟨0, 1, .RO, 0x0⟩, ⟨1, 1, .W1C, 0x0⟩, ⟨8, 8, .RO, 0x0⟩]
  | .PWR_REQ => [⟨0, 8, .RW, 0x0⟩, ⟨8, 3, .RW, 0x0⟩, ⟨31, 1, .WO, 0x0⟩]
  | .PWR_REQ_STATUS => [⟨0, 1, .W1C, 0x0⟩, ⟨1, 3, .RO, 0x0⟩, ⟨4, 8, .RO, 0x0⟩]
  | .PWR_RET_LOST => [⟨0, 25, .W1C, 0x0⟩]
  | .RCS_ADDR => [⟨0, 17, .RW, 0x0⟩]
  | .RCS_CMD => [⟨0, 1, .WO, 0x0⟩]
  | .RCS_DATA => [⟨0, 32, .RW, 0x0⟩]
  | .RCS_PROGRAMS => [⟨0, 32, .RC, 0x0⟩]
  | .RCS_STATUS => [⟨0, 1, .RO, 0x0⟩, ⟨1, 1, .W1C, 0x0⟩, ⟨2, 1, .RO, 0x0⟩, ⟨3, 1, .W1C, 0x0⟩]
  | .REFILL_BAD => [⟨0, 32, .RC, 0x0⟩]
  | .RELBUF_STALL => [⟨0, 32, .RC, 0x0⟩]
  | .RELBUF_USED => [⟨0, 14, .RO, 0x0⟩]
  | .REMOTE_HOLD_DROP => [⟨0, 32, .RC, 0x0⟩]
  | .REPLAYS => [⟨0, 32, .RC, 0x0⟩]
  | .RST_CAUSE => [⟨0, 1, .W1C, 0x0⟩, ⟨1, 1, .W1C, 0x0⟩, ⟨2, 1, .W1C, 0x0⟩, ⟨3, 1, .W1C, 0x0⟩, ⟨4, 1, .RO, 0x0⟩, ⟨5, 1, .RO, 0x0⟩, ⟨6, 1, .W1C, 0x0⟩]
  | .RST_CTRL => [⟨0, 1, .WO, 0x0⟩, ⟨8, 8, .WO, 0x0⟩]
  | .RST_DOMAIN => [⟨0, 8, .RW, 0x0⟩, ⟨31, 1, .WO, 0x0⟩]
  | .RST_DOMAIN_STATUS => [⟨0, 1, .RO, 0x0⟩, ⟨1, 1, .W1C, 0x0⟩]
  | .SCL_LEND => [⟨0, 8, .RW, 0x0⟩, ⟨8, 1, .RW, 0x0⟩]
  | .SCL_MAP => [⟨0, 32, .RW, 0x76543210⟩]
  | .SCL_STATUS => [⟨0, 4, .RO, 0x8⟩, ⟨4, 1, .RO, 0x0⟩, ⟨5, 1, .W1C, 0x0⟩, ⟨6, 9, .RO, 0x0⟩]
  | .SIG_A_HI => [⟨0, 32, .RO, 0x0⟩]
  | .SIG_A_LO => [⟨0, 32, .RO, 0x0⟩]
  | .SIG_B_HI => [⟨0, 32, .RO, 0x0⟩]
  | .SIG_B_LO => [⟨0, 32, .RO, 0x0⟩]
  | .SIG_C_HI => [⟨0, 32, .RO, 0x0⟩]
  | .SIG_C_LO => [⟨0, 32, .RO, 0x0⟩]
  | .SINK_FULL => [⟨0, 32, .RC, 0x0⟩]
  | .SQ_CMD => [⟨0, 10, .RW, 0x0⟩, ⟨10, 2, .RW, 0x0⟩, ⟨31, 1, .WO, 0x0⟩]
  | .SQ_CMD_STATUS => [⟨0, 1, .W1C, 0x0⟩, ⟨1, 3, .RO, 0x0⟩]
  | .SQ_CTRL => [⟨0, 1, .RW, 0x0⟩]
  | .SQ_PFC_CFG => [⟨0, 16, .RW, 0xFFFF⟩, ⟨16, 16, .RW, 0x64⟩]
  | .SQ_Q_CREDITS => [⟨0, 16, .RO, 0x0⟩, ⟨16, 16, .RO, 0x0⟩]
  | .SQ_Q_DROPS => [⟨0, 32, .RC, 0x0⟩]
  | .SQ_Q_GAPS => [⟨0, 32, .RC, 0x0⟩]
  | .SQ_Q_LEVEL => [⟨0, 16, .RO, 0x0⟩, ⟨16, 16, .RC, 0x0⟩]
  | .SQ_Q_SEQ => [⟨0, 32, .RO, 0x0⟩]
  | .SQ_Q_STATUS => [⟨0, 1, .RO, 0x0⟩, ⟨1, 1, .RO, 0x0⟩, ⟨2, 1, .W1C, 0x0⟩, ⟨3, 1, .W1C, 0x0⟩, ⟨4, 1, .RO, 0x0⟩, ⟨5, 1, .W1C, 0x0⟩]
  | .SQ_SEL => [⟨0, 10, .RW, 0x0⟩]
  | .SQ_TABLE_BASE => [⟨0, 26, .RW, 0x0⟩]
  | .SQ_XOFF_IN_POL => [⟨0, 16, .RW, 0x0⟩]
  | .SQ_XOFF_IN_POLICY => [⟨0, 16, .RW, 0x0⟩]
  | .SQ_XOFF_IN_STATE => [⟨0, 16, .RO, 0x0⟩, ⟨16, 16, .RO, 0x0⟩]
  | .SQ_XOFF_IN_STUCK_SEEN => [⟨0, 16, .W1C, 0x0⟩]
  | .SQ_XOFF_OUT_POL => [⟨0, 16, .RW, 0x0⟩]
  | .SQ_XOFF_OUT_STATE => [⟨0, 16, .RO, 0x0⟩]
  | .STALE_INPUT => [⟨0, 32, .RC, 0x0⟩]
  | .TBU_ACT_SNAP_FRAC => [⟨0, 32, .RO, 0x0⟩]
  | .TBU_ACT_SNAP_NS => [⟨0, 30, .RO, 0x0⟩]
  | .TBU_ACT_SNAP_SEC_HI => [⟨0, 16, .RO, 0x0⟩]
  | .TBU_ACT_SNAP_SEC_LO => [⟨0, 32, .RO, 0x0⟩]
  | .TBU_CLK10M_CTRL => [⟨0, 1, .RW, 0x0⟩]
  | .TBU_CTRL => [⟨0, 2, .RW, 0x0⟩, ⟨2, 1, .RW, 0x0⟩, ⟨3, 1, .RO, 0x0⟩]
  | .TBU_HOLDOVER => [⟨0, 24, .RO, 0x0⟩, ⟨31, 1, .W1C, 0x0⟩]
  | .TBU_JUMP_LIMIT => [⟨0, 30, .RW, 0x3B9ACA00⟩]
  | .TBU_PORT_CFG => [⟨0, 2, .RW, 0x0⟩, ⟨2, 1, .RW, 0x0⟩, ⟨3, 1, .RW, 0x0⟩, ⟨4, 1, .RW, 0x0⟩, ⟨5, 1, .RO, 0x0⟩]
  | .TBU_PORT_CORR_RX => [⟨0, 32, .RO, 0x0⟩]
  | .TBU_PORT_CORR_TX => [⟨0, 32, .RO, 0x0⟩]
  | .TBU_PORT_EXT_RX => [⟨0, 32, .RW, 0x0⟩]
  | .TBU_PORT_EXT_TX => [⟨0, 32, .RW, 0x0⟩]
  | .TBU_PORT_TS_LOST => [⟨0, 16, .RC, 0x0⟩]
  | .TBU_PPS_IN_CTRL => [⟨0, 1, .RW, 0x0⟩, ⟨1, 1, .RW, 0x0⟩]
  | .TBU_PPS_IN_STAMP_A_FRAC => [⟨0, 32, .RO, 0x0⟩]
  | .TBU_PPS_IN_STAMP_A_NS => [⟨0, 30, .RO, 0x0⟩]
  | .TBU_PPS_IN_STAMP_A_SEC => [⟨0, 32, .RO, 0x0⟩]
  | .TBU_PPS_IN_STAMP_B_FRAC => [⟨0, 32, .RO, 0x0⟩]
  | .TBU_PPS_IN_STAMP_B_NS => [⟨0, 30, .RO, 0x0⟩]
  | .TBU_PPS_IN_STAMP_B_SEC => [⟨0, 32, .RO, 0x0⟩]
  | .TBU_PPS_IN_STATUS => [⟨0, 1, .RO, 0x0⟩, ⟨1, 1, .RO, 0x0⟩, ⟨2, 1, .RO, 0x0⟩, ⟨3, 1, .W1C, 0x0⟩, ⟨4, 1, .W1C, 0x0⟩, ⟨16, 8, .RC, 0x0⟩]
  | .TBU_PPS_OUT_CTRL => [⟨0, 1, .RW, 0x0⟩, ⟨1, 2, .RW, 0x2⟩, ⟨3, 4, .RW, 0x0⟩, ⟨8, 19, .RW, 0x186A0⟩]
  | .TBU_PPS_OUT_OFFSET_NS => [⟨0, 32, .RW, 0x0⟩]
  | .TBU_REF_STATUS => [⟨0, 1, .RO, 0x0⟩, ⟨1, 1, .W1C, 0x0⟩, ⟨2, 1, .RO, 0x0⟩, ⟨3, 1, .W1C, 0x0⟩, ⟨16, 16, .RO, 0x0⟩]
  | .TBU_SLEW_RESID_NS => [⟨0, 32, .RO, 0x0⟩]
  | .TBU_SNAP => [⟨0, 1, .WO, 0x0⟩]
  | .TBU_STATUS => [⟨0, 1, .RO, 0x0⟩, ⟨1, 1, .RO, 0x0⟩, ⟨2, 1, .RO, 0x0⟩, ⟨3, 1, .W1C, 0x0⟩, ⟨4, 1, .W1C, 0x0⟩, ⟨5, 1, .W1C, 0x0⟩]
  | .TBU_SWITCH => [⟨0, 1, .WO, 0x0⟩, ⟨1, 1, .RW, 0x0⟩, ⟨2, 1, .RW, 0x0⟩, ⟨8, 8, .RW, 0x0⟩]
  | .TBU_D_INC_FRAC => [⟨0, 32, .RW, 0x9999999A⟩]
  | .TBU_D_INC_NS => [⟨0, 4, .RW, 0x1⟩]
  | .TBU_D_SET_SEC_HI => [⟨0, 16, .RW, 0x0⟩]
  | .TBU_D_SET_SEC_LO => [⟨0, 32, .RW, 0x0⟩]
  | .TBU_D_SNAP_FRAC => [⟨0, 32, .RO, 0x0⟩]
  | .TBU_D_SNAP_NS => [⟨0, 30, .RO, 0x0⟩]
  | .TBU_D_SNAP_SEC_HI => [⟨0, 16, .RO, 0x0⟩]
  | .TBU_D_SNAP_SEC_LO => [⟨0, 32, .RO, 0x0⟩]
  | .TBU_D_SOURCE => [⟨0, 2, .RW, 0x0⟩, ⟨8, 8, .RW, 0x18⟩, ⟨16, 5, .RW, 0x0⟩, ⟨21, 1, .RW, 0x0⟩]
  | .TBU_D_STATUS => [⟨0, 1, .RO, 0x0⟩, ⟨1, 1, .W1C, 0x0⟩, ⟨2, 1, .W1C, 0x0⟩, ⟨3, 1, .W1C, 0x0⟩, ⟨4, 1, .RO, 0x0⟩, ⟨5, 1, .W1C, 0x0⟩]
  | .TBU_D_STEP_CTRL => [⟨0, 1, .WO, 0x0⟩, ⟨1, 1, .RW, 0x0⟩]
  | .TBU_D_STEP_FRAC => [⟨0, 32, .RW, 0x0⟩]
  | .TBU_D_STEP_NS => [⟨0, 32, .RW, 0x0⟩]
  | .THM_CTRL => [⟨0, 1, .RW, 0x1⟩, ⟨1, 1, .RW, 0x1⟩]
  | .THM_FAILED => [⟨0, 32, .RO, 0x0⟩]
  | .THM_INJ => [⟨0, 7, .RW, 0x0⟩, ⟨8, 8, .RW, 0x0⟩, ⟨31, 1, .RW, 0x0⟩]
  | .THM_LIMIT => [⟨0, 8, .RW, 0x64⟩, ⟨8, 8, .RW, 0x69⟩, ⟨16, 8, .RO, 0x73⟩, ⟨24, 4, .RW, 0x5⟩]
  | .THM_MAX => [⟨0, 16, .RO, 0x0⟩, ⟨16, 7, .RO, 0x0⟩]
  | .THM_PEAK => [⟨0, 16, .RC, 0x0⟩, ⟨16, 7, .RO, 0x0⟩]
  | .THM_SENSOR => [⟨0, 16, .RO, 0x0⟩, ⟨16, 2, .RO, 0x0⟩, ⟨18, 1, .RO, 0x0⟩]
  | .THM_SENSOR_COUNT => [⟨0, 16, .RO, 0x0⟩]
  | .THM_SENSOR_SEL => [⟨0, 7, .RW, 0x0⟩]
  | .THM_STATUS => [⟨0, 1, .RO, 0x0⟩, ⟨1, 1, .RO, 0x0⟩, ⟨2, 1, .W1C, 0x0⟩, ⟨3, 1, .W1C, 0x0⟩, ⟨4, 1, .W1C, 0x0⟩]
  | .THM_TRIP_AGE => [⟨0, 32, .RO, 0xFFFFFFFF⟩]
  | .THM_TRIP_HIST => [⟨0, 2, .RO, 0x0⟩, ⟨2, 1, .W1C, 0x0⟩, ⟨3, 1, .W1C, 0x0⟩, ⟨4, 7, .RO, 0x0⟩]
  | .TND_CTRL => [⟨0, 1, .RW, 0x0⟩]
  | .TND_INPUT_SEL => [⟨0, 8, .RW, 0x0⟩]
  | .TND_INPUT_VALUE => [⟨0, 16, .RO, 0x0⟩]
  | .TND_RULE_ACTION => [⟨0, 2, .RW, 0x0⟩, ⟨2, 8, .RW, 0x0⟩, ⟨10, 3, .RW, 0x0⟩, ⟨13, 1, .RO, 0x0⟩, ⟨14, 1, .W1C, 0x0⟩]
  | .TND_RULE_CFG => [⟨0, 1, .RW, 0x0⟩, ⟨1, 1, .RW, 0x0⟩, ⟨2, 1, .RW, 0x0⟩, ⟨3, 4, .RW, 0x0⟩, ⟨7, 8, .RW, 0x0⟩, ⟨16, 8, .RW, 0x0⟩]
  | .TND_RULE_THRESH => [⟨0, 16, .RW, 0x0⟩, ⟨16, 16, .RW, 0x0⟩]
  | .TND_RULE_TIMING => [⟨0, 12, .RW, 0x1⟩]
  | .TND_STATUS => [⟨0, 1, .RO, 0x0⟩, ⟨1, 1, .W1C, 0x0⟩, ⟨8, 5, .RO, 0x0⟩, ⟨13, 1, .W1C, 0x0⟩]
  | .T_AUX => [⟨0, 32, .RC, 0x0⟩]
  | .T_BUSY => [⟨0, 32, .RC, 0x0⟩]
  | .T_CTRL => [⟨0, 1, .W1S, 0x0⟩, ⟨1, 1, .W1S, 0x0⟩, ⟨2, 1, .W1S, 0x0⟩, ⟨8, 8, .RW, 0x0⟩]
  | .T_DESC => [⟨0, 32, .RO, 0x0⟩]
  | .T_FAIL => [⟨0, 32, .RC, 0x0⟩]
  | .T_FAULT => [⟨0, 8, .RO, 0x0⟩, ⟨8, 3, .RO, 0x0⟩, ⟨11, 1, .W1C, 0x0⟩, ⟨16, 16, .RO, 0x0⟩]
  | .T_ITEMS => [⟨0, 32, .RC, 0x0⟩]
  | .T_JOBS => [⟨0, 32, .RC, 0x0⟩]
  | .T_STATUS => [⟨0, 1, .RO, 0x0⟩, ⟨1, 1, .RO, 0x0⟩, ⟨2, 1, .RO, 0x0⟩, ⟨3, 1, .RO, 0x0⟩, ⟨4, 2, .RO, 0x0⟩, ⟨6, 1, .RO, 0x0⟩, ⟨8, 8, .RO, 0x0⟩, ⟨16, 8, .RO, 0x0⟩]
  | .UMP_CTRL => [⟨0, 1, .RW, 0x1⟩]
  | .UMP_FIRST_EXEC => [⟨0, 9, .RO, 0x0⟩, ⟨16, 9, .RO, 0x0⟩]
  | .UMP_FIRST_NODE => [⟨0, 16, .RO, 0x0⟩, ⟨16, 12, .RO, 0x0⟩, ⟨31, 1, .W1C, 0x0⟩]
  | .UMP_FIRST_TIE => [⟨0, 4, .RO, 0x0⟩, ⟨4, 8, .RO, 0x0⟩, ⟨12, 2, .RO, 0x0⟩]
  | .UMP_INJECT => [⟨0, 9, .RW, 0x0⟩, ⟨31, 1, .W1S, 0x0⟩]
  | .UMP_MATCH => [⟨0, 32, .RC, 0x0⟩]
  | .UMP_MISMATCH => [⟨0, 32, .RC, 0x0⟩]
  | .UMP_NOMATCH => [⟨0, 32, .RC, 0x0⟩]
  | .UMP_ONE_FAULT => [⟨0, 32, .RC, 0x0⟩]
  | .UMP_SINGLE => [⟨0, 32, .RC, 0x0⟩]
  | .UMP_TIE_A => [⟨0, 32, .RC, 0x0⟩]
  | .UMP_TIE_B => [⟨0, 32, .RC, 0x0⟩]
  | .VSC_CTRL => [⟨0, 1, .RW, 0x0⟩, ⟨1, 1, .WO, 0x0⟩, ⟨2, 1, .W1S, 0x0⟩, ⟨3, 1, .W1S, 0x0⟩]
  | .VSC_FAULT => [⟨0, 8, .RO, 0x0⟩, ⟨8, 3, .RO, 0x0⟩, ⟨11, 1, .W1C, 0x0⟩, ⟨16, 16, .RO, 0x0⟩]
  | .VSC_FAULT_PC => [⟨0, 20, .RO, 0x0⟩]
  | .VSC_STALL => [⟨0, 32, .RC, 0x0⟩]
  | .VSC_STATUS => [⟨0, 1, .RO, 0x0⟩, ⟨1, 1, .RO, 0x0⟩, ⟨2, 1, .RO, 0x0⟩, ⟨3, 1, .RO, 0x0⟩, ⟨16, 16, .RO, 0x0⟩]
  | .VSC_STICKY => [⟨0, 8, .W1C, 0x0⟩, ⟨8, 8, .W1C, 0x0⟩, ⟨16, 1, .W1C, 0x0⟩]
  | .WHS_ARM => [⟨0, 10, .RW, 0x0⟩, ⟨31, 1, .WO, 0x0⟩]
  | .WHS_CTRL => [⟨0, 1, .RW, 0x0⟩]
  | .WHS_DISARM => [⟨0, 10, .RW, 0x0⟩, ⟨31, 1, .WO, 0x0⟩]
  | .WHS_GRACE => [⟨0, 19, .RW, 0x7D0⟩]
  | .WHS_PIN_LATE => [⟨0, 32, .W1C, 0x0⟩]
  | .WHS_PIN_MISSED => [⟨0, 32, .W1C, 0x0⟩]
  | .WHS_PIN_MISSED_CNT => [⟨0, 8, .RC, 0x0⟩, ⟨8, 8, .RC, 0x0⟩, ⟨16, 8, .RC, 0x0⟩, ⟨24, 8, .RC, 0x0⟩]
  | .WHS_PIN_SHORT => [⟨0, 32, .W1C, 0x0⟩]
  | .WHS_PIN_COORD => [⟨0, 32, .RW, 0x0⟩]
  | .WHS_PIN_CTRL => [⟨0, 1, .RW, 0x0⟩, ⟨1, 1, .RW, 0x0⟩, ⟨2, 1, .RW, 0x0⟩, ⟨3, 2, .RW, 0x0⟩, ⟨5, 4, .RW, 0x0⟩, ⟨9, 3, .RW, 0x0⟩, ⟨16, 8, .RW, 0x0⟩]
  | .WHS_PIN_DELTA_NS => [⟨0, 32, .RW, 0x0⟩]
  | .WHS_PIN_TIMING => [⟨0, 16, .RW, 0x0⟩, ⟨16, 16, .RW, 0x1⟩]
  | .WHS_SPILL => [⟨0, 32, .RC, 0x0⟩]
  | .WHS_STATUS => [⟨0, 1, .W1C, 0x0⟩, ⟨1, 3, .RO, 0x0⟩, ⟨16, 16, .RC, 0x0⟩]
  | .WHS_TABLE_BASE => [⟨0, 26, .RW, 0x0⟩]

/-- The place of a register in its block instance (Table 20-6, R568). -/
def Reg.place : Reg → Place
  | .ACR_PORT_BYTES => ⟨.ACR, 0x4, 0x0, 1, 0x0, 1⟩
  | .ACR_PORT_WAIT => ⟨.ACR, 0x8, 0x0, 1, 0x0, 1⟩
  | .ACR_STATUS => ⟨.ACR, 0x0, 0x0, 1, 0x0, 1⟩
  | .AFT_SNAP_BANK_REFS => ⟨.AFT, 0x4C, 0x0, 1, 0x0, 1⟩
  | .AFT_SNAP_COORD => ⟨.AFT, 0x44, 0x0, 1, 0x0, 1⟩
  | .AFT_SNAP_OFFSET_NS => ⟨.AFT, 0x48, 0x0, 1, 0x0, 1⟩
  | .AFT_SNAP_SEL => ⟨.AFT, 0x40, 0x0, 1, 0x0, 1⟩
  | .AFT_STATUS => ⟨.AFT, 0x14, 0x0, 1, 0x0, 1⟩
  | .AFT_STREAM_TABLE_BASE => ⟨.AFT, 0x4, 0x0, 1, 0x0, 1⟩
  | .AFT_TDD_TABLE_BASE => ⟨.AFT, 0x8, 0x0, 1, 0x0, 1⟩
  | .AFT_TL_CMD => ⟨.AFT, 0xC, 0x0, 1, 0x0, 1⟩
  | .AFT_TL_CMD_ARG => ⟨.AFT, 0x10, 0x0, 1, 0x0, 1⟩
  | .AFT_TL_EN => ⟨.AFT, 0x20, 0x4, 8, 0x0, 1⟩
  | .AFT_TL_TABLE_BASE => ⟨.AFT, 0x0, 0x0, 1, 0x0, 1⟩
  | .BLOCKED_CREATE => ⟨.GDX, 0x88, 0x0, 1, 0x0, 1⟩
  | .BMV_ACT_CFG => ⟨.BMV, 0x1054, 0x1000, 8, 0x0, 1⟩
  | .BMV_ACT_DST_HI => ⟨.BMV, 0x104C, 0x1000, 8, 0x0, 1⟩
  | .BMV_ACT_DST_LO => ⟨.BMV, 0x1048, 0x1000, 8, 0x0, 1⟩
  | .BMV_ACT_FILL => ⟨.BMV, 0x1058, 0x1000, 8, 0x0, 1⟩
  | .BMV_ACT_LEN => ⟨.BMV, 0x1050, 0x1000, 8, 0x0, 1⟩
  | .BMV_ACT_SRC_HI => ⟨.BMV, 0x1044, 0x1000, 8, 0x0, 1⟩
  | .BMV_ACT_SRC_LO => ⟨.BMV, 0x1040, 0x1000, 8, 0x0, 1⟩
  | .BMV_CH_CLAIM => ⟨.BMV, 0x1080, 0x1000, 8, 0x0, 1⟩
  | .BMV_CH_CMP_OFFSET => ⟨.BMV, 0x10A4, 0x1000, 8, 0x0, 1⟩
  | .BMV_CH_CTRL => ⟨.BMV, 0x1084, 0x1000, 8, 0x0, 1⟩
  | .BMV_CH_DONE_BYTES => ⟨.BMV, 0x1090, 0x1000, 8, 0x0, 1⟩
  | .BMV_CH_ERR_DST_LO => ⟨.BMV, 0x1098, 0x1000, 8, 0x0, 1⟩
  | .BMV_CH_ERR_HI => ⟨.BMV, 0x109C, 0x1000, 8, 0x0, 1⟩
  | .BMV_CH_ERR_LEN => ⟨.BMV, 0x10A0, 0x1000, 8, 0x0, 1⟩
  | .BMV_CH_ERR_SRC_LO => ⟨.BMV, 0x1094, 0x1000, 8, 0x0, 1⟩
  | .BMV_CH_INTDEST => ⟨.BMV, 0x10AC, 0x1000, 8, 0x0, 1⟩
  | .BMV_CH_OWNER => ⟨.BMV, 0x10A8, 0x1000, 8, 0x0, 1⟩
  | .BMV_CH_REMAINING => ⟨.BMV, 0x108C, 0x1000, 8, 0x0, 1⟩
  | .BMV_CH_REQ_WAIT => ⟨.BMV, 0x10B0, 0x1000, 8, 0x0, 1⟩
  | .BMV_CH_STATUS => ⟨.BMV, 0x1088, 0x1000, 8, 0x0, 1⟩
  | .BMV_ENG_BYTES => ⟨.BMV, 0x8, 0x0, 1, 0x0, 1⟩
  | .BMV_ENG_FOREIGN_WR => ⟨.BMV, 0xC, 0x0, 1, 0x0, 1⟩
  | .BMV_ENG_INJ => ⟨.BMV, 0x10, 0x0, 1, 0x0, 1⟩
  | .BMV_ENG_MAP => ⟨.BMV, 0x4, 0x0, 1, 0x0, 1⟩
  | .BMV_ENG_STATUS => ⟨.BMV, 0x0, 0x0, 1, 0x0, 1⟩
  | .BMV_SH_CFG => ⟨.BMV, 0x1014, 0x1000, 8, 0x0, 1⟩
  | .BMV_SH_DST_HI => ⟨.BMV, 0x100C, 0x1000, 8, 0x0, 1⟩
  | .BMV_SH_DST_LO => ⟨.BMV, 0x1008, 0x1000, 8, 0x0, 1⟩
  | .BMV_SH_FILL => ⟨.BMV, 0x1018, 0x1000, 8, 0x0, 1⟩
  | .BMV_SH_LEN => ⟨.BMV, 0x1010, 0x1000, 8, 0x0, 1⟩
  | .BMV_SH_SRC_HI => ⟨.BMV, 0x1004, 0x1000, 8, 0x0, 1⟩
  | .BMV_SH_SRC_LO => ⟨.BMV, 0x1000, 0x1000, 8, 0x0, 1⟩
  | .BOOT_CTRL => ⟨.BOOT, 0x4, 0x0, 1, 0x0, 1⟩
  | .BOOT_DBG_CHAL => ⟨.BOOT, 0x40, 0x4, 12, 0x0, 1⟩
  | .BOOT_DBG_CTRL => ⟨.BOOT, 0x10, 0x0, 1, 0x0, 1⟩
  | .BOOT_DBG_RESP => ⟨.BOOT, 0x80, 0x4, 24, 0x0, 1⟩
  | .BOOT_DBG_STATUS => ⟨.BOOT, 0x14, 0x0, 1, 0x0, 1⟩
  | .BOOT_STATUS => ⟨.BOOT, 0x0, 0x0, 1, 0x0, 1⟩
  | .CANCEL_NOINST => ⟨.GDX, 0x8C, 0x0, 1, 0x0, 1⟩
  | .CANCEL_SAME_CYCLE => ⟨.GDX, 0x90, 0x0, 1, 0x0, 1⟩
  | .CPL_BIP_ERR => ⟨.CPL, 0x84, 0x0, 1, 0x0, 1⟩
  | .CPL_CONSIST => ⟨.CPL_CMN, 0x8, 0x0, 1, 0x0, 1⟩
  | .CPL_CONV_SENT => ⟨.CPL, 0xA0, 0x0, 1, 0x0, 1⟩
  | .CPL_CRC_ERR_SAMPLE => ⟨.CPL, 0x88, 0x0, 1, 0x0, 1⟩
  | .CPL_CRC_ERR_TOKEN => ⟨.CPL, 0x8C, 0x0, 1, 0x0, 1⟩
  | .CPL_DELAY_ASYM => ⟨.CPL, 0x3C, 0x0, 1, 0x0, 1⟩
  | .CPL_DELAY_OWD_RX => ⟨.CPL, 0x38, 0x0, 1, 0x0, 1⟩
  | .CPL_DELAY_OWD_TX => ⟨.CPL, 0x34, 0x0, 1, 0x0, 1⟩
  | .CPL_DELAY_RTT => ⟨.CPL, 0x30, 0x0, 1, 0x0, 1⟩
  | .CPL_GAP_IGNORED => ⟨.CPL, 0xAC, 0x0, 1, 0x0, 1⟩
  | .CPL_GAP_MAX => ⟨.CPL, 0x20, 0x0, 1, 0x0, 1⟩
  | .CPL_HDR_ERR => ⟨.CPL, 0x80, 0x0, 1, 0x0, 1⟩
  | .CPL_LANE_CTRL => ⟨.CPL, 0x400, 0x40, 5, 0x0, 1⟩
  | .CPL_LANE_LOOP_ERR => ⟨.CPL, 0x40C, 0x40, 5, 0x0, 1⟩
  | .CPL_LANE_PHASE => ⟨.CPL, 0x408, 0x40, 5, 0x0, 1⟩
  | .CPL_LANE_STATUS => ⟨.CPL, 0x404, 0x40, 5, 0x0, 1⟩
  | .CPL_LINK_DOWN => ⟨.CPL, 0xB0, 0x0, 1, 0x0, 1⟩
  | .CPL_PORT_CTRL => ⟨.CPL, 0x0, 0x0, 1, 0x0, 1⟩
  | .CPL_PORT_EQ => ⟨.CPL, 0x18, 0x0, 1, 0x0, 1⟩
  | .CPL_PORT_EVENTS => ⟨.CPL, 0x8, 0x0, 1, 0x0, 1⟩
  | .CPL_PORT_LANE_MAP => ⟨.CPL, 0xC, 0x0, 1, 0x0, 1⟩
  | .CPL_PORT_PARTNER => ⟨.CPL, 0x10, 0x0, 1, 0x0, 1⟩
  | .CPL_PORT_PFEAT => ⟨.CPL, 0x14, 0x0, 1, 0x0, 1⟩
  | .CPL_PORT_STATUS => ⟨.CPL, 0x4, 0x0, 1, 0x0, 1⟩
  | .CPL_RETRAINS => ⟨.CPL, 0xB4, 0x0, 1, 0x0, 1⟩
  | .CPL_ROUTE => ⟨.CPL_CMN, 0xC, 0x0, 1, 0x0, 1⟩
  | .CPL_ROUTE_EN => ⟨.CPL_CMN, 0x10, 0x0, 1, 0x0, 1⟩
  | .CPL_SID_NOMATCH => ⟨.CPL, 0xA4, 0x0, 1, 0x0, 1⟩
  | .CPL_STREAM_TABLE_BASE => ⟨.CPL_CMN, 0x0, 0x0, 1, 0x0, 1⟩
  | .CPL_TIME_INFO => ⟨.CPL, 0x48, 0x0, 1, 0x0, 1⟩
  | .CPL_TIME_OFFSET => ⟨.CPL, 0x44, 0x0, 1, 0x0, 1⟩
  | .CPL_TOKEN_LOST => ⟨.CPL, 0x94, 0x0, 1, 0x0, 1⟩
  | .CPL_TOKEN_NOBUF => ⟨.CPL, 0x98, 0x0, 1, 0x0, 1⟩
  | .CPL_TOKEN_POOL => ⟨.CPL_CMN, 0x4, 0x0, 1, 0x0, 1⟩
  | .CPL_TOKEN_RESENT => ⟨.CPL, 0x90, 0x0, 1, 0x0, 1⟩
  | .CPL_TOKEN_TOOBIG => ⟨.CPL, 0x9C, 0x0, 1, 0x0, 1⟩
  | .CPL_TX_ADV_MAX => ⟨.CPL, 0x28, 0x0, 1, 0x0, 1⟩
  | .CPL_TX_ADV_MIN => ⟨.CPL, 0x24, 0x0, 1, 0x0, 1⟩
  | .CPL_TX_LATE => ⟨.CPL, 0xA8, 0x0, 1, 0x0, 1⟩
  | .DEADLINE_LATE_CANCEL => ⟨.GDX, 0x94, 0x0, 1, 0x0, 1⟩
  | .DUP_CREATE => ⟨.GDX, 0x84, 0x0, 1, 0x0, 1⟩
  | .DUP_TOKEN => ⟨.GDX, 0x9C, 0x0, 1, 0x0, 1⟩
  | .ECC_CE_HBM => ⟨.ECC, 0x14, 0x0, 1, 0x0, 1⟩
  | .ECC_CE_RCS => ⟨.ECC, 0x18, 0x0, 1, 0x0, 1⟩
  | .ECC_CE_SRAM => ⟨.ECC, 0x10, 0x0, 1, 0x0, 1⟩
  | .ECC_CTRL => ⟨.ECC, 0x0, 0x0, 1, 0x0, 1⟩
  | .ECC_ERQ_CTRL => ⟨.ECC, 0x200, 0x0, 1, 0x0, 1⟩
  | .ECC_ERQ_FIRST => ⟨.ECC, 0x340, 0x4, 8, 0x20, 3⟩
  | .ECC_ERQ_FIRST_VALID => ⟨.ECC, 0x3A0, 0x0, 1, 0x0, 1⟩
  | .ECC_ERQ_LOST => ⟨.ECC, 0x280, 0x4, 16, 0x0, 1⟩
  | .ECC_ERQ_PUSH => ⟨.ECC, 0x300, 0x4, 8, 0x0, 1⟩
  | .ECC_ERQ_PUSH_GO => ⟨.ECC, 0x320, 0x0, 1, 0x0, 1⟩
  | .ECC_ERQ_BASE => ⟨.ECC, 0x210, 0x20, 3, 0x0, 1⟩
  | .ECC_ERQ_COALESCED => ⟨.ECC, 0x220, 0x20, 3, 0x0, 1⟩
  | .ECC_ERQ_RD => ⟨.ECC, 0x218, 0x20, 3, 0x0, 1⟩
  | .ECC_ERQ_STATUS => ⟨.ECC, 0x21C, 0x20, 3, 0x0, 1⟩
  | .ECC_ERQ_WR => ⟨.ECC, 0x214, 0x20, 3, 0x0, 1⟩
  | .ECC_FIRST_ADDR_HI => ⟨.ECC, 0x108, 0x10, 12, 0x0, 1⟩
  | .ECC_FIRST_ADDR_LO => ⟨.ECC, 0x104, 0x10, 12, 0x0, 1⟩
  | .ECC_FIRST_STATUS => ⟨.ECC, 0x100, 0x10, 12, 0x0, 1⟩
  | .ECC_INJ => ⟨.ECC, 0x4, 0x0, 1, 0x0, 1⟩
  | .ECC_INJ_ADDR_HI => ⟨.ECC, 0xC, 0x0, 1, 0x0, 1⟩
  | .ECC_INJ_ADDR_LO => ⟨.ECC, 0x8, 0x0, 1, 0x0, 1⟩
  | .ECC_POISON_MERGE => ⟨.ECC, 0x28, 0x0, 1, 0x0, 1⟩
  | .ECC_POISON_READ => ⟨.ECC, 0x2C, 0x0, 1, 0x0, 1⟩
  | .ECC_ROW_EVICT => ⟨.ECC, 0x34, 0x0, 1, 0x0, 1⟩
  | .ECC_ROWTAB_ID => ⟨.ECC, 0x44, 0x0, 1, 0x0, 1⟩
  | .ECC_ROWTAB_ROW => ⟨.ECC, 0x48, 0x0, 1, 0x0, 1⟩
  | .ECC_ROWTAB_SEL => ⟨.ECC, 0x40, 0x0, 1, 0x0, 1⟩
  | .ECC_UE_HBM => ⟨.ECC, 0x20, 0x0, 1, 0x0, 1⟩
  | .ECC_UE_RCS => ⟨.ECC, 0x24, 0x0, 1, 0x0, 1⟩
  | .ECC_UE_SRAM => ⟨.ECC, 0x1C, 0x0, 1, 0x0, 1⟩
  | .ECC_UNINIT_READ => ⟨.ECC, 0x30, 0x0, 1, 0x0, 1⟩
  | .FAILED => ⟨.GDX, 0xA4, 0x0, 1, 0x0, 1⟩
  | .FCE_BADMETH => ⟨.FCE, 0x10, 0x0, 1, 0x0, 1⟩
  | .FCE_CTRL => ⟨.FCE, 0x0, 0x0, 1, 0x0, 1⟩
  | .FCE_DISAGREE => ⟨.FCE, 0x8, 0x0, 1, 0x0, 1⟩
  | .FCE_ERASED => ⟨.FCE, 0xC, 0x0, 1, 0x0, 1⟩
  | .FCE_PRB => ⟨.FCE, 0x4, 0x0, 1, 0x0, 1⟩
  | .FUS_DATA => ⟨.FUS, 0x8, 0x0, 1, 0x0, 1⟩
  | .FUS_SEL => ⟨.FUS, 0x4, 0x0, 1, 0x0, 1⟩
  | .FUS_SPARE => ⟨.FUS, 0x10, 0x0, 1, 0x0, 1⟩
  | .FUS_SPARE_SEL => ⟨.FUS, 0xC, 0x0, 1, 0x0, 1⟩
  | .FUS_STATUS => ⟨.FUS, 0x0, 0x0, 1, 0x0, 1⟩
  | .GDX_ADM_REFUSED => ⟨.GDX, 0x200, 0x4, 8, 0x0, 1⟩
  | .GDX_BUFPOOL_BASE => ⟨.GDX, 0x40, 0x0, 1, 0x0, 1⟩
  | .GDX_CFG => ⟨.GDX, 0x4, 0x0, 1, 0x0, 1⟩
  | .GDX_CLASS_DEPTH => ⟨.GDX, 0x104, 0x10, 10, 0x0, 1⟩
  | .GDX_CLASS_RESERVE => ⟨.GDX, 0x100, 0x10, 10, 0x0, 1⟩
  | .GDX_CLASS_STATE => ⟨.GDX, 0x108, 0x10, 10, 0x0, 1⟩
  | .GDX_CTRL => ⟨.GDX, 0x0, 0x0, 1, 0x0, 1⟩
  | .GDX_HIST => ⟨.GDX, 0x400, 0x4, 128, 0x0, 1⟩
  | .GDX_INST_CMD => ⟨.GDX, 0x20, 0x0, 1, 0x0, 1⟩
  | .GDX_INST_STATUS => ⟨.GDX, 0x24, 0x0, 1, 0x0, 1⟩
  | .GDX_LOAD => ⟨.GDX, 0x800, 0x4, 352, 0x0, 1⟩
  | .GDX_POOL_BAL_HI => ⟨.GDX, 0x38, 0x0, 1, 0x0, 1⟩
  | .GDX_POOL_BAL_LO => ⟨.GDX, 0x34, 0x0, 1, 0x0, 1⟩
  | .GDX_POOL_SEL => ⟨.GDX, 0x30, 0x0, 1, 0x0, 1⟩
  | .GDX_SNAP => ⟨.GDX, 0x60, 0x0, 1, 0x0, 1⟩
  | .GDX_STATUS => ⟨.GDX, 0x8, 0x0, 1, 0x0, 1⟩
  | .GDX_TELEM_BASE => ⟨.GDX, 0x44, 0x0, 1, 0x0, 1⟩
  | .GDX_TELEM_LOST => ⟨.GDX, 0x54, 0x0, 1, 0x0, 1⟩
  | .GDX_TELEM_RD => ⟨.GDX, 0x50, 0x0, 1, 0x0, 1⟩
  | .GDX_TELEM_SIZE => ⟨.GDX, 0x48, 0x0, 1, 0x0, 1⟩
  | .GDX_TELEM_WR => ⟨.GDX, 0x4C, 0x0, 1, 0x0, 1⟩
  | .GDX_TPL_ADDR_HI => ⟨.GDX, 0x18, 0x0, 1, 0x0, 1⟩
  | .GDX_TPL_ADDR_LO => ⟨.GDX, 0x14, 0x0, 1, 0x0, 1⟩
  | .GDX_TPL_CMD => ⟨.GDX, 0x10, 0x0, 1, 0x0, 1⟩
  | .GDX_TPL_STATUS => ⟨.GDX, 0x1C, 0x0, 1, 0x0, 1⟩
  | .GDX_WAIT_MAX => ⟨.GDX, 0x220, 0x4, 8, 0x0, 1⟩
  | .INST_LIVE => ⟨.GDX, 0xC0, 0x0, 1, 0x0, 1⟩
  | .INST_REFUSED => ⟨.GDX, 0x80, 0x0, 1, 0x0, 1⟩
  | .L0_OVER => ⟨.GDX, 0xB0, 0x0, 1, 0x0, 1⟩
  | .MBX_CSR_WIN => ⟨.MBX, 0x800020, 0x0, 1, 0x0, 1⟩
  | .MBX_DEV_EVENT => ⟨.MBX, 0x800004, 0x0, 1, 0x0, 1⟩
  | .MBX_DEV_STATUS => ⟨.MBX, 0x800000, 0x0, 1, 0x0, 1⟩
  | .MBX_DEV_TIME_NS => ⟨.MBX, 0x800010, 0x0, 1, 0x0, 1⟩
  | .MBX_DEV_TIME_SEC_HI => ⟨.MBX, 0x80000C, 0x0, 1, 0x0, 1⟩
  | .MBX_DEV_TIME_SEC_LO => ⟨.MBX, 0x800008, 0x0, 1, 0x0, 1⟩
  | .MBX_DOORBELL => ⟨.MBX, 0x200000, 0x1000, 256, 0x0, 1⟩
  | .MBX_IRQ => ⟨.MBX, 0x200008, 0x1000, 256, 0x0, 1⟩
  | .MBX_OWNER => ⟨.MBX, 0x20000C, 0x1000, 256, 0x0, 1⟩
  | .MBX_RING_DB => ⟨.MBX, 0x400000, 0x1000, 512, 0x0, 1⟩
  | .MBX_RING_DETACH_DROP => ⟨.MBX, 0x400018, 0x1000, 512, 0x0, 1⟩
  | .MBX_RING_ERR_DROP => ⟨.MBX, 0x400014, 0x1000, 512, 0x0, 1⟩
  | .MBX_RING_HEAD => ⟨.MBX, 0x40000C, 0x1000, 512, 0x0, 1⟩
  | .MBX_RING_IRQ => ⟨.MBX, 0x400010, 0x1000, 512, 0x0, 1⟩
  | .MBX_RING_STALE => ⟨.MBX, 0x40001C, 0x1000, 512, 0x0, 1⟩
  | .MBX_RING_STATUS => ⟨.MBX, 0x400004, 0x1000, 512, 0x0, 1⟩
  | .MBX_RING_TAIL => ⟨.MBX, 0x400008, 0x1000, 512, 0x0, 1⟩
  | .MBX_STATUS => ⟨.MBX, 0x200004, 0x1000, 256, 0x0, 1⟩
  | .MEM_CH_BYTES => ⟨.MEM, 0x30, 0x4, 4, 0x0, 1⟩
  | .MEM_CH_ERASE => ⟨.MEM, 0x24, 0x0, 1, 0x0, 1⟩
  | .MEM_CH_ERASE_HITS => ⟨.MEM, 0x28, 0x0, 1, 0x0, 1⟩
  | .MEM_CH_ODECC => ⟨.MEM, 0x2C, 0x0, 1, 0x0, 1⟩
  | .MEM_CH_SEL => ⟨.MEM, 0x20, 0x0, 1, 0x0, 1⟩
  | .MEM_INIT => ⟨.MEM, 0x4, 0x0, 1, 0x0, 1⟩
  | .MEM_PPR => ⟨.MEM, 0x10, 0x0, 1, 0x0, 1⟩
  | .MEM_READY_HI => ⟨.MEM, 0xC, 0x0, 1, 0x0, 1⟩
  | .MEM_READY_LO => ⟨.MEM, 0x8, 0x0, 1, 0x0, 1⟩
  | .MEM_STATUS => ⟨.MEM, 0x0, 0x0, 1, 0x0, 1⟩
  | .MXC_BUSY => ⟨.MXC, 0x1C, 0x0, 1, 0x0, 1⟩
  | .MXC_CTRL => ⟨.MXC, 0x0, 0x0, 1, 0x0, 1⟩
  | .MXC_FAULT => ⟨.MXC, 0x24, 0x0, 1, 0x0, 1⟩
  | .MXC_LOCK_WAIT => ⟨.MXC, 0x20, 0x0, 1, 0x0, 1⟩
  | .MXC_OWNER => ⟨.MXC, 0x8, 0x0, 1, 0x0, 1⟩
  | .MXC_RESTORES => ⟨.MXC, 0x14, 0x0, 1, 0x0, 1⟩
  | .MXC_SAVES => ⟨.MXC, 0x10, 0x0, 1, 0x0, 1⟩
  | .MXC_SQUASHED => ⟨.MXC, 0x18, 0x0, 1, 0x0, 1⟩
  | .MXC_STATUS => ⟨.MXC, 0x4, 0x0, 1, 0x0, 1⟩
  | .MXC_WAITERS => ⟨.MXC, 0xC, 0x0, 1, 0x0, 1⟩
  | .NET_CTRLQ_DROP => ⟨.NET, 0x240, 0x0, 1, 0x0, 1⟩
  | .NET_FALLBACK => ⟨.NET, 0x268, 0x0, 1, 0x0, 1⟩
  | .NET_FAULTY_LANE => ⟨.NET, 0x264, 0x0, 1, 0x0, 1⟩
  | .NET_FEC_CORR_SYM => ⟨.NET, 0x254, 0x0, 1, 0x0, 1⟩
  | .NET_FEC_CW => ⟨.NET, 0x250, 0x0, 1, 0x0, 1⟩
  | .NET_FEC_UNCORR => ⟨.NET, 0x258, 0x0, 1, 0x0, 1⟩
  | .NET_FH_CMD => ⟨.NET, 0x11C, 0x0, 1, 0x0, 1⟩
  | .NET_FH_CP_EXTRA => ⟨.NET, 0x130, 0x0, 1, 0x0, 1⟩
  | .NET_FH_LUT_BASE => ⟨.NET, 0x118, 0x0, 1, 0x0, 1⟩
  | .NET_FH_RX_MAX => ⟨.NET, 0x124, 0x0, 1, 0x0, 1⟩
  | .NET_FH_RX_MIN => ⟨.NET, 0x120, 0x0, 1, 0x0, 1⟩
  | .NET_FH_TX_MAX => ⟨.NET, 0x12C, 0x0, 1, 0x0, 1⟩
  | .NET_FH_TX_MIN => ⟨.NET, 0x128, 0x0, 1, 0x0, 1⟩
  | .NET_GRP_CFG => ⟨.NET, 0x0, 0x0, 1, 0x0, 1⟩
  | .NET_LANE_CTRL => ⟨.NET, 0x400, 0x0, 1, 0x0, 1⟩
  | .NET_LANE_FROZEN_US => ⟨.NET, 0x40C, 0x0, 1, 0x0, 1⟩
  | .NET_LANE_PRBS_BITS_HI => ⟨.NET, 0x430, 0x0, 1, 0x0, 1⟩
  | .NET_LANE_PRBS_BITS_LO => ⟨.NET, 0x42C, 0x0, 1, 0x0, 1⟩
  | .NET_LANE_PRBS_CTRL => ⟨.NET, 0x420, 0x0, 1, 0x0, 1⟩
  | .NET_LANE_PRBS_ERR => ⟨.NET, 0x428, 0x0, 1, 0x0, 1⟩
  | .NET_LANE_PRBS_STATUS => ⟨.NET, 0x424, 0x0, 1, 0x0, 1⟩
  | .NET_LANE_STATUS => ⟨.NET, 0x404, 0x0, 1, 0x0, 1⟩
  | .NET_LANE_TXFFE => ⟨.NET, 0x408, 0x0, 1, 0x0, 1⟩
  | .NET_LINK_DOWN => ⟨.NET, 0x248, 0x0, 1, 0x0, 1⟩
  | .NET_MACSEC_BYPASS => ⟨.NET, 0x180, 0x4, 4, 0x0, 1⟩
  | .NET_MACSEC_DROP => ⟨.NET, 0x244, 0x0, 1, 0x0, 1⟩
  | .NET_MACSEC_KEY => ⟨.NET, 0x1A0, 0x4, 8, 0x0, 1⟩
  | .NET_MACSEC_SA_CMD => ⟨.NET, 0x1C0, 0x0, 1, 0x0, 1⟩
  | .NET_MACSEC_SA_SEL => ⟨.NET, 0x190, 0x0, 1, 0x0, 1⟩
  | .NET_NOPARTNER => ⟨.NET, 0x24C, 0x0, 1, 0x0, 1⟩
  | .NET_PFC_RX => ⟨.NET, 0x260, 0x0, 1, 0x0, 1⟩
  | .NET_PFC_TX => ⟨.NET, 0x25C, 0x0, 1, 0x0, 1⟩
  | .NET_PORT_CTRL => ⟨.NET, 0x100, 0x0, 1, 0x0, 1⟩
  | .NET_PORT_CTRLQ => ⟨.NET, 0x114, 0x0, 1, 0x0, 1⟩
  | .NET_PORT_FRAME => ⟨.NET, 0x110, 0x0, 1, 0x0, 1⟩
  | .NET_PORT_MAC_HI => ⟨.NET, 0x10C, 0x0, 1, 0x0, 1⟩
  | .NET_PORT_MAC_LO => ⟨.NET, 0x108, 0x0, 1, 0x0, 1⟩
  | .NET_PORT_MCAST => ⟨.NET, 0x140, 0x4, 16, 0x0, 1⟩
  | .NET_PORT_STATUS => ⟨.NET, 0x104, 0x0, 1, 0x0, 1⟩
  | .NET_RX_CPLANE_BAD => ⟨.NET, 0x21C, 0x0, 1, 0x0, 1⟩
  | .NET_RX_EARLY => ⟨.NET, 0x224, 0x0, 1, 0x0, 1⟩
  | .NET_RX_ECPRI_BAD => ⟨.NET, 0x218, 0x0, 1, 0x0, 1⟩
  | .NET_RX_FCS_ERR => ⟨.NET, 0x204, 0x0, 1, 0x0, 1⟩
  | .NET_RX_FILTER => ⟨.NET, 0x208, 0x0, 1, 0x0, 1⟩
  | .NET_RX_FRAMES => ⟨.NET, 0x200, 0x0, 1, 0x0, 1⟩
  | .NET_RX_LATE => ⟨.NET, 0x228, 0x0, 1, 0x0, 1⟩
  | .NET_RX_NOMATCH => ⟨.NET, 0x214, 0x0, 1, 0x0, 1⟩
  | .NET_RX_PAUSE => ⟨.NET, 0x210, 0x0, 1, 0x0, 1⟩
  | .NET_RX_SEQ_ERR => ⟨.NET, 0x220, 0x0, 1, 0x0, 1⟩
  | .NET_RX_SIZE_ERR => ⟨.NET, 0x20C, 0x0, 1, 0x0, 1⟩
  | .NET_TX_BAD => ⟨.NET, 0x238, 0x0, 1, 0x0, 1⟩
  | .NET_TX_DOWN_DROP => ⟨.NET, 0x23C, 0x0, 1, 0x0, 1⟩
  | .NET_TX_FRAMES => ⟨.NET, 0x22C, 0x0, 1, 0x0, 1⟩
  | .NET_TX_LATE => ⟨.NET, 0x230, 0x0, 1, 0x0, 1⟩
  | .NET_TX_NOMATCH => ⟨.NET, 0x234, 0x0, 1, 0x0, 1⟩
  | .NODE_LIVE => ⟨.GDX, 0xC4, 0x0, 1, 0x0, 1⟩
  | .POOL_EMPTY => ⟨.GDX, 0xA8, 0x0, 1, 0x0, 1⟩
  | .PWR_AUTO_DOZE => ⟨.PWR, 0xC, 0x0, 1, 0x0, 1⟩
  | .PWR_DOM_ABANDONED => ⟨.PWR, 0x24, 0x0, 1, 0x0, 1⟩
  | .PWR_DOM_ENTRIES => ⟨.PWR, 0x20, 0x0, 1, 0x0, 1⟩
  | .PWR_DOM_POLICY => ⟨.PWR, 0x18, 0x0, 1, 0x0, 1⟩
  | .PWR_DOM_REFUSED => ⟨.PWR, 0x28, 0x0, 1, 0x0, 1⟩
  | .PWR_DOM_RETAIN => ⟨.PWR, 0x1C, 0x0, 1, 0x0, 1⟩
  | .PWR_DOM_SEL => ⟨.PWR, 0x10, 0x0, 1, 0x0, 1⟩
  | .PWR_DOM_STATE => ⟨.PWR, 0x14, 0x0, 1, 0x0, 1⟩
  | .PWR_DOM_WAKES => ⟨.PWR, 0x2C, 0x0, 1, 0x0, 1⟩
  | .PWR_KEEP => ⟨.PWR, 0x8, 0x0, 1, 0x0, 1⟩
  | .PWR_REQ => ⟨.PWR, 0x0, 0x0, 1, 0x0, 1⟩
  | .PWR_REQ_STATUS => ⟨.PWR, 0x4, 0x0, 1, 0x0, 1⟩
  | .PWR_RET_LOST => ⟨.PWR, 0x100, 0x4, 24, 0x0, 1⟩
  | .RCS_ADDR => ⟨.RCS, 0x0, 0x0, 1, 0x0, 1⟩
  | .RCS_CMD => ⟨.RCS, 0x4, 0x0, 1, 0x0, 1⟩
  | .RCS_DATA => ⟨.RCS, 0x20, 0x4, 8, 0x0, 1⟩
  | .RCS_PROGRAMS => ⟨.RCS, 0xC, 0x0, 1, 0x0, 1⟩
  | .RCS_STATUS => ⟨.RCS, 0x8, 0x0, 1, 0x0, 1⟩
  | .REFILL_BAD => ⟨.GDX, 0xB8, 0x0, 1, 0x0, 1⟩
  | .RELBUF_STALL => ⟨.GDX, 0xAC, 0x0, 1, 0x0, 1⟩
  | .RELBUF_USED => ⟨.GDX, 0xC8, 0x0, 1, 0x0, 1⟩
  | .REMOTE_HOLD_DROP => ⟨.GDX, 0xBC, 0x0, 1, 0x0, 1⟩
  | .REPLAYS => ⟨.GDX, 0xA0, 0x0, 1, 0x0, 1⟩
  | .RST_CAUSE => ⟨.RST, 0x0, 0x0, 1, 0x0, 1⟩
  | .RST_CTRL => ⟨.RST, 0x4, 0x0, 1, 0x0, 1⟩
  | .RST_DOMAIN => ⟨.RST, 0x8, 0x0, 1, 0x0, 1⟩
  | .RST_DOMAIN_STATUS => ⟨.RST, 0xC, 0x0, 1, 0x0, 1⟩
  | .SCL_LEND => ⟨.SCL, 0x8, 0x0, 1, 0x0, 1⟩
  | .SCL_MAP => ⟨.SCL, 0x0, 0x0, 1, 0x0, 1⟩
  | .SCL_STATUS => ⟨.SCL, 0x4, 0x0, 1, 0x0, 1⟩
  | .SIG_A_HI => ⟨.UMP, 0x34, 0x0, 1, 0x0, 1⟩
  | .SIG_A_LO => ⟨.UMP, 0x30, 0x0, 1, 0x0, 1⟩
  | .SIG_B_HI => ⟨.UMP, 0x3C, 0x0, 1, 0x0, 1⟩
  | .SIG_B_LO => ⟨.UMP, 0x38, 0x0, 1, 0x0, 1⟩
  | .SIG_C_HI => ⟨.UMP, 0x44, 0x0, 1, 0x0, 1⟩
  | .SIG_C_LO => ⟨.UMP, 0x40, 0x0, 1, 0x0, 1⟩
  | .SINK_FULL => ⟨.GDX, 0xB4, 0x0, 1, 0x0, 1⟩
  | .SQ_CMD => ⟨.SQ, 0x8, 0x0, 1, 0x0, 1⟩
  | .SQ_CMD_STATUS => ⟨.SQ, 0xC, 0x0, 1, 0x0, 1⟩
  | .SQ_CTRL => ⟨.SQ, 0x0, 0x0, 1, 0x0, 1⟩
  | .SQ_PFC_CFG => ⟨.SQ, 0x10, 0x0, 1, 0x0, 1⟩
  | .SQ_Q_CREDITS => ⟨.SQ, 0x48, 0x0, 1, 0x0, 1⟩
  | .SQ_Q_DROPS => ⟨.SQ, 0x40, 0x0, 1, 0x0, 1⟩
  | .SQ_Q_GAPS => ⟨.SQ, 0x44, 0x0, 1, 0x0, 1⟩
  | .SQ_Q_LEVEL => ⟨.SQ, 0x38, 0x0, 1, 0x0, 1⟩
  | .SQ_Q_SEQ => ⟨.SQ, 0x3C, 0x0, 1, 0x0, 1⟩
  | .SQ_Q_STATUS => ⟨.SQ, 0x34, 0x0, 1, 0x0, 1⟩
  | .SQ_SEL => ⟨.SQ, 0x30, 0x0, 1, 0x0, 1⟩
  | .SQ_TABLE_BASE => ⟨.SQ, 0x4, 0x0, 1, 0x0, 1⟩
  | .SQ_XOFF_IN_POL => ⟨.SQ, 0x24, 0x0, 1, 0x0, 1⟩
  | .SQ_XOFF_IN_POLICY => ⟨.SQ, 0x20, 0x0, 1, 0x0, 1⟩
  | .SQ_XOFF_IN_STATE => ⟨.SQ, 0x1C, 0x0, 1, 0x0, 1⟩
  | .SQ_XOFF_IN_STUCK_SEEN => ⟨.SQ, 0x28, 0x0, 1, 0x0, 1⟩
  | .SQ_XOFF_OUT_POL => ⟨.SQ, 0x18, 0x0, 1, 0x0, 1⟩
  | .SQ_XOFF_OUT_STATE => ⟨.SQ, 0x14, 0x0, 1, 0x0, 1⟩
  | .STALE_INPUT => ⟨.GDX, 0x98, 0x0, 1, 0x0, 1⟩
  | .TBU_ACT_SNAP_FRAC => ⟨.TBU, 0x20C, 0x0, 1, 0x0, 1⟩
  | .TBU_ACT_SNAP_NS => ⟨.TBU, 0x208, 0x0, 1, 0x0, 1⟩
  | .TBU_ACT_SNAP_SEC_HI => ⟨.TBU, 0x200, 0x0, 1, 0x0, 1⟩
  | .TBU_ACT_SNAP_SEC_LO => ⟨.TBU, 0x204, 0x0, 1, 0x0, 1⟩
  | .TBU_CLK10M_CTRL => ⟨.TBU, 0x940, 0x0, 1, 0x0, 1⟩
  | .TBU_CTRL => ⟨.TBU, 0x0, 0x0, 1, 0x0, 1⟩
  | .TBU_HOLDOVER => ⟨.TBU, 0x1C, 0x0, 1, 0x0, 1⟩
  | .TBU_JUMP_LIMIT => ⟨.TBU, 0x8, 0x0, 1, 0x0, 1⟩
  | .TBU_PORT_CFG => ⟨.TBU, 0x400, 0x20, 32, 0x0, 1⟩
  | .TBU_PORT_CORR_RX => ⟨.TBU, 0x404, 0x20, 32, 0x0, 1⟩
  | .TBU_PORT_CORR_TX => ⟨.TBU, 0x408, 0x20, 32, 0x0, 1⟩
  | .TBU_PORT_EXT_RX => ⟨.TBU, 0x40C, 0x20, 32, 0x0, 1⟩
  | .TBU_PORT_EXT_TX => ⟨.TBU, 0x410, 0x20, 32, 0x0, 1⟩
  | .TBU_PORT_TS_LOST => ⟨.TBU, 0x414, 0x20, 32, 0x0, 1⟩
  | .TBU_PPS_IN_CTRL => ⟨.TBU, 0x800, 0x20, 2, 0x0, 1⟩
  | .TBU_PPS_IN_STAMP_A_FRAC => ⟨.TBU, 0x810, 0x20, 2, 0x0, 1⟩
  | .TBU_PPS_IN_STAMP_A_NS => ⟨.TBU, 0x80C, 0x20, 2, 0x0, 1⟩
  | .TBU_PPS_IN_STAMP_A_SEC => ⟨.TBU, 0x808, 0x20, 2, 0x0, 1⟩
  | .TBU_PPS_IN_STAMP_B_FRAC => ⟨.TBU, 0x81C, 0x20, 2, 0x0, 1⟩
  | .TBU_PPS_IN_STAMP_B_NS => ⟨.TBU, 0x818, 0x20, 2, 0x0, 1⟩
  | .TBU_PPS_IN_STAMP_B_SEC => ⟨.TBU, 0x814, 0x20, 2, 0x0, 1⟩
  | .TBU_PPS_IN_STATUS => ⟨.TBU, 0x804, 0x20, 2, 0x0, 1⟩
  | .TBU_PPS_OUT_CTRL => ⟨.TBU, 0x900, 0x10, 2, 0x0, 1⟩
  | .TBU_PPS_OUT_OFFSET_NS => ⟨.TBU, 0x904, 0x10, 2, 0x0, 1⟩
  | .TBU_REF_STATUS => ⟨.TBU, 0x18, 0x0, 1, 0x0, 1⟩
  | .TBU_SLEW_RESID_NS => ⟨.TBU, 0x10, 0x0, 1, 0x0, 1⟩
  | .TBU_SNAP => ⟨.TBU, 0x14, 0x0, 1, 0x0, 1⟩
  | .TBU_STATUS => ⟨.TBU, 0x4, 0x0, 1, 0x0, 1⟩
  | .TBU_SWITCH => ⟨.TBU, 0xC, 0x0, 1, 0x0, 1⟩
  | .TBU_D_INC_FRAC => ⟨.TBU, 0x100, 0x80, 2, 0x0, 1⟩
  | .TBU_D_INC_NS => ⟨.TBU, 0x104, 0x80, 2, 0x0, 1⟩
  | .TBU_D_SET_SEC_HI => ⟨.TBU, 0x114, 0x80, 2, 0x0, 1⟩
  | .TBU_D_SET_SEC_LO => ⟨.TBU, 0x118, 0x80, 2, 0x0, 1⟩
  | .TBU_D_SNAP_FRAC => ⟨.TBU, 0x12C, 0x80, 2, 0x0, 1⟩
  | .TBU_D_SNAP_NS => ⟨.TBU, 0x128, 0x80, 2, 0x0, 1⟩
  | .TBU_D_SNAP_SEC_HI => ⟨.TBU, 0x120, 0x80, 2, 0x0, 1⟩
  | .TBU_D_SNAP_SEC_LO => ⟨.TBU, 0x124, 0x80, 2, 0x0, 1⟩
  | .TBU_D_SOURCE => ⟨.TBU, 0x130, 0x80, 2, 0x0, 1⟩
  | .TBU_D_STATUS => ⟨.TBU, 0x11C, 0x80, 2, 0x0, 1⟩
  | .TBU_D_STEP_CTRL => ⟨.TBU, 0x110, 0x80, 2, 0x0, 1⟩
  | .TBU_D_STEP_FRAC => ⟨.TBU, 0x10C, 0x80, 2, 0x0, 1⟩
  | .TBU_D_STEP_NS => ⟨.TBU, 0x108, 0x80, 2, 0x0, 1⟩
  | .THM_CTRL => ⟨.THM, 0x0, 0x0, 1, 0x0, 1⟩
  | .THM_FAILED => ⟨.THM, 0x20, 0x4, 4, 0x0, 1⟩
  | .THM_INJ => ⟨.THM, 0x50, 0x0, 1, 0x0, 1⟩
  | .THM_LIMIT => ⟨.THM, 0x4, 0x0, 1, 0x0, 1⟩
  | .THM_MAX => ⟨.THM, 0xC, 0x0, 1, 0x0, 1⟩
  | .THM_PEAK => ⟨.THM, 0x10, 0x0, 1, 0x0, 1⟩
  | .THM_SENSOR => ⟨.THM, 0x18, 0x0, 1, 0x0, 1⟩
  | .THM_SENSOR_COUNT => ⟨.THM, 0x1C, 0x0, 1, 0x0, 1⟩
  | .THM_SENSOR_SEL => ⟨.THM, 0x14, 0x0, 1, 0x0, 1⟩
  | .THM_STATUS => ⟨.THM, 0x8, 0x0, 1, 0x0, 1⟩
  | .THM_TRIP_AGE => ⟨.THM, 0x44, 0x4, 3, 0x0, 1⟩
  | .THM_TRIP_HIST => ⟨.THM, 0x40, 0x0, 1, 0x0, 1⟩
  | .TND_CTRL => ⟨.TND, 0x0, 0x0, 1, 0x0, 1⟩
  | .TND_INPUT_SEL => ⟨.TND, 0x8, 0x0, 1, 0x0, 1⟩
  | .TND_INPUT_VALUE => ⟨.TND, 0xC, 0x0, 1, 0x0, 1⟩
  | .TND_RULE_ACTION => ⟨.TND, 0x10C, 0x10, 32, 0x0, 1⟩
  | .TND_RULE_CFG => ⟨.TND, 0x100, 0x10, 32, 0x0, 1⟩
  | .TND_RULE_THRESH => ⟨.TND, 0x108, 0x10, 32, 0x0, 1⟩
  | .TND_RULE_TIMING => ⟨.TND, 0x104, 0x10, 32, 0x0, 1⟩
  | .TND_STATUS => ⟨.TND, 0x4, 0x0, 1, 0x0, 1⟩
  | .T_AUX => ⟨.ENG, 0x18, 0x0, 1, 0x0, 1⟩
  | .T_BUSY => ⟨.ENG, 0x10, 0x0, 1, 0x0, 1⟩
  | .T_CTRL => ⟨.ENG, 0x0, 0x0, 1, 0x0, 1⟩
  | .T_DESC => ⟨.ENG, 0x400, 0x4, 144, 0x0, 1⟩
  | .T_FAIL => ⟨.ENG, 0x1C, 0x0, 1, 0x0, 1⟩
  | .T_FAULT => ⟨.ENG, 0x8, 0x0, 1, 0x0, 1⟩
  | .T_ITEMS => ⟨.ENG, 0x14, 0x0, 1, 0x0, 1⟩
  | .T_JOBS => ⟨.ENG, 0xC, 0x0, 1, 0x0, 1⟩
  | .T_STATUS => ⟨.ENG, 0x4, 0x0, 1, 0x0, 1⟩
  | .UMP_CTRL => ⟨.UMP, 0x0, 0x0, 1, 0x0, 1⟩
  | .UMP_FIRST_EXEC => ⟨.UMP, 0x24, 0x0, 1, 0x0, 1⟩
  | .UMP_FIRST_NODE => ⟨.UMP, 0x20, 0x0, 1, 0x0, 1⟩
  | .UMP_FIRST_TIE => ⟨.UMP, 0x28, 0x0, 1, 0x0, 1⟩
  | .UMP_INJECT => ⟨.UMP, 0x50, 0x0, 1, 0x0, 1⟩
  | .UMP_MATCH => ⟨.UMP, 0x4, 0x0, 1, 0x0, 1⟩
  | .UMP_MISMATCH => ⟨.UMP, 0x8, 0x0, 1, 0x0, 1⟩
  | .UMP_NOMATCH => ⟨.UMP, 0x14, 0x0, 1, 0x0, 1⟩
  | .UMP_ONE_FAULT => ⟨.UMP, 0x18, 0x0, 1, 0x0, 1⟩
  | .UMP_SINGLE => ⟨.UMP, 0x1C, 0x0, 1, 0x0, 1⟩
  | .UMP_TIE_A => ⟨.UMP, 0xC, 0x0, 1, 0x0, 1⟩
  | .UMP_TIE_B => ⟨.UMP, 0x10, 0x0, 1, 0x0, 1⟩
  | .VSC_CTRL => ⟨.VSC, 0x0, 0x0, 1, 0x0, 1⟩
  | .VSC_FAULT => ⟨.VSC, 0x8, 0x0, 1, 0x0, 1⟩
  | .VSC_FAULT_PC => ⟨.VSC, 0xC, 0x0, 1, 0x0, 1⟩
  | .VSC_STALL => ⟨.VSC, 0x14, 0x0, 1, 0x0, 1⟩
  | .VSC_STATUS => ⟨.VSC, 0x4, 0x0, 1, 0x0, 1⟩
  | .VSC_STICKY => ⟨.VSC, 0x10, 0x0, 1, 0x0, 1⟩
  | .WHS_ARM => ⟨.WHS, 0xC, 0x0, 1, 0x0, 1⟩
  | .WHS_CTRL => ⟨.WHS, 0x0, 0x0, 1, 0x0, 1⟩
  | .WHS_DISARM => ⟨.WHS, 0x10, 0x0, 1, 0x0, 1⟩
  | .WHS_GRACE => ⟨.WHS, 0x8, 0x0, 1, 0x0, 1⟩
  | .WHS_PIN_LATE => ⟨.WHS, 0x20, 0x4, 2, 0x0, 1⟩
  | .WHS_PIN_MISSED => ⟨.WHS, 0x28, 0x4, 2, 0x0, 1⟩
  | .WHS_PIN_MISSED_CNT => ⟨.WHS, 0x40, 0x4, 16, 0x0, 1⟩
  | .WHS_PIN_SHORT => ⟨.WHS, 0x30, 0x4, 2, 0x0, 1⟩
  | .WHS_PIN_COORD => ⟨.WHS, 0x104, 0x10, 64, 0x0, 1⟩
  | .WHS_PIN_CTRL => ⟨.WHS, 0x100, 0x10, 64, 0x0, 1⟩
  | .WHS_PIN_DELTA_NS => ⟨.WHS, 0x108, 0x10, 64, 0x0, 1⟩
  | .WHS_PIN_TIMING => ⟨.WHS, 0x10C, 0x10, 64, 0x0, 1⟩
  | .WHS_SPILL => ⟨.WHS, 0x18, 0x0, 1, 0x0, 1⟩
  | .WHS_STATUS => ⟨.WHS, 0x14, 0x0, 1, 0x0, 1⟩
  | .WHS_TABLE_BASE => ⟨.WHS, 0x4, 0x0, 1, 0x0, 1⟩

/-- Every register name, in the order of Table 20-6, in pieces. -/
def Reg.part0 : List Reg :=
  [.ACR_PORT_BYTES, .ACR_PORT_WAIT, .ACR_STATUS, .AFT_SNAP_BANK_REFS, .AFT_SNAP_COORD,
   .AFT_SNAP_OFFSET_NS, .AFT_SNAP_SEL, .AFT_STATUS, .AFT_STREAM_TABLE_BASE, .AFT_TDD_TABLE_BASE,
   .AFT_TL_CMD, .AFT_TL_CMD_ARG, .AFT_TL_EN, .AFT_TL_TABLE_BASE, .BLOCKED_CREATE,
   .BMV_ACT_CFG, .BMV_ACT_DST_HI, .BMV_ACT_DST_LO, .BMV_ACT_FILL, .BMV_ACT_LEN,
   .BMV_ACT_SRC_HI, .BMV_ACT_SRC_LO, .BMV_CH_CLAIM, .BMV_CH_CMP_OFFSET, .BMV_CH_CTRL,
   .BMV_CH_DONE_BYTES, .BMV_CH_ERR_DST_LO, .BMV_CH_ERR_HI, .BMV_CH_ERR_LEN, .BMV_CH_ERR_SRC_LO,
   .BMV_CH_INTDEST, .BMV_CH_OWNER, .BMV_CH_REMAINING, .BMV_CH_REQ_WAIT, .BMV_CH_STATUS,
   .BMV_ENG_BYTES, .BMV_ENG_FOREIGN_WR, .BMV_ENG_INJ, .BMV_ENG_MAP, .BMV_ENG_STATUS,
   .BMV_SH_CFG, .BMV_SH_DST_HI, .BMV_SH_DST_LO, .BMV_SH_FILL, .BMV_SH_LEN,
   .BMV_SH_SRC_HI, .BMV_SH_SRC_LO, .BOOT_CTRL, .BOOT_DBG_CHAL, .BOOT_DBG_CTRL,
   .BOOT_DBG_RESP, .BOOT_DBG_STATUS, .BOOT_STATUS, .CANCEL_NOINST, .CANCEL_SAME_CYCLE,
   .CPL_BIP_ERR, .CPL_CONSIST, .CPL_CONV_SENT, .CPL_CRC_ERR_SAMPLE, .CPL_CRC_ERR_TOKEN,
   .CPL_DELAY_ASYM, .CPL_DELAY_OWD_RX, .CPL_DELAY_OWD_TX, .CPL_DELAY_RTT, .CPL_GAP_IGNORED,
   .CPL_GAP_MAX, .CPL_HDR_ERR, .CPL_LANE_CTRL, .CPL_LANE_LOOP_ERR, .CPL_LANE_PHASE,
   .CPL_LANE_STATUS, .CPL_LINK_DOWN, .CPL_PORT_CTRL, .CPL_PORT_EQ, .CPL_PORT_EVENTS]
def Reg.part1 : List Reg :=
  [.CPL_PORT_LANE_MAP, .CPL_PORT_PARTNER, .CPL_PORT_PFEAT, .CPL_PORT_STATUS, .CPL_RETRAINS,
   .CPL_ROUTE, .CPL_ROUTE_EN, .CPL_SID_NOMATCH, .CPL_STREAM_TABLE_BASE, .CPL_TIME_INFO,
   .CPL_TIME_OFFSET, .CPL_TOKEN_LOST, .CPL_TOKEN_NOBUF, .CPL_TOKEN_POOL, .CPL_TOKEN_RESENT,
   .CPL_TOKEN_TOOBIG, .CPL_TX_ADV_MAX, .CPL_TX_ADV_MIN, .CPL_TX_LATE, .DEADLINE_LATE_CANCEL,
   .DUP_CREATE, .DUP_TOKEN, .ECC_CE_HBM, .ECC_CE_RCS, .ECC_CE_SRAM,
   .ECC_CTRL, .ECC_ERQ_CTRL, .ECC_ERQ_FIRST, .ECC_ERQ_FIRST_VALID, .ECC_ERQ_LOST,
   .ECC_ERQ_PUSH, .ECC_ERQ_PUSH_GO, .ECC_ERQ_BASE, .ECC_ERQ_COALESCED, .ECC_ERQ_RD,
   .ECC_ERQ_STATUS, .ECC_ERQ_WR, .ECC_FIRST_ADDR_HI, .ECC_FIRST_ADDR_LO, .ECC_FIRST_STATUS,
   .ECC_INJ, .ECC_INJ_ADDR_HI, .ECC_INJ_ADDR_LO, .ECC_POISON_MERGE, .ECC_POISON_READ,
   .ECC_ROW_EVICT, .ECC_ROWTAB_ID, .ECC_ROWTAB_ROW, .ECC_ROWTAB_SEL, .ECC_UE_HBM,
   .ECC_UE_RCS, .ECC_UE_SRAM, .ECC_UNINIT_READ, .FAILED, .FCE_BADMETH,
   .FCE_CTRL, .FCE_DISAGREE, .FCE_ERASED, .FCE_PRB, .FUS_DATA,
   .FUS_SEL, .FUS_SPARE, .FUS_SPARE_SEL, .FUS_STATUS, .GDX_ADM_REFUSED,
   .GDX_BUFPOOL_BASE, .GDX_CFG, .GDX_CLASS_DEPTH, .GDX_CLASS_RESERVE, .GDX_CLASS_STATE,
   .GDX_CTRL, .GDX_HIST, .GDX_INST_CMD, .GDX_INST_STATUS, .GDX_LOAD]
def Reg.part2 : List Reg :=
  [.GDX_POOL_BAL_HI, .GDX_POOL_BAL_LO, .GDX_POOL_SEL, .GDX_SNAP, .GDX_STATUS,
   .GDX_TELEM_BASE, .GDX_TELEM_LOST, .GDX_TELEM_RD, .GDX_TELEM_SIZE, .GDX_TELEM_WR,
   .GDX_TPL_ADDR_HI, .GDX_TPL_ADDR_LO, .GDX_TPL_CMD, .GDX_TPL_STATUS, .GDX_WAIT_MAX,
   .INST_LIVE, .INST_REFUSED, .L0_OVER, .MBX_CSR_WIN, .MBX_DEV_EVENT,
   .MBX_DEV_STATUS, .MBX_DEV_TIME_NS, .MBX_DEV_TIME_SEC_HI, .MBX_DEV_TIME_SEC_LO, .MBX_DOORBELL,
   .MBX_IRQ, .MBX_OWNER, .MBX_RING_DB, .MBX_RING_DETACH_DROP, .MBX_RING_ERR_DROP,
   .MBX_RING_HEAD, .MBX_RING_IRQ, .MBX_RING_STALE, .MBX_RING_STATUS, .MBX_RING_TAIL,
   .MBX_STATUS, .MEM_CH_BYTES, .MEM_CH_ERASE, .MEM_CH_ERASE_HITS, .MEM_CH_ODECC,
   .MEM_CH_SEL, .MEM_INIT, .MEM_PPR, .MEM_READY_HI, .MEM_READY_LO,
   .MEM_STATUS, .MXC_BUSY, .MXC_CTRL, .MXC_FAULT, .MXC_LOCK_WAIT,
   .MXC_OWNER, .MXC_RESTORES, .MXC_SAVES, .MXC_SQUASHED, .MXC_STATUS,
   .MXC_WAITERS, .NET_CTRLQ_DROP, .NET_FALLBACK, .NET_FAULTY_LANE, .NET_FEC_CORR_SYM,
   .NET_FEC_CW, .NET_FEC_UNCORR, .NET_FH_CMD, .NET_FH_CP_EXTRA, .NET_FH_LUT_BASE,
   .NET_FH_RX_MAX, .NET_FH_RX_MIN, .NET_FH_TX_MAX, .NET_FH_TX_MIN, .NET_GRP_CFG,
   .NET_LANE_CTRL, .NET_LANE_FROZEN_US, .NET_LANE_PRBS_BITS_HI, .NET_LANE_PRBS_BITS_LO, .NET_LANE_PRBS_CTRL]
def Reg.part3 : List Reg :=
  [.NET_LANE_PRBS_ERR, .NET_LANE_PRBS_STATUS, .NET_LANE_STATUS, .NET_LANE_TXFFE, .NET_LINK_DOWN,
   .NET_MACSEC_BYPASS, .NET_MACSEC_DROP, .NET_MACSEC_KEY, .NET_MACSEC_SA_CMD, .NET_MACSEC_SA_SEL,
   .NET_NOPARTNER, .NET_PFC_RX, .NET_PFC_TX, .NET_PORT_CTRL, .NET_PORT_CTRLQ,
   .NET_PORT_FRAME, .NET_PORT_MAC_HI, .NET_PORT_MAC_LO, .NET_PORT_MCAST, .NET_PORT_STATUS,
   .NET_RX_CPLANE_BAD, .NET_RX_EARLY, .NET_RX_ECPRI_BAD, .NET_RX_FCS_ERR, .NET_RX_FILTER,
   .NET_RX_FRAMES, .NET_RX_LATE, .NET_RX_NOMATCH, .NET_RX_PAUSE, .NET_RX_SEQ_ERR,
   .NET_RX_SIZE_ERR, .NET_TX_BAD, .NET_TX_DOWN_DROP, .NET_TX_FRAMES, .NET_TX_LATE,
   .NET_TX_NOMATCH, .NODE_LIVE, .POOL_EMPTY, .PWR_AUTO_DOZE, .PWR_DOM_ABANDONED,
   .PWR_DOM_ENTRIES, .PWR_DOM_POLICY, .PWR_DOM_REFUSED, .PWR_DOM_RETAIN, .PWR_DOM_SEL,
   .PWR_DOM_STATE, .PWR_DOM_WAKES, .PWR_KEEP, .PWR_REQ, .PWR_REQ_STATUS,
   .PWR_RET_LOST, .RCS_ADDR, .RCS_CMD, .RCS_DATA, .RCS_PROGRAMS,
   .RCS_STATUS, .REFILL_BAD, .RELBUF_STALL, .RELBUF_USED, .REMOTE_HOLD_DROP,
   .REPLAYS, .RST_CAUSE, .RST_CTRL, .RST_DOMAIN, .RST_DOMAIN_STATUS,
   .SCL_LEND, .SCL_MAP, .SCL_STATUS, .SIG_A_HI, .SIG_A_LO,
   .SIG_B_HI, .SIG_B_LO, .SIG_C_HI, .SIG_C_LO, .SINK_FULL]
def Reg.part4 : List Reg :=
  [.SQ_CMD, .SQ_CMD_STATUS, .SQ_CTRL, .SQ_PFC_CFG, .SQ_Q_CREDITS,
   .SQ_Q_DROPS, .SQ_Q_GAPS, .SQ_Q_LEVEL, .SQ_Q_SEQ, .SQ_Q_STATUS,
   .SQ_SEL, .SQ_TABLE_BASE, .SQ_XOFF_IN_POL, .SQ_XOFF_IN_POLICY, .SQ_XOFF_IN_STATE,
   .SQ_XOFF_IN_STUCK_SEEN, .SQ_XOFF_OUT_POL, .SQ_XOFF_OUT_STATE, .STALE_INPUT, .TBU_ACT_SNAP_FRAC,
   .TBU_ACT_SNAP_NS, .TBU_ACT_SNAP_SEC_HI, .TBU_ACT_SNAP_SEC_LO, .TBU_CLK10M_CTRL, .TBU_CTRL,
   .TBU_HOLDOVER, .TBU_JUMP_LIMIT, .TBU_PORT_CFG, .TBU_PORT_CORR_RX, .TBU_PORT_CORR_TX,
   .TBU_PORT_EXT_RX, .TBU_PORT_EXT_TX, .TBU_PORT_TS_LOST, .TBU_PPS_IN_CTRL, .TBU_PPS_IN_STAMP_A_FRAC,
   .TBU_PPS_IN_STAMP_A_NS, .TBU_PPS_IN_STAMP_A_SEC, .TBU_PPS_IN_STAMP_B_FRAC, .TBU_PPS_IN_STAMP_B_NS, .TBU_PPS_IN_STAMP_B_SEC,
   .TBU_PPS_IN_STATUS, .TBU_PPS_OUT_CTRL, .TBU_PPS_OUT_OFFSET_NS, .TBU_REF_STATUS, .TBU_SLEW_RESID_NS,
   .TBU_SNAP, .TBU_STATUS, .TBU_SWITCH, .TBU_D_INC_FRAC, .TBU_D_INC_NS,
   .TBU_D_SET_SEC_HI, .TBU_D_SET_SEC_LO, .TBU_D_SNAP_FRAC, .TBU_D_SNAP_NS, .TBU_D_SNAP_SEC_HI,
   .TBU_D_SNAP_SEC_LO, .TBU_D_SOURCE, .TBU_D_STATUS, .TBU_D_STEP_CTRL, .TBU_D_STEP_FRAC,
   .TBU_D_STEP_NS, .THM_CTRL, .THM_FAILED, .THM_INJ, .THM_LIMIT,
   .THM_MAX, .THM_PEAK, .THM_SENSOR, .THM_SENSOR_COUNT, .THM_SENSOR_SEL,
   .THM_STATUS, .THM_TRIP_AGE, .THM_TRIP_HIST, .TND_CTRL, .TND_INPUT_SEL]
def Reg.part5 : List Reg :=
  [.TND_INPUT_VALUE, .TND_RULE_ACTION, .TND_RULE_CFG, .TND_RULE_THRESH, .TND_RULE_TIMING,
   .TND_STATUS, .T_AUX, .T_BUSY, .T_CTRL, .T_DESC,
   .T_FAIL, .T_FAULT, .T_ITEMS, .T_JOBS, .T_STATUS,
   .UMP_CTRL, .UMP_FIRST_EXEC, .UMP_FIRST_NODE, .UMP_FIRST_TIE, .UMP_INJECT,
   .UMP_MATCH, .UMP_MISMATCH, .UMP_NOMATCH, .UMP_ONE_FAULT, .UMP_SINGLE,
   .UMP_TIE_A, .UMP_TIE_B, .VSC_CTRL, .VSC_FAULT, .VSC_FAULT_PC,
   .VSC_STALL, .VSC_STATUS, .VSC_STICKY, .WHS_ARM, .WHS_CTRL,
   .WHS_DISARM, .WHS_GRACE, .WHS_PIN_LATE, .WHS_PIN_MISSED, .WHS_PIN_MISSED_CNT,
   .WHS_PIN_SHORT, .WHS_PIN_COORD, .WHS_PIN_CTRL, .WHS_PIN_DELTA_NS, .WHS_PIN_TIMING,
   .WHS_SPILL, .WHS_STATUS, .WHS_TABLE_BASE]

/-- Every register name (R568). -/
def Reg.all : List Reg :=
  Reg.part0 ++ Reg.part1 ++ Reg.part2 ++ Reg.part3 ++ Reg.part4 ++ Reg.part5

namespace F
abbrev ACR_PORT_BYTES_BYTES : Fld := ⟨.ACR_PORT_BYTES, 0, 32⟩
abbrev ACR_PORT_WAIT_WAIT : Fld := ⟨.ACR_PORT_WAIT, 0, 32⟩
abbrev ACR_STATUS_POWERED : Fld := ⟨.ACR_STATUS, 0, 1⟩
abbrev AFT_SNAP_BANK_REFS_CUR_BANK : Fld := ⟨.AFT_SNAP_BANK_REFS, 0, 1⟩
abbrev AFT_SNAP_BANK_REFS_LIVE0 : Fld := ⟨.AFT_SNAP_BANK_REFS, 8, 8⟩
abbrev AFT_SNAP_BANK_REFS_LIVE1 : Fld := ⟨.AFT_SNAP_BANK_REFS, 16, 8⟩
abbrev AFT_SNAP_COORD_COORD : Fld := ⟨.AFT_SNAP_COORD, 0, 32⟩
abbrev AFT_SNAP_OFFSET_NS_OFFSET : Fld := ⟨.AFT_SNAP_OFFSET_NS, 0, 19⟩
abbrev AFT_SNAP_SEL_TL : Fld := ⟨.AFT_SNAP_SEL, 0, 8⟩
abbrev AFT_STATUS_CMD_REFUSED : Fld := ⟨.AFT_STATUS, 0, 1⟩
abbrev AFT_STATUS_CAUSE : Fld := ⟨.AFT_STATUS, 1, 3⟩
abbrev AFT_STATUS_TDD_PENDING : Fld := ⟨.AFT_STATUS, 4, 1⟩
abbrev AFT_STREAM_TABLE_BASE_BASE : Fld := ⟨.AFT_STREAM_TABLE_BASE, 0, 26⟩
abbrev AFT_TDD_TABLE_BASE_BASE : Fld := ⟨.AFT_TDD_TABLE_BASE, 0, 26⟩
abbrev AFT_TL_CMD_TL : Fld := ⟨.AFT_TL_CMD, 0, 8⟩
abbrev AFT_TL_CMD_OP : Fld := ⟨.AFT_TL_CMD, 8, 2⟩
abbrev AFT_TL_CMD_GO : Fld := ⟨.AFT_TL_CMD, 31, 1⟩
abbrev AFT_TL_CMD_ARG_TDD_PTR : Fld := ⟨.AFT_TL_CMD_ARG, 0, 16⟩
abbrev AFT_TL_CMD_ARG_PATTERN_LEN : Fld := ⟨.AFT_TL_CMD_ARG, 16, 8⟩
abbrev AFT_TL_EN_EN : Fld := ⟨.AFT_TL_EN, 0, 32⟩
abbrev AFT_TL_TABLE_BASE_BASE : Fld := ⟨.AFT_TL_TABLE_BASE, 0, 26⟩
abbrev BLOCKED_CREATE_COUNT : Fld := ⟨.BLOCKED_CREATE, 0, 32⟩
abbrev BMV_ACT_CFG_MODE : Fld := ⟨.BMV_ACT_CFG, 0, 2⟩
abbrev BMV_ACT_CFG_BURST : Fld := ⟨.BMV_ACT_CFG, 2, 2⟩
abbrev BMV_ACT_CFG_CYCLIC : Fld := ⟨.BMV_ACT_CFG, 4, 1⟩
abbrev BMV_ACT_CFG_HALF_IE : Fld := ⟨.BMV_ACT_CFG, 5, 1⟩
abbrev BMV_ACT_CFG_FULL_IE : Fld := ⟨.BMV_ACT_CFG, 6, 1⟩
abbrev BMV_ACT_CFG_ERR_IE : Fld := ⟨.BMV_ACT_CFG, 7, 1⟩
abbrev BMV_ACT_CFG_REQ_SEL : Fld := ⟨.BMV_ACT_CFG, 8, 6⟩
abbrev BMV_ACT_CFG_RETRY_MAX : Fld := ⟨.BMV_ACT_CFG, 16, 3⟩
abbrev BMV_ACT_CFG_CLASS : Fld := ⟨.BMV_ACT_CFG, 19, 2⟩
abbrev BMV_ACT_CFG_SHARE : Fld := ⟨.BMV_ACT_CFG, 24, 8⟩
abbrev BMV_ACT_DST_HI_ADDR : Fld := ⟨.BMV_ACT_DST_HI, 0, 16⟩
abbrev BMV_ACT_DST_LO_ADDR : Fld := ⟨.BMV_ACT_DST_LO, 0, 32⟩
abbrev BMV_ACT_FILL_FILL : Fld := ⟨.BMV_ACT_FILL, 0, 32⟩
abbrev BMV_ACT_LEN_LEN : Fld := ⟨.BMV_ACT_LEN, 0, 32⟩
abbrev BMV_ACT_SRC_HI_ADDR : Fld := ⟨.BMV_ACT_SRC_HI, 0, 16⟩
abbrev BMV_ACT_SRC_LO_ADDR : Fld := ⟨.BMV_ACT_SRC_LO, 0, 32⟩
abbrev BMV_CH_CLAIM_CLAIM : Fld := ⟨.BMV_CH_CLAIM, 0, 1⟩
abbrev BMV_CH_CMP_OFFSET_CMP_OFFSET : Fld := ⟨.BMV_CH_CMP_OFFSET, 0, 32⟩
abbrev BMV_CH_CTRL_GO : Fld := ⟨.BMV_CH_CTRL, 0, 1⟩
abbrev BMV_CH_CTRL_CLEAR : Fld := ⟨.BMV_CH_CTRL, 1, 1⟩
abbrev BMV_CH_CTRL_STOP : Fld := ⟨.BMV_CH_CTRL, 2, 1⟩
abbrev BMV_CH_DONE_BYTES_DONE_BYTES : Fld := ⟨.BMV_CH_DONE_BYTES, 0, 32⟩
abbrev BMV_CH_ERR_DST_LO_ERR_DST : Fld := ⟨.BMV_CH_ERR_DST_LO, 0, 32⟩
abbrev BMV_CH_ERR_HI_ERR_SRC_HI : Fld := ⟨.BMV_CH_ERR_HI, 0, 16⟩
abbrev BMV_CH_ERR_HI_ERR_DST_HI : Fld := ⟨.BMV_CH_ERR_HI, 16, 16⟩
abbrev BMV_CH_ERR_LEN_ERR_LEN : Fld := ⟨.BMV_CH_ERR_LEN, 0, 10⟩
abbrev BMV_CH_ERR_SRC_LO_ERR_SRC : Fld := ⟨.BMV_CH_ERR_SRC_LO, 0, 32⟩
abbrev BMV_CH_INTDEST_VECTOR : Fld := ⟨.BMV_CH_INTDEST, 0, 11⟩
abbrev BMV_CH_INTDEST_STEWARD : Fld := ⟨.BMV_CH_INTDEST, 11, 1⟩
abbrev BMV_CH_OWNER_POS : Fld := ⟨.BMV_CH_OWNER, 0, 4⟩
abbrev BMV_CH_OWNER_HELD : Fld := ⟨.BMV_CH_OWNER, 4, 1⟩
abbrev BMV_CH_OWNER_NODE_INST_ID : Fld := ⟨.BMV_CH_OWNER, 16, 16⟩
abbrev BMV_CH_REMAINING_REMAINING : Fld := ⟨.BMV_CH_REMAINING, 0, 32⟩
abbrev BMV_CH_REQ_WAIT_REQ_WAIT : Fld := ⟨.BMV_CH_REQ_WAIT, 0, 32⟩
abbrev BMV_CH_STATUS_STATE : Fld := ⟨.BMV_CH_STATUS, 0, 2⟩
abbrev BMV_CH_STATUS_SH_VALID : Fld := ⟨.BMV_CH_STATUS, 2, 1⟩
abbrev BMV_CH_STATUS_HALF : Fld := ⟨.BMV_CH_STATUS, 3, 1⟩
abbrev BMV_CH_STATUS_DONE : Fld := ⟨.BMV_CH_STATUS, 4, 1⟩
abbrev BMV_CH_STATUS_OVERRUN : Fld := ⟨.BMV_CH_STATUS, 5, 1⟩
abbrev BMV_CH_STATUS_MISMATCH : Fld := ⟨.BMV_CH_STATUS, 6, 1⟩
abbrev BMV_CH_STATUS_POISON : Fld := ⟨.BMV_CH_STATUS, 7, 1⟩
abbrev BMV_CH_STATUS_ERR : Fld := ⟨.BMV_CH_STATUS, 8, 3⟩
abbrev BMV_CH_STATUS_REFUSED : Fld := ⟨.BMV_CH_STATUS, 11, 1⟩
abbrev BMV_CH_STATUS_SH_BUSY : Fld := ⟨.BMV_CH_STATUS, 12, 1⟩
abbrev BMV_CH_STATUS_WAIT_REQ : Fld := ⟨.BMV_CH_STATUS, 13, 1⟩
abbrev BMV_CH_STATUS_OUT : Fld := ⟨.BMV_CH_STATUS, 14, 1⟩
abbrev BMV_CH_STATUS_RETRIES : Fld := ⟨.BMV_CH_STATUS, 16, 16⟩
abbrev BMV_ENG_BYTES_BYTES : Fld := ⟨.BMV_ENG_BYTES, 0, 32⟩
abbrev BMV_ENG_FOREIGN_WR_FOREIGN_WR : Fld := ⟨.BMV_ENG_FOREIGN_WR, 0, 32⟩
abbrev BMV_ENG_INJ_CH : Fld := ⟨.BMV_ENG_INJ, 0, 3⟩
abbrev BMV_ENG_INJ_ARM : Fld := ⟨.BMV_ENG_INJ, 31, 1⟩
abbrev BMV_ENG_MAP_MAP : Fld := ⟨.BMV_ENG_MAP, 0, 32⟩
abbrev BMV_ENG_STATUS_OVERCOMMIT : Fld := ⟨.BMV_ENG_STATUS, 0, 1⟩
abbrev BMV_ENG_STATUS_SHARE_SUM : Fld := ⟨.BMV_ENG_STATUS, 1, 12⟩
abbrev BMV_ENG_STATUS_MAP_PENDING : Fld := ⟨.BMV_ENG_STATUS, 13, 1⟩
abbrev BMV_ENG_STATUS_MAP_REFUSED : Fld := ⟨.BMV_ENG_STATUS, 14, 1⟩
abbrev BMV_ENG_STATUS_BENCH_SLICE : Fld := ⟨.BMV_ENG_STATUS, 16, 4⟩
abbrev BMV_SH_CFG_MODE : Fld := ⟨.BMV_SH_CFG, 0, 2⟩
abbrev BMV_SH_CFG_BURST : Fld := ⟨.BMV_SH_CFG, 2, 2⟩
abbrev BMV_SH_CFG_CYCLIC : Fld := ⟨.BMV_SH_CFG, 4, 1⟩
abbrev BMV_SH_CFG_HALF_IE : Fld := ⟨.BMV_SH_CFG, 5, 1⟩
abbrev BMV_SH_CFG_FULL_IE : Fld := ⟨.BMV_SH_CFG, 6, 1⟩
abbrev BMV_SH_CFG_ERR_IE : Fld := ⟨.BMV_SH_CFG, 7, 1⟩
abbrev BMV_SH_CFG_REQ_SEL : Fld := ⟨.BMV_SH_CFG, 8, 6⟩
abbrev BMV_SH_CFG_RETRY_MAX : Fld := ⟨.BMV_SH_CFG, 16, 3⟩
abbrev BMV_SH_CFG_CLASS : Fld := ⟨.BMV_SH_CFG, 19, 2⟩
abbrev BMV_SH_CFG_SHARE : Fld := ⟨.BMV_SH_CFG, 24, 8⟩
abbrev BMV_SH_DST_HI_ADDR : Fld := ⟨.BMV_SH_DST_HI, 0, 16⟩
abbrev BMV_SH_DST_LO_ADDR : Fld := ⟨.BMV_SH_DST_LO, 0, 32⟩
abbrev BMV_SH_FILL_FILL : Fld := ⟨.BMV_SH_FILL, 0, 32⟩
abbrev BMV_SH_LEN_LEN : Fld := ⟨.BMV_SH_LEN, 0, 32⟩
abbrev BMV_SH_SRC_HI_ADDR : Fld := ⟨.BMV_SH_SRC_HI, 0, 16⟩
abbrev BMV_SH_SRC_LO_ADDR : Fld := ⟨.BMV_SH_SRC_LO, 0, 32⟩
abbrev BOOT_CTRL_WDOG_KICK : Fld := ⟨.BOOT_CTRL, 0, 1⟩
abbrev BOOT_CTRL_WDOG_STOP : Fld := ⟨.BOOT_CTRL, 1, 1⟩
abbrev BOOT_CTRL_SLOT_NEXT : Fld := ⟨.BOOT_CTRL, 2, 1⟩
abbrev BOOT_CTRL_SLOT_NEXT_VALID : Fld := ⟨.BOOT_CTRL, 3, 1⟩
abbrev BOOT_DBG_CHAL_CHAL : Fld := ⟨.BOOT_DBG_CHAL, 0, 32⟩
abbrev BOOT_DBG_CTRL_REQ : Fld := ⟨.BOOT_DBG_CTRL, 0, 1⟩
abbrev BOOT_DBG_CTRL_SCOPE : Fld := ⟨.BOOT_DBG_CTRL, 1, 3⟩
abbrev BOOT_DBG_CTRL_LOCK : Fld := ⟨.BOOT_DBG_CTRL, 4, 1⟩
abbrev BOOT_DBG_CTRL_GO : Fld := ⟨.BOOT_DBG_CTRL, 5, 1⟩
abbrev BOOT_DBG_RESP_RESP : Fld := ⟨.BOOT_DBG_RESP, 0, 32⟩
abbrev BOOT_DBG_STATUS_UNLOCKED : Fld := ⟨.BOOT_DBG_STATUS, 0, 1⟩
abbrev BOOT_DBG_STATUS_SCOPE : Fld := ⟨.BOOT_DBG_STATUS, 1, 3⟩
abbrev BOOT_DBG_STATUS_FAILS : Fld := ⟨.BOOT_DBG_STATUS, 4, 2⟩
abbrev BOOT_DBG_STATUS_LOCKED_OUT : Fld := ⟨.BOOT_DBG_STATUS, 6, 1⟩
abbrev BOOT_DBG_STATUS_CHAL_VALID : Fld := ⟨.BOOT_DBG_STATUS, 7, 1⟩
abbrev BOOT_STATUS_STATE : Fld := ⟨.BOOT_STATUS, 0, 4⟩
abbrev BOOT_STATUS_SLOT : Fld := ⟨.BOOT_STATUS, 4, 1⟩
abbrev BOOT_STATUS_PAIR : Fld := ⟨.BOOT_STATUS, 5, 1⟩
abbrev BOOT_STATUS_DESC_COPY : Fld := ⟨.BOOT_STATUS, 6, 1⟩
abbrev BOOT_STATUS_DESC_DEFAULT : Fld := ⟨.BOOT_STATUS, 7, 1⟩
abbrev BOOT_STATUS_FAIL_A : Fld := ⟨.BOOT_STATUS, 8, 4⟩
abbrev BOOT_STATUS_FAIL_B : Fld := ⟨.BOOT_STATUS, 12, 4⟩
abbrev BOOT_STATUS_SECVER : Fld := ⟨.BOOT_STATUS, 16, 7⟩
abbrev BOOT_STATUS_COUNTER : Fld := ⟨.BOOT_STATUS, 23, 7⟩
abbrev CANCEL_NOINST_COUNT : Fld := ⟨.CANCEL_NOINST, 0, 32⟩
abbrev CANCEL_SAME_CYCLE_COUNT : Fld := ⟨.CANCEL_SAME_CYCLE, 0, 32⟩
abbrev CPL_BIP_ERR_BIP_ERR : Fld := ⟨.CPL_BIP_ERR, 0, 32⟩
abbrev CPL_CONSIST_CAR : Fld := ⟨.CPL_CONSIST, 0, 3⟩
abbrev CPL_CONSIST_UP_PORT : Fld := ⟨.CPL_CONSIST, 3, 4⟩
abbrev CPL_CONSIST_UP_EN : Fld := ⟨.CPL_CONSIST, 7, 1⟩
abbrev CPL_CONSIST_TIME_PERIOD_US : Fld := ⟨.CPL_CONSIST, 8, 16⟩
abbrev CPL_CONV_SENT_CONV_SENT : Fld := ⟨.CPL_CONV_SENT, 0, 32⟩
abbrev CPL_CRC_ERR_SAMPLE_CRC_ERR_SAMPLE : Fld := ⟨.CPL_CRC_ERR_SAMPLE, 0, 32⟩
abbrev CPL_CRC_ERR_TOKEN_CRC_ERR_TOKEN : Fld := ⟨.CPL_CRC_ERR_TOKEN, 0, 32⟩
abbrev CPL_DELAY_ASYM_ASYM_PS : Fld := ⟨.CPL_DELAY_ASYM, 0, 32⟩
abbrev CPL_DELAY_OWD_RX_OWD_PS : Fld := ⟨.CPL_DELAY_OWD_RX, 0, 32⟩
abbrev CPL_DELAY_OWD_TX_OWD_PS : Fld := ⟨.CPL_DELAY_OWD_TX, 0, 32⟩
abbrev CPL_DELAY_RTT_RTT_PS : Fld := ⟨.CPL_DELAY_RTT, 0, 32⟩
abbrev CPL_GAP_IGNORED_GAP_IGNORED : Fld := ⟨.CPL_GAP_IGNORED, 0, 32⟩
abbrev CPL_GAP_MAX_GAP_MAX_NS : Fld := ⟨.CPL_GAP_MAX, 0, 15⟩
abbrev CPL_HDR_ERR_HDR_ERR : Fld := ⟨.CPL_HDR_ERR, 0, 32⟩
abbrev CPL_LANE_CTRL_SLIP : Fld := ⟨.CPL_LANE_CTRL, 0, 1⟩
abbrev CPL_LANE_CTRL_LOOP : Fld := ⟨.CPL_LANE_CTRL, 1, 2⟩
abbrev CPL_LANE_CTRL_LOOPCHK_EN : Fld := ⟨.CPL_LANE_CTRL, 3, 1⟩
abbrev CPL_LANE_LOOP_ERR_LOOP_ERR : Fld := ⟨.CPL_LANE_LOOP_ERR, 0, 32⟩
abbrev CPL_LANE_PHASE_PHASE : Fld := ⟨.CPL_LANE_PHASE, 0, 16⟩
abbrev CPL_LANE_STATUS_SIGNAL : Fld := ⟨.CPL_LANE_STATUS, 0, 1⟩
abbrev CPL_LANE_STATUS_MATCH : Fld := ⟨.CPL_LANE_STATUS, 1, 1⟩
abbrev CPL_LANE_STATUS_SLIP_BUSY : Fld := ⟨.CPL_LANE_STATUS, 2, 1⟩
abbrev CPL_LANE_STATUS_SLIP_IGNORED : Fld := ⟨.CPL_LANE_STATUS, 3, 1⟩
abbrev CPL_LANE_STATUS_DRIFT : Fld := ⟨.CPL_LANE_STATUS, 4, 1⟩
abbrev CPL_LANE_STATUS_DRIFT_SEEN : Fld := ⟨.CPL_LANE_STATUS, 5, 1⟩
abbrev CPL_LANE_STATUS_BUSY : Fld := ⟨.CPL_LANE_STATUS, 6, 1⟩
abbrev CPL_LANE_STATUS_FAULTY : Fld := ⟨.CPL_LANE_STATUS, 7, 1⟩
abbrev CPL_LANE_STATUS_SLIPS : Fld := ⟨.CPL_LANE_STATUS, 8, 7⟩
abbrev CPL_LINK_DOWN_LINK_DOWN : Fld := ⟨.CPL_LINK_DOWN, 0, 32⟩
abbrev CPL_PORT_CTRL_EN : Fld := ⟨.CPL_PORT_CTRL, 0, 1⟩
abbrev CPL_PORT_CTRL_RATE : Fld := ⟨.CPL_PORT_CTRL, 1, 2⟩
abbrev CPL_PORT_CTRL_LANE_DROP_EN : Fld := ⟨.CPL_PORT_CTRL, 3, 1⟩
abbrev CPL_PORT_CTRL_TIME_TX : Fld := ⟨.CPL_PORT_CTRL, 4, 1⟩
abbrev CPL_PORT_CTRL_TX_PWR : Fld := ⟨.CPL_PORT_CTRL, 5, 2⟩
abbrev CPL_PORT_CTRL_RX_PWR : Fld := ⟨.CPL_PORT_CTRL, 7, 2⟩
abbrev CPL_PORT_CTRL_AUTO_LISTEN : Fld := ⟨.CPL_PORT_CTRL, 9, 1⟩
abbrev CPL_PORT_CTRL_PROBES : Fld := ⟨.CPL_PORT_CTRL, 10, 4⟩
abbrev CPL_PORT_EQ_PRE : Fld := ⟨.CPL_PORT_EQ, 0, 5⟩
abbrev CPL_PORT_EQ_MAIN : Fld := ⟨.CPL_PORT_EQ, 5, 5⟩
abbrev CPL_PORT_EQ_POST : Fld := ⟨.CPL_PORT_EQ, 10, 5⟩
abbrev CPL_PORT_EQ_CTLE : Fld := ⟨.CPL_PORT_EQ, 15, 4⟩
abbrev CPL_PORT_EQ_GAIN : Fld := ⟨.CPL_PORT_EQ, 19, 4⟩
abbrev CPL_PORT_EQ_CLASS : Fld := ⟨.CPL_PORT_EQ, 23, 3⟩
abbrev CPL_PORT_EVENTS_LINK_DOWN_SEEN : Fld := ⟨.CPL_PORT_EVENTS, 0, 1⟩
abbrev CPL_PORT_EVENTS_CLK_MISWIRE : Fld := ⟨.CPL_PORT_EVENTS, 1, 1⟩
abbrev CPL_PORT_EVENTS_GAP_TIMEOUT : Fld := ⟨.CPL_PORT_EVENTS, 2, 1⟩
abbrev CPL_PORT_EVENTS_LANE_DROPPED : Fld := ⟨.CPL_PORT_EVENTS, 3, 1⟩
abbrev CPL_PORT_LANE_MAP_MAP : Fld := ⟨.CPL_PORT_LANE_MAP, 0, 8⟩
abbrev CPL_PORT_LANE_MAP_INV : Fld := ⟨.CPL_PORT_LANE_MAP, 8, 4⟩
abbrev CPL_PORT_LANE_MAP_MISWIRE_LANE : Fld := ⟨.CPL_PORT_LANE_MAP, 12, 3⟩
abbrev CPL_PORT_PARTNER_MAJOR : Fld := ⟨.CPL_PORT_PARTNER, 0, 8⟩
abbrev CPL_PORT_PARTNER_MINOR : Fld := ⟨.CPL_PORT_PARTNER, 8, 8⟩
abbrev CPL_PORT_PARTNER_ROLE : Fld := ⟨.CPL_PORT_PARTNER, 16, 4⟩
abbrev CPL_PORT_PARTNER_CAR : Fld := ⟨.CPL_PORT_PARTNER, 20, 3⟩
abbrev CPL_PORT_PARTNER_CAR_VALID : Fld := ⟨.CPL_PORT_PARTNER, 23, 1⟩
abbrev CPL_PORT_PARTNER_AGREED_MINOR : Fld := ⟨.CPL_PORT_PARTNER, 24, 8⟩
abbrev CPL_PORT_PFEAT_FEATURES : Fld := ⟨.CPL_PORT_PFEAT, 0, 32⟩
abbrev CPL_PORT_STATUS_STATE : Fld := ⟨.CPL_PORT_STATUS, 0, 4⟩
abbrev CPL_PORT_STATUS_PHASE : Fld := ⟨.CPL_PORT_STATUS, 4, 3⟩
abbrev CPL_PORT_STATUS_ATTEMPTS : Fld := ⟨.CPL_PORT_STATUS, 7, 3⟩
abbrev CPL_PORT_STATUS_LANES : Fld := ⟨.CPL_PORT_STATUS, 10, 4⟩
abbrev CPL_PORT_STATUS_CAL_DONE : Fld := ⟨.CPL_PORT_STATUS, 14, 1⟩
abbrev CPL_PORT_STATUS_CAL_DEFAULT : Fld := ⟨.CPL_PORT_STATUS, 15, 1⟩
abbrev CPL_PORT_STATUS_EQ_DEFAULT : Fld := ⟨.CPL_PORT_STATUS, 16, 1⟩
abbrev CPL_PORT_STATUS_GAP_OPEN : Fld := ⟨.CPL_PORT_STATUS, 17, 1⟩
abbrev CPL_RETRAINS_RETRAINS : Fld := ⟨.CPL_RETRAINS, 0, 32⟩
abbrev CPL_ROUTE_PORT : Fld := ⟨.CPL_ROUTE, 0, 32⟩
abbrev CPL_ROUTE_EN_EN : Fld := ⟨.CPL_ROUTE_EN, 0, 8⟩
abbrev CPL_SID_NOMATCH_SID_NOMATCH : Fld := ⟨.CPL_SID_NOMATCH, 0, 32⟩
abbrev CPL_STREAM_TABLE_BASE_BASE : Fld := ⟨.CPL_STREAM_TABLE_BASE, 0, 26⟩
abbrev CPL_TIME_INFO_SRC_CAR : Fld := ⟨.CPL_TIME_INFO, 0, 3⟩
abbrev CPL_TIME_INFO_HOPS : Fld := ⟨.CPL_TIME_INFO, 3, 3⟩
abbrev CPL_TIME_INFO_LOCKED : Fld := ⟨.CPL_TIME_INFO, 6, 1⟩
abbrev CPL_TIME_INFO_NEW : Fld := ⟨.CPL_TIME_INFO, 7, 1⟩
abbrev CPL_TIME_OFFSET_OFFSET_PS : Fld := ⟨.CPL_TIME_OFFSET, 0, 32⟩
abbrev CPL_TOKEN_LOST_TOKEN_LOST : Fld := ⟨.CPL_TOKEN_LOST, 0, 32⟩
abbrev CPL_TOKEN_NOBUF_TOKEN_NOBUF : Fld := ⟨.CPL_TOKEN_NOBUF, 0, 32⟩
abbrev CPL_TOKEN_POOL_POOL : Fld := ⟨.CPL_TOKEN_POOL, 0, 6⟩
abbrev CPL_TOKEN_RESENT_TOKEN_RESENT : Fld := ⟨.CPL_TOKEN_RESENT, 0, 32⟩
abbrev CPL_TOKEN_TOOBIG_TOKEN_TOOBIG : Fld := ⟨.CPL_TOKEN_TOOBIG, 0, 32⟩
abbrev CPL_TX_ADV_MAX_TX_ADV_MAX_NS : Fld := ⟨.CPL_TX_ADV_MAX, 0, 21⟩
abbrev CPL_TX_ADV_MIN_TX_ADV_MIN_NS : Fld := ⟨.CPL_TX_ADV_MIN, 0, 21⟩
abbrev CPL_TX_LATE_TX_LATE : Fld := ⟨.CPL_TX_LATE, 0, 32⟩
abbrev DEADLINE_LATE_CANCEL_COUNT : Fld := ⟨.DEADLINE_LATE_CANCEL, 0, 32⟩
abbrev DUP_CREATE_COUNT : Fld := ⟨.DUP_CREATE, 0, 32⟩
abbrev DUP_TOKEN_COUNT : Fld := ⟨.DUP_TOKEN, 0, 32⟩
abbrev ECC_CE_HBM_CE_HBM : Fld := ⟨.ECC_CE_HBM, 0, 32⟩
abbrev ECC_CE_RCS_CE_RCS : Fld := ⟨.ECC_CE_RCS, 0, 32⟩
abbrev ECC_CE_SRAM_CE_SRAM : Fld := ⟨.ECC_CE_SRAM, 0, 32⟩
abbrev ECC_CTRL_REPORT_EN : Fld := ⟨.ECC_CTRL, 0, 1⟩
abbrev ECC_ERQ_CTRL_EN : Fld := ⟨.ECC_ERQ_CTRL, 0, 1⟩
abbrev ECC_ERQ_CTRL_COAL_EN : Fld := ⟨.ECC_ERQ_CTRL, 1, 1⟩
abbrev ECC_ERQ_FIRST_WORD : Fld := ⟨.ECC_ERQ_FIRST, 0, 32⟩
abbrev ECC_ERQ_FIRST_VALID_VALID : Fld := ⟨.ECC_ERQ_FIRST_VALID, 0, 3⟩
abbrev ECC_ERQ_LOST_LOST : Fld := ⟨.ECC_ERQ_LOST, 0, 32⟩
abbrev ECC_ERQ_PUSH_WORD : Fld := ⟨.ECC_ERQ_PUSH, 0, 32⟩
abbrev ECC_ERQ_PUSH_GO_GO : Fld := ⟨.ECC_ERQ_PUSH_GO, 0, 1⟩
abbrev ECC_ERQ_BASE_BASE : Fld := ⟨.ECC_ERQ_BASE, 0, 26⟩
abbrev ECC_ERQ_COALESCED_COALESCED : Fld := ⟨.ECC_ERQ_COALESCED, 0, 32⟩
abbrev ECC_ERQ_RD_RD : Fld := ⟨.ECC_ERQ_RD, 0, 16⟩
abbrev ECC_ERQ_STATUS_OVF : Fld := ⟨.ECC_ERQ_STATUS, 0, 1⟩
abbrev ECC_ERQ_STATUS_NONEMPTY : Fld := ⟨.ECC_ERQ_STATUS, 1, 1⟩
abbrev ECC_ERQ_STATUS_LEVEL : Fld := ⟨.ECC_ERQ_STATUS, 16, 10⟩
abbrev ECC_ERQ_WR_WR : Fld := ⟨.ECC_ERQ_WR, 0, 16⟩
abbrev ECC_FIRST_ADDR_HI_ADDR : Fld := ⟨.ECC_FIRST_ADDR_HI, 0, 16⟩
abbrev ECC_FIRST_ADDR_LO_ADDR : Fld := ⟨.ECC_FIRST_ADDR_LO, 0, 32⟩
abbrev ECC_FIRST_STATUS_VALID : Fld := ⟨.ECC_FIRST_STATUS, 0, 1⟩
abbrev ECC_FIRST_STATUS_SYNDROME : Fld := ⟨.ECC_FIRST_STATUS, 8, 8⟩
abbrev ECC_FIRST_STATUS_SOURCE : Fld := ⟨.ECC_FIRST_STATUS, 16, 16⟩
abbrev ECC_INJ_KIND : Fld := ⟨.ECC_INJ, 0, 2⟩
abbrev ECC_INJ_ARM : Fld := ⟨.ECC_INJ, 31, 1⟩
abbrev ECC_INJ_ADDR_HI_ADDR : Fld := ⟨.ECC_INJ_ADDR_HI, 0, 16⟩
abbrev ECC_INJ_ADDR_LO_ADDR : Fld := ⟨.ECC_INJ_ADDR_LO, 0, 32⟩
abbrev ECC_POISON_MERGE_POISON_MERGE : Fld := ⟨.ECC_POISON_MERGE, 0, 32⟩
abbrev ECC_POISON_READ_POISON_READ : Fld := ⟨.ECC_POISON_READ, 0, 32⟩
abbrev ECC_ROW_EVICT_ROW_EVICT : Fld := ⟨.ECC_ROW_EVICT, 0, 32⟩
abbrev ECC_ROWTAB_ID_ID : Fld := ⟨.ECC_ROWTAB_ID, 0, 32⟩
abbrev ECC_ROWTAB_ROW_ROW : Fld := ⟨.ECC_ROWTAB_ROW, 0, 18⟩
abbrev ECC_ROWTAB_ROW_COUNT : Fld := ⟨.ECC_ROWTAB_ROW, 18, 3⟩
abbrev ECC_ROWTAB_ROW_QUEUED : Fld := ⟨.ECC_ROWTAB_ROW, 21, 1⟩
abbrev ECC_ROWTAB_SEL_ENTRY : Fld := ⟨.ECC_ROWTAB_SEL, 0, 9⟩
abbrev ECC_UE_HBM_UE_HBM : Fld := ⟨.ECC_UE_HBM, 0, 32⟩
abbrev ECC_UE_RCS_UE_RCS : Fld := ⟨.ECC_UE_RCS, 0, 32⟩
abbrev ECC_UE_SRAM_UE_SRAM : Fld := ⟨.ECC_UE_SRAM, 0, 32⟩
abbrev ECC_UNINIT_READ_UNINIT_READ : Fld := ⟨.ECC_UNINIT_READ, 0, 32⟩
abbrev FAILED_COUNT : Fld := ⟨.FAILED, 0, 32⟩
abbrev FCE_BADMETH_BADMETH : Fld := ⟨.FCE_BADMETH, 0, 32⟩
abbrev FCE_CTRL_INJ_DISAGREE : Fld := ⟨.FCE_CTRL, 0, 1⟩
abbrev FCE_DISAGREE_DISAGREE : Fld := ⟨.FCE_DISAGREE, 0, 32⟩
abbrev FCE_ERASED_ERASED : Fld := ⟨.FCE_ERASED, 0, 32⟩
abbrev FCE_PRB_PRB : Fld := ⟨.FCE_PRB, 0, 32⟩
abbrev FUS_DATA_DATA : Fld := ⟨.FUS_DATA, 0, 32⟩
abbrev FUS_SEL_WORD : Fld := ⟨.FUS_SEL, 0, 12⟩
abbrev FUS_SPARE_ROWS_LEFT : Fld := ⟨.FUS_SPARE, 0, 2⟩
abbrev FUS_SPARE_COLS_LEFT : Fld := ⟨.FUS_SPARE, 2, 2⟩
abbrev FUS_SPARE_SEL_MACRO : Fld := ⟨.FUS_SPARE_SEL, 0, 16⟩
abbrev FUS_STATUS_LOADED : Fld := ⟨.FUS_STATUS, 0, 1⟩
abbrev FUS_STATUS_VOTE_FIX : Fld := ⟨.FUS_STATUS, 1, 1⟩
abbrev GDX_ADM_REFUSED_COUNT : Fld := ⟨.GDX_ADM_REFUSED, 0, 32⟩
abbrev GDX_BUFPOOL_BASE_BASE : Fld := ⟨.GDX_BUFPOOL_BASE, 0, 26⟩
abbrev GDX_CFG_REPLAY_MAX : Fld := ⟨.GDX_CFG, 0, 2⟩
abbrev GDX_CFG_L0_LIMIT_NS : Fld := ⟨.GDX_CFG, 8, 12⟩
abbrev GDX_CLASS_DEPTH_CUR : Fld := ⟨.GDX_CLASS_DEPTH, 0, 16⟩
abbrev GDX_CLASS_DEPTH_PEAK : Fld := ⟨.GDX_CLASS_DEPTH, 16, 16⟩
abbrev GDX_CLASS_RESERVE_RESERVE : Fld := ⟨.GDX_CLASS_RESERVE, 0, 8⟩
abbrev GDX_CLASS_STATE_RR_PTR : Fld := ⟨.GDX_CLASS_STATE, 0, 8⟩
abbrev GDX_CLASS_STATE_FREE : Fld := ⟨.GDX_CLASS_STATE, 8, 8⟩
abbrev GDX_CLASS_STATE_OUT : Fld := ⟨.GDX_CLASS_STATE, 16, 8⟩
abbrev GDX_CTRL_EN : Fld := ⟨.GDX_CTRL, 0, 1⟩
abbrev GDX_HIST_COUNT : Fld := ⟨.GDX_HIST, 0, 32⟩
abbrev GDX_INST_CMD_ID : Fld := ⟨.GDX_INST_CMD, 0, 12⟩
abbrev GDX_INST_CMD_OP : Fld := ⟨.GDX_INST_CMD, 12, 2⟩
abbrev GDX_INST_CMD_TL : Fld := ⟨.GDX_INST_CMD, 14, 8⟩
abbrev GDX_INST_CMD_GO : Fld := ⟨.GDX_INST_CMD, 31, 1⟩
abbrev GDX_INST_STATUS_SLOT : Fld := ⟨.GDX_INST_STATUS, 0, 32⟩
abbrev GDX_LOAD_BUSY : Fld := ⟨.GDX_LOAD, 0, 21⟩
abbrev GDX_POOL_BAL_HI_BAL : Fld := ⟨.GDX_POOL_BAL_HI, 0, 8⟩
abbrev GDX_POOL_BAL_HI_WAITLEN : Fld := ⟨.GDX_POOL_BAL_HI, 16, 8⟩
abbrev GDX_POOL_BAL_LO_BAL : Fld := ⟨.GDX_POOL_BAL_LO, 0, 32⟩
abbrev GDX_POOL_SEL_POOL : Fld := ⟨.GDX_POOL_SEL, 0, 10⟩
abbrev GDX_SNAP_HOLD : Fld := ⟨.GDX_SNAP, 0, 1⟩
abbrev GDX_STATUS_IDLE : Fld := ⟨.GDX_STATUS, 0, 1⟩
abbrev GDX_STATUS_RELBUF_FULL : Fld := ⟨.GDX_STATUS, 1, 1⟩
abbrev GDX_STATUS_OVERCOMMIT : Fld := ⟨.GDX_STATUS, 2, 1⟩
abbrev GDX_TELEM_BASE_BASE : Fld := ⟨.GDX_TELEM_BASE, 0, 26⟩
abbrev GDX_TELEM_LOST_COUNT : Fld := ⟨.GDX_TELEM_LOST, 0, 32⟩
abbrev GDX_TELEM_RD_RD : Fld := ⟨.GDX_TELEM_RD, 0, 16⟩
abbrev GDX_TELEM_SIZE_SIZE : Fld := ⟨.GDX_TELEM_SIZE, 0, 16⟩
abbrev GDX_TELEM_WR_WR : Fld := ⟨.GDX_TELEM_WR, 0, 16⟩
abbrev GDX_TPL_ADDR_HI_ADDR : Fld := ⟨.GDX_TPL_ADDR_HI, 0, 16⟩
abbrev GDX_TPL_ADDR_LO_ADDR : Fld := ⟨.GDX_TPL_ADDR_LO, 0, 32⟩
abbrev GDX_TPL_CMD_OP : Fld := ⟨.GDX_TPL_CMD, 0, 2⟩
abbrev GDX_TPL_CMD_TEMPLATE : Fld := ⟨.GDX_TPL_CMD, 4, 12⟩
abbrev GDX_TPL_CMD_GO : Fld := ⟨.GDX_TPL_CMD, 31, 1⟩
abbrev GDX_TPL_STATUS_BUSY : Fld := ⟨.GDX_TPL_STATUS, 0, 1⟩
abbrev GDX_TPL_STATUS_REFUSED : Fld := ⟨.GDX_TPL_STATUS, 1, 1⟩
abbrev GDX_TPL_STATUS_CAUSE : Fld := ⟨.GDX_TPL_STATUS, 4, 4⟩
abbrev GDX_TPL_STATUS_INDEX : Fld := ⟨.GDX_TPL_STATUS, 8, 13⟩
abbrev GDX_WAIT_MAX_WAIT : Fld := ⟨.GDX_WAIT_MAX, 0, 32⟩
abbrev INST_LIVE_LIVE : Fld := ⟨.INST_LIVE, 0, 13⟩
abbrev INST_REFUSED_COUNT : Fld := ⟨.INST_REFUSED, 0, 32⟩
abbrev L0_OVER_COUNT : Fld := ⟨.L0_OVER, 0, 32⟩
abbrev MBX_CSR_WIN_SEG : Fld := ⟨.MBX_CSR_WIN, 0, 4⟩
abbrev MBX_CSR_WIN_WR_EN : Fld := ⟨.MBX_CSR_WIN, 31, 1⟩
abbrev MBX_DEV_EVENT_FAILOVER : Fld := ⟨.MBX_DEV_EVENT, 0, 1⟩
abbrev MBX_DEV_EVENT_SWAP : Fld := ⟨.MBX_DEV_EVENT, 1, 1⟩
abbrev MBX_DEV_EVENT_THERM_WARN : Fld := ⟨.MBX_DEV_EVENT, 2, 1⟩
abbrev MBX_DEV_STATUS_BOOT_STATE : Fld := ⟨.MBX_DEV_STATUS, 0, 4⟩
abbrev MBX_DEV_STATUS_STEOL_READY : Fld := ⟨.MBX_DEV_STATUS, 4, 1⟩
abbrev MBX_DEV_STATUS_ACTIVE_PAIR : Fld := ⟨.MBX_DEV_STATUS, 5, 1⟩
abbrev MBX_DEV_STATUS_STANDBY_READY : Fld := ⟨.MBX_DEV_STATUS, 6, 1⟩
abbrev MBX_DEV_STATUS_TRIAL : Fld := ⟨.MBX_DEV_STATUS, 7, 1⟩
abbrev MBX_DEV_STATUS_FAILOVERS : Fld := ⟨.MBX_DEV_STATUS, 16, 16⟩
abbrev MBX_DEV_TIME_NS_NS : Fld := ⟨.MBX_DEV_TIME_NS, 0, 30⟩
abbrev MBX_DEV_TIME_SEC_HI_SEC : Fld := ⟨.MBX_DEV_TIME_SEC_HI, 0, 16⟩
abbrev MBX_DEV_TIME_SEC_LO_SEC : Fld := ⟨.MBX_DEV_TIME_SEC_LO, 0, 32⟩
abbrev MBX_DOORBELL_SEQ : Fld := ⟨.MBX_DOORBELL, 0, 16⟩
abbrev MBX_IRQ_VECTOR : Fld := ⟨.MBX_IRQ, 0, 11⟩
abbrev MBX_IRQ_EN : Fld := ⟨.MBX_IRQ, 11, 1⟩
abbrev MBX_OWNER_FUNCTION : Fld := ⟨.MBX_OWNER, 0, 5⟩
abbrev MBX_OWNER_SESSION_OPEN : Fld := ⟨.MBX_OWNER, 5, 1⟩
abbrev MBX_OWNER_SESSION : Fld := ⟨.MBX_OWNER, 16, 16⟩
abbrev MBX_RING_DB_INDEX : Fld := ⟨.MBX_RING_DB, 0, 32⟩
abbrev MBX_RING_DETACH_DROP_DETACH_DROP : Fld := ⟨.MBX_RING_DETACH_DROP, 0, 32⟩
abbrev MBX_RING_ERR_DROP_ERR_DROP : Fld := ⟨.MBX_RING_ERR_DROP, 0, 32⟩
abbrev MBX_RING_HEAD_HEAD : Fld := ⟨.MBX_RING_HEAD, 0, 32⟩
abbrev MBX_RING_IRQ_VECTOR : Fld := ⟨.MBX_RING_IRQ, 0, 11⟩
abbrev MBX_RING_IRQ_EN : Fld := ⟨.MBX_RING_IRQ, 11, 1⟩
abbrev MBX_RING_IRQ_COAL_ITEMS : Fld := ⟨.MBX_RING_IRQ, 12, 8⟩
abbrev MBX_RING_IRQ_COAL_US : Fld := ⟨.MBX_RING_IRQ, 20, 12⟩
abbrev MBX_RING_STALE_STALE : Fld := ⟨.MBX_RING_STALE, 0, 32⟩
abbrev MBX_RING_STATUS_ENABLED : Fld := ⟨.MBX_RING_STATUS, 0, 1⟩
abbrev MBX_RING_STATUS_DIR : Fld := ⟨.MBX_RING_STATUS, 1, 1⟩
abbrev MBX_RING_STATUS_DETACHED : Fld := ⟨.MBX_RING_STATUS, 2, 1⟩
abbrev MBX_RING_STATUS_DB_BAD : Fld := ⟨.MBX_RING_STATUS, 3, 1⟩
abbrev MBX_RING_STATUS_FULL_SEEN : Fld := ⟨.MBX_RING_STATUS, 4, 1⟩
abbrev MBX_RING_TAIL_TAIL : Fld := ⟨.MBX_RING_TAIL, 0, 32⟩
abbrev MBX_STATUS_STATE : Fld := ⟨.MBX_STATUS, 0, 2⟩
abbrev MBX_STATUS_DB_IGNORED : Fld := ⟨.MBX_STATUS, 2, 1⟩
abbrev MBX_STATUS_FAILOVER_SEEN : Fld := ⟨.MBX_STATUS, 3, 1⟩
abbrev MBX_STATUS_REQUEST_LOST : Fld := ⟨.MBX_STATUS, 4, 1⟩
abbrev MBX_STATUS_SEQ : Fld := ⟨.MBX_STATUS, 16, 16⟩
abbrev MEM_CH_BYTES_BYTES : Fld := ⟨.MEM_CH_BYTES, 0, 32⟩
abbrev MEM_CH_ERASE_SYMBOL : Fld := ⟨.MEM_CH_ERASE, 0, 6⟩
abbrev MEM_CH_ERASE_EN : Fld := ⟨.MEM_CH_ERASE, 6, 1⟩
abbrev MEM_CH_ERASE_HITS_HITS : Fld := ⟨.MEM_CH_ERASE_HITS, 0, 32⟩
abbrev MEM_CH_ODECC_ODECC : Fld := ⟨.MEM_CH_ODECC, 0, 32⟩
abbrev MEM_CH_SEL_CH : Fld := ⟨.MEM_CH_SEL, 0, 4⟩
abbrev MEM_INIT_GRANULE : Fld := ⟨.MEM_INIT, 0, 6⟩
abbrev MEM_INIT_PRIORITY : Fld := ⟨.MEM_INIT, 6, 1⟩
abbrev MEM_INIT_PTR : Fld := ⟨.MEM_INIT, 8, 24⟩
abbrev MEM_PPR_USED : Fld := ⟨.MEM_PPR, 0, 16⟩
abbrev MEM_PPR_LEFT : Fld := ⟨.MEM_PPR, 16, 16⟩
abbrev MEM_READY_HI_READY : Fld := ⟨.MEM_READY_HI, 0, 4⟩
abbrev MEM_READY_LO_READY : Fld := ⟨.MEM_READY_LO, 0, 32⟩
abbrev MEM_STATUS_TRAINED : Fld := ⟨.MEM_STATUS, 0, 1⟩
abbrev MEM_STATUS_SELF_REFRESH : Fld := ⟨.MEM_STATUS, 1, 1⟩
abbrev MEM_STATUS_INIT_DONE : Fld := ⟨.MEM_STATUS, 2, 1⟩
abbrev MXC_BUSY_BUSY : Fld := ⟨.MXC_BUSY, 0, 32⟩
abbrev MXC_CTRL_INJ_RESIDUE : Fld := ⟨.MXC_CTRL, 0, 1⟩
abbrev MXC_CTRL_INJ_PARITY : Fld := ⟨.MXC_CTRL, 1, 1⟩
abbrev MXC_CTRL_SERVICE : Fld := ⟨.MXC_CTRL, 2, 1⟩
abbrev MXC_FAULT_CAUSE : Fld := ⟨.MXC_FAULT, 0, 8⟩
abbrev MXC_FAULT_POS : Fld := ⟨.MXC_FAULT, 8, 4⟩
abbrev MXC_FAULT_VALID : Fld := ⟨.MXC_FAULT, 12, 1⟩
abbrev MXC_FAULT_NODE_INST_ID : Fld := ⟨.MXC_FAULT, 16, 16⟩
abbrev MXC_LOCK_WAIT_LOCK_WAIT : Fld := ⟨.MXC_LOCK_WAIT, 0, 32⟩
abbrev MXC_OWNER_NODE_INST_ID : Fld := ⟨.MXC_OWNER, 0, 16⟩
abbrev MXC_RESTORES_RESTORES : Fld := ⟨.MXC_RESTORES, 0, 32⟩
abbrev MXC_SAVES_SAVES : Fld := ⟨.MXC_SAVES, 0, 32⟩
abbrev MXC_SQUASHED_SQUASHED : Fld := ⟨.MXC_SQUASHED, 0, 32⟩
abbrev MXC_STATUS_IN_SERVICE : Fld := ⟨.MXC_STATUS, 0, 1⟩
abbrev MXC_STATUS_LOCKED : Fld := ⟨.MXC_STATUS, 1, 1⟩
abbrev MXC_STATUS_OWNER_POS : Fld := ⟨.MXC_STATUS, 2, 4⟩
abbrev MXC_STATUS_LAST_POS : Fld := ⟨.MXC_STATUS, 6, 4⟩
abbrev MXC_STATUS_LAST_LIVE : Fld := ⟨.MXC_STATUS, 10, 1⟩
abbrev MXC_STATUS_QDEPTH : Fld := ⟨.MXC_STATUS, 11, 4⟩
abbrev MXC_STATUS_SB : Fld := ⟨.MXC_STATUS, 16, 16⟩
abbrev MXC_WAITERS_REQ : Fld := ⟨.MXC_WAITERS, 0, 9⟩
abbrev NET_CTRLQ_DROP_CTRLQ_DROP : Fld := ⟨.NET_CTRLQ_DROP, 0, 32⟩
abbrev NET_FALLBACK_FALLBACK : Fld := ⟨.NET_FALLBACK, 0, 32⟩
abbrev NET_FAULTY_LANE_FAULTY_LANE : Fld := ⟨.NET_FAULTY_LANE, 0, 32⟩
abbrev NET_FEC_CORR_SYM_FEC_CORR_SYM : Fld := ⟨.NET_FEC_CORR_SYM, 0, 32⟩
abbrev NET_FEC_CW_FEC_CW : Fld := ⟨.NET_FEC_CW, 0, 32⟩
abbrev NET_FEC_UNCORR_FEC_UNCORR : Fld := ⟨.NET_FEC_UNCORR, 0, 32⟩
abbrev NET_FH_CMD_RELOAD : Fld := ⟨.NET_FH_CMD, 0, 1⟩
abbrev NET_FH_CP_EXTRA_CP_EXTRA_NS : Fld := ⟨.NET_FH_CP_EXTRA, 0, 21⟩
abbrev NET_FH_LUT_BASE_BASE : Fld := ⟨.NET_FH_LUT_BASE, 0, 26⟩
abbrev NET_FH_RX_MAX_RX_MAX_NS : Fld := ⟨.NET_FH_RX_MAX, 0, 21⟩
abbrev NET_FH_RX_MIN_RX_MIN_NS : Fld := ⟨.NET_FH_RX_MIN, 0, 21⟩
abbrev NET_FH_TX_MAX_TX_ADV_MAX_NS : Fld := ⟨.NET_FH_TX_MAX, 0, 21⟩
abbrev NET_FH_TX_MIN_TX_ADV_MIN_NS : Fld := ⟨.NET_FH_TX_MIN, 0, 21⟩
abbrev NET_GRP_CFG_SHAPE : Fld := ⟨.NET_GRP_CFG, 0, 2⟩
abbrev NET_GRP_CFG_WHOLE_MODE : Fld := ⟨.NET_GRP_CFG, 2, 4⟩
abbrev NET_GRP_CFG_HALF_A : Fld := ⟨.NET_GRP_CFG, 6, 4⟩
abbrev NET_GRP_CFG_HALF_B : Fld := ⟨.NET_GRP_CFG, 10, 4⟩
abbrev NET_GRP_CFG_LANE_MODE : Fld := ⟨.NET_GRP_CFG, 14, 16⟩
abbrev NET_GRP_CFG_CFG_REFUSED : Fld := ⟨.NET_GRP_CFG, 30, 1⟩
abbrev NET_GRP_CFG_APPLY : Fld := ⟨.NET_GRP_CFG, 31, 1⟩
abbrev NET_LANE_CTRL_TX_INV : Fld := ⟨.NET_LANE_CTRL, 0, 1⟩
abbrev NET_LANE_CTRL_RX_INV_FORCE : Fld := ⟨.NET_LANE_CTRL, 1, 1⟩
abbrev NET_LANE_CTRL_RX_INV : Fld := ⟨.NET_LANE_CTRL, 2, 1⟩
abbrev NET_LANE_CTRL_ADAPT_EN : Fld := ⟨.NET_LANE_CTRL, 3, 1⟩
abbrev NET_LANE_CTRL_LEAK : Fld := ⟨.NET_LANE_CTRL, 4, 4⟩
abbrev NET_LANE_CTRL_TD_MIN : Fld := ⟨.NET_LANE_CTRL, 8, 8⟩
abbrev NET_LANE_FROZEN_US_FROZEN_US : Fld := ⟨.NET_LANE_FROZEN_US, 0, 32⟩
abbrev NET_LANE_PRBS_BITS_HI_BITS : Fld := ⟨.NET_LANE_PRBS_BITS_HI, 0, 16⟩
abbrev NET_LANE_PRBS_BITS_LO_BITS : Fld := ⟨.NET_LANE_PRBS_BITS_LO, 0, 32⟩
abbrev NET_LANE_PRBS_CTRL_GEN_EN : Fld := ⟨.NET_LANE_PRBS_CTRL, 0, 1⟩
abbrev NET_LANE_PRBS_CTRL_CHK_EN : Fld := ⟨.NET_LANE_PRBS_CTRL, 1, 1⟩
abbrev NET_LANE_PRBS_CTRL_PATTERN : Fld := ⟨.NET_LANE_PRBS_CTRL, 2, 3⟩
abbrev NET_LANE_PRBS_CTRL_LOOP : Fld := ⟨.NET_LANE_PRBS_CTRL, 5, 2⟩
abbrev NET_LANE_PRBS_CTRL_INJ_KIND : Fld := ⟨.NET_LANE_PRBS_CTRL, 7, 2⟩
abbrev NET_LANE_PRBS_CTRL_INJ_LEN : Fld := ⟨.NET_LANE_PRBS_CTRL, 9, 6⟩
abbrev NET_LANE_PRBS_CTRL_INJ : Fld := ⟨.NET_LANE_PRBS_CTRL, 31, 1⟩
abbrev NET_LANE_PRBS_ERR_ERR : Fld := ⟨.NET_LANE_PRBS_ERR, 0, 32⟩
abbrev NET_LANE_PRBS_STATUS_LOCK : Fld := ⟨.NET_LANE_PRBS_STATUS, 0, 1⟩
abbrev NET_LANE_PRBS_STATUS_LOCK_LOST : Fld := ⟨.NET_LANE_PRBS_STATUS, 1, 1⟩
abbrev NET_LANE_STATUS_SIGNAL : Fld := ⟨.NET_LANE_STATUS, 0, 1⟩
abbrev NET_LANE_STATUS_RX_INV_DET : Fld := ⟨.NET_LANE_STATUS, 1, 1⟩
abbrev NET_LANE_STATUS_FROZEN : Fld := ⟨.NET_LANE_STATUS, 2, 1⟩
abbrev NET_LANE_STATUS_FREEZE_CAUSE : Fld := ⟨.NET_LANE_STATUS, 3, 2⟩
abbrev NET_LANE_STATUS_BUSY : Fld := ⟨.NET_LANE_STATUS, 5, 1⟩
abbrev NET_LANE_STATUS_PAT_REFUSED : Fld := ⟨.NET_LANE_STATUS, 6, 1⟩
abbrev NET_LANE_TXFFE_PRE : Fld := ⟨.NET_LANE_TXFFE, 0, 8⟩
abbrev NET_LANE_TXFFE_MAIN : Fld := ⟨.NET_LANE_TXFFE, 8, 8⟩
abbrev NET_LANE_TXFFE_POST : Fld := ⟨.NET_LANE_TXFFE, 16, 8⟩
abbrev NET_LINK_DOWN_LINK_DOWN : Fld := ⟨.NET_LINK_DOWN, 0, 32⟩
abbrev NET_MACSEC_BYPASS_ETYPE : Fld := ⟨.NET_MACSEC_BYPASS, 0, 16⟩
abbrev NET_MACSEC_DROP_MACSEC_DROP : Fld := ⟨.NET_MACSEC_DROP, 0, 32⟩
abbrev NET_MACSEC_KEY_KEY : Fld := ⟨.NET_MACSEC_KEY, 0, 32⟩
abbrev NET_MACSEC_SA_CMD_INSTALL : Fld := ⟨.NET_MACSEC_SA_CMD, 0, 1⟩
abbrev NET_MACSEC_SA_SEL_SA : Fld := ⟨.NET_MACSEC_SA_SEL, 0, 5⟩
abbrev NET_NOPARTNER_NOPARTNER : Fld := ⟨.NET_NOPARTNER, 0, 32⟩
abbrev NET_PFC_RX_PFC_RX : Fld := ⟨.NET_PFC_RX, 0, 32⟩
abbrev NET_PFC_TX_PFC_TX : Fld := ⟨.NET_PFC_TX, 0, 32⟩
abbrev NET_PORT_CTRL_EN : Fld := ⟨.NET_PORT_CTRL, 0, 1⟩
abbrev NET_PORT_CTRL_PHY : Fld := ⟨.NET_PORT_CTRL, 1, 1⟩
abbrev NET_PORT_CTRL_AN_EN : Fld := ⟨.NET_PORT_CTRL, 2, 1⟩
abbrev NET_PORT_CTRL_LPI_EN : Fld := ⟨.NET_PORT_CTRL, 3, 1⟩
abbrev NET_PORT_CTRL_PFC_RX_EN : Fld := ⟨.NET_PORT_CTRL, 4, 1⟩
abbrev NET_PORT_CTRL_DEGRADE_EN : Fld := ⟨.NET_PORT_CTRL, 5, 1⟩
abbrev NET_PORT_CTRL_DROP_LATE : Fld := ⟨.NET_PORT_CTRL, 6, 1⟩
abbrev NET_PORT_CTRL_MACSEC_EN : Fld := ⟨.NET_PORT_CTRL, 7, 1⟩
abbrev NET_PORT_CTRL_PTP_BYPASS : Fld := ⟨.NET_PORT_CTRL, 8, 1⟩
abbrev NET_PORT_CTRLQ_QUEUE : Fld := ⟨.NET_PORT_CTRLQ, 0, 10⟩
abbrev NET_PORT_CTRLQ_CTRLQ_EN : Fld := ⟨.NET_PORT_CTRLQ, 10, 1⟩
abbrev NET_PORT_FRAME_MAX_FRAME : Fld := ⟨.NET_PORT_FRAME, 0, 14⟩
abbrev NET_PORT_FRAME_TX_TPID : Fld := ⟨.NET_PORT_FRAME, 14, 1⟩
abbrev NET_PORT_MAC_HI_MAC : Fld := ⟨.NET_PORT_MAC_HI, 0, 16⟩
abbrev NET_PORT_MAC_LO_MAC : Fld := ⟨.NET_PORT_MAC_LO, 0, 32⟩
abbrev NET_PORT_MCAST_ADDR : Fld := ⟨.NET_PORT_MCAST, 0, 32⟩
abbrev NET_PORT_STATUS_STATE : Fld := ⟨.NET_PORT_STATUS, 0, 3⟩
abbrev NET_PORT_STATUS_LINK_DOWN_SEEN : Fld := ⟨.NET_PORT_STATUS, 3, 1⟩
abbrev NET_PORT_STATUS_ATTEMPTS : Fld := ⟨.NET_PORT_STATUS, 4, 4⟩
abbrev NET_PORT_STATUS_MODE : Fld := ⟨.NET_PORT_STATUS, 8, 4⟩
abbrev NET_PORT_STATUS_LANE_MAP : Fld := ⟨.NET_PORT_STATUS, 12, 8⟩
abbrev NET_PORT_STATUS_LANES : Fld := ⟨.NET_PORT_STATUS, 20, 4⟩
abbrev NET_RX_CPLANE_BAD_RX_CPLANE_BAD : Fld := ⟨.NET_RX_CPLANE_BAD, 0, 32⟩
abbrev NET_RX_EARLY_RX_EARLY : Fld := ⟨.NET_RX_EARLY, 0, 32⟩
abbrev NET_RX_ECPRI_BAD_RX_ECPRI_BAD : Fld := ⟨.NET_RX_ECPRI_BAD, 0, 32⟩
abbrev NET_RX_FCS_ERR_RX_FCS_ERR : Fld := ⟨.NET_RX_FCS_ERR, 0, 32⟩
abbrev NET_RX_FILTER_RX_FILTER : Fld := ⟨.NET_RX_FILTER, 0, 32⟩
abbrev NET_RX_FRAMES_RX_FRAMES : Fld := ⟨.NET_RX_FRAMES, 0, 32⟩
abbrev NET_RX_LATE_RX_LATE : Fld := ⟨.NET_RX_LATE, 0, 32⟩
abbrev NET_RX_NOMATCH_RX_NOMATCH : Fld := ⟨.NET_RX_NOMATCH, 0, 32⟩
abbrev NET_RX_PAUSE_RX_PAUSE : Fld := ⟨.NET_RX_PAUSE, 0, 32⟩
abbrev NET_RX_SEQ_ERR_RX_SEQ_ERR : Fld := ⟨.NET_RX_SEQ_ERR, 0, 32⟩
abbrev NET_RX_SIZE_ERR_RX_SIZE_ERR : Fld := ⟨.NET_RX_SIZE_ERR, 0, 32⟩
abbrev NET_TX_BAD_TX_BAD : Fld := ⟨.NET_TX_BAD, 0, 32⟩
abbrev NET_TX_DOWN_DROP_TX_DOWN_DROP : Fld := ⟨.NET_TX_DOWN_DROP, 0, 32⟩
abbrev NET_TX_FRAMES_TX_FRAMES : Fld := ⟨.NET_TX_FRAMES, 0, 32⟩
abbrev NET_TX_LATE_TX_LATE : Fld := ⟨.NET_TX_LATE, 0, 32⟩
abbrev NET_TX_NOMATCH_TX_NOMATCH : Fld := ⟨.NET_TX_NOMATCH, 0, 32⟩
abbrev NODE_LIVE_LIVE : Fld := ⟨.NODE_LIVE, 0, 17⟩
abbrev POOL_EMPTY_COUNT : Fld := ⟨.POOL_EMPTY, 0, 32⟩
abbrev PWR_AUTO_DOZE_IDLE_NS : Fld := ⟨.PWR_AUTO_DOZE, 0, 12⟩
abbrev PWR_DOM_ABANDONED_ABANDONED : Fld := ⟨.PWR_DOM_ABANDONED, 0, 32⟩
abbrev PWR_DOM_ENTRIES_ENTRIES : Fld := ⟨.PWR_DOM_ENTRIES, 0, 32⟩
abbrev PWR_DOM_POLICY_DEEPEST : Fld := ⟨.PWR_DOM_POLICY, 0, 3⟩
abbrev PWR_DOM_POLICY_MIN_DWELL_US : Fld := ⟨.PWR_DOM_POLICY, 8, 24⟩
abbrev PWR_DOM_REFUSED_REFUSED : Fld := ⟨.PWR_DOM_REFUSED, 0, 32⟩
abbrev PWR_DOM_RETAIN_RETAIN : Fld := ⟨.PWR_DOM_RETAIN, 0, 25⟩
abbrev PWR_DOM_SEL_DOMAIN : Fld := ⟨.PWR_DOM_SEL, 0, 8⟩
abbrev PWR_DOM_STATE_STATE : Fld := ⟨.PWR_DOM_STATE, 0, 3⟩
abbrev PWR_DOM_STATE_TARGET : Fld := ⟨.PWR_DOM_STATE, 3, 3⟩
abbrev PWR_DOM_STATE_ENTERING : Fld := ⟨.PWR_DOM_STATE, 6, 1⟩
abbrev PWR_DOM_STATE_WAKING : Fld := ⟨.PWR_DOM_STATE, 7, 1⟩
abbrev PWR_DOM_STATE_STEP : Fld := ⟨.PWR_DOM_STATE, 8, 3⟩
abbrev PWR_DOM_STATE_PENDING_VALID : Fld := ⟨.PWR_DOM_STATE, 11, 1⟩
abbrev PWR_DOM_STATE_PENDING : Fld := ⟨.PWR_DOM_STATE, 12, 3⟩
abbrev PWR_DOM_WAKES_WAKES : Fld := ⟨.PWR_DOM_WAKES, 0, 32⟩
abbrev PWR_KEEP_MODE : Fld := ⟨.PWR_KEEP, 0, 1⟩
abbrev PWR_KEEP_BROWNOUT : Fld := ⟨.PWR_KEEP, 1, 1⟩
abbrev PWR_KEEP_LPREG_MA : Fld := ⟨.PWR_KEEP, 8, 8⟩
abbrev PWR_REQ_DOMAIN : Fld := ⟨.PWR_REQ, 0, 8⟩
abbrev PWR_REQ_TARGET : Fld := ⟨.PWR_REQ, 8, 3⟩
abbrev PWR_REQ_GO : Fld := ⟨.PWR_REQ, 31, 1⟩
abbrev PWR_REQ_STATUS_REFUSED : Fld := ⟨.PWR_REQ_STATUS, 0, 1⟩
abbrev PWR_REQ_STATUS_CAUSE : Fld := ⟨.PWR_REQ_STATUS, 1, 3⟩
abbrev PWR_REQ_STATUS_DOMAIN : Fld := ⟨.PWR_REQ_STATUS, 4, 8⟩
abbrev PWR_RET_LOST_RET_LOST : Fld := ⟨.PWR_RET_LOST, 0, 25⟩
abbrev RCS_ADDR_WORD : Fld := ⟨.RCS_ADDR, 0, 17⟩
abbrev RCS_CMD_GO : Fld := ⟨.RCS_CMD, 0, 1⟩
abbrev RCS_DATA_DATA : Fld := ⟨.RCS_DATA, 0, 32⟩
abbrev RCS_PROGRAMS_PROGRAMS : Fld := ⟨.RCS_PROGRAMS, 0, 32⟩
abbrev RCS_STATUS_BUSY : Fld := ⟨.RCS_STATUS, 0, 1⟩
abbrev RCS_STATUS_VERIFY_FAIL : Fld := ⟨.RCS_STATUS, 1, 1⟩
abbrev RCS_STATUS_BLOCKED : Fld := ⟨.RCS_STATUS, 2, 1⟩
abbrev RCS_STATUS_IGNORED : Fld := ⟨.RCS_STATUS, 3, 1⟩
abbrev REFILL_BAD_COUNT : Fld := ⟨.REFILL_BAD, 0, 32⟩
abbrev RELBUF_STALL_COUNT : Fld := ⟨.RELBUF_STALL, 0, 32⟩
abbrev RELBUF_USED_USED : Fld := ⟨.RELBUF_USED, 0, 14⟩
abbrev REMOTE_HOLD_DROP_COUNT : Fld := ⟨.REMOTE_HOLD_DROP, 0, 32⟩
abbrev REPLAYS_COUNT : Fld := ⟨.REPLAYS, 0, 32⟩
abbrev RST_CAUSE_POWER_ON : Fld := ⟨.RST_CAUSE, 0, 1⟩
abbrev RST_CAUSE_RESET_PIN : Fld := ⟨.RST_CAUSE, 1, 1⟩
abbrev RST_CAUSE_SOFTWARE : Fld := ⟨.RST_CAUSE, 2, 1⟩
abbrev RST_CAUSE_WATCHDOG : Fld := ⟨.RST_CAUSE, 3, 1⟩
abbrev RST_CAUSE_BROWNOUT : Fld := ⟨.RST_CAUSE, 4, 1⟩
abbrev RST_CAUSE_THERMAL : Fld := ⟨.RST_CAUSE, 5, 1⟩
abbrev RST_CAUSE_LOCKOUT_RELEASE : Fld := ⟨.RST_CAUSE, 6, 1⟩
abbrev RST_CTRL_WARM : Fld := ⟨.RST_CTRL, 0, 1⟩
abbrev RST_CTRL_KEY : Fld := ⟨.RST_CTRL, 8, 8⟩
abbrev RST_DOMAIN_DOMAIN : Fld := ⟨.RST_DOMAIN, 0, 8⟩
abbrev RST_DOMAIN_GO : Fld := ⟨.RST_DOMAIN, 31, 1⟩
abbrev RST_DOMAIN_STATUS_BUSY : Fld := ⟨.RST_DOMAIN_STATUS, 0, 1⟩
abbrev RST_DOMAIN_STATUS_REFUSED : Fld := ⟨.RST_DOMAIN_STATUS, 1, 1⟩
abbrev SCL_LEND_LOGICAL : Fld := ⟨.SCL_LEND, 0, 8⟩
abbrev SCL_LEND_EN : Fld := ⟨.SCL_LEND, 8, 1⟩
abbrev SCL_MAP_SLOT : Fld := ⟨.SCL_MAP, 0, 32⟩
abbrev SCL_STATUS_BENCH_POS : Fld := ⟨.SCL_STATUS, 0, 4⟩
abbrev SCL_STATUS_MAP_PENDING : Fld := ⟨.SCL_STATUS, 4, 1⟩
abbrev SCL_STATUS_MAP_REFUSED : Fld := ⟨.SCL_STATUS, 5, 1⟩
abbrev SCL_STATUS_RETIRED : Fld := ⟨.SCL_STATUS, 6, 9⟩
abbrev SIG_A_HI_SIG_A_HI : Fld := ⟨.SIG_A_HI, 0, 32⟩
abbrev SIG_A_LO_SIG_A_LO : Fld := ⟨.SIG_A_LO, 0, 32⟩
abbrev SIG_B_HI_SIG_B_HI : Fld := ⟨.SIG_B_HI, 0, 32⟩
abbrev SIG_B_LO_SIG_B_LO : Fld := ⟨.SIG_B_LO, 0, 32⟩
abbrev SIG_C_HI_SIG_C_HI : Fld := ⟨.SIG_C_HI, 0, 32⟩
abbrev SIG_C_LO_SIG_C_LO : Fld := ⟨.SIG_C_LO, 0, 32⟩
abbrev SINK_FULL_COUNT : Fld := ⟨.SINK_FULL, 0, 32⟩
abbrev SQ_CMD_QUEUE : Fld := ⟨.SQ_CMD, 0, 10⟩
abbrev SQ_CMD_OP : Fld := ⟨.SQ_CMD, 10, 2⟩
abbrev SQ_CMD_GO : Fld := ⟨.SQ_CMD, 31, 1⟩
abbrev SQ_CMD_STATUS_REFUSED : Fld := ⟨.SQ_CMD_STATUS, 0, 1⟩
abbrev SQ_CMD_STATUS_CAUSE : Fld := ⟨.SQ_CMD_STATUS, 1, 3⟩
abbrev SQ_CTRL_EN : Fld := ⟨.SQ_CTRL, 0, 1⟩
abbrev SQ_PFC_CFG_QUANTA : Fld := ⟨.SQ_PFC_CFG, 0, 16⟩
abbrev SQ_PFC_CFG_REFRESH_US : Fld := ⟨.SQ_PFC_CFG, 16, 16⟩
abbrev SQ_Q_CREDITS_CREDITS : Fld := ⟨.SQ_Q_CREDITS, 0, 16⟩
abbrev SQ_Q_CREDITS_HELD : Fld := ⟨.SQ_Q_CREDITS, 16, 16⟩
abbrev SQ_Q_DROPS_DROPS : Fld := ⟨.SQ_Q_DROPS, 0, 32⟩
abbrev SQ_Q_GAPS_GAPS : Fld := ⟨.SQ_Q_GAPS, 0, 32⟩
abbrev SQ_Q_LEVEL_LEVEL : Fld := ⟨.SQ_Q_LEVEL, 0, 16⟩
abbrev SQ_Q_LEVEL_PEAK_LEVEL : Fld := ⟨.SQ_Q_LEVEL, 16, 16⟩
abbrev SQ_Q_SEQ_SEQ : Fld := ⟨.SQ_Q_SEQ, 0, 32⟩
abbrev SQ_Q_STATUS_EN : Fld := ⟨.SQ_Q_STATUS, 0, 1⟩
abbrev SQ_Q_STATUS_XOFF_STATE : Fld := ⟨.SQ_Q_STATUS, 1, 1⟩
abbrev SQ_Q_STATUS_HI_SEEN : Fld := ⟨.SQ_Q_STATUS, 2, 1⟩
abbrev SQ_Q_STATUS_LO_SEEN : Fld := ⟨.SQ_Q_STATUS, 3, 1⟩
abbrev SQ_Q_STATUS_GAP_PENDING : Fld := ⟨.SQ_Q_STATUS, 4, 1⟩
abbrev SQ_Q_STATUS_CREDIT_VIOL : Fld := ⟨.SQ_Q_STATUS, 5, 1⟩
abbrev SQ_SEL_QUEUE : Fld := ⟨.SQ_SEL, 0, 10⟩
abbrev SQ_TABLE_BASE_BASE : Fld := ⟨.SQ_TABLE_BASE, 0, 26⟩
abbrev SQ_XOFF_IN_POL_POL : Fld := ⟨.SQ_XOFF_IN_POL, 0, 16⟩
abbrev SQ_XOFF_IN_POLICY_POLICY : Fld := ⟨.SQ_XOFF_IN_POLICY, 0, 16⟩
abbrev SQ_XOFF_IN_STATE_STATE : Fld := ⟨.SQ_XOFF_IN_STATE, 0, 16⟩
abbrev SQ_XOFF_IN_STATE_STUCK : Fld := ⟨.SQ_XOFF_IN_STATE, 16, 16⟩
abbrev SQ_XOFF_IN_STUCK_SEEN_SEEN : Fld := ⟨.SQ_XOFF_IN_STUCK_SEEN, 0, 16⟩
abbrev SQ_XOFF_OUT_POL_POL : Fld := ⟨.SQ_XOFF_OUT_POL, 0, 16⟩
abbrev SQ_XOFF_OUT_STATE_STATE : Fld := ⟨.SQ_XOFF_OUT_STATE, 0, 16⟩
abbrev STALE_INPUT_COUNT : Fld := ⟨.STALE_INPUT, 0, 32⟩
abbrev TBU_ACT_SNAP_FRAC_FRAC : Fld := ⟨.TBU_ACT_SNAP_FRAC, 0, 32⟩
abbrev TBU_ACT_SNAP_NS_NS : Fld := ⟨.TBU_ACT_SNAP_NS, 0, 30⟩
abbrev TBU_ACT_SNAP_SEC_HI_SEC : Fld := ⟨.TBU_ACT_SNAP_SEC_HI, 0, 16⟩
abbrev TBU_ACT_SNAP_SEC_LO_SEC : Fld := ⟨.TBU_ACT_SNAP_SEC_LO, 0, 32⟩
abbrev TBU_CLK10M_CTRL_EN : Fld := ⟨.TBU_CLK10M_CTRL, 0, 1⟩
abbrev TBU_CTRL_REF_SEL : Fld := ⟨.TBU_CTRL, 0, 2⟩
abbrev TBU_CTRL_PLL_EN : Fld := ⟨.TBU_CTRL, 2, 1⟩
abbrev TBU_CTRL_ACTIVE : Fld := ⟨.TBU_CTRL, 3, 1⟩
abbrev TBU_HOLDOVER_SECONDS : Fld := ⟨.TBU_HOLDOVER, 0, 24⟩
abbrev TBU_HOLDOVER_BROWNOUT_LOST : Fld := ⟨.TBU_HOLDOVER, 31, 1⟩
abbrev TBU_JUMP_LIMIT_LIMIT_NS : Fld := ⟨.TBU_JUMP_LIMIT, 0, 30⟩
abbrev TBU_PORT_CFG_DOMAIN : Fld := ⟨.TBU_PORT_CFG, 0, 2⟩
abbrev TBU_PORT_CFG_ONE_STEP : Fld := ⟨.TBU_PORT_CFG, 2, 1⟩
abbrev TBU_PORT_CFG_ECPRI_OWD_EN : Fld := ⟨.TBU_PORT_CFG, 3, 1⟩
abbrev TBU_PORT_CFG_SYNCE_OUT : Fld := ⟨.TBU_PORT_CFG, 4, 1⟩
abbrev TBU_PORT_CFG_CABLE_DEFAULT : Fld := ⟨.TBU_PORT_CFG, 5, 1⟩
abbrev TBU_PORT_CORR_RX_CORR_RX : Fld := ⟨.TBU_PORT_CORR_RX, 0, 32⟩
abbrev TBU_PORT_CORR_TX_CORR_TX : Fld := ⟨.TBU_PORT_CORR_TX, 0, 32⟩
abbrev TBU_PORT_EXT_RX_EXT_RX : Fld := ⟨.TBU_PORT_EXT_RX, 0, 32⟩
abbrev TBU_PORT_EXT_TX_EXT_TX : Fld := ⟨.TBU_PORT_EXT_TX, 0, 32⟩
abbrev TBU_PORT_TS_LOST_TS_LOST : Fld := ⟨.TBU_PORT_TS_LOST, 0, 16⟩
abbrev TBU_PPS_IN_CTRL_EN : Fld := ⟨.TBU_PPS_IN_CTRL, 0, 1⟩
abbrev TBU_PPS_IN_CTRL_EDGE : Fld := ⟨.TBU_PPS_IN_CTRL, 1, 1⟩
abbrev TBU_PPS_IN_STAMP_A_FRAC_FRAC : Fld := ⟨.TBU_PPS_IN_STAMP_A_FRAC, 0, 32⟩
abbrev TBU_PPS_IN_STAMP_A_NS_NS : Fld := ⟨.TBU_PPS_IN_STAMP_A_NS, 0, 30⟩
abbrev TBU_PPS_IN_STAMP_A_SEC_SEC : Fld := ⟨.TBU_PPS_IN_STAMP_A_SEC, 0, 32⟩
abbrev TBU_PPS_IN_STAMP_B_FRAC_FRAC : Fld := ⟨.TBU_PPS_IN_STAMP_B_FRAC, 0, 32⟩
abbrev TBU_PPS_IN_STAMP_B_NS_NS : Fld := ⟨.TBU_PPS_IN_STAMP_B_NS, 0, 30⟩
abbrev TBU_PPS_IN_STAMP_B_SEC_SEC : Fld := ⟨.TBU_PPS_IN_STAMP_B_SEC, 0, 32⟩
abbrev TBU_PPS_IN_STATUS_LOST : Fld := ⟨.TBU_PPS_IN_STATUS, 0, 1⟩
abbrev TBU_PPS_IN_STATUS_STUCK_HI : Fld := ⟨.TBU_PPS_IN_STATUS, 1, 1⟩
abbrev TBU_PPS_IN_STATUS_STUCK_LO : Fld := ⟨.TBU_PPS_IN_STATUS, 2, 1⟩
abbrev TBU_PPS_IN_STATUS_NEW : Fld := ⟨.TBU_PPS_IN_STATUS, 3, 1⟩
abbrev TBU_PPS_IN_STATUS_OVERRUN : Fld := ⟨.TBU_PPS_IN_STATUS, 4, 1⟩
abbrev TBU_PPS_IN_STATUS_EXTRA_EDGES : Fld := ⟨.TBU_PPS_IN_STATUS, 16, 8⟩
abbrev TBU_PPS_OUT_CTRL_EN : Fld := ⟨.TBU_PPS_OUT_CTRL, 0, 1⟩
abbrev TBU_PPS_OUT_CTRL_SRC : Fld := ⟨.TBU_PPS_OUT_CTRL, 1, 2⟩
abbrev TBU_PPS_OUT_CTRL_SUB_100PS : Fld := ⟨.TBU_PPS_OUT_CTRL, 3, 4⟩
abbrev TBU_PPS_OUT_CTRL_WIDTH_US : Fld := ⟨.TBU_PPS_OUT_CTRL, 8, 19⟩
abbrev TBU_PPS_OUT_OFFSET_NS_OFFSET_NS : Fld := ⟨.TBU_PPS_OUT_OFFSET_NS, 0, 32⟩
abbrev TBU_REF_STATUS_REF_LOC : Fld := ⟨.TBU_REF_STATUS, 0, 1⟩
abbrev TBU_REF_STATUS_REF_LOC_SEEN : Fld := ⟨.TBU_REF_STATUS, 1, 1⟩
abbrev TBU_REF_STATUS_FREQ_ERR : Fld := ⟨.TBU_REF_STATUS, 2, 1⟩
abbrev TBU_REF_STATUS_FREQ_ERR_SEEN : Fld := ⟨.TBU_REF_STATUS, 3, 1⟩
abbrev TBU_REF_STATUS_FREQ_DEV : Fld := ⟨.TBU_REF_STATUS, 16, 16⟩
abbrev TBU_SLEW_RESID_NS_RESID_NS : Fld := ⟨.TBU_SLEW_RESID_NS, 0, 32⟩
abbrev TBU_SNAP_CAPTURE : Fld := ⟨.TBU_SNAP, 0, 1⟩
abbrev TBU_STATUS_PLL_LOCK : Fld := ⟨.TBU_STATUS, 0, 1⟩
abbrev TBU_STATUS_SLEWING : Fld := ⟨.TBU_STATUS, 1, 1⟩
abbrev TBU_STATUS_SWITCH_PENDING : Fld := ⟨.TBU_STATUS, 2, 1⟩
abbrev TBU_STATUS_SWITCH_REFUSED : Fld := ⟨.TBU_STATUS, 3, 1⟩
abbrev TBU_STATUS_SWITCH_BUSY : Fld := ⟨.TBU_STATUS, 4, 1⟩
abbrev TBU_STATUS_FORCED : Fld := ⟨.TBU_STATUS, 5, 1⟩
abbrev TBU_SWITCH_GO : Fld := ⟨.TBU_SWITCH, 0, 1⟩
abbrev TBU_SWITCH_TARGET : Fld := ⟨.TBU_SWITCH, 1, 1⟩
abbrev TBU_SWITCH_FORCE : Fld := ⟨.TBU_SWITCH, 2, 1⟩
abbrev TBU_SWITCH_REF_TL : Fld := ⟨.TBU_SWITCH, 8, 8⟩
abbrev TBU_D_INC_FRAC_INC_FRAC : Fld := ⟨.TBU_D_INC_FRAC, 0, 32⟩
abbrev TBU_D_INC_NS_INC_NS : Fld := ⟨.TBU_D_INC_NS, 0, 4⟩
abbrev TBU_D_SET_SEC_HI_SEC : Fld := ⟨.TBU_D_SET_SEC_HI, 0, 16⟩
abbrev TBU_D_SET_SEC_LO_SEC : Fld := ⟨.TBU_D_SET_SEC_LO, 0, 32⟩
abbrev TBU_D_SNAP_FRAC_FRAC : Fld := ⟨.TBU_D_SNAP_FRAC, 0, 32⟩
abbrev TBU_D_SNAP_NS_NS : Fld := ⟨.TBU_D_SNAP_NS, 0, 30⟩
abbrev TBU_D_SNAP_SEC_HI_SEC : Fld := ⟨.TBU_D_SNAP_SEC_HI, 0, 16⟩
abbrev TBU_D_SNAP_SEC_LO_SEC : Fld := ⟨.TBU_D_SNAP_SEC_LO, 0, 32⟩
abbrev TBU_D_SOURCE_SRC : Fld := ⟨.TBU_D_SOURCE, 0, 2⟩
abbrev TBU_D_SOURCE_PTP_DOMAIN : Fld := ⟨.TBU_D_SOURCE, 8, 8⟩
abbrev TBU_D_SOURCE_SYNCE_LANE : Fld := ⟨.TBU_D_SOURCE, 16, 5⟩
abbrev TBU_D_SOURCE_SYNCE_EN : Fld := ⟨.TBU_D_SOURCE, 21, 1⟩
abbrev TBU_D_STATUS_TIME_VALID : Fld := ⟨.TBU_D_STATUS, 0, 1⟩
abbrev TBU_D_STATUS_JUMP_REFUSED : Fld := ⟨.TBU_D_STATUS, 1, 1⟩
abbrev TBU_D_STATUS_INC_REFUSED : Fld := ⟨.TBU_D_STATUS, 2, 1⟩
abbrev TBU_D_STATUS_SET_REFUSED : Fld := ⟨.TBU_D_STATUS, 3, 1⟩
abbrev TBU_D_STATUS_STEP_PENDING : Fld := ⟨.TBU_D_STATUS, 4, 1⟩
abbrev TBU_D_STATUS_STEP_BUSY : Fld := ⟨.TBU_D_STATUS, 5, 1⟩
abbrev TBU_D_STEP_CTRL_GO : Fld := ⟨.TBU_D_STEP_CTRL, 0, 1⟩
abbrev TBU_D_STEP_CTRL_MODE : Fld := ⟨.TBU_D_STEP_CTRL, 1, 1⟩
abbrev TBU_D_STEP_FRAC_STEP_FRAC : Fld := ⟨.TBU_D_STEP_FRAC, 0, 32⟩
abbrev TBU_D_STEP_NS_STEP_NS : Fld := ⟨.TBU_D_STEP_NS, 0, 32⟩
abbrev THM_CTRL_WARN_EN : Fld := ⟨.THM_CTRL, 0, 1⟩
abbrev THM_CTRL_THROTTLE_EN : Fld := ⟨.THM_CTRL, 1, 1⟩
abbrev THM_FAILED_FAILED : Fld := ⟨.THM_FAILED, 0, 32⟩
abbrev THM_INJ_SENSOR : Fld := ⟨.THM_INJ, 0, 7⟩
abbrev THM_INJ_OFFSET : Fld := ⟨.THM_INJ, 8, 8⟩
abbrev THM_INJ_EN : Fld := ⟨.THM_INJ, 31, 1⟩
abbrev THM_LIMIT_WARN : Fld := ⟨.THM_LIMIT, 0, 8⟩
abbrev THM_LIMIT_THROTTLE : Fld := ⟨.THM_LIMIT, 8, 8⟩
abbrev THM_LIMIT_TRIP : Fld := ⟨.THM_LIMIT, 16, 8⟩
abbrev THM_LIMIT_HYST : Fld := ⟨.THM_LIMIT, 24, 4⟩
abbrev THM_MAX_TEMP : Fld := ⟨.THM_MAX, 0, 16⟩
abbrev THM_MAX_SENSOR : Fld := ⟨.THM_MAX, 16, 7⟩
abbrev THM_PEAK_PEAK : Fld := ⟨.THM_PEAK, 0, 16⟩
abbrev THM_PEAK_SENSOR : Fld := ⟨.THM_PEAK, 16, 7⟩
abbrev THM_SENSOR_TEMP : Fld := ⟨.THM_SENSOR, 0, 16⟩
abbrev THM_SENSOR_CLASS : Fld := ⟨.THM_SENSOR, 16, 2⟩
abbrev THM_SENSOR_FAILED : Fld := ⟨.THM_SENSOR, 18, 1⟩
abbrev THM_SENSOR_COUNT_COUNT : Fld := ⟨.THM_SENSOR_COUNT, 0, 16⟩
abbrev THM_SENSOR_SEL_SENSOR : Fld := ⟨.THM_SENSOR_SEL, 0, 7⟩
abbrev THM_STATUS_WARN : Fld := ⟨.THM_STATUS, 0, 1⟩
abbrev THM_STATUS_THROTTLE : Fld := ⟨.THM_STATUS, 1, 1⟩
abbrev THM_STATUS_WARN_SEEN : Fld := ⟨.THM_STATUS, 2, 1⟩
abbrev THM_STATUS_THROTTLE_SEEN : Fld := ⟨.THM_STATUS, 3, 1⟩
abbrev THM_STATUS_LIMIT_REFUSED : Fld := ⟨.THM_STATUS, 4, 1⟩
abbrev THM_TRIP_AGE_AGE : Fld := ⟨.THM_TRIP_AGE, 0, 32⟩
abbrev THM_TRIP_HIST_COUNT_24H : Fld := ⟨.THM_TRIP_HIST, 0, 2⟩
abbrev THM_TRIP_HIST_TRIP_CAUSE : Fld := ⟨.THM_TRIP_HIST, 2, 1⟩
abbrev THM_TRIP_HIST_LOCKOUT_SEEN : Fld := ⟨.THM_TRIP_HIST, 3, 1⟩
abbrev THM_TRIP_HIST_SENSOR : Fld := ⟨.THM_TRIP_HIST, 4, 7⟩
abbrev TND_CTRL_RULES_EN : Fld := ⟨.TND_CTRL, 0, 1⟩
abbrev TND_INPUT_SEL_INPUT : Fld := ⟨.TND_INPUT_SEL, 0, 8⟩
abbrev TND_INPUT_VALUE_VALUE : Fld := ⟨.TND_INPUT_VALUE, 0, 16⟩
abbrev TND_RULE_ACTION_KIND : Fld := ⟨.TND_RULE_ACTION, 0, 2⟩
abbrev TND_RULE_ACTION_DOMAIN : Fld := ⟨.TND_RULE_ACTION, 2, 8⟩
abbrev TND_RULE_ACTION_TARGET : Fld := ⟨.TND_RULE_ACTION, 10, 3⟩
abbrev TND_RULE_ACTION_ASSERTED : Fld := ⟨.TND_RULE_ACTION, 13, 1⟩
abbrev TND_RULE_ACTION_FIRED : Fld := ⟨.TND_RULE_ACTION, 14, 1⟩
abbrev TND_RULE_CFG_EN : Fld := ⟨.TND_RULE_CFG, 0, 1⟩
abbrev TND_RULE_CFG_POLARITY : Fld := ⟨.TND_RULE_CFG, 1, 1⟩
abbrev TND_RULE_CFG_FILTER : Fld := ⟨.TND_RULE_CFG, 2, 1⟩
abbrev TND_RULE_CFG_N : Fld := ⟨.TND_RULE_CFG, 3, 4⟩
abbrev TND_RULE_CFG_DECIM : Fld := ⟨.TND_RULE_CFG, 7, 8⟩
abbrev TND_RULE_CFG_INPUT : Fld := ⟨.TND_RULE_CFG, 16, 8⟩
abbrev TND_RULE_THRESH_HI : Fld := ⟨.TND_RULE_THRESH, 0, 16⟩
abbrev TND_RULE_THRESH_LO : Fld := ⟨.TND_RULE_THRESH, 16, 16⟩
abbrev TND_RULE_TIMING_PERIOD : Fld := ⟨.TND_RULE_TIMING, 0, 12⟩
abbrev TND_STATUS_ALERT : Fld := ⟨.TND_STATUS, 0, 1⟩
abbrev TND_STATUS_WAKE_FAIL : Fld := ⟨.TND_STATUS, 1, 1⟩
abbrev TND_STATUS_WAKE_RULE : Fld := ⟨.TND_STATUS, 8, 5⟩
abbrev TND_STATUS_WAKE_VALID : Fld := ⟨.TND_STATUS, 13, 1⟩
abbrev T_AUX_AUX : Fld := ⟨.T_AUX, 0, 32⟩
abbrev T_BUSY_BUSY : Fld := ⟨.T_BUSY, 0, 32⟩
abbrev T_CTRL_INJ_RESIDUE : Fld := ⟨.T_CTRL, 0, 1⟩
abbrev T_CTRL_INJ_PARITY : Fld := ⟨.T_CTRL, 1, 1⟩
abbrev T_CTRL_INJ_CRC : Fld := ⟨.T_CTRL, 2, 1⟩
abbrev T_CTRL_MAP_PHYS : Fld := ⟨.T_CTRL, 8, 8⟩
abbrev T_DESC_DESC : Fld := ⟨.T_DESC, 0, 32⟩
abbrev T_FAIL_FAIL : Fld := ⟨.T_FAIL, 0, 32⟩
abbrev T_FAULT_CAUSE : Fld := ⟨.T_FAULT, 0, 8⟩
abbrev T_FAULT_CODE : Fld := ⟨.T_FAULT, 8, 3⟩
abbrev T_FAULT_VALID : Fld := ⟨.T_FAULT, 11, 1⟩
abbrev T_FAULT_REASON : Fld := ⟨.T_FAULT, 16, 16⟩
abbrev T_ITEMS_ITEMS : Fld := ⟨.T_ITEMS, 0, 32⟩
abbrev T_JOBS_JOBS : Fld := ⟨.T_JOBS, 0, 32⟩
abbrev T_STATUS_BUSY : Fld := ⟨.T_STATUS, 0, 1⟩
abbrev T_STATUS_BENCH : Fld := ⟨.T_STATUS, 1, 1⟩
abbrev T_STATUS_OUT : Fld := ⟨.T_STATUS, 2, 1⟩
abbrev T_STATUS_SELFTEST : Fld := ⟨.T_STATUS, 3, 1⟩
abbrev T_STATUS_ROW : Fld := ⟨.T_STATUS, 4, 2⟩
abbrev T_STATUS_MAP_PENDING : Fld := ⟨.T_STATUS, 6, 1⟩
abbrev T_STATUS_OP : Fld := ⟨.T_STATUS, 8, 8⟩
abbrev T_STATUS_PHYS : Fld := ⟨.T_STATUS, 16, 8⟩
abbrev UMP_CTRL_EN : Fld := ⟨.UMP_CTRL, 0, 1⟩
abbrev UMP_FIRST_EXEC_EXEC_A : Fld := ⟨.UMP_FIRST_EXEC, 0, 9⟩
abbrev UMP_FIRST_EXEC_EXEC_B : Fld := ⟨.UMP_FIRST_EXEC, 16, 9⟩
abbrev UMP_FIRST_NODE_NODE_INST_ID : Fld := ⟨.UMP_FIRST_NODE, 0, 16⟩
abbrev UMP_FIRST_NODE_TEMPLATE_ID : Fld := ⟨.UMP_FIRST_NODE, 16, 12⟩
abbrev UMP_FIRST_NODE_VALID : Fld := ⟨.UMP_FIRST_NODE, 31, 1⟩
abbrev UMP_FIRST_TIE_CLASS : Fld := ⟨.UMP_FIRST_TIE, 0, 4⟩
abbrev UMP_FIRST_TIE_PHYS : Fld := ⟨.UMP_FIRST_TIE, 4, 8⟩
abbrev UMP_FIRST_TIE_OUTCOME : Fld := ⟨.UMP_FIRST_TIE, 12, 2⟩
abbrev UMP_INJECT_EXEC : Fld := ⟨.UMP_INJECT, 0, 9⟩
abbrev UMP_INJECT_ARM : Fld := ⟨.UMP_INJECT, 31, 1⟩
abbrev UMP_MATCH_MATCH : Fld := ⟨.UMP_MATCH, 0, 32⟩
abbrev UMP_MISMATCH_MISMATCH : Fld := ⟨.UMP_MISMATCH, 0, 32⟩
abbrev UMP_NOMATCH_NOMATCH : Fld := ⟨.UMP_NOMATCH, 0, 32⟩
abbrev UMP_ONE_FAULT_ONE_FAULT : Fld := ⟨.UMP_ONE_FAULT, 0, 32⟩
abbrev UMP_SINGLE_SINGLE : Fld := ⟨.UMP_SINGLE, 0, 32⟩
abbrev UMP_TIE_A_TIE_A : Fld := ⟨.UMP_TIE_A, 0, 32⟩
abbrev UMP_TIE_B_TIE_B : Fld := ⟨.UMP_TIE_B, 0, 32⟩
abbrev VSC_CTRL_DBG_HALT : Fld := ⟨.VSC_CTRL, 0, 1⟩
abbrev VSC_CTRL_ICACHE_INV : Fld := ⟨.VSC_CTRL, 1, 1⟩
abbrev VSC_CTRL_INJ_PARITY : Fld := ⟨.VSC_CTRL, 2, 1⟩
abbrev VSC_CTRL_INJ_RESIDUE : Fld := ⟨.VSC_CTRL, 3, 1⟩
abbrev VSC_FAULT_CAUSE : Fld := ⟨.VSC_FAULT, 0, 8⟩
abbrev VSC_FAULT_CODE : Fld := ⟨.VSC_FAULT, 8, 3⟩
abbrev VSC_FAULT_VALID : Fld := ⟨.VSC_FAULT, 11, 1⟩
abbrev VSC_FAULT_REASON : Fld := ⟨.VSC_FAULT, 16, 16⟩
abbrev VSC_FAULT_PC_PC : Fld := ⟨.VSC_FAULT_PC, 0, 20⟩
abbrev VSC_STALL_STALL : Fld := ⟨.VSC_STALL, 0, 32⟩
abbrev VSC_STATUS_BUSY : Fld := ⟨.VSC_STATUS, 0, 1⟩
abbrev VSC_STATUS_BENCH : Fld := ⟨.VSC_STATUS, 1, 1⟩
abbrev VSC_STATUS_OUT : Fld := ⟨.VSC_STATUS, 2, 1⟩
abbrev VSC_STATUS_HALTED : Fld := ⟨.VSC_STATUS, 3, 1⟩
abbrev VSC_STATUS_KERNEL_ID : Fld := ⟨.VSC_STATUS, 16, 16⟩
abbrev VSC_STICKY_CB_WRAPFIX : Fld := ⟨.VSC_STICKY, 0, 8⟩
abbrev VSC_STICKY_ACC_OVF : Fld := ⟨.VSC_STICKY, 8, 8⟩
abbrev VSC_STICKY_SAT : Fld := ⟨.VSC_STICKY, 16, 1⟩
abbrev WHS_ARM_CHANNEL : Fld := ⟨.WHS_ARM, 0, 10⟩
abbrev WHS_ARM_GO : Fld := ⟨.WHS_ARM, 31, 1⟩
abbrev WHS_CTRL_EN : Fld := ⟨.WHS_CTRL, 0, 1⟩
abbrev WHS_DISARM_CHANNEL : Fld := ⟨.WHS_DISARM, 0, 10⟩
abbrev WHS_DISARM_GO : Fld := ⟨.WHS_DISARM, 31, 1⟩
abbrev WHS_GRACE_GRACE_NS : Fld := ⟨.WHS_GRACE, 0, 19⟩
abbrev WHS_PIN_LATE_LATE : Fld := ⟨.WHS_PIN_LATE, 0, 32⟩
abbrev WHS_PIN_MISSED_MISSED : Fld := ⟨.WHS_PIN_MISSED, 0, 32⟩
abbrev WHS_PIN_MISSED_CNT_CNT0 : Fld := ⟨.WHS_PIN_MISSED_CNT, 0, 8⟩
abbrev WHS_PIN_MISSED_CNT_CNT1 : Fld := ⟨.WHS_PIN_MISSED_CNT, 8, 8⟩
abbrev WHS_PIN_MISSED_CNT_CNT2 : Fld := ⟨.WHS_PIN_MISSED_CNT, 16, 8⟩
abbrev WHS_PIN_MISSED_CNT_CNT3 : Fld := ⟨.WHS_PIN_MISSED_CNT, 24, 8⟩
abbrev WHS_PIN_SHORT_SHORT : Fld := ⟨.WHS_PIN_SHORT, 0, 32⟩
abbrev WHS_PIN_COORD_COORD : Fld := ⟨.WHS_PIN_COORD, 0, 32⟩
abbrev WHS_PIN_CTRL_EN : Fld := ⟨.WHS_PIN_CTRL, 0, 1⟩
abbrev WHS_PIN_CTRL_PERIODIC : Fld := ⟨.WHS_PIN_CTRL, 1, 1⟩
abbrev WHS_PIN_CTRL_POLARITY : Fld := ⟨.WHS_PIN_CTRL, 2, 1⟩
abbrev WHS_PIN_CTRL_PERIOD_UNIT : Fld := ⟨.WHS_PIN_CTRL, 3, 2⟩
abbrev WHS_PIN_CTRL_SUB_100PS : Fld := ⟨.WHS_PIN_CTRL, 5, 4⟩
abbrev WHS_PIN_CTRL_FILTER : Fld := ⟨.WHS_PIN_CTRL, 9, 3⟩
abbrev WHS_PIN_CTRL_TL : Fld := ⟨.WHS_PIN_CTRL, 16, 8⟩
abbrev WHS_PIN_DELTA_NS_DELTA_NS : Fld := ⟨.WHS_PIN_DELTA_NS, 0, 32⟩
abbrev WHS_PIN_TIMING_PERIOD_COUNT : Fld := ⟨.WHS_PIN_TIMING, 0, 16⟩
abbrev WHS_PIN_TIMING_WIDTH : Fld := ⟨.WHS_PIN_TIMING, 16, 16⟩
abbrev WHS_SPILL_SPILL : Fld := ⟨.WHS_SPILL, 0, 32⟩
abbrev WHS_STATUS_ARM_REFUSED : Fld := ⟨.WHS_STATUS, 0, 1⟩
abbrev WHS_STATUS_CAUSE : Fld := ⟨.WHS_STATUS, 1, 3⟩
abbrev WHS_STATUS_CAL_SUPPRESSED : Fld := ⟨.WHS_STATUS, 16, 16⟩
abbrev WHS_TABLE_BASE_BASE : Fld := ⟨.WHS_TABLE_BASE, 0, 26⟩
end F

end Sys2Proof.Machine
end

