-- ==== Sys2Proof/Machine/State.lean ====
section
/-!
DEFINITION. Sys2Proof/Machine/State.lean: the state of the device as plain data: every register of Table 20-6 in one sparse
file (a register that is not listed holds its reset value), the byte memory, and, beside them, the state that the chapters
describe and that no register shows.  INVENTORY.md, State, lists all of it with the rules.
-/
namespace Sys2Proof.Machine

/-! ### Memories (09_memory_and_ecc.md) -/

/-- What a memory word holds besides good data (R261): an error that no access has found yet, with the bit or symbol position its
check bits give, or the poison marking. -/
inductive WordChk where
  | ce (pos : Nat)
  | ue (pos : Nat)
  | poison
  deriving DecidableEq, Repr

/-- An access that waits for the init engine of a stack (R274, R275) or for its wake (R445). -/
inductive MemAccess where
  | read (addr : Nat)
  | write (addr : Nat) (bytes : List Byte)
  deriving DecidableEq, Repr

/-- An entry of the field repair map (Table 9-5). -/
structure Repair where
  kind : Nat
  applied : Bool
  unrepairable : Bool
  macroId : Nat
  index : Nat
  sec : Nat
  deriving DecidableEq, Repr

/-- A correctable error in a column of an SRAM macro (R278), with its row and time. -/
structure ColEvent where
  macroId : Nat
  column : Nat
  row : Nat
  sec : Nat
  deriving DecidableEq, Repr

/-- A correctable error in a symbol of an HBM channel (R279), with its line and time. -/
structure SymEvent where
  stack : Nat
  channel : Nat
  pos : Nat
  line : Nat
  sec : Nat
  deriving DecidableEq, Repr

/-- The memories beside their data and registers. -/
structure MemSt where
  chk : Tab Nat WordChk
  /-- The events of each row-table entry in use: time in seconds and weight (R277). -/
  rowEvents : Tab Nat (List (Nat × Nat))
  colEvents : List ColEvent
  symEvents : List SymEvent
  /-- The field repair map (R283). -/
  repairs : List Repair
  /-- Spare rows and columns left per macro (R280). -/
  spares : Tab Nat (Nat × Nat)
  /-- Priority granules of a stack that wait behind the present one (R274). -/
  prio : Tab Nat (List Nat)
  /-- The granule that a priority granule paused, with its pointer (R274). -/
  paused : Tab Nat (Nat × Nat)
  waiting : List MemAccess
  /-- The fuse map, voted (R262, R520). -/
  fuses : Tab Nat Nat
  /-- Steol's own store of error records: severity and words (R501). -/
  errStore : List (Nat × List Nat)
  /-- The next place of the persistent fault log's ring (Table 18-8). -/
  logNext : Nat
  deriving DecidableEq, Repr

/-- The memories right after reset: no error, nothing queued, every spare unused. -/
def MemSt.reset : MemSt where
  chk := []
  rowEvents := []
  colEvents := []
  symEvents := []
  repairs := []
  spares := []
  prio := []
  paused := []
  waiting := []
  fuses := []
  errStore := []
  logNext := 0

/-! ### The time base (02_time_base.md) -/

/-- A counter or stamp of network time: Table 2-1 (R34). -/
structure Tai where
  sec : Nat
  ns : Nat
  frac : Nat
  deriving DecidableEq, Repr

/-- A step or set accepted by STEP_CTRL and not yet applied (R44, R47): what it adds or loads, in units of 2^-32 ns, the set's
STEP_NS being above 999,999,999, and the ticks until the one that applies it. -/
structure StepReq where
  isSet : Bool
  amount : Int
  bad : Bool
  left : Nat
  deriving DecidableEq, Repr

/-- One time domain: counter (R34), increment in force in units of 2^-32 ns (R41), the pair a commit took (R42), a step or set
not yet applied (R44), a set applied ahead of the tick that completes it (R47), and the ticks since the last commit (R73). -/
structure TbuDom where
  counter : Tai
  incr : Nat
  incPend : Option Nat
  step : Option StepReq
  setThisTick : Bool
  hold : Nat
  deriving DecidableEq, Repr

/-- A switch request that waits for its switch point (R52). -/
structure SwitchReq where
  target : Dom
  force : Bool
  refTl : Nat
  deriving DecidableEq, Repr

/-- The direction of a frame, stamp or link. -/
inductive Dir where
  | rx | tx
  deriving DecidableEq, Repr

/-- An entry of a stamp FIFO (R67): message type, sequence identifier, corrected stamp. -/
structure Stamp where
  mtype : Nat
  seq : Nat
  stamp : Tai
  deriving DecidableEq, Repr

/-- The time base unit beside its registers. -/
structure Tbu where
  a : TbuDom
  b : TbuDom
  /-- The residual R of R52, in units of 2^-32 ns. -/
  resid : Int
  switch : Option SwitchReq
  /-- A snapshot was requested and its tick has not come (R75). -/
  snap : Bool
  /-- The counters have started since the cold start or brown-out (R38). -/
  started : Bool
  /-- The timing PLL holds its last control value (R40). -/
  holding : Bool
  /-- Ticks of the timing clock since the counters started; spaces PPS edges (R68). -/
  ticks : Nat
  /-- Per PPS input, the instant of its last accepted edge in units of 12.5 ps of the timing clock (R68). -/
  ppsLast : List (Nat × Nat)
  /-- The stamp FIFOs by port and direction (R67). -/
  stamps : List ((Nat × Dir) × List Stamp)
  /-- The active time of the last capture (R75), which AFT_SNAP shows (R103). -/
  snapActive : Option Tai
  deriving DecidableEq, Repr

/-! ### Air time and whistles (03_air_time_and_whistles.md) -/

/-- The fields of a timeline table entry (Table 3-2). -/
structure TlEntry where
  std : Nat
  mu : Nat
  ecp : Bool
  nb3k75 : Bool
  tddEn : Bool
  tag : Nat
  /-- Signed, in units of 62.5 ps. -/
  offset : Int
  tddPtr : Nat
  patLen : Nat
  streamBase : Nat
  streamCount : Nat
  corrPtr : Nat
  deriving DecidableEq, Repr

/-- What the AFT read at the boundary of a slot (R83, R84): the slot (counted from frame 0), its TDD word and the delays of
the streams in units of 62.5 ps. -/
structure SlotLatch where
  slot : Int
  word : Nat
  delays : List Int
  deriving DecidableEq, Repr

/-- An enabled timeline: the copied entry (R80), a pending TDD update (R83: the first slot it applies to, TDD_PTR, PATTERN_LEN),
CUR_BANK (R100) and the latched slot (R84). -/
structure Timeline where
  ent : TlEntry
  pend : Option (Int × Nat × Nat)
  curBank : Nat
  slot : Option SlotLatch
  deriving DecidableEq, Repr

/-- The schedule of a whistle: timeline, coordinate symbol counted from frame 0, DELTA_NS and sub-ns part in units of 100 ps,
and the period in symbols (0 for a one-shot), with the FILTER of R87. -/
structure Sched where
  tl : Nat
  next : Int
  delta : Int
  sub100 : Nat
  period : Nat
  filter : Nat
  deriving DecidableEq, Repr

/-- An internal whistle channel (R88): armed, the words W0 to W5 read at arm, its schedule, the instant of the last occurrence
fired or missed, and an occurrence whose firing is decided but not yet delivered (R90, R92, R93): its coordinate symbol and the tick
of the decision, with whether its spill was counted. -/
structure WhsCh where
  armed : Bool
  action : Nat
  arg0 : Nat
  arg1 : Nat
  sched : Sched
  last : Option Int
  due : Option (Int × Nat)
  spilled : Bool
  deriving DecidableEq, Repr

/-- The level a WHS_OUT pin drives (R95, R96). -/
inductive PinDrive where
  | idle | active | hiz
  deriving DecidableEq, Repr

/-- A pin whistle (R95): its schedule and width as armed, the last occurrence handled, and what the pin drives. -/
structure WhsPinSt where
  armed : Bool
  sched : Sched
  width : Nat
  last : Option Int
  due : Option Int
  drive : PinDrive
  deriving DecidableEq, Repr

/-- The AFT and the WHS beside their registers. -/
structure Aft where
  tls : Tab Nat Timeline
  channels : Tab Nat WhsCh
  pins : Tab Nat WhsPinSt
  /-- Firings of internal whistles delivered in the present tick (R90). -/
  delivered : Nat
  deriving DecidableEq, Repr

/-! ### Rings and events (14_host_interface_and_brildo.md) -/

/-- An item of a ring between its presentation and its consumption or its free (R431, R433): its index, whether it is done with, the
buffer (pool, address) that goes with it (an input item's staged copy, or an output item's buffer that HEAD frees), and for an input
item whether GDX has taken it, the address of its payload, and its words (Table 14-12). -/
structure RingItem where
  index : Nat
  done : Bool
  buf : Option (Nat × Nat)
  taken : Bool
  addr : Nat
  words : List Nat
  deriving DecidableEq, Repr

/-- A host transport ring: the parameters of R428 and what it has under way.  TAIL, HEAD, flags, vector and coalescing are the
registers of Table 14-17. -/
structure Ring where
  func : Nat
  out : Bool
  kind : RingKind
  /-- The ring lies in host memory. -/
  inHost : Bool
  base : Nat
  entries : Nat
  wbAddr : Nat
  tl : Nat
  stagePool : Nat
  dataBase : Nat
  dataSize : Nat
  errRing : Option Nat
  level0 : Bool
  /-- Items not yet signalled (R434). -/
  unsignalled : Nat
  /-- Output sequence of the next item (Table 14-12). -/
  outSeq : Nat
  items : List RingItem
  /-- Input items fetched so far: the index of the next to fetch (R431). -/
  fetched : Nat
  deriving DecidableEq, Repr

/-- The causes of a CARRIER_SHED event (R496). -/
inductive ShedCause where
  | unit | domain | lane | thermal
  deriving DecidableEq, Repr

/-- What a TIME event says (Table 14-11). -/
inductive TimeEvent where
  | jumpRefused | switchRefused | holdoverStart | holdoverEnd | brownoutLost | servo (code : Nat)
  deriving DecidableEq, Repr

/-- The events of Table 14-11 with their content. -/
inductive Event where
  | completion (mbx seq status cause index offset : Nat)
  | carrierShed (handles : List Nat) (restored : Bool) (cause : ShedCause)
  | time (d : Dom) (what : TimeEvent)
  | tlMismatch (tag : Nat) (isSet : Bool)
  | link (coupler : Bool) (port state : Nat)
  | xoffStuck (pin : Nat) (isSet : Bool)
  | queueGap (queue first drops : Nat)
  | failover (pair : Nat)
  | thermal (throttle : Bool) (sensor temp : Nat)
  | errorRecord (words : List Nat)
  | firmware (what : Nat)
  deriving DecidableEq, Repr

/-! ### Mailboxes (R411 to R420) -/

/-- A request that Steol has taken (Table 14-3): opcode, SEQUENCE, the IRQ bit, the version it carries, and whether a reset of its
function has dropped it (R436). -/
structure Req where
  op : Nat
  seq : Nat
  irq : Bool
  major : Nat
  minor : Nat
  gone : Bool
  deriving DecidableEq, Repr

/-- What a reply carries beside its header (Table 14-4): the items whose layout the spec gives, and the values of a command whose detail
items it does not lay out. -/
inductive ReplyItem where
  | features (bits : Nat)
  | versions (l : List (Nat × Nat))
  | handle (h : Nat)
  | detail (values : List Nat)
  deriving DecidableEq, Repr

/-- A reply (R415, R417): SEQUENCE, opcode, version, STATUS with its ERROR_DETAIL, items, and the bytes of the reply area. -/
structure Reply where
  seq : Nat
  op : Nat
  major : Nat
  minor : Nat
  status : Nat
  cause : Nat
  index : Nat
  offset : Nat
  items : List ReplyItem
  bytes : List Byte
  deriving DecidableEq, Repr

/-- A mailbox beside its registers: the request being executed, the last stored reply (R413), and the session's version (R418). -/
structure Mbx where
  cur : Option Req
  last : Option Reply
  version : Option (Nat × Nat)
  deriving DecidableEq, Repr

/-- What an asynchronous command (Table 14-7, A) does when it finishes. -/
inductive JobKind where
  /-- Install the graph image of a length at an address. -/
  | graph (addr len : Nat)
  /-- Install the kernel image of a length at an address. -/
  | kernel (addr len : Nat)
  | laneTest (coupler : Bool) (port lane loop pattern : Nat)
  | writeRecord (kind : Nat) (body : List Nat)
  /-- Remove a kind-3 entry of the repair map, or change another entry (R485). -/
  | repairRemove (unit : Nat)
  | fwStage (version secver revoke : Nat)
  | fwSwap
  | fwCommit
  | fwAbort
  deriving DecidableEq, Repr

/-- An asynchronous command under way: mailbox, SEQUENCE, function and what it does (R414). -/
structure Job where
  mbx : Nat
  seq : Nat
  func : Nat
  kind : JobKind
  deriving DecidableEq, Repr

/-- The stage of a firmware update (Table 14-15). -/
inductive FwPhase where
  | idle | staged | trial | noStandby
  deriving DecidableEq, Repr

/-- Firmware beside MBX_DEV_STATUS: stage, the version of each Steward pair, the staged image's security version and REVOKE mask, and a
change of pairs that waits for its slot boundary on a reference timeline (R438). -/
structure Fw where
  phase : FwPhase
  vers : Tab Nat Nat
  secver : Nat
  /-- The public keys that the staged image revokes (R519). -/
  revoke : Nat
  swap : Option (Option Nat)
  deriving DecidableEq, Repr

/-- A trial ends: nothing is staged. -/
def Fw.revert (x : Fw) : Fw := { x with phase := .idle, swap := none, secver := 0, revoke := 0 }

/-- The host interface beside its registers. -/
structure HostIf where
  rings : Tab Nat Ring
  /-- Per function, the ring and mask that EVENT_RING named (R426). -/
  evRings : Tab Nat (Nat × Nat)
  /-- Per function, the events dropped since the last that fitted (R426). -/
  evLost : Tab Nat Nat
  /-- Functions with an open session reach the host window (R408): HOST_BASE by function. -/
  hostBase : Tab Nat Nat
  /-- The ring and severities that ERR_STREAM named (R501). -/
  errStream : Option (Nat × Nat)
  /-- The ring that TELEMETRY named (R155). -/
  telemRing : Option Nat
  /-- What PARTITION has given each virtual function (R404). -/
  parts : Tab Nat Partition
  /-- PCIe doorbells written (Table 15-7, input 0xA0). -/
  doorbells : Nat
  mbx : Tab Nat Mbx
  /-- The mailbox that Steol took last (R414). -/
  turn : Nat
  jobs : List Job
  /-- Functions that were reset and have not sent CLAIM (R436). -/
  unclaimed : List Nat
  fw : Fw
  /-- The windows of BAR2 of the virtual functions: HBM address by function and window (R407). -/
  windows : Tab (Nat × Nat) Nat
  /-- The PCIe link is up and configuration space is ready (R403). -/
  link : Bool
  /-- The UTC offset that TIME_OF_DAY gave, and the TAI seconds with it (R57). -/
  tod : Option (Nat × Int)
  /-- PTP ports as PTP_PORT configures them beside TBU_PORT_CFG: profile and role (Table 14-7). -/
  ptp : Tab Nat (Nat × Nat)
  deriving DecidableEq, Repr

/-- The host interface right after reset: nothing created, nothing open. -/
def HostIf.reset : HostIf where
  rings := []
  evRings := []
  evLost := []
  hostBase := []
  errStream := none
  telemRing := none
  parts := []
  doorbells := 0
  mbx := []
  turn := 255
  jobs := []
  unclaimed := []
  fw := ⟨.idle, [], 0, 0, none⟩
  windows := []
  link := false
  tod := none
  ptp := []

/-! ### Stream queues (11_stream_queues.md) -/

/-- The fields of a queue table entry (Table 11-1), as SQ copies them at enable (R314). -/
structure QueueEntry where
  credit : Bool
  producer : Nat
  consumer : Nat
  port : Nat
  /-- Item size in bytes. -/
  itemSize : Nat
  tl : Nat
  depth : Nat
  creditBatch : Nat
  hi : Nat
  lo : Nat
  itemBase : Nat
  dataBase : Nat
  /-- Data slot size in bytes. -/
  dataSize : Nat
  xoffPin : Nat
  xoffEn : Bool
  pfcEn : Bool
  pfcPrio : Nat
  pfcPort : Nat
  deriving DecidableEq, Repr

/-- An item of a queue (Table 11-2) with its place in the ring and what the consumer has done with it (R318, R319). -/
structure QItem where
  place : Nat
  gap : Bool
  erased : Bool
  symbol : Nat
  stream : Nat
  slot : Nat
  seq : Nat
  addr : Nat
  pool : Nat
  length : Nat
  erasedCount : Nat
  flowTag : Nat
  user : Nat
  /-- Producer fields of the item beyond byte 31 (network fields of Table 12-9, or the bitmap of erased PRBs). -/
  extra : List Byte
  held : Bool
  freed : Bool
  deriving DecidableEq, Repr

/-- A queue beside its registers: the copied entry, the entries written and not passed by the read index, oldest first, the
write place, the gap under way (R324), and the credits not yet reported (R326). -/
structure Queue where
  ent : QueueEntry
  items : List QItem
  wr : Nat
  firstSeq : Nat
  dropCount : Nat
  unreported : Nat
  deriving DecidableEq, Repr

/-- The stream queues and flow-control pins beside their registers. -/
structure Sq where
  queues : Tab Nat Queue
  /-- The ports and priorities whose OR of XOFF_STATE is set (R330). -/
  pfcOr : List (Nat × Nat)
  deriving DecidableEq, Repr

/-! ### Cores, coprocessors, engines and block movers (05 to 07, 10) -/

/-- An installed kernel version (Table 5-14): its code lies in HBM. -/
structure Kernel where
  id : Nat
  version : Nat
  revision : Nat
  usesMxc : Bool
  ovfTrap : Bool
  preload : Bool
  code : Nat
  length : Nat
  entry : Nat
  deriving DecidableEq, Repr

/-- How a run ended and has not yet reported (R182, R186, R311). -/
structure RunEnd where
  code : Nat
  cause : Nat
  reason : Nat
  deriving DecidableEq, Repr

/-- A VSC instance with a run: the register files of Table 5-6 (unlisted registers hold zero, R170), the return stack, and what the
run record of R181 gives. -/
structure VscCore where
  exec : Nat
  node : Nat
  kernel : Kernel
  pc : Nat
  sr : Tab Nat Nat
  pr : Tab Nat Nat
  /-- Vector lanes by physical register and lane. -/
  vr : Tab (Nat × Nat) Nat
  /-- Accumulator components as 48-bit codes. -/
  ar : Tab (Nat × Nat) Nat
  qr : Tab Nat Nat
  cb : Tab Nat Nat
  cl : Tab Nat Nat
  /-- COUNT and EC of LC0 to LC2. -/
  lc : Tab Nat (Nat × Nat)
  pbind : Nat
  kmode : Nat
  flags : Nat
  rrb : Nat
  stack : List Nat
  /-- Injection the run takes: 0 none, 1 parity, 2 residue (R574). -/
  inj : Nat
  /-- The save area of the run's MXLOCKs (R203). -/
  save : Option Nat
  ending : Option RunEnd
  deriving DecidableEq, Repr

/-- An operation in the queue of an MXC (R200) with the operands read at issue. -/
structure MxOp where
  opc : Nat
  d : Nat
  a : Nat
  b : Nat
  x : Nat
  addr : Nat
  stride : Nat
  sval : Nat
  vdata : List Nat
  deriving DecidableEq, Repr

/-- The architected state of an MXC (R193): elements by tile and place as raw real and imaginary codes, FP32 tiles, descriptors, and
the flags. -/
structure MxState where
  elems : Tab (Nat × Nat) (Nat × Nat)
  fp : List Nat
  md : Tab Nat Nat
  sat : Bool
  ovf : Bool
  numeric : Bool
  deriving DecidableEq, Repr

/-- A run that owns or asks for the lock (R201): position, node instance, VSC instance and save area. -/
structure MxOwner where
  pos : Nat
  node : Nat
  inst : Nat
  save : Nat
  deriving DecidableEq, Repr

/-- An MXC beside its registers: state, owner, last owner with whether its state is live (R204), requests in order, queued
operations, runs displaced in their run (R204), whether the present owner has executed an operation since its grant, and a
removal under way (R215). -/
structure Mxc where
  st : MxState
  lock : Option MxOwner
  last : Option MxOwner
  live : Bool
  waiters : List MxOwner
  queue : List MxOp
  displaced : List (Nat × Nat)
  switched : Bool
  removing : Bool
  deriving DecidableEq, Repr

/-- A job on an engine instance: executor, node instance, the injection it takes (0 none, 1 residue, 2 parity, 3 CRC; R574), and
how it ended, when it waits for its report. -/
structure EngJob where
  exec : Nat
  node : Nat
  inj : Nat
  deriving DecidableEq, Repr

/-- A burst of a transfer: offset of its first byte, length, and how often it has been retried (R303). -/
structure Burst where
  off : Nat
  len : Nat
  tries : Nat
  deriving DecidableEq, Repr

/-- A block-mover channel beside its registers: credit in half bytes (R299), bursts under way, bursts that failed (R303), and a
compare that found a difference (R295). -/
structure BmvCh where
  credit : Nat
  outst : List Burst
  failed : List Burst
  diff : Bool
  deriving DecidableEq, Repr

/-- The executors' units beside their registers. -/
structure Exu where
  vsc : Tab Nat VscCore
  /-- Instruction-cache lines of each VSC instance by address (R161), and the line it waits for. -/
  icache : Tab Nat (List Nat)
  mxc : Tab Nat Mxc
  jobs : Tab Nat EngJob
  /-- MAP_PHYS writes that wait (R217): instance and physical engine. -/
  mapPhys : Tab Nat Nat
  bmv : Tab (Nat × Nat) BmvCh
  /-- BMV_ENG_MAP writes that wait (R288). -/
  bmvMap : Tab Nat Nat
  /-- Installed kernels, current for new instances (R191), and versions handed out. -/
  kernels : Tab Nat Kernel
  nextKernel : Nat
  deriving DecidableEq, Repr

/-! ### Power (15_power_states.md) -/

/-- A hibernation under way (R452): the mailbox and sequence of its command, the armed rules, and what an abandonment restores: the
states of the domains, and the network ports whose EN it cleared. -/
structure Hib where
  mbx : Nat
  seq : Nat
  wakeMask : Nat
  doms : List (Nat × Nat)
  ports : List Nat
  deriving DecidableEq, Repr

/-- A Tender rule beside its registers (R459): the samples kept, newest first, samples to skip before the next that the IIR takes,
its value as a numerator over a power of two, and for a counting input (Table 15-7) the count at the last sample. -/
structure TndRule where
  samples : List Int
  skip : Nat
  y : Option (Int × Nat)
  seen : Nat
  deriving DecidableEq, Repr

/-- Power control beside its registers. -/
structure Pwr where
  /-- The tick at which a domain entered its present state (R448 cause 3). -/
  since : Tab Nat Nat
  /-- The tick at which the last run or dispatch record of a domain ended (R443). -/
  idle : Tab Nat Nat
  /-- The state an auto-dozed domain came from (R443). -/
  dozedFrom : Tab Nat Nat
  /-- The transition under way was made by auto-doze (R443). -/
  autoEntry : List Nat
  /-- A domain reset under way (R509). -/
  rstDom : Option Nat
  /-- Signatures of the retained banks by cluster and bank (R457). -/
  sigs : Tab (Nat × Nat) Nat
  /-- Source region and relying templates of each bank that POWER_POLICY named (R456). -/
  sources : Tab (Nat × Nat) (Nat × List Nat)
  hib : Option Hib
  /-- Failed wakes from HIBERNATE since its start (R453). -/
  wakeFails : Nat
  rules : Tab Nat TndRule
  /-- Last samples of the Tender inputs (R458). -/
  inputs : Tab Nat Int
  /-- Rule events held for Steol while it does not run (R460). -/
  held : List Nat
  deriving DecidableEq, Repr

/-! ### Graph dispatcher (04_graph_dispatcher.md) -/

/-- The item an external token (pool 63) stands for (R109). -/
inductive ExtRef where
  | none
  | queue (q place : Nat)
  | ring (r index : Nat)
  deriving DecidableEq, Repr

/-- A token (Table 4-3). -/
structure Token where
  addr : Nat
  pool : Nat
  empty : Bool
  length : Nat
  flowTag : Nat
  user : Nat
  ext : ExtRef
  deriving DecidableEq, Repr

/-- A node record (Table 4-1), with the mark of R114, its ports as encoded in Table 4-2 and, for an engine node, the words of the
job descriptor template that WORK points to (R221). -/
structure NodeRec where
  cls : Nat
  level : Nat
  paired : Bool
  replayable : Bool
  cancelProp : Bool
  nIn : Nat
  nOut : Nat
  flowBase : Nat
  flowMode : Nat
  cost : Nat
  work : Nat
  ins : List Nat
  outs : List Nat
  mxc : Bool
  desc : List Nat
  deriving DecidableEq, Repr

/-- A template version (R105, R113). -/
structure Template where
  id : Nat
  version : Nat
  remoteCreate : Bool
  revision : Nat
  poolG0 : Nat
  poolG1 : Nat
  poolG2 : Nat
  nodes : List NodeRec
  /-- Binding entries, W0 and W1 (Table 4-2). -/
  binds : List (Nat × Nat)
  deriving DecidableEq, Repr

/-- What the directory holds for a template number: the version current for new instances, if any, and whether it is blocked. -/
structure TplSlot where
  cur : Option Template
  blocked : Bool
  deriving DecidableEq, Repr

/-- A live slot instance (R115) with what its telemetry record counts (Table 4-15). -/
structure SlotInst where
  tpl : Template
  tl : Nat
  /-- The slot, counted from frame 0 of the timeline. -/
  slot : Int
  slotWord : Nat
  bank : Nat
  /-- Kernel versions bound at creation (R191). -/
  kernels : List Kernel
  createNs : Nat
  createSecNs : Nat
  cancelled : Bool
  cancelDue : Bool
  lateCancel : Bool
  orphan : Bool
  firstDispatch : Option Nat
  lastRelease : Option Nat
  released : Nat
  cancelledN : Nat
  failed : Nat
  refused : Nat
  replayed : Nat
  disputes : Nat
  l0Max : Nat
  deriving DecidableEq, Repr

/-- How a node instance ended (R141). -/
inductive NodeEnd where
  | released | cancelled | failed | refused
  deriving DecidableEq, Repr

/-- Where a node instance is on its way. -/
inductive NodeState where
  /-- Waiting for input tokens (R117). -/
  | waiting
  /-- On the wait list of its credit pool (R125). -/
  | admission
  /-- Ready for dispatch, or for a replay or tie-break run (R128). -/
  | ready
  | running
  /-- Completed and waiting for its turn in its flow (R133): in a release-buffer entry, or holding executor e (R135). -/
  | completed (stalled : Option Nat)
  /-- Completed and at its turn in its flow, or with no flow (R133). -/
  | turn
  /-- At its turn, held by a full ring sink (R136). -/
  | sinkHold (ring : Nat)
  /-- Read poison of producer node instance p, and runs again after p's replay (R144). -/
  | poisonWait (p : Nat)
  | ended (how : NodeEnd)
  deriving DecidableEq, Repr

/-- Which run of a node instance an executor does (Table 4-8). -/
inductive RunKind where
  | first | replay | second | tieBreak
  deriving DecidableEq, Repr

/-- What an executor reported for a run: code, input port of code 0x7, and signature. -/
structure RunResult where
  code : Nat
  port : Nat
  sig : Nat
  deriving DecidableEq, Repr

/-- A run of a node instance: kind, executor, its output buffers, and its result once reported. -/
structure Run where
  kind : RunKind
  exec : Nat
  outs : List Token
  result : Option RunResult
  deriving DecidableEq, Repr

/-- A node instance. -/
structure NodeInst where
  inst : Nat
  node : Nat
  st : NodeState
  tokens : List (Option Token)
  flow : Option Nat
  /-- The runs of the present attempt. -/
  runs : List Run
  /-- The outputs that release delivers. -/
  outs : List Token
  replays : Nat
  excluded : List Nat
  /-- A tie-break run is due or under way (R147). -/
  tie : Bool
  /-- A replay for poison of an already released producer (R144), which rewrites its original buffers. -/
  poisonReplay : Bool
  /-- The cycle and the tick in which it became ready (R128, R153). -/
  readyCycle : Nat
  readyTick : Nat
  /-- Run under way is to be discarded (R138). -/
  discard : Bool
  deriving DecidableEq, Repr

/-- A token on its way to a node instance: arrives in step 5 of a later cycle (R122). -/
structure InFlight where
  node : Nat
  port : Nat
  token : Token
  /-- The slot instance has retired on the way (R23). -/
  stale : Bool
  deriving DecidableEq, Repr

/-- An entry of a credit pool's wait list (R126). -/
structure WaitEntry where
  level : Nat
  cycle : Nat
  node : Nat
  debit : Nat
  deriving DecidableEq, Repr

/-- A credit pool (R123). -/
structure CreditPool where
  bal : Nat
  wait : List WaitEntry
  deriving DecidableEq, Repr

/-- What an executor reports at the end of a run (R132), with LENGTH, FLOW_TAG and USER of each output port. -/
structure Completion where
  code : Nat
  cause : Nat
  port : Nat
  words : List (Nat × Nat × Nat)
  deriving DecidableEq, Repr

/-- An executor: the node instance it runs, its report when the run has ended, removed from dispatch (R143), and the ticks it has
been busy in the present window (R153). -/
structure Exec where
  node : Option Nat
  done : Option Completion
  out : Bool
  busyTicks : Nat
  deriving DecidableEq, Repr

/-- A remote token or retire token (R121, R142, R397): destination binding fields, slot and tag, and what it carries. -/
structure RemoteToken where
  car : Nat
  template : Nat
  node : Nat
  port : Nat
  tag : Nat
  slotWord : Nat
  hops : Nat
  retire : Bool
  token : Token
  payload : List Byte
  deriving DecidableEq, Repr

/-- A remote token in the holding area (R119): template, timeline, slot, node, port, token, and whether it is a retire token. -/
structure HeldToken where
  template : Nat
  tl : Nat
  slotWord : Nat
  node : Nat
  port : Nat
  retire : Bool
  token : Token
  deriving DecidableEq, Repr

/-- A node instance that a cancel ended, kept for the cycle of the cancel (R139): its id, identity and node number, its missing input
ports with what their bindings name (kind, id, symbol), the pool it waited on with its entry, and whether it was counted. -/
structure CancelledNode where
  id : Nat
  template : Nat
  tl : Nat
  slotWord : Nat
  node : Nat
  missing : List (Nat × Nat × Nat × Nat)
  wait : Option (Nat × WaitEntry)
  counted : Bool
  deriving DecidableEq, Repr

/-- The graph dispatcher beside its registers. -/
structure Gdx where
  templates : Tab Nat TplSlot
  nextVersion : Nat
  insts : Tab Nat SlotInst
  nodes : Tab Nat NodeInst
  flows : Tab Nat (List Nat)
  relbuf : Nat
  pools : Tab Nat CreditPool
  inflight : List InFlight
  execs : Tab Nat Exec
  /-- References to buffers in use, by pool and address (R24). -/
  bufRefs : Tab (Nat × Nat) Nat
  /-- Buffers taken from each pool, by index. -/
  bufUsed : List (Nat × Nat)
  held : List HeldToken
  /-- Newest slot created per template and timeline (R118). -/
  newest : Tab (Nat × Nat) Int
  /-- The slots created per template and timeline since it was enabled (Table 14-19). -/
  made : List (Nat × Nat × Int)
  /-- Dispatcher cycles used so far (log entry 8). -/
  cycle : Nat
  /-- The tick of the last whistle delivery, which shares one cycle (R21). -/
  whistleTick : Option Nat
  /-- Node instances ended by the cancels of the present cycle, and that cycle (R139). -/
  lastCancel : Nat × List CancelledNode
  /-- Registers as captured by GDX_SNAP.HOLD (R154). -/
  snap : Option (Tab RegKey Word)
  /-- Consist tags with TL_MISMATCH (R98, R121). -/
  mismatch : List Nat
  /-- Executors reported to Steol for quarantine (R143). -/
  quarantine : List Nat
  /-- Tokens released to remote outputs and not yet sent, with the node instance that released them while it lives (R397, R398). -/
  remoteOut : List (Option Nat × RemoteToken)
  deriving DecidableEq, Repr

/-- The dispatcher right after reset: nothing installed, nothing live, every pool empty. -/
def Gdx.reset : Gdx where
  templates := []
  nextVersion := 0
  insts := []
  nodes := []
  flows := []
  relbuf := 0
  pools := []
  inflight := []
  execs := []
  bufRefs := []
  bufUsed := []
  held := []
  newest := []
  made := []
  cycle := 0
  whistleTick := none
  lastCancel := (0, [])
  snap := none
  mismatch := []
  quarantine := []
  remoteOut := []

/-- The cluster pages beside their registers (20_register_reference.md): written maps that wait for idle cores (R565), and lends in
force by cluster (R566). -/
structure Scl where
  mapPending : Tab Nat Nat
  lends : Tab Nat Nat
  deriving DecidableEq, Repr


/-! ### Benches (17_dependability.md) -/

/-- A unit's self-test in its present bench visit (R488, R489, R147). -/
inductive SelfTest where
  | running | passed | failed | abandoned
  deriving DecidableEq, Repr

/-- A self-test that Brildo asked for (R491): unit, mailbox, SEQUENCE and function for the COMPLETION, and whether it waits for the next
bench visit after an abandoned test. -/
structure TestAsk where
  unit : Nat
  mbx : Nat
  seq : Nat
  func : Nat
  later : Bool
  deriving DecidableEq, Repr

/-- Dependability state. -/
structure Dep where
  /-- The self-tests of this bench visit, by unit id of Table 17-2. -/
  tests : Tab Nat SelfTest
  /-- Units whose last completed self-test passed (R485). -/
  passed : List Nat
  /-- Self-tests that wait (R491). -/
  asked : List TestAsk
  /-- Rotation steps under way (R488): the outgoing unit by the unit that takes its place. -/
  steps : Tab Nat Nat
  /-- Times of the failovers of each Steward pair, in seconds of the Tender's clock (R493). -/
  pairFails : Tab Nat (List Nat)
  deriving DecidableEq, Repr

/-- Nothing tested, asked or under way. -/
def Dep.reset : Dep := ⟨[], [], [], [], []⟩

/-! ### Coupler links (13_coupler_links.md) -/

/-- Where a port is in a gap (R383): none, its own BEGIN sent and not answered, or in the gap. -/
inductive GapState where
  | none | begun | open
  deriving DecidableEq, Repr

/-- A TOKEN message sent and not acknowledged (R399): its number, the message, and the buffer it holds (pool, address). -/
structure SentToken where
  seq : Nat
  msg : TokenMsg
  token : Token
  /-- NAKs received for the number. -/
  naks : Nat
  deriving DecidableEq, Repr

/-- A coupler port beside its registers. -/
structure CplPort where
  /-- The last valid CAP set received in phase 5 (R378). -/
  capLast : Option CapSet
  /-- The partner's set is accepted. -/
  capOk : Bool
  /-- A set with ACK = 1 has been received. -/
  capAck : Bool
  gap : GapState
  /-- The gap was opened by this side's BEGIN. -/
  gapOwn : Bool
  /-- Probes sent and not yet answered. -/
  probes : List Nat
  /-- Round trips measured in the present gap, in units of 5 ps (R384). -/
  rtts : List Int
  /-- A DELAY message waits for a quiet transmitter (R384, R386). -/
  delayDue : Bool
  txSeq : Nat
  unacked : List SentToken
  rxNext : Nat
  /-- Token messages accepted and not yet acknowledged (R399). -/
  rxPending : Nat
  /-- A NAK is out and its number has not arrived. -/
  nakOut : Bool
  /-- Credits held by link queue (R391). -/
  credits : Tab Nat Nat
  /-- Bytes in the raw receive and transmit FIFOs (R392). -/
  rawRx : Nat
  rawTx : Nat
  /-- The tick at which the port left QUIET for a CONV block (R394). -/
  convExit : Option Nat
  /-- The tick of the last SLIP of each lane (R377). -/
  slipAt : Tab Nat Nat
  /-- Qualifying gaps that the DRIFT of each lane has survived (R382). -/
  driftGaps : Tab Nat Nat
  deriving DecidableEq, Repr

/-- A port right after reset. -/
def CplPort.reset : CplPort where
  capLast := none
  capOk := false
  capAck := false
  gap := .none
  gapOwn := false
  probes := []
  rtts := []
  delayDue := false
  txSeq := 0
  unacked := []
  rxNext := 0
  rxPending := 0
  nakOut := false
  credits := []
  rawRx := 0
  rawTx := 0
  convExit := none
  slipAt := []
  driftGaps := []

/-- A block or message that a coupler port sends (Table 13-2, R390, R396, R397). -/
inductive CplBlock where
  | conv (converter : Nat) (ctrl : Bool) (dlyUi word : Nat)
  | gapBegin | gapAck | gapEnd
  | probe (seq : Nat)
  | echo (seq turnaround : Nat)
  | ack (seq : Nat)
  | nak (seq : Nat)
  | quietEnter
  | laneDrop (lane : Nat)
  | sample (sid slot symbol : Nat) (samples : List Byte)
  | rawSample (sid : Nat) (n : Nat)
  | token (seq : Nat) (m : TokenMsg)
  | time (value : Tai) (car hops : Nat) (locked : Bool)
  | delay (owd : Int)
  deriving DecidableEq, Repr


/-! ### Network ports (12_network_ports.md) -/

/-- A MACsec SA as installed (R353): key words, SCI and packet number. -/
structure MacsecSa where
  key : List Nat
  sci : Nat
  pn : Nat
  deriving DecidableEq, Repr

/-- A network port beside its registers, kept under its lowest lane. -/
structure NetPort where
  /-- The stage of the attempt under way (R339): 0 none, 1 autonegotiation, 2 training, 3 PCS lock. -/
  stage : Nat
  /-- The copied lookup table (R355). -/
  lut : List (List Nat)
  /-- The last ecpriSeqid of each receive entry, and the next of each transmit entry (R356, R360). -/
  rxSeq : Tab Nat Nat
  txSeq : Tab Nat Nat
  /-- The lane whose FCE takes the next packet, counted among the port's lanes (R358). -/
  rr : Nat
  /-- Priorities that a received PFC frame pauses (R350). -/
  paused : List Nat
  sas : Tab Nat MacsecSa
  /-- The transmit SA installed last. -/
  txSa : Nat
  deriving DecidableEq, Repr

/-- A port right after reset. -/
def NetPort.reset : NetPort := ⟨0, [], [], [], 0, [], [], 0⟩

/-- A network lane beside its registers: receive taps, their trained point (R343), wake frames since the last Tender sample (Table
15-7), and PRBS_BITS_HI as captured by a read of LO (R563). -/
structure NetLane where
  taps : List Int
  trained : List Int
  wakes : Nat
  bitsHi : Nat
  deriving DecidableEq, Repr

/-- The network ports. -/
structure Net where
  ports : Tab Nat NetPort
  lanes : Tab Nat NetLane
  deriving DecidableEq, Repr

/-- A frame that a port sends (R351, R360): queue, the header of its buffer (Table 12-8), the bytes after it, and from the lookup entry
the destination, the tag (TPID, PCP, VID) and the seqid; originTimestamp of a one-step Sync (R59), and the MACsec packet number when
it is protected. -/
structure TxFrame where
  queue : Nat
  header : List Nat
  payload : List Byte
  dest : Nat
  tag : Option (Nat × Nat × Nat)
  seqid : Nat
  origin : Option Tai
  pn : Option Nat
  deriving DecidableEq, Repr


/-! ### Power-up, pins and SMBus (19_pins_and_package.md) -/

/-- The supplies and pins beside the registers. -/
structure Pins where
  /-- The rails of Table 19-7 in their band, bit k for the rail enabled k-th: VDD_IO, VDD_CORE, VDD_SRAM, VDD_SDS08, VDD_SDS12,
  VDD_HBM, VDDQ_HBM (R535). -/
  rails : Nat
  /-- How many of them are enabled. -/
  enabled : Nat
  /-- Consecutive failures of the power-up sequence (R536). -/
  upFails : Nat
  /-- The power-up lockout of R536 holds. -/
  lockout : Bool
  /-- A failed power-up or a power fault, until the next successful power-up (R536, R538, R545). -/
  fault : Bool
  /-- The failing rail as SMBus STATUS codes it, 0 none (R536, R538, R544). -/
  badRail : Nat
  /-- VDD_CORE as commanded over AVSBus, in mV (R534). -/
  coreMv : Nat
  /-- XOFF_OUT balls parked at Hi-Z by a short (R546). -/
  xoffParked : List Nat
  /-- RESET_N is asserted (R507). -/
  resetN : Bool
  /-- VDD_AON is present: the chip is not in OFF (R480). -/
  aon : Bool
  deriving DecidableEq, Repr

/-! ### Boot and resets (18_boot_and_reset.md) -/

/-- Why a warm reset happens (Table 18-10). -/
inductive WarmCause where
  | pin | software | watchdog
  deriving DecidableEq, Repr

/-- Why a cold start happens (Table 18-1). -/
inductive ColdCause where
  | powerOn | brownout | thermal | lockout
  deriving DecidableEq, Repr

/-- A record-store program under way (R523): word index, its data, and the programs of the word that have failed so far. -/
structure RcsJob where
  word : Nat
  data : List Nat
  fails : Nat
  deriving DecidableEq, Repr

/-- Boot, resets and secure debug beside their registers. -/
structure Boot where
  /-- The power-on reset of a cold start has ended, and the ROM has not run yet (Table 18-2, time 0). -/
  romDue : Bool
  /-- Why the present or next cold start happens. -/
  why : ColdCause
  /-- A warm reset that has been asked for and has not run yet (R506, R507). -/
  warmDue : Option WarmCause
  /-- The tick at which the boot watchdog last started, while it counts (R512). -/
  wdog : Option Nat
  /-- The slot being booted, and whether BOOT_SLOT_NEXT named it (R512). -/
  slot : Nat
  fromNext : Bool
  /-- The slots whose check has failed in this boot (R517). -/
  failed : List Nat
  /-- The slot of the primary image as the descriptor named it at this boot (R515). -/
  primary : Nat
  rcs : Option RcsJob
  /-- Challenges requested since cold start (R525). -/
  challenges : Nat
  /-- Stacks whose training has ended in this boot, trained or lost (R513). -/
  trained : List Nat
  /-- The valid descriptor copies of the boot flash: SEQ and PRIMARY (R515). -/
  flash : List (Option (Nat × Nat))
  /-- The KEEP_MODE straps were 0b11 (R543). -/
  badStraps : Bool
  deriving DecidableEq, Repr

/-- Boot right after the power-on reset: the ROM starts, and nothing is known of the flash. -/
def Boot.reset : Boot where
  romDue := true
  why := .powerOn
  warmDue := none
  wdog := none
  slot := 0
  fromNext := false
  failed := []
  primary := 0
  rcs := none
  challenges := 0
  trained := []
  flash := [none, none]
  badStraps := false

/-! ### Carriers (R32, R423, R496) -/

/-- A configured carrier: function, descriptor, started, and the cause for which Steol has shed it. -/
structure Carrier where
  func : Nat
  desc : CarrierDesc
  started : Bool
  shed : Option ShedCause
  deriving DecidableEq, Repr

/-- The carriers by handle, the precedence list (R496), and the templates that a lost domain blocks (R496). -/
structure Carriers where
  list : Tab Nat Carrier
  prec : List Nat
  lost : List Nat
  deriving DecidableEq, Repr

/-! ### Temperature (16_thermal.md) -/

/-- A sensor: its last reading in 1/16 °C, the count of the last sample, the interval class of R468 (0 1 ms, 1 100 µs, 2 10 µs), and
whether that sample was above the trip (R474). -/
structure Sensor where
  temp : Int
  count : Nat
  cls : Nat
  above : Bool
  deriving DecidableEq, Repr

/-- Temperature sensing beside its registers. -/
structure Thm where
  sensors : Tab Nat Sensor
  /-- WARN has set and Steol has not answered yet: sensor and reading (R470). -/
  warnDue : Option (Nat × Int)
  /-- THROTTLE has set and Steol has not answered yet (R471). -/
  throttleDue : Bool
  /-- Domains that Steol put into TRIM for THROTTLE (R471). -/
  trim : List Nat
  /-- THERMTRIP_N is asserted (R475). -/
  tripped : Bool
  /-- The lockout of R480. -/
  lockout : Bool
  /-- The cold start under way ended a lockout (Table 16-5). -/
  released : Bool
  /-- Times of the last three trips on the Tender's clock in seconds, newest first (R480). -/
  trips : List Nat
  /-- Seconds of the Tender's clock before the timing counters last started from zero (R480). -/
  base : Nat
  deriving DecidableEq, Repr

/-- The FAPI errorCode of a stale ring item (Table 14-19). -/
inductive FapiError where
  | invalidState | slotErr | invalidSfn
  deriving DecidableEq, Repr

/-- What the device sends outside. -/
inductive Out where
  /-- A rising edge on PPS_OUT i with the pulse width in µs (R70). -/
  | ppsEdge (i widthUs : Nat)
  /-- An MSI-X message: global vector number (R409). -/
  | msix (vector : Nat)
  /-- An event that a function receives, with the LOST number it carries (R426). -/
  | event (func lost : Nat) (e : Event)
  /-- A write to host memory by requester f at an offset of its window (R408). -/
  | hostWrite (f addr : Nat) (bytes : List Byte)
  /-- What a read answers. -/
  | readData (w : Word)
  /-- A bus error answers the access (R551, R554). -/
  | busError
  /-- Unsupported Request answers the host's access (R407, R551). -/
  | unsupported
  /-- The level of XOFF_OUT n after polarity (R329). -/
  | xoffOut (n : Nat) (level : Bool)
  /-- An 802.1Qbb PFC frame on a network port: priority and pause time (R330). -/
  | pfc (port prio time : Nat)
  /-- A credit report to a coupler partner: port, queue, credits (R326, R391). -/
  | credits (port queue n : Nat)
  /-- What a memory read answers: address, data, the poison response (R267) or the UNINIT flag (R273). -/
  | memData (addr : Nat) (bytes : List Byte) (poison uninit : Bool)
  /-- An interrupt to the active Steward pair from channel k of block mover e (R308). -/
  | stewardIrq (e k : Nat)
  /-- A block or message on a coupler port. -/
  | coupler (port : Nat) (b : CplBlock)
  /-- A frame on a network port (R360). -/
  | frame (port : Nat) (f : TxFrame)
  /-- An error that a PRBS generator injects: kind and burst length (R363). -/
  | prbsError (lane kind len : Nat)
  /-- The payload of an ERROR.indication on a ring: slot, stale MSG_ID, errorCode and vendor TLV STALE (R432). -/
  | errorIndication (ring slot msgId : Nat) (code : FapiError) (seq : Nat)
  /-- A calibration transmission or capture starts (R86): receive, timeline, stream, window in ns. -/
  | cal (rx : Bool) (tl stream window : Nat)
  /-- A WHS_OUT pin changes what it drives (R95, R96, R542). -/
  | pin (n : Nat) (drive : PinDrive)
  /-- THERMTRIP_N asserts or deasserts (R475, R479). -/
  | thermtrip (on : Bool)
  /-- The supply enables PWR_EN: how many rails of Table 19-7 are enabled, in order (R475, R535, R536, R538). -/
  | enables (n : Nat)
  /-- A VDD_CORE setpoint in mV on the AVSBus (R534). -/
  | avs (mv : Nat)
  /-- The SMBus lines are released (R544). -/
  | smbRelease
  /-- An assertion of a Tender event rule reaches Steol (R460). -/
  | tenderEvent (rule : Nat)
  /-- A reply in a mailbox (R411). -/
  | reply (mbx : Nat) (r : Reply)
  /-- A FAPI message that Steol puts on a control ring: MSG_ID, FAPI error code, CAUSE of Table 14-8, and handles (R435). -/
  | fapi (ring msgId errorCode cause : Nat) (handles : List Nat)
  deriving DecidableEq, Repr

/-- Why a step can stop with a fault: never.  Every command of the table has an effect in every state (the spec gives none of
them an undefined outcome for the device), so there is no constructor; no meaning raises one, which is safe. -/
inductive Fault where
  deriving DecidableEq, Repr

/-- Why a step has no meaning. -/
inductive Refusal where
  /-- The command's meaning is not written; exec's arm raises it by the command's mnemonic.  Safe. -/
  | notModelled (mnemonic : String)
  deriving DecidableEq, Repr

/-- The device. -/
structure State where
  /-- Every register (Table 20-6); an unlisted key holds its reset value. -/
  regs : Tab RegKey Word
  /-- Every memory of Table 20-1 that holds data. -/
  mem : Memory
  memx : MemSt
  tbu : Tbu
  aft : Aft
  sq : Sq
  gdx : Gdx
  exu : Exu
  pwr : Pwr
  scl : Scl
  dep : Dep
  boot : Boot
  thm : Thm
  pins : Pins
  /-- Coupler ports (13_coupler_links.md); an unlisted port is as after reset. -/
  cpl : Tab Nat CplPort
  net : Net
  host : HostIf
  car : Carriers
  /-- The active time, in ns, of the last report merged into each queued error record, by severity and index (R500). -/
  erqLast : Tab (Nat × Nat) Nat
  /-- Everything the device sends outside, oldest first (MODEL's own record; log entry 5). -/
  out : List Out
  /-- How many free values have been used (MODEL's own field; log entry 3). -/
  free : Nat
  /-- The commands that wait, first in first out (MODEL's own field). -/
  pending : List Instr
  deriving DecidableEq, Repr

/-- A time domain right after reset: counter zero (R38), increment nominal (R41), nothing pending. -/
def TbuDom.reset : TbuDom := ⟨⟨0, 0, 0⟩, 0x19999999A, none, none, false, 0⟩

/-- The device right after reset. -/
def State.reset : State where
  regs := []
  mem := []
  memx := MemSt.reset
  tbu := ⟨TbuDom.reset, TbuDom.reset, 0, none, false, false, false, 0, [], [], none⟩
  aft := ⟨[], [], [], 0⟩
  sq := ⟨[], []⟩
  gdx := Gdx.reset
  exu := ⟨[], [], [], [], [], [], [], [], 0⟩
  pwr := ⟨[], [], [], [], none, [], [], none, 0, [], [], []⟩
  scl := ⟨[], []⟩
  dep := Dep.reset
  boot := Boot.reset
  thm := ⟨[], none, false, [], false, false, false, [], 0⟩
  pins := ⟨127, 7, 0, false, false, 0, 720, [], false, true⟩
  cpl := []
  net := ⟨[], []⟩
  host := HostIf.reset
  car := ⟨[], [], []⟩
  erqLast := []
  out := []
  free := 0
  pending := []

end Sys2Proof.Machine
end

