-- ==== Sys2Proof/Machine/Ops.lean ====
section
/-!
DEFINITION. Sys2Proof/Machine/Ops.lean: the named operations over registers and memory: reading and writing a register and a
field, counting, the words and bytes of memory, free values, and what the device sends outside.
-/
namespace Sys2Proof.Machine

/-! ### Words and fields -/

/-- A field of a word. -/
def fieldGet (w : Word) (lo len : Nat) : Nat := (w >>> lo).toNat % 2 ^ len

/-- The bits a field covers. -/
def fieldMask (lo len : Nat) : Word := BitVec.ofNat 32 ((2 ^ len - 1) * 2 ^ lo)

/-- A word with one field replaced by v modulo its width. -/
def fieldPut (w : Word) (lo len v : Nat) : Word :=
  (w &&& ~~~(fieldMask lo len)) ||| BitVec.ofNat 32 (v % 2 ^ len * 2 ^ lo)

/-- The value of a register that nothing has written since reset: the Reset column (R556, R559); MAP_PHYS resets to the
index of the instance within its engine type (R559), which the key's instance gives (engLocal). -/
def Reg.resetWord (r : Reg) : Word := r.fields.foldl (fun w f => fieldPut w f.lo f.len f.reset) 0

/-! ### Engine instances -/

/-- First instance number of each engine type in the key of a T_x register: LDD 0, CEN 34, TRD 51, PLD 60, FXE 69, MDE 103,
BWA 129, PRD 146, HCE 155 (Table 20-2: 172 instances). -/
def engBases : List Nat := [0, 34, 51, 60, 69, 103, 129, 146, 155]

/-- The index of an engine instance within its type. -/
def engLocal (i : Nat) : Nat := i - (engBases.filter (· ≤ i)).foldl max 0

/-- The reset value of a register of an instance (R559). -/
def RegKey.resetWord (k : RegKey) : Word :=
  if k.reg = .T_CTRL then fieldPut k.reg.resetWord 8 8 (engLocal k.inst) else k.reg.resetWord

/-! ### Registers -/

/-- The stored value of a register. -/
def State.rd (s : State) (k : RegKey) : Word := Tab.get k.resetWord s.regs k

/-- Store a register. -/
def State.wr (s : State) (k : RegKey) (w : Word) : State := { s with regs := Tab.set s.regs k w }

/-- A field of register index j of instance i. -/
def State.get (s : State) (f : Fld) (i : Nat := 0) (j : Nat := 0) : Nat := fieldGet (s.rd ⟨f.reg, i, j⟩) f.lo f.len

/-- Write a field. -/
def State.put (s : State) (f : Fld) (v : Nat) (i : Nat := 0) (j : Nat := 0) : State :=
  s.wr ⟨f.reg, i, j⟩ (fieldPut (s.rd ⟨f.reg, i, j⟩) f.lo f.len v)

/-- Is a flag set? -/
def State.flag (s : State) (f : Fld) (i : Nat := 0) (j : Nat := 0) : Bool := s.get f i j ≠ 0

/-- Put a number of fields of one instance. -/
def State.putAll (s : State) (i j : Nat) : List (Fld × Nat) → State
  | [] => s
  | (f, v) :: fs => (s.put f v i j).putAll i j fs

/-- The index that an offset of a page names in a register's place (Table 20-6), if it names the register. -/
def Place.index (p : Place) (off : Nat) : Option Nat :=
  if off < p.off then none
  else
    let r := off - p.off
    let j := if p.count2 ≤ 1 then 0 else r / p.stride2
    let q := r - j * p.stride2
    let i := if p.count ≤ 1 then 0 else q / p.stride
    if r = j * p.stride2 + i * p.stride ∧ i < p.count ∧ j < p.count2 then some (i + p.count * j) else none

/-- The register and index that an offset names in an instance of a block. -/
def regAt (b : Block) (off : Nat) : Option (Reg × Nat) :=
  (Reg.all.filter (fun r => r.place.block = b)).findSome? (fun r => (r.place.index off).map (fun i => (r, i)))

/-! ### Memory -/

/-- Base of system SRAM (Table 20-1): the table bases of the registers are byte offsets into it. -/
def sramBase : Nat := 0x10000000

/-- The 32-bit word of memory at a. -/
def State.word (s : State) (a : Nat) : Nat := s.mem.word a

/-- Store a 32-bit word. -/
def State.setWord (s : State) (a x : Nat) : State := { s with mem := s.mem.setWord a x }

/-- n bytes of memory. -/
def State.bytes (s : State) (a n : Nat) : List Byte := s.mem.readBytes a n

/-- Store bytes. -/
def State.setBytes (s : State) (a : Nat) (bs : List Byte) : State := { s with mem := s.mem.writeBytes a bs }

/-- Store 32-bit words at rising addresses. -/
def State.setWords (s : State) (a : Nat) : List Nat → State
  | [] => s
  | w :: ws => (s.setWord a w).setWords (a + 4) ws

/-- n 32-bit words from a on. -/
def State.words (s : State) (a : Nat) : Nat → List Nat
  | 0 => []
  | n + 1 => s.word a :: s.words (a + 4) n

/-! ### Outside and free values -/

/-- Send something outside. -/
def State.send (s : State) (o : Out) : State := { s with out := s.out ++ [o] }

/-- Take the next free natural number (log entry 3). -/
def State.freshNat (s : State) : Nat × State := (Config.freeNat s.free, { s with free := s.free + 1 })

/-- Take the next free choice (log entry 3). -/
def State.freshBool (s : State) : Bool × State := (Config.freeBool s.free, { s with free := s.free + 1 })

/-- Do f to the state n times. -/
def repeatN {α : Type} (f : α → α) : Nat → α → α
  | 0, s => s
  | n + 1, s => repeatN f n (f s)

end Sys2Proof.Machine
end

