-- ==== Sys2Proof/Machine/Flags.lean ====
section
/-!
DEFINITION. Sys2Proof/Machine/Flags.lean: the flag computations that all chapters share: sticky flags, saturating counters
(RC fields), and what a write does to each access code (R10, R11, R558).
-/
namespace Sys2Proof.Machine

/-- Set a status flag. -/
def State.set (s : State) (f : Fld) (i : Nat := 0) (j : Nat := 0) : State := s.put f 1 i j

/-- Clear a status flag. -/
def State.clr (s : State) (f : Fld) (i : Nat := 0) (j : Nat := 0) : State := s.put f 0 i j

/-- Set or clear a status flag. -/
def State.setTo (s : State) (f : Fld) (b : Bool) (i : Nat := 0) (j : Nat := 0) : State := s.put f (if b then 1 else 0) i j

/-- Add n to a counter field, which saturates at all ones. -/
def State.count (s : State) (f : Fld) (n : Nat := 1) (i : Nat := 0) (j : Nat := 0) : State :=
  s.put f (satAdd (2 ^ f.len - 1) (s.get f i j) n) i j

/-- Raise a field to v if v is larger (a maximum since the last read). -/
def State.raise (s : State) (f : Fld) (v : Nat) (i : Nat := 0) (j : Nat := 0) : State :=
  s.put f (max (s.get f i j) (min v (2 ^ f.len - 1))) i j

/-- What a software write of v leaves in one field (R10): RW stores; W1C clears the bits written 1; W1S sets them; RO, RC and
RSV ignore the write; WO stores (its action is the owning chapter's). -/
def writeField (w v : Word) (f : FieldDef) : Word :=
  match f.acc with
  | .RW | .WO => fieldPut w f.lo f.len (fieldGet v f.lo f.len)
  | .W1C => w &&& ~~~(v &&& fieldMask f.lo f.len)
  | .W1S => w ||| (v &&& fieldMask f.lo f.len)
  | .RO | .RC => w

/-- What a software write of v leaves in a register. -/
def writeFields (w v : Word) (fs : List FieldDef) : Word := fs.foldl (fun a f => writeField a v f) w

/-- What a read returns: WO fields and reserved bits read 0 (R10). -/
def readFields (w : Word) (fs : List FieldDef) : Word :=
  fs.foldl (fun a f => if f.acc = .WO then a else a ||| (w &&& fieldMask f.lo f.len)) 0

/-- What an RC read leaves: the RC fields cleared (R562). -/
def clearRC (w : Word) (fs : List FieldDef) : Word :=
  fs.foldl (fun a f => if f.acc = .RC then a &&& ~~~(fieldMask f.lo f.len) else a) w

end Sys2Proof.Machine
end

