-- ==== Sys2Proof/Machine/Time.lean ====
section
/-!
DEFINITION. Sys2Proof/Machine/Time.lean: network time (R34, R51), exact units for instants, and the air time of a timeline
(R76 to R79, R87).
-/
namespace Sys2Proof.Machine

/-! ### Counters in units of 2^-32 ns -/

/-- One second in units of 2^-32 ns. -/
def secUnits : Nat := 1000000000 * 2 ^ 32

/-- The value of a counter in units of 2^-32 ns (R34). -/
def Tai.units (t : Tai) : Nat := t.sec * secUnits + t.ns * 2 ^ 32 + t.frac

/-- The counter that holds a value; SEC wraps from 2^48 - 1 to 0 (R35). -/
def Tai.ofUnits (x : Int) : Tai :=
  let u := (x % (2 ^ 48 * secUnits : Nat)).toNat
  ⟨u / secUnits, u % secUnits / 2 ^ 32, u % 2 ^ 32⟩

/-- A counter moved by a signed amount. -/
def Tai.add (t : Tai) (x : Int) : Tai := Tai.ofUnits (t.units + x)

/-- The fields lie in their ranges (Table 2-1). -/
def Tai.wf (t : Tai) : Prop := t.sec < 2 ^ 48 ∧ t.ns < 1000000000 ∧ t.frac < 2 ^ 32

/-- The index of a domain in the registers: A 0, B 1 (R34). -/
def domIdx : Dom → Nat
  | .A => 0
  | .B => 1

/-- The domain of a code. -/
def domOf (n : Nat) : Dom := if n = 0 then .A else .B

/-- One domain of the unit. -/
def Tbu.dom (t : Tbu) : Dom → TbuDom
  | .A => t.a
  | .B => t.b

/-- Change one domain. -/
def Tbu.setDom (t : Tbu) (d : Dom) (x : TbuDom) : Tbu :=
  match d with
  | .A => { t with a := x }
  | .B => { t with b := x }

/-- Change one domain of the device. -/
def State.setDom (s : State) (d : Dom) (x : TbuDom) : State := { s with tbu := s.tbu.setDom d x }

/-- The active domain (R51). -/
def State.active (s : State) : Dom := domOf (s.get F.TBU_CTRL_ACTIVE)

/-- The active time in units of 2^-32 ns: the active counter plus the residual (R51, R52). -/
def State.activeUnits (s : State) : Int := (s.tbu.dom s.active).counter.units + s.tbu.resid

/-- The active time as a counter value. -/
def State.activeTime (s : State) : Tai := Tai.ofUnits s.activeUnits

/-- The active time in whole nanoseconds. -/
def State.activeNs (s : State) : Nat := let t := s.activeTime; t.sec * 1000000000 + t.ns

/-! ### Exact instants: units of 1/480 of 2^-32 ns

One nanosecond is qNs of them, 100 ps and 62.5 ps are whole numbers of them, and so is every symbol of Table 3-1, whose
durations are whole multiples of 1/30.72 MHz (3125/96 ns). -/

/-- One nanosecond. -/
def qNs : Int := 480 * 2 ^ 32

/-- 1/30.72 MHz. -/
def qTs : Int := 15625 * 2 ^ 32

/-- 62.5 ps. -/
def qSub : Int := 30 * 2 ^ 32

/-- 100 ps. -/
def q100ps : Int := 48 * 2 ^ 32

/-- A 10 ms frame (R77). -/
def qFrame : Int := 10000000 * qNs

/-- The GPS epoch on the PTP timescale, in seconds (R76). -/
def epochSec : Int := 315964819

/-- The active time. -/
def State.qActive (s : State) : Int := s.activeUnits * 480

/-! ### Timeline types (Table 3-1) -/

/-- A row of Table 3-1: slots per frame, symbols per slot, the long symbol and the slots that have it (every longEvery-th), and
the durations in units of 1/30.72 MHz. -/
structure Numerology where
  slots : Nat
  symbols : Nat
  /-- The symbols that are long in a slot that has long symbols. -/
  long : List Nat
  longEvery : Nat
  longTs : Int
  symTs : Int
  deriving DecidableEq, Repr

/-- The row of Table 3-1 that STD, MU, ECP and NB_3K75 name, if any (R79, R81). -/
def numerology (std mu : Nat) (ecp nb : Bool) : Option Numerology :=
  if std = 0 then
    if nb then none
    else match mu, ecp with
      | 0, false => some ⟨10, 14, [0, 7], 1, 2208, 2192⟩
      | 1, false => some ⟨20, 14, [0], 1, 1112, 1096⟩
      | 2, false => some ⟨40, 14, [0], 2, 564, 548⟩
      | 2, true => some ⟨40, 12, [], 1, 640, 640⟩
      | 3, false => some ⟨80, 14, [0], 4, 290, 274⟩
      | _, _ => none
  else if mu ≠ 0 then none
  else if nb then (if std = 2 ∧ ecp = false then some ⟨5, 7, [6], 1, 10752, 8448⟩ else none)
  else if ecp then (if std = 2 then none else some ⟨20, 6, [], 1, 2560, 2560⟩)
  else some ⟨20, 7, [0], 1, 2208, 2192⟩

/-- The numerology of an entry; an enabled timeline always has one (R81). -/
def TlEntry.num (e : TlEntry) : Numerology := (numerology e.std e.mu e.ecp e.nb3k75).getD ⟨10, 14, [0, 7], 1, 2208, 2192⟩

/-- The slot duration (Table 3-1, column Slot; log entry 6). -/
def Numerology.qSlot (n : Numerology) : Int := qFrame / n.slots

/-- The duration of symbol i of slot number slot. -/
def Numerology.qSym (n : Numerology) (slot : Int) (i : Nat) : Int :=
  if i ∈ n.long ∧ slot % n.longEvery = 0 then n.longTs * qTs else n.symTs * qTs

/-- The start of symbol i within a slot. -/
def Numerology.qSymStart (n : Numerology) (slot : Int) : Nat → Int
  | 0 => 0
  | i + 1 => n.qSymStart slot i + n.qSym slot i

/-- An enabled timeline. -/
def State.tl (s : State) (t : Nat) : Option Timeline := Tab.find s.aft.tls t

/-- Is a timeline enabled? -/
def State.tlOn (s : State) (t : Nat) : Bool := (s.tl t).isSome

/-- The air time of a timeline at an active time (R76). -/
def qAir (e : TlEntry) (qAct : Int) : Int := qAct - epochSec * 1000000000 * qNs - e.offset * qSub

/-- The active time at which an air time comes. -/
def qUnair (e : TlEntry) (q : Int) : Int := q + epochSec * 1000000000 * qNs + e.offset * qSub

/-- A coordinate: slot counted from frame 0, symbol, offset. -/
structure AirCoord where
  slot : Int
  symbol : Nat
  offset : Int
  deriving DecidableEq, Repr

/-- The last symbol that starts at or before an offset into a slot. -/
def Numerology.symbolAt (n : Numerology) (slot off : Int) : Nat :=
  ((List.range n.symbols).filter (fun i => n.qSymStart slot i ≤ off)).foldl max 0

/-- The coordinate of an air time (R77 to R79): slots start at multiples of the slot duration. -/
def Numerology.coord (n : Numerology) (q : Int) : AirCoord :=
  let slot := q / n.qSlot
  let off := q % n.qSlot
  let i := n.symbolAt slot off
  ⟨slot, i, off - n.qSymStart slot i⟩

/-- The start, in air time, of the symbol counted C from slot 0 of frame 0. -/
def Numerology.qOfSymbol (n : Numerology) (c : Int) : Int :=
  let slot := c / n.symbols
  slot * n.qSlot + n.qSymStart slot (c % n.symbols).toNat

/-- The symbols of the hyper-frame cycle of 1,024 × 1,024 frames (R77). -/
def Numerology.cycle (n : Numerology) : Int := 1024 * 1024 * n.slots * n.symbols

/-- Whistle entry W1 for a coordinate: HF, FRAME, SLOT, SYMBOL (Table 3-3; R77). -/
def Numerology.coordWord (n : Numerology) (c : AirCoord) : Nat :=
  let frame := c.slot / n.slots
  let hf := (frame / 1024 % 1024).toNat
  let f := (frame % 1024).toNat
  let sl := (c.slot % n.slots).toNat
  hf + f * 2 ^ 10 + sl * 2 ^ 20 + c.symbol * 2 ^ 28

/-- The coordinate of a timeline now. -/
def State.coordNow (s : State) (t : Timeline) : AirCoord := t.ent.num.coord (qAir t.ent s.qActive)

/-- A slot coordinate in the layout of whistle entry W1, its symbol 0 (R129, R575). -/
def Timeline.slotWord (t : Timeline) (slot : Int) : Nat := t.ent.num.coordWord ⟨slot, 0, 0⟩

/-- The slot, counted from frame 0, that a coordinate word names, resolved to the hyper-frame cycle nearest a given slot (R87). -/
def Numerology.slotOfWord (n : Numerology) (w : Nat) (near : Int) : Int :=
  let hf := natBits w 0 10
  let f := natBits w 10 10
  let sl := natBits w 20 7
  let base : Int := ((hf * 1024 + f : Nat) : Int) * n.slots + sl
  let cyc : Int := 1024 * 1024 * n.slots
  base + (near - base + cyc / 2) / cyc * cyc

end Sys2Proof.Machine
end

