-- ==== Sys2Proof/Machine/Events.lean ====
section
/-!
DEFINITION. Sys2Proof/Machine/Events.lean: writing items into output rings, ring interrupts, the events of Table 14-11, and the
error records of 17_dependability.md.  Every family reports through these.
-/
namespace Sys2Proof.Machine

/-! ### Interrupts -/

/-- The global MSI-X vector of vector k of function f (R409). -/
def globalVector (f k : Nat) : Nat := if f = 0 then k else 256 + (f - 1) * 112 + k

/-! ### Rings (R427 to R434) -/

/-- Change the part of the host interface that the registers do not show. -/
def State.setHost (s : State) (h : HostIf) : State := { s with host := h }

/-- A ring. -/
def State.ring (s : State) (r : Nat) : Option Ring := Tab.find s.host.rings r

/-- Store a ring. -/
def State.setRing (s : State) (r : Nat) (x : Ring) : State := s.setHost { s.host with rings := Tab.set s.host.rings r x }

/-- Is a ring detached (R436)? -/
def State.ringDetached (s : State) (r : Nat) : Bool := s.flag F.MBX_RING_STATUS_DETACHED 0 r

/-- Entries between HEAD and TAIL; both run freely modulo 2^32 (R430). -/
def State.ringFill (s : State) (r : Nat) : Nat :=
  (s.get F.MBX_RING_TAIL_TAIL 0 r + 2 ^ 32 - s.get F.MBX_RING_HEAD_HEAD 0 r) % 2 ^ 32

/-- Write data the device writes for a function: into device memory, or through the host window (R408). -/
def State.writeOut (s : State) (inHost : Bool) (f a : Nat) (bs : List Byte) : State :=
  if inHost then s.send (.hostWrite f a bs) else s.setBytes a bs

/-- Write a 32-bit index back to WB_ADDR (R430): a device address, which the host window maps when it lies at or above
0x8000_0000_0000 (Table 20-1). -/
def State.writeBack (s : State) (x : Ring) (idx : Nat) : State :=
  s.writeOut (0x800000000000 ≤ x.wbAddr) x.func x.wbAddr (natLe 4 idx)

/-- Signal n more items of a ring (R434): send the vector when COAL_ITEMS have accumulated or COAL_US is 0. -/
def State.ringSignal (s : State) (r n : Nat) : State :=
  match s.ring r with
  | none => s
  | some x =>
    let u := x.unsignalled + n
    if u ≠ 0 ∧ (s.get F.MBX_RING_IRQ_COAL_ITEMS 0 r ≤ u ∨ s.get F.MBX_RING_IRQ_COAL_US 0 r = 0) then
      let s := s.setRing r { x with unsignalled := 0 }
      if s.flag F.MBX_RING_IRQ_EN 0 r then s.send (.msix (globalVector x.func (s.get F.MBX_RING_IRQ_VECTOR 0 r))) else s
    else s.setRing r { x with unsignalled := u }

/-- The words of an item (Table 14-12). -/
structure ItemWords where
  msgId : Nat
  carrier : Nat
  slot : Nat
  symbol : Nat
  length : Nat
  addr : Nat
  flowTag : Nat
  user : Nat
  deriving DecidableEq, Repr

/-- The 64 bytes of an item with a sequence number (Table 14-12). -/
def ItemWords.bytes (i : ItemWords) (seq : Nat) : List Byte :=
  natLe 4 (i.msgId % 256 + i.carrier % 2 ^ 16 * 2 ^ 16) ++ natLe 4 i.slot ++ natLe 4 (i.symbol % 32) ++ natLe 4 i.length ++
  natLe 4 (i.addr % 2 ^ 32) ++ natLe 4 (i.addr / 2 ^ 32 % 2 ^ 16) ++ natLe 4 seq ++
  natLe 4 (i.flowTag % 2 ^ 14 + i.user % 2 ^ 16 * 2 ^ 16) ++ List.replicate 32 0

/-- Is there room for one more output item? -/
def State.ringHasRoom (s : State) (r : Nat) : Bool :=
  match s.ring r with
  | none => false
  | some x => decide (s.ringFill r < x.entries)

/-- Write 64 bytes as the next output entry of a ring that has room, advance TAIL, write it back and signal (R430, R433, R434). -/
def State.ringPutBytes (s : State) (r : Nat) (bytes : Nat → List Byte) (buf : Option (Nat × Nat)) : State :=
  match s.ring r with
  | none => s
  | some x =>
    let tail := s.get F.MBX_RING_TAIL_TAIL 0 r
    let s := s.writeOut x.inHost x.func (x.base + tail % x.entries * 64) (bytes x.outSeq)
    let s := s.setRing r { x with outSeq := (x.outSeq + 1) % 2 ^ 32, items := x.items ++ [⟨tail, false, buf, true, 0, []⟩] }
    let s := s.put F.MBX_RING_TAIL_TAIL (tail + 1) 0 r
    let s := s.writeBack x ((tail + 1) % 2 ^ 32)
    s.ringSignal r 1

/-- Write the next output item (Table 14-12). -/
def State.ringPut (s : State) (r : Nat) (i : ItemWords) (buf : Option (Nat × Nat)) : State := s.ringPutBytes r i.bytes buf

/-- LENGTH and ADDR of a payload that Steol puts on an output ring: in host memory it lies in the data slot of the item (R433); its
length, and its place in HBM, the spec does not give (free values, log entry 3). -/
def State.payload (s : State) (r : Nat) : (Nat × Nat) × State :=
  let (n, s) := s.freshNat
  match s.ring r with
  | none => ((n % 2 ^ 32, 0), s)
  | some x =>
    if x.inHost then ((n % (x.dataSize + 1), x.dataBase + s.get F.MBX_RING_TAIL_TAIL 0 r % x.entries * x.dataSize), s)
    else
      let (a, s) := s.freshNat
      ((n % 2 ^ 32, a % 2 ^ 48), s)

/-- Steol writes an item of a message that it makes (R426, R432, R435). -/
def State.messagePut (s : State) (r msgId carrier slot : Nat) : State :=
  let (p, s) := s.payload r
  s.ringPut r ⟨msgId, carrier, slot, 31, p.1, p.2, 0, 0⟩ none

/-! ### Events (R426) -/

/-- The opcode of an event (Table 14-11). -/
def Event.opcode : Event → Nat
  | .completion .. => 0x0C01
  | .carrierShed .. => 0x0C02
  | .time .. => 0x0C03
  | .tlMismatch .. => 0x0C04
  | .link .. => 0x0C05
  | .xoffStuck .. => 0x0C06
  | .queueGap .. => 0x0C07
  | .failover .. => 0x0C08
  | .thermal .. => 0x0C09
  | .errorRecord .. => 0x0C0A
  | .firmware .. => 0x0C0B

/-- Send an event to a function: on the ring EVENT_RING named, if its mask selects it; a full ring drops it and counts it
into the next LOST (R426).  Mask bit k selects opcode 0x0C01 + k (log entry 7). -/
def State.eventTo (s : State) (f : Nat) (e : Event) : State :=
  match Tab.find s.host.evRings f with
  | none => s
  | some (r, mask) =>
    if mask.testBit (e.opcode - 0x0C01) then
      let lost := Tab.get 0 s.host.evLost f
      if s.ringHasRoom r ∧ ¬ s.ringDetached r then
        let s := s.messagePut r 0xF0 0 0
        let s := s.setHost { s.host with evLost := Tab.set s.host.evLost f 0 }
        s.send (.event f lost e)
      else s.setHost { s.host with evLost := Tab.set s.host.evLost f (lost + 1) }
    else s

/-- Send a chip-wide event: the PF receives it (R426). -/
def State.event (s : State) (e : Event) : State := s.eventTo 0 e

/-! ### Error records (R499 to R502) -/

/-- A report of an error: the fields of Table 17-7 that its source gives. -/
structure Report where
  kind : Nat
  cls : Nat
  sev : Nat
  id : Nat
  detail : Nat
  addr : Nat
  deriving DecidableEq, Repr

/-- Address of the entry of queue sev at index w (Table 17-8). -/
def State.erqAddr (s : State) (sev w : Nat) : Nat := sramBase + s.get F.ECC_ERQ_BASE_BASE 0 sev + w % 512 * 32

/-- Records not yet read. -/
def State.erqLevel (s : State) (sev : Nat) : Nat :=
  (s.get F.ECC_ERQ_WR_WR 0 sev + 2 ^ 16 - s.get F.ECC_ERQ_RD_RD 0 sev) % 2 ^ 16

/-- Keep NONEMPTY and LEVEL at the difference of the indices. -/
def State.erqShow (s : State) (sev : Nat) : State :=
  (s.setTo F.ECC_ERQ_STATUS_NONEMPTY (s.erqLevel sev ≠ 0) 0 sev).put F.ECC_ERQ_STATUS_LEVEL (s.erqLevel sev) 0 sev

/-- Word 0 of a record. -/
def Report.w0 (r : Report) : Nat := r.cls % 256 + r.kind % 16 * 2 ^ 8 + r.sev % 4 * 2 ^ 12 + r.id % 2 ^ 16 * 2 ^ 16

/-- The eight words of a new record (Table 17-7). -/
def Report.words (r : Report) (now : Tai) (seq : Nat) : List Nat :=
  [r.w0, r.detail % 2 ^ 16 + 2 ^ 16, r.addr % 2 ^ 32, r.addr / 2 ^ 32 % 2 ^ 16, now.sec % 2 ^ 32, now.ns, 0, seq % 2 ^ 16]

/-- The queue indices that R500 may merge into, most recently written first: of the 16 most recent, those that the read index
has not passed, with equal kind, id, class and address and a last report no more than 1 ms ago. -/
def State.erqMatches (s : State) (r : Report) : List Nat :=
  let wr := s.get F.ECC_ERQ_WR_WR 0 r.sev
  (List.range (min 16 (s.erqLevel r.sev))).filterMap (fun k =>
    let w := (wr + 2 ^ 16 - 1 - k) % 2 ^ 16
    let a := s.erqAddr r.sev w
    let last := Tab.get 0 s.erqLast (r.sev, w)
    if s.word a = r.w0 ∧ s.word (a + 8) = r.addr % 2 ^ 32 ∧ s.word (a + 12) = r.addr / 2 ^ 32 % 2 ^ 16 ∧
       s.activeNs ≤ last + 1000000 then some w else none)

/-- Merge a report into the record at index w (R500). -/
def State.erqMerge (s : State) (r : Report) (w : Nat) : State :=
  let a := s.erqAddr r.sev w
  let w1 := s.word (a + 4)
  let first := s.word (a + 16) * 1000000000 + s.word (a + 20)
  let now := s.activeTime.sec % 2 ^ 32 * 1000000000 + s.activeTime.ns
  let s := s.setWord (a + 4) (w1 % 2 ^ 16 + satAdd 0xFFFF (w1 / 2 ^ 16) 1 * 2 ^ 16)
  let s := s.setWord (a + 24) (min 0xFFFFFFFF (now - first))
  let s := { s with erqLast := Tab.set s.erqLast (r.sev, w) s.activeNs }
  s.count F.ECC_ERQ_COALESCED_COALESCED 1 0 r.sev

/-- Write a report as a new record (R499). -/
def State.erqNew (s : State) (r : Report) : State :=
  let w := s.get F.ECC_ERQ_WR_WR 0 r.sev
  let s := s.setWords (s.erqAddr r.sev w) (r.words s.activeTime w)
  let s := { s with erqLast := Tab.set s.erqLast (r.sev, w) s.activeNs }
  (s.put F.ECC_ERQ_WR_WR (w + 1) 0 r.sev).erqShow r.sev

/-- Drop a report (R501). -/
def State.erqDrop (s : State) (r : Report) : State :=
  (s.count F.ECC_ERQ_LOST_LOST 1 0 r.kind).set F.ECC_ERQ_STATUS_OVF 0 r.sev

/-- The first-error capture of the severity (R502). -/
def State.erqCapture (s : State) (r : Report) : State :=
  let v := s.get F.ECC_ERQ_FIRST_VALID_VALID
  if v.testBit r.sev then s
  else
    let ws := r.words s.activeTime (s.get F.ECC_ERQ_WR_WR 0 r.sev)
    let s := (List.range 8).foldl (fun s k => s.put F.ECC_ERQ_FIRST_WORD (ws.getD k 0) 0 (8 * r.sev + k)) s
    s.put F.ECC_ERQ_FIRST_VALID_VALID (v ||| 2 ^ r.sev)

/-- Report an error (R499 to R502; Table 17-8: EN = 0 drops every report and counts it as lost). -/
def State.report (s : State) (r : Report) : State :=
  let s := s.erqCapture r
  if ¬ s.flag F.ECC_ERQ_CTRL_EN then s.count F.ECC_ERQ_LOST_LOST 1 0 r.kind
  else
    match (if s.flag F.ECC_ERQ_CTRL_COAL_EN then s.erqMatches r else []) with
    | w :: _ => s.erqMerge r w
    | [] => if s.erqLevel r.sev < 512 then s.erqNew r else s.erqDrop r

end Sys2Proof.Machine
end

