-- ==== Sys2Proof/Machine/Mem.lean ====
section
/-!
DEFINITION. Sys2Proof/Machine/Mem.lean: the memories of 09_memory_and_ecc.md: their windows and words, correction and poison on
access, HBM initialisation, the row table, repairs and the record store; the error-record commands of 17_dependability.md; and the
meanings of their rows.
-/
namespace Sys2Proof.Machine

/-! ### Address windows (Table 9-1, Table 20-1) -/

/-- The codes of Table 9-2. -/
inductive MemKind where
  | sram | hbm | rcs
  deriving DecidableEq, Repr

/-- Base of HBM. -/
def hbmBase : Nat := 0x10000000000

/-- Base of the record store. -/
def rcsBase : Nat := 0x40000000

/-- The memory an address lies in, none for a bus error (R257). -/
def memKind (a : Nat) : Option MemKind :=
  if 0x10000000 ≤ a ∧ a < 0x14000000 then some .sram
  else if 0x20000000 ≤ a ∧ a < 0x38000000 then (if a % 0x1000000 < 0xC80000 then some .sram else none)
  else if rcsBase ≤ a ∧ a < 0x40400000 then some .rcs
  else if hbmBase ≤ a ∧ a < 0x12400000000 then some .hbm
  else none

/-- Bytes of a word of a memory (Table 9-1). -/
def wordBytes : MemKind → Nat
  | .sram => 8
  | .hbm => 64
  | .rcs => 32

/-- The word an address lies in. -/
def wordOf (k : MemKind) (a : Nat) : Nat := a / wordBytes k * wordBytes k

/-- The stack of an HBM address (R259). -/
def stackOf (a : Nat) : Nat := (a - hbmBase) / 0x900000000

/-- The granule of an HBM address within its stack (R260). -/
def granuleOf (a : Nat) : Nat := (a - hbmBase) % 0x900000000 / 0x40000000

/-- The line of an HBM address within its granule. -/
def lineOf (a : Nat) : Nat := (a - hbmBase) % 0x40000000 / 64

/-- The channel controller of an HBM address within its stack (R259). -/
def channelOf (a : Nat) : Nat :=
  let o := (a - hbmBase) % 0x900000000
  (natBits o 8 4) ^^^ (natBits o 16 4)

/-- The memory id of an address in the layout of Table 9-5 W0 [31:16] (log entry 11). -/
def macroId (a : Nat) : Nat :=
  match memKind a with
  | some .hbm => stackOf a % 4 + channelOf a % 16 * 4 + Config.bankOf a % 32 * 64
  | _ => Config.macroOf a % 2 ^ 16

/-- Store the memories' hidden part. -/
def State.setMemx (s : State) (m : MemSt) : State := { s with memx := m }

/-! ### Readiness (R272 to R275) -/

/-- The READY bit of a granule of a stack. -/
def State.granReady (s : State) (st g : Nat) : Bool :=
  if g < 32 then (s.get F.MEM_READY_LO_READY st).testBit g else (s.get F.MEM_READY_HI_READY st).testBit (g - 32)

/-- Set the READY bit of a granule. -/
def State.setGranReady (s : State) (st g : Nat) : State :=
  if g < 32 then s.put F.MEM_READY_LO_READY (s.get F.MEM_READY_LO_READY st ||| 2 ^ g) st
  else s.put F.MEM_READY_HI_READY (s.get F.MEM_READY_HI_READY st ||| 2 ^ (g - 32)) st

/-- Is the line of an HBM address ready: its granule is, or the pointer of the granule under way or paused has passed it? -/
def State.lineReady (s : State) (a : Nat) : Bool :=
  let st := stackOf a
  s.granReady st (granuleOf a) ||
  (s.flag F.MEM_STATUS_TRAINED st && decide (s.get F.MEM_INIT_GRANULE st = granuleOf a ∧ lineOf a < s.get F.MEM_INIT_PTR st)) ||
  (match Tab.find s.memx.paused st with
   | some (g, p) => decide (g = granuleOf a ∧ lineOf a < p)
   | none => false)

/-- The power domain of a stack (Table 15-1). -/
def stackDomain (st : Nat) : Nat := 128 + st

/-- Is a stack in SLEEP, so that an access waits for its wake (R445)? -/
def State.stackAsleep (s : State) (st : Nat) : Bool := s.get F.PWR_DOM_STATE_STATE 0 (stackDomain st) = 3

/-! ### The record store (R521, R523) -/

/-- Offset and slot size of the regions of Table 18-8 that have two slots: 0 board descriptor, 1 cable table, 2 coupler
equalisation, 3 field repair map. -/
def recRegion (k : Nat) : Nat × Nat :=
  if k = 0 then (0x00000, 0x8000) else if k = 1 then (0x10000, 0x8000) else if k = 2 then (0x20000, 0x8000) else (0x30000, 0x10000)

/-- Address of slot i of a region. -/
def recSlot (k i : Nat) : Nat := rcsBase + (recRegion k).1 + i * (recRegion k).2

/-- The body length, in words, that the header of a slot gives. -/
def State.recLength (s : State) (k i : Nat) : Nat := s.word (recSlot k i + 4)

/-- Address of the commit word of a slot: after the header word and the body, in whole 32-byte words (R521). -/
def State.recCommit (s : State) (k i : Nat) : Nat := recSlot k i + 32 + (s.recLength k i + 7) / 8 * 32

/-- Does a slot hold a committed record (R521)? -/
def State.recValid (s : State) (k i : Nat) : Bool :=
  let n := (s.recLength k i + 7) / 8 * 32
  decide (n + 64 ≤ (recRegion k).2) && s.word (s.recCommit k i) = 0xC04417 &&
  s.word (s.recCommit k i + 4) = s.word (recSlot k i + 8) &&
  s.word (s.recCommit k i + 8) = crc32 (s.bytes (recSlot k i) (32 + n))

/-- The committed slot with the later SEQ, modulo 2^32 (R521). -/
def State.recCurrent (s : State) (k : Nat) : Option Nat :=
  match s.recValid k 0, s.recValid k 1 with
  | false, false => none
  | true, false => some 0
  | false, true => some 1
  | true, true => if (s.word (recSlot k 1 + 8) + 2 ^ 32 - s.word (recSlot k 0 + 8)) % 2 ^ 32 < 2 ^ 31 then some 1 else some 0

/-- The body of the current record of a region. -/
def State.recBody (s : State) (k : Nat) : Option (List Nat) :=
  (s.recCurrent k).map (fun i => s.words (recSlot k i + 32) (s.recLength k i))

/-- Pad a list of words to whole 32-byte words. -/
def padWords (ws : List Nat) : List Nat := ws ++ List.replicate ((8 - ws.length % 8) % 8) 0

/-- Steol writes a record: header, body, and the commit word last, into the slot that is not current (R521); each 32-byte word is
one program (R523). -/
def State.recWrite (s : State) (k : Nat) (body : List Nat) : State :=
  let i := match s.recCurrent k with
    | some 0 => 1
    | _ => 0
  let seq := match s.recCurrent k with
    | some j => s.word (recSlot k j + 8) + 1
    | none => 1
  let hb := [k, body.length, seq % 2 ^ 32, 0, 0, 0, 0, 0] ++ padWords body
  let s := s.setWords (recSlot k i) hb
  let crc := crc32 (s.bytes (recSlot k i) (4 * hb.length))
  let s := s.setWords (recSlot k i + 4 * hb.length) [0xC04417, seq % 2 ^ 32, crc, 0, 0, 0, 0, 0]
  s.count F.RCS_PROGRAMS_PROGRAMS (hb.length / 8 + 1)

/-! ### Repairs (R277 to R283) -/

/-- The four words of a field repair map entry (Table 9-5). -/
def Repair.words (r : Repair) : List Nat :=
  [r.kind % 8 + (if r.applied then 8 else 0) + (if r.unrepairable then 16 else 0) + r.macroId % 2 ^ 16 * 2 ^ 16,
   r.index % 2 ^ 18, r.sec % 2 ^ 32, 0]

/-- Store the field repair map, in the record store too (R283). -/
def State.setRepairs (s : State) (rs : List Repair) : State :=
  (s.setMemx { s.memx with repairs := rs }).recWrite 3 (rs.flatMap Repair.words)

/-- Spare rows and columns left of a macro; each starts with two of each (R280). -/
def State.spare (s : State) (m : Nat) : Nat × Nat := Tab.get (2, 2) s.memx.spares m

/-- Report a repair event (Table 9-6): classes 0xA and 0xB. -/
def State.repairReport (s : State) (cls mac : Nat) : State :=
  if s.flag F.ECC_CTRL_REPORT_EN then s.report ⟨0, cls, if cls = 0xB then 2 else 0, mac, 0, 0⟩ else s

/-- Queue a repair of kind 0, 1 or 2 (R281, R283): an entry in the map, UNREPAIRABLE if no spare of an SRAM macro remains; a full
map queues nothing and reports UNREPAIRABLE. -/
def State.queueRepair (s : State) (kind mac index : Nat) : State :=
  if 2048 ≤ s.memx.repairs.length then s.repairReport 0xB mac
  else
    let bad := (kind = 0 ∧ (s.spare mac).1 = 0) ∨ (kind = 1 ∧ (s.spare mac).2 = 0)
    let s := s.setRepairs (s.memx.repairs ++ [⟨kind, false, decide bad, mac, index, s.activeTime.sec % 2 ^ 32⟩])
    s.repairReport (if bad then 0xB else 0xA) mac

/-- Apply one queued SRAM repair with a spare of its macro, or mark it UNREPAIRABLE (R281). -/
def State.applyRepair (s : State) (r : Repair) : Repair × State :=
  let (a, b) := s.spare r.macroId
  if (r.kind = 0 ∧ a = 0) ∨ (r.kind = 1 ∧ b = 0) then ({ r with unrepairable := true }, s.repairReport 0xB r.macroId)
  else
    ({ r with applied := true },
      s.setMemx { s.memx with spares := Tab.set s.memx.spares r.macroId (if r.kind = 0 then (a - 1, b) else (a, b - 1)) })

/-- At a power-up the queued SRAM repairs of the macros that p selects are applied (R280, R281). -/
def State.applyRepairs (s : State) (p : Nat → Bool) : State :=
  if s.memx.repairs.any (fun r => decide (r.kind ≤ 1) && !r.applied && !r.unrepairable && p r.macroId) then
    let (l, s) := s.memx.repairs.foldl (fun (acc : List Repair × State) r =>
      if r.kind ≤ 1 ∧ ¬ r.applied ∧ ¬ r.unrepairable ∧ p r.macroId then
        let (r, s) := acc.2.applyRepair r
        (acc.1 ++ [r], s)
      else (acc.1 ++ [r], acc.2)) ([], s)
    s.setRepairs l
  else s

/-- One day, in seconds (R277). -/
def daySec : Nat := 86400

/-- The weight of an entry's events within the last 24 h (R277). -/
def rowWeight (now : Nat) (es : List (Nat × Nat)) : Nat :=
  ((es.filter (fun e => now < e.1 + daySec)).map (·.2)).foldl (· + ·) 0

/-- The row-table entry that holds a row, if any. -/
def State.rowEntry (s : State) (mac row : Nat) : Option Nat :=
  (s.memx.rowEvents.find? (fun x => s.get F.ECC_ROWTAB_ID_ID 0 x.1 = mac ∧ s.get F.ECC_ROWTAB_ROW_ROW 0 x.1 = row)).map (·.1)

/-- The entry that a new row replaces when the table is full: the lowest count, and among equal ones the one whose first event is
the oldest (R277). -/
def State.rowVictim (s : State) : Nat :=
  let now := s.activeTime.sec
  match s.memx.rowEvents with
  | [] => 0
  | x :: xs => (xs.foldl (fun (b e : Nat × List (Nat × Nat)) =>
      let wb := rowWeight now b.2
      let we := rowWeight now e.2
      let tb : Nat := (b.2.head?.map (·.1)).getD 0
      let te : Nat := (e.2.head?.map (·.1)).getD 0
      if we < wb ∨ (we = wb ∧ te < tb) then e else b) x).1

/-- The entry for a row: its own, a free one, or the one it replaces (R277). -/
def State.rowPlace (s : State) (mac row : Nat) : Nat × State :=
  match s.rowEntry mac row with
  | some e => (e, s)
  | none =>
    let used := s.memx.rowEvents.map (·.1)
    match (List.range 512).find? (fun e => e ∉ used) with
    | some e => (e, s)
    | none =>
      let e := s.rowVictim
      (e, (s.setMemx { s.memx with rowEvents := Tab.erase s.memx.rowEvents e }).count F.ECC_ROW_EVICT_ROW_EVICT 1)

/-- Count an event of weight w against a row, and queue its repair when its events reach 4 (R277). -/
def State.rowEvent (s : State) (a w : Nat) : State :=
  let mac := macroId a
  let row := Config.rowOf a % 2 ^ 18
  let now := s.activeTime.sec
  let known := (s.rowEntry mac row).isSome
  let (e, s) := s.rowPlace mac row
  let es := ((Tab.get [] s.memx.rowEvents e).filter (fun x => now < x.1 + daySec)) ++ [(now, w)]
  let s := s.setMemx { s.memx with rowEvents := Tab.set s.memx.rowEvents e es }
  let s := (s.put F.ECC_ROWTAB_ID_ID mac 0 e).put F.ECC_ROWTAB_ROW_ROW row 0 e
  let s := s.put F.ECC_ROWTAB_ROW_COUNT (min 7 (rowWeight now es)) 0 e
  let s := if known then s else s.clr F.ECC_ROWTAB_ROW_QUEUED 0 e
  if 4 ≤ rowWeight now es ∧ ¬ s.flag F.ECC_ROWTAB_ROW_QUEUED 0 e then
    (s.set F.ECC_ROWTAB_ROW_QUEUED 0 e).queueRepair (if memKind a = some .hbm then 2 else 0) mac row
  else s

/-- A CE in a column: queue it when CEs in 4 different rows of it fall within 24 h (R278). -/
def State.colEvent (s : State) (a pos : Nat) : State :=
  let x : ColEvent := ⟨macroId a, Config.colOf a pos % 2 ^ 18, Config.rowOf a % 2 ^ 18, s.activeTime.sec⟩
  let es := x :: s.memx.colEvents.filter (fun e => x.sec < e.sec + daySec)
  let rows := ((es.filter (fun e => e.macroId = x.macroId ∧ e.column = x.column)).map (·.row)).eraseDups
  let s := s.setMemx { s.memx with colEvents := es }
  if 4 ≤ rows.length ∧ ¬ s.memx.repairs.any (fun r => r.kind = 1 && r.macroId = x.macroId && r.index = x.column) then
    s.queueRepair 1 x.macroId x.column else s

/-- A CE in an HBM symbol position: Steol sets the channel's erasure when 16 different lines show it within 24 h (R279). -/
def State.symEvent (s : State) (a pos : Nat) : State :=
  let st := stackOf a
  let ch := channelOf a
  let x : SymEvent := ⟨st, ch, pos, wordOf .hbm a, s.activeTime.sec⟩
  let es := x :: s.memx.symEvents.filter (fun e => x.sec < e.sec + daySec)
  let lines := ((es.filter (fun e => e.stack = st ∧ e.channel = ch ∧ e.pos = pos)).map (·.line)).eraseDups
  let s := s.setMemx { s.memx with symEvents := es }
  if 16 ≤ lines.length ∧ pos < 64 ∧ ¬ s.flag F.MEM_CH_ERASE_EN st ch then
    let s := (s.put F.MEM_CH_ERASE_SYMBOL pos st ch).set F.MEM_CH_ERASE_EN st ch
    if s.flag F.ECC_CTRL_REPORT_EN then s.report ⟨0, 0xC, 0, macroId a, pos, a⟩ else s
  else s

/-! ### Memory events (R284, Table 9-6) -/

/-- The counter of a class, for the classes that have one (Table 9-8). -/
def eccCounter (cls : Nat) : Option Fld :=
  [none, some F.ECC_CE_SRAM_CE_SRAM, some F.ECC_CE_HBM_CE_HBM, some F.ECC_CE_RCS_CE_RCS, some F.ECC_UE_SRAM_UE_SRAM,
   some F.ECC_UE_HBM_UE_HBM, some F.ECC_UE_RCS_UE_RCS, some F.ECC_POISON_MERGE_POISON_MERGE,
   some F.ECC_POISON_READ_POISON_READ, some F.ECC_UNINIT_READ_UNINIT_READ].getD cls none

/-- The severity of a class (Table 9-6); a poison read of a table of R268 is of the highest. -/
def eccSeverity (cls : Nat) (table : Bool) : Nat :=
  if cls = 0xB ∨ (cls = 0x8 ∧ table) then 2 else if 4 ≤ cls ∧ cls ≤ 8 then 1 else 0

/-- Count, capture and report a memory event. -/
def State.memEvent (s : State) (cls : Nat) (table : Bool) (a pos : Nat) : State :=
  let s := match eccCounter cls with
    | some f => s.count f
    | none => s
  let n := cls - 1
  let s := if s.flag F.ECC_FIRST_STATUS_VALID 0 n then s else
    s.putAll 0 n [(F.ECC_FIRST_STATUS_VALID, 1), (F.ECC_FIRST_STATUS_SYNDROME, pos), (F.ECC_FIRST_STATUS_SOURCE, macroId a),
      (F.ECC_FIRST_ADDR_LO_ADDR, a), (F.ECC_FIRST_ADDR_HI_ADDR, a / 2 ^ 32)]
  if s.flag F.ECC_CTRL_REPORT_EN then s.report ⟨0, cls, eccSeverity cls table, macroId a, pos, a⟩ else s

/-- The class of a CE or UE of a memory (Table 9-6). -/
def ceClass : MemKind → Nat
  | .sram => 1
  | .hbm => 2
  | .rcs => 3

/-- A CE at a word: counted, reported, against its row and column, or for HBM its symbol (R263, R277 to R279). -/
def State.ceEvent (s : State) (k : MemKind) (a pos : Nat) : State :=
  let s := s.memEvent (ceClass k) false a pos
  match k with
  | .sram => (s.rowEvent a 1).colEvent a pos
  | .hbm => (s.rowEvent a 1).symEvent a pos
  | .rcs => s

/-- Mark or unmark a word. -/
def State.setChk (s : State) (w : Nat) (c : Option WordChk) : State :=
  s.setMemx { s.memx with chk := match c with
    | some x => Tab.set s.memx.chk w x
    | none => Tab.erase s.memx.chk w }

/-- What a word holds besides good data. -/
def State.chkOf (s : State) (w : Nat) : Option WordChk := Tab.find s.memx.chk w

/-- Is a word poisoned, or would a read find it so (R267)? -/
def State.badWord (s : State) (w : Nat) : Bool :=
  match s.chkOf w with
  | some (.ue _) => true
  | some .poison => true
  | _ => false

/-- Does a read of n bytes at a return the poison response? -/
def State.poisoned (s : State) (a n : Nat) : Bool :=
  s.memx.chk.any (fun x => s.badWord x.1 && (match memKind x.1 with
    | some k => decide (x.1 < a + n ∧ a < x.1 + wordBytes k)
    | none => false))

/-- Does the erased symbol of the channel alone explain an error (R264)? -/
def State.erasedOnly (s : State) (k : MemKind) (a pos : Nat) : Bool :=
  k = .hbm && s.flag F.MEM_CH_ERASE_EN (stackOf a) (channelOf a) && s.get F.MEM_CH_ERASE_SYMBOL (stackOf a) (channelOf a) = pos

/-- The HBM class of an access is counted in units of 64 bytes (Table 9-9). -/
def State.hbmCount (s : State) (k : MemKind) (a cls : Nat) : State :=
  if k = .hbm then s.count F.MEM_CH_BYTES_BYTES 1 (stackOf a) (4 * channelOf a + cls) else s

/-- An access finds an upset in its word: the upset joins what the word held, the older finding first (R261). What an uncorrectable one
made of the word are as many bytes as the word has. -/
def State.upset (s : State) (w : Nat) (u : Upset) : State :=
  match s.chkOf w, u with
  | none, .correctable p => s.setChk w (some (.ce p))
  | none, .uncorrectable p bs => (s.setChk w (some (.ue p))).setBytes w (bs.take (((memKind w).map wordBytes).getD 0))
  | _, .onDie => s.count F.MEM_CH_ODECC_ODECC 1 (stackOf w) (channelOf w)
  | _, _ => s

/-- Read a word (R263, R264, R267): correct and write back a CE, poison a UE, answer the poison response of a poisoned word. -/
def State.readWord (s : State) (k : MemKind) (w : Nat) (table : Bool) : Bool × State :=
  match s.chkOf w with
  | none => (false, s)
  | some (.ce p) =>
    if s.erasedOnly k w p then (false, s.count F.MEM_CH_ERASE_HITS_HITS 1 (stackOf w) (channelOf w))
    else (false, (s.setChk w none).ceEvent k w p)
  | some (.ue p) =>
    let s := (s.memEvent (ceClass k + 3) false w p)
    let s := if k = .rcs then s else (s.setChk w (some .poison)).rowEvent w 2
    (true, s)
  | some .poison => (true, s.memEvent 8 table w 0)

/-- The injected corruption of R285's ECC_INJ strikes the next write to its address. -/
def State.injected (s : State) (k : MemKind) (a n w : Nat) : State :=
  let t := s.get F.ECC_INJ_ADDR_LO_ADDR + s.get F.ECC_INJ_ADDR_HI_ADDR * 2 ^ 32
  if s.flag F.ECC_INJ_ARM ∧ a ≤ t ∧ t < a + n ∧ wordOf k t = w then
    let (p, s) := s.freshNat
    let s := s.clr F.ECC_INJ_ARM
    match s.get F.ECC_INJ_KIND with
    | 0 => s.setChk w (some (.ce (p % 72)))
    | 1 => s.setChk w (some (if k = .hbm then .ce (p % 68) else .ue (p % 256)))
    | 2 => s.setChk w (some (.ue (p % 256)))
    | _ => s.setChk w (some .poison)
  else s

/-- Write a whole word: new check bits, no read, no report (R269). -/
def State.writeFull (s : State) (k : MemKind) (w : Nat) (bs : List Byte) : State :=
  ((s.setChk w none).setBytes w bs).injected k w bs.length w

/-- Write part of a word (R270). -/
def State.writePart (s : State) (k : MemKind) (a : Nat) (bs : List Byte) : State :=
  let w := wordOf k a
  let s := match s.chkOf w with
    | none => s
    | some (.ce p) => (s.setChk w none).ceEvent k w p
    | some _ => ((s.setChk w (some .poison)).memEvent 7 false w 0).rowEvent w 2
  (s.setBytes a bs).injected k a bs.length w

/-- Do n bytes at a overlap the word w? -/
def overlapsWord (a n w : Nat) : Bool :=
  match memKind w with
  | some k => decide (w < a + n ∧ a < w + wordBytes k)
  | none => false

/-- A store of any length by a unit of the device: whole words are written in full (R269), the words at its ends in part (R270). -/
def State.store (s : State) (a : Nat) (bs : List Byte) : State :=
  let n := bs.length
  let hit := (s.memx.chk.filter (fun x => overlapsWord a n x.1)).map (·.1)
  let s := hit.foldl (fun s w =>
    match memKind w with
    | none => s
    | some k =>
      if a ≤ w ∧ w + wordBytes k ≤ a + n then s.setChk w none
      else
        match s.chkOf w with
        | some (.ce p) => (s.setChk w none).ceEvent k w p
        | some _ => ((s.setChk w (some .poison)).memEvent 7 false w 0).rowEvent w 2
        | none => s) s
  let s := s.setBytes a bs
  match memKind a with
  | some k => s.injected k a n (wordOf k (s.get F.ECC_INJ_ADDR_LO_ADDR + s.get F.ECC_INJ_ADDR_HI_ADDR * 2 ^ 32))
  | none => s

/-- A load of any length by a unit of the device: corrects what it finds (R263) and answers whether a word was poisoned (R267). -/
def State.load (s : State) (a n : Nat) : Bool × State :=
  ((s.memx.chk.filter (fun x => overlapsWord a n x.1)).map (·.1)).foldl (fun (acc : Bool × State) w =>
    match memKind w with
    | none => acc
    | some k => let (p, s) := acc.2.readWord k w false; (acc.1 || p, s)) (false, s)

/-- Mark every word that n bytes at a touch as poisoned (R305). -/
def State.poisonRange (s : State) (a n : Nat) : State :=
  match memKind a with
  | none => s
  | some k =>
    let w := wordOf k a
    let last := wordOf k (a + max 1 n - 1)
    (List.range ((last - w) / wordBytes k + 1)).foldl (fun s i => s.setChk (w + i * wordBytes k) (some .poison)) s

/-- Start priority initialisation of the granule of a write to a line that is not ready (R274). -/
def State.priority (s : State) (a : Nat) : State :=
  let st := stackOf a
  let g := granuleOf a
  let q := Tab.get [] s.memx.prio st
  if s.flag F.MEM_INIT_PRIORITY st then
    if s.get F.MEM_INIT_GRANULE st = g ∨ g ∈ q then s else s.setMemx { s.memx with prio := Tab.set s.memx.prio st (q ++ [g]) }
  else if s.get F.MEM_INIT_GRANULE st = g then s.set F.MEM_INIT_PRIORITY st
  else
    let s := s.setMemx { s.memx with paused := Tab.set s.memx.paused st (s.get F.MEM_INIT_GRANULE st, s.get F.MEM_INIT_PTR st) }
    ((s.put F.MEM_INIT_GRANULE g st).put F.MEM_INIT_PTR 0 st).set F.MEM_INIT_PRIORITY st

/-- A write that lies within one word. -/
def State.writeWithin (s : State) (k : MemKind) (a : Nat) (bs : List Byte) : State :=
  if bs.length = wordBytes k ∧ a % wordBytes k = 0 then s.writeFull k a bs else s.writePart k a bs

/-- Does an access wait: its stack sleeps, or a write finds its line not ready, or a read stands behind such a write (R274, R275,
R445)? -/
def State.memWaits (s : State) (k : MemKind) (a : Nat) (write : Bool) : Bool :=
  k = .hbm && (s.stackAsleep (stackOf a) || (write && !s.lineReady a) ||
    s.memx.waiting.any (fun x => match x with
      | .write b _ => wordOf .hbm b = wordOf .hbm a
      | .read b => s.stackAsleep (stackOf b) && wordOf .hbm b = wordOf .hbm a))

/-- An access starts the wake of a stack in SLEEP; during a transition the wake takes the pending slot (R445, R450). -/
def State.stackWake (s : State) (st : Nat) : State :=
  let d := stackDomain st
  if ¬ s.stackAsleep st ∨ s.flag F.PWR_DOM_STATE_WAKING 0 d then s
  else if s.flag F.PWR_DOM_STATE_ENTERING 0 d then s.putAll 0 d [(F.PWR_DOM_STATE_PENDING_VALID, 1), (F.PWR_DOM_STATE_PENDING, 0)]
  else s.putAll 0 d [(F.PWR_DOM_STATE_TARGET, 0), (F.PWR_DOM_STATE_WAKING, 1)]

/-- Put an access on the waiting list; one to a stack in SLEEP starts its wake. -/
def State.memWait (s : State) (x : MemAccess) : State :=
  (s.setMemx { s.memx with waiting := s.memx.waiting ++ [x] }).stackWake (stackOf (match x with
    | .read a => a
    | .write a _ => a))

/-- Read the word of an address and answer it (R263, R267, R273). -/
def State.memRead (s : State) (k : MemKind) (a : Nat) (table : Bool) : State :=
  let w := wordOf k a
  if k = .hbm ∧ ¬ s.lineReady a then
    (s.memEvent 9 false a 0).send (.memData w (List.replicate 64 0) false true)
  else
    let (p, s) := s.readWord k w table
    s.send (.memData w (s.bytes w (wordBytes k)) p false)

/-- Perform the waiting accesses that wait no longer, in the order of arrival. -/
def State.memResume (s : State) : State :=
  let ws := s.memx.waiting
  ws.foldl (fun s x =>
    match x with
    | .write b bs => if s.memWaits .hbm b true then s.memWait x else s.writeWithin .hbm b bs
    | .read b => if s.memWaits .hbm b false then s.memWait x else s.memRead .hbm b false) (s.setMemx { s.memx with waiting := [] })

/-- Move the init engine on from the granule it has ended (R272, R274). -/
def State.initNext (s : State) (st : Nat) : State :=
  match Tab.get [] s.memx.prio st with
  | g :: q =>
    let s := s.setMemx { s.memx with prio := Tab.set s.memx.prio st q }
    ((s.put F.MEM_INIT_GRANULE g st).put F.MEM_INIT_PTR 0 st).set F.MEM_INIT_PRIORITY st
  | [] =>
    match Tab.find s.memx.paused st with
    | some (g, p) =>
      let s := s.setMemx { s.memx with paused := Tab.erase s.memx.paused st }
      ((s.put F.MEM_INIT_GRANULE g st).put F.MEM_INIT_PTR p st).clr F.MEM_INIT_PRIORITY st
    | none =>
      let s := s.clr F.MEM_INIT_PRIORITY st
      match (List.range 36).find? (fun g => !s.granReady st g) with
      | some g => (s.put F.MEM_INIT_GRANULE g st).put F.MEM_INIT_PTR 0 st
      | none => s.set F.MEM_STATUS_INIT_DONE st

/-- The init engine of a trained stack passes the end of its granule: it becomes ready, its bytes zero (R272). -/
def State.granuleReady (s : State) (st : Nat) : State :=
  if s.flag F.MEM_STATUS_TRAINED st ∧ ¬ s.flag F.MEM_STATUS_INIT_DONE st then
    ((s.setGranReady st (s.get F.MEM_INIT_GRANULE st)).initNext st).memResume
  else s

/-! ### Error records as Steol reads them (R501) -/

/-- Steol writes a 64-byte record of the persistent fault log: the error record and its own commit word (Table 18-8). -/
def State.logWrite (s : State) (ws : List Nat) : State :=
  let n := s.memx.logNext
  let a := rcsBase + 0x80000 + n * 64
  let s := s.setWords a (ws ++ [0xC04417, n, crc32 (ws.flatMap (natLe 4)), 0, 0, 0, 0, 0])
  (s.setMemx { s.memx with logNext := (n + 1) % 16384 }).count F.RCS_PROGRAMS_PROGRAMS 2

/-- Steol reads the oldest record of a queue: it stores it, streams it to the ring ERR_STREAM named for its severity, and for
severity 2 sends ERROR_RECORD and copies it into the fault log. -/
def State.erqRead (s : State) (sev : Nat) : State :=
  if s.erqLevel sev = 0 then s
  else
    let rd := s.get F.ECC_ERQ_RD_RD 0 sev
    let ws := s.words (s.erqAddr sev rd) 8
    let s := (s.put F.ECC_ERQ_RD_RD (rd + 1) 0 sev).erqShow sev
    let s := s.setMemx { s.memx with errStore := s.memx.errStore ++ [(sev, ws)] }
    let s := match s.host.errStream with
      | some (r, mask) =>
        if mask.testBit sev ∧ s.ringHasRoom r ∧ ¬ s.ringDetached r then
          s.ringPutBytes r (fun _ => ws.flatMap (natLe 4) ++ List.replicate 32 0) none
        else s
      | none => s
    if sev = 2 then (s.event (.errorRecord ws)).logWrite ws else s

/-- The report that the eight pushed words make (R499): a severity of 3 is taken as 2. -/
def State.pushed (s : State) : Report :=
  let w (k : Nat) : Nat := s.get F.ECC_ERQ_PUSH_WORD 0 k
  ⟨natBits (w 0) 8 4, natBits (w 0) 0 8, min 2 (natBits (w 0) 12 2), natBits (w 0) 16 16, natBits (w 1) 0 16,
   w 2 + natBits (w 3) 0 16 * 2 ^ 32⟩

/-! ### The meanings -/

/-- MEMORY_READ (R263, R267, R268, R273, R445): a read of the word at an address. -/
def execMemoryRead (addr : BitVec 48) (table : Bool) (hbmClass : Fin 4) (upset : Upset) (s : State) :
    Host.Outcome State Fault Refusal :=
  .next (match memKind addr.toNat with
    | none => s.send .busError
    | some k =>
      if s.memWaits k addr.toNat false then s.memWait (.read addr.toNat)
      else ((s.upset (wordOf k addr.toNat) upset).hbmCount k addr.toNat hbmClass).memRead k addr.toNat table)

/-- FULL_WORD_WRITE (R269): a write of every byte of a word; the record store takes no such write (R258). -/
def execFullWordWrite (addr : BitVec 48) (data : List Byte) (hbmClass : Fin 4) (s : State) :
    Host.Outcome State Fault Refusal :=
  .next (match memKind addr.toNat with
    | none => s.send .busError
    | some .rcs => s.send .busError
    | some k =>
      if data.length = wordBytes k ∧ addr.toNat % wordBytes k = 0 then
        if s.memWaits k addr.toNat true then (s.memWait (.write addr.toNat data)).priority addr.toNat
        else (s.hbmCount k addr.toNat hbmClass).writeFull k addr.toNat data
      else s)

/-- PARTIAL_WRITE (R270): a write of some bytes of a word, which the memory reads first. -/
def execPartialWrite (addr : BitVec 48) (data : List Byte) (hbmClass : Fin 4) (upset : Upset) (s : State) :
    Host.Outcome State Fault Refusal :=
  .next (match memKind addr.toNat with
    | none => s.send .busError
    | some .rcs => s.send .busError
    | some k =>
      if data.length < wordBytes k ∧ 0 < data.length ∧ wordOf k (addr.toNat + data.length - 1) = wordOf k addr.toNat then
        if s.memWaits k addr.toNat true then (s.memWait (.write addr.toNat data)).priority addr.toNat
        else ((s.upset (wordOf k addr.toNat) upset).hbmCount k addr.toNat hbmClass).writePart k addr.toNat data
      else s)

/-- GRANULE_READY (R272, R274). -/
def execGranuleReady (stack : Fin 4) (s : State) : Host.Outcome State Fault Refusal := .next (s.granuleReady stack)

/-- ERROR_REPORT (R499 to R502): a block reports an error. -/
def execErrorReport (kind cls sev id detail addr : Nat) (s : State) : Host.Outcome State Fault Refusal :=
  .next (s.report ⟨kind % 16, cls % 256, min 2 sev, id % 2 ^ 16, detail % 2 ^ 16, addr % 2 ^ 48⟩)

/-- ECC_ERQ_PUSH_GO (R499): Steol submits the pushed words. -/
def execEccErqPushGo (s : State) : Host.Outcome State Fault Refusal := .next (s.report s.pushed)

/-- Advance RD by a write of v (R501): forward only and never past WR. -/
def State.erqAdvance (s : State) (sev v : Nat) : State :=
  let rd := s.get F.ECC_ERQ_RD_RD 0 sev
  if (v + 2 ^ 16 - rd) % 2 ^ 16 ≤ s.erqLevel sev then (s.put F.ECC_ERQ_RD_RD v 0 sev).erqShow sev else s

/-- ERQ_RD_WRITE (R501). -/
def execErqRdWrite (sev : Fin 3) (value : BitVec 16) (s : State) : Host.Outcome State Fault Refusal :=
  .next (s.erqAdvance sev value.toNat)

/-- ERROR_RECORD_READ (R501). -/
def execErrorRecordRead (sev : Fin 3) (s : State) : Host.Outcome State Fault Refusal := .next (s.erqRead sev)

end Sys2Proof.Machine
end

