-- ==== Sys2Proof/Machine/Units.lean ====
section
/-!
DEFINITION. Sys2Proof/Machine/Units.lean: the replicated units of 01_architecture.md: executor classes and indices (R25, Table
4-14), which physical unit stands behind a logical one (R17, R18, R156, R217, R565, R566), and the power domain it lies in
(Table 15-1).
-/
namespace Sys2Proof.Machine

/-- Executor classes in CLASS order (Table 4-1): VSC, LDD, CEN, TRD, PLD, FXE, MDE, BWA, PRD, HCE. -/
def classActive (c : Nat) : Nat := [192, 32, 16, 8, 8, 32, 24, 16, 8, 16].getD c 0

/-- Bench units of a class (Table 1-1). -/
def classBench (c : Nat) : Nat := [24, 2, 1, 1, 1, 2, 2, 1, 1, 1].getD c 0

/-- First executor index of a class (Table 4-14). -/
def classBase (c : Nat) : Nat := [0, 192, 224, 240, 248, 256, 288, 312, 328, 336].getD c 352

/-- The bench unit b of class c, numbered after the executors of Table 4-14 (MODEL's own numbering): VSC bench of cluster b at
352 + b, engine bench b at 376 + 4 c + b. -/
def benchExec (c b : Nat) : Nat := if c = 0 then 352 + b else 376 + 4 * c + b

/-- The class of an executor. -/
def execClass (e : Nat) : Nat :=
  if 376 ≤ e then (e - 376) / 4
  else if 352 ≤ e then 0
  else ((List.range 10).filter (fun c => classBase c ≤ e)).foldl max 0

/-- The class-local index of an executor; a bench unit follows the active ones (R217). -/
def execLocal (e : Nat) : Nat :=
  if 376 ≤ e then classActive ((e - 376) / 4) + (e - 376) % 4
  else if 352 ≤ e then 192 + (e - 352)
  else e - classBase (execClass e)

/-- The register instance of an engine: class c (1 to 9), index k within the type. -/
def engInst (c k : Nat) : Nat := engBases.getD (c - 1) 0 + k

/-- The engine class of a register instance. -/
def engClass (i : Nat) : Nat := (engBases.filter (· ≤ i)).length

/-- Physical engines of a class by row (Table 1-2). -/
def engRows (c : Nat) : List Nat :=
  [[], [9, 9, 8, 8], [5, 4, 4, 4], [3, 2, 2, 2], [2, 3, 2, 2], [8, 8, 9, 9], [7, 7, 6, 6], [4, 4, 5, 4], [2, 2, 2, 3],
   [4, 4, 4, 5]].getD c []

/-- Physical engines of a class. -/
def engCount (c : Nat) : Nat := (engRows c).foldl (· + ·) 0

/-- The row of physical engine p, numbered row by row (log entry 9). -/
def rowOfPhys : List Nat → Nat → Nat
  | [], _ => 0
  | n :: ns, p => if p < n then 0 else 1 + rowOfPhys ns (p - n)

/-- The row of the physical engine behind an instance (R17, R217). -/
def State.engRow (s : State) (c k : Nat) : Nat := rowOfPhys (engRows c) (s.get F.T_CTRL_MAP_PHYS (engInst c k))

/-- Position of the core behind slot sl of cluster c, 0xF for none (R565). -/
def State.sclPos (s : State) (c sl : Nat) : Nat := s.get F.SCL_MAP_SLOT c / 16 ^ sl % 16

/-- The cluster whose bench core is lent to logical core l, if any (R566). -/
def State.lender (s : State) (l : Nat) : Option Nat :=
  (s.scl.lends.find? (fun p => p.2 = l)).map (·.1)

/-- The cluster a logical core runs in and the VSC instance that does its work: its own slot, or the bench core lent to it
(R156); none while no core stands behind it (R565). -/
def State.coreOf (s : State) (l : Nat) : Option (Nat × Nat) :=
  match s.lender l with
  | some n => some (n, 192 + n)
  | none => if s.sclPos (l / 8) (l % 8) = 0xF then none else some (l / 8, l)

/-- The VSC instance of an executor (R156). -/
def State.vscInst (s : State) (e : Nat) : Option Nat :=
  if e < 192 then (s.coreOf e).map (·.2) else if 352 ≤ e ∧ e < 376 then some (192 + (e - 352)) else none

/-- The core position behind a VSC instance within its cluster (R156, R565). -/
def State.vscPos (s : State) (k : Nat) : Nat :=
  if 192 ≤ k then s.get F.SCL_STATUS_BENCH_POS (k - 192) else s.sclPos (k / 8) (k % 8)

/-- The cluster of a VSC instance. -/
def vscCluster (k : Nat) : Nat := if 192 ≤ k then k - 192 else k / 8

/-- The power domain of an executor: cluster 0 to 23 or row 24 to 27 (Table 15-1). -/
def State.execDomain (s : State) (e : Nat) : Option Nat :=
  if e < 192 then (s.coreOf e).map (·.1)
  else if 352 ≤ e ∧ e < 376 then some (e - 352)
  else some (24 + s.engRow (execClass e) (execLocal e))

/-! ### Power state of a domain (Table 15-2) -/

/-- The present state code of a domain. -/
def State.domState (s : State) (d : Nat) : Nat := s.get F.PWR_DOM_STATE_STATE 0 d

/-- Do the executors of a domain accept dispatches (R442): RUN, TRIM or DOZE, also during a change into or out of TRIM and
during a wake from DOZE; not from step 1 of an entry on (Table 15-3). -/
def State.domFree (s : State) (d : Nat) : Bool :=
  decide (s.domState d ≤ 2) && (!(s.flag F.PWR_DOM_STATE_ENTERING 0 d) || decide (s.get F.PWR_DOM_STATE_TARGET 0 d ≤ 1))

/-- Does GDX take the domain as in TRIM (R442): in it, or changing into or out of it? -/
def State.domTrim (s : State) (d : Nat) : Bool :=
  s.domState d = 1 || ((s.flag F.PWR_DOM_STATE_ENTERING 0 d || s.flag F.PWR_DOM_STATE_WAKING 0 d) &&
    s.get F.PWR_DOM_STATE_TARGET 0 d = 1 && decide (s.domState d ≤ 2))

/-! ### Executors -/

/-- An executor's record; one that nothing names is idle. -/
def State.exec (s : State) (e : Nat) : Exec := Tab.get ⟨none, none, false, 0⟩ s.gdx.execs e

/-- Store the dispatcher. -/
def State.setGdx (s : State) (g : Gdx) : State := { s with gdx := g }

/-- Store an executor's record. -/
def State.setExec (s : State) (e : Nat) (x : Exec) : State := s.setGdx { s.gdx with execs := Tab.set s.gdx.execs e x }

/-- Is an executor in service: not removed from dispatch, and with a unit behind it (R143, R565)? -/
def State.execInService (s : State) (e : Nat) : Bool := !(s.exec e).out && (s.execDomain e).isSome

/-- Is an executor busy? -/
def State.execBusy (s : State) (e : Nat) : Bool := (s.exec e).node.isSome

/-- Is an executor free (R128, R442)? -/
def State.execFree (s : State) (e : Nat) : Bool :=
  s.execInService e && !s.execBusy e && (match s.execDomain e with | some d => s.domFree d | none => false)

/-- The executors of a class (Table 4-14). -/
def classExecs (c : Nat) : List Nat := (List.range (classActive c)).map (classBase c + ·)

/-- Free executors of a class (R28). -/
def State.freeCount (s : State) (c : Nat) : Nat := ((classExecs c).filter s.execFree).length

/-- Executors of a class removed from dispatch (Table 4-19). -/
def State.outCount (s : State) (c : Nat) : Nat := ((classExecs c).filter (fun e => (s.exec e).out)).length

end Sys2Proof.Machine
end

