-- ==== Sys2Proof/Machine/Bmv.lean ====
section
/-!
DEFINITION. Sys2Proof/Machine/Bmv.lean: the block-mover channels of 10_block_movers.md: shadow and active sets, credit, bursts,
completion, retries, halts, stopping and release.  The meanings of their rows are in BmvCmd.lean.
-/
namespace Sys2Proof.Machine

/-- A channel beside its registers. -/
def State.bch (s : State) (e k : Nat) : BmvCh := Tab.get ⟨0, [], [], false⟩ s.exu.bmv (e, k)

/-- Store the executors' units. -/
def State.setExu (s : State) (x : Exu) : State := { s with exu := x }

/-- Store a channel. -/
def State.setBch (s : State) (e k : Nat) (c : BmvCh) : State := s.setExu { s.exu with bmv := Tab.set s.exu.bmv (e, k) c }

/-- STATE of a channel: 0 IDLE, 1 BUSY, 2 HALTED, 3 STOPPING. -/
def State.bmvState (s : State) (e k : Nat) : Nat := s.get F.BMV_CH_STATUS_STATE e k

/-- Set STATE. -/
def State.setBmvState (s : State) (e k v : Nat) : State := s.put F.BMV_CH_STATUS_STATE v e k

/-- Source of the active set. -/
def State.actSrc (s : State) (e k : Nat) : Nat := s.get F.BMV_ACT_SRC_LO_ADDR e k + s.get F.BMV_ACT_SRC_HI_ADDR e k * 2 ^ 32

/-- Destination of the active set. -/
def State.actDst (s : State) (e k : Nat) : Nat := s.get F.BMV_ACT_DST_LO_ADDR e k + s.get F.BMV_ACT_DST_HI_ADDR e k * 2 ^ 32

/-- BURST of the active set in bytes (Table 10-6). -/
def State.burstBytes (s : State) (e k : Nat) : Nat := 128 * 2 ^ s.get F.BMV_ACT_CFG_BURST e k

/-- The share n of a channel that is BUSY or holds SH_VALID, 0 for another (R300). -/
def State.shareOf (s : State) (e k : Nat) : Nat :=
  if s.bmvState e k = 1 then s.get F.BMV_ACT_CFG_SHARE e k + 1
  else if s.flag F.BMV_CH_STATUS_SH_VALID e k then s.get F.BMV_SH_CFG_SHARE e k + 1
  else 0

/-- Keep SHARE_SUM, and set OVERCOMMIT above 256 (R300). -/
def State.shareShow (s : State) (e : Nat) : State :=
  let sum := ((List.range 8).map (s.shareOf e)).foldl (· + ·) 0
  let s := s.put F.BMV_ENG_STATUS_SHARE_SUM sum e
  if 256 < sum then s.set F.BMV_ENG_STATUS_OVERCOMMIT e else s

/-- Is a channel one of a system engine (R288)? -/
def bmvSystem (e : Nat) : Bool := decide (24 ≤ e)

/-- The run that holds a channel: its position and node instance (R290). -/
def State.bmvHeld (s : State) (e k : Nat) : Bool := s.flag F.BMV_CH_OWNER_HELD e k

/-- Copy the shadow set to the active set and start it (R293, R299). -/
def State.bmvLoad (s : State) (e k : Nat) : State :=
  let cp (s : State) (a b : Reg) : State := s.wr ⟨b, e, k⟩ (s.rd ⟨a, e, k⟩)
  let s := cp (cp (cp (cp s .BMV_SH_SRC_LO .BMV_ACT_SRC_LO) .BMV_SH_SRC_HI .BMV_ACT_SRC_HI) .BMV_SH_DST_LO .BMV_ACT_DST_LO)
    .BMV_SH_DST_HI .BMV_ACT_DST_HI
  let s := cp (cp (cp s .BMV_SH_LEN .BMV_ACT_LEN) .BMV_SH_CFG .BMV_ACT_CFG) .BMV_SH_FILL .BMV_ACT_FILL
  let s := s.putAll e k [(F.BMV_CH_STATUS_SH_VALID, 0), (F.BMV_CH_STATUS_STATE, 1), (F.BMV_CH_STATUS_RETRIES, 0),
    (F.BMV_CH_REMAINING_REMAINING, s.get F.BMV_ACT_LEN_LEN e k), (F.BMV_CH_DONE_BYTES_DONE_BYTES, 0)]
  s.setBch e k ⟨2 * s.burstBytes e k, [], [], false⟩

/-- Do two ranges of n bytes overlap? -/
def rangesMeet (a b n : Nat) : Bool := decide (a < b + n ∧ b < a + n)

/-- Does the channel refuse a GO of its shadow set (R294)? -/
def State.bmvRefuses (s : State) (e k : Nat) : Bool :=
  let len := s.get F.BMV_SH_LEN_LEN e k
  let mode := s.get F.BMV_SH_CFG_MODE e k
  let src := s.get F.BMV_SH_SRC_LO_ADDR e k + s.get F.BMV_SH_SRC_HI_ADDR e k * 2 ^ 32
  let dst := s.get F.BMV_SH_DST_LO_ADDR e k + s.get F.BMV_SH_DST_HI_ADDR e k * 2 ^ 32
  len = 0 || mode = 3 || s.get F.BMV_SH_CFG_BURST e k = 3 || ((mode = 0 || mode = 2) && rangesMeet src dst len) ||
  decide (32 < s.get F.BMV_SH_CFG_REQ_SEL e k) ||
  (!bmvSystem e && (s.flag F.BMV_SH_CFG_CYCLIC e k || s.flag F.BMV_SH_CFG_REQ_SEL e k))

/-- GO (R293, R294): refuse it, ignore it while a set waits, start an idle channel, or leave the set waiting. -/
def State.bmvGo (s : State) (e k : Nat) : State :=
  if s.flag F.BMV_CH_STATUS_SH_VALID e k then s.set F.BMV_CH_STATUS_SH_BUSY e k
  else if s.bmvRefuses e k then s.set F.BMV_CH_STATUS_REFUSED e k
  else
    let s := s.putAll e k [(F.BMV_CH_STATUS_ERR, 0), (F.BMV_CH_ERR_SRC_LO_ERR_SRC, 0), (F.BMV_CH_ERR_DST_LO_ERR_DST, 0),
      (F.BMV_CH_ERR_HI_ERR_SRC_HI, 0), (F.BMV_CH_ERR_HI_ERR_DST_HI, 0), (F.BMV_CH_ERR_LEN_ERR_LEN, 0)]
    let s := if s.bmvState e k = 0 then s.bmvLoad e k else s.set F.BMV_CH_STATUS_SH_VALID e k
    s.shareShow e

/-- The interrupt of a system channel (R308). -/
def State.bmvIrq (s : State) (e k : Nat) (en : Fld) : State :=
  if bmvSystem e ∧ s.flag en e k then
    if s.flag F.BMV_CH_INTDEST_STEWARD e k then s.send (.stewardIrq e k) else s.send (.msix (s.get F.BMV_CH_INTDEST_VECTOR e k))
  else s

/-- Set HALF or DONE, with OVERRUN if it is already 1 (R308). -/
def State.bmvFlag (s : State) (e k : Nat) (f : Fld) : State :=
  let s := if s.flag f e k then s.set F.BMV_CH_STATUS_OVERRUN e k else s
  s.set f e k

/-- A channel becomes IDLE with its shadow set discarded. -/
def State.bmvIdle (s : State) (e k : Nat) : State :=
  (s.putAll e k [(F.BMV_CH_STATUS_STATE, 0), (F.BMV_CH_STATUS_SH_VALID, 0), (F.BMV_CH_STATUS_WAIT_REQ, 0)]).setBch e k ⟨0, [], [], false⟩

/-- Halt a channel with an error code and its failed burst (R303, R304). -/
def State.bmvHalt (s : State) (e k err : Nat) (b : Burst) : State :=
  let src := s.actSrc e k + b.off
  let dst := s.actDst e k + b.off
  let s := s.putAll e k [(F.BMV_CH_STATUS_STATE, 2), (F.BMV_CH_STATUS_ERR, err), (F.BMV_CH_ERR_SRC_LO_ERR_SRC, src),
    (F.BMV_CH_ERR_DST_LO_ERR_DST, dst), (F.BMV_CH_ERR_HI_ERR_SRC_HI, src / 2 ^ 32), (F.BMV_CH_ERR_HI_ERR_DST_HI, dst / 2 ^ 32),
    (F.BMV_CH_ERR_LEN_ERR_LEN, b.len), (F.BMV_CH_STATUS_WAIT_REQ, 0)]
  let s := s.setBch e k ⟨0, [], [], false⟩
  (s.bmvIrq e k F.BMV_ACT_CFG_ERR_IE).shareShow e

/-- The next burst of a channel (R296): up to BURST bytes, not across a BURST-aligned destination boundary. -/
def State.nextBurst (s : State) (e k : Nat) : Burst :=
  let rem := s.get F.BMV_CH_REMAINING_REMAINING e k
  let off := s.get F.BMV_ACT_LEN_LEN e k - rem
  let b := s.burstBytes e k
  ⟨off, min rem (b - (s.actDst e k + off) % b), 0⟩

/-- Bursts an engine has outstanding (R298). -/
def State.engOutstanding (s : State) (e : Nat) : Nat :=
  ((List.range 8).map (fun k => (s.bch e k).outst.length)).foldl (· + ·) 0

/-- May a channel reach n bytes at an address (R292): a memory other than the record store, or the host window (Table 20-1)? -/
def bmvReach (a n : Nat) : Bool :=
  (decide (0x800000000000 ≤ a ∧ a + n ≤ 0xC40000000000)) ||
  (match memKind a, memKind (a + max 1 n - 1) with
   | some k, some k' => k = k' && k != .rcs
   | _, _ => false)

/-- Is an address in the host window? -/
def hostAddr (a : Nat) : Bool := decide (0x800000000000 ≤ a)

/-- A write by the device: to memory, or through the host window (R408). -/
def State.devWrite (s : State) (a : Nat) (bs : List Byte) : State :=
  if hostAddr a then s.send (.hostWrite ((a - 0x800000000000) / 0x40000000000) ((a - 0x800000000000) % 0x40000000000) bs)
  else s.store a bs

/-- The bytes a burst reads at an address; host bytes come with the response. -/
def State.devRead (s : State) (a n : Nat) (host : List Byte) : List Byte :=
  if hostAddr a then (host ++ List.replicate n 0).take n else s.bytes a n

/-- The first place at which two byte lists differ. -/
def firstDiff : List Byte → List Byte → Option Nat
  | a :: as, b :: bs => if a = b then (firstDiff as bs).map (· + 1) else some 0
  | _, _ => none

/-- Take burst i out of the bursts under way. -/
def BmvCh.without (c : BmvCh) (i : Nat) : BmvCh := { c with outst := c.outst.eraseIdx i }

/-- What the channel does once its bursts under way are complete: retry a failed burst or halt (R303), end a stop (R307), or
complete the transfer and go on with the shadow set or a cyclic pass (R293, R295, R308, R309). -/
def State.bmvSettle (s : State) (e k : Nat) : State :=
  let c := s.bch e k
  if c.outst ≠ [] then s
  else if s.bmvState e k = 3 then (s.bmvIdle e k).shareShow e
  else if s.bmvState e k ≠ 1 then s
  else
    match c.failed with
    | b :: fs =>
      if b.tries < s.get F.BMV_ACT_CFG_RETRY_MAX e k then
        (s.setBch e k { c with outst := [{ b with tries := b.tries + 1 }], failed := fs }).count F.BMV_CH_STATUS_RETRIES 1 e k
      else s.bmvHalt e k (if s.get F.BMV_CH_REMAINING_REMAINING e k = 0 then 2 else 1) b
    | [] =>
      if s.get F.BMV_CH_REMAINING_REMAINING e k = 0 ∨ c.diff then
        let s := if s.get F.BMV_ACT_CFG_MODE e k = 2 then s.setTo F.BMV_CH_STATUS_MISMATCH c.diff e k else s
        let s := (s.bmvFlag e k F.BMV_CH_STATUS_DONE).bmvIrq e k F.BMV_ACT_CFG_FULL_IE
        let s :=
          if s.flag F.BMV_CH_STATUS_SH_VALID e k then s.bmvLoad e k
          else if s.flag F.BMV_ACT_CFG_CYCLIC e k then
            (s.putAll e k [(F.BMV_CH_REMAINING_REMAINING, s.get F.BMV_ACT_LEN_LEN e k), (F.BMV_CH_DONE_BYTES_DONE_BYTES, 0)]).setBch e k
              ⟨2 * s.burstBytes e k, [], [], false⟩
          else (s.setBmvState e k 0).setBch e k ⟨0, [], [], false⟩
        s.shareShow e
      else s

/-- The response of burst i is complete: its bytes are moved, filled or compared and counted (R295, R308). -/
def State.bmvDeliver (s : State) (e k i : Nat) (b : Burst) (host : List Byte) : State :=
  let src := s.actSrc e k + b.off
  let dst := s.actDst e k + b.off
  let c := s.bch e k
  let s := match s.get F.BMV_ACT_CFG_MODE e k with
    | 0 => s.devWrite dst (s.devRead src b.len host)
    | 1 =>
      let pat := natLe 4 (s.get F.BMV_ACT_FILL_FILL e k)
      s.devWrite dst ((List.range b.len).map (fun j => pat.getD ((b.off + j) % 4) 0))
    | _ =>
      match firstDiff (s.devRead src b.len host) (s.devRead dst b.len (host.drop (if hostAddr src then b.len else 0))) with
      | none => s
      | some j =>
        let o := b.off + j
        s.put F.BMV_CH_CMP_OFFSET_CMP_OFFSET
          (if c.diff then min o (s.get F.BMV_CH_CMP_OFFSET_CMP_OFFSET e k) else o) e k
  let differs := s.get F.BMV_ACT_CFG_MODE e k = 2 ∧
    (firstDiff (s.devRead src b.len host) (s.devRead dst b.len (host.drop (if hostAddr src then b.len else 0)))).isSome
  let s := s.setBch e k { c.without i with diff := c.diff || decide differs }
  let len := s.get F.BMV_ACT_LEN_LEN e k
  let was := s.get F.BMV_CH_DONE_BYTES_DONE_BYTES e k
  let s := s.put F.BMV_CH_DONE_BYTES_DONE_BYTES (was + b.len) e k
  let half := (len + 1) / 2
  let s := if was < half ∧ half ≤ was + b.len then (s.bmvFlag e k F.BMV_CH_STATUS_HALF).bmvIrq e k F.BMV_ACT_CFG_HALF_IE else s
  s.bmvSettle e k

/-- Issue the next burst of a channel (R296, R299, R304). -/
def State.bmvIssue (s : State) (e k : Nat) : State :=
  let b := s.nextBurst e k
  let c := s.bch e k
  let s := s.setBch e k { c with credit := c.credit - 2 * b.len, outst := c.outst ++ [b] }
  let s := s.put F.BMV_CH_REMAINING_REMAINING (s.get F.BMV_CH_REMAINING_REMAINING e k - b.len) e k
  (s.count F.BMV_ENG_BYTES_BYTES ((b.len + 127) / 128) e).clr F.BMV_CH_STATUS_WAIT_REQ e k

/-- Stop a BUSY channel (R307): nothing more issues, and it becomes IDLE once its bursts are complete. -/
def State.bmvStop (s : State) (e k : Nat) : State :=
  if s.bmvState e k = 1 then
    let c := s.bch e k
    ((s.setBmvState e k 3).setBch e k { c with failed := [], diff := false }).bmvSettle e k
  else s

/-- Release a channel (R311): it reads IDLE, unheld, with its run flags cleared. -/
def State.bmvRelease (s : State) (e k : Nat) : State :=
  ((s.bmvIdle e k).putAll e k [(F.BMV_CH_OWNER_HELD, 0), (F.BMV_CH_STATUS_HALF, 0), (F.BMV_CH_STATUS_DONE, 0),
    (F.BMV_CH_STATUS_OVERRUN, 0), (F.BMV_CH_STATUS_MISMATCH, 0), (F.BMV_CH_STATUS_POISON, 0)]).shareShow e

/-- The channels that a run at a position holds. -/
def State.bmvOf (s : State) (e pos node : Nat) : List Nat :=
  (List.range 8).filter (fun k => s.bmvHeld e k && s.get F.BMV_CH_OWNER_POS e k = pos && s.get F.BMV_CH_OWNER_NODE_INST_ID e k = node)

/-- Does the field repair map hold a kind-3 entry for a unit (R485)? -/
def State.repairEntry (s : State) (typ idx : Nat) : Bool := s.memx.repairs.any (fun r => r.kind = 3 && r.macroId = typ * 2048 + idx)

/-- Units that the field repair map retires (R486), by unit id of Table 17-2: by an entry of their own, or with their cluster or row
(R494). -/
def State.retired (s : State) (typ idx : Nat) : Bool :=
  s.repairEntry typ idx ||
  (if typ = 0 ∨ typ = 2 ∧ idx / 9 < 24 then s.repairEntry 16 (idx / 9)
   else if typ = 1 then s.repairEntry 16 idx
   else if 3 ≤ typ ∧ typ ≤ 11 then s.repairEntry 17 (rowOfPhys (engRows (typ - 2)) idx)
   else false)

/-- The slice a map puts behind a channel (R288). -/
def sliceOf (map k : Nat) : Nat := map / 16 ^ k % 16

/-- Is a written map refused (R288)? -/
def State.bmvMapBad (s : State) (e map : Nat) : Bool :=
  let sl := (List.range 8).map (sliceOf map)
  sl.any (fun x => decide (8 < x) || s.retired 2 (e * 9 + x)) || decide (sl.eraseDups.length ≠ 8) ||
  s.flag F.BMV_ENG_STATUS_MAP_PENDING e

/-- Put the slices of a pending map behind every channel that is idle and unheld, when the new slice is idle too; the slice left
over is on the bench (R288). -/
def State.bmvMapApply (s : State) (e : Nat) : State :=
  match Tab.find s.exu.bmvMap e with
  | none => s
  | some want =>
    let now := s.get F.BMV_ENG_MAP_MAP e
    let free (k : Nat) : Bool := s.bmvState e k = 0 && !s.bmvHeld e k
    let held := repeatN (fun (h : List Nat) => (List.range 8).filter (fun k => decide (k ∈ h) ||
      h.any (fun j => decide (j ≠ k) && sliceOf now j = sliceOf want k))) 8 ((List.range 8).filter (fun k => !free k))
    let pick (k : Nat) : Nat := if k ∈ held then sliceOf now k else sliceOf want k
    let new := ((List.range 8).map (fun k => pick k * 16 ^ k)).foldl (· + ·) 0
    let s := s.put F.BMV_ENG_MAP_MAP new e
    let swapped := (List.range 8).filter (fun k => sliceOf new k ≠ sliceOf now k)
    let s := swapped.foldl (fun s k => s.clr F.BMV_CH_STATUS_OUT e k) s
    let bench := ((List.range 9).find? (fun x => decide (x ∉ (List.range 8).map (sliceOf new)))).getD 0xF
    let s := s.put F.BMV_ENG_STATUS_BENCH_SLICE bench e
    if new = want then (s.setExu { s.exu with bmvMap := Tab.erase s.exu.bmvMap e }).clr F.BMV_ENG_STATUS_MAP_PENDING e else s

/-- A write of BMV_ENG_MAP by a Steward (R288). -/
def State.bmvMapWrite (s : State) (e map : Nat) : State :=
  if s.bmvMapBad e map then s.set F.BMV_ENG_STATUS_MAP_REFUSED e
  else ((s.setExu { s.exu with bmvMap := Tab.set s.exu.bmvMap e map }).set F.BMV_ENG_STATUS_MAP_PENDING e).bmvMapApply e

end Sys2Proof.Machine
end

