-- ==== Sys2Proof/Machine/Bufs.lean ====
section
/-!
DEFINITION. Sys2Proof/Machine/Bufs.lean: buffer pools (R109, R110, Table 4-4) and the reference counts by which a buffer is freed
once every consumer is done with it (R24).
-/
namespace Sys2Proof.Machine

/-- Address of a buffer pool entry (Table 4-4). -/
def State.poolAddr (s : State) (p : Nat) : Nat := sramBase + s.get F.GDX_BUFPOOL_BASE_BASE + 32 * p

/-- First buffer address of a pool. -/
def State.poolBase (s : State) (p : Nat) : Nat :=
  s.word (s.poolAddr p) + natBits (s.word (s.poolAddr p + 4)) 0 16 * 2 ^ 32

/-- Buffer size of a pool in bytes. -/
def State.poolSize (s : State) (p : Nat) : Nat := natBits (s.word (s.poolAddr p + 8)) 0 18 * 128

/-- Buffers of a pool. -/
def State.poolCount (s : State) (p : Nat) : Nat := natBits (s.word (s.poolAddr p + 12)) 0 20

/-- FREE_COUNT of a pool. -/
def State.poolFree (s : State) (p : Nat) : Nat := natBits (s.word (s.poolAddr p + 20)) 0 20

/-- Store FREE_COUNT and lower LOW_WATER to it (W5, W6 of Table 4-4). -/
def State.setPoolFree (s : State) (p n : Nat) : State :=
  let low := natBits (s.word (s.poolAddr p + 24)) 0 20
  (s.setWord (s.poolAddr p + 20) n).setWord (s.poolAddr p + 24) (min low n)

/-- The n-th index from i on that is not used (fuel bounds the search by the used indices passed). -/
def nthFree (used : List Nat) : Nat → Nat → Nat → Nat
  | 0, i, _ => i
  | fuel + 1, i, n => if i ∈ used then nthFree used fuel (i + 1) n else if n = 0 then i else nthFree used fuel (i + 1) (n - 1)

/-- Take a buffer from a pool with a free one; which of the free buffers it is the spec leaves open (a free value, log entry 3). -/
def State.bufTake (s : State) (p : Nat) : Token × State :=
  let used := (s.gdx.bufUsed.filter (fun x => x.1 = p)).map (·.2)
  let free := s.poolFree p
  let (k, s) := s.freshNat
  let i := nthFree used (used.length + free) 0 (k % max 1 free)
  let s := s.setPoolFree p (free - 1)
  let a := s.poolBase p + i * s.poolSize p
  (⟨a, p, false, 0, 0, 0, .none⟩, s.setGdx { s.gdx with bufUsed := (p, i) :: s.gdx.bufUsed })

/-- Return a buffer of pools 0 to 61 to its pool; pool 62 is never freed (R109). -/
def State.bufReturn (s : State) (p a : Nat) : State :=
  if p < 62 then
    let i := (a - s.poolBase p) / max 1 (s.poolSize p)
    let s := s.setGdx { s.gdx with bufUsed := s.gdx.bufUsed.filter (· ≠ (p, i)) }
    s.setPoolFree p (s.poolFree p + 1)
  else s

/-- References to the buffer of a token. -/
def State.refs (s : State) (t : Token) : Nat := Tab.get 0 s.gdx.bufRefs (t.pool, t.addr)

/-- Set the references of a buffer. -/
def State.setRefs (s : State) (t : Token) (n : Nat) : State :=
  s.setGdx { s.gdx with bufRefs := if n = 0 then Tab.erase s.gdx.bufRefs (t.pool, t.addr)
                                   else Tab.set s.gdx.bufRefs (t.pool, t.addr) n }

/-- One consumer is done with a buffer: it returns to its pool when none is left (R24). -/
def State.bufUnref (s : State) (p a : Nat) : State :=
  let n := Tab.get 0 s.gdx.bufRefs (p, a)
  if n ≤ 1 then (s.setGdx { s.gdx with bufRefs := Tab.erase s.gdx.bufRefs (p, a) }).bufReturn p a
  else s.setGdx { s.gdx with bufRefs := Tab.set s.gdx.bufRefs (p, a) (n - 1) }

/-- Are the inputs of a token still held (R144)?  Static and empty ones always are. -/
def State.stillHeld (s : State) (t : Token) : Bool := t.empty || t.pool = 62 || 0 < s.refs t

end Sys2Proof.Machine
end

