-- ==== Sys2Proof/Machine/Runs.lean ====
section
/-!
DEFINITION. Sys2Proof/Machine/Runs.lean: the start and the end of a run on a core (R170, R181, R182, R185, R186, R311) and of a job
on an engine (R227, R228), and what the end of a run does to the coprocessor's lock (R211, R212).
-/
namespace Sys2Proof.Machine

/-- The run of a VSC instance, if any. -/
def State.core (s : State) (k : Nat) : Option VscCore := Tab.find s.exu.vsc k

/-- Store the run of a VSC instance. -/
def State.setCore (s : State) (k : Nat) (c : VscCore) : State := s.setExu { s.exu with vsc := Tab.set s.exu.vsc k c }

/-- Base of the local memory of the core behind a VSC instance (Table 5-1). -/
def State.localBase (s : State) (k : Nat) : Nat := 0x20800000 + vscCluster k * 0x1000000 + s.vscPos k * 0x80000

/-- Address of its dispatch record (R158). -/
def State.recordAddr (s : State) (k : Nat) : Nat := s.localBase k + 0x7C000

/-- Unit id of Table 17-2 of the core behind a VSC instance. -/
def State.vscUnit (s : State) (k : Nat) : Nat := vscCluster k * 9 + s.vscPos k

/-- Power control. -/
def State.setPwr (s : State) (p : Pwr) : State := { s with pwr := p }

/-- A run, job or dispatch record of a domain has just ended or gone out: auto-doze counts from here (R443). -/
def State.domTouch (s : State) (d : Nat) : State := s.setPwr { s.pwr with idle := Tab.set s.pwr.idle d s.tbu.ticks }

/-! ### The coprocessor's lock -/

/-- The MXC of a cluster beside its registers. -/
def State.mx (s : State) (c : Nat) : Mxc := Tab.get ⟨⟨[], [], [], false, false, false⟩, none, none, false, [], [], [], false, false⟩ s.exu.mxc c

/-- Keep the registers of an MXC at its lock, queue and scoreboard (Table 6-7); the scoreboard holds the destination tiles of the
queued operations (R207). -/
def State.mxShow (s : State) (c : Nat) (m : Mxc) (sb : Nat) : State :=
  s.putAll c 0 [(F.MXC_STATUS_LOCKED, if m.lock.isSome then 1 else 0),
    (F.MXC_STATUS_OWNER_POS, (m.lock.map (·.pos)).getD 0), (F.MXC_OWNER_NODE_INST_ID, (m.lock.map (·.node)).getD 0),
    (F.MXC_STATUS_LAST_POS, (m.last.map (·.pos)).getD 0), (F.MXC_STATUS_LAST_LIVE, if m.live then 1 else 0),
    (F.MXC_STATUS_QDEPTH, m.queue.length), (F.MXC_STATUS_SB, sb),
    (F.MXC_WAITERS_REQ, (m.waiters.map (fun w => 2 ^ w.pos)).foldl (· ||| ·) 0)]

/-- The tiles a descriptor covers (R194). -/
def mdTiles (md : Nat) : List Nat :=
  let n := (natBits md 4 7 + 15) / 16 * ((natBits md 11 7 + 15) / 16)
  (List.range n).map (natBits md 0 4 + ·)

/-- The destination tiles of an operation (R207). -/
def MxOp.dests (o : MxOp) (md : Tab Nat Nat) : List Nat :=
  let m (i : Nat) : List Nat := mdTiles (Tab.get 0 md (i % 8))
  if o.opc = 0x63 ∨ o.opc = 0x65 ∨ o.opc = 0x66 ∨ o.opc = 0x67 then m o.d
  else if o.opc = 0x68 then (if o.x % 2 = 1 then m o.d ++ m o.b else m o.d)
  else if o.opc = 0x6A then [o.d % 16]
  else []

/-- The scoreboard of an MXC: one bit per tile. -/
def Mxc.scoreboard (m : Mxc) : Nat :=
  ((m.queue.flatMap (fun o => o.dests m.st.md)).eraseDups.map (fun t => if t < 16 then 2 ^ t else 0)).foldl (· ||| ·) 0

/-- Store an MXC. -/
def State.setMx (s : State) (c : Nat) (m : Mxc) : State :=
  (s.setExu { s.exu with mxc := Tab.set s.exu.mxc c m }).mxShow c m m.scoreboard

/-- Is a run the owner of the lock? -/
def Mxc.ownedBy (m : Mxc) (pos node : Nat) : Bool :=
  match m.lock with
  | some o => o.pos = pos && o.node = node
  | none => false

/-- The end of a run (R211, R212): its queued operations are dropped, its request withdrawn, the lock released, and its state is no
longer live. -/
def State.mxRunEnd (s : State) (c pos node : Nat) : State :=
  let m := s.mx c
  let own := m.ownedBy pos node
  let lastIs := match m.last with
    | some o => o.pos = pos && o.node = node
    | none => false
  s.setMx c { m with
    queue := if own then [] else m.queue
    lock := if own then none else m.lock
    switched := if own then false else m.switched
    live := m.live && !lastIs
    displaced := m.displaced.filter (· ≠ (pos, node))
    waiters := m.waiters.filter (fun w => decide (w.pos ≠ pos ∨ w.node ≠ node)) }

/-! ### The end of a run -/

/-- LENGTH, FLOW_TAG and USER of the eight OUT_TOKEN entries of a dispatch record (R182, step 4). -/
def State.outWords (s : State) (rec : Nat) : List (Nat × Nat × Nat) :=
  (List.range 8).map (fun j =>
    let w3 := s.word (rec + 0x90 + 16 * j + 12)
    (s.word (rec + 0x90 + 16 * j + 8), natBits w3 0 14, natBits w3 16 16))

/-- Capture the first run end other than OK (R185, R502). -/
def State.vscCapture (s : State) (k code cause reason pc : Nat) : State :=
  if s.flag F.VSC_FAULT_VALID k then s
  else (s.putAll k 0 [(F.VSC_FAULT_CAUSE, cause), (F.VSC_FAULT_CODE, code), (F.VSC_FAULT_VALID, 1), (F.VSC_FAULT_REASON, reason)]).put
    F.VSC_FAULT_PC_PC pc k

/-- A run that has ended reports once its channels are idle, and for END once its MXC operations are complete (R182, R311). -/
def State.vscFinish (s : State) (k : Nat) : State :=
  match s.core k with
  | none => s
  | some c =>
    match c.ending with
    | none => s
    | some r =>
      let cl := vscCluster k
      let pos := s.vscPos k
      let held := s.bmvOf cl pos c.node
      let m := s.mx cl
      if held.all (fun ch => s.bmvState cl ch = 0 && !s.flag F.BMV_CH_STATUS_SH_VALID cl ch) ∧
          (r.code ≠ 0 ∨ ¬ m.ownedBy pos c.node ∨ m.queue = []) then
        let s := held.foldl (fun s ch => s.bmvRelease cl ch) s
        let s := s.mxRunEnd cl pos c.node
        let s := s.clr F.VSC_STATUS_BUSY k
        let x := s.exec c.exec
        let s := s.setExec c.exec { x with done := some ⟨r.code, r.cause, r.reason, s.outWords (s.recordAddr k)⟩ }
        let s := s.setExu { s.exu with vsc := Tab.erase s.exu.vsc k }
        s.domTouch cl
      else s

/-- End a run with a code and cause (R185, R186, R212, R311): capture it, stop its channels, drop its coprocessor work, and report
when they are idle. -/
def State.runEnd (s : State) (k code cause reason addr : Nat) : State :=
  match s.core k with
  | none => s
  | some c =>
    if c.ending.isSome then s
    else
      let cl := vscCluster k
      let pos := s.vscPos k
      let s := s.vscCapture k code cause (if cause = 0x01 ∨ cause = 0x16 ∨ cause = 0x34 then reason else 0) c.pc
      let s := if cause < 0x10 ∨ (0x20 ≤ cause ∧ cause < 0x30) then s
        else if cause < 0x20 then s.report ⟨1, cause, 1, s.vscUnit k, if cause = 0x16 then reason else 0, addr⟩
        else s.report ⟨2, cause, 1, 2048 + cl, if cause = 0x34 then reason else 0, addr⟩
      let s := if cause = 0x15 then s.report ⟨15, 0x01, 1, 0, c.kernel.id, 0⟩ else s
      let s := (s.bmvOf cl pos c.node).foldl (fun s ch =>
        let s := s.clr F.BMV_CH_STATUS_SH_VALID cl ch
        if s.bmvState cl ch = 2 then s.bmvIdle cl ch else s.bmvStop cl ch) s
      let s := s.mxRunEnd cl pos c.node
      let s := s.setCore k { c with ending := some ⟨code, cause, reason⟩ }
      s.vscFinish k

/-- The VSC instance whose run holds a channel (R290). -/
def State.bmvHolder (s : State) (e k : Nat) : Option Nat :=
  (s.exu.vsc.find? (fun x => vscCluster x.1 = e && s.vscPos x.1 = s.get F.BMV_CH_OWNER_POS e k &&
    x.2.node = s.get F.BMV_CH_OWNER_NODE_INST_ID e k)).map (·.1)

/-! ### Starts -/

/-- The injection a unit's next run takes: the set bit of lowest position (R574), as 1, 2, …; 0 for none. -/
def State.injOf (s : State) (bits : List Fld) (i : Nat) : Nat := ((bits.findIdx? (fun f => s.flag f i)).map (· + 1)).getD 0

/-- Start a run on a VSC instance (R170, R181): every register zero but P14, P15 and KMODE. -/
def State.vscStart (s : State) (k e node : Nat) (kn : Kernel) : State :=
  let c : VscCore := {
    exec := e, node := node, kernel := kn, pc := kn.entry, sr := [],
    pr := [(14, s.recordAddr k), (15, s.localBase k)], vr := [], ar := [], qr := [], cb := [], cl := [], lc := [],
    pbind := 0, kmode := if kn.ovfTrap then 1 else 0, flags := 0, rrb := 0, stack := [],
    inj := s.injOf [F.VSC_CTRL_INJ_PARITY, F.VSC_CTRL_INJ_RESIDUE] k, save := none, ending := none }
  (s.setCore k c).putAll k 0 [(F.VSC_STATUS_BUSY, 1), (F.VSC_STATUS_KERNEL_ID, kn.id)]

/-! ### The input buffers of a run -/

/-- The node instance an executor runs. -/
def State.execNode (s : State) (e : Nat) : Option NodeInst :=
  match (s.exec e).node with
  | some n => Tab.find s.gdx.nodes n
  | none => none

/-- Bytes of the buffer of a token: the buffer size of its pool, or its LENGTH for pools 62 and 63 (R109). -/
def State.tokenSize (s : State) (t : Token) : Nat := if t.pool < 62 then s.poolSize t.pool else t.length

/-- The input port of an executor's run in whose buffer an address lies (R186, R228, R305). -/
def State.inputPort (s : State) (e a : Nat) : Option Nat :=
  match s.execNode e with
  | none => none
  | some n => n.tokens.findIdx? (fun t => match t with
    | some t => !t.empty && decide (t.addr ≤ a ∧ a < t.addr + s.tokenSize t)
    | none => false)

end Sys2Proof.Machine
end

