-- ==== Sys2Proof/Machine/BmvCmd.lean ====
section
/-!
DEFINITION. Sys2Proof/Machine/BmvCmd.lean: the meanings of the block-mover commands (10_block_movers.md).
-/
namespace Sys2Proof.Machine

/-- What follows a change of a cluster channel (R307, R311): an error halt ends the holder's run with cause 0x14, and a run that has
ended may now report. -/
def State.bmvAfter (s : State) (e k : Nat) : State :=
  if bmvSystem e then s
  else
    match s.bmvHolder e k with
    | none => s
    | some v =>
      let s := if s.bmvState e k = 2 then s.runEnd v 6 0x14 0 0 else s
      s.vscFinish v

/-- Is a channel idle and held by nobody, so that a pending map may move it (R288)? -/
def State.bmvMapTry (s : State) (e : Nat) : State := if s.flag F.BMV_ENG_STATUS_MAP_PENDING e then s.bmvMapApply e else s

/-- May a requester write a register of a channel (R289, R290): the Stewards, or the run that holds it? -/
def State.bmvMay (s : State) (req : Requester) (e k : Nat) : Bool :=
  match req with
  | .steward => true
  | .vsc v => vscCluster v = e && s.bmvHolder e k = some v && s.bmvHeld e k
  | _ => false

/-- A write that a core must not make is ignored and counted (R289, R290). -/
def State.bmvForeign (s : State) (req : Requester) (e : Nat) : State :=
  match req with
  | .vsc v => if vscCluster v = e then s.count F.BMV_ENG_FOREIGN_WR_FOREIGN_WR 1 e else s
  | _ => s

/-- A claim by the run on a VSC instance (R290). -/
def State.bmvClaim (s : State) (v k : Nat) : State :=
  match s.core v with
  | none => s
  | some c =>
    let e := vscCluster v
    if c.ending.isSome ∨ s.bmvHeld e k ∨ s.flag F.BMV_CH_STATUS_OUT e k then s
    else s.putAll e k [(F.BMV_CH_OWNER_HELD, 1), (F.BMV_CH_OWNER_POS, s.vscPos v), (F.BMV_CH_OWNER_NODE_INST_ID, c.node)]

/-- BMV_CH_CLAIM (R290). -/
def execBmvChClaim (vsc : BitVec 8) (ch : Fin 8) (s : State) : Host.Outcome State Fault Refusal :=
  .next (s.bmvClaim vsc.toNat ch)

/-- BMV_GO: a write of GO (R290, R293, R294). -/
def execBmvGo (req : Requester) (e : Fin 32) (ch : Fin 8) (s : State) : Host.Outcome State Fault Refusal :=
  .next (if s.bmvMay req e ch then s.bmvGo e ch else s.bmvForeign req e)

/-- CLEAR of a HALTED system channel (R307). -/
def State.bmvClear (s : State) (e k : Nat) : State :=
  if bmvSystem e ∧ s.bmvState e k = 2 then ((s.bmvIdle e k).shareShow e).bmvMapTry e else s

/-- BMV_CLEAR (R307). -/
def execBmvClear (req : Requester) (e : Fin 32) (ch : Fin 8) (s : State) : Host.Outcome State Fault Refusal :=
  .next (if s.bmvMay req e ch then s.bmvClear e ch else s.bmvForeign req e)

/-- STOP of a BUSY system channel (R307). -/
def State.bmvStopCmd (s : State) (e k : Nat) : State := if bmvSystem e then (s.bmvStop e k).bmvMapTry e else s

/-- BMV_STOP (R307). -/
def execBmvStop (req : Requester) (e : Fin 32) (ch : Fin 8) (s : State) : Host.Outcome State Fault Refusal :=
  .next (if s.bmvMay req e ch then s.bmvStopCmd e ch else s.bmvForeign req e)

/-- The parity error of R306: the channel halts with ERR_INTERNAL, without retry, and OUT sets. -/
def State.bmvParity (s : State) (e k : Nat) : State :=
  if s.bmvState e k = 1 ∨ s.bmvState e k = 3 then
    let b := ((s.bch e k).outst.head?).getD (s.nextBurst e k)
    ((s.bmvHalt e k 4 b).set F.BMV_CH_STATUS_OUT e k).bmvAfter e k
  else s.set F.BMV_CH_STATUS_OUT e k

/-! ### Register access (R289, R290, R313) -/

/-- A write of a channel register by a requester that may make it: shadow registers wait for SH_VALID = 0 (R294), CLAIM and CTRL act,
the others follow their access codes. -/
def State.bmvWriteCh (s : State) (e k : Nat) (r : Reg) (v : Word) : State :=
  if r ∈ [.BMV_SH_SRC_LO, .BMV_SH_SRC_HI, .BMV_SH_DST_LO, .BMV_SH_DST_HI, .BMV_SH_LEN, .BMV_SH_CFG, .BMV_SH_FILL] then
    if s.flag F.BMV_CH_STATUS_SH_VALID e k then s.set F.BMV_CH_STATUS_SH_BUSY e k
    else s.wr ⟨r, e, k⟩ (writeFields (s.rd ⟨r, e, k⟩) v r.fields)
  else if r = .BMV_CH_CTRL then
    let s := if v.bits 0 1 = 1 then s.bmvGo e k else s
    let s := if v.bits 1 1 = 1 then s.bmvClear e k else s
    if v.bits 2 1 = 1 then s.bmvStopCmd e k else s
  else if r = .BMV_CH_CLAIM then s
  else s.wr ⟨r, e, k⟩ (writeFields (s.rd ⟨r, e, k⟩) v r.fields)

/-- A write at an offset of an engine's nine pages. -/
def State.bmvWrite (s : State) (req : Requester) (e off : Nat) (v : Word) : State :=
  match regAt .BMV off with
  | none => s
  | some (r, k) =>
    if off < 0x1000 then
      match req with
      | .vsc _ => s.bmvForeign req e
      | _ => if r = .BMV_ENG_MAP then s.bmvMapWrite e v.toNat else s.wr ⟨r, e, k⟩ (writeFields (s.rd ⟨r, e, k⟩) v r.fields)
    else
      match req with
      | .vsc c => if r = .BMV_CH_CLAIM then (if v.bits 0 1 = 1 then s.bmvClaim c k else s)
          else if s.bmvMay req e k then s.bmvWriteCh e k r v else s.bmvForeign req e
      | _ => s.bmvWriteCh e k r v

/-- A read at an offset of an engine's nine pages by a core: the value, and the state in which RC fields are cleared (R562). -/
def State.bmvRead (s : State) (e off : Nat) : Nat × State :=
  match regAt .BMV off with
  | none => (0, s)
  | some (r, k) =>
    let w := s.rd ⟨r, e, k⟩
    let v := if r = .BMV_CH_CLAIM then 0 else (readFields w r.fields).toNat
    (v, if r.fields.any (fun f => f.acc = .RC) then s.wr ⟨r, e, k⟩ (clearRC w r.fields) else s)

/-- The level of request line r, 1 to 32 (R301, R392): line 2p + 1 while the raw receive FIFO of coupler port p holds at least 512
bytes, line 2p + 2 while its 16 KiB transmit FIFO has at least 512 bytes free. -/
def State.reqLine (s : State) (r : Nat) : Bool :=
  let c := Tab.get CplPort.reset s.cpl ((r - 1) / 2)
  if (r - 1) % 2 = 0 then decide (512 ≤ c.rawRx) else decide (c.rawTx + 512 ≤ 16384)

/-- A burst of n bytes paced by request line r takes them from the receive FIFO or puts them into the transmit FIFO (R392). -/
def State.rawMove (s : State) (r n : Nat) : State :=
  if r = 0 then s
  else
    let p := (r - 1) / 2
    let c := Tab.get CplPort.reset s.cpl p
    { s with cpl := Tab.set s.cpl p (if (r - 1) % 2 = 0 then { c with rawRx := c.rawRx - n } else { c with rawTx := min 16384 (c.rawTx + n) }) }

/-- BMV_BURST_ISSUE (R296, R298, R299, R301, R302): cycles is how long the credit grew since the last issue, waited how long the channel
waited for its request line. -/
def execBmvBurstIssue (e : Fin 32) (ch : Fin 8) (cycles waited : Nat) (s : State) : Host.Outcome State Fault Refusal :=
  .next (
    let c := s.bch e ch
    if s.bmvState e ch ≠ 1 ∨ s.get F.BMV_CH_REMAINING_REMAINING e ch = 0 ∨ c.failed ≠ [] ∨ c.diff then s
    else
      let n := s.get F.BMV_ACT_CFG_SHARE e ch + 1
      let credit := min (2 * s.burstBytes e ch + n) (c.credit + cycles * n)
      let s := s.setBch e ch { c with credit := credit }
      let r := s.get F.BMV_ACT_CFG_REQ_SEL e ch
      if r ≠ 0 ∧ ¬ s.reqLine r then
        (s.set F.BMV_CH_STATUS_WAIT_REQ e ch).count F.BMV_CH_REQ_WAIT_REQ_WAIT waited e ch
      else if s.flag F.BMV_ENG_INJ_ARM e ∧ s.get F.BMV_ENG_INJ_CH e = ch.val then (s.clr F.BMV_ENG_INJ_ARM e).bmvParity e ch
      else if c.outst.length < 32 ∧ s.engOutstanding e < 64 ∧ 2 * (s.nextBurst e ch).len ≤ credit then
        ((s.rawMove r (s.nextBurst e ch).len).bmvIssue e ch).count F.BMV_CH_REQ_WAIT_REQ_WAIT (if r ≠ 0 then waited else 0) e ch
      else s)

/-- A bus error of a burst (R303). -/
def State.bmvBusError (s : State) (e k i : Nat) (b : Burst) : State :=
  let c := s.bch e k
  ((s.setBch e k { c.without i with failed := c.failed ++ [b] }).bmvSettle e k).bmvAfter e k

/-- The poison response to a read of a burst (R305), at an offset into the burst. -/
def State.bmvPoison (s : State) (e k i : Nat) (b : Burst) (off : Nat) (host : List Byte) : State :=
  let a := s.actSrc e k + b.off + off
  let port := match s.bmvHolder e k with
    | some v => match s.core v with
      | some c => (s.inputPort c.exec a).map (fun p => (v, p))
      | none => none
    | none => none
  match port with
  | some (v, p) =>
    let w := match memKind a with
      | some m => wordOf m a
      | none => a
    let n := match memKind a with
      | some m => wordBytes m
      | none => 1
    let lo := max w (s.actSrc e k + b.off)
    let hi := min (w + n) (s.actSrc e k + b.off + b.len)
    let s := s.bmvDeliver e k i b host
    let s := if s.get F.BMV_ACT_CFG_MODE e k = 0 then s.poisonRange (s.actDst e k + (lo - s.actSrc e k)) (hi - lo) else s
    (s.set F.BMV_CH_STATUS_POISON e k).runEnd v 7 0x16 p a
  | none => (s.bmvHalt e k 3 b).bmvAfter e k

/-- The first poisoned byte of a burst's reads, as an offset into the burst. -/
def State.bmvPoisonAt (s : State) (e k : Nat) (b : Burst) : Option Nat :=
  let src := s.actSrc e k + b.off
  let dst := s.actDst e k + b.off
  let mode := s.get F.BMV_ACT_CFG_MODE e k
  (List.range b.len).find? (fun j => (mode != 1 && s.poisoned (src + j) 1) || (mode = 2 && s.poisoned (dst + j) 1))

/-- Do the addresses of a burst lie where a channel may reach (R292)? -/
def State.bmvReaches (s : State) (e k : Nat) (b : Burst) : Bool :=
  (s.get F.BMV_ACT_CFG_MODE e k = 1 || bmvReach (s.actSrc e k + b.off) b.len) && bmvReach (s.actDst e k + b.off) b.len

/-- BMV_BURST_COMPLETE: the responses of burst i, counted from the oldest under way, have returned (R292, R305, R308). -/
def execBmvBurstComplete (e : Fin 32) (ch : Fin 8) (burst : Nat) (host : List Byte) (s : State) :
    Host.Outcome State Fault Refusal :=
  .next (match (s.bch e ch).outst[burst]? with
    | none => s
    | some b =>
      if ¬ s.bmvReaches e ch b then s.bmvBusError e ch burst b
      else
        match s.bmvPoisonAt e ch b with
        | some off => s.bmvPoison e ch burst b off host
        | none => ((s.bmvDeliver e ch burst b host).bmvAfter e ch).bmvMapTry e)

/-- BMV_BUS_ERROR: burst i receives a bus error (R303, R304). -/
def execBmvBusError (e : Fin 32) (ch : Fin 8) (burst : Nat) (s : State) : Host.Outcome State Fault Refusal :=
  .next (match (s.bch e ch).outst[burst]? with
    | none => s
    | some b => s.bmvBusError e ch burst b)

/-- BMV_POISON_RESPONSE: a read of burst i receives a poison response, or a PCIe completion with the EP bit (R305). -/
def execBmvPoisonResponse (e : Fin 32) (ch : Fin 8) (burst : Nat) (offset : Nat) (host : List Byte) (s : State) :
    Host.Outcome State Fault Refusal :=
  .next (match (s.bch e ch).outst[burst]? with
    | none => s
    | some b => s.bmvPoison e ch burst b (offset % max 1 b.len) host)

/-- BMV_PARITY_ERROR (R306). -/
def execBmvParityError (e : Fin 32) (ch : Fin 8) (s : State) : Host.Outcome State Fault Refusal := .next (s.bmvParity e ch)

/-- BMV_ENG_MAP_WRITE by a Steward (R288). -/
def execBmvEngMapWrite (e : Fin 32) (map : Word) (s : State) : Host.Outcome State Fault Refusal :=
  .next (s.bmvMapWrite e map.toNat)

/-- BMV_MAP_APPLY: the channels of a pending map that are idle and unheld take their slices (R288). -/
def execBmvMapApply (e : Fin 32) (s : State) : Host.Outcome State Fault Refusal := .next (s.bmvMapTry e)

end Sys2Proof.Machine
end

