-- ==== Sys2Proof/Machine/Fp.lean ====
section
/-!
DEFINITION. Sys2Proof/Machine/Fp.lean: the floating-point arithmetic of R173 and R197: exact values of finite FP16 and FP32 numbers,
and one rounding to nearest even with FP32 subnormal results flushed to zero.  A result for which the spec states no value (an
infinity or a NaN among the operands) is a free value of the operands (log entry 12).
-/
namespace Sys2Proof.Machine

/-- The exact value of a finite FP32 code in units of 2^-149; none for an infinity or a NaN. -/
def fp32Val (x : Nat) : Option Int :=
  let e := natBits x 23 8
  let m := natBits x 0 23
  if e = 255 then none
  else
    let v : Nat := if e = 0 then m else (m + 2 ^ 23) * 2 ^ (e - 1)
    some (if natBits x 31 1 = 1 then -(v : Int) else v)

/-- The exact value of a finite FP16 code in units of 2^-24. -/
def fp16Val (x : Nat) : Option Int :=
  let e := natBits x 10 5
  let m := natBits x 0 10
  if e = 31 then none
  else
    let v : Nat := if e = 0 then m else (m + 2 ^ 10) * 2 ^ (e - 1)
    some (if natBits x 15 1 = 1 then -(v : Int) else v)

/-- Divide and round to nearest, ties to even. -/
def divRne (n d : Nat) : Nat :=
  let q := n / d
  let r := n % d
  if 2 * r < d then q else if d < 2 * r then q + 1 else q + q % 2

/-- floor(log2(n / d)) for n and d above 0. -/
def ratLog2 (n d : Nat) : Int :=
  let e : Int := (Nat.log2 n : Int) - Nat.log2 d
  if (if 0 ≤ e then decide (d * 2 ^ e.toNat ≤ n) else decide (d ≤ n * 2 ^ (-e).toNat)) then e else e - 1

/-- A result of one rounding: the FP32 code, and whether it overflowed to infinity. -/
structure Rounded where
  code : Nat
  overflow : Bool
  deriving DecidableEq, Repr

/-- The FP32 code of r units of 2^qe, r at most 2^24, flushed to zero below the normal range. -/
def packFp32 (neg : Bool) (r : Nat) (qe : Int) : Rounded :=
  let sign := if neg then 2 ^ 31 else 0
  let (r, qe) := if 2 ^ 24 ≤ r then (2 ^ 23, qe + 1) else (r, qe)
  if r < 2 ^ 23 then ⟨sign, false⟩
  else if 255 ≤ qe + 150 then ⟨sign + 255 * 2 ^ 23, true⟩
  else ⟨sign + (qe + 150).toNat * 2 ^ 23 + (r - 2 ^ 23), false⟩

/-- Round n / d × 2^-s to FP32 (R173, R197). -/
def roundFp32 (n : Int) (d s : Nat) : Rounded :=
  if n = 0 then ⟨0, false⟩
  else
    let m := n.natAbs
    let e := ratLog2 m d - s
    let qe := max (e - 23) (-149)
    let k := -(s : Int) - qe
    let r := if 0 ≤ k then divRne (m * 2 ^ k.toNat) d else divRne m (d * 2 ^ (-k).toNat)
    packFp32 (decide (n < 0)) r qe

/-- Round the square root of n / d × 2^-s, n above 0 and s even, to FP32. -/
def sqrtFp32 (n d s : Nat) : Rounded :=
  let e := (ratLog2 n d - s) / 2
  let qe := e - 23
  let k := -(s : Int) - 2 * qe
  let (num, den) := if 0 ≤ k then (n * 2 ^ k.toNat, d) else (n, d * 2 ^ (-k).toNat)
  let r := Nat.sqrt (num / den)
  let up := (2 * r + 1) * (2 * r + 1) * den
  packFp32 false (if up < 4 * num then r + 1 else if up = 4 * num then r + r % 2 else r) qe

/-- The FP16 code nearest a finite FP32 value in units of 2^-149, and whether it was limited to 65,504 (R173, FNARROW). -/
def narrowFp16 (v : Int) : Nat × Bool :=
  let m := v.natAbs
  let sign := if v < 0 then 2 ^ 15 else 0
  if 65504 * 2 ^ 149 < m then (sign + 0x7BFF, true)
  else if m = 0 then (0, false)
  else
    let e : Int := (Nat.log2 m : Int) - 149
    let qe := max (e - 10) (-24)
    let r := divRne m (2 ^ (149 + qe).toNat)
    if 2 ^ 11 ≤ r then (sign + (qe + 26).toNat * 2 ^ 10, false)
    else if r < 2 ^ 10 then (sign + r, false)
    else (sign + (qe + 25).toNat * 2 ^ 10 + (r - 2 ^ 10), false)

/-- The int16 nearest an FP32 value in units of 2^-149, ties to even, saturating (Table 6-2, MXST). -/
def intOfFp32 (v : Int) : Int × Bool :=
  let r := divRne v.natAbs (2 ^ 149)
  let x : Int := if v < 0 then -(r : Int) else r
  if 32767 < x then (32767, true) else if x < -32768 then (-32768, true) else (x, false)

/-- The FP32 code of an int16, exact. -/
def fp32OfInt (x : Int) : Nat := (roundFp32 x 1 0).code

end Sys2Proof.Machine
end

