-- ==== Sys2Proof/Machine/Mxc.lean ====
section
/-!
DEFINITION. Sys2Proof/Machine/Mxc.lean: the matrix coprocessor (06_matrix_coprocessor.md): descriptors and tiles, the operations of Table
6-2 with the arithmetic of R197, the lock and the lazy state switch, faults and service; and the meanings of its commands.
-/
namespace Sys2Proof.Machine

/-! ### Descriptors and elements (R193, R194) -/

/-- ROWS of a descriptor. -/
def mdRows (md : Nat) : Nat := natBits md 4 7

/-- COLS of a descriptor. -/
def mdCols (md : Nat) : Nat := natBits md 11 7

/-- TYPE of a descriptor: complex FP32? -/
def mdFp (md : Nat) : Bool := natBits md 18 1 = 1

/-- SHIFT of a descriptor. -/
def mdShift (md : Nat) : Nat := natBits md 19 5

/-- Is a descriptor legal (R194)? -/
def mdLegal (md : Nat) : Bool :=
  decide (1 ≤ mdRows md ∧ mdRows md ≤ 64 ∧ 1 ≤ mdCols md ∧ mdCols md ≤ 64) && (mdTiles md).all (fun t => decide (t < 16))

/-- Tile and place of element (r, c) of a matrix (R194). -/
def mdPlace (md r c : Nat) : Nat × Nat := (natBits md 0 4 + r / 16 * ((mdCols md + 15) / 16) + c / 16, r % 16 * 16 + c % 16)

/-- The raw codes of element (r, c). -/
def MxState.elem (m : MxState) (md r c : Nat) : Nat × Nat := Tab.get (0, 0) m.elems (mdPlace md r c)

/-- All pairs of indices below two bounds, row by row. -/
def grid (r c : Nat) : List (Nat × Nat) := (List.range r).flatMap (fun i => (List.range c).map (fun j => (i, j)))

/-- Write a matrix given by a function of row and column; its tiles take the descriptor's type. -/
def MxState.write (m : MxState) (md : Nat) (f : Nat → Nat → Nat × Nat) : MxState :=
  { m with
    elems := (grid (mdRows md) (mdCols md)).foldl (fun es p => Tab.set es (mdPlace md p.1 p.2) (f p.1 p.2)) m.elems
    fp := if mdFp md then (m.fp ++ mdTiles md).eraseDups else m.fp.filter (fun t => decide (t ∉ mdTiles md)) }

/-- The int16 value of an element. -/
def MxState.int (m : MxState) (md r c : Nat) : Int × Int :=
  let e := m.elem md r c
  (signed 16 e.1, signed 16 e.2)

/-- The FP32 value of an element in units of 2^-149, if finite. -/
def MxState.real (m : MxState) (md r c : Nat) : Option (Int × Int) :=
  let e := m.elem md r c
  match fp32Val e.1, fp32Val e.2 with
  | some x, some y => some (x, y)
  | _, _ => none

/-! ### Results (R197) -/

/-- A computed element with the flags it sets. -/
structure MxElem where
  re : Nat
  im : Nat
  sat : Bool
  ovf : Bool
  numeric : Bool
  deriving DecidableEq, Repr

/-- An addition into 48 bits, saturating (R171). -/
def add48 (a b : Int) : Int × Bool :=
  let x := a + b
  if 2 ^ 47 - 1 < x then (2 ^ 47 - 1, true) else if x < -(2 ^ 47) then (-(2 ^ 47), true) else (x, false)

/-- Narrow with shift s, half up, saturating to int16 (R172). -/
def narrow16 (a : Int) (s : Nat) : Int × Bool :=
  let y := if s = 0 then a else (a + 2 ^ (s - 1)) / 2 ^ s
  if 32767 < y then (32767, true) else if y < -32768 then (-32768, true) else (y, false)

/-- One element of an int16 MMUL: the sum of exact products, saturating at every addition, then narrowed; added to the old element
where X[1] asks for it. -/
def mulInt (pairs : List ((Int × Int) × (Int × Int))) (shift : Nat) (old : Option (Int × Int)) : MxElem :=
  let z := pairs.foldl (fun (acc : Int × Int × Bool) p =>
    let r := add48 acc.1 (p.1.1 * p.2.1 - p.1.2 * p.2.2)
    let i := add48 acc.2.1 (p.1.1 * p.2.2 + p.1.2 * p.2.1)
    (r.1, i.1, acc.2.2 || r.2 || i.2)) (0, 0, false)
  let nr := narrow16 z.1 shift
  let ni := narrow16 z.2.1 shift
  match old with
  | none => ⟨unsigned 16 nr.1, unsigned 16 ni.1, nr.2 || ni.2, z.2.2, false⟩
  | some (a, b) =>
    let sr := narrow16 (nr.1 + a) 0
    let si := narrow16 (ni.1 + b) 0
    ⟨unsigned 16 sr.1, unsigned 16 si.1, nr.2 || ni.2 || sr.2 || si.2, z.2.2, false⟩

/-- An exact complex value over a positive denominator, in units of 2^-u, rounded to an element; an overflow sets NUMERIC. -/
def roundElem (re im : Int) (d u : Nat) : MxElem :=
  let a := roundFp32 re d u
  let b := roundFp32 im d u
  ⟨a.code, b.code, false, false, a.overflow || b.overflow⟩

/-- An element whose operands are not all finite: the spec states no value (log entry 12). -/
def openElem (key : List Int) : MxElem :=
  ⟨Config.openNat (0 :: key) % 2 ^ 32, Config.openNat (1 :: key) % 2 ^ 32, false, false, Config.openNat (2 :: key) % 2 = 1⟩

/-- All of a list of options, or none. -/
def allSome {α : Type} : List (Option α) → Option (List α)
  | [] => some []
  | none :: _ => none
  | some x :: xs => (allSome xs).map (x :: ·)

/-- One element of an FP32 MMUL: the exact sum, one rounding. -/
def mulFp (key : List Int) (pairs : List (Option (Int × Int) × Option (Int × Int))) (old : Option (Option (Int × Int))) : MxElem :=
  match allSome (pairs.map (fun p => match p.1, p.2 with
    | some x, some y => some (x, y)
    | _, _ => none)), old with
  | some ps, none =>
    let re := (ps.map (fun p => p.1.1 * p.2.1 - p.1.2 * p.2.2)).foldl (· + ·) 0
    let im := (ps.map (fun p => p.1.1 * p.2.2 + p.1.2 * p.2.1)).foldl (· + ·) 0
    roundElem re im 1 298
  | some ps, some (some o) =>
    let re := (ps.map (fun p => p.1.1 * p.2.1 - p.1.2 * p.2.2)).foldl (· + ·) 0
    let im := (ps.map (fun p => p.1.1 * p.2.2 + p.1.2 * p.2.1)).foldl (· + ·) 0
    roundElem (re + o.1 * 2 ^ 149) (im + o.2 * 2 ^ 149) 1 298
  | _, _ => openElem key

/-- A matrix under computation, by row and column. -/
abbrev MxTab := Tab (Nat × Nat) MxElem

/-- An element of a matrix under computation. -/
def MxTab.at (t : MxTab) (r c : Nat) : MxElem := Tab.get ⟨0, 0, false, false, false⟩ t (r, c)

/-- Its value, if finite. -/
def MxTab.real (t : MxTab) (r c : Nat) : Option (Int × Int) :=
  match fp32Val (t.at r c).re, fp32Val (t.at r c).im with
  | some x, some y => some (x, y)
  | _, _ => none

/-- Column j of the Cholesky factor of a + σ²I, from the columns before it (R197). -/
def cholColumn (a : Nat → Nat → Option (Int × Int)) (sigma : Option Int) (n : Nat) (t : MxTab) (j : Nat) : MxTab :=
  let sum (i : Nat) : Option (Int × Int) :=
    (allSome ((List.range j).map (fun k => match t.real i k, t.real j k with
      | some x, some y => some (x.1 * y.1 + x.2 * y.2, x.2 * y.1 - x.1 * y.2)
      | _, _ => none))).map (fun ps => ((ps.map (·.1)).foldl (· + ·) 0, (ps.map (·.2)).foldl (· + ·) 0))
  let pivot : Option Int := match a j j, sigma, sum j with
    | some x, some g, some y => some ((x.1 + g) * 2 ^ 149 - y.1)
    | _, _, _ => none
  match pivot with
  | some p =>
    if 0 < p then
      let d := sqrtFp32 p.toNat 1 298
      let t := Tab.set t (j, j) ⟨d.code, 0, false, false, d.overflow⟩
      ((List.range n).filter (fun i => decide (j < i))).foldl (fun (t : MxTab) i =>
        Tab.set t (i, j) (match a i j, sum i, fp32Val d.code with
          | some x, some y, some q =>
            if q = 0 then openElem [0x66, i, j]
            else roundElem (x.1 * 2 ^ 149 - y.1) (x.2 * 2 ^ 149 - y.2) q.toNat 149
          | _, _, _ => openElem [0x66, i, j, p])) t
    else
      let t := Tab.set t (j, j) ⟨0x3F800000, 0, false, false, true⟩
      ((List.range n).filter (fun i => decide (j < i))).foldl (fun (t : MxTab) i => Tab.set t (i, j) ⟨0, 0, false, false, false⟩) t
  | none =>
    let t := Tab.set t (j, j) ⟨0x3F800000, 0, false, false, true⟩
    ((List.range n).filter (fun i => decide (j < i))).foldl (fun (t : MxTab) i => Tab.set t (i, j) ⟨0, 0, false, false, false⟩) t

/-- Row i of a triangular solve from the rows before it in the given order (R197): l is the coefficient matrix. -/
def solveRow (l : Nat → Nat → Option (Int × Int)) (b : Nat → Nat → Option (Int × Int)) (m : Nat) (done : List Nat) (t : MxTab)
    (i : Nat) : MxTab :=
  (List.range m).foldl (fun t c =>
    let sum := (allSome (done.map (fun k => match l i k, t.real k c with
      | some x, some y => some (x.1 * y.1 - x.2 * y.2, x.1 * y.2 + x.2 * y.1)
      | _, _ => none))).map (fun ps => ((ps.map (·.1)).foldl (· + ·) 0, (ps.map (·.2)).foldl (· + ·) 0))
    Tab.set t (i, c) (match l i i, b i c, sum with
      | some d, some x, some y =>
        if d.1 = 0 ∧ d.2 = 0 then ⟨0, 0, false, false, true⟩
        else
          let p := x.1 * 2 ^ 149 - y.1
          let q := x.2 * 2 ^ 149 - y.2
          roundElem (p * d.1 + q * d.2) (q * d.1 - p * d.2) (d.1 * d.1 + d.2 * d.2).toNat 149
      | _, _, _ => openElem [0x67, i, c])) t

/-- Write a computed matrix and set the flags its elements raise. -/
def MxState.writeElems (m : MxState) (md : Nat) (f : Nat → Nat → MxElem) : MxState :=
  let es := (grid (mdRows md) (mdCols md)).map (fun p => f p.1 p.2)
  let m := m.write md (fun r c => let e := f r c; (e.re, e.im))
  { m with sat := m.sat || es.any (·.sat), ovf := m.ovf || es.any (·.ovf), numeric := m.numeric || es.any (·.numeric) }

/-- MMUL (Table 6-2, R197). -/
def MxState.mmul (m : MxState) (d a b x : Nat) : MxState :=
  let h := x % 2 = 1
  let acc := natBits x 1 1 = 1
  let kk := if h then mdRows a else mdCols a
  m.writeElems d (fun r c =>
    if mdFp d then
      mulFp [0x65, r, c] ((List.range kk).map (fun k =>
        ((if h then (m.real a k r).map (fun v => (v.1, -v.2)) else m.real a r k), m.real b k c))) (if acc then some (m.real d r c) else none)
    else
      mulInt ((List.range kk).map (fun k =>
        ((if h then ((m.int a k r).1, -(m.int a k r).2) else m.int a r k), m.int b k c))) (mdShift d)
        (if acc then some (m.int d r c) else none))

/-- MCHOL (Table 6-2, R197). -/
def MxState.mchol (m : MxState) (d a sigma : Nat) : MxState :=
  let n := mdRows a
  let t := (List.range n).foldl (cholColumn (m.real a) (fp32Val sigma) n) []
  m.writeElems d (fun r c => MxTab.at t r c)

/-- MTRSV (Table 6-2, R197): L⁻¹ B forward, or the inverse of the conjugate transpose of L times B backward. -/
def MxState.mtrsv (m : MxState) (d a b x : Nat) : MxState :=
  let n := mdRows a
  let cols := mdCols b
  let h := x % 2 = 1
  let l (r c : Nat) : Option (Int × Int) := if h then (m.real a c r).map (fun v => (v.1, -v.2)) else m.real a r c
  let order := if h then (List.range n).reverse else List.range n
  let t := (order.foldl (fun (acc : MxTab × List Nat) i => (solveRow l (m.real b) cols acc.2 acc.1 i, acc.2 ++ [i])) ([], [])).1
  m.writeElems d (fun r c => MxTab.at t r c)

/-- All the codes of a matrix, for the open results of MQR. -/
def MxState.codes (m : MxState) (md : Nat) : List Int :=
  (grid (mdRows md) (mdCols md)).flatMap (fun p => let e := m.elem md p.1 p.2; [(e.1 : Int), (e.2 : Int)])

/-- MQR (Table 6-2): the spec fixes R and Q^H B only up to the choices of the Householder method, so their elements are open results
of the inputs (log entry 12); below its diagonal R is zero. -/
def MxState.mqr (m : MxState) (d a b x : Nat) : MxState :=
  let ka := m.codes a
  let kb := m.codes b
  let r := m.writeElems d (fun r c => if c < r then ⟨0, 0, false, false, false⟩ else openElem (0x68 :: 0 :: r :: c :: ka))
  if x % 2 = 1 then r.writeElems b (fun r c => openElem (0x68 :: 1 :: r :: c :: (ka ++ kb))) else r

/-- Do the descriptors of an operation keep R196? -/
def shapesOk (o : MxOp) (d a b : Nat) : Bool :=
  if o.opc = 0x65 then
    let (r, k) := if o.x % 2 = 1 then (mdCols a, mdRows a) else (mdRows a, mdCols a)
    mdFp d = mdFp a && mdFp a = mdFp b && decide (k = mdRows b ∧ mdRows d = r ∧ mdCols d = mdCols b)
  else if o.opc = 0x66 then mdFp d && mdFp a && decide (mdRows a = mdCols a ∧ mdRows d = mdRows a ∧ mdCols d = mdCols a)
  else if o.opc = 0x67 then
    mdFp d && mdFp a && mdFp b && decide (mdRows a = mdCols a ∧ mdRows b = mdRows a ∧ mdRows d = mdRows b ∧ mdCols d = mdCols b)
  else if o.opc = 0x68 then
    mdFp d && mdFp a && decide (mdRows d = mdRows a ∧ mdCols d = mdCols a) &&
    (o.x % 2 = 0 || (mdFp b && decide (mdRows b = mdRows a)))
  else true

/-! ### Save and restore (R204, R205) -/

/-- The bytes of a save area: the elements of each tile in order, 8 bytes each, then the configuration (log entry 13). -/
def MxState.save (m : MxState) : List Byte :=
  ((List.range 16).flatMap (fun t => (List.range 256).flatMap (fun i =>
    let e := Tab.get (0, 0) m.elems (t, i)
    natLe 4 e.1 ++ natLe 4 e.2))) ++
  (List.range 8).flatMap (fun i => natLe 4 (Tab.get 0 m.md i)) ++
  natLe 4 ((m.fp.map (fun t => 2 ^ t)).foldl (· ||| ·) 0 + (if m.sat then 2 ^ 16 else 0) + (if m.ovf then 2 ^ 17 else 0) +
    (if m.numeric then 2 ^ 18 else 0)) ++ List.replicate 92 0

/-- The state that a save area holds. -/
def State.mxRestored (s : State) (a : Nat) : MxState :=
  let cfg := s.word (a + 32768 + 32)
  { elems := (grid 16 256).map (fun p => (p, (s.word (a + p.1 * 2048 + p.2 * 8), s.word (a + p.1 * 2048 + p.2 * 8 + 4))))
    fp := (List.range 16).filter (fun t => cfg.testBit t)
    md := (List.range 8).map (fun i => (i, s.word (a + 32768 + 4 * i)))
    sat := cfg.testBit 16
    ovf := cfg.testBit 17
    numeric := cfg.testBit 18 }

/-- The lazy switch at the first operation that a new owner executes (R204). -/
def State.mxSwitch (s : State) (c : Nat) : State :=
  let m := s.mx c
  match m.lock with
  | none => s
  | some o =>
    if m.switched then s
    else if m.last = some o ∧ m.live then s.setMx c { m with switched := true }
    else
      let s := match m.last with
        | some l => if m.live then
            ((s.store l.save m.st.save).count F.MXC_SAVES_SAVES 1 c).count F.MXC_BUSY_BUSY 277 c else s
        | none => s
      let displaced := match m.last with
        | some l => if m.live then (l.pos, l.node) :: m.displaced else m.displaced
        | none => m.displaced
      if (o.pos, o.node) ∈ displaced then
        let st := s.mxRestored o.save
        let s := (s.count F.MXC_RESTORES_RESTORES 1 c).count F.MXC_BUSY_BUSY 277 c
        s.setMx c { m with st := st, last := some o, live := true, switched := true, displaced := displaced.filter (· ≠ (o.pos, o.node)) }
      else
        (s.count F.MXC_BUSY_BUSY 16 c).setMx c { m with st := ⟨[], [], [], false, false, false⟩, last := some o, live := true, switched := true, displaced := displaced }

/-! ### Execution (R198, R199) -/

/-- Cycles of an operation (Table 6-4). -/
def mxCycles (o : MxOp) (d a b : Nat) : Nat :=
  let up (x n : Nat) : Nat := (x + n - 1) / n
  let n := mdRows a
  if o.opc = 0x65 then up (mdRows d * (if o.x % 2 = 1 then mdRows a else mdCols a) * mdCols b) (if mdFp d then 64 else 256) + 24
  else if o.opc = 0x66 then up (n * n * n) 384 + 12 * n + 24
  else if o.opc = 0x67 then up (n * n * mdCols b) 128 + 12 * n + 24
  else if o.opc = 0x68 then up (4 * n * mdCols a * mdCols a) 192 + 16 * mdCols a + 24 +
    (if o.x % 2 = 1 then up (n * mdCols a * mdCols b) 32 else 0)
  else if o.opc = 0x63 then mdRows d * up (mdCols d * (if mdFp d && o.x % 2 = 0 then 8 else 4)) 128 + 20
  else if o.opc = 0x64 then mdRows a * up (mdCols a * (if mdFp a && o.x % 2 = 0 then 8 else 4)) 128 + 20
  else 6

/-- Bytes of an element in memory for MXLD and MXST (Table 6-2). -/
def memElem (md x : Nat) : Nat := if mdFp md && x % 2 = 0 then 8 else 4

/-- The address of element (r, c) in memory. -/
def mxAddr (o : MxOp) (md r c : Nat) : Nat := (o.addr + r * o.stride + c * memElem md o.x) % 2 ^ 48

/-- May the MXC of a cluster reach n bytes at an address (R199)? -/
def mxReach (cl a n : Nat) : Bool :=
  let w := 0x20000000 + cl * 0x1000000
  decide (w ≤ a ∧ a + n ≤ w + 0xC80000)

/-- Is an address, of any local memory of a cluster, in the system area (R158)? -/
def systemArea (cl a : Nat) : Bool :=
  let w := 0x20000000 + cl * 0x1000000
  decide (w + 0x800000 ≤ a ∧ a < w + 0xC80000 ∧ 0x7C000 ≤ (a - w) % 0x80000)

/-- Load a matrix (Table 6-2, MXLD). -/
def State.mxLoad (s : State) (m : MxState) (o : MxOp) (md : Nat) : MxState :=
  m.write md (fun r c =>
    let a := mxAddr o md r c
    if memElem md o.x = 8 then (s.word a, s.word (a + 4))
    else
      let re := s.mem.readLE a 2
      let im := s.mem.readLE (a + 2) 2
      if mdFp md then (fp32OfInt (signed 16 re), fp32OfInt (signed 16 im)) else (re, im))

/-- Store a matrix (Table 6-2, MXST): the bytes, and whether a conversion saturated. -/
def State.mxStore (s : State) (m : MxState) (o : MxOp) (md : Nat) : Bool × State :=
  (grid (mdRows md) (mdCols md)).foldl (fun (acc : Bool × State) p =>
    let a := mxAddr o md p.1 p.2
    let e := m.elem md p.1 p.2
    if memElem md o.x = 8 then (acc.1, acc.2.store a (natLe 4 e.1 ++ natLe 4 e.2))
    else if mdFp md then
      let cv (code : Nat) : Nat × Bool := match fp32Val code with
        | some v => let r := intOfFp32 v; (unsigned 16 r.1, r.2)
        | none => (Config.openNat [0x64, code] % 2 ^ 16, false)
      let re := cv e.1
      let im := cv e.2
      (acc.1 || re.2 || im.2, acc.2.store a (natLe 2 re.1 ++ natLe 2 im.1))
    else (acc.1, acc.2.store a (natLe 2 e.1 ++ natLe 2 e.2))) (false, s)

/-- Lane i of an MXRD of a tile (Table 6-2). -/
def MxState.lane (m : MxState) (t row i : Nat) : Nat :=
  let at_ (r c : Nat) : Nat × Nat :=
    if r < 16 then Tab.get (0, 0) m.elems (t, r * 16 + c) else (Config.openNat [0x69, t, r, c, 0] % 2 ^ 16, Config.openNat [0x69, t, r, c, 1] % 2 ^ 16)
  if t ∈ m.fp then (let e := at_ row (i / 2); if i % 2 = 0 then e.1 else e.2)
  else (let e := at_ (row + i / 16) (i % 16); e.1 % 2 ^ 16 + e.2 % 2 ^ 16 * 2 ^ 16)

/-- Write a vector to a tile (Table 6-2, MXWR). -/
def MxState.writeRow (m : MxState) (t row x : Nat) (v : List Nat) : MxState :=
  if x % 2 = 1 then
    { m with
      elems := (List.range 16).foldl (fun es j => Tab.set es (t, row * 16 + j) (v.getD (2 * j) 0, v.getD (2 * j + 1) 0)) m.elems
      fp := (t :: m.fp).eraseDups }
  else
    { m with
      elems := (List.range 32).foldl (fun es i => if row + i / 16 < 16 then
        Tab.set es (t, (row + i / 16) * 16 + i % 16) (v.getD i 0 % 2 ^ 16, v.getD i 0 / 2 ^ 16) else es) m.elems
      fp := m.fp.filter (· ≠ t) }

/-- The code of an MXC cause (Table 6-5). -/
def mxCode (cause : Nat) : Nat :=
  if cause < 0x30 then 1 else if cause = 0x30 then 2 else if cause = 0x31 then 3 else if cause = 0x32 then 4
  else if cause = 0x34 then 7 else 6

/-- Take an MXC out of service after a fault (R214): the capture, the charged run, and every other run that has issued MXLOCK. -/
def State.mxFault (s : State) (c cause : Nat) (o : MxOwner) (port addr : Nat) : State :=
  let s := if (cause = 0x30 ∨ cause = 0x31 ∨ cause = 0x33) ∧ ¬ s.flag F.MXC_FAULT_VALID c then
    s.putAll c 0 [(F.MXC_FAULT_CAUSE, cause), (F.MXC_FAULT_POS, o.pos), (F.MXC_FAULT_VALID, 1), (F.MXC_FAULT_NODE_INST_ID, o.node)] else s
  let s := s.runEnd o.inst (mxCode cause) cause port addr
  if cause = 0x30 ∨ cause = 0x31 ∨ cause = 0x33 then
    let s := (s.clr F.MXC_STATUS_IN_SERVICE c).clr F.MXC_CTRL_SERVICE c
    let others := (s.exu.vsc.filter (fun x => vscCluster x.1 = c && decide (x.1 ≠ o.inst) && x.2.save.isSome && x.2.ending.isNone)).map (·.1)
    let s := others.foldl (fun s k => s.runEnd k 6 0x35 0 0) s
    s.setMx c { s.mx c with live := false, last := none, lock := none, queue := [], waiters := [], removing := false }
  else s

/-- Take the head of the queue off. -/
def State.mxPop (s : State) (c : Nat) (st : MxState) : State :=
  let m := s.mx c
  s.setMx c { m with st := st, queue := m.queue.drop 1 }

/-- Does an operation read a tile? -/
def MxOp.readsTile (o : MxOp) : Bool := o.opc = 0x64 || o.opc = 0x65 || o.opc = 0x66 || o.opc = 0x67 || o.opc = 0x68 || o.opc = 0x69

/-- Write a result register of the owner's core (R207). -/
def State.coreUpdate (s : State) (k : Nat) (f : VscCore → VscCore) : State :=
  match s.core k with
  | none => s
  | some c => s.setCore k (f c)

/-- Execute the operation at the head of the queue for owner o, after the state switch (R196 to R199). -/
def State.mxExec (s : State) (c : Nat) (o : MxOwner) (p : MxOp) : State :=
  let m := (s.mx c).st
  let d := Tab.get 0 m.md (p.d % 8)
  let a := Tab.get 0 m.md (p.a % 8)
  let b := Tab.get 0 m.md (p.b % 8)
  let s := s.count F.MXC_BUSY_BUSY (mxCycles p d a b) c
  if s.flag F.MXC_CTRL_INJ_RESIDUE c then (s.clr F.MXC_CTRL_INJ_RESIDUE c).mxFault c 0x30 o 0 0
  else if s.flag F.MXC_CTRL_INJ_PARITY c ∧ p.readsTile then (s.clr F.MXC_CTRL_INJ_PARITY c).mxFault c 0x31 o 0 0
  else if ¬ shapesOk p d a b then s.runEnd o.inst 1 0x23 0 0
  else if p.opc = 0x62 then s.mxPop c { m with md := Tab.set m.md (p.d % 8) p.sval }
  else if p.opc = 0x63 then
    let sz := memElem d p.x
    let bad := (grid (mdRows d) (mdCols d)).any (fun q => !mxReach c (mxAddr p d q.1 q.2) sz)
    if p.addr % sz ≠ 0 ∨ p.stride % sz ≠ 0 ∨ bad then s.runEnd o.inst 1 0x24 0 0
    else
      match (grid (mdRows d) (mdCols d)).find? (fun q => s.poisoned (mxAddr p d q.1 q.2) sz) with
      | some q =>
        match s.inputPort ((s.core o.inst).map (·.exec) |>.getD 0) (mxAddr p d q.1 q.2) with
        | some port => s.runEnd o.inst 7 0x34 port (mxAddr p d q.1 q.2)
        | none => s.runEnd o.inst 4 0x32 0 (mxAddr p d q.1 q.2)
      | none => s.mxPop c (s.mxLoad m p d)
  else if p.opc = 0x64 then
    let sz := memElem a p.x
    let all := grid (mdRows a) (mdCols a)
    if p.addr % sz ≠ 0 ∨ p.stride % sz ≠ 0 ∨ all.any (fun q => !mxReach c (mxAddr p a q.1 q.2) sz) then s.runEnd o.inst 1 0x24 0 0
    else if all.any (fun q => systemArea c (mxAddr p a q.1 q.2)) then s.runEnd o.inst 1 0x03 0 0
    else
      let r := s.mxStore m p a
      r.2.mxPop c { m with sat := m.sat || r.1 }
  else if p.opc = 0x65 then s.mxPop c (m.mmul d a b p.x)
  else if p.opc = 0x66 then s.mxPop c (m.mchol d a p.sval)
  else if p.opc = 0x67 then s.mxPop c (m.mtrsv d a b p.x)
  else if p.opc = 0x68 then s.mxPop c (m.mqr d a b p.x)
  else if p.opc = 0x69 then
    (s.coreUpdate o.inst (fun k => { k with vr := (List.range 32).foldl (fun v i => Tab.set v (p.d, i) (m.lane (p.a % 16) (p.b % 16) i)) k.vr })).mxPop c m
  else if p.opc = 0x6A then s.mxPop c (m.writeRow (p.d % 16) (p.b % 16) p.x p.vdata)
  else if p.opc = 0x6C then
    let rest := { s.mx c with queue := (s.mx c).queue.drop 1 }
    let v := rest.scoreboard + 2 ^ 16 + (if m.sat then 2 ^ 17 else 0) + (if m.ovf then 2 ^ 18 else 0) + (if m.numeric then 2 ^ 19 else 0)
    (s.coreUpdate o.inst (fun k => { k with sr := Tab.set k.sr p.d v })).mxPop c
      (if p.x % 2 = 1 then { m with sat := false, ovf := false, numeric := false } else m)
  else s.mxPop c m

/-- Grant the lock to a run (R201). -/
def State.mxGrant (s : State) (c : Nat) (o : MxOwner) (waited : Nat) : State :=
  let m := s.mx c
  (s.setMx c { m with lock := some o, switched := false, waiters := m.waiters.filter (· ≠ o) }).count F.MXC_LOCK_WAIT_LOCK_WAIT waited c

/-- Release the lock (Table 6-2, MXUNLOCK): the last owner's state stays live if it executed an operation. -/
def State.mxUnlock (s : State) (c : Nat) : State :=
  let m := s.mx c
  s.setMx c { m with lock := none, switched := false, queue := m.queue.drop 1 }

/-- Request the lock (R201): granted at once if it is free and nobody waits. -/
def State.mxRequest (s : State) (c : Nat) (o : MxOwner) : State :=
  let m := s.mx c
  if m.lock.isNone ∧ m.waiters = [] then s.mxGrant c o 0 else s.setMx c { m with waiters := m.waiters ++ [o] }

/-! ### The meanings -/

/-- MXC_LOCK_GRANT (R201, R212): the next requester in order, waited cycles after its request. -/
def execMxcLockGrant (c : Fin 24) (waited : Nat) (s : State) : Host.Outcome State Fault Refusal :=
  .next (match (s.mx c).lock, (s.mx c).waiters with
    | none, o :: _ => s.mxGrant c o waited
    | _, _ => s)

/-- MXC_OP_EXECUTE (R198, R204): the operation at the head of the queue executes and writes back. -/
def execMxcOpExecute (c : Fin 24) (s : State) : Host.Outcome State Fault Refusal :=
  .next (match (s.mx c).lock, (s.mx c).queue with
    | some o, p :: _ =>
      let s := if p.opc = 0x61 then s.mxUnlock c else (s.mxSwitch c).mxExec c o p
      s.vscFinish o.inst
    | _, _ => s)

/-- MXC_FAULT (R213, R214): a fault is charged to the run that owns the lock. -/
def execMxcFault (c : Fin 24) (kind : MxcFaultKind) (s : State) : Host.Outcome State Fault Refusal :=
  .next (match (s.mx c).lock with
    | none => s
    | some o => s.mxFault c (match kind with
      | .residue => 0x30
      | .parity => 0x31
      | .bus => 0x33) o 0 0)

/-- Has a live run of a cluster issued MXLOCK (R215)? -/
def State.mxUsed (s : State) (c : Nat) : Bool := s.exu.vsc.any (fun x => vscCluster x.1 = c && x.2.save.isSome)

/-- A write of SERVICE by a Steward (R215). -/
def State.mxService (s : State) (c : Nat) (on : Bool) : State :=
  if on then ((s.set F.MXC_CTRL_SERVICE c).set F.MXC_STATUS_IN_SERVICE c).setMx c { s.mx c with removing := false }
  else (s.clr F.MXC_CTRL_SERVICE c).setMx c { s.mx c with removing := s.flag F.MXC_STATUS_IN_SERVICE c }

/-- MXC_SERVICE_WRITE (R215). -/
def execMxcServiceWrite (c : Fin 24) (service : Bool) (s : State) : Host.Outcome State Fault Refusal := .next (s.mxService c service)

/-- MXC_REMOVAL_COMPLETE (R215). -/
def execMxcRemovalComplete (c : Fin 24) (s : State) : Host.Outcome State Fault Refusal :=
  .next (if (s.mx c).removing ∧ ¬ s.mxUsed c then
    (s.clr F.MXC_STATUS_IN_SERVICE c).setMx c { s.mx c with removing := false, live := false, last := none } else s)

end Sys2Proof.Machine
end

