-- ==== Sys2Proof/Machine/Engine.lean ====
section
/-!
DEFINITION. Sys2Proof/Machine/Engine.lean: the engines of 07_accelerator_rows.md: the job descriptor, the checks of its
parameters, the result of every operation, soft buffers, faults, the engine map, and the meanings of their rows.  What an
operation computes by a radio standard is a free function of its inputs (Config.engine, log entry 15).
-/
namespace Sys2Proof.Machine

/-! ### The descriptor (Table 7-1) -/

/-- Word j of the descriptor memory of an instance. -/
def State.dw (s : State) (i j : Nat) : Nat := s.get F.T_DESC_DESC i j

/-- Parameter word j (Table 7-1); a word beyond PARAM_LEN reads 0 (log entry 16). -/
def State.par (s : State) (i j : Nat) : Nat := if j < natBits (s.dw i 0) 16 7 then s.dw i (76 + j) else 0

/-- The token of input port p in the dispatch record (Tables 4-3, 4-8). -/
def State.engIn (s : State) (i p : Nat) : Token :=
  let a := 12 + 4 * p
  ⟨s.dw i a + natBits (s.dw i (a + 1)) 0 16 * 2 ^ 32, natBits (s.dw i (a + 1)) 16 6, (s.dw i (a + 1)).testBit 22, s.dw i (a + 2),
   0, 0, .none⟩

/-- The token of output port p in the dispatch record. -/
def State.engOut (s : State) (i p : Nat) : Token :=
  let a := 44 + 4 * p
  ⟨s.dw i a + natBits (s.dw i (a + 1)) 0 16 * 2 ^ 32, natBits (s.dw i (a + 1)) 16 6, false, s.dw i (a + 2),
   natBits (s.dw i (a + 3)) 0 14, natBits (s.dw i (a + 3)) 16 16, .none⟩

/-- RUN of the dispatch record. -/
def State.engRunNo (s : State) (i : Nat) : Nat := natBits (s.dw i 9) 21 2

/-- Operations of a class (Table 7-7). -/
def engOps (c : Nat) : Nat := [0, 1, 3, 1, 2, 4, 5, 2, 1, 2].getD c 0

/-- Data inputs that an operation reads (Table 7-7). -/
def engInputs (c op : Nat) : Nat :=
  if c = 6 then (if op = 3 then 3 else if op = 5 then 1 else 2) else if c = 7 then 2 else if c = 9 ∧ op = 2 then 2 else 1

/-- Round up to a multiple of m. -/
def roundUp (m x : Nat) : Nat := (x + m - 1) / m * m

/-! ### Parameter ranges (Tables 7-9 to 7-12) -/

/-- Is n of the form 2^a 3^b 5^c? -/
def smooth (n : Nat) : Bool :=
  (List.range 12).any (fun a => (List.range 7).any (fun b => (List.range 5).any (fun c => decide (n = 2 ^ a * 3 ^ b * 5 ^ c))))

/-- The 51 lifting sizes from 2 to 384 (Table 7-6). -/
def liftOk (z : Nat) : Bool :=
  decide (2 ≤ z ∧ z ≤ 384) && [2, 3, 5, 7, 9, 11, 13, 15].any (fun a => (List.range 8).any (fun j => decide (z = a * 2 ^ j)))

/-- The 188 QPP sizes from 40 to 6,144 (Table 7-6). -/
def qppOk (k : Nat) : Bool :=
  decide ((40 ≤ k ∧ k ≤ 512 ∧ k % 8 = 0) ∨ (528 ≤ k ∧ k ≤ 1024 ∧ k % 16 = 0) ∨ (1056 ≤ k ∧ k ≤ 2048 ∧ k % 32 = 0) ∨
    (2112 ≤ k ∧ k ≤ 6144 ∧ k % 64 = 0))

/-- Does x lie from lo to hi? -/
def inRange (lo hi x : Nat) : Bool := decide (lo ≤ x ∧ x ≤ hi)

/-- The checks of an operation, each with the index of the parameter word it judges, in word order (log entry 17). -/
def engChecks (c op : Nat) (p : Nat → Nat) : List (Nat × Bool) :=
  let b (w lo len : Nat) : Nat := natBits (p w) lo len
  match c with
  | 1 => [(0, liftOk (b 0 1 9)), (0, inRange 1 255 (b 0 10 8)), (0, inRange 1 31 (b 0 18 5)), (0, inRange 0 2 (b 0 25 2)),
      (2, decide (b 2 0 16 % 64 = 0)), (2, inRange 0 ((if b 0 0 1 = 0 then 66 else 50) * b 0 1 9) (b 2 0 16))]
  | 2 =>
    if op = 1 then [(0, liftOk (b 0 1 9)), (0, inRange 1 5 (b 0 18 3)), (0, inRange 1 2 (b 0 26 2))]
    else if op = 2 then [(0, inRange 1 140 (b 0 0 10)), (0, inRange 5 9 (b 0 10 4)), (1, inRange 16 131071 (b 1 0 17))]
    else []
  | 3 => [(0, qppOk (b 0 0 13)), (0, inRange 1 255 (b 0 13 8)), (0, inRange 1 8 (b 0 21 4)),
      (2, b 2 13 8 = 0 || qppOk (b 2 0 13))]
  | 4 => [(0, if op = 1 then inRange 12 1706 (b 0 0 11) else inRange 1 140 (b 0 0 11)), (0, inRange 5 10 (b 0 11 4)),
      (0, decide (b 0 15 4 ∈ [1, 2, 4, 8])), (1, inRange 16 131071 (b 1 0 18))]
  | 5 => [(0, inRange 0 9 (b 0 0 4)), (0, inRange 0 12 (b 0 4 4)), (0, inRange 1 14 (b 0 8 4)), (0, inRange 1 64 (b 0 12 7))] ++
      (if op ≤ 2 then [] else [(1, decide (b 1 0 12 % 12 = 0 ∧ b 1 0 12 ≠ 0 ∧ b 1 0 12 ≤ 3276) && smooth (b 1 0 12 / 12))])
  | 6 => [(0, inRange 1 64 (b 0 0 7))] ++
      (if op = 4 then [] else [(0, inRange 1 16 (b 0 7 5)), (0, inRange 0 4 (b 0 12 3)), (0, inRange 0 4 (b 0 15 3)),
        (0, inRange 1 275 (b 0 18 9)), (0, inRange 1 14 (b 0 27 4))])
  | 7 => [(0, inRange 1 64 (b 0 0 7)), (0, inRange 1 16 (b 0 7 5)), (0, inRange 0 4 (b 0 12 3)), (0, inRange 1 275 (b 0 15 9)),
      (0, inRange 1 14 (b 0 24 4))]
  | 8 => [(0, decide (b 0 0 5 ≤ 12 ∨ (16 ≤ b 0 0 5 ∧ b 0 0 5 ≤ 20) ∨ b 0 0 5 = 24 ∨ b 0 0 5 = 25)), (0, inRange 1 64 (b 0 6 7)),
      (1, inRange 1 64 (b 1 0 7))]
  | 9 => [(0, inRange 0 1 (b 0 0 2)), (0, inRange 0 4 (b 0 4 3)), (0, b 0 0 2 = 1 || liftOk (b 0 12 9)),
      (0, inRange 1 255 (b 0 21 8)), (0, inRange 0 2 (b 0 29 2)), (2, b 0 0 2 = 0 || qppOk (b 2 0 13)),
      (5, memKind (p 4 + b 5 0 16 * 2 ^ 32) = some .hbm), (5, inRange 1 65535 (b 5 16 16))]
  | _ => []

/-! ### Sizes (Tables 7-7 to 7-12) -/

/-- REs of a job of MDE or BWA per symbol (Table 7-4). -/
def engRes (nprb : Nat) : Nat := 12 * nprb

/-- PRB groups (Table 7-4). -/
def engGroups (nprb pg : Nat) : Nat := (nprb + 2 ^ pg - 1) / 2 ^ pg

/-- Bits of a symbol by QM of Table 7-11. -/
def qmBits (qm : Nat) : Nat := [1, 2, 4, 6, 8].getD qm 0

/-- FFT size by SIZE of Table 7-11. -/
def fftSize (n : Nat) : Nat := [128, 256, 512, 1024, 2048, 4096, 384, 768, 1536, 3072].getD n 0

/-- The samples of one stream of an FXE job with its prefixes: CP0 for the long symbols of the slot, CP for the others. -/
def State.fxeSamples (s : State) (i : Nat) : Nat :=
  let p0 := s.par i 0
  let n := fftSize (natBits p0 0 4)
  let num := match s.tl (natBits (s.dw i 9) 12 8) with
    | some t => t.ent.num
    | none => ⟨10, 14, [0, 7], 1, 2208, 2192⟩
  let slot := natBits (s.dw i 10) 20 7
  ((List.range (natBits p0 8 4)).map (fun k =>
    let sym := natBits p0 21 4 + k
    n + (if sym ∈ num.long ∧ slot % num.longEvery = 0 then natBits (s.par i 2) 0 12 else natBits (s.par i 2) 12 12))).foldl (· + ·) 0

/-- SPAN of an LDD job: P2, or W4 of IN[0] for 0; of a TRD job 3 × (K + 4) for its largest K. -/
def State.engSpan (s : State) (i c : Nat) : Nat :=
  if c = 3 then 3 * (natBits (s.par i 0) 0 13 + 4)
  else if natBits (s.par i 2) 0 16 = 0 then s.word ((s.engIn i 0).addr + 16) else natBits (s.par i 2) 0 16

/-- The least LENGTH of data input q that the parameters require (Table 7-5, IN_SIZE), where the spec gives its format; samples,
REs and weights are complex int16 (log entry 17). -/
def State.engNeeds (s : State) (i c op q : Nat) : Nat :=
  let b (w lo len : Nat) : Nat := natBits (s.par i w) lo len
  match c with
  | 1 => 32 + b 0 10 8 * roundUp 128 (s.engSpan i 1)
  | 2 => ((if op = 1 then b 1 0 21 else if op = 2 then b 0 0 10 else b 0 0 21) + 7) / 8
  | 3 => 32 + b 0 13 8 * roundUp 128 (s.engSpan i 3)
  | 4 => b 1 0 18
  | 5 => 4 * b 0 12 7 * (if op = 1 then s.fxeSamples i else if op = 2 then b 0 8 4 * b 1 12 13 else b 0 8 4 * b 1 0 12)
  | 6 => if q ≠ 0 ∨ op = 4 then 0 else 4 * b 0 27 4 * engRes (b 0 18 9) * (if op = 5 then b 0 7 5 else b 0 0 7)
  | 7 =>
    if q = 0 then 4 * b 0 24 4 * engRes (b 0 15 9) * (if op = 1 then b 0 7 5 else b 0 0 7)
    else 4 * b 0 0 7 * b 0 7 5 * engGroups (b 0 15 9) (b 0 12 3)
  | 9 =>
    if op = 1 then b 1 0 24
    else if q = 0 then 32 + b 0 21 8 * roundUp 128 (s.word ((s.engIn i 0).addr + 16))
    else 32 + 4 * b 0 21 8
  | _ => 0

/-! ### Results -/

/-- What an operation writes and counts: the words W0 [31:16], W1, W2 and W4 to W7 of the header, the bytes behind it, OUT[1], the
amount of T_AUX, and the soft-buffer writes of an HCE STORE. -/
structure EngOut where
  items : Nat
  fail : Nat
  sat : Nat
  w : List Nat
  data : List Byte
  out1 : List Byte
  aux : Nat
  stores : List (Nat × List Byte)
  deriving DecidableEq, Repr

/-- n bytes of an open result. -/
def openBytes (v : List Nat → Nat) (port n : Nat) : List Byte := (List.range n).map (fun j => BitVec.ofNat 8 (v [port, j]))

/-- The code-block record c of LDD and TRD (Table 7-8): CRC_OK and SYNDROME_OK open, iterations used ITER_MAX, or open and at most
that with ET = 1. -/
def cbRecord (v : List Nat → Nat) (iters : Nat) (et : Bool) (c : Nat) : Nat :=
  v [2, c] % 4 + (if et then 1 + v [3, c] % iters else iters) * 2 ^ 8

/-- The result of LDD and TRD DECODE. -/
def decodeOut (v : List Nat → Nat) (c iters tbs : Nat) (et : Bool) : EngOut :=
  let recs := (List.range c).map (cbRecord v iters et)
  let used := (recs.map (fun r => natBits r 8 5)).foldl (· + ·) 0
  ⟨c, (recs.filter (fun r => r % 2 = 0)).length, 0, [v [4] % 2, used, 0, 0], recs.flatMap (natLe 4), openBytes v 1 ((tbs + 7) / 8),
   used, []⟩

/-- The result of an operation of every class but HCE. -/
def State.engResult (s : State) (i c op : Nat) (v : List Nat → Nat) : EngOut :=
  let b (w lo len : Nat) : Nat := natBits (s.par i w) lo len
  let items := v [5] % 2 ^ 16
  let sat := v [6] % 2 ^ 32
  match c with
  | 1 => decodeOut v (b 0 10 8) (b 0 18 5) (b 3 0 21) (b 0 23 1 = 1)
  | 2 =>
    let g := if op = 1 then b 2 0 24 else if op = 2 then b 1 0 17 else b 1 0 24
    let cb := if op = 1 then b 0 10 8 else if op = 2 then 1 else items
    ⟨cb, 0, 0, [g, cb, 0, 0], openBytes v 0 ((g + 7) / 8), [], cb, []⟩
  | 3 => decodeOut v (b 0 13 8) (b 0 21 4) (b 1 0 21) (b 0 25 1 = 1)
  | 4 =>
    let ok := v [2] % 2
    let segs := if op = 1 then 1 + v [3] % 2 else 1
    ⟨segs, 1 - ok, 0, [v [4] % 2 ^ 32, 0, 0, 0], natLe 4 ok ++ openBytes v 0 ((b 0 0 11 + 7) / 8), [], segs, []⟩
  | 5 =>
    let n := 4 * b 0 12 7 * (if op = 1 then b 0 8 4 * b 1 12 13 else if op = 2 then s.fxeSamples i else b 0 8 4 * b 1 0 12)
    ⟨items, 0, sat, [0, 0, 0, 0], openBytes v 0 n, [], sat, []⟩
  | 6 =>
    if op = 4 then ⟨items, 0, sat, [0, 0, 0, 0], openBytes v 0 (16 * b 0 0 7), [], sat, []⟩
    else
      let res := b 0 27 4 * engRes (b 0 18 9) * b 0 7 5
      let n := if b 0 31 1 = 1 then 4 * res else res * qmBits (b 0 12 3)
      ⟨items, 0, sat, [0, 0, 0, 0], openBytes v 0 n, openBytes v 1 (2 * engGroups (b 0 18 9) (b 0 15 3) * b 0 7 5), sat, []⟩
  | 7 => ⟨items, 0, sat, [0, 0, 0, 0],
      openBytes v 0 (4 * b 0 24 4 * engRes (b 0 15 9) * (if op = 1 then b 0 0 7 else b 0 7 5)), [], sat, []⟩
  | 8 =>
    let det := v [2] % (b 1 0 7 + 1)
    ⟨det, 0, 0, [det, 0, 0, 0], openBytes v 0 (16 * det), [], det, []⟩
  | _ => ⟨0, 0, 0, [0, 0, 0, 0], [], [], 0, []⟩

/-! ### Soft buffers (R234 to R237) -/

/-- One bit of CRC-16 with polynomial 0x1021. -/
def crc16Bit (c : Nat) : Nat := if c.testBit 15 then (c * 2) % 2 ^ 16 ^^^ 0x1021 else c * 2 % 2 ^ 16

/-- CRC-16 over bytes from 0 (log entry 18). -/
def crc16 (bs : List Byte) : Nat :=
  bs.foldl (fun c (b : Byte) => repeatN crc16Bit 8 (c ^^^ (b.toNat * 2 ^ 8))) 0

/-- CRC16 of an entry: over W0 [15:0], W1 to W3 and the payload (Table 7-13). -/
def entryCrc (w0 w1 w2 w3 : Nat) (payload : List Byte) : Nat :=
  crc16 (natLe 2 w0 ++ natLe 4 w1 ++ natLe 4 w2 ++ natLe 4 w3 ++ payload)

/-- The HCE job's fields. -/
structure HceJob where
  mode : Nat
  isNew : Bool
  c : Nat
  bits : Nat
  z : Nat
  bg : Nat
  kp : Nat
  base : Nat
  stride : Nat
  lbrm : Bool
  f : Nat
  deriving DecidableEq, Repr

/-- Read the parameters of an HCE job (Table 7-12). -/
def State.hce (s : State) (i : Nat) : HceJob :=
  let b (w lo len : Nat) : Nat := natBits (s.par i w) lo len
  ⟨b 0 0 2, b 0 2 1 = 1, b 0 21 8, b 0 29 2, b 0 12 9, b 0 11 1, b 2 0 14, s.par i 4 + b 5 0 16 * 2 ^ 32, 64 * b 5 16 16,
   b 0 31 1 = 1, b 2 14 9⟩

/-- Bits per code. -/
def HceJob.width (h : HceJob) : Nat := 4 + h.bits

/-- K of code block c: K′ for NR; for LTE K_MINUS for the first C_MINUS blocks, K_PLUS for the others. -/
def State.hceK (s : State) (i : Nat) (h : HceJob) (c : Nat) : Nat :=
  if h.mode = 0 then h.kp else if c < natBits (s.par i 7) 13 8 then natBits (s.par i 7) 0 13 else natBits (s.par i 2) 0 13

/-- W2 of the entry header: the identity of the code. -/
def HceJob.ident (h : HceJob) : Nat := (if h.mode = 0 then h.z + h.bg * 2 ^ 9 else 0) + h.mode * 2 ^ 10

/-- Positions that an entry holds at most (R234). -/
def HceJob.capacity (h : HceJob) : Nat := (h.stride - 16) * 8 / h.width / 64 * 64

/-- Address of the entry of a code block. -/
def HceJob.entry (h : HceJob) (c : Nat) : Nat := h.base + c * h.stride

/-- Bytes of the payload of an entry. -/
def payloadBytes (span bits : Nat) : Nat := (span * bits + 7) / 8

/-- The stored LLRs of an entry, none where COMBINE takes it as empty (R236). -/
def State.hceEntry (s : State) (i : Nat) (h : HceJob) (c : Nat) : Option (List Int) :=
  let a := h.entry c
  let w0 := s.word a
  let w1 := s.word (a + 4)
  let span := natBits w1 0 15
  let bits := 4 + natBits w0 3 2
  let n := payloadBytes span bits
  let payload := s.bytes (a + 16) n
  if w0.testBit 5 ∧ natBits w0 16 16 = entryCrc (natBits w0 0 16) w1 (s.word (a + 8)) (s.word (a + 12)) payload ∧
     natBits (s.word (a + 8)) 0 11 = h.ident ∧ natBits (s.word (a + 12)) 0 13 = s.hceK i h c % 2 ^ 13 ∧
     ¬ s.poisoned a (16 + n) ∧ s.lineReady a ∧ s.lineReady (a + 16 + n - 1) then
    let x := leNat payload
    some ((List.range span).map (fun p => signed bits (natBits x (p * bits) bits) * (2 ^ natBits w0 0 3 : Nat)))
  else none

/-- An LLR saturated to -127 to 127 (R232). -/
def satLlr (x : Int) : Int := max (-127) (min 127 x)

/-- N_cb of a code block: the circular buffer of its code, or open where it is limited (LBRM, LTE). -/
def HceJob.ncb (h : HceJob) (v : List Nat → Nat) (c : Nat) : Nat :=
  let n := (if h.bg = 0 then 66 else 50) * h.z
  if h.mode = 0 then (if h.lbrm then v [7, c] % (n + 1) else n) else v [7, c] % (2 ^ 15)

/-- The span of code block c (R235): the larger of the stored one and the highest position received plus one (open), rounded up to
64 and limited to N_cb. -/
def HceJob.spanOf (h : HceJob) (v : List Nat → Nat) (stored : Option (List Int)) (c : Nat) : Nat :=
  min (h.ncb v c) (roundUp 64 (max ((stored.map List.length).getD 0) (v [8, c] % (h.ncb v c + 1))))

/-- The combined LLR of position x of code block c (R235): the received one (open) plus the stored one, saturated, and +127 at the
filler positions. -/
def HceJob.combined (h : HceJob) (v : List Nat → Nat) (stored : Option (List Int)) (c x : Nat) : Int :=
  if h.f ≠ 0 ∧ v [9, c, x] % 2 = 1 then 127
  else satLlr (satLlr ((v [10, c, x] % 255 : Nat) - 127 : Int) + (match stored with | some l => l.getD x 0 | none => 0))

/-- The result of HCE COMBINE (R235, R236). -/
def State.hceCombine (s : State) (i : Nat) (v : List Nat → Nat) : EngOut :=
  let h := s.hce i
  let stored := (List.range h.c).map (fun c => if h.isNew then none else s.hceEntry i h c)
  let lost := if h.isNew then 0 else (stored.filter (·.isNone)).length
  let spans := (List.range h.c).map (fun c => h.spanOf v (stored.getD c none) c)
  let out := spans.foldl max 0
  let block (c : Nat) : List Byte := (List.range (roundUp 128 out)).map (fun x =>
    BitVec.ofInt 8 (if x < spans.getD c 0 then h.combined v (stored.getD c none) c x else 0))
  ⟨h.c, 0, v [6] % 2 ^ 32, [out, lost, 0, 0], (List.range h.c).flatMap block, [], lost, []⟩

/-- The code of x at scale k (R237). -/
def hceCode (k : Nat) (x : Int) : Int := if k = 0 then x else (x + (2 ^ (k - 1) : Nat)) / (2 ^ k : Nat)

/-- The smallest scale at which every LLR fits in b bits (R237). -/
def hceScale (b : Nat) (xs : List Int) : Nat :=
  ((List.range 8).find? (fun k => xs.all (fun x => decide (-(2 ^ (b - 1) : Nat) ≤ hceCode k x ∧ hceCode k x < (2 ^ (b - 1) : Nat))))).getD 7

/-- The bytes of a complete entry for the LLRs of a code block (R237). -/
def HceJob.entryBytes (h : HceJob) (k : Nat) (xs : List Int) : List Byte :=
  let keep := xs.take h.capacity
  let scale := hceScale h.width xs
  let span := keep.length
  let payload := natLe (payloadBytes span h.width)
    ((keep.zipIdx.map (fun q => unsigned h.width (hceCode scale q.1) * 2 ^ (q.2 * h.width))).foldl (· + ·) 0)
  let w0 := scale + h.bits * 2 ^ 3 + 2 ^ 5 + (if keep.length < xs.length then 2 ^ 6 else 0)
  let w3 := k % 2 ^ 13
  natLe 2 w0 ++ natLe 2 (entryCrc w0 span h.ident w3 payload) ++ natLe 4 span ++ natLe 4 h.ident ++ natLe 4 w3 ++ payload

/-- The header of an invalidated entry (R237): VALID = 0 with a fresh CRC16 over no payload. -/
def HceJob.invalid (h : HceJob) (k : Nat) : List Byte :=
  let w0 := h.bits * 2 ^ 3
  natLe 2 w0 ++ natLe 2 (entryCrc w0 0 h.ident (k % 2 ^ 13) []) ++ natLe 4 0 ++ natLe 4 h.ident ++ natLe 4 (k % 2 ^ 13)

/-- The result of HCE STORE (R237): entries of the failed code blocks, invalid headers for the others. -/
def State.hceStore (s : State) (i : Nat) : EngOut :=
  let h := s.hce i
  let a := (s.engIn i 0).addr
  let span := s.word (a + 16)
  let ok (c : Nat) : Bool := !(s.engIn i 1).empty && (s.word ((s.engIn i 1).addr + 32 + 4 * c)).testBit 0
  let llr (c : Nat) : List Int := (s.bytes (a + 32 + c * roundUp 128 span) span).map (fun x => x.toInt)
  let failed := (List.range h.c).filter (fun c => !ok c)
  let passed := (List.range h.c).filter ok
  ⟨h.c, failed.length, 0, [passed.length, if h.capacity < span then failed.length else 0, 0, 0], [], [], 0,
   failed.map (fun c => (h.entry c, h.entryBytes (s.hceK i h c) (llr c))) ++
   passed.map (fun c => (h.entry c, h.invalid (s.hceK i h c)))⟩

/-! ### The engine map (R217) -/

/-- Is a physical engine behind an instance idle between jobs? -/
def State.engIdle (s : State) (c p : Nat) : Bool :=
  !(s.exu.jobs.any (fun j => decide (engClass j.1 = c ∧ s.get F.T_CTRL_MAP_PHYS j.1 = p)))

/-- The writes of a class that wait. -/
def State.mapWaits (s : State) (c : Nat) : List (Nat × Nat) := s.exu.mapPhys.filter (fun x => engClass x.1 = c)

/-- What the instances of a class would hold after the writes ws. -/
def State.mapAfter (s : State) (ws : List (Nat × Nat)) (i : Nat) : Nat := Tab.get (s.get F.T_CTRL_MAP_PHYS i) ws i

/-- The waiting writes that take effect together with that of instance i: those that give away the engine it takes, and so on. -/
def State.mapGroup (s : State) (c i : Nat) : List (Nat × Nat) :=
  let ws := s.mapWaits c
  repeatN (fun (g : List (Nat × Nat)) => ws.filter (fun w => decide (w ∈ g) ||
    g.any (fun x => decide (s.get F.T_CTRL_MAP_PHYS w.1 = x.2 ∨ w.2 = s.get F.T_CTRL_MAP_PHYS x.1)))) ws.length
    (ws.filter (fun w => w.1 = i))

/-- Show the physical engine behind an instance. -/
def State.mapShow (s : State) (i p : Nat) : State :=
  s.putAll i 0 [(F.T_CTRL_MAP_PHYS, p), (F.T_STATUS_PHYS, p), (F.T_STATUS_ROW, rowOfPhys (engRows (engClass i)) p),
    (F.T_STATUS_MAP_PENDING, 0)]

/-- The executor of instance k of class c: a bench engine follows the active ones (R217). -/
def engExec (c k : Nat) : Nat := if k < classActive c then classBase c + k else benchExec c (k - classActive c)

/-- Apply the waiting write of instance i with those that exchange engines with it, once all engines involved are idle. -/
def State.engMapApply (s : State) (i : Nat) : State :=
  let c := engClass i
  let g := s.mapGroup c i
  if g.all (fun w => s.engIdle c w.2 && s.engIdle c (s.get F.T_CTRL_MAP_PHYS w.1)) then
    let s := s.setExu { s.exu with mapPhys := s.exu.mapPhys.filter (fun w => decide (w ∉ g)) }
    g.foldl (fun s w =>
      let e := engExec c (engLocal w.1)
      ((s.mapShow w.1 w.2).clr F.T_STATUS_OUT w.1).setExec e { s.exec e with out := false }) s
  else s

/-- A Steward write of MAP_PHYS: ignored beyond the type and for a retired engine. -/
def State.engMapWrite (s : State) (i p : Nat) : State :=
  let c := engClass i
  if engCount c ≤ p ∨ s.retired (2 + c) p then s
  else
    let s := (s.setExu { s.exu with mapPhys := Tab.set s.exu.mapPhys i p }).set F.T_STATUS_MAP_PENDING i
    s.engMapApply i

/-- Apply every waiting write of a class that can. -/
def State.engMapTry (s : State) (c : Nat) : State := (s.mapWaits c).foldl (fun s w => s.engMapApply w.1) s

/-! ### The end of a job -/

/-- End a job with a code, cause and REASON, and LENGTH of OUT[0] and OUT[1]: the capture of T_FAULT, the record of a hardware fault,
the counters, and the completion (R132, R225, R228). -/
def State.engEnd (s : State) (i : Nat) (j : EngJob) (busy code cause reason addr len0 len1 : Nat) : State :=
  let c := engClass i
  let s := if cause = 0 ∨ s.flag F.T_FAULT_VALID i then s else
    s.putAll i 0 [(F.T_FAULT_CAUSE, cause), (F.T_FAULT_CODE, code), (F.T_FAULT_VALID, 1), (F.T_FAULT_REASON, reason)]
  let s := if cause < 0x10 then s else
    s.report ⟨3, cause, 1, (2 + c) * 2048 + s.get F.T_CTRL_MAP_PHYS i, if cause = 0x15 then reason else 0, addr⟩
  let s := (s.count F.T_BUSY_BUSY busy i).clr F.T_STATUS_BUSY i
  let s := if code = 0 then s.count F.T_JOBS_JOBS 1 i else s
  let words := (List.range 8).map (fun p => (if p = 0 then len0 else if p = 1 then len1 else 0, (s.engOut i p).flowTag, (s.engOut i p).user))
  let s := s.setExu { s.exu with jobs := Tab.erase s.exu.jobs i }
  let s := match s.execDomain j.exec with
    | some d => s.domTouch d
    | none => s
  let x := s.exec j.exec
  (s.setExec j.exec { x with done := some ⟨code, cause, reason, words⟩ }).engMapTry c

/-- The words of a result header (Table 7-3). -/
def EngOut.header (o : EngOut) (op cycles : Nat) (empty : Bool) : List Nat :=
  [op + (if empty then 2 ^ 8 else 0) + o.items % 2 ^ 16 * 2 ^ 16, o.fail % 2 ^ 32, o.sat % 2 ^ 32, cycles % 2 ^ 32] ++
  (o.w.map (· % 2 ^ 32))

/-- Write a result and end the job with code 0 (R225, R226). -/
def State.engWrite (s : State) (i : Nat) (j : EngJob) (op cycles busy : Nat) (empty : Bool) (o : EngOut) : State :=
  let out1 := if (s.engOut i 1).addr = 0 then [] else o.out1
  let bytes := (o.header op cycles empty).flatMap (natLe 4) ++ o.data
  if s.poolSize (s.engOut i 0).pool < bytes.length ∨ s.poolSize (s.engOut i 1).pool < out1.length then s.engEnd i j busy 1 0x03 0 0 0 0
  else
    let s := o.stores.foldl (fun s x => s.store x.1 x.2) s
    let s := s.store (s.engOut i 0).addr bytes
    let s := if out1 = [] then s else s.store (s.engOut i 1).addr out1
    let s := (s.count F.T_ITEMS_ITEMS (o.items % 2 ^ 16) i).count F.T_FAIL_FAIL o.fail i
    (s.count F.T_AUX_AUX o.aux i).engEnd i j busy 0 0 0 0 bytes.length out1.length

/-- An empty result. -/
def EngOut.none : EngOut := ⟨0, 0, 0, [0, 0, 0, 0], [], [], 0, []⟩

/-- May an engine reach n bytes at a: system SRAM, cluster SRAM, and HBM unless sramOnly (R218, R222)? -/
def engReach (sramOnly : Bool) (a n : Nat) : Bool :=
  let in1 (x : Nat) : Bool :=
    decide ((0x10000000 ≤ x ∧ x < 0x14000000) ∨ (0x20000000 ≤ x ∧ x < 0x38000000 ∧ x % 0x1000000 < 0x800000)) ||
    (!sramOnly && memKind x = some .hbm)
  in1 a && in1 (a + n - 1)

/-- The correction bank a BWA job reads with CORR = 1 (R100, R233). -/
def State.engBank (s : State) (i : Nat) : List Byte :=
  match s.tl (natBits (s.dw i 9) 12 8) with
  | some t =>
    let n := t.ent.streamCount * 16
    s.bytes (sramBase + t.ent.corrPtr + natBits (s.dw i 9) 20 1 * n) n
  | none => []

/-- The open values of a job: by operation, parameters and the timeline's type, and the input bytes (R219). -/
def State.engVal (s : State) (i c op : Nat) (key : List Nat) : Nat :=
  let tl := match s.tl (natBits (s.dw i 9) 12 8) with
    | some t => [t.ent.std, t.ent.mu]
    | none => []
  let ins := (List.range (engInputs c op)).map (fun q => s.bytes (s.engIn i q).addr (s.engIn i q).length)
  let bank := if c = 7 ∧ (s.par i 1).testBit 9 then [s.engBank i] else []
  Config.engine ([c, op] ++ (List.range 64).map (s.par i) ++ tl) (ins ++ bank) key

/-- Compute and write the result of a job whose checks have passed, with its injection and the poison of its inputs (R228, R574). -/
def State.engCompute (s : State) (i c op : Nat) (j : EngJob) (cycles busy : Nat) : State :=
  let ins := (List.range (engInputs c op)).filter (fun q => !(s.engIn i q).empty)
  match ins.find? (fun q => decide (0 < (s.engIn i q).length) && s.poisoned (s.engIn i q).addr (s.engIn i q).length) with
  | some q => s.engEnd i j busy 7 0x15 q (s.engIn i q).addr 0 0
  | none =>
    if j.inj = 1 then (s.clr F.T_CTRL_INJ_RESIDUE i).engEnd i j busy 2 0x10 0 0 0 0
    else if j.inj = 3 then (s.clr F.T_CTRL_INJ_CRC i).engEnd i j busy 5 0x13 0 0 0 0
    else
      let o := if c = 9 then (if op = 1 then s.hceCombine i (s.engVal i c op) else s.hceStore i)
        else s.engResult i c op (s.engVal i c op)
      s.engWrite i j op cycles busy false o

/-- Run a job through its checks (R218, R222 to R225, R230; the order is log entry 17). -/
def State.engJobRun (s : State) (i c op : Nat) (j : EngJob) (cycles busy : Nat) : State :=
  let s := s.put F.T_STATUS_OP op i
  let paramIn := (s.dw i 0).testBit 12
  let pp := natBits (s.dw i 0) 13 3
  let len := natBits (s.dw i 0) 16 7
  let off := natBits (s.dw i 1) 0 16
  let stop (s : State) (cause reason : Nat) : State := s.engEnd i j busy 1 cause reason 0 0 0
  if natBits (s.dw i 0) 0 4 ≠ c ∨ natBits (s.dw i 0) 4 8 ≠ op ∨ 64 < len ∨ off % 16 ≠ 0 then
    let (r, s) := s.freshNat
    stop s 0x01 r
  else
    let pt := s.engIn i pp
    let ins := List.range (engInputs c op)
    if paramIn ∧ pt.empty then s.engWrite i j op cycles busy true EngOut.none
    else if paramIn ∧ ¬ engReach true pt.addr (max 1 pt.length) then stop s 0x02 pp
    else if paramIn ∧ pt.length < off + 4 * len then stop s 0x04 pp
    else if paramIn ∧ s.poisoned (pt.addr + off) (4 * len) then s.engEnd i j busy 7 0x15 pp (pt.addr + off) 0 0
    else
      let s := if paramIn then (List.range len).foldl (fun s q => s.put F.T_DESC_DESC (s.word (pt.addr + off + 4 * q)) i (76 + q)) s else s
      match (engChecks c op (s.par i)).find? (fun x => !x.2) with
      | some (w, _) => stop s 0x01 w
      | none =>
        if c = 9 ∧ op = 2 ∧ 2 ≤ s.engRunNo i then stop s 0x06 0
        else if (ins.any (fun q => (s.engIn i q).empty)) ∧ (c ≠ 9 ∨ op ≠ 2 ∨ (s.engIn i 0).empty) then
          s.engWrite i j op cycles busy true EngOut.none
        else
          let used := ins.filter (fun q => !(s.engIn i q).empty)
          match used.find? (fun q => !engReach false (s.engIn i q).addr (max 1 (s.engIn i q).length)) with
          | some q => stop s 0x02 q
          | none =>
            if ¬ engReach false (s.engOut i 0).addr 1 then stop s 0x02 0
            else
              match used.find? (fun q => decide ((s.engIn i q).length < s.engNeeds i c op q)) with
              | some q => stop s 0x04 q
              | none =>
                if j.inj = 2 then (s.clr F.T_CTRL_INJ_PARITY i).engEnd i j busy 3 0x11 0 0 0 0
                else s.engCompute i c op j cycles busy

/-- The operation of a job as a row takes it: an operation its class does not have is judged by the row of any of them. -/
def engRowOp (c op : Nat) (w0 : Nat) : Bool :=
  decide (natBits w0 4 8 = op ∨ natBits w0 4 8 = 0 ∨ engOps c < natBits w0 4 8 ∨ natBits w0 0 4 ≠ c)

/-- A job of class c and operation op on instance k of its type ends. -/
def State.engJob (s : State) (c op k cycles busy : Nat) : State :=
  let i := engInst c k
  match Tab.find s.exu.jobs i with
  | some j => if k < classActive c + classBench c ∧ engRowOp c op (s.dw i 0) then s.engJobRun i c op j cycles busy else s
  | none => s

/-! ### The meanings -/

/-- LDD_DECODE (R227, Table 7-8). -/
def execLddDecode (k : BitVec 8) (cycles busy : Nat) (s : State) : Host.Outcome State Fault Refusal := .next (s.engJob 1 1 k.toNat cycles busy)

/-- CEN_LDPC (R231). -/
def execCenLdpc (k : BitVec 8) (cycles busy : Nat) (s : State) : Host.Outcome State Fault Refusal := .next (s.engJob 2 1 k.toNat cycles busy)

/-- CEN_POLAR (R231). -/
def execCenPolar (k : BitVec 8) (cycles busy : Nat) (s : State) : Host.Outcome State Fault Refusal := .next (s.engJob 2 2 k.toNat cycles busy)

/-- CEN_TURBO (R231). -/
def execCenTurbo (k : BitVec 8) (cycles busy : Nat) (s : State) : Host.Outcome State Fault Refusal := .next (s.engJob 2 3 k.toNat cycles busy)

/-- TRD_DECODE (R231). -/
def execTrdDecode (k : BitVec 8) (cycles busy : Nat) (s : State) : Host.Outcome State Fault Refusal := .next (s.engJob 3 1 k.toNat cycles busy)

/-- PLD_DECODE_UL (R231). -/
def execPldDecodeUl (k : BitVec 8) (cycles busy : Nat) (s : State) : Host.Outcome State Fault Refusal := .next (s.engJob 4 1 k.toNat cycles busy)

/-- PLD_DECODE_DL (R231). -/
def execPldDecodeDl (k : BitVec 8) (cycles busy : Nat) (s : State) : Host.Outcome State Fault Refusal := .next (s.engJob 4 2 k.toNat cycles busy)

/-- FXE_RX (R227). -/
def execFxeRx (k : BitVec 8) (cycles busy : Nat) (s : State) : Host.Outcome State Fault Refusal := .next (s.engJob 5 1 k.toNat cycles busy)

/-- FXE_TX (R227). -/
def execFxeTx (k : BitVec 8) (cycles busy : Nat) (s : State) : Host.Outcome State Fault Refusal := .next (s.engJob 5 2 k.toNat cycles busy)

/-- FXE_TPDFT (R227). -/
def execFxeTpdft (k : BitVec 8) (cycles busy : Nat) (s : State) : Host.Outcome State Fault Refusal := .next (s.engJob 5 3 k.toNat cycles busy)

/-- FXE_TPIDFT (R227). -/
def execFxeTpidft (k : BitVec 8) (cycles busy : Nat) (s : State) : Host.Outcome State Fault Refusal := .next (s.engJob 5 4 k.toNat cycles busy)

/-- MDE_DETECT (R227). -/
def execMdeDetect (k : BitVec 8) (cycles busy : Nat) (s : State) : Host.Outcome State Fault Refusal := .next (s.engJob 6 1 k.toNat cycles busy)

/-- MDE_MMSE (R227). -/
def execMdeMmse (k : BitVec 8) (cycles busy : Nat) (s : State) : Host.Outcome State Fault Refusal := .next (s.engJob 6 2 k.toNat cycles busy)

/-- MDE_MMSE_IRC (R227). -/
def execMdeMmseIrc (k : BitVec 8) (cycles busy : Nat) (s : State) : Host.Outcome State Fault Refusal := .next (s.engJob 6 3 k.toNat cycles busy)

/-- MDE_CAL_EST (R227). -/
def execMdeCalEst (k : BitVec 8) (cycles busy : Nat) (s : State) : Host.Outcome State Fault Refusal := .next (s.engJob 6 4 k.toNat cycles busy)

/-- MDE_DEMAP (R227). -/
def execMdeDemap (k : BitVec 8) (cycles busy : Nat) (s : State) : Host.Outcome State Fault Refusal := .next (s.engJob 6 5 k.toNat cycles busy)

/-- BWA_PRECODE (R233). -/
def execBwaPrecode (k : BitVec 8) (cycles busy : Nat) (s : State) : Host.Outcome State Fault Refusal := .next (s.engJob 7 1 k.toNat cycles busy)

/-- BWA_COMBINE (R233). -/
def execBwaCombine (k : BitVec 8) (cycles busy : Nat) (s : State) : Host.Outcome State Fault Refusal := .next (s.engJob 7 2 k.toNat cycles busy)

/-- PRD_DETECT (R227). -/
def execPrdDetect (k : BitVec 8) (cycles busy : Nat) (s : State) : Host.Outcome State Fault Refusal := .next (s.engJob 8 1 k.toNat cycles busy)

/-- HCE_COMBINE (R235, R236). -/
def execHceCombine (k : BitVec 8) (cycles busy : Nat) (s : State) : Host.Outcome State Fault Refusal := .next (s.engJob 9 1 k.toNat cycles busy)

/-- HCE_STORE (R230, R237). -/
def execHceStore (k : BitVec 8) (cycles busy : Nat) (s : State) : Host.Outcome State Fault Refusal := .next (s.engJob 9 2 k.toNat cycles busy)

/-- End the job of an instance by an event of its own. -/
def State.engStop (s : State) (c k busy code cause reason addr : Nat) : State :=
  match Tab.find s.exu.jobs (engInst c k) with
  | some j => if 1 ≤ c ∧ k < classActive c + classBench c then s.engEnd (engInst c k) j busy code cause reason addr 0 0 else s
  | none => s

/-- ENGINE_WATCHDOG (R228, Table 7-5). -/
def execEngineWatchdog (cls : Fin 10) (k : BitVec 8) (busy : Nat) (s : State) : Host.Outcome State Fault Refusal :=
  .next (s.engStop cls k.toNat busy 1 0x05 0 0)

/-- ENGINE_HARDWARE_FAULT (R228, Table 7-5). -/
def execEngineHardwareFault (cls : Fin 10) (k : BitVec 8) (kind : EngineFaultKind) (busy : Nat) (s : State) :
    Host.Outcome State Fault Refusal :=
  .next (match kind with
    | .residue => if 5 ≤ cls.val ∧ cls.val ≤ 7 then s.engStop cls k.toNat busy 2 0x10 0 0 else s
    | .parity => s.engStop cls k.toNat busy 3 0x11 0 0
    | .ecc => s.engStop cls k.toNat busy 4 0x12 0 0
    | .stageCrc => s.engStop cls k.toNat busy 5 0x13 0 0
    | .bus a => s.engStop cls k.toNat busy 6 0x14 0 a
    | .poisonIn p a => s.engStop cls k.toNat busy 7 0x15 p a)

/-- ENGINE_MAP_PHYS_WRITE (R217). -/
def execEngineMapPhysWrite (cls : Fin 10) (k : BitVec 8) (phys : BitVec 8) (s : State) : Host.Outcome State Fault Refusal :=
  .next (if 1 ≤ cls.val ∧ k.toNat < classActive cls + classBench cls then s.engMapWrite (engInst cls k.toNat) phys.toNat else s)

/-- ENGINE_MAP_APPLY (R217). -/
def execEngineMapApply (cls : Fin 10) (k : BitVec 8) (s : State) : Host.Outcome State Fault Refusal :=
  .next (if (s.exu.mapPhys.any (fun w => w.1 = engInst cls k.toNat)) then s.engMapApply (engInst cls k.toNat) else s)

end Sys2Proof.Machine
end

