-- ==== Sys2Proof/Machine/PwrOps.lean ====
section
/-!
DEFINITION. Sys2Proof/Machine/PwrOps.lean: requests to power control (R447, R448, R450) and the start of a transition (R449); the
ends of transitions and the meanings of their rows are in Power.lean.
-/
namespace Sys2Proof.Machine

/-- A cluster or row domain (Table 15-1). -/
def domCore (d : Nat) : Bool := decide (d < 28)

/-- The states allowed for a domain (Table 15-1), none for a reserved id. -/
def domAllowed (d : Nat) : List Nat :=
  if d < 28 then [0, 1, 2, 3, 5]
  else if d < 32 then []
  else if d < 64 then [0, 5]
  else if d < 128 then [0, 3, 5]
  else if d < 132 then [0, 3, 5]
  else if d = 255 then [0, 4, 5]
  else []

/-- Is a transition of a domain in progress? -/
def State.domMoving (s : State) (d : Nat) : Bool := s.flag F.PWR_DOM_STATE_ENTERING 0 d || s.flag F.PWR_DOM_STATE_WAKING 0 d

/-- Refuse a request with a cause (R448); a reserved domain has no counter. -/
def State.pwrRefuse (s : State) (d cause : Nat) : State :=
  let s := s.putAll 0 0 [(F.PWR_REQ_STATUS_REFUSED, 1), (F.PWR_REQ_STATUS_CAUSE, cause), (F.PWR_REQ_STATUS_DOMAIN, d)]
  if domAllowed d = [] then s else s.count F.PWR_DOM_REFUSED_REFUSED 1 0 d

/-- Is an executor in service in a domain in RUN, TRIM or DOZE, when the domains ds are taken away (R448, cause 4)? -/
def State.execUp (s : State) (ds : List Nat) (e : Nat) : Bool :=
  s.execInService e && (match s.execDomain e with
    | some d => decide (d ∉ ds) && decide (s.domState d ≤ 2) &&
        !(s.flag F.PWR_DOM_STATE_ENTERING 0 d && decide (3 ≤ s.get F.PWR_DOM_STATE_TARGET 0 d))
    | none => false)

/-- Would some executor class have no more executors left than its reserve without domain d (R448, cause 4)? -/
def State.pwrShort (s : State) (d : Nat) : Bool :=
  (List.range 10).any (fun c => (classExecs c).any (fun e => s.execDomain e = some d) &&
    decide (((classExecs c).filter (s.execUp [d])).length ≤ s.get F.GDX_CLASS_RESERVE_RESERVE 0 c))

/-- May a direction of coupler port p change state: UP with an agreed minor of 2 (R386, cause 6)? -/
def State.cplMayMove (s : State) (p : Nat) : Bool :=
  s.get F.CPL_PORT_STATUS_STATE p = 2 && s.get F.CPL_PORT_PARTNER_AGREED_MINOR p = 2

/-- Ticks of the timing clock per microsecond. -/
def tickUs : Nat := 625

/-- Has a domain been in its present state for its MIN_DWELL_US (R448, cause 3)? -/
def State.pwrDwelt (s : State) (d : Nat) : Bool :=
  decide (s.get F.PWR_DOM_POLICY_MIN_DWELL_US 0 d * tickUs ≤ s.tbu.ticks - Tab.get 0 s.pwr.since d)

/-- A domain is in state t from now on, with no transition. -/
def State.pwrSettle (s : State) (d t : Nat) : State :=
  let s := s.putAll 0 d [(F.PWR_DOM_STATE_STATE, t), (F.PWR_DOM_STATE_TARGET, 0), (F.PWR_DOM_STATE_ENTERING, 0),
    (F.PWR_DOM_STATE_WAKING, 0), (F.PWR_DOM_STATE_STEP, 0)]
  s.setPwr { s.pwr with since := Tab.set s.pwr.since d s.tbu.ticks, autoEntry := s.pwr.autoEntry.filter (· ≠ d) }

/-- Start an entry of a domain from state cur into a deeper state t (R449): its first step, 0 for a change into TRIM, 4 for the one
step of a cluster from SLEEP to OFF; a row completes that entry at once. -/
def State.pwrEnter (s : State) (d cur t : Nat) : State :=
  if domCore d ∧ 24 ≤ d ∧ cur = 3 then (s.pwrSettle d t).count F.PWR_DOM_ENTRIES_ENTRIES 1 0 d
  else
    s.putAll 0 d [(F.PWR_DOM_STATE_TARGET, t), (F.PWR_DOM_STATE_ENTERING, 1),
      (F.PWR_DOM_STATE_STEP, if t = 1 then 0 else if domCore d ∧ cur = 3 then 4 else 1)]

/-- The cause for which a request that starts now is refused, 0 for none: causes 2, 3 and 4 for an entry, cause 6 for a coupler
direction. -/
def State.pwrJudge (s : State) (d t : Nat) : Nat :=
  let cur := s.domState d
  if cur < t ∧ s.get F.PWR_DOM_POLICY_DEEPEST 0 d < t ∧ d ≠ 255 then 2
  else if cur < t ∧ ¬ s.pwrDwelt d then 3
  else if domCore d ∧ cur < t ∧ 3 ≤ t ∧ s.pwrShort d then 4
  else if 96 ≤ d ∧ d < 128 ∧ ¬ s.cplMayMove (d % 16) then 6
  else 0

/-- Start a request: nothing for the present state, an entry into a deeper state, a wake into a shallower one. -/
def State.pwrStart (s : State) (d t : Nat) : State :=
  let cur := s.domState d
  if t = cur then s
  else
    let c := s.pwrJudge d t
    if c ≠ 0 then s.pwrRefuse d c
    else if cur < t then (s.setPwr { s.pwr with dozedFrom := Tab.erase s.pwr.dozedFrom d }).pwrEnter d cur t
    else s.putAll 0 d [(F.PWR_DOM_STATE_TARGET, t), (F.PWR_DOM_STATE_WAKING, 1)]

/-- Does a request wait: a transition of the domain is in progress, or a gap of the coupler port is open (R386, R450)? -/
def State.pwrWaits (s : State) (d : Nat) : Bool :=
  s.domMoving d || (decide (96 ≤ d ∧ d < 128) && s.flag F.CPL_PORT_STATUS_GAP_OPEN (d % 16))

/-- A request of a target state for a domain (R448, R450); own is set for the Brildo HIBERNATE command. -/
def State.pwrRequest (s : State) (d t : Nat) (own : Bool := false) : State :=
  if t ∉ domAllowed d then s.pwrRefuse d 1
  else if d = 255 ∧ 4 ≤ t ∧ ¬ own then s.pwrRefuse d 5
  else if s.pwrWaits d then s.putAll 0 d [(F.PWR_DOM_STATE_PENDING_VALID, 1), (F.PWR_DOM_STATE_PENDING, t)]
  else s.pwrStart d t

/-- The pending request of a domain starts once no transition is in progress (R450). -/
def State.pwrResume (s : State) (d : Nat) : State :=
  if s.flag F.PWR_DOM_STATE_PENDING_VALID 0 d ∧ ¬ s.domMoving d then
    let t := s.get F.PWR_DOM_STATE_PENDING 0 d
    (s.putAll 0 d [(F.PWR_DOM_STATE_PENDING_VALID, 0), (F.PWR_DOM_STATE_PENDING, 0)]).pwrStart d t
  else s

/-- A dispatch to an executor in a dozing domain wakes it into the state it auto-dozed from, or RUN (R442, R443, R447). -/
def State.pwrDispatch (s : State) (d : Nat) : State :=
  if s.domState d = 2 ∧ ¬ s.flag F.PWR_DOM_STATE_WAKING 0 d then
    (s.putAll 0 d [(F.PWR_DOM_STATE_TARGET, Tab.get 0 s.pwr.dozedFrom d), (F.PWR_DOM_STATE_WAKING, 1)])
  else s

end Sys2Proof.Machine
end

