-- ==== Sys2Proof/Machine/Sq.lean ====
section
/-!
DEFINITION. Sys2Proof/Machine/Sq.lean: the stream queues and flow-control pins (11_stream_queues.md): enable, disable and reset,
offering and freeing items, gaps, credits, watermarks, XOFF and PFC; and the meanings of their commands.
-/
namespace Sys2Proof.Machine

/-- A queue that software has enabled at least once. -/
def State.queue (s : State) (q : Nat) : Option Queue := Tab.find s.sq.queues q

/-- Store a queue. -/
def State.setQueue (s : State) (q : Nat) (x : Queue) : State := { s with sq := { s.sq with queues := Tab.set s.sq.queues q x } }

/-- Is a queue enabled? -/
def State.queueOn (s : State) (q : Nat) : Bool := s.flag F.SQ_Q_STATUS_EN 0 q

/-- The words of a queue table entry in memory. -/
def State.queueWords (s : State) (q : Nat) : List Nat := s.words (sramBase + s.get F.SQ_TABLE_BASE_BASE + 64 * q) 8

/-- A queue table entry (Table 11-1). -/
def queueEntry (w : List Nat) : QueueEntry where
  credit := natBits (w.getD 0 0) 0 1 = 1
  producer := natBits (w.getD 0 0) 1 3
  consumer := natBits (w.getD 0 0) 4 2
  port := natBits (w.getD 0 0) 6 5
  itemSize := 32 * (natBits (w.getD 0 0) 11 3 + 1)
  tl := natBits (w.getD 0 0) 16 8
  depth := natBits (w.getD 1 0) 0 16
  creditBatch := natBits (w.getD 1 0) 16 16
  hi := natBits (w.getD 2 0) 0 16
  lo := natBits (w.getD 2 0) 16 16
  itemBase := natBits (w.getD 3 0) 0 26
  dataBase := natBits (w.getD 4 0) 0 32 + natBits (w.getD 5 0) 0 16 * 2 ^ 32
  dataSize := natBits (w.getD 6 0) 0 18 * 128
  xoffPin := natBits (w.getD 7 0) 0 4
  xoffEn := natBits (w.getD 7 0) 4 1 = 1
  pfcEn := natBits (w.getD 7 0) 5 1 = 1
  pfcPrio := natBits (w.getD 7 0) 6 3
  pfcPort := natBits (w.getD 7 0) 9 5

/-- Does the port of an entry name no port of its kind (R315): coupler ports are 0 to 15? -/
def QueueEntry.badPort (e : QueueEntry) : Bool := (e.producer = 2 || e.consumer = 2) && 16 ≤ e.port

/-- The cause for which SQ refuses an enable (R315, Table 11-5), 0 for none; the lowest where several hold (log entry 10). -/
def QueueEntry.refusal (e : QueueEntry) (enabled : Bool) : Nat :=
  if e.depth < 4 ∨ 32768 < e.depth then 1
  else if e.hi ≤ e.lo ∨ e.depth - 1 < e.hi then 2
  else if e.credit ∧ (e.producer ≠ 2 ∨ e.creditBatch < 1 ∨ e.depth - 1 < e.creditBatch) then 3
  else if 4 ≤ e.producer ∨ e.badPort then 4
  else if (e.producer = 1 ∨ e.producer = 2) ∧
      (e.dataSize = 0 ∨ (e.dataBase < 0x40400000 ∧ 0x40000000 < e.dataBase + e.depth * e.dataSize)) then 5
  else if enabled then 6
  else 0

/-! ### Watermarks, XOFF_OUT and PFC (R328 to R330) -/

/-- The OR of XOFF_STATE over the enabled queues that satisfy a test. -/
def State.xoffOr (s : State) (p : QueueEntry → Bool) : Bool :=
  s.sq.queues.any (fun x => p x.2.ent && s.queueOn x.1 && s.flag F.SQ_Q_STATUS_XOFF_STATE 0 x.1)

/-- Send a PFC frame on a port that is UP, and count it (R330, R340). -/
def State.pfcSend (s : State) (port prio time : Nat) : State :=
  if s.get F.NET_PORT_STATUS_STATE port ≠ 2 then s else (s.send (.pfc port prio time)).count F.NET_PFC_TX_PFC_TX 1 port

/-- Drive XOFF_OUT n and the PFC state of a port and priority after a change of a queue (R329, R330). -/
def State.xoffShow (s : State) (e : QueueEntry) : State :=
  let pin := s.xoffOr (fun x => x.xoffEn && x.xoffPin = e.xoffPin)
  let old := s.get F.SQ_XOFF_OUT_STATE_STATE
  let s := if old.testBit e.xoffPin = pin then s
    else
      let s := s.put F.SQ_XOFF_OUT_STATE_STATE (if pin then old + 2 ^ e.xoffPin else old - 2 ^ e.xoffPin)
      if e.xoffPin ∈ s.pins.xoffParked then s
      else s.send (.xoffOut e.xoffPin (pin != (s.get F.SQ_XOFF_OUT_POL_POL).testBit e.xoffPin))
  let pfc := s.xoffOr (fun x => x.pfcEn && x.pfcPort = e.pfcPort && x.pfcPrio = e.pfcPrio)
  let was := decide ((e.pfcPort, e.pfcPrio) ∈ s.sq.pfcOr)
  if pfc = was then s
  else if pfc then
    ({ s with sq := { s.sq with pfcOr := s.sq.pfcOr ++ [(e.pfcPort, e.pfcPrio)] } }).pfcSend e.pfcPort e.pfcPrio
      (s.get F.SQ_PFC_CFG_QUANTA)
  else ({ s with sq := { s.sq with pfcOr := s.sq.pfcOr.filter (· ≠ (e.pfcPort, e.pfcPrio)) } }).pfcSend e.pfcPort e.pfcPrio 0

/-- Evaluate LEVEL, PEAK_LEVEL and the watermarks at the end of a cycle (R321, R328). -/
def State.queueLevel (s : State) (q : Nat) : State :=
  match s.queue q with
  | none => s
  | some x =>
    let level := x.items.length
    let s := (s.put F.SQ_Q_LEVEL_LEVEL level 0 q).raise F.SQ_Q_LEVEL_PEAK_LEVEL level 0 q
    let s := s.put F.SQ_Q_CREDITS_HELD (x.items.filter (fun i => i.held && !i.freed)).length 0 q
    let on := s.flag F.SQ_Q_STATUS_XOFF_STATE 0 q
    let s := if !on && x.ent.hi ≤ level then (s.set F.SQ_Q_STATUS_XOFF_STATE 0 q).set F.SQ_Q_STATUS_HI_SEEN 0 q
      else if on && level ≤ x.ent.lo then (s.clr F.SQ_Q_STATUS_XOFF_STATE 0 q).set F.SQ_Q_STATUS_LO_SEEN 0 q
      else s
    s.xoffShow x.ent

/-! ### Items (R316 to R327) -/

/-- The 32-byte header of an item (Table 11-2). -/
def QItem.header (i : QItem) : List Byte :=
  natLe 4 ((if i.gap then 1 else 0) + (if i.erased then 4 else 0) + i.symbol % 32 * 8 + i.stream % 2 ^ 16 * 2 ^ 16) ++
  natLe 4 i.slot ++ natLe 4 i.seq ++ natLe 4 (i.addr % 2 ^ 32) ++
  natLe 4 (i.addr / 2 ^ 32 % 2 ^ 16 + i.pool % 64 * 2 ^ 16) ++ natLe 4 i.length ++ natLe 4 (i.erasedCount % 2 ^ 16) ++
  natLe 4 (i.flowTag % 2 ^ 14 + i.user % 2 ^ 16 * 2 ^ 16)

/-- What a producer offers: the fields it gives, the data it writes, and for a GDX sink the token's buffer. -/
structure Offer where
  symbol : Nat
  stream : Nat
  slot : Nat
  length : Nat
  erased : Bool
  erasedCount : Nat
  flowTag : Nat
  user : Nat
  extra : List Byte
  payload : List Byte
  /-- Pool and address of a GDX sink's buffer. -/
  buf : Option (Nat × Nat)
  deriving DecidableEq, Repr

/-- Write an entry at the write place of a queue: header and producer bytes into the item ring. -/
def State.queueWrite (s : State) (q : Nat) (x : Queue) (i : QItem) : State :=
  let s := s.setBytes (sramBase + x.ent.itemBase + x.wr * x.ent.itemSize) ((i.header ++ i.extra).take x.ent.itemSize)
  s.setQueue q { x with items := x.items ++ [i], wr := (x.wr + 1) % x.ent.depth }

/-- Drop an offered item (R320, R323): a GDX sink's buffer returns to its pool; with gap, the drop is recorded for a marker. -/
def State.queueDrop (s : State) (q : Nat) (o : Offer) (gap : Bool) : State :=
  let seq := s.get F.SQ_Q_SEQ_SEQ 0 q
  let s := (s.count F.SQ_Q_DROPS_DROPS 1 0 q).put F.SQ_Q_SEQ_SEQ (seq + 1) 0 q
  let s := match o.buf with
    | some (p, a) => s.bufUnref p a
    | none => s
  if gap then
    match s.queue q with
    | none => s
    | some x =>
      if s.flag F.SQ_Q_STATUS_GAP_PENDING 0 q then s.setQueue q { x with dropCount := x.dropCount + 1 }
      else (s.setQueue q { x with firstSeq := seq, dropCount := 1 }).set F.SQ_Q_STATUS_GAP_PENDING 0 q
  else s

/-- Write a due GAP marker (R324). -/
def State.queueGap (s : State) (q : Nat) : State :=
  match s.queue q with
  | none => s
  | some x =>
    if s.flag F.SQ_Q_STATUS_GAP_PENDING 0 q then
      let i : QItem := ⟨x.wr, true, false, 0, 0, 0, x.firstSeq, 0, 0, x.dropCount, 0, 0, 0, [], false, false⟩
      ((s.queueWrite q x i).clr F.SQ_Q_STATUS_GAP_PENDING 0 q).count F.SQ_Q_GAPS_GAPS 1 0 q
    else s

/-- Accept an offered item: the due marker, then the item (R316, R321, R324); in credit mode it uses a credit (R326). -/
def State.queueAccept (s : State) (q : Nat) (o : Offer) : State :=
  let s := s.queueGap q
  match s.queue q with
  | none => s
  | some x =>
    let seq := s.get F.SQ_Q_SEQ_SEQ 0 q
    let a := match o.buf with
      | some (_, a) => a
      | none => x.ent.dataBase + x.wr * x.ent.dataSize
    let p := match o.buf with
      | some (p, _) => p
      | none => 63
    let i : QItem := ⟨x.wr, false, o.erased, o.symbol, o.stream, o.slot, seq, a, p, o.length, o.erasedCount, o.flowTag, o.user,
      o.extra, false, false⟩
    let s := if o.buf.isNone then s.setBytes a o.payload else s
    let s := (s.queueWrite q x i).put F.SQ_Q_SEQ_SEQ (seq + 1) 0 q
    if x.ent.credit then s.put F.SQ_Q_CREDITS_CREDITS (s.get F.SQ_Q_CREDITS_CREDITS 0 q - 1) 0 q else s

/-- Offer an item to a queue (R317, R323 to R327, R331). -/
def State.queueOffer (s : State) (q : Nat) (o : Offer) : State :=
  match s.queue q with
  | none => match o.buf with
    | some (p, a) => s.bufUnref p a
    | none => s
  | some x =>
    if ¬ s.queueOn q ∨ ¬ s.flag F.SQ_CTRL_EN then s.queueDrop q o false
    else if x.items.length < x.ent.depth - 1 then (s.queueAccept q o).queueLevel q
    else
      let s := if x.ent.credit then
        (s.set F.SQ_Q_STATUS_CREDIT_VIOL 0 q).report ⟨7, 0x01, 1, q, x.ent.port, 0⟩ else s
      (s.queueDrop q o true).queueLevel q

/-- The freed items at the head of a queue, and what remains (R319). -/
def freedPrefix : List QItem → List QItem × List QItem
  | [] => ([], [])
  | i :: is => if i.freed then let (a, b) := freedPrefix is; (i :: a, b) else ([], i :: is)

/-- Return the buffer of a GDX-sink item (R320). -/
def State.itemRelease (s : State) (i : QItem) : State := if i.gap ∨ i.pool = 63 then s else s.bufUnref i.pool i.addr

/-- Free the item at a place of a queue (R319, R320, R326). -/
def State.queueFree (s : State) (q place : Nat) : State :=
  match s.queue q with
  | none => s
  | some x =>
    match x.items.find? (fun i => i.place = place && !i.freed) with
    | none => s
    | some i =>
      let items := x.items.map (fun j => if j.place = place then { j with freed := true } else j)
      let (_, rest) := freedPrefix items
      let credit := x.ent.credit && !i.gap
      let s := s.setQueue q { x with items := rest, unreported := if credit then x.unreported + 1 else x.unreported }
      let s := if credit then s.put F.SQ_Q_CREDITS_CREDITS (s.get F.SQ_Q_CREDITS_CREDITS 0 q + 1) 0 q else s
      (s.itemRelease i).queueLevel q

/-- The item at the head of a queue that the consumer has not taken, with SQ_CTRL.EN = 1 (Table 11-4: 0 delivers no item). -/
def State.queueHead (s : State) (q : Nat) : Option QItem :=
  if s.flag F.SQ_CTRL_EN then
    match s.queue q with
    | none => none
    | some x => x.items.find? (fun i => !i.held && !i.freed)
  else none

/-- Hand an item to the consumer (R318). -/
def State.queueHold (s : State) (q place : Nat) : State :=
  match s.queue q with
  | none => s
  | some x =>
    (s.setQueue q { x with items := x.items.map (fun j => if j.place = place ∧ ¬ j.freed then { j with held := true } else j) }).queueLevel q

/-- A transmit path consumes the GAP markers at the head of its queue (R322); fuel bounds how many. -/
def State.gapSkip (s : State) (q : Nat) : Nat → State
  | 0 => s
  | n + 1 => match s.queueHead q with
    | some i => if i.gap then ((s.queueHold q i.place).queueFree q i.place).gapSkip q n else s
    | none => s

/-- The number of items in a queue. -/
def State.queueCount (s : State) (q : Nat) : Nat :=
  match s.queue q with
  | some x => x.items.length
  | none => 0

/-! ### Commands (R314, R315, R331) -/

/-- Refuse an SQ command with a cause. -/
def State.sqRefuse (s : State) (cause : Nat) : State := (s.set F.SQ_CMD_STATUS_REFUSED).put F.SQ_CMD_STATUS_CAUSE cause

/-- The SQ_CMD fields of a command (Table 11-5). -/
def State.sqCmd (s : State) (q op : Nat) : State := (s.put F.SQ_CMD_QUEUE q).put F.SQ_CMD_OP op

/-- Enable a queue, or refuse it: copy the entry, restart the sequence numbers, grant credits; items left by a disable stay. -/
def State.queueEnable (s : State) (q : Nat) : State :=
  let e := queueEntry (s.queueWords q)
  let c := e.refusal (s.queueOn q)
  if c ≠ 0 then s.sqRefuse c
  else
    let x : Queue := match s.queue q with
      | some x => { x with ent := e, unreported := 0 }
      | none => ⟨e, [], 0, 0, 0, 0⟩
    let s := s.setQueue q x
    let s := (s.set F.SQ_Q_STATUS_EN 0 q).clr F.SQ_Q_STATUS_XOFF_STATE 0 q
    let s := s.put F.SQ_Q_SEQ_SEQ 0 0 q
    let s := if e.credit then s.put F.SQ_Q_CREDITS_CREDITS (e.depth - 1) 0 q else s
    s.queueLevel q

/-- Disable a queue (R331). -/
def State.queueDisable (s : State) (q : Nat) : State :=
  let s := s.clr F.SQ_Q_STATUS_EN 0 q
  match s.queue q with
  | none => s
  | some x => s.xoffShow x.ent

/-- Reset a disabled, unheld queue, or refuse it with cause 7 (R331). -/
def State.queueReset (s : State) (q : Nat) : State :=
  if s.queueOn q ∨ s.get F.SQ_Q_CREDITS_HELD 0 q ≠ 0 then s.sqRefuse 7
  else
    match s.queue q with
    | none => s
    | some x =>
      let s := x.items.foldl State.itemRelease s
      let s := s.setQueue q { x with items := [], wr := 0, firstSeq := 0, dropCount := 0, unreported := 0 }
      let s := (s.put F.SQ_Q_LEVEL_LEVEL 0 0 q).clr F.SQ_Q_STATUS_GAP_PENDING 0 q
      let s := s.put F.SQ_Q_CREDITS_CREDITS 0 0 q
      let s := if s.flag F.SQ_Q_STATUS_XOFF_STATE 0 q then
        (s.clr F.SQ_Q_STATUS_XOFF_STATE 0 q).set F.SQ_Q_STATUS_LO_SEEN 0 q else s
      s.xoffShow x.ent

/-! ### The meanings -/

/-- QUEUE_ENABLE: SQ_CMD with OP = 0 and GO = 1 (R314, R315, R331). -/
def execQueueEnable (q : BitVec 10) (s : State) : Host.Outcome State Fault Refusal :=
  .next ((s.sqCmd q.toNat 0).queueEnable q.toNat)

/-- QUEUE_DISABLE: SQ_CMD with OP = 1 and GO = 1 (R331). -/
def execQueueDisable (q : BitVec 10) (s : State) : Host.Outcome State Fault Refusal :=
  .next ((s.sqCmd q.toNat 1).queueDisable q.toNat)

/-- QUEUE_RESET: SQ_CMD with OP = 2 and GO = 1 (R331). -/
def execQueueReset (q : BitVec 10) (s : State) : Host.Outcome State Fault Refusal :=
  .next ((s.sqCmd q.toNat 2).queueReset q.toNat)

/-- ITEM_OFFER: a producer offers an item with its data (R316, R317, R323). -/
def execItemOffer (q : BitVec 10) (symbol stream slot : Nat) (payload extra : List Byte) (s : State) :
    Host.Outcome State Fault Refusal :=
  .next (s.queueOffer q.toNat ⟨symbol, stream, slot, payload.length, false, 0, 0, 0, extra, payload, none⟩)

/-- ITEM_FREE: the consumer frees an item it holds (R319). -/
def execItemFree (q : BitVec 10) (place : Nat) (s : State) : Host.Outcome State Fault Refusal :=
  .next (s.queueFree q.toNat place)

/-- PFC_REFRESH: REFRESH_US have passed and the OR is still set (R330). -/
def execPfcRefresh (port : Fin 32) (prio : Fin 8) (s : State) : Host.Outcome State Fault Refusal :=
  .next (if (port.val, prio.val) ∈ s.sq.pfcOr then s.pfcSend port prio (s.get F.SQ_PFC_CFG_QUANTA) else s)

/-- CREDIT_REPORT: the credits returned and not yet reported go to the partner (R326). -/
def execCreditReport (q : BitVec 10) (s : State) : Host.Outcome State Fault Refusal :=
  .next (match s.queue q.toNat with
    | none => s
    | some x =>
      if x.unreported = 0 then s
      else (s.setQueue q.toNat { x with unreported := 0 }).send (.credits x.ent.port q.toNat x.unreported))

/-- XOFF_IN_CHANGE: four equal samples of XOFF_IN p show a new level (R332); deassertion ends STUCK (R333). -/
def execXoffInChange (p : Fin 16) (level : Bool) (s : State) : Host.Outcome State Fault Refusal :=
  let on := level != (s.get F.SQ_XOFF_IN_POL_POL).testBit p
  let st := s.get F.SQ_XOFF_IN_STATE_STATE
  let s' := s.put F.SQ_XOFF_IN_STATE_STATE (if on then st ||| 2 ^ p.val else st - (st &&& 2 ^ p.val))
  let stuck := s.get F.SQ_XOFF_IN_STATE_STUCK
  .next (if !on && stuck.testBit p then
    (s'.put F.SQ_XOFF_IN_STATE_STUCK (stuck - 2 ^ p.val)).event (.xoffStuck p false) else s')

/-- XOFF_IN_STUCK: a pin has been asserted without a break for 10 ms (R333). -/
def execXoffInStuck (p : Fin 16) (s : State) : Host.Outcome State Fault Refusal :=
  .next (if (s.get F.SQ_XOFF_IN_STATE_STATE).testBit p ∧ ¬ (s.get F.SQ_XOFF_IN_STATE_STUCK).testBit p then
    let s := s.put F.SQ_XOFF_IN_STATE_STUCK (s.get F.SQ_XOFF_IN_STATE_STUCK ||| 2 ^ p.val)
    let s := s.put F.SQ_XOFF_IN_STUCK_SEEN_SEEN (s.get F.SQ_XOFF_IN_STUCK_SEEN_SEEN ||| 2 ^ p.val)
    (s.report ⟨7, 0x02, 1, 0, p.val, 0⟩).event (.xoffStuck p true)
  else s)

end Sys2Proof.Machine
end

