-- ==== Sys2Proof/Machine/GdxOps.lean ====
section
/-!
DEFINITION. Sys2Proof/Machine/GdxOps.lean: the operations of the graph dispatcher (04_graph_dispatcher.md): tokens and buffers,
admission and credit pools, node endings, ordered release, cancels, creations and retirement.  Dispatch and completion are in
GdxRun.lean, the meanings in GdxCmd.lean.
-/
namespace Sys2Proof.Machine

/-! ### Access -/

/-- A live node instance. -/
def State.node (s : State) (n : Nat) : Option NodeInst := Tab.find s.gdx.nodes n

/-- Store a node instance. -/
def State.setNode (s : State) (n : Nat) (x : NodeInst) : State := s.setGdx { s.gdx with nodes := Tab.set s.gdx.nodes n x }

/-- Change a node instance, if it is live. -/
def State.upNode (s : State) (n : Nat) (f : NodeInst → NodeInst) : State :=
  match s.node n with
  | some x => s.setNode n (f x)
  | none => s

/-- A live slot instance. -/
def State.inst (s : State) (i : Nat) : Option SlotInst := Tab.find s.gdx.insts i

/-- Store a slot instance. -/
def State.setInst (s : State) (i : Nat) (x : SlotInst) : State := s.setGdx { s.gdx with insts := Tab.set s.gdx.insts i x }

/-- Change a slot instance, if it is live. -/
def State.upInst (s : State) (i : Nat) (f : SlotInst → SlotInst) : State :=
  match s.inst i with
  | some x => s.setInst i (f x)
  | none => s

/-- A node record that no template has. -/
def NodeRec.none : NodeRec := ⟨0, 0, false, false, false, 0, 0, 0, 0, 0, 0, [], [], false, []⟩

/-- The record of node number k of a template. -/
def Template.node (t : Template) (k : Nat) : NodeRec := t.nodes.getD k NodeRec.none

/-- The record of a node instance. -/
def State.recOf (s : State) (x : NodeInst) : NodeRec :=
  match s.inst x.inst with
  | some i => i.tpl.node x.node
  | none => NodeRec.none

/-- The node instances of a slot instance, in ascending id, which is ascending node number (R115). -/
def State.nodesOf (s : State) (i : Nat) : List (Nat × NodeInst) := s.gdx.nodes.filter (fun p => p.2.inst = i)

/-- The node-instance id of node number k of a slot instance. -/
def State.nodeAt (s : State) (i k : Nat) : Option Nat := (s.gdx.nodes.find? (fun p => p.2.inst = i && p.2.node = k)).map (·.1)

/-- Has a node instance ended? -/
def NodeInst.over (x : NodeInst) : Bool :=
  match x.st with
  | .ended _ => true
  | _ => false

/-- Is it running? -/
def NodeInst.running (x : NodeInst) : Bool :=
  match x.st with
  | .running => true
  | .completed (some _) => true
  | _ => false

/-- A slot coordinate as an identity: HF, FRAME and SLOT of whistle entry W1. -/
def slotId (w : Nat) : Nat := w % 2 ^ 28

/-- The live slot instance with an identity (R115). -/
def State.instOf (s : State) (tpl tl w : Nat) : Option Nat :=
  (s.gdx.insts.find? (fun p => p.2.tpl.id = tpl && p.2.tl = tl && p.2.slotWord = slotId w)).map (·.1)

/-- The installed version of a template, if any (R113). -/
def State.tplCur (s : State) (t : Nat) : Option Template := (Tab.get ⟨none, false⟩ s.gdx.templates t).cur

/-- Is a template blocked? -/
def State.tplBlocked (s : State) (t : Nat) : Bool := (Tab.get ⟨none, false⟩ s.gdx.templates t).blocked

/-- Block or unblock a template (R113, R457). -/
def State.tplBlock (s : State) (t : Nat) (b : Bool) : State :=
  s.setGdx { s.gdx with templates := Tab.set s.gdx.templates t { Tab.get ⟨none, false⟩ s.gdx.templates t with blocked := b } }

/-- ADDR of a dispatcher record: the slot coordinate and TL (Table 17-10). -/
def slotAddr (w tl : Nat) : Nat := w % 2 ^ 32 + tl % 256 * 2 ^ 32

/-- An error record of the dispatcher: kind 5 (Table 17-10). -/
def State.gdxReport (s : State) (cls sev tpl detail w tl : Nat) : State := s.report ⟨5, cls, sev, tpl, detail, slotAddr w tl⟩

/-! ### Tokens and buffers (R22 to R24, R108, R109) -/

/-- The done items at the head of an input ring. -/
def donePrefix : List RingItem → List RingItem × List RingItem
  | [] => ([], [])
  | i :: is => if i.done then let (a, b) := donePrefix is; (i :: a, b) else ([], i :: is)

/-- GDX frees an input item of a ring (R431): its staged copy returns, and HEAD passes the oldest items that are done. -/
def State.ringConsume (s : State) (r idx : Nat) : State :=
  match s.ring r with
  | none => s
  | some x =>
    match x.items.find? (fun i => i.index = idx && !i.done) with
    | none => s
    | some i =>
      let s := match i.buf with
        | some (p, a) => s.bufReturn p a
        | none => s
      let (gone, rest) := donePrefix (x.items.map (fun j => if j.index = idx then { j with done := true } else j))
      let s := s.setRing r { x with items := rest }
      if gone.length = 0 then s
      else
        let h := s.get F.MBX_RING_HEAD_HEAD 0 r + gone.length
        ((s.put F.MBX_RING_HEAD_HEAD h 0 r).writeBack x (h % 2 ^ 32)).ringSignal r gone.length

/-- The ERROR.indication of a stale ring item (R432). -/
def State.errIndication (s : State) (r : Nat) (i : RingItem) (code : FapiError) : State :=
  let s := s.count F.MBX_RING_STALE_STALE 1 0 r
  match s.ring r with
  | none => s
  | some x =>
    match x.errRing with
    | none => s.count F.MBX_RING_ERR_DROP_ERR_DROP 1 0 r
    | some e =>
      if s.ringDetached e then s.count F.MBX_RING_DETACH_DROP_DETACH_DROP 1 0 e
      else if s.ringHasRoom e then
        let w (k : Nat) : Nat := i.words.getD k 0
        (s.messagePut e 0x07 (natBits (w 0) 16 16) (w 1)).send
          (.errorIndication e (w 1) (natBits (w 0) 0 8) code (w 6))
      else s.count F.MBX_RING_ERR_DROP_ERR_DROP 1 0 r

/-- One consumer is done with the buffer of a token: static and empty tokens have none to free, an external one consumes its item
(R109). -/
def State.tokenFree (s : State) (t : Token) : State :=
  if t.empty then s
  else
    match t.ext with
    | .queue q place => s.queueFree q place
    | .ring r idx => s.ringConsume r idx
    | .none => if t.pool < 62 then s.bufUnref t.pool t.addr else s

/-- Discard a stale token (R23). -/
def State.tokenStale (s : State) (t : Token) : State := (s.count F.STALE_INPUT_COUNT).tokenFree t

/-- The empty token of R142. -/
def emptyToken : Token := ⟨0, 62, true, 0, 0, 0, .none⟩

/-- Free the input buffers that a node instance holds. -/
def State.freeInputs (s : State) (x : NodeInst) : State :=
  x.tokens.foldl (fun s t => match t with
    | some t => s.tokenFree t
    | none => s) s

/-- Return output buffers that nothing will deliver. -/
def State.freeOutputs (s : State) (ts : List Token) : State :=
  ts.foldl (fun s t => if t.pool < 62 then s.bufReturn t.pool t.addr else s) s

/-- Send a token on its way to a node instance: it arrives in step 5 of a later cycle (R122). -/
def State.launch (s : State) (n port : Nat) (t : Token) : State :=
  s.setGdx { s.gdx with inflight := s.gdx.inflight ++ [⟨n, port, t, false⟩] }

/-! ### Ports and consumers (R107, Table 4-2) -/

/-- SRC_KIND of an input port. -/
def inKind (p : Nat) : Nat := natBits p 14 2

/-- The consumers of output port k of node number n within a template: node number and input port. -/
def Template.consumers (t : Template) (n k : Nat) : List (Nat × Nat) :=
  t.nodes.zipIdx.flatMap (fun (r, m) => ((List.range r.nIn).filter (fun p =>
    let e := r.ins.getD p 0
    inKind e = 0 && natBits e 0 10 = n && natBits e 10 3 = k)).map (fun p => (m, p)))

/-- The sink of an output port: its binding, if set. -/
def Template.sink (t : Template) (out : Nat) : Option (Nat × Nat) :=
  if natBits out 8 12 = 0xFFF then none else t.binds[natBits out 8 12]?

/-- The binding of an input port, if it has one. -/
def Template.inBind (t : Template) (e : Nat) : Option (Nat × Nat) := if inKind e = 1 then t.binds[natBits e 0 12]? else none

/-- The ports of node number n with kind, id and symbol of their bindings (kind 7 for a port with none). -/
def Template.portBinds (t : Template) (n : Nat) (ports : List Nat) : List (Nat × Nat × Nat × Nat) :=
  ports.map (fun p => match t.inBind ((t.node n).ins.getD p 0) with
    | some (w0, w1) => (p, natBits w0 0 3, natBits w0 16 16, natBits w1 0 5)
    | none => (p, 7, 0, 0))

/-- The input ports of a node instance that hold no token. -/
def NodeInst.missing (x : NodeInst) : List Nat :=
  (List.range x.tokens.length).filter (fun p => (x.tokens.getD p none).isNone)

/-- The flow of a node instance (R107); mode 3 has none until the token of port 0 is there (log entry 19). -/
def flowOf (r : NodeRec) (tl : Nat) (tok0 : Option Token) : Option Nat :=
  match r.flowMode with
  | 0 => none
  | 1 => some r.flowBase
  | 2 => some ((r.flowBase + tl) % 16384)
  | _ => tok0.map (fun t => (r.flowBase + t.flowTag) % 16384)

/-- Join a flow. -/
def State.joinFlow (s : State) (f n : Nat) : State :=
  s.setGdx { s.gdx with flows := Tab.set s.gdx.flows f (Tab.get [] s.gdx.flows f ++ [n]) }

/-- Leave a flow (R134). -/
def State.leaveFlow (s : State) (x : NodeInst) (n : Nat) : State :=
  match x.flow with
  | none => s
  | some f =>
    let l := (Tab.get [] s.gdx.flows f).filter (· ≠ n)
    s.setGdx { s.gdx with flows := if l = [] then Tab.erase s.gdx.flows f else Tab.set s.gdx.flows f l }

/-- Is a node instance the head of its flow, or in none? -/
def State.atHead (s : State) (x : NodeInst) (n : Nat) : Bool :=
  match x.flow with
  | none => true
  | some f => (Tab.get [] s.gdx.flows f).head? = some n

/-! ### Credit pools (R123 to R127) -/

/-- A credit pool. -/
def State.pool (s : State) (p : Nat) : CreditPool := Tab.get ⟨0, []⟩ s.gdx.pools p

/-- Store a credit pool. -/
def State.setPool (s : State) (p : Nat) (x : CreditPool) : State := s.setGdx { s.gdx with pools := Tab.set s.gdx.pools p x }

/-- The pool that a level draws on (R123). -/
def Template.poolOf (t : Template) (level : Nat) : Nat := if level ≤ 1 then t.poolG0 else if level ≤ 3 then t.poolG1 else t.poolG2

/-- The debit of a node (R125). -/
def NodeRec.debit (r : NodeRec) : Nat := if r.paired then r.cost * 4 else if r.level ≤ 1 then r.cost * 2 else r.cost

/-- Does wait-list entry a come before b (R126)? -/
def WaitEntry.before (a b : WaitEntry) : Bool :=
  decide (a.level < b.level ∨ (a.level = b.level ∧ (a.cycle < b.cycle ∨ (a.cycle = b.cycle ∧ a.node < b.node))))

/-- Insert an entry in its place. -/
def waitInsert (e : WaitEntry) : List WaitEntry → List WaitEntry
  | [] => [e]
  | x :: xs => if e.before x then e :: x :: xs else x :: waitInsert e xs

/-- Admit entries from the head while the head fits: what is admitted, and the pool that remains. -/
def CreditPool.drain (bal : Nat) : List WaitEntry → List WaitEntry × CreditPool
  | [] => ([], ⟨bal, []⟩)
  | e :: es =>
    if e.debit ≤ bal then let (a, p) := CreditPool.drain (bal - e.debit) es; (e :: a, p) else ([], ⟨bal, e :: es⟩)

/-- A node instance becomes ready (R128). -/
def State.makeReady (s : State) (n : Nat) : State :=
  s.upNode n (fun x => { x with st := .ready, readyCycle := s.gdx.cycle, readyTick := s.tbu.ticks })

/-- Admit what the list of a pool allows (R126). -/
def State.poolDrain (s : State) (p : Nat) : State :=
  let x := s.pool p
  let (a, y) := CreditPool.drain x.bal x.wait
  a.foldl (fun s e => s.makeReady e.node) (s.setPool p y)

/-- Take a node instance off the wait list of its pool. -/
def State.poolLeave (s : State) (p n : Nat) : State :=
  let x := s.pool p
  s.setPool p { x with wait := x.wait.filter (fun e => e.node ≠ n) }

/-! ### Endings (R141, R142) -/

/-- Everything in a template that is reachable from output ports of node n: node numbers, in ascending order. -/
def Template.reach (t : Template) (n : Nat) (ports : List Nat) : List Nat :=
  let start := ports.flatMap (fun k => (t.consumers n k).map (·.1))
  (List.range t.nodes.length).foldl (fun (acc : List Nat) m =>
    if m ∈ start ∨ ((List.range (t.node m).nIn).any (fun p =>
      let e := (t.node m).ins.getD p 0
      inKind e = 0 && decide (natBits e 0 10 ∈ acc)))
    then acc ++ [m] else acc) []

/-- The remote outputs among output ports of a node: port and binding W1. -/
def Template.remotes (t : Template) (n : Nat) (ports : List Nat) : List (Nat × Nat) :=
  ports.filterMap (fun k => match t.sink ((t.node n).outs.getD k 0) with
    | some (w0, w1) => if natBits w0 0 3 = 4 then some (k, w1) else none
    | none => none)

/-- The CONSIST_TAG of a timeline. -/
def State.tagOf (s : State) (tl : Nat) : Nat :=
  match s.tl tl with
  | some t => t.ent.tag
  | none => 0

/-- Queue a remote token for its car (R397). -/
def State.remoteSend (s : State) (n : Option Nat) (i : SlotInst) (w1 : Nat) (retire : Bool) (t : Token) : State :=
  let r : RemoteToken := {
    car := natBits w1 0 3, template := natBits w1 4 12, node := natBits w1 16 10, port := natBits w1 26 3, tag := s.tagOf i.tl,
    slotWord := i.slotWord, hops := 0, retire := retire, token := t, payload := if t.empty then [] else s.bytes t.addr t.length }
  s.setGdx { s.gdx with remoteOut := s.gdx.remoteOut ++ [(n, r)] }

/-- End a node instance in one of the ways of R141 that are not a release: it leaves its flow and wait list, its inputs are freed,
and what it had completed is discarded. -/
def State.endNode (s : State) (n : Nat) (how : NodeEnd) : State :=
  match s.node n with
  | none => s
  | some x =>
    if x.over then s
    else if x.poisonReplay then
      (s.freeInputs x).setNode n { x with st := .ended .released, runs := [], poisonReplay := false }
    else
      let s := match x.st, s.inst x.inst with
        | .admission, some i => s.poolLeave (i.tpl.poolOf (s.recOf x).level) n
        | _, _ => s
      let s := match x.st with
        | .completed none => s.setGdx { s.gdx with relbuf := s.gdx.relbuf - 1 }
        | .completed (some e) => s.setExec e { s.exec e with node := none }
        | _ => s
      let s := s.freeOutputs (x.outs ++ x.runs.flatMap (·.outs))
      let s := (s.leaveFlow x n).freeInputs x
      let s := s.setNode n { x with st := .ended how, runs := [], outs := [], tie := false }
      s.upInst x.inst (fun i => match how with
        | .cancelled => { i with cancelledN := i.cancelledN + 1 }
        | .failed => { i with failed := i.failed + 1 }
        | .refused => { i with refused := i.refused + 1 }
        | .released => i)

/-- Node instance n ended output ports without output (R142): empty tokens to their consumers, or with CANCEL_PROPAGATE = 1 the end of
everything reachable, with retire tokens on the remote outputs of that path. -/
def State.propagate (s : State) (n : Nat) (ports : List Nat) : State :=
  match s.node n with
  | none => s
  | some x =>
    match s.inst x.inst with
    | none => s
    | some i =>
      let r := i.tpl.node x.node
      if i.cancelled then s
      else if r.cancelProp then
        let path := i.tpl.reach x.node ports
        let s := path.foldl (fun s m => match s.nodeAt x.inst m with
          | some id => if (match s.node id with | some y => y.running | none => true) then s else s.endNode id .cancelled
          | none => s) s
        let outs := i.tpl.remotes x.node ports ++
          path.flatMap (fun m => i.tpl.remotes m (List.range (i.tpl.node m).nOut))
        outs.foldl (fun s o => s.remoteSend none i o.2 true emptyToken) s
      else
        ports.foldl (fun s k =>
          let s := (i.tpl.consumers x.node k).foldl (fun s c => match s.nodeAt x.inst c.1 with
            | some id => s.launch id c.2 emptyToken
            | none => s) s
          match i.tpl.sink (r.outs.getD k 0) with
          | none => s
          | some (w0, w1) =>
            if natBits w0 0 3 = 4 then s.remoteSend none i w1 false emptyToken
            else if natBits w0 0 3 = 3 then
              s.queueOffer (natBits w0 16 16) ⟨31, 0, i.slotWord, 0, false, 0, 0, 0, [], [], some (62, 0)⟩
            else if natBits w0 0 3 = 2 ∧ s.ringHasRoom (natBits w0 16 16) ∧ ¬ s.ringDetached (natBits w0 16 16) then
              let (m, s) := s.freshNat
              let (c, s) := s.freshNat
              s.ringPut (natBits w0 16 16) ⟨m, c, i.slotWord, 31, 0, 0, 0, 0⟩ none
            else s) s

/-- The node instances that wait for a poison replay of n (R144). -/
def State.poisonWaiters (s : State) (n : Nat) : List Nat := (s.gdx.nodes.filter (fun p => p.2.st = .poisonWait n)).map (·.1)

/-- End node instance n FAILED: counted, with its record, and propagated; a producer whose poison replay fails keeps its release, and
its waiting consumers fail next (R144). -/
def State.failOne (s : State) (n : Nat) : State × List Nat :=
  match s.node n with
  | none => (s, [])
  | some x =>
    if x.poisonReplay then (s.endNode n .failed, s.poisonWaiters n)
    else
      match s.inst x.inst with
      | none => (s, [])
      | some i =>
        let s := (s.endNode n .failed).count F.FAILED_COUNT
        let s := s.gdxReport 0x01 1 i.tpl.id x.node i.slotWord i.tl
        (s.propagate n (List.range (i.tpl.node x.node).nOut), [])

/-- Fail the node instances of a list and those that follow (fuel bounds the chain). -/
def State.failAll : Nat → State → List Nat → State
  | 0, s, _ => s
  | _ + 1, s, [] => s
  | k + 1, s, n :: ns => State.failAll k (s.failOne n).1 ((s.failOne n).2 ++ ns)

/-- End a node instance FAILED (R141). -/
def State.failNode (s : State) (n : Nat) : State := State.failAll (s.gdx.nodes.length + 1) s [n]

/-! ### Admission (R125, R126) -/

/-- A node instance complete in its inputs, or a replay of levels 2 to 7 (R127), asks for admission. -/
def State.askAdmission (s : State) (n : Nat) : State :=
  match s.node n with
  | none => s
  | some x =>
    match s.inst x.inst with
    | none => s
    | some i =>
      let r := i.tpl.node x.node
      let p := i.tpl.poolOf r.level
      let y := s.pool p
      if y.wait = [] ∧ r.debit ≤ y.bal then (s.setPool p { y with bal := y.bal - r.debit }).makeReady n
      else if r.level ≤ 3 then
        let s := s.upNode n (fun x => { x with st := .admission })
        (s.setPool p { y with wait := waitInsert ⟨r.level, s.gdx.cycle, n, r.debit⟩ y.wait }).poolDrain p
      else
        let s := s.count F.GDX_ADM_REFUSED_COUNT 1 0 r.level
        if x.poisonReplay then s.failNode n else (s.endNode n .refused).propagate n (List.range r.nOut)

/-- Insert a number into an ascending list. -/
def ascInsert (n : Nat) : List Nat → List Nat
  | [] => [n]
  | x :: xs => if n < x then n :: x :: xs else x :: ascInsert n xs

/-- The numbers of a list in ascending order. -/
def ascending (l : List Nat) : List Nat := l.foldr ascInsert []

/-- The node instances that are complete in their inputs and have not asked yet, in the order of R126. -/
def State.asking (s : State) : List Nat :=
  let l := s.gdx.nodes.filter (fun p => p.2.st = .waiting && p.2.missing = [])
  (List.range 8).flatMap (fun lv => ascending ((l.filter (fun p => (s.recOf p.2).level = lv)).map (·.1)))

/-- Step 6 of a cycle (Table 4-7); EN = 0 admits nothing (Table 4-17). -/
def State.admitAll (s : State) : State := if s.flag F.GDX_CTRL_EN then s.asking.foldl State.askAdmission s else s

/-! ### Release (R133 to R136) -/

/-- The ring sink of an outgoing node instance that has no space, if any. -/
def State.fullSink (s : State) (i : SlotInst) (r : NodeRec) : Option Nat :=
  (List.range r.nOut).findSome? (fun k => match i.tpl.sink (r.outs.getD k 0) with
    | some (w0, _) =>
      let ring := natBits w0 16 16
      if natBits w0 0 3 = 2 ∧ ¬ s.ringDetached ring ∧ (s.ring ring).isSome ∧ ¬ s.ringHasRoom ring then some ring else none
    | none => none)

/-- Deliver a token to a ring sink (R433); a detached ring discards it (R436). -/
def State.toRing (s : State) (ring : Nat) (i : SlotInst) (t : Token) : State :=
  match s.ring ring with
  | none => s.bufUnref t.pool t.addr
  | some x =>
    if s.ringDetached ring then (s.count F.MBX_RING_DETACH_DROP_DETACH_DROP 1 0 ring).bufUnref t.pool t.addr
    else
      let (m, s) := s.freshNat
      let (c, s) := s.freshNat
      if x.inHost then
        let n := min t.length x.dataSize
        let a := x.dataBase + s.get F.MBX_RING_TAIL_TAIL 0 ring % x.entries * x.dataSize
        let user := if x.dataSize < t.length then t.user ||| 2 ^ 15 else t.user
        let s := s.send (.hostWrite x.func a (s.bytes t.addr n))
        (s.ringPut ring ⟨m, c, i.slotWord, 31, n, a, t.flowTag, user⟩ none).bufUnref t.pool t.addr
      else s.ringPut ring ⟨m, c, i.slotWord, 31, t.length, t.addr, t.flowTag, t.user⟩ (some (t.pool, t.addr))

/-- Deliver the token of output port k (R136), with R121 for a remote output under TL_MISMATCH. -/
def State.deliver (s : State) (n : Nat) (x : NodeInst) (i : SlotInst) (k : Nat) (t : Token) : State :=
  let r := i.tpl.node x.node
  let cons := i.tpl.consumers x.node k
  let sink := i.tpl.sink (r.outs.getD k 0)
  let remote := match sink with
    | some (w0, _) => decide (natBits w0 0 3 = 4)
    | none => false
  if remote && decide (s.tagOf i.tl ∈ s.gdx.mismatch ∧ s.tagOf i.tl ≠ 0) then (s.freeOutputs [t]).propagate n [k]
  else
    let refs := cons.length + (if sink.isSome then 1 else 0)
    if refs = 0 then s.freeOutputs [t]
    else
      let s := if t.pool < 62 then s.setRefs t refs else s
      let s := cons.foldl (fun s c => match s.nodeAt x.inst c.1 with
        | some id => s.launch id c.2 t
        | none => s) s
      match sink with
      | none => s
      | some (w0, w1) =>
        if natBits w0 0 3 = 4 then s.remoteSend (some n) i w1 false t
        else if natBits w0 0 3 = 3 then
          s.queueOffer (natBits w0 16 16) ⟨31, 0, i.slotWord, t.length, false, 0, t.flowTag, t.user, [], [], some (t.pool, t.addr)⟩
        else s.toRing (natBits w0 16 16) i t

/-- Release a node instance at its turn (R136). -/
def State.releaseNode (s : State) (n : Nat) : State :=
  match s.node n with
  | none => s
  | some x =>
    match s.inst x.inst with
    | none => s
    | some i =>
      match s.fullSink i (i.tpl.node x.node) with
      | some r => s.setNode n { x with st := .sinkHold r }
      | none =>
        let s := x.outs.zipIdx.foldl (fun s t => s.deliver n x i t.2 t.1) s
        let s := (s.leaveFlow x n).freeInputs x
        let s := s.setNode n { x with st := .ended .released, runs := [] }
        s.upInst x.inst (fun i => { i with released := i.released + 1, lastRelease := some (s.activeNs - i.createNs) })

/-- A completed node instance whose turn has come. -/
def State.dueRelease (s : State) : Option Nat :=
  (s.gdx.nodes.find? (fun p => match p.2.st with
    | .turn => true
    | .completed _ => s.atHead p.2 p.1
    | _ => false)).map (·.1)

/-- Give up the release-buffer entry or executor of a member that has become head. -/
def State.takeTurn (s : State) (n : Nat) : State :=
  match s.node n with
  | none => s
  | some x =>
    let s := match x.st with
      | .completed none => s.setGdx { s.gdx with relbuf := s.gdx.relbuf - 1 }
      | .completed (some e) => s.setExec e { s.exec e with node := none }
      | _ => s
    s.upNode n (fun x => { x with st := .turn })

/-- One release, if one is due. -/
def State.releaseOne (s : State) : State :=
  match s.dueRelease with
  | some n => (s.takeTurn n).releaseNode n
  | none => s

/-- Step 8 of a cycle: release every completed member whose turn has come. -/
def State.releaseAll (s : State) : State := repeatN State.releaseOne s.gdx.nodes.length s

/-! ### Retirement (R138, R155) -/

/-- Write a telemetry record, or drop it when the ring is full (R155). -/
def State.telemetry (s : State) (typ : Nat) (i : SlotInst) : State :=
  let wr := s.get F.GDX_TELEM_WR_WR
  let size := s.get F.GDX_TELEM_SIZE_SIZE
  let ns (x : Option Nat) : Nat := match x with
    | some n => min n 0xFFFFFFFF
    | none => 0xFFFFFFFF
  if size ≤ (wr + 2 ^ 16 - s.get F.GDX_TELEM_RD_RD) % 2 ^ 16 then s.count F.GDX_TELEM_LOST_COUNT
  else
    let w9 := (if i.cancelled then 1 else 0) + (if i.lateCancel then 2 else 0) + (if i.orphan then 4 else 0)
    let s := s.setWords (sramBase + s.get F.GDX_TELEM_BASE_BASE + wr % size * 64)
      ([typ + i.tl * 2 ^ 8 + i.tpl.id * 2 ^ 16, i.slotWord, i.createSecNs, ns i.firstDispatch, ns i.lastRelease,
        if typ = 1 then ns (some (s.activeNs - i.createNs)) else 0xFFFFFFFF,
        i.released % 2 ^ 16 + i.cancelledN % 2 ^ 16 * 2 ^ 16,
        min 255 i.failed + min 255 i.refused * 2 ^ 8 + min 255 i.replayed * 2 ^ 16 + min 255 i.disputes * 2 ^ 24, i.l0Max, w9] ++
        List.replicate 6 0)
    s.put F.GDX_TELEM_WR_WR (wr + 1)

/-- A slot instance retires: its record is written, its ids become free, and tokens on their way to it become stale (R23, R115). -/
def State.retire (s : State) (i : Nat) : State :=
  match s.inst i with
  | none => s
  | some x =>
    let s := s.telemetry 1 x
    let ids := (s.nodesOf i).map (·.1)
    s.setGdx { s.gdx with
      insts := Tab.erase s.gdx.insts i
      nodes := s.gdx.nodes.filter (fun p => p.2.inst ≠ i)
      inflight := s.gdx.inflight.map (fun f => if f.node ∈ ids then { f with stale := true } else f)
      remoteOut := s.gdx.remoteOut.map (fun r => match r.1 with
        | some n => if n ∈ ids then (none, r.2) else r
        | none => r) }

/-- Has a slot instance come to its end: every node instance ended (after a cancel, once none is running)? -/
def State.retirable (s : State) (i : Nat) : Bool := (s.nodesOf i).all (fun p => p.2.over)

/-- Retire every slot instance that has come to its end. -/
def State.retireAll (s : State) : State :=
  s.gdx.insts.foldl (fun t p => if s.retirable p.1 then t.retire p.1 else t) s

/-- Show the live counts, flags and ready-queue depths (Tables 4-16 to 4-19). -/
def State.gdxShow (s : State) : State :=
  let depth (c : Nat) : Nat := (s.gdx.nodes.filter (fun p => p.2.st = .ready && (s.recOf p.2).cls = c)).length
  let s := (List.range 10).foldl (fun t c => (t.put F.GDX_CLASS_DEPTH_CUR (depth c) 0 c).raise F.GDX_CLASS_DEPTH_PEAK (depth c) 0 c) s
  s.putAll 0 0 [(F.GDX_STATUS_IDLE, if s.gdx.insts = [] then 1 else 0), (F.GDX_STATUS_RELBUF_FULL, if 8192 ≤ s.gdx.relbuf then 1 else 0),
    (F.INST_LIVE_LIVE, s.gdx.insts.length), (F.NODE_LIVE_LIVE, s.gdx.nodes.length), (F.RELBUF_USED_USED, s.gdx.relbuf)]

/-- Start a dispatcher cycle (log entry 8). -/
def State.gdxCycle (s : State) : State := s.setGdx { s.gdx with cycle := s.gdx.cycle + 1 }

/-- Steps 6 to 8 of a cycle, without dispatch: admission, release, and what follows. -/
def State.gdxSettle (s : State) : State := (s.admitAll.releaseAll).retireAll.gdxShow

/-! ### Tokens arrive (R23, R108, R139) -/

/-- Count a token that would have completed a node instance that a cancel of this cycle ended (R139). -/
def State.lateToken (s : State) (hit : CancelledNode → List (Nat × Nat × Nat × Nat) → Option Nat) : State :=
  let l := s.gdx.lastCancel.2.map (fun c =>
    match hit c c.missing with
    | none => (c, false)
    | some p =>
      let rest := c.missing.filter (fun (m : Nat × Nat × Nat × Nat) => m.1 ≠ p)
      ({ c with missing := rest, counted := c.counted || decide (rest = []) }, decide (rest = []) && !c.counted))
  let n := (l.filter (·.2)).length
  let s := s.setGdx { s.gdx with lastCancel := (s.gdx.lastCancel.1, l.map (·.1)) }
  s.count F.CANCEL_SAME_CYCLE_COUNT n

/-- A token arrives at an input port of a node instance. -/
def State.tokenAt (s : State) (n port : Nat) (t : Token) : State :=
  match s.node n with
  | none => s.tokenStale t
  | some x =>
    if x.over then s.tokenStale t
    else
      match s.inst x.inst with
      | none => s.tokenStale t
      | some i =>
        if i.cancelled then s.tokenStale t
        else if x.tokens.length ≤ port then s.tokenStale t
        else if (x.tokens.getD port none).isSome then (s.count F.DUP_TOKEN_COUNT).tokenFree t
        else
          let s := s.setNode n { x with tokens := x.tokens.set port (some t) }
          let r := i.tpl.node x.node
          if r.flowMode = 3 ∧ port = 0 then
            let f := (r.flowBase + t.flowTag) % 16384
            (s.upNode n (fun x => { x with flow := some f })).joinFlow f n
          else s

/-! ### Cancels (R137 to R140) -/

/-- The record of a node instance that a cancel ends, for R139. -/
def State.cancelRec (s : State) (id : Nat) (x : NodeInst) (i : SlotInst) : CancelledNode :=
  let r := i.tpl.node x.node
  let p := i.tpl.poolOf r.level
  { id := id, template := i.tpl.id, tl := i.tl, slotWord := i.slotWord, node := x.node
    missing := i.tpl.portBinds x.node (if x.st = .waiting then x.missing else [])
    wait := if x.st = .admission then ((s.pool p).wait.find? (fun e => e.node = id)).map (fun e => (p, e)) else none
    counted := false }

/-- Cancel a slot instance: every node instance that is not running ends CANCELLED, and running runs are discarded (R138). -/
def State.cancelInst (s : State) (i : Nat) : State :=
  match s.inst i with
  | none => s
  | some x =>
    let ns := s.nodesOf i
    let recs := (ns.filter (fun p => p.2.st = .waiting || p.2.st = .admission)).map (fun p => s.cancelRec p.1 p.2 x)
    let pools := (recs.filterMap (fun c => c.wait.map (·.1))).eraseDups
    let s := s.setInst i { x with cancelled := true }
    let s := ns.foldl (fun s p => match p.2.st with
      | .running => s.upNode p.1 (fun y => { y with discard := true })
      | _ => s.endNode p.1 .cancelled) s
    let old := if s.gdx.lastCancel.1 = s.gdx.cycle then s.gdx.lastCancel.2 else []
    let s := s.setGdx { s.gdx with lastCancel := (s.gdx.cycle, old ++ recs) }
    pools.foldl State.poolDrain s

/-- Cancel the instance of a template, timeline and slot, or by id (R137). -/
def State.cancel (s : State) (i : Option Nat) : State :=
  match i with
  | none => s.count F.CANCEL_NOINST_COUNT
  | some i =>
    match s.inst i with
    | none => s.count F.CANCEL_NOINST_COUNT
    | some x => if x.cancelled then s else s.cancelInst i

/-- The cancels of missed deadlines that the next slot whistle of a timeline makes (R140). -/
def State.dueCancels (s : State) (tl : Nat) : State :=
  (s.gdx.insts.filter (fun p => p.2.tl = tl && p.2.cancelDue && !p.2.cancelled)).foldl (fun s p =>
    let s := s.upInst p.1 (fun x => { x with lateCancel := true, cancelDue := false })
    let s := (s.count F.DEADLINE_LATE_CANCEL_COUNT).cancelInst p.1
    let s := s.gdxReport 0x04 1 p.2.tpl.id 0 p.2.slotWord tl
    match s.inst p.1 with
    | some x => s.telemetry 2 x
    | none => s) s

/-! ### Refills (R124, R126, R139) -/

/-- Count the wait-list entries that a refill of the cycle of their cancel would have admitted. -/
def State.lateRefill (s : State) (p : Nat) (before : CreditPool) : State :=
  if s.gdx.lastCancel.1 ≠ s.gdx.cycle then s
  else
    let gone := s.gdx.lastCancel.2.filterMap (fun c => match c.wait with
      | some (q, e) => if q = p then some e else none
      | none => none)
    let all := gone.foldl (fun l e => waitInsert e l) before.wait
    let adm := (CreditPool.drain before.bal all).1
    let hit (c : CancelledNode) : Bool := !c.counted && (match c.wait with
      | some (q, e) => decide (q = p ∧ e ∈ adm)
      | none => false)
    let n := (s.gdx.lastCancel.2.filter hit).length
    let s := s.setGdx { s.gdx with lastCancel := (s.gdx.lastCancel.1, s.gdx.lastCancel.2.map (fun c => if hit c then { c with counted := true } else c)) }
    s.count F.CANCEL_SAME_CYCLE_COUNT n

/-- A credit refill: operation 0 sets, 1 adds, others do nothing but count (R124). -/
def State.refill (s : State) (p op amount : Nat) : State :=
  let x := s.pool p
  if 2 ≤ op then s.count F.REFILL_BAD_COUNT
  else
    let bal := if op = 0 then amount * 1024 else min (2 ^ 40 - 1) (x.bal + amount * 1024)
    let y : CreditPool := { x with bal := bal }
    ((s.setPool p y).lateRefill p y).poolDrain p

/-! ### Creations (R113 to R119) -/

/-- The lowest k free ids below max. -/
def freeIds (used : List Nat) (max k : Nat) : List Nat := ((List.range max).filter (fun i => decide (i ∉ used))).take k

/-- What a creation leads to: the id of the new instance, or the check of R116 that refused it. -/
inductive Creation where
  | made (id : Nat)
  | refused (check : Nat)
  deriving DecidableEq, Repr

/-- A new node instance. -/
def newNode (i k : Nat) (r : NodeRec) (tl : Nat) : NodeInst where
  inst := i
  node := k
  st := .waiting
  tokens := List.replicate r.nIn none
  flow := flowOf r tl none
  runs := []
  outs := []
  replays := 0
  excluded := []
  tie := false
  poisonReplay := false
  readyCycle := 0
  readyTick := 0
  discard := false

/-- The kernels a template's nodes name, as they stand (R191). -/
def State.boundKernels (s : State) (t : Template) : List Kernel :=
  ((t.nodes.filter (fun r => r.cls = 0)).map (fun r => natBits r.work 0 16)).eraseDups.filterMap (fun k => Tab.find s.exu.kernels k)

/-- Make a slot instance of a template that has passed the checks (R115, R117, R133). -/
def State.makeInst (s : State) (t : Template) (e : Timeline) (tl : Nat) (slot : Int) : Nat × State :=
  let id := (freeIds (s.gdx.insts.map (·.1)) 4096 1).headD 0
  let ids := freeIds (s.gdx.nodes.map (·.1)) 65536 t.nodes.length
  let x : SlotInst := {
    tpl := t, tl := tl, slot := slot, slotWord := slotId (e.slotWord slot), bank := e.curBank, kernels := s.boundKernels t
    createNs := s.activeNs, createSecNs := s.activeTime.ns, cancelled := false, cancelDue := false, lateCancel := false
    orphan := false, firstDispatch := none, lastRelease := none, released := 0, cancelledN := 0, failed := 0, refused := 0
    replayed := 0, disputes := 0, l0Max := 0 }
  let s := s.setInst id x
  let s := (ids.zip (t.nodes.zipIdx)).foldl (fun s p =>
    let n := newNode id p.2.2 p.2.1 tl
    let s := s.setNode p.1 n
    match n.flow with
    | some f => s.joinFlow f p.1
    | none => s) s
  let old := Tab.find s.gdx.newest (t.id, tl)
  let new := match old with
    | some o => max o slot
    | none => slot
  (id, s.setGdx { s.gdx with newest := Tab.set s.gdx.newest (t.id, tl) new, made := s.gdx.made ++ [(t.id, tl, slot)] })

/-- End a node instance and everything reachable from it on a retire token (R142). -/
def State.retireToken (s : State) (i k : Nat) : State :=
  match s.inst i with
  | none => s
  | some x =>
    let path := k :: x.tpl.reach k (List.range (x.tpl.node k).nOut)
    let s := path.foldl (fun s m => match s.nodeAt i m with
      | some id => if (match s.node id with | some y => y.running | none => true) then s else s.endNode id .cancelled
      | none => s) s
    (path.flatMap (fun m => x.tpl.remotes m (List.range (x.tpl.node m).nOut))).foldl (fun s o => s.remoteSend none x o.2 true emptyToken) s

/-- Deliver a remote token or retire token to a live instance. -/
def State.remoteAt (s : State) (i node port : Nat) (isRetire : Bool) (t : Token) : State :=
  if isRetire then s.retireToken i node
  else
    match s.nodeAt i node with
    | some n => s.tokenAt n port t
    | none => s.tokenStale t

/-- After a creation, the holding area gives up its tokens for the instance, and those of earlier slots become stale (R119). -/
def State.holdingDrain (s : State) (tpl tl id : Nat) (e : Timeline) (slot : Int) (w : Nat) : State :=
  let mine := s.gdx.held.filter (fun h => h.template = tpl && h.tl = tl)
  let now := mine.filter (fun h => h.slotWord = slotId w)
  let old := mine.filter (fun h => decide (h.slotWord ≠ slotId w) && decide (e.ent.num.slotOfWord h.slotWord slot < slot))
  let s := s.setGdx { s.gdx with held := s.gdx.held.filter (fun h => decide (h ∉ now) && decide (h ∉ old)) }
  let s := now.foldl (fun s h => s.remoteAt id h.node h.port h.retire h.token) s
  old.foldl (fun s h => s.tokenStale h.token) s

/-- Judge and make a creation (R116): the slot is a coordinate word, resolved near the present. -/
def State.create (s : State) (tpl tl w : Nat) (slot : Option Int) : Creation × State :=
  let addrW := slotId w
  match s.tplCur tpl, s.tplBlocked tpl with
  | some t, false =>
    match s.tl tl with
    | none => (.refused 2, (s.count F.INST_REFUSED_COUNT).gdxReport 0x02 1 tpl 1 addrW tl)
    | some e =>
      if (s.instOf tpl tl w).isSome then (.refused 3, s.count F.DUP_CREATE_COUNT)
      else if 4096 ≤ s.gdx.insts.length ∨ 65536 < s.gdx.nodes.length + t.nodes.length then
        (.refused 4, (s.count F.INST_REFUSED_COUNT).gdxReport 0x02 1 tpl 2 addrW tl)
      else
        let sl := slot.getD (e.ent.num.slotOfWord w (s.coordNow e).slot)
        let (id, s) := s.makeInst t e tl sl
        (.made id, s.holdingDrain tpl tl id e sl w)
  | _, _ => (.refused 1, (s.count F.BLOCKED_CREATE_COUNT).gdxReport 0x03 0 tpl 0 addrW tl)

end Sys2Proof.Machine
end

