-- ==== Sys2Proof/Machine/GdxRun.lean ====
section
/-!
DEFINITION. Sys2Proof/Machine/GdxRun.lean: dispatch of ready node instances, the choice of executors, the dispatch record, and
completions with replay, poison, and the Umpire (04_graph_dispatcher.md, R128 to R149).
-/
namespace Sys2Proof.Machine

/-! ### The choice of an executor (R26 to R28, R114, R129, R442) -/

/-- May a core run MXC kernels: the MXC of its cluster is in service and not being removed (R114, R215)? -/
def State.mxcReady (s : State) (cl : Nat) : Bool := s.flag F.MXC_STATUS_IN_SERVICE cl && !(s.mx cl).removing

/-- May an executor run a node instance at all, whatever else is free? -/
def State.permitted (s : State) (r : NodeRec) (x : NodeInst) (e : Nat) : Bool :=
  s.execFree e && decide (e ∉ x.excluded) && (!r.mxc || (match s.execDomain e with
    | some d => s.mxcReady d
    | none => false))

/-- The executors that may be chosen: for levels 0 and 1, one in a TRIM domain only where no other is permitted (R442). -/
def State.candidates (s : State) (r : NodeRec) (x : NodeInst) (but : List Nat) : List Nat :=
  let l := (classExecs r.cls).filter (fun e => s.permitted r x e && (match s.execDomain e with
    | some d => decide (d ∉ but)
    | none => false))
  let good := l.filter (fun e => match s.execDomain e with
    | some d => !s.domTrim d
    | none => false)
  if r.level ≤ 1 ∧ good ≠ [] then good else l

/-- The next of a list of executors after the round-robin pointer of its class, cyclically. -/
def State.nextAfter (s : State) (c : Nat) (l : List Nat) : Option Nat :=
  let ptr := s.get F.GDX_CLASS_STATE_RR_PTR 0 c
  let n := classActive c
  let dist (e : Nat) : Nat := (execLocal e + n - ptr - 1) % n
  l.foldl (fun (b : Option Nat) e => match b with
    | none => some e
    | some f => if dist e < dist f then some e else some f) none

/-- The cluster that holds the first input buffer of a node instance (R26). -/
def NodeInst.affinity (x : NodeInst) : Option Nat :=
  match (x.tokens.filterMap id).find? (fun t => !t.empty) with
  | some t => if 0x20000000 ≤ t.addr ∧ t.addr < 0x38000000 then some ((t.addr - 0x20000000) / 0x1000000) else none
  | none => none

/-- Choose by R26 or R27: the executor, and whether the pointer moves to it. -/
def State.choose (s : State) (r : NodeRec) (x : NodeInst) (l : List Nat) : Option (Nat × Bool) :=
  let near := if r.cls = 0 then (match x.affinity with
    | some cl => l.find? (fun e => s.execDomain e = some cl)
    | none => none) else none
  match near with
  | some e => some (e, false)
  | none => (s.nextAfter r.cls l).map (fun e => (e, true))

/-- Move the round-robin pointer. -/
def State.moveRr (s : State) (c e : Nat) (move : Bool) : State := if move then s.put F.GDX_CLASS_STATE_RR_PTR (execLocal e) 0 c else s

/-- The unit id of Table 17-2 of the bench unit b of a class. -/
def State.benchUnit (s : State) (c b : Nat) : Nat :=
  if c = 0 then b * 9 + s.get F.SCL_STATUS_BENCH_POS b else (2 + c) * 2048 + s.get F.T_CTRL_MAP_PHYS (engInst c (classActive c + b))

/-- Is the unit behind an executor retired (R486)? -/
def State.benchRetired (s : State) (c b : Nat) : Bool := let u := s.benchUnit c b; s.retired (u / 2048) (u % 2048)

/-- The executor of a tie-break run (R147): a bench unit, for a VSC of the lowest cluster with neither A nor B; else any free executor
other than those of A and B. -/
def State.tieExec (s : State) (r : NodeRec) (x : NodeInst) : Option Nat :=
  let used := x.runs.map (·.exec)
  let doms := used.filterMap s.execDomain
  let usable (b : Nat) : Bool :=
    let e := benchExec r.cls b
    s.execFree e && !s.benchRetired r.cls b && decide (e ∉ x.excluded) &&
    (if r.cls = 0 then decide (b ∉ doms) && (Tab.find s.scl.lends b).isNone && (!r.mxc || s.mxcReady b) else true)
  match (List.range (classBench r.cls)).find? usable with
  | some b => some (benchExec r.cls b)
  | none => (classExecs r.cls).find? (fun e => s.permitted r x e && decide (e ∉ used))

/-- Abandon the self-test that runs on the unit behind an executor (R147); one that Brildo asked for waits for the next visit (R491). -/
def State.abandonTest (s : State) (e : Nat) : State :=
  let c := execClass e
  if (352 ≤ e) then
    let u := s.benchUnit c (if c = 0 then e - 352 else (e - 376) % 4)
    if Tab.find s.dep.tests u = some .running then
      let s := { s with dep := { s.dep with
        tests := Tab.set s.dep.tests u .abandoned
        asked := s.dep.asked.map (fun a => if a.unit = u then { a with later := true } else a) } }
      if c = 0 then s else s.clr F.T_STATUS_SELFTEST (engInst c (execLocal e))
    else s
  else s

/-! ### The dispatch record (R131, Table 4-8) -/

/-- The four words of a token (Table 4-3). -/
def Token.words (t : Token) : List Nat :=
  [t.addr % 2 ^ 32, t.addr / 2 ^ 32 % 2 ^ 16 + t.pool % 64 * 2 ^ 16 + (if t.empty then 2 ^ 22 else 0), t.length % 2 ^ 32,
   t.flowTag % 2 ^ 14 + t.user % 2 ^ 16 * 2 ^ 16]

/-- RUN of a run. -/
def RunKind.code : RunKind → Nat
  | .first => 0
  | .replay => 1
  | .second => 2
  | .tieBreak => 3

/-- The 68 words of a dispatch record. -/
def recordWords (n : Nat) (x : NodeInst) (i : SlotInst) (kind : RunKind) (outs : List Token) : List Nat :=
  let tok (l : List (Option Token)) : List Nat := (List.range 8).flatMap (fun p => match l.getD p none with
    | some t => t.words
    | none => [0, 0, 0, 0])
  [n % 2 ^ 16 + i.tpl.id * 2 ^ 16, x.inst % 2 ^ 12 + i.tl * 2 ^ 12 + i.bank * 2 ^ 20 + kind.code * 2 ^ 21, i.slotWord, x.node] ++
  tok x.tokens ++ tok (outs.map some)

/-- Deliver a dispatch record to an executor, and start its run or job (R131, R181, R221). -/
def State.deliverRun (s : State) (n : Nat) (x : NodeInst) (i : SlotInst) (kind : RunKind) (e : Nat) (outs : List Token) : State :=
  let r := i.tpl.node x.node
  let words := recordWords n x i kind outs
  let s := s.setExec e { s.exec e with node := some n, done := none }
  let s := match s.execDomain e with
    | some d => s.pwrDispatch d
    | none => s
  let s := s.abandonTest e
  if r.cls = 0 then
    match s.vscInst e with
    | none => s
    | some k =>
      let s := s.setWords (s.recordAddr k) words
      let kid := natBits r.work 0 16
      let kn := (i.kernels.find? (fun q => q.id = kid)).getD ⟨kid, 0, 0, false, false, false, 0, 0, 0⟩
      s.vscStart k e n kn
  else
    let q := engInst r.cls (execLocal e)
    let desc := (List.range 8).map (fun j => r.desc.getD j 0) ++ words ++ (List.range 64).map (fun j => r.desc.getD (8 + j) 0) ++
      [0, 0, 0, 0]
    let s := desc.zipIdx.foldl (fun s w => s.put F.T_DESC_DESC w.1 q w.2) s
    let inj := if 5 ≤ r.cls ∧ r.cls ≤ 7 then s.injOf [F.T_CTRL_INJ_RESIDUE, F.T_CTRL_INJ_PARITY, F.T_CTRL_INJ_CRC] q
      else (match s.injOf [F.T_CTRL_INJ_PARITY, F.T_CTRL_INJ_CRC] q with
        | 0 => 0
        | k => k + 1)
    let s := s.setExu { s.exu with jobs := Tab.set s.exu.jobs q ⟨e, n, inj⟩ }
    s.set F.T_STATUS_BUSY q

/-! ### Dispatch (R110, R128 to R130) -/

/-- The pools of a node's output buffers. -/
def NodeRec.outPools (r : NodeRec) : List Nat := (List.range r.nOut).map (fun k => natBits (r.outs.getD k 0) 0 6)

/-- Have the pools the buffers for m runs of a node (R110)? -/
def State.poolsHave (s : State) (r : NodeRec) (m : Nat) : Bool :=
  r.outPools.all (fun p => decide ((r.outPools.filter (· = p)).length * m ≤ s.poolFree p))

/-- Take one output buffer per port. -/
def State.takeOuts (s : State) (r : NodeRec) : List Token × State :=
  r.outPools.foldl (fun (acc : List Token × State) p => let (t, s) := acc.2.bufTake p; (acc.1 ++ [t], s)) ([], s)

/-- ns from readiness to now (a tick of the timing clock is 1.6 ns). -/
def State.waitNs (s : State) (x : NodeInst) : Nat := (s.tbu.ticks - x.readyTick) * 8 / 5

/-- The histogram bin of a wait (R153). -/
def histBin (ns : Nat) : Nat := if ns < 8 then 0 else min 15 (Nat.log2 (ns / 8) + 1)

/-- The measures of a dispatch (R151, R153, R155). -/
def State.countWait (s : State) (x : NodeInst) (level : Nat) : State :=
  let ns := s.waitNs x
  let s := (s.count F.GDX_HIST_COUNT 1 0 (16 * level + histBin ns)).raise F.GDX_WAIT_MAX_WAIT ns 0 level
  let s := if level = 0 ∧ s.get F.GDX_CFG_L0_LIMIT_NS < ns then s.count F.L0_OVER_COUNT else s
  s.upInst x.inst (fun i => { i with
    firstDispatch := some (i.firstDispatch.getD (s.activeNs - i.createNs))
    l0Max := if level = 0 then max i.l0Max ns else i.l0Max })

/-- Dispatch a tie-break run. -/
def State.dispatchTie (s : State) (n : Nat) (x : NodeInst) (i : SlotInst) (r : NodeRec) : Option State :=
  match s.tieExec r x with
  | none => none
  | some e =>
    if s.poolsHave r 1 then
      let (outs, s) := s.takeOuts r
      let s := s.setNode n { x with st := .running, runs := x.runs ++ [⟨.tieBreak, e, outs, none⟩] }
      let s := if s.flag F.UMP_FIRST_NODE_VALID ∧ s.get F.UMP_FIRST_NODE_NODE_INST_ID = n ∧ s.get F.UMP_FIRST_TIE_OUTCOME = 0 then
        let u := if e < 352 then (if r.cls = 0 then (match s.vscInst e with | some k => s.vscUnit k | none => 0)
            else s.get F.T_CTRL_MAP_PHYS (engInst r.cls (execLocal e)))
          else s.benchUnit r.cls (if r.cls = 0 then e - 352 else (e - 376) % 4)
        s.putAll 0 0 [(F.UMP_FIRST_TIE_CLASS, r.cls), (F.UMP_FIRST_TIE_PHYS, u)] else s
      some ((s.countWait x r.level).deliverRun n x i .tieBreak e outs)
    else none

/-- Dispatch a ready node instance, if executors and buffers allow: a single run, or runs A and B of a pair (R146). -/
def State.dispatchNode (s : State) (n : Nat) (x : NodeInst) (i : SlotInst) (r : NodeRec) : Option State :=
  let kind : RunKind := if x.replays = 0 then .first else .replay
  if 2 ≤ r.level ∧ s.freeCount r.cls ≤ s.get F.GDX_CLASS_RESERVE_RESERVE 0 r.cls then none
  else
    match s.choose r x (s.candidates r x []) with
    | none => none
    | some (a, mv) =>
      let pair := r.paired && s.flag F.UMP_CTRL_EN
      if x.poisonReplay then
        let s := (s.moveRr r.cls a mv).setNode n { x with st := .running, runs := [⟨.replay, a, x.outs, none⟩] }
        some ((s.countWait x r.level).deliverRun n x i .replay a x.outs)
      else if pair then
        let t := s.moveRr r.cls a mv
        match t.nextAfter r.cls (t.candidates r { x with excluded := a :: x.excluded } ((s.execDomain a).toList)) with
        | none => none
        | some b =>
          if s.poolsHave r 2 then
            let t := t.moveRr r.cls b true
            let (oa, t) := t.takeOuts r
            let (ob, t) := t.takeOuts r
            let t := t.setNode n { x with st := .running, runs := [⟨kind, a, oa, none⟩, ⟨.second, b, ob, none⟩] }
            some (((t.countWait x r.level).deliverRun n x i kind a oa).deliverRun n x i .second b ob)
          else none
      else if s.poolsHave r 1 then
        let t := s.moveRr r.cls a mv
        let t := if r.paired then t.count F.UMP_SINGLE_SINGLE else t
        let (o, t) := t.takeOuts r
        let t := t.setNode n { x with st := .running, runs := [⟨kind, a, o, none⟩] }
        some ((t.countWait x r.level).deliverRun n x i kind a o)
      else none

/-- The ready node instances of a class in the order of R128. -/
def State.readyOrder (s : State) (c : Nat) : List (Nat × NodeInst) :=
  let l := s.gdx.nodes.filter (fun p => p.2.st = .ready && (s.recOf p.2).cls = c)
  let key (p : Nat × NodeInst) : Nat := ((s.recOf p.2).level * 2 ^ 64 + p.2.readyCycle) * 2 ^ 32 + p.1
  l.foldr (fun p acc => let (a, b) := acc.partition (fun q => key q < key p); a ++ p :: b) []

/-- Does a node instance have its executors but lack buffers (R110)? -/
def State.lacksBuffers (s : State) (x : NodeInst) (r : NodeRec) : Bool :=
  !x.poisonReplay && !s.poolsHave r (if r.paired && s.flag F.UMP_CTRL_EN && !x.tie then 2 else 1)

/-- Try the ready node instances of a class in order; one that cannot be served does not block those behind it (R129). -/
def State.dispatchFirst (s : State) : List (Nat × NodeInst) → Bool → State
  | [], lack => if lack then s.count F.POOL_EMPTY_COUNT else s
  | p :: ps, lack =>
    match s.inst p.2.inst with
    | none => s.dispatchFirst ps lack
    | some i =>
      let r := i.tpl.node p.2.node
      match (if p.2.tie then s.dispatchTie p.1 p.2 i r else s.dispatchNode p.1 p.2 i r) with
      | some t => if lack then t.count F.POOL_EMPTY_COUNT else t
      | none => s.dispatchFirst ps (lack || s.lacksBuffers p.2 r)

/-- Step 7 of a cycle for one class: dispatch the first node instance that can be served; EN = 0 dispatches nothing. -/
def State.dispatch (s : State) (c : Nat) : State := if s.flag F.GDX_CTRL_EN then s.dispatchFirst (s.readyOrder c) false else s

/-! ### Completions (R132, R141, R143, R144) -/

/-- Is a status code a detected fault of the executor (Table 4-9)? -/
def faultCode (c : Nat) : Bool := decide (2 ≤ c ∧ c ≤ 6)

/-- The signature of a run over the valid bytes of its outputs in port order; word W3 of an engine's result header counts as zero
(R132). -/
def State.signature (s : State) (cls : Nat) (outs : List Token) : Nat :=
  (outs.zipIdx.foldl (fun (c : BitVec 64) t =>
    let bs := s.bytes t.1.addr t.1.length
    let bs := if cls ≠ 0 ∧ t.2 = 0 then bs.take 12 ++ List.replicate (min 4 (bs.length - 12)) 0 ++ bs.drop 16 else bs
    bs.foldl crc64Byte c) 0).toNat

/-- Output tokens with what the executor wrote into them. -/
def withWords (outs : List Token) (ws : List (Nat × Nat × Nat)) : List Token :=
  outs.zipIdx.map (fun t => let w := ws.getD t.2 (0, 0, 0); { t.1 with length := w.1, flowTag := w.2.1, user := w.2.2 })

/-- Remove a faulty executor from dispatch and report it to Steol (R143, item 2). -/
def State.execOut (s : State) (e : Nat) : State :=
  let s := s.setExec e { s.exec e with out := true }
  let s := s.setGdx { s.gdx with quarantine := s.gdx.quarantine ++ [e] }
  if execClass e = 0 then (match s.vscInst e with
    | some k => s.set F.VSC_STATUS_OUT k
    | none => s)
  else s.set F.T_STATUS_OUT (engInst (execClass e) (execLocal e))

/-- A fault leaves the executor in dispatch when it lies in the MXC: Steol takes the MXC out and returns the core (R214). -/
def State.faultExec (s : State) (e : Nat) (c : Completion) : State :=
  if faultCode c.code then (if execClass e = 0 ∧ 0x30 ≤ c.cause then s else s.execOut e) else s

/-- A replay, or the end FAILED (R127, R143, items 3 and 4). -/
def State.replayNode (s : State) (n : Nat) (bad : List Nat) : State :=
  match s.node n with
  | none => s
  | some x =>
    let r := s.recOf x
    let s := s.setNode n { x with runs := [], excluded := x.excluded ++ bad, tie := false }
    if r.replayable ∧ x.replays < s.get F.GDX_CFG_REPLAY_MAX then
      let s := s.upInst x.inst (fun i => { i with replayed := i.replayed + 1 })
      let s := (s.count F.REPLAYS_COUNT).upNode n (fun x => { x with replays := x.replays + 1 })
      if r.level ≤ 1 then s.makeReady n else s.upNode n (fun x => { x with st := .waiting })
    else s.failNode n

/-- A run or pair completes: its outputs wait for release in flow order, or take its turn at once (R133, R135). -/
def State.completeNode (s : State) (n e : Nat) (outs : List Token) : State :=
  match s.node n with
  | none => s
  | some x =>
    let x := { x with outs := outs, runs := [], tie := false }
    if s.atHead x n then s.setNode n { x with st := .turn }
    else if s.gdx.relbuf < 8192 then
      (s.setNode n { x with st := .completed none }).setGdx { s.gdx with
        relbuf := s.gdx.relbuf + 1, nodes := Tab.set s.gdx.nodes n { x with st := .completed none } }
    else (s.setNode n { x with st := .completed (some e) }).setExec e { s.exec e with node := some n }

/-- Hold again the input buffers of a producer that is replayed for poison. -/
def State.holdInputs (s : State) (x : NodeInst) : State :=
  x.tokens.foldl (fun s t => match t with
    | some t => if t.empty ∨ 62 ≤ t.pool then s else s.setRefs t (s.refs t + 1)
    | none => s) s

/-- Node instance n read poison on input port p (R144). -/
def State.poisonNode (s : State) (n p : Nat) : State :=
  match s.node n with
  | none => s
  | some x =>
    let r := s.recOf x
    let e := r.ins.getD p 0
    let s := s.setNode n { x with runs := [] }
    match (if inKind e = 0 ∧ p < r.nIn then s.nodeAt x.inst (natBits e 0 10) else none) with
    | none => s.failNode n
    | some q =>
      match s.node q with
      | none => s.failNode n
      | some y =>
        let ry := s.recOf y
        if y.poisonReplay then s.upNode n (fun x => { x with st := .poisonWait q })
        else if y.st = .ended .released ∧ ry.replayable ∧ y.replays < s.get F.GDX_CFG_REPLAY_MAX ∧
            y.tokens.all (fun t => match t with | some t => s.stillHeld t | none => true) then
          let s := s.upNode n (fun x => { x with st := .poisonWait q })
          let s := s.upInst y.inst (fun i => { i with replayed := i.replayed + 1 })
          let s := (s.count F.REPLAYS_COUNT).holdInputs y
          let s := s.setNode q { y with poisonReplay := true, replays := y.replays + 1, st := .waiting }
          if ry.level ≤ 1 then s.makeReady q else s
        else s.failNode n

/-- A producer's replay for poison completes (R144): its outputs stand, and its waiting consumers run again. -/
def State.poisonDone (s : State) (q : Nat) : State :=
  match s.node q with
  | none => s
  | some y =>
    let s := (s.freeInputs y).setNode q { y with st := .ended .released, runs := [], poisonReplay := false }
    (s.poisonWaiters q).foldl State.makeReady s

/-! ### The Umpire (R146 to R149) -/

/-- Capture the first dispute. -/
def State.umpCapture (s : State) (n tpl : Nat) (a b : Run) (sa sb : Nat) : State :=
  if s.flag F.UMP_FIRST_NODE_VALID then s
  else
    s.putAll 0 0 [(F.UMP_FIRST_NODE_NODE_INST_ID, n), (F.UMP_FIRST_NODE_TEMPLATE_ID, tpl), (F.UMP_FIRST_NODE_VALID, 1),
      (F.UMP_FIRST_EXEC_EXEC_A, a.exec), (F.UMP_FIRST_EXEC_EXEC_B, b.exec), (F.UMP_FIRST_TIE_OUTCOME, 0), (F.UMP_FIRST_TIE_CLASS, 0),
      (F.UMP_FIRST_TIE_PHYS, 0), (F.SIG_A_LO_SIG_A_LO, sa), (F.SIG_A_HI_SIG_A_HI, sa / 2 ^ 32), (F.SIG_B_LO_SIG_B_LO, sb),
      (F.SIG_B_HI_SIG_B_HI, sb / 2 ^ 32), (F.SIG_C_LO_SIG_C_LO, 0), (F.SIG_C_HI_SIG_C_HI, 0)]

/-- Note the outcome of the captured dispute. -/
def State.umpOutcome (s : State) (n sc outcome : Nat) : State :=
  if s.flag F.UMP_FIRST_NODE_VALID ∧ s.get F.UMP_FIRST_NODE_NODE_INST_ID = n ∧ s.get F.UMP_FIRST_TIE_OUTCOME = 0 then
    s.putAll 0 0 [(F.UMP_FIRST_TIE_OUTCOME, outcome), (F.SIG_C_LO_SIG_C_LO, sc), (F.SIG_C_HI_SIG_C_HI, sc / 2 ^ 32)]
  else s

/-- Both runs of a pair have reported. -/
def State.judgePair (s : State) (n e : Nat) (x : NodeInst) (a b : Run) (ra rb : RunResult) : State :=
  let free (r : Run) (s : State) : State := s.freeOutputs r.outs
  if ra.code = 0 ∧ rb.code = 0 then
    if ra.sig = rb.sig then ((free b s).count F.UMP_MATCH_MATCH).completeNode n e a.outs
    else
      let s := s.count F.UMP_MISMATCH_MISMATCH
      let s := s.upInst x.inst (fun i => { i with disputes := i.disputes + 1 })
      let tpl := match s.inst x.inst with
        | some i => i.tpl.id
        | none => 0
      let s := s.umpCapture n tpl a b ra.sig rb.sig
      (s.upNode n (fun x => { x with tie := true })).makeReady n
  else if ra.code = 1 ∨ rb.code = 1 then ((free b (free a s)).upNode n (fun x => { x with runs := [] })).failNode n
  else if ra.code = 0 then ((free b s).count F.UMP_ONE_FAULT_ONE_FAULT).completeNode n e a.outs
  else if rb.code = 0 then ((free a s).count F.UMP_ONE_FAULT_ONE_FAULT).completeNode n e b.outs
  else if ra.code = 7 then (free b (free a s)).poisonNode n ra.port
  else if rb.code = 7 then (free b (free a s)).poisonNode n rb.port
  else (free b (free a s)).replayNode n [a.exec, b.exec]

/-- The tie-break run has reported (R148). -/
def State.judgeTie (s : State) (n e : Nat) (a b c : Run) (ra rb rc : RunResult) : State :=
  if rc.code = 0 ∧ rc.sig = ra.sig then
    let s := ((s.umpOutcome n rc.sig 1).count F.UMP_TIE_A_TIE_A).freeOutputs (b.outs ++ c.outs)
    (s.execOut b.exec).completeNode n e a.outs
  else if rc.code = 0 ∧ rc.sig = rb.sig then
    let s := ((s.umpOutcome n rc.sig 2).count F.UMP_TIE_B_TIE_B).freeOutputs (a.outs ++ c.outs)
    (s.execOut a.exec).completeNode n e b.outs
  else
    let s := ((s.umpOutcome n rc.sig 3).count F.UMP_NOMATCH_NOMATCH).freeOutputs (a.outs ++ b.outs ++ c.outs)
    (s.upNode n (fun x => { x with runs := [] })).failNode n

/-- Act on the runs of a node instance once each has reported. -/
def State.judge (s : State) (n e : Nat) : State :=
  match s.node n with
  | none => s
  | some x =>
    match x.runs with
    | [⟨_, _, outs, some r⟩] =>
      if x.poisonReplay then
        (if r.code = 0 then s.poisonDone n
         else if r.code = 1 then s.failNode n
         else if r.code = 7 then s.failNode n
         else s.replayNode n [e])
      else if r.code = 0 then s.completeNode n e outs
      else if r.code = 1 then (((s.freeOutputs outs).upNode n (fun x => { x with runs := [] }))).failNode n
      else if r.code = 7 then (s.freeOutputs outs).poisonNode n r.port
      else (s.freeOutputs outs).replayNode n [e]
    | [a, b] => match a.result, b.result with
      | some ra, some rb => s.judgePair n e x a b ra rb
      | _, _ => s
    | [a, b, c] => match a.result, b.result, c.result with
      | some ra, some rb, some rc => s.judgeTie n e a b c ra rb rc
      | _, _, _ => s
    | _ => s

/-- The signature with the injected inversion of bit 0, for a paired run on the armed executor (UMP_INJECT). -/
def State.injectSig (s : State) (e sig : Nat) (paired : Bool) : Nat × State :=
  if paired ∧ s.flag F.UMP_INJECT_ARM ∧ s.get F.UMP_INJECT_EXEC = e then (sig ^^^ 1, s.clr F.UMP_INJECT_ARM) else (sig, s)

/-- An executor reports the end of its run (R132; step 4 of a cycle). -/
def State.complete (s : State) (e : Nat) : State :=
  let w := s.exec e
  match w.node, w.done with
  | some n, some c =>
    let s := s.setExec e { w with node := none, done := none }
    match s.node n with
    | none => s.faultExec e c
    | some x =>
      let outs := ((x.runs.find? (fun r => r.exec = e && r.result.isNone)).map (·.outs)).getD []
      let outs := withWords outs c.words
      let (sig, s) := s.injectSig e (s.signature (execClass e) outs) (decide (2 ≤ x.runs.length) && !x.tie)
      let runs := x.runs.map (fun r => if r.exec = e ∧ r.result.isNone then { r with outs := outs, result := some ⟨c.code, c.port, sig⟩ } else r)
      let s := (s.setNode n { x with runs := runs }).faultExec e c
      if x.discard then (if runs.all (fun r => r.result.isSome) then s.endNode n .cancelled else s)
      else s.judge n e
  | _, _ => s

end Sys2Proof.Machine
end

