-- ==== Sys2Proof/Machine/Scl.lean ====
section
/-!
DEFINITION. Sys2Proof/Machine/Scl.lean: the cluster pages: the bench map of the cores (R565) and the lends of bench cores to other
clusters (R566).
-/
namespace Sys2Proof.Machine

/-- Store the part of the cluster pages that their registers do not show. -/
def State.setScl (s : State) (x : Scl) : State := { s with scl := x }

/-- The slot of a map that names a position, if any. -/
def mapSlot (map p : Nat) : Option Nat := (List.range 8).find? (fun k => map / 16 ^ k % 16 = p)

/-- The VSC instance behind which the core at a position of cluster c stands, if any (R156). -/
def State.posInst (s : State) (c p : Nat) : Option Nat :=
  match mapSlot (s.get F.SCL_MAP_SLOT c) p with
  | some k => some (8 * c + k)
  | none => if s.get F.SCL_STATUS_BENCH_POS c = p then some (192 + c) else none

/-- Is the core at a position idle: between runs (R156)? -/
def State.posIdle (s : State) (c p : Nat) : Bool :=
  p = 0xF || (match s.posInst c p with
    | some k => (s.core k).isNone
    | none => true)

/-- Is a written map refused (R565)? -/
def State.sclMapBad (s : State) (c map : Nat) : Bool :=
  let ps := ((List.range 8).map (fun k => map / 16 ^ k % 16)).filter (· ≠ 0xF)
  ps.any (fun p => decide (8 < p) || s.retired 0 (c * 9 + p)) || decide (ps.eraseDups.length ≠ ps.length) ||
  s.flag F.SCL_STATUS_MAP_PENDING c

/-- BENCH_POS: the position that the map does not name and that is not retired, 0xF for none. -/
def State.benchPos (s : State) (c map : Nat) : Nat :=
  ((List.range 9).find? (fun p => (mapSlot map p).isNone && !s.retired 0 (c * 9 + p))).getD 0xF

/-- Keep BENCH_POS and RETIRED of a cluster. -/
def State.sclShow (s : State) (c : Nat) : State :=
  let r := ((List.range 9).map (fun p => if s.retired 0 (c * 9 + p) then 2 ^ p else 0)).foldl (· + ·) 0
  (s.put F.SCL_STATUS_BENCH_POS (s.benchPos c (s.get F.SCL_MAP_SLOT c)) c).put F.SCL_STATUS_RETIRED r c

/-- A logical core has a working core behind it again: OUT clears (R485). -/
def State.coreBack (s : State) (l k : Nat) : State := (s.setExec l { s.exec l with out := false }).clr F.VSC_STATUS_OUT k

/-- Each slot whose position changes takes its new one once the old and the new core are idle (R565); the slots that wait keep theirs,
and so do those whose new position such a slot still holds. -/
def State.sclMapApply (s : State) (c : Nat) : State :=
  match Tab.find s.scl.mapPending c with
  | none => s
  | some want =>
    let now := s.get F.SCL_MAP_SLOT c
    let at_ (m k : Nat) : Nat := m / 16 ^ k % 16
    let busy := (List.range 8).filter (fun k => decide (at_ now k ≠ at_ want k) && !(s.posIdle c (at_ now k) && s.posIdle c (at_ want k)))
    let stay := repeatN (fun (h : List Nat) => (List.range 8).filter (fun k => decide (k ∈ h) ||
      (decide (at_ want k ≠ 0xF) && h.any (fun j => decide (j ≠ k) && at_ now j = at_ want k)))) 8 busy
    let pick (k : Nat) : Nat := if k ∈ stay then at_ now k else at_ want k
    let new := ((List.range 8).map (fun k => pick k * 16 ^ k)).foldl (· + ·) 0
    let changed := (List.range 8).filter (fun k => at_ new k ≠ at_ now k && at_ new k ≠ 0xF)
    let s := (s.put F.SCL_MAP_SLOT new c).sclShow c
    let s := changed.foldl (fun s k => s.coreBack (8 * c + k) (8 * c + k)) s
    if new = want then (s.setScl { s.scl with mapPending := Tab.erase s.scl.mapPending c }).clr F.SCL_STATUS_MAP_PENDING c else s

/-- A Steward write of SCL_MAP (R565). -/
def State.sclMapWrite (s : State) (c map : Nat) : State :=
  if s.sclMapBad c map then s.set F.SCL_STATUS_MAP_REFUSED c
  else ((s.setScl { s.scl with mapPending := Tab.set s.scl.mapPending c map }).set F.SCL_STATUS_MAP_PENDING c).sclMapApply c

/-- Is a lend of cluster n to logical core l refused (R566)? -/
def State.lendBad (s : State) (n l : Nat) : Bool :=
  decide (192 ≤ l) || decide (l / 8 = n) || decide (s.sclPos (l / 8) (l % 8) ≠ 0xF) || decide (s.get F.SCL_STATUS_BENCH_POS n = 0xF) ||
  (List.range 24).any (fun m => decide (m ≠ n) && ((s.flag F.SCL_LEND_EN m && s.get F.SCL_LEND_LOGICAL m = l) ||
    Tab.find s.scl.lends m = some l))

/-- The lend asked for by SCL_LEND starts or ends once the bench core is idle (R566). -/
def State.lendApply (s : State) (n : Nat) : State :=
  if (s.core (192 + n)).isSome then s
  else if s.flag F.SCL_LEND_EN n then
    let l := s.get F.SCL_LEND_LOGICAL n
    if Tab.find s.scl.lends n = some l then s
    else (s.setScl { s.scl with lends := Tab.set s.scl.lends n l }).coreBack l (192 + n)
  else s.setScl { s.scl with lends := Tab.erase s.scl.lends n }

/-- A Steward write of SCL_LEND (R566). -/
def State.lendWrite (s : State) (n l : Nat) (en : Bool) : State :=
  if en ∧ s.lendBad n l then s.set F.SCL_STATUS_MAP_REFUSED n
  else (s.putAll n 0 [(F.SCL_LEND_LOGICAL, l), (F.SCL_LEND_EN, if en then 1 else 0)]).lendApply n

/-- SCL_MAP_WRITE (R565). -/
def execSclMapWrite (c : Fin 24) (map : Word) (s : State) : Host.Outcome State Fault Refusal := .next (s.sclMapWrite c map.toNat)

/-- SCL_MAP_APPLY (R565). -/
def execSclMapApply (c : Fin 24) (s : State) : Host.Outcome State Fault Refusal := .next (s.sclMapApply c)

/-- SCL_LEND_WRITE (R566). -/
def execSclLendWrite (c : Fin 24) (logical : BitVec 8) (en : Bool) (s : State) : Host.Outcome State Fault Refusal :=
  .next (s.lendWrite c logical.toNat en)

/-- SCL_LEND_APPLY (R566). -/
def execSclLendApply (c : Fin 24) (s : State) : Host.Outcome State Fault Refusal := .next (s.lendApply c)

end Sys2Proof.Machine
end

