-- ==== Sys2Proof/Machine/GdxCmd.lean ====
section
/-!
DEFINITION. Sys2Proof/Machine/GdxCmd.lean: graph images and their install (R105 to R114), items and remote tokens (R116 to R119), the
telemetry copy and the snapshot (R154, R155), and the meanings of the dispatcher's rows (04_graph_dispatcher.md).
-/
namespace Sys2Proof.Machine

/-! ### Graph images (R105 to R112) -/

/-- A port half-word or word of a node record. -/
def nodeIns (w : List Nat) : List Nat := (List.range 8).map (fun p => natBits (w.getD (4 + p / 2) 0) (16 * (p % 2)) 16)

/-- The job-descriptor template of an engine node at offset WORK: its header, and the parameter words that follow it with
PARAM_IN = 0 (R222). -/
def State.jobTemplate (s : State) (a work : Nat) : List Nat :=
  let h := s.words (a + work) 8
  let n := if (h.headD 0).testBit 12 then 0 else min 64 (natBits (h.headD 0) 16 7)
  h ++ s.words (a + work + 32) n

/-- A node record (Table 4-1) of an image at a; mxc comes from its kernel (R114). -/
def State.nodeRec (s : State) (a : Nat) (w : List Nat) : NodeRec :=
  let g (i lo len : Nat) : Nat := natBits (w.getD i 0) lo len
  let cls := g 0 0 4
  { cls := cls, level := g 0 4 3, paired := g 0 7 1 = 1, replayable := g 0 8 1 = 1, cancelProp := g 0 9 1 = 1
    nIn := g 0 12 4, nOut := g 0 16 4, flowBase := g 1 0 14, flowMode := g 1 14 2, cost := g 2 0 24, work := w.getD 3 0
    ins := nodeIns w, outs := (List.range 8).map (fun p => w.getD (8 + p) 0)
    mxc := cls = 0 && (match Tab.find s.exu.kernels (g 3 0 16) with | some k => k.usesMxc | none => false)
    desc := if cls = 0 then [] else s.jobTemplate a (w.getD 3 0) }

/-- Parse the template at offset off of an image at a (Table 4-5). -/
def State.parseTpl (s : State) (a off minor version : Nat) : Template :=
  let b := a + off
  let w0 := s.word b
  let w1 := s.word (b + 4)
  let w2 := s.word (b + 8)
  let n := natBits w1 0 11
  let nodes := (List.range (min n 1024)).map (fun k => s.nodeRec a (s.words (b + 32 + 64 * k) 16))
  let binds := (List.range (natBits w1 16 12)).map (fun k =>
    (s.word (b + 32 + 64 * n + 8 * k), s.word (b + 32 + 64 * n + 8 * k + 4)))
  ⟨natBits w0 0 12, version, w0.testBit 12 && decide (minor ≠ 0), natBits w0 16 16, natBits w2 0 10, natBits w2 10 10, natBits w2 20 10,
   nodes, binds⟩

/-- The first cause of Table 4-6 that a template fails, of 0x4 to 0xA; 0 for none. -/
def State.tplCause (s : State) (nodeCount : Nat) (t : Template) : Nat :=
  let ports (r : NodeRec) : List Nat := (List.range (min 8 r.nIn)).map (fun p => r.ins.getD p 0)
  let outs (r : NodeRec) : List Nat := (List.range (min 8 r.nOut)).map (fun p => r.outs.getD p 0)
  let badIn (k : Nat) (e : Nat) : Bool :=
    if inKind e = 0 then decide (k ≤ natBits e 0 10) || decide ((t.node (natBits e 0 10)).nOut ≤ natBits e 10 3)
    else if inKind e = 1 then decide (t.binds.length ≤ natBits e 0 12)
    else false
  if nodeCount = 0 ∨ 1024 < nodeCount then 4
  else if t.nodes.any (fun r => decide (10 ≤ r.cls ∨ 8 < r.nIn ∨ 8 < r.nOut) || (ports r).any (fun e => inKind e = 3)) ∨
      t.binds.any (fun b => decide (5 ≤ natBits b.1 0 3)) then 5
  else if t.nodes.zipIdx.any (fun x => (ports x.1).any (badIn x.2) ||
      (outs x.1).any (fun o => decide (natBits o 8 12 ≠ 0xFFF ∧ t.binds.length ≤ natBits o 8 12))) then 6
  else if t.nodes.any (fun r => r.paired && (decide (r.level ≠ 0) || !r.replayable)) then 7
  else if t.nodes.any (fun r => r.flowMode = 3 && r.nIn = 0) then 8
  else if t.nodes.any (fun r => (outs r).any (fun o => decide (62 ≤ natBits o 0 6) || decide (s.poolCount (natBits o 0 6) = 0))) then 9
  else if t.nodes.any (fun r => r.cls = 0 && (Tab.find s.exu.kernels (natBits r.work 0 16)).isNone) then 0xA
  else 0

/-- The offset and length of directory entry k of an image. -/
def State.dirEntry (s : State) (a k : Nat) : Nat × Nat :=
  (s.word (a + s.word (a + 20) + 8 * k), s.word (a + s.word (a + 20) + 8 * k + 4))

/-- The templates of an image, checked in directory order: the first failing index with its cause, or all of them. -/
def State.checkTpls (s : State) (a minor : Nat) : Nat → Nat → List Template → (Nat × Nat) ⊕ List Template
  | 0, _, acc => .inr acc
  | n + 1, k, acc =>
    let off := (s.dirEntry a k).1
    let t := s.parseTpl a off minor (s.gdx.nextVersion + k)
    let c := s.tplCause (natBits (s.word (a + off + 4)) 0 11) t
    if c ≠ 0 then .inl (c, k)
    else if acc.any (fun u => u.id = t.id) then .inl (0xC, k)
    else s.checkTpls a minor n (k + 1) (acc ++ [t])

/-- The first cause of 0x1 to 0x3 that an image fails, 0 for none. -/
def State.imageCause (s : State) (a regionLen : Nat) : Nat :=
  let n := natBits (s.word (a + 8)) 0 13
  let len := s.word (a + 12)
  if s.word a ≠ 0x4758494D ∨ n = 0 ∨ 4096 < n ∨ regionLen < len ∨ len < s.word (a + 20) + 8 * n ∨
     (List.range n).any (fun k => decide (len < (s.dirEntry a k).1 + (s.dirEntry a k).2)) then 1
  else if natBits (s.word (a + 4)) 16 16 ≠ 2 then 2
  else if crc32 (s.bytes a 16 ++ [0, 0, 0, 0] ++ s.bytes (a + 20) (len - 20)) ≠ s.word (a + 16) then 3
  else 0

/-- Install the image at an address, or refuse it with cause and index (R112, R113): cause and index, 0 for none. -/
def State.installAt (s : State) (a regionLen : Nat) (fits : Bool) : (Nat × Nat) × State :=
  let c := s.imageCause a regionLen
  if c ≠ 0 then ((c, 0), s)
  else
    let n := natBits (s.word (a + 8)) 0 13
    match s.checkTpls a (natBits (s.word (a + 4)) 0 16) n 0 [] with
    | .inl (c, k) => ((c, k), s)
    | .inr ts =>
      if ¬ fits then ((0xB, 0), s)
      else ((0, 0), s.setGdx { s.gdx with
        nextVersion := s.gdx.nextVersion + n
        templates := ts.foldl (fun m t => Tab.set m t.id ⟨some t, false⟩) s.gdx.templates })

/-- An install through the registers. -/
def State.install (s : State) (regionLen : Nat) (fits : Bool) : State :=
  let a := s.get F.GDX_TPL_ADDR_LO_ADDR + s.get F.GDX_TPL_ADDR_HI_ADDR * 2 ^ 32
  let (r, s) := s.installAt a regionLen fits
  if r.1 = 0 then s
  else s.putAll 0 0 [(F.GDX_TPL_STATUS_REFUSED, 1), (F.GDX_TPL_STATUS_CAUSE, r.1), (F.GDX_TPL_STATUS_INDEX, r.2)]

/-- Remove a template for later creations (R113). -/
def State.tplRemove (s : State) (t : Nat) : State :=
  s.setGdx { s.gdx with templates := Tab.set s.gdx.templates t { Tab.get ⟨none, false⟩ s.gdx.templates t with cur := none } }

/-! ### Items of queues and rings (R22, R116, R118) -/

/-- The installed template whose binding names an input (kind 0 queue, 1 ring), and W0, W1 of the binding; the lowest number. -/
def State.boundTpl (s : State) (kind id : Nat) : Option (Template × Nat × Nat) :=
  let l := s.gdx.templates.filterMap (fun p => p.2.cur)
  let hit (t : Template) : Option (Nat × Nat) := t.binds.find? (fun b => natBits b.1 0 3 = kind && natBits b.1 16 16 = id)
  (l.filter (fun t => (hit t).isSome)).foldl (fun (b : Option (Template × Nat × Nat)) t => match b, hit t with
    | some (u, w), some x => if t.id < u.id then some (t, x) else some (u, w)
    | none, some x => some (t, x)
    | b, none => b) none

/-- The unfilled port of a live instance that an item takes: the lowest-numbered node's, whose binding names the input and whose
SYMBOL matches. -/
def State.itemPort (s : State) (i : Nat) (x : SlotInst) (kind id sym : Nat) : Option (Nat × Nat) :=
  (s.nodesOf i).findSome? (fun p => ((x.tpl.portBinds p.2.node p.2.missing).find? (fun m =>
    m.2.1 = kind && m.2.2.1 = id && (m.2.2.2 = 31 || m.2.2.2 = sym))).map (fun m => (p.1, m.1)))

/-- What GDX does with the item at the head of an input (R118): its token's node instance and port, stale with the errorCode of Table
14-19, or wait. -/
inductive ItemFate where
  | token (n port : Nat)
  | stale (why : FapiError)
  | wait
  deriving DecidableEq, Repr

/-- Judge an item of a bound template by its identity (R118, after the first two cases). -/
def State.itemFate (s : State) (t : Template) (tl w kind id sym : Nat) : ItemFate :=
  match s.instOf t.id tl w with
  | some i =>
    match s.inst i with
    | none => .wait
    | some x =>
      if x.cancelled then .stale .slotErr
      else match s.itemPort i x kind id sym with
        | some (n, p) => .token n p
        | none => .stale .slotErr
  | none =>
    match s.tl tl, Tab.find s.gdx.newest (t.id, tl) with
    | some e, some new =>
      let slot := e.ent.num.slotOfWord (slotId w) new
      if slot ≤ new then .stale (if (t.id, tl, slot) ∈ s.gdx.made then .slotErr else .invalidSfn) else .wait
    | _, _ => .wait

/-- A late item (R139): would it have been the last token of a node instance that a cancel of this cycle ended? -/
def lateItem (tpl tl w kind id sym : Nat) (c : CancelledNode) (missing : List (Nat × Nat × Nat × Nat)) : Option Nat :=
  if c.template = tpl ∧ c.tl = tl ∧ c.slotWord = slotId w then
    (missing.find? (fun m => m.2.1 = kind && m.2.2.1 = id && (m.2.2.2 = 31 || m.2.2.2 = sym))).map (·.1)
  else none

/-- Take the item at the head of a stream queue. -/
def State.takeQueue (s : State) (q : Nat) (late : Bool) : State :=
  match s.queue q, s.queueHead q with
  | some x, some i =>
    if x.ent.consumer ≠ 0 then s
    else if i.gap then s.queueFree q i.place
    else
      match s.boundTpl 0 q with
      | none => (s.count F.STALE_INPUT_COUNT).queueFree q i.place
      | some (t, _, _) =>
        let s := if late then s.lateToken (lateItem t.id x.ent.tl i.slot 0 q i.symbol) else s
        match s.itemFate t x.ent.tl i.slot 0 q i.symbol with
        | .token n p =>
          (s.queueHold q i.place).tokenAt n p ⟨i.addr, i.pool, false, i.length, i.flowTag, i.user, .queue q i.place⟩
        | .stale _ => (s.count F.STALE_INPUT_COUNT).queueFree q i.place
        | .wait => s
  | _, _ => s

/-- The item of an input ring that GDX has not taken, oldest first. -/
def Ring.head (x : Ring) : Option RingItem := if x.out then none else x.items.find? (fun i => !i.taken && !i.done)

/-- Mark an item of a ring as taken. -/
def State.ringTake (s : State) (r idx : Nat) : State :=
  match s.ring r with
  | none => s
  | some x => s.setRing r { x with items := x.items.map (fun i => if i.index = idx then { i with taken := true } else i) }

/-- Consume a stale ring item (R22, R432). -/
def State.ringStale (s : State) (r : Nat) (i : RingItem) (why : FapiError) : State :=
  (((s.ringTake r i.index).count F.STALE_INPUT_COUNT).errIndication r i why).ringConsume r i.index

/-- Take the item at the head of an input data ring; with CREATE = 1 it first creates its instance (R116). -/
def State.takeRing (s : State) (r : Nat) (late : Bool) : State :=
  match s.ring r with
  | none => s
  | some x =>
    match x.head with
    | none => s
    | some i =>
      let w (k : Nat) : Nat := i.words.getD k 0
      match s.boundTpl 1 r with
      | none => s.ringStale r i .invalidState
      | some (t, b0, b1) =>
        let create := b0.testBit 3
        let tl := if create then natBits b1 16 8 else x.tl
        if create ∧ ¬ s.flag F.GDX_CTRL_EN then s
        else
          let s := if late then s.lateToken (lateItem t.id tl (w 1) 1 r (natBits (w 2) 0 5)) else s
          let (c, s) := if create then s.create t.id tl (w 1) none else (.refused 3, s)
          match c with
          | .refused 1 => s.ringStale r i .slotErr
          | .refused 2 => s.ringStale r i .slotErr
          | .refused 4 => s.ringStale r i .slotErr
          | _ =>
            match s.itemFate t tl (w 1) 1 r (natBits (w 2) 0 5) with
            | .token n p =>
              let s := s.ringTake r i.index
              match s.node n with
              | some y =>
                let s := if y.over then s.errIndication r i .slotErr else s
                s.tokenAt n p ⟨i.addr, 63, false, w 3, natBits (w 7) 0 14, natBits (w 7) 16 16, .ring r i.index⟩
              | none => s
            | .stale why => s.ringStale r i why
            | .wait => s

/-! ### Remote tokens (R116, R119, R142) -/

/-- The enabled timeline with a CONSIST_TAG. -/
def State.tlOfTag (s : State) (tag : Nat) : Option Nat :=
  if tag = 0 then none else ((List.range 256).find? (fun t => s.tagOf t = tag && s.tlOn t))

/-- A remote token or retire token arrives (R116 source 3, R119, R142). -/
def State.remoteToken (s : State) (r : RemoteToken) (late : Bool) : State :=
  match s.tlOfTag r.tag with
  | none =>
    let rc := match s.tplCur r.template with
      | some t => t.remoteCreate && !r.retire
      | none => false
    let s := if rc then (s.create r.template 256 r.slotWord none).2 else s
    s.tokenStale r.token
  | some tl =>
    let s := if late then s.lateToken (fun c m =>
      if c.template = r.template ∧ c.tl = tl ∧ c.slotWord = slotId r.slotWord ∧ c.node = r.node then
        (m.find? (fun q => q.1 = r.port)).map (·.1) else none) else s
    match s.instOf r.template tl r.slotWord with
    | some i => s.remoteAt i r.node r.port r.retire r.token
    | none =>
      let gone := match s.tl tl, Tab.find s.gdx.newest (r.template, tl) with
        | some e, some new => decide (e.ent.num.slotOfWord (slotId r.slotWord) new ≤ new)
        | _, _ => false
      let rc := match s.tplCur r.template with
        | some t => t.remoteCreate && !r.retire
        | none => false
      if gone then s.tokenStale r.token
      else if rc ∧ s.flag F.GDX_CTRL_EN then
        match s.create r.template tl r.slotWord none with
        | (.made i, s) => s.remoteAt i r.node r.port r.retire r.token
        | (_, s) => s.tokenStale r.token
      else if 1024 ≤ s.gdx.held.length then (s.count F.REMOTE_HOLD_DROP_COUNT).tokenFree r.token
      else s.setGdx { s.gdx with held := s.gdx.held ++ [⟨r.template, tl, slotId r.slotWord, r.node, r.port, r.retire, r.token⟩] }

/-! ### Measures (R154, R155) -/

/-- The registers that HOLD captures: the class depths, counters, histograms, maxima and live counts. -/
def snapKeys : List RegKey :=
  ((List.range 10).map (fun c => ⟨.GDX_CLASS_DEPTH, 0, c⟩)) ++ ((List.range 128).map (fun b => ⟨.GDX_HIST, 0, b⟩)) ++
  ((List.range 8).flatMap (fun l => [⟨.GDX_WAIT_MAX, 0, l⟩, ⟨.GDX_ADM_REFUSED, 0, l⟩])) ++
  ([Reg.GDX_TELEM_LOST, .INST_REFUSED, .DUP_CREATE, .BLOCKED_CREATE, .CANCEL_NOINST, .CANCEL_SAME_CYCLE, .DEADLINE_LATE_CANCEL,
    .STALE_INPUT, .DUP_TOKEN, .REPLAYS, .FAILED, .POOL_EMPTY, .RELBUF_STALL, .L0_OVER, .SINK_FULL, .REFILL_BAD, .REMOTE_HOLD_DROP,
    .INST_LIVE, .NODE_LIVE, .RELBUF_USED].map (fun r => ⟨r, 0, 0⟩))

/-- Start or end a hold (R154). -/
def State.snapHold (s : State) (hold : Bool) : State :=
  let s := s.setTo F.GDX_SNAP_HOLD hold
  if hold then
    match s.gdx.snap with
    | some _ => s
    | none => s.setGdx { s.gdx with snap := some (snapKeys.map (fun k => (k, s.rd k))) }
  else s.setGdx { s.gdx with snap := none }

/-- Steol copies the oldest telemetry record to the host ring, or drops it when the ring is full (R155). -/
def State.telemCopy (s : State) : State :=
  match s.host.telemRing with
  | none => s
  | some r =>
    let rd := s.get F.GDX_TELEM_RD_RD
    let size := s.get F.GDX_TELEM_SIZE_SIZE
    if s.get F.GDX_TELEM_WR_WR = rd ∨ size = 0 then s
    else
      let bs := s.bytes (sramBase + s.get F.GDX_TELEM_BASE_BASE + rd % size * 64) 64
      let s := if s.ringDetached r then s.count F.MBX_RING_DETACH_DROP_DETACH_DROP 1 0 r
        else if s.ringHasRoom r then s.ringPutBytes r (fun _ => bs) none
        else s.count F.GDX_TELEM_LOST_COUNT
      s.put F.GDX_TELEM_RD_RD (rd + 1)

/-- Store a class's reserve (Table 4-19). -/
def State.setReserve (s : State) (c v : Nat) : State :=
  if classActive c ≤ v then (s.put F.GDX_CLASS_RESERVE_RESERVE (classActive c - 1) 0 c).set F.GDX_STATUS_OVERCOMMIT
  else s.put F.GDX_CLASS_RESERVE_RESERVE v 0 c

/-! ### The meanings -/

/-- A creation by the registers, with EN = 1 (Table 4-17). -/
def State.instCreate (s : State) (tpl tl : Nat) : State :=
  if s.flag F.GDX_CTRL_EN then ((s.gdxCycle.create tpl tl (s.get F.GDX_INST_STATUS_SLOT) none).2).gdxSettle else s

/-- INST_CMD_CREATE (R116). -/
def execInstCmdCreate (template : BitVec 12) (tl : BitVec 8) (s : State) : Host.Outcome State Fault Refusal :=
  .next ((s.putAll 0 0 [(F.GDX_INST_CMD_ID, template.toNat), (F.GDX_INST_CMD_OP, 1), (F.GDX_INST_CMD_TL, tl.toNat)]).instCreate
    template.toNat tl.toNat)

/-- INST_CMD_CANCEL (R137). -/
def execInstCmdCancel (id : BitVec 12) (s : State) : Host.Outcome State Fault Refusal :=
  .next ((((s.putAll 0 0 [(F.GDX_INST_CMD_ID, id.toNat), (F.GDX_INST_CMD_OP, 0)]).gdxCycle).cancel
    (if (s.inst id.toNat).isSome then some id.toNat else none)).gdxSettle)

/-- TEMPLATE_INSTALL (R112). -/
def execTemplateInstall (regionLen : Nat) (fits : Bool) (s : State) : Host.Outcome State Fault Refusal :=
  .next ((s.put F.GDX_TPL_CMD_OP 0).install regionLen fits)

/-- TEMPLATE_REMOVE (R113). -/
def execTemplateRemove (template : BitVec 12) (s : State) : Host.Outcome State Fault Refusal :=
  .next ((s.putAll 0 0 [(F.GDX_TPL_CMD_OP, 1), (F.GDX_TPL_CMD_TEMPLATE, template.toNat)]).tplRemove template.toNat)

/-- TEMPLATE_BLOCK (R113). -/
def execTemplateBlock (template : BitVec 12) (s : State) : Host.Outcome State Fault Refusal :=
  .next ((s.putAll 0 0 [(F.GDX_TPL_CMD_OP, 2), (F.GDX_TPL_CMD_TEMPLATE, template.toNat)]).tplBlock template.toNat true)

/-- TEMPLATE_UNBLOCK (R113). -/
def execTemplateUnblock (template : BitVec 12) (s : State) : Host.Outcome State Fault Refusal :=
  .next ((s.putAll 0 0 [(F.GDX_TPL_CMD_OP, 3), (F.GDX_TPL_CMD_TEMPLATE, template.toNat)]).tplBlock template.toNat false)

/-- Does an arrival fall in the cycle of the last cancel (R139)? -/
def State.inCancelCycle (s : State) (sameCycle : Bool) : Bool := sameCycle && decide (s.gdx.lastCancel.1 = s.gdx.cycle)

/-- TOKEN_ARRIVAL (R23, R108, R122, R139): the oldest token on its way arrives. -/
def execTokenArrival (sameCycle : Bool) (s : State) : Host.Outcome State Fault Refusal :=
  .next (match s.gdx.inflight with
    | [] => s
    | f :: fs =>
      let late := s.inCancelCycle sameCycle
      let s := s.setGdx { s.gdx with inflight := fs }
      let s := if late then s.lateToken (fun c m => if c.id = f.node then (m.find? (fun q => q.1 = f.port)).map (·.1) else none)
        else s.gdxCycle
      (if f.stale then s.tokenStale f.token else s.tokenAt f.node f.port f.token).gdxSettle)

/-- STREAM_ITEM_TAKE (R22, R118). -/
def execStreamItemTake (src : StreamSrc) (sameCycle : Bool) (s : State) : Host.Outcome State Fault Refusal :=
  .next (
    let late := s.inCancelCycle sameCycle
    let s := if late then s else s.gdxCycle
    (match src with
      | .queue q => s.takeQueue q.toNat late
      | .ring r => s.takeRing r.toNat late).gdxSettle)

/-- NODE_DISPATCH (R128 to R131, R146, R147). -/
def execNodeDispatch (cls : Fin 10) (s : State) : Host.Outcome State Fault Refusal := .next ((s.gdxCycle.dispatch cls).gdxShow)

/-- COMPLETION_REPORT (R132, R141, R143 to R149). -/
def execCompletionReport (e : BitVec 9) (s : State) : Host.Outcome State Fault Refusal := .next ((s.gdxCycle.complete e.toNat).gdxSettle)

/-- RELEASE_BUFFER_ENTRY_FREE (R135): a stalled member takes an entry, after the cycles it stalled. -/
def execReleaseBufferEntryFree (e : BitVec 9) (cycles : Nat) (s : State) : Host.Outcome State Fault Refusal :=
  .next (match (s.exec e.toNat).node with
    | none => s
    | some n =>
      match s.node n with
      | some x =>
        if x.st = .completed (some e.toNat) ∧ s.gdx.relbuf < 8192 then
          let s := (s.count F.RELBUF_STALL_COUNT cycles).gdxCycle
          let s := s.setExec e.toNat { s.exec e.toNat with node := none }
          let s := s.setNode n { x with st := .completed none }
          (s.setGdx { s.gdx with relbuf := s.gdx.relbuf + 1 }).gdxSettle
        else s
      | none => s)

/-- RING_SINK_SPACE (R136): space appears in a ring after the cycles that releases were held. -/
def execRingSinkSpace (ring : BitVec 9) (cycles : Nat) (s : State) : Host.Outcome State Fault Refusal :=
  .next (
    let l := (s.gdx.nodes.filter (fun p => p.2.st = .sinkHold ring.toNat)).map (·.1)
    if l ≠ [] ∧ (s.ringHasRoom ring.toNat ∨ s.ringDetached ring.toNat ∨ (s.ring ring.toNat).isNone) then
      let s := (s.count F.SINK_FULL_COUNT cycles).gdxCycle
      (l.foldl (fun s n => s.upNode n (fun x => { x with st := .turn })) s).gdxSettle
    else s)

/-- TELEMETRY_COPY (R155). -/
def execTelemetryCopy (s : State) : Host.Outcome State Fault Refusal := .next s.telemCopy

/-- GDX_SNAP_HOLD (R154). -/
def execGdxSnapHold (hold : Bool) (s : State) : Host.Outcome State Fault Refusal := .next (s.snapHold hold)

/-- RESERVE_WRITE (R150, Table 4-19). -/
def execReserveWrite (cls : Fin 10) (value : Word) (s : State) : Host.Outcome State Fault Refusal :=
  .next (s.setReserve cls (natBits value.toNat 0 8))

end Sys2Proof.Machine
end

