-- ==== Sys2Proof/Machine/Aft.lean ====
section
/-!
DEFINITION. Sys2Proof/Machine/Aft.lean: the Air Frame Timer: timelines and their checks (R80 to R82), TDD patterns (R83), slot
boundaries (R84), and the types of slots and symbols.
-/
namespace Sys2Proof.Machine

/-! ### Tables in system SRAM -/

/-- The words of a timeline's table entry (Table 3-2). -/
def State.tlWords (s : State) (t : Nat) : List Nat := s.words (sramBase + s.get F.AFT_TL_TABLE_BASE_BASE + 32 * t) 5

/-- The fields of an entry (Table 3-2). -/
def tlEntry (w : List Nat) : TlEntry where
  std := natBits (w.getD 0 0) 0 2
  mu := natBits (w.getD 0 0) 2 2
  ecp := (w.getD 0 0).testBit 4
  nb3k75 := (w.getD 0 0).testBit 5
  tddEn := (w.getD 0 0).testBit 6
  tag := natBits (w.getD 0 0) 16 16
  offset := signed 32 (w.getD 1 0)
  tddPtr := natBits (w.getD 2 0) 0 16
  patLen := natBits (w.getD 2 0) 16 8
  streamBase := natBits (w.getD 3 0) 0 12
  streamCount := natBits (w.getD 3 0) 16 10
  corrPtr := natBits (w.getD 4 0) 0 26

/-- Word i of the TDD table (R83). -/
def State.tddTable (s : State) (i : Nat) : Nat := s.word (sramBase + s.get F.AFT_TDD_TABLE_BASE_BASE + 4 * (i % 65536))

/-- The code of symbol i in a pattern word: 0 D, 1 U, 2 F, 3 reserved. -/
def symCode (w i : Nat) : Nat := natBits w (2 * i) 2

/-- Is a pattern length refused: 0, above 160, or not a divisor of 20 ms (cause 3)? -/
def Numerology.lenBad (n : Numerology) (len : Nat) : Bool := len = 0 || decide (160 < len) || decide (2 * n.slots % len ≠ 0)

/-- Does a pattern word hold the reserved code for a symbol of the slot (cause 4)? -/
def State.codeBad (s : State) (n : Numerology) (ptr len : Nat) : Bool :=
  (List.range len).any (fun k => (List.range n.symbols).any (fun i => symCode (s.tddTable (ptr + k)) i = 3))

/-- ±10 ms in units of 62.5 ps. -/
def maxOffset : Int := 160000000

/-- The cause for which the enable of timeline t with entry e is refused, 0 for none (R81, Table 3-9). -/
def State.enableCause (s : State) (t : Nat) (e : TlEntry) : Nat :=
  if s.tlOn t then 7
  else match numerology e.std e.mu e.ecp e.nb3k75 with
    | none => 1
    | some n =>
      if e.offset < -maxOffset ∨ maxOffset < e.offset then 2
      else if e.tddEn ∧ n.lenBad e.patLen then 3
      else if e.tddEn ∧ s.codeBad n e.tddPtr e.patLen then 4
      else if 512 < e.streamCount ∨ 4096 < e.streamBase + e.streamCount then 5
      else if ¬ s.flag F.TBU_D_STATUS_TIME_VALID 0 (domIdx s.active) then 6
      else 0

/-! ### Slot types (R80, R83) -/

/-- TDD_PTR and PATTERN_LEN of a timeline for a slot: a pending update holds from its boundary on. -/
def Timeline.pattern (t : Timeline) (slot : Int) : Nat × Nat :=
  match t.pend with
  | some (b, p, l) => if b ≤ slot then (p, l) else (t.ent.tddPtr, t.ent.patLen)
  | none => (t.ent.tddPtr, t.ent.patLen)

/-- The pattern word of a slot: as latched when the slot began, else as it stands in the table. -/
def State.slotWordOf (s : State) (t : Timeline) (slot : Int) : Nat :=
  let (p, l) := t.pattern slot
  let now := s.tddTable (p + (slot % (max 1 l : Nat)).toNat)
  match t.slot with
  | some x => if x.slot = slot then x.word else now
  | none => now

/-- The type of a symbol of a slot with TDD_EN = 1: 0 D, 1 U, 2 F; the reserved code counts as F. -/
def State.symType (s : State) (t : Timeline) (slot : Int) (i : Nat) : Nat := min 2 (symCode (s.slotWordOf t slot) i)

/-- The type of a slot with TDD_EN = 1: 0 D, 1 U, 2 S. -/
def State.slotType (s : State) (t : Timeline) (slot : Int) : Nat :=
  let l := (List.range t.ent.num.symbols).map (s.symType t slot)
  if l.all (· = 0) then 0 else if l.all (· = 1) then 1 else 2

/-- Does a coordinate slot match a FILTER (R85, R87)? -/
def State.slotMatches (s : State) (t : Timeline) (filter : Nat) (slot : Int) : Bool :=
  filter = 0 || (if t.ent.tddEn then filter.testBit (s.slotType t slot) else filter.testBit 0 || filter.testBit 1)

/-! ### Commands -/

/-- Store the AFT and WHS. -/
def State.setAft (s : State) (a : Aft) : State := { s with aft := a }

/-- Store a timeline. -/
def State.setTl (s : State) (t : Nat) (x : Timeline) : State := s.setAft { s.aft with tls := Tab.set s.aft.tls t x }

/-- Refuse a timeline command (R81). -/
def State.tlRefuse (s : State) (cause : Nat) : State := s.putAll 0 0 [(F.AFT_STATUS_CMD_REFUSED, 1), (F.AFT_STATUS_CAUSE, cause)]

/-- Keep TDD_PENDING: some accepted update waits (R83). -/
def State.tddShow (s : State) : State := s.setTo F.AFT_STATUS_TDD_PENDING (s.aft.tls.any (fun x => x.2.pend.isSome))

/-- Keep the bit of a timeline in AFT_TL_EN. -/
def State.tlEnShow (s : State) (t : Nat) (on : Bool) : State :=
  let w := s.get F.AFT_TL_EN_EN 0 (t / 32)
  s.put F.AFT_TL_EN_EN (if on then w ||| 2 ^ (t % 32) else w - (if w.testBit (t % 32) then 2 ^ (t % 32) else 0)) 0 (t / 32)

/-- Read the TDD word and the stream delays of a slot (R83, R84). -/
def State.latchSlot (s : State) (t : Nat) (x : Timeline) (slot : Int) : State :=
  let (p, l) := x.pattern slot
  let delays := (List.range x.ent.streamCount).map (fun k =>
    signed 24 (s.word (sramBase + s.get F.AFT_STREAM_TABLE_BASE_BASE + 4 * (x.ent.streamBase + k))))
  s.setTl t { x with slot := some ⟨slot, s.tddTable (p + (slot % (max 1 l : Nat)).toNat), delays⟩ }

/-- Enable a timeline (R80, R81, R100); the dispatcher's notes of slots created on it start anew (R118). -/
def State.tlEnable (s : State) (t : Nat) : State :=
  let e := tlEntry (s.tlWords t)
  let c := s.enableCause t e
  if c ≠ 0 then s.tlRefuse c
  else
    let x : Timeline := ⟨e, none, 0, none⟩
    let s := (s.setTl t x).tlEnShow t true
    let s := s.setGdx { s.gdx with newest := s.gdx.newest.filter (fun y => y.1.2 ≠ t), made := s.gdx.made.filter (fun y => y.2.1 ≠ t) }
    s.latchSlot t x (s.coordNow x).slot

/-- The first slot of the next even-numbered frame (R83). -/
def Timeline.nextEven (x : Timeline) (slot : Int) : Int := (slot / (2 * x.ent.num.slots) + 1) * (2 * x.ent.num.slots)

/-- A TDD update (R83). -/
def State.tddUpdate (s : State) (t ptr len : Nat) : State :=
  match s.tl t with
  | none => s.tlRefuse 7
  | some x =>
    let n := x.ent.num
    if n.lenBad len then s.tlRefuse 3
    else if s.codeBad n ptr len then s.tlRefuse 4
    else (s.setTl t { x with pend := some (x.nextEven (s.coordNow x).slot, ptr, len) }).tddShow

/-- The boundary of an even-numbered frame: a pending pattern replaces the present one. -/
def State.tddApply (s : State) (t : Nat) : State :=
  match s.tl t with
  | none => s
  | some x =>
    match x.pend with
    | none => s
    | some (b, p, l) =>
      if b ≤ (s.coordNow x).slot then
        (s.setTl t { x with ent := { x.ent with tddPtr := p, patLen := l }, pend := none }).tddShow
      else s

/-- A slot boundary of a timeline (R84). -/
def State.slotBoundary (s : State) (t : Nat) : State :=
  match s.tl t with
  | none => s
  | some x =>
    let slot := (s.coordNow x).slot
    if x.slot.map (·.slot) = some slot then s else s.latchSlot t x slot

/-- TIMELINE_ENABLE (R81): AFT_TL_CMD with OP 0. -/
def execTimelineEnable (tl : BitVec 8) (s : State) : Host.Outcome State Fault Refusal :=
  .next ((s.putAll 0 0 [(F.AFT_TL_CMD_TL, tl.toNat), (F.AFT_TL_CMD_OP, 0)]).tlEnable tl.toNat)

/-- TDD_UPDATE (R83): AFT_TL_CMD with OP 2 takes TDD_PTR and PATTERN_LEN from AFT_TL_CMD_ARG. -/
def execTddUpdate (tl : BitVec 8) (s : State) : Host.Outcome State Fault Refusal :=
  .next ((s.putAll 0 0 [(F.AFT_TL_CMD_TL, tl.toNat), (F.AFT_TL_CMD_OP, 2)]).tddUpdate tl.toNat
    (s.get F.AFT_TL_CMD_ARG_TDD_PTR) (s.get F.AFT_TL_CMD_ARG_PATTERN_LEN))

/-- TDD_UPDATE_APPLY (R83). -/
def execTddUpdateApply (tl : BitVec 8) (s : State) : Host.Outcome State Fault Refusal := .next (s.tddApply tl.toNat)

/-- AFT_SLOT_BOUNDARY (R84). -/
def execAftSlotBoundary (tl : BitVec 8) (s : State) : Host.Outcome State Fault Refusal := .next (s.slotBoundary tl.toNat)

end Sys2Proof.Machine
end

