-- ==== Sys2Proof/Machine/Cpl.lean ====
section
/-!
DEFINITION. Sys2Proof/Machine/Cpl.lean: coupler training (R374 to R379), gaps and delay measurement (R382 to R385), messages (R389 to
R399) and the meanings of their rows (13_coupler_links.md).  Lane faults, which shed carriers, are in Faults.lean.
-/
namespace Sys2Proof.Machine

/-! ### Ports -/

/-- A port beside its registers. -/
def State.cplPort (s : State) (p : Nat) : CplPort := Tab.get CplPort.reset s.cpl p

/-- Store a port. -/
def State.setCpl (s : State) (p : Nat) (c : CplPort) : State := { s with cpl := Tab.set s.cpl p c }

/-- Change a port. -/
def State.upCpl (s : State) (p : Nat) (f : CplPort → CplPort) : State := s.setCpl p (f (s.cplPort p))

/-- Send a block or message. -/
def State.cplSend (s : State) (p : Nat) (b : CplBlock) : State := s.send (.coupler p b)

/-- Is a port UP? -/
def State.cplUp (s : State) (p : Nat) : Bool := s.get F.CPL_PORT_STATUS_STATE p = 2

/-- The agreed minor version (R379). -/
def State.cplMinor (s : State) (p : Nat) : Nat := s.get F.CPL_PORT_PARTNER_AGREED_MINOR p

/-- Is the transmit direction ON and not about to change (Table 15-1, R386)? -/
def State.cplTxOn (s : State) (p : Nat) : Bool := s.domState (96 + p) = 0 && !s.domMoving (96 + p)

/-- Is the receive direction ON? -/
def State.cplRxOn (s : State) (p : Nat) : Bool := s.domState (112 + p) = 0

/-- Does XOFF_IN[p] withhold samples and tokens (R332)? -/
def State.cplXoff (s : State) (p : Nat) : Bool :=
  (s.get F.SQ_XOFF_IN_STATE_STATE).testBit p && !(s.get F.SQ_XOFF_IN_POLICY_POLICY).testBit p

/-- Is a gap under way at this side (R383)? -/
def State.cplGap (s : State) (p : Nat) : Bool := (s.cplPort p).gap != .none

/-- Enter a state; a new state raises a LINK event (Table 14-11). -/
def State.cplState (s : State) (p st : Nat) : State :=
  if s.get F.CPL_PORT_STATUS_STATE p = st then s
  else (s.put F.CPL_PORT_STATUS_STATE st p).event (.link true p st)

/-! ### Training (R374 to R380) -/

/-- Does an attempt run, in a phase of 1 to 5?  PHASE is 0 between attempts. -/
def State.cplTraining (s : State) (p : Nat) : Bool :=
  (s.get F.CPL_PORT_STATUS_STATE p = 1 || s.get F.CPL_PORT_STATUS_STATE p = 3) && s.get F.CPL_PORT_STATUS_PHASE p ≠ 0

/-- Is a port in training phase n? -/
def State.cplIn (s : State) (p n : Nat) : Bool := s.cplTraining p && s.get F.CPL_PORT_STATUS_PHASE p = n

/-- Start an attempt from phase 1, with both directions on. -/
def State.cplTrain (s : State) (p : Nat) : State :=
  let s := (s.put F.CPL_PORT_STATUS_PHASE 1 p).put F.CPL_PORT_STATUS_LANES 0 p
  let s := if s.domState (96 + p) = 0 then s else s.pwrSettle (96 + p) 0
  let s := if s.domState (112 + p) = 0 then s else s.pwrSettle (112 + p) 0
  s.upCpl p (fun c => { c with capLast := none, capOk := false, capAck := false, slipAt := [], driftGaps := [], convExit := none })

/-- An attempt fails (R374): NOPARTNER after the fourth in a row. -/
def State.cplFail (s : State) (p : Nat) : State :=
  let s := (s.count F.CPL_PORT_STATUS_ATTEMPTS 1 p).put F.CPL_PORT_STATUS_PHASE 0 p
  if 4 ≤ s.get F.CPL_PORT_STATUS_ATTEMPTS p then s.cplState p 3 else s

/-- A clock on the wrong lane, or no clock on CK (R376). -/
def State.cplMiswire (s : State) (p lane : Nat) : State :=
  (((s.put F.CPL_PORT_STATUS_PHASE 0 p).put F.CPL_PORT_LANE_MAP_MISWIRE_LANE lane p).set F.CPL_PORT_EVENTS_CLK_MISWIRE p).cplState p 4

/-- The partner lane that a lane identified. -/
def laneSeen : LaneSeen → Option Nat
  | .partner l _ => some l.val
  | _ => none

/-- Is the lane inverted? -/
def laneInv : LaneSeen → Bool
  | .partner _ i => i
  | _ => false

/-- Phase 2 ends with what the four data lanes identified, and the boundaries at which MATCH stands before any slip (R375 to R377). -/
def State.cplLanes (s : State) (p : Nat) (ls : List LaneSeen) (aligned : Nat) : State :=
  match ls.findIdx? (· = .clock) with
  | some l => s.cplMiswire p l
  | none =>
    let ids := ls.filterMap laneSeen
    if ids.length = 4 ∧ ids.eraseDups.length = 4 then
      let map := ids.zipIdx.foldl (fun m x => m + x.1 * 4 ^ x.2) 0
      let inv := ls.zipIdx.foldl (fun m x => m + (if laneInv x.1 then 2 ^ x.2 else 0)) 0
      let s := s.putAll p 0 [(F.CPL_PORT_LANE_MAP_MAP, map), (F.CPL_PORT_LANE_MAP_INV, inv), (F.CPL_PORT_STATUS_PHASE, 3)]
      (List.range 4).foldl (fun s l => s.putAll p l [(F.CPL_LANE_STATUS_SIGNAL, 1), (F.CPL_LANE_STATUS_SLIPS, 0),
        (F.CPL_LANE_STATUS_FAULTY, 0), (F.CPL_LANE_STATUS_MATCH, if aligned.testBit l then 1 else 0)]) s
    else s.cplFail p

/-- Is a lane's slip still settling: 20 block times after the write (R377, Table 13-1)? -/
def State.slipBusy (s : State) (p l : Nat) : Bool :=
  match Tab.find (s.cplPort p).slipAt l with
  | some t => decide ((s.tbu.ticks - t) * 160 < 4125 * 2 ^ s.get F.CPL_PORT_CTRL_RATE p)
  | none => false

/-- A write of SLIP (R377): aligned says whether the lane's TRAIN words sit at the new boundary. -/
def State.cplSlip (s : State) (p l : Nat) (aligned : Bool) : State :=
  if ¬ s.cplIn p 3 ∨ 4 ≤ l then s
  else if s.slipBusy p l then s.set F.CPL_LANE_STATUS_SLIP_IGNORED p l
  else
    let s := s.upCpl p (fun c => { c with slipAt := Tab.set c.slipAt l s.tbu.ticks })
    let s := (s.count F.CPL_LANE_STATUS_SLIPS 1 p l).setTo F.CPL_LANE_STATUS_MATCH aligned p l
    if 65 ≤ s.get F.CPL_LANE_STATUS_SLIPS p l ∧ ¬ aligned then s.cplFail p else s

/-- The CAP set with its ACK taken as 0 (R378). -/
def capNoAck (c : CapSet) : CapSet := { c with ack := false }

/-- A CAP set arrives in phase 5: two identical valid sets in a row are accepted (R378). -/
def State.cplCap (s : State) (p : Nat) (set : CapSet) (ok : Bool) : State :=
  let c := s.cplPort p
  if ¬ ok then s.setCpl p { c with capLast := none }
  else
    let same := c.capLast.map capNoAck = some (capNoAck set)
    let s := s.setCpl p { c with capLast := some set, capOk := c.capOk || same, capAck := c.capAck || set.ack }
    if same then
      s.putAll p 0 [(F.CPL_PORT_PARTNER_MAJOR, set.major), (F.CPL_PORT_PARTNER_MINOR, set.minor), (F.CPL_PORT_PARTNER_ROLE, set.role),
        (F.CPL_PORT_PARTNER_CAR, set.car), (F.CPL_PORT_PARTNER_CAR_VALID, if set.carValid then 1 else 0),
        (F.CPL_PORT_PFEAT_FEATURES, set.features)]
    else s

/-- The credits of the port's credit-mode queues go to the partner after UP (R326, R391). -/
def State.cplGrant (s : State) (p : Nat) : State :=
  (s.sq.queues.filter (fun x => x.2.ent.credit && x.2.ent.producer = 2 && x.2.ent.port = p && s.queueOn x.1)).foldl
    (fun s x => (s.setQueue x.1 { x.2 with unreported := 0 }).send (.credits p x.1 (s.get F.SQ_Q_CREDITS_CREDITS 0 x.1))) s

/-- Phase 5 ends (R378 to R380): UP with the lower minor, or REFUSED for another major version or an equal car. -/
def State.cplAgree (s : State) (p : Nat) : State :=
  if s.get F.CPL_PORT_PARTNER_MAJOR p ≠ 3 ∨
     (s.flag F.CPL_PORT_PARTNER_CAR_VALID p ∧ s.get F.CPL_PORT_PARTNER_CAR p = s.get F.CPL_CONSIST_CAR) then
    (s.put F.CPL_PORT_STATUS_PHASE 0 p).cplState p 5
  else
    let s := s.putAll p 0 [(F.CPL_PORT_PARTNER_AGREED_MINOR, min 2 (s.get F.CPL_PORT_PARTNER_MINOR p)), (F.CPL_PORT_STATUS_PHASE, 6),
      (F.CPL_PORT_STATUS_ATTEMPTS, 0), (F.CPL_PORT_STATUS_LANES, 0xF)]
    let s := s.upCpl p (fun c => { c with txSeq := 0, unacked := [], rxNext := 0, rxPending := 0, nakOut := false, credits := [] })
    (s.cplState p 2).cplGrant p

/-! ### A link that goes down (R388, R399) -/

/-- Unacknowledged tokens are counted as lost and their buffers are freed (R399). -/
def State.cplDropTokens (s : State) (p : Nat) : State :=
  let l := (s.cplPort p).unacked
  let s := l.foldl (fun s t => s.tokenFree t.token) (s.count F.CPL_TOKEN_LOST_TOKEN_LOST l.length p)
  s.upCpl p (fun c => { c with unacked := [] })

/-- A gap ends at this side; a power request that waited for it starts (R386). -/
def State.cplGapOver (s : State) (p : Nat) : State :=
  let s := (s.upCpl p (fun c => { c with gap := .none, gapOwn := false, probes := [], rtts := [] })).clr F.CPL_PORT_STATUS_GAP_OPEN p
  (s.pwrResume (96 + p)).pwrResume (112 + p)

/-- Everything a port holds for a running link ends. -/
def State.cplStop (s : State) (p : Nat) : State :=
  let s := (s.cplDropTokens p).upCpl p (fun c => { c with convExit := none, delayDue := false })
  let s := s.putAll p 0 [(F.CPL_PORT_STATUS_PHASE, 0), (F.CPL_PORT_STATUS_LANES, 0)]
  if s.cplGap p then s.cplGapOver p else s

/-- An UP port goes down and retrains after 50 ms (R388). -/
def State.cplDown (s : State) (p : Nat) : State :=
  if s.cplUp p then
    (((s.cplState p 1).cplStop p).count F.CPL_LINK_DOWN_LINK_DOWN 1 p).set F.CPL_PORT_EVENTS_LINK_DOWN_SEEN p
  else s

/-- EN is written 0: the port is DISABLED (R374, R376). -/
def State.cplDisable (s : State) (p : Nat) : State := (((s.clr F.CPL_PORT_CTRL_EN p).cplState p 0).cplStop p).put F.CPL_PORT_STATUS_ATTEMPTS 0 p

/-- EN is written 1 (R374). -/
def State.cplEnable (s : State) (p : Nat) : State :=
  if s.flag F.CPL_PORT_CTRL_EN p then s
  else (((s.set F.CPL_PORT_CTRL_EN p).put F.CPL_PORT_STATUS_ATTEMPTS 0 p).cplState p 1).cplTrain p

/-! ### Gaps and delays (R383, R384) -/

/-- Half of an integer, or the mean of a sum over n: the rule gives no rounding, so an inexact quotient is rounded down or up by a
free choice (log entry 12). -/
def State.freeDiv (s : State) (a : Int) (n : Nat) : Int × State :=
  if a % n = 0 then (a / n, s)
  else let (b, s) := s.freshBool; (if b then a / n + 1 else a / n, s)

/-- Send PROBE blocks (R383, step 4). -/
def State.cplProbes (s : State) (p : Nat) : State :=
  let n := s.get F.CPL_PORT_CTRL_PROBES p
  let s := s.upCpl p (fun c => { c with gap := .open, probes := List.range n, rtts := [] })
  (List.range n).foldl (fun s k => s.cplSend p (.probe k)) s

/-- Send the DELAY message that is due (R384), unless the transmitter is quiet (R386). -/
def State.cplDelay (s : State) (p : Nat) : State :=
  if (s.cplPort p).delayDue ∧ s.cplTxOn p ∧ s.cplUp p then
    (s.upCpl p (fun c => { c with delayDue := false })).cplSend p (.delay (signed 32 (s.get F.CPL_DELAY_OWD_TX_OWD_PS p)))
  else s

/-- Compute the delays from the measured pairs at END (R384). -/
def State.cplMeasure (s : State) (p : Nat) : State :=
  let l := (s.cplPort p).rtts
  if l = [] then s
  else
    let (rtt, s) := s.freeDiv (5 * l.foldl (· + ·) 0) l.length
    let asym := signed 32 (s.get F.CPL_DELAY_ASYM_ASYM_PS p)
    let (tx, s) := s.freeDiv (rtt + asym) 2
    let (rx, s) := s.freeDiv (rtt - asym) 2
    let s := s.putAll p 0 [(F.CPL_DELAY_RTT_RTT_PS, unsigned 32 rtt), (F.CPL_DELAY_OWD_TX_OWD_PS, unsigned 32 tx),
      (F.CPL_DELAY_OWD_RX_OWD_PS, unsigned 32 rx)]
    s.upCpl p (fun c => { c with delayDue := true })

/-- END is sent or received: traffic resumes, and the port computes the delays. -/
def State.cplEndGap (s : State) (p : Nat) : State := ((s.cplMeasure p).cplGapOver p).cplDelay p

/-- A GAP_OPEN whistle names a port (R383). -/
def State.gapOpen (s : State) (p : Nat) : State :=
  if s.cplUp p ∧ 1 ≤ s.cplMinor p then
    if s.cplGap p then s
    else ((s.upCpl p (fun c => { c with gap := .begun, gapOwn := true })).set F.CPL_PORT_STATUS_GAP_OPEN p).cplSend p .gapBegin
  else s.count F.CPL_GAP_IGNORED_GAP_IGNORED 1 p

/-- A GAP_CLOSE whistle names a port. -/
def State.gapClose (s : State) (p : Nat) : State :=
  if s.cplGap p then (s.cplSend p .gapEnd).cplEndGap p else s

/-- A gap has lasted CPL_GAP_MAX_NS since this side's BEGIN. -/
def State.gapTimeout (s : State) (p : Nat) : State :=
  if s.cplGap p ∧ (s.cplPort p).gapOwn then ((s.cplSend p .gapEnd).set F.CPL_PORT_EVENTS_GAP_TIMEOUT p).cplEndGap p else s

/-- A BEGIN arrives: answered with ACK, or taken as the ACK of this side's own (R383). -/
def State.gapBegin (s : State) (p : Nat) : State :=
  match (s.cplPort p).gap with
  | .none => ((s.set F.CPL_PORT_STATUS_GAP_OPEN p).cplSend p .gapAck).cplProbes p
  | .begun => s.cplProbes p
  | .open => s

/-! ### Converter words (R393, R394) -/

/-- Has a port that left QUIET at tick t completed its exit: 150, 290 or 560 ns by rate (Table 13-8)? -/
def State.convReady (s : State) (p t : Nat) : Bool :=
  decide ([150, 290, 560, 560].getD (s.get F.CPL_PORT_CTRL_RATE p) 560 * 5 ≤ (s.tbu.ticks - t) * 8)

/-- Place a CONV block on time: DLY_UI is the distance to the next block boundary, which the model does not hold (log entry 3). -/
def State.convPut (s : State) (p conv : Nat) (ctrl : Bool) (word : Nat) : State :=
  let (d, s) := s.freshNat
  (s.count F.CPL_CONV_SENT_CONV_SENT 1 p).cplSend p (.conv conv ctrl (d % 66) word)

/-- A CONV_START or CONV_CTRL whistle fires for a port (R393); from QUIET the port must have left it in time, and it returns to QUIET
after the block (R394).  A port with its transmit direction OFF, or not UP, sends nothing. -/
def State.convFire (s : State) (p conv : Nat) (ctrl : Bool) (word : Nat) : State :=
  if ¬ s.cplUp p ∨ s.domState (96 + p) = 5 then s
  else if s.domState (96 + p) = 3 then
    let ontime := match (s.cplPort p).convExit with
      | some t => s.convReady p t
      | none => false
    let s := if ontime then s.convPut p conv ctrl word
      else ((s.count F.CPL_CONV_SENT_CONV_SENT 1 p).cplSend p (.conv conv ctrl 0 word)).report ⟨9, 0x42, 1, p, conv, 0⟩
    (s.upCpl p (fun c => { c with convExit := none })).cplSend p .quietEnter
  else (s.upCpl p (fun c => { c with convExit := none })).convPut p conv ctrl word

/-! ### Sample streams (R389 to R392) -/

/-- Address of stream table entry k. -/
def State.streamAddr (s : State) (k : Nat) : Nat := sramBase + s.get F.CPL_STREAM_TABLE_BASE_BASE + 16 * k

/-- The three words of the stream of a port, direction and SID (Table 13-9). -/
def State.stream (s : State) (p dir sid : Nat) : Option (Nat × Nat × Nat) :=
  ((List.range 1024).find? (fun k =>
    let w := s.word (s.streamAddr k)
    w.testBit 0 && natBits w 1 1 = dir && natBits w 3 4 = p && natBits w 8 8 = sid)).map
      (fun k => (s.word (s.streamAddr k), s.word (s.streamAddr k + 4), s.word (s.streamAddr k + 8)))

/-- A SAMPLE message arrives (R390, R392). -/
def State.sampleIn (s : State) (p sid slot sym : Nat) (bs : List Byte) (ok : Bool) : State :=
  let s := if ok then s else s.count F.CPL_CRC_ERR_SAMPLE_CRC_ERR_SAMPLE 1 p
  match s.stream p 0 sid with
  | none => s.count F.CPL_SID_NOMATCH_SID_NOMATCH 1 p
  | some (w0, w1, _) =>
    if w0.testBit 2 then
      if 16384 < (s.cplPort p).rawRx + bs.length then s.count F.CPL_SID_NOMATCH_SID_NOMATCH 1 p
      else s.upCpl p (fun c => { c with rawRx := c.rawRx + bs.length })
    else
      let extra : List Byte := List.replicate 36 0 ++ natLe 1 (if ok then 0 else 1)
      s.queueOffer (natBits w0 16 10) ⟨sym, natBits w1 8 9, slot, bs.length, false, 0, 0, 0, extra, bs, none⟩

/-- The delay of a stream of a timeline, in units of 62.5 ps, as read at the last slot boundary (R84). -/
def Timeline.delay (t : Timeline) (stream : Nat) : Int :=
  match t.slot with
  | some l => l.delays.getD stream 0
  | none => 0

/-- Lead of now over S, the start of a symbol plus the stream's delay to whole samples, in exact units times the sample rate (R84,
R390). -/
def State.sampleLead (s : State) (t : Timeline) (slotWord sym stream ksps : Nat) : Int :=
  let n := t.ent.num
  let slot := n.slotOfWord slotWord (s.coordNow t).slot
  let start := qUnair t.ent (slot * n.qSlot + n.qSymStart slot sym)
  let whole := Int.tdiv (t.delay stream * ksps) 16000000
  (s.qActive - start) * ksps - whole * (1000000 * qNs)

/-- Where the window of a buffer stands (R390): not yet open, open, or closed. -/
inductive Window where
  | early | due | late
  deriving DecidableEq, Repr

/-- The head buffer of a transmit queue as SAMPLE: port, SID, slot, symbol, samples, and its window (R390). -/
structure SampleHead where
  port : Nat
  place : Nat
  sid : Nat
  slot : Nat
  symbol : Nat
  samples : List Byte
  linkQueue : Nat
  window : Window
  deriving DecidableEq, Repr

/-- What a queue that a coupler consumes has at its head; a buffer of no stream has no window. -/
def State.sampleHead (s : State) (q : Nat) : Option SampleHead :=
  match s.queue q, s.queueHead q with
  | some x, some i =>
    if x.ent.consumer ≠ 2 then none
    else
      let p := x.ent.port
      let w1 := s.word (i.addr + 4)
      let sid := natBits w1 8 8
      let slot := s.word i.addr
      let st := s.stream p 1 sid
      let win := match st with
        | none => Window.late
        | some (_, v1, v2) =>
          match s.tl (natBits v1 0 8) with
          | none => Window.late
          | some t =>
            let ksps := natBits v2 0 24
            let lead := s.sampleLead t slot (natBits w1 0 4) (natBits v1 8 9) ksps
            if lead + s.get F.CPL_TX_ADV_MAX_TX_ADV_MAX_NS p * qNs * ksps < 0 then .early
            else if 0 < lead + s.get F.CPL_TX_ADV_MIN_TX_ADV_MIN_NS p * qNs * ksps then .late
            else .due
      some ⟨p, i.place, sid, slot, natBits w1 0 4, s.bytes (i.addr + 8) (i.length - 8), (match st with
        | some (_, _, v2) => natBits v2 24 8
        | none => 0), win⟩
  | _, _ => none

/-- May samples be sent on a port now (R373, R380, R386)? -/
def State.sampleMay (s : State) (p : Nat) : Bool := s.cplUp p && s.cplTxOn p && !s.cplGap p && !s.cplXoff p

/-- Does a coupler consume a queue? -/
def State.cplConsumes (s : State) (q : Nat) : Bool :=
  match s.queue q with
  | some x => x.ent.consumer = 2
  | none => false

/-- Send the head buffer of a queue within its window; toward a credit-mode partner, with minor 0, it takes a credit (R391). -/
def State.sampleOut (s : State) (q : Nat) : State :=
  let s := if s.cplConsumes q then s.gapSkip q (s.queueCount q) else s
  match s.sampleHead q with
  | none => s
  | some h =>
    let have_ := Tab.get 0 (s.cplPort h.port).credits h.linkQueue
    let credit := s.cplMinor h.port = 0 || (Tab.find (s.cplPort h.port).credits h.linkQueue).isSome
    if s.sampleMay h.port ∧ h.window = .due ∧ (credit = true → 0 < have_) then
      let s := if credit then s.upCpl h.port (fun c => { c with credits := Tab.set c.credits h.linkQueue (have_ - 1) }) else s
      ((s.queueHold q h.place).cplSend h.port (.sample h.sid h.slot h.symbol h.samples)).queueFree q h.place
    else s

/-- Discard the head buffer of a queue whose window has closed (R390). -/
def State.sampleLate (s : State) (q : Nat) : State :=
  match s.sampleHead q with
  | none => s
  | some h =>
    if h.window = .late then
      ((s.queueHold q h.place).count F.CPL_TX_LATE_TX_LATE 1 h.port).queueFree q h.place
    else s

/-- Send n bytes of the raw transmit FIFO on a stream (R392). -/
def State.rawOut (s : State) (p sid n : Nat) : State :=
  match s.stream p 1 sid with
  | some (w0, _, _) =>
    if w0.testBit 2 ∧ s.sampleMay p ∧ n ≤ (s.cplPort p).rawTx then
      (s.upCpl p (fun c => { c with rawTx := c.rawTx - n })).cplSend p (.rawSample sid n)
    else s
  | none => s

/-! ### Tokens between cars (R397 to R399) -/

/-- The port that CPL_ROUTE gives for a car. -/
def State.routePort (s : State) (car : Nat) : Nat := s.get F.CPL_ROUTE_PORT / 16 ^ car % 16

/-- Is the route of a car enabled and its port able to carry tokens (R380, R398)? -/
def State.routeUp (s : State) (car : Nat) : Bool :=
  (s.get F.CPL_ROUTE_EN_EN).testBit car && s.cplUp (s.routePort car) && decide (1 ≤ s.cplMinor (s.routePort car))

/-- The message of a remote token. -/
def RemoteToken.msg (r : RemoteToken) : TokenMsg where
  car := r.car
  template := r.template
  node := r.node
  port := r.port
  kind := if r.retire then 2 else if r.token.empty then 1 else 0
  tag := r.tag
  hops := r.hops
  slotWord := r.slotWord
  flowTag := r.token.flowTag
  user := r.token.user
  length := r.token.length
  payload := r.payload

/-- A token is discarded on its way out (R398).  On its sending car it counts as ended without output: the remote output receives an
empty token, or a retire token with CANCEL_PROPAGATE = 1 (R142). -/
def State.tokenLost (s : State) (n : Option Nat) (r : RemoteToken) : State :=
  let s := (s.count F.CPL_TOKEN_LOST_TOKEN_LOST 1 (s.routePort r.car)).tokenFree r.token
  match n with
  | none => s
  | some n =>
    match s.node n with
    | none => s
    | some x => s.setGdx { s.gdx with remoteOut := s.gdx.remoteOut ++ [(none, { r with
        retire := (s.recOf x).cancelProp, token := emptyToken, payload := [] })] }

/-- Send the k-th released remote token, the first for its port (R397, R399). -/
def State.tokenOut (s : State) (k : Nat) : State :=
  match s.gdx.remoteOut[k]? with
  | none => s
  | some (n, r) =>
    let drop := s.setGdx { s.gdx with remoteOut := s.gdx.remoteOut.eraseIdx k }
    if ¬ s.routeUp r.car then drop.tokenLost n r
    else
      let p := s.routePort r.car
      let c := s.cplPort p
      if (s.gdx.remoteOut.take k).any (fun x => s.routePort x.2.car = p) ∨ ¬ s.cplTxOn p ∨ s.cplGap p ∨ s.cplXoff p ∨
         (s.cplMinor p = 2 ∧ 256 ≤ c.unacked.length) then s
      else if s.cplMinor p = 2 then
        (drop.setCpl p { c with txSeq := (c.txSeq + 1) % 2 ^ 16, unacked := c.unacked ++ [⟨c.txSeq, r.msg, r.token, 0⟩] }).cplSend p
          (.token c.txSeq r.msg)
      else (drop.cplSend p (.token 0 r.msg)).tokenFree r.token

/-- Deliver a token on its destination car (R397, R398). -/
def State.tokenDeliver (s : State) (p : Nat) (m : TokenMsg) (late : Bool) : State :=
  let r (t : Token) : RemoteToken := ⟨m.car, m.template, m.node, m.port, m.tag, m.slotWord, m.hops, m.kind = 2, t, m.payload⟩
  if m.kind ≠ 0 then s.remoteToken (r emptyToken) late
  else
    let pool := s.get F.CPL_TOKEN_POOL_POOL
    if s.poolSize pool < m.length then s.count F.CPL_TOKEN_TOOBIG_TOKEN_TOOBIG 1 p
    else if s.poolFree pool = 0 then s.count F.CPL_TOKEN_NOBUF_TOKEN_NOBUF 1 p
    else
      let (b, s) := s.bufTake pool
      let t := { b with length := m.length, flowTag := m.flowTag, user := m.user }
      ((s.setRefs t 1).store t.addr (m.payload.take m.length)).remoteToken (r t) late

/-- Forward a token by this car's own route (R397, R398). -/
def State.tokenForward (s : State) (m : TokenMsg) : State :=
  if 7 < m.hops + 1 then s.count F.CPL_TOKEN_LOST_TOKEN_LOST 1 (s.routePort m.car)
  else
    let t : Token := ⟨0, 62, m.kind ≠ 0, m.length, m.flowTag, m.user, .none⟩
    s.setGdx { s.gdx with remoteOut := s.gdx.remoteOut ++ [(none,
      ⟨m.car, m.template, m.node, m.port, m.tag, m.slotWord, m.hops + 1, m.kind = 2, t, m.payload⟩)] }

/-- A token message accepted by the link goes on. -/
def State.tokenIn (s : State) (p : Nat) (m : TokenMsg) (late : Bool) : State :=
  if m.car = s.get F.CPL_CONSIST_CAR then s.tokenDeliver p m late else s.tokenForward m

/-- A TOKEN message arrives (R372, R399). -/
def State.tokenRecv (s : State) (p seq : Nat) (m : TokenMsg) (ok late : Bool) : State :=
  let c := s.cplPort p
  if s.cplMinor p = 2 then
    if ok ∧ seq = c.rxNext then
      (s.setCpl p { c with rxNext := (c.rxNext + 1) % 2 ^ 16, rxPending := c.rxPending + 1, nakOut := false }).tokenIn p m late
    else if c.nakOut ∧ seq ≠ c.rxNext then s
    else (s.setCpl p { c with nakOut := true }).cplSend p (.nak c.rxNext)
  else if ok then s.tokenIn p m late
  else s.count F.CPL_CRC_ERR_TOKEN_CRC_ERR_TOKEN 1 p

/-- Does number a lie at or before b, within the window (R399)? -/
def seqLe (a b : Nat) : Bool := decide ((b + 2 ^ 16 - a) % 2 ^ 16 < 2 ^ 15)

/-- An ACK frees every message up to its number. -/
def State.tokenAck (s : State) (p seq : Nat) : State :=
  let c := s.cplPort p
  let gone := c.unacked.filter (fun t => seqLe t.seq seq)
  let s := s.setCpl p { c with unacked := c.unacked.filter (fun t => !seqLe t.seq seq) }
  gone.foldl (fun s t => s.tokenFree t.token) s

/-- A NAK: resend from its number; the fourth for one number takes the port down (R399). -/
def State.tokenNak (s : State) (p seq : Nat) : State :=
  let c := s.cplPort p
  match c.unacked.find? (fun t => t.seq = seq) with
  | none => s
  | some t =>
    let s := s.setCpl p { c with unacked := c.unacked.map (fun u => if u.seq = seq then { u with naks := u.naks + 1 } else u) }
    if 4 ≤ t.naks + 1 then s.cplDown p
    else
      let again := c.unacked.filter (fun u => seqLe seq u.seq)
      again.foldl (fun s u => s.cplSend p (.token u.seq u.msg)) (s.count F.CPL_TOKEN_RESENT_TOKEN_RESENT again.length p)

/-! ### Time messages (R395, R396) -/

/-- The domain that follows the consist, on a car other than 0 (R395). -/
def State.consistDom (s : State) : Option Dom :=
  if s.get F.CPL_CONSIST_CAR = 0 then none
  else if s.get F.TBU_D_SOURCE_SRC 0 0 = 3 then some .A
  else if s.get F.TBU_D_SOURCE_SRC 0 1 = 3 then some .B
  else none

/-- TIME_PERIOD_US has passed on a port (R396); locked says whether the servo of the consist domain holds LOCKED. -/
def State.timeOut (s : State) (p : Nat) (locked : Bool) : State :=
  let car := s.get F.CPL_CONSIST_CAR
  if s.flag F.CPL_PORT_CTRL_TIME_TX p ∧ s.cplUp p ∧ 1 ≤ s.cplMinor p ∧ (car = 0 ∨ (locked ∧ s.consistDom.isSome)) ∧ s.cplTxOn p ∧ ¬ s.cplGap p then
    let hops := if car = 0 then 0 else s.get F.CPL_TIME_INFO_HOPS (s.get F.CPL_CONSIST_UP_PORT) + 1
    s.cplSend p (.time s.activeTime car (hops % 8) locked)
  else s

/-- A TIME message arrives on UP_PORT: the offset of the sender over the stamp of its START, which lies sub × 5 ps into the tick
(R396).  An offset that 32 bits cannot hold has no stated value. -/
def State.timeIn (s : State) (p : Nat) (t : Tai) (car hops : Nat) (locked : Bool) (sub : Nat) : State :=
  match s.consistDom with
  | none => s
  | some d =>
    let owd := signed 32 (s.get F.CPL_DELAY_OWD_RX_OWD_PS p)
    let units : Int := (t.units : Int) - (s.tbu.dom d).counter.units
    let (ps, s) := s.freeDiv (units * 1000) (2 ^ 32)
    let off := ps + owd - sub * 5
    let (v, s) := if -(2 ^ 31) ≤ off ∧ off < 2 ^ 31 then (unsigned 32 off, s) else s.freshNat
    s.putAll p 0 [(F.CPL_TIME_OFFSET_OFFSET_PS, v), (F.CPL_TIME_INFO_SRC_CAR, car), (F.CPL_TIME_INFO_HOPS, hops),
      (F.CPL_TIME_INFO_LOCKED, if locked then 1 else 0), (F.CPL_TIME_INFO_NEW, 1)]

/-! ### The rows -/

/-- CPL_PORT_ENABLE (R374). -/
def execCplPortEnable (port : Fin 16) (s : State) : Host.Outcome State Fault Refusal := .next (s.cplEnable port)

/-- CLOCK_DETECT (R374, R376): CK has held the clock frequency for 100 µs, or shows activity that is no clock. -/
def execClockDetect (port : Fin 16) (clock : Bool) (s : State) : Host.Outcome State Fault Refusal :=
  .next (if ¬ s.cplIn port 1 then s else if clock then s.put F.CPL_PORT_STATUS_PHASE 2 port else s.cplMiswire port 4)

/-- LANE_DETECT (R375, R376). -/
def execLaneDetect (port : Fin 16) (l0 l1 l2 l3 : LaneSeen) (aligned : BitVec 4) (s : State) : Host.Outcome State Fault Refusal :=
  .next (if s.cplIn port 2 then s.cplLanes port [l0, l1, l2, l3] aligned.toNat else s)

/-- SYMBOL_ALIGNMENT (R377): READY = 1 has been received on all lanes. -/
def execSymbolAlignment (port : Fin 16) (s : State) : Host.Outcome State Fault Refusal :=
  .next (if s.cplIn port 3 ∧ (List.range 4).all (fun l => s.flag F.CPL_LANE_STATUS_MATCH port l) then
    s.put F.CPL_PORT_STATUS_PHASE 4 port else s)

/-- DESKEW (R374, R382): three marker sets align, and the lanes take their trained points. -/
def execDeskew (port : Fin 16) (s : State) : Host.Outcome State Fault Refusal :=
  .next (if s.cplIn port 4 then
    (List.range 4).foldl (fun s l => s.putAll port l [(F.CPL_LANE_PHASE_PHASE, 0), (F.CPL_LANE_STATUS_DRIFT, 0)])
      (s.put F.CPL_PORT_STATUS_PHASE 5 port)
  else s)

/-- CAPABILITY_EXCHANGE (R378 to R380). -/
def execCapabilityExchange (port : Fin 16) (s : State) : Host.Outcome State Fault Refusal :=
  .next (if s.cplIn port 5 ∧ (s.cplPort port).capOk ∧ (s.cplPort port).capAck then s.cplAgree port else s)

/-- TRAINING_PHASE_TIMEOUT (R374). -/
def execTrainingPhaseTimeout (port : Fin 16) (s : State) : Host.Outcome State Fault Refusal :=
  .next (if s.cplTraining port then s.cplFail port else s)

/-- TRAINING_RETRY (R374, R388). -/
def execTrainingRetry (port : Fin 16) (s : State) : Host.Outcome State Fault Refusal :=
  .next (if (s.get F.CPL_PORT_STATUS_STATE port = 1 ∨ s.get F.CPL_PORT_STATUS_STATE port = 3) ∧ s.get F.CPL_PORT_STATUS_PHASE port = 0 then
    s.cplTrain port else s)

/-- CK_ACTIVITY_LOSS (R374): the port waits 50 ms for phase 1; not a failure. -/
def execCkActivityLoss (port : Fin 16) (s : State) : Host.Outcome State Fault Refusal :=
  .next (if s.cplTraining port ∧ 2 ≤ s.get F.CPL_PORT_STATUS_PHASE port then s.put F.CPL_PORT_STATUS_PHASE 0 port else s)

/-- SLIP (R377). -/
def execSlip (port : Fin 16) (lane : Fin 5) (aligned : Bool) (s : State) : Host.Outcome State Fault Refusal :=
  .next (s.cplSlip port lane aligned)

/-- CAP_SET_RECEIVED (R378). -/
def execCapSetReceived (port : Fin 16) (set : CapSet) (crcOk : Bool) (s : State) : Host.Outcome State Fault Refusal :=
  .next (if s.cplIn port 5 then s.cplCap port set crcOk else s)

/-- MARKER_RECEIVED (R369, R388, R400): bip bits of its BIP-8 differ, and headerErrors blocks were discarded since the last marker (R367,
R370, R372).  Under the loop check the errors are counted in the lane; a marker out of alignment on an UP port is a loss of deskew. -/
def execMarkerReceived (port : Fin 16) (lane : Fin 5) (aligned : Bool) (bip : Fin 9) (headerErrors : Nat) (s : State) :
    Host.Outcome State Fault Refusal :=
  .next (if ¬ s.flag F.CPL_PORT_CTRL_EN port then
      (if s.flag F.CPL_LANE_CTRL_LOOPCHK_EN port lane then s.count F.CPL_LANE_LOOP_ERR_LOOP_ERR bip port lane else s)
    else
      let s := (s.count F.CPL_HDR_ERR_HDR_ERR headerErrors port).count F.CPL_BIP_ERR_BIP_ERR bip port
      if aligned then s else s.cplDown port)

/-- SAMPLE_MESSAGE_RECEIVED (R390). -/
def execSampleMessageReceived (port : Fin 16) (sid : BitVec 8) (slot : Word) (symbol : Fin 16) (samples : List Byte) (crcOk : Bool)
    (s : State) : Host.Outcome State Fault Refusal :=
  .next (if s.cplUp port ∧ s.cplRxOn port then s.sampleIn port sid.toNat slot.toNat symbol samples crcOk else s)

/-- SAMPLE_SEND (R390 to R392). -/
def execSampleSend (src : SampleSrc) (s : State) : Host.Outcome State Fault Refusal :=
  .next (match src with
    | .queue q => s.sampleOut q.toNat
    | .raw p sid n => s.rawOut p sid.toNat n)

/-- SAMPLE_LATE_DISCARD (R390). -/
def execSampleLateDiscard (q : BitVec 10) (s : State) : Host.Outcome State Fault Refusal := .next (s.sampleLate q.toNat)

/-- TOKEN_MESSAGE_SEND (R397, R398). -/
def execTokenMessageSend (k : Nat) (s : State) : Host.Outcome State Fault Refusal := .next (s.tokenOut k)

/-- TOKEN_MESSAGE_RECEIVED (R397 to R399). -/
def execTokenMessageReceived (port : Fin 16) (seq : BitVec 16) (msg : TokenMsg) (crcOk sameCycle : Bool) (s : State) :
    Host.Outcome State Fault Refusal :=
  .next (if s.cplUp port ∧ s.cplRxOn port ∧ 1 ≤ s.cplMinor port then
    let late := s.inCancelCycle sameCycle
    ((if late then s else s.gdxCycle).tokenRecv port seq.toNat msg crcOk late).gdxSettle
  else s)

/-- TOKEN_ACK_SEND (R399): 16 messages or 1 µs. -/
def execTokenAckSend (port : Fin 16) (s : State) : Host.Outcome State Fault Refusal :=
  .next (let c := s.cplPort port
    if s.cplUp port ∧ c.rxPending ≠ 0 then
      (s.setCpl port { c with rxPending := 0 }).cplSend port (.ack ((c.rxNext + 2 ^ 16 - 1) % 2 ^ 16))
    else s)

/-- ACK_RECEIVED (R399). -/
def execAckReceived (port : Fin 16) (seq : BitVec 16) (s : State) : Host.Outcome State Fault Refusal :=
  .next (if s.cplUp port then s.tokenAck port seq.toNat else s)

/-- NAK_RECEIVED (R399). -/
def execNakReceived (port : Fin 16) (seq : BitVec 16) (s : State) : Host.Outcome State Fault Refusal :=
  .next (if s.cplUp port then s.tokenNak port seq.toNat else s)

/-- TIME_MESSAGE_SEND (R396). -/
def execTimeMessageSend (port : Fin 16) (locked : Bool) (s : State) : Host.Outcome State Fault Refusal := .next (s.timeOut port locked)

/-- TIME_MESSAGE_RECEIVED (R372, R396): one whose CRC-32 fails is discarded; a DELAY message is for the converter and changes nothing
here. -/
def execTimeMessageReceived (port : Fin 16) (delay : Bool) (sec : BitVec 48) (ns : BitVec 30) (frac : Word) (car hops : Fin 8)
    (locked crcOk : Bool) (sub : Fin 320) (s : State) : Host.Outcome State Fault Refusal :=
  .next (if crcOk ∧ ¬ delay ∧ s.cplUp port ∧ s.cplRxOn port ∧ 1 ≤ s.cplMinor port ∧ s.flag F.CPL_CONSIST_UP_EN ∧
      s.get F.CPL_CONSIST_UP_PORT = port.val then s.timeIn port ⟨sec.toNat, ns.toNat, frac.toNat⟩ car hops locked sub
  else s)

/-- CREDIT_RECEIVED (R391). -/
def execCreditReceived (port : Fin 16) (linkQueue : BitVec 8) (credits : BitVec 16) (s : State) : Host.Outcome State Fault Refusal :=
  .next (if s.cplUp port then
    s.upCpl port (fun c => { c with credits := Tab.set c.credits linkQueue.toNat (Tab.get 0 c.credits linkQueue.toNat + credits.toNat) })
  else s)

/-- GAP_BEGIN_RECEIVED (R383). -/
def execGapBeginReceived (port : Fin 16) (s : State) : Host.Outcome State Fault Refusal :=
  .next (if s.cplUp port ∧ 1 ≤ s.cplMinor port then s.gapBegin port else s)

/-- GAP_ACK_RECEIVED (R383). -/
def execGapAckReceived (port : Fin 16) (s : State) : Host.Outcome State Fault Refusal :=
  .next (if (s.cplPort port).gap = .begun then s.cplProbes port else s)

/-- GAP_END_RECEIVED (R383, R384). -/
def execGapEndReceived (port : Fin 16) (s : State) : Host.Outcome State Fault Refusal :=
  .next (if s.cplGap port then s.cplEndGap port else s)

/-- GAP_TIMEOUT (R383). -/
def execGapTimeout (port : Fin 16) (s : State) : Host.Outcome State Fault Refusal := .next (s.gapTimeout port)

/-- PROBE_RECEIVED (R384): turnaround is the departure of the ECHO minus the arrival of the PROBE, in units of 5 ps. -/
def execProbeReceived (port : Fin 16) (seq : BitVec 8) (turnaround : BitVec 40) (s : State) : Host.Outcome State Fault Refusal :=
  .next (if (s.cplPort port).gap = .open then s.cplSend port (.echo seq.toNat turnaround.toNat) else s)

/-- ECHO_RECEIVED (R384): elapsed is the arrival of the ECHO minus the departure of the PROBE, in units of 5 ps. -/
def execEchoReceived (port : Fin 16) (seq : BitVec 8) (elapsed turnaround : BitVec 40) (s : State) : Host.Outcome State Fault Refusal :=
  .next (let c := s.cplPort port
    if c.gap = .open ∧ seq.toNat ∈ c.probes then
      s.setCpl port { c with probes := c.probes.filter (· ≠ seq.toNat),
                             rtts := c.rtts ++ [(elapsed.toNat : Int) - (turnaround.toNat : Int)] }
    else s)

/-- QUIET_ENTER_RECEIVED (R386). -/
def execQuietEnterReceived (port : Fin 16) (s : State) : Host.Outcome State Fault Refusal :=
  .next (if s.cplMayMove port ∧ s.cplRxOn port ∧ ¬ s.domMoving (112 + port.val) ∧ s.flag F.CPL_PORT_CTRL_AUTO_LISTEN port then
    (s.pwrSettle (112 + port.val) 3).count F.PWR_DOM_ENTRIES_ENTRIES 1 0 (112 + port.val)
  else s)

/-- Move to three lanes (R387). -/
def State.cplDrop (s : State) (p lane : Nat) : State :=
  let l := s.get F.CPL_PORT_STATUS_LANES p
  ((s.put F.CPL_PORT_STATUS_LANES (l - l / 2 ^ lane % 2 * 2 ^ lane) p).set F.CPL_PORT_EVENTS_LANE_DROPPED p).cplSend p (.laneDrop lane)

/-- LANE_DROP_RECEIVED (R387): the partner lane is dropped, and answered for the other direction unless this side dropped first. -/
def execLaneDropReceived (port : Fin 16) (lane : Fin 4) (s : State) : Host.Outcome State Fault Refusal :=
  .next (if s.cplMayMove port ∧ s.get F.CPL_PORT_STATUS_LANES port = 0xF then s.cplDrop port lane else s)

/-- DRIFT (R382): the tracker of a lane reaches its bound of 0.25 UI, 16 of the 1/64 UI of PHASE. -/
def execDrift (port : Fin 16) (lane : Fin 4) (late : Bool) (s : State) : Host.Outcome State Fault Refusal :=
  .next (if s.cplUp port then
    s.putAll port lane [(F.CPL_LANE_STATUS_DRIFT, 1), (F.CPL_LANE_STATUS_DRIFT_SEEN, 1),
      (F.CPL_LANE_PHASE_PHASE, unsigned 16 (if late then 16 else -16))]
  else s)

/-- LANE_RETRAIN (R382): in a gap that leaves 1 µs after its ACK; held says that the tracker is at its bound again. -/
def execLaneRetrain (port : Fin 16) (lane : Fin 4) (held : Bool) (s : State) : Host.Outcome State Fault Refusal :=
  .next (if (s.cplPort port).gap = .open ∧ s.flag F.CPL_LANE_STATUS_DRIFT port lane then
    let s := s.count F.CPL_RETRAINS_RETRAINS 1 port
    if held then s.upCpl port (fun c => { c with driftGaps := Tab.set c.driftGaps lane.val (Tab.get 0 c.driftGaps lane.val + 1) })
    else
      let s := s.putAll port lane [(F.CPL_LANE_STATUS_DRIFT, 0), (F.CPL_LANE_PHASE_PHASE, 0)]
      s.upCpl port (fun c => { c with driftGaps := Tab.erase c.driftGaps lane.val })
  else s)

/-- CPL_LINK_DOWN (R388): loss of CK or deskew, or 64 header errors in a row, counted in headerErrors. -/
def execCplLinkDown (port : Fin 16) (headerErrors : Nat) (s : State) : Host.Outcome State Fault Refusal :=
  .next (if s.cplUp port then (s.count F.CPL_HDR_ERR_HDR_ERR headerErrors port).cplDown port else s)

/-- RETURN_OF_SIGNAL (R386): a receiver in LISTEN is ON 150 ns after signal returns, at its trained point. -/
def execReturnOfSignal (port : Fin 16) (s : State) : Host.Outcome State Fault Refusal :=
  .next (if s.cplUp port ∧ s.domState (112 + port.val) = 3 then
    let s := (s.pwrSettle (112 + port.val) 0).count F.PWR_DOM_WAKES_WAKES 1 0 (112 + port.val)
    let s := (List.range 4).foldl (fun s l => s.put F.CPL_LANE_PHASE_PHASE 0 port l) s
    s.pwrResume (112 + port.val)
  else s)

end Sys2Proof.Machine
end

