-- ==== Sys2Proof/Machine/Net.lean ====
section
/-!
DEFINITION. Sys2Proof/Machine/Net.lean: network ports: groups, link attempts and equalisation (R336 to R346), received frames and
the compression engines (R238 to R240, R348 to R359), transmission (R359, R360) and lane tests (R361 to R363), with the meanings of
their rows (12_network_ports.md).  Lane faults, which shed carriers, are in Faults.lean.
-/
namespace Sys2Proof.Machine

/-! ### Ports, lanes and groups (R335 to R337) -/

/-- A port beside its registers. -/
def State.netPort (s : State) (p : Nat) : NetPort := Tab.get NetPort.reset s.net.ports p

/-- Change a port. -/
def State.upNet (s : State) (p : Nat) (f : NetPort → NetPort) : State :=
  { s with net := { s.net with ports := Tab.set s.net.ports p (f (s.netPort p)) } }

/-- A lane beside its registers. -/
def State.netLane (s : State) (n : Nat) : NetLane := Tab.get ⟨[], [], 0, 0⟩ s.net.lanes n

/-- Change a lane. -/
def State.upLane (s : State) (n : Nat) (f : NetLane → NetLane) : State :=
  { s with net := { s.net with lanes := Tab.set s.net.lanes n (f (s.netLane n)) } }

/-- The mode in force of a port, 0 where the lane is the lowest of none (Table 12-2). -/
def State.netMode (s : State) (p : Nat) : Nat := s.get F.NET_PORT_STATUS_MODE p

/-- The physical lanes of a port. -/
def State.netLanes (s : State) (p : Nat) : List Nat :=
  ((List.range 4).filter (fun i => (s.get F.NET_PORT_STATUS_LANES p).testBit i)).map (fun i => p / 4 * 4 + i)

/-- The port that a lane serves. -/
def State.portOfLane (s : State) (n : Nat) : Option Nat :=
  ((List.range 4).map (fun i => n / 4 * 4 + i)).find? (fun p => s.netMode p ≠ 0 && decide (n ∈ s.netLanes p))

/-- Is a port UP? -/
def State.netUp (s : State) (p : Nat) : Bool := s.get F.NET_PORT_STATUS_STATE p = 2

/-- Are the lanes of a mode NRZ (Table 12-1)? -/
def modeNrz (m : Nat) : Bool := m = 7 || m = 8

/-- CORR_RX and CORR_TX of a mode in ps (Table 2-4). -/
def modeCorr (m : Nat) : Int × Int :=
  [(0, 0), (-142400, 96800), (-176000, 108400), (-158600, 101200), (-249700, 127500), (-221300, 118900), (-318200, 149000),
   (-36800, 29400), (-61900, 48300)].getD m (0, 0)

/-- The ports of one half of a split group: first lane, its code, and the lane modes; none where the placement is wrong. -/
def halfPorts (first code : Nat) (lane : Nat → Nat) : Option (List (Nat × Nat × Nat)) :=
  if code = 0 then some []
  else if code = 3 ∨ code = 4 then some [(first, code, 3 * 2 ^ first)]
  else if code = 0xF then
    if [first, first + 1].all (fun i => lane i = 0 || decide (5 ≤ lane i ∧ lane i ≤ 8)) then
      some (([first, first + 1].filter (fun i => lane i ≠ 0)).map (fun i => (i, lane i, 2 ^ i)))
    else none
  else none

/-- The ports that NET_GRP_CFG describes: lowest lane, mode and lanes; none where a port lies outside its placement (R337). -/
def State.groupPorts (s : State) (g : Nat) : Option (List (Nat × Nat × Nat)) :=
  let p := 4 * g
  let lane (i : Nat) : Nat := s.get F.NET_GRP_CFG_LANE_MODE p / 16 ^ i % 16
  match s.get F.NET_GRP_CFG_SHAPE p with
  | 0 => some []
  | 1 => let m := s.get F.NET_GRP_CFG_WHOLE_MODE p
         if m = 1 ∨ m = 2 then some [(0, m, 0xF)] else none
  | 2 => match halfPorts 0 (s.get F.NET_GRP_CFG_HALF_A p) lane, halfPorts 2 (s.get F.NET_GRP_CFG_HALF_B p) lane with
    | some a, some b => some (a ++ b)
    | _, _ => none
  | _ => none

/-- Enter a state; a new state raises a LINK event (Table 14-11). -/
def State.netState (s : State) (p st : Nat) : State :=
  if s.get F.NET_PORT_STATUS_STATE p = st then s
  else (s.put F.NET_PORT_STATUS_STATE st p).event (.link false p st)

/-- A port takes a mode on some lanes of its group; the corrections of R64 are loaded. -/
def State.netSetMode (s : State) (p mode lanes : Nat) : State :=
  (s.putAll p 0 [(F.NET_PORT_STATUS_MODE, mode), (F.NET_PORT_STATUS_LANES, lanes), (F.NET_PORT_STATUS_LANE_MAP, 0)]).putAll 0 p
    [(F.TBU_PORT_CORR_RX_CORR_RX, unsigned 32 (modeCorr mode).1), (F.TBU_PORT_CORR_TX_CORR_TX, unsigned 32 (modeCorr mode).2)]

/-- Stop the tests of a lane (R337). -/
def State.testStop (s : State) (n : Nat) : State :=
  s.putAll n 0 [(F.NET_LANE_PRBS_CTRL_GEN_EN, 0), (F.NET_LANE_PRBS_CTRL_CHK_EN, 0), (F.NET_LANE_PRBS_CTRL_LOOP, 0),
    (F.NET_LANE_PRBS_STATUS_LOCK, 0)]

/-! ### Link attempts (R338 to R342) -/

/-- An attempt starts (R339): its first stage; the trained points of the lanes end (R343).  NOPARTNER stays until an attempt
succeeds. -/
def State.netStart (s : State) (p : Nat) : State :=
  let phy := s.get F.NET_PORT_CTRL_PHY p
  let stage := if phy = 1 then 3 else if s.flag F.NET_PORT_CTRL_AN_EN p then 1 else 2
  let s := (s.netLanes p).foldl (fun s n => s.upLane n (fun l => { l with trained := [] })) s
  let s := s.upNet p (fun c => { c with stage := stage, paused := [] })
  if s.get F.NET_PORT_STATUS_STATE p = 3 then s else s.netState p 1

/-- Copy the lookup table of a port (R355). -/
def State.lutCopy (s : State) (p : Nat) : State :=
  let base := sramBase + s.get F.NET_FH_LUT_BASE_BASE p
  s.upNet p (fun c => { c with lut := (List.range 256).map (fun k => s.words (base + 16 * k) 4), rxSeq := [] })

/-- EN of a port becomes 1 (R339, R355). -/
def State.netEnable (s : State) (p : Nat) : State :=
  if s.flag F.NET_PORT_CTRL_EN p ∨ s.netMode p = 0 then s
  else (((s.set F.NET_PORT_CTRL_EN p).put F.NET_PORT_STATUS_ATTEMPTS 0 p).netState p 1).lutCopy p |>.netStart p

/-- EN of a port becomes 0. -/
def State.netDisable (s : State) (p : Nat) : State :=
  (((s.clr F.NET_PORT_CTRL_EN p).upNet p (fun c => { c with stage := 0, paused := [] })).put F.NET_PORT_STATUS_ATTEMPTS 0 p).netState p 0

/-- APPLY of NET_GRP_CFG (R337). -/
def State.groupApply (s : State) (g : Nat) : State :=
  match s.groupPorts g with
  | none => s.set F.NET_GRP_CFG_CFG_REFUSED (4 * g)
  | some ps =>
    let s := (List.range 4).foldl (fun s i =>
      let n := 4 * g + i
      let s := ((s.testStop n).put F.NET_PORT_STATUS_ATTEMPTS 0 n).netState n 0
      (s.netSetMode n 0 0).upNet n (fun c => { c with stage := 0, paused := [] })) s
    let s := ps.foldl (fun s x => s.netSetMode (4 * g + x.1) x.2.1 x.2.2) s
    ps.foldl (fun s x => if s.flag F.NET_PORT_CTRL_EN (4 * g + x.1) then s.netStart (4 * g + x.1) else s) s

/-- The fallback of a mode when lane i of the group is not to be used: mode and lanes (Table 12-4). -/
def fallback (mode i : Nat) : Option (Nat × Nat) :=
  match mode with
  | 1 => some (3, if i < 2 then 0xC else 0x3)
  | 2 => some (4, if i < 2 then 0xC else 0x3)
  | 3 => some (5, 2 ^ (if i % 2 = 0 then i + 1 else i - 1))
  | 4 => some (6, 2 ^ (if i % 2 = 0 then i + 1 else i - 1))
  | _ => none

/-- Autonegotiation ends: in the port's mode, or in the fallback that it also advertised, without lane i (R338). -/
def State.autoneg (s : State) (p : Nat) (fb : Option Nat) : State :=
  if (s.netPort p).stage ≠ 1 then s
  else
    let s := s.upNet p (fun c => { c with stage := 2 })
    match fb with
    | none => s
    | some i => match fallback (s.netMode p) i with
      | some (m, l) => if s.flag F.NET_PORT_CTRL_DEGRADE_EN p then s.netSetMode p m l else s
      | none => s

/-- Training ends: the polarity the frames showed, and the transmit taps it set (R341, R346). -/
def State.trained (s : State) (p polarity : Nat) (ffe : List (BitVec 24)) : State :=
  if (s.netPort p).stage ≠ 2 then s
  else
    let s := s.upNet p (fun c => { c with stage := 3 })
    (s.netLanes p).zipIdx.foldl (fun s x =>
      let f := (ffe.getD x.2 0).toNat
      (s.put F.NET_LANE_STATUS_RX_INV_DET (if polarity.testBit (x.1 % 4) then 1 else 0) x.1).putAll x.1 0
        [(F.NET_LANE_TXFFE_PRE, natBits f 0 8), (F.NET_LANE_TXFFE_MAIN, natBits f 8 8), (F.NET_LANE_TXFFE_POST, natBits f 16 8)]) s

/-- PCS lock: the port is UP, and its lanes keep their taps as the trained point (R339, R342, R343). -/
def State.pcsLock (s : State) (p laneMap : Nat) : State :=
  if (s.netPort p).stage ≠ 3 then s
  else
    let s := (s.netLanes p).foldl (fun s n => (s.set F.NET_LANE_STATUS_SIGNAL n).upLane n (fun l => { l with trained := l.taps })) s
    let s := s.putAll p 0 [(F.NET_PORT_STATUS_ATTEMPTS, 0), (F.NET_PORT_STATUS_LANE_MAP, laneMap)]
    (s.upNet p (fun c => { c with stage := 0 })).netState p 2

/-- An attempt fails (R339): a new one starts at once until the third failure in a row, which enters NOPARTNER. -/
def State.attemptFail (s : State) (p : Nat) : State :=
  if (s.netPort p).stage = 0 then s
  else
    let s := (s.upNet p (fun c => { c with stage := 0 })).count F.NET_PORT_STATUS_ATTEMPTS 1 p
    if 3 ≤ s.get F.NET_PORT_STATUS_ATTEMPTS p then
      if s.get F.NET_PORT_STATUS_STATE p = 3 then s else (s.count F.NET_NOPARTNER_NOPARTNER 1 p).netState p 3
    else s.netStart p

/-- The PCS of an UP port reports link fail (R340). -/
def State.linkFail (s : State) (p : Nat) : State :=
  if s.netUp p then
    let s := ((s.count F.NET_LINK_DOWN_LINK_DOWN 1 p).set F.NET_PORT_STATUS_LINK_DOWN_SEEN p).put F.NET_PORT_STATUS_ATTEMPTS 0 p
    (s.netState p 1).netStart p
  else s

/-! ### Equalisation (R343 to R345) -/

/-- The step of a tap toward its trained value: (trained − current) × 2^−L, rounded toward the trained value (R345). -/
def leakStep (trained cur : Int) (l : Nat) : Int :=
  let d := trained - cur
  if l < 4 then 0 else if 0 ≤ d then -((-d) / (2 ^ l : Nat)) else d / (2 ^ l : Nat)

/-- Does adaptation run on a lane: enabled, not frozen, and past training or in PCS lock (R343, R344)? -/
def State.adapts (s : State) (n : Nat) : Bool :=
  s.flag F.NET_LANE_CTRL_ADAPT_EN n && !s.flag F.NET_LANE_STATUS_FROZEN n && (match s.portOfLane n with
    | some p => s.netUp p || (s.netPort p).stage = 3
    | none => false)

/-- The number of feed-forward taps of a lane (R343). -/
def State.tapCount (s : State) (n : Nat) : Nat :=
  match s.portOfLane n with
  | some p => if modeNrz (s.netMode p) then 12 else 24
  | none => 24

/-- An update of the taps (R343, R345): delta is what the receiver adapts each by. -/
def State.adapt (s : State) (n : Nat) (delta : List Int) : State :=
  if s.adapts n then
    let leak := s.get F.NET_LANE_CTRL_LEAK n
    let l := s.netLane n
    let taps := (List.range (s.tapCount n)).map (fun k =>
      let c := l.taps.getD k 0
      c + delta.getD k 0 + (match l.trained[k]? with
        | some t => leakStep t c leak
        | none => 0))
    s.upLane n (fun l => { l with taps := taps })
  else s

/-! ### Stamps (R62 to R67) -/

/-- A signed 32-bit register in ps. -/
def State.psReg (s : State) (f : Fld) (p : Nat) : Int := signed 32 (s.get f 0 p)

/-- The correction of a stamp of a port to its reference plane, in ps (R64). -/
def State.corrPs (s : State) (p : Nat) (d : Dir) : Int :=
  match d with
  | .rx => s.psReg F.TBU_PORT_CORR_RX_CORR_RX p - s.psReg F.TBU_PORT_EXT_RX_EXT_RX p
  | .tx => s.psReg F.TBU_PORT_CORR_TX_CORR_TX p + s.psReg F.TBU_PORT_EXT_TX_EXT_TX p

/-- A corrected stamp in active time, in thousandths of the exact units of Time.lean. -/
def State.stamp1000 (s : State) (p sub : Nat) (d : Dir) : Int := (s.qActive + sub * qSub) * 1000 + s.corrPs p d * qNs

/-- A corrected stamp over a time base in units of 2^-32 ns (R63, R64); an inexact correction is rounded by a free choice. -/
def State.stampOf (s : State) (base : Int) (p sub : Nat) (d : Dir) : Tai × State :=
  let (c, s) := s.freeDiv (s.corrPs p d * 2 ^ 32) 1000
  (Tai.ofUnits (base + sub * 2 ^ 28 + c), s)

/-- Put a stamp into a FIFO; a full one drops it (R67). -/
def State.stampPush (s : State) (p : Nat) (d : Dir) (mtype seq : Nat) (t : Tai) : State :=
  let l := Tab.get [] s.tbu.stamps (p, d)
  if 64 ≤ l.length then s.count F.TBU_PORT_TS_LOST_TS_LOST 1 0 p
  else { s with tbu := { s.tbu with stamps := Tab.set s.tbu.stamps (p, d) (l ++ [⟨mtype, seq, t⟩]) } }

/-- The domain bound to a port (R50). -/
def State.portDom (s : State) (p : Nat) : Option Dom :=
  match s.get F.TBU_PORT_CFG_DOMAIN 0 p with
  | 1 => some .A
  | 2 => some .B
  | _ => none

/-- Stamp a PTP message of a port in its bound domain, if it is a stamped message with that domain's domainNumber (Table 2-3, Table
2-12). -/
def State.ptpStamp (s : State) (p sub : Nat) (d : Dir) (mtype dn seq : Nat) : State :=
  match s.portDom p with
  | none => s
  | some x =>
    if mtype ≤ 3 ∧ dn = s.get F.TBU_D_SOURCE_PTP_DOMAIN 0 (domIdx x) then
      let (t, s) := s.stampOf (s.tbu.dom x).counter.units p sub d
      s.stampPush p d mtype seq t
    else s

/-- Stamp an eCPRI type-5 message in active time, marked as eCPRI (R61, R352). -/
def State.owdStamp (s : State) (p sub : Nat) (d : Dir) (mid : Nat) : State :=
  if s.flag F.TBU_PORT_CFG_ECPRI_OWD_EN 0 p then
    let (t, s) := s.stampOf s.activeUnits p sub d
    s.stampPush p d 0x15 mid t
  else s

/-! ### The compression engine (R238 to R240) -/

/-- The width of a udCompHdr: udIqWidth in [7:4], 0 for 16. -/
def compWidth (h : Nat) : Nat := if h / 16 % 16 = 0 then 16 else h / 16 % 16

/-- The method of a udCompHdr. -/
def compMethod (h : Nat) : Nat := h % 16

/-- Is a method and width supported (R238)? -/
def compOk (h : Nat) : Bool :=
  (compMethod h = 0 && compWidth h = 16) || ((compMethod h = 1 || compMethod h = 3) && decide (8 ≤ compWidth h ∧ compWidth h ≤ 14))

/-- One component decompressed to int16 (R239).  The µ-law expansion is the O-RAN specification's; a value that int16 cannot hold has
no stated result (log entry 12). -/
def decompress (h exp : Nat) (c : Int) : Nat :=
  let m := signed (compWidth h) (unsigned (compWidth h) c)
  let v := if compMethod h = 0 then c else m * (2 ^ exp : Nat)
  if compMethod h = 3 then Config.openNat [38, c, exp, compWidth h] % 2 ^ 16
  else if -(2 ^ 15) ≤ v ∧ v < 2 ^ 15 then unsigned 16 v
  else Config.openNat [39, v] % 2 ^ 16

/-- The 48 bytes of a PRB. -/
def prbBytes (h : Nat) (p : PrbData) : List Byte :=
  (List.range 24).flatMap (fun k => natLe 2 (decompress h p.exp (p.codes.getD k 0)))

/-- The bitmap of erased PRBs, 36 bytes (R316). -/
def erasedMap (erased : List Nat) : List Byte := natLe 36 (erased.foldl (fun m k => if k < 288 then m ||| 2 ^ k else m) 0)

/-- What the FCE of a lane does to n PRBs: counts them, those decided by a third computation, and those erased (R240); an armed
injection makes one more disagree (R574). -/
def State.fceCount (s : State) (lane n disagree erased : Nat) : State :=
  if n = 0 then s
  else
    let inj := s.get F.FCE_CTRL_INJ_DISAGREE lane
    let s := (s.clr F.FCE_CTRL_INJ_DISAGREE lane).count F.FCE_PRB_PRB n lane
    (s.count F.FCE_DISAGREE_DISAGREE (disagree + inj) lane).count F.FCE_ERASED_ERASED erased lane

/-! ### Received frames (R348 to R359) -/

/-- The EtherType that a frame shows after its tag. -/
def etherType : FrameBody → Nat
  | .pfc .. | .pause => 0x8808
  | .ecpri _ => 0xAEFE
  | .ptp _ _ _ none => 0x88F7
  | .ptp _ _ _ (some t) => t
  | .other t => t

/-- A 48-bit address from its two registers. -/
def State.macOf (s : State) (p : Nat) : Nat := s.get F.NET_PORT_MAC_LO_MAC p + s.get F.NET_PORT_MAC_HI_MAC p * 2 ^ 32

/-- Group address i of a port (Table 12-12). -/
def State.mcast (s : State) (p i : Nat) : Nat :=
  s.get F.NET_PORT_MCAST_ADDR p (2 * i) + s.get F.NET_PORT_MCAST_ADDR p (2 * i + 1) % 2 ^ 16 * 2 ^ 32

/-- Does a port take a destination address (Table 12-5, step 2)? -/
def State.macOk (s : State) (p dest : Nat) : Bool :=
  decide (dest ∈ [s.macOf p, 0xFFFFFFFFFFFF, 0x011B19000000, 0x0180C200000E, 0x0180C2000001, 0x0180C2000002]) ||
  (dest ≠ 0 && (List.range 8).any (fun i => s.mcast p i = dest))

/-- Does a frame pass MACsec unprotected (R354)? -/
def State.bypassed (s : State) (p : Nat) (b : FrameBody) : Bool :=
  (List.range 4).any (fun i => s.get F.NET_MACSEC_BYPASS_ETYPE p i ≠ 0 && s.get F.NET_MACSEC_BYPASS_ETYPE p i = etherType b) ||
  (s.flag F.NET_PORT_CTRL_PTP_BYPASS p && (match b with
    | .ptp .. => true
    | _ => false))

/-- PEER_MAC of a lookup entry. -/
def lutPeer (e : List Nat) : Nat := e.getD 3 0 + natBits (e.getD 2 0) 16 16 * 2 ^ 32

/-- The lowest-numbered receive entry that a message matches (R355): its number and words. -/
def State.lutRx (s : State) (p plane eaxc src : Nat) (vid : Option Nat) : Option (Nat × List Nat) :=
  ((s.netPort p).lut.zipIdx.find? (fun x =>
    let w := x.1.headD 0
    w.testBit 0 && !w.testBit 1 && natBits w 2 1 = plane && natBits (x.1.getD 1 0) 0 16 = eaxc &&
    (!w.testBit 3 || vid = some (natBits w 8 12)) && (lutPeer x.1 = 0 || lutPeer x.1 = src))).map (fun x => (x.2, x.1))

/-- The lowest-numbered transmit entry of a plane and eAxC. -/
def State.lutTx (s : State) (p plane eaxc : Nat) : Option (Nat × List Nat) :=
  ((s.netPort p).lut.zipIdx.find? (fun x =>
    let w := x.1.headD 0
    w.testBit 0 && w.testBit 1 && natBits w 2 1 = plane && natBits (x.1.getD 1 0) 0 16 = eaxc)).map (fun x => (x.2, x.1))

/-- Slot within the frame and symbol from the application header (Table 12-7). -/
def headerSlot (e : TlEntry) (m : EcpriMsg) : Nat × Nat :=
  let n := e.num.symbols
  if e.std = 0 then (m.subframeId * 2 ^ e.mu + m.slotId, m.symbolId)
  else if e.nb3k75 then (m.subframeId / 2, m.symbolId)
  else (2 * m.subframeId + m.symbolId / n, m.symbolId % n)

/-- The slot counted from frame 0 and the symbol that a message names: its frame nearest the present one (R357). -/
def State.resolveMsg (s : State) (t : Timeline) (m : EcpriMsg) : Option (Int × Nat) :=
  let n := t.ent.num
  let (sl, sy) := headerSlot t.ent m
  if n.slots ≤ sl ∨ n.symbols ≤ sy then none
  else
    let fc := (s.coordNow t).slot / n.slots
    let f := fc + (m.frameId - fc + 128) % 256 - 128
    some (f * n.slots + sl, sy)

/-- The network fields of an item (Table 12-9), after 36 bytes of bitmap. -/
def netFields (bitmap : List Byte) (n0 n1 n2 n3 : Nat) : List Byte :=
  bitmap ++ natLe 4 n0 ++ natLe 4 n1 ++ natLe 4 n2 ++ natLe 4 n3 ++ List.replicate 12 0

/-- Offer an item with its network fields, which only items of at least 96 bytes hold (R316, R358). -/
def State.netOffer (s : State) (q : Nat) (o : Offer) : State :=
  match s.queue q with
  | none => s
  | some x => s.queueOffer q (if 96 ≤ x.ent.itemSize then o else { o with extra := [] })

/-- Offer the items of the sections of a U-plane message (R358); k counts the PRBs of the frame, whose erased ones are named. -/
def State.sections (s : State) (p q lane dataSize : Nat) (erased : List Nat) (base : Offer) (n0 n2 n3 : Nat) :
    Nat → List USection → State
  | _, [] => s
  | k, u :: us =>
    let n := u.prbs.length
    if ¬ compOk u.compHdr then (s.count F.FCE_BADMETH_BADMETH 1 lane).sections p q lane dataSize erased base n0 n2 n3 (k + n) us
    else if dataSize < n * 48 then
      (s.count F.NET_RX_SIZE_ERR_RX_SIZE_ERR 1 p).sections p q lane dataSize erased base n0 n2 n3 (k + n) us
    else
      let er := (erased.filter (fun e => decide (k ≤ e ∧ e < k + n))).map (· - k)
      let data := u.prbs.zipIdx.flatMap (fun x => if x.2 ∈ er then List.replicate 48 0 else prbBytes u.compHdr x.1)
      let n1 := u.startPrb % 1024 + n % 512 * 2 ^ 10 + u.compHdr % 256 * 2 ^ 19
      let o := { base with length := n * 48, erased := er ≠ [], erasedCount := er.length, payload := data,
                           extra := netFields (erasedMap er) (n0 + u.id % 4096 * 2 ^ 16) n1 n2 n3 }
      (s.netOffer q o).sections p q lane dataSize erased base n0 n2 n3 (k + n) us

/-- A received message with its entry, slot and symbol: windows (R359), sequence (R356) and items (R358). -/
def State.fhItem (s : State) (p lane : Nat) (w : List Nat) (x : Queue) (t : Timeline) (m : EcpriMsg) (slot : Int) (sym : Nat)
    (arr : Int) (erased : List Nat) (k : Nat) (seqErr : Bool) : State :=
  let q := natBits (w.getD 1 0) 16 10
  let stream := natBits (w.getD 2 0) 0 9
  let n := t.ent.num
  let e := qUnair t.ent (slot * n.qSlot + n.qSymStart slot (sym + 1)) + t.delay stream * qSub
  let rel := arr - e * 1000
  let early := decide (rel < s.get F.NET_FH_RX_MIN_RX_MIN_NS p * qNs * 1000)
  let late := decide (s.get F.NET_FH_RX_MAX_RX_MAX_NS p * qNs * 1000 < rel)
  let s := if early then s.count F.NET_RX_EARLY_RX_EARLY 1 p else s
  let s := if late then s.count F.NET_RX_LATE_RX_LATE 1 p else s
  if late ∧ s.flag F.NET_PORT_CTRL_DROP_LATE p then s
  else
    let (ns, s) := s.freeDiv rel (qNs * 1000).toNat
    let plane := match m.body with
      | .uPlane _ => 0
      | _ => 1
    let n0 := m.eaxc % 2 ^ 16 + (if early then 2 ^ 28 else 0) + (if late then 2 ^ 29 else 0) + (if seqErr then 2 ^ 30 else 0)
    let n3 := m.seqid % 256 + plane * 256
    let base : Offer := ⟨sym, stream, t.slotWord slot, 0, false, 0, 0, 0, [], [], none⟩
    match m.body with
    | .uPlane us => s.sections p q lane x.ent.dataSize erased base n0 (unsigned 32 ns) n3 k us
    | .cPlane _ _ _ bs =>
      if x.ent.dataSize < bs.length then s.count F.NET_RX_SIZE_ERR_RX_SIZE_ERR 1 p
      else
        let (a, s) := s.freshNat
        let (b, s) := s.freshNat
        let extra := netFields (List.replicate 36 0) (n0 + a % 4096 * 2 ^ 16) (b % 2 ^ 27) (unsigned 32 ns) n3
        s.netOffer q { base with length := bs.length, payload := bs, extra := extra }
    | _ => s

/-- Does the common header of a message pass (R356)? -/
def EcpriOk (m : EcpriMsg) : Bool :=
  m.revision = 1 && m.sizeOk && (match m.body with
    | .delay _ => true
    | .other => false
    | _ => m.e && m.subseq = 0)

/-- Is a C-plane message of a supported type (R253, Table 8-6)? -/
def cPlaneOk (st : Nat) (ext : List Nat) (weights : Bool) : Bool :=
  decide (st ∈ [0, 1, 3, 5, 6]) && ext.all (fun e => decide (e ∈ [1, 2, 3, 6, 10, 11, 12])) && weights

/-- The PRBs of a message. -/
def msgPrbs (m : EcpriMsg) : Nat :=
  match m.body with
  | .uPlane us => us.foldl (fun n u => n + u.prbs.length) 0
  | _ => 0

/-- One message of the fronthaul path (R355 to R359); lane is the FCE of its packet, k counts the PRBs before it. -/
def State.fhMessage (s : State) (p lane sub : Nat) (f : EthFrame) (erased : List Nat) (k : Nat) (m : EcpriMsg) : State :=
  if ¬ EcpriOk m then s.count F.NET_RX_ECPRI_BAD_RX_ECPRI_BAD 1 p
  else
    let badC := match m.body with
      | .cPlane st ext w _ => !cPlaneOk st ext w
      | _ => false
    let plane := match m.body with
      | .uPlane _ => 0
      | _ => 1
    match m.body with
    | .delay mid => s.owdStamp p sub .rx mid
    | _ =>
      if badC then s.count F.NET_RX_CPLANE_BAD_RX_CPLANE_BAD 1 p
      else
        match s.lutRx p plane (m.eaxc % 2 ^ 16) f.src f.vid with
        | none => s.count F.NET_RX_NOMATCH_RX_NOMATCH 1 p
        | some (i, w) =>
          let seqErr := match Tab.find (s.netPort p).rxSeq i with
            | some last => decide (m.seqid % 256 ≠ (last + 1) % 256)
            | none => false
          let s := s.upNet p (fun c => { c with rxSeq := Tab.set c.rxSeq i (m.seqid % 256) })
          let s := if seqErr then s.count F.NET_RX_SEQ_ERR_RX_SEQ_ERR 1 p else s
          match s.queue (natBits (w.getD 1 0) 16 10) with
          | none => s
          | some x =>
            match s.tl x.ent.tl with
            | none => s
            | some t =>
              match s.resolveMsg t m with
              | none => s.count F.NET_RX_ECPRI_BAD_RX_ECPRI_BAD 1 p
              | some (slot, sym) => s.fhItem p lane w x t m slot sym (s.stamp1000 p sub .rx) erased k seqErr

/-- The messages of a frame, in order. -/
def State.fhMessages (s : State) (p lane sub : Nat) (f : EthFrame) (erased : List Nat) : Nat → List EcpriMsg → State
  | _, [] => s
  | k, m :: ms => (s.fhMessage p lane sub f erased k m).fhMessages p lane sub f erased (k + msgPrbs m) ms

/-- The fronthaul path (Table 12-5, step 7): the FCEs of the port's lanes take packets in turn (R358). -/
def State.fronthaul (s : State) (p sub : Nat) (f : EthFrame) (ms : List EcpriMsg) (disagree : Nat) (erased : List Nat) : State :=
  let lanes := s.netLanes p
  let r := (s.netPort p).rr
  let lane := lanes.getD r p
  let n := ms.foldl (fun n m => n + msgPrbs m) 0
  let s := if n = 0 then s else s.upNet p (fun c => { c with rr := (r + 1) % max 1 lanes.length })
  let er := (erased.filter (· < n)).eraseDups
  ((s.fceCount lane n disagree er.length)).fhMessages p lane sub f er 0 ms

/-- The control queue (R352, Table 12-5, step 8): N2 is the NS of the stamp. -/
def State.ctrlFrame (s : State) (p sub : Nat) (f : EthFrame) : State :=
  if ¬ s.flag F.NET_PORT_CTRLQ_CTRLQ_EN p then s.count F.NET_CTRLQ_DROP_CTRLQ_DROP 1 p
  else
    let q := s.get F.NET_PORT_CTRLQ_QUEUE p
    match s.queue q with
    | none => s
    | some x =>
      if x.ent.dataSize < f.bytes.length then s.count F.NET_RX_SIZE_ERR_RX_SIZE_ERR 1 p
      else
        let base : Int := match f.body, s.portDom p with
          | .ptp .., some d => (s.tbu.dom d).counter.units
          | _, _ => s.activeUnits
        let (t, s) := s.stampOf base p sub .rx
        let (a, s) := s.freshNat
        let (b, s) := s.freshNat
        let (c, s) := s.freshNat
        let (sl, s) := s.freshNat
        let (st, s) := s.freshNat
        let (sy, s) := s.freshNat
        s.netOffer q ⟨sy % 32, st % 2 ^ 16, sl % 2 ^ 32, f.bytes.length, false, 0, 0, 0,
          netFields (List.replicate 36 0) (a % 2 ^ 28) (b % 2 ^ 27) t.ns (c % 256 + 2 * 256), f.bytes, none⟩

/-- A received PFC frame (R350). -/
def State.pfcFrame (s : State) (p enable : Nat) (times : List Nat) : State :=
  if s.flag F.NET_PORT_CTRL_PFC_RX_EN p then
    let on := (List.range 8).filter (fun i => enable.testBit i && times.getD i 0 ≠ 0)
    let off := (List.range 8).filter (fun i => enable.testBit i && times.getD i 0 = 0)
    (s.count F.NET_PFC_RX_PFC_RX 1 p).upNet p (fun c =>
      { c with paused := (c.paused.filter (fun i => decide (i ∉ off ∧ i ∉ on))) ++ on })
  else s.count F.NET_RX_PAUSE_RX_PAUSE 1 p

/-- Steps 7 and 8 of Table 12-5. -/
def State.classify (s : State) (p sub : Nat) (f : EthFrame) (disagree : Nat) (erased : List Nat) : State :=
  match f.body with
  | .ecpri ms => s.fronthaul p sub f ms disagree erased
  | _ => s.ctrlFrame p sub f

/-- Steps 3 to 8 of Table 12-5. -/
def State.frameIn (s : State) (p sub : Nat) (f : EthFrame) (disagree : Nat) (erased : List Nat) : State :=
  let sec := s.flag F.NET_PORT_CTRL_MACSEC_EN p
  if f.secured then
    if sec then (if f.valid then s.classify p sub f disagree erased else s.count F.NET_MACSEC_DROP_MACSEC_DROP 1 p)
    else s.ctrlFrame p sub f
  else
    match f.body with
    | .pfc e ts => s.pfcFrame p e.toNat ts
    | .pause => s.count F.NET_RX_PAUSE_RX_PAUSE 1 p
    | b => if sec ∧ ¬ s.bypassed p b then s.count F.NET_MACSEC_DROP_MACSEC_DROP 1 p else s.classify p sub f disagree erased

/-- A frame arrives on an UP port (R348, R349); in LISTEN only a wake frame counts, and nothing is delivered (R444). -/
def State.frame (s : State) (p sub : Nat) (f : EthFrame) (fcsOk : Bool) (disagree : Nat) (erased : List Nat) : State :=
  let s := s.count F.NET_RX_FRAMES_RX_FRAMES 1 p
  let s := match f.body with
    | .ptp m d q _ => if f.secured then s else s.ptpStamp p sub .rx m d q
    | _ => s
  let listen := decide (s.domState (64 + p) = 3)
  if f.length < 64 ∨ s.get F.NET_PORT_FRAME_MAX_FRAME p < f.length then s.count F.NET_RX_SIZE_ERR_RX_SIZE_ERR 1 p
  else if ¬ fcsOk then s.count F.NET_RX_FCS_ERR_RX_FCS_ERR 1 p
  else if ¬ s.macOk p f.dest then s.count F.NET_RX_FILTER_RX_FILTER 1 p
  else
    let s := if f.secured = false ∧ f.body = .other 0x0842 then s.upLane p (fun l => { l with wakes := l.wakes + 1 }) else s
    if listen then s else s.frameIn p sub f disagree erased

/-! ### Transmission (R359, R360) -/

/-- The items of the queues that a port's transmit path consumes. -/
def State.txQueues (s : State) (p : Nat) : List Nat :=
  (s.sq.queues.filter (fun x => x.2.ent.consumer = 1 && x.2.ent.port = p)).map (·.1)

/-- The bytes of a raw frame or buffer read as a big-endian number. -/
def beNat (bs : List Byte) : Nat := bs.foldl (fun a b => a * 256 + b.toNat) 0

/-- The offset of the EtherType of a frame after at most one tag. -/
def etherAt (bs : List Byte) : Nat :=
  let t := beNat ((bs.drop 12).take 2)
  if t = 0x8100 ∨ t = 0x88A8 then 16 else 12

/-- The offset of the PTP message in a frame, over Ethernet or UDP port 319 (Table 2-3). -/
def ptpAt (bs : List Byte) : Option Nat :=
  let a := etherAt bs
  let t := beNat ((bs.drop a).take 2)
  if t = 0x88F7 then some (a + 2)
  else if t = 0x0800 then
    let u := a + 2 + (beNat ((bs.drop (a + 2)).take 1)) % 16 * 4
    if beNat ((bs.drop (a + 11)).take 1) = 17 ∧ beNat ((bs.drop (u + 2)).take 2) = 319 then some (u + 8) else none
  else if t = 0x86DD then
    if beNat ((bs.drop (a + 8)).take 1) = 17 ∧ beNat ((bs.drop (a + 44)).take 2) = 319 then some (a + 50) else none
  else none

/-- A head item of a transmit queue as the transmit path sees it. -/
structure TxHead where
  queue : Nat
  item : QItem
  plane : Nat
  header : List Nat
  entry : Option (Nat × List Nat)
  /-- Priority of its frame. -/
  prio : Nat
  /-- Length of its frame with FCS. -/
  length : Nat
  /-- Opening and closing of its window in thousandths of exact units; none for PLANE 2. -/
  window : Option (Int × Int)
  deriving DecidableEq, Repr

/-- The length of the frame of an item (R348): Ethernet header, tag, eCPRI and application headers, and FCS around the payload.  The
size of compressed IQ data follows from its sections, whose layout is the O-RAN specification's (log entry 12). -/
def txLength (plane len comp : Nat) (tagged : Bool) : Nat :=
  let tag := if tagged then 4 else 0
  if plane = 2 then len + 4
  else if plane = 1 then len + 26 + tag
  else if compMethod comp = 0 ∧ compWidth comp = 16 then len + 30 + tag
  else Config.openNat [40, len, comp] + 30 + tag

/-- Read the head item of a transmit queue (Table 12-8, R359). -/
def State.txHead (s : State) (p q : Nat) : Option TxHead :=
  match s.queue q, s.queueHead q with
  | some x, some i =>
    if i.gap then none
    else
      let h := s.words i.addr 8
      let plane := natBits (h.headD 0) 0 2
      let eaxc := natBits (h.headD 0) 16 16
      let slotW := h.getD 1 0
      let sym := natBits (h.getD 2 0) 0 4
      let len := h.getD 3 0
      let entry := if plane < 2 then s.lutTx p plane eaxc else none
      let tagged := match entry with
        | some (_, w) => (w.headD 0).testBit 3
        | none => false
      let raw := s.bytes (i.addr + 32) 18
      let prio := match entry with
        | some (_, w) => natBits (w.headD 0) 4 3
        | none => if etherAt raw = 16 then beNat ((raw.drop 14).take 2) / 2 ^ 13 else 0
      let window := if plane < 2 then (s.tl x.ent.tl).map (fun t =>
          let n := t.ent.num
          let slot := n.slotOfWord slotW (s.coordNow t).slot
          let start := qUnair t.ent (slot * n.qSlot + n.qSymStart slot sym) + t.delay (natBits (h.getD 4 0) 0 9) * qSub
          let cp : Int := if plane = 1 then s.get F.NET_FH_CP_EXTRA_CP_EXTRA_NS p else 0
          ((start - (s.get F.NET_FH_TX_MAX_TX_ADV_MAX_NS p + cp) * qNs) * 1000,
           (start - (s.get F.NET_FH_TX_MIN_TX_ADV_MIN_NS p + cp) * qNs) * 1000))
        else none
      some ⟨q, i, plane, h, entry, prio, txLength plane len (natBits (h.getD 2 0) 8 8) tagged, window⟩
  | _, _ => none

/-- Consume and free a head item. -/
def State.txFree (s : State) (h : TxHead) : State := (s.queueHold h.queue h.item.place).queueFree h.queue h.item.place

/-- Discard the head items of a queue that can never be sent, counted as NET_TX_BAD or NET_TX_NOMATCH (R348, R355, Table 12-8); GAP
markers are passed over (R322).  Fuel bounds how many. -/
def State.txPurge (s : State) (p q : Nat) : Nat → State
  | 0 => s
  | n + 1 =>
    let s := s.gapSkip q (s.queueCount q)
    match s.txHead p q with
    | none => s
    | some h =>
      if h.plane = 3 ∨ s.get F.NET_PORT_FRAME_MAX_FRAME p < h.length then
        ((s.count F.NET_TX_BAD_TX_BAD 1 p).txFree h).txPurge p q n
      else if h.plane < 2 ∧ (h.entry.isNone ∨ h.window.isNone) then ((s.count F.NET_TX_NOMATCH_TX_NOMATCH 1 p).txFree h).txPurge p q n
      else s

/-- Is a head item due at a stamp: its window open and not closed, its priority not paused (R350, R359, R360)? -/
def State.txDue (s : State) (p : Nat) (stamp : Int) (h : TxHead) : Bool :=
  decide (h.prio ∉ (s.netPort p).paused) && (match h.window with
    | some (o, c) => decide (o ≤ stamp ∧ stamp ≤ c)
    | none => true)

/-- Does head a go before head b: the one whose window closes first, then the lower queue; items without a window go last (R360)? -/
def TxHead.before (a b : TxHead) : Bool :=
  match a.window, b.window with
  | some x, some y => decide (x.2 < y.2 ∨ (x.2 = y.2 ∧ a.queue < b.queue))
  | some _, none => true
  | none, some _ => false
  | none, none => decide (a.queue < b.queue)

/-- The head that goes first. -/
def txBest (l : List TxHead) : Option TxHead :=
  l.foldl (fun b h => match b with
    | none => some h
    | some x => some (if h.before x then h else x)) none

/-- Protect a frame with the transmit SA installed last (R353). -/
def State.macsecTx (s : State) (p : Nat) (protect : Bool) : Option Nat × State :=
  if ¬ protect then (none, s)
  else
    let c := s.netPort p
    match Tab.find c.sas c.txSa with
    | none => (some 0, s)
    | some a => (some a.pn, s.upNet p (fun c => { c with sas := Tab.set c.sas c.txSa { a with pn := a.pn + 1 } }))

/-- Build and send the frame of a head item (R59, R351, R354, R360). -/
def State.txSend (s : State) (p sub : Nat) (h : TxHead) : State :=
  let bs := s.bytes (h.item.addr + 32) (h.header.getD 3 0)
  let ptp := if h.plane = 2 then ptpAt bs else none
  let et := if h.plane = 2 then beNat ((bs.drop (etherAt bs)).take 2) else 0xAEFE
  let protect := s.flag F.NET_PORT_CTRL_MACSEC_EN p &&
    !(List.range 4).any (fun i => s.get F.NET_MACSEC_BYPASS_ETYPE p i ≠ 0 && s.get F.NET_MACSEC_BYPASS_ETYPE p i = et) &&
    !(s.flag F.NET_PORT_CTRL_PTP_BYPASS p && ptp.isSome)
  let sync := match ptp with
    | some a => decide ((beNat ((bs.drop a).take 1)) % 16 = 0)
    | none => false
  let (origin, s) := match s.portDom p with
    | some d => if sync && s.flag F.TBU_PORT_CFG_ONE_STEP 0 p && !protect then
        let (t, s) := s.stampOf (s.tbu.dom d).counter.units p sub .tx
        (some t, s)
      else (none, s)
    | none => (none, s)
  let s := match ptp with
    | some a => s.ptpStamp p sub .tx ((beNat ((bs.drop a).take 1)) % 16) (beNat ((bs.drop (a + 4)).take 1)) (beNat ((bs.drop (a + 30)).take 2))
    | none => s
  let (pn, s) := s.macsecTx p protect
  let (seq, s) := match h.entry with
    | some (i, _) =>
      let n := Tab.get 0 (s.netPort p).txSeq i
      (n, s.upNet p (fun c => { c with txSeq := Tab.set c.txSeq i ((n + 1) % 256) }))
    | none => (0, s)
  let dest := match h.entry with
    | some (_, w) => lutPeer w
    | none => beNat (bs.take 6)
  let tag := match h.entry with
    | some (_, w) => if (w.headD 0).testBit 3 then
        some (if s.flag F.NET_PORT_FRAME_TX_TPID p then 0x88A8 else 0x8100, natBits (w.headD 0) 4 3, natBits (w.headD 0) 8 12)
      else none
    | none => none
  let s := s.send (.frame p ⟨h.queue, h.header, bs, dest, tag, seq, origin, pn⟩)
  (s.count F.NET_TX_FRAMES_TX_FRAMES 1 p).txFree h

/-- Discard the head of each queue of a port that is not UP (R340). -/
def State.txDown (s : State) (p : Nat) : State :=
  (s.txQueues p).foldl (fun s q =>
    let s := s.gapSkip q (s.queueCount q)
    match s.queueHead q with
    | some i => ((s.count F.NET_TX_DOWN_DROP_TX_DOWN_DROP 1 p).queueHold q i.place).queueFree q i.place
    | none => s) s

/-- Send the due head item that goes first (R360); the FCE of the packet's turn compresses prbs PRBs. -/
def State.txItem (s : State) (p sub prbs disagree erased : Nat) : State :=
  if ¬ s.netUp p then s.txDown p
  else
    let s := (s.txQueues p).foldl (fun s q => s.txPurge p q (s.queueCount q)) s
    let stamp := s.stamp1000 p sub .tx
    match txBest (((s.txQueues p).filterMap (s.txHead p)).filter (s.txDue p stamp)) with
    | none => s
    | some h =>
      let lanes := s.netLanes p
      let r := (s.netPort p).rr
      let s := if h.plane = 0 ∧ prbs ≠ 0 then
          (s.upNet p (fun c => { c with rr := (r + 1) % max 1 lanes.length })).fceCount (lanes.getD r p) prbs disagree erased
        else s
      s.txSend p sub h

/-- Discard the head item of a queue whose window has closed (R359). -/
def State.txLate (s : State) (p q sub : Nat) : State :=
  let s := if q ∈ s.txQueues p then s.txPurge p q (s.queueCount q) else s
  match s.txHead p q with
  | none => s
  | some h =>
    match h.window with
    | some (_, c) => if q ∈ s.txQueues p ∧ s.netUp p ∧ c < s.stamp1000 p sub .tx then (s.count F.NET_TX_LATE_TX_LATE 1 p).txFree h else s
    | none => s

/-! ### Lane tests (R361 to R363) -/

/-- A write of NET_LANE_PRBS_CTRL: it starts a test only on a lane whose port has EN = 0 (R362), with a pattern that its mode has
(R361); reserved codes leave their field (R558). -/
def State.prbsCtrl (s : State) (n : Nat) (v : Word) : State :=
  let gen := v.bits 0 1
  let chk := v.bits 1 1
  let pat := v.bits 2 3
  let loop := v.bits 5 2
  let starts := gen = 1 || chk = 1 || (loop = 1 || loop = 2)
  let live := match s.portOfLane n with
    | some p => s.flag F.NET_PORT_CTRL_EN p
    | none => false
  let nrz := match s.portOfLane n with
    | some p => modeNrz (s.netMode p)
    | none => false
  if live && starts then s.set F.NET_LANE_STATUS_BUSY n
  else if nrz && (pat = 5 || pat = 6) then s.set F.NET_LANE_STATUS_PAT_REFUSED n
  else
    let was := s.flag F.NET_LANE_PRBS_CTRL_CHK_EN n
    let s := s.putAll n 0 [(F.NET_LANE_PRBS_CTRL_GEN_EN, gen), (F.NET_LANE_PRBS_CTRL_CHK_EN, chk),
      (F.NET_LANE_PRBS_CTRL_INJ_LEN, v.bits 9 6)]
    let s := if pat = 7 then s else s.put F.NET_LANE_PRBS_CTRL_PATTERN pat n
    let s := if loop = 3 then s else s.put F.NET_LANE_PRBS_CTRL_LOOP loop n
    let s := if v.bits 7 2 = 3 then s else s.put F.NET_LANE_PRBS_CTRL_INJ_KIND (v.bits 7 2) n
    let s := if v.bits 31 1 = 1 then s.set F.NET_LANE_PRBS_CTRL_INJ n else s
    if chk = 0 ∨ ¬ was then s.clr F.NET_LANE_PRBS_STATUS_LOCK n else s

/-- Inject an error (R363); hardware clears INJ after use. -/
def State.prbsInject (s : State) (n : Nat) : State :=
  if s.flag F.NET_LANE_PRBS_CTRL_INJ n ∧ s.flag F.NET_LANE_PRBS_CTRL_GEN_EN n then
    (s.clr F.NET_LANE_PRBS_CTRL_INJ n).send (.prbsError n (s.get F.NET_LANE_PRBS_CTRL_INJ_KIND n) (s.get F.NET_LANE_PRBS_CTRL_INJ_LEN n + 1))
  else s

/-- The 48-bit count of checked bits. -/
def State.prbsBits (s : State) (n k : Nat) : State :=
  let b := satAdd (2 ^ 48 - 1) (s.get F.NET_LANE_PRBS_BITS_LO_BITS n + s.get F.NET_LANE_PRBS_BITS_HI_BITS n * 2 ^ 32) k
  (s.put F.NET_LANE_PRBS_BITS_LO_BITS (b % 2 ^ 32) n).put F.NET_LANE_PRBS_BITS_HI_BITS (b / 2 ^ 32) n

/-- The checker counts what it checked while locked, and locks or loses lock (R363). -/
def State.prbsLock (s : State) (n : Nat) (lock : Bool) (bits errors : Nat) : State :=
  if ¬ s.flag F.NET_LANE_PRBS_CTRL_CHK_EN n then s
  else
    let was := s.flag F.NET_LANE_PRBS_STATUS_LOCK n
    let s := if was then (s.prbsBits n bits).count F.NET_LANE_PRBS_ERR_ERR errors n else s
    let s := if was && !lock then s.set F.NET_LANE_PRBS_STATUS_LOCK_LOST n else s
    s.setTo F.NET_LANE_PRBS_STATUS_LOCK lock n

/-! ### The rows -/

/-- NET_GROUP_APPLY (R337). -/
def execNetGroupApply (g : Fin 8) (s : State) : Host.Outcome State Fault Refusal := .next (s.groupApply g)

/-- PORT_ENABLE (R339). -/
def execPortEnable (port : Fin 32) (s : State) : Host.Outcome State Fault Refusal := .next (s.netEnable port)

/-- AUTONEG_COMPLETE (R338, R339). -/
def execAutonegComplete (port : Fin 32) (fallback : Option (Fin 4)) (s : State) : Host.Outcome State Fault Refusal :=
  .next (s.autoneg port (fallback.map (·.val)))

/-- LINK_TRAINING_COMPLETE (R339, R341, R346). -/
def execLinkTrainingComplete (port : Fin 32) (polarity : BitVec 4) (ffe : List (BitVec 24)) (s : State) :
    Host.Outcome State Fault Refusal := .next (s.trained port polarity.toNat ffe)

/-- PCS_LOCK (R339). -/
def execPcsLock (port : Fin 32) (laneMap : BitVec 8) (s : State) : Host.Outcome State Fault Refusal := .next (s.pcsLock port laneMap.toNat)

/-- ATTEMPT_FAIL (R339). -/
def execAttemptFail (port : Fin 32) (s : State) : Host.Outcome State Fault Refusal := .next (s.attemptFail port)

/-- NOPARTNER_RETRY (R339). -/
def execNopartnerRetry (port : Fin 32) (s : State) : Host.Outcome State Fault Refusal :=
  .next (if s.get F.NET_PORT_STATUS_STATE port = 3 ∧ (s.netPort port).stage = 0 then s.netStart port else s)

/-- LINK_FAIL (R340). -/
def execLinkFail (port : Fin 32) (s : State) : Host.Outcome State Fault Refusal := .next (s.linkFail port)

/-- POLARITY_SEARCH (R341): a lane of a port that does not train is without lock for 4 ms. -/
def execPolaritySearch (lane : Fin 32) (s : State) : Host.Outcome State Fault Refusal :=
  .next (match s.portOfLane lane with
    | some p => if (s.netPort p).stage = 3 ∧ s.get F.NET_PORT_CTRL_PHY p = 1 ∧ ¬ s.flag F.NET_LANE_CTRL_RX_INV_FORCE lane then
        s.put F.NET_LANE_STATUS_RX_INV_DET (1 - s.get F.NET_LANE_STATUS_RX_INV_DET lane) lane
      else s
    | none => s)

/-- ADAPTATION_UPDATE (R343, R345). -/
def execAdaptationUpdate (lane : Fin 32) (delta : List Int) (s : State) : Host.Outcome State Fault Refusal := .next (s.adapt lane delta)

/-- ADAPTATION_FREEZE (R344): which conditions hold from now on, none for the end of the freeze, and the microseconds frozen since the
last such event.  Low-power idle counts only with LPI_EN = 1. -/
def execAdaptationFreeze (lane : Fin 32) (lpi density : Bool) (us : Nat) (s : State) : Host.Outcome State Fault Refusal :=
  .next (
    let l := lpi && (match s.portOfLane lane with
      | some p => s.flag F.NET_PORT_CTRL_LPI_EN p
      | none => false)
    let s := if s.flag F.NET_LANE_STATUS_FROZEN lane then s.count F.NET_LANE_FROZEN_US_FROZEN_US us lane else s
    s.putAll lane 0 [(F.NET_LANE_STATUS_FROZEN, if l || density || s.domState (64 + lane.val) = 3 then 1 else 0),
      (F.NET_LANE_STATUS_FREEZE_CAUSE, (if l then 1 else 0) + (if density then 2 else 0))])

/-- FRAME_RECEIVE (R348 to R359): the FEC codewords since the last frame, with the symbols corrected and the codewords that were not,
come with it. -/
def execFrameReceive (port : Fin 32) (frame : EthFrame) (fcsOk : Bool) (sub : Fin 26) (codewords corrected uncorrected : Nat)
    (disagree : Nat) (erased : List Nat) (s : State) : Host.Outcome State Fault Refusal :=
  .next (if s.netUp port ∧ s.domState (64 + port.val) ≠ 5 then
    let s := ((s.count F.NET_FEC_CW_FEC_CW codewords port).count F.NET_FEC_CORR_SYM_FEC_CORR_SYM corrected port).count
      F.NET_FEC_UNCORR_FEC_UNCORR uncorrected port
    s.frame port sub frame fcsOk disagree erased
  else s)

/-- PFC_PAUSE_EXPIRY (R350). -/
def execPfcPauseExpiry (port : Fin 32) (prio : Fin 8) (s : State) : Host.Outcome State Fault Refusal :=
  .next (s.upNet port (fun c => { c with paused := c.paused.filter (· ≠ prio.val) }))

/-- TX_ITEM_SEND (R340, R360). -/
def execTxItemSend (port : Fin 32) (sub : Fin 26) (prbs disagree erased : Nat) (s : State) : Host.Outcome State Fault Refusal :=
  .next (s.txItem port sub prbs disagree erased)

/-- TX_LATE_DISCARD (R359). -/
def execTxLateDiscard (port : Fin 32) (q : BitVec 10) (sub : Fin 26) (s : State) : Host.Outcome State Fault Refusal :=
  .next (s.txLate port q.toNat sub)

/-- FH_RELOAD (R355). -/
def execFhReload (port : Fin 32) (s : State) : Host.Outcome State Fault Refusal := .next (s.lutCopy port)

/-- MACSEC_SA_INSTALL (R353): the key registers, and the SCI and packet number of Steol's SA block. -/
def execMacsecSaInstall (port : Fin 32) (sci pn : BitVec 64) (s : State) : Host.Outcome State Fault Refusal :=
  .next (let sa := s.get F.NET_MACSEC_SA_SEL_SA port
    if sa < 18 then
      let key := (List.range 8).map (fun i => s.get F.NET_MACSEC_KEY_KEY port i)
      s.upNet port (fun c => { c with sas := Tab.set c.sas sa ⟨key, sci.toNat, pn.toNat⟩, txSa := if sa < 2 then sa else c.txSa })
    else s)

/-- PRBS_CTRL_WRITE (R361, R362). -/
def execPrbsCtrlWrite (lane : Fin 32) (value : Word) (s : State) : Host.Outcome State Fault Refusal := .next (s.prbsCtrl lane value)

/-- PRBS_INJECT (R363). -/
def execPrbsInject (lane : Fin 32) (s : State) : Host.Outcome State Fault Refusal := .next (s.prbsInject lane)

/-- PRBS_LOCK (R363). -/
def execPrbsLock (lane : Fin 32) (lock : Bool) (bits errors : Nat) (s : State) : Host.Outcome State Fault Refusal :=
  .next (s.prbsLock lane lock bits errors)

end Sys2Proof.Machine
end

