-- ==== Sys2Proof/Machine/Power.lean ====
section
/-!
DEFINITION. Sys2Proof/Machine/Power.lean: entries, abort points and wakes of the power domains (R449 to R451), the retention check
(R456, R457), auto-doze (R443), HIBERNATE and the wake from it (R452, R453).
-/
namespace Sys2Proof.Machine

/-! ### What a domain loses -/

/-- Memory without the bytes from a on, n of them: they read 0 with valid check bits (R271). -/
def State.zeroRange (s : State) (a n : Nat) : State :=
  let s := { s with mem := s.mem.filter (fun c => decide (c.1 < a ∨ a + n ≤ c.1)) }
  s.setMemx { s.memx with chk := s.memx.chk.filter (fun c => decide (c.1 + 64 ≤ a ∨ a + n ≤ c.1)) }

/-- Copy n bytes from src over zeroed memory at dst. -/
def State.copyRange (s : State) (src dst n : Nat) : State :=
  (s.mem.filter (fun c => decide (src ≤ c.1 ∧ c.1 < src + n))).foldl
    (fun s c => { s with mem := Memory.write s.mem (c.1 - src + dst) c.2 }) (s.zeroRange dst n)

/-- Base of retention bank b of cluster c (R456). -/
def bankBase (c b : Nat) : Nat :=
  0x20000000 + c * 0x1000000 + (if b < 16 then b * 0x80000 else 0x800000 + (b - 16) * 0x80000)

/-- Size of a retention bank. -/
def bankSize : Nat := 0x80000

/-- The retention banks of a cluster. -/
def bankIds : List Nat := List.range 25

/-- Does a register page lie in a cluster or row domain (R555)? -/
def State.pageIn (s : State) (d : Nat) (k : RegKey) : Bool :=
  match k.reg.place.block with
  | .MXC | .BMV => decide (d < 24 ∧ k.inst = d)
  | .VSC => decide (d < 24 ∧ vscCluster k.inst = d)
  | .ENG => decide (24 ≤ d) && s.engRow (engClass k.inst) (engLocal k.inst) = d - 24
  | _ => false

/-- The engine instances whose page lies in a row. -/
def State.rowEngines (s : State) (d : Nat) : List Nat :=
  (List.range 172).filter (fun i => s.engRow (engClass i) (engLocal i) = d - 24)

/-- A cluster or row is power-gated: its registers take their reset values and its logic loses its state (R555, Table 15-3). -/
def State.domReset (s : State) (d : Nat) : State :=
  let es := if d < 24 then [] else s.rowEngines d
  let s := { s with regs := s.regs.filter (fun x => !s.pageIn d x.1) }
  if d < 24 then
    s.setExu { s.exu with
      vsc := s.exu.vsc.filter (fun x => vscCluster x.1 ≠ d)
      icache := s.exu.icache.filter (fun x => vscCluster x.1 ≠ d)
      mxc := Tab.erase s.exu.mxc d
      bmv := s.exu.bmv.filter (fun x => x.1.1 ≠ d)
      bmvMap := Tab.erase s.exu.bmvMap d }
  else s.setExu { s.exu with jobs := s.exu.jobs.filter (fun x => x.1 ∉ es), mapPhys := s.exu.mapPhys.filter (fun x => x.1 ∉ es) }

/-- The signatures of a cluster are discarded. -/
def State.sigDrop (s : State) (c : Nat) : State := s.setPwr { s.pwr with sigs := s.pwr.sigs.filter (fun x => x.1.1 ≠ c) }

/-- Step 3 of Table 15-3: each retained bank computes its signature (R456, R457); 2^32 stands for an uncorrectable error met in it. -/
def State.sigTake (s : State) (c : Nat) : State :=
  let banks := bankIds.filter (fun b => (s.get F.PWR_DOM_RETAIN_RETAIN 0 c).testBit b)
  banks.foldl (fun s b =>
    let (bad, s) := s.load (bankBase c b) bankSize
    let sig := if bad then 2 ^ 32 else crc32 (s.bytes (bankBase c b) bankSize)
    s.setPwr { s.pwr with sigs := Tab.set s.pwr.sigs (c, b) sig }) s

/-- A stack is powered off: contents and readiness are lost (R272). -/
def State.stackOff (s : State) (st : Nat) : State :=
  let s := s.zeroRange (hbmBase + st * 0x900000000) 0x900000000
  let s := (s.putAll st 0 [(F.MEM_READY_LO_READY, 0), (F.MEM_READY_HI_READY, 0), (F.MEM_STATUS_TRAINED, 0), (F.MEM_STATUS_INIT_DONE, 0)])
  s.setMemx { s.memx with prio := Tab.erase s.memx.prio st, paused := Tab.erase s.memx.paused st }

/-! ### Ends of entries (R449) -/

/-- An entry of domain d into state t is complete (R449): the domain's state and its loss, and the pending request starts (R450). -/
def State.pwrEntered (s : State) (d t : Nat) : State :=
  let s := (s.pwrSettle d t).count F.PWR_DOM_ENTRIES_ENTRIES 1 0 d
  let s := if domCore d ∧ 3 ≤ t then s.domReset d else s
  let s := if d < 24 ∧ t = 5 then s.sigDrop d else s
  let s := if 64 ≤ d ∧ d < 96 ∧ t = 3 then s.set F.NET_LANE_STATUS_FROZEN (d - 64) else s
  let s := if 96 ≤ d ∧ d < 112 ∧ t = 3 then s.cplSend (d - 96) .quietEnter else s
  let s := if 128 ≤ d ∧ d < 132 ∧ t = 5 then s.stackOff (d - 128) else s
  s.pwrResume d

/-- An entry is abandoned at an abort point (R450): the domain continues in its origin. -/
def State.pwrAbandon (s : State) (d : Nat) : State :=
  let s := (s.putAll 0 d [(F.PWR_DOM_STATE_TARGET, 0), (F.PWR_DOM_STATE_ENTERING, 0), (F.PWR_DOM_STATE_STEP, 0)]).count
    F.PWR_DOM_ABANDONED_ABANDONED 1 0 d
  let s := if d < 24 then s.sigDrop d else s
  let s := s.setPwr { s.pwr with autoEntry := s.pwr.autoEntry.filter (· ≠ d) }
  if s.get F.PWR_DOM_STATE_PENDING 0 d = s.domState d then
    s.putAll 0 d [(F.PWR_DOM_STATE_PENDING_VALID, 0), (F.PWR_DOM_STATE_PENDING, 0)]
  else s.pwrResume d

/-- Is the pending target at or shallower than the origin of the entry (R450)? -/
def State.pwrOvertaken (s : State) (d : Nat) : Bool :=
  s.flag F.PWR_DOM_STATE_PENDING_VALID 0 d && decide (s.get F.PWR_DOM_STATE_PENDING 0 d ≤ s.domState d)

/-- The step after step k of an entry of a cluster or row into t (R449, Table 15-3); none after the last. -/
def nextStep (d origin t k : Nat) : Option Nat :=
  if ¬ domCore d ∨ origin = 3 then none
  else if k = 1 then some 2
  else if k = 2 then (if t = 2 then none else if d < 24 ∧ t = 3 then some 3 else some 4)
  else if k < 6 then some (k + 1)
  else none

/-- The present step of an entry ends (R449, R450). -/
def State.pwrStepEnd (s : State) (d : Nat) : State :=
  let k := s.get F.PWR_DOM_STATE_STEP 0 d
  let t := s.get F.PWR_DOM_STATE_TARGET 0 d
  let s := if k = 3 ∧ d < 24 ∧ s.domState d ≠ 3 then s.sigTake d else s
  if domCore d ∧ (k = 1 ∨ k = 3 ∨ k = 5) ∧ s.pwrOvertaken d then s.pwrAbandon d
  else match nextStep d (s.domState d) t k with
    | some k' => s.put F.PWR_DOM_STATE_STEP k' 0 d
    | none => s.pwrEntered d t

/-! ### Wakes (R451) -/

/-- Load a retention bank from the source that POWER_POLICY named (R456); a bank with no source keeps its zeros. -/
def State.bankLoad (s : State) (c b : Nat) : State :=
  match Tab.find s.pwr.sources (c, b) with
  | some (src, _) => s.copyRange src (bankBase c b) bankSize
  | none => s

/-- A retained bank was lost (R457): PWR_RET_LOST, cancels for the templates that rely on it, reload from its source, and a record.
The templates are blocked until the reload, which ends within this step. -/
def State.bankLost (s : State) (c b : Nat) : State :=
  let s := s.zeroRange (bankBase c b) bankSize
  let s := s.put F.PWR_RET_LOST_RET_LOST (s.get F.PWR_RET_LOST_RET_LOST 0 c ||| 2 ^ b) 0 c
  let tpls : List Nat := match Tab.find s.pwr.sources (c, b) with
    | some (_, ts) => ts
    | none => []
  let was := tpls.map (fun t => (t, s.tplBlocked t))
  let s := tpls.foldl (fun s t => s.tplBlock t true) s
  let live : List Nat := (s.gdx.insts.filter (fun i => decide (i.2.tpl.id ∈ tpls))).map (fun i => i.1)
  let s := if live.isEmpty then s else (live.foldl (fun s i => s.cancel (some i)) s.gdxCycle).gdxSettle
  let s := s.bankLoad c b
  let s := was.foldl (fun s x => s.tplBlock x.1 x.2) s
  s.report ⟨13, 1, 1, c, b, 0⟩

/-- The banks of a cluster wake (R451, R457): from SLEEP the retained ones are checked and the others zeroed; from OFF all are zeroed
and loaded from their sources (R456).  A signature read of the banks in bad found an uncorrectable error. -/
def State.banksWake (s : State) (c origin : Nat) (bad : List Nat) : State :=
  let kept := if origin = 3 then bankIds.filter (fun b => (Tab.find s.pwr.sigs (c, b)).isSome) else []
  let s := (bankIds.filter (· ∉ kept)).foldl (fun s b => s.zeroRange (bankBase c b) bankSize) s
  let s := kept.foldl (fun s b =>
    if b ∉ bad ∧ Tab.find s.pwr.sigs (c, b) = some (crc32 (s.bytes (bankBase c b) bankSize)) then s else s.bankLost c b) s
  let s := if origin = 3 then s else bankIds.foldl (fun s b => s.bankLoad c b) (s.applyRepairs (fun m => Config.macroCluster m = c))
  s.sigDrop c

/-- A domain reset of d ends with its wake (R509). -/
def State.rstDone (s : State) (d : Nat) : State :=
  if s.pwr.rstDom = some d then (s.setPwr { s.pwr with rstDom := none }).clr F.RST_DOMAIN_STATUS_BUSY else s

/-- A wake of domain d is complete (R451, Table 13-8). -/
def State.pwrWoken (s : State) (d : Nat) (bad : List Nat) : State :=
  let origin := s.domState d
  let s := (s.pwrSettle d (s.get F.PWR_DOM_STATE_TARGET 0 d)).count F.PWR_DOM_WAKES_WAKES 1 0 d
  let s := if d < 24 ∧ 3 ≤ origin then s.banksWake d origin bad else s
  let s := if domCore d then s.setPwr { s.pwr with dozedFrom := Tab.erase s.pwr.dozedFrom d } else s
  let s := if 64 ≤ d ∧ d < 96 ∧ origin = 3 ∧ s.get F.NET_LANE_STATUS_FREEZE_CAUSE (d - 64) = 0 then
      s.clr F.NET_LANE_STATUS_FROZEN (d - 64) else s
  let s :=
    if 96 ≤ d ∧ d < 128 then
      let p := d % 16
      if origin = 5 then ((s.cplState p 1).cplStop p).cplTrain p else s.cplDelay p
    else s
  let s := if 128 ≤ d ∧ d < 132 then s.memResume else s
  (s.rstDone d).pwrResume d

/-! ### HIBERNATE (R452, R453) -/

/-- ALERT_N follows its causes (R545): an asserted alert rule, an asserted thermal rule in HIBERNATE (R460), a failed wake, the
power-up lockout, and a power fault until the next successful power-up. -/
def State.alertShow (s : State) : State :=
  let rule := (List.range 32).any (fun i => s.flag F.TND_RULE_ACTION_ASSERTED 0 i &&
    (s.get F.TND_RULE_ACTION_KIND 0 i = 2 || (s.get F.TND_RULE_ACTION_KIND 0 i = 3 && s.domState 255 = 4)))
  s.setTo F.TND_STATUS_ALERT (rule || decide (s.pwr.wakeFails ≠ 0) || s.pins.lockout || s.pins.fault)

/-- The domains that step 2 of the chip entry switches. -/
def hibDomains : List Nat := List.range 28 ++ (List.range 96).map (32 + ·)

/-- The network ports that armed wake rules name (R452): wake rules on inputs 0x80 to 0x9F. -/
def State.hibPorts (s : State) (mask : Nat) : List Nat :=
  ((List.range 32).filterMap (fun i =>
    let input := s.get F.TND_RULE_CFG_INPUT 0 i
    if mask.testBit i ∧ s.get F.TND_RULE_ACTION_KIND 0 i = 1 ∧ 0x80 ≤ input ∧ input < 0xA0 then s.portOfLane (input - 0x80)
    else none)).eraseDups

/-- Start the chip entry (R452): arm the rules of the mask; Steol stops serving mailboxes. -/
def State.hibStart (s : State) (mbx seq mask : Nat) : State :=
  let s := ((List.range 32).filter mask.testBit).foldl (fun s i => s.set F.TND_RULE_CFG_EN 0 i) s
  let s := s.setPwr { s.pwr with hib := some ⟨mbx, seq, mask, [], []⟩, wakeFails := 0 }
  let s := s.clr F.MBX_DEV_STATUS_STEOL_READY
  s.putAll 0 255 [(F.PWR_DOM_STATE_TARGET, 4), (F.PWR_DOM_STATE_ENTERING, 1), (F.PWR_DOM_STATE_STEP, 1)]

/-- Step 2: clusters, rows and coupler directions to OFF; receive directions of the named network ports to LISTEN; every other port
with EN = 0 and its directions OFF. -/
def State.hibOff (s : State) (h : Hib) : State :=
  let keep := s.hibPorts h.wakeMask
  let lanes := keep.flatMap s.netLanes
  let ports := (List.range 32).filter (fun p => p ∉ keep && s.flag F.NET_PORT_CTRL_EN p)
  let s := s.setPwr { s.pwr with hib := some { h with doms := hibDomains.map (fun d => (d, s.domState d)), ports := ports } }
  let s := (List.range 28).foldl (fun s d => ((s.pwrSettle d 5).domReset d).sigDrop d) s
  let s := (List.range 16).foldl (fun s p =>
    let s := if s.flag F.CPL_PORT_CTRL_EN p then (s.cplState p 1).cplStop p else s
    (s.pwrSettle (96 + p) 5).pwrSettle (112 + p) 5) s
  let s := ports.foldl (fun s p => s.netDisable p) s
  (List.range 32).foldl (fun s n =>
    if n ∈ lanes then (s.pwrSettle (64 + n) 3).set F.NET_LANE_STATUS_FROZEN n
    else (s.pwrSettle (32 + n) 5).pwrSettle (64 + n) 5) s

/-- Domains wake from the chip entry into the given states: clusters zeroed and loaded (R456), couplers with EN train, the ports whose
EN was cleared start again. -/
def State.hibWake (s : State) (h : Hib) (doms : List (Nat × Nat)) : State :=
  let s := doms.foldl (fun s x =>
    if s.domState x.1 = x.2 then s
    else
      let s := (s.pwrSettle x.1 x.2).count F.PWR_DOM_WAKES_WAKES (if x.2 < 3 then 1 else 0) 0 x.1
      if x.1 < 24 then s.banksWake x.1 5 [] else s) s
  let s := (List.range 32).foldl (fun s n =>
    if s.get F.NET_LANE_STATUS_FREEZE_CAUSE n = 0 ∧ s.domState (64 + n) ≠ 3 then s.clr F.NET_LANE_STATUS_FROZEN n else s) s
  let s := (List.range 16).foldl (fun s p => if s.flag F.CPL_PORT_CTRL_EN p then s.cplTrain p else s) s
  h.ports.foldl (fun s p => s.netEnable p) s

/-- Stacks leave self-refresh. -/
def State.stacksWake (s : State) : State :=
  ([128, 129, 130, 131].foldl (fun s d => if s.domState d = 3 then s.pwrSettle d 0 else s) s).memResume

/-- The chip entry is abandoned (R450, R452): the completed steps are undone, and the command ends with STATE. -/
def State.hibAbandon (s : State) : State :=
  match s.pwr.hib with
  | none => s
  | some h =>
    let s := (s.putAll 0 255 [(F.PWR_DOM_STATE_TARGET, 0), (F.PWR_DOM_STATE_ENTERING, 0), (F.PWR_DOM_STATE_STEP, 0),
      (F.PWR_DOM_STATE_PENDING_VALID, 0), (F.PWR_DOM_STATE_PENDING, 0)]).count F.PWR_DOM_ABANDONED_ABANDONED 1 0 255
    let s := s.stacksWake
    let s := if h.doms = [] then s else s.hibWake h h.doms
    let s := s.setPwr { s.pwr with hib := none }
    (s.set F.MBX_DEV_STATUS_STEOL_READY).event (.completion h.mbx h.seq 0x1B 0 0 0)

/-- A step of the chip entry ends (R452); in BIAS mode there is no step 6. -/
def State.hibStepEnd (s : State) : State :=
  match s.pwr.hib with
  | none => s
  | some h =>
    let k := s.get F.PWR_DOM_STATE_STEP 0 255
    let s := if k = 2 then s.hibOff h
      else if k = 3 then [128, 129, 130, 131].foldl (fun s d => if s.domState d = 0 then s.pwrSettle d 3 else s) s
      else s
    let overtaken := (k = 1 ∨ k = 3 ∨ k = 5) ∧ s.pwrOvertaken 255
    if overtaken then s.hibAbandon
    else if k < 5 ∨ k = 5 ∧ s.get F.PWR_KEEP_MODE = 1 then s.put F.PWR_DOM_STATE_STEP (k + 1) 0 255
    else ((s.pwrSettle 255 4).count F.PWR_DOM_ENTRIES_ENTRIES 1 0 255).pwrResume 255

/-- The chip begins to wake from HIBERNATE by a rule (R453, R460). -/
def State.chipWake (s : State) (rule : Nat) : State :=
  if s.domState 255 = 4 ∧ ¬ s.flag F.PWR_DOM_STATE_WAKING 0 255 then
    let s := s.setPwr { s.pwr with wakeFails := 0 }
    let s := s.putAll 0 0 [(F.TND_STATUS_WAKE_RULE, rule), (F.TND_STATUS_WAKE_VALID, 1)]
    (s.putAll 0 255 [(F.PWR_DOM_STATE_TARGET, 0), (F.PWR_DOM_STATE_WAKING, 1)]).alertShow
  else s

/-- Events held while Steol did not run reach it (R460). -/
def State.heldSend (s : State) : State :=
  s.pwr.held.foldl (fun s i => s.send (.tenderEvent i)) (s.setPwr { s.pwr with held := [] })

/-- The holdover of the active domain in seconds (R73). -/
def State.holdSeconds (s : State) : Nat := (s.tbu.dom s.active).hold / 625000000

/-- The wake from HIBERNATE is complete (Table 15-6). -/
def State.chipWoken (s : State) : State :=
  let h := s.pwr.hib.getD ⟨0, 0, 0, [], []⟩
  let s := (s.pwrSettle 255 0).count F.PWR_DOM_WAKES_WAKES 1 0 255
  let s := s.stacksWake
  let s := s.hibWake h (hibDomains.map (fun d => (d, 0)))
  let s := ((s.setPwr { s.pwr with hib := none, wakeFails := 0 }).set F.MBX_DEV_STATUS_STEOL_READY).heldSend
  let s := s.event (.completion h.mbx h.seq 0 0 (s.get F.TND_STATUS_WAKE_RULE) s.holdSeconds)
  s.alertShow.pwrResume 255

/-- A wake from HIBERNATE fails (R453): one retry, and after the second failure the chip stays in HIBERNATE. -/
def State.chipWakeFail (s : State) : State :=
  if s.domState 255 = 4 ∧ s.flag F.PWR_DOM_STATE_WAKING 0 255 then
    let s := (s.set F.TND_STATUS_WAKE_FAIL).setPwr { s.pwr with wakeFails := s.pwr.wakeFails + 1 }
    let s := if 2 ≤ s.pwr.wakeFails then s.putAll 0 255 [(F.PWR_DOM_STATE_WAKING, 0), (F.PWR_DOM_STATE_TARGET, 0)] else s
    s.alertShow
  else s

/-! ### Auto-doze (R443) -/

/-- Do the conditions of auto-doze hold? -/
def State.mayDoze (s : State) (d : Nat) : Bool :=
  domCore d && decide (s.domState d ≤ 1) && !s.domMoving d && decide (s.get F.PWR_AUTO_DOZE_IDLE_NS ≠ 0) &&
  decide (2 ≤ s.get F.PWR_DOM_POLICY_DEEPEST 0 d) && s.pwrDwelt d &&
  !((List.range 420).any (fun e => s.execBusy e && s.execDomain e = some d)) &&
  decide (s.get F.PWR_AUTO_DOZE_IDLE_NS * 5 ≤ (s.tbu.ticks - Tab.get 0 s.pwr.idle d) * 8)

/-- An idle domain enters DOZE by itself. -/
def State.autoDoze (s : State) (d : Nat) : State :=
  if s.mayDoze d then
    let cur := s.domState d
    let s := s.setPwr { s.pwr with dozedFrom := Tab.set s.pwr.dozedFrom d cur, autoEntry := d :: s.pwr.autoEntry }
    s.pwrEnter d cur 2
  else s

/-- Has a draining domain no run, job or busy block-mover channel left (Table 15-3, step 1)? -/
def State.drained (s : State) (d : Nat) : Bool :=
  !((List.range 420).any (fun e => s.execBusy e && s.execDomain e = some d)) &&
  (decide (24 ≤ d) || (List.range 8).all (fun k => s.bmvState d k = 0))

/-! ### The commands -/

/-- POWER_REQUEST (R447, R448, R450): a write of PWR_REQ with GO. -/
def execPowerRequest (domain : BitVec 8) (target : BitVec 3) (s : State) : Host.Outcome State Fault Refusal :=
  .next ((s.putAll 0 0 [(F.PWR_REQ_DOMAIN, domain.toNat), (F.PWR_REQ_TARGET, target.toNat)]).pwrRequest domain.toNat target.toNat)

/-- AUTO_DOZE (R443). -/
def execAutoDoze (domain : BitVec 8) (s : State) : Host.Outcome State Fault Refusal := .next (s.autoDoze domain.toNat)

/-- DOMAIN_DRAIN_COMPLETE (R449, Table 15-3): step 1 of an entry ends. -/
def execDomainDrainComplete (domain : BitVec 8) (s : State) : Host.Outcome State Fault Refusal :=
  .next (let d := domain.toNat
    if domCore d ∧ s.flag F.PWR_DOM_STATE_ENTERING 0 d ∧ s.get F.PWR_DOM_STATE_STEP 0 d = 1 ∧ s.drained d then s.pwrStepEnd d else s)

/-- ENTRY_STEP_COMPLETE (R449, R450, R452): an entry step other than the drain ends. -/
def execEntryStepComplete (domain : BitVec 8) (s : State) : Host.Outcome State Fault Refusal :=
  .next (let d := domain.toNat
    let k := s.get F.PWR_DOM_STATE_STEP 0 d
    if ¬ s.flag F.PWR_DOM_STATE_ENTERING 0 d ∨ k = 0 then s
    else if d = 255 then s.hibStepEnd
    else if domCore d ∧ k = 1 then s
    else s.pwrStepEnd d)

/-- WAKE_COMPLETE (R445, R451, R453, R457): the bank signature reads that found an uncorrectable error come with it. -/
def execWakeComplete (domain : BitVec 8) (bad : List (Fin 25)) (s : State) : Host.Outcome State Fault Refusal :=
  .next (let d := domain.toNat
    if ¬ s.flag F.PWR_DOM_STATE_WAKING 0 d ∨ s.domState d = 1 then s
    else if d = 255 then s.chipWoken
    else s.pwrWoken d (bad.map Fin.val))

/-- TRIM_CHANGE_COMPLETE (R449): a transition into or out of TRIM completes. -/
def execTrimChangeComplete (domain : BitVec 8) (s : State) : Host.Outcome State Fault Refusal :=
  .next (let d := domain.toNat
    if ¬ domCore d then s
    else if s.flag F.PWR_DOM_STATE_ENTERING 0 d ∧ s.get F.PWR_DOM_STATE_TARGET 0 d = 1 then s.pwrEntered d 1
    else if s.flag F.PWR_DOM_STATE_WAKING 0 d ∧ s.domState d = 1 then s.pwrWoken d []
    else s)

/-- STACK_WAKE_ON_ACCESS (R445): an access to a stack in SLEEP waits and starts its wake. -/
def execStackWakeOnAccess (addr : BitVec 48) (s : State) : Host.Outcome State Fault Refusal :=
  .next (if memKind addr.toNat = some .hbm ∧ s.stackAsleep (stackOf addr.toNat) then s.memWait (.read addr.toNat) else s)

/-- CHIP_WAKE (R453): a wake rule for the chip fires in HIBERNATE. -/
def execChipWake (rule : Fin 32) (s : State) : Host.Outcome State Fault Refusal := .next (s.chipWake rule)

/-- WAKE_FAIL (R453). -/
def execWakeFail (s : State) : Host.Outcome State Fault Refusal := .next s.chipWakeFail

end Sys2Proof.Machine
end

