-- ==== Sys2Proof/Machine/Whs.lean ====
section
/-!
DEFINITION. Sys2Proof/Machine/Whs.lean: the Whistle unit: arming and its refusals (R88, R89, R96, R99), the judging of past occurrences
(R91 to R94, R573), the order and spilling of firings (R21, R90), the actions (R86), and the pin whistles (R95, R96).
-/
namespace Sys2Proof.Machine

/-! ### Instants (R87) -/

/-- What a schedule adds to the start of its coordinate symbol. -/
def Sched.shift (x : Sched) : Int := x.delta * qNs + x.sub100 * q100ps

/-- The instant of the occurrence at coordinate symbol c. -/
def Sched.instant (x : Sched) (t : Timeline) (c : Int) : Int := qUnair t.ent (t.ent.num.qOfSymbol c) + x.shift

/-- The symbol, counted from frame 0, that an active time falls in. -/
def Timeline.symbolAt (t : Timeline) (q : Int) : Int :=
  let c := t.ent.num.coord (qAir t.ent q)
  c.slot * t.ent.num.symbols + c.symbol

/-- The slot of a coordinate symbol. -/
def Timeline.slotOf (t : Timeline) (c : Int) : Int := c / t.ent.num.symbols

/-- The last coordinate symbol whose occurrence would lie at or before an active time. -/
def Sched.upTo (x : Sched) (t : Timeline) (q : Int) : Int := t.symbolAt (q - x.shift)

/-- The coordinates of the schedule from its next one up to symbol c, before FILTER. -/
def Sched.coords (x : Sched) (c : Int) : List Int :=
  if c < x.next then []
  else if x.period = 0 then [x.next]
  else (List.range (((c - x.next) / x.period).toNat + 1)).map (fun (k : Nat) => x.next + (k : Int) * x.period)

/-- The accepted ones among them (R87). -/
def State.occs (s : State) (x : Sched) (t : Timeline) (c : Int) : List Int :=
  (x.coords c).filter (fun k => s.slotMatches t x.filter (t.slotOf k))

/-- The schedule after coordinate c: the next of its coordinates. -/
def Sched.after (x : Sched) (c : Int) : Sched := { x with next := c + x.period }

/-- The schedule after FILTER skipped its coordinates up to c (R87). A skipped one-shot stays armed and fires no more: its filter is 8,
which matches no type of slot. -/
def Sched.skip (x : Sched) (c : Int) : Sched := if x.period = 0 then { x with filter := 8 } else x.after c

/-- The schedule as the active time passes its instants: a coordinate that FILTER does not accept is skipped at its own instant, under
the pattern of that time (R87). -/
def State.passSched (s : State) (x : Sched) (t : Timeline) : Sched :=
  let l := x.coords (x.upTo t s.qActive)
  match l.find? (fun k => s.slotMatches t x.filter (t.slotOf k)), l.getLast? with
  | some k, _ => { x with next := k }
  | none, some c => x.skip c
  | none, none => x

/-- The schedule without the coordinates whose instants lie at or before an active time (R88). -/
def Sched.skipTo (x : Sched) (t : Timeline) (q : Int) : Sched :=
  match (x.coords (x.upTo t q)).getLast? with
  | some c => if x.period = 0 then x else x.after c
  | none => x

/-- The effective grace at an instant (R91): the smaller of GRACE_NS and the symbol the instant falls in. -/
def State.grace (s : State) (t : Timeline) (q : Int) : Int :=
  let c := t.ent.num.coord (qAir t.ent q)
  min (s.get F.WHS_GRACE_GRACE_NS * qNs) (t.ent.num.qSym c.slot c.symbol)

/-- What the judging of a schedule finds (R92, R93): the occurrence to fire late, the missed ones, the schedule that remains, and the
instant of the last occurrence handled. -/
structure Judged where
  fire : Option Int
  missed : List Int
  rest : Sched
  last : Option Int

/-- Judge the past occurrences of a schedule at the present active time (R92, R93). -/
def State.judgeSched (s : State) (x : Sched) (t : Timeline) (last : Option Int) : Judged :=
  let c := x.upTo t (s.qActive - 1)
  let l := s.occs x t c
  match l.getLast? with
  | none =>
    match (x.coords c).getLast? with
    | some k => ⟨none, [], x.skip k, last⟩
    | none => ⟨none, [], x, last⟩
  | some k =>
    let q := x.instant t k
    let rest := match (x.coords c).getLast? with
      | some j => x.after j
      | none => x
    if s.qActive - q ≤ s.grace t q then ⟨some k, l.dropLast, rest, some q⟩ else ⟨none, l, rest, some q⟩

/-! ### Channels (R85, R88) -/

/-- Address of a whistle table entry. -/
def State.whsAddr (s : State) (ch : Nat) : Nat := sramBase + s.get F.WHS_TABLE_BASE_BASE + 32 * ch

/-- A channel. -/
def State.whs (s : State) (ch : Nat) : Option WhsCh := Tab.find s.aft.channels ch

/-- Store a channel, and its ARMED bit in the table (R85). -/
def State.setWhs (s : State) (ch : Nat) (x : WhsCh) : State :=
  let w := s.word (s.whsAddr ch)
  (s.setAft { s.aft with channels := Tab.set s.aft.channels ch x }).setWord (s.whsAddr ch) (w / 2 * 2 + (if x.armed then 1 else 0))

/-- Set LATE of a channel. -/
def State.whsLate (s : State) (ch : Nat) : State := s.setWord (s.whsAddr ch + 24) (s.word (s.whsAddr ch + 24) ||| 1)

/-- Set MISSED of a channel and add n to MISSED_COUNT. -/
def State.whsMissed (s : State) (ch n : Nat) : State :=
  let w := s.word (s.whsAddr ch + 24)
  if n = 0 then s
  else s.setWord (s.whsAddr ch + 24) ((w ||| 2) % 2 ^ 16 + satAdd 0xFFFF (w / 2 ^ 16) n * 2 ^ 16)

/-- A missed CANCEL marks its instance as cancel due (R140). -/
def State.cancelMissed (s : State) (x : WhsCh) (t : Timeline) (c : Int) : State :=
  if x.action = 2 then
    match s.instOf (x.arg0 % 4096) x.sched.tl (t.slotWord (t.slotOf c)) with
    | some i => s.upInst i (fun y => { y with cancelDue := true })
    | none => s
  else s

/-- Judge an armed channel as if armed now (R92, R93): a firing within grace is decided and marked LATE; the rest are missed. -/
def State.whsJudge (s : State) (ch : Nat) : State :=
  match s.whs ch with
  | none => s
  | some x =>
    match s.tl x.sched.tl with
    | none => s
    | some t =>
      if ¬ x.armed then s
      else
        let j := s.judgeSched x.sched t x.last
        let gone := x.sched.period = 0 ∧ (j.fire.isSome ∨ j.missed ≠ [])
        let due := match j.fire with
          | some c => some (c, s.tbu.ticks)
          | none => x.due
        let s := s.setWhs ch { x with armed := decide (¬ gone), sched := j.rest, last := j.last, due := due }
        let s := if j.fire.isSome then s.whsLate ch else s
        (j.missed.foldl (fun s c => s.cancelMissed x t c) s).whsMissed ch j.missed.length

/-! ### Arming (R88, R89, R99) -/

/-- The length in symbols of a period (R87). -/
def Timeline.period (t : Timeline) (unit count : Nat) : Nat :=
  let n := t.ent.num
  if unit = 0 then count else if unit = 1 then count * n.symbols else count * n.slots * n.symbols

/-- Does a coordinate word name a slot and symbol of the timeline (R89)? -/
def Timeline.coordOk (t : Timeline) (w : Nat) : Bool :=
  decide (natBits w 20 7 < t.ent.num.slots) && decide (natBits w 28 4 < t.ent.num.symbols)

/-- The coordinate symbol a word names, HF resolved to the occurrence nearest the present (R87). -/
def State.resolve (s : State) (t : Timeline) (w : Nat) : Int :=
  t.ent.num.slotOfWord w (s.coordNow t).slot * t.ent.num.symbols + natBits w 28 4

/-- Is every symbol that a calibration window overlaps of type F (R99)? -/
def State.windowOk (s : State) (t : Timeline) (x : Sched) (ns : Nat) (c : Int) : Bool :=
  let q := x.instant t c
  if ns = 0 then true
  else
    let a := t.symbolAt q
    let b := t.symbolAt (q + ns * qNs - 1)
    (List.range ((b - a).toNat + 1)).all (fun k =>
      let y := a + k
      s.symType t (t.slotOf y) (y % t.ent.num.symbols).toNat = 2)

/-- Does the calibration check of an arm pass (R99)?  The windows of a periodic schedule repeat after as many occurrences as the pattern
and the long symbols have symbols together. -/
def State.calOk (s : State) (t : Timeline) (x : Sched) (ns : Nat) : Bool :=
  let now : Timeline := { t with pend := none }
  let n := if x.period = 0 then 1 else (max 1 t.ent.patLen) * t.ent.num.longEvery * t.ent.num.symbols
  !t.ent.tddEn || (List.range n).all (fun k =>
    let c := x.next + k * x.period
    !s.slotMatches now x.filter (now.slotOf c) || s.windowOk now x ns c)

/-- Refuse an arm (R89). -/
def State.armRefuse (s : State) (cause : Nat) : State := s.putAll 0 0 [(F.WHS_STATUS_ARM_REFUSED, 1), (F.WHS_STATUS_CAUSE, cause)]

/-- The cause for which the arm of a schedule is refused, 0 for none (R89): timeline, coordinate, period. -/
def State.schedCause (s : State) (tl w : Nat) (periodic : Bool) (unit count : Nat) : Nat :=
  match s.tl tl with
  | none => 2
  | some t => if ¬ t.coordOk w then 3 else if periodic ∧ (count = 0 ∨ unit = 3) then 4 else 0

/-- A resolved schedule. -/
def State.makeSched (s : State) (t : Timeline) (tl w : Nat) (periodic : Bool) (unit count : Nat) (delta : Int) (sub filter : Nat) : Sched :=
  ⟨tl, s.resolve t w, delta, sub, if periodic then t.period unit count else 0, filter⟩

/-- Disarm a channel (R88); a firing already decided is still delivered. -/
def State.whsDisarm (s : State) (ch : Nat) : State :=
  match s.whs ch with
  | some x => s.setWhs ch { x with armed := false }
  | none => s

/-- Arm a channel (R88, R89): replace an armed one without its handled instants, and judge past occurrences. -/
def State.whsArm (s : State) (ch : Nat) : State :=
  let w := s.words (s.whsAddr ch) 6
  let w0 := w.getD 0 0
  let action := natBits w0 2 5
  let tl := natBits w0 8 8
  let periodic := w0.testBit 1
  let unit := natBits (w.getD 3 0) 16 2
  let count := natBits (w.getD 3 0) 0 16
  let cause := if 12 ≤ action then 1 else s.schedCause tl (w.getD 1 0) periodic unit count
  match s.tl tl with
  | none => (s.armRefuse (if 12 ≤ action then 1 else 2)).whsDisarm ch
  | some t =>
    let x := s.makeSched t tl (w.getD 1 0) periodic unit count (signed 32 (w.getD 2 0)) 0 (natBits w0 16 3)
    let old := s.whs ch
    let last := match old with
      | some o => if o.armed then o.last else none
      | none => none
    if cause ≠ 0 then (s.armRefuse cause).whsDisarm ch
    else if (action = 8 ∨ action = 9) ∧ ¬ s.calOk t x (w.getD 5 0) then (s.armRefuse 5).whsDisarm ch
    else
      let y := match last with
        | some q => x.skipTo t q
        | none => x
      let skipped : Bool := match last with
        | some q => x.period = 0 && decide (x.instant t x.next ≤ q)
        | none => false
      let due := match old with
        | some o => o.due
        | none => none
      let spilled := match old with
        | some o => o.spilled
        | none => false
      let s := (s.setWord (s.whsAddr ch + 24) 0).setWord (s.whsAddr ch + 28) 0
      let s := s.setWhs ch ⟨!skipped, action, w.getD 4 0, w.getD 5 0, y, last, due, spilled⟩
      if s.flag F.WHS_CTRL_EN then s.whsJudge ch else s

/-! ### Firing (R21, R90) -/

/-- The class of an action in the order of R21 (Table 3-4). -/
def actionClass (a : Nat) : Nat := if a = 2 then 0 else if a = 3 ∨ a = 10 then 1 else if a = 1 then 2 else 3

/-- The occurrence of a channel that fires next, with the tick it belongs to: one already decided, else the first accepted one at or
before the present active time, while EN = 1 (R573). -/
def State.whsDue (s : State) (x : WhsCh) : Option (Int × Nat) :=
  match x.due with
  | some d => if s.flag F.WHS_CTRL_EN ∨ x.spilled then some d else none
  | none =>
    if ¬ x.armed ∨ ¬ s.flag F.WHS_CTRL_EN then none
    else match s.tl x.sched.tl with
      | none => none
      | some t => ((s.occs x.sched t (x.sched.upTo t s.qActive)).head?).map (fun c => (c, s.tbu.ticks))

/-- Is (tick, class, channel) a before b? -/
def firesBefore (a b : Nat × Nat × Nat) : Bool :=
  decide (a.1 < b.1) || (a.1 = b.1 && (decide (a.2.1 < b.2.1) || (a.2.1 = b.2.1 && decide (a.2.2 < b.2.2))))

/-- Is a channel first among those with an occurrence to fire (R21)? -/
def State.whsFirst (s : State) (ch : Nat) (x : WhsCh) (tick : Nat) : Bool :=
  s.aft.channels.all (fun y => match s.whsDue y.2 with
    | some (_, k) => !firesBefore (k, actionClass y.2.action, y.1) (tick, actionClass x.action, ch)
    | none => true)

/-- The firing that a channel may deliver now: at most 4 in a tick, in the order of R21 (R90). -/
def State.whsReady (s : State) (ch action : Nat) : Option (WhsCh × Timeline × Int) :=
  match s.whs ch with
  | none => none
  | some x =>
    match s.whsDue x, s.tl x.sched.tl with
    | some (c, k), some t =>
      if x.action = action ∧ s.aft.delivered < 4 ∧ s.whsFirst ch x k then some (x, t, c) else none
    | _, _ => none

/-- The channel after the firing or skip of occurrence c. -/
def WhsCh.past (x : WhsCh) (t : Timeline) (c : Int) : WhsCh :=
  if x.due.isSome then { x with due := none, spilled := false }
  else { x with
    armed := decide (x.sched.period ≠ 0), sched := x.sched.after c, last := some (x.sched.instant t c), spilled := false }

/-- Count a firing (R85) and its place among the four of the tick. -/
def State.whsFired (s : State) (ch : Nat) (x : WhsCh) (t : Timeline) (c : Int) : State :=
  let s := s.setWhs ch (x.past t c)
  let s := s.setWord (s.whsAddr ch + 28) ((s.word (s.whsAddr ch + 28) + 1) % 2 ^ 32)
  s.setAft { s.aft with delivered := s.aft.delivered + 1 }

/-- Fire a channel with an action: what the action does with its slot, counted from frame 0. -/
def State.whsFire (s : State) (ch action : Nat) (act : State → WhsCh → Timeline → Int → State) : State :=
  match s.whsReady ch action with
  | none => s
  | some (x, t, c) => act (s.whsFired ch x t c) x t (t.slotOf c)

/-- The dispatcher cycle that takes the firings of this tick (R21). -/
def State.whsCycle (s : State) : State :=
  if s.gdx.whistleTick = some s.tbu.ticks then s
  else let s := s.gdxCycle; s.setGdx { s.gdx with whistleTick := some s.tbu.ticks }

/-- A firing beyond four of the tick waits for a later tick, and is counted once (R90). -/
def State.whsSpill (s : State) (ch : Nat) : State :=
  match s.whs ch with
  | none => s
  | some x =>
    match s.whsDue x, s.tl x.sched.tl with
    | some (c, k), some t =>
      if s.aft.delivered < 4 ∨ x.spilled then s
      else (s.setWhs ch { x.past t c with due := some (c, k), spilled := true }).count F.WHS_SPILL_SPILL
    | _, _ => s

/-! ### Pins (R95, R96) -/

/-- A pin. -/
def State.pin (s : State) (n : Nat) : Option WhsPinSt := Tab.find s.aft.pins n

/-- Store a pin. -/
def State.setPin (s : State) (n : Nat) (x : WhsPinSt) : State := s.setAft { s.aft with pins := Tab.set s.aft.pins n x }

/-- What a pin drives changes. -/
def State.pinDrive (s : State) (n : Nat) (x : WhsPinSt) (d : PinDrive) : State := (s.setPin n { x with drive := d }).send (.pin n d)

/-- Set a pin's bit in a pair of registers. -/
def State.pinBit (s : State) (f : Fld) (n : Nat) : State := s.put f (s.get f 0 (n / 32) ||| 2 ^ (n % 32)) 0 (n / 32)

/-- Count missed occurrences of a pin. -/
def State.pinMissed (s : State) (n k : Nat) : State :=
  if k = 0 then s
  else
    let f := [F.WHS_PIN_MISSED_CNT_CNT0, F.WHS_PIN_MISSED_CNT_CNT1, F.WHS_PIN_MISSED_CNT_CNT2].getD (n % 4) F.WHS_PIN_MISSED_CNT_CNT3
    (s.pinBit F.WHS_PIN_MISSED_MISSED n).count f k 0 (n / 4)

/-- Judge an armed pin as if armed now (R92, R93, R95). -/
def State.pinJudge (s : State) (n : Nat) : State :=
  match s.pin n with
  | none => s
  | some x =>
    match s.tl x.sched.tl with
    | none => s
    | some t =>
      if ¬ x.armed then s
      else
        let j := s.judgeSched x.sched t x.last
        let missedOne := x.sched.period = 0 ∧ j.fire.isNone ∧ j.missed ≠ []
        let s := s.setPin n { x with
          armed := decide (¬ (x.sched.period = 0 ∧ (j.fire.isSome ∨ j.missed ≠ [])))
          sched := j.rest
          last := j.last
          due := match j.fire with
            | some c => some c
            | none => x.due }
        let s := if j.fire.isSome then s.pinBit F.WHS_PIN_LATE_LATE n else s
        (if missedOne then s.clr F.WHS_PIN_CTRL_EN 0 n else s).pinMissed n j.missed.length

/-- The shortest time between occurrences of a periodic schedule (R96). -/
def Timeline.shortest (t : Timeline) (unit count : Nat) : Int :=
  let n := t.ent.num
  let l := (List.range (n.longEvery * n.symbols)).map (fun (c : Nat) => n.qOfSymbol ((c : Int) + count) - n.qOfSymbol c)
  if unit = 1 then count * n.qSlot
  else if unit = 2 then count * qFrame
  else l.foldl min (l.headD 0)

/-- Arm a pin with its present registers (R96). -/
def State.pinArm (s : State) (n : Nat) : State :=
  let periodic := s.flag F.WHS_PIN_CTRL_PERIODIC 0 n
  let unit := s.get F.WHS_PIN_CTRL_PERIOD_UNIT 0 n
  let count := s.get F.WHS_PIN_TIMING_PERIOD_COUNT 0 n
  let width := s.get F.WHS_PIN_TIMING_WIDTH 0 n
  let tl := s.get F.WHS_PIN_CTRL_TL 0 n
  let w := s.get F.WHS_PIN_COORD_COORD 0 n
  let cause := s.schedCause tl w periodic unit count
  let drive := match s.pin n with
    | some x => if x.drive = .active then PinDrive.active else .idle
    | none => .idle
  match s.tl tl with
  | none => (s.armRefuse 2).clr F.WHS_PIN_CTRL_EN 0 n
  | some t =>
    if cause ≠ 0 then (s.armRefuse cause).clr F.WHS_PIN_CTRL_EN 0 n
    else if periodic ∧ t.shortest unit count ≤ width * 10 * qNs then (s.armRefuse 6).clr F.WHS_PIN_CTRL_EN 0 n
    else
      let sch := s.makeSched t tl w periodic unit count (signed 32 (s.get F.WHS_PIN_DELTA_NS_DELTA_NS 0 n))
        (s.get F.WHS_PIN_CTRL_SUB_100PS 0 n) (s.get F.WHS_PIN_CTRL_FILTER 0 n)
      let s := (s.set F.WHS_PIN_CTRL_EN 0 n).pinDrive n ⟨true, sch, width, none, none, drive⟩ drive
      if s.flag F.WHS_CTRL_EN then s.pinJudge n else s

/-- Clear EN of a pin: no further occurrence; a pulse ends at its width (R96). -/
def State.pinDisarm (s : State) (n : Nat) : State :=
  let s := s.clr F.WHS_PIN_CTRL_EN 0 n
  match s.pin n with
  | some x => if x.drive = .active then s.setPin n { x with armed := false, due := none }
      else s.pinDrive n { x with armed := false, due := none } .hiz
  | none => s

/-- The instant of a pin's whistle comes (R95). -/
def State.pinFire (s : State) (n : Nat) : State :=
  match s.pin n with
  | none => s
  | some x =>
    if ¬ s.flag F.WHS_CTRL_EN then s
    else match x.due with
      | some _ => s.pinDrive n { x with due := none } .active
      | none =>
        match s.tl x.sched.tl with
        | none => s
        | some t =>
          match (if x.armed then (s.occs x.sched t (x.sched.upTo t s.qActive)).head? else none) with
          | none => s
          | some c => s.pinDrive n { x with
              armed := decide (x.sched.period ≠ 0), sched := x.sched.after c, last := some (x.sched.instant t c) } .active

/-- WIDTH × 10 ns have passed: the pin returns to idle, and a one-shot clears EN (R95, R96). -/
def State.pinEnd (s : State) (n : Nat) : State :=
  match s.pin n with
  | none => s
  | some x =>
    if x.drive ≠ .active then s
    else if x.sched.period = 0 then (s.clr F.WHS_PIN_CTRL_EN 0 n).pinDrive n x .hiz
    else s.pinDrive n x (if s.flag F.WHS_PIN_CTRL_EN 0 n then .idle else .hiz)

/-! ### Everything at once -/

/-- Judge every armed channel and pin (R94, R573). -/
def State.whsJudgeAll (s : State) : State :=
  let s := (s.aft.channels.map (·.1)).foldl (fun s ch => s.whsJudge ch) s
  (s.aft.pins.map (·.1)).foldl (fun s n => s.pinJudge n) s

/-- Every armed channel and pin skips the occurrences that FILTER does not accept as their instants pass, while EN = 1 (R87, R573). -/
def State.whsPass (s : State) : State :=
  if ¬ s.flag F.WHS_CTRL_EN then s
  else
    let pass (on : Bool) (x : Sched) : Sched := match on, s.tl x.tl with
      | true, some t => s.passSched x t
      | _, _ => x
    s.setAft { s.aft with
      channels := s.aft.channels.map (fun y => (y.1, { y.2 with sched := pass y.2.armed y.2.sched }))
      pins := s.aft.pins.map (fun y => (y.1, { y.2 with sched := pass y.2.armed y.2.sched })) }

/-- A write of WHS_CTRL.EN (R573). -/
def State.whsEnable (s : State) (on : Bool) : State :=
  let was := s.flag F.WHS_CTRL_EN
  let s := s.setTo F.WHS_CTRL_EN on
  if on ∧ ¬ was then s.whsJudgeAll else s

/-- Disable a timeline (R82): its whistles are disarmed, and its live instances become orphans. -/
def State.tlDisable (s : State) (t : Nat) : State :=
  if ¬ s.tlOn t then s.tlRefuse 7
  else
    let s := (s.aft.channels.filter (fun x => x.2.sched.tl = t && x.2.armed)).foldl (fun s x => s.whsDisarm x.1) s
    let s := (s.aft.pins.filter (fun x => x.2.sched.tl = t && x.2.armed)).foldl (fun s x => s.pinDisarm x.1) s
    let s := (s.setAft { s.aft with tls := Tab.erase s.aft.tls t }).tlEnShow t false
    let s := s.setGdx { s.gdx with insts := s.gdx.insts.map (fun x => if x.2.tl = t then (x.1, { x.2 with orphan := true }) else x) }
    s.tddShow

/-! ### The commands -/

/-- TIMELINE_DISABLE (R82): AFT_TL_CMD with OP 1. -/
def execTimelineDisable (tl : BitVec 8) (s : State) : Host.Outcome State Fault Refusal :=
  .next ((s.putAll 0 0 [(F.AFT_TL_CMD_TL, tl.toNat), (F.AFT_TL_CMD_OP, 1)]).tlDisable tl.toNat)

/-- WHS_ARM (R88, R89). -/
def execWhsArm (channel : BitVec 10) (s : State) : Host.Outcome State Fault Refusal :=
  .next ((s.put F.WHS_ARM_CHANNEL channel.toNat).whsArm channel.toNat)

/-- WHS_DISARM (R88). -/
def execWhsDisarm (channel : BitVec 10) (s : State) : Host.Outcome State Fault Refusal :=
  .next ((s.put F.WHS_DISARM_CHANNEL channel.toNat).whsDisarm channel.toNat)

/-- WHS_ENABLE (R573). -/
def execWhsEnable (s : State) : Host.Outcome State Fault Refusal := .next (s.whsEnable true)

/-- WHISTLE_SPILL (R90). -/
def execWhistleSpill (channel : BitVec 10) (s : State) : Host.Outcome State Fault Refusal := .next (s.whsSpill channel.toNat)

/-- MARK (R86): only counts. -/
def execMark (channel : BitVec 10) (s : State) : Host.Outcome State Fault Refusal :=
  .next (s.whsFire channel.toNat 0 (fun s _ _ _ => s))

/-- CREATE (R86, R116, R140): the cancels that are due on the timeline come first. -/
def execCreate (channel : BitVec 10) (s : State) : Host.Outcome State Fault Refusal :=
  .next (s.whsFire channel.toNat 1 (fun s x t slot =>
    let s := s.whsCycle.dueCancels x.sched.tl
    let s := if s.flag F.GDX_CTRL_EN then (s.create (x.arg0 % 4096) x.sched.tl (t.slotWord slot) (some slot)).2 else s
    s.gdxSettle))

/-- CANCEL (R86, R138). -/
def execCancel (channel : BitVec 10) (s : State) : Host.Outcome State Fault Refusal :=
  .next (s.whsFire channel.toNat 2 (fun s x t slot =>
    let s := s.whsCycle
    (s.cancel (s.instOf (x.arg0 % 4096) x.sched.tl (t.slotWord slot))).gdxSettle))

/-- REFILL (R86, R124): the pool in ARG0 [9:0], the amount in ARG1 [29:0] and the operation in ARG1 [31:30]. -/
def execRefill (channel : BitVec 10) (s : State) : Host.Outcome State Fault Refusal :=
  .next (s.whsFire channel.toNat 3 (fun s x _ _ =>
    (s.whsCycle.refill (x.arg0 % 1024) (x.arg1 / 2 ^ 30 % 4) (x.arg1 % 2 ^ 30)).gdxSettle))

/-- CONV_START (R86, R393): port in ARG0 [3:0], converter in [15:8], start word in ARG1. -/
def execConvStart (channel : BitVec 10) (s : State) : Host.Outcome State Fault Refusal :=
  .next (s.whsFire channel.toNat 4 (fun s x _ _ => s.convFire (x.arg0 % 16) (natBits x.arg0 8 8) false x.arg1))

/-- CONV_CTRL (R86, R393). -/
def execConvCtrl (channel : BitVec 10) (s : State) : Host.Outcome State Fault Refusal :=
  .next (s.whsFire channel.toNat 5 (fun s x _ _ => s.convFire (x.arg0 % 16) (natBits x.arg0 8 8) true x.arg1))

/-- Does an armed CONV whistle name a port (R394)? -/
def State.convArmed (s : State) (p : Nat) : Bool :=
  s.aft.channels.any (fun x => x.2.armed && (x.2.action = 4 || x.2.action = 5) && x.2.arg0 % 16 = p)

/-- QUIET_EXIT_FOR_CONV (R394): a quiet transmitter leaves QUIET ahead of a CONV block. -/
def execQuietExitForConv (port : Fin 16) (s : State) : Host.Outcome State Fault Refusal :=
  .next (if s.cplUp port ∧ s.domState (96 + port.val) = 3 ∧ s.convArmed port then
      s.upCpl port (fun c => { c with convExit := some s.tbu.ticks })
    else s)

/-- The ports of a mask. -/
def maskPorts (m : Nat) : List Nat := (List.range 16).filter m.testBit

/-- GAP_OPEN (R86, R383): the port mask in ARG0 [15:0]. -/
def execGapOpen (channel : BitVec 10) (s : State) : Host.Outcome State Fault Refusal :=
  .next (s.whsFire channel.toNat 6 (fun s x _ _ => (maskPorts x.arg0).foldl (fun s p => s.gapOpen p) s))

/-- GAP_CLOSE (R86, R383). -/
def execGapClose (channel : BitVec 10) (s : State) : Host.Outcome State Fault Refusal :=
  .next (s.whsFire channel.toNat 7 (fun s x _ _ => (maskPorts x.arg0).foldl (fun s p => s.gapClose p) s))

/-- A calibration occurrence (R86, R99): suppressed where its window overlaps a D or U symbol, neither fired nor missed. -/
def State.whsCal (s : State) (ch : Nat) (rx : Bool) : State :=
  match s.whsReady ch (if rx then 9 else 8) with
  | none => s
  | some (x, t, c) =>
    if t.ent.tddEn ∧ ¬ s.windowOk t x.sched x.arg1 c then (s.setWhs ch (x.past t c)).count F.WHS_STATUS_CAL_SUPPRESSED
    else (s.whsFired ch x t c).send (.cal rx x.sched.tl (x.arg0 % 512) x.arg1)

/-- CAL_TX (R86, R99). -/
def execCalTx (channel : BitVec 10) (s : State) : Host.Outcome State Fault Refusal := .next (s.whsCal channel.toNat false)

/-- CAL_RX (R86, R99). -/
def execCalRx (channel : BitVec 10) (s : State) : Host.Outcome State Fault Refusal := .next (s.whsCal channel.toNat true)

/-- CORR_SWAP (R86, R100): flips CUR_BANK of the timeline. -/
def execCorrSwap (channel : BitVec 10) (s : State) : Host.Outcome State Fault Refusal :=
  .next (s.whsFire channel.toNat 10 (fun s x t _ => s.whsCycle.setTl x.sched.tl { t with curBank := 1 - t.curBank }))

/-- POWER (R86, R447): the domain in ARG0 [7:0] and the target in ARG1 [2:0]. -/
def execPower (channel : BitVec 10) (s : State) : Host.Outcome State Fault Refusal :=
  .next (s.whsFire channel.toNat 11 (fun s x _ _ => s.pwrRequest (x.arg0 % 256) (x.arg1 % 8)))

/-- PIN_ARM (R96): CTRL.EN from 0 to 1. -/
def execPinArm (pin : Fin 64) (s : State) : Host.Outcome State Fault Refusal :=
  .next (if s.flag F.WHS_PIN_CTRL_EN 0 pin then s else s.pinArm pin)

/-- PIN_FIRE (R95). -/
def execPinFire (pin : Fin 64) (s : State) : Host.Outcome State Fault Refusal := .next (s.pinFire pin)

/-- PIN_PULSE_END (R95, R96). -/
def execPinPulseEnd (pin : Fin 64) (s : State) : Host.Outcome State Fault Refusal := .next (s.pinEnd pin)

end Sys2Proof.Machine
end

