-- ==== Sys2Proof/Machine/Tbu.lean ====
section
/-!
DEFINITION. Sys2Proof/Machine/Tbu.lean: the Time Base Unit: the tick (R35, R37), increments (R42, R43), steps and sets (R44 to R48),
the domain switch and slew (R52 to R55), snapshots (R75), the reference monitor (R38 to R40), the PPS pins (R68 to R70) and the
shorts of output pins (R546).
-/
namespace Sys2Proof.Machine

/-- Store the time base. -/
def State.setTbu (s : State) (t : Tbu) : State := { s with tbu := t }

/-! ### Increments (R41 to R43) -/

/-- Is an increment, in units of 2^-32 ns, within 1.5996 ns to 1.6004 ns (R43)? -/
def incOk (p : Nat) : Bool := decide (15996 * 2 ^ 32 ≤ p * 10000 ∧ p * 10000 ≤ 16004 * 2 ^ 32)

/-- A write of INC_NS (R42): the commit takes INC_FRAC as it is now. -/
def State.incWrite (s : State) (d : Dom) (v : Nat) : State :=
  let s := s.put F.TBU_D_INC_NS_INC_NS v 0 (domIdx d)
  let p := s.get F.TBU_D_INC_NS_INC_NS 0 (domIdx d) * 2 ^ 32 + s.get F.TBU_D_INC_FRAC_INC_FRAC 0 (domIdx d)
  s.setDom d { s.tbu.dom d with incPend := some p }

/-- The pending increment pair of a domain takes effect, or is refused (R43); a commit restarts the count of R73. -/
def State.incCommit (s : State) (d : Dom) : State :=
  let x := s.tbu.dom d
  match x.incPend with
  | none => s
  | some p =>
    if incOk p then s.setDom d { x with incr := p, incPend := none, hold := 0 }
    else (s.setDom d { x with incPend := none }).set F.TBU_D_STATUS_INC_REFUSED 0 (domIdx d)

/-! ### Steps and sets (R44 to R48) -/

/-- Units of 2^-32 ns in a number of ns. -/
def nsUnits (n : Nat) : Int := (n * 2 ^ 32 : Nat)

/-- A GO in STEP_CTRL (R44, R47, R48). -/
def State.stepGo (s : State) (d : Dom) (isSet : Bool) : State :=
  let i := domIdx d
  let s := s.put F.TBU_D_STEP_CTRL_MODE (if isSet then 1 else 0) 0 i
  let x := s.tbu.dom d
  if x.step.isSome then s.set F.TBU_D_STATUS_STEP_BUSY 0 i
  else
    let ns := s.get F.TBU_D_STEP_NS_STEP_NS 0 i
    let frac := s.get F.TBU_D_STEP_FRAC_STEP_FRAC 0 i
    let sec := s.get F.TBU_D_SET_SEC_HI_SEC 0 i * 2 ^ 32 + s.get F.TBU_D_SET_SEC_LO_SEC 0 i
    let amount : Int := if isSet then (sec * secUnits + ns * 2 ^ 32 + frac : Nat) else signed 32 ns * 2 ^ 32 + frac
    (s.setDom d { x with step := some ⟨isSet, amount, decide (999999999 < ns), 2⟩ }).set F.TBU_D_STATUS_STEP_PENDING 0 i

/-- Is an AFT timeline enabled? -/
def State.anyTl (s : State) : Bool := !s.aft.tls.isEmpty

/-- A step is applied or refused (R44, R45, R49, R94). -/
def State.stepApply (s : State) (d : Dom) : State :=
  let x := s.tbu.dom d
  match x.step with
  | some ⟨false, a, _, _⟩ =>
    let s := (s.setDom d { x with step := none }).clr F.TBU_D_STATUS_STEP_PENDING 0 (domIdx d)
    if s.active = d ∧ nsUnits (s.get F.TBU_JUMP_LIMIT_LIMIT_NS) < a.natAbs then
      (s.set F.TBU_D_STATUS_JUMP_REFUSED 0 (domIdx d)).event (.time d .jumpRefused)
    else
      let s := s.setDom d { s.tbu.dom d with counter := x.counter.add a }
      if s.active = d ∧ 0 < a ∧ s.flag F.WHS_CTRL_EN then s.whsJudgeAll else s
  | _ => s

/-- A set is applied or refused (R47). -/
def State.setApply (s : State) (d : Dom) : State :=
  let x := s.tbu.dom d
  match x.step with
  | some ⟨true, a, bad, _⟩ =>
    let s := (s.setDom d { x with step := none }).clr F.TBU_D_STATUS_STEP_PENDING 0 (domIdx d)
    if bad ∨ s.active = d ∧ s.anyTl then s.set F.TBU_D_STATUS_SET_REFUSED 0 (domIdx d)
    else
      (s.setDom d { s.tbu.dom d with counter := Tai.ofUnits a, setThisTick := true }).set F.TBU_D_STATUS_TIME_VALID 0 (domIdx d)
  | _ => s

/-- Does a pending step or set fall in the tick that is about to complete? -/
def TbuDom.stepDue (x : TbuDom) : Bool :=
  match x.step with
  | some r => decide (r.left ≤ 1)
  | none => false

/-- Step 2 of R37 for one domain: a due set or step, and the increment unless a set replaces it; the count of R73. -/
def State.domTick (s : State) (d : Dom) : State :=
  let s := if (s.tbu.dom d).stepDue then (s.stepApply d).setApply d
    else s.setDom d { s.tbu.dom d with step := (s.tbu.dom d).step.map (fun r => { r with left := r.left - 1 }) }
  let x := s.tbu.dom d
  s.setDom d { x with
    counter := if x.setThisTick then x.counter else x.counter.add x.incr
    setThisTick := false
    hold := x.hold + 1 }

/-! ### Switch and slew (R51 to R54) -/

/-- Show the residual (R53): SLEWING, and R in ns rounded toward zero. -/
def State.slewShow (s : State) : State :=
  (s.setTo F.TBU_STATUS_SLEWING (s.tbu.resid ≠ 0)).put F.TBU_SLEW_RESID_NS_RESID_NS (unsigned 32 (s.tbu.resid.tdiv (2 ^ 32)))

/-- A switch request (R52, R54). -/
def State.switchGo (s : State) (target : Dom) (force : Bool) (refTl : Nat) : State :=
  let s := s.putAll 0 0 [(F.TBU_SWITCH_TARGET, domIdx target), (F.TBU_SWITCH_FORCE, if force then 1 else 0), (F.TBU_SWITCH_REF_TL, refTl)]
  if s.tbu.switch.isSome then s.set F.TBU_STATUS_SWITCH_BUSY
  else if s.active = target then s
  else (s.setTbu { s.tbu with switch := some ⟨target, force, refTl⟩ }).set F.TBU_STATUS_SWITCH_PENDING

/-- The switch point (R52): the residual is the active time minus the target counter. -/
def State.switchPoint (s : State) : State :=
  match s.tbu.switch with
  | none => s
  | some r =>
    let resid := s.activeUnits - (s.tbu.dom r.target).counter.units
    let beyond := nsUnits (s.get F.TBU_JUMP_LIMIT_LIMIT_NS) < resid.natAbs
    let s := (s.setTbu { s.tbu with switch := none }).clr F.TBU_STATUS_SWITCH_PENDING
    if beyond ∧ ¬ r.force then (s.set F.TBU_STATUS_SWITCH_REFUSED).event (.time r.target .switchRefused)
    else
      let s := (s.setTbu { s.tbu with resid := resid }).put F.TBU_CTRL_ACTIVE (domIdx r.target)
      (if beyond then s.set F.TBU_STATUS_FORCED else s).slewShow

/-- Does the active time pass a switch point between two instants: a symbol boundary of the enabled REF_TL, or a whole microsecond? -/
def State.passesSwitch (s : State) (r : SwitchReq) (a b : Int) : Bool :=
  match s.tl r.refTl with
  | some t => t.symbolAt (a * 480) ≠ t.symbolAt (b * 480)
  | none => a / nsUnits 1000 ≠ b / nsUnits 1000

/-- Step 4 of R37: R moves toward zero by at most 68 units (R53). -/
def slewStep (r : Int) : Int := if 0 < r then max 0 (r - 68) else min 0 (r + 68)

/-- The slew of one tick. -/
def State.slew (s : State) : State :=
  if s.tbu.resid = 0 then s else (s.setTbu { s.tbu with resid := slewStep s.tbu.resid }).slewShow

/-! ### Snapshots (R75) -/

/-- Put a counter value into four registers. -/
def State.putTai (s : State) (t : Tai) (hi lo ns frac : Fld) (j : Nat) : State :=
  s.putAll 0 j [(hi, t.sec / 2 ^ 32), (lo, t.sec), (ns, t.ns), (frac, t.frac)]

/-- Capture domain A, domain B and the active time. -/
def State.snapTake (s : State) : State :=
  let s := s.putTai s.tbu.a.counter F.TBU_D_SNAP_SEC_HI_SEC F.TBU_D_SNAP_SEC_LO_SEC F.TBU_D_SNAP_NS_NS F.TBU_D_SNAP_FRAC_FRAC 0
  let s := s.putTai s.tbu.b.counter F.TBU_D_SNAP_SEC_HI_SEC F.TBU_D_SNAP_SEC_LO_SEC F.TBU_D_SNAP_NS_NS F.TBU_D_SNAP_FRAC_FRAC 1
  let s := s.putTai s.activeTime F.TBU_ACT_SNAP_SEC_HI_SEC F.TBU_ACT_SNAP_SEC_LO_SEC F.TBU_ACT_SNAP_NS_NS F.TBU_ACT_SNAP_FRAC_FRAC 0
  s.setTbu { s.tbu with snap := false, snapActive := some s.activeTime }

/-! ### The tick -/

/-- At a whole millisecond of active time each executor's load window ends; a busy executor adds a tick to its window (R153). -/
def State.loadTick (s : State) (a b : Int) : State :=
  let s := s.setGdx { s.gdx with execs := s.gdx.execs.map (fun x =>
    (x.1, if x.2.node.isSome then { x.2 with busyTicks := x.2.busyTicks + 1 } else x.2)) }
  if a / nsUnits 1000000 = b / nsUnits 1000000 then s
  else
    let s := s.gdx.execs.foldl (fun s x => if x.1 < 352 then s.put F.GDX_LOAD_BUSY (min (2 ^ 21 - 1) (x.2.busyTicks * 16 / 5)) 0 x.1 else s) s
    s.setGdx { s.gdx with execs := s.gdx.execs.map (fun x => (x.1, { x.2 with busyTicks := 0 })) }

/-- One tick of the 625 MHz timing clock (R35, R37). -/
def State.tick (s : State) : State :=
  let before := s.activeUnits
  let s := ((s.incCommit .A).incCommit .B).setAft { s.aft with delivered := 0 }
  let s := s.setTbu { s.tbu with ticks := s.tbu.ticks + 1 }
  let s := (s.domTick .A).domTick .B
  let s := match s.tbu.switch with
    | some r => if s.passesSwitch r before s.activeUnits then s.switchPoint else s
    | none => s
  let s := s.slew.whsPass
  let s := if s.tbu.snap then s.snapTake else s
  s.loadTick before s.activeUnits

/-- TIMING_CLOCK_TICK (R35, R37, R53): while the timing clock runs. -/
def execTimingClockTick (s : State) : Host.Outcome State Fault Refusal := .next (if s.tbu.started then s.tick else s)

/-! ### The commands -/

/-- TIMING_PLL_LOCK (R38): on the first lock both counters start from zero. -/
def execTimingPllLock (s : State) : Host.Outcome State Fault Refusal :=
  .next (if ¬ s.flag F.TBU_CTRL_PLL_EN then s
    else
      let s := s.set F.TBU_STATUS_PLL_LOCK
      if s.tbu.started then s
      else
        let z (x : TbuDom) : TbuDom := { x with counter := ⟨0, 0, 0⟩, hold := 0 }
        let s := s.setTbu { s.tbu with a := z s.tbu.a, b := z s.tbu.b, started := true, ticks := 0 }
        (s.clr F.TBU_D_STATUS_TIME_VALID 0 0).clr F.TBU_D_STATUS_TIME_VALID 0 1)

/-- INC_NS_WRITE (R42). -/
def execIncNsWrite (d : Dom) (value : Word) (s : State) : Host.Outcome State Fault Refusal := .next (s.incWrite d value.toNat)

/-- INCREMENT_COMMIT (R43): step 1 of the tick that is about to complete. -/
def execIncrementCommit (d : Dom) (s : State) : Host.Outcome State Fault Refusal := .next (s.incCommit d)

/-- TBU_STEP_REQUEST (R44, R48): STEP_CTRL with MODE = 0 and GO. -/
def execTbuStepRequest (d : Dom) (s : State) : Host.Outcome State Fault Refusal := .next (s.stepGo d false)

/-- TBU_SET_REQUEST (R47, R48): STEP_CTRL with MODE = 1 and GO. -/
def execTbuSetRequest (d : Dom) (s : State) : Host.Outcome State Fault Refusal := .next (s.stepGo d true)

/-- STEP_APPLY (R45): step 2 of the tick that is about to complete, where the step is due in it. -/
def execStepApply (d : Dom) (s : State) : Host.Outcome State Fault Refusal :=
  .next (if (s.tbu.dom d).stepDue then s.stepApply d else s)

/-- SET_APPLY (R47): step 2 of the tick that is about to complete, where the set is due in it. -/
def execSetApply (d : Dom) (s : State) : Host.Outcome State Fault Refusal :=
  .next (if (s.tbu.dom d).stepDue then s.setApply d else s)

/-- JUMP_LIMIT_WRITE (R46): clamped to 1 to 1,000,000,000. -/
def execJumpLimitWrite (value : Word) (s : State) : Host.Outcome State Fault Refusal :=
  .next (s.put F.TBU_JUMP_LIMIT_LIMIT_NS (max 1 (min 1000000000 (value.toNat % 2 ^ 30))))

/-- TBU_SWITCH_REQUEST (R52, R54). -/
def execTbuSwitchRequest (target : Dom) (force : Bool) (refTl : BitVec 8) (s : State) : Host.Outcome State Fault Refusal :=
  .next (s.switchGo target force refTl.toNat)

/-- SWITCH_POINT (R52): step 3 of the tick that is about to complete. -/
def execSwitchPoint (s : State) : Host.Outcome State Fault Refusal := .next s.switchPoint

/-- SLEW_COMPLETE (R53): the last slew step ends at exactly zero. -/
def execSlewComplete (s : State) : Host.Outcome State Fault Refusal :=
  .next (if s.tbu.resid.natAbs ≤ 68 then (s.setTbu { s.tbu with resid := 0 }).slewShow else s)

/-- SNAPSHOT_REQUEST (R75). -/
def execSnapshotRequest (s : State) : Host.Outcome State Fault Refusal := .next (s.setTbu { s.tbu with snap := true })

/-- SNAPSHOT_CAPTURE (R75): step 5 of the tick. -/
def execSnapshotCapture (s : State) : Host.Outcome State Fault Refusal := .next (if s.tbu.snap then s.snapTake else s)

/-- REFCLK_LOSS (R39, R40). -/
def execRefclkLoss (s : State) : Host.Outcome State Fault Refusal :=
  .next ((s.putAll 0 0 [(F.TBU_REF_STATUS_REF_LOC, 1), (F.TBU_REF_STATUS_REF_LOC_SEEN, 1)]).setTbu { s.tbu with holding := true })

/-- REFCLK_FREQ_CHECK (R39, R40): the deviation in ppm, signed. -/
def execRefclkFreqCheck (ppm : BitVec 16) (s : State) : Host.Outcome State Fault Refusal :=
  .next (
    let s := s.put F.TBU_REF_STATUS_FREQ_DEV ppm.toNat
    if 1000 < ppm.toInt ∨ ppm.toInt < -1000 then
      (s.putAll 0 0 [(F.TBU_REF_STATUS_FREQ_ERR, 1), (F.TBU_REF_STATUS_FREQ_ERR_SEEN, 1)]).setTbu { s.tbu with holding := true }
    else s)

/-- REFCLK_RELOCK (R40). -/
def execRefclkRelock (s : State) : Host.Outcome State Fault Refusal :=
  .next ((s.putAll 0 0 [(F.TBU_REF_STATUS_REF_LOC, 0), (F.TBU_REF_STATUS_FREQ_ERR, 0)]).setTbu { s.tbu with holding := false })

/-- 0.9 s in units of 12.5 ps. -/
def ppsSpacing : Nat := 72000000000

/-- Stamp a PPS edge in both domains (R68): the sub-tick count is in units of 62.5 ps. -/
def State.ppsStamp (s : State) (i sub : Nat) : State :=
  let st := F.TBU_PPS_IN_STATUS_NEW
  let s := if s.flag st 0 i then s.set F.TBU_PPS_IN_STATUS_OVERRUN 0 i else s
  let a := s.tbu.a.counter.add (sub * 2 ^ 28 : Nat)
  let b := s.tbu.b.counter.add (sub * 2 ^ 28 : Nat)
  s.putAll 0 i [(F.TBU_PPS_IN_STAMP_A_SEC_SEC, a.sec), (F.TBU_PPS_IN_STAMP_A_NS_NS, a.ns), (F.TBU_PPS_IN_STAMP_A_FRAC_FRAC, a.frac),
    (F.TBU_PPS_IN_STAMP_B_SEC_SEC, b.sec), (F.TBU_PPS_IN_STAMP_B_NS_NS, b.ns), (F.TBU_PPS_IN_STAMP_B_FRAC_FRAC, b.frac),
    (F.TBU_PPS_IN_STATUS_NEW, 1), (F.TBU_PPS_IN_STATUS_LOST, 0), (F.TBU_PPS_IN_STATUS_STUCK_HI, 0), (F.TBU_PPS_IN_STATUS_STUCK_LO, 0)]

/-- PPS_IN_EDGE (R68, R69). -/
def execPpsInEdge (i : Fin 2) (falling : Bool) (sub : Fin 26) (s : State) : Host.Outcome State Fault Refusal :=
  .next (
    if ¬ s.flag F.TBU_PPS_IN_CTRL_EN 0 i ∨ s.flag F.TBU_PPS_IN_CTRL_EDGE 0 i ≠ falling then s
    else
      let now := s.tbu.ticks * 128 + sub.val * 5
      match Tab.find s.tbu.ppsLast i.val with
      | some last =>
        if now < last + ppsSpacing then s.count F.TBU_PPS_IN_STATUS_EXTRA_EDGES 1 0 i
        else (s.setTbu { s.tbu with ppsLast := Tab.set s.tbu.ppsLast i.val now }).ppsStamp i sub
      | none => (s.setTbu { s.tbu with ppsLast := Tab.set s.tbu.ppsLast i.val now }).ppsStamp i sub)

/-- PPS_IN_TIMEOUT (R69). -/
def execPpsInTimeout (i : Fin 2) (level : PinLevel) (s : State) : Host.Outcome State Fault Refusal :=
  .next (if ¬ s.flag F.TBU_PPS_IN_CTRL_EN 0 i then s
    else match level with
      | .mid => s.set F.TBU_PPS_IN_STATUS_LOST 0 i
      | .high => s.set F.TBU_PPS_IN_STATUS_STUCK_HI 0 i
      | .low => s.set F.TBU_PPS_IN_STATUS_STUCK_LO 0 i)

/-- PPS_OUT_EDGE (R70): a width outside 1 to 500,000 µs has no stated pulse (log entry 3). -/
def execPpsOutEdge (i : Fin 2) (s : State) : Host.Outcome State Fault Refusal :=
  .next (if ¬ s.flag F.TBU_PPS_OUT_CTRL_EN 0 i then s
    else
      let w := s.get F.TBU_PPS_OUT_CTRL_WIDTH_US 0 i
      if 1 ≤ w ∧ w ≤ 500000 then s.send (.ppsEdge i w) else let (n, s) := s.freshNat; s.send (.ppsEdge i n))

/-- OUTPUT_SHORT (R546): the driver parks the ball, the output's enable clears, and a record is written. -/
def execOutputShort (output : OutPin) (s : State) : Host.Outcome State Fault Refusal :=
  .next (match output with
    | .whsOut n =>
      match s.pin n with
      | some x => (((s.pinDrive n { x with armed := false, due := none } .hiz).clr F.WHS_PIN_CTRL_EN 0 n).pinBit
          F.WHS_PIN_SHORT_SHORT n).report ⟨6, 0x40, 1, 0, n, 0⟩
      | none => s
    | .ppsOut i => if i < 2 ∧ s.flag F.TBU_PPS_OUT_CTRL_EN 0 i then
        (s.clr F.TBU_PPS_OUT_CTRL_EN 0 i).report ⟨14, 0x40, 1, 0, i, 0⟩ else s
    | .clk10m => if s.flag F.TBU_CLK10M_CTRL_EN then (s.clr F.TBU_CLK10M_CTRL_EN).report ⟨14, 0x41, 1, 0, 0, 0⟩ else s
    | .xoffOut n => if n < 16 ∧ s.flag F.SQ_CTRL_EN ∧ n ∉ s.pins.xoffParked then
        ({ s with pins := { s.pins with xoffParked := n :: s.pins.xoffParked } }).report ⟨7, 0x40, 1, 0, n, 0⟩ else s)

end Sys2Proof.Machine
end

