-- ==== Sys2Proof/Machine/Carriers.lean ====
section
/-!
DEFINITION. Sys2Proof/Machine/Carriers.lean: carriers (08_radio_standards_coverage.md): their cost and limits (R5, R6, R32, R243,
R245, R256), CONFIGURE (R251, R423), START and STOP (R276, R496, R571, R572), the degraded capacity (R495), shedding (R496) and
restoring (R498).
-/
namespace Sys2Proof.Machine

/-! ### Cost (R5, R245, R246) -/

/-- Symbols per second of a carrier in one direction, as resource elements of a single subcarrier (Table 8-3). -/
def carSymbols (d : CarrierDesc) : Nat :=
  match d.type with
  | .nrFr1Mu0 => 14000
  | .nrFr1Mu1 => 28000
  | .nrFr1Mu2 | .nrFr2Mu2 => if d.ecp then 48000 else 56000
  | .nrFr2Mu3 => 112000
  | .lte => if d.ecp then 12000 else 14000
  | .ltem | .nbiot15 | .nbiot375 => 14000

/-- Resource elements per second of a stream; up is the uplink. -/
def carRate (d : CarrierDesc) (up : Bool) : Nat :=
  if d.type = .nbiot375 ∧ up then 48 * 3500 else d.prbs * 12 * carSymbols d

/-- A resource-element rate in hundredths of an SU: to the nearest, at least one (R5). -/
def suOfRate (re : Nat) : Nat := max 1 ((200 * re + 91700000) / (2 * 91700000))

/-- Downlink cost of a carrier in hundredths of an SU (R245). -/
def carDl (d : CarrierDesc) : Nat := d.dl * suOfRate (carRate d false)

/-- Uplink cost. -/
def carUl (d : CarrierDesc) : Nat := d.ul * suOfRate (carRate d true)

/-! ### Options (R243, R247, R250, R256) -/

/-- The bandwidths of a type in kHz (Table 8-2). -/
def khzOk (d : CarrierDesc) : Bool :=
  match d.type with
  | .nrFr1Mu0 => decide (5000 ≤ d.khz ∧ d.khz ≤ 50000)
  | .nrFr1Mu1 => decide (5000 ≤ d.khz ∧ d.khz ≤ 100000)
  | .nrFr1Mu2 => decide (10000 ≤ d.khz ∧ d.khz ≤ 100000)
  | .nrFr2Mu2 => decide (50000 ≤ d.khz ∧ d.khz ≤ 200000)
  | .nrFr2Mu3 => decide (50000 ≤ d.khz ∧ d.khz ≤ 400000)
  | .lte => decide (1400 ≤ d.khz ∧ d.khz ≤ 20000)
  | .ltem => decide (d.khz = 1400 ∨ d.khz = 3000 ∨ d.khz = 5000)
  | .nbiot15 | .nbiot375 => d.prbs = 1

/-- Is the type one of NR? -/
def carNr (d : CarrierDesc) : Bool :=
  match d.type with
  | .nrFr1Mu0 | .nrFr1Mu1 | .nrFr1Mu2 | .nrFr2Mu2 | .nrFr2Mu3 => true
  | _ => false

/-- Does the descriptor need an option that the device does not support (R256, Table 8-7)? -/
def carUnsupported (d : CarrierDesc) : Bool :=
  !khzOk d || d.excluded || decide (64 < d.dl ∨ 64 < d.ul) ||
  (d.ecp && !(d.type = .nrFr1Mu2 || d.type = .nrFr2Mu2 || d.type = .lte)) ||
  (d.dss && (d.coupler || !(carNr d || d.type = .lte))) ||
  ((d.type = .nbiot15 || d.type = .nbiot375) && d.pattern ≠ [])

/-- Timelines of a type (Table 8-2). -/
def carTls (d : CarrierDesc) : Nat := if d.type = .nbiot375 then 2 else 1

/-- The words W0 to W4 of the table entry of timeline j of a carrier (Table 3-2). -/
def carEntry (d : CarrierDesc) (j : Nat) : List Nat :=
  let std := match d.type with
    | .lte => 1
    | .nbiot15 | .nbiot375 => 2
    | .ltem => 3
    | _ => 0
  let mu := match d.type with
    | .nrFr1Mu1 => 1
    | .nrFr1Mu2 | .nrFr2Mu2 => 2
    | .nrFr2Mu3 => 3
    | _ => 0
  let nb := if d.type = .nbiot375 ∧ j = 1 then 1 else 0
  let tdd := if d.pattern = [] then 0 else 1
  [std + mu * 4 + (if d.ecp then 16 else 0) + nb * 32 + tdd * 64 + d.tag % 2 ^ 16 * 2 ^ 16, unsigned 32 d.offset,
   d.tddPtr % 2 ^ 16 + d.pattern.length % 256 * 2 ^ 16,
   d.streamBase % 2 ^ 12 + max d.dl d.ul % 2 ^ 10 * 2 ^ 16, d.corrPtr % 2 ^ 26]

/-! ### Functions and their share (R404, R422) -/

/-- Store the carriers. -/
def State.setCar (s : State) (c : Carriers) : State := { s with car := c }

/-- Does a list of ranges hold a number? -/
def inRanges (l : List (Nat × Nat)) (n : Nat) : Bool := l.any (fun r => decide (r.1 ≤ n ∧ n ≤ r.2))

/-- The function that a resource belongs to: the virtual function whose partition holds it, else the physical function (R404). -/
def State.ownerOf (s : State) (sel : Partition → List (Nat × Nat)) (n : Nat) : Nat :=
  ((s.host.parts.find? (fun p => inRanges (sel p.2) n)).map (·.1)).getD 0

/-- The carriers of a function. -/
def State.carsOf (s : State) (f : Nat) : List Carrier := (s.car.list.filter (fun c => c.2.func = f)).map (·.2)

/-- The sum of a measure over carriers. -/
def carSum (g : CarrierDesc → Nat) (l : List Carrier) : Nat := (l.map (fun c => g c.desc)).foldl (· + ·) 0

/-- The limits of a function: downlink and uplink hundredths, carriers (R6, R32, R404). -/
def State.share (s : State) (f : Nat) : Nat × Nat × Nat :=
  if f = 0 then
    let given (g : Partition → Nat) : Nat := (s.host.parts.map (fun p => g p.2)).foldl (· + ·) 0
    (102400 - given (·.suDl), 102400 - given (·.suUl), 256 - given (·.carriers))
  else match Tab.find s.host.parts f with
    | some p => (p.suDl, p.suUl, p.carriers)
    | none => (0, 0, 0)

/-- A refusal of Table 14-5 with its ERROR_DETAIL (R417). -/
structure Refuse where
  status : Nat
  cause : Nat
  index : Nat
  offset : Nat
  deriving DecidableEq, Repr

/-- The limits of R32 and of the function, after a carrier was added (Table 14-8): the cause that fails first, 0 for none. -/
def State.limitCause (s : State) (f : Nat) : Nat :=
  let l := s.car.list.map (·.2)
  let mine := s.carsOf f
  let cpl := l.filter (fun c => c.desc.coupler)
  let (a, b, n) := s.share f
  if 102400 < carSum carDl l then 1
  else if 102400 < carSum carUl l then 2
  else if 256 < l.length then 3
  else if 480 < carSum (·.dl) cpl ∨ 480 < carSum (·.ul) cpl then 4
  else if 256 < carSum (fun d => d.tls.length) l then 5
  else if 1024 < carSum (fun d => d.whistles.length) l then 6
  else if a < carSum carDl mine ∨ b < carSum carUl mine ∨ n < mine.length then 7
  else 0

/-- Does a descriptor name a resource of another function (R404)? -/
def State.foreign (s : State) (f : Nat) (d : CarrierDesc) : Bool :=
  d.tls.any (fun t => s.ownerOf (·.timelines) t ≠ f) || d.queues.any (fun q => s.ownerOf (·.queues) q ≠ f) ||
  d.rings.any (fun r => s.ownerOf (·.rings) r ≠ f) || d.templates.any (fun t => s.ownerOf (·.templates) t ≠ f) ||
  d.whistles.any (fun w => s.ownerOf (·.whistles) w.1 ≠ f)

/-! ### Starting and stopping -/

/-- Mark a stream table entry valid or not (Table 13-9). -/
def State.streamValid (s : State) (k : Nat) (v : Bool) : State :=
  let w := s.word (s.streamAddr k)
  s.setWord (s.streamAddr k) (w / 2 * 2 + (if v then 1 else 0))

/-- Change a carrier. -/
def State.upCar (s : State) (h : Nat) (f : Carrier → Carrier) : State :=
  match Tab.find s.car.list h with
  | some c => s.setCar { s.car with list := Tab.set s.car.list h (f c) }
  | none => s

/-- Arm a whistle channel with an entry (Table 3-3): the words W0 to W5, then WHS_ARM. -/
def State.whsWriteArm (s : State) (ch : Nat) (ws : List Nat) : State := (s.setWords (s.whsAddr ch) (ws.take 6)).whsArm ch

/-- A carrier starts (R423, R572): its queues and coupler stream entries, and on REFERENCE templates its whistles. -/
def State.carStart (s : State) (h : Nat) : State :=
  match Tab.find s.car.list h with
  | none => s
  | some c =>
    let s := c.desc.queues.foldl (fun s q => if s.queueOn q then s else s.queueEnable q) s
    let s := c.desc.streams.foldl (fun s k => s.streamValid k true) s
    let s := if c.desc.reference then c.desc.whistles.foldl (fun s w => s.whsWriteArm w.1 w.2) s else s
    s.upCar h (fun c => { c with started := true, shed := none })

/-- Disarm the whistle channels of timelines. -/
def State.disarmOf (s : State) (tls : List Nat) : State :=
  (s.aft.channels.filter (fun x => x.2.armed && decide (x.2.sched.tl ∈ tls))).foldl (fun s x => s.whsDisarm x.1) s

/-- Cancel the live instances of timelines through GDX_INST_CMD (R120, R496). -/
def State.cancelOf (s : State) (tls : List Nat) : State :=
  ((s.gdx.insts.filter (fun x => decide (x.2.tl ∈ tls))).foldl (fun s x => s.gdxCycle.cancel (some x.1)) s).gdxSettle

/-- A carrier stops (R496, items 1 to 3): its whistles are disarmed, its live instances cancelled, its configuration kept. -/
def State.carStop (s : State) (h : Nat) (why : Option ShedCause) : State :=
  match Tab.find s.car.list h with
  | none => s
  | some c => ((s.disarmOf c.desc.tls).cancelOf c.desc.tls).upCar h (fun c => { c with started := false, shed := why })

/-- Set or clear TL_MISMATCH of a tag and report the change (R98, Table 14-11). -/
def State.setMismatch (s : State) (tag : Nat) (on : Bool) : State :=
  if tag = 0 ∨ decide (tag ∈ s.gdx.mismatch) = on then s
  else
    (s.setGdx { s.gdx with mismatch := if on then tag :: s.gdx.mismatch else s.gdx.mismatch.filter (· ≠ tag) }).event
      (.tlMismatch tag on)

/-- A carrier is removed (R120, R251): its timelines are disabled, the orphans cancelled, its queues and stream entries closed. -/
def State.carRemove (s : State) (h : Nat) : State :=
  match Tab.find s.car.list h with
  | none => s
  | some c =>
    let s := c.desc.tls.foldl (fun s t => if s.tlOn t then s.tlDisable t else s) (s.disarmOf c.desc.tls)
    let s := s.cancelOf c.desc.tls
    let s := c.desc.queues.foldl (fun s q => if s.queueOn q then s.queueDisable q else s) s
    let s := c.desc.streams.foldl (fun s k => s.streamValid k false) s
    let s := s.setCar { s.car with list := Tab.erase s.car.list h, prec := s.car.prec.filter (· ≠ h) }
    s.setMismatch c.desc.tag false

/-! ### CONFIGURE (R251, R423) -/

/-- A handle that no carrier has; which one the spec leaves open (a free value, log entry 3). -/
def State.newHandle (s : State) : Nat × State :=
  let (n, s) := s.freshNat
  (((List.range (s.car.list.length + 1)).map (n % 2 ^ 31 + ·)).find? (fun h => (Tab.find s.car.list h).isNone) |>.getD 0, s)

/-- Write the entry and pattern of a carrier's timelines and enable them: the cause of Table 3-9 that refuses one, or the state. -/
def State.carTimelines (s : State) (d : CarrierDesc) : Nat ⊕ State :=
  let s := s.setWords (sramBase + s.get F.AFT_TDD_TABLE_BASE_BASE + 4 * d.tddPtr) d.pattern
  d.tls.zipIdx.foldl (fun (r : Nat ⊕ State) (t : Nat × Nat) => match r with
    | .inl c => .inl c
    | .inr s =>
      let s := s.setWords (sramBase + s.get F.AFT_TL_TABLE_BASE_BASE + 32 * t.1) (carEntry d t.2)
      let c := s.enableCause t.1 (tlEntry (s.tlWords t.1))
      if c ≠ 0 then .inl c else .inr (s.tlEnable t.1)) (.inr s)

/-- Add carrier number i of a request for function f (R423). -/
def State.carAdd (s : State) (f i : Nat) (d : CarrierDesc) : Refuse ⊕ (Nat × State) :=
  if carUnsupported d then .inl ⟨0x17, 8, i, 0⟩
  else if s.foreign f d then .inl ⟨0x16, 0, i, 0⟩
  else if d.tls.length ≠ carTls d then .inl ⟨0x15, 0, i, 0⟩
  else
    let (h, s) := s.newHandle
    let s := s.setCar { s.car with list := Tab.set s.car.list h ⟨f, d, false, none⟩ }
    let c := s.limitCause f
    if c ≠ 0 then .inl ⟨0x18, c, i, 0⟩
    else match s.carTimelines d with
      | .inl a => .inl ⟨0x15, 9, i, a⟩
      | .inr s => .inr (h, s.setMismatch d.tag d.peerDiffers)

/-- The first handle of a list that function f may not name (R404, Table 14-8). -/
def State.badHandle (s : State) (f cause : Nat) (hs : List Nat) : Option Refuse :=
  hs.zipIdx.findSome? (fun h => match Tab.find s.car.list h.1 with
    | none => some ⟨0x1A, cause, h.2, 0⟩
    | some c => if c.func = f then none else some ⟨0x16, 0, h.2, 0⟩)

/-- CONFIGURE (R251, R423): the removals, then the additions; a refusal leaves everything as it was. -/
def State.configure (s : State) (f : Nat) (remove : List Nat) (add : List CarrierDesc) : Refuse ⊕ (List Nat × State) :=
  match s.badHandle f 0xA remove with
  | some e => .inl e
  | none => add.zipIdx.foldl (fun (r : Refuse ⊕ (List Nat × State)) (d : CarrierDesc × Nat) => match r with
      | .inl e => .inl e
      | .inr (hs, s) => match s.carAdd f d.2 d.1 with
        | .inl e => .inl e
        | .inr (h, s) => .inr (hs ++ [h], s)) (.inr ([], remove.foldl State.carRemove s))

/-! ### START (R276, R513, R571) -/

/-- Does a stack forbid starting a carrier: lost (R513), or in RUN with a granule that is not ready (R276)? -/
def State.stacksHold (s : State) : Bool :=
  (List.range 4).any (fun st => s.retired 18 st ||
    (s.domState (128 + st) = 0 && !((List.range 36).all (s.granReady st))))

/-- The cause for which a carrier that spans cars may not start here, 0 for none (R571); locked says that the active domain has reached
LOCKED since its last set, delay that the port toward car 0 has received a DELAY message since it last came UP. -/
def State.consistCause (s : State) (tag : Nat) (locked delay : Bool) : Nat :=
  let p := s.get F.CPL_CONSIST_UP_PORT
  if tag = 0 then 0
  else if ¬ locked then 1
  else if s.get F.CPL_CONSIST_CAR ≠ 0 ∧
      (¬ s.flag F.CPL_PORT_STATUS_CAL_DONE p ∨ (List.range 5).any (fun l => s.flag F.CPL_LANE_STATUS_DRIFT p l) ∨ ¬ delay) then 2
  else if tag ∈ s.gdx.mismatch then 3
  else 0

/-- START of a handle by function f: the refusal, or the state. -/
def State.startCar (s : State) (f h : Nat) (locked delay : Bool) : Refuse ⊕ State :=
  match Tab.find s.car.list h with
  | none => .inl ⟨0x1A, 0, 0, 0⟩
  | some c =>
    let k := s.consistCause c.desc.tag locked delay
    if c.func ≠ f then .inl ⟨0x16, 0, 0, 0⟩
    else if c.started ∨ s.stacksHold then .inl ⟨0x1B, 0, 0, 0⟩
    else if k ≠ 0 then .inl ⟨0x1B, k, 0, 0⟩
    else .inr (s.carStart h)

/-- STOP of a handle by function f. -/
def State.stopCar (s : State) (f h : Nat) : Refuse ⊕ State :=
  match Tab.find s.car.list h with
  | none => .inl ⟨0x1A, 0, 0, 0⟩
  | some c =>
    if c.func ≠ f then .inl ⟨0x16, 0, 0, 0⟩
    else if ¬ c.started then .inl ⟨0x1B, 0, 0, 0⟩
    else .inr (s.carStop h none)

/-! ### Degraded capacity (R495) and shedding (R496) -/

/-- Unit ids of Table 17-2 of the physical units of a class, with the retired type and index of the domain they lie in. -/
def classUnits (c : Nat) : List (Nat × Nat × Nat) :=
  if c = 0 then (List.range 216).map (fun u => (u, 16, u / 9))
  else (List.range (engCount c)).map (fun p => ((2 + c) * 2048 + p, 17, rowOfPhys (engRows c) p))

/-- The unit id of the physical unit behind an executor, if one stands there (Table 17-2). -/
def State.execUnit (s : State) (e : Nat) : Option Nat :=
  let c := execClass e
  if c = 0 then (s.vscInst e).map (fun k => vscCluster k * 9 + s.vscPos k)
  else some ((2 + c) * 2048 + s.get F.T_CTRL_MAP_PHYS (engInst c (execLocal e)))

/-- N_c: the units of a class that serve or can serve, at most its active count. -/
def State.unitsLeft (s : State) (c : Nat) : Nat :=
  let outs := ((classExecs c).filter (fun e => (s.exec e).out)).filterMap s.execUnit
  min (classActive c) ((classUnits c).filter (fun u =>
    !s.retired (u.1 / 2048) (u.1 % 2048) && !s.retired u.2.1 u.2.2 && decide (u.1 ∉ outs))).length

/-- The classes that started carriers' templates use. -/
def State.usedClasses (s : State) (cars : List Carrier) : List Nat :=
  (List.range 10).filter (fun c => cars.any (fun x => x.started && x.desc.templates.any (fun t => match s.tplCur t with
    | some tp => tp.nodes.any (fun n => n.cls = c)
    | none => false)))

/-- D in SU (R495). -/
def State.degraded (s : State) (cars : List Carrier) : Nat :=
  (s.usedClasses cars).foldl (fun d c => min d (1024 * s.unitsLeft c / classActive c)) 1024

/-- Streams of a direction on a coupler port that carriers use. -/
def State.portStreams (s : State) (cars : List Carrier) (p dir : Nat) : Nat :=
  ((cars.filter (·.started)).flatMap (fun c => c.desc.streams.filter (fun k =>
    let w := s.word (s.streamAddr k)
    natBits w 3 4 = p && natBits w 1 1 = dir))).length

/-- Does a coupler port run on three lanes? -/
def State.threeLanes (s : State) (p : Nat) : Bool :=
  ((List.range 4).filter (s.get F.CPL_PORT_STATUS_LANES p).testBit).length = 3

/-- Do the started ones of some carriers fit (R496)? -/
def State.fits (s : State) (cars : List Carrier) : Bool :=
  let run := cars.filter (·.started)
  decide (carSum carDl run ≤ s.degraded cars * 100 ∧ carSum carUl run ≤ s.degraded cars * 100) &&
  (List.range 16).all (fun p => !s.threeLanes p || decide (s.portStreams cars p 0 ≤ 23 ∧ s.portStreams cars p 1 ≤ 23)) &&
  run.all (fun c => c.desc.templates.all (fun t => decide (t ∉ s.car.lost)))

/-- The handles by rising precedence: those off the list, highest handle first, then the list from its end (R496). -/
def State.shedOrder (s : State) : List Nat :=
  let off := (s.car.list.map (·.1)).filter (· ∉ s.car.prec)
  (off.mergeSort (fun a b => decide (b ≤ a))) ++ s.car.prec.reverse

/-- Shed a carrier for a cause (R496). -/
def State.shedCar (s : State) (h : Nat) (why : ShedCause) : State :=
  match Tab.find s.car.list h with
  | some c => (s.carStop h (some why)).eventTo c.func (.carrierShed [h] false why)
  | none => s

/-- The started carrier of lowest precedence. -/
def State.lowest (s : State) : Option Nat :=
  s.shedOrder.find? (fun h => match Tab.find s.car.list h with
    | some c => c.started
    | none => false)

/-- Shed while a condition does not hold, at most n carriers. -/
def State.shedUntil (ok : State → Bool) (why : ShedCause) : Nat → State → State
  | 0, s => s
  | n + 1, s =>
    if ok s then s
    else match s.lowest with
      | some h => State.shedUntil ok why n (s.shedCar h why)
      | none => s

/-- The pass of R496. -/
def State.shedPass (s : State) (why : ShedCause) : State :=
  State.shedUntil (fun s => s.fits (s.car.list.map (·.2))) why s.car.list.length s

/-- A shed carrier starts again, and its function hears of it (R471, R498). -/
def State.restoreCar (s : State) (h : Nat) : State :=
  match Tab.find s.car.list h with
  | some c => match c.shed with
    | some why => (s.carStart h).eventTo c.func (.carrierShed [h] true why)
    | none => s
  | none => s

/-- The shed carrier of highest precedence for which p holds. -/
def State.highestShed (s : State) (p : Nat → Carrier → Bool) : Option Nat :=
  s.shedOrder.reverse.find? (fun h => match Tab.find s.car.list h with
    | some c => c.shed.isSome && p h c
    | none => false)

/-- Would everything still fit with carrier h started? -/
def State.fitsWith (s : State) (h : Nat) : Bool :=
  s.fits (s.car.list.map (fun x => if x.1 = h then { x.2 with started := true } else x.2))

/-- Restore one carrier that capacity allows again (R498); carriers that THROTTLE has shed wait for R471. -/
def State.restoreOne (s : State) : State :=
  match s.highestShed (fun h c => decide (c.shed ≠ some .thermal) && s.fitsWith h && !s.stacksHold) with
  | some h => s.restoreCar h
  | none => s

end Sys2Proof.Machine
end

