-- ==== Sys2Proof/Machine/Thermal.lean ====
section
/-!
DEFINITION. Sys2Proof/Machine/Thermal.lean: the temperature sensors (R463 to R468), the limits WARN and THROTTLE with Steol's responses
(R469 to R473), the trip (R474, R475, R480), and the rules of the Tender (R458 to R460).
-/
namespace Sys2Proof.Machine

/-! ### Readings -/

/-- Store the thermal state. -/
def State.setThm (s : State) (t : Thm) : State := { s with thm := t }

/-- A sensor. -/
def State.sensor (s : State) (k : Nat) : Sensor := Tab.get ⟨0, 0, 0, false⟩ s.thm.sensors k

/-- Is the main die powered and out of a trip? -/
def State.dieOn (s : State) : Bool := s.pins.rails = 127 && s.pins.aon && !s.thm.tripped

/-- Is a sensor sampled at present (R466)?  A lane direction or stack is on in its state of code 0. -/
def State.sampled (s : State) (k : Nat) : Bool :=
  if 96 ≤ k then s.pins.aon
  else s.dieOn &&
    (if k < 48 then decide (s.domState (k / 2) ≤ 2)
    else if k < 72 then decide (s.domState (24 + (k - 48) / 6) ≤ 2)
    else if k < 80 then (List.range 4).any (fun i => s.domState (32 + (k - 72) * 4 + i) = 0 || s.domState (64 + (k - 72) * 4 + i) = 0)
    else if k < 84 then (List.range 4).any (fun i => s.domState (96 + (k - 80) * 4 + i) = 0 || s.domState (112 + (k - 80) * 4 + i) = 0)
    else if k < 92 then s.domState (128 + (k - 84) / 2) = 0
    else decide (s.domState 255 ≠ 4))

/-- Is a sensor FAILED (R467)? -/
def State.sensorFailed (s : State) (k : Nat) : Bool := (s.get F.THM_FAILED_FAILED 0 (k / 32)).testBit (k % 32)

/-- The sampled, working sensors. -/
def State.working (s : State) : List Nat := (List.range 100).filter (fun k => s.sampled k && !s.sensorFailed k)

/-- The temperature of a count in 1/16 °C (R465), by the fuse word of the sensor (Table 18-7); without two distinct points, or where
the quotient is not whole, the spec gives no number (a free value, log entry 12). -/
def State.tempOf (s : State) (k n : Nat) : Int × State :=
  let w := Tab.get 0 s.memx.fuses (0x50 + k)
  let n1 : Int := natBits w 0 16
  let n2 : Int := natBits w 16 16
  let num : Int := ((n : Int) - n1) * 85 * 16
  if n2 = n1 then let (x, s) := s.freshNat; (signed 16 x, s)
  else
    let (q, s) := if n1 < n2 then s.freeDiv num (n2 - n1).toNat else s.freeDiv (-num) (n1 - n2).toNat
    (400 + q, s)

/-- Does the debug unlock allow THM_INJ (R482, R526)? -/
def State.dbgScope (s : State) (k : Nat) : Bool := s.flag F.BOOT_DBG_STATUS_UNLOCKED && decide (k ≤ s.get F.BOOT_DBG_STATUS_SCOPE)

/-- What the injection adds to a sensor's readings for WARN and THROTTLE (R482). -/
def State.injOffset (s : State) (k : Nat) : Int :=
  if s.flag F.THM_INJ_EN ∧ s.dbgScope 2 ∧ s.get F.THM_INJ_SENSOR = k then signed 8 (s.get F.THM_INJ_OFFSET) * 16 else 0

/-- A sensor's reading for WARN and THROTTLE. -/
def State.limitTemp (s : State) (k : Nat) : Int := (s.sensor k).temp + s.injOffset k

/-- The reading and sensor that THM_MAX shows: the highest present reading of the given sensors. -/
def State.hottest (s : State) (l : List Nat) : Option (Int × Nat) :=
  l.foldl (fun m k => match m with
    | some (t, j) => if t < (s.sensor k).temp then some ((s.sensor k).temp, k) else some (t, j)
    | none => some ((s.sensor k).temp, k)) none

/-! ### Limits (R469) -/

/-- WARN sets, if it is armed and not in force. -/
def State.warnSet (s : State) (k : Nat) (t : Int) : State :=
  if s.flag F.THM_CTRL_WARN_EN ∧ ¬ s.flag F.THM_STATUS_WARN then
    ((s.set F.THM_STATUS_WARN).set F.THM_STATUS_WARN_SEEN).setThm { s.thm with warnDue := some (k, t) }
  else s

/-- THROTTLE sets, if it is armed and not in force. -/
def State.throttleSet (s : State) : State :=
  if s.flag F.THM_CTRL_THROTTLE_EN ∧ ¬ s.flag F.THM_STATUS_THROTTLE then
    ((s.set F.THM_STATUS_THROTTLE).set F.THM_STATUS_THROTTLE_SEEN).setThm { s.thm with throttleDue := true }
  else s

/-- WARN and THROTTLE clear when every sampled working sensor is at or below the limit less HYST. -/
def State.limitsClear (s : State) : State :=
  let below (lim : Nat) : Bool := s.working.all (fun k => decide (s.limitTemp k ≤ ((lim : Int) - s.get F.THM_LIMIT_HYST) * 16))
  let w := below (s.get F.THM_LIMIT_WARN)
  let t := below (s.get F.THM_LIMIT_THROTTLE)
  let s := if w then s.clr F.THM_STATUS_WARN else s
  if t then s.clr F.THM_STATUS_THROTTLE else s

/-- Judge a sensor's reading against WARN and THROTTLE. -/
def State.limitsJudge (s : State) (k : Nat) : State :=
  let t := s.limitTemp k
  let s := if (s.get F.THM_LIMIT_WARN * 16 : Int) ≤ t then s.warnSet k (s.sensor k).temp else s
  if (s.get F.THM_LIMIT_THROTTLE * 16 : Int) ≤ t then s.throttleSet else s

/-- A write of THM_LIMIT (R469): taken or refused; a limit outside its range keeps its value, and HYST 0 stores 1. -/
def State.limitWrite (s : State) (v : Nat) : State :=
  let w := natBits v 0 8
  let t := natBits v 8 8
  let h := natBits v 24 4
  if 100 < w ∨ 105 < t ∨ t < w then s.set F.THM_STATUS_LIMIT_REFUSED
  else
    let s := if 60 ≤ w then s.put F.THM_LIMIT_WARN w else s
    let s := if 60 ≤ t then s.put F.THM_LIMIT_THROTTLE t else s
    let s := s.put F.THM_LIMIT_HYST (max 1 h)
    (s.working.foldl (fun s k => s.limitsJudge k) s).limitsClear

/-! ### The trip (R474, R475, R480) -/

/-- Seconds on the Tender's clock (R480). -/
def State.tenderSec (s : State) : Nat := s.thm.base + s.tbu.ticks / 625000000

/-- Trips within the last 24 h (Table 16-5). -/
def State.trips24 (s : State) : Nat := (s.thm.trips.filter (fun t => decide (s.tenderSec - t ≤ 86400))).length

/-- The chip trips on sensor k (Table 16-3, t0 to t0 + 100 ns): THERMTRIP_N asserts, clocks stop, the record store starts no program; the
third trip within 24 h locks the chip out. -/
def State.trip (s : State) (k : Nat) : State :=
  let s := s.setThm { s.thm with tripped := true, trips := (s.tenderSec :: s.thm.trips).take 3 }
  let s := s.setThm { s.thm with lockout := s.thm.lockout || decide (3 ≤ s.trips24) }
  let s := { s with tbu := { s.tbu with started := false } }
  let s := (s.set F.THM_TRIP_HIST_TRIP_CAUSE).put F.THM_TRIP_HIST_SENSOR k
  (s.set F.RCS_STATUS_BLOCKED).send (.thermtrip true)

/-! ### Samples (R464 to R468) -/

/-- The lowest armed limit in °C (R468). -/
def State.lowestLimit (s : State) : Nat :=
  let l := if s.flag F.THM_CTRL_WARN_EN then min 115 (s.get F.THM_LIMIT_WARN) else 115
  if s.flag F.THM_CTRL_THROTTLE_EN then min l (s.get F.THM_LIMIT_THROTTLE) else l

/-- The interval class after a reading (R468). -/
def State.intervalClass (s : State) (t : Int) : Nat :=
  if 112 * 16 ≤ t then 2 else if ((s.lowestLimit : Int) - 10) * 16 ≤ t then 1 else 0

/-- Mark a sensor FAILED, with Steol's record (R467). -/
def State.failSensor (s : State) (k : Nat) : State :=
  (s.put F.THM_FAILED_FAILED (s.get F.THM_FAILED_FAILED 0 (k / 32) ||| 2 ^ (k % 32)) 0 (k / 32)).report ⟨12, 1, 1, 0, k, 0⟩

/-- Keep THM_MAX and raise THM_PEAK. -/
def State.thmShow (s : State) (k : Nat) (t : Int) : State :=
  let s := match s.hottest s.working with
    | some (m, j) => s.putAll 0 0 [(F.THM_MAX_TEMP, unsigned 16 m), (F.THM_MAX_SENSOR, j)]
    | none => s
  if signed 16 (s.get F.THM_PEAK_PEAK) < t then s.putAll 0 0 [(F.THM_PEAK_PEAK, unsigned 16 t), (F.THM_PEAK_SENSOR, k)] else s

/-- A sample of sensor k with count n (R464 to R469, R474). -/
def State.sample (s : State) (k n : Nat) : State :=
  if ¬ s.sampled k then s
  else
    let was := (s.sensor k).above
    let (t, s) := s.tempOf k n
    let hot := decide (1840 < t)
    let s := s.setThm { s.thm with sensors := Tab.set s.thm.sensors k ⟨t, n, s.intervalClass t, hot⟩ }
    if s.sensorFailed k then s
    else if n = 0 ∨ t < -880 ∨ 2400 < t then (s.failSensor k).limitsClear
    else
      let s := ((s.thmShow k t).limitsJudge k).limitsClear
      if hot ∧ was ∧ ¬ s.thm.tripped then s.trip k else s

/-! ### Responses (R470, R471) -/

/-- Steol answers WARN (R470). -/
def State.warnResponse (s : State) : State :=
  match s.thm.warnDue with
  | none => s
  | some (k, t) =>
    let s := (s.setThm { s.thm with warnDue := none }).event (.thermal false k (unsigned 16 t))
    (s.set F.MBX_DEV_EVENT_THERM_WARN).report ⟨12, 2, 0, 0, k, 0⟩

/-- Are the started carriers within 512 SU in each direction (R471)? -/
def State.within512 (s : State) : Bool :=
  let run := (s.car.list.map (·.2)).filter (·.started)
  decide (carSum carDl run ≤ 51200 ∧ carSum carUl run ≤ 51200)

/-- Steol answers THROTTLE (R471, items 1 and 2). -/
def State.throttleResponse (s : State) : State :=
  if ¬ s.thm.throttleDue then s
  else
    let s := s.setThm { s.thm with throttleDue := false }
    let s := State.shedUntil State.within512 .thermal s.car.list.length s
    let ds := (List.range 28).filter (fun d => s.domState d = 0)
    let s := s.setThm { s.thm with trim := (s.thm.trim ++ ds).eraseDups }
    ds.foldl (fun s d => s.pwrRequest d 1) s

/-- Every 10 ms while THROTTLE stays set, the next carrier is shed (R471, item 3). -/
def State.throttleShed (s : State) : State :=
  if s.flag F.THM_STATUS_THROTTLE ∧ ¬ s.thm.throttleDue then
    match s.lowest with
    | some h => s.shedCar h .thermal
    | none => s
  else s

/-- THROTTLE has been clear for 1 s, or 100 ms have passed since the last restore (R471): the domains return to RUN, and one carrier
starts again. -/
def State.throttleRestore (s : State) : State :=
  if s.flag F.THM_STATUS_THROTTLE then s
  else
    let ds := s.thm.trim
    let s := s.setThm { s.thm with trim := [] }
    let s := ds.foldl (fun s d => s.pwrRequest d 0) s
    match s.highestShed (fun h c => c.shed = some .thermal && s.fitsWith h) with
    | some h => s.restoreCar h
    | none => s

/-! ### Tender rules (R458 to R460) -/

/-- A Tender rule beside its registers. -/
def State.rule (s : State) (i : Nat) : TndRule := Tab.get ⟨[], 0, none, 0⟩ s.pwr.rules i

/-- Store a rule. -/
def State.setRule (s : State) (i : Nat) (x : TndRule) : State := s.setPwr { s.pwr with rules := Tab.set s.pwr.rules i x }

/-- The counts of Table 15-7 that run on: wake frames of a lane, and PCIe doorbells. -/
def State.inputCount (s : State) (input : Nat) : Option Nat :=
  if 0x80 ≤ input ∧ input ≤ 0x9F then some (s.netLane (input - 0x80)).wakes
  else if input = 0xA0 then some s.host.doorbells
  else none

/-- The value of an input at a sample (Table 15-7): from the state, or as measured at a supply; none for a reserved input. -/
def State.inputNow (s : State) (i input : Nat) (measured : Int) : Option Int :=
  if input ≤ 3 then some (s.sensor (96 + input)).temp
  else if input ≤ 0x63 then some (s.sensor (input - 4)).temp
  else if 0x70 ≤ input ∧ input ≤ 0x77 ∨ input = 0x7B then some measured
  else if input = 0x78 ∨ input = 0x79 then
    let p := input - 0x78
    some (if s.flag F.TBU_PPS_IN_STATUS_LOST 0 p || s.flag F.TBU_PPS_IN_STATUS_STUCK_HI 0 p || s.flag F.TBU_PPS_IN_STATUS_STUCK_LO 0 p
      then 0 else 1)
  else if input = 0x7A then some (if s.flag F.TBU_REF_STATUS_REF_LOC || s.flag F.TBU_REF_STATUS_FREQ_ERR then 0 else 1)
  else (s.inputCount input).map (fun (n : Nat) => min 32767 ((n : Int) - (s.rule i).seen))

/-- The filtered value of a rule after a sample, as a numerator over a power of two, and the rule's new state (R459); with too few
samples the moving average is a free value, and so is the IIR's start (log entry 12). -/
def State.filterStep (s : State) (i : Nat) (x : Int) : Option (Int × Nat) × State :=
  let r := s.rule i
  let n := s.get F.TND_RULE_CFG_N 0 i
  if s.get F.TND_RULE_CFG_FILTER 0 i = 0 then
    let l := (x :: r.samples).take (2 ^ n)
    let s := s.setRule i { r with samples := l }
    if l.length < 2 ^ n then let (v, s) := s.freshNat; (some (signed 16 v, 0), s) else (some (l.foldl (· + ·) 0, n), s)
  else if r.skip ≠ 0 then (none, s.setRule i { r with skip := r.skip - 1 })
  else
    let (y, s) := match r.y with
      | some y => (y, s)
      | none => let (v, s) := s.freshNat; ((signed 16 v, 0), s)
    let y : Int × Nat := (y.1 * ((2 : Int) ^ n - 1) + x * 2 ^ y.2, y.2 + n)
    (some y, s.setRule i { r with skip := s.get F.TND_RULE_CFG_DECIM 0 i, y := some y })

/-- Does a rule assert, deassert, or stay, at a filtered value (R459)? -/
def State.ruleEdge (s : State) (i : Nat) (y : Int × Nat) : Option Bool :=
  let hi := signed 16 (s.get F.TND_RULE_THRESH_HI 0 i) * 2 ^ y.2
  let lo := signed 16 (s.get F.TND_RULE_THRESH_LO 0 i) * 2 ^ y.2
  if hi ≤ lo then none
  else if s.get F.TND_RULE_CFG_POLARITY 0 i = 0 then (if hi ≤ y.1 then some true else if y.1 ≤ lo then some false else none)
  else (if y.1 ≤ lo then some true else if hi ≤ y.1 then some false else none)

/-- Steol hears of an event rule, or the event is held while it does not run (R460). -/
def State.ruleEvent (s : State) (i : Nat) : State :=
  if s.flag F.MBX_DEV_STATUS_STEOL_READY then s.send (.tenderEvent i) else s.setPwr { s.pwr with held := s.pwr.held ++ [i] }

/-- The wake that a rule requests (R460). -/
def State.ruleWake (s : State) (i : Nat) : State :=
  let d := s.get F.TND_RULE_ACTION_DOMAIN 0 i
  let t := s.get F.TND_RULE_ACTION_TARGET 0 i
  if d = 255 ∧ s.domState 255 = 4 then s.chipWake i
  else if s.domState d ≤ t then s
  else s.pwrRequest d t

/-- The action of a rule on its assertion edge (R460). -/
def State.ruleAct (s : State) (i : Nat) : State :=
  let k := s.get F.TND_RULE_ACTION_KIND 0 i
  let input := s.get F.TND_RULE_CFG_INPUT 0 i
  let sensor := if input ≤ 3 then 96 + input else if input ≤ 0x63 then input - 4 else 0
  if k = 0 then s.ruleEvent i
  else if k = 1 then s.ruleWake i
  else if k = 3 then (if s.get F.TND_RULE_ACTION_TARGET 0 i % 2 = 0 then s.warnSet sensor (s.sensor sensor).temp else s.throttleSet)
  else s

/-- A sample of a rule (R459, R460). -/
def State.ruleSample (s : State) (i : Nat) (measured : Int) : State :=
  let input := s.get F.TND_RULE_CFG_INPUT 0 i
  if ¬ s.flag F.TND_CTRL_RULES_EN ∨ ¬ s.flag F.TND_RULE_CFG_EN 0 i then s
  else match s.inputNow i input measured with
    | none => s
    | some x =>
      let s := s.setPwr { s.pwr with inputs := Tab.set s.pwr.inputs input x }
      let s := match s.inputCount input with
        | some n => s.setRule i { s.rule i with seen := n }
        | none => s
      let (y, s) := s.filterStep i x
      match y with
      | none => s
      | some y => match s.ruleEdge i y with
        | some true =>
          if s.flag F.TND_RULE_ACTION_ASSERTED 0 i then s
          else (((s.set F.TND_RULE_ACTION_ASSERTED 0 i).set F.TND_RULE_ACTION_FIRED 0 i).ruleAct i).alertShow
        | some false => (s.clr F.TND_RULE_ACTION_ASSERTED 0 i).alertShow
        | none => s

/-! ### The commands -/

/-- SENSOR_SAMPLE (R464 to R469, R474). -/
def execSensorSample (sensor : Fin 100) (count : BitVec 16) (s : State) : Host.Outcome State Fault Refusal :=
  .next (s.sample sensor count.toNat)

/-- WARN_RESPONSE (R470). -/
def execWarnResponse (s : State) : Host.Outcome State Fault Refusal := .next s.warnResponse

/-- THROTTLE_RESPONSE (R471). -/
def execThrottleResponse (s : State) : Host.Outcome State Fault Refusal := .next s.throttleResponse

/-- THROTTLE_SHED_TIMER (R471). -/
def execThrottleShedTimer (s : State) : Host.Outcome State Fault Refusal := .next s.throttleShed

/-- THROTTLE_RESTORE (R471). -/
def execThrottleRestore (s : State) : Host.Outcome State Fault Refusal := .next s.throttleRestore

/-- THM_LIMIT_WRITE (R469). -/
def execThmLimitWrite (value : Word) (s : State) : Host.Outcome State Fault Refusal := .next (s.limitWrite value.toNat)

/-- TENDER_RULE_SAMPLE (R459, R460): measured is the reading of a supply or keep-domain input. -/
def execTenderRuleSample (rule : Fin 32) (measured : BitVec 16) (s : State) : Host.Outcome State Fault Refusal :=
  .next (s.ruleSample rule measured.toInt)

end Sys2Proof.Machine
end

