-- ==== Sys2Proof/Machine/Boot.lean ====
section
/-!
DEFINITION. Sys2Proof/Machine/Boot.lean: cold starts and warm resets (R506 to R509, R556), the boot sequence (R510 to R513, R570), boot
slots and anti-rollback (R515 to R518), record-store programs (R523) and secure debug (R524 to R526).
-/
namespace Sys2Proof.Machine

/-- Store boot. -/
def State.setBoot (s : State) (b : Boot) : State := { s with boot := b }

/-- BOOT_STATE, in both registers (Table 18-9). -/
def State.bootState (s : State) (n : Nat) : State := (s.put F.MBX_DEV_STATUS_BOOT_STATE n).put F.BOOT_STATUS_STATE n

/-! ### What a start clears and keeps (Table 18-1, R556) -/

/-- The memories after a start: the record store with its errors, the fuses, and what the field repair map says; everything else is
zeroed. -/
def State.coldMem (s : State) : State :=
  let rcs (a : Nat) : Bool := decide (rcsBase ≤ a ∧ a < rcsBase + 0x400000)
  { s with
    mem := s.mem.filter (fun c => rcs c.1)
    memx := { MemSt.reset with
      chk := s.memx.chk.filter (fun c => rcs c.1), repairs := s.memx.repairs, spares := s.memx.spares, fuses := s.memx.fuses
      logNext := s.memx.logNext } }

/-- The model's own fields go on. -/
def State.own (s from_ : State) : State := { s with out := from_.out, free := from_.free, pending := from_.pending }

/-- Everything at its reset value, with the memories that survive. -/
def State.bare (s : State) : State := { (State.reset.own s) with mem := s.coldMem.mem, memx := s.coldMem.memx }

/-- The end of the power-on reset of a cold start (Table 18-1). -/
def State.coldReset (s : State) : State :=
  let r := { s.bare with
    boot := { Boot.reset with why := s.boot.why, flash := s.boot.flash }
    thm := { State.reset.thm with trips := s.thm.trips, base := s.tenderSec, released := s.thm.released }
    pins := { State.reset.pins with badRail := s.pins.badRail, resetN := s.pins.resetN } }
  (r.put F.PWR_KEEP_BROWNOUT (s.get F.PWR_KEEP_BROWNOUT)).wr ⟨.THM_TRIP_HIST, 0, 0⟩ (s.rd ⟨.THM_TRIP_HIST, 0, 0⟩)

/-- Does a warm reset keep a register (R556)? -/
def keptReg (r : Reg) : Bool :=
  r.place.block = .TND || decide (r ∈ [.TBU_CTRL, .TBU_STATUS, .TBU_JUMP_LIMIT, .TBU_SLEW_RESID_NS, .TBU_HOLDOVER, .TBU_D_INC_FRAC,
    .TBU_D_INC_NS, .PWR_KEEP, .THM_TRIP_HIST, .THM_TRIP_AGE])

/-- Fields of other registers that a warm reset keeps: TIME_VALID, SLOT_NEXT and its valid bit (R556), the car number (R543), what
counts or holds since cold start (R525, Table 14-18). -/
def keptFields : List (Fld × Nat) :=
  [(F.TBU_D_STATUS_TIME_VALID, 0), (F.TBU_D_STATUS_TIME_VALID, 1), (F.BOOT_CTRL_SLOT_NEXT, 0), (F.BOOT_CTRL_SLOT_NEXT_VALID, 0),
   (F.CPL_CONSIST_CAR, 0), (F.BOOT_DBG_STATUS_FAILS, 0), (F.BOOT_DBG_STATUS_LOCKED_OUT, 0), (F.MBX_DEV_STATUS_FAILOVERS, 0)]

/-- The bit of RST_CAUSE of a warm reset (Table 18-10). -/
def warmBit : WarmCause → Fld
  | .pin => F.RST_CAUSE_RESET_PIN
  | .software => F.RST_CAUSE_SOFTWARE
  | .watchdog => F.RST_CAUSE_WATCHDOG

/-- A warm reset: logic outside the keep domain and the Tender (Table 18-1, R556). -/
def State.warmReset (s : State) (c : WarmCause) : State :=
  let dom (x : TbuDom) : TbuDom := { x with incPend := none, step := none, setThisTick := false }
  let r := { s.bare with
    regs := s.regs.filter (fun k => keptReg k.1.reg)
    tbu := { s.tbu with a := dom s.tbu.a, b := dom s.tbu.b, switch := none, snap := false, ppsLast := [], stamps := [],
                        snapActive := none }
    pwr := { State.reset.pwr with rules := s.pwr.rules, inputs := s.pwr.inputs, held := s.pwr.held }
    boot := { Boot.reset with romDue := false, why := s.boot.why, flash := s.boot.flash, challenges := s.boot.challenges }
    thm := { State.reset.thm with trips := s.thm.trips, base := s.thm.base }
    pins := { s.pins with xoffParked := [] } }
  let r := keptFields.foldl (fun r f => r.put f.1 (s.get f.1 0 f.2) 0 f.2) r
  (r.clr F.TBU_STATUS_SWITCH_PENDING).set (warmBit c)

/-! ### The ROM (Table 18-2, R510, R515) -/

/-- The later valid descriptor copy, with its index (R515). -/
def laterCopy : List (Option (Nat × Nat)) → Option (Nat × Nat × Nat)
  | [some a, some b] => if 0 < (b.1 + 2 ^ 32 - a.1) % 2 ^ 32 ∧ (b.1 + 2 ^ 32 - a.1) % 2 ^ 32 < 2 ^ 31 then some (1, b) else some (0, a)
  | some a :: _ => some (0, a)
  | [none, some b] => some (1, b)
  | _ => none

/-- The ROM from its start to BOOT_STATE 1 (R510, R512, R515); pair0 says that pair 0 passes its lockstep self-test. -/
def State.rom (s : State) (pair0 : Bool) : State :=
  let pair := if pair0 ∧ ¬ s.retired 15 0 then 0 else 1
  let (copy, primary) := match laterCopy s.boot.flash with
    | some (i, _, p) => (i, p)
    | none => (0, 0)
  let next := s.flag F.BOOT_CTRL_SLOT_NEXT_VALID
  let slot := if next then s.get F.BOOT_CTRL_SLOT_NEXT else primary
  let s := s.setBoot { s.boot with
    romDue := false, warmDue := none, wdog := some s.tbu.ticks, slot := slot, fromNext := next, failed := [], primary := primary,
    trained := [] }
  let s := s.putAll 0 0 [(F.BOOT_CTRL_SLOT_NEXT_VALID, 0), (F.BOOT_CTRL_SLOT_NEXT, 0), (F.BOOT_STATUS_PAIR, pair),
    (F.BOOT_STATUS_DESC_COPY, copy), (F.MBX_DEV_STATUS_ACTIVE_PAIR, pair), (F.FUS_STATUS_LOADED, 1)]
  s.bootState 1

/-- The cold boot up to BOOT_STATE 1 (R511, R522, R543), while RESET_N is high (R507): the straps, the board descriptor if one is committed, else the search of the
reference. -/
def State.coldBoot (s : State) (car keep : Nat) (pair0 : Bool) (board : BoardDesc) (search : Option (Fin 3)) : State :=
  if ¬ s.boot.romDue ∨ s.pins.resetN then s
  else
    let desc := (s.recBody 0).isSome
    let s := s.put F.CPL_CONSIST_CAR car
    let s := s.setTo F.PWR_KEEP_MODE (keep = 1 || (keep = 2 && desc && board.lpreg))
    let s := s.setBoot { s.boot with badStraps := decide (keep = 3) }
    let s := s.setTo F.BOOT_STATUS_DESC_DEFAULT (!desc)
    let s := if desc then (s.put F.TBU_CTRL_REF_SEL board.refSel).set F.TBU_CTRL_PLL_EN
      else match search with
        | some i => (s.put F.TBU_CTRL_REF_SEL i).set F.TBU_CTRL_PLL_EN
        | none => s
    let s := match s.boot.why with
      | .powerOn => s.set F.RST_CAUSE_POWER_ON
      | .lockout => (s.set F.RST_CAUSE_LOCKOUT_RELEASE).set F.THM_TRIP_HIST_LOCKOUT_SEEN
      | .brownout => s.set F.TBU_HOLDOVER_BROWNOUT_LOST
      | .thermal => s
    s.rom pair0

/-! ### Slots (R515, R517, R518) -/

/-- The burned bits of a word. -/
def popcount (w : Nat) : Nat := ((List.range 32).filter w.testBit).length

/-- The anti-rollback counter (R518). -/
def State.rollback (s : State) : Nat := popcount (Tab.get 0 s.memx.fuses 0x41) + popcount (Tab.get 0 s.memx.fuses 0x42)

/-- Raise the anti-rollback counter to n: bits are burned in order (R518). -/
def State.burnTo (s : State) (n : Nat) : State :=
  if n ≤ s.rollback then s
  else
    let f := Tab.set (Tab.set s.memx.fuses 0x41 (2 ^ min 32 n - 1)) 0x42 (2 ^ (min 64 n - 32) - 1)
    (s.setMemx { s.memx with fuses := f }).put F.BOOT_STATUS_COUNTER (min 64 n)

/-- Put a failure cause of a slot (Table 18-5). -/
def State.slotFail (s : State) (slot cause : Nat) : State :=
  s.put (if slot = 0 then F.BOOT_STATUS_FAIL_A else F.BOOT_STATUS_FAIL_B) cause

/-- The first n positions below m that are not retired, then F (R486). -/
def State.inOrder (s : State) (typ base m n : Nat) : List Nat :=
  let l := (List.range m).filter (fun p => !s.retired typ (base + p))
  (List.range n).map (fun k => l.getD k 0xF)

/-- A map word of 4-bit fields. -/
def mapWord (l : List Nat) : Nat := l.zipIdx.foldl (fun w x => w + x.1 * 16 ^ x.2) 0

/-- The maps as Steol first writes them (R486): units in ascending order without the retired ones.  Which of the usable MXCs starts on
the bench the spec leaves open (a free value, log entry 3). -/
def State.bootMaps (s : State) : State :=
  let s := (List.range 24).foldl (fun s c =>
    if (List.range 9).any (fun p => s.retired 0 (c * 9 + p)) then (s.put F.SCL_MAP_SLOT (mapWord (s.inOrder 0 (c * 9) 9 8)) c).sclShow c
    else s) s
  let s := (List.range 9).foldl (fun s k =>
    let c := k + 1
    let n := engCount c
    if (List.range n).any (fun p => s.retired (2 + c) p) then
      let l := (List.range n).filter (fun p => !s.retired (2 + c) p) ++ (List.range n).filter (fun p => s.retired (2 + c) p)
      l.zipIdx.foldl (fun s x => s.put F.T_CTRL_MAP_PHYS x.1 (engInst c x.2)) s
    else s) s
  let s := (List.range 32).foldl (fun s e =>
    if (List.range 9).any (fun p => s.retired 2 (e * 9 + p)) then s.put F.BMV_ENG_MAP_MAP (mapWord (s.inOrder 2 (e * 9) 9 8)) e else s) s
  let ok := (List.range 24).filter (fun c => !s.retired 1 c)
  let (n, s) := s.freshNat
  let bench := if ok.length = 24 then [n % 24] else []
  (ok.filter (· ∉ bench)).foldl (fun s c => s.mxService c true) s

/-- The ROM's check of the slot being booted ends (R517, R518): fault is the first check of Table 18-5 up to 4 that fails, 0 for none.
On success Steol starts, applies repairs and the retired units, and the memories are zeroed and trained (BOOT_STATE 2 to 4). -/
def State.imageVerify (s : State) (fault secver : Nat) : State :=
  if s.get F.BOOT_STATUS_STATE ≠ 1 then s
  else
    let slot := s.boot.slot
    let cause := if fault ≠ 0 then fault else if secver < s.rollback then 5 else 0
    if cause ≠ 0 then
      let s := s.slotFail slot cause
      let s := s.setBoot { s.boot with failed := slot :: s.boot.failed }
      if 1 - slot ∈ s.boot.failed then (s.setBoot { s.boot with wdog := none }).bootState 15
      else s.setBoot { s.boot with slot := 1 - slot }
    else
      let s := s.putAll 0 0 [(F.BOOT_STATUS_SLOT, slot), (F.BOOT_STATUS_SECVER, secver), (F.BOOT_STATUS_COUNTER, s.rollback)]
      let s := if slot = s.boot.primary then s.burnTo secver else s
      ((s.applyRepairs (fun _ => true)).bootMaps).bootState 4

/-! ### Units retired and stacks lost (R485, R494) -/

/-- A kind-3 entry of the field repair map for a unit id, with Steol's record of the retirement and the self-test result (R485). -/
def State.retireUnit (s : State) (unit result : Nat) : State :=
  let s := if s.retired (unit / 2048) (unit % 2048) then s
    else if 2048 ≤ s.memx.repairs.length then s.repairReport 0xB unit
    else s.setRepairs (s.memx.repairs ++ [⟨3, false, false, unit, 0, s.activeTime.sec % 2 ^ 32⟩])
  s.report ⟨15, 2, 1, unit, result, 0⟩

/-- A cluster, row or stack is retired as one unit with a record of the highest severity (R494, Table 17-10). -/
def State.retireDomain (s : State) (unit : Nat) : State :=
  let s := if s.retired (unit / 2048) (unit % 2048) then s
    else if 2048 ≤ s.memx.repairs.length then s.repairReport 0xB unit
    else s.setRepairs (s.memx.repairs ++ [⟨3, false, false, unit, 0, s.activeTime.sec % 2 ^ 32⟩])
  s.report ⟨15, 3, 2, unit, 0, 0⟩

/-- A stack is lost: every carrier stops (R494, R513). -/
def State.stackLoss (s : State) (st : Nat) : State :=
  let run := (s.car.list.filter (fun c => c.2.started)).map (·.1)
  run.foldl (fun s h => s.carStop h none) (s.retireDomain (18 * 2048 + st))

/-- The queued HBM rows of a stack (R282): kind 2, with the stack in the low bits of MACRO (Table 9-5). -/
def pprQueued (st : Nat) (r : Repair) : Bool := r.kind = 2 && !r.applied && !r.unrepairable && r.macroId % 4 = st

/-- A stack has trained (R272, R282): its queued rows are repaired, those in a bank of noRes find no resource; left is what MEM_PPR then
shows; and the init engine starts. -/
def State.stackTrained (s : State) (st : Nat) (noRes : List Nat) (left : Nat) : State :=
  let mine := s.memx.repairs.filter (pprQueued st)
  let bad (r : Repair) : Bool := decide (r.macroId / 64 ∈ noRes)
  let s := if mine = [] then s
    else s.setRepairs (s.memx.repairs.map (fun r => if pprQueued st r then
      (if bad r then { r with unrepairable := true } else { r with applied := true }) else r))
  let s := (mine.filter bad).foldl (fun s r => s.repairReport 0xB r.macroId) s
  let s := s.raise F.MEM_PPR_USED (s.get F.MEM_PPR_USED st + (mine.filter (fun r => !bad r)).length) st
  let s := s.putAll st 0 [(F.MEM_PPR_LEFT, left), (F.MEM_STATUS_TRAINED, 1), (F.MEM_STATUS_INIT_DONE, 0), (F.MEM_READY_LO_READY, 0),
    (F.MEM_READY_HI_READY, 0)]
  s.initNext st

/-- The training of a stack ends (R272, R282, R513). -/
def State.hbmTrain (s : State) (st : Nat) (ok : Bool) (noRes : List Nat) (left : Nat) : State :=
  if s.get F.BOOT_STATUS_STATE < 4 ∨ s.get F.BOOT_STATUS_STATE = 15 ∨ s.flag F.MEM_STATUS_TRAINED st ∨ s.domState (128 + st) ≠ 0 then s
  else
    let s := s.setBoot { s.boot with trained := (st :: s.boot.trained).eraseDups }
    if ok then s.stackTrained st noRes left else s.stackLoss st

/-! ### Steol starts serving (Table 18-2, R570) -/

/-- Steol's settings of the network lanes and ports from the records (R64, R66, R341). -/
def State.netSettings (s : State) (board : BoardDesc) (cable : CableTable) : State :=
  let s := if (s.recBody 0).isSome then
      let s := board.txInv.foldl (fun s n => s.set F.NET_LANE_CTRL_TX_INV n) s
      let s := board.ffe.foldl (fun s x => s.putAll x.1 0 [(F.NET_LANE_TXFFE_PRE, natBits x.2.toNat 0 8),
        (F.NET_LANE_TXFFE_MAIN, natBits x.2.toNat 8 8), (F.NET_LANE_TXFFE_POST, natBits x.2.toNat 16 8)]) s
      s.setCar { s.car with prec := board.prec }
    else s
  let entry (p : Nat) := if (s.recBody 1).isSome then cable.net.find? (fun x => x.1.val = p) else none
  (List.range 32).foldl (fun s p => match entry p with
    | some (_, r, t) => (s.put F.TBU_PORT_EXT_RX_EXT_RX r.toNat 0 p).put F.TBU_PORT_EXT_TX_EXT_TX t.toNat 0 p
    | none => ((s.put F.TBU_PORT_EXT_RX_EXT_RX 0 0 p).put F.TBU_PORT_EXT_TX_EXT_TX 0 0 p).set F.TBU_PORT_CFG_CABLE_DEFAULT 0 p) s

/-- Steol's settings of the coupler ports (R381, R385), and the enable of those with an equalisation entry (R570). -/
def State.cplSettings (s : State) (cable : CableTable) (eq : List EqEntry) : State :=
  let eqOf (p : Nat) := if (s.recBody 2).isSome then eq.find? (fun x => x.port.val = p) else none
  let asym (p : Nat) := if (s.recBody 1).isSome then cable.cpl.find? (fun x => x.1.val = p) else none
  let s := (List.range 16).foldl (fun s p =>
    let s := match asym p with
      | some (_, a) => s.put F.CPL_DELAY_ASYM_ASYM_PS a.toNat p
      | none => (s.put F.CPL_DELAY_ASYM_ASYM_PS 0 p).set F.CPL_PORT_STATUS_CAL_DEFAULT p
    let s := match eqOf p with
      | some x => s.putAll p 0 [(F.CPL_PORT_EQ_PRE, natBits x.eq.toNat 0 5), (F.CPL_PORT_EQ_MAIN, natBits x.eq.toNat 5 5),
          (F.CPL_PORT_EQ_POST, natBits x.eq.toNat 10 5), (F.CPL_PORT_EQ_CTLE, natBits x.eq.toNat 15 4),
          (F.CPL_PORT_EQ_GAIN, natBits x.eq.toNat 19 4), (F.CPL_PORT_EQ_CLASS, natBits x.eq.toNat 23 3), (F.CPL_PORT_CTRL_RATE, x.rate)]
      | none => s.putAll p 0 [(F.CPL_PORT_EQ_PRE, unsigned 5 (-2)), (F.CPL_PORT_EQ_MAIN, 24), (F.CPL_PORT_EQ_POST, unsigned 5 (-4)),
          (F.CPL_PORT_EQ_CTLE, 6), (F.CPL_PORT_EQ_GAIN, 8), (F.CPL_PORT_EQ_CLASS, 0), (F.CPL_PORT_STATUS_EQ_DEFAULT, 1)]
    s.set F.CPL_PORT_STATUS_CAL_DONE p) s
  (List.range 16).foldl (fun s p => if (eqOf p).isSome then s.cplEnable p else s) s

/-- BOOT_STATE 5 (Table 18-2): Steol serves mailboxes, the watchdog stops, the boot's records and events follow (R455, R478, R481, R543),
the ports are set and enabled (R570), and under debug policy 2 debug is unlocked (R524). -/
def State.steolReady (s : State) (board : BoardDesc) (cable : CableTable) (eq : List EqEntry) : State :=
  if s.get F.BOOT_STATUS_STATE ≠ 4 ∨ ¬ (List.range 4).all (fun st => decide (st ∈ s.boot.trained)) then s
  else
    let s := ((s.bootState 5).set F.MBX_DEV_STATUS_STEOL_READY).setBoot { s.boot with wdog := none }
    let s := (s.netSettings board cable).cplSettings cable eq
    let s := if s.boot.badStraps then (s.report ⟨13, 3, 1, 0, 0, 0⟩).setBoot { s.boot with badStraps := false } else s
    let s := if s.flag F.THM_TRIP_HIST_TRIP_CAUSE then s.report ⟨12, 3, 2, 0, s.get F.THM_TRIP_HIST_SENSOR, 0⟩ else s
    let s := if s.flag F.THM_TRIP_HIST_TRIP_CAUSE ∨ s.flag F.TBU_HOLDOVER_BROWNOUT_LOST then s.event (.time s.active .brownoutLost) else s
    let s := if natBits (Tab.get 0 s.memx.fuses 0x43) 0 2 = 2 then
        s.putAll 0 0 [(F.BOOT_DBG_STATUS_UNLOCKED, 1), (F.BOOT_DBG_STATUS_SCOPE, 3), (F.MBX_CSR_WIN_WR_EN, 1)]
      else s
    s.heldSend

/-! ### Resets -/

/-- Ask for a warm reset (R506): it runs at the WARM_RESET row, after a record-store program in progress (R507). -/
def State.warmAsk (s : State) (c : WarmCause) : State := s.setBoot { s.boot with warmDue := some c }

/-- The warm reset runs, and the ROM after it (Table 18-1, R507, R517). -/
def State.warmRun (s : State) (pair0 : Bool) : State :=
  match s.boot.warmDue with
  | none => s
  | some c =>
    if s.boot.rcs.isSome ∨ s.pins.resetN then s
    else
      let s := (s.warmReset c).rom pair0
      if c = .watchdog then s.slotFail (1 - s.boot.slot) 6 else s

/-- The boot watchdog expires (R512). -/
def State.wdogExpire (s : State) : State :=
  if s.boot.wdog.isNone then s
  else if s.boot.fromNext then ((s.setBoot { s.boot with wdog := none }).slotFail s.boot.slot 6).bootState 15
  else (s.putAll 0 0 [(F.BOOT_CTRL_SLOT_NEXT, 1 - s.boot.slot), (F.BOOT_CTRL_SLOT_NEXT_VALID, 1)]).warmAsk .watchdog

/-- Has a cluster or row a unit in service (R509)? -/
def State.domServes (s : State) (d : Nat) : Bool :=
  (List.range 352).any (fun e => s.execDomain e = some d && s.execInService e) || (decide (d < 24) && s.flag F.MXC_STATUS_IN_SERVICE d)

/-- A domain reset (R509): refused, or the logic and memories of the domain are cleared and it wakes. -/
def State.rstDomain (s : State) (d : Nat) : State :=
  if 28 ≤ d ∨ s.pwr.rstDom.isSome ∨ (s.domServes d ∧ s.domState d ≠ 5) then s.set F.RST_DOMAIN_STATUS_REFUSED
  else
    let s := (((s.pwrSettle d 5).domReset d).sigDrop d).setPwr { s.pwr with rstDom := some d }
    let s := s.set F.RST_DOMAIN_STATUS_BUSY
    s.putAll 0 d [(F.PWR_DOM_STATE_STATE, 5), (F.PWR_DOM_STATE_TARGET, 0), (F.PWR_DOM_STATE_WAKING, 1),
      (F.PWR_DOM_STATE_ENTERING, 0), (F.PWR_DOM_STATE_STEP, 0)]

/-! ### Record-store programs (R523) -/

/-- Address of a record-store word. -/
def rcsWord (w : Nat) : Nat := rcsBase + w % 2 ^ 17 * 32

/-- RCS_CMD.GO (R523): ignored while busy, blocked after a trip, else a program starts. -/
def State.rcsGo (s : State) : State :=
  if s.thm.tripped then s.set F.RCS_STATUS_BLOCKED
  else if s.flag F.RCS_STATUS_BUSY then s.set F.RCS_STATUS_IGNORED
  else
    let d := (List.range 8).map (fun i => s.get F.RCS_DATA_DATA 0 i)
    ((s.set F.RCS_STATUS_BUSY).count F.RCS_PROGRAMS_PROGRAMS).setBoot { s.boot with rcs := some ⟨s.get F.RCS_ADDR_WORD, d, 0⟩ }

/-- The word of a program that did not end well: its contents are open (free values, log entry 3). -/
def State.rcsOpen (s : State) (w : Nat) : State :=
  let n := s.free
  ({ s with free := n + 1 }).setBytes (rcsWord w) ((List.range 32).map (Config.freeByte n))

/-- A program ends (R523): verified, or VERIFY_FAIL with up to 3 retries by Steol and then a record. -/
def State.rcsDone (s : State) (ok : Bool) : State :=
  match s.boot.rcs with
  | none => s
  | some j =>
    let s := (s.clr F.RCS_STATUS_BUSY).setBoot { s.boot with rcs := none }
    if ok then (s.setWords (rcsWord j.word) j.data).setChk (rcsWord j.word) none
    else
      let s := (s.rcsOpen j.word).set F.RCS_STATUS_VERIFY_FAIL
      if s.thm.tripped ∨ s.boot.warmDue.isSome then s
      else if j.fails < 3 then
        ((s.set F.RCS_STATUS_BUSY).count F.RCS_PROGRAMS_PROGRAMS).setBoot { s.boot with rcs := some { j with fails := j.fails + 1 } }
      else s.report ⟨15, 4, 1, 0, 0, rcsWord j.word⟩

/-! ### Secure debug (R524 to R526) -/

/-- The debug policy (Table 18-7). -/
def State.dbgPolicy (s : State) : Nat := natBits (Tab.get 0 s.memx.fuses 0x43) 0 2

/-- The end of an unlock (R526). -/
def State.dbgLock (s : State) : State :=
  s.putAll 0 0 [(F.BOOT_DBG_STATUS_UNLOCKED, 0), (F.BOOT_DBG_STATUS_SCOPE, 0), (F.MBX_CSR_WIN_WR_EN, 0)]

/-- REQ with a scope (R525): the challenge holds a random nonce (a free value), the fuse identifier and the count of requests. -/
def State.dbgReq (s : State) (scope : Nat) : State :=
  let s := s.put F.BOOT_DBG_CTRL_SCOPE scope
  if s.dbgPolicy ≠ 1 ∨ s.flag F.BOOT_DBG_STATUS_LOCKED_OUT ∨ scope = 0 ∨ 3 < scope then s
  else
    let s := s.setBoot { s.boot with challenges := s.boot.challenges + 1 }
    let (n, s) := s.freshNat
    let ws := [n % 2 ^ 32, Tab.get 0 s.memx.fuses 0, Tab.get 0 s.memx.fuses 1, s.boot.challenges]
    let s := (List.range 12).foldl (fun s i => s.put F.BOOT_DBG_CHAL_CHAL (ws.getD i 0) 0 i) s
    s.set F.BOOT_DBG_STATUS_CHAL_VALID

/-- GO (R525): ok says that the response verifies against the debug public key, and the key against the fused hash. -/
def State.dbgGo (s : State) (ok : Bool) : State :=
  if ¬ s.flag F.BOOT_DBG_STATUS_CHAL_VALID then s
  else
    let s := s.clr F.BOOT_DBG_STATUS_CHAL_VALID
    if ok then s.putAll 0 0 [(F.BOOT_DBG_STATUS_UNLOCKED, 1), (F.BOOT_DBG_STATUS_SCOPE, s.get F.BOOT_DBG_CTRL_SCOPE), (F.MBX_CSR_WIN_WR_EN, 1)]
    else
      let s := s.count F.BOOT_DBG_STATUS_FAILS
      if s.get F.BOOT_DBG_STATUS_FAILS = 3 then s.set F.BOOT_DBG_STATUS_LOCKED_OUT else s

/-! ### The commands -/

/-- COLD_START (R511, R522, R543): the straps as sampled, whether pair 0 passes its self-test, what a committed board descriptor holds,
and without one the first reference frequency that the monitor accepts. -/
def execColdStart (car : BitVec 3) (keep : BitVec 2) (pair0 : Bool) (board : BoardDesc) (search : Option (Fin 3)) (s : State) :
    Host.Outcome State Fault Refusal := .next (s.coldBoot car.toNat keep.toNat pair0 board search)

/-- BOOT_IMAGE_VERIFY (R517, R518). -/
def execBootImageVerify (fault : Fin 5) (secver : BitVec 7) (s : State) : Host.Outcome State Fault Refusal :=
  .next (s.imageVerify fault secver.toNat)

/-- HBM_TRAINING_COMPLETE (R272, R282, R513). -/
def execHbmTrainingComplete (stack : Fin 4) (ok : Bool) (noRes : List Nat) (left : BitVec 16) (s : State) :
    Host.Outcome State Fault Refusal := .next (s.hbmTrain stack ok noRes left.toNat)

/-- STEOL_READY (R511, R570). -/
def execSteolReady (board : BoardDesc) (cable : CableTable) (eq : List EqEntry) (s : State) : Host.Outcome State Fault Refusal :=
  .next (s.steolReady board cable eq)

/-- WARM_RESET (R506, R507). -/
def execWarmReset (pair0 : Bool) (s : State) : Host.Outcome State Fault Refusal := .next (s.warmRun pair0)

/-- RST_CTRL_WARM (R509). -/
def execRstCtrlWarm (key : BitVec 8) (s : State) : Host.Outcome State Fault Refusal :=
  .next (if key = 0x5A then s.warmAsk .software else s)

/-- RST_DOMAIN (R509). -/
def execRstDomain (domain : BitVec 8) (s : State) : Host.Outcome State Fault Refusal :=
  .next ((s.put F.RST_DOMAIN_DOMAIN domain.toNat).rstDomain domain.toNat)

/-- BOOT_WATCHDOG_EXPIRY (R512). -/
def execBootWatchdogExpiry (s : State) : Host.Outcome State Fault Refusal := .next s.wdogExpire

/-- WDOG_KICK (R512). -/
def execWdogKick (s : State) : Host.Outcome State Fault Refusal :=
  .next (if s.boot.wdog.isSome then s.setBoot { s.boot with wdog := some s.tbu.ticks } else s)

/-- WDOG_STOP (R512). -/
def execWdogStop (s : State) : Host.Outcome State Fault Refusal := .next (s.setBoot { s.boot with wdog := none })

/-- RCS_PROGRAM (R523). -/
def execRcsProgram (s : State) : Host.Outcome State Fault Refusal := .next s.rcsGo

/-- RCS_PROGRAM_COMPLETE (R523). -/
def execRcsProgramComplete (ok : Bool) (s : State) : Host.Outcome State Fault Refusal := .next (s.rcsDone ok)

/-- DBG_REQ (R525). -/
def execDbgReq (scope : BitVec 3) (s : State) : Host.Outcome State Fault Refusal := .next (s.dbgReq scope.toNat)

/-- DBG_GO (R525). -/
def execDbgGo (ok : Bool) (s : State) : Host.Outcome State Fault Refusal := .next (s.dbgGo ok)

/-- DBG_LOCK (R526). -/
def execDbgLock (s : State) : Host.Outcome State Fault Refusal := .next s.dbgLock

end Sys2Proof.Machine
end

