-- ==== Sys2Proof/Machine/Pins.lean ====
section
/-!
DEFINITION. Sys2Proof/Machine/Pins.lean: the supplies and their sequence (R534 to R538), brown-out and VDD_AON (R455, R480), the end of a
thermal trip (R475, R477, R479, R480), RESET_N (R507) and the SMBus target (R544).
-/
namespace Sys2Proof.Machine

/-- Store the pins. -/
def State.setPins (s : State) (p : Pins) : State := { s with pins := p }

/-! ### The power sequence (R535 to R538) -/

/-- The rails of Table 19-7 that are in their band one after the other from VDD_IO on. -/
def railsInOrder (mask : Nat) : Nat := ((List.range 7).takeWhile (fun k => mask.testBit k)).length

/-- A rail as SMBus STATUS codes it, 1 for VDD_CORE to 7 for VDD_IO (Table 19-13); k numbers the rails as Table 19-7 enables them. -/
def railCode (k : Nat) : Nat := if k = 0 then 7 else k

/-- Drive the supply enables: the first n rails of Table 19-7. -/
def State.enableRails (s : State) (n : Nat) : State := (s.setPins { s.pins with enabled := n }).send (.enables n)

/-- A record-store program is cut off (R477): the word's contents are open, and its check may fail. -/
def State.rcsCut (s : State) : State :=
  match s.boot.rcs with
  | none => s
  | some j =>
    let s := (s.rcsOpen j.word).setBoot { s.boot with rcs := none }
    let (bad, s) := s.freshBool
    let (p, s) := s.freshNat
    s.setChk (rcsWord j.word) (if bad then some (.ue p) else none)

/-- Every rail but VDD_AON goes down: the main die stops and loses its clocks. -/
def State.railsOff (s : State) : State :=
  let s := { s.rcsCut with tbu := { s.rcsCut.tbu with started := false } }
  (s.setPins { s.pins with rails := 0 }).enableRails 0

/-- A rail enters its band (R535): the next enable asserts, and after the last rail the power-on reset ends. -/
def State.railUp (s : State) (k : Nat) : State :=
  if s.thm.tripped ∨ s.pins.lockout then s
  else if k = 7 then (if s.pins.aon then s else (s.setPins { s.pins with aon := true }).enableRails 1)
  else if ¬ s.pins.aon ∨ s.pins.rails.testBit k then s
  else
    let n := railsInOrder (s.pins.rails ||| 2 ^ k)
    let s := s.setPins { s.pins with rails := s.pins.rails ||| 2 ^ k }
    if s.pins.rails = 127 then (s.coldReset.send (.enables 7)).alertShow
    else if s.pins.enabled < n + 1 then s.enableRails (n + 1) else s

/-- A rail is not in its band within 5 ms of its enable (R536): the enables drop, and the sequence runs again, or the third failure in a
row locks the device out. -/
def State.railLate (s : State) : State :=
  let k := s.pins.enabled - 1
  if ¬ s.pins.aon ∨ s.thm.tripped ∨ s.pins.lockout ∨ s.pins.enabled = 0 ∨ s.pins.rails.testBit k then s
  else
    let f := s.pins.upFails + 1
    let s := s.railsOff
    let s := (s.setPins { s.pins with upFails := f, fault := true, badRail := railCode k, lockout := decide (3 ≤ f) }).alertShow
    if 3 ≤ f then s else s.enableRails 1

/-- A power fault on an enabled rail (R538); VDD_CORE and VDD_SRAM in HIBERNATE with LPREG are not enabled. -/
def State.powerFault (s : State) (k : Nat) : State :=
  let offInHib := decide (k = 1 ∨ k = 2) && decide (s.domState 255 = 4) && s.flag F.PWR_KEEP_MODE
  if ¬ s.pins.aon ∨ s.thm.tripped ∨ s.pins.enabled ≤ k ∨ ¬ s.pins.rails.testBit k ∨ offInHib then s
  else
    let s := s.railsOff
    let s := (s.setPins { s.pins with fault := true, badRail := railCode k }).setBoot { s.boot with why := .powerOn }
    s.alertShow.enableRails 1

/-- An AVSBus write of a VDD_CORE setpoint (R534). -/
def State.avsWrite (s : State) (mv : Nat) (ack : Bool) : State :=
  let s := s.send (.avs mv)
  if ack then s.setPins { s.pins with coreMv := mv } else s.report ⟨13, 2, 1, 0, 0, 0⟩

/-! ### Brown-out and VDD_AON -/

/-- A brown-out of the keep domain (R455); after a trip it is only latched (R481). -/
def State.brownout (s : State) : State :=
  if ¬ s.pins.aon then s
  else
    let s := s.set F.PWR_KEEP_BROWNOUT
    if ¬ s.dieOn then s
    else (s.rcsCut.setBoot { s.rcsCut.boot with why := .brownout }).coldReset

/-- VDD_AON is removed (R480, Table 18-1): the chip is in OFF; the record store, the fuses and the flash stay. -/
def State.aonOff (s : State) : State :=
  let s := s.rcsCut
  let r := { s.bare with
    boot := { Boot.reset with flash := s.boot.flash }
    pins := { s.bare.pins with rails := 0, enabled := 0, aon := false, resetN := s.pins.resetN } }
  r.put F.PWR_DOM_STATE_STATE 5 0 255

/-! ### After a trip (R475, R477, R479) -/

/-- The supply enables drop after the trip (Table 16-3). -/
def State.tripOff (s : State) : State := if ¬ s.thm.tripped ∨ s.pins.rails = 0 then s else s.railsOff

/-- The restart after a trip begins: THERMTRIP_N deasserts and the power sequence starts (R479, R535). -/
def State.restart (s : State) (why : ColdCause) : State :=
  let s := (s.setThm { s.thm with tripped := false }).setBoot { s.boot with why := why }
  (s.send (.thermtrip false)).enableRails 1

/-- Has every working Tender sensor read below 90 °C (R479)? -/
def State.tenderCool (s : State) : Bool :=
  [96, 97, 98, 99].all (fun k => s.sensorFailed k || decide ((s.sensor k).temp < 90 * 16))

/-- The Tender's restart after a trip (R479, R480). -/
def State.tripRestart (s : State) : State :=
  if ¬ s.thm.tripped ∨ s.thm.lockout ∨ s.pins.rails ≠ 0 ∨ ¬ s.tenderCool then s
  else s.restart (if s.thm.released then .lockout else .thermal)

/-! ### RESET_N (R507) -/

/-- RESET_N has been low for 1 µs: a warm reset begins, after a record-store program in progress. -/
def State.resetLow (s : State) : State :=
  if s.pins.resetN then s
  else
    let s := s.setPins { s.pins with resetN := true }
    if ¬ s.dieOn ∨ s.boot.romDue then s
    else if s.boot.rcs.isSome then s.warmAsk .pin
    else (s.warmReset .pin).warmAsk .pin

/-- RESET_N is released: a lockout ends (R480, R536), else boot starts. -/
def State.resetHigh (s : State) (pair0 : Bool) : State :=
  if ¬ s.pins.resetN then s
  else
    let s := s.setPins { s.pins with resetN := false }
    if s.thm.tripped then
      if ¬ s.thm.lockout then s
      else
        let s := s.setThm { s.thm with trips := [], lockout := false, released := true }
        if [96, 97, 98, 99].all s.sensorFailed ∧ s.pins.rails = 0 then s.restart .lockout else s
    else if s.pins.lockout then ((s.setPins { s.pins with lockout := false, upFails := 0 }).alertShow).enableRails 1
    else s.warmRun pair0

/-! ### SMBus (R544, Table 19-13) -/

/-- Answer an SMBus read: the Tender answers in every state but OFF. -/
def State.smbus (s : State) (v : Nat) : State := if s.pins.aon then s.send (.readData (BitVec.ofNat 32 v)) else s

/-- STATUS. -/
def State.smbStatus (s : State) : Nat :=
  let bit (b : Bool) (i : Nat) : Nat := if b then 2 ^ i else 0
  let up := decide (s.pins.rails = 127)
  (if up then s.get F.MBX_DEV_STATUS_BOOT_STATE else 0) + bit (up && s.flag F.MBX_DEV_STATUS_STEOL_READY) 4 +
  bit (s.flag F.PWR_KEEP_BROWNOUT) 5 + bit (s.flag F.THM_TRIP_HIST_TRIP_CAUSE) 6 + bit s.thm.lockout 7 + s.pins.badRail * 2 ^ 8 +
  bit s.pins.lockout 11 + bit (s.flag F.TND_STATUS_ALERT) 12

/-- The highest reading among the working sensors of a list, as a 16-bit word. -/
def State.hotWord (s : State) (l : List Nat) : Nat :=
  match s.hottest (l.filter (fun k => s.sampled k && !s.sensorFailed k)) with
  | some (t, _) => unsigned 16 t
  | none => 0

/-! ### The commands -/

/-- BROWNOUT (R455). -/
def execBrownout (s : State) : Host.Outcome State Fault Refusal := .next s.brownout

/-- TRIP_SUPPLY_OFF (R475, R477). -/
def execTripSupplyOff (s : State) : Host.Outcome State Fault Refusal := .next s.tripOff

/-- TRIP_RESTART (R479). -/
def execTripRestart (s : State) : Host.Outcome State Fault Refusal := .next s.tripRestart

/-- RESET_N_ASSERT (R507). -/
def execResetNAssert (s : State) : Host.Outcome State Fault Refusal := .next s.resetLow

/-- RESET_N_RELEASE (R507, R480, R536). -/
def execResetNRelease (pair0 : Bool) (s : State) : Host.Outcome State Fault Refusal := .next (s.resetHigh pair0)

/-- RAIL_IN_BAND (R535). -/
def execRailInBand (rail : Fin 8) (s : State) : Host.Outcome State Fault Refusal := .next (s.railUp rail)

/-- RAIL_TIMEOUT (R536). -/
def execRailTimeout (s : State) : Host.Outcome State Fault Refusal := .next s.railLate

/-- POWER_FAULT (R538). -/
def execPowerFault (rail : Fin 7) (s : State) : Host.Outcome State Fault Refusal := .next (s.powerFault rail)

/-- AVSBUS_WRITE (R534). -/
def execAvsbusWrite (mv : BitVec 12) (ack : Bool) (s : State) : Host.Outcome State Fault Refusal := .next (s.avsWrite mv.toNat ack)

/-- SMBus STATUS (R544). -/
def execSmbusStatus (s : State) : Host.Outcome State Fault Refusal := .next (s.smbus s.smbStatus)

/-- SMBus TEMP_MAX (R544): the Tender sensors' maximum while the main die is unpowered. -/
def execTempMax (s : State) : Host.Outcome State Fault Refusal :=
  .next (s.smbus (s.hotWord (if s.dieOn then List.range 100 else [96, 97, 98, 99])))

/-- SMBus TEMP_TENDER (R544). -/
def execTempTender (s : State) : Host.Outcome State Fault Refusal := .next (s.smbus (s.hotWord [96, 97, 98, 99]))

/-- SMBus RAIL n (R544): the Tender input 0x70 + n in mV. -/
def execRail (n : Fin 8) (s : State) : Host.Outcome State Fault Refusal :=
  .next (s.smbus (unsigned 16 (Tab.get 0 s.pwr.inputs (0x70 + n.val))))

/-- SMBus ALERT_RULES (R544). -/
def execAlertRules (s : State) : Host.Outcome State Fault Refusal :=
  .next (s.smbus (((List.range 32).map (fun i => if s.flag F.TND_RULE_ACTION_ASSERTED 0 i then 2 ^ i else 0)).sum))

/-- SMBus STATE (R544). -/
def execState (s : State) : Host.Outcome State Fault Refusal := .next (s.smbus (s.domState 255))

/-- SMBUS_TIMEOUT (R544). -/
def execSmbusTimeout (s : State) : Host.Outcome State Fault Refusal := .next (if s.pins.aon then s.send .smbRelease else s)

/-- VDD_AON_REMOVAL (R480). -/
def execVddAonRemoval (s : State) : Host.Outcome State Fault Refusal := .next s.aonOff

end Sys2Proof.Machine
end

