-- ==== Sys2Proof/Machine/Faults.lean ====
section
/-!
DEFINITION. Sys2Proof/Machine/Faults.lean: 17_dependability.md beside the error records: unit faults and their replacement (R485), lane
faults (R347, R387), bench rotation and self-tests (R488 to R491), Steward failover (R492, R493) and degraded operation (R494 to R498).
-/
namespace Sys2Proof.Machine

/-- Store dependability. -/
def State.setDep (s : State) (d : Dep) : State := { s with dep := d }

/-- The self-test result of an error record (Table 17-10). -/
def testResult (pass : Bool) : Nat := if pass then 0 else 1

/-! ### Units on the bench -/

/-- Is a unit of Table 17-2 on its bench? -/
def State.onBench (s : State) (u : Nat) : Bool :=
  let t := u / 2048
  let i := u % 2048
  if t = 0 then s.get F.SCL_STATUS_BENCH_POS (i / 9) = i % 9
  else if t = 1 then !s.flag F.MXC_STATUS_IN_SERVICE i
  else if t = 2 then s.get F.BMV_ENG_STATUS_BENCH_SLICE (i / 9) = i % 9
  else (List.range (classBench (t - 2))).any (fun b => s.get F.T_CTRL_MAP_PHYS (engInst (t - 2) (classActive (t - 2) + b)) = i)

/-- Does a map write that waits for idle units already place a bench unit in service (R156, R217, R288)? -/
def State.promised (s : State) (u : Nat) : Bool :=
  let t := u / 2048
  let i := u % 2048
  if t = 0 then (match Tab.find s.scl.mapPending (i / 9) with
    | some m => (mapSlot m (i % 9)).isSome
    | none => false)
  else if t = 1 then false
  else if t = 2 then (match Tab.find s.exu.bmvMap (i / 9) with
    | some m => (mapSlot m (i % 9)).isSome
    | none => false)
  else s.exu.mapPhys.any (fun w => decide (engClass w.1 = t - 2 ∧ engLocal w.1 < classActive (t - 2) ∧ w.2 = i))

/-- Does a bench unit qualify as a replacement (R485): its last completed self-test passed, it is not retired, no map write that waits
takes it, and a core is not lent? -/
def State.qualifies (s : State) (u : Nat) : Bool :=
  decide (u ∈ s.dep.passed) && s.onBench u && !s.retired (u / 2048) (u % 2048) && !s.promised u &&
  (decide (2048 ≤ u) || (!s.flag F.SCL_LEND_EN (u / 9) && (Tab.find s.scl.lends (u / 9)).isNone))

/-- The map of 4-bit fields with slot k replaced. -/
def mapSet (map k p : Nat) : Nat := map - map / 16 ^ k % 16 * 16 ^ k + p * 16 ^ k

/-! ### A replacement (R485, step 1) -/

/-- A replacement core for logical core l: its own cluster's bench core, else the qualifying one of the lowest-numbered other cluster.
A map that still waits is kept and amended, and a bench core that it already brings in for l stays the replacement. -/
def State.coreReplace (s : State) (l : Nat) : Option State :=
  let c := l / 8
  let s := match s.lender l with
    | some n => s.lendWrite n l false
    | none => s
  let map := Tab.get (s.get F.SCL_MAP_SLOT c) s.scl.mapPending c
  let own := s.get F.SCL_STATUS_BENCH_POS c
  if own ≠ 0xF ∧ (s.qualifies (c * 9 + own) ∨ map / 16 ^ (l % 8) % 16 = own) then some (s.sclMapWrite c (mapSet map (l % 8) own))
  else
    match (List.range 24).find? (fun n => decide (n ≠ c) && decide (s.get F.SCL_STATUS_BENCH_POS n ≠ 0xF) &&
        s.qualifies (n * 9 + s.get F.SCL_STATUS_BENCH_POS n)) with
    | some n => some ((s.sclMapWrite c (mapSet map (l % 8) 0xF)).lendWrite n l true)
    | none => none

/-- A replacement engine for instance k of class c: the lowest bench instance that qualifies; the faulty engine goes to the bench. -/
def State.engReplace (s : State) (c k : Nat) : Option State :=
  let i := engInst c k
  let p := s.get F.T_CTRL_MAP_PHYS i
  ((List.range (classBench c)).find? (fun b => s.qualifies (s.benchUnit c b) ||
      decide (Tab.find s.exu.mapPhys i = some (s.benchUnit c b % 2048)))).map (fun b =>
    let j := engInst c (classActive c + b)
    (s.engMapWrite i (s.get F.T_CTRL_MAP_PHYS j)).engMapWrite j p)

/-- A replacement slice behind the channel that slice x of block mover e serves. -/
def State.sliceReplace (s : State) (e x : Nat) : Option State :=
  let b := s.get F.BMV_ENG_STATUS_BENCH_SLICE e
  let map := Tab.get (s.get F.BMV_ENG_MAP_MAP e) s.exu.bmvMap e
  match mapSlot map x with
  | none => some s
  | some k => if b ≠ 0xF ∧ s.qualifies (2 * 2048 + e * 9 + b) then some (s.bmvMapWrite e (mapSet map k b)) else none

/-- A replacement MXC: the lowest-numbered one out of service that qualifies. -/
def State.mxcReplace (s : State) (c : Nat) : Option State :=
  ((List.range 24).find? (fun n => decide (n ≠ c) && s.qualifies (2048 + n))).map (fun n => (s.mxService n true).mxService c false)

/-- The replacement of a faulty unit and the unit's id; none where the unit stands on the bench already. -/
def State.replaceUnit (s : State) (x : FaultUnit) : Nat × Option (Option State) :=
  match x with
  | .exec e =>
    let c := execClass e
    if 352 ≤ e.val then (s.benchUnit c (if c = 0 then e - 352 else (e - 376) % 4), none)
    else ((s.execUnit e).getD 0, some (if c = 0 then s.coreReplace e else s.engReplace c (execLocal e)))
  | .slice e x => (2 * 2048 + e * 9 + x, if s.onBench (2 * 2048 + e * 9 + x) then none else some (s.sliceReplace e x))
  | .mxc c => (2048 + c, some (s.mxcReplace c))

/-- Has the fault been reported (R485)?  The declaration of a slice or an MXC comes with the command. -/
def State.faultKnown (s : State) (x : FaultUnit) : Bool :=
  match x with
  | .exec e => decide (e.val ∈ s.gdx.quarantine)
  | _ => true

/-- Steol handles a unit fault (R485): a replacement, the retirement with its record, or degraded operation where none qualifies. -/
def State.unitFault (s : State) (x : FaultUnit) (pass : Bool) : State :=
  if ¬ s.faultKnown x then s
  else
    let (u, r) := s.replaceUnit x
    let s := s.setGdx { s.gdx with quarantine := s.gdx.quarantine.filter (fun e => decide (x ≠ .exec (Fin.ofNat 416 e))) }
    let q := s.gdx.quarantine
    let s := match r with
      | some (some t) => t.setGdx { t.gdx with quarantine := q }
      | _ => s
    let s := s.retireUnit u (testResult pass)
    let s := if u < 2048 then s.sclShow (u / 9) else s
    match r with
    | some none => s.shedPass .unit
    | _ => s

/-! ### Rotation (R488) -/

/-- The bench unit that the next step of a group brings in. -/
def State.rotIn (s : State) (g : RotGroup) : Option Nat :=
  match g with
  | .vsc c => if s.get F.SCL_STATUS_BENCH_POS c = 0xF then none else some (c * 9 + s.get F.SCL_STATUS_BENCH_POS c)
  | .mxc => ((List.range 24).find? (fun c => !s.flag F.MXC_STATUS_IN_SERVICE c && !s.retired 1 c)).map (2048 + ·)
  | .slice e =>
    if s.get F.BMV_ENG_STATUS_BENCH_SLICE e = 0xF then none else some (2 * 2048 + e * 9 + s.get F.BMV_ENG_STATUS_BENCH_SLICE e)
  | .engine c b => if c = 0 ∨ classBench c ≤ b then none else some (s.benchUnit c b)

/-- Units of a group and the first of their indices. -/
def rotUnits (u : Nat) : Nat × Nat :=
  let t := u / 2048
  let i := u % 2048
  if t = 0 ∨ t = 2 then (i / 9 * 9, 9) else if t = 1 then (0, 24) else (0, engCount (t - 2))

/-- The next unit in turn after the bench unit: ascending, cyclic, without benched and retired units. -/
def State.rotOut (s : State) (u : Nat) : Option Nat :=
  let (base, n) := rotUnits u
  let t := u / 2048
  let next (k : Nat) : Nat := t * 2048 + base + (u % 2048 - base + 1 + k) % n
  ((List.range (n - 1)).map next).find? (fun v => !s.onBench v && !s.retired t (v % 2048))

/-- May a group step: the incoming unit has passed its self-test in this visit, no step is under way, no executor of the type is OUT
(R487), and the bench core is not lent (R485)? -/
def State.mayRotate (s : State) (u : Nat) : Bool :=
  let t := u / 2048
  decide (Tab.find s.dep.tests u = some .passed) && (Tab.find s.dep.steps u).isNone && !s.retired t (u % 2048) &&
  (if t = 0 then decide (s.outCount 0 = 0) && !s.flag F.SCL_LEND_EN (u / 9) && (Tab.find s.scl.lends (u / 9)).isNone
   else if 3 ≤ t then decide (s.outCount (t - 2) = 0) else true)

/-- Write the map that exchanges the outgoing unit for the incoming one. -/
def State.rotWrite (s : State) (g : RotGroup) (u out : Nat) : State :=
  match g with
  | .vsc c => match mapSlot (s.get F.SCL_MAP_SLOT c) (out % 9) with
    | some k => s.sclMapWrite c (mapSet (s.get F.SCL_MAP_SLOT c) k (u % 9))
    | none => s
  | .mxc => (s.mxService (u % 2048) true).mxService (out % 2048) false
  | .slice e => match mapSlot (s.get F.BMV_ENG_MAP_MAP e) ((out % 2048) % 9) with
    | some k => s.bmvMapWrite e (mapSet (s.get F.BMV_ENG_MAP_MAP e) k ((u % 2048) % 9))
    | none => s
  | .engine c b => match (List.range (classActive c)).find? (fun k => s.get F.T_CTRL_MAP_PHYS (engInst c k) = out % 2048) with
    | some k => (s.engMapWrite (engInst c k) (u % 2048)).engMapWrite (engInst c (classActive c + b)) (out % 2048)
    | none => s

/-- The bench instance of an engine class behind which a physical engine stands. -/
def State.benchInst (s : State) (c p : Nat) : Option Nat :=
  ((List.range (classBench c)).map (fun b => engInst c (classActive c + b))).find? (fun i => s.get F.T_CTRL_MAP_PHYS i = p)

/-- Show SELFTEST of an engine on the bench. -/
def State.showTest (s : State) (u : Nat) (on : Bool) : State :=
  if 3 ≤ u / 2048 then (match s.benchInst (u / 2048 - 2) (u % 2048) with
    | some i => s.setTo F.T_STATUS_SELFTEST on i
    | none => s)
  else s

/-- A step ends once the outgoing unit stands on the bench: its visit begins with its self-test (R489). -/
def State.rotArrive (s : State) (u : Nat) : State :=
  match Tab.find s.dep.steps u with
  | none => s
  | some out =>
    if s.onBench out then
      (s.setDep { s.dep with
        steps := Tab.erase s.dep.steps u
        tests := Tab.set (Tab.erase s.dep.tests u) out .running
        asked := s.dep.asked.map (fun a => if a.unit = out then { a with later := false } else a) }).showTest out true
    else s

/-- A rotation step (R488). -/
def State.rotStep (s : State) (g : RotGroup) : State :=
  match s.rotIn g with
  | none => s
  | some u =>
    if ¬ s.mayRotate u then s
    else match s.rotOut u with
      | none => s
      | some out => ((s.rotWrite g u out).setDep { s.dep with steps := Tab.set s.dep.steps u out }).rotArrive u

/-- The incoming unit of the step under way in a group. -/
def State.rotOpen (s : State) (g : RotGroup) : List Nat :=
  (s.dep.steps.map (·.1)).filter (fun u => match g with
    | .vsc c => decide (u / 9 = c ∧ u < 2048)
    | .mxc => decide (u / 2048 = 1)
    | .slice e => decide (u / 2048 = 2 ∧ u % 2048 / 9 = e)
    | .engine c _ => decide (u / 2048 = 2 + c))

/-- The map of a group takes effect where the outgoing unit has become idle (R488, step 2). -/
def State.rotSwap (s : State) (g : RotGroup) : State :=
  let s := match g with
    | .vsc c => s.sclMapApply c
    | .mxc => s
    | .slice e => s.bmvMapApply e
    | .engine c _ => s.engMapTry c
  (s.rotOpen g).foldl (fun s u => s.rotArrive u) s

/-! ### Self-tests (R489 to R491) -/

/-- The self-test of a bench unit, or one that Brildo asked for of a retired unit, ends: it passes, or the unit is retired. -/
def State.testEnd (s : State) (u : Nat) (pass : Bool) : State :=
  let t := Tab.find s.dep.tests u
  let due := s.dep.asked.filter (fun a => a.unit = u && !a.later)
  let gone := s.retired (u / 2048) (u % 2048)
  let goes := if gone then decide (due ≠ []) else s.onBench u && (decide (t ≠ some .passed ∧ t ≠ some .failed) || decide (due ≠ []))
  if ¬ goes then s
  else
    let s := (s.setDep { s.dep with
      tests := Tab.set s.dep.tests u (if pass then .passed else .failed)
      passed := if pass then (u :: s.dep.passed).eraseDups else s.dep.passed.filter (· ≠ u)
      asked := s.dep.asked.filter (· ∉ due) }).showTest u false
    let s := if pass ∨ gone then s else
      let s := s.retireUnit u 1
      if u < 2048 then s.sclShow (u / 9) else s
    due.foldl (fun s a =>
      if pass then s.eventTo a.func (.completion a.mbx a.seq 0 0 0 0)
      else
        let (st, s) := s.freshNat
        s.eventTo a.func (.completion a.mbx a.seq st 0 0 0)) s

/-! ### Lane faults (R347, R387) -/

/-- Steol declares lane n of an UP port faulty (R347). -/
def State.netLaneFault (s : State) (n : Nat) (pass : Bool) : State :=
  match s.portOfLane n with
  | none => s
  | some p =>
    if ¬ s.netUp p then s
    else
      let s := (s.count F.NET_FAULTY_LANE_FAULTY_LANE 1 p).retireUnit (13 * 2048 + n) (testResult pass)
      let fb := (fallback (s.netMode p) (n % 4)).filter (fun f => decide (s.get F.NET_PORT_CTRL_PHY p = 0) &&
        (List.range 4).all (fun i => !f.2.testBit i || !s.retired 13 (n / 4 * 4 + i)))
      match fb with
      | some (m, l) =>
        if s.flag F.NET_PORT_CTRL_DEGRADE_EN p then
          (((s.netSetMode p m l).count F.NET_FALLBACK_FALLBACK 1 p).put F.NET_PORT_STATUS_ATTEMPTS 0 p).netStart p
        else (s.netDisable p).netState p 4
      | none => (s.netDisable p).netState p 4

/-- Steol declares a data lane of an UP coupler port faulty (R387). -/
def State.cplLaneFault (s : State) (p l : Nat) (pass : Bool) : State :=
  if ¬ s.cplUp p then s
  else
    let s := (s.set F.CPL_LANE_STATUS_FAULTY p l).retireUnit (14 * 2048 + p * 5 + l) (testResult pass)
    let s := if s.flag F.CPL_PORT_CTRL_LANE_DROP_EN p ∧ s.cplMinor p = 2 ∧ s.get F.CPL_PORT_STATUS_LANES p = 0xF then
        s.cplDrop p (natBits (s.get F.CPL_PORT_LANE_MAP_MAP p) (2 * l) 2)
      else (s.cplDisable p).cplState p 6
    s.shedPass .lane

/-! ### Steward failover (R492, R493) -/

/-- Drain the error record queues (R492, R501). -/
def State.erqDrain (s : State) : State := [0, 1, 2].foldl (fun s q => repeatN (fun (s : State) => s.erqRead q) 512 s) s

/-- The active pair fails (Table 17-4); with no standby pair ready, mailboxes stay unserved until a warm reset. -/
def State.failover (s : State) : State :=
  let old := s.get F.MBX_DEV_STATUS_ACTIVE_PAIR
  if ¬ s.flag F.MBX_DEV_STATUS_STANDBY_READY then s.clr F.MBX_DEV_STATUS_STEOL_READY
  else
    let s := s.putAll 0 0 [(F.MBX_DEV_STATUS_ACTIVE_PAIR, 1 - old), (F.MBX_DEV_STATUS_STANDBY_READY, 0), (F.MBX_DEV_EVENT_FAILOVER, 1)]
    let s := s.count F.MBX_DEV_STATUS_FAILOVERS
    let s := s.setDep { s.dep with pairFails := Tab.set s.dep.pairFails old (s.tenderSec :: Tab.get [] s.dep.pairFails old) }
    let s := (List.range 256).foldl (fun s m =>
      if s.get F.MBX_STATUS_STATE 0 m = 2 then s.set F.MBX_STATUS_FAILOVER_SEEN 0 m else s) s
    let s := if s.flag F.MBX_DEV_STATUS_TRIAL then ((s.clr F.MBX_DEV_STATUS_TRIAL).setHost { s.host with fw := s.host.fw.revert }).event (.firmware 3)
      else s
    s.erqDrain.event (.failover (1 - old))

/-- The standby pair has ended its self-test: it loads Steol and is mirrored, or it is retired, as at its second failover within 24 h
(R492, R493). -/
def State.standby (s : State) (pass : Bool) : State :=
  let p := 1 - s.get F.MBX_DEV_STATUS_ACTIVE_PAIR
  let late := (Tab.get [] s.dep.pairFails p).filter (fun t => decide (s.tenderSec - t ≤ 86400))
  if s.flag F.MBX_DEV_STATUS_STANDBY_READY ∨ ¬ s.flag F.MBX_DEV_STATUS_STEOL_READY ∨ s.retired 15 p then s
  else if ¬ pass ∨ 2 ≤ late.length then s.retireUnit (15 * 2048 + p) (testResult pass)
  else s.set F.MBX_DEV_STATUS_STANDBY_READY

/-! ### Degraded operation (R494, R496) -/

/-- Does a template rest on memory of cluster c: one of its pools, or a retained bank? -/
def State.restsOn (s : State) (c : Nat) (t : Template) : Bool :=
  t.nodes.any (fun r => r.outPools.any (fun p =>
    decide (0x20000000 + c * 0x1000000 ≤ s.poolBase p ∧ s.poolBase p < 0x20000000 + (c + 1) * 0x1000000))) ||
  s.pwr.sources.any (fun x => decide (x.1.1 = c ∧ t.id ∈ x.2.2))

/-- Steol declares a cluster or row lost (R494): it is retired with its units, templates that rest on it are blocked, and carriers are
shed (R496). -/
def State.degrade (s : State) (d : Nat) : State :=
  let u := if d < 24 then 16 * 2048 + d else 17 * 2048 + (d - 24)
  if s.repairEntry (u / 2048) (u % 2048) then s
  else
    let execs := (List.range 352).filter (fun e => decide (s.execDomain e = some d) && !(s.exec e).out)
    let s := execs.foldl (fun s e => s.execOut e) (s.retireDomain u)
    let s := if d < 24 then ((s.clr F.MXC_STATUS_IN_SERVICE d).clr F.MXC_CTRL_SERVICE d).sclShow d else s
    let lost := (s.gdx.templates.filter (fun x => match x.2.cur with
      | some t => decide (d < 24) && s.restsOn d t
      | none => false)).map (·.1)
    let s := lost.foldl (fun s t => s.tplBlock t true) (s.setCar { s.car with lost := (s.car.lost ++ lost).eraseDups })
    s.shedPass .domain

/-! ### The commands -/

/-- UNIT_FAULT_HANDLE (R485). -/
def execUnitFaultHandle (unit : FaultUnit) (pass : Bool) (s : State) : Host.Outcome State Fault Refusal := .next (s.unitFault unit pass)

/-- ROTATION_STEP (R488). -/
def execRotationStep (group : RotGroup) (s : State) : Host.Outcome State Fault Refusal := .next (s.rotStep group)

/-- ROTATION_MAP_SWAP (R488). -/
def execRotationMapSwap (group : RotGroup) (s : State) : Host.Outcome State Fault Refusal := .next (s.rotSwap group)

/-- BENCH_SELF_TEST (R489, R490, R491). -/
def execBenchSelfTest (unit : BitVec 16) (pass : Bool) (s : State) : Host.Outcome State Fault Refusal := .next (s.testEnd unit.toNat pass)

/-- NET_LANE_FAULT (R347). -/
def execNetLaneFault (lane : Fin 32) (pass : Bool) (s : State) : Host.Outcome State Fault Refusal := .next (s.netLaneFault lane pass)

/-- CPL_LANE_FAULT (R387). -/
def execCplLaneFault (port : Fin 16) (lane : Fin 4) (pass : Bool) (s : State) : Host.Outcome State Fault Refusal :=
  .next (s.cplLaneFault port lane pass)

/-- STEWARD_FAILOVER (R492). -/
def execStewardFailover (s : State) : Host.Outcome State Fault Refusal := .next s.failover

/-- STANDBY_READY (R492, R493). -/
def execStandbyReady (pass : Bool) (s : State) : Host.Outcome State Fault Refusal := .next (s.standby pass)

/-- DEGRADED_DECLARE (R494). -/
def execDegradedDeclare (domain : Fin 28) (s : State) : Host.Outcome State Fault Refusal := .next (s.degrade domain)

/-- CARRIER_RESTORE (R498). -/
def execCarrierRestore (s : State) : Host.Outcome State Fault Refusal := .next s.restoreOne

end Sys2Proof.Machine
end

