-- ==== Sys2Proof/Machine/Mbx.lean ====
section
/-!
DEFINITION. Sys2Proof/Machine/Mbx.lean: mailboxes, requests and replies (R411 to R417), function resets (R436), the PCIe link (R403), and
host transport rings as the host drives them (R430, R431, R434).
-/
namespace Sys2Proof.Machine

/-! ### Mailboxes -/

/-- A mailbox; one that nothing has used is empty. -/
def State.mbx (s : State) (m : Nat) : Mbx := Tab.get ⟨none, none, none⟩ s.host.mbx m

/-- Store a mailbox. -/
def State.setMbx (s : State) (m : Nat) (x : Mbx) : State := s.setHost { s.host with mbx := Tab.set s.host.mbx m x }

/-- The function that owns a mailbox (R404). -/
def State.mbxOwner (s : State) (m : Nat) : Nat := s.get F.MBX_OWNER_FUNCTION 0 m

/-- The request area of a mailbox (Table 14-2, Table 20-2); its reply area follows it. -/
def reqArea (m : Nat) : Nat := 0x04000000 + m * 0x2000

/-- The reply area of a mailbox. -/
def replyArea (m : Nat) : Nat := reqArea m + 0x1000

/-- The commands of Table 14-7: opcode, only for the PF (P), and allowed in a 2.3 session (S). -/
def brildoOps : List (Nat × Bool × Bool) :=
  [(0x0001, false, true), (0x0002, false, true), (0x0003, false, true), (0x0004, true, false), (0x0005, false, false),
   (0x0101, false, true), (0x0102, false, true), (0x0103, false, true),
   (0x0201, false, true), (0x0202, false, true), (0x0203, false, true), (0x0204, false, true), (0x0205, true, false),
   (0x0206, false, false),
   (0x0301, false, false), (0x0302, false, false), (0x0303, false, false), (0x0304, false, false), (0x0305, false, true),
   (0x0306, true, false), (0x0307, true, false)] ++
  [(0x0401, false, true), (0x0402, true, false), (0x0403, true, false), (0x0404, true, false), (0x0405, true, false),
   (0x0406, true, false), (0x0407, false, false),
   (0x0501, false, false), (0x0502, false, false), (0x0503, false, false), (0x0504, true, false), (0x0505, true, false),
   (0x0601, false, true), (0x0602, false, true), (0x0603, false, true), (0x0604, false, true), (0x0605, false, false),
   (0x0606, true, false), (0x0607, true, false), (0x0608, true, false)] ++
  [(0x0701, true, false), (0x0702, false, false), (0x0703, true, false), (0x0704, true, false),
   (0x0801, true, false), (0x0802, true, false), (0x0803, true, true), (0x0804, true, false), (0x0805, true, false),
   (0x0806, true, true), (0x0901, false, true), (0x0902, true, false), (0x0903, true, true),
   (0x0A01, true, false), (0x0A02, false, true), (0x0A03, true, false), (0x0A04, true, false), (0x0A05, true, false),
   (0x0B01, true, true), (0x0B02, true, false), (0x0B03, true, false)]

/-! ### Replies (R411, R415 to R417) -/

/-- The bytes of a reply item (Table 14-4); the items of a command whose layout the spec does not give are free values (log entry 3). -/
def State.itemBytes (s : State) (i : ReplyItem) : List Byte × State :=
  match i with
  | .features b => (natLe 2 4 ++ natLe 2 8 ++ natLe 8 b, s)
  | .versions l =>
    let n := 2 * l.length
    (natLe 2 5 ++ natLe 2 n ++ l.flatMap (fun v => natLe 1 v.2 ++ natLe 1 v.1) ++ List.replicate ((4 - n % 4) % 4) 0, s)
  | .handle h => (natLe 2 6 ++ natLe 2 4 ++ natLe 4 h, s)
  | .detail _ =>
    let n := s.free
    let (k, s) := s.freshNat
    ((List.range (4 * (k % 1001))).map (Config.freeByte n), s)

/-- The bytes of the items of a reply. -/
def State.itemsBytes (s : State) : List ReplyItem → List Byte × State
  | [] => ([], s)
  | i :: is =>
    let (a, s) := s.itemBytes i
    let (b, s) := s.itemsBytes is
    (a ++ b, s)

/-- ERROR_DETAIL (Table 14-4). -/
def errorDetail (e : Refuse) : List Byte := natLe 2 2 ++ natLe 2 8 ++ natLe 2 e.cause ++ natLe 2 e.index ++ natLe 4 e.offset

/-- Make a reply of a version to a request; LENGTH is at most 4,080 (R415), where longer items end. -/
def State.makeReply (s : State) (r : Req) (v : Nat × Nat) (e : Refuse) (items : List ReplyItem) : Reply × State :=
  let (bs, s) := s.itemsBytes items
  let body := ((if e.status ≤ 1 then [] else errorDetail e) ++ bs).take 4080
  let head := natLe 1 v.2 ++ natLe 1 v.1 ++ natLe 2 r.op ++ natLe 4 r.seq ++ natLe 4 body.length ++ natLe 4 e.status
  (⟨r.seq, r.op, v.1, v.2, e.status, e.cause, e.index, e.offset, items, head ++ body⟩, s)

/-- Write a reply into the reply area, set DONE, and send the vector (R411, R413); the reply to a request that a reset has dropped is
discarded (R436). -/
def State.sendReply (s : State) (m : Nat) (r : Req) (y : Reply) : State :=
  let x := s.mbx m
  if r.gone then s.setMbx m { x with cur := none }
  else
    let s := s.setMbx m { x with cur := none, last := if y.status = 0x1E then x.last else some y }
    let s := ((s.setBytes (replyArea m) y.bytes).put F.MBX_STATUS_STATE 3 0 m).send (.reply m y)
    if s.flag F.MBX_IRQ_EN 0 m ∨ r.irq then s.send (.msix (globalVector (s.mbxOwner m) (s.get F.MBX_IRQ_VECTOR 0 m))) else s

/-- The version a reply carries: the session's; without one the spec gives none, and it is a free value (log entry 3). -/
def State.replyVersion (s : State) (m : Nat) : (Nat × Nat) × State :=
  match (s.mbx m).version with
  | some v => (v, s)
  | none =>
    let (a, s) := s.freshNat
    let (b, s) := s.freshNat
    ((a % 256, b % 256), s)

/-- Reply with a status and items. -/
def State.replyWith (s : State) (m : Nat) (r : Req) (e : Refuse) (items : List ReplyItem) : State :=
  let (v, s) := s.replyVersion m
  let (y, s) := s.makeReply r v e items
  s.sendReply m r y

/-- An ERROR_DETAIL with a CAUSE that no table defines for the status, and an OFFSET that only the unstated layout of the request
decides, as free values (log entry 3). -/
def State.freeDetail (s : State) (e : Refuse) : Refuse × State :=
  let (c, s) := if e.cause = 0 then (let (c, s) := s.freshNat; (c % 2 ^ 16, s)) else (e.cause, s)
  let (o, s) := if e.offset = 0 then (let (o, s) := s.freshNat; (o % 2 ^ 32, s)) else (e.offset, s)
  (⟨e.status, c, e.index, o⟩, s)

/-- Refuse a request (R417). -/
def State.refuse (s : State) (m : Nat) (r : Req) (e : Refuse) : State :=
  let (e, s) := s.freeDetail e
  s.replyWith m r e []

/-- Reply OK. -/
def State.replyOk (s : State) (m : Nat) (r : Req) (items : List ReplyItem) : State := s.replyWith m r ⟨0, 0, 0, 0⟩ items

/-- The request that Steol executes in a mailbox, if it is the command op. -/
def State.request (s : State) (m op : Nat) : Option Req :=
  if s.get F.MBX_STATUS_STATE 0 m = 2 ∨ ((s.mbx m).cur.any (·.gone)) then (s.mbx m).cur.filter (fun r => r.op = op) else none

/-- Execute command op of mailbox m: k gives the refusal, or the state with the items of the reply. -/
def State.serve (s : State) (m op : Nat) (k : Nat → State → Refuse ⊕ (List ReplyItem × State)) : State :=
  match s.request m op with
  | none => s
  | some r => match k (s.mbxOwner m) s with
    | .inl e => s.refuse m r e
    | .inr (items, t) => t.replyOk m r items

/-- Execute an asynchronous command (R414): the refusal, or ACCEPTED with its job under way. -/
def State.serveAsync (s : State) (m op : Nat) (k : Nat → State → Refuse ⊕ JobKind × State) : State :=
  match s.request m op with
  | none => s
  | some r => match k (s.mbxOwner m) s with
    | .inl e => s.refuse m r e
    | .inr (j, t) =>
      (t.setHost { t.host with jobs := t.host.jobs ++ [⟨m, r.seq, t.mbxOwner m, j⟩] }).replyWith m r ⟨1, 0, 0, 0⟩ []

/-! ### Doorbells and requests (R411 to R414) -/

/-- A doorbell write by function f (R405, R411, R412). -/
def State.mbxDoorbell (s : State) (f m seq : Nat) : State :=
  if s.mbxOwner m ≠ f then s
  else
    let s := s.setHost { s.host with doorbells := s.host.doorbells + 1 }
    let st := s.get F.MBX_STATUS_STATE 0 m
    if st = 1 ∨ st = 2 then s.set F.MBX_STATUS_DB_IGNORED 0 m
    else (s.put F.MBX_STATUS_SEQ seq 0 m).put F.MBX_STATUS_STATE 1 0 m

/-- The next PENDING mailbox in round robin (R414); one that still executes a request from before a reset (R436) waits. -/
def State.nextPending (s : State) : Option Nat :=
  ((List.range 256).map (fun k => (s.host.turn + 1 + k) % 256)).find? (fun m => decide (s.get F.MBX_STATUS_STATE 0 m = 1) &&
    (s.mbx m).cur.isNone)

/-- The least minor of a 3.x session whose features hold a command (R12, Table 14-6): ERR_STREAM, CLAIM and FW_ABORT came later. -/
def opMinor (op : Nat) : Nat := if op = 0x0B03 then 1 else if op = 0x0206 ∨ op = 0x0A05 then 2 else 0

/-- The header checks of a request, in the order that the model takes: the status that refuses it, 0 for none. -/
def State.headerStatus (s : State) (m : Nat) (r : Req) (length : Nat) (tlv : TlvCheck) : Nat :=
  let row := brildoOps.find? (fun o => o.1 = r.op)
  let v := (s.mbx m).version
  if v = none ∧ r.op ≠ 1 then 0x11
  else if v ≠ none ∧ v ≠ some (r.major, r.minor) then 0x10
  else if row = none ∨ v.any (fun v => v.1 = 3 && decide (v.2 < opMinor r.op)) then 0x12
  else if 4080 < length ∨ length % 4 ≠ 0 ∨ tlv = .beyond then 0x13
  else if tlv = .bad then 0x14
  else if row.any (·.2.1) ∧ s.mbxOwner m ≠ 0 then 0x16
  else if v.any (fun v => v.1 = 2) ∧ ¬ row.any (·.2.2) then 0x1D
  else if v ≠ none ∧ r.op = 1 then 0x1B
  else 0

/-- Steol takes the next request (R411 to R414): the stored reply of a repeated SEQUENCE, a refusal by the header, or BUSY. -/
def State.takeRequest (s : State) (tlv : TlvCheck) : State :=
  match s.nextPending with
  | none => s
  | some m =>
    if ¬ s.flag F.MBX_DEV_STATUS_STEOL_READY ∨ 16 ≤ ((List.range 256).filter (fun k => s.get F.MBX_STATUS_STATE 0 k = 2)).length then s
    else
      let a := reqArea m
      let w0 := s.word a
      let w1 := s.word (a + 4)
      let r : Req := ⟨natBits w0 16 16, natBits w1 0 16, w1.testBit 16, natBits w0 8 8, natBits w0 0 8, false⟩
      let s := (s.setHost { s.host with turn := m }).put F.MBX_STATUS_STATE 2 0 m
      if r.seq ≠ s.get F.MBX_STATUS_SEQ 0 m then s.refuse m r ⟨0x1E, 0, 0, 0⟩
      else match (s.mbx m).last.filter (fun y => y.seq = r.seq) with
        | some y => s.sendReply m r y
        | none =>
          let st := s.headerStatus m r (s.word (a + 8)) tlv
          if st ≠ 0 then s.refuse m r ⟨st, 0, 0, 0⟩ else s.setMbx m { s.mbx m with cur := some r }

/-! ### Rings (R430, R431, R434) -/

/-- The host frees the items of an output ring that HEAD passes, and their buffers (R433). -/
def State.ringFreed (s : State) (r n : Nat) : State :=
  match s.ring r with
  | none => s
  | some x =>
    let s := s.setRing r { x with items := x.items.drop n }
    (x.items.take n).foldl (fun s i => match i.buf with
      | some (p, a) => s.bufUnref p a
      | none => s) s

/-- A ring doorbell of function f (R405, R430, R436). -/
def State.ringDb (s : State) (f r idx : Nat) : State :=
  match s.ring r with
  | none => s
  | some x =>
    if x.func ≠ f then s
    else
      let s := s.setHost { s.host with doorbells := s.host.doorbells + 1 }
      let head := s.get F.MBX_RING_HEAD_HEAD 0 r
      let tail := s.get F.MBX_RING_TAIL_TAIL 0 r
      if x.out then
        let n := (idx + 2 ^ 32 - head) % 2 ^ 32
        if s.ringFill r < n then s.set F.MBX_RING_STATUS_DB_BAD 0 r else (s.put F.MBX_RING_HEAD_HEAD idx 0 r).ringFreed r n
      else if s.ringDetached r then s
      else
        let n := (idx + 2 ^ 32 - tail) % 2 ^ 32
        if x.entries < s.ringFill r + n then s.set F.MBX_RING_STATUS_DB_BAD 0 r else s.put F.MBX_RING_TAIL_TAIL idx 0 r

/-- The ring engine fetches the next item of an input ring (R431): in place in HBM, or as read from host memory with its payload, which a
buffer of STAGE_POOL takes. -/
def State.ringFetch (s : State) (r : Nat) (item : List Nat) (payload : List Byte) : State :=
  match s.ring r with
  | none => s
  | some x =>
    if x.out ∨ x.fetched = s.get F.MBX_RING_TAIL_TAIL 0 r then s
    else
      let i := x.fetched
      let next : Ring := { x with fetched := (i + 1) % 2 ^ 32 }
      if x.inHost ∧ x.kind = .data then
        if s.poolFree x.stagePool = 0 then s
        else
          let (t, s) := s.bufTake x.stagePool
          let w := (List.range 16).map (fun k => item.getD k 0)
          let s := s.store t.addr (payload.take (min (w.getD 3 0) (s.poolSize x.stagePool)))
          s.setRing r { next with items := x.items ++ [⟨i, false, some (x.stagePool, t.addr), false, t.addr, w⟩] }
      else
        let w := if x.inHost then (List.range 16).map (fun k => item.getD k 0) else s.words (x.base + i % x.entries * 64) 16
        s.setRing r { next with items := x.items ++ [⟨i, false, none, false, w.getD 4 0 + natBits (w.getD 5 0) 0 16 * 2 ^ 32, w⟩] }

/-- COAL_US has passed since the oldest item not yet signalled (R434). -/
def State.ringTimer (s : State) (r : Nat) : State :=
  match s.ring r with
  | none => s
  | some x =>
    if x.unsignalled = 0 then s
    else
      let s := s.setRing r { x with unsignalled := 0 }
      if s.flag F.MBX_RING_IRQ_EN 0 r then s.send (.msix (globalVector x.func (s.get F.MBX_RING_IRQ_VECTOR 0 r))) else s

/-! ### Resets of functions (R403, R436) -/

/-- The rings of a function. -/
def State.ringsOf (s : State) (f : Nat) : List Nat := (s.host.rings.filter (fun x => x.2.func = f)).map (·.1)

/-- A mailbox under the FLR of its function: a pending request is dropped, one being executed loses its reply. -/
def State.mbxLose (s : State) (m : Nat) : State :=
  let st := s.get F.MBX_STATUS_STATE 0 m
  let x := s.mbx m
  let s := s.setMbx m { x with cur := x.cur.map (fun r => { r with gone := true }), version := none }
  let s := s.putAll 0 m [(F.MBX_STATUS_STATE, 0), (F.MBX_OWNER_SESSION_OPEN, 0), (F.MBX_OWNER_SESSION, 0)]
  if st = 1 ∨ st = 2 then s.set F.MBX_STATUS_REQUEST_LOST 0 m else s

/-- A ring becomes DETACHED: output items are discarded, their buffers freed and counted. -/
def State.ringDetach (s : State) (r : Nat) : State :=
  let s := s.set F.MBX_RING_STATUS_DETACHED 0 r
  match s.ring r with
  | none => s
  | some x =>
    if x.out then
      let n := x.items.length
      ((s.ringFreed r n).count F.MBX_RING_DETACH_DROP_DETACH_DROP n 0 r).put F.MBX_RING_HEAD_HEAD (s.get F.MBX_RING_TAIL_TAIL 0 r) 0 r
    else s

/-- A function-level reset (R436). -/
def State.flr (s : State) (f : Nat) : State :=
  let s := ((List.range 256).filter (fun m => s.mbxOwner m = f)).foldl (fun s m => s.mbxLose m) s
  let s := (s.ringsOf f).foldl (fun s r => s.ringDetach r) s
  s.setHost { s.host with
    hostBase := Tab.erase s.host.hostBase f
    unclaimed := if s.ringsOf f = [] ∧ s.carsOf f = [] then s.host.unclaimed else (f :: s.host.unclaimed).eraseDups }

/-- Destroy a ring: its staged copies and held buffers are freed. -/
def State.ringDestroy (s : State) (r : Nat) : State :=
  match s.ring r with
  | none => s
  | some x =>
    let s := x.items.foldl (fun s i => match i.buf with
      | some (p, a) => if x.out then s.bufUnref p a else s.bufReturn p a
      | none => s) s
    let s := s.setHost { s.host with rings := Tab.erase s.host.rings r, evRings := s.host.evRings.filter (fun e => e.2.1 ≠ r) }
    s.putAll 0 r [(F.MBX_RING_STATUS_ENABLED, 0), (F.MBX_RING_STATUS_DETACHED, 0), (F.MBX_RING_STATUS_DIR, 0)]

/-- No CLAIM came within CLAIM_WAIT (R436). -/
def State.claimLost (s : State) (f : Nat) : State :=
  if f ∉ s.host.unclaimed then s
  else
    let hs := (s.car.list.filter (fun c => c.2.func = f)).map (·.1)
    let s := hs.foldl (fun s h => s.carRemove h) s
    let s := (s.ringsOf f).foldl (fun s r => s.ringDestroy r) s
    s.setHost { s.host with unclaimed := s.host.unclaimed.filter (· ≠ f) }

/-! ### The commands -/

/-- PERST_N_RELEASE (R403). -/
def execPerstNRelease (s : State) : Host.Outcome State Fault Refusal := .next (s.setHost { s.host with link := true })

/-- FLR (R436). -/
def execFlr (f : Fin 17) (s : State) : Host.Outcome State Fault Refusal := .next (s.flr f)

/-- PCIE_HOT_RESET (R436): as an FLR of every function. -/
def execPcieHotReset (s : State) : Host.Outcome State Fault Refusal := .next ((List.range 17).foldl (fun s f => s.flr f) s)

/-- CLAIM_WAIT_EXPIRY (R436). -/
def execClaimWaitExpiry (f : Fin 17) (s : State) : Host.Outcome State Fault Refusal := .next (s.claimLost f)

/-- MBX_DOORBELL (R411, R412). -/
def execMbxDoorbell (f : Fin 17) (m : BitVec 8) (seq : BitVec 16) (s : State) : Host.Outcome State Fault Refusal :=
  .next (s.mbxDoorbell f m.toNat seq.toNat)

/-- REQUEST_TAKE (R411 to R418). -/
def execRequestTake (tlv : TlvCheck) (s : State) : Host.Outcome State Fault Refusal := .next (s.takeRequest tlv)

/-- MBX_RING_DB (R430). -/
def execMbxRingDb (f : Fin 17) (ring : BitVec 9) (index : Word) (s : State) : Host.Outcome State Fault Refusal :=
  .next (s.ringDb f ring.toNat index.toNat)

/-- RING_ITEM_FETCH (R431). -/
def execRingItemFetch (ring : BitVec 9) (item : List Word) (payload : List Byte) (s : State) : Host.Outcome State Fault Refusal :=
  .next (s.ringFetch ring.toNat (item.map (·.toNat)) payload)

/-- RING_COALESCE_TIMER (R434). -/
def execRingCoalesceTimer (ring : BitVec 9) (s : State) : Host.Outcome State Fault Refusal := .next (s.ringTimer ring.toNat)

end Sys2Proof.Machine
end

