-- ==== Sys2Proof/Machine/Vsc.lean ====
section
/-!
DEFINITION. Sys2Proof/Machine/Vsc.lean: the vector signal core (05_vector_signal_cores.md): bundles and operation words, address
generation, the operations of Table 5-4 and the MXC operations as a core issues them, control actions, the instruction cache, and
the meanings of its commands.  A bundle issues, operates and takes its control action in one step; stalls are counts that the
command carries.
-/
namespace Sys2Proof.Machine

/-! ### Bundles (R162, R163) -/

/-- An operation word of a slot with its fields (Table 5-3). -/
structure VOp where
  slot : Nat
  opc : Nat
  pen : Bool
  pq : Nat
  w : Nat
  deriving DecidableEq, Repr

/-- The fields of a scalar operation. -/
def VOp.sD (o : VOp) : Nat := natBits o.w 16 5
def VOp.sA (o : VOp) : Nat := natBits o.w 11 5
def VOp.sB (o : VOp) : Nat := natBits o.w 6 5
def VOp.sX (o : VOp) : Nat := natBits o.w 0 6
def VOp.imm (o : VOp) : Nat := natBits o.w 0 16

/-- The fields of a memory operation. -/
def VOp.reg (o : VOp) : Nat := natBits o.w 15 6
def VOp.ptr (o : VOp) : Nat := natBits o.w 11 4
def VOp.amode (o : VOp) : Nat := natBits o.w 9 2
def VOp.imm9 (o : VOp) : Nat := natBits o.w 0 9

/-- The fields of a vector operation. -/
def VOp.vD (o : VOp) : Nat := natBits o.w 15 6
def VOp.vA (o : VOp) : Nat := natBits o.w 9 6
def VOp.vB (o : VOp) : Nat := natBits o.w 3 6
def VOp.vX (o : VOp) : Nat := natBits o.w 0 3

/-- An operation word of a slot. -/
def vop (slot w : Nat) : VOp := ⟨slot, natBits w 25 7, natBits w 24 1 = 1, natBits w 21 3, w⟩

/-- Is it a memory operation that makes an access (all but FENCE)? -/
def VOp.isAccess (o : VOp) : Bool := decide (0x20 ≤ o.opc ∧ o.opc ≤ 0x26)

/-- Is it an MXC operation? -/
def VOp.isMx (o : VOp) : Bool := decide (0x60 ≤ o.opc ∧ o.opc ≤ 0x6C)

/-- May an opcode stand in a slot (R164)? -/
def VOp.inSlot (o : VOp) : Bool :=
  if o.slot < 2 then decide (0x01 ≤ o.opc ∧ o.opc ≤ 0x12)
  else if o.slot < 4 then decide (0x20 ≤ o.opc ∧ o.opc ≤ 0x27)
  else if o.slot = 4 then decide (0x30 ≤ o.opc ∧ o.opc ≤ 0x38)
  else decide (0x40 ≤ o.opc ∧ o.opc ≤ 0x4A) || o.isMx

/-- Is an operation word legal by itself (R164, R169, R174; log entry 14)? -/
def VOp.legal (o : VOp) : Bool :=
  o.inSlot &&
  (o.opc != 0x0C || decide (o.sX < 6)) && (o.opc != 0x0D || decide (o.sX < 2)) &&
  (o.opc != 0x48 || decide (o.vX < 6)) && (o.opc != 0x47 || o.pen) &&
  (!o.isAccess || o.amode != 3) &&
  (o.opc != 0x10 || decide (o.sB ≤ 0x16)) && (o.opc != 0x11 || decide (o.sB < 0x16)) &&
  (o.opc != 0x12 || o.sD % 4 != 3)

/-- A bundle: header fields and its operations (Table 5-2). -/
structure Bundle where
  ctl : Nat
  csel : Nat
  target : Nat
  ops : List VOp
  deriving DecidableEq, Repr

/-- Operations of a SLOTS field from memory, in slot order. -/
def State.slotOps (s : State) (a slots : Nat) : List Nat → List VOp
  | [] => []
  | i :: is => if slots.testBit i then vop i (s.word a) :: s.slotOps (a + 4) slots is else s.slotOps a slots is

/-- The bundle at an address. -/
def State.bundleAt (s : State) (a : Nat) : Bundle :=
  let h := s.word a
  ⟨natBits h 6 4, natBits h 10 3, natBits h 13 19, s.slotOps (a + 4) (natBits h 0 6) (List.range 6)⟩

/-- Bytes of a bundle. -/
def Bundle.bytes (b : Bundle) : Nat := 4 + 4 * b.ops.length

/-! ### Registers (R168, R169, R179) -/

def VscCore.s (c : VscCore) (i : Nat) : Nat := Tab.get 0 c.sr i
def VscCore.p (c : VscCore) (i : Nat) : Nat := Tab.get 0 c.pr i
def VscCore.q (c : VscCore) (i : Nat) : Nat := Tab.get 0 c.qr i

/-- The physical register of a vector name (R179). -/
def VscCore.phys (c : VscCore) (n : Nat) : Nat := if n < 32 then n else 32 + (n - 32 + c.rrb) % 32

/-- Lane i of a vector name. -/
def VscCore.v (c : VscCore) (n i : Nat) : Nat := Tab.get 0 c.vr (c.phys n, i)

/-- The 48-bit code of component j of an accumulator. -/
def VscCore.acc (c : VscCore) (k j : Nat) : Nat := Tab.get 0 c.ar (k, j)

/-- The register that a control register number reads as (Table 5-7). -/
def VscCore.ctl (c : VscCore) (n : Nat) : Nat :=
  if n < 8 then Tab.get 0 c.cb n
  else if n < 0x10 then Tab.get 0 c.cl (n - 8)
  else if n < 0x13 then (let l := Tab.get (0, 0) c.lc (n - 0x10); l.1 + l.2 * 2 ^ 24)
  else if n = 0x13 then c.pbind
  else if n = 0x14 then c.kmode
  else if n = 0x15 then c.flags
  else c.rrb

/-- A register write of a bundle. -/
inductive VWr where
  | s (i v : Nat)
  | p (i v : Nat)
  | v (i lane x : Nat)
  | a (k comp x : Nat)
  | q (i mask x : Nat)
  | ctl (n x : Nat)
  deriving DecidableEq, Repr

/-- The register an operation writes, for the check of R165: kind and number. -/
def VOp.targets (o : VOp) (c : VscCore) : List (Nat × Nat) :=
  let upd : List (Nat × Nat) := if o.isAccess ∧ (o.amode = 1 ∨ o.amode = 2) then [(1, o.ptr)] else []
  let own : List (Nat × Nat) :=
    if (0x01 ≤ o.opc ∧ o.opc ≤ 0x0B) then [(0, o.sD)]
    else if o.opc = 0x0C then [(4, o.sD % 8)]
    else if o.opc = 0x0D then (if o.sX = 0 then [(4, o.sD % 8)] else [(0, o.sD)])
    else if o.opc = 0x0E ∨ o.opc = 0x0F then [(1, o.sD % 16)]
    else if o.opc = 0x10 then (if o.sB < 8 then [(1, o.sD % 16)] else [(0, o.sD)])
    else if o.opc = 0x11 then [(5, o.sB)]
    else if o.opc = 0x12 then (5, 0x10 + o.sD % 4) :: (List.range (o.sD / 4 % 4 + 1)).map (fun j => (4, 4 + j))
    else if o.opc = 0x20 ∨ o.opc = 0x26 then [(2, c.phys o.reg)]
    else if o.opc = 0x22 then [(0, o.reg % 32)]
    else if o.opc = 0x24 then [(1, o.reg % 16)]
    else if 0x30 ≤ o.opc ∧ o.opc ≤ 0x38 then [(3, o.vD % 8)]
    else if o.opc = 0x48 then [(4, o.vD % 8)]
    else if 0x40 ≤ o.opc ∧ o.opc ≤ 0x4A then [(2, c.phys o.vD)]
    else if o.opc = 0x69 then [(2, c.phys o.vD)]
    else if o.opc = 0x6C then [(0, o.vD % 32)]
    else []
  own ++ upd

/-- Is a bundle legal (R164 to R166, R169): every word legal, no register written twice, no reserved CTL, and a loop counter that exists? -/
def Bundle.legal (b : Bundle) (c : VscCore) : Bool :=
  let ts := b.ops.flatMap (fun o => o.targets c)
  b.ops.all VOp.legal && decide (ts.eraseDups.length = ts.length) && decide (b.ctl ≤ 8) &&
  (!(b.ctl = 5 || b.ctl = 6) || decide (b.csel < 3))

/-- Is an operation enabled at a lane (R178)? -/
def VscCore.lane (c : VscCore) (o : VOp) (i : Nat) : Bool := !o.pen || (c.q o.pq).testBit i

/-- Has a memory operation an enabled lane: bit 0 for scalar and pointer operations and VLDB, any lane for VLD and VST (R178)? -/
def VscCore.anyLane (c : VscCore) (o : VOp) : Bool :=
  if o.opc = 0x20 ∨ o.opc = 0x21 then !o.pen || c.q o.pq % 2 ^ 32 != 0 else c.lane o 0

/-! ### Addresses (R174 to R176) -/

/-- The circular region of a pointer, if it is bound with a length (R175). -/
def VscCore.region (c : VscCore) (k : Nat) : Option (Nat × Nat) :=
  if k < 8 ∧ c.pbind.testBit k ∧ Tab.get 0 c.cl k ≠ 0 then some (Tab.get 0 c.cb k, Tab.get 0 c.cl k) else none

/-- An access: its start, and for a circular wrap the byte at which it goes on at the base (R176). -/
structure VAcc where
  start : Nat
  wrap : Option (Nat × Nat)
  deriving DecidableEq, Repr

/-- The 48-bit sum of an address and a signed step. -/
def ptrAdd (p : Nat) (x : Int) : Nat := (((p : Int) + x) % ((2 ^ 48 : Nat) : Int)).toNat

/-- The access of a memory operation of a size (R174, R175, R176). -/
def VscCore.access (c : VscCore) (o : VOp) (size : Nat) : VAcc :=
  let p := c.p o.ptr
  match c.region o.ptr with
  | none => ⟨if o.amode = 0 then ptrAdd p (4 * o.imm9) else p, none⟩
  | some (b, l) =>
    let u := (p + 2 ^ 48 - b % 2 ^ 48) % 2 ^ 48
    if o.amode = 0 then
      let u := (u + 4 * o.imm9) % l
      ⟨ptrAdd b u, if l < u + size then some (l - u, b) else none⟩
    else ⟨p, if u < l ∧ l < u + size then some (l - u, b) else none⟩

/-- The pieces of memory that bytes off to off + len - 1 of an access lie in. -/
def VAcc.pieces (x : VAcc) (off len : Nat) : List (Nat × Nat) :=
  match x.wrap with
  | none => [(ptrAdd x.start off, len)]
  | some (cut, b) =>
    if off + len ≤ cut then [(ptrAdd x.start off, len)]
    else if cut ≤ off then [(ptrAdd b (off - cut), len)]
    else [(ptrAdd x.start off, cut - off), (b, off + len - cut)]

/-- The pointer after its update, and whether CB_WRAPFIX sets (R175). -/
def VscCore.update (c : VscCore) (k : Nat) (step : Int) : Nat × Bool :=
  let p := c.p k
  match c.region k with
  | none => (ptrAdd p step, false)
  | some (b, l) =>
    let u : Nat := (p + 2 ^ 48 - b % 2 ^ 48) % 2 ^ 48
    (ptrAdd b (((u : Int) + step) % (l : Int)), decide (l ≤ u))

/-- The step of a post-update (R174). -/
def VscCore.step (c : VscCore) (o : VOp) : Int := if o.amode = 1 then 4 * o.imm9 else signed 32 (c.s (o.imm9 % 32))

/-! ### What an operation does -/

/-- What an operation yields: register writes, stores, flags it sets, loads it makes, register pages it reads or writes, and the
cause that ends the run, if any, with code, port and address. -/
structure VRes where
  wr : List VWr
  stores : List (Nat × List Byte)
  flags : Nat
  loads : List (Nat × Nat)
  csrRead : Option (Nat × Nat)
  csrWrite : Option (Nat × Nat)
  stop : Option (Nat × Nat × Nat × Nat)
  deriving DecidableEq, Repr

/-- Nothing. -/
def VRes.none : VRes := ⟨[], [], 0, [], .none, .none, .none⟩

/-- Register writes only. -/
def VRes.regs (w : List VWr) (flags : Nat := 0) : VRes := { VRes.none with wr := w, flags := flags }

/-- The end of the run. -/
def VRes.ends (cause code port addr : Nat) : VRes := { VRes.none with stop := some (cause, code, port, addr) }

/-- Does a comparison hold (R164)? -/
def condHolds (x a b : Nat) : Bool :=
  match x with
  | 0 => a = b
  | 1 => a != b
  | 2 => decide (signed 32 a < signed 32 b)
  | 3 => decide (signed 32 b ≤ signed 32 a)
  | 4 => decide (a < b)
  | _ => decide (b ≤ a)

/-- All lanes. -/
def ones : Nat := 0xFFFFFFFF

/-- The scalar operations (Table 5-4). -/
def VscCore.scalar (c : VscCore) (o : VOp) : VRes :=
  if ¬ c.lane o 0 then VRes.none
  else
    let a := c.s o.sA
    let b := c.s o.sB
    let d := o.sD
    let m := 2 ^ 32
    match o.opc with
    | 0x01 => .regs [.s d ((a + b) % m)]
    | 0x02 => .regs [.s d ((a + m - b) % m)]
    | 0x03 => .regs [.s d (a &&& b)]
    | 0x04 => .regs [.s d (a ||| b)]
    | 0x05 => .regs [.s d (a ^^^ b)]
    | 0x06 => .regs [.s d (a * 2 ^ (b % 32) % m)]
    | 0x07 => .regs [.s d (a / 2 ^ (b % 32))]
    | 0x08 => .regs [.s d (unsigned 32 (signed 32 a / 2 ^ (b % 32)))]
    | 0x09 => .regs [.s d (a * b % m)]
    | 0x0A => .regs [.s d (unsigned 32 (signed 16 o.imm))]
    | 0x0B => .regs [.s d (c.s d % 2 ^ 16 + o.imm * 2 ^ 16)]
    | 0x0C => .regs [.q (d % 8) ones (if condHolds o.sX a b then ones else 0)]
    | 0x0D => if o.sX = 0 then .regs [.q (d % 8) ones a] else .regs [.s d (c.q (o.sA % 8))]
    | 0x0E => .regs [.p (d % 16) (ptrAdd (c.p (o.sA % 16)) (signed 32 b))]
    | 0x0F => .regs [.p (d % 16) (b % 2 ^ 16 * 2 ^ 32 + a)]
    | 0x10 => if o.sB < 8 then .regs [.p (d % 16) (c.ctl o.sB)] else .regs [.s d (c.ctl o.sB)]
    | 0x11 =>
      if o.sB < 8 then .regs [.ctl o.sB (c.p (o.sA % 16))]
      else if o.sB < 0x10 then
        if a % 2 ^ 24 = a ∧ (a = 0 ∨ (128 ≤ a ∧ a ≤ 16777212 ∧ a % 4 = 0)) then .regs [.ctl o.sB a] else .ends 0x08 1 0 0
      else .regs [.ctl o.sB a]
    | _ =>
      let n := if d / 16 % 2 = 1 then c.s o.sA % 2 ^ 24 else o.imm % 2 ^ 24
      let st := d / 4 % 4
      .regs (.ctl (0x10 + d % 4) (n + st * 2 ^ 24) :: .q 4 ones (if 0 < n then ones else 0) ::
        (List.range st).map (fun j => .q (5 + j) ones 0))

/-- Bytes of a memory operation (R174). -/
def VOp.size (o : VOp) : Nat :=
  match o.opc with
  | 0x20 | 0x21 => 128
  | 0x24 | 0x25 => 8
  | _ => 4

/-- The number that the bytes of the pieces of an access spell. -/
def State.piecesLE (s : State) (ps : List (Nat × Nat)) : Nat := leNat (ps.flatMap (fun p => s.bytes p.1 p.2))

/-- Split bytes over pieces. -/
def splitPieces : List (Nat × Nat) → List Byte → List (Nat × List Byte)
  | [], _ => []
  | (a, n) :: ps, bs => (a, bs.take n) :: splitPieces ps (bs.drop n)

/-- Does a piece lie in the memory windows of a core of a cluster (Table 5-1)? -/
def coreReach (cl : Nat) (p : Nat × Nat) : Bool := mxReach cl p.1 p.2

/-- Is an address in the pages of the cluster's block mover (Table 5-1)? -/
def bmvPages (cl a : Nat) : Bool := decide (0x1200000 + cl * 0x10000 ≤ a ∧ a < 0x1200000 + cl * 0x10000 + 0x9000)

/-- May a run store to a piece (R158): outside the system areas, or LENGTH, FLOW_TAG and USER of its OUT_TOKEN entries? -/
def storeAllowed (cl rec : Nat) (p : Nat × Nat) : Bool :=
  !(systemArea cl p.1 || systemArea cl (p.1 + p.2 - 1)) ||
  (List.range 8).any (fun j => decide (rec + 0x90 + 16 * j + 8 ≤ p.1 ∧ p.1 + p.2 ≤ rec + 0x90 + 16 * j + 16))

/-- The poison a load meets: the input port whose buffer holds it, or a fault of the memory (R186). -/
def State.loadPoison (s : State) (c : VscCore) (ps : List (Nat × Nat)) : Option VRes :=
  match ps.find? (fun p => s.poisoned p.1 p.2) with
  | none => .none
  | some p =>
    match s.inputPort c.exec p.1 with
    | some port => some { VRes.ends 0x16 7 port p.1 with loads := ps }
    | .none => some { VRes.ends 0x12 4 0 p.1 with loads := ps }

/-- The memory operations (Table 5-4). -/
def State.memOp (s : State) (k : Nat) (c : VscCore) (o : VOp) : VRes :=
  if o.opc = 0x27 ∨ ¬ c.anyLane o then VRes.none
  else
    let cl := vscCluster k
    let size := o.size
    let x := c.access o size
    let ps := x.pieces 0 size
    let align := if o.opc = 0x24 ∨ o.opc = 0x25 then 8 else 4
    let u := c.update o.ptr (c.step o)
    let upd : VRes → VRes := fun r =>
      if o.amode = 0 then r
      else { r with wr := r.wr ++ [.p o.ptr u.1], flags := r.flags ||| (if u.2 then 2 ^ o.ptr else 0) }
    if x.start % align ≠ 0 then .ends 0x04 1 0 x.start
    else if bmvPages cl x.start ∧ (o.opc = 0x22 ∨ o.opc = 0x23) then
      if o.opc = 0x22 then upd { VRes.none with csrRead := some (o.reg % 32, x.start) }
      else upd { VRes.none with csrWrite := some (x.start, c.s (o.reg % 32)) }
    else if ¬ ps.all (coreReach cl) then .ends 0x03 1 0 x.start
    else
      match o.opc with
      | 0x20 =>
        match s.loadPoison c ps with
        | some r => r
        | none => upd { VRes.none with
            wr := ((List.range 32).filter (c.lane o)).map (fun i => .v (c.phys o.reg) i (s.piecesLE (x.pieces (4 * i) 4))), loads := ps }
      | 0x22 =>
        match s.loadPoison c ps with
        | some r => r
        | none => upd { VRes.none with wr := [.s (o.reg % 32) (s.piecesLE ps)], loads := ps }
      | 0x24 =>
        match s.loadPoison c ps with
        | some r => r
        | none => upd { VRes.none with wr := [.p (o.reg % 16) (s.piecesLE ps % 2 ^ 48)], loads := ps }
      | 0x26 =>
        match s.loadPoison c ps with
        | some r => r
        | none => upd { VRes.none with wr := (List.range 32).map (fun i => .v (c.phys o.reg) i (s.piecesLE ps)), loads := ps }
      | _ =>
        let rec_ := s.recordAddr k
        let lanes := (List.range 32).filter (c.lane o)
        let wr : List (Nat × List Byte) :=
          if o.opc = 0x21 then
            if lanes.length = 32 then splitPieces ps ((List.range 32).flatMap (fun i => natLe 4 (c.v o.reg i)))
            else lanes.flatMap (fun i => splitPieces (x.pieces (4 * i) 4) (natLe 4 (c.v o.reg i)))
          else if o.opc = 0x23 then splitPieces ps (natLe 4 (c.s (o.reg % 32)))
          else splitPieces ps (natLe 8 (c.p (o.reg % 16)))
        if wr.all (fun p => storeAllowed cl rec_ (p.1, p.2.length)) then upd { VRes.none with stores := wr } else .ends 0x03 1 0 x.start

/-- Element j (int16) of a vector name. -/
def VscCore.elem (c : VscCore) (n j : Nat) : Int := signed 16 (c.v n (j / 2) / 2 ^ (16 * (j % 2)))

/-- The integer value of an accumulator component. -/
def VscCore.accInt (c : VscCore) (k j : Nat) : Int := signed 48 (c.acc k j)

/-- The FP16 values of a lane, if finite, in units of 2^-24. -/
def VscCore.fp (c : VscCore) (n i : Nat) : Option (Int × Int) :=
  match fp16Val (c.v n i % 2 ^ 16), fp16Val (c.v n i / 2 ^ 16) with
  | some x, some y => some (x, y)
  | _, _ => none

/-- The integer added to component j by a MAC operation. -/
def VscCore.macTerm (c : VscCore) (o : VOp) (j : Nat) : Int :=
  let i := j / 2
  let ar := c.elem o.vA (2 * i)
  let ai := c.elem o.vA (2 * i + 1)
  let br := c.elem o.vB (2 * i)
  let bi := c.elem o.vB (2 * i + 1)
  if o.opc = 0x34 then c.elem o.vA j * c.elem o.vB j
  else if o.opc = 0x30 ∨ o.opc = 0x32 then (if j % 2 = 0 then ar * br - ai * bi else ar * bi + ai * br)
  else (if j % 2 = 0 then ar * br + ai * bi else ai * br - ar * bi)

/-- The FP32 code of component j of FCMUL or FCMAC (R173); an operand that is not finite, or an overflow, leaves an open value. -/
def VscCore.fpMac (c : VscCore) (o : VOp) (j : Nat) : Nat :=
  let i := j / 2
  let old : Nat := c.acc (o.vD % 8) j % 2 ^ 32
  let key : List Int := [o.opc, (j % 2 : Nat), c.v o.vA i, c.v o.vB i, old]
  match c.fp o.vA i, c.fp o.vB i with
  | some a, some b =>
    let p := if j % 2 = 0 then a.1 * b.1 - a.2 * b.2 else a.1 * b.2 + a.2 * b.1
    if o.opc = 0x36 then (roundFp32 p 1 48).code
    else
      match fp32Val old with
      | some v =>
        let r := roundFp32 (v + p * 2 ^ 101) 1 149
        if r.overflow then Config.openNat key % 2 ^ 32 else r.code
      | none => Config.openNat key % 2 ^ 32
  | _, _ => Config.openNat key % 2 ^ 32

/-- The components an operation writes (R178). -/
def VscCore.comps (c : VscCore) (o : VOp) : List Nat := (List.range 64).filter (fun j => c.lane o (j / 2))

/-- The MAC operations (Table 5-4, R171): ACC_OVF of the accumulator is flag bit 8 + k. -/
def VscCore.mac (c : VscCore) (o : VOp) : VRes :=
  let k := o.vD % 8
  let js := c.comps o
  if o.opc = 0x35 then .regs (js.map (fun j => .a k j 0))
  else if o.opc = 0x36 ∨ o.opc = 0x37 then .regs (js.map (fun j => .a k j (c.fpMac o j)))
  else if o.opc = 0x38 then
    .regs (js.map (fun j => .a k j (if o.vB < 32 then unsigned 48 (c.elem o.vA j * 2 ^ o.vB)
      else Config.openNat [0x38, o.vB, c.elem o.vA j] % 2 ^ 48)))
  else
    let add := o.opc = 0x32 ∨ o.opc = 0x33 ∨ o.opc = 0x34
    let r (j : Nat) : Int × Bool := add48 (if add then c.accInt k j else 0) (c.macTerm o j)
    .regs (js.map (fun j => .a k j (unsigned 48 (r j).1))) (if js.any (fun j => (r j).2) then 2 ^ (8 + k) else 0)

/-- Saturate to int16. -/
def sat16 (x : Int) : Int × Bool := narrow16 x 0

/-- Two int16 elements as a lane. -/
def lane2 (lo hi : Int) : Nat := unsigned 16 lo + unsigned 16 hi * 2 ^ 16

/-- FNARROW of an FP32 code (R173): the FP16 code, and whether it was limited. -/
def fnarrow (code : Nat) : Nat × Bool :=
  match fp32Val code with
  | some v => narrowFp16 v
  | none => if natBits code 0 23 ≠ 0 then (0x7E00, false) else (Config.openNat [0x44, code] % 2 ^ 16, false)

/-- Lane i of a vector ALU result, and whether it saturated (Table 5-4). -/
def VscCore.aluLane (c : VscCore) (o : VOp) (i : Nat) : Nat × Bool :=
  let e (n j : Nat) : Int := c.elem n (2 * i + j)
  let two (f : Nat → Int × Bool) : Nat × Bool := (lane2 (f 0).1 (f 1).1, (f 0).2 || (f 1).2)
  let k := o.vA % 8
  match o.opc with
  | 0x40 => two (fun j => sat16 (e o.vA j + e o.vB j))
  | 0x41 => two (fun j => sat16 (e o.vA j - e o.vB j))
  | 0x42 => if o.vB < 16 then two (fun j => narrow16 (e o.vA j) o.vB) else (Config.openNat [0x42, o.vB, c.v o.vA i] % 2 ^ 32, false)
  | 0x43 => if o.vB < 48 then two (fun j => narrow16 (c.accInt k (2 * i + j)) o.vB)
      else (Config.openNat [0x43, o.vB, c.acc k (2 * i), c.acc k (2 * i + 1)] % 2 ^ 32, false)
  | 0x44 =>
    let x := fnarrow (c.acc k (2 * i) % 2 ^ 32)
    let y := fnarrow (c.acc k (2 * i + 1) % 2 ^ 32)
    (x.1 + y.1 * 2 ^ 16, x.2 || y.2)
  | 0x45 => (let y := sat16 (-(e o.vA 1)); (lane2 (e o.vA 0) y.1, y.2))
  | 0x46 => (c.v o.vA (c.v o.vB i % 32), false)
  | 0x47 => (if (c.q o.pq).testBit i then c.v o.vA i else c.v o.vB i, false)
  | 0x49 => (c.v o.vA i, false)
  | _ => (c.s (o.vA % 32), false)

/-- The vector ALU operations (Table 5-4): SAT is flag bit 16. -/
def VscCore.alu (c : VscCore) (o : VOp) : VRes :=
  let lanes := if o.opc = 0x47 then List.range 32 else (List.range 32).filter (c.lane o)
  if o.opc = 0x48 then
    .regs [.q (o.vD % 8) ((lanes.map (2 ^ ·)).foldl (· ||| ·) 0)
      (((lanes.filter (fun i => condHolds o.vX (c.v o.vA i) (c.v o.vB i))).map (2 ^ ·)).foldl (· ||| ·) 0)]
  else .regs (lanes.map (fun i => .v (c.phys o.vD) i (c.aluLane o i).1)) (if lanes.any (fun i => (c.aluLane o i).2) then 2 ^ 16 else 0)

/-- What an operation of a bundle does, all of them from the state before the bundle (R165). -/
def State.vopRes (s : State) (k : Nat) (c : VscCore) (o : VOp) : VRes :=
  if o.slot < 2 then c.scalar o
  else if o.slot < 4 then s.memOp k c o
  else if o.slot = 4 then c.mac o
  else if o.isMx then VRes.none
  else c.alu o

/-- Apply a register write. -/
def VscCore.apply (c : VscCore) : VWr → VscCore
  | .s i v => { c with sr := Tab.set c.sr i v }
  | .p i v => { c with pr := Tab.set c.pr i v }
  | .v i l x => { c with vr := Tab.set c.vr (i, l) x }
  | .a k j x => { c with ar := Tab.set c.ar (k, j) x }
  | .q i m x => { c with qr := Tab.set c.qr i ((c.q i &&& (ones - m)) ||| (x &&& m)) }
  | .ctl n x =>
    if n < 8 then { c with cb := Tab.set c.cb n x }
    else if n < 0x10 then { c with cl := Tab.set c.cl (n - 8) x }
    else if n < 0x13 then { c with lc := Tab.set c.lc (n - 0x10) (x % 2 ^ 24, natBits x 24 3) }
    else if n = 0x13 then { c with pbind := x % 256 }
    else if n = 0x14 then { c with kmode := x % 2 }
    else { c with flags := x % 2 ^ 17 }

/-! ### The MXC operations as the core issues them (R195 to R203) -/

/-- Must a bundle wait for the MXC: an operation other than MXLOCK and MXWAIT before the grant (R202), a full queue (R200), an MXWAIT
or FENCE behind operations (Table 6-2, R210), or a pending result (R207)? -/
def State.mxStalls (s : State) (k : Nat) (c : VscCore) (b : Bundle) : Bool :=
  let cl := vscCluster k
  let m := s.mx cl
  let pos := s.vscPos k
  let mine := m.ownedBy pos c.node
  let waits := m.waiters.any (fun w => w.pos = pos && w.node = c.node)
  let reads (o : VOp) : List (Nat × Nat) :=
    if o.slot < 2 then [(0, o.sA), (0, o.sB), (0, o.sD)]
    else if o.slot < 4 then [(0, o.reg % 32), (0, o.imm9 % 32), (2, c.phys o.reg)]
    else [(0, o.vA % 32), (0, o.vB % 32), (2, c.phys o.vA), (2, c.phys o.vB)]
  let pend := if mine then m.queue.filterMap (fun p => if p.opc = 0x69 then some (2, p.d) else if p.opc = 0x6C then some (0, p.d) else none) else []
  b.ops.any (fun o =>
    (o.isMx && o.opc != 0x60 && o.opc != 0x6B && waits) ||
    (o.isMx && o.opc != 0x60 && o.opc != 0x6B && mine && decide (8 ≤ m.queue.length)) ||
    (o.opc = 0x6B && mine && m.queue != []) ||
    (o.opc = 0x27 && mine && m.queue.any (fun p => p.opc = 0x63 || p.opc = 0x64)) ||
    (reads o).any (fun r => decide (r ∈ pend)) || (o.targets c).any (fun r => decide (r ∈ pend)))

/-- Is a save area legal (R203, R205)? -/
def State.saveOk (s : State) (k a : Nat) : Bool :=
  let cl := vscCluster k
  a % 128 = 0 &&
  (decide (s.localBase k ≤ a ∧ a + 32896 ≤ s.localBase k + 0x80000) ||
   decide (0x20000000 + cl * 0x1000000 ≤ a ∧ a + 32896 ≤ 0x20000000 + cl * 0x1000000 + 0x800000))

/-- The operands of an MXC operation, read at its issue. -/
def VscCore.mxOp (c : VscCore) (o : VOp) : MxOp where
  opc := o.opc
  d := if o.opc = 0x69 then c.phys o.vD else if o.opc = 0x6C then o.vD % 32 else o.vD
  a := o.vA
  b := o.vB
  x := o.vX
  addr := if o.opc = 0x64 then c.p (o.vD % 16) else c.p (o.vA % 16)
  stride := c.s (o.vB % 32)
  sval := if o.opc = 0x66 then c.s (o.vB % 32) else c.s (o.vA % 32)
  vdata := if o.opc = 0x6A then (List.range 32).map (c.v o.vA) else []

/-- Issue an MXC operation (R195, R201, R203), or end the run for a misuse. -/
def State.mxIssue (s : State) (k : Nat) (o : VOp) : State :=
  match s.core k with
  | none => s
  | some c =>
    let cl := vscCluster k
    let pos := s.vscPos k
    let m := s.mx cl
    let mine := m.ownedBy pos c.node
    let waits := m.waiters.any (fun w => w.pos = pos && w.node = c.node)
    if ¬ c.lane o 0 then s
    else if o.opc = 0x6B then s
    else if o.opc = 0x60 then
      let a := c.p (o.vA % 16)
      if mine ∨ waits then s.runEnd k 1 0x21 0 0
      else if ¬ s.saveOk k a ∨ (c.save.isSome ∧ c.save ≠ some a) then s.runEnd k 1 0x22 0 a
      else (s.setCore k { c with save := some a }).mxRequest cl ⟨pos, c.node, k, a⟩
    else if ¬ mine then s.runEnd k 1 0x20 0 0
    else if o.opc = 0x62 ∧ ¬ mdLegal (c.s (o.vA % 32)) then s.runEnd k 1 0x23 0 0
    else s.setMx cl { m with queue := m.queue ++ [c.mxOp o] }

/-! ### Control actions (R166, R180) -/

/-- The target of a branch from the bundle at pc (Table 5-2). -/
def Bundle.dest (b : Bundle) (pc : Nat) : Nat := ((pc : Int) + 4 * signed 19 b.target).toNat

/-- LOOPE (R180): the counter after it, and whether the branch is taken. -/
def loope (count : Nat) : Nat × Bool := if 1 < count then (count - 1, true) else (0, false)

/-- LOOPR (R180): COUNT and EC after it, and the predicate shifted in, none for a fall-through. -/
def loopr (count ec : Nat) : (Nat × Nat) × Option Nat :=
  if 1 < count then ((count - 1, ec), some ones) else if 0 < ec then ((0, ec - 1), some 0) else ((0, ec), none)

/-- The control action at the end of a bundle. -/
def State.control (s : State) (k : Nat) (b : Bundle) : State :=
  match s.core k with
  | none => s
  | some c =>
    let next := c.pc + b.bytes
    let dest := b.dest c.pc
    match b.ctl with
    | 0 => s.setCore k { c with pc := next }
    | 1 => s.setCore k { c with pc := dest }
    | 2 => s.setCore k { c with pc := if (c.q b.csel).testBit 0 then dest else next }
    | 3 => if 8 ≤ c.stack.length then s.runEnd k 1 0x05 0 0 else s.setCore k { c with pc := dest, stack := next :: c.stack }
    | 4 => match c.stack with
      | [] => s.runEnd k 1 0x05 0 0
      | a :: st => s.setCore k { c with pc := a, stack := st }
    | 5 =>
      let l := Tab.get (0, 0) c.lc b.csel
      let r := loope l.1
      s.setCore k { c with lc := Tab.set c.lc b.csel (r.1, l.2), pc := if r.2 then dest else next }
    | 6 =>
      let l := Tab.get (0, 0) c.lc b.csel
      let r := loopr l.1 l.2
      match r.2 with
      | none => s.setCore k { c with lc := Tab.set c.lc b.csel r.1, pc := next }
      | some enter =>
        s.setCore k { c with
          lc := Tab.set c.lc b.csel r.1
          qr := Tab.set (Tab.set (Tab.set (Tab.set c.qr 7 (c.q 6)) 6 (c.q 5)) 5 (c.q 4)) 4 enter
          rrb := (c.rrb + 31) % 32
          pc := dest }
    | 7 => (s.setCore k { c with ending := some ⟨0, 0, 0⟩ }).vscFinish k
    | _ => s.runEnd k 1 0x01 (natBits b.target 0 16) 0

/-! ### The instruction cache (R161) -/

/-- The cache lines that a bundle lies in. -/
def linesOf (a n : Nat) : List Nat := (List.range ((a + n - 1) / 256 - a / 256 + 1)).map (fun i => (a / 256 + i) * 256)

/-- The lines of a VSC instance. -/
def State.icache (s : State) (k : Nat) : List Nat := Tab.get [] s.exu.icache k

/-- Store the lines of a VSC instance. -/
def State.setIcache (s : State) (k : Nat) (ls : List Nat) : State := s.setExu { s.exu with icache := Tab.set s.exu.icache k ls }

/-- Bring a line in: 64 sets of 4 ways; which way of a full set it replaces is free (log entry 3). -/
def State.icacheAdd (s : State) (k line : Nat) : State :=
  let ls := s.icache k
  if line ∈ ls then s
  else
    let set_ := ls.filter (fun l => l / 256 % 64 = line / 256 % 64)
    if set_.length < 4 then s.setIcache k (ls ++ [line])
    else
      let (n, s) := s.freshNat
      s.setIcache k ((ls.filter (· ≠ set_.getD (n % 4) 0)) ++ [line])

/-- The lines of the next bundle of a run that are not in its cache; PRELOAD leaves none (R188). -/
def State.missing (s : State) (k : Nat) (c : VscCore) : List Nat :=
  if c.kernel.preload then []
  else
    let a := c.kernel.code + c.pc
    (linesOf a (if a / 256 * 256 ∈ s.icache k then (s.bundleAt a).bytes else 4)).filter (fun l => decide (l ∉ s.icache k))

/-- Is a core halted by DBG_HALT (Table 5-16): honoured only while secure debug is unlocked at scope 2 or above (R526)? -/
def State.dbgHalted (s : State) (k : Nat) : Bool :=
  s.flag F.VSC_CTRL_DBG_HALT k && s.flag F.BOOT_DBG_STATUS_UNLOCKED && decide (2 ≤ s.get F.BOOT_DBG_STATUS_SCOPE)

/-! ### Issue -/

/-- Does an operation read the V registers (R574, INJ_PARITY)? -/
def VOp.readsV (o : VOp) : Bool :=
  o.opc = 0x21 || (decide (0x30 ≤ o.opc ∧ o.opc ≤ 0x38) && o.opc != 0x35) ||
  (decide (0x40 ≤ o.opc ∧ o.opc ≤ 0x49) && o.opc != 0x43 && o.opc != 0x44) || o.opc = 0x6A

/-- Set the flags a bundle raises, in FLAGS and in VSC_STICKY. -/
def State.raiseFlags (s : State) (k fl : Nat) : State :=
  let s := s.coreUpdate k (fun c => { c with flags := c.flags ||| fl })
  ((s.put F.VSC_STICKY_CB_WRAPFIX (s.get F.VSC_STICKY_CB_WRAPFIX k ||| fl % 256) k).put F.VSC_STICKY_ACC_OVF
    (s.get F.VSC_STICKY_ACC_OVF k ||| natBits fl 8 8) k).put F.VSC_STICKY_SAT (s.get F.VSC_STICKY_SAT k ||| natBits fl 16 1) k

/-- The effects of the operations of a legal bundle that does not stall. -/
def State.bundleOps (s : State) (k : Nat) (c : VscCore) (b : Bundle) : State :=
  let rs := b.ops.map (s.vopRes k c)
  let fl := (rs.map (·.flags)).foldl (· ||| ·) 0
  let s := (rs.flatMap (·.loads)).foldl (fun s p => (s.load p.1 p.2).2) s
  match rs.findSome? (·.stop) with
  | some (cause, code, port, addr) => s.runEnd k code cause port addr
  | none =>
    if c.inj = 1 ∧ b.ops.any VOp.readsV then (s.clr F.VSC_CTRL_INJ_PARITY k).runEnd k 3 0x11 0 0
    else if c.inj = 2 ∧ b.ops.any (fun o => o.slot = 4 && o.opc != 0x35 && o.opc != 0x38) then (s.clr F.VSC_CTRL_INJ_RESIDUE k).runEnd k 2 0x10 0 0
    else if natBits fl 8 8 ≠ 0 ∧ c.kmode = 1 then (s.raiseFlags k fl).runEnd k 1 0x06 0 0
    else
      let reads := rs.filterMap (·.csrRead)
      let s := reads.foldl (fun s x =>
        let r := s.bmvRead (vscCluster k) (x.2 - (0x1200000 + vscCluster k * 0x10000))
        r.2.coreUpdate k (fun c => { c with sr := Tab.set c.sr x.1 r.1 })) s
      let s := s.coreUpdate k (fun c => (rs.flatMap (·.wr)).foldl VscCore.apply c)
      let s := s.raiseFlags k fl
      let s := (rs.flatMap (·.stores)).foldl (fun s p => s.store p.1 p.2) s
      let s := (rs.filterMap (·.csrWrite)).foldl (fun s x =>
        s.bmvWrite (.vsc k) (vscCluster k) (x.1 - (0x1200000 + vscCluster k * 0x10000)) (BitVec.ofNat 32 x.2)) s
      ((b.ops.filter VOp.isMx).foldl (fun s o => s.mxIssue k o) s).control k b

/-- Issue the next bundle of a run (R165 to R167). -/
def State.bundleIssue (s : State) (k stall squashed : Nat) : State :=
  match s.core k with
  | none => s
  | some c =>
    if c.ending.isSome ∨ 2 ≤ s.domState (vscCluster k) then s
    else if s.dbgHalted k then s.set F.VSC_STATUS_HALTED k
    else
      let s := (s.clr F.VSC_STATUS_HALTED k).count F.VSC_STALL_STALL stall k
      if s.missing k c ≠ [] then s
      else
        let b := s.bundleAt (c.kernel.code + c.pc)
        if ¬ b.legal c then s.runEnd k 1 0x02 0 0
        else if s.mxStalls k c b then s
        else
          let s := s.bundleOps k c b
          let ended := match s.core k with
            | some c => c.ending.isSome
            | none => true
          if ended then s.count F.MXC_SQUASHED_SQUASHED squashed (vscCluster k) else s

/-! ### The meanings -/

/-- BUNDLE_ISSUE (R162 to R180): stall is how many cycles the bundle waited, squashed how many pure MXC operations of younger bundles
are squashed if it ends the run (R209). -/
def execBundleIssue (vsc : BitVec 8) (stall squashed : Nat) (s : State) : Host.Outcome State Fault Refusal :=
  .next (s.bundleIssue vsc.toNat stall squashed)

/-- ICACHE_FILL (R161): the missed line and the next sequential one come in; a line with an uncorrectable error ends the run (R186,
cause 0x15). -/
def execIcacheFill (vsc : BitVec 8) (s : State) : Host.Outcome State Fault Refusal :=
  .next (match s.core vsc.toNat with
    | none => s
    | some c =>
      match s.missing vsc.toNat c with
      | [] => s
      | l :: _ =>
        if s.poisoned l 256 then s.runEnd vsc.toNat 6 0x15 0 l
        else (s.icacheAdd vsc.toNat l).icacheAdd vsc.toNat (l + 256))

/-- ICACHE_INV (R192): invalidates the cache of an idle core; ignored during a run. -/
def execIcacheInv (vsc : BitVec 8) (s : State) : Host.Outcome State Fault Refusal :=
  .next (if (s.core vsc.toNat).isSome then s else s.setIcache vsc.toNat [])

/-- RUN_WATCHDOG (R185): the run has lasted 4 × COST cycles. -/
def execRunWatchdog (vsc : BitVec 8) (s : State) : Host.Outcome State Fault Refusal := .next (s.runEnd vsc.toNat 1 0x07 0 0)

/-- VSC_HARDWARE_FAULT (R186). -/
def execVscHardwareFault (vsc : BitVec 8) (kind : VscFaultKind) (s : State) : Host.Outcome State Fault Refusal :=
  .next (match kind with
    | .residue => s.runEnd vsc.toNat 2 0x10 0 0
    | .parity => s.runEnd vsc.toNat 3 0x11 0 0
    | .ecc => s.runEnd vsc.toNat 4 0x12 0 0
    | .bus a => s.runEnd vsc.toNat 6 0x13 0 a
    | .fetch => s.runEnd vsc.toNat 6 0x15 0 0
    | .poisonIn p a => s.runEnd vsc.toNat 7 0x16 p a)

end Sys2Proof.Machine
end

