-- ==== Sys2Proof/Machine/Access.lean ====
section
/-!
DEFINITION. Sys2Proof/Machine/Access.lean: register accesses (20_register_reference.md): the address map of CSR space (R552), who
reaches a page (R555, R557), what a write does in every register (R10, R558 and the owning chapters), what a read answers and clears
(R562, R564), and the accesses of the host through the CSR window and BAR2 (R406, R407).
-/
namespace Sys2Proof.Machine

/-! ### The map (Table 20-2) -/

/-- The block instances of CSR space: block, first register instance, instances, base, stride, bytes of an instance. -/
def csrMap : List (Block × Nat × Nat × Nat × Nat × Nat) :=
  [(.TBU, 0, 1, 0x0, 0x1000, 0x1000), (.AFT, 0, 1, 0x1000, 0x1000, 0x1000), (.WHS, 0, 1, 0x2000, 0x1000, 0x1000),
   (.GDX, 0, 1, 0x3000, 0x1000, 0x1000), (.UMP, 0, 1, 0x4000, 0x1000, 0x1000), (.SQ, 0, 1, 0x5000, 0x1000, 0x1000),
   (.ECC, 0, 1, 0x6000, 0x1000, 0x1000), (.PWR, 0, 1, 0x7000, 0x1000, 0x1000), (.TND, 0, 1, 0x8000, 0x1000, 0x1000),
   (.THM, 0, 1, 0x9000, 0x1000, 0x1000), (.FUS, 0, 1, 0xA000, 0x1000, 0x1000), (.BOOT, 0, 1, 0xB000, 0x1000, 0x1000),
   (.RST, 0, 1, 0xC000, 0x1000, 0x1000), (.RCS, 0, 1, 0xD000, 0x1000, 0x1000), (.CPL_CMN, 0, 1, 0xE000, 0x1000, 0x1000)] ++
  [(.MEM, 0, 4, 0x10000, 0x1000, 0x1000), (.ACR, 0, 4, 0x18000, 0x1000, 0x1000), (.VSC, 0, 216, 0x1000000, 0x1000, 0x1000),
   (.SCL, 0, 24, 0x1100000, 0x1000, 0x1000), (.MXC, 0, 24, 0x1120000, 0x1000, 0x1000), (.BMV, 0, 32, 0x1200000, 0x10000, 0x9000),
   (.ENG, 0, 34, 0x2000000, 0x1000, 0x1000), (.ENG, 34, 17, 0x2040000, 0x1000, 0x1000), (.ENG, 51, 9, 0x2060000, 0x1000, 0x1000),
   (.ENG, 60, 9, 0x2070000, 0x1000, 0x1000), (.ENG, 69, 34, 0x2080000, 0x1000, 0x1000), (.ENG, 103, 26, 0x20C0000, 0x1000, 0x1000),
   (.ENG, 129, 17, 0x2100000, 0x1000, 0x1000), (.ENG, 146, 9, 0x2120000, 0x1000, 0x1000), (.ENG, 155, 17, 0x2130000, 0x1000, 0x1000),
   (.FCE, 0, 32, 0x2180000, 0x1000, 0x1000), (.NET, 0, 32, 0x3000000, 0x1000, 0x1000), (.CPL, 0, 16, 0x3100000, 0x1000, 0x1000)]

/-- The populated pages of the MBX block (Table 14-2), by offset from its base. -/
def mbxPage (off : Nat) : Bool :=
  decide (off < 0x300000) || decide (0x400000 ≤ off ∧ off < 0x600000) || decide (0x800000 ≤ off ∧ off < 0x801000) ||
  decide (0x900000 ≤ off ∧ off < 0x901100)

/-- Where an address of CSR space falls: block, instance, and offset in the instance; none outside every page (R551). -/
def csrAt (a : Nat) : Option (Block × Nat × Nat) :=
  if 0x4000000 ≤ a then (if mbxPage (a - 0x4000000) then some (.MBX, 0, a - 0x4000000) else none)
  else csrMap.findSome? (fun (b, i0, n, base, stride, size) =>
    if a < base then none
    else
      let i := (a - base) / stride
      let off := (a - base) % stride
      if i < n ∧ off < size then some (b, i0 + i, off) else none)

/-! ### Who reaches what (R555, R557) -/

/-- Does the page of a block instance respond: its domain is in RUN, TRIM or DOZE, and a core stands behind a VSC page (R555)? -/
def State.pageOn (s : State) (b : Block) (i : Nat) : Bool :=
  let on (d : Nat) : Bool := s.domState d ≠ 3 && s.domState d ≠ 5
  match b with
  | .MXC => on i
  | .BMV => decide (24 ≤ i) || on i
  | .VSC => s.vscPos i ≠ 0xF && on (vscCluster i)
  | .ENG => on (24 + s.engRow (engClass i) (engLocal i))
  | _ => true

/-- The function that a requester accesses MBX pages as; the Stewards and JTAG act for the owner. -/
def reqFunc (q : Requester) (owner : Nat) : Nat :=
  match q with
  | .hostPF _ => 0
  | .hostVF f => f
  | _ => owner

/-- The owner of an MBX register: a mailbox's function, a ring's, or none for the status page (R405). -/
def State.mbxRegOwner (s : State) (r : Reg) (j : Nat) : Option Nat :=
  match r with
  | .MBX_DOORBELL | .MBX_STATUS | .MBX_IRQ | .MBX_OWNER => some (s.mbxOwner j)
  | .MBX_RING_DB | .MBX_RING_STATUS | .MBX_RING_TAIL | .MBX_RING_HEAD | .MBX_RING_IRQ | .MBX_RING_ERR_DROP | .MBX_RING_DETACH_DROP
  | .MBX_RING_STALE => some (((s.ring j).map (·.func)).getD 0)
  | _ => none

/-- A BOOT_DBG register (R524). -/
def Reg.dbg (r : Reg) : Bool := r ∈ [.BOOT_DBG_CTRL, .BOOT_DBG_STATUS, .BOOT_DBG_CHAL, .BOOT_DBG_RESP]

/-- May a requester reach register r, index j, of an instance of a block (Table 20-3)? -/
def State.mayReach (s : State) (q : Requester) (r : Reg) (j : Nat) (write : Bool) : Bool :=
  match q with
  | .steward => !r.dbg
  | .vsc _ => false
  | .hostPF true => !r.dbg && r.place.block ≠ .RCS && (!write || (s.dbgScope 1 && r.place.block ≠ .SCL))
  | .hostPF false => r.place.block = .MBX && (s.mbxRegOwner r j).all (· = 0)
  | .hostVF f => r.place.block = .MBX && (match s.mbxRegOwner r j with
      | some o => o = f
      | none => !write)
  | .jtag => r.dbg || (s.dbgScope 3 && r.place.block ≠ .RCS && !(write && r.place.block = .SCL))

/-- Is the requester a host that reads BAR0 directly? -/
def reqBar0 (q : Requester) : Bool :=
  match q with
  | .hostPF false => true
  | .hostVF _ => true
  | _ => false

/-! ### Views and selectors (R564) -/

/-- The index of the element that a view register shows (R564); other registers show the index of their place. -/
def State.viewIdx (s : State) (r : Reg) (i j : Nat) : Nat :=
  match r with
  | .SQ_Q_STATUS | .SQ_Q_LEVEL | .SQ_Q_SEQ | .SQ_Q_DROPS | .SQ_Q_GAPS | .SQ_Q_CREDITS => s.get F.SQ_SEL_QUEUE
  | .MEM_CH_ERASE | .MEM_CH_ERASE_HITS | .MEM_CH_ODECC => s.get F.MEM_CH_SEL_CH i
  | .MEM_CH_BYTES => 4 * s.get F.MEM_CH_SEL_CH i + j
  | .PWR_DOM_STATE | .PWR_DOM_POLICY | .PWR_DOM_RETAIN | .PWR_DOM_ENTRIES | .PWR_DOM_ABANDONED | .PWR_DOM_REFUSED
  | .PWR_DOM_WAKES => s.get F.PWR_DOM_SEL_DOMAIN
  | .ECC_ROWTAB_ID | .ECC_ROWTAB_ROW => s.get F.ECC_ROWTAB_SEL_ENTRY
  | _ => j

/-- A stored word with some of its bits shown as they are now. -/
def shown (w : Word) (l : List (Fld × Nat)) : Word := l.foldl (fun w x => fieldPut w x.1.lo x.1.len x.2) w

/-- Live slot instances of a timeline bound to a bank of corrections. -/
def State.bankRefs (s : State) (t b : Nat) : Nat := (s.gdx.insts.filter (fun x => x.2.tl = t && x.2.bank = b)).length

/-- What the selected timeline's air time was at the last capture (R75, R103): coordinate word and offset in ns. -/
def State.aftSnap (s : State) : Option (Nat × Nat) :=
  match s.tbu.snapActive, s.tl (s.get F.AFT_SNAP_SEL_TL) with
  | some x, some t =>
    let c := t.ent.num.coord (qAir t.ent (x.units * 480))
    some (t.ent.num.coordWord c, (c.offset / qNs).toNat)
  | _, _ => none

/-- A register as it reads now: the stored word, or what the present state makes of it. -/
def State.view (s : State) (r : Reg) (i j : Nat) : Word :=
  let w := s.rd ⟨r, i, s.viewIdx r i j⟩
  let bit (b : Bool) : Nat := if b then 1 else 0
  match r with
  | .TBU_HOLDOVER => shown w [(F.TBU_HOLDOVER_SECONDS, min 0xFFFFFF ((s.tbu.dom s.active).hold / 625000000))]
  | .AFT_SNAP_COORD => match s.aftSnap with
    | some (c, _) => shown w [(F.AFT_SNAP_COORD_COORD, c)]
    | none => w
  | .AFT_SNAP_OFFSET_NS => match s.aftSnap with
    | some (_, o) => shown w [(F.AFT_SNAP_OFFSET_NS_OFFSET, o)]
    | none => w
  | .AFT_SNAP_BANK_REFS =>
    let t := s.get F.AFT_SNAP_SEL_TL
    shown w [(F.AFT_SNAP_BANK_REFS_CUR_BANK, ((s.tl t).map (·.curBank)).getD 0),
      (F.AFT_SNAP_BANK_REFS_LIVE0, min 255 (s.bankRefs t 0)), (F.AFT_SNAP_BANK_REFS_LIVE1, min 255 (s.bankRefs t 1))]
  | .GDX_CLASS_STATE => shown w [(F.GDX_CLASS_STATE_FREE, s.freeCount j), (F.GDX_CLASS_STATE_OUT, s.outCount j)]
  | .GDX_POOL_BAL_LO => shown w [(F.GDX_POOL_BAL_LO_BAL, (s.pool (s.get F.GDX_POOL_SEL_POOL)).bal)]
  | .GDX_POOL_BAL_HI =>
    let p := s.pool (s.get F.GDX_POOL_SEL_POOL)
    shown w [(F.GDX_POOL_BAL_HI_BAL, p.bal / 2 ^ 32), (F.GDX_POOL_BAL_HI_WAITLEN, min 255 p.wait.length)]
  | .FUS_DATA => shown w [(F.FUS_DATA_DATA, Tab.get 0 s.memx.fuses (s.get F.FUS_SEL_WORD))]
  | .FUS_SPARE =>
    let p := s.spare (s.get F.FUS_SPARE_SEL_MACRO)
    shown w [(F.FUS_SPARE_ROWS_LEFT, p.1), (F.FUS_SPARE_COLS_LEFT, p.2)]
  | .ACR_STATUS => shown w [(F.ACR_STATUS_POWERED, bit (decide (s.domState (24 + i) ≤ 2)))]
  | .CPL_LANE_STATUS => shown w [(F.CPL_LANE_STATUS_SLIP_BUSY, bit (s.slipBusy i j))]
  | .TND_INPUT_VALUE => shown w [(F.TND_INPUT_VALUE_VALUE, unsigned 16 (Tab.get 0 s.pwr.inputs (s.get F.TND_INPUT_SEL_INPUT)))]
  | .THM_SENSOR =>
    let k := s.get F.THM_SENSOR_SEL_SENSOR
    shown w [(F.THM_SENSOR_TEMP, unsigned 16 (s.sensor k).temp), (F.THM_SENSOR_CLASS, (s.sensor k).cls),
      (F.THM_SENSOR_FAILED, bit (s.sensorFailed k))]
  | .THM_SENSOR_COUNT => shown w [(F.THM_SENSOR_COUNT_COUNT, (s.sensor (s.get F.THM_SENSOR_SEL_SENSOR)).count)]
  | .THM_MAX => match s.hottest s.working with
    | some (m, k) => shown w [(F.THM_MAX_TEMP, unsigned 16 m), (F.THM_MAX_SENSOR, k)]
    | none => w
  | .THM_TRIP_AGE => match s.thm.trips[j]? with
    | some t => shown w [(F.THM_TRIP_AGE_AGE, min (2 ^ 32 - 2) (s.tenderSec - t))]
    | none => shown w [(F.THM_TRIP_AGE_AGE, 2 ^ 32 - 1)]
  | .THM_TRIP_HIST => shown w [(F.THM_TRIP_HIST_COUNT_24H, min 3 s.trips24)]
  | .MEM_STATUS => shown w [(F.MEM_STATUS_SELF_REFRESH, bit (s.stackAsleep i))]
  | .RST_CAUSE => shown w [(F.RST_CAUSE_BROWNOUT, s.get F.PWR_KEEP_BROWNOUT), (F.RST_CAUSE_THERMAL, s.get F.THM_TRIP_HIST_TRIP_CAUSE)]
  | .T_STATUS =>
    let c := engClass i
    shown w [(F.T_STATUS_BENCH, bit (decide (classActive c ≤ engLocal i))), (F.T_STATUS_ROW, s.engRow c (engLocal i)),
      (F.T_STATUS_PHYS, s.get F.T_CTRL_MAP_PHYS i)]
  | .VSC_STATUS => shown w [(F.VSC_STATUS_BENCH, bit (decide (192 ≤ i)))]
  | .MBX_DEV_STATUS => if s.domState 255 = 4 then shown w [(F.MBX_DEV_STATUS_STEOL_READY, 0)] else w
  | _ => w

/-! ### Reads (R562, R563) -/

/-- The snapshot registers of the time base unit (R75). -/
def Reg.snapshot (r : Reg) : Bool :=
  r ∈ [.TBU_D_SNAP_SEC_HI, .TBU_D_SNAP_SEC_LO, .TBU_D_SNAP_NS, .TBU_D_SNAP_FRAC, .TBU_ACT_SNAP_SEC_HI, .TBU_ACT_SNAP_SEC_LO,
    .TBU_ACT_SNAP_NS, .TBU_ACT_SNAP_FRAC]

/-- The RC fields of a register read go back to zero, and PEAK_LEVEL to the present LEVEL (R328). -/
def State.clearRead (s : State) (r : Reg) (i j : Nat) : State :=
  let k : RegKey := ⟨r, i, s.viewIdx r i j⟩
  let s := s.wr k (clearRC (s.rd k) r.fields)
  if r = .SQ_Q_LEVEL then s.put F.SQ_Q_LEVEL_PEAK_LEVEL (s.get F.SQ_Q_LEVEL_LEVEL 0 k.idx) 0 k.idx else s

/-- What a hold subtracts from a live counter when its captured value is read (R154): the captured counters; a captured maximum is
cleared. -/
def holdClear (r : Reg) (live captured : Word) : Word :=
  if r = .GDX_WAIT_MAX ∨ r = .GDX_CLASS_DEPTH then clearRC live r.fields else BitVec.ofNat 32 (live.toNat - captured.toNat)

/-- Read register r, index j of instance i: the value, and the state after it; clear says that the read clears RC fields (R562). -/
def State.regRead (s : State) (r : Reg) (i j : Nat) (clear : Bool) : Word × State :=
  let s := if r.snapshot && s.tbu.snap && s.tbu.started then s.tick else s
  let k : RegKey := ⟨r, i, s.viewIdx r i j⟩
  let rc := r.fields.any (fun f => f.acc = .RC)
  match s.gdx.snap.bind (fun m => Tab.find m k) with
  | some c =>
    let v := readFields c r.fields
    if clear && rc then
      (v, (s.wr k (holdClear r (s.rd k) c)).setGdx { s.gdx with snap := s.gdx.snap.map (fun m => Tab.set m k (clearRC c r.fields)) })
    else (v, s)
  | none =>
    let v := readFields (s.view r i j) r.fields
    match r with
    | .MBX_DEV_TIME_SEC_LO =>
      let t := s.activeTime
      (BitVec.ofNat 32 t.sec, s.putAll 0 0 [(F.MBX_DEV_TIME_SEC_LO_SEC, t.sec), (F.MBX_DEV_TIME_SEC_HI_SEC, t.sec / 2 ^ 32),
        (F.MBX_DEV_TIME_NS_NS, t.ns)])
    | .NET_LANE_PRBS_BITS_LO =>
      let s := s.upLane i (fun c => { c with bitsHi := s.get F.NET_LANE_PRBS_BITS_HI_BITS i })
      (v, if clear then (s.clearRead r i j).put F.NET_LANE_PRBS_BITS_HI_BITS 0 i else s)
    | .NET_LANE_PRBS_BITS_HI =>
      let h := (s.netLane i).bitsHi
      (BitVec.ofNat 32 h, if clear then s.upLane i (fun c => { c with bitsHi := 0 }) else s)
    | _ => (v, if clear && rc then s.clearRead r i j else s)

/-- Is a register meaningful in its instance (R364, R553): group registers in the first page of a group, port registers in the page
of a port's lowest lane? -/
def State.meaningful (s : State) (r : Reg) (i : Nat) : Bool :=
  if r.place.block ≠ .NET ∨ 0x400 ≤ r.place.off then true
  else if r = .NET_GRP_CFG then i % 4 = 0
  else match s.portOfLane i with
    | some p => p = i
    | none => true

/-- A core reads CSR space outside its rights (R157, R557): its run ends with cause ADDR. -/
def State.vscBadCsr (s : State) (v : Nat) : State := s.runEnd v 1 0x03 0 0

/-- The page of MBX request and reply memory, and the MSI-X structures of PCIe, are no registers: the word at an address of theirs, if
the requester sees it (R405). -/
def State.mbxMem (s : State) (q : Requester) (off : Nat) : Option Bool :=
  if off < 0x200000 then
    let o := s.mbxOwner (off / 0x2000)
    some (reqFunc q o = o)
  else if 0x900000 ≤ off then some true
  else none

/-- Answer a CSR read (COUNTER_READ_CLEAR, R551 to R557, R562). -/
def State.csrRead (s : State) (q : Requester) (a : Nat) : State :=
  match q, decide (a % 4 = 0), csrAt a with
  | .vsc v, al, x =>
    match al, x with
    | true, some (.BMV, e, off) =>
      if e = vscCluster v then (let (w, s) := s.bmvRead e off; s.send (.readData (BitVec.ofNat 32 w))) else s.vscBadCsr v
    | _, _ => s.vscBadCsr v
  | q, true, some (b, i, off) =>
    match if b = .MBX then s.mbxMem q off else none with
    | some see => s.send (.readData (if see && !(reqBar0 q && s.domState 255 = 4) then BitVec.ofNat 32 (s.word (0x4000000 + off)) else 0))
    | none =>
      match regAt b off with
      | none => s.send (.readData 0)
      | some (r, j) =>
        if ¬ s.mayReach q r j false ∨ ¬ s.pageOn b i ∨ ¬ s.meaningful r i ∨ (reqBar0 q ∧ s.domState 255 = 4 ∧ (s.mbxRegOwner r j).isSome) then
          s.send (.readData 0)
        else
          let (w, s) := s.regRead r i j (q = .steward)
          s.send (.readData w)
  | .hostPF true, _, _ => s.send .unsupported
  | _, _, _ => s.send .busError

/-! ### Writes -/

/-- The codes of a field that its description marks as reserved: low bit, width, first reserved code (R558); PERIOD_UNIT of a pin is not
among them, since R89 gives code 3 another effect, a refused arm. -/
def Reg.reservedCodes (r : Reg) : List (Nat × Nat × Nat) :=
  match r with
  | .TBU_CTRL => [(0, 2, 3)]
  | .TBU_PPS_OUT_CTRL => [(1, 2, 3)]
  | .AFT_TL_CMD => [(8, 2, 3)]
  | .GDX_INST_CMD => [(12, 2, 2)]
  | .SQ_CMD => [(10, 2, 3)]
  | .CPL_PORT_CTRL => [(1, 2, 3)]
  | _ => []

/-- The fields in which a write of 0 stores 1: low bit and width. -/
def Reg.zeroIsOne (r : Reg) : List (Nat × Nat) :=
  match r with
  | .GDX_CFG => [(0, 2)]
  | .SQ_PFC_CFG => [(16, 16)]
  | .MBX_RING_IRQ => [(12, 8)]
  | .TND_RULE_TIMING => [(0, 12)]
  | _ => []

/-- What a write of v leaves in a register by its access codes (R10, R558). -/
def storedWord (r : Reg) (w v : Word) : Word :=
  let u := writeFields w v r.fields
  let u := r.reservedCodes.foldl (fun u x => if x.2.2 ≤ fieldGet v x.1 x.2.1 then fieldPut u x.1 x.2.1 (fieldGet w x.1 x.2.1) else u) u
  r.zeroIsOne.foldl (fun u x => if fieldGet v x.1 x.2 = 0 then fieldPut u x.1 x.2 1 else u) u

/-- Store a write by the access codes. -/
def State.plainWrite (s : State) (r : Reg) (i j : Nat) (v : Word) : State :=
  let k : RegKey := ⟨r, i, s.viewIdx r i j⟩
  s.wr k (storedWord r (s.rd k) v)

/-- Store a write, but keep some fields as they are. -/
def State.writeBut (s : State) (r : Reg) (i j : Nat) (v : Word) (keep : List Fld) : State :=
  let w := s.rd ⟨r, i, j⟩
  s.plainWrite r i j (keep.foldl (fun v f => fieldPut v f.lo f.len (fieldGet w f.lo f.len)) v)

/-- A write of TX_PWR or RX_PWR is a request for the direction's domain; a refused one leaves the field (R386). -/
def State.cplPwrWrite (s : State) (p d code : Nat) (f : Fld) : State :=
  if s.get f p = code then s
  else
    let t := [0, 3, 5].getD code 7
    let refused := decide (t ∉ domAllowed d) || (!s.pwrWaits d && decide (t ≠ s.domState d) && decide (s.pwrJudge d t ≠ 0))
    let s := s.pwrRequest d t
    if refused then s else s.put f code p

/-- The pins of XOFF_OUT are driven at their levels (R329, R542, R546). -/
def State.xoffDrive (s : State) : State :=
  if s.flag F.SQ_CTRL_EN then
    (List.range 16).foldl (fun s n =>
      s.send (.xoffOut n ((s.get F.SQ_XOFF_OUT_STATE_STATE).testBit n != (s.get F.SQ_XOFF_OUT_POL_POL).testBit n))) s
  else s

/-- A write of GDX_INST_CMD with GO (Table 4-18). -/
def State.instCmd (s : State) (v : Word) : State :=
  if v.bits 31 1 = 0 then s
  else
    let id := s.get F.GDX_INST_CMD_ID
    if s.get F.GDX_INST_CMD_OP = 0 then ((s.gdxCycle).cancel (if (s.inst id).isSome then some id else none)).gdxSettle
    else s.instCreate id (s.get F.GDX_INST_CMD_TL)

/-- A write of GDX_TPL_CMD with GO (Table 4-18): how large the region of an install is, and whether the directory has room for it, the
registers do not say (free values, log entry 3). -/
def State.tplCmd (s : State) (v : Word) : State :=
  if v.bits 31 1 = 0 then s
  else
    let t := s.get F.GDX_TPL_CMD_TEMPLATE
    match s.get F.GDX_TPL_CMD_OP with
    | 0 =>
      let (n, s) := s.freshNat
      let (b, s) := s.freshBool
      s.install n b
    | 1 => s.tplRemove t
    | 2 => s.tplBlock t true
    | _ => s.tplBlock t false

/-- A write of AFT_TL_CMD with GO (Table 3-9). -/
def State.tlCmd (s : State) (v : Word) : State :=
  if v.bits 31 1 = 0 then s
  else
    let t := s.get F.AFT_TL_CMD_TL
    match s.get F.AFT_TL_CMD_OP with
    | 0 => s.tlEnable t
    | 1 => s.tlDisable t
    | _ => s.tddUpdate t (s.get F.AFT_TL_CMD_ARG_TDD_PTR) (s.get F.AFT_TL_CMD_ARG_PATTERN_LEN)

/-- A write of SQ_CMD with GO (Table 11-5). -/
def State.sqGo (s : State) (v : Word) : State :=
  if v.bits 31 1 = 0 then s
  else
    let q := s.get F.SQ_CMD_QUEUE
    match s.get F.SQ_CMD_OP with
    | 0 => s.queueEnable q
    | 1 => s.queueDisable q
    | _ => s.queueReset q

/-- A write of BOOT_DBG_CTRL (R525, R526): whether a response verifies is not in the registers (a free choice, log entry 3). -/
def State.dbgCtrl (s : State) (v : Word) : State :=
  let s := s.put F.BOOT_DBG_CTRL_SCOPE (v.bits 1 3)
  let s := if v.bits 0 1 = 1 then s.dbgReq (v.bits 1 3) else s
  let s := if v.bits 5 1 = 1 then (let (ok, s) := s.freshBool; s.dbgGo ok) else s
  if v.bits 4 1 = 1 then s.dbgLock else s

/-- A write of CPL_LANE_CTRL (R377, R400): whether the lane's words sit at the new boundary is not in the registers (a free choice). -/
def State.laneCtrl (s : State) (p l : Nat) (v : Word) : State :=
  let s :=
    if s.flag F.CPL_PORT_CTRL_EN p ∧ (v.bits 1 2 ≠ 0 ∨ v.bits 3 1 ≠ 0) then s.set F.CPL_LANE_STATUS_BUSY p l
    else s.plainWrite .CPL_LANE_CTRL p l v
  if v.bits 0 1 = 1 then (let (b, s) := s.freshBool; s.cplSlip p l b) else s

/-- A write of CPL_PORT_CTRL (R374, R386). -/
def State.portCtrl (s : State) (p : Nat) (v : Word) : State :=
  let s := s.writeBut .CPL_PORT_CTRL p 0 v [F.CPL_PORT_CTRL_EN, F.CPL_PORT_CTRL_TX_PWR, F.CPL_PORT_CTRL_RX_PWR]
  let s := s.cplPwrWrite p (96 + p) (v.bits 5 2) F.CPL_PORT_CTRL_TX_PWR
  let s := s.cplPwrWrite p (112 + p) (v.bits 7 2) F.CPL_PORT_CTRL_RX_PWR
  if v.bits 0 1 = 1 then s.cplEnable p else if s.flag F.CPL_PORT_CTRL_EN p then s.cplDisable p else s

/-- A write of NET_PORT_CTRL (R339). -/
def State.netPortCtrl (s : State) (p : Nat) (v : Word) : State :=
  let s := s.writeBut .NET_PORT_CTRL p 0 v [F.NET_PORT_CTRL_EN]
  if v.bits 0 1 = 1 then s.netEnable p else if s.flag F.NET_PORT_CTRL_EN p then s.netDisable p else s

/-- A write of T_CTRL (R217, R241): MAP_PHYS belongs to the Stewards, INJ_RESIDUE to three types. -/
def State.engCtrl (s : State) (q : Requester) (i : Nat) (v : Word) : State :=
  let c := engClass i
  let v' := if 5 ≤ c ∧ c ≤ 7 then v else fieldPut v 0 1 0
  let s := s.writeBut .T_CTRL i 0 v' [F.T_CTRL_MAP_PHYS]
  if q = .steward ∧ v.bits 8 8 ≠ s.get F.T_CTRL_MAP_PHYS i then s.engMapWrite i (v.bits 8 8) else s

/-- A write of MXC_CTRL (R215, R216): SERVICE belongs to the Stewards. -/
def State.mxcCtrl (s : State) (q : Requester) (c : Nat) (v : Word) : State :=
  let s := s.writeBut .MXC_CTRL c 0 v [F.MXC_CTRL_SERVICE]
  let on : Bool := v.bits 2 1 = 1
  if q = .steward ∧ on ≠ s.flag F.MXC_CTRL_SERVICE c then s.mxService c on else s

/-- A write of WHS_PIN_CTRL (R96). -/
def State.pinCtrl (s : State) (n : Nat) (v : Word) : State :=
  let was := s.flag F.WHS_PIN_CTRL_EN 0 n
  let s := s.writeBut .WHS_PIN_CTRL 0 n v [F.WHS_PIN_CTRL_EN]
  if v.bits 0 1 = 1 then (if was then s else s.pinArm n) else if was then s.pinDisarm n else s

/-- A write of SQ_CTRL or SQ_XOFF_OUT_POL: a parked ball is driven again by a write of the latter (R542, R546). -/
def State.sqPins (s : State) (r : Reg) (v : Word) : State :=
  let was := s.flag F.SQ_CTRL_EN
  let s := s.plainWrite r 0 0 v
  if r = .SQ_XOFF_OUT_POL then { s with pins := { s.pins with xoffParked := [] } }.xoffDrive
  else if was then s else s.xoffDrive

/-- A write of TBU_SWITCH: GO asks for the switch that the fields name (R52). -/
def State.switchWrite (s : State) (v : Word) : State :=
  if v.bits 0 1 = 1 then s.switchGo (domOf (v.bits 1 1)) (v.bits 2 1 = 1) (v.bits 8 8) else s.plainWrite .TBU_SWITCH 0 0 v

/-- A Tender rule is written: its samples start anew. -/
def State.ruleWrite (s : State) (r : Reg) (i : Nat) (v : Word) : State :=
  let s := s.plainWrite r 0 i v
  if r = .TND_RULE_CFG then s.setPwr { s.pwr with rules := Tab.erase s.pwr.rules i } else s

/-- A write of NET_MACSEC_SA_CMD (R353): SCI and packet number are Steol's and not in the registers (free values, log entry 3). -/
def State.saCmd (s : State) (p : Nat) (v : Word) : State :=
  if v.bits 0 1 = 0 then s
  else
    let (a, s) := s.freshNat
    let (b, s) := s.freshNat
    let sa := s.get F.NET_MACSEC_SA_SEL_SA p
    if sa < 18 then
      let key := (List.range 8).map (fun k => s.get F.NET_MACSEC_KEY_KEY p k)
      s.upNet p (fun c => { c with sas := Tab.set c.sas sa ⟨key, a % 2 ^ 64, b % 2 ^ 64⟩, txSa := if sa < 2 then sa else c.txSa })
    else s

/-- A write of a register that the requester reaches, in an instance that responds: the register's own action, or its access codes. -/
def State.regWrite (s : State) (q : Requester) (r : Reg) (i j : Nat) (v : Word) : State :=
  match r with
  | .AFT_TL_CMD => (s.plainWrite r i j v).tlCmd v
  | .BOOT_CTRL =>
    let s := if v.bits 0 1 = 1 ∧ s.boot.wdog.isSome then s.setBoot { s.boot with wdog := some s.tbu.ticks } else s
    if v.bits 1 1 = 1 then s.setBoot { s.boot with wdog := none } else s
  | .BOOT_DBG_CTRL => s.dbgCtrl v
  | .CPL_LANE_CTRL => s.laneCtrl i j v
  | .CPL_PORT_CTRL => s.portCtrl i v
  | .CPL_PORT_EQ => if s.flag F.CPL_PORT_CTRL_EN i then s else s.plainWrite r i j v
  | .ECC_ERQ_PUSH_GO => if v.bits 0 1 = 1 then s.report s.pushed else s
  | .ECC_ERQ_RD => s.erqAdvance j (v.bits 0 16)
  | .GDX_CLASS_RESERVE => s.setReserve j (v.bits 0 8)
  | .GDX_INST_CMD => (s.plainWrite r i j v).instCmd v
  | .GDX_TPL_CMD => (s.plainWrite r i j v).tplCmd v
  | .GDX_SNAP => s.snapHold (v.bits 0 1 = 1)
  | .MBX_DOORBELL => s.mbxDoorbell (reqFunc q (s.mbxOwner j)) j (v.bits 0 16)
  | .MBX_RING_DB => s.ringDb (reqFunc q (((s.ring j).map (·.func)).getD 0)) j v.toNat
  | .MXC_CTRL => s.mxcCtrl q i v
  | .NET_FH_CMD => if v.bits 0 1 = 1 then s.lutCopy i else s
  | .NET_GRP_CFG =>
    let s := s.plainWrite r i j v
    if v.bits 31 1 = 1 then s.groupApply (i / 4) else s
  | .NET_LANE_PRBS_CTRL => s.prbsCtrl i v
  | .NET_LANE_TXFFE => if (s.portOfLane i).any (fun p => (s.netPort p).stage = 2) then s else s.plainWrite r i j v
  | .NET_MACSEC_SA_CMD => s.saCmd i v
  | .NET_PORT_CTRL => s.netPortCtrl i v
  | .PWR_REQ =>
    let s := s.plainWrite r i j v
    if v.bits 31 1 = 1 then s.pwrRequest (v.bits 0 8) (v.bits 8 3) else s
  | .RCS_CMD => if v.bits 0 1 = 1 then s.rcsGo else s
  | .RST_CTRL => if v.bits 0 1 = 1 ∧ v.bits 8 8 = 0x5A then s.warmAsk .software else s
  | .RST_DOMAIN =>
    let s := s.plainWrite r i j v
    if v.bits 31 1 = 1 then s.rstDomain (v.bits 0 8) else s
  | .SCL_MAP => s.sclMapWrite i v.toNat
  | .SCL_LEND => s.lendWrite i (v.bits 0 8) (v.bits 8 1 = 1)
  | .SQ_CMD => (s.plainWrite r i j v).sqGo v
  | .SQ_CTRL | .SQ_XOFF_OUT_POL => s.sqPins r v
  | .TBU_D_INC_NS => s.incWrite (domOf j) (v.bits 0 4)
  | .TBU_D_STEP_CTRL => if v.bits 0 1 = 1 then s.stepGo (domOf j) (v.bits 1 1 = 1) else s.plainWrite r i j v
  | .TBU_JUMP_LIMIT => s.put F.TBU_JUMP_LIMIT_LIMIT_NS (max 1 (min 1000000000 (v.bits 0 30)))
  | .TBU_SNAP => if v.bits 0 1 = 1 then s.setTbu { s.tbu with snap := true } else s
  | .TBU_SWITCH => s.switchWrite v
  | .THM_LIMIT => s.limitWrite v.toNat
  | .TND_RULE_CFG | .TND_RULE_THRESH | .TND_RULE_ACTION | .TND_RULE_TIMING => s.ruleWrite r j v
  | .T_CTRL => s.engCtrl q i v
  | .VSC_CTRL =>
    let s := s.plainWrite r i j v
    if v.bits 1 1 = 1 ∧ (s.core i).isNone then s.setIcache i [] else s
  | .WHS_ARM =>
    let s := s.plainWrite r i j v
    if v.bits 31 1 = 1 then s.whsArm (v.bits 0 10) else s
  | .WHS_DISARM =>
    let s := s.plainWrite r i j v
    if v.bits 31 1 = 1 then s.whsDisarm (v.bits 0 10) else s
  | .WHS_CTRL => s.whsEnable (v.bits 0 1 = 1)
  | .WHS_PIN_CTRL => s.pinCtrl j v
  | _ => s.plainWrite r i j v

/-- Perform a CSR write (REGISTER_WRITE, R551 to R558). -/
def State.csrWrite (s : State) (q : Requester) (a : Nat) (v : Word) : State :=
  match q, decide (a % 4 = 0), csrAt a with
  | .vsc c, al, x =>
    match al, x with
    | true, some (.BMV, e, off) => if e = vscCluster c then s.bmvWrite q e off v else s.vscBadCsr c
    | _, _ => s.vscBadCsr c
  | q, true, some (b, i, off) =>
    match if b = .MBX then s.mbxMem q off else none with
    | some see =>
      if see && (decide (off % 0x2000 < 0x1000 ∨ q = .steward) || decide (0x900000 ≤ off)) && !(q = .hostPF true && !s.dbgScope 1) then
        s.setWord (0x4000000 + off) v.toNat else s
    | none =>
      match regAt b off with
      | none => s
      | some (r, j) =>
        if ¬ s.mayReach q r j true ∨ ¬ s.pageOn b i ∨ ¬ s.meaningful r i then s
        else if b = .BMV then s.bmvWrite q i off v
        else s.regWrite q r i j v
  | _, _, _ => s.send .busError

/-- REGISTER_WRITE (R10, R11, R551 to R561). -/
def execRegisterWrite (req : Requester) (addr : Nat) (value : Word) (s : State) : Host.Outcome State Fault Refusal :=
  .next (if 0x10000000 ≤ addr then s.send .busError else s.csrWrite req addr value)

/-- COUNTER_READ_CLEAR (R562, R564): a read of a register, which clears its RC fields for a Steward or a core. -/
def execCounterReadClear (req : Requester) (addr : Nat) (s : State) : Host.Outcome State Fault Refusal :=
  .next (if 0x10000000 ≤ addr then s.send .busError else s.csrRead req addr)

/-- CSR_WINDOW_WRITE (R406): the segment of MBX_CSR_WIN, while secure debug is unlocked. -/
def execCsrWindowWrite (offset : BitVec 24) (value : Word) (s : State) : Host.Outcome State Fault Refusal :=
  .next (if s.dbgScope 1 then s.csrWrite (.hostPF true) (s.get F.MBX_CSR_WIN_SEG * 0x1000000 + offset.toNat) value else s)

/-! ### BAR2 (R407) -/

/-- The device address of an offset of BAR2 of a function, if it is mapped. -/
def State.bar2 (s : State) (f off : Nat) : Option Nat :=
  if f = 0 then
    if off < 0x2400000000 then some (hbmBase + off)
    else if 0x4000000000 ≤ off ∧ off < 0x4004000000 then some (sramBase + (off - 0x4000000000))
    else none
  else (if off < 0x400000000 then Tab.find s.host.windows (f, off / 0x80000000) else none).map (fun b => b + off % 0x80000000)

/-- The bytes of a write to memory, cut at the words it touches, at rising addresses. -/
def cutWords (k : MemKind) (a : Nat) (bs : List Byte) : Nat → List (Nat × List Byte)
  | 0 => []
  | n + 1 =>
    if bs = [] then []
    else
      let m := wordBytes k - a % wordBytes k
      (a, bs.take m) :: cutWords k (a + m) (bs.drop m) n

/-- An access of a host through BAR2: class 3 of R29; a stack in HIBERNATE, or an unmapped offset, answers Unsupported Request. -/
def State.bar2Access (s : State) (f off : Nat) (write : Option (List Byte)) : State :=
  match (if s.domState 255 = 4 then none else s.bar2 f off) with
  | none => s.send .unsupported
  | some a =>
    match memKind a with
    | none => s.send .unsupported
    | some k =>
      match write with
      | none => if s.memWaits k a false then s.memWait (.read a) else (s.hbmCount k a 3).memRead k a false
      | some bs => (cutWords k a bs (bs.length + 1)).foldl (fun s x =>
          if s.memWaits k x.1 true then (s.memWait (.write x.1 x.2)).priority x.1
          else (s.hbmCount k x.1 3).writeWithin k x.1 x.2) s

/-- BAR2_ACCESS (R407, R446). -/
def execBar2Access (f : Fin 17) (offset : BitVec 48) (write : Option (List Byte)) (s : State) : Host.Outcome State Fault Refusal :=
  .next (s.bar2Access f offset.toNat write)

end Sys2Proof.Machine
end

