-- ==== Sys2Proof/Machine/Session.lean ====
section
/-!
DEFINITION. Sys2Proof/Machine/Session.lean: the commands of Table 14-7 on sessions and resources (R418 to R422), device queries, carriers
(R423), graphs and kernels (R188 to R191, R424), and the end of asynchronous commands (R414).
-/
namespace Sys2Proof.Machine

/-- A refusal with only its status. -/
def only (status : Nat) : Refuse := ⟨status, 0, 0, 0⟩

/-- The values of a reply whose layout the spec does not give. -/
def values (l : List Nat) : List ReplyItem := [.detail l]

/-- Check that a resource is function f's before k (R404). -/
def State.owned (s : State) (sel : Partition → List (Nat × Nat)) (f n : Nat) (k : Refuse ⊕ (List ReplyItem × State)) :
    Refuse ⊕ (List ReplyItem × State) :=
  if s.ownerOf sel n = f then k else .inl (only 0x16)

/-! ### Sessions (R418 to R420) -/

/-- The versions that Steol implements, by major, highest first. -/
def steolVersions : List (Nat × Nat) := [(3, 2), (2, 3)]

/-- The version that OPEN chooses for a VERSION_RANGE: minor in bits 7:0, major in bits 15:8 of each bound. -/
def chooseVersion (lower upper : Nat) : Option (Nat × Nat) :=
  (steolVersions.find? (fun v => decide (lower / 256 ≤ v.1 ∧ v.1 ≤ upper / 256))).map (fun v =>
    (v.1, if v.1 = upper / 256 then min v.2 (upper % 256) else v.2))

/-- FEATURES of a session (Table 14-6). -/
def featureBits (v : Nat × Nat) : Nat :=
  if v.1 = 2 then 2 ^ 63 else if v.2 = 0 then 2 ^ 6 - 1 else if v.2 = 1 then 2 ^ 9 - 1 else 2 ^ 12 - 1

/-- OPEN: the session starts, or BAD_VERSION with the versions implemented and a header of 3.2. -/
def State.open_ (s : State) (m lower upper base : Nat) : State :=
  match s.request m 0x0001 with
  | none => s
  | some r =>
    match chooseVersion lower upper with
    | none =>
      let (e, s) := s.freeDetail (only 0x10)
      let (y, s) := s.makeReply r (3, 2) e [.versions [(2, 3), (3, 2)]]
      s.sendReply m r y
    | some v =>
      let (n, s) := s.freshNat
      let s := s.putAll 0 m [(F.MBX_OWNER_SESSION_OPEN, 1), (F.MBX_OWNER_SESSION, n)]
      let s := s.setMbx m { s.mbx m with version := some v }
      let s := s.setHost { s.host with hostBase := Tab.set s.host.hostBase (s.mbxOwner m) base }
      s.replyOk m r [.features (featureBits v), .detail [n % 2 ^ 16]]

/-- The mailboxes of a function with an open session. -/
def State.sessionsOf (s : State) (f : Nat) : List Nat :=
  (List.range 256).filter (fun m => s.flag F.MBX_OWNER_SESSION_OPEN 0 m && decide (s.mbxOwner m = f))

/-- CLOSE: the session ends; without another session its function has no host window (R408). -/
def State.close_ (s : State) (m : Nat) : State :=
  match s.request m 0x0002 with
  | none => s
  | some r =>
    let (v, s) := s.replyVersion m
    let s := s.putAll 0 m [(F.MBX_OWNER_SESSION_OPEN, 0), (F.MBX_OWNER_SESSION, 0)]
    let s := s.setMbx m { s.mbx m with version := none }
    let f := s.mbxOwner m
    let s := if s.sessionsOf f = [] then s.setHost { s.host with hostBase := Tab.erase s.host.hostBase f } else s
    let (y, s) := s.makeReply r v (only 0) []
    s.sendReply m r y

/-! ### PARTITION (R404, R422) -/

/-- The ranges of a partition by resource, with how many of the resource there are. -/
def partRanges : List ((Partition → List (Nat × Nat)) × Nat) :=
  [(Partition.mailboxes, 256), (Partition.rings, 512), (Partition.queues, 1024), (Partition.templates, 4096),
   (Partition.creditPools, 1024), (Partition.bufPools, 62), (Partition.whistles, 1024), (Partition.timelines, 256)]

/-- Is a partition within its ranges and clear of those of other functions? -/
def State.partOk (s : State) (f : Nat) (p : Partition) : Bool :=
  decide (f ≠ 0 ∧ 1 ≤ p.claimWait ∧ p.claimWait ≤ 60 ∧ p.suDl ≤ 102400 ∧ p.suUl ≤ 102400 ∧ p.carriers ≤ 256) &&
  partRanges.all (fun x => (x.1 p).all (fun r => decide (r.1 ≤ r.2 ∧ r.2 < x.2) &&
    s.host.parts.all (fun q => q.1 = f || (x.1 q.2).all (fun t => decide (r.2 < t.1 ∨ t.2 < r.1)))))

/-- The installed templates. -/
def State.installed (s : State) : List Template := s.gdx.templates.filterMap (fun t => t.2.cur)

/-- The resources that are in use: open mailboxes, rings, enabled queues, installed templates with their credit and buffer pools, armed
whistle channels and enabled timelines. -/
def State.inUse (s : State) : List ((Partition → List (Nat × Nat)) × List Nat) :=
  [(Partition.mailboxes, (List.range 256).filter (fun m => s.flag F.MBX_OWNER_SESSION_OPEN 0 m)), (Partition.rings, s.host.rings.map (·.1)),
   (Partition.queues, (List.range 1024).filter (fun q => s.queueOn q)), (Partition.templates, s.installed.map (·.id)),
   (Partition.creditPools, s.installed.flatMap (fun t => [t.poolG0, t.poolG1, t.poolG2])),
   (Partition.bufPools, s.installed.flatMap (fun t => t.nodes.flatMap NodeRec.outPools)),
   (Partition.whistles, (s.aft.channels.filter (fun c => c.2.armed)).map (·.1)), (Partition.timelines, s.aft.tls.map (·.1))]

/-- PARTITION: refused with STATE if a resource in use would change hands, or the carriers of f no longer fit. -/
def State.partition (s : State) (f : Nat) (p : Partition) : Refuse ⊕ (List ReplyItem × State) :=
  let t := s.setHost { s.host with parts := Tab.set s.host.parts f p }
  if ¬ s.partOk f p then .inl (only 0x15)
  else if s.inUse.any (fun x => x.2.any (fun n => decide (s.ownerOf x.1 n ≠ t.ownerOf x.1 n))) ∨ p.suDl < carSum carDl (s.carsOf f) ∨
      p.suUl < carSum carUl (s.carsOf f) ∨ p.carriers < (s.carsOf f).length then .inl (only 0x1B)
  else .inr ([], (List.range 256).foldl (fun t m => t.put F.MBX_OWNER_FUNCTION (t.ownerOf Partition.mailboxes m) 0 m) t)

/-! ### Queries -/

/-- Physical, active, bench, out and retired units of a type of Table 17-2 that rotates: cores, MXCs, slices and engines. -/
def State.unitCounts (s : State) (t : Nat) : List Nat :=
  let lost (n : Nat) : Nat := ((List.range n).filter (fun i => s.retired t i)).length
  if t = 0 then [216, 192, 24, s.outCount 0, lost 216]
  else if t = 1 then
    let on := ((List.range 24).filter (fun c => s.flag F.MXC_STATUS_IN_SERVICE c)).length
    [24, on, 24 - on, 0, lost 24]
  else if t = 2 then [288, 256, 32, 0, lost 288]
  else [engCount (t - 2), classActive (t - 2), classBench (t - 2), s.outCount (t - 2), lost (engCount (t - 2))]

/-- Stream-units used and free per direction, carriers, coupler streams, timelines and whistle channels of some carriers, under limits. -/
def capacity (l : List Carrier) (lim : Nat × Nat × Nat) : List Nat :=
  let cpl := l.filter (fun c => c.desc.coupler)
  [carSum carDl l, lim.1 - carSum carDl l, carSum carUl l, lim.2.1 - carSum carUl l, l.length, carSum (·.dl) cpl, carSum (·.ul) cpl,
   carSum (fun d => d.tls.length) l, carSum (fun d => d.whistles.length) l]

/-- Live slot instances on timelines. -/
def State.liveOn (s : State) (tls : List Nat) : Nat := (s.gdx.insts.filter (fun x => decide (x.2.tl ∈ tls))).length

/-- Kernel versions that are resident: the current ones and those that a live instance binds (R191). -/
def State.resident (s : State) : List Nat :=
  (s.exu.kernels.map (fun k => k.2.version) ++ s.gdx.insts.flatMap (fun x => x.2.kernels.map (·.version))).eraseDups

/-! ### Carriers (R420, R423) -/

/-- May a 2.3 session configure a carrier: NR FR1 or LTE fronthaul on reference templates? -/
def inSubset (d : CarrierDesc) : Bool :=
  !d.coupler && d.reference && decide (d.type = .nrFr1Mu0 ∨ d.type = .nrFr1Mu1 ∨ d.type = .nrFr1Mu2 ∨ d.type = .lte)

/-- CONFIGURE of function f in a session. -/
def State.configureIn (s : State) (old : Bool) (f : Nat) (remove : List Nat) (add : List CarrierDesc) :
    Refuse ⊕ (List ReplyItem × State) :=
  if old ∧ ¬ add.all inSubset then .inl ⟨0x1D, 0, (add.takeWhile inSubset).length, 0⟩
  else match s.configure f remove add with
    | .inl e => .inl e
    | .inr (hs, t) => .inr (hs.map .handle, t)

/-- CLAIM: a new session takes its carriers and rings back (R436). -/
def State.claim (s : State) (f : Nat) (hs rs : List Nat) : Refuse ⊕ (List ReplyItem × State) :=
  match s.badHandle f 0 hs, rs.find? (fun r => decide ((s.ring r).all (fun x => x.func ≠ f))) with
  | some e, _ => .inl e
  | none, some r => .inl ⟨if (s.ring r).isSome then 0x16 else 0x1A, 0, rs.takeWhile (· ≠ r) |>.length, 0⟩
  | none, none =>
    let s := rs.foldl (fun s r => s.clr F.MBX_RING_STATUS_DETACHED 0 r) s
    .inr ([], s.setHost { s.host with unclaimed := s.host.unclaimed.filter (· ≠ f) })

/-! ### Kernel images (R188 to R191) -/

/-- Any core, to name the registers that a bundle writes. -/
def blankCore : VscCore :=
  ⟨0, 0, ⟨0, 0, 0, false, false, false, 0, 0, 0⟩, 0, [], [], [], [], [], [], [], [], 0, 0, 0, 0, [], 0, none, none⟩

/-- Does a bundle have a reserved CTL or opcode, an opcode in the wrong slot, or two writes to one register (cause 0x5)? -/
def Bundle.refused (b : Bundle) : Bool :=
  let ts := b.ops.flatMap (fun o => o.targets blankCore)
  !(b.ops.all VOp.inSlot) || decide (ts.eraseDups.length ≠ ts.length) || decide (8 < b.ctl)

/-- The first fault of the bundles from offset p of the code: none, or cause and offset; a bundle that the end of the code cuts is cause
0x4. -/
def State.bundleFault (s : State) (code len : Nat) : Nat → Nat → Option (Nat × Nat)
  | 0, _ => none
  | n + 1, p =>
    if len ≤ p then none
    else
      let b := s.bundleAt (code + p)
      if len < p + b.bytes then some (4, p)
      else if b.refused then some (5, p)
      else s.bundleFault code len n (p + b.bytes)

/-- Check a kernel image (R190): the cause and its offset, 0 for none; the lowest cause that holds. -/
def State.kernelCause (s : State) (a len : Nat) (fits : Bool) : Nat × Nat :=
  let w (k : Nat) : Nat := s.word (a + 4 * k)
  let code := a + w 4
  let fault := s.bundleFault code (w 5) (w 5 / 4 + 1) 0
  if w 0 ≠ 0x4B45524E ∨ len < w 8 then (1, 0)
  else if natBits (w 1) 16 16 ≠ 3 then (2, 0)
  else if crc32 (s.bytes a 28 ++ [0, 0, 0, 0] ++ s.bytes (a + 32) (w 8 - 32)) ≠ w 7 then (3, 0)
  else if w 4 % 4 ≠ 0 ∨ w 5 % 4 ≠ 0 ∨ 2 ^ 20 < w 5 ∨ w 8 < w 4 + w 5 ∨ w 5 ≤ w 6 ∨ fault.any (·.1 = 4) then (4, 0)
  else match fault with
    | some (_, p) => (5, p)
    | none => if ¬ fits then (6, 0) else if 8192 ≤ s.resident.length then (7, 0) else (0, 0)

/-- Install the kernel image at an address (R188 to R191): its code goes to a free part of HBM that Steol chooses (a free choice). -/
def State.kernelInstall (s : State) (a : Nat) : State :=
  let w (k : Nat) : Nat := s.word (a + 4 * k)
  let (n, s) := s.freshNat
  let code := hbmBase + n % 0x24000000 * 256
  let id := natBits (w 2) 0 16
  let k : Kernel := ⟨id, s.exu.nextKernel, natBits (w 2) 16 16, (w 3).testBit 0, (w 3).testBit 1,
    (w 3).testBit 2 && decide (natBits (w 1) 0 16 ≠ 0), code, w 5, w 6⟩
  let s := s.setBytes code (s.bytes (a + w 4) (w 5))
  s.setExu { s.exu with kernels := Tab.set s.exu.kernels id k, nextKernel := s.exu.nextKernel + 1 }

/-- The index of the first template of an image that is not function f's. -/
def State.foreignTpl (s : State) (f a : Nat) : Option Nat :=
  (List.range (natBits (s.word (a + 8)) 0 13)).find? (fun k =>
    s.ownerOf Partition.templates (natBits (s.word (a + (s.dirEntry a k).1)) 0 12) ≠ f)

/-! ### The end of an asynchronous command (R414, R426) -/

/-- Read the entries of a repair map record. -/
def parseRepairs : Nat → List Nat → List Repair
  | 0, _ => []
  | n + 1, l =>
    match l with
    | w0 :: w1 :: w2 :: _ :: l =>
      ⟨natBits w0 0 3, w0.testBit 3, w0.testBit 4, natBits w0 16 16, natBits w1 0 18, w2⟩ :: parseRepairs n l
    | _ => []

/-- Show the retired cores of every cluster. -/
def State.sclShowAll (s : State) : State := (List.range 24).foldl (fun s c => s.sclShow c) s

/-- The later copy of a boot-flash descriptor written over the earlier one, naming the new primary slot (R519, step 2). -/
def flashCommit (flash : List (Option (Nat × Nat))) (new : Nat) : List (Option (Nat × Nat)) :=
  match laterCopy flash with
  | some (k, n, _) => (List.range 2).map (fun i => if i = k then flash.getD i none else some ((n + 1) % 2 ^ 32, new))
  | none => [some (1, new), flash.getD 1 none]

/-- FW_COMMIT ends (R438, R519). -/
def State.fwCommitted (s : State) : State :=
  let act := s.get F.MBX_DEV_STATUS_ACTIVE_PAIR
  let x := s.host.fw
  let new := 1 - s.boot.primary
  let s := s.setBoot { s.boot with flash := flashCommit s.boot.flash new, primary := new }
  let s := s.burnTo x.secver
  let s := s.setMemx { s.memx with fuses := Tab.set s.memx.fuses 0x40 (Tab.get 0 s.memx.fuses 0x40 ||| x.revoke) }
  let s := s.setHost { s.host with fw := { x.revert with vers := Tab.set x.vers (1 - act) (Tab.get 0 x.vers act) } }
  (s.putAll 0 0 [(F.MBX_DEV_STATUS_TRIAL, 0), (F.MBX_DEV_STATUS_STANDBY_READY, 1)]).event (.firmware 2)

/-- What a job does when it ends, with the final status. -/
def State.runJob (s : State) (j : Job) (fits : Bool) : Refuse × State :=
  match j.kind with
  | .graph a len =>
    match (if s.imageCause a len = 0 then s.foreignTpl j.func a else none) with
    | some k => (⟨0x16, 0, k, 0⟩, s)
    | none =>
      let (r, s) := s.installAt a len fits
      (if r.1 = 0 then only 0 else ⟨0x1C, r.1, r.2, 0⟩, s)
  | .kernel a len =>
    let c := s.kernelCause a len fits
    if c.1 = 0 then (only 0, s.kernelInstall a) else (⟨0x1C, c.1, 0, c.2⟩, s)
  | .laneTest coupler port lane _ _ =>
    (only 0, if coupler then s.laneCtrl port lane 0 else s.prbsCtrl lane 0)
  | .writeRecord kind body =>
    if kind = 3 then (only 0, (s.setRepairs (parseRepairs (body.length / 4) body)).sclShowAll) else (only 0, s.recWrite kind body)
  | .repairRemove unit =>
    (only 0, (s.setRepairs (s.memx.repairs.filter (fun r => !(r.kind = 3 && r.macroId = unit)))).sclShowAll)
  | .fwStage version secver revoke =>
    let x := s.host.fw
    (only 0, (s.setHost { s.host with fw :=
      ⟨.staged, Tab.set x.vers (1 - s.get F.MBX_DEV_STATUS_ACTIVE_PAIR) version, secver, revoke, none⟩ }).event (.firmware 0))
  | .fwCommit => (only 0, s.fwCommitted)
  | .fwSwap | .fwAbort => (only 0, s)

/-- Steol reports the end of a job: it is no longer under way, and a COMPLETION event tells its function (R414, R426). -/
def State.jobOver (s : State) (j : Job) (e : Refuse) : State :=
  let s := s.setHost { s.host with jobs := s.host.jobs.erase j }
  let (e, s) := if e.status = 0 then (e, s) else s.freeDetail e
  s.eventTo j.func (.completion j.mbx j.seq e.status e.cause e.index e.offset)

/-- A job that failed: INTERNAL, with an error record whose codes the spec does not give (free values). -/
def State.jobFailed (s : State) (j : Job) : State :=
  let (c, s) := s.freshNat
  let (v, s) := s.freshNat
  let (d, s) := s.freshNat
  (s.report ⟨15, c % 256, v % 3, 0, d % 2 ^ 16, 0⟩).jobOver j (only 0x20)

/-- An asynchronous command ends; a swap of pairs ends at its own point (R438). -/
def State.asyncEnd (s : State) (m seq : Nat) (o : JobOutcome) : State :=
  match s.host.jobs.find? (fun j => decide (j.mbx = m ∧ j.seq = seq ∧ j.kind ≠ .fwSwap ∧ j.kind ≠ .fwAbort)) with
  | none => s
  | some j =>
    if o = .failed then s.jobFailed j
    else
      let (e, s) := s.runJob j (o ≠ .noRoom)
      s.jobOver j e

/-! ### The commands -/

/-- ASYNC_COMMAND_COMPLETE (R414). -/
def execAsyncCommandComplete (m : BitVec 8) (seq : BitVec 16) (outcome : JobOutcome) (s : State) : Host.Outcome State Fault Refusal :=
  .next (s.asyncEnd m.toNat seq.toNat outcome)

/-- OPEN (R418, R419). -/
def execOpen (m : BitVec 8) (lower upper : BitVec 16) (base : BitVec 64) (s : State) : Host.Outcome State Fault Refusal :=
  .next (s.open_ m.toNat lower.toNat upper.toNat base.toNat)

/-- CLOSE (R421). -/
def execClose (m : BitVec 8) (s : State) : Host.Outcome State Fault Refusal := .next (s.close_ m.toNat)

/-- PING: the version of Steol, which the spec does not give, and the active pair. -/
def execPing (m : BitVec 8) (s : State) : Host.Outcome State Fault Refusal :=
  .next (s.serve m.toNat 0x0003 (fun _ s =>
    let (v, s) := s.freshNat
    .inr (values [v, s.get F.MBX_DEV_STATUS_ACTIVE_PAIR], s)))

/-- PARTITION (R404, R422). -/
def execPartition (m : BitVec 8) (f : Fin 17) (part : Partition) (s : State) : Host.Outcome State Fault Refusal :=
  .next (s.serve m.toNat 0x0004 (fun _ s => s.partition f part))

/-- EVENT_RING (R426). -/
def execEventRing (m : BitVec 8) (ring : BitVec 9) (mask : BitVec 11) (s : State) : Host.Outcome State Fault Refusal :=
  .next (s.serve m.toNat 0x0005 (fun f s =>
    match s.ring ring.toNat with
    | none => .inl (only 0x1A)
    | some x =>
      if x.func ≠ f then .inl (only 0x16)
      else if ¬ x.out ∨ x.kind ≠ .event then .inl (only 0x15)
      else .inr ([], s.setHost { s.host with evRings := Tab.set s.host.evRings f (ring.toNat, mask.toNat) })))

/-- GET_DEVICE: the fuse words with identifier, die revision and ordering code, the car, the boot slot, and the versions of the ROM and of
Steol, which the spec does not give. -/
def execGetDevice (m : BitVec 8) (s : State) : Host.Outcome State Fault Refusal :=
  .next (s.serve m.toNat 0x0101 (fun _ s =>
    let (a, s) := s.freshNat
    let (b, s) := s.freshNat
    .inr (values ((List.range 16).map (Tab.get 0 s.memx.fuses) ++ [s.get F.CPL_CONSIST_CAR, s.get F.BOOT_STATUS_SLOT, a, b]), s)))

/-- GET_UNITS: the counts per unit type. -/
def execGetUnits (m : BitVec 8) (s : State) : Host.Outcome State Fault Refusal :=
  .next (s.serve m.toNat 0x0102 (fun _ s => .inr (values ((List.range 12).flatMap s.unitCounts), s)))

/-- GET_CAPACITY: of the chip and of the function's partition. -/
def execGetCapacity (m : BitVec 8) (s : State) : Host.Outcome State Fault Refusal :=
  .next (s.serve m.toNat 0x0103 (fun f s =>
    .inr (values (capacity (s.car.list.map (·.2)) (102400, 102400, 256) ++ capacity (s.carsOf f) (s.share f)), s)))

/-- CONFIGURE (R420, R423). -/
def execConfigure (m : BitVec 8) (remove : List Nat) (add : List CarrierDesc) (s : State) : Host.Outcome State Fault Refusal :=
  .next (s.serve m.toNat 0x0201 (fun f s => s.configureIn ((s.mbx m.toNat).version.any (·.1 = 2)) f remove add))

/-- GET_CARRIER: state (0 stopped, 1 started, 2 shed), cost, timelines and live instances. -/
def execGetCarrier (m : BitVec 8) (handle : Nat) (s : State) : Host.Outcome State Fault Refusal :=
  .next (s.serve m.toNat 0x0202 (fun f s =>
    match Tab.find s.car.list handle with
    | none => .inl (only 0x1A)
    | some c =>
      if c.func ≠ f then .inl (only 0x16)
      else .inr (values ([if c.shed.isSome then 2 else if c.started then 1 else 0, carDl c.desc, carUl c.desc, s.liveOn c.desc.tls] ++
        c.desc.tls), s)))

/-- START (R423, R571, R572). -/
def execStartCarrier (m : BitVec 8) (handle : Nat) (locked delay : Bool) (s : State) : Host.Outcome State Fault Refusal :=
  .next (s.serve m.toNat 0x0203 (fun f s => match s.startCar f handle locked delay with
    | .inl e => .inl e
    | .inr t => .inr ([], t)))

/-- STOP (R496). -/
def execStopCarrier (m : BitVec 8) (handle : Nat) (s : State) : Host.Outcome State Fault Refusal :=
  .next (s.serve m.toNat 0x0204 (fun f s => match s.stopCar f handle with
    | .inl e => .inl e
    | .inr t => .inr ([], t)))

/-- SET_PRECEDENCE (R496). -/
def execSetPrecedence (m : BitVec 8) (handles : List Nat) (s : State) : Host.Outcome State Fault Refusal :=
  .next (s.serve m.toNat 0x0205 (fun _ s =>
    match handles.find? (fun h => (Tab.find s.car.list h).isNone) with
    | some h => .inl ⟨0x1A, 0, (handles.takeWhile (· ≠ h)).length, 0⟩
    | none => .inr ([], s.setCar { s.car with prec := handles })))

/-- CLAIM (R436). -/
def execClaim (m : BitVec 8) (handles : List Nat) (rings : List Nat) (s : State) : Host.Outcome State Fault Refusal :=
  .next (s.serve m.toNat 0x0206 (fun f s => s.claim f handles rings))

/-- INSTALL_GRAPH (R112, R424). -/
def execInstallGraph (m : BitVec 8) (addr : BitVec 48) (length : Word) (s : State) : Host.Outcome State Fault Refusal :=
  .next (s.serveAsync m.toNat 0x0301 (fun _ s => .inr (.graph addr.toNat length.toNat, s)))

/-- INSTALL_KERNEL (R190, R424). -/
def execInstallKernel (m : BitVec 8) (addr : BitVec 48) (length : Word) (s : State) : Host.Outcome State Fault Refusal :=
  .next (s.serveAsync m.toNat 0x0302 (fun _ s => .inr (.kernel addr.toNat length.toNat, s)))

/-- TEMPLATE_OP (R113). -/
def execTemplateOp (m : BitVec 8) (template : BitVec 12) (op : TplOp) (s : State) : Host.Outcome State Fault Refusal :=
  .next (s.serve m.toNat 0x0303 (fun f s => s.owned Partition.templates f template.toNat (
    if (s.tplCur template.toNat).isNone then .inl (only 0x1A)
    else match op with
      | .remove => .inr ([], s.tplRemove template.toNat)
      | .block => .inr ([], s.tplBlock template.toNat true)
      | .unblock => .inr ([], s.tplBlock template.toNat false))))

/-- REMOVE_KERNEL (R421): the kernel is not current any more; instances that bind it keep it (R191). -/
def execRemoveKernel (m : BitVec 8) (kernel : BitVec 16) (s : State) : Host.Outcome State Fault Refusal :=
  .next (s.serve m.toNat 0x0304 (fun _ s =>
    if (Tab.find s.exu.kernels kernel.toNat).isNone then .inl (only 0x1A)
    else .inr ([], s.setExu { s.exu with kernels := Tab.erase s.exu.kernels kernel.toNat })))

/-- LIST: templates with revision, live instances and whether they are blocked, then kernels with revision and live instances. -/
def execList (m : BitVec 8) (s : State) : Host.Outcome State Fault Refusal :=
  .next (s.serve m.toNat 0x0305 (fun _ s =>
    .inr (values (s.installed.flatMap (fun t =>
        [t.id, t.revision, (s.gdx.insts.filter (fun x => x.2.tpl.id = t.id)).length, if s.tplBlocked t.id then 1 else 0]) ++
      s.exu.kernels.flatMap (fun k =>
        [k.1, k.2.revision, (s.gdx.insts.filter (fun x => x.2.kernels.any (fun v => v.id = k.1))).length])), s)))

/-- SET_RESERVE (R150). -/
def execSetReserve (m : BitVec 8) (cls : Nat) (n : Nat) (s : State) : Host.Outcome State Fault Refusal :=
  .next (s.serve m.toNat 0x0306 (fun _ s => if 9 < cls ∨ 255 < n then .inl (only 0x15) else .inr ([], s.setReserve cls n)))

/-- SET_REPLAY (Table 4-17). -/
def execSetReplay (m : BitVec 8) (replays limit : Nat) (s : State) : Host.Outcome State Fault Refusal :=
  .next (s.serve m.toNat 0x0307 (fun _ s =>
    if replays < 1 ∨ 3 < replays ∨ 4095 < limit then .inl (only 0x15)
    else .inr ([], s.putAll 0 0 [(F.GDX_CFG_REPLAY_MAX, replays), (F.GDX_CFG_L0_LIMIT_NS, limit)])))

end Sys2Proof.Machine
end

