-- ==== Sys2Proof/Machine/Service.lean ====
section
/-!
DEFINITION. Sys2Proof/Machine/Service.lean: the commands of Table 14-7 on time, whistles and pins, rings, queues and pools, couplers and
power (groups 0x04 to 0x07).
-/
namespace Sys2Proof.Machine

/-- Execute command op where Steol writes registers before it knows the outcome: k gives the status with its detail (0 for OK), the items
and the state, whose effects a refusal keeps. -/
def State.serveKept (s : State) (m op : Nat) (k : Nat → State → Refuse × List ReplyItem × State) : State :=
  match s.request m op with
  | none => s
  | some r =>
    let (e, items, t) := k (s.mbxOwner m) s
    if e.status = 0 then t.replyOk m r items else t.refuse m r e

/-! ### Time (R46, R50, R52, R57) -/

/-- Bind a domain to a source (R50): SOURCE, the PTP ports of the domain, and the up port of a consist. -/
def State.bindSource (s : State) (d : Dom) (source : Nat) (ports : List Nat) (ptp : Nat) (synce : Option Nat) (up : Nat) : State :=
  let k := domIdx d
  let s := s.putAll 0 k [(F.TBU_D_SOURCE_SRC, source), (F.TBU_D_SOURCE_PTP_DOMAIN, ptp)]
  let s := match synce with
    | some l => s.putAll 0 k [(F.TBU_D_SOURCE_SYNCE_LANE, l), (F.TBU_D_SOURCE_SYNCE_EN, 1)]
    | none => s.put F.TBU_D_SOURCE_SYNCE_EN 0 0 k
  let s := (List.range 32).foldl (fun s p =>
    if p ∈ ports then s.put F.TBU_PORT_CFG_DOMAIN (k + 1) 0 p
    else if s.get F.TBU_PORT_CFG_DOMAIN 0 p = k + 1 then s.put F.TBU_PORT_CFG_DOMAIN 0 0 p else s) s
  if source = 3 then s.putAll 0 0 [(F.CPL_CONSIST_UP_PORT, up), (F.CPL_CONSIST_UP_EN, 1)] else s

/-- TIME_STATUS: per domain the source, TIME_VALID, the servo's state and offset (Steol's own: free values), holdover seconds and
BROWNOUT_LOST; the active domain and the slew. -/
def State.timeStatus (s : State) : List Nat × State :=
  let (a, s) := s.freshNat
  let (b, s) := s.freshNat
  let (c, s) := s.freshNat
  let (d, s) := s.freshNat
  let sec (x : Dom) : Nat := min 0xFFFFFF ((s.tbu.dom x).hold / 625000000)
  let of (x : Dom) : List Nat := [s.get F.TBU_D_SOURCE_SRC 0 (domIdx x), s.get F.TBU_D_STATUS_TIME_VALID 0 (domIdx x)]
  (of .A ++ [a, b, sec .A] ++ of .B ++ [c, d, sec .B] ++
    [s.get F.TBU_HOLDOVER_BROWNOUT_LOST, domIdx s.active, s.get F.TBU_SLEW_RESID_NS_RESID_NS], s)

/-- TIME_STATUS (R421). -/
def execTimeStatus (m : BitVec 8) (s : State) : Host.Outcome State Fault Refusal :=
  .next (s.serve m.toNat 0x0401 (fun _ s => let (l, s) := s.timeStatus; .inr (values l, s)))

/-- TIME_SOURCE (R50). -/
def execTimeSource (m : BitVec 8) (d : Dom) (source : Fin 4) (ports : List (Fin 32)) (ptpDomain : BitVec 8) (synce : Option (Fin 32))
    (upPort : Fin 16) (s : State) : Host.Outcome State Fault Refusal :=
  .next (s.serve m.toNat 0x0402 (fun _ s =>
    .inr ([], s.bindSource d source (ports.map (·.val)) ptpDomain.toNat (synce.map (·.val)) upPort)))

/-- JUMP_LIMIT (R46): the limit as the register takes it. -/
def execJumpLimit (m : BitVec 8) (ns : Word) (s : State) : Host.Outcome State Fault Refusal :=
  .next (s.serve m.toNat 0x0403 (fun _ s => .inr ([], s.put F.TBU_JUMP_LIMIT_LIMIT_NS (max 1 (min 1000000000 ns.toNat)))))

/-- SWITCH (R52, R54): BUSY while a switch is pending. -/
def execSwitch (m : BitVec 8) (target : Dom) (force : Bool) (refTl : BitVec 8) (s : State) : Host.Outcome State Fault Refusal :=
  .next (s.serveKept m.toNat 0x0404 (fun _ s =>
    (only (if s.tbu.switch.isSome then 0x19 else 0), [], s.switchGo target force refTl.toNat)))

/-- TIME_OF_DAY (R57). -/
def execTimeOfDay (m : BitVec 8) (sec : BitVec 48) (utc : Int) (s : State) : Host.Outcome State Fault Refusal :=
  .next (s.serve m.toNat 0x0405 (fun _ s => .inr ([], s.setHost { s.host with tod := some (sec.toNat, utc) })))

/-- PTP_PORT (R56, R59 to R61): profile 0 is G.8275.1, 1 is G.8275.2; role 0 grandmaster, 1 boundary clock, 2 slave. -/
def execPtpPort (m : BitVec 8) (port : Fin 32) (profile role : Nat) (oneStep synceOut ecpriDelay : Bool) (s : State) :
    Host.Outcome State Fault Refusal :=
  .next (s.serve m.toNat 0x0406 (fun _ s =>
    let bit (b : Bool) : Nat := if b then 1 else 0
    if 1 < profile ∨ 2 < role then .inl (only 0x15)
    else if profile = 1 ∧ (role = 0 ∨ oneStep) then .inl (only 0x17)
    else .inr ([], (s.putAll 0 port [(F.TBU_PORT_CFG_ONE_STEP, bit oneStep), (F.TBU_PORT_CFG_SYNCE_OUT, bit synceOut),
      (F.TBU_PORT_CFG_ECPRI_OWD_EN, bit ecpriDelay)]).setHost { s.host with ptp := Tab.set s.host.ptp port.val (profile, role) })))

/-- CONSIST: car, up port, the offset of CPL_TIME_OFFSET on it, and the tags with TL_MISMATCH. -/
def execConsist (m : BitVec 8) (s : State) : Host.Outcome State Fault Refusal :=
  .next (s.serve m.toNat 0x0407 (fun _ s =>
    let p := s.get F.CPL_CONSIST_UP_PORT
    .inr (values ([s.get F.CPL_CONSIST_CAR, p, s.get F.CPL_TIME_OFFSET_OFFSET_PS p] ++ s.gdx.mismatch), s)))

/-! ### Whistles and pins (R88, R89, R95, R96) -/

/-- WHISTLE_ARM: Steol writes the entry and arms the channel; a refused arm is BAD_VALUE with its cause. -/
def State.brildoArm (s : State) (f ch : Nat) (ws : List Nat) : Refuse × List ReplyItem × State :=
  if s.ownerOf Partition.whistles ch ≠ f then (only 0x16, [], s)
  else
    let was := s.flag F.WHS_STATUS_ARM_REFUSED
    let t := (s.clr F.WHS_STATUS_ARM_REFUSED).whsWriteArm ch ws
    if t.flag F.WHS_STATUS_ARM_REFUSED then (⟨0x15, t.get F.WHS_STATUS_CAUSE, 0, 0⟩, [], t)
    else (only 0, [], t.setTo F.WHS_STATUS_ARM_REFUSED was)

/-- WHISTLE_ARM (R88). -/
def execWhistleArm (m : BitVec 8) (channel : BitVec 10) (words : List Word) (s : State) : Host.Outcome State Fault Refusal :=
  .next (s.serveKept m.toNat 0x0501 (fun f s => s.brildoArm f channel.toNat (words.map (·.toNat))))

/-- WHISTLE_DISARM (R88). -/
def execWhistleDisarm (m : BitVec 8) (channel : BitVec 10) (s : State) : Host.Outcome State Fault Refusal :=
  .next (s.serve m.toNat 0x0502 (fun f s => s.owned Partition.whistles f channel.toNat (.inr ([], s.whsDisarm channel.toNat))))

/-- WHISTLE_GET: the words of the entry. -/
def execWhistleGet (m : BitVec 8) (channel : BitVec 10) (s : State) : Host.Outcome State Fault Refusal :=
  .next (s.serve m.toNat 0x0503 (fun f s =>
    s.owned Partition.whistles f channel.toNat (.inr (values (s.words (s.whsAddr channel.toNat) 8), s))))

/-- GRACE (Table 3-8): GRACE_NS has 19 bits. -/
def execGrace (m : BitVec 8) (ns : Word) (s : State) : Host.Outcome State Fault Refusal :=
  .next (s.serve m.toNat 0x0504 (fun _ s =>
    if 2 ^ 19 ≤ ns.toNat then .inl (only 0x15) else .inr ([], s.put F.WHS_GRACE_GRACE_NS ns.toNat)))

/-- PIN (R96): COORD, DELTA and TIMING first, CTRL last. -/
def execPin (m : BitVec 8) (pin : BitVec 6) (ctrl coord delta timing : Word) (s : State) : Host.Outcome State Fault Refusal :=
  .next (s.serve m.toNat 0x0505 (fun _ s =>
    let n := pin.toNat
    let s := ((s.plainWrite .WHS_PIN_COORD 0 n coord).plainWrite .WHS_PIN_DELTA_NS 0 n delta).plainWrite .WHS_PIN_TIMING 0 n timing
    .inr ([], s.pinCtrl n ctrl)))

/-! ### Rings, queues and pools (R331, R333, R407, R428) -/

/-- A power of two from 16 to 65,536. -/
def entriesOk (n : Nat) : Bool := (List.range 13).any (fun k => n = 16 * 2 ^ k)

/-- Are the parameters of a ring within their ranges (R428, Table 14-17)? -/
def ringOk (p : RingParams) : Bool :=
  decide (p.base % 64 = 0 ∧ p.tl < 256 ∧ p.stagePool < 62 ∧ p.vector < 2048 ∧ p.coalItems < 256 ∧ p.coalUs < 4096) && entriesOk p.entries

/-- Create a ring (R428). -/
def State.ringMake (s : State) (f r : Nat) (p : RingParams) : State :=
  let s := s.setRing r { func := f, out := p.out, kind := p.kind, inHost := p.inHost, base := p.base, entries := p.entries,
                         wbAddr := p.wbAddr, tl := p.tl, stagePool := p.stagePool, dataBase := p.dataBase, dataSize := p.dataSize,
                         errRing := p.errRing, level0 := p.level0, unsignalled := 0, outSeq := 0, items := [], fetched := 0 }
  s.putAll 0 r [(F.MBX_RING_STATUS_ENABLED, 1), (F.MBX_RING_STATUS_DIR, if p.out then 1 else 0), (F.MBX_RING_STATUS_DETACHED, 0),
    (F.MBX_RING_TAIL_TAIL, 0), (F.MBX_RING_HEAD_HEAD, 0), (F.MBX_RING_IRQ_VECTOR, p.vector), (F.MBX_RING_IRQ_EN, if p.irq then 1 else 0),
    (F.MBX_RING_IRQ_COAL_ITEMS, max 1 p.coalItems), (F.MBX_RING_IRQ_COAL_US, p.coalUs)]

/-- RING_CREATE (R428, R420). -/
def execRingCreate (m : BitVec 8) (ring : BitVec 9) (params : RingParams) (s : State) : Host.Outcome State Fault Refusal :=
  .next (s.serve m.toNat 0x0601 (fun f s => s.owned Partition.rings f ring.toNat (
    if (s.ring ring.toNat).isSome then .inl (only 0x1B)
    else if (s.mbx m.toNat).version.any (·.1 = 2) ∧ params.inHost then .inl (only 0x1D)
    else if ¬ ringOk params then .inl (only 0x15)
    else .inr ([], s.ringMake f ring.toNat params))))

/-- RING_DESTROY (R421): the streams that named it end. -/
def execRingDestroy (m : BitVec 8) (ring : BitVec 9) (s : State) : Host.Outcome State Fault Refusal :=
  .next (s.serve m.toNat 0x0602 (fun f s =>
    match s.ring ring.toNat with
    | none => .inl (only 0x1A)
    | some x =>
      if x.func ≠ f then .inl (only 0x16)
      else
        let s := s.ringDestroy ring.toNat
        .inr ([], s.setHost { s.host with
          errStream := s.host.errStream.filter (fun e => e.1 ≠ ring.toNat)
          telemRing := s.host.telemRing.filter (· ≠ ring.toNat) })))

/-- QUEUE_CONFIG: the entry is written, or the SQ command given; its cause refuses with BAD_VALUE for a value, STATE for causes 6, 7. -/
def State.brildoQueue (s : State) (f q : Nat) (op : QueueOp) : Refuse × List ReplyItem × State :=
  let ran (t : State) : Refuse × List ReplyItem × State :=
    if t.flag F.SQ_CMD_STATUS_REFUSED then
      let c := t.get F.SQ_CMD_STATUS_CAUSE
      (⟨if 6 ≤ c then 0x1B else 0x15, c, 0, 0⟩, [], t)
    else (only 0, [], t.setTo F.SQ_CMD_STATUS_REFUSED (s.flag F.SQ_CMD_STATUS_REFUSED))
  let c := s.clr F.SQ_CMD_STATUS_REFUSED
  if s.ownerOf Partition.queues q ≠ f then (only 0x16, [], s)
  else match op with
    | .entry ws => (only 0, [], s.setWords (sramBase + s.get F.SQ_TABLE_BASE_BASE + 64 * q) ((ws.take 16).map (·.toNat)))
    | .enable => ran ((c.sqCmd q 0).queueEnable q)
    | .disable => ran ((c.sqCmd q 1).queueDisable q)
    | .reset => ran ((c.sqCmd q 2).queueReset q)

/-- QUEUE_CONFIG (R331). -/
def execQueueConfig (m : BitVec 8) (queue : BitVec 10) (op : QueueOp) (s : State) : Host.Outcome State Fault Refusal :=
  .next (s.serveKept m.toNat 0x0603 (fun f s => s.brildoQueue f queue.toNat op))

/-- Steol reads a register as a Steward does (R562). -/
def State.steolRead (s : State) (r : Reg) (i j : Nat) : Nat × State :=
  let (w, s) := s.regRead r i j true
  (w.toNat, s)

/-- QUEUE_STATUS: Steol selects the queue and reads level and peak, drops, gaps and flags (R562, R564). -/
def execQueueStatus (m : BitVec 8) (queue : BitVec 10) (s : State) : Host.Outcome State Fault Refusal :=
  .next (s.serve m.toNat 0x0604 (fun f s => s.owned Partition.queues f queue.toNat (
    let s := s.put F.SQ_SEL_QUEUE queue.toNat
    let (a, s) := s.steolRead .SQ_Q_LEVEL 0 0
    let (b, s) := s.steolRead .SQ_Q_DROPS 0 0
    let (c, s) := s.steolRead .SQ_Q_GAPS 0 0
    let (d, s) := s.steolRead .SQ_Q_STATUS 0 0
    .inr (values [a, b, c, d], s))))

/-- BUFPOOL: the entry is written, and GDX loads FREE_COUNT and LOW_WATER with COUNT (R109). -/
def State.poolWrite (s : State) (p : Nat) (ws : List Nat) : State :=
  let s := s.setWords (s.poolAddr p) (ws.take 5)
  let s := s.setGdx { s.gdx with bufUsed := s.gdx.bufUsed.filter (fun x => x.1 ≠ p) }
  s.setWords (s.poolAddr p + 20) [s.poolCount p, s.poolCount p]

/-- BUFPOOL (R109). -/
def execBufpool (m : BitVec 8) (pool : BitVec 6) (words : List Word) (s : State) : Host.Outcome State Fault Refusal :=
  .next (s.serve m.toNat 0x0605 (fun f s =>
    if 61 < pool.toNat then .inl (only 0x15)
    else s.owned Partition.bufPools f pool.toNat (.inr ([], s.poolWrite pool.toNat (words.map (·.toNat))))))

/-- Set or clear bit n of a field. -/
def State.bitTo (s : State) (f : Fld) (n : Nat) (b : Bool) : State :=
  let v := s.get f
  s.put f (if b = v.testBit n then v else v ^^^ 2 ^ n)

/-- XOFF_IN (R332, R333). -/
def execXoffIn (m : BitVec 8) (pin : Fin 16) (ignore polarity : Bool) (s : State) : Host.Outcome State Fault Refusal :=
  .next (s.serve m.toNat 0x0606 (fun _ s =>
    .inr ([], (s.bitTo F.SQ_XOFF_IN_POLICY_POLICY pin ignore).bitTo F.SQ_XOFF_IN_POL_POL pin polarity)))

/-- BAR2_WINDOW (R407): a 2 GiB-aligned range of HBM for a window of a virtual function. -/
def execBar2Window (m : BitVec 8) (f : Fin 17) (window : Fin 8) (base : BitVec 48) (s : State) : Host.Outcome State Fault Refusal :=
  .next (s.serve m.toNat 0x0607 (fun _ s =>
    let a := base.toNat
    if f.val = 0 ∨ a < hbmBase ∨ hbmBase + 0x2400000000 ≤ a ∨ a % 0x80000000 ≠ 0 then .inl (only 0x15)
    else .inr ([], s.setHost { s.host with windows := Tab.set s.host.windows (f.val, window.val) a })))

/-- COUPLER_PORT (R383, R390): CPL_GAP_MAX, PROBES and the transmit window; it replies the values in force. -/
def execCouplerPort (m : BitVec 8) (port : Fin 16) (gapMax probes advMin advMax : Nat) (s : State) : Host.Outcome State Fault Refusal :=
  .next (s.serve m.toNat 0x0608 (fun _ s =>
    if gapMax < 1000 ∨ 20000 < gapMax ∨ probes < 1 ∨ 15 < probes ∨ 2 ^ 21 ≤ advMin ∨ 2 ^ 21 ≤ advMax then .inl (only 0x15)
    else .inr (values [gapMax, probes, advMin, advMax], s.putAll port 0 [(F.CPL_GAP_MAX_GAP_MAX_NS, gapMax),
      (F.CPL_PORT_CTRL_PROBES, probes), (F.CPL_TX_ADV_MIN_TX_ADV_MIN_NS, advMin), (F.CPL_TX_ADV_MAX_TX_ADV_MAX_NS, advMax)])))

/-! ### Power (R448, R452, R456, R459) -/

/-- POWER_POLICY: DEEPEST, the least dwell, the banks retained, with the source and the relying templates of each (R456). -/
def State.policy (s : State) (d deepest dwell retain : Nat) (sources : List (Nat × Nat × List Nat)) :
    Refuse ⊕ (List ReplyItem × State) :=
  if domAllowed d = [] ∨ 2 ^ 24 ≤ dwell ∨ (24 ≤ d ∧ (retain ≠ 0 ∨ sources ≠ [])) ∨
      sources.any (fun x => memKind x.2.1 ≠ memKind hbmBase) then .inl (only 0x15)
  else
    let s := s.putAll 0 d [(F.PWR_DOM_POLICY_DEEPEST, deepest), (F.PWR_DOM_POLICY_MIN_DWELL_US, dwell)]
    let s := if d < 24 then s.put F.PWR_DOM_RETAIN_RETAIN retain 0 d else s
    .inr ([], s.setPwr { s.pwr with sources := sources.foldl (fun m x => Tab.set m (d, x.1) x.2) s.pwr.sources })

/-- POWER_POLICY (R448, R456). -/
def execPowerPolicy (m : BitVec 8) (domain : BitVec 8) (deepest : Fin 6) (dwellUs : Nat) (retain : BitVec 25)
    (sources : List (Fin 25 × BitVec 48 × List Nat)) (s : State) : Host.Outcome State Fault Refusal :=
  .next (s.serve m.toNat 0x0701 (fun _ s =>
    s.policy domain.toNat deepest dwellUs retain.toNat (sources.map (fun x => (x.1.val, x.2.1.toNat, x.2.2)))))

/-- The domains of Table 15-1. -/
def powerDomains : List Nat := (List.range 256).filter (fun d => domAllowed d ≠ [])

/-- POWER_STATE: the state of every domain with its ABANDONED count, which Steol reads as a Steward (R562, R564), and PWR_RET_LOST. -/
def State.powerStates (s : State) : List Nat × State :=
  let (l, s) := powerDomains.foldl (fun (acc : List Nat × State) d =>
    let s := acc.2.put F.PWR_DOM_SEL_DOMAIN d
    let (n, s) := s.steolRead .PWR_DOM_ABANDONED 0 0
    (acc.1 ++ [d, s.domState d, n], s)) ([], s)
  (l ++ (List.range 24).map (fun c => s.get F.PWR_RET_LOST_RET_LOST 0 c), s)

/-- POWER_STATE (R421, R457). -/
def execPowerState (m : BitVec 8) (s : State) : Host.Outcome State Fault Refusal :=
  .next (s.serve m.toNat 0x0702 (fun _ s => let (l, s) := s.powerStates; .inr (values l, s)))

/-- TENDER_RULE (R459): CFG, with the enable, is written last. -/
def execTenderRule (m : BitVec 8) (rule : Fin 32) (cfg timing thresh action : Word) (s : State) : Host.Outcome State Fault Refusal :=
  .next (s.serve m.toNat 0x0703 (fun _ s =>
    let s := (s.ruleWrite .TND_RULE_TIMING rule timing).ruleWrite .TND_RULE_THRESH rule thresh
    .inr ([], (s.ruleWrite .TND_RULE_ACTION rule action).ruleWrite .TND_RULE_CFG rule cfg)))

/-- HIBERNATE (R452): STATE while a carrier is started, or where the chip domain may not enter; else ACCEPTED, and the entry starts. -/
def State.hibernate (s : State) (m mask : Nat) : State :=
  match s.request m 0x0704 with
  | none => s
  | some r =>
    if s.car.list.any (fun c => c.2.started) ∨ s.domMoving 255 ∨ s.domState 255 ≠ 0 then s.refuse m r (only 0x1B)
    else
      let c := s.pwrJudge 255 4
      if c ≠ 0 then (s.pwrRefuse 255 c).refuse m r (only 0x1B)
      else (s.replyWith m r (only 1) []).hibStart m r.seq mask

/-- HIBERNATE (R452). -/
def execHibernate (m : BitVec 8) (wakeMask : Word) (s : State) : Host.Outcome State Fault Refusal :=
  .next (s.hibernate m.toNat wakeMask.toNat)

end Sys2Proof.Machine
end

