-- ==== Sys2Proof/Machine/Maint.lean ====
section
/-!
DEFINITION. Sys2Proof/Machine/Maint.lean: the commands of Table 14-7 on tests, records, firmware and errors (groups 0x08 to 0x0B), and the
FAPI configuration messages of control rings (R435).
-/
namespace Sys2Proof.Machine

/-! ### Self-tests and lanes (R362, R400, R425, R491) -/

/-- Units of a type of Table 17-2 that stand on a bench in turn. -/
def testUnits (t : Nat) : Nat := if t = 0 then 216 else if t = 1 then 24 else if t = 2 then 288 else if t < 12 then engCount (t - 2) else 0

/-- The power domain of a unit, if it has one. -/
def unitDomain (t i : Nat) : Option Nat :=
  if t = 0 then some (i / 9)
  else if t = 1 then some i
  else if t = 2 then (if i / 9 < 24 then some (i / 9) else none)
  else some (24 + rowOfPhys (engRows (t - 2)) i)

/-- SELFTEST of a unit for a request (R491): it waits for the unit's bench visit; on the bench the test starts at once. -/
def State.askTest (s : State) (m seq f t i : Nat) : State :=
  let u := t * 2048 + i
  let s := s.setDep { s.dep with asked := s.dep.asked ++ [⟨u, m, seq, f, false⟩] }
  if s.onBench u ∧ ¬ s.retired t i then (s.setDep { s.dep with tests := Tab.set s.dep.tests u .running }).showTest u true else s

/-- SELFTEST of mailbox m. -/
def State.selfTest (s : State) (m t i : Nat) : State :=
  match s.request m 0x0801 with
  | none => s
  | some r =>
    if testUnits t ≤ i then s.refuse m r (only 0x15)
    else if (unitDomain t i).any (fun d => decide (s.domState d = 3 ∨ s.domState d = 5)) then s.refuse m r (only 0x1B)
    else if 8 ≤ (s.dep.asked.filter (fun a => a.unit / 2048 = t)).length then s.refuse m r (only 0x19)
    else (s.askTest m r.seq (s.mbxOwner m) t i).replyWith m r (only 1) []

/-- SELFTEST (R491). -/
def execSelftest (m : BitVec 8) (unitType index : Nat) (s : State) : Host.Outcome State Fault Refusal :=
  .next (s.selfTest m.toNat unitType index)

/-- LANE_TEST of a lane: Steol sets its loop and pattern; a coupler lane has a loop and its check only (Table 13-10). -/
def State.laneTest (s : State) (lane : TestLane) (loop pattern : Nat) : Refuse ⊕ JobKind × State :=
  match lane with
  | .net n =>
    if 3 < loop ∨ 7 < pattern then .inl (only 0x15)
    else if (s.portOfLane n).any (fun p => s.flag F.NET_PORT_CTRL_EN p) then .inl (only 0x19)
    else .inr (.laneTest false 0 n loop pattern, s.prbsCtrl n (BitVec.ofNat 32 (3 + pattern * 4 + loop * 32)))
  | .cpl p l =>
    if 3 < loop then .inl (only 0x15)
    else if s.flag F.CPL_PORT_CTRL_EN p then .inl (only 0x19)
    else .inr (.laneTest true p l loop pattern, s.laneCtrl p l (BitVec.ofNat 32 (loop * 2 + 8)))

/-- LANE_TEST (R425). -/
def execLaneTest (m : BitVec 8) (lane : TestLane) (loop pattern : Nat) (s : State) : Host.Outcome State Fault Refusal :=
  .next (s.serveAsync m.toNat 0x0802 (fun _ s => s.laneTest lane loop pattern))

/-! ### Registers and measures (R154, R155, R421, R562) -/

/-- The value of a word of CSR space that READ_CSR returns, which clears nothing (R562); none outside every page. -/
def State.csrPeek (s : State) (a : Nat) : Option Nat :=
  match decide (a % 4 = 0), csrAt a with
  | true, some (b, i, off) =>
    if b = .MBX ∧ (s.mbxMem .steward off).isSome then some (s.word (0x4000000 + off))
    else match regAt b off with
      | some (r, j) => if s.pageOn b i ∧ s.meaningful r i then some (s.regRead r i j false).1.toNat else some 0
      | none => some 0
  | _, _ => none

/-- READ_CSR (R421, R562). -/
def execReadCsr (m : BitVec 8) (addr : BitVec 28) (n : Nat) (s : State) : Host.Outcome State Fault Refusal :=
  .next (s.serve m.toNat 0x0803 (fun _ s =>
    let l := (List.range (min n 1001)).map (fun k => s.csrPeek (addr.toNat + 4 * k))
    if n < 1 ∨ 1000 < n ∨ l.any Option.isNone then .inl (only 0x15) else .inr (values (l.map (fun v => v.getD 0)), s)))

/-- WRITE_CSR: only while secure debug is unlocked (R421). -/
def execWriteCsr (m : BitVec 8) (addr : BitVec 28) (value : Word) (s : State) : Host.Outcome State Fault Refusal :=
  .next (s.serve m.toNat 0x0804 (fun _ s =>
    if ¬ s.dbgScope 1 then .inl (only 0x16)
    else if addr.toNat % 4 ≠ 0 ∨ (csrAt addr.toNat).isNone then .inl (only 0x15)
    else .inr ([], s.csrWrite .steward addr.toNat value)))

/-- Check that a ring is an output ring of function f. -/
def State.outRing (s : State) (f r : Nat) (k : Refuse ⊕ (List ReplyItem × State)) : Refuse ⊕ (List ReplyItem × State) :=
  match s.ring r with
  | none => .inl (only 0x1A)
  | some x => if x.func ≠ f then .inl (only 0x16) else if ¬ x.out then .inl (only 0x15) else k

/-- TELEMETRY (R155). -/
def execTelemetry (m : BitVec 8) (ring : BitVec 9) (s : State) : Host.Outcome State Fault Refusal :=
  .next (s.serve m.toNat 0x0805 (fun f s =>
    s.outRing f ring.toNat (.inr ([], s.setHost { s.host with telemRing := some ring.toNat }))))

/-- Read the measures of the dispatcher under one hold, as a Steward does (R154, R421). -/
def State.snapshotRead (s : State) : List Nat × State :=
  let (l, s) := snapKeys.foldl (fun (acc : List Nat × State) k =>
    let (v, s) := acc.2.steolRead k.reg k.inst k.idx
    (acc.1 ++ [v], s)) ([], s.snapHold true)
  (l, s.snapHold false)

/-- SNAPSHOT (R154). -/
def execSnapshot (m : BitVec 8) (s : State) : Host.Outcome State Fault Refusal :=
  .next (s.serve m.toNat 0x0806 (fun _ s => let (l, s) := s.snapshotRead; .inr (values l, s)))

/-! ### Records (R485, R521, Table 18-8) -/

/-- The number of a record. -/
def recNumber : RecKind → Nat
  | .board => 0
  | .cable => 1
  | .equalisation => 2
  | .repairMap => 3

/-- READ_RECORD (R421). -/
def execReadRecord (m : BitVec 8) (kind : RecKind) (s : State) : Host.Outcome State Fault Refusal :=
  .next (s.serve m.toNat 0x0901 (fun _ s =>
    match s.recBody (recNumber kind) with
    | some ws => .inr (values ws, s)
    | none => .inl (only 0x1A)))

/-- WRITE_RECORD: a record that its region holds, or the removal of a repair map entry. -/
def State.recordJob (s : State) (kind : Nat) (body : RecBody) : Refuse ⊕ JobKind × State :=
  match body with
  | .words l =>
    if (recRegion kind).2 < 64 + (l.length + 7) / 8 * 32 ∨ (kind = 3 ∧ l.length % 4 ≠ 0) then .inl (only 0x15)
    else .inr (.writeRecord kind (l.map (·.toNat)), s)
  | .removeUnit u =>
    if kind ≠ 3 then .inl (only 0x15)
    else if s.memx.repairs.any (fun r => r.kind = 3 && r.macroId = u.toNat) then .inr (.repairRemove u.toNat, s)
    else .inl (only 0x1A)

/-- WRITE_RECORD (R485, R521). -/
def execWriteRecord (m : BitVec 8) (kind : RecKind) (body : RecBody) (s : State) : Host.Outcome State Fault Refusal :=
  .next (s.serveAsync m.toNat 0x0902 (fun _ s => s.recordJob (recNumber kind) body))

/-- The words of the records of the fault log from an index on, those with a commit word (Table 18-8). -/
def State.logRead (s : State) (first n : Nat) : List (List Nat) :=
  ((List.range (min n 16384)).map (fun k => rcsBase + 0x80000 + (first + k) % 16384 * 64)).filterMap (fun a =>
    if s.word (a + 32) = 0xC04417 then some (s.words a 8) else none)

/-- FAULT_LOG (R421, R501). -/
def execFaultLog (m : BitVec 8) (first n : Nat) (s : State) : Host.Outcome State Fault Refusal :=
  .next (s.serve m.toNat 0x0903 (fun _ s => .inr ((s.logRead first n).map .detail, s)))

/-! ### Firmware (R437, R438, R519) -/

/-- The refusal of FW_STAGE (Table 14-10), 0 for none. -/
def State.stageCause (s : State) (signature : Bool) (secver : Nat) (supports : Bool) : Nat :=
  if ¬ signature then 1
  else if secver < s.rollback then 2
  else if ¬ supports then 3
  else if ¬ s.flag F.MBX_DEV_STATUS_STANDBY_READY then 4
  else 0

/-- Is a job of a kind under way? -/
def State.jobOn (s : State) (p : JobKind → Bool) : Bool := s.host.jobs.any (fun j => p j.kind)

/-- Is a FW_STAGE under way? -/
def JobKind.stages : JobKind → Bool
  | .fwStage .. => true
  | _ => false

/-- FW_STAGE (R437): signature says that it verifies, supports that the image implements the version of every open session. -/
def execFwStage (m : BitVec 8) (signature : Bool) (secver : BitVec 7) (version : Nat) (supports : Bool) (revoke : BitVec 4)
    (signer : Fin 4) (s : State) : Host.Outcome State Fault Refusal :=
  .next (s.serveAsync m.toNat 0x0A01 (fun _ s =>
    let c := s.stageCause signature secver.toNat supports
    if s.host.fw.phase ≠ .idle ∨ s.jobOn JobKind.stages then .inl (only 0x19)
    else if c ≠ 0 then .inl ⟨0x1C, c, 0, 0⟩
    else .inr (.fwStage version secver.toNat (if revoke.toNat.testBit signer then revoke.toNat - 2 ^ signer.val else revoke.toNat), s)))

/-- The stage of Table 14-15 as a number: 0 none, 1 STAGED, 2 TRIAL, 3 NO_STANDBY. -/
def FwPhase.code : FwPhase → Nat
  | .idle => 0
  | .staged => 1
  | .trial => 2
  | .noStandby => 3

/-- FW_STATUS (R438): the stage and the version of each pair. -/
def execFwStatus (m : BitVec 8) (s : State) : Host.Outcome State Fault Refusal :=
  .next (s.serve m.toNat 0x0A02 (fun _ s =>
    let x := s.host.fw
    .inr (values [x.phase.code, Tab.get 0 x.vers 0, Tab.get 0 x.vers 1], s)))

/-- Store the firmware's state. -/
def State.setFw (s : State) (x : Fw) : State := s.setHost { s.host with fw := x }

/-- FW_SWAP (R438): STATE unless an image is staged. -/
def execFwSwap (m : BitVec 8) (refTl : Option (BitVec 8)) (s : State) : Host.Outcome State Fault Refusal :=
  .next (s.serveAsync m.toNat 0x0A03 (fun _ s =>
    if s.host.fw.phase ≠ .staged ∨ s.host.fw.swap.isSome then .inl (only 0x1B)
    else .inr (.fwSwap, s.setFw { s.host.fw with swap := some (refTl.map (·.toNat)) })))

/-- Is a job a change of pairs? -/
def JobKind.swaps : JobKind → Bool
  | .fwSwap | .fwAbort => true
  | _ => false

/-- The pairs change (R410, R438): to the new firmware in trial, or back to the old one. -/
def State.swapPairs (s : State) : State :=
  let x := s.host.fw
  let toTrial : Bool := x.phase = .staged
  let s := s.putAll 0 0 [(F.MBX_DEV_STATUS_ACTIVE_PAIR, 1 - s.get F.MBX_DEV_STATUS_ACTIVE_PAIR),
    (F.MBX_DEV_STATUS_TRIAL, if toTrial then 1 else 0), (F.MBX_DEV_EVENT_SWAP, 1)]
  let s := (List.range 256).foldl (fun s m =>
    if s.get F.MBX_STATUS_STATE 0 m = 2 then s.set F.MBX_STATUS_FAILOVER_SEEN 0 m else s) s
  let s := (s.setFw (if toTrial then { x with phase := .trial, swap := none } else x.revert)).event (.firmware (if toTrial then 1 else 3))
  match s.host.jobs.find? (fun j => j.kind.swaps) with
  | some j => s.jobOver j (only 0)
  | none => s

/-- FW_SWAP_POINT (R438): the boundary at which a change of pairs that waits takes place. -/
def execFwSwapPoint (s : State) : Host.Outcome State Fault Refusal :=
  .next (if s.host.fw.swap.isSome ∧ s.flag F.MBX_DEV_STATUS_STANDBY_READY then s.swapPairs else s)

/-- FW_COMMIT (R438, R519): STATE unless a trial runs; no standby until it ends. -/
def execFwCommit (m : BitVec 8) (s : State) : Host.Outcome State Fault Refusal :=
  .next (s.serveAsync m.toNat 0x0A04 (fun _ s =>
    if s.host.fw.phase ≠ .trial ∨ s.host.fw.swap.isSome then .inl (only 0x1B)
    else .inr (.fwCommit, (s.setFw { s.host.fw with phase := .noStandby }).clr F.MBX_DEV_STATUS_STANDBY_READY)))

/-- FW_ABORT (R438): STATE unless a trial runs; the pairs change back at the next boundary. -/
def execFwAbort (m : BitVec 8) (s : State) : Host.Outcome State Fault Refusal :=
  .next (s.serveAsync m.toNat 0x0A05 (fun _ s =>
    if s.host.fw.phase ≠ .trial ∨ s.host.fw.swap.isSome then .inl (only 0x1B)
    else .inr (.fwAbort, s.setFw { s.host.fw with swap := some none })))

/-! ### Errors (R501, R502) -/

/-- ERR_READ: records of a severity from Steol's store. -/
def execErrRead (m : BitVec 8) (sev : Fin 3) (n : Nat) (s : State) : Host.Outcome State Fault Refusal :=
  .next (s.serve m.toNat 0x0B01 (fun _ s =>
    .inr (((s.memx.errStore.filter (fun r => r.1 = sev.val)).take n).map (fun r => .detail r.2), s)))

/-- Clear a first-error capture (R502). -/
def State.clearFirst (s : State) : FirstClass → State
  | .ecc n => s.clr F.ECC_FIRST_STATUS_VALID 0 n
  | .vsc k => s.clr F.VSC_FAULT_VALID k.toNat
  | .mxc c => s.clr F.MXC_FAULT_VALID c
  | .engine c k => s.clr F.T_FAULT_VALID (engInst c k.toNat)
  | .ump => s.clr F.UMP_FIRST_NODE_VALID
  | .erq q => s.bitTo F.ECC_ERQ_FIRST_VALID_VALID q false

/-- Does a first-error capture exist? -/
def firstOk : FirstClass → Bool
  | .vsc k => decide (k.toNat < 216)
  | .engine c k => decide (c.val ≠ 0 ∧ k.toNat < classActive c + classBench c)
  | _ => true

/-- ERR_CLEAR_FIRST (R502). -/
def execErrClearFirst (m : BitVec 8) (cls : FirstClass) (s : State) : Host.Outcome State Fault Refusal :=
  .next (s.serve m.toNat 0x0B02 (fun _ s => if firstOk cls then .inr ([], s.clearFirst cls) else .inl (only 0x15)))

/-- ERR_STREAM (R501). -/
def execErrStream (m : BitVec 8) (ring : BitVec 9) (mask : BitVec 3) (s : State) : Host.Outcome State Fault Refusal :=
  .next (s.serve m.toNat 0x0B03 (fun f s =>
    s.outRing f ring.toNat (.inr ([], s.setHost { s.host with errStream := some (ring.toNat, mask.toNat) }))))

/-! ### FAPI messages on control rings (R435) -/

/-- The FAPI message at the head of an input control ring, if it has a MSG_ID. -/
def State.fapiHead (s : State) (r msgId : Nat) : Option RingItem :=
  ((s.ring r).filter (fun x => x.kind = .control)).bind (fun x => x.head.filter (fun i => natBits (i.words.headD 0) 0 8 = msgId))

/-- The control ring that takes the answers of a function: its lowest-numbered output one. -/
def State.answerRing (s : State) (f : Nat) : Option Nat :=
  (List.range 512).find? (fun r => (s.ring r).any (fun x => x.out && x.kind = .control && x.func = f))

/-- Steol answers with a FAPI message (R435); the FAPI error code of a refusal the spec does not give (a free value, log entry 3). -/
def State.fapiSend (s : State) (f msgId carrier : Nat) (e : Refuse) (handles : List Nat) : State :=
  match s.answerRing f with
  | none => s
  | some r =>
    if s.ringDetached r then s.count F.MBX_RING_DETACH_DROP_DETACH_DROP 1 0 r
    else if ¬ s.ringHasRoom r then s.set F.MBX_RING_STATUS_FULL_SEEN 0 r
    else
      let (code, s) := if e.status = 0 then (0, s) else s.freshNat
      (s.messagePut r msgId carrier 0).send (.fapi r msgId code e.cause handles)

/-- Steol handles the message at the head of a control ring and consumes its item: k gives the refusal or the state, and the answer. -/
def State.fapi (s : State) (r msgId : Nat) (k : Nat → Nat → State → Refuse × Option Nat × List Nat × State) : State :=
  match s.ring r, s.fapiHead r msgId with
  | some x, some i =>
    let carrier := natBits (i.words.headD 0) 16 16
    let (e, answer, hs, s) := k x.func carrier s
    let s := match answer with
      | some a => s.fapiSend x.func a carrier e hs
      | none => s
    (s.ringTake r i.index).ringConsume r i.index
  | _, _ => s

/-- The carrier of a function whose handle has given low 16 bits (Table 14-12). -/
def State.carrierOf (s : State) (f low : Nat) : Nat :=
  ((s.car.list.find? (fun c => decide (c.2.func = f ∧ c.1 % 2 ^ 16 = low))).map (·.1)).getD low

/-- PARAM_REQUEST (R435): PARAM.response. -/
def execParamRequest (ring : BitVec 9) (s : State) : Host.Outcome State Fault Refusal :=
  .next (s.fapi ring.toNat 0x00 (fun _ _ s => (only 0, some 0x01, [], s)))

/-- CONFIG_REQUEST (R435): a CONFIGURE with the same checks, answered by CONFIG.response. -/
def execConfigRequest (ring : BitVec 9) (remove : List Nat) (add : List CarrierDesc) (s : State) : Host.Outcome State Fault Refusal :=
  .next (s.fapi ring.toNat 0x02 (fun f _ s => match s.configure f remove add with
    | .inl e => (e, some 0x03, [], s)
    | .inr (hs, t) => (only 0, some 0x03, hs, t)))

/-- START_REQUEST (R435): START of the item's carrier; a refusal is answered by ERROR.indication. -/
def execStartRequest (ring : BitVec 9) (locked delay : Bool) (s : State) : Host.Outcome State Fault Refusal :=
  .next (s.fapi ring.toNat 0x04 (fun f c s => match s.startCar f (s.carrierOf f c) locked delay with
    | .inl e => (e, some 0x07, [], s)
    | .inr t => (only 0, none, [], t)))

/-- STOP_REQUEST (R435): STOP of the item's carrier, answered by STOP.indication, or ERROR.indication where it is refused. -/
def execStopRequest (ring : BitVec 9) (s : State) : Host.Outcome State Fault Refusal :=
  .next (s.fapi ring.toNat 0x05 (fun f c s => match s.stopCar f (s.carrierOf f c) with
    | .inl e => (e, some 0x07, [], s)
    | .inr t => (only 0, some 0x06, [], t)))

end Sys2Proof.Machine
end

