-- ==== Sys2Proof/Machine/Dispatch.lean ====
section
/-!
DEFINITION. Sys2Proof/Machine/Dispatch.lean: one arm for each command of Sys2Proof.Instr.
-/
namespace Sys2Proof.Machine

def exec (i : Instr) (s : State) : Host.Outcome State Fault Refusal :=
  match i with
  | .registerWrite req addr value => Sys2Proof.Machine.execRegisterWrite req addr value s
  | .counterReadClear req addr => Sys2Proof.Machine.execCounterReadClear req addr s
  | .timingPllLock => Sys2Proof.Machine.execTimingPllLock s
  | .incNsWrite d value => Sys2Proof.Machine.execIncNsWrite d value s
  | .incrementCommit d => Sys2Proof.Machine.execIncrementCommit d s
  | .tbuStepRequest d => Sys2Proof.Machine.execTbuStepRequest d s
  | .tbuSetRequest d => Sys2Proof.Machine.execTbuSetRequest d s
  | .stepApply d => Sys2Proof.Machine.execStepApply d s
  | .setApply d => Sys2Proof.Machine.execSetApply d s
  | .jumpLimitWrite value => Sys2Proof.Machine.execJumpLimitWrite value s
  | .tbuSwitchRequest target force refTl => Sys2Proof.Machine.execTbuSwitchRequest target force refTl s
  | .switchPoint => Sys2Proof.Machine.execSwitchPoint s
  | .slewComplete => Sys2Proof.Machine.execSlewComplete s
  | .snapshotRequest => Sys2Proof.Machine.execSnapshotRequest s
  | .snapshotCapture => Sys2Proof.Machine.execSnapshotCapture s
  | .refclkLoss => Sys2Proof.Machine.execRefclkLoss s
  | .refclkFreqCheck ppm => Sys2Proof.Machine.execRefclkFreqCheck ppm s
  | .refclkRelock => Sys2Proof.Machine.execRefclkRelock s
  | .ppsInEdge input falling sub => Sys2Proof.Machine.execPpsInEdge input falling sub s
  | .ppsInTimeout input level => Sys2Proof.Machine.execPpsInTimeout input level s
  | .ppsOutEdge output => Sys2Proof.Machine.execPpsOutEdge output s
  | .timelineEnable tl => Sys2Proof.Machine.execTimelineEnable tl s
  | .timelineDisable tl => Sys2Proof.Machine.execTimelineDisable tl s
  | .tddUpdate tl => Sys2Proof.Machine.execTddUpdate tl s
  | .tddUpdateApply tl => Sys2Proof.Machine.execTddUpdateApply tl s
  | .aftSlotBoundary tl => Sys2Proof.Machine.execAftSlotBoundary tl s
  | .whsArm channel => Sys2Proof.Machine.execWhsArm channel s
  | .whsDisarm channel => Sys2Proof.Machine.execWhsDisarm channel s
  | .whsEnable => Sys2Proof.Machine.execWhsEnable s
  | .whistleSpill channel => Sys2Proof.Machine.execWhistleSpill channel s
  | .mark channel => Sys2Proof.Machine.execMark channel s
  | .create channel => Sys2Proof.Machine.execCreate channel s
  | .cancel channel => Sys2Proof.Machine.execCancel channel s
  | .refill channel => Sys2Proof.Machine.execRefill channel s
  | .convStart channel => Sys2Proof.Machine.execConvStart channel s
  | .convCtrl channel => Sys2Proof.Machine.execConvCtrl channel s
  | .quietExitForConv port => Sys2Proof.Machine.execQuietExitForConv port s
  | .gapOpen channel => Sys2Proof.Machine.execGapOpen channel s
  | .gapClose channel => Sys2Proof.Machine.execGapClose channel s
  | .calTx channel => Sys2Proof.Machine.execCalTx channel s
  | .calRx channel => Sys2Proof.Machine.execCalRx channel s
  | .corrSwap channel => Sys2Proof.Machine.execCorrSwap channel s
  | .power channel => Sys2Proof.Machine.execPower channel s
  | .pinArm pin => Sys2Proof.Machine.execPinArm pin s
  | .pinFire pin => Sys2Proof.Machine.execPinFire pin s
  | .pinPulseEnd pin => Sys2Proof.Machine.execPinPulseEnd pin s
  | .outputShort output => Sys2Proof.Machine.execOutputShort output s
  | .instCmdCreate template tl => Sys2Proof.Machine.execInstCmdCreate template tl s
  | .instCmdCancel id => Sys2Proof.Machine.execInstCmdCancel id s
  | .templateInstall regionLen fits => Sys2Proof.Machine.execTemplateInstall regionLen fits s
  | .templateRemove template => Sys2Proof.Machine.execTemplateRemove template s
  | .templateBlock template => Sys2Proof.Machine.execTemplateBlock template s
  | .templateUnblock template => Sys2Proof.Machine.execTemplateUnblock template s
  | .tokenArrival sameCycle => Sys2Proof.Machine.execTokenArrival sameCycle s
  | .streamItemTake src sameCycle => Sys2Proof.Machine.execStreamItemTake src sameCycle s
  | .nodeDispatch cls => Sys2Proof.Machine.execNodeDispatch cls s
  | .completionReport e => Sys2Proof.Machine.execCompletionReport e s
  | .releaseBufferEntryFree e cycles => Sys2Proof.Machine.execReleaseBufferEntryFree e cycles s
  | .ringSinkSpace ring cycles => Sys2Proof.Machine.execRingSinkSpace ring cycles s
  | .telemetryCopy => Sys2Proof.Machine.execTelemetryCopy s
  | .gdxSnapHold hold => Sys2Proof.Machine.execGdxSnapHold hold s
  | .reserveWrite cls value => Sys2Proof.Machine.execReserveWrite cls value s
  | .bundleIssue vsc stall squashed => Sys2Proof.Machine.execBundleIssue vsc stall squashed s
  | .mxcLockGrant c waited => Sys2Proof.Machine.execMxcLockGrant c waited s
  | .mxcOpExecute c => Sys2Proof.Machine.execMxcOpExecute c s
  | .mxcFault c kind => Sys2Proof.Machine.execMxcFault c kind s
  | .mxcServiceWrite c service => Sys2Proof.Machine.execMxcServiceWrite c service s
  | .mxcRemovalComplete c => Sys2Proof.Machine.execMxcRemovalComplete c s
  | .icacheFill vsc => Sys2Proof.Machine.execIcacheFill vsc s
  | .icacheInv vsc => Sys2Proof.Machine.execIcacheInv vsc s
  | .runWatchdog vsc => Sys2Proof.Machine.execRunWatchdog vsc s
  | .vscHardwareFault vsc kind => Sys2Proof.Machine.execVscHardwareFault vsc kind s
  | .lddDecode k cycles busy => Sys2Proof.Machine.execLddDecode k cycles busy s
  | .cenLdpc k cycles busy => Sys2Proof.Machine.execCenLdpc k cycles busy s
  | .cenPolar k cycles busy => Sys2Proof.Machine.execCenPolar k cycles busy s
  | .cenTurbo k cycles busy => Sys2Proof.Machine.execCenTurbo k cycles busy s
  | .trdDecode k cycles busy => Sys2Proof.Machine.execTrdDecode k cycles busy s
  | .pldDecodeUl k cycles busy => Sys2Proof.Machine.execPldDecodeUl k cycles busy s
  | .pldDecodeDl k cycles busy => Sys2Proof.Machine.execPldDecodeDl k cycles busy s
  | .fxeRx k cycles busy => Sys2Proof.Machine.execFxeRx k cycles busy s
  | .fxeTx k cycles busy => Sys2Proof.Machine.execFxeTx k cycles busy s
  | .fxeTpdft k cycles busy => Sys2Proof.Machine.execFxeTpdft k cycles busy s
  | .fxeTpidft k cycles busy => Sys2Proof.Machine.execFxeTpidft k cycles busy s
  | .mdeDetect k cycles busy => Sys2Proof.Machine.execMdeDetect k cycles busy s
  | .mdeMmse k cycles busy => Sys2Proof.Machine.execMdeMmse k cycles busy s
  | .mdeMmseIrc k cycles busy => Sys2Proof.Machine.execMdeMmseIrc k cycles busy s
  | .mdeCalEst k cycles busy => Sys2Proof.Machine.execMdeCalEst k cycles busy s
  | .mdeDemap k cycles busy => Sys2Proof.Machine.execMdeDemap k cycles busy s
  | .bwaPrecode k cycles busy => Sys2Proof.Machine.execBwaPrecode k cycles busy s
  | .bwaCombine k cycles busy => Sys2Proof.Machine.execBwaCombine k cycles busy s
  | .prdDetect k cycles busy => Sys2Proof.Machine.execPrdDetect k cycles busy s
  | .hceCombine k cycles busy => Sys2Proof.Machine.execHceCombine k cycles busy s
  | .hceStore k cycles busy => Sys2Proof.Machine.execHceStore k cycles busy s
  | .engineWatchdog cls k busy => Sys2Proof.Machine.execEngineWatchdog cls k busy s
  | .engineHardwareFault cls k kind busy => Sys2Proof.Machine.execEngineHardwareFault cls k kind busy s
  | .engineMapPhysWrite cls k phys => Sys2Proof.Machine.execEngineMapPhysWrite cls k phys s
  | .engineMapApply cls k => Sys2Proof.Machine.execEngineMapApply cls k s
  | .bmvChClaim vsc ch => Sys2Proof.Machine.execBmvChClaim vsc ch s
  | .bmvGo req e ch => Sys2Proof.Machine.execBmvGo req e ch s
  | .bmvClear req e ch => Sys2Proof.Machine.execBmvClear req e ch s
  | .bmvStop req e ch => Sys2Proof.Machine.execBmvStop req e ch s
  | .bmvBurstIssue e ch cycles waited => Sys2Proof.Machine.execBmvBurstIssue e ch cycles waited s
  | .bmvBurstComplete e ch burst host => Sys2Proof.Machine.execBmvBurstComplete e ch burst host s
  | .bmvBusError e ch burst => Sys2Proof.Machine.execBmvBusError e ch burst s
  | .bmvPoisonResponse e ch burst offset host => Sys2Proof.Machine.execBmvPoisonResponse e ch burst offset host s
  | .bmvParityError e ch => Sys2Proof.Machine.execBmvParityError e ch s
  | .bmvEngMapWrite e map => Sys2Proof.Machine.execBmvEngMapWrite e map s
  | .bmvMapApply e => Sys2Proof.Machine.execBmvMapApply e s
  | .queueEnable q => Sys2Proof.Machine.execQueueEnable q s
  | .queueDisable q => Sys2Proof.Machine.execQueueDisable q s
  | .queueReset q => Sys2Proof.Machine.execQueueReset q s
  | .itemOffer q symbol stream slot payload extra => Sys2Proof.Machine.execItemOffer q symbol stream slot payload extra s
  | .itemFree q place => Sys2Proof.Machine.execItemFree q place s
  | .pfcRefresh port prio => Sys2Proof.Machine.execPfcRefresh port prio s
  | .creditReport q => Sys2Proof.Machine.execCreditReport q s
  | .xoffInChange pin level => Sys2Proof.Machine.execXoffInChange pin level s
  | .xoffInStuck pin => Sys2Proof.Machine.execXoffInStuck pin s
  | .netGroupApply g => Sys2Proof.Machine.execNetGroupApply g s
  | .portEnable port => Sys2Proof.Machine.execPortEnable port s
  | .autonegComplete port fallback => Sys2Proof.Machine.execAutonegComplete port fallback s
  | .linkTrainingComplete port polarity ffe => Sys2Proof.Machine.execLinkTrainingComplete port polarity ffe s
  | .pcsLock port laneMap => Sys2Proof.Machine.execPcsLock port laneMap s
  | .attemptFail port => Sys2Proof.Machine.execAttemptFail port s
  | .nopartnerRetry port => Sys2Proof.Machine.execNopartnerRetry port s
  | .linkFail port => Sys2Proof.Machine.execLinkFail port s
  | .polaritySearch lane => Sys2Proof.Machine.execPolaritySearch lane s
  | .adaptationUpdate lane delta => Sys2Proof.Machine.execAdaptationUpdate lane delta s
  | .adaptationFreeze lane lpi density us => Sys2Proof.Machine.execAdaptationFreeze lane lpi density us s
  | .netLaneFault lane pass => Sys2Proof.Machine.execNetLaneFault lane pass s
  | .frameReceive port frame fcsOk sub codewords corrected uncorrected disagree erased => Sys2Proof.Machine.execFrameReceive port frame fcsOk sub codewords corrected uncorrected disagree erased s
  | .pfcPauseExpiry port prio => Sys2Proof.Machine.execPfcPauseExpiry port prio s
  | .txItemSend port sub prbs disagree erased => Sys2Proof.Machine.execTxItemSend port sub prbs disagree erased s
  | .txLateDiscard port q sub => Sys2Proof.Machine.execTxLateDiscard port q sub s
  | .fhReload port => Sys2Proof.Machine.execFhReload port s
  | .macsecSaInstall port sci pn => Sys2Proof.Machine.execMacsecSaInstall port sci pn s
  | .prbsCtrlWrite lane value => Sys2Proof.Machine.execPrbsCtrlWrite lane value s
  | .prbsInject lane => Sys2Proof.Machine.execPrbsInject lane s
  | .prbsLock lane lock bits errors => Sys2Proof.Machine.execPrbsLock lane lock bits errors s
  | .cplPortEnable port => Sys2Proof.Machine.execCplPortEnable port s
  | .clockDetect port clock => Sys2Proof.Machine.execClockDetect port clock s
  | .laneDetect port l0 l1 l2 l3 aligned => Sys2Proof.Machine.execLaneDetect port l0 l1 l2 l3 aligned s
  | .symbolAlignment port => Sys2Proof.Machine.execSymbolAlignment port s
  | .deskew port => Sys2Proof.Machine.execDeskew port s
  | .capabilityExchange port => Sys2Proof.Machine.execCapabilityExchange port s
  | .trainingPhaseTimeout port => Sys2Proof.Machine.execTrainingPhaseTimeout port s
  | .trainingRetry port => Sys2Proof.Machine.execTrainingRetry port s
  | .ckActivityLoss port => Sys2Proof.Machine.execCkActivityLoss port s
  | .slip port lane aligned => Sys2Proof.Machine.execSlip port lane aligned s
  | .capSetReceived port set crcOk => Sys2Proof.Machine.execCapSetReceived port set crcOk s
  | .markerReceived port lane aligned bip headerErrors => Sys2Proof.Machine.execMarkerReceived port lane aligned bip headerErrors s
  | .sampleMessageReceived port sid slot symbol samples crcOk => Sys2Proof.Machine.execSampleMessageReceived port sid slot symbol samples crcOk s
  | .sampleSend src => Sys2Proof.Machine.execSampleSend src s
  | .sampleLateDiscard q => Sys2Proof.Machine.execSampleLateDiscard q s
  | .tokenMessageSend k => Sys2Proof.Machine.execTokenMessageSend k s
  | .tokenMessageReceived port seq msg crcOk sameCycle => Sys2Proof.Machine.execTokenMessageReceived port seq msg crcOk sameCycle s
  | .tokenAckSend port => Sys2Proof.Machine.execTokenAckSend port s
  | .ackReceived port seq => Sys2Proof.Machine.execAckReceived port seq s
  | .nakReceived port seq => Sys2Proof.Machine.execNakReceived port seq s
  | .timeMessageSend port locked => Sys2Proof.Machine.execTimeMessageSend port locked s
  | .timeMessageReceived port delay sec ns frac car hops locked crcOk sub => Sys2Proof.Machine.execTimeMessageReceived port delay sec ns frac car hops locked crcOk sub s
  | .creditReceived port linkQueue credits => Sys2Proof.Machine.execCreditReceived port linkQueue credits s
  | .gapBeginReceived port => Sys2Proof.Machine.execGapBeginReceived port s
  | .gapAckReceived port => Sys2Proof.Machine.execGapAckReceived port s
  | .gapEndReceived port => Sys2Proof.Machine.execGapEndReceived port s
  | .gapTimeout port => Sys2Proof.Machine.execGapTimeout port s
  | .probeReceived port seq turnaround => Sys2Proof.Machine.execProbeReceived port seq turnaround s
  | .echoReceived port seq elapsed turnaround => Sys2Proof.Machine.execEchoReceived port seq elapsed turnaround s
  | .quietEnterReceived port => Sys2Proof.Machine.execQuietEnterReceived port s
  | .laneDropReceived port lane => Sys2Proof.Machine.execLaneDropReceived port lane s
  | .drift port lane late => Sys2Proof.Machine.execDrift port lane late s
  | .laneRetrain port lane held => Sys2Proof.Machine.execLaneRetrain port lane held s
  | .cplLaneFault port lane pass => Sys2Proof.Machine.execCplLaneFault port lane pass s
  | .cplLinkDown port headerErrors => Sys2Proof.Machine.execCplLinkDown port headerErrors s
  | .perstNRelease => Sys2Proof.Machine.execPerstNRelease s
  | .flr f => Sys2Proof.Machine.execFlr f s
  | .pcieHotReset => Sys2Proof.Machine.execPcieHotReset s
  | .claimWaitExpiry f => Sys2Proof.Machine.execClaimWaitExpiry f s
  | .csrWindowWrite offset value => Sys2Proof.Machine.execCsrWindowWrite offset value s
  | .bar2Access f offset write => Sys2Proof.Machine.execBar2Access f offset write s
  | .mbxDoorbell f m seq => Sys2Proof.Machine.execMbxDoorbell f m seq s
  | .requestTake tlv => Sys2Proof.Machine.execRequestTake tlv s
  | .asyncCommandComplete m seq outcome => Sys2Proof.Machine.execAsyncCommandComplete m seq outcome s
  | .openSession m lower upper base => Sys2Proof.Machine.execOpen m lower upper base s
  | .closeSession m => Sys2Proof.Machine.execClose m s
  | .ping m => Sys2Proof.Machine.execPing m s
  | .partition m f part => Sys2Proof.Machine.execPartition m f part s
  | .eventRing m ring mask => Sys2Proof.Machine.execEventRing m ring mask s
  | .getDevice m => Sys2Proof.Machine.execGetDevice m s
  | .getUnits m => Sys2Proof.Machine.execGetUnits m s
  | .getCapacity m => Sys2Proof.Machine.execGetCapacity m s
  | .configure m remove add => Sys2Proof.Machine.execConfigure m remove add s
  | .getCarrier m handle => Sys2Proof.Machine.execGetCarrier m handle s
  | .startCarrier m handle locked delay => Sys2Proof.Machine.execStartCarrier m handle locked delay s
  | .stopCarrier m handle => Sys2Proof.Machine.execStopCarrier m handle s
  | .setPrecedence m handles => Sys2Proof.Machine.execSetPrecedence m handles s
  | .claim m handles rings => Sys2Proof.Machine.execClaim m handles rings s
  | .installGraph m addr length => Sys2Proof.Machine.execInstallGraph m addr length s
  | .installKernel m addr length => Sys2Proof.Machine.execInstallKernel m addr length s
  | .templateOp m template op => Sys2Proof.Machine.execTemplateOp m template op s
  | .removeKernel m kernel => Sys2Proof.Machine.execRemoveKernel m kernel s
  | .list m => Sys2Proof.Machine.execList m s
  | .setReserve m cls n => Sys2Proof.Machine.execSetReserve m cls n s
  | .setReplay m replays limit => Sys2Proof.Machine.execSetReplay m replays limit s
  | .timeStatus m => Sys2Proof.Machine.execTimeStatus m s
  | .timeSource m d source ports ptpDomain synce upPort => Sys2Proof.Machine.execTimeSource m d source ports ptpDomain synce upPort s
  | .jumpLimit m ns => Sys2Proof.Machine.execJumpLimit m ns s
  | .switch m target force refTl => Sys2Proof.Machine.execSwitch m target force refTl s
  | .timeOfDay m sec utc => Sys2Proof.Machine.execTimeOfDay m sec utc s
  | .ptpPort m port profile role oneStep synceOut ecpriDelay => Sys2Proof.Machine.execPtpPort m port profile role oneStep synceOut ecpriDelay s
  | .consist m => Sys2Proof.Machine.execConsist m s
  | .whistleArm m channel words => Sys2Proof.Machine.execWhistleArm m channel words s
  | .whistleDisarm m channel => Sys2Proof.Machine.execWhistleDisarm m channel s
  | .whistleGet m channel => Sys2Proof.Machine.execWhistleGet m channel s
  | .grace m ns => Sys2Proof.Machine.execGrace m ns s
  | .pin m pin ctrl coord delta timing => Sys2Proof.Machine.execPin m pin ctrl coord delta timing s
  | .ringCreate m ring params => Sys2Proof.Machine.execRingCreate m ring params s
  | .ringDestroy m ring => Sys2Proof.Machine.execRingDestroy m ring s
  | .queueConfig m queue op => Sys2Proof.Machine.execQueueConfig m queue op s
  | .queueStatus m queue => Sys2Proof.Machine.execQueueStatus m queue s
  | .bufpool m pool words => Sys2Proof.Machine.execBufpool m pool words s
  | .xoffIn m pin ignore polarity => Sys2Proof.Machine.execXoffIn m pin ignore polarity s
  | .bar2Window m f window base => Sys2Proof.Machine.execBar2Window m f window base s
  | .couplerPort m port gapMax probes advMin advMax => Sys2Proof.Machine.execCouplerPort m port gapMax probes advMin advMax s
  | .powerPolicy m domain deepest dwellUs retain sources => Sys2Proof.Machine.execPowerPolicy m domain deepest dwellUs retain sources s
  | .powerState m => Sys2Proof.Machine.execPowerState m s
  | .tenderRule m rule cfg timing thresh action => Sys2Proof.Machine.execTenderRule m rule cfg timing thresh action s
  | .hibernate m wakeMask => Sys2Proof.Machine.execHibernate m wakeMask s
  | .selftest m unitType index => Sys2Proof.Machine.execSelftest m unitType index s
  | .laneTest m lane loop pattern => Sys2Proof.Machine.execLaneTest m lane loop pattern s
  | .readCsr m addr n => Sys2Proof.Machine.execReadCsr m addr n s
  | .writeCsr m addr value => Sys2Proof.Machine.execWriteCsr m addr value s
  | .telemetry m ring => Sys2Proof.Machine.execTelemetry m ring s
  | .snapshot m => Sys2Proof.Machine.execSnapshot m s
  | .readRecord m kind => Sys2Proof.Machine.execReadRecord m kind s
  | .writeRecord m kind body => Sys2Proof.Machine.execWriteRecord m kind body s
  | .faultLog m first n => Sys2Proof.Machine.execFaultLog m first n s
  | .fwStage m signature secver version supports revoke signer => Sys2Proof.Machine.execFwStage m signature secver version supports revoke signer s
  | .fwStatus m => Sys2Proof.Machine.execFwStatus m s
  | .fwSwap m refTl => Sys2Proof.Machine.execFwSwap m refTl s
  | .fwSwapPoint => Sys2Proof.Machine.execFwSwapPoint s
  | .fwCommit m => Sys2Proof.Machine.execFwCommit m s
  | .fwAbort m => Sys2Proof.Machine.execFwAbort m s
  | .errRead m sev n => Sys2Proof.Machine.execErrRead m sev n s
  | .errClearFirst m cls => Sys2Proof.Machine.execErrClearFirst m cls s
  | .errStream m ring mask => Sys2Proof.Machine.execErrStream m ring mask s
  | .mbxRingDb f ring index => Sys2Proof.Machine.execMbxRingDb f ring index s
  | .ringItemFetch ring item payload => Sys2Proof.Machine.execRingItemFetch ring item payload s
  | .ringCoalesceTimer ring => Sys2Proof.Machine.execRingCoalesceTimer ring s
  | .paramRequest ring => Sys2Proof.Machine.execParamRequest ring s
  | .configRequest ring remove add => Sys2Proof.Machine.execConfigRequest ring remove add s
  | .startRequest ring locked delay => Sys2Proof.Machine.execStartRequest ring locked delay s
  | .stopRequest ring => Sys2Proof.Machine.execStopRequest ring s
  | .powerRequest domain target => Sys2Proof.Machine.execPowerRequest domain target s
  | .autoDoze domain => Sys2Proof.Machine.execAutoDoze domain s
  | .domainDrainComplete domain => Sys2Proof.Machine.execDomainDrainComplete domain s
  | .entryStepComplete domain => Sys2Proof.Machine.execEntryStepComplete domain s
  | .wakeComplete domain bad => Sys2Proof.Machine.execWakeComplete domain bad s
  | .trimChangeComplete domain => Sys2Proof.Machine.execTrimChangeComplete domain s
  | .stackWakeOnAccess addr => Sys2Proof.Machine.execStackWakeOnAccess addr s
  | .chipWake rule => Sys2Proof.Machine.execChipWake rule s
  | .wakeFail => Sys2Proof.Machine.execWakeFail s
  | .brownout => Sys2Proof.Machine.execBrownout s
  | .tenderRuleSample rule measured => Sys2Proof.Machine.execTenderRuleSample rule measured s
  | .sensorSample sensor count => Sys2Proof.Machine.execSensorSample sensor count s
  | .tripSupplyOff => Sys2Proof.Machine.execTripSupplyOff s
  | .tripRestart => Sys2Proof.Machine.execTripRestart s
  | .warnResponse => Sys2Proof.Machine.execWarnResponse s
  | .throttleResponse => Sys2Proof.Machine.execThrottleResponse s
  | .throttleShedTimer => Sys2Proof.Machine.execThrottleShedTimer s
  | .throttleRestore => Sys2Proof.Machine.execThrottleRestore s
  | .thmLimitWrite value => Sys2Proof.Machine.execThmLimitWrite value s
  | .unitFaultHandle unit pass => Sys2Proof.Machine.execUnitFaultHandle unit pass s
  | .rotationStep group => Sys2Proof.Machine.execRotationStep group s
  | .rotationMapSwap group => Sys2Proof.Machine.execRotationMapSwap group s
  | .benchSelfTest unit pass => Sys2Proof.Machine.execBenchSelfTest unit pass s
  | .stewardFailover => Sys2Proof.Machine.execStewardFailover s
  | .standbyReady pass => Sys2Proof.Machine.execStandbyReady pass s
  | .degradedDeclare domain => Sys2Proof.Machine.execDegradedDeclare domain s
  | .carrierRestore => Sys2Proof.Machine.execCarrierRestore s
  | .errorReport kind cls sev id detail addr => Sys2Proof.Machine.execErrorReport kind cls sev id detail addr s
  | .eccErqPushGo => Sys2Proof.Machine.execEccErqPushGo s
  | .erqRdWrite sev value => Sys2Proof.Machine.execErqRdWrite sev value s
  | .errorRecordRead sev => Sys2Proof.Machine.execErrorRecordRead sev s
  | .memoryRead addr table hbmClass upset => Sys2Proof.Machine.execMemoryRead addr table hbmClass upset s
  | .fullWordWrite addr data hbmClass => Sys2Proof.Machine.execFullWordWrite addr data hbmClass s
  | .partialWrite addr data hbmClass upset => Sys2Proof.Machine.execPartialWrite addr data hbmClass upset s
  | .granuleReady stack => Sys2Proof.Machine.execGranuleReady stack s
  | .rcsProgram => Sys2Proof.Machine.execRcsProgram s
  | .rcsProgramComplete ok => Sys2Proof.Machine.execRcsProgramComplete ok s
  | .coldStart car keep pair0 board search => Sys2Proof.Machine.execColdStart car keep pair0 board search s
  | .bootImageVerify fault secver => Sys2Proof.Machine.execBootImageVerify fault secver s
  | .hbmTrainingComplete stack ok noRes left => Sys2Proof.Machine.execHbmTrainingComplete stack ok noRes left s
  | .steolReady board cable eq => Sys2Proof.Machine.execSteolReady board cable eq s
  | .warmReset pair0 => Sys2Proof.Machine.execWarmReset pair0 s
  | .resetNRelease pair0 => Sys2Proof.Machine.execResetNRelease pair0 s
  | .rstCtrlWarm key => Sys2Proof.Machine.execRstCtrlWarm key s
  | .rstDomain domain => Sys2Proof.Machine.execRstDomain domain s
  | .bootWatchdogExpiry => Sys2Proof.Machine.execBootWatchdogExpiry s
  | .wdogKick => Sys2Proof.Machine.execWdogKick s
  | .wdogStop => Sys2Proof.Machine.execWdogStop s
  | .dbgReq scope => Sys2Proof.Machine.execDbgReq scope s
  | .dbgGo ok => Sys2Proof.Machine.execDbgGo ok s
  | .dbgLock => Sys2Proof.Machine.execDbgLock s
  | .railInBand rail => Sys2Proof.Machine.execRailInBand rail s
  | .railTimeout => Sys2Proof.Machine.execRailTimeout s
  | .powerFault rail => Sys2Proof.Machine.execPowerFault rail s
  | .avsbusWrite mv ack => Sys2Proof.Machine.execAvsbusWrite mv ack s
  | .smbusStatus => Sys2Proof.Machine.execSmbusStatus s
  | .tempMax => Sys2Proof.Machine.execTempMax s
  | .tempTender => Sys2Proof.Machine.execTempTender s
  | .rail n => Sys2Proof.Machine.execRail n s
  | .alertRules => Sys2Proof.Machine.execAlertRules s
  | .state => Sys2Proof.Machine.execState s
  | .smbusTimeout => Sys2Proof.Machine.execSmbusTimeout s
  | .sclMapWrite c map => Sys2Proof.Machine.execSclMapWrite c map s
  | .sclMapApply c => Sys2Proof.Machine.execSclMapApply c s
  | .sclLendWrite c logical en => Sys2Proof.Machine.execSclLendWrite c logical en s
  | .sclLendApply c => Sys2Proof.Machine.execSclLendApply c s
  | .timingClockTick => Sys2Proof.Machine.execTimingClockTick s
  | .vddAonRemoval => Sys2Proof.Machine.execVddAonRemoval s
  | .resetNAssert => Sys2Proof.Machine.execResetNAssert s
  | .returnOfSignal port => Sys2Proof.Machine.execReturnOfSignal port s

end Sys2Proof.Machine
end

