-- ==== Sys2Proof/Safety.lean ====
section
/-!
DEFINITION. Sys2Proof/Safety.lean: what a safe state of the device is, in the terms that the statements use.
-/
namespace Sys2Proof.Machine

/-- A time counter keeps its ranges: 48-bit seconds, nanoseconds below a second, a 32-bit fraction (R34). -/
def TbuDom.ok (x : TbuDom) : Prop := x.counter.wf

/-- The invariant of the device: its memory is in canonical form, and the counters of both time domains keep their ranges. -/
structure State.Inv (s : State) : Prop where
  mem : s.mem.wf = true
  timeA : s.tbu.a.ok
  timeB : s.tbu.b.ok

/-- A run of n steps that neither faults nor is refused and stays in the invariant. -/
def State.Safe : Nat → State → Prop
  | 0, s => s.Inv
  | n + 1, s => s.Inv ∧ ∃ t, step s = .next t ∧ State.Safe n t

/-! ### The terms of the statements about one command -/

/-- Command i on state s answers a next state, and P holds of it. -/
def Completes (i : Instr) (s : State) (P : State → Prop) : Prop := ∃ t, exec i s = .next t ∧ P t

/-- A field of one register of the device: the field, the instance and the index. -/
abbrev FieldAt := Fld × Nat × Nat

/-- Does a field cover bit b of register k? -/
def covers (x : FieldAt) (k : RegKey) (b : Nat) : Prop := k = ⟨x.1.reg, x.2.1, x.2.2⟩ ∧ x.1.lo ≤ b ∧ b < x.1.lo + x.1.len

/-- Every bit of every register outside the listed fields is the same in both states. -/
def FieldsBut (s t : State) (fs : List FieldAt) : Prop :=
  ∀ (k : RegKey) (b : Nat), (∀ x ∈ fs, ¬ covers x k b) → (t.rd k).getLsbD b = (s.rd k).getLsbD b

/-- Every register of another name than the listed ones is the same in both states. -/
def RegsBut (s t : State) (rs : List Reg) : Prop := ∀ k : RegKey, k.reg ∉ rs → t.rd k = s.rd k

/-- Every byte of memory reads the same in both states. -/
def SameMem (s t : State) : Prop := ∀ a, t.mem.read a = s.mem.read a

/-- Every byte of memory outside n bytes from a on reads the same in both states. -/
def MemBut (s t : State) (a n : Nat) : Prop := ∀ x, x < a ∨ a + n ≤ x → t.mem.read x = s.mem.read x

/-- Every byte of memory outside the ranges, each an address with a length, reads the same in both states. -/
def MemOut (s t : State) (l : List (Nat × Nat)) : Prop :=
  ∀ x, (∀ r ∈ l, x < r.1 ∨ r.1 + r.2 ≤ x) → t.mem.read x = s.mem.read x

/-! ### Terms for the dispatcher -/

/-- The dispatcher holds no instance, no held remote token and nothing of a cancel. -/
def State.GdxEmpty (s : State) : Prop :=
  s.gdx.insts = [] ∧ s.gdx.nodes = [] ∧ s.gdx.held = [] ∧ s.gdx.lastCancel.2 = []

/-- The dispatcher has nothing to do by itself: EN = 0 admits nothing, no release is due, and no instance has come to its end. -/
def State.GdxStill (s : State) : Prop :=
  s.flag F.GDX_CTRL_EN = false ∧ s.dueRelease = none ∧ ∀ p ∈ s.gdx.insts, s.retirable p.1 = false

/-- Instance i, alone in the dispatcher with its one node instance n. -/
def State.GdxAlone (s : State) (i : Nat) (y : SlotInst) (n : Nat) (x : NodeInst) : Prop :=
  s.gdx.insts = [(i, y)] ∧ s.gdx.nodes = [(n, x)] ∧ x.inst = i ∧ s.gdx.lastCancel.2 = []

/-- A node instance that waits for inputs and holds nothing. -/
def NodeInst.Bare (x : NodeInst) : Prop :=
  x.st = .waiting ∧ x.tokens.all (·.isNone) = true ∧ x.outs = [] ∧ x.runs = [] ∧ x.flow = none ∧ x.poisonReplay = false

/-- The registers that show the dispatcher's live counts and depths (Tables 4-16 to 4-19). -/
def gdxShown : List Reg := [.GDX_CLASS_DEPTH, .GDX_STATUS, .INST_LIVE, .NODE_LIVE, .RELBUF_USED]

/-- An empty dispatcher has made the one instance of template g on timeline tl for a slot, with every node waiting (R115, R117). -/
def State.Created (t : State) (g : Template) (tl : Nat) (e : Timeline) (slot : Int) : Prop :=
  (∃ y, t.gdx.insts = [(0, y)] ∧ y.tpl = g ∧ y.tl = tl ∧ y.slot = slot ∧ y.slotWord = slotId (e.slotWord slot) ∧ y.bank = e.curBank ∧
    y.cancelled = false) ∧
  t.gdx.nodes.map (fun p => (p.1, p.2.inst, p.2.node)) = (List.range g.nodes.length).map (fun k => (k, 0, k)) ∧
  (∀ p ∈ t.gdx.nodes, p.2.st = .waiting ∧ p.2.missing = List.range p.2.tokens.length)

/-- The telemetry record that the next retirement writes: address and length (R155). -/
def State.telemRange (s : State) : Nat × Nat :=
  (sramBase + s.get F.GDX_TELEM_BASE_BASE + s.get F.GDX_TELEM_WR_WR % s.get F.GDX_TELEM_SIZE_SIZE * 64, 64)

/-! ### Terms for the cores -/

/-- The run of core k issues its next bundle b: the run has not ended, its cluster runs, nothing halts it, its cache holds the bundle, the
bundle is legal, no MXC operation stalls it, and no fault is injected (R165, R174). -/
def State.Issues (s : State) (k : Nat) (c : VscCore) (b : Bundle) : Prop :=
  s.core k = some c ∧ c.ending = none ∧ s.domState (vscCluster k) ≤ 1 ∧ s.dbgHalted k = false ∧ s.missing k c = [] ∧
  s.bundleAt (c.kernel.code + c.pc) = b ∧ b.legal c = true ∧ s.mxStalls k c b = false ∧ c.inj = 0

/-- The run of core k holds no channel of a block mover and does not own its coprocessor, so that its end is reported at once (R182, R311). -/
def State.Unbound (s : State) (k : Nat) (c : VscCore) : Prop :=
  s.core k = some c ∧ c.ending = none ∧ s.bmvOf (vscCluster k) (s.vscPos k) c.node = [] ∧ (s.mx (vscCluster k)).lock = none

/-- The registers of a coprocessor that show its lock and queue. -/
def mxcShown : List Reg := [.MXC_STATUS, .MXC_OWNER, .MXC_WAITERS]

/-! ### Terms for the engines -/

/-- The 21 operations of the engines: class, operation code and row (Tables 7-7 to 7-12). -/
def engRows21 : List (Nat × Nat × (BitVec 8 → Nat → Nat → Instr)) :=
  [(1, 1, .lddDecode), (2, 1, .cenLdpc), (2, 2, .cenPolar), (2, 3, .cenTurbo), (3, 1, .trdDecode), (4, 1, .pldDecodeUl),
   (4, 2, .pldDecodeDl), (5, 1, .fxeRx), (5, 2, .fxeTx), (5, 3, .fxeTpdft), (5, 4, .fxeTpidft), (6, 1, .mdeDetect), (6, 2, .mdeMmse),
   (6, 3, .mdeMmseIrc), (6, 4, .mdeCalEst), (6, 5, .mdeDemap), (7, 1, .bwaPrecode), (7, 2, .bwaCombine), (8, 1, .prdDetect),
   (9, 1, .hceCombine), (9, 2, .hceStore)]

/-- Engine instance i holds job j whose descriptor names class c and operation op with parameters in the descriptor memory, and no write
of the class's engine map waits (R221, R222, Table 7-1). -/
def State.EngHolds (s : State) (i c op : Nat) (j : EngJob) : Prop :=
  Tab.find s.exu.jobs i = some j ∧ natBits (s.dw i 0) 0 4 = c ∧ natBits (s.dw i 0) 4 8 = op ∧ (s.dw i 0).testBit 12 = false ∧
  natBits (s.dw i 0) 16 7 ≤ 64 ∧ natBits (s.dw i 1) 0 16 % 16 = 0 ∧ s.mapWaits c = []

/-- The parameters, inputs and output of a job pass every check (R218, R222 to R225), nothing is injected, and no word of memory is upset. -/
def State.EngPasses (s : State) (i c op : Nat) (j : EngJob) : Prop :=
  (∀ x ∈ engChecks c op (s.par i), x.2 = true) ∧ (c = 9 ∧ op = 2 → s.engRunNo i < 2) ∧
  (∀ q, q < engInputs c op → (s.engIn i q).empty = false ∧ engReach false (s.engIn i q).addr (max 1 (s.engIn i q).length) = true ∧
    s.engNeeds i c op q ≤ (s.engIn i q).length) ∧
  engReach false (s.engOut i 0).addr 1 = true ∧ j.inj = 0 ∧ s.memx.chk = [] ∧ s.flag F.ECC_INJ_ARM = false

/-- What the operation yields (Tables 7-7 to 7-12, R235 to R237). -/
def State.engYield (s : State) (i c op : Nat) : EngOut :=
  if c = 9 then (if op = 1 then s.hceCombine i (s.engVal i c op) else s.hceStore i) else s.engResult i c op (s.engVal i c op)

/-! ### Terms for the network and coupler ports -/

/-- A counter of t stands n above that of s and saturates at all ones. -/
def Counted (s t : State) (f : Fld) (n : Nat) (i : Nat := 0) (j : Nat := 0) : Prop := t.get f i j = min (2 ^ f.len - 1) (s.get f i j + n)

/-- Only registers differ. -/
def OnlyRegs (s t : State) : Prop := t = { s with regs := t.regs }

/-- No ring takes the chip-wide events of the PF (R426). -/
def State.NoEvents (s : State) : Prop := Tab.find s.host.evRings 0 = none

/-- The stage that an attempt of a port starts with: autonegotiation 1, training 2 or PCS lock 3 (R338, R339). -/
def State.firstStage (s : State) (p : Nat) : Nat :=
  if s.get F.NET_PORT_CTRL_PHY p = 1 then 3 else if s.flag F.NET_PORT_CTRL_AN_EN p then 1 else 2

/-- The lookup table of a port in system SRAM (Table 12-6). -/
def State.lutWords (s : State) (p : Nat) : List (List Nat) :=
  (List.range 256).map (fun k => s.words (sramBase + s.get F.NET_FH_LUT_BASE_BASE p + 16 * k) 4)

/-- Queue q holds item i at its head, not yet taken, with the items rest behind it at other places, none of them taken or freed (R318). -/
def State.HeadOf (s : State) (q : Nat) (x : Queue) (i : QItem) (rest : List QItem) : Prop :=
  s.queue q = some x ∧ x.items = i :: rest ∧ i.gap = false ∧ i.held = false ∧ i.freed = false ∧ (∀ j ∈ rest, j.place ≠ i.place ∧ j.freed = false)

/-! ### Terms for the host interface -/

/-- Steol executes request r, the command op, in mailbox m, and no reset has dropped it (R411, R414, R436). -/
def State.Serving (s : State) (m op : Nat) (r : Req) : Prop := s.request m op = some r ∧ r.gone = false

/-- Mailbox m has answered request r with a status and items: the reply lies in the reply area, STATE is DONE, and the mailbox executes
nothing any more (R411, R413, R415). -/
def Replied (t : State) (m : Nat) (r : Req) (status : Nat) (items : List ReplyItem → Prop) : Prop :=
  ∃ y : Reply, (t.mbx m).cur = none ∧ (status ≠ 0x1E → (t.mbx m).last = some y) ∧ y.seq = r.seq ∧ y.op = r.op ∧ y.status = status ∧
    items y.items ∧ t.get F.MBX_STATUS_STATE 0 m = 3 ∧ .reply m y ∈ t.out ∧ t.bytes (replyArea m) y.bytes.length = y.bytes ∧
    y.bytes.length ≤ 4096

/-- Nothing but the mailbox and its reply area has changed: no other register, no other memory, no unit (R415). -/
def AnswerOnly (s t : State) (m : Nat) : Prop :=
  RegsBut s t [.MBX_STATUS] ∧ MemBut s t (replyArea m) 4096 ∧ t.tbu = s.tbu ∧ t.aft = s.aft ∧ t.gdx = s.gdx ∧ t.sq = s.sq ∧ t.exu = s.exu ∧
  t.car = s.car ∧ t.net = s.net ∧ t.cpl = s.cpl ∧ t.pwr = s.pwr ∧ t.dep = s.dep ∧ t.host.rings = s.host.rings ∧ t.host.parts = s.host.parts

/-- Mailbox m has refused request r with a status, and nothing else has changed (R417). -/
def Refused (s t : State) (m : Nat) (r : Req) (status : Nat) : Prop := Replied t m r status (· = []) ∧ AnswerOnly s t m

/-- An asynchronous command is accepted: its job is under way (R414). -/
def Accepted (s t : State) (m : Nat) (r : Req) (k : JobKind) : Prop :=
  Replied t m r 1 (· = []) ∧ t.host.jobs = s.host.jobs ++ [⟨m, r.seq, s.mbxOwner m, k⟩]

/-! ### Terms for errors and repairs -/

/-- The registers that an error record writes (R499 to R502). -/
def recordRegs : List Reg := [.ECC_ERQ_FIRST, .ECC_ERQ_FIRST_VALID, .ECC_ERQ_LOST, .ECC_ERQ_STATUS, .ECC_ERQ_COALESCED, .ECC_ERQ_WR]

/-- The field repair map has room for another entry (R283). -/
def State.MapRoom (s : State) : Prop := s.memx.repairs.length < 2048

/-- A unit of Table 17-2 is retired (R485, R486). -/
def State.Gone (s : State) (u : Nat) : Prop := s.retired (u / 2048) (u % 2048) = true

/-! ### Terms for register accesses and rings -/

/-- Address a of CSR space names register r, index j of instance i, and requester q reaches it (R551 to R557, Table 20-3). -/
def State.Reaches (s : State) (q : Requester) (a : Nat) (write : Bool) (r : Reg) (i j : Nat) : Prop :=
  ∃ b off, a < 0x10000000 ∧ a % 4 = 0 ∧ csrAt a = some (b, i, off) ∧ (∀ k, q ≠ .vsc k) ∧ b ≠ .BMV ∧ (b = .MBX → s.mbxMem q off = none) ∧
    regAt b off = some (r, j) ∧ s.mayReach q r j write = true ∧ s.pageOn b i = true ∧ s.meaningful r i = true

/-- The registers whose writes act beyond their own access codes: their rows and chapters say how. -/
def actingRegs : List Reg :=
  [.AFT_TL_CMD, .BOOT_CTRL, .BOOT_DBG_CTRL, .CPL_LANE_CTRL, .CPL_PORT_CTRL, .CPL_PORT_EQ, .ECC_ERQ_PUSH_GO, .ECC_ERQ_RD, .GDX_CLASS_RESERVE,
   .GDX_INST_CMD, .GDX_TPL_CMD, .GDX_SNAP, .MBX_DOORBELL, .MBX_RING_DB, .MXC_CTRL, .NET_FH_CMD, .NET_GRP_CFG, .NET_LANE_PRBS_CTRL,
   .NET_LANE_TXFFE, .NET_MACSEC_SA_CMD, .NET_PORT_CTRL, .PWR_REQ, .RCS_CMD, .RST_CTRL, .RST_DOMAIN, .SCL_MAP, .SCL_LEND, .SQ_CMD, .SQ_CTRL,
   .SQ_XOFF_OUT_POL, .TBU_D_INC_NS, .TBU_D_STEP_CTRL, .TBU_JUMP_LIMIT, .TBU_SNAP, .TBU_SWITCH, .THM_LIMIT, .TND_RULE_CFG, .TND_RULE_THRESH,
   .TND_RULE_ACTION, .TND_RULE_TIMING, .T_CTRL, .VSC_CTRL, .WHS_ARM, .WHS_DISARM, .WHS_CTRL, .WHS_PIN_CTRL]

/-- The registers whose reads act beyond clearing their RC fields, or show a captured value (R75, R328, R563). -/
def readingRegs : List Reg :=
  [.TBU_D_SNAP_SEC_HI, .TBU_D_SNAP_SEC_LO, .TBU_D_SNAP_NS, .TBU_D_SNAP_FRAC, .TBU_ACT_SNAP_SEC_HI, .TBU_ACT_SNAP_SEC_LO, .TBU_ACT_SNAP_NS,
   .TBU_ACT_SNAP_FRAC, .MBX_DEV_TIME_SEC_LO, .NET_LANE_PRBS_BITS_LO, .NET_LANE_PRBS_BITS_HI, .SQ_Q_LEVEL]

/-- Ring r holds at its head item i, a message with no staged payload, and behind it the items rest, none of them done (R431, R435). -/
def State.MessageAt (s : State) (r : Nat) (x : Ring) (i : RingItem) (rest : List RingItem) (msgId : Nat) : Prop :=
  s.ring r = some x ∧ x.out = false ∧ x.kind = .control ∧ x.items = i :: rest ∧ i.taken = false ∧ i.done = false ∧ i.buf = none ∧
  natBits (i.words.headD 0) 0 8 = msgId ∧ ∀ j ∈ rest, j.index ≠ i.index ∧ j.done = false

/-- Steol answers messages of function f on ring q (R435). -/
def State.Answers (s : State) (f q : Nat) : Prop := s.answerRing f = some q ∧ s.ringDetached q = false ∧ s.ringHasRoom q = true

end Sys2Proof.Machine
end

