-- ==== Sys2Proof/WellFormed.lean ====
section
/-!
DEFINITION. Sys2Proof/WellFormed.lean: which commands can be sent or can happen at all: the operands name instances that exist (Table
20-2, R17, R217) and have the widths that their fields have.
-/
namespace Sys2Proof

/-- Physical engines of a class: LDD 1 to HCE 9 (R217, Table 17-2). -/
def enginesOf (cls : Nat) : Nat := [0, 34, 17, 9, 9, 34, 26, 17, 9, 17].getD cls 0

/-- Does an engine class have an instance k? -/
def engineOk (cls k : Nat) : Bool := decide (k < enginesOf cls)

/-- Does a requester exist? -/
def requesterOk : Requester → Bool
  | .vsc k => decide (k < 216)
  | .hostVF f => decide (1 ≤ f ∧ f ≤ 16)
  | .steward => true
  | .hostPF _ => true
  | .jtag => true

/-- Is a command well-formed? -/
def wellFormed (i : Instr) : Bool :=
  match i with
  | .registerWrite req addr _ => requesterOk req && decide (addr < 2 ^ 48)
  | .counterReadClear req addr => requesterOk req && decide (addr < 2 ^ 48)
  | .completionReport e => decide (e.toNat < 416)
  | .releaseBufferEntryFree e _ => decide (e.toNat < 416)
  | .bundleIssue vsc _ _ => decide (vsc.toNat < 216)
  | .icacheFill vsc => decide (vsc.toNat < 216)
  | .icacheInv vsc => decide (vsc.toNat < 216)
  | .runWatchdog vsc => decide (vsc.toNat < 216)
  | .vscHardwareFault vsc _ => decide (vsc.toNat < 216)
  | .lddDecode k _ _ => engineOk 1 k.toNat
  | .cenLdpc k _ _ => engineOk 2 k.toNat
  | .cenPolar k _ _ => engineOk 2 k.toNat
  | .cenTurbo k _ _ => engineOk 2 k.toNat
  | .trdDecode k _ _ => engineOk 3 k.toNat
  | .pldDecodeUl k _ _ => engineOk 4 k.toNat
  | .pldDecodeDl k _ _ => engineOk 4 k.toNat
  | .fxeRx k _ _ => engineOk 5 k.toNat
  | .fxeTx k _ _ => engineOk 5 k.toNat
  | .fxeTpdft k _ _ => engineOk 5 k.toNat
  | .fxeTpidft k _ _ => engineOk 5 k.toNat
  | .mdeDetect k _ _ => engineOk 6 k.toNat
  | .mdeMmse k _ _ => engineOk 6 k.toNat
  | .mdeMmseIrc k _ _ => engineOk 6 k.toNat
  | .mdeCalEst k _ _ => engineOk 6 k.toNat
  | .mdeDemap k _ _ => engineOk 6 k.toNat
  | .bwaPrecode k _ _ => engineOk 7 k.toNat
  | .bwaCombine k _ _ => engineOk 7 k.toNat
  | .prdDetect k _ _ => engineOk 8 k.toNat
  | .hceCombine k _ _ => engineOk 9 k.toNat
  | .hceStore k _ _ => engineOk 9 k.toNat
  | .engineWatchdog cls k _ => engineOk cls k.toNat
  | .engineHardwareFault cls k _ _ => engineOk cls k.toNat
  | .engineMapPhysWrite cls k phys => engineOk cls k.toNat && decide (phys.toNat < enginesOf cls)
  | .engineMapApply cls k => engineOk cls k.toNat
  | .bmvChClaim vsc _ => decide (vsc.toNat < 216)
  | .bmvGo req _ _ => requesterOk req
  | .bmvClear req _ _ => requesterOk req
  | .bmvStop req _ _ => requesterOk req
  | .itemOffer _ symbol stream slot _ _ => decide (symbol < 32 ∧ stream < 2 ^ 16 ∧ slot < 2 ^ 32)
  | .itemFree _ place => decide (place < 2 ^ 16)
  | .whistleArm _ _ words => decide (words.length = 6)
  | .bufpool _ _ words => decide (words.length = 5)
  | .ringItemFetch _ item _ => decide (item.length = 16)
  | .errorReport kind cls sev id detail addr => decide (kind < 16 ∧ cls < 256 ∧ sev < 3 ∧ id < 2 ^ 16 ∧ detail < 2 ^ 16 ∧ addr < 2 ^ 48)
  | .fullWordWrite _ data _ => decide (data.length = 8 ∨ data.length = 32 ∨ data.length = 64)
  | .partialWrite _ data _ _ => decide (0 < data.length ∧ data.length ≤ 64)
  | .timingPllLock | .incNsWrite .. | .incrementCommit .. | .tbuStepRequest .. | .tbuSetRequest .. | .stepApply .. | .setApply ..
  | .jumpLimitWrite .. | .tbuSwitchRequest .. | .switchPoint | .slewComplete | .snapshotRequest | .snapshotCapture | .refclkLoss
  | .refclkFreqCheck .. | .refclkRelock | .ppsInEdge .. | .ppsInTimeout .. | .ppsOutEdge .. | .timelineEnable ..
  | .timelineDisable .. | .tddUpdate .. | .tddUpdateApply .. | .aftSlotBoundary .. | .whsArm .. | .whsDisarm .. | .whsEnable
  | .whistleSpill .. | .mark .. | .create .. | .cancel .. | .refill .. | .convStart .. | .convCtrl .. | .quietExitForConv ..
  | .gapOpen .. | .gapClose .. | .calTx .. | .calRx .. | .corrSwap .. | .power .. | .pinArm .. | .pinFire .. | .pinPulseEnd ..
  | .outputShort .. | .instCmdCreate .. | .instCmdCancel .. | .templateInstall .. | .templateRemove .. | .templateBlock ..
  | .templateUnblock .. | .tokenArrival .. | .streamItemTake .. | .nodeDispatch .. | .ringSinkSpace .. | .telemetryCopy
  | .gdxSnapHold .. | .reserveWrite .. | .mxcLockGrant .. | .mxcOpExecute .. | .mxcFault .. | .mxcServiceWrite ..
  | .mxcRemovalComplete .. | .bmvBurstIssue .. | .bmvBurstComplete .. | .bmvBusError .. | .bmvPoisonResponse ..
  | .bmvParityError .. | .bmvEngMapWrite .. | .bmvMapApply .. | .queueEnable .. | .queueDisable .. | .queueReset ..
  | .pfcRefresh .. | .creditReport .. | .xoffInChange .. | .xoffInStuck .. | .netGroupApply .. | .portEnable ..
  | .autonegComplete .. | .linkTrainingComplete .. | .pcsLock .. | .attemptFail .. | .nopartnerRetry .. | .linkFail ..
  | .polaritySearch .. | .adaptationUpdate .. | .adaptationFreeze .. | .netLaneFault .. | .frameReceive .. | .pfcPauseExpiry ..
  | .txItemSend .. | .txLateDiscard .. | .fhReload .. | .macsecSaInstall .. | .prbsCtrlWrite .. | .prbsInject .. | .prbsLock ..
  | .cplPortEnable .. | .clockDetect .. | .laneDetect .. | .symbolAlignment .. | .deskew .. | .capabilityExchange ..
  | .trainingPhaseTimeout .. | .trainingRetry .. | .ckActivityLoss .. | .slip .. | .capSetReceived .. | .markerReceived ..
  | .sampleMessageReceived .. | .sampleSend .. | .sampleLateDiscard .. | .tokenMessageSend .. | .tokenMessageReceived ..
  | .tokenAckSend .. | .ackReceived .. | .nakReceived .. | .timeMessageSend .. | .timeMessageReceived .. | .creditReceived ..
  | .gapBeginReceived .. | .gapAckReceived .. | .gapEndReceived .. | .gapTimeout .. | .probeReceived .. | .echoReceived ..
  | .quietEnterReceived .. | .laneDropReceived .. | .drift .. | .laneRetrain .. | .cplLaneFault .. | .cplLinkDown ..
  | .perstNRelease | .flr .. | .pcieHotReset | .claimWaitExpiry .. | .csrWindowWrite .. | .bar2Access .. | .mbxDoorbell ..
  | .requestTake .. | .asyncCommandComplete .. | .openSession .. | .closeSession .. | .ping .. | .partition .. | .eventRing ..
  | .getDevice .. | .getUnits .. | .getCapacity .. | .configure .. | .getCarrier .. | .startCarrier .. | .stopCarrier ..
  | .setPrecedence .. | .claim .. | .installGraph .. | .installKernel .. | .templateOp .. | .removeKernel .. | .list ..
  | .setReserve .. | .setReplay .. | .timeStatus .. | .timeSource .. | .jumpLimit .. | .switch .. | .timeOfDay .. | .ptpPort ..
  | .consist .. | .whistleDisarm .. | .whistleGet .. | .grace .. | .pin .. | .ringCreate .. | .ringDestroy .. | .queueConfig ..
  | .queueStatus .. | .xoffIn .. | .bar2Window .. | .couplerPort .. | .powerPolicy .. | .powerState .. | .tenderRule ..
  | .hibernate .. | .selftest .. | .laneTest .. | .readCsr .. | .writeCsr .. | .telemetry .. | .snapshot .. | .readRecord ..
  | .writeRecord .. | .faultLog .. | .fwStage .. | .fwStatus .. | .fwSwap .. | .fwSwapPoint | .fwCommit .. | .fwAbort ..
  | .errRead .. | .errClearFirst .. | .errStream .. | .mbxRingDb .. | .ringCoalesceTimer .. | .paramRequest ..
  | .configRequest .. | .startRequest .. | .stopRequest .. | .powerRequest .. | .autoDoze .. | .domainDrainComplete ..
  | .entryStepComplete .. | .wakeComplete .. | .trimChangeComplete .. | .stackWakeOnAccess .. | .chipWake .. | .wakeFail
  | .brownout | .tenderRuleSample .. | .sensorSample .. | .tripSupplyOff | .tripRestart | .warnResponse | .throttleResponse
  | .throttleShedTimer | .throttleRestore | .thmLimitWrite .. | .unitFaultHandle .. | .rotationStep .. | .rotationMapSwap ..
  | .benchSelfTest .. | .stewardFailover | .standbyReady .. | .degradedDeclare .. | .carrierRestore | .eccErqPushGo
  | .erqRdWrite .. | .errorRecordRead .. | .memoryRead .. | .granuleReady .. | .rcsProgram | .rcsProgramComplete ..
  | .coldStart .. | .bootImageVerify .. | .hbmTrainingComplete .. | .steolReady .. | .warmReset .. | .resetNRelease ..
  | .rstCtrlWarm .. | .rstDomain .. | .bootWatchdogExpiry | .wdogKick | .wdogStop | .dbgReq .. | .dbgGo .. | .dbgLock
  | .railInBand .. | .railTimeout | .powerFault .. | .avsbusWrite .. | .smbusStatus | .tempMax | .tempTender | .rail ..
  | .alertRules | .state | .smbusTimeout | .sclMapWrite .. | .sclMapApply .. | .sclLendWrite .. | .sclLendApply ..
  | .timingClockTick | .vddAonRemoval | .resetNAssert | .returnOfSignal .. => true

end Sys2Proof
end

