-- ==== Sys2Proof/Certificates/Slice0/Obligations.lean ====
section
/-!
DEFINITION. Sys2Proof/Certificates/Slice0/Obligations.lean: what is claimed of the device, rule by rule.  A statement about a command
says that exec answers a next state and what that state holds, and which of the rest is unchanged.
-/
open Sys2Proof Sys2Proof.Machine


/-- A step is exec of the front command on the state with the queue's rest; an empty queue idles (the model's choice, log entry 20). -/
def Obligations.StepPerformsTheFrontCommand : Prop :=
  (∀ (c : Instr) (cs : List Instr) (s : State), step { s with pending := c :: cs } = Machine.exec c { s with pending := cs }) ∧
  ∀ s : State, s.pending = [] → step s = .next s

/-- No command faults or is refused, and none touches the queue (the queue is the model's own, log entry 20). -/
def Obligations.NoCommandIsDroppedOrInvented : Prop :=
  ∀ (i : Instr) (s : State), Completes i s (fun t => t.pending = s.pending)

/-- The invariant holds after reset, and every register holds the value of its Reset column. -/
def Obligations.ResetKeepsTheInvariant : Prop :=
  State.reset.Inv ∧ ∀ k : RegKey, State.reset.rd k = k.resetWord

/-- The invariant of Safety.lean is inductive. -/
def Obligations.EveryStepKeepsTheInvariant : Prop :=
  ∀ s t : State, s.Inv → step s = .next t → t.Inv

/-- R38 and R35: the first lock zeroes both counters with TIME_VALID = 0, and a tick adds each increment, wrapping at 2^48 seconds. -/
def Obligations.TimebaseStartsAndTicks : Prop :=
  (∀ s : State, s.flag F.TBU_CTRL_PLL_EN = true → s.tbu.started = false →
    Completes .timingPllLock s (fun t => t.tbu.a.counter = ⟨0, 0, 0⟩ ∧ t.tbu.b.counter = ⟨0, 0, 0⟩ ∧ t.tbu.started = true ∧
      t.get F.TBU_STATUS_PLL_LOCK = 1 ∧ t.get F.TBU_D_STATUS_TIME_VALID 0 0 = 0 ∧ t.get F.TBU_D_STATUS_TIME_VALID 0 1 = 0 ∧
      FieldsBut s t [(F.TBU_STATUS_PLL_LOCK, 0, 0), (F.TBU_D_STATUS_TIME_VALID, 0, 0), (F.TBU_D_STATUS_TIME_VALID, 0, 1)] ∧
      t = { s with regs := t.regs, tbu := t.tbu })) ∧
  (∀ s : State, s.flag F.TBU_CTRL_PLL_EN = true → s.tbu.started = true →
    Completes .timingPllLock s (fun t => t.get F.TBU_STATUS_PLL_LOCK = 1 ∧ FieldsBut s t [(F.TBU_STATUS_PLL_LOCK, 0, 0)] ∧
      t = { s with regs := t.regs })) ∧
  (∀ s : State, s.tbu.started = true → s.tbu.switch = none → s.tbu.resid = 0 → s.tbu.snap = false →
    (∀ d, (s.tbu.dom d).incPend = none ∧ (s.tbu.dom d).step = none ∧ (s.tbu.dom d).setThisTick = false) →
    Completes .timingClockTick s (fun t =>
      (∀ d, ((t.tbu.dom d).counter.units : Int) = ((s.tbu.dom d).counter.units + (s.tbu.dom d).incr) % (2 ^ 48 * secUnits : Nat) ∧
        (t.tbu.dom d).counter.wf ∧ (t.tbu.dom d).incr = (s.tbu.dom d).incr) ∧
      t.tbu.ticks = s.tbu.ticks + 1 ∧ RegsBut s t [.GDX_LOAD] ∧ SameMem s t))

/-- R42 and R43, in units of 2^-32 ns. -/
def Obligations.IncrementsCommitOrAreRefused : Prop :=
  (∀ (d : Dom) (v : Word) (s : State), Completes (.incNsWrite d v) s (fun t =>
      t.get F.TBU_D_INC_NS_INC_NS 0 (domIdx d) = v.toNat % 16 ∧
      t.tbu.dom d = { s.tbu.dom d with incPend := some (v.toNat % 16 * 2 ^ 32 + s.get F.TBU_D_INC_FRAC_INC_FRAC 0 (domIdx d)) } ∧
      (∀ e, e ≠ d → t.tbu.dom e = s.tbu.dom e) ∧
      FieldsBut s t [(F.TBU_D_INC_NS_INC_NS, 0, domIdx d)] ∧ t = { s with regs := t.regs, tbu := t.tbu })) ∧
  (∀ (d : Dom) (p : Nat) (s : State), (s.tbu.dom d).incPend = some p → 15996 * 2 ^ 32 ≤ p * 10000 → p * 10000 ≤ 16004 * 2 ^ 32 →
    Completes (.incrementCommit d) s (fun t => (t.tbu.dom d).incr = p ∧ (t.tbu.dom d).incPend = none ∧
      (t.tbu.dom d).counter = (s.tbu.dom d).counter ∧ (∀ e, e ≠ d → t.tbu.dom e = s.tbu.dom e) ∧ t = { s with tbu := t.tbu })) ∧
  (∀ (d : Dom) (p : Nat) (s : State), (s.tbu.dom d).incPend = some p → (p * 10000 < 15996 * 2 ^ 32 ∨ 16004 * 2 ^ 32 < p * 10000) →
    Completes (.incrementCommit d) s (fun t => t.get F.TBU_D_STATUS_INC_REFUSED 0 (domIdx d) = 1 ∧
      t.tbu.dom d = { s.tbu.dom d with incPend := none } ∧ (∀ e, e ≠ d → t.tbu.dom e = s.tbu.dom e) ∧
      FieldsBut s t [(F.TBU_D_STATUS_INC_REFUSED, 0, domIdx d)] ∧ t = { s with regs := t.regs, tbu := t.tbu }))

/-- R44, R47 and R48: what a GO holds, and that a second GO is ignored but for STEP_BUSY (capture at the GO: log entry 22). -/
def Obligations.StepsAndSetsAreRequestedTwoTicksAhead : Prop :=
  ∀ (d : Dom) (s : State),
    ((s.tbu.dom d).step = none →
      Completes (.tbuStepRequest d) s (fun t =>
        t.tbu.dom d = { s.tbu.dom d with step := some ⟨false,
          (s.rd ⟨.TBU_D_STEP_NS, 0, domIdx d⟩).toInt * 2 ^ 32 + s.get F.TBU_D_STEP_FRAC_STEP_FRAC 0 (domIdx d),
          decide (999999999 < s.get F.TBU_D_STEP_NS_STEP_NS 0 (domIdx d)), 2⟩ } ∧
        t.get F.TBU_D_STATUS_STEP_PENDING 0 (domIdx d) = 1 ∧ t.get F.TBU_D_STEP_CTRL_MODE 0 (domIdx d) = 0 ∧
        FieldsBut s t [(F.TBU_D_STATUS_STEP_PENDING, 0, domIdx d), (F.TBU_D_STEP_CTRL_MODE, 0, domIdx d)] ∧
        (∀ e, e ≠ d → t.tbu.dom e = s.tbu.dom e) ∧ t = { s with regs := t.regs, tbu := t.tbu }) ∧
      Completes (.tbuSetRequest d) s (fun t =>
        t.tbu.dom d = { s.tbu.dom d with step := some ⟨true,
          (s.get F.TBU_D_SET_SEC_HI_SEC 0 (domIdx d) * 2 ^ 32 + s.get F.TBU_D_SET_SEC_LO_SEC 0 (domIdx d) : Nat) * (1000000000 * 2 ^ 32) +
            (s.get F.TBU_D_STEP_NS_STEP_NS 0 (domIdx d) : Nat) * 2 ^ 32 + (s.get F.TBU_D_STEP_FRAC_STEP_FRAC 0 (domIdx d) : Nat),
          decide (999999999 < s.get F.TBU_D_STEP_NS_STEP_NS 0 (domIdx d)), 2⟩ } ∧
        t.get F.TBU_D_STATUS_STEP_PENDING 0 (domIdx d) = 1 ∧ t.get F.TBU_D_STEP_CTRL_MODE 0 (domIdx d) = 1 ∧
        FieldsBut s t [(F.TBU_D_STATUS_STEP_PENDING, 0, domIdx d), (F.TBU_D_STEP_CTRL_MODE, 0, domIdx d)] ∧
        (∀ e, e ≠ d → t.tbu.dom e = s.tbu.dom e) ∧ t = { s with regs := t.regs, tbu := t.tbu })) ∧
    ((s.tbu.dom d).step.isSome = true → ∀ c ∈ [Instr.tbuStepRequest d, Instr.tbuSetRequest d],
      Completes c s (fun t => t.get F.TBU_D_STATUS_STEP_BUSY 0 (domIdx d) = 1 ∧
        FieldsBut s t [(F.TBU_D_STATUS_STEP_BUSY, 0, domIdx d), (F.TBU_D_STEP_CTRL_MODE, 0, domIdx d)] ∧ t = { s with regs := t.regs }))

/-- R45 and R47: the outcome of a due step or set, by the domain, its magnitude and the enabled timelines. -/
def Obligations.StepsAndSetsApplyOrAreRefused : Prop :=
  ∀ (d : Dom) (a : Int) (bad : Bool) (n : Nat) (s : State), n ≤ 1 →
    ((s.tbu.dom d).step = some ⟨false, a, bad, n⟩ →
      ((s.active ≠ d ∨ (a.natAbs : Int) ≤ (s.get F.TBU_JUMP_LIMIT_LIMIT_NS : Int) * 2 ^ 32) →
        Completes (.stepApply d) s (fun t =>
          t.tbu.dom d = { s.tbu.dom d with step := none, counter := (s.tbu.dom d).counter.add a } ∧
          t.get F.TBU_D_STATUS_STEP_PENDING 0 (domIdx d) = 0 ∧ (∀ e, e ≠ d → t.tbu.dom e = s.tbu.dom e) ∧
          (s.active ≠ d ∨ a ≤ 0 ∨ s.get F.WHS_CTRL_EN = 0 →
            FieldsBut s t [(F.TBU_D_STATUS_STEP_PENDING, 0, domIdx d)] ∧ t = { s with regs := t.regs, tbu := t.tbu }))) ∧
      ((s.active = d ∧ (s.get F.TBU_JUMP_LIMIT_LIMIT_NS : Int) * 2 ^ 32 < (a.natAbs : Int)) →
        Completes (.stepApply d) s (fun t =>
          t.tbu.dom d = { s.tbu.dom d with step := none } ∧ t.get F.TBU_D_STATUS_JUMP_REFUSED 0 (domIdx d) = 1 ∧
          t.get F.TBU_D_STATUS_STEP_PENDING 0 (domIdx d) = 0))) ∧
    ((s.tbu.dom d).step = some ⟨true, a, bad, n⟩ →
      ((bad = false ∧ (s.active ≠ d ∨ s.aft.tls = [])) →
        Completes (.setApply d) s (fun t =>
          (t.tbu.dom d).counter = Tai.ofUnits a ∧ (t.tbu.dom d).step = none ∧
          t.get F.TBU_D_STATUS_TIME_VALID 0 (domIdx d) = 1 ∧ t.get F.TBU_D_STATUS_STEP_PENDING 0 (domIdx d) = 0 ∧
          FieldsBut s t [(F.TBU_D_STATUS_STEP_PENDING, 0, domIdx d), (F.TBU_D_STATUS_TIME_VALID, 0, domIdx d)] ∧
          (∀ e, e ≠ d → t.tbu.dom e = s.tbu.dom e) ∧ t = { s with regs := t.regs, tbu := t.tbu })) ∧
      ((bad = true ∨ s.active = d ∧ s.aft.tls ≠ []) →
        Completes (.setApply d) s (fun t =>
          t.tbu.dom d = { s.tbu.dom d with step := none } ∧ t.get F.TBU_D_STATUS_SET_REFUSED 0 (domIdx d) = 1 ∧
          t.get F.TBU_D_STATUS_STEP_PENDING 0 (domIdx d) = 0 ∧
          FieldsBut s t [(F.TBU_D_STATUS_STEP_PENDING, 0, domIdx d), (F.TBU_D_STATUS_SET_REFUSED, 0, domIdx d)] ∧
          (∀ e, e ≠ d → t.tbu.dom e = s.tbu.dom e) ∧ t = { s with regs := t.regs, tbu := t.tbu })))

/-- R46: the clamp of LIMIT_NS, its reset value, and nothing else written. -/
def Obligations.JumpLimitIsClamped : Prop :=
  State.reset.get F.TBU_JUMP_LIMIT_LIMIT_NS = 1000000000 ∧
  ∀ (v : Word) (s : State), v.toNat < 2 ^ 30 →
    Completes (.jumpLimitWrite v) s (fun t =>
      (v.toNat = 0 → t.get F.TBU_JUMP_LIMIT_LIMIT_NS = 1) ∧
      (1 ≤ v.toNat → v.toNat ≤ 1000000000 → t.get F.TBU_JUMP_LIMIT_LIMIT_NS = v.toNat) ∧
      (1000000000 < v.toNat → t.get F.TBU_JUMP_LIMIT_LIMIT_NS = 1000000000) ∧
      FieldsBut s t [(F.TBU_JUMP_LIMIT_LIMIT_NS, 0, 0)] ∧ t = { s with regs := t.regs })

/-- R52 to R54, the residual in units of 2^-32 ns (order of the checks and storing of ignored fields: log entries 25 and 26). -/
def Obligations.DomainSwitchesAreContinuous : Prop :=
  (∀ (d : Dom) (force : Bool) (tl : BitVec 8) (s : State),
    Completes (.tbuSwitchRequest d force tl) s (fun t =>
      t.get F.TBU_SWITCH_TARGET = domIdx d ∧ t.get F.TBU_SWITCH_FORCE = (if force then 1 else 0) ∧ t.get F.TBU_SWITCH_REF_TL = tl.toNat ∧
      (s.tbu.switch = none → s.active ≠ d → t.tbu.switch = some ⟨d, force, tl.toNat⟩ ∧ t.get F.TBU_STATUS_SWITCH_PENDING = 1) ∧
      (s.tbu.switch = none → s.active = d → t.tbu = s.tbu ∧ t.rd ⟨.TBU_STATUS, 0, 0⟩ = s.rd ⟨.TBU_STATUS, 0, 0⟩) ∧
      (s.tbu.switch ≠ none → t.tbu = s.tbu ∧ t.get F.TBU_STATUS_SWITCH_BUSY = 1) ∧
      RegsBut s t [.TBU_SWITCH, .TBU_STATUS] ∧ t = { s with regs := t.regs, tbu := t.tbu })) ∧
  (∀ (r : SwitchReq) (s : State), s.tbu.switch = some r →
    ((s.activeUnits - (s.tbu.dom r.target).counter.units).natAbs ≤ (s.get F.TBU_JUMP_LIMIT_LIMIT_NS : Int) * 2 ^ 32 ∨ r.force = true →
      Completes .switchPoint s (fun t => t.active = r.target ∧ t.activeUnits = s.activeUnits ∧ t.tbu.switch = none ∧
        t.get F.TBU_STATUS_SWITCH_PENDING = 0 ∧
        ((s.get F.TBU_JUMP_LIMIT_LIMIT_NS : Int) * 2 ^ 32 < (s.activeUnits - (s.tbu.dom r.target).counter.units).natAbs →
          t.get F.TBU_STATUS_FORCED = 1) ∧
        RegsBut s t [.TBU_STATUS, .TBU_CTRL, .TBU_SLEW_RESID_NS] ∧ t = { s with regs := t.regs, tbu := t.tbu })) ∧
    ((s.get F.TBU_JUMP_LIMIT_LIMIT_NS : Int) * 2 ^ 32 < (s.activeUnits - (s.tbu.dom r.target).counter.units).natAbs → r.force = false →
      Completes .switchPoint s (fun t => t.tbu = { s.tbu with switch := none } ∧ t.get F.TBU_STATUS_SWITCH_REFUSED = 1))) ∧
  (∀ s : State, s.tbu.resid.natAbs ≤ 68 →
    Completes .slewComplete s (fun t => t.tbu = { s.tbu with resid := 0 } ∧ t.get F.TBU_STATUS_SLEWING = 0 ∧
      t.get F.TBU_SLEW_RESID_NS_RESID_NS = 0 ∧ FieldsBut s t [(F.TBU_STATUS_SLEWING, 0, 0), (F.TBU_SLEW_RESID_NS_RESID_NS, 0, 0)] ∧
      t = { s with regs := t.regs, tbu := t.tbu }))

/-- R75, R39 and R40. -/
def Obligations.SnapshotsAndReferenceMonitor : Prop :=
  (∀ s : State, Completes .snapshotRequest s (fun t => t = { s with tbu := { s.tbu with snap := true } })) ∧
  (∀ s : State, s.tbu.snap = true → s.tbu.a.counter.wf → s.tbu.b.counter.wf →
    Completes .snapshotCapture s (fun t => t.tbu.snap = false ∧
      (∀ d, (⟨t.get F.TBU_D_SNAP_SEC_HI_SEC 0 (domIdx d) * 2 ^ 32 + t.get F.TBU_D_SNAP_SEC_LO_SEC 0 (domIdx d),
        t.get F.TBU_D_SNAP_NS_NS 0 (domIdx d), t.get F.TBU_D_SNAP_FRAC_FRAC 0 (domIdx d)⟩ : Tai) = (s.tbu.dom d).counter) ∧
      (⟨t.get F.TBU_ACT_SNAP_SEC_HI_SEC * 2 ^ 32 + t.get F.TBU_ACT_SNAP_SEC_LO_SEC, t.get F.TBU_ACT_SNAP_NS_NS,
        t.get F.TBU_ACT_SNAP_FRAC_FRAC⟩ : Tai) = s.activeTime ∧
      RegsBut s t [.TBU_D_SNAP_SEC_HI, .TBU_D_SNAP_SEC_LO, .TBU_D_SNAP_NS, .TBU_D_SNAP_FRAC, .TBU_ACT_SNAP_SEC_HI, .TBU_ACT_SNAP_SEC_LO,
        .TBU_ACT_SNAP_NS, .TBU_ACT_SNAP_FRAC] ∧
      t = { s with regs := t.regs, tbu := t.tbu })) ∧
  (∀ s : State, Completes .refclkLoss s (fun t => t.get F.TBU_REF_STATUS_REF_LOC = 1 ∧ t.get F.TBU_REF_STATUS_REF_LOC_SEEN = 1 ∧
    t.tbu = { s.tbu with holding := true } ∧ FieldsBut s t [(F.TBU_REF_STATUS_REF_LOC, 0, 0), (F.TBU_REF_STATUS_REF_LOC_SEEN, 0, 0)] ∧
    t = { s with regs := t.regs, tbu := t.tbu })) ∧
  (∀ (ppm : BitVec 16) (s : State), Completes (.refclkFreqCheck ppm) s (fun t =>
    (1000 < ppm.toInt ∨ ppm.toInt < -1000 → t.get F.TBU_REF_STATUS_FREQ_ERR = 1 ∧ t.get F.TBU_REF_STATUS_FREQ_ERR_SEEN = 1) ∧
    (-1000 ≤ ppm.toInt → ppm.toInt ≤ 1000 → t.tbu = s.tbu ∧ FieldsBut s t [(F.TBU_REF_STATUS_FREQ_DEV, 0, 0)]) ∧
    t.get F.TBU_REF_STATUS_FREQ_DEV = ppm.toNat ∧
    FieldsBut s t [(F.TBU_REF_STATUS_FREQ_DEV, 0, 0), (F.TBU_REF_STATUS_FREQ_ERR, 0, 0), (F.TBU_REF_STATUS_FREQ_ERR_SEEN, 0, 0)] ∧
    t = { s with regs := t.regs, tbu := t.tbu })) ∧
  (∀ s : State, Completes .refclkRelock s (fun t => t.get F.TBU_REF_STATUS_REF_LOC = 0 ∧ t.get F.TBU_REF_STATUS_FREQ_ERR = 0 ∧
    t.tbu = { s.tbu with holding := false } ∧ FieldsBut s t [(F.TBU_REF_STATUS_REF_LOC, 0, 0), (F.TBU_REF_STATUS_FREQ_ERR, 0, 0)] ∧
    t = { s with regs := t.regs, tbu := t.tbu }))

/-- R68 to R70 and R546; 0.9 s is 72,000,000,000 units of 12.5 ps, of which a tick has 128 and a sub-tick 5. -/
def Obligations.PulsesPerSecondInAndOut : Prop :=
  (∀ (i : Fin 2) (falling : Bool) (sub : Fin 26) (s : State), s.flag F.TBU_PPS_IN_CTRL_EN 0 i = true →
    s.flag F.TBU_PPS_IN_CTRL_EDGE 0 i = falling →
    ((∀ last, Tab.find s.tbu.ppsLast i.val = some last → last + 72000000000 ≤ s.tbu.ticks * 128 + sub.val * 5) →
      Completes (.ppsInEdge i falling sub) s (fun t => t.get F.TBU_PPS_IN_STATUS_NEW 0 i = 1 ∧
        (s.get F.TBU_PPS_IN_STATUS_NEW 0 i = 1 → t.get F.TBU_PPS_IN_STATUS_OVERRUN 0 i = 1) ∧
        t.get F.TBU_PPS_IN_STATUS_LOST 0 i = 0 ∧ t.get F.TBU_PPS_IN_STATUS_STUCK_HI 0 i = 0 ∧ t.get F.TBU_PPS_IN_STATUS_STUCK_LO 0 i = 0 ∧
        t.get F.TBU_PPS_IN_STAMP_A_NS_NS 0 i = (s.tbu.a.counter.add (sub.val * 2 ^ 28 : Nat)).ns ∧
        t.get F.TBU_PPS_IN_STAMP_B_NS_NS 0 i = (s.tbu.b.counter.add (sub.val * 2 ^ 28 : Nat)).ns ∧
        t.get F.TBU_PPS_IN_STATUS_EXTRA_EDGES 0 i = s.get F.TBU_PPS_IN_STATUS_EXTRA_EDGES 0 i ∧
        RegsBut s t [.TBU_PPS_IN_STATUS, .TBU_PPS_IN_STAMP_A_SEC, .TBU_PPS_IN_STAMP_A_NS, .TBU_PPS_IN_STAMP_A_FRAC, .TBU_PPS_IN_STAMP_B_SEC,
          .TBU_PPS_IN_STAMP_B_NS, .TBU_PPS_IN_STAMP_B_FRAC] ∧ t = { s with regs := t.regs, tbu := t.tbu })) ∧
    (∀ last, Tab.find s.tbu.ppsLast i.val = some last → s.tbu.ticks * 128 + sub.val * 5 < last + 72000000000 →
      Completes (.ppsInEdge i falling sub) s (fun t =>
        t.get F.TBU_PPS_IN_STATUS_EXTRA_EDGES 0 i = min 255 (s.get F.TBU_PPS_IN_STATUS_EXTRA_EDGES 0 i + 1) ∧
        FieldsBut s t [(F.TBU_PPS_IN_STATUS_EXTRA_EDGES, 0, i)] ∧ t = { s with regs := t.regs }))) ∧
  (∀ (i : Fin 2) (s : State), s.flag F.TBU_PPS_IN_CTRL_EN 0 i = true → ∀ x ∈ [(PinLevel.mid, F.TBU_PPS_IN_STATUS_LOST),
      (.high, F.TBU_PPS_IN_STATUS_STUCK_HI), (.low, F.TBU_PPS_IN_STATUS_STUCK_LO)],
    Completes (.ppsInTimeout i x.1) s (fun t => t.get x.2 0 i = 1 ∧ FieldsBut s t [(x.2, 0, i)] ∧ t = { s with regs := t.regs })) ∧
  (∀ (i : Fin 2) (s : State), s.flag F.TBU_PPS_OUT_CTRL_EN 0 i = true → 1 ≤ s.get F.TBU_PPS_OUT_CTRL_WIDTH_US 0 i →
    s.get F.TBU_PPS_OUT_CTRL_WIDTH_US 0 i ≤ 500000 →
    Completes (.ppsOutEdge i) s (fun t => t = { s with out := s.out ++ [.ppsEdge i (s.get F.TBU_PPS_OUT_CTRL_WIDTH_US 0 i)] })) ∧
  (∀ s : State, s.flag F.TBU_CLK10M_CTRL_EN = true → Completes (.outputShort .clk10m) s (fun t => t.get F.TBU_CLK10M_CTRL_EN = 0)) ∧
  (∀ (i : Fin 2) (s : State), s.flag F.TBU_PPS_OUT_CTRL_EN 0 i = true →
    Completes (.outputShort (.ppsOut i)) s (fun t => t.get F.TBU_PPS_OUT_CTRL_EN 0 i = 0)) ∧
  (∀ (n : Fin 16) (s : State), s.flag F.SQ_CTRL_EN = true → n.val ∉ s.pins.xoffParked →
    Completes (.outputShort (.xoffOut n)) s (fun t => n.val ∈ t.pins.xoffParked))

/-- R80 to R82: the checks of an enable for entries without TDD, each with its cause, and what a disable leaves. -/
def Obligations.TimelinesEnableDisableOrRefuse : Prop :=
  (∀ (tl : BitVec 8) (s : State), let e := tlEntry (s.tlWords tl.toNat)
    s.tlOn tl.toNat = false → (numerology e.std e.mu e.ecp e.nb3k75).isSome = true → -160000000 ≤ e.offset → e.offset ≤ 160000000 →
    e.tddEn = false → e.streamCount ≤ 512 → e.streamBase + e.streamCount ≤ 4096 →
    s.flag F.TBU_D_STATUS_TIME_VALID 0 (domIdx s.active) = true →
    Completes (.timelineEnable tl) s (fun t =>
      (∃ x, t.tl tl.toNat = some x ∧ x.ent = e ∧ x.pend = none ∧ x.curBank = 0) ∧
      (t.get F.AFT_TL_EN_EN 0 (tl.toNat / 32)).testBit (tl.toNat % 32) = true ∧
      (∀ u, u ≠ tl.toNat → t.tl u = s.tl u) ∧ RegsBut s t [.AFT_TL_CMD, .AFT_TL_EN] ∧ SameMem s t)) ∧
  (∀ (tl : BitVec 8) (s : State), let e := tlEntry (s.tlWords tl.toNat)
    ∀ c, (c = 7 ∧ s.tlOn tl.toNat = true ∨
        s.tlOn tl.toNat = false ∧ (c = 1 ∧ numerology e.std e.mu e.ecp e.nb3k75 = none ∨
          (numerology e.std e.mu e.ecp e.nb3k75).isSome = true ∧ (c = 2 ∧ (e.offset < -160000000 ∨ 160000000 < e.offset) ∨
            c = 6 ∧ -160000000 ≤ e.offset ∧ e.offset ≤ 160000000 ∧ e.tddEn = false ∧ e.streamCount ≤ 512 ∧
              e.streamBase + e.streamCount ≤ 4096 ∧ s.flag F.TBU_D_STATUS_TIME_VALID 0 (domIdx s.active) = false))) →
    Completes (.timelineEnable tl) s (fun t => t.aft = s.aft ∧ t.get F.AFT_STATUS_CMD_REFUSED = 1 ∧ t.get F.AFT_STATUS_CAUSE = c ∧
      RegsBut s t [.AFT_TL_CMD, .AFT_STATUS] ∧ t = { s with regs := t.regs })) ∧
  (∀ (tl : BitVec 8) (s : State), s.tlOn tl.toNat = true →
    Completes (.timelineDisable tl) s (fun t => t.tl tl.toNat = none ∧ (∀ u, u ≠ tl.toNat → t.tl u = s.tl u) ∧
      (∀ ch x, t.whs ch = some x → x.sched.tl = tl.toNat → x.armed = false) ∧
      (∀ n x, t.pin n = some x → x.sched.tl = tl.toNat → x.armed = false) ∧
      (∀ i x, t.inst i = some x → x.tl = tl.toNat → x.orphan = true) ∧
      (t.get F.AFT_TL_EN_EN 0 (tl.toNat / 32)).testBit (tl.toNat % 32) = false)) ∧
  (∀ (tl : BitVec 8) (s : State), s.tlOn tl.toNat = false →
    Completes (.timelineDisable tl) s (fun t => t.get F.AFT_STATUS_CMD_REFUSED = 1 ∧ t.get F.AFT_STATUS_CAUSE = 7 ∧
      RegsBut s t [.AFT_TL_CMD, .AFT_STATUS] ∧ t = { s with regs := t.regs }))

/-- R83 and R84. -/
def Obligations.TddPatternsAndSlotBoundaries : Prop :=
  (∀ (tl : BitVec 8) (x : Timeline) (s : State), s.tl tl.toNat = some x →
    x.ent.num.lenBad (s.get F.AFT_TL_CMD_ARG_PATTERN_LEN) = false →
    s.codeBad x.ent.num (s.get F.AFT_TL_CMD_ARG_TDD_PTR) (s.get F.AFT_TL_CMD_ARG_PATTERN_LEN) = false →
    Completes (.tddUpdate tl) s (fun t =>
      (∃ b, t.tl tl.toNat = some { x with pend := some (b, s.get F.AFT_TL_CMD_ARG_TDD_PTR, s.get F.AFT_TL_CMD_ARG_PATTERN_LEN) } ∧
        (s.coordNow x).slot < b ∧ b ≤ (s.coordNow x).slot + 2 * x.ent.num.slots ∧ b % (2 * x.ent.num.slots) = 0) ∧
      t.get F.AFT_STATUS_TDD_PENDING = 1 ∧ RegsBut s t [.AFT_TL_CMD, .AFT_STATUS] ∧ t = { s with regs := t.regs, aft := t.aft })) ∧
  (∀ (tl : BitVec 8) (x : Timeline) (s : State), s.tl tl.toNat = some x →
    x.ent.num.lenBad (s.get F.AFT_TL_CMD_ARG_PATTERN_LEN) = true →
    Completes (.tddUpdate tl) s (fun t => t.get F.AFT_STATUS_CMD_REFUSED = 1 ∧ t.get F.AFT_STATUS_CAUSE = 3 ∧ t = { s with regs := t.regs })) ∧
  (∀ (tl : BitVec 8) (x : Timeline) (b : Int) (p l : Nat) (s : State), s.tl tl.toNat = some x → x.pend = some (b, p, l) →
    b ≤ (s.coordNow x).slot →
    Completes (.tddUpdateApply tl) s (fun t =>
      t.tl tl.toNat = some { x with ent := { x.ent with tddPtr := p, patLen := l }, pend := none } ∧
      (∀ u, u ≠ tl.toNat → t.tl u = s.tl u) ∧ FieldsBut s t [(F.AFT_STATUS_TDD_PENDING, 0, 0)] ∧ t = { s with regs := t.regs, aft := t.aft })) ∧
  (∀ (tl : BitVec 8) (x : Timeline) (s : State), s.tl tl.toNat = some x → x.slot.map (·.slot) ≠ some (s.coordNow x).slot →
    Completes (.aftSlotBoundary tl) s (fun t =>
      (∃ y, t.tl tl.toNat = some { x with slot := some y } ∧ y.slot = (s.coordNow x).slot ∧ y.delays.length = x.ent.streamCount ∧
        (x.pend = none → y.word = s.tddTable (x.ent.tddPtr + ((s.coordNow x).slot % (max 1 x.ent.patLen : Nat)).toNat)) ∧
        ∀ k, k < x.ent.streamCount → y.delays[k]? =
          some (signed 24 (s.word (sramBase + s.get F.AFT_STREAM_TABLE_BASE_BASE + 4 * (x.ent.streamBase + k))))) ∧
      (∀ u, u ≠ tl.toNat → t.tl u = s.tl u) ∧ t = { s with aft := t.aft }))

/-- R88 and R89 for the actions without a window check, and R573 for EN. -/
def Obligations.WhistlesArmFromTheirEntries : Prop :=
  (∀ (ch : BitVec 10) (x : Timeline) (s : State),
    let w (i : Nat) : Nat := s.word (s.whsAddr ch.toNat + 4 * i)
    let action := natBits (w 0) 2 5
    let periodic := (w 0).testBit 1
    (action < 12 → s.tl (natBits (w 0) 8 8) = some x → x.coordOk (w 1) = true → action ≠ 8 → action ≠ 9 →
      (periodic = true → natBits (w 3) 0 16 ≠ 0 ∧ natBits (w 3) 16 2 ≠ 3) →
      (s.whs ch.toNat = none) →
      Completes (.whsArm ch) s (fun t => ∃ y, t.whs ch.toNat = some y ∧ y.action = action ∧ y.arg0 = w 4 ∧ y.arg1 = w 5 ∧
        y.sched.tl = natBits (w 0) 8 8 ∧ (s.get F.WHS_CTRL_EN = 0 → y.armed = true ∧ MemBut s t (s.whsAddr ch.toNat) 32 ∧
          FieldsBut s t [(F.WHS_ARM_CHANNEL, 0, 0)]))) ∧
    (∀ c, (c = 1 ∧ 12 ≤ action ∨ action < 12 ∧ (c = 2 ∧ s.tl (natBits (w 0) 8 8) = none ∨
          s.tl (natBits (w 0) 8 8) = some x ∧ (c = 3 ∧ x.coordOk (w 1) = false ∨
            c = 4 ∧ x.coordOk (w 1) = true ∧ periodic = true ∧ (natBits (w 3) 0 16 = 0 ∨ natBits (w 3) 16 2 = 3)))) →
      Completes (.whsArm ch) s (fun t => t.get F.WHS_STATUS_ARM_REFUSED = 1 ∧ t.get F.WHS_STATUS_CAUSE = c ∧
        (∀ y, t.whs ch.toNat = some y → y.armed = false) ∧ RegsBut s t [.WHS_STATUS, .WHS_ARM] ∧
        MemBut s t (s.whsAddr ch.toNat) 4))) ∧
  (∀ (ch : BitVec 10) (x : WhsCh) (s : State), s.whs ch.toNat = some x →
    Completes (.whsDisarm ch) s (fun t => t.whs ch.toNat = some { x with armed := false } ∧ (∀ c, c ≠ ch.toNat → t.whs c = s.whs c) ∧
      MemBut s t (s.whsAddr ch.toNat) 4 ∧ FieldsBut s t [(F.WHS_DISARM_CHANNEL, 0, 0)])) ∧
  (∀ s : State, s.aft.channels = [] → s.aft.pins = [] →
    Completes .whsEnable s (fun t => t.get F.WHS_CTRL_EN = 1 ∧ FieldsBut s t [(F.WHS_CTRL_EN, 0, 0)] ∧ t = { s with regs := t.regs })) ∧
  (∀ (ch : Nat) (x : WhsCh) (tl : Timeline) (s : State), s.aft.channels = [(ch, x)] → s.aft.pins = [] → s.tl x.sched.tl = some tl →
    x.armed = true → s.flag F.WHS_CTRL_EN = false → s.mem.wf = true →
    (s.judgeSched x.sched tl x.last).fire.isSome = true → x.sched.period = 0 →
    (s.judgeSched x.sched tl x.last).missed = [] →
    Completes .whsEnable s (fun t => t.get F.WHS_CTRL_EN = 1 ∧ (∃ y, t.whs ch = some y ∧ y.armed = false ∧ y.due.isSome = true) ∧
      (t.word (s.whsAddr ch + 24)).testBit 0 = true))

/-- R90 with the order of R21 (State.whsReady), and the actions 0, 8, 9 and 10 of Table 3-4. -/
def Obligations.WhistlesFireAtMostFourInATick : Prop :=
  (∀ (ch : BitVec 10) (x : WhsCh) (tl : Timeline) (c : Int) (s : State), s.whsReady ch.toNat 0 = some (x, tl, c) → s.mem.wf = true →
    Completes (.mark ch) s (fun t => t.whs ch.toNat = some (x.past tl c) ∧ (∀ d, d ≠ ch.toNat → t.whs d = s.whs d) ∧
      t.word (s.whsAddr ch.toNat + 28) = (s.word (s.whsAddr ch.toNat + 28) + 1) % 2 ^ 32 ∧ t.aft.delivered = s.aft.delivered + 1 ∧
      MemBut s t (s.whsAddr ch.toNat) 32 ∧ t = { s with mem := t.mem, aft := t.aft })) ∧
  (∀ (ch : BitVec 10) (x : WhsCh) (tl : Timeline) (c : Int) (s : State), s.whsReady ch.toNat 10 = some (x, tl, c) →
    Completes (.corrSwap ch) s (fun t => t.tl x.sched.tl = some { tl with curBank := 1 - tl.curBank } ∧
      (∀ u, u ≠ x.sched.tl → t.tl u = s.tl u) ∧ t.whs ch.toNat = some (x.past tl c) ∧ t.regs = s.regs ∧
      MemBut s t (s.whsAddr ch.toNat) 32)) ∧
  (∀ (ch : BitVec 10) (x : WhsCh) (tl : Timeline) (c : Int) (s : State) (rx : Bool),
    s.whsReady ch.toNat (if rx then 9 else 8) = some (x, tl, c) → tl.ent.tddEn = false →
    Completes (if rx then .calRx ch else .calTx ch) s (fun t =>
      t.out = s.out ++ [.cal rx x.sched.tl (x.arg0 % 512) x.arg1] ∧ t.whs ch.toNat = some (x.past tl c) ∧ t.regs = s.regs ∧
      MemBut s t (s.whsAddr ch.toNat) 32)) ∧
  (∀ (ch : BitVec 10) (x : WhsCh) (tl : Timeline) (c : Int) (k : Nat) (s : State), s.whs ch.toNat = some x → s.whsDue x = some (c, k) →
    s.tl x.sched.tl = some tl → 4 ≤ s.aft.delivered → x.spilled = false →
    Completes (.whistleSpill ch) s (fun t => t.whs ch.toNat = some { x.past tl c with due := some (c, k), spilled := true } ∧
      t.get F.WHS_SPILL_SPILL = min (2 ^ 32 - 1) (s.get F.WHS_SPILL_SPILL + 1) ∧ FieldsBut s t [(F.WHS_SPILL_SPILL, 0, 0)] ∧
      MemBut s t (s.whsAddr ch.toNat) 4))
-- covers: calTx calRx

/-- R95, R96 and the WHS_OUT row of R546. -/
def Obligations.PinWhistlesPulse : Prop :=
  (∀ (n : Fin 64) (tl : Timeline) (s : State), s.flag F.WHS_PIN_CTRL_EN 0 n = false → s.get F.WHS_CTRL_EN = 0 →
    s.flag F.WHS_PIN_CTRL_PERIODIC 0 n = false → s.tl (s.get F.WHS_PIN_CTRL_TL 0 n) = some tl →
    tl.coordOk (s.get F.WHS_PIN_COORD_COORD 0 n) = true → s.pin n = none →
    Completes (.pinArm n) s (fun t => t.get F.WHS_PIN_CTRL_EN 0 n = 1 ∧
      (∃ y, t.pin n = some y ∧ y.armed = true ∧ y.width = s.get F.WHS_PIN_TIMING_WIDTH 0 n ∧ y.sched.tl = s.get F.WHS_PIN_CTRL_TL 0 n ∧
        y.drive = .idle) ∧
      t.out = s.out ++ [.pin n .idle] ∧ FieldsBut s t [(F.WHS_PIN_CTRL_EN, 0, n)] ∧
      t = { s with regs := t.regs, aft := t.aft, out := t.out })) ∧
  (∀ (n : Fin 64) (s : State), s.flag F.WHS_PIN_CTRL_EN 0 n = false → s.tl (s.get F.WHS_PIN_CTRL_TL 0 n) = none →
    Completes (.pinArm n) s (fun t => t.get F.WHS_STATUS_ARM_REFUSED = 1 ∧ t.get F.WHS_STATUS_CAUSE = 2 ∧
      t.get F.WHS_PIN_CTRL_EN 0 n = 0 ∧ t = { s with regs := t.regs })) ∧
  (∀ (n : Fin 64) (x : WhsPinSt) (s : State), s.pin n = some x → s.flag F.WHS_CTRL_EN = true → x.due.isSome = true →
    Completes (.pinFire n) s (fun t => t.pin n = some { x with due := none, drive := .active } ∧ t.out = s.out ++ [.pin n .active] ∧
      (∀ m, m ≠ n.val → t.pin m = s.pin m) ∧ t = { s with aft := t.aft, out := t.out })) ∧
  (∀ (n : Fin 64) (x : WhsPinSt) (s : State), s.pin n = some x → x.drive = .active →
    Completes (.pinPulseEnd n) s (fun t =>
      (x.sched.period = 0 → t.get F.WHS_PIN_CTRL_EN 0 n = 0 ∧ t.pin n = some { x with drive := .hiz } ∧ t.out = s.out ++ [.pin n .hiz]) ∧
      (x.sched.period ≠ 0 → s.flag F.WHS_PIN_CTRL_EN 0 n = true →
        t.pin n = some { x with drive := .idle } ∧ t.out = s.out ++ [.pin n .idle] ∧ t.regs = s.regs) ∧
      FieldsBut s t [(F.WHS_PIN_CTRL_EN, 0, n)] ∧ t = { s with regs := t.regs, aft := t.aft, out := t.out })) ∧
  (∀ (n : Fin 64) (x : WhsPinSt) (s : State), s.pin n = some x →
    Completes (.outputShort (.whsOut n)) s (fun t => t.get F.WHS_PIN_CTRL_EN 0 n = 0 ∧
      t.pin n = some { x with armed := false, due := none, drive := .hiz }))

/-- R86, R117, R124 and R138 for an empty or nearly empty dispatcher. -/
def Obligations.WhistlesDriveTheDispatcher : Prop :=
  (∀ (ch : BitVec 10) (x : WhsCh) (tl : Timeline) (c : Int) (g : Template) (s : State), s.whsReady ch.toNat 1 = some (x, tl, c) →
    s.GdxEmpty → s.flag F.GDX_CTRL_EN = true → s.tplCur (x.arg0 % 4096) = some g → s.tplBlocked (x.arg0 % 4096) = false →
    g.nodes ≠ [] → g.nodes.length ≤ 65536 → (∀ r ∈ g.nodes, 1 ≤ r.nIn) →
    Completes (.create ch) s (fun t => t.Created g x.sched.tl tl (tl.slotOf c) ∧ t.whs ch.toNat = some (x.past tl c) ∧
      RegsBut s t gdxShown ∧ MemBut s t (s.whsAddr ch.toNat) 32 ∧ t = { s with regs := t.regs, mem := t.mem, aft := t.aft, gdx := t.gdx })) ∧
  (∀ (ch : BitVec 10) (x : WhsCh) (tl : Timeline) (c : Int) (i n : Nat) (y : SlotInst) (z : NodeInst) (s : State),
    s.whsReady ch.toNat 2 = some (x, tl, c) → s.GdxAlone i y n z → z.Bare → y.cancelled = false →
    y.tpl.id = x.arg0 % 4096 → y.tl = x.sched.tl → y.slotWord = slotId (tl.slotWord (tl.slotOf c)) →
    Completes (.cancel ch) s (fun t => t.gdx.insts = [] ∧ t.gdx.nodes = [] ∧ t.whs ch.toNat = some (x.past tl c) ∧
      RegsBut s t (gdxShown ++ [.GDX_TELEM_WR, .GDX_TELEM_LOST]) ∧
      MemOut s t [(s.whsAddr ch.toNat, 32), s.telemRange])) ∧
  (∀ (ch : BitVec 10) (x : WhsCh) (tl : Timeline) (c : Int) (s : State), s.whsReady ch.toNat 3 = some (x, tl, c) → s.GdxEmpty →
    (s.pool (x.arg0 % 1024)).wait = [] →
    Completes (.refill ch) s (fun t =>
      (x.arg1 / 2 ^ 30 % 4 = 0 → t.pool (x.arg0 % 1024) = ⟨x.arg1 % 2 ^ 30 * 1024, []⟩) ∧
      (x.arg1 / 2 ^ 30 % 4 = 1 → t.pool (x.arg0 % 1024) = ⟨min (2 ^ 40 - 1) ((s.pool (x.arg0 % 1024)).bal + x.arg1 % 2 ^ 30 * 1024), []⟩) ∧
      (2 ≤ x.arg1 / 2 ^ 30 % 4 → t.pool (x.arg0 % 1024) = s.pool (x.arg0 % 1024) ∧
        t.get F.REFILL_BAD_COUNT = min (2 ^ 32 - 1) (s.get F.REFILL_BAD_COUNT + 1)) ∧
      (∀ p, p ≠ x.arg0 % 1024 → t.pool p = s.pool p) ∧ t.whs ch.toNat = some (x.past tl c) ∧
      RegsBut s t (gdxShown ++ [.REFILL_BAD, .CANCEL_SAME_CYCLE]) ∧ MemBut s t (s.whsAddr ch.toNat) 32))

/-- R86 with R383, R393, R394 and R449. -/
def Obligations.WhistlesDriveCouplersAndPower : Prop :=
  (∀ (ch : BitVec 10) (x : WhsCh) (tl : Timeline) (c : Int) (ctrl : Bool) (s : State),
    s.whsReady ch.toNat (if ctrl then 5 else 4) = some (x, tl, c) → s.cplUp (x.arg0 % 16) = true → s.domState (96 + x.arg0 % 16) = 0 →
    Completes (if ctrl then .convCtrl ch else .convStart ch) s (fun t =>
      (∃ d, d < 66 ∧ t.out = s.out ++ [.coupler (x.arg0 % 16) (.conv (natBits x.arg0 8 8) ctrl d x.arg1)]) ∧
      t.get F.CPL_CONV_SENT_CONV_SENT (x.arg0 % 16) = min (2 ^ 32 - 1) (s.get F.CPL_CONV_SENT_CONV_SENT (x.arg0 % 16) + 1) ∧
      t.whs ch.toNat = some (x.past tl c) ∧ FieldsBut s t [(F.CPL_CONV_SENT_CONV_SENT, x.arg0 % 16, 0)] ∧
      MemBut s t (s.whsAddr ch.toNat) 32)) ∧
  (∀ (port : Fin 16) (s : State),
    (s.cplUp port = true → s.domState (96 + port.val) = 3 → s.convArmed port = true →
      Completes (.quietExitForConv port) s (fun t => (t.cplPort port).convExit = some s.tbu.ticks ∧ t = { s with cpl := t.cpl })) ∧
    (s.cplUp port = false ∨ s.domState (96 + port.val) ≠ 3 ∨ s.convArmed port = false → exec (.quietExitForConv port) s = .next s)) ∧
  (∀ (ch : BitVec 10) (x : WhsCh) (tl : Timeline) (c : Int) (p : Nat) (s : State), s.whsReady ch.toNat 6 = some (x, tl, c) →
    maskPorts x.arg0 = [p] →
    (s.cplUp p = true → 1 ≤ s.cplMinor p → s.cplGap p = false →
      Completes (.gapOpen ch) s (fun t => (t.cplPort p).gap = .begun ∧ (t.cplPort p).gapOwn = true ∧
        t.out = s.out ++ [.coupler p .gapBegin] ∧ t.get F.CPL_PORT_STATUS_GAP_OPEN p = 1 ∧
        FieldsBut s t [(F.CPL_PORT_STATUS_GAP_OPEN, p, 0)] ∧ MemBut s t (s.whsAddr ch.toNat) 32)) ∧
    (s.cplUp p = false →
      Completes (.gapOpen ch) s (fun t => t.cpl = s.cpl ∧ t.out = s.out ∧ FieldsBut s t [(F.CPL_GAP_IGNORED_GAP_IGNORED, p, 0)] ∧
        t.get F.CPL_GAP_IGNORED_GAP_IGNORED p =
          min (2 ^ F.CPL_GAP_IGNORED_GAP_IGNORED.len - 1) (s.get F.CPL_GAP_IGNORED_GAP_IGNORED p + 1)))) ∧
  (∀ (ch : BitVec 10) (x : WhsCh) (tl : Timeline) (c : Int) (p : Nat) (s : State), s.whsReady ch.toNat 7 = some (x, tl, c) →
    maskPorts x.arg0 = [p] → s.cplGap p = true → (s.cplPort p).rtts = [] → (s.cplPort p).delayDue = false →
    s.flag F.PWR_DOM_STATE_PENDING_VALID 0 (96 + p) = false → s.flag F.PWR_DOM_STATE_PENDING_VALID 0 (112 + p) = false →
    Completes (.gapClose ch) s (fun t => (t.cplPort p).gap = .none ∧ t.out = s.out ++ [.coupler p .gapEnd] ∧
      t.get F.CPL_PORT_STATUS_GAP_OPEN p = 0 ∧ FieldsBut s t [(F.CPL_PORT_STATUS_GAP_OPEN, p, 0)] ∧
      MemBut s t (s.whsAddr ch.toNat) 32)) ∧
  (∀ (ch : BitVec 10) (x : WhsCh) (tl : Timeline) (c : Int) (s : State), s.whsReady ch.toNat 11 = some (x, tl, c) →
    let d := x.arg0 % 256
    d < 24 → s.domMoving d = false →
    (∀ g, x.arg1 % 8 = g → (g = 1 ∨ g = 2) → s.domState d = 0 → g ≤ s.get F.PWR_DOM_POLICY_DEEPEST 0 d → s.pwrDwelt d = true →
      Completes (.power ch) s (fun t => t.get F.PWR_DOM_STATE_TARGET 0 d = g ∧ t.get F.PWR_DOM_STATE_ENTERING 0 d = 1 ∧
        t.get F.PWR_DOM_STATE_STEP 0 d = g - 1 ∧ t.domState d = 0 ∧ RegsBut s t [.PWR_DOM_STATE] ∧ MemBut s t (s.whsAddr ch.toNat) 32)) ∧
    (x.arg1 % 8 = 0 → s.domState d = 2 →
      Completes (.power ch) s (fun t => t.get F.PWR_DOM_STATE_TARGET 0 d = 0 ∧ t.get F.PWR_DOM_STATE_WAKING 0 d = 1 ∧ t.domState d = 2 ∧
        FieldsBut s t [(F.PWR_DOM_STATE_TARGET, 0, d), (F.PWR_DOM_STATE_WAKING, 0, d)] ∧ MemBut s t (s.whsAddr ch.toNat) 32)))
-- covers: convStart convCtrl

/-- R112 and R113. -/
def Obligations.TemplatesInstallWholeOrNotAtAll : Prop :=
  (∀ (len : Nat) (ts : List Template) (s : State),
    let a := s.get F.GDX_TPL_ADDR_LO_ADDR + s.get F.GDX_TPL_ADDR_HI_ADDR * 2 ^ 32
    s.imageCause a len = 0 → s.checkTpls a (natBits (s.word (a + 4)) 0 16) (natBits (s.word (a + 8)) 0 13) 0 [] = .inr ts →
    (Completes (.templateInstall len true) s (fun t => (∀ g ∈ ts, t.tplCur g.id = some g ∧ t.tplBlocked g.id = false) ∧
      (∀ k, (∀ g ∈ ts, g.id ≠ k) → t.tplCur k = s.tplCur k ∧ t.tplBlocked k = s.tplBlocked k) ∧ t.gdx.insts = s.gdx.insts ∧
      FieldsBut s t [(F.GDX_TPL_CMD_OP, 0, 0)] ∧ t = { s with regs := t.regs, gdx := t.gdx })) ∧
    Completes (.templateInstall len false) s (fun t => t.get F.GDX_TPL_STATUS_REFUSED = 1 ∧ t.get F.GDX_TPL_STATUS_CAUSE = 0xB ∧
      RegsBut s t [.GDX_TPL_CMD, .GDX_TPL_STATUS] ∧ t = { s with regs := t.regs })) ∧
  (∀ (len : Nat) (fits : Bool) (s : State),
    s.word (s.get F.GDX_TPL_ADDR_LO_ADDR + s.get F.GDX_TPL_ADDR_HI_ADDR * 2 ^ 32) ≠ 0x4758494D →
    Completes (.templateInstall len fits) s (fun t => t.get F.GDX_TPL_STATUS_REFUSED = 1 ∧ t.get F.GDX_TPL_STATUS_CAUSE = 1 ∧
      RegsBut s t [.GDX_TPL_CMD, .GDX_TPL_STATUS] ∧ t = { s with regs := t.regs })) ∧
  (∀ (k : BitVec 12) (s : State),
    Completes (.templateRemove k) s (fun t => t.tplCur k.toNat = none ∧ t.tplBlocked k.toNat = s.tplBlocked k.toNat ∧
      (∀ m, m ≠ k.toNat → t.tplCur m = s.tplCur m ∧ t.tplBlocked m = s.tplBlocked m) ∧ t.gdx.insts = s.gdx.insts ∧
      RegsBut s t [.GDX_TPL_CMD] ∧ t = { s with regs := t.regs, gdx := t.gdx }) ∧
    ∀ b : Bool, Completes (if b then .templateBlock k else .templateUnblock k) s (fun t =>
      t.tplBlocked k.toNat = b ∧ (∀ m, t.tplCur m = s.tplCur m) ∧ (∀ m, m ≠ k.toNat → t.tplBlocked m = s.tplBlocked m) ∧
      t.gdx.insts = s.gdx.insts ∧ RegsBut s t [.GDX_TPL_CMD] ∧ t = { s with regs := t.regs, gdx := t.gdx }))
-- covers: templateBlock templateUnblock

/-- R116, R117, R137 and R138. -/
def Obligations.InstancesAreCreatedAndCancelledByTheRegisters : Prop :=
  (∀ (k : BitVec 12) (tl : BitVec 8) (g : Template) (e : Timeline) (s : State), s.GdxEmpty → s.flag F.GDX_CTRL_EN = true →
    s.tplCur k.toNat = some g → s.tplBlocked k.toNat = false → s.tl tl.toNat = some e → g.nodes ≠ [] → g.nodes.length ≤ 65536 →
    (∀ r ∈ g.nodes, 1 ≤ r.nIn) →
    Completes (.instCmdCreate k tl) s (fun t =>
      t.Created g tl.toNat e (e.ent.num.slotOfWord (s.get F.GDX_INST_STATUS_SLOT) (s.coordNow e).slot) ∧
      RegsBut s t (.GDX_INST_CMD :: gdxShown) ∧ t = { s with regs := t.regs, gdx := t.gdx })) ∧
  (∀ (k : BitVec 12) (tl : BitVec 8) (s : State), s.GdxEmpty → s.flag F.GDX_CTRL_EN = true →
    (s.tplCur k.toNat = none ∨ s.tplBlocked k.toNat = true) →
    Completes (.instCmdCreate k tl) s (fun t => t.gdx.insts = [] ∧ t.gdx.nodes = [] ∧
      t.get F.BLOCKED_CREATE_COUNT = min (2 ^ 32 - 1) (s.get F.BLOCKED_CREATE_COUNT + 1) ∧ t.aft = s.aft ∧ t.tbu = s.tbu)) ∧
  (∀ (id : BitVec 12) (n : Nat) (y : SlotInst) (x : NodeInst) (s : State), s.GdxAlone id.toNat y n x → x.Bare → y.cancelled = false →
    Completes (.instCmdCancel id) s (fun t => t.gdx.insts = [] ∧ t.gdx.nodes = [] ∧
      RegsBut s t (gdxShown ++ [.GDX_INST_CMD, .GDX_TELEM_WR, .GDX_TELEM_LOST]) ∧ MemOut s t [s.telemRange] ∧
      t = { s with regs := t.regs, mem := t.mem, gdx := t.gdx })) ∧
  (∀ (id : BitVec 12) (s : State), s.GdxEmpty →
    Completes (.instCmdCancel id) s (fun t => t.gdx.insts = [] ∧ t.gdx.nodes = [] ∧
      t.get F.CANCEL_NOINST_COUNT = min (2 ^ 32 - 1) (s.get F.CANCEL_NOINST_COUNT + 1) ∧
      RegsBut s t (gdxShown ++ [.GDX_INST_CMD, .CANCEL_NOINST]) ∧ t = { s with regs := t.regs, gdx := t.gdx }))

/-- R108, R118 and R125 (EN = 0 in the clauses that say GdxStill, so that nothing else moves). -/
def Obligations.TokensReachTheirPorts : Prop :=
  (∀ (b : Bool) (n port : Nat) (k : Token) (fs : List InFlight) (x : NodeInst) (y : SlotInst) (s : State),
    s.gdx.inflight = ⟨n, port, k, false⟩ :: fs → s.node n = some x → s.inst x.inst = some y → y.cancelled = false → x.st = .waiting →
    port < x.tokens.length → x.tokens.getD port none = none → (y.tpl.node x.node).flowMode ≠ 3 → s.gdx.lastCancel.2 = [] →
    (s.GdxStill → Completes (.tokenArrival b) s (fun t => t.node n = some { x with tokens := x.tokens.set port (some k) } ∧
      (∀ m, m ≠ n → t.node m = s.node m) ∧ t.gdx.inflight = fs ∧ t.gdx.pools = s.gdx.pools ∧
      RegsBut s t (.CANCEL_SAME_CYCLE :: gdxShown) ∧ t = { s with regs := t.regs, gdx := t.gdx })) ∧
    (s.flag F.GDX_CTRL_EN = true → s.gdx.nodes = [(n, x)] → s.gdx.insts = [(x.inst, y)] → x.missing = [port] →
      (y.tpl.node x.node).level < 8 →
      let p := y.tpl.poolOf (y.tpl.node x.node).level
      (s.pool p).wait = [] → (y.tpl.node x.node).debit ≤ (s.pool p).bal →
      Completes (.tokenArrival b) s (fun t =>
        t.node n = some { x with tokens := x.tokens.set port (some k), st := .ready, readyCycle := t.gdx.cycle, readyTick := s.tbu.ticks } ∧
        t.pool p = ⟨(s.pool p).bal - (y.tpl.node x.node).debit, []⟩ ∧ (∀ q, q ≠ p → t.pool q = s.pool q) ∧
        RegsBut s t (.CANCEL_SAME_CYCLE :: gdxShown) ∧ t = { s with regs := t.regs, gdx := t.gdx }))) ∧
  (∀ (b : Bool) (f : InFlight) (fs : List InFlight) (s : State), s.gdx.inflight = f :: fs → f.stale = true → f.token.ext = .none →
    62 ≤ f.token.pool → s.GdxStill → s.gdx.lastCancel.2 = [] →
    Completes (.tokenArrival b) s (fun t => t.gdx.nodes = s.gdx.nodes ∧ t.gdx.inflight = fs ∧
      t.get F.STALE_INPUT_COUNT = min (2 ^ 32 - 1) (s.get F.STALE_INPUT_COUNT + 1) ∧
      RegsBut s t (.CANCEL_SAME_CYCLE :: .STALE_INPUT :: gdxShown) ∧ t = { s with regs := t.regs, gdx := t.gdx })) ∧
  (∀ (b : Bool) (q : BitVec 10) (x : Queue) (i : QItem) (g : Template) (b0 b1 k n p : Nat) (y : SlotInst) (z : NodeInst) (s : State),
    s.queue q.toNat = some x → s.queueHead q.toNat = some i → x.ent.consumer = 0 → i.gap = false → s.gdx.lastCancel.2 = [] → s.GdxStill →
    (s.boundTpl 0 q.toNat = some (g, b0, b1) → s.instOf g.id x.ent.tl i.slot = some k → s.inst k = some y → y.cancelled = false →
      s.itemPort k y 0 q.toNat i.symbol = some (n, p) → s.node n = some z → z.inst = k → z.st = .waiting → p < z.tokens.length →
      z.tokens.getD p none = none → (y.tpl.node z.node).flowMode ≠ 3 →
      Completes (.streamItemTake (.queue q) b) s (fun t =>
        t.node n = some { z with tokens := z.tokens.set p (some
          ⟨i.addr, i.pool, false, i.length, i.flowTag, i.user, .queue q.toNat i.place⟩) } ∧
        t.queue q.toNat = some { x with items := x.items.map (fun j => if j.place = i.place ∧ ¬ j.freed then { j with held := true } else j) } ∧
        (∀ m, m ≠ n → t.node m = s.node m) ∧ SameMem s t ∧ t.aft = s.aft ∧ t.tbu = s.tbu ∧ t.exu = s.exu)) ∧
    (s.boundTpl 0 q.toNat = none →
      Completes (.streamItemTake (.queue q) b) s (fun t => t.gdx.nodes = s.gdx.nodes ∧ t.aft = s.aft ∧ t.tbu = s.tbu ∧ t.exu = s.exu ∧
        t.get F.STALE_INPUT_COUNT = min (2 ^ 32 - 1) (s.get F.STALE_INPUT_COUNT + 1)))) ∧
  (∀ (b : Bool) (r : BitVec 9) (x : Ring) (i : RingItem) (g : Template) (b0 b1 k n p : Nat) (y : SlotInst) (z : NodeInst) (s : State),
    s.ring r.toNat = some x → x.head = some i → s.boundTpl 1 r.toNat = some (g, b0, b1) → b0.testBit 3 = false → s.gdx.lastCancel.2 = [] →
    s.GdxStill → s.instOf g.id x.tl (i.words.getD 1 0) = some k → s.inst k = some y → y.cancelled = false →
    s.itemPort k y 1 r.toNat (natBits (i.words.getD 2 0) 0 5) = some (n, p) → s.node n = some z → z.inst = k → z.st = .waiting →
    p < z.tokens.length → z.tokens.getD p none = none → (y.tpl.node z.node).flowMode ≠ 3 →
    Completes (.streamItemTake (.ring r) b) s (fun t =>
      t.node n = some { z with tokens := z.tokens.set p (some ⟨i.addr, 63, false, i.words.getD 3 0, natBits (i.words.getD 7 0) 0 14,
        natBits (i.words.getD 7 0) 16 16, .ring r.toNat i.index⟩) } ∧
      t.ring r.toNat = some { x with items := x.items.map (fun j => if j.index = i.index then { j with taken := true } else j) } ∧
      (∀ m, m ≠ n → t.node m = s.node m) ∧ RegsBut s t (.CANCEL_SAME_CYCLE :: gdxShown) ∧
      t = { s with regs := t.regs, gdx := t.gdx, host := t.host }))

/-- R128 to R131 for one ready node. -/
def Obligations.ReadyNodesAreDispatchedToChosenExecutors : Prop :=
  (∀ (c : Fin 10) (n a : Nat) (mv : Bool) (x : NodeInst) (y : SlotInst) (s : State),
    let r := y.tpl.node x.node
    s.flag F.GDX_CTRL_EN = true → s.readyOrder c = [(n, x)] → s.node n = some x → s.inst x.inst = some y → r.cls = c → r.paired = false →
    x.tie = false → x.poisonReplay = false → (2 ≤ r.level → s.get F.GDX_CLASS_RESERVE_RESERVE 0 c < s.freeCount c) →
    s.choose r x (s.candidates r x []) = some (a, mv) → s.poolsHave r 1 = true →
    (c.val ≠ 0 →
      Completes (.nodeDispatch c) s (fun t =>
        (∃ outs, t.node n = some { x with st := .running, runs := [⟨if x.replays = 0 then .first else .replay, a, outs, none⟩] } ∧
          outs.map (·.pool) = r.outPools) ∧
        (t.exec a).node = some n ∧ (t.exec a).done = none ∧ (mv = true → t.get F.GDX_CLASS_STATE_RR_PTR 0 c = execLocal a % 256) ∧
        t.get F.T_STATUS_BUSY (engInst c (execLocal a)) = 1 ∧ (∀ m, m ≠ n → t.node m = s.node m) ∧
        MemOut s t (r.outPools.map (fun p => (s.poolAddr p + 20, 8))) ∧
        RegsBut s t (gdxShown ++ [.GDX_CLASS_STATE, .GDX_HIST, .GDX_WAIT_MAX, .L0_OVER, .PWR_DOM_STATE, .T_STATUS, .T_DESC]))) ∧
    (c.val = 0 → ∀ k, s.vscInst a = some k →
      Completes (.nodeDispatch c) s (fun t =>
        (∃ outs, t.node n = some { x with st := .running, runs := [⟨if x.replays = 0 then .first else .replay, a, outs, none⟩] } ∧
          outs.map (·.pool) = r.outPools) ∧
        (t.exec a).node = some n ∧ (t.exec a).done = none ∧ t.get F.VSC_STATUS_BUSY k = 1 ∧
        (∃ z, t.core k = some z ∧ z.node = n ∧ z.exec = a ∧ z.ending = none ∧ z.pr = [(14, s.recordAddr k), (15, s.localBase k)] ∧
          ∀ kn, y.kernels.find? (fun q => q.id = natBits r.work 0 16) = some kn → z.kernel = kn ∧ z.pc = kn.entry) ∧
        (∀ m, m ≠ n → t.node m = s.node m) ∧
        MemOut s t ((s.recordAddr k, 272) :: r.outPools.map (fun p => (s.poolAddr p + 20, 8))) ∧
        RegsBut s t (gdxShown ++ [.GDX_CLASS_STATE, .GDX_HIST, .GDX_WAIT_MAX, .L0_OVER, .PWR_DOM_STATE, .VSC_STATUS])))) ∧
  (∀ (c : Fin 10) (s : State), s.flag F.GDX_CTRL_EN = false →
    Completes (.nodeDispatch c) s (fun t => t.gdx.nodes = s.gdx.nodes ∧ t.gdx.execs = s.gdx.execs ∧ RegsBut s t gdxShown ∧
      t = { s with regs := t.regs, gdx := t.gdx }))

/-- R132, R135, R136 and R143. -/
def Obligations.CompletionsReleaseReplayOrFail : Prop :=
  (∀ (e : BitVec 9) (i n : Nat) (k : RunKind) (c : Completion) (x : NodeInst) (y : SlotInst) (s : State),
    let r := y.tpl.node x.node
    s.GdxAlone i y n x → y.cancelled = false → x.st = .running → x.runs = [⟨k, e.toNat, [], none⟩] → x.discard = false → x.tie = false →
    x.poisonReplay = false → x.flow = none → x.outs = [] → r.nOut = 0 → x.tokens.all (·.isNone) = true →
    (s.exec e.toNat).node = some n → (s.exec e.toNat).done = some c →
    (c.code = 0 → Completes (.completionReport e) s (fun t => t.gdx.insts = [] ∧ t.gdx.nodes = [] ∧
      (t.exec e.toNat).node = none ∧ (t.exec e.toNat).out = (s.exec e.toNat).out ∧
      RegsBut s t (gdxShown ++ [.GDX_TELEM_WR, .GDX_TELEM_LOST]) ∧ MemOut s t [s.telemRange] ∧
      t = { s with regs := t.regs, mem := t.mem, gdx := t.gdx })) ∧
    (2 ≤ c.code → c.code ≤ 6 → execClass e.toNat ≠ 0 →
      (r.replayable = true → r.level ≤ 1 → x.replays < s.get F.GDX_CFG_REPLAY_MAX →
        Completes (.completionReport e) s (fun t => (t.exec e.toNat).out = true ∧ (t.exec e.toNat).node = none ∧
          (∃ z, t.node n = some z ∧ z.st = .ready ∧ z.replays = x.replays + 1 ∧ z.excluded = x.excluded ++ [e.toNat] ∧ z.runs = []) ∧
          t.get F.REPLAYS_COUNT = min (2 ^ 32 - 1) (s.get F.REPLAYS_COUNT + 1) ∧
          RegsBut s t (gdxShown ++ [.REPLAYS, .T_STATUS]) ∧ t = { s with regs := t.regs, gdx := t.gdx })) ∧
      (r.replayable = false →
        Completes (.completionReport e) s (fun t => (t.exec e.toNat).out = true ∧ t.gdx.insts = [] ∧ t.gdx.nodes = [] ∧
          t.get F.FAILED_COUNT = min (2 ^ 32 - 1) (s.get F.FAILED_COUNT + 1) ∧ t.aft = s.aft ∧ t.tbu = s.tbu ∧ t.exu = s.exu)))) ∧
  (∀ (e : BitVec 9) (cycles n : Nat) (x : NodeInst) (s : State), (s.exec e.toNat).node = some n → s.node n = some x →
    x.st = .completed (some e.toNat) → s.gdx.relbuf < 8192 → s.atHead x n = false → s.GdxStill →
    Completes (.releaseBufferEntryFree e cycles) s (fun t => t.node n = some { x with st := .completed none } ∧
      t.gdx.relbuf = s.gdx.relbuf + 1 ∧ (t.exec e.toNat).node = none ∧ (∀ m, m ≠ n → t.node m = s.node m) ∧
      t.get F.RELBUF_STALL_COUNT = min (2 ^ 32 - 1) (s.get F.RELBUF_STALL_COUNT + cycles) ∧
      RegsBut s t (.RELBUF_STALL :: gdxShown) ∧ t = { s with regs := t.regs, gdx := t.gdx })) ∧
  (∀ (r : BitVec 9) (cycles i n w0 w1 : Nat) (k : Token) (rg : Ring) (x : NodeInst) (y : SlotInst) (s : State), s.GdxAlone i y n x →
    y.cancelled = false → x.st = .sinkHold r.toNat → x.outs = [k] → 62 ≤ k.pool → x.runs = [] → x.flow = none →
    x.poisonReplay = false → x.tokens.all (·.isNone) = true → (y.tpl.node x.node).nOut = 1 →
    y.tpl.sink ((y.tpl.node x.node).outs.getD 0 0) = some (w0, w1) → natBits w0 0 3 = 2 → natBits w0 16 16 = r.toNat →
    s.ring r.toNat = some rg → s.ringDetached r.toNat = true →
    Completes (.ringSinkSpace r cycles) s (fun t => t.gdx.insts = [] ∧ t.gdx.nodes = [] ∧
      t.get F.SINK_FULL_COUNT = min (2 ^ 32 - 1) (s.get F.SINK_FULL_COUNT + cycles) ∧
      t.get F.MBX_RING_DETACH_DROP_DETACH_DROP 0 r.toNat = min (2 ^ 32 - 1) (s.get F.MBX_RING_DETACH_DROP_DETACH_DROP 0 r.toNat + 1) ∧
      RegsBut s t (gdxShown ++ [.SINK_FULL, .MBX_RING_DETACH_DROP, .GDX_TELEM_WR, .GDX_TELEM_LOST]) ∧ MemOut s t [s.telemRange] ∧
      t = { s with regs := t.regs, mem := t.mem, gdx := t.gdx }))

/-- R154, R155 and the RESERVE row of Table 4-19. -/
def Obligations.ReservesSnapshotsAndTelemetry : Prop :=
  (∀ (c : Fin 10) (v : Word) (s : State),
    (v.toNat % 256 < classActive c → Completes (.reserveWrite c v) s (fun t => t.get F.GDX_CLASS_RESERVE_RESERVE 0 c = v.toNat % 256 ∧
      FieldsBut s t [(F.GDX_CLASS_RESERVE_RESERVE, 0, c)] ∧ t = { s with regs := t.regs })) ∧
    (classActive c ≤ v.toNat % 256 → Completes (.reserveWrite c v) s (fun t =>
      t.get F.GDX_CLASS_RESERVE_RESERVE 0 c = classActive c - 1 ∧ t.get F.GDX_STATUS_OVERCOMMIT = 1 ∧
      FieldsBut s t [(F.GDX_CLASS_RESERVE_RESERVE, 0, c), (F.GDX_STATUS_OVERCOMMIT, 0, 0)] ∧ t = { s with regs := t.regs }))) ∧
  (∀ s : State,
    Completes (.gdxSnapHold true) s (fun t => t.gdx.snap = some (s.gdx.snap.getD (snapKeys.map (fun k => (k, s.rd k)))) ∧
      t.get F.GDX_SNAP_HOLD = 1 ∧ FieldsBut s t [(F.GDX_SNAP_HOLD, 0, 0)] ∧
      t = { s with regs := t.regs, gdx := { s.gdx with snap := t.gdx.snap } }) ∧
    Completes (.gdxSnapHold false) s (fun t => t.gdx.snap = none ∧ t.get F.GDX_SNAP_HOLD = 0 ∧ FieldsBut s t [(F.GDX_SNAP_HOLD, 0, 0)] ∧
      t = { s with regs := t.regs, gdx := { s.gdx with snap := none } })) ∧
  (∀ (r : Nat) (x : Ring) (s : State), s.host.telemRing = some r → s.ring r = some x → s.ringDetached r = false →
    s.get F.GDX_TELEM_WR_WR ≠ s.get F.GDX_TELEM_RD_RD → s.get F.GDX_TELEM_SIZE_SIZE ≠ 0 →
    (s.ringHasRoom r = true → x.inHost = true →
      Completes .telemetryCopy s (fun t => t.get F.GDX_TELEM_RD_RD = (s.get F.GDX_TELEM_RD_RD + 1) % 2 ^ 16 ∧
        .hostWrite x.func (x.base + s.get F.MBX_RING_TAIL_TAIL 0 r % x.entries * 64)
          (s.bytes (sramBase + s.get F.GDX_TELEM_BASE_BASE + s.get F.GDX_TELEM_RD_RD % s.get F.GDX_TELEM_SIZE_SIZE * 64) 64) ∈ t.out ∧
        t.get F.MBX_RING_TAIL_TAIL 0 r = (s.get F.MBX_RING_TAIL_TAIL 0 r + 1) % 2 ^ 32 ∧ t.gdx = s.gdx)) ∧
    (s.ringHasRoom r = false →
      Completes .telemetryCopy s (fun t => t.get F.GDX_TELEM_RD_RD = (s.get F.GDX_TELEM_RD_RD + 1) % 2 ^ 16 ∧
        t.get F.GDX_TELEM_LOST_COUNT = min (2 ^ 32 - 1) (s.get F.GDX_TELEM_LOST_COUNT + 1) ∧
        FieldsBut s t [(F.GDX_TELEM_RD_RD, 0, 0), (F.GDX_TELEM_LOST_COUNT, 0, 0)] ∧ t = { s with regs := t.regs }))) ∧
  (∀ s : State, s.host.telemRing = none → exec .telemetryCopy s = .next s)

/-- R165, R166 and R180 (State.Issues and State.Unbound say when). -/
def Obligations.BundlesComputeAndBranch : Prop :=
  (∀ (k : BitVec 8) (st sq : Nat) (c : VscCore) (o : VOp) (b : Bundle) (v : Nat) (s : State), s.Issues k.toNat c b → b.ctl = 0 → b.ops = [o] →
    o.slot < 2 → o.pen = false →
    (o.opc = 1 ∧ v = (c.s o.sA + c.s o.sB) % 2 ^ 32 ∨ o.opc = 2 ∧ v = (c.s o.sA + 2 ^ 32 - c.s o.sB) % 2 ^ 32 ∨
      o.opc = 3 ∧ v = c.s o.sA &&& c.s o.sB ∨ o.opc = 4 ∧ v = c.s o.sA ||| c.s o.sB ∨ o.opc = 5 ∧ v = c.s o.sA ^^^ c.s o.sB ∨
      o.opc = 9 ∧ v = c.s o.sA * c.s o.sB % 2 ^ 32) →
    Completes (.bundleIssue k st sq) s (fun t => t.core k.toNat = some { c with sr := Tab.set c.sr o.sD v, pc := c.pc + 8 } ∧
      (∀ j, j ≠ k.toNat → t.core j = s.core j) ∧ RegsBut s t [.VSC_STATUS, .VSC_STALL, .VSC_STICKY] ∧
      t = { s with regs := t.regs, exu := t.exu })) ∧
  (∀ (k : BitVec 8) (st sq : Nat) (c z : VscCore) (b : Bundle) (s : State), s.Issues k.toNat c b → b.ops = [] →
    (b.ctl = 1 ∧ z = { c with pc := b.dest c.pc } ∨
      b.ctl = 2 ∧ z = { c with pc := if (c.q b.csel).testBit 0 then b.dest c.pc else c.pc + 4 } ∨
      b.ctl = 3 ∧ c.stack.length < 8 ∧ z = { c with pc := b.dest c.pc, stack := (c.pc + 4) :: c.stack } ∨
      b.ctl = 4 ∧ (∃ a, c.stack = a :: z.stack ∧ z = { c with pc := a, stack := z.stack }) ∨
      b.ctl = 5 ∧ (∃ n ec, Tab.get (0, 0) c.lc b.csel = (n, ec) ∧
        z = { c with lc := Tab.set c.lc b.csel (n - 1, ec), pc := if 1 < n then b.dest c.pc else c.pc + 4 })) →
    Completes (.bundleIssue k st sq) s (fun t => t.core k.toNat = some z ∧ (∀ j, j ≠ k.toNat → t.core j = s.core j) ∧
      RegsBut s t [.VSC_STATUS, .VSC_STALL, .VSC_STICKY] ∧ t = { s with regs := t.regs, exu := t.exu })) ∧
  (∀ (k : BitVec 8) (st sq : Nat) (c : VscCore) (b : Bundle) (s : State), s.Issues k.toNat c b → b.ops = [] → b.ctl = 7 →
    s.Unbound k.toNat c →
    Completes (.bundleIssue k st sq) s (fun t => t.core k.toNat = none ∧ t.get F.VSC_STATUS_BUSY k.toNat = 0 ∧
      (t.exec c.exec).done = some ⟨0, 0, 0, s.outWords (s.recordAddr k.toNat)⟩ ∧ (∀ j, j ≠ k.toNat → t.core j = s.core j) ∧
      RegsBut s t (mxcShown ++ [.VSC_STATUS, .VSC_STALL, .VSC_STICKY, .MXC_SQUASHED]) ∧
      t = { s with regs := t.regs, exu := t.exu, gdx := t.gdx, pwr := t.pwr }))

/-- R171, R172 and R174 for one operation each. -/
def Obligations.BundlesMoveVectorsAndMemory : Prop :=
  ∀ (k : BitVec 8) (st sq : Nat) (c : VscCore) (o : VOp) (b : Bundle) (s : State), s.Issues k.toNat c b → b.ctl = 0 → b.ops = [o] → o.pen = false →
    (o.slot = 5 → (o.opc = 0x40 ∨ o.opc = 0x41) →
      let x (j : Nat) : Int := if o.opc = 0x40 then c.elem o.vA j + c.elem o.vB j else c.elem o.vA j - c.elem o.vB j
      Completes (.bundleIssue k st sq) s (fun t => (∃ z, t.core k.toNat = some z ∧ z.pc = c.pc + 8 ∧
          (∀ j, j < 64 → z.elem o.vD j = max (-32768) (min 32767 (x j))) ∧
          (∀ n i, c.phys n ≠ c.phys o.vD → z.v n i = c.v n i) ∧ z.sr = c.sr ∧ z.pr = c.pr ∧ z.ar = c.ar ∧ z.qr = c.qr ∧
          (z.flags.testBit 16 = true ↔ c.flags.testBit 16 = true ∨ ∃ j, j < 64 ∧ (x j < -32768 ∨ 32767 < x j))) ∧
        RegsBut s t [.VSC_STATUS, .VSC_STALL, .VSC_STICKY] ∧ t = { s with regs := t.regs, exu := t.exu })) ∧
    (o.slot = 4 → o.opc = 0x34 → c.kmode = 0 →
      Completes (.bundleIssue k st sq) s (fun t => (∃ z, t.core k.toNat = some z ∧ z.pc = c.pc + 8 ∧
          (∀ j, j < 64 → z.accInt (o.vD % 8) j =
            max (-(2 ^ 47)) (min (2 ^ 47 - 1) (c.accInt (o.vD % 8) j + c.elem o.vA j * c.elem o.vB j))) ∧
          (∀ n j, n ≠ o.vD % 8 → z.acc n j = c.acc n j) ∧ z.sr = c.sr ∧ z.pr = c.pr ∧ z.vr = c.vr ∧ z.qr = c.qr) ∧
        RegsBut s t [.VSC_STATUS, .VSC_STALL, .VSC_STICKY] ∧ t = { s with regs := t.regs, exu := t.exu })) ∧
    ((o.slot = 2 ∨ o.slot = 3) → o.amode = 0 → c.region o.ptr = none → s.memx.chk = [] →
      let a := ptrAdd (c.p o.ptr) (4 * o.imm9)
      a % 4 = 0 → coreReach (vscCluster k.toNat) (a, 4) = true → bmvPages (vscCluster k.toNat) a = false →
      (o.opc = 0x23 → s.flag F.ECC_INJ_ARM = false → storeAllowed (vscCluster k.toNat) (s.recordAddr k.toNat) (a, 4) = true →
        Completes (.bundleIssue k st sq) s (fun t => t.word a = c.s (o.reg % 32) % 2 ^ 32 ∧ MemBut s t a 4 ∧
          t.core k.toNat = some { c with pc := c.pc + 8 } ∧ RegsBut s t [.VSC_STATUS, .VSC_STALL, .VSC_STICKY])) ∧
      (o.opc = 0x22 →
        Completes (.bundleIssue k st sq) s (fun t =>
          t.core k.toNat = some { c with sr := Tab.set c.sr (o.reg % 32) (s.word a), pc := c.pc + 8 } ∧ SameMem s t ∧
          RegsBut s t [.VSC_STATUS, .VSC_STALL, .VSC_STICKY])))

/-- R161, R185, R186 and R192. -/
def Obligations.CoreCachesWatchdogsAndFaults : Prop :=
  (∀ (k : BitVec 8) (c : VscCore) (l : Nat) (ls : List Nat) (s : State), s.core k.toNat = some c → s.missing k.toNat c = l :: ls →
    s.poisoned l 256 = false →
    Completes (.icacheFill k) s (fun t => l ∈ t.icache k.toNat ∧ l + 256 ∈ t.icache k.toNat ∧
      (∀ j, j ≠ k.toNat → t.icache j = s.icache j) ∧ t.exu.vsc = s.exu.vsc ∧ t = { s with exu := t.exu, free := t.free })) ∧
  (∀ (k : BitVec 8) (s : State), (s.core k.toNat = none → Completes (.icacheInv k) s (fun t => t.icache k.toNat = [] ∧
      (∀ j, j ≠ k.toNat → t.icache j = s.icache j) ∧ t = { s with exu := { s.exu with icache := t.exu.icache } })) ∧
    ((s.core k.toNat).isSome = true → exec (.icacheInv k) s = .next s)) ∧
  (∀ (k : BitVec 8) (c : VscCore) (s : State), s.Unbound k.toNat c →
    Completes (.runWatchdog k) s (fun t => t.core k.toNat = none ∧ t.get F.VSC_STATUS_BUSY k.toNat = 0 ∧
      (∃ ws, (t.exec c.exec).done = some ⟨1, 7, 0, ws⟩) ∧
      (s.flag F.VSC_FAULT_VALID k.toNat = false → t.get F.VSC_FAULT_CAUSE k.toNat = 7 ∧ t.get F.VSC_FAULT_CODE k.toNat = 1 ∧
        t.get F.VSC_FAULT_VALID k.toNat = 1) ∧
      RegsBut s t (mxcShown ++ [.VSC_STATUS, .VSC_FAULT, .VSC_FAULT_PC]) ∧
      t = { s with regs := t.regs, exu := t.exu, gdx := t.gdx, pwr := t.pwr })) ∧
  (∀ (k : BitVec 8) (c : VscCore) (kind : VscFaultKind) (code cause reason : Nat) (s : State), s.Unbound k.toNat c →
    (kind = .residue ∧ code = 2 ∧ cause = 0x10 ∧ reason = 0 ∨ kind = .parity ∧ code = 3 ∧ cause = 0x11 ∧ reason = 0 ∨
      kind = .ecc ∧ code = 4 ∧ cause = 0x12 ∧ reason = 0 ∨ (∃ a, kind = .bus a) ∧ code = 6 ∧ cause = 0x13 ∧ reason = 0 ∨
      kind = .fetch ∧ code = 6 ∧ cause = 0x15 ∧ reason = 0 ∨ (∃ p a, kind = .poisonIn p a ∧ reason = p) ∧ code = 7 ∧ cause = 0x16) →
    Completes (.vscHardwareFault k kind) s (fun t => t.core k.toNat = none ∧ t.get F.VSC_STATUS_BUSY k.toNat = 0 ∧
      (∃ ws, (t.exec c.exec).done = some ⟨code, cause, reason, ws⟩) ∧
      (s.flag F.VSC_FAULT_VALID k.toNat = false → t.get F.VSC_FAULT_CAUSE k.toNat = cause ∧ t.get F.VSC_FAULT_CODE k.toNat = code ∧
        t.get F.VSC_FAULT_VALID k.toNat = 1) ∧
      (∀ j, j ≠ k.toNat → t.core j = s.core j) ∧ t.aft = s.aft ∧ t.tbu = s.tbu ∧ t.out = s.out))

/-- R197, R201, R214 and R215. -/
def Obligations.CoprocessorLocksOperatesAndLeavesService : Prop :=
  (∀ (c : Fin 24) (w : Nat) (o : MxOwner) (ws : List MxOwner) (s : State), (s.mx c).lock = none → (s.mx c).waiters = o :: ws →
    Completes (.mxcLockGrant c w) s (fun t => (t.mx c).lock = some o ∧ (t.mx c).waiters = ws.filter (· ≠ o) ∧ (t.mx c).st = (s.mx c).st ∧
      t.get F.MXC_STATUS_LOCKED c = 1 ∧ t.get F.MXC_LOCK_WAIT_LOCK_WAIT c = min (2 ^ 32 - 1) (s.get F.MXC_LOCK_WAIT_LOCK_WAIT c + w) ∧
      RegsBut s t (.MXC_LOCK_WAIT :: mxcShown) ∧ t = { s with regs := t.regs, exu := t.exu })) ∧
  (∀ (c : Fin 24) (o : MxOwner) (p : MxOp) (ps : List MxOp) (s : State), (s.mx c).lock = some o → (s.mx c).queue = p :: ps →
    (∀ z, s.core o.inst = some z → z.ending = none) →
    (p.opc = 0x61 → Completes (.mxcOpExecute c) s (fun t => (t.mx c).lock = none ∧ (t.mx c).queue = ps ∧ (t.mx c).st = (s.mx c).st ∧
      t.get F.MXC_STATUS_LOCKED c = 0 ∧ RegsBut s t mxcShown ∧ t = { s with regs := t.regs, exu := t.exu })) ∧
    ((s.mx c).switched = true → s.flag F.MXC_CTRL_INJ_RESIDUE c = false → s.flag F.MXC_CTRL_INJ_PARITY c = false →
      (p.opc = 0x62 → Completes (.mxcOpExecute c) s (fun t => (t.mx c).lock = some o ∧ (t.mx c).queue = ps ∧
        (t.mx c).st = { (s.mx c).st with md := Tab.set (s.mx c).st.md (p.d % 8) p.sval } ∧
        RegsBut s t (.MXC_BUSY :: mxcShown) ∧ t = { s with regs := t.regs, exu := t.exu })) ∧
      (∀ d a b, p.opc = 0x65 → p.x = 0 → Tab.get 0 (s.mx c).st.md (p.d % 8) = d → Tab.get 0 (s.mx c).st.md (p.a % 8) = a →
        Tab.get 0 (s.mx c).st.md (p.b % 8) = b → (∀ m ∈ [d, a, b], mdFp m = false ∧ mdRows m = 1 ∧ mdCols m = 1) →
        let x := (s.mx c).st.int a 0 0
        let y := (s.mx c).st.int b 0 0
        Completes (.mxcOpExecute c) s (fun t => (t.mx c).queue = ps ∧
          (t.mx c).st.int d 0 0 = ((narrow16 (x.1 * y.1 - x.2 * y.2) (mdShift d)).1, (narrow16 (x.1 * y.2 + x.2 * y.1) (mdShift d)).1) ∧
          (∀ q, q ≠ mdPlace d 0 0 → Tab.get (0, 0) (t.mx c).st.elems q = Tab.get (0, 0) (s.mx c).st.elems q) ∧
          RegsBut s t (.MXC_BUSY :: mxcShown) ∧ t = { s with regs := t.regs, exu := t.exu })))) ∧
  (∀ (c : Fin 24) (kind : MxcFaultKind) (o : MxOwner) (s : State), (s.mx c).lock = some o →
    Completes (.mxcFault c kind) s (fun t => (t.mx c).lock = none ∧ (t.mx c).queue = [] ∧ (t.mx c).waiters = [] ∧ (t.mx c).live = false ∧
      t.get F.MXC_STATUS_IN_SERVICE c = 0 ∧ t.get F.MXC_CTRL_SERVICE c = 0 ∧
      (s.flag F.MXC_FAULT_VALID c = false → t.get F.MXC_FAULT_VALID c = 1 ∧ t.get F.MXC_FAULT_POS c = o.pos % 16 ∧
        t.get F.MXC_FAULT_CAUSE c = (match kind with | .residue => 0x30 | .parity => 0x31 | .bus => 0x33)))) ∧
  (∀ (c : Fin 24) (s : State),
    Completes (.mxcServiceWrite c true) s (fun t => t.get F.MXC_CTRL_SERVICE c = 1 ∧ t.get F.MXC_STATUS_IN_SERVICE c = 1 ∧
      (t.mx c).removing = false ∧ (t.mx c).lock = (s.mx c).lock ∧ RegsBut s t (.MXC_CTRL :: mxcShown) ∧
      t = { s with regs := t.regs, exu := t.exu }) ∧
    Completes (.mxcServiceWrite c false) s (fun t => t.get F.MXC_CTRL_SERVICE c = 0 ∧
      t.get F.MXC_STATUS_IN_SERVICE c = s.get F.MXC_STATUS_IN_SERVICE c ∧ (t.mx c).removing = s.flag F.MXC_STATUS_IN_SERVICE c ∧
      (t.mx c).lock = (s.mx c).lock ∧ RegsBut s t (.MXC_CTRL :: mxcShown) ∧ t = { s with regs := t.regs, exu := t.exu }) ∧
    ((s.mx c).removing = true → s.mxUsed c = false → Completes (.mxcRemovalComplete c) s (fun t =>
      t.get F.MXC_STATUS_IN_SERVICE c = 0 ∧ (t.mx c).removing = false ∧ (t.mx c).live = false ∧ RegsBut s t mxcShown ∧
      t = { s with regs := t.regs, exu := t.exu })) ∧
    ((s.mx c).removing = false ∨ s.mxUsed c = true → exec (.mxcRemovalComplete c) s = .next s))

/-- R218 and R222 to R227 for all 21 operations; what an operation computes is State.engYield. -/
def Obligations.EngineJobsWriteTheirResult : Prop :=
  ∀ x ∈ engRows21, ∀ (k : BitVec 8) (cycles busy : Nat) (j : EngJob) (s : State),
    let c := x.1
    let op := x.2.1
    let i := engInst c k.toNat
    k.toNat < classActive c + classBench c → s.EngHolds i c op j →
    (let o := s.engYield i c op
      let bytes := (o.header op cycles false).flatMap (natLe 4) ++ o.data
      s.EngPasses i c op j → (s.engOut i 1).addr = 0 → bytes.length ≤ s.poolSize (s.engOut i 0).pool →
      Completes (x.2.2 k cycles busy) s (fun t =>
        (∃ ws, (t.exec j.exec).done = some ⟨0, 0, 0, ws⟩ ∧ (ws.getD 0 (0, 0, 0)).1 = bytes.length) ∧ Tab.find t.exu.jobs i = none ∧
        t.bytes (s.engOut i 0).addr bytes.length = bytes ∧ t.word (s.engOut i 0).addr = op + o.items % 2 ^ 16 * 2 ^ 16 ∧
        t.word ((s.engOut i 0).addr + 12) = cycles % 2 ^ 32 ∧
        t.get F.T_STATUS_BUSY i = 0 ∧ t.get F.T_STATUS_OP i = op ∧ t.get F.T_JOBS_JOBS i = min (2 ^ 32 - 1) (s.get F.T_JOBS_JOBS i + 1) ∧
        MemOut s t (((s.engOut i 0).addr, bytes.length) :: o.stores.map (fun q => (q.1, q.2.length))) ∧
        RegsBut s t [.T_STATUS, .T_ITEMS, .T_FAIL, .T_AUX, .T_BUSY, .T_JOBS])) ∧
    (∀ w b, (engChecks c op (s.par i)).find? (fun q => !q.2) = some (w, b) →
      Completes (x.2.2 k cycles busy) s (fun t => (∃ ws, (t.exec j.exec).done = some ⟨1, 1, w, ws⟩) ∧ Tab.find t.exu.jobs i = none ∧
        t.get F.T_STATUS_BUSY i = 0 ∧ (s.flag F.T_FAULT_VALID i = false → t.get F.T_FAULT_CAUSE i = 1 ∧ t.get F.T_FAULT_CODE i = 1) ∧
        RegsBut s t [.T_STATUS, .T_BUSY, .T_FAULT] ∧ t = { s with regs := t.regs, exu := t.exu, gdx := t.gdx, pwr := t.pwr }))
-- covers: lddDecode cenLdpc cenPolar cenTurbo trdDecode pldDecodeUl pldDecodeDl fxeRx fxeTx fxeTpdft fxeTpidft mdeDetect mdeMmse mdeMmseIrc mdeCalEst mdeDemap bwaPrecode bwaCombine prdDetect hceCombine hceStore

/-- R217 and R228. -/
def Obligations.EnginesFaultAndAreRemapped : Prop :=
  (∀ (c : Fin 10) (k : BitVec 8) (j : EngJob) (busy : Nat) (s : State), 1 ≤ c.val → k.toNat < classActive c + classBench c →
    Tab.find s.exu.jobs (engInst c k.toNat) = some j → s.mapWaits c = [] →
    Completes (.engineWatchdog c k busy) s (fun t => (∃ ws, (t.exec j.exec).done = some ⟨1, 5, 0, ws⟩) ∧
      Tab.find t.exu.jobs (engInst c k.toNat) = none ∧ t.get F.T_STATUS_BUSY (engInst c k.toNat) = 0 ∧
      RegsBut s t [.T_STATUS, .T_BUSY, .T_FAULT] ∧ t = { s with regs := t.regs, exu := t.exu, gdx := t.gdx, pwr := t.pwr }) ∧
    ∀ (kind : EngineFaultKind) (code cause reason : Nat),
      (kind = .residue ∧ 5 ≤ c.val ∧ c.val ≤ 7 ∧ code = 2 ∧ cause = 0x10 ∧ reason = 0 ∨ kind = .parity ∧ code = 3 ∧ cause = 0x11 ∧ reason = 0 ∨
        kind = .ecc ∧ code = 4 ∧ cause = 0x12 ∧ reason = 0 ∨ kind = .stageCrc ∧ code = 5 ∧ cause = 0x13 ∧ reason = 0 ∨
        (∃ a, kind = .bus a) ∧ code = 6 ∧ cause = 0x14 ∧ reason = 0 ∨ (∃ p a, kind = .poisonIn p a ∧ reason = p) ∧ code = 7 ∧ cause = 0x15) →
      Completes (.engineHardwareFault c k kind busy) s (fun t => (∃ ws, (t.exec j.exec).done = some ⟨code, cause, reason, ws⟩) ∧
        Tab.find t.exu.jobs (engInst c k.toNat) = none ∧ t.get F.T_STATUS_BUSY (engInst c k.toNat) = 0 ∧
        (s.flag F.T_FAULT_VALID (engInst c k.toNat) = false → t.get F.T_FAULT_CAUSE (engInst c k.toNat) = cause ∧
          t.get F.T_FAULT_CODE (engInst c k.toNat) = code) ∧ t.out = s.out ∧ t.aft = s.aft ∧ t.tbu = s.tbu)) ∧
  (∀ (c : Fin 10) (k p : BitVec 8) (s : State), 1 ≤ c.val → k.toNat < classActive c + classBench c →
    let i := engInst c k.toNat
    let old := s.get F.T_CTRL_MAP_PHYS i
    (engCount c ≤ p.toNat ∨ s.retired (2 + c) p.toNat = true → exec (.engineMapPhysWrite c k p) s = .next s) ∧
    (p.toNat < engCount c → s.retired (2 + c) p.toNat = false → s.mapWaits c = [] →
      (s.engIdle c p.toNat = true → s.engIdle c old = true →
        Completes (.engineMapPhysWrite c k p) s (fun t => t.get F.T_CTRL_MAP_PHYS i = p.toNat ∧ t.get F.T_STATUS_PHYS i = p.toNat ∧
          t.get F.T_STATUS_ROW i = rowOfPhys (engRows c) p.toNat ∧ t.get F.T_STATUS_MAP_PENDING i = 0 ∧ t.mapWaits c = [] ∧
          (t.exec (engExec c k.toNat)).out = false ∧ RegsBut s t [.T_CTRL, .T_STATUS] ∧
          t = { s with regs := t.regs, exu := t.exu, gdx := t.gdx })) ∧
      (s.engIdle c p.toNat = false ∨ s.engIdle c old = false →
        Completes (.engineMapPhysWrite c k p) s (fun t => t.get F.T_CTRL_MAP_PHYS i = old ∧ t.get F.T_STATUS_MAP_PENDING i = 1 ∧
          t.mapWaits c = [(i, p.toNat)] ∧ FieldsBut s t [(F.T_STATUS_MAP_PENDING, i, 0)] ∧ t = { s with regs := t.regs, exu := t.exu }))) ∧
    (s.exu.mapPhys = [(i, p.toNat)] → s.engIdle c p.toNat = true → s.engIdle c old = true →
      Completes (.engineMapApply c k) s (fun t => t.get F.T_CTRL_MAP_PHYS i = p.toNat ∧ t.get F.T_STATUS_MAP_PENDING i = 0 ∧
        t.exu.mapPhys = [] ∧ RegsBut s t [.T_CTRL, .T_STATUS] ∧ t = { s with regs := t.regs, exu := t.exu, gdx := t.gdx })))

/-- R290, R293, R294 and R307. -/
def Obligations.BlockMoversClaimStartAndStop : Prop :=
  (∀ (v : BitVec 8) (ch : Fin 8) (c : VscCore) (s : State), s.core v.toNat = some c →
    (c.ending = none → s.bmvHeld (vscCluster v.toNat) ch = false → s.flag F.BMV_CH_STATUS_OUT (vscCluster v.toNat) ch = false →
      Completes (.bmvChClaim v ch) s (fun t => t.bmvHeld (vscCluster v.toNat) ch = true ∧
        t.get F.BMV_CH_OWNER_POS (vscCluster v.toNat) ch = s.vscPos v.toNat % 16 ∧
        t.get F.BMV_CH_OWNER_NODE_INST_ID (vscCluster v.toNat) ch = c.node % 2 ^ 16 ∧
        FieldsBut s t [(F.BMV_CH_OWNER_HELD, vscCluster v.toNat, ch), (F.BMV_CH_OWNER_POS, vscCluster v.toNat, ch),
          (F.BMV_CH_OWNER_NODE_INST_ID, vscCluster v.toNat, ch)] ∧ t = { s with regs := t.regs })) ∧
    (s.bmvHeld (vscCluster v.toNat) ch = true ∨ s.flag F.BMV_CH_STATUS_OUT (vscCluster v.toNat) ch = true →
      exec (.bmvChClaim v ch) s = .next s)) ∧
  (∀ (e : Fin 32) (ch : Fin 8) (s : State),
    (s.flag F.BMV_CH_STATUS_SH_VALID e ch = true → Completes (.bmvGo .steward e ch) s (fun t => t.get F.BMV_CH_STATUS_SH_BUSY e ch = 1 ∧
      FieldsBut s t [(F.BMV_CH_STATUS_SH_BUSY, e, ch)] ∧ t = { s with regs := t.regs })) ∧
    (s.flag F.BMV_CH_STATUS_SH_VALID e ch = false → s.bmvRefuses e ch = true → Completes (.bmvGo .steward e ch) s (fun t =>
      t.get F.BMV_CH_STATUS_REFUSED e ch = 1 ∧ t.get F.BMV_CH_STATUS_SH_VALID e ch = 0 ∧
      FieldsBut s t [(F.BMV_CH_STATUS_REFUSED, e, ch)] ∧ t = { s with regs := t.regs })) ∧
    (s.flag F.BMV_CH_STATUS_SH_VALID e ch = false → s.bmvRefuses e ch = false → s.bmvState e ch = 0 →
      Completes (.bmvGo .steward e ch) s (fun t => t.bmvState e ch = 1 ∧ t.get F.BMV_CH_STATUS_SH_VALID e ch = 0 ∧
        t.get F.BMV_CH_REMAINING_REMAINING e ch = s.get F.BMV_SH_LEN_LEN e ch ∧ t.get F.BMV_CH_DONE_BYTES_DONE_BYTES e ch = 0 ∧
        t.rd ⟨.BMV_ACT_SRC_LO, e, ch⟩ = s.rd ⟨.BMV_SH_SRC_LO, e, ch⟩ ∧ t.rd ⟨.BMV_ACT_SRC_HI, e, ch⟩ = s.rd ⟨.BMV_SH_SRC_HI, e, ch⟩ ∧
        t.rd ⟨.BMV_ACT_DST_LO, e, ch⟩ = s.rd ⟨.BMV_SH_DST_LO, e, ch⟩ ∧ t.rd ⟨.BMV_ACT_DST_HI, e, ch⟩ = s.rd ⟨.BMV_SH_DST_HI, e, ch⟩ ∧
        t.rd ⟨.BMV_ACT_LEN, e, ch⟩ = s.rd ⟨.BMV_SH_LEN, e, ch⟩ ∧ t.rd ⟨.BMV_ACT_CFG, e, ch⟩ = s.rd ⟨.BMV_SH_CFG, e, ch⟩ ∧
        t.rd ⟨.BMV_ACT_FILL, e, ch⟩ = s.rd ⟨.BMV_SH_FILL, e, ch⟩ ∧ (t.bch e ch).outst = [] ∧
        RegsBut s t [.BMV_ACT_SRC_LO, .BMV_ACT_SRC_HI, .BMV_ACT_DST_LO, .BMV_ACT_DST_HI, .BMV_ACT_LEN, .BMV_ACT_CFG, .BMV_ACT_FILL,
          .BMV_CH_STATUS, .BMV_CH_REMAINING, .BMV_CH_DONE_BYTES, .BMV_CH_ERR_SRC_LO, .BMV_CH_ERR_DST_LO, .BMV_CH_ERR_HI, .BMV_CH_ERR_LEN,
          .BMV_ENG_STATUS] ∧ t = { s with regs := t.regs, exu := t.exu })) ∧
    (s.flag F.BMV_CH_STATUS_SH_VALID e ch = false → s.bmvRefuses e ch = false → s.bmvState e ch = 1 →
      Completes (.bmvGo .steward e ch) s (fun t => t.bmvState e ch = 1 ∧ t.get F.BMV_CH_STATUS_SH_VALID e ch = 1 ∧
        t.get F.BMV_CH_REMAINING_REMAINING e ch = s.get F.BMV_CH_REMAINING_REMAINING e ch ∧
        RegsBut s t [.BMV_CH_STATUS, .BMV_CH_ERR_SRC_LO, .BMV_CH_ERR_DST_LO, .BMV_CH_ERR_HI, .BMV_CH_ERR_LEN, .BMV_ENG_STATUS] ∧
        t = { s with regs := t.regs }))) ∧
  (∀ (e : Fin 32) (ch : Fin 8) (s : State), 24 ≤ e.val → s.flag F.BMV_ENG_STATUS_MAP_PENDING e = false →
    (s.bmvState e ch = 2 → Completes (.bmvClear .steward e ch) s (fun t => t.bmvState e ch = 0 ∧ t.get F.BMV_CH_STATUS_SH_VALID e ch = 0 ∧
      t.get F.BMV_CH_STATUS_ERR e ch = s.get F.BMV_CH_STATUS_ERR e ch ∧ RegsBut s t [.BMV_CH_STATUS, .BMV_ENG_STATUS] ∧
      t = { s with regs := t.regs, exu := t.exu })) ∧
    (s.bmvState e ch ≠ 2 → exec (.bmvClear .steward e ch) s = .next s) ∧
    (s.bmvState e ch = 1 → Completes (.bmvStop .steward e ch) s (fun t =>
      ((s.bch e ch).outst = [] → t.bmvState e ch = 0 ∧ t.get F.BMV_CH_STATUS_SH_VALID e ch = 0) ∧
      ((s.bch e ch).outst ≠ [] → t.bmvState e ch = 3 ∧ (t.bch e ch).outst = (s.bch e ch).outst) ∧
      t.get F.BMV_CH_STATUS_DONE e ch = s.get F.BMV_CH_STATUS_DONE e ch ∧ RegsBut s t [.BMV_CH_STATUS, .BMV_ENG_STATUS] ∧
      t = { s with regs := t.regs, exu := t.exu })))

/-- R295 to R308 for one burst. -/
def Obligations.BlockMoversMoveBurstsExactly : Prop :=
  ∀ (e : Fin 32) (ch : Fin 8) (s : State),
    (∀ cycles waited, s.bmvState e ch = 1 → s.get F.BMV_CH_REMAINING_REMAINING e ch ≠ 0 → (s.bch e ch).failed = [] → (s.bch e ch).diff = false →
      s.get F.BMV_ACT_CFG_REQ_SEL e ch = 0 → s.flag F.BMV_ENG_INJ_ARM e = false → (s.bch e ch).outst.length < 32 → s.engOutstanding e < 64 →
      2 * (s.nextBurst e ch).len ≤ s.burstBytes e ch * 2 → 2 * (s.nextBurst e ch).len ≤ (s.bch e ch).credit →
      Completes (.bmvBurstIssue e ch cycles waited) s (fun t => (t.bch e ch).outst = (s.bch e ch).outst ++ [s.nextBurst e ch] ∧
        t.get F.BMV_CH_REMAINING_REMAINING e ch = s.get F.BMV_CH_REMAINING_REMAINING e ch - (s.nextBurst e ch).len ∧
        t.get F.BMV_CH_STATUS_WAIT_REQ e ch = 0 ∧ t.bmvState e ch = 1 ∧
        RegsBut s t [.BMV_CH_REMAINING, .BMV_ENG_BYTES, .BMV_CH_STATUS, .BMV_CH_REQ_WAIT] ∧ t = { s with regs := t.regs, exu := t.exu })) ∧
    (∀ (b : Burst) (host : List Byte), 24 ≤ e.val → s.bmvState e ch = 1 → s.bch e ch = ⟨(s.bch e ch).credit, [b], [], false⟩ →
      s.flag F.BMV_ENG_STATUS_MAP_PENDING e = false → s.memx.chk = [] → s.flag F.ECC_INJ_ARM = false →
      let src := s.actSrc e ch + b.off
      let dst := s.actDst e ch + b.off
      hostAddr src = false → hostAddr dst = false → s.bmvReaches e ch b = true → s.get F.BMV_ACT_CFG_MODE e ch ≤ 1 →
      Completes (.bmvBurstComplete e ch 0 host) s (fun t =>
        (s.get F.BMV_ACT_CFG_MODE e ch = 0 → t.bytes dst b.len = s.bytes src b.len) ∧
        (s.get F.BMV_ACT_CFG_MODE e ch = 1 → t.bytes dst b.len =
          (List.range b.len).map (fun j => (natLe 4 (s.get F.BMV_ACT_FILL_FILL e ch)).getD ((b.off + j) % 4) 0)) ∧
        MemBut s t dst b.len ∧
        (s.get F.BMV_CH_REMAINING_REMAINING e ch = 0 → s.flag F.BMV_CH_STATUS_SH_VALID e ch = false →
          s.flag F.BMV_ACT_CFG_CYCLIC e ch = false → t.bmvState e ch = 0 ∧ t.get F.BMV_CH_STATUS_DONE e ch = 1 ∧
          t.get F.BMV_CH_DONE_BYTES_DONE_BYTES e ch =
            (s.get F.BMV_CH_DONE_BYTES_DONE_BYTES e ch + b.len) % 2 ^ F.BMV_CH_DONE_BYTES_DONE_BYTES.len) ∧
        (s.get F.BMV_CH_REMAINING_REMAINING e ch ≠ 0 → t.bmvState e ch = 1 ∧ (t.bch e ch).outst = []))) ∧
    (∀ b : Burst, 24 ≤ e.val → s.bmvState e ch = 1 → s.bch e ch = ⟨(s.bch e ch).credit, [b], [], false⟩ →
      (b.tries < s.get F.BMV_ACT_CFG_RETRY_MAX e ch →
        Completes (.bmvBusError e ch 0) s (fun t => (t.bch e ch).outst = [{ b with tries := b.tries + 1 }] ∧ t.bmvState e ch = 1 ∧
          FieldsBut s t [(F.BMV_CH_STATUS_RETRIES, e, ch)] ∧ t = { s with regs := t.regs, exu := t.exu })) ∧
      (s.get F.BMV_ACT_CFG_RETRY_MAX e ch ≤ b.tries →
        Completes (.bmvBusError e ch 0) s (fun t => t.bmvState e ch = 2 ∧
          t.get F.BMV_CH_STATUS_ERR e ch = (if s.get F.BMV_CH_REMAINING_REMAINING e ch = 0 then 2 else 1) ∧
          t.get F.BMV_CH_ERR_LEN_ERR_LEN e ch = b.len % 2 ^ F.BMV_CH_ERR_LEN_ERR_LEN.len ∧ t.bch e ch = ⟨0, [], [], false⟩ ∧ SameMem s t)) ∧
      (∀ off host, s.bmvHolder e ch = none → Completes (.bmvPoisonResponse e ch 0 off host) s (fun t => t.bmvState e ch = 2 ∧
        t.get F.BMV_CH_STATUS_ERR e ch = 3 ∧ t.bch e ch = ⟨0, [], [], false⟩ ∧ SameMem s t)) ∧
      Completes (.bmvParityError e ch) s (fun t => t.bmvState e ch = 2 ∧ t.get F.BMV_CH_STATUS_ERR e ch = 4 ∧
        t.get F.BMV_CH_STATUS_OUT e ch = 1 ∧ t.bch e ch = ⟨0, [], [], false⟩ ∧ SameMem s t))

/-- R288. -/
def Obligations.BlockMoverMapsExchangeSlices : Prop :=
  (∀ (e : Fin 32) (map : Word) (s : State),
    (s.bmvMapBad e map.toNat = true → Completes (.bmvEngMapWrite e map) s (fun t => t.get F.BMV_ENG_STATUS_MAP_REFUSED e = 1 ∧
      FieldsBut s t [(F.BMV_ENG_STATUS_MAP_REFUSED, e, 0)] ∧ t = { s with regs := t.regs })) ∧
    (s.bmvMapBad e map.toNat = false → (∀ k, k < 8 → s.bmvState e k = 0 ∧ s.bmvHeld e k = false) →
      Completes (.bmvEngMapWrite e map) s (fun t => t.get F.BMV_ENG_MAP_MAP e = map.toNat ∧ t.get F.BMV_ENG_STATUS_MAP_PENDING e = 0 ∧
        (∀ k, k < 8 → sliceOf map.toNat k ≠ t.get F.BMV_ENG_STATUS_BENCH_SLICE e) ∧ t.get F.BMV_ENG_STATUS_BENCH_SLICE e ≤ 8 ∧
        RegsBut s t [.BMV_ENG_MAP, .BMV_ENG_STATUS, .BMV_CH_STATUS] ∧ t = { s with regs := t.regs, exu := t.exu })) ∧
    (s.flag F.BMV_ENG_STATUS_MAP_PENDING e = true → Tab.find s.exu.bmvMap e = some map.toNat →
      (∀ k, k < 8 → s.bmvState e k = 0 ∧ s.bmvHeld e k = false) →
      Completes (.bmvMapApply e) s (fun t => t.get F.BMV_ENG_MAP_MAP e = map.toNat ∧ t.get F.BMV_ENG_STATUS_MAP_PENDING e = 0 ∧
        RegsBut s t [.BMV_ENG_MAP, .BMV_ENG_STATUS, .BMV_CH_STATUS] ∧ t = { s with regs := t.regs, exu := t.exu })) ∧
    (s.flag F.BMV_ENG_STATUS_MAP_PENDING e = false → exec (.bmvMapApply e) s = .next s))

/-- R317, with the entry and data slot of R316 as the frame. -/
def Obligations.EveryOfferedItemTakesTheNextSequenceNumber : Prop :=
  (∀ (q : BitVec 10) (symbol stream slot : Nat) (payload extra : List Byte) (x : Queue) (s : State), s.queue q.toNat = some x →
    Completes (.itemOffer q symbol stream slot payload extra) s (fun t =>
      t.get F.SQ_Q_SEQ_SEQ 0 q.toNat = (s.get F.SQ_Q_SEQ_SEQ 0 q.toNat + 1) % 2 ^ 32 ∧
      (s.queueOn q.toNat = true → s.flag F.SQ_CTRL_EN = true → x.items.length < x.ent.depth - 1 →
        (∃ y i, t.queue q.toNat = some y ∧ y.items.getLast? = some i ∧ i.seq = s.get F.SQ_Q_SEQ_SEQ 0 q.toNat ∧ i.gap = false ∧
          i.symbol = symbol ∧ i.stream = stream ∧ i.slot = slot ∧ i.length = payload.length) ∧
        (s.flag F.SQ_Q_STATUS_GAP_PENDING 0 q.toNat = false →
          MemOut s t [(sramBase + x.ent.itemBase + x.wr * x.ent.itemSize, x.ent.itemSize),
            (x.ent.dataBase + x.wr * x.ent.dataSize, payload.length)])) ∧
      (s.queueOn q.toNat = false ∨ s.flag F.SQ_CTRL_EN = false ∨ x.ent.depth - 1 ≤ x.items.length →
        (∃ y, t.queue q.toNat = some y ∧ y.items = x.items) ∧
        t.get F.SQ_Q_DROPS_DROPS 0 q.toNat = min (2 ^ 32 - 1) (s.get F.SQ_Q_DROPS_DROPS 0 q.toNat + 1)))) ∧
  (∀ (q : BitVec 10) (s : State), (queueEntry (s.queueWords q.toNat)).refusal (s.queueOn q.toNat) = 0 →
    Completes (.queueEnable q) s (fun t => t.get F.SQ_Q_SEQ_SEQ 0 q.toNat = 0 ∧ SameMem s t))

/-- R314, R315 and R331. -/
def Obligations.QueuesEnableDisableAndReset : Prop :=
  ∀ (q : BitVec 10) (s : State), let e := queueEntry (s.queueWords q.toNat)
    (e.refusal (s.queueOn q.toNat) = 0 → s.queue q.toNat = none →
      Completes (.queueEnable q) s (fun t => (∃ y, t.queue q.toNat = some y ∧ y.ent = e ∧ y.items = [] ∧ y.wr = 0) ∧
        t.queueOn q.toNat = true ∧ t.get F.SQ_Q_LEVEL_LEVEL 0 q.toNat = 0 ∧ t.get F.SQ_Q_STATUS_XOFF_STATE 0 q.toNat = 0 ∧
        (e.credit = true → t.get F.SQ_Q_CREDITS_CREDITS 0 q.toNat = e.depth - 1) ∧ (∀ p, p ≠ q.toNat → t.queue p = s.queue p) ∧ SameMem s t ∧
        t.gdx = s.gdx ∧ t.aft = s.aft)) ∧
    ((e.depth < 4 ∨ 32768 < e.depth) → Completes (.queueEnable q) s (fun t => t.get F.SQ_CMD_STATUS_REFUSED = 1 ∧
      t.get F.SQ_CMD_STATUS_CAUSE = 1 ∧ RegsBut s t [.SQ_CMD, .SQ_CMD_STATUS] ∧ t = { s with regs := t.regs })) ∧
    (e.refusal false = 0 → s.queueOn q.toNat = true → Completes (.queueEnable q) s (fun t => t.get F.SQ_CMD_STATUS_REFUSED = 1 ∧
      t.get F.SQ_CMD_STATUS_CAUSE = 6 ∧ RegsBut s t [.SQ_CMD, .SQ_CMD_STATUS] ∧ t = { s with regs := t.regs })) ∧
    Completes (.queueDisable q) s (fun t => t.queueOn q.toNat = false ∧ t.queue q.toNat = s.queue q.toNat ∧
      t.get F.SQ_Q_STATUS_XOFF_STATE 0 q.toNat = s.get F.SQ_Q_STATUS_XOFF_STATE 0 q.toNat ∧
      RegsBut s t [.SQ_CMD, .SQ_Q_STATUS, .SQ_XOFF_OUT_STATE, .NET_PFC_TX] ∧ SameMem s t) ∧
    (s.queueOn q.toNat = true ∨ s.get F.SQ_Q_CREDITS_HELD 0 q.toNat ≠ 0 → Completes (.queueReset q) s (fun t =>
      t.get F.SQ_CMD_STATUS_REFUSED = 1 ∧ t.get F.SQ_CMD_STATUS_CAUSE = 7 ∧ RegsBut s t [.SQ_CMD, .SQ_CMD_STATUS] ∧
      t = { s with regs := t.regs })) ∧
    (∀ x, s.queueOn q.toNat = false → s.get F.SQ_Q_CREDITS_HELD 0 q.toNat = 0 → s.queue q.toNat = some x →
      (∀ i ∈ x.items, i.gap = true ∨ i.pool = 63) →
      Completes (.queueReset q) s (fun t => (∃ y, t.queue q.toNat = some y ∧ y.items = [] ∧ y.ent = x.ent) ∧
        t.get F.SQ_Q_LEVEL_LEVEL 0 q.toNat = 0 ∧ t.get F.SQ_Q_STATUS_GAP_PENDING 0 q.toNat = 0 ∧
        t.get F.SQ_Q_CREDITS_CREDITS 0 q.toNat = 0 ∧ t.get F.SQ_Q_STATUS_XOFF_STATE 0 q.toNat = 0 ∧
        (s.flag F.SQ_Q_STATUS_XOFF_STATE 0 q.toNat = true → t.get F.SQ_Q_STATUS_LO_SEEN 0 q.toNat = 1) ∧
        t.get F.SQ_Q_STATUS_HI_SEEN 0 q.toNat = s.get F.SQ_Q_STATUS_HI_SEEN 0 q.toNat ∧
        RegsBut s t [.SQ_CMD, .SQ_Q_STATUS, .SQ_Q_LEVEL, .SQ_Q_CREDITS, .SQ_XOFF_OUT_STATE, .NET_PFC_TX] ∧ SameMem s t))

/-- R319, R326, R330, R332 and R333. -/
def Obligations.ItemsAreFreedAndFlowIsControlled : Prop :=
  (∀ (q : BitVec 10) (place : Nat) (x : Queue) (i : QItem) (rest : List QItem) (s : State), s.queue q.toNat = some x → x.items = i :: rest →
    (∀ j ∈ rest, j.place ≠ i.place ∧ j.freed = false) → i.freed = false → (i.gap = true ∨ i.pool = 63) →
    (place = i.place → Completes (.itemFree q place) s (fun t =>
      t.queue q.toNat = some { x with items := rest, unreported := if x.ent.credit && !i.gap then x.unreported + 1 else x.unreported } ∧
      t.get F.SQ_Q_LEVEL_LEVEL 0 q.toNat = rest.length % 2 ^ 16 ∧
      (x.ent.credit = true → i.gap = false →
        t.get F.SQ_Q_CREDITS_CREDITS 0 q.toNat = (s.get F.SQ_Q_CREDITS_CREDITS 0 q.toNat + 1) % 2 ^ 16) ∧
      (∀ p, p ≠ q.toNat → t.queue p = s.queue p) ∧
      RegsBut s t [.SQ_Q_LEVEL, .SQ_Q_CREDITS, .SQ_Q_STATUS, .SQ_XOFF_OUT_STATE, .NET_PFC_TX] ∧ SameMem s t ∧ t.gdx = s.gdx)) ∧
    (∀ j, j ∈ rest → place = j.place → (j.gap = true ∨ j.pool = 63) → (∀ k ∈ rest, k.place = place → k = j) → Completes (.itemFree q place) s (fun t =>
      (∃ y, t.queue q.toNat = some y ∧ y.items.length = x.items.length ∧ y.items.map (·.seq) = x.items.map (·.seq) ∧
        { j with freed := true } ∈ y.items ∧ i ∈ y.items) ∧ SameMem s t))) ∧
  (∀ (q : BitVec 10) (x : Queue) (s : State), s.queue q.toNat = some x →
    (x.unreported ≠ 0 → Completes (.creditReport q) s (fun t => t.queue q.toNat = some { x with unreported := 0 } ∧
      t.out = s.out ++ [.credits x.ent.port q.toNat x.unreported] ∧ t = { s with sq := t.sq, out := t.out })) ∧
    (x.unreported = 0 → exec (.creditReport q) s = .next s)) ∧
  (∀ (port : Fin 32) (prio : Fin 8) (s : State),
    ((port.val, prio.val) ∈ s.sq.pfcOr → s.get F.NET_PORT_STATUS_STATE port = 2 → Completes (.pfcRefresh port prio) s (fun t =>
      t.out = s.out ++ [.pfc port prio (s.get F.SQ_PFC_CFG_QUANTA)] ∧
      t.get F.NET_PFC_TX_PFC_TX port = min (2 ^ F.NET_PFC_TX_PFC_TX.len - 1) (s.get F.NET_PFC_TX_PFC_TX port + 1) ∧
      FieldsBut s t [(F.NET_PFC_TX_PFC_TX, port, 0)] ∧ t = { s with regs := t.regs, out := t.out })) ∧
    ((port.val, prio.val) ∉ s.sq.pfcOr → exec (.pfcRefresh port prio) s = .next s)) ∧
  (∀ (p : Fin 16) (level : Bool) (s : State), let on := level != (s.get F.SQ_XOFF_IN_POL_POL).testBit p
    Completes (.xoffInChange p level) s (fun t => (t.get F.SQ_XOFF_IN_STATE_STATE).testBit p = on ∧
      (∀ j, j ≠ p.val → (t.get F.SQ_XOFF_IN_STATE_STATE).testBit j = (s.get F.SQ_XOFF_IN_STATE_STATE).testBit j ∧
        (t.get F.SQ_XOFF_IN_STATE_STUCK).testBit j = (s.get F.SQ_XOFF_IN_STATE_STUCK).testBit j) ∧
      (on = false → (t.get F.SQ_XOFF_IN_STATE_STUCK).testBit p = false) ∧
      (on = true → FieldsBut s t [(F.SQ_XOFF_IN_STATE_STATE, 0, 0)] ∧ t = { s with regs := t.regs }))) ∧
  (∀ (p : Fin 16) (s : State),
    ((s.get F.SQ_XOFF_IN_STATE_STATE).testBit p = true → (s.get F.SQ_XOFF_IN_STATE_STUCK).testBit p = false →
      Completes (.xoffInStuck p) s (fun t => (t.get F.SQ_XOFF_IN_STATE_STUCK).testBit p = true ∧
        (t.get F.SQ_XOFF_IN_STUCK_SEEN_SEEN).testBit p = true ∧ (t.get F.SQ_XOFF_IN_STATE_STATE) = s.get F.SQ_XOFF_IN_STATE_STATE)) ∧
    ((s.get F.SQ_XOFF_IN_STATE_STATE).testBit p = false ∨ (s.get F.SQ_XOFF_IN_STATE_STUCK).testBit p = true →
      exec (.xoffInStuck p) s = .next s))

/-- R337 to R341 and R343. -/
def Obligations.NetworkPortsAttemptRetryAndFail : Prop :=
  (∀ (p : Fin 32) (s : State),
    (s.flag F.NET_PORT_CTRL_EN p = false → s.netMode p ≠ 0 → Completes (.portEnable p) s (fun t => t.get F.NET_PORT_CTRL_EN p = 1 ∧
      t.get F.NET_PORT_STATUS_STATE p = 1 ∧ t.get F.NET_PORT_STATUS_ATTEMPTS p = 0 ∧ (t.netPort p).stage = s.firstStage p ∧
      (∀ n ∈ s.netLanes p, (t.netLane n).trained = []) ∧ (s.NoEvents → (t.netPort p).lut = s.lutWords p ∧ SameMem s t) ∧
      RegsBut s t [.NET_PORT_CTRL, .NET_PORT_STATUS, .MBX_RING_TAIL] ∧ (∀ q, q ≠ p.val → t.netPort q = s.netPort q))) ∧
    (s.flag F.NET_PORT_CTRL_EN p = true ∨ s.netMode p = 0 → exec (.portEnable p) s = .next s) ∧
    ((s.netPort p).stage = 1 → Completes (.autonegComplete p none) s (fun t => t.netPort p = { s.netPort p with stage := 2 } ∧
      t = { s with net := t.net }) ∧
      (∀ (i : Fin 4) m l, fallback (s.netMode p) i = some (m, l) → s.flag F.NET_PORT_CTRL_DEGRADE_EN p = true →
        Completes (.autonegComplete p (some i)) s (fun t => t.netMode p = m ∧ t.get F.NET_PORT_STATUS_LANES p = l ∧ l.testBit i = false ∧
          (t.netPort p).stage = 2 ∧ RegsBut s t [.NET_PORT_STATUS, .TBU_PORT_CORR_RX, .TBU_PORT_CORR_TX] ∧
          t = { s with regs := t.regs, net := t.net }))) ∧
    (∀ (pol : BitVec 4) ffe, (s.netPort p).stage = 2 → Completes (.linkTrainingComplete p pol ffe) s (fun t => (t.netPort p).stage = 3 ∧
      (∀ k n, (s.netLanes p)[k]? = some n → t.get F.NET_LANE_STATUS_RX_INV_DET n = (if pol.getLsbD (n % 4) then 1 else 0) ∧
        t.get F.NET_LANE_TXFFE_PRE n = natBits (ffe.getD k 0).toNat 0 8 ∧ t.get F.NET_LANE_TXFFE_MAIN n = natBits (ffe.getD k 0).toNat 8 8 ∧
        t.get F.NET_LANE_TXFFE_POST n = natBits (ffe.getD k 0).toNat 16 8) ∧
      RegsBut s t [.NET_LANE_STATUS, .NET_LANE_TXFFE] ∧ t = { s with regs := t.regs, net := t.net })) ∧
    (∀ map : BitVec 8, (s.netPort p).stage = 3 → Completes (.pcsLock p map) s (fun t => t.get F.NET_PORT_STATUS_STATE p = 2 ∧
      t.get F.NET_PORT_STATUS_ATTEMPTS p = 0 ∧ t.get F.NET_PORT_STATUS_LANE_MAP p = map.toNat ∧ (t.netPort p).stage = 0 ∧
      (∀ n ∈ s.netLanes p, (t.netLane n).trained = (s.netLane n).taps) ∧
      RegsBut s t [.NET_PORT_STATUS, .NET_LANE_STATUS, .MBX_RING_TAIL] ∧ (s.NoEvents → SameMem s t))) ∧
    ((s.netPort p).stage ≠ 0 →
      (s.get F.NET_PORT_STATUS_ATTEMPTS p < 2 → Completes (.attemptFail p) s (fun t => Counted s t F.NET_PORT_STATUS_ATTEMPTS 1 p ∧
        (t.netPort p).stage = s.firstStage p ∧ (s.get F.NET_PORT_STATUS_STATE p ≠ 3 → t.get F.NET_PORT_STATUS_STATE p = 1) ∧
        RegsBut s t [.NET_PORT_STATUS, .MBX_RING_TAIL])) ∧
      (2 ≤ s.get F.NET_PORT_STATUS_ATTEMPTS p → s.get F.NET_PORT_STATUS_STATE p ≠ 3 → Completes (.attemptFail p) s (fun t =>
        t.get F.NET_PORT_STATUS_STATE p = 3 ∧ (t.netPort p).stage = 0 ∧ Counted s t F.NET_NOPARTNER_NOPARTNER 1 p ∧
        RegsBut s t [.NET_PORT_STATUS, .NET_NOPARTNER, .MBX_RING_TAIL]))) ∧
    (s.get F.NET_PORT_STATUS_STATE p = 3 → (s.netPort p).stage = 0 → Completes (.nopartnerRetry p) s (fun t =>
      (t.netPort p).stage = s.firstStage p ∧ t = { s with net := t.net })) ∧
    (s.netUp p = true → Completes (.linkFail p) s (fun t => t.get F.NET_PORT_STATUS_STATE p = 1 ∧ t.get F.NET_PORT_STATUS_ATTEMPTS p = 0 ∧
      t.get F.NET_PORT_STATUS_LINK_DOWN_SEEN p = 1 ∧ Counted s t F.NET_LINK_DOWN_LINK_DOWN 1 p ∧ (t.netPort p).stage = s.firstStage p ∧
      RegsBut s t [.NET_PORT_STATUS, .NET_LINK_DOWN, .MBX_RING_TAIL] ∧ (s.NoEvents → SameMem s t))) ∧
    (s.netUp p = false → exec (.linkFail p) s = .next s)) ∧
  (∀ (n : Fin 32) (p : Nat) (s : State), s.portOfLane n = some p → (s.netPort p).stage = 3 → s.get F.NET_PORT_CTRL_PHY p = 1 →
    s.flag F.NET_LANE_CTRL_RX_INV_FORCE n = false → Completes (.polaritySearch n) s (fun t =>
      t.get F.NET_LANE_STATUS_RX_INV_DET n = 1 - s.get F.NET_LANE_STATUS_RX_INV_DET n ∧
      FieldsBut s t [(F.NET_LANE_STATUS_RX_INV_DET, n, 0)] ∧ OnlyRegs s t)) ∧
  (∀ (g : Fin 8) (s : State),
    (s.groupPorts g = none → Completes (.netGroupApply g) s (fun t => t.get F.NET_GRP_CFG_CFG_REFUSED (4 * g) = 1 ∧
      FieldsBut s t [(F.NET_GRP_CFG_CFG_REFUSED, 4 * g, 0)] ∧ OnlyRegs s t)) ∧
    (∀ ps, s.groupPorts g = some ps → Completes (.netGroupApply g) s (fun t =>
      (∀ x ∈ ps, t.netMode (4 * g + x.1) = x.2.1 ∧ t.get F.NET_PORT_STATUS_LANES (4 * g + x.1) = x.2.2 ∧
        t.get F.NET_PORT_STATUS_STATE (4 * g + x.1) = (if s.flag F.NET_PORT_CTRL_EN (4 * g + x.1) then 1 else 0)) ∧
      (∀ i, i < 4 → (∀ x ∈ ps, x.1 ≠ i) → t.netMode (4 * g + i) = 0 ∧ t.get F.NET_PORT_STATUS_STATE (4 * g + i) = 0) ∧
      (∀ i, i < 4 → t.get F.NET_LANE_PRBS_CTRL_GEN_EN (4 * g + i) = 0 ∧ t.get F.NET_LANE_PRBS_CTRL_CHK_EN (4 * g + i) = 0) ∧
      (∀ q, q / 4 ≠ g → t.rd ⟨.NET_PORT_STATUS, q, 0⟩ = s.rd ⟨.NET_PORT_STATUS, q, 0⟩ ∧ t.netPort q = s.netPort q) ∧
      RegsBut s t [.NET_PORT_STATUS, .TBU_PORT_CORR_RX, .TBU_PORT_CORR_TX, .NET_LANE_PRBS_CTRL, .NET_LANE_PRBS_STATUS, .MBX_RING_TAIL])))

/-- R343 to R347, R350, R353, R355 and R361 to R363. -/
def Obligations.NetworkLanesAdaptTestAndShed : Prop :=
  (∀ (n : Fin 32) (delta : List Int) (s : State),
    (s.adapts n = true → Completes (.adaptationUpdate n delta) s (fun t => (t.netLane n).trained = (s.netLane n).trained ∧
      (t.netLane n).taps.length = s.tapCount n ∧ (∀ m, m ≠ n.val → t.netLane m = s.netLane m) ∧ t = { s with net := t.net } ∧
      (∀ k c d, k < s.tapCount n → (s.netLane n).taps.getD k 0 = c → (t.netLane n).taps.getD k 0 - (c + delta.getD k 0) = d →
        ((s.netLane n).trained = [] → d = 0) ∧ (s.get F.NET_LANE_CTRL_LEAK n = 0 → d = 0) ∧
        (∀ r, (s.netLane n).trained[k]? = some r → 4 ≤ s.get F.NET_LANE_CTRL_LEAK n →
          let u : Int := 2 ^ s.get F.NET_LANE_CTRL_LEAK n
          (c ≤ r → r - c ≤ u * d ∧ u * d < r - c + u) ∧ (r ≤ c → c - r ≤ u * (-d) ∧ u * (-d) < c - r + u))))) ∧
    (s.adapts n = false → exec (.adaptationUpdate n delta) s = .next s)) ∧
  (∀ (n : Fin 32) (lpi density : Bool) (us p : Nat) (s : State), s.portOfLane n = some p → s.domState (64 + n) ≠ 3 →
    let l := lpi && s.flag F.NET_PORT_CTRL_LPI_EN p
    Completes (.adaptationFreeze n lpi density us) s (fun t => t.get F.NET_LANE_STATUS_FROZEN n = (if l || density then 1 else 0) ∧
      t.get F.NET_LANE_STATUS_FREEZE_CAUSE n = (if l then 1 else 0) + (if density then 2 else 0) ∧
      (s.flag F.NET_LANE_STATUS_FROZEN n = true → Counted s t F.NET_LANE_FROZEN_US_FROZEN_US us n) ∧
      (s.flag F.NET_LANE_STATUS_FROZEN n = false → t.get F.NET_LANE_FROZEN_US_FROZEN_US n = s.get F.NET_LANE_FROZEN_US_FROZEN_US n) ∧
      RegsBut s t [.NET_LANE_STATUS, .NET_LANE_FROZEN_US] ∧ OnlyRegs s t)) ∧
  (∀ (n : Fin 32) (v : Word) (p : Nat) (s : State), s.portOfLane n = some p →
    let starts := v.getLsbD 0 = true ∨ v.getLsbD 1 = true ∨ v.bits 5 2 = 1 ∨ v.bits 5 2 = 2
    (s.flag F.NET_PORT_CTRL_EN p = true → starts → Completes (.prbsCtrlWrite n v) s (fun t => t.get F.NET_LANE_STATUS_BUSY n = 1 ∧
      FieldsBut s t [(F.NET_LANE_STATUS_BUSY, n, 0)] ∧ OnlyRegs s t)) ∧
    (s.flag F.NET_PORT_CTRL_EN p = false → modeNrz (s.netMode p) = true → (v.bits 2 3 = 5 ∨ v.bits 2 3 = 6) →
      Completes (.prbsCtrlWrite n v) s (fun t => t.get F.NET_LANE_STATUS_PAT_REFUSED n = 1 ∧
        FieldsBut s t [(F.NET_LANE_STATUS_PAT_REFUSED, n, 0)] ∧ OnlyRegs s t)) ∧
    (s.flag F.NET_PORT_CTRL_EN p = false → v.bits 2 3 < 5 → v.bits 5 2 < 3 → Completes (.prbsCtrlWrite n v) s (fun t =>
      t.get F.NET_LANE_PRBS_CTRL_GEN_EN n = v.bits 0 1 ∧ t.get F.NET_LANE_PRBS_CTRL_CHK_EN n = v.bits 1 1 ∧
      t.get F.NET_LANE_PRBS_CTRL_PATTERN n = v.bits 2 3 ∧ t.get F.NET_LANE_PRBS_CTRL_LOOP n = v.bits 5 2 ∧
      RegsBut s t [.NET_LANE_PRBS_CTRL, .NET_LANE_PRBS_STATUS] ∧ OnlyRegs s t))) ∧
  (∀ (n : Fin 32) (s : State),
    (s.flag F.NET_LANE_PRBS_CTRL_INJ n = true → s.flag F.NET_LANE_PRBS_CTRL_GEN_EN n = true → Completes (.prbsInject n) s (fun t =>
      t.get F.NET_LANE_PRBS_CTRL_INJ n = 0 ∧ t.out = s.out ++ [.prbsError n (s.get F.NET_LANE_PRBS_CTRL_INJ_KIND n)
        (s.get F.NET_LANE_PRBS_CTRL_INJ_LEN n + 1)] ∧ FieldsBut s t [(F.NET_LANE_PRBS_CTRL_INJ, n, 0)] ∧
        t = { s with regs := t.regs, out := t.out })) ∧
    (∀ (lock : Bool) bits errs,
      (s.flag F.NET_LANE_PRBS_CTRL_CHK_EN n = true → Completes (.prbsLock n lock bits errs) s (fun t =>
        t.get F.NET_LANE_PRBS_STATUS_LOCK n = (if lock then 1 else 0) ∧
        (s.flag F.NET_LANE_PRBS_STATUS_LOCK n = true → Counted s t F.NET_LANE_PRBS_ERR_ERR errs n ∧
          (lock = false → t.get F.NET_LANE_PRBS_STATUS_LOCK_LOST n = 1)) ∧
        (s.flag F.NET_LANE_PRBS_STATUS_LOCK n = false → FieldsBut s t [(F.NET_LANE_PRBS_STATUS_LOCK, n, 0)]) ∧
        RegsBut s t [.NET_LANE_PRBS_STATUS, .NET_LANE_PRBS_BITS_LO, .NET_LANE_PRBS_BITS_HI, .NET_LANE_PRBS_ERR] ∧ OnlyRegs s t)) ∧
      (s.flag F.NET_LANE_PRBS_CTRL_CHK_EN n = false → exec (.prbsLock n lock bits errs) s = .next s))) ∧
  (∀ (p : Fin 32) (s : State),
    Completes (.fhReload p) s (fun t => t.netPort p = { s.netPort p with lut := s.lutWords p, rxSeq := [] } ∧
      (∀ q, q ≠ p.val → t.netPort q = s.netPort q) ∧ t = { s with net := t.net }) ∧
    (∀ sci pn : BitVec 64, s.get F.NET_MACSEC_SA_SEL_SA p < 18 → Completes (.macsecSaInstall p sci pn) s (fun t =>
      Tab.find (t.netPort p).sas (s.get F.NET_MACSEC_SA_SEL_SA p) =
        some ⟨(List.range 8).map (fun i => s.get F.NET_MACSEC_KEY_KEY p i), sci.toNat, pn.toNat⟩ ∧
      (∀ q, q ≠ p.val → t.netPort q = s.netPort q) ∧ t = { s with net := t.net })) ∧
    (∀ k : Fin 8, Completes (.pfcPauseExpiry p k) s (fun t => k.val ∉ (t.netPort p).paused ∧
      (∀ i, i ≠ k.val → (i ∈ (t.netPort p).paused ↔ i ∈ (s.netPort p).paused)) ∧ t = { s with net := t.net }))) ∧
  (∀ (n : Fin 32) (pass : Bool) (p : Nat) (s : State), s.portOfLane n = some p → s.netUp p = true →
    (s.flag F.NET_PORT_CTRL_DEGRADE_EN p = false → Completes (.netLaneFault n pass) s (fun t => t.get F.NET_PORT_STATUS_STATE p = 4 ∧
      t.get F.NET_PORT_CTRL_EN p = 0 ∧ Counted s t F.NET_FAULTY_LANE_FAULTY_LANE 1 p ∧ t.get F.NET_FALLBACK_FALLBACK p = s.get F.NET_FALLBACK_FALLBACK p ∧
      t.tbu = s.tbu ∧ t.gdx = s.gdx)) ∧
    (∀ m l, s.flag F.NET_PORT_CTRL_DEGRADE_EN p = true → s.get F.NET_PORT_CTRL_PHY p = 0 → fallback (s.netMode p) (n % 4) = some (m, l) →
      (∀ i, i < 4 → l.testBit i = true → i ≠ n % 4 ∧ s.retired 13 (n / 4 * 4 + i) = false) →
      Completes (.netLaneFault n pass) s (fun t => t.netMode p = m ∧ t.get F.NET_PORT_STATUS_LANES p = l ∧ (t.netPort p).stage = s.firstStage p ∧
        Counted s t F.NET_FALLBACK_FALLBACK 1 p ∧ Counted s t F.NET_FAULTY_LANE_FAULTY_LANE 1 p ∧ t.tbu = s.tbu ∧ t.gdx = s.gdx)))

/-- R340 and R348 to R360. -/
def Obligations.FramesAreReceivedAndSent : Prop :=
  (∀ (p : Fin 32) (f : EthFrame) (ok : Bool) (sub : Fin 26) (cw cor unc dis : Nat) (er : List Nat) (s : State), s.netUp p = true →
    s.domState (64 + p) ≠ 5 →
    Completes (.frameReceive p f ok sub cw cor unc dis er) s (fun t => Counted s t F.NET_RX_FRAMES_RX_FRAMES 1 p ∧
      Counted s t F.NET_FEC_CW_FEC_CW cw p ∧ Counted s t F.NET_FEC_CORR_SYM_FEC_CORR_SYM cor p ∧ Counted s t F.NET_FEC_UNCORR_FEC_UNCORR unc p ∧
      ((∀ m d q u, f.body ≠ .ptp m d q u) →
        (f.length < 64 ∨ s.get F.NET_PORT_FRAME_MAX_FRAME p < f.length → Counted s t F.NET_RX_SIZE_ERR_RX_SIZE_ERR 1 p ∧
          RegsBut s t [.NET_RX_FRAMES, .NET_FEC_CW, .NET_FEC_CORR_SYM, .NET_FEC_UNCORR, .NET_RX_SIZE_ERR] ∧ OnlyRegs s t) ∧
        (64 ≤ f.length → f.length ≤ s.get F.NET_PORT_FRAME_MAX_FRAME p →
          (ok = false → Counted s t F.NET_RX_FCS_ERR_RX_FCS_ERR 1 p ∧
            RegsBut s t [.NET_RX_FRAMES, .NET_FEC_CW, .NET_FEC_CORR_SYM, .NET_FEC_UNCORR, .NET_RX_FCS_ERR] ∧ OnlyRegs s t) ∧
          (ok = true → s.macOk p f.dest = false → Counted s t F.NET_RX_FILTER_RX_FILTER 1 p ∧
            RegsBut s t [.NET_RX_FRAMES, .NET_FEC_CW, .NET_FEC_CORR_SYM, .NET_FEC_UNCORR, .NET_RX_FILTER] ∧ OnlyRegs s t) ∧
          (ok = true → s.macOk p f.dest = true → s.domState (64 + p) ≠ 3 → f.secured = false →
            (∀ en ts, f.body = .pfc en ts → s.flag F.NET_PORT_CTRL_PFC_RX_EN p = true → Counted s t F.NET_PFC_RX_PFC_RX 1 p ∧
              (∀ i, i < 8 → (i ∈ (t.netPort p).paused ↔
                (en.getLsbD i = true ∧ ts.getD i 0 ≠ 0) ∨ (en.getLsbD i = false ∧ i ∈ (s.netPort p).paused)))) ∧
            (∀ y, f.body = .other y → s.flag F.NET_PORT_CTRL_MACSEC_EN p = false →
              (s.flag F.NET_PORT_CTRLQ_CTRLQ_EN p = false → Counted s t F.NET_CTRLQ_DROP_CTRLQ_DROP 1 p ∧ SameMem s t ∧ t.sq = s.sq) ∧
              (∀ x, s.flag F.NET_PORT_CTRLQ_CTRLQ_EN p = true → s.queue (s.get F.NET_PORT_CTRLQ_QUEUE p) = some x →
                s.queueOn (s.get F.NET_PORT_CTRLQ_QUEUE p) = true → s.flag F.SQ_CTRL_EN = true → x.items.length < x.ent.depth - 1 →
                f.bytes.length ≤ x.ent.dataSize → ∃ z i, t.queue (s.get F.NET_PORT_CTRLQ_QUEUE p) = some z ∧ z.items.getLast? = some i ∧
                  i.length = f.bytes.length ∧ i.gap = false)) ∧
            (∀ m st ext w bs j lw x tl sl sy, f.body = .ecpri [m] → s.flag F.NET_PORT_CTRL_MACSEC_EN p = false → EcpriOk m = true →
              m.body = .cPlane st ext w bs → cPlaneOk st ext w = true → s.lutRx p 1 (m.eaxc % 2 ^ 16) f.src f.vid = some (j, lw) →
              s.queue (natBits (lw.getD 1 0) 16 10) = some x → s.tl x.ent.tl = some tl → s.resolveMsg tl m = some (sl, sy) →
              s.queueOn (natBits (lw.getD 1 0) 16 10) = true → s.flag F.SQ_CTRL_EN = true → x.items.length < x.ent.depth - 1 →
              bs.length ≤ x.ent.dataSize → s.flag F.NET_PORT_CTRL_DROP_LATE p = false →
              ∃ z i, t.queue (natBits (lw.getD 1 0) 16 10) = some z ∧ z.items.getLast? = some i ∧ i.length = bs.length ∧ i.symbol = sy ∧
                i.stream = natBits (lw.getD 2 0) 0 9 ∧ i.slot = tl.slotWord sl)))))) ∧
  (∀ (p : Fin 32) (q : BitVec 10) (sub : Fin 26) (prbs dis er : Nat) (x : Queue) (i : QItem) (rest : List QItem) (s : State),
    s.txQueues p = [q.toNat] → s.flag F.SQ_CTRL_EN = true → s.HeadOf q.toNat x i rest →
    (s.netUp p = false → Completes (.txItemSend p sub prbs dis er) s (fun t => Counted s t F.NET_TX_DOWN_DROP_TX_DOWN_DROP 1 p ∧
      t.get F.NET_TX_FRAMES_TX_FRAMES p = s.get F.NET_TX_FRAMES_TX_FRAMES p ∧
      (∃ z, t.queue q.toNat = some z ∧ z.items = rest) ∧ (i.pool = 63 → SameMem s t))) ∧
    (∀ h, s.netUp p = true → s.txHead p q.toNat = some h → h.plane ≠ 3 → h.length ≤ s.get F.NET_PORT_FRAME_MAX_FRAME p →
      (h.plane < 2 → h.entry.isSome = true ∧ h.window.isSome = true) →
      (s.txDue p (s.stamp1000 p sub .tx) h = true → Completes (.txItemSend p sub prbs dis er) s (fun t =>
        (∃ f later, t.out = s.out ++ .frame p f :: later ∧ f.queue = q.toNat ∧ f.header = h.header ∧
          f.payload = s.bytes (i.addr + 32) (h.header.getD 3 0) ∧
          (∀ k lw, h.entry = some (k, lw) → f.dest = lutPeer lw ∧ f.seqid = Tab.get 0 (s.netPort p).txSeq k)) ∧
        Counted s t F.NET_TX_FRAMES_TX_FRAMES 1 p ∧ (∃ z, t.queue q.toNat = some z ∧ z.items = rest) ∧ (i.pool = 63 → SameMem s t))) ∧
      (∀ o c, h.window = some (o, c) → c < s.stamp1000 p sub .tx → Completes (.txLateDiscard p q sub) s (fun t =>
        Counted s t F.NET_TX_LATE_TX_LATE 1 p ∧ t.get F.NET_TX_FRAMES_TX_FRAMES p = s.get F.NET_TX_FRAMES_TX_FRAMES p ∧
        (∃ z, t.queue q.toNat = some z ∧ z.items = rest) ∧ (i.pool = 63 → SameMem s t))) ∧
      (∀ o c, h.window = some (o, c) → s.stamp1000 p sub .tx ≤ c → exec (.txLateDiscard p q sub) s = .next s)))

/-- R374 to R380. -/
def Obligations.CouplersTrainStepByStep : Prop :=
  ∀ (p : Fin 16) (s : State),
    (s.flag F.CPL_PORT_CTRL_EN p = false → Completes (.cplPortEnable p) s (fun t => t.get F.CPL_PORT_CTRL_EN p = 1 ∧
      t.get F.CPL_PORT_STATUS_STATE p = 1 ∧ t.get F.CPL_PORT_STATUS_PHASE p = 1 ∧ t.get F.CPL_PORT_STATUS_ATTEMPTS p = 0 ∧
      RegsBut s t [.CPL_PORT_CTRL, .CPL_PORT_STATUS, .PWR_DOM_STATE, .MBX_RING_TAIL] ∧ (s.NoEvents → SameMem s t))) ∧
    (s.flag F.CPL_PORT_CTRL_EN p = true → exec (.cplPortEnable p) s = .next s) ∧
    (s.cplIn p 1 = true →
      Completes (.clockDetect p true) s (fun t => t.get F.CPL_PORT_STATUS_PHASE p = 2 ∧ FieldsBut s t [(F.CPL_PORT_STATUS_PHASE, p, 0)] ∧
        OnlyRegs s t) ∧
      Completes (.clockDetect p false) s (fun t => t.get F.CPL_PORT_STATUS_STATE p = 4 ∧ t.get F.CPL_PORT_STATUS_PHASE p = 0 ∧
        t.get F.CPL_PORT_LANE_MAP_MISWIRE_LANE p = 4 ∧ t.get F.CPL_PORT_EVENTS_CLK_MISWIRE p = 1 ∧
        RegsBut s t [.CPL_PORT_STATUS, .CPL_PORT_LANE_MAP, .CPL_PORT_EVENTS, .MBX_RING_TAIL])) ∧
    (s.cplIn p 1 = false → ∀ b, exec (.clockDetect p b) s = .next s) ∧
    (s.cplIn p 2 = true → ∀ (a b c d : Fin 4) (i j k l : Bool) (m : BitVec 4),
      ([a, b, c, d].Nodup → Completes (.laneDetect p (.partner a i) (.partner b j) (.partner c k) (.partner d l) m) s (fun t =>
        t.get F.CPL_PORT_STATUS_PHASE p = 3 ∧ t.get F.CPL_PORT_LANE_MAP_MAP p = a.val + 4 * b.val + 16 * c.val + 64 * d.val ∧
        t.get F.CPL_PORT_LANE_MAP_INV p = (if i then 1 else 0) + (if j then 2 else 0) + (if k then 4 else 0) + (if l then 8 else 0) ∧
        (∀ n, n < 4 → t.get F.CPL_LANE_STATUS_MATCH p n = (if m.getLsbD n then 1 else 0) ∧ t.get F.CPL_LANE_STATUS_SLIPS p n = 0 ∧
          t.get F.CPL_LANE_STATUS_SIGNAL p n = 1) ∧
        RegsBut s t [.CPL_PORT_STATUS, .CPL_PORT_LANE_MAP, .CPL_LANE_STATUS] ∧ OnlyRegs s t)) ∧
      Completes (.laneDetect p (.partner a i) .clock (.partner c k) (.partner d l) m) s (fun t => t.get F.CPL_PORT_STATUS_STATE p = 4 ∧
        t.get F.CPL_PORT_LANE_MAP_MISWIRE_LANE p = 1 ∧ t.get F.CPL_PORT_EVENTS_CLK_MISWIRE p = 1) ∧
      (s.get F.CPL_PORT_STATUS_ATTEMPTS p < 3 → Completes (.laneDetect p (.partner a i) .nothing (.partner c k) (.partner d l) m) s (fun t =>
        t.get F.CPL_PORT_STATUS_PHASE p = 0 ∧ Counted s t F.CPL_PORT_STATUS_ATTEMPTS 1 p ∧
        FieldsBut s t [(F.CPL_PORT_STATUS_PHASE, p, 0), (F.CPL_PORT_STATUS_ATTEMPTS, p, 0)] ∧ OnlyRegs s t))) ∧
    (s.cplIn p 3 = true →
      (∀ (l : Fin 5) (al : Bool), l.val < 4 →
        (s.slipBusy p l = true → Completes (.slip p l al) s (fun t => t.get F.CPL_LANE_STATUS_SLIP_IGNORED p l = 1 ∧
          FieldsBut s t [(F.CPL_LANE_STATUS_SLIP_IGNORED, p, l)] ∧ OnlyRegs s t)) ∧
        (s.slipBusy p l = false → s.get F.CPL_LANE_STATUS_SLIPS p l < 64 ∨ al = true → Completes (.slip p l al) s (fun t =>
          Counted s t F.CPL_LANE_STATUS_SLIPS 1 p l ∧ t.get F.CPL_LANE_STATUS_MATCH p l = (if al then 1 else 0) ∧
          FieldsBut s t [(F.CPL_LANE_STATUS_SLIPS, p, l), (F.CPL_LANE_STATUS_MATCH, p, l)] ∧ t = { s with regs := t.regs, cpl := t.cpl }))) ∧
      ((∀ n, n < 4 → s.get F.CPL_LANE_STATUS_MATCH p n = 1) → Completes (.symbolAlignment p) s (fun t =>
        t.get F.CPL_PORT_STATUS_PHASE p = 4 ∧ FieldsBut s t [(F.CPL_PORT_STATUS_PHASE, p, 0)] ∧ OnlyRegs s t))) ∧
    (s.cplIn p 3 = false → ∀ l al, exec (.slip p l al) s = .next s) ∧
    (s.cplIn p 4 = true → Completes (.deskew p) s (fun t => t.get F.CPL_PORT_STATUS_PHASE p = 5 ∧
      (∀ n, n < 4 → t.get F.CPL_LANE_PHASE_PHASE p n = 0 ∧ t.get F.CPL_LANE_STATUS_DRIFT p n = 0) ∧
      RegsBut s t [.CPL_PORT_STATUS, .CPL_LANE_PHASE, .CPL_LANE_STATUS] ∧ OnlyRegs s t)) ∧
    (s.cplIn p 5 = true →
      (∀ set, Completes (.capSetReceived p set false) s (fun t => t.cplPort p = { s.cplPort p with capLast := none } ∧
          t = { s with cpl := t.cpl }) ∧
        ((s.cplPort p).capLast = none → Completes (.capSetReceived p set true) s (fun t => (t.cplPort p).capLast = some set ∧
          (t.cplPort p).capOk = (s.cplPort p).capOk ∧ t = { s with cpl := t.cpl })) ∧
        ((s.cplPort p).capLast.map capNoAck = some (capNoAck set) → Completes (.capSetReceived p set true) s (fun t =>
          (t.cplPort p).capOk = true ∧ (set.ack = true → (t.cplPort p).capAck = true) ∧
          t.get F.CPL_PORT_PARTNER_MAJOR p = set.major % 2 ^ 8 ∧ t.get F.CPL_PORT_PARTNER_MINOR p = set.minor % 2 ^ 8 ∧
          t.get F.CPL_PORT_PARTNER_CAR p = set.car % 2 ^ 3 ∧ t.get F.CPL_PORT_PARTNER_CAR_VALID p = (if set.carValid then 1 else 0) ∧
          RegsBut s t [.CPL_PORT_PARTNER, .CPL_PORT_PFEAT] ∧ t = { s with regs := t.regs, cpl := t.cpl }))) ∧
      ((s.cplPort p).capOk = true → (s.cplPort p).capAck = true →
        let equal := s.flag F.CPL_PORT_PARTNER_CAR_VALID p = true ∧ s.get F.CPL_PORT_PARTNER_CAR p = s.get F.CPL_CONSIST_CAR
        (s.get F.CPL_PORT_PARTNER_MAJOR p = 3 → ¬ equal → Completes (.capabilityExchange p) s (fun t =>
          t.get F.CPL_PORT_STATUS_STATE p = 2 ∧ t.get F.CPL_PORT_PARTNER_AGREED_MINOR p = min 2 (s.get F.CPL_PORT_PARTNER_MINOR p) ∧
          t.get F.CPL_PORT_STATUS_ATTEMPTS p = 0 ∧ t.get F.CPL_PORT_STATUS_LANES p = 15 ∧
          (t.cplPort p).txSeq = 0 ∧ (t.cplPort p).rxNext = 0 ∧ (t.cplPort p).unacked = [] ∧
          RegsBut s t [.CPL_PORT_STATUS, .CPL_PORT_PARTNER, .MBX_RING_TAIL])) ∧
        (s.get F.CPL_PORT_PARTNER_MAJOR p ≠ 3 ∨ equal → Completes (.capabilityExchange p) s (fun t =>
          t.get F.CPL_PORT_STATUS_STATE p = 5 ∧ t.get F.CPL_PORT_STATUS_PHASE p = 0 ∧ RegsBut s t [.CPL_PORT_STATUS, .MBX_RING_TAIL]))) ∧
      ((s.cplPort p).capAck = false → exec (.capabilityExchange p) s = .next s)) ∧
    (s.cplTraining p = true →
      (s.get F.CPL_PORT_STATUS_ATTEMPTS p < 3 → Completes (.trainingPhaseTimeout p) s (fun t => t.get F.CPL_PORT_STATUS_PHASE p = 0 ∧
        Counted s t F.CPL_PORT_STATUS_ATTEMPTS 1 p ∧
        FieldsBut s t [(F.CPL_PORT_STATUS_PHASE, p, 0), (F.CPL_PORT_STATUS_ATTEMPTS, p, 0)] ∧ OnlyRegs s t)) ∧
      (3 ≤ s.get F.CPL_PORT_STATUS_ATTEMPTS p → Completes (.trainingPhaseTimeout p) s (fun t => t.get F.CPL_PORT_STATUS_STATE p = 3 ∧
        t.get F.CPL_PORT_STATUS_PHASE p = 0 ∧ RegsBut s t [.CPL_PORT_STATUS, .MBX_RING_TAIL])) ∧
      (2 ≤ s.get F.CPL_PORT_STATUS_PHASE p → Completes (.ckActivityLoss p) s (fun t => t.get F.CPL_PORT_STATUS_PHASE p = 0 ∧
        FieldsBut s t [(F.CPL_PORT_STATUS_PHASE, p, 0)] ∧ OnlyRegs s t))) ∧
    (s.cplTraining p = false → exec (.trainingPhaseTimeout p) s = .next s ∧ exec (.ckActivityLoss p) s = .next s) ∧
    (s.get F.CPL_PORT_STATUS_STATE p = 1 ∨ s.get F.CPL_PORT_STATUS_STATE p = 3 → s.get F.CPL_PORT_STATUS_PHASE p = 0 →
      Completes (.trainingRetry p) s (fun t => t.get F.CPL_PORT_STATUS_PHASE p = 1 ∧
        t.get F.CPL_PORT_STATUS_STATE p = s.get F.CPL_PORT_STATUS_STATE p ∧ (t.cplPort p).capOk = false ∧
        RegsBut s t [.CPL_PORT_STATUS, .PWR_DOM_STATE] ∧ t = { s with regs := t.regs, cpl := t.cpl, pwr := t.pwr }))

/-- R369, R382 to R384, R386 to R388 and R400. -/
def Obligations.CouplerGapsDriftAndLoss : Prop :=
  ∀ (p : Fin 16) (s : State), let c := s.cplPort p
    let probes := (List.range (s.get F.CPL_PORT_CTRL_PROBES p)).map (fun k => Out.coupler p (.probe k))
    (s.cplUp p = true → 1 ≤ s.cplMinor p →
      (c.gap = .none → Completes (.gapBeginReceived p) s (fun t => t.out = s.out ++ .coupler p .gapAck :: probes ∧ (t.cplPort p).gap = .open ∧
        t.get F.CPL_PORT_STATUS_GAP_OPEN p = 1 ∧ FieldsBut s t [(F.CPL_PORT_STATUS_GAP_OPEN, p, 0)] ∧
        t = { s with regs := t.regs, cpl := t.cpl, out := t.out })) ∧
      (c.gap = .begun → Completes (.gapBeginReceived p) s (fun t => t.out = s.out ++ probes ∧ (t.cplPort p).gap = .open ∧
        t = { s with cpl := t.cpl, out := t.out }))) ∧
    (c.gap = .begun → Completes (.gapAckReceived p) s (fun t => t.out = s.out ++ probes ∧ (t.cplPort p).gap = .open ∧
      t = { s with cpl := t.cpl, out := t.out })) ∧
    (c.gap ≠ .begun → exec (.gapAckReceived p) s = .next s) ∧
    (c.gap = .open → (∀ seq turn, Completes (.probeReceived p seq turn) s (fun t =>
        t = { s with out := s.out ++ [.coupler p (.echo seq.toNat turn.toNat)] })) ∧
      (∀ (seq : BitVec 8) (el turn : BitVec 40), seq.toNat ∈ c.probes → Completes (.echoReceived p seq el turn) s (fun t =>
        (t.cplPort p).rtts = c.rtts ++ [(el.toNat : Int) - turn.toNat] ∧ seq.toNat ∉ (t.cplPort p).probes ∧ t = { s with cpl := t.cpl })) ∧
      (∀ (seq : BitVec 8) (el turn : BitVec 40), seq.toNat ∉ c.probes → exec (.echoReceived p seq el turn) s = .next s)) ∧
    (c.gap ≠ .none → Completes (.gapEndReceived p) s (fun t => (t.cplPort p).gap = .none ∧ t.get F.CPL_PORT_STATUS_GAP_OPEN p = 0 ∧
      (∀ rtt asym : Int, c.rtts ≠ [] → 5 * c.rtts.sum = rtt * c.rtts.length → signed 32 (s.get F.CPL_DELAY_ASYM_ASYM_PS p) = asym →
        (rtt + asym) % 2 = 0 → t.get F.CPL_DELAY_RTT_RTT_PS p = unsigned 32 rtt ∧
          t.get F.CPL_DELAY_OWD_TX_OWD_PS p = unsigned 32 ((rtt + asym) / 2) ∧ t.get F.CPL_DELAY_OWD_RX_OWD_PS p = unsigned 32 ((rtt - asym) / 2)) ∧
      (c.rtts = [] → t.get F.CPL_DELAY_RTT_RTT_PS p = s.get F.CPL_DELAY_RTT_RTT_PS p) ∧ SameMem s t ∧ t.tbu = s.tbu ∧ t.gdx = s.gdx) ∧
      (c.gapOwn = true → Completes (.gapTimeout p) s (fun t => (t.cplPort p).gap = .none ∧ t.get F.CPL_PORT_EVENTS_GAP_TIMEOUT p = 1 ∧
        (∃ later, t.out = s.out ++ .coupler p .gapEnd :: later) ∧ SameMem s t ∧ t.tbu = s.tbu ∧ t.gdx = s.gdx)) ∧
      (c.gapOwn = false → exec (.gapTimeout p) s = .next s)) ∧
    (c.gap = .none → exec (.gapEndReceived p) s = .next s ∧ exec (.gapTimeout p) s = .next s) ∧
    (s.cplMayMove p = true →
      (s.cplRxOn p = true → s.domMoving (112 + p) = false →
        (s.flag F.CPL_PORT_CTRL_AUTO_LISTEN p = true → Completes (.quietEnterReceived p) s (fun t => t.domState (112 + p) = 3 ∧
          Counted s t F.PWR_DOM_ENTRIES_ENTRIES 1 0 (112 + p) ∧ RegsBut s t [.PWR_DOM_STATE, .PWR_DOM_ENTRIES] ∧
          t = { s with regs := t.regs, pwr := t.pwr })) ∧
        (s.flag F.CPL_PORT_CTRL_AUTO_LISTEN p = false → exec (.quietEnterReceived p) s = .next s)) ∧
      (∀ l : Fin 4, s.get F.CPL_PORT_STATUS_LANES p = 15 → Completes (.laneDropReceived p l) s (fun t =>
        t.get F.CPL_PORT_STATUS_LANES p = 15 - 2 ^ l.val ∧ t.get F.CPL_PORT_EVENTS_LANE_DROPPED p = 1 ∧
        t.out = s.out ++ [.coupler p (.laneDrop l)] ∧
        FieldsBut s t [(F.CPL_PORT_STATUS_LANES, p, 0), (F.CPL_PORT_EVENTS_LANE_DROPPED, p, 0)] ∧ t = { s with regs := t.regs, out := t.out }))) ∧
    (∀ (l : Fin 4),
      (s.cplUp p = true → ∀ late : Bool, Completes (.drift p l late) s (fun t => t.get F.CPL_LANE_STATUS_DRIFT p l = 1 ∧
        t.get F.CPL_LANE_STATUS_DRIFT_SEEN p l = 1 ∧ t.get F.CPL_LANE_PHASE_PHASE p l = (if late then 16 else 65520) ∧
        FieldsBut s t [(F.CPL_LANE_STATUS_DRIFT, p, l), (F.CPL_LANE_STATUS_DRIFT_SEEN, p, l), (F.CPL_LANE_PHASE_PHASE, p, l)] ∧ OnlyRegs s t)) ∧
      (c.gap = .open → s.flag F.CPL_LANE_STATUS_DRIFT p l = true → ∀ held : Bool, Completes (.laneRetrain p l held) s (fun t =>
        Counted s t F.CPL_RETRAINS_RETRAINS 1 p ∧ t.get F.CPL_LANE_STATUS_DRIFT p l = (if held then 1 else 0) ∧
        (held = false → t.get F.CPL_LANE_PHASE_PHASE p l = 0) ∧
        FieldsBut s t [(F.CPL_RETRAINS_RETRAINS, p, 0), (F.CPL_LANE_STATUS_DRIFT, p, l), (F.CPL_LANE_PHASE_PHASE, p, l)] ∧
        t = { s with regs := t.regs, cpl := t.cpl })) ∧
      (s.cplUp p = true → s.car.list = [] → ∀ pass,
        (s.flag F.CPL_PORT_CTRL_LANE_DROP_EN p = true → s.cplMinor p = 2 → s.get F.CPL_PORT_STATUS_LANES p = 15 →
          Completes (.cplLaneFault p l pass) s (fun t => t.get F.CPL_LANE_STATUS_FAULTY p l = 1 ∧ t.get F.CPL_PORT_STATUS_STATE p = 2 ∧
            t.get F.CPL_PORT_STATUS_LANES p = 15 - 2 ^ natBits (s.get F.CPL_PORT_LANE_MAP_MAP p) (2 * l) 2 ∧
            t.get F.CPL_PORT_EVENTS_LANE_DROPPED p = 1 ∧ t.tbu = s.tbu)) ∧
        (s.flag F.CPL_PORT_CTRL_LANE_DROP_EN p = false → Completes (.cplLaneFault p l pass) s (fun t =>
          t.get F.CPL_LANE_STATUS_FAULTY p l = 1 ∧ t.get F.CPL_PORT_STATUS_STATE p = 6 ∧ t.get F.CPL_PORT_CTRL_EN p = 0 ∧ t.tbu = s.tbu)))) ∧
    (s.cplUp p = true → ∀ errs, Completes (.cplLinkDown p errs) s (fun t => t.get F.CPL_PORT_STATUS_STATE p = 1 ∧
      t.get F.CPL_PORT_STATUS_PHASE p = 0 ∧ Counted s t F.CPL_LINK_DOWN_LINK_DOWN 1 p ∧ t.get F.CPL_PORT_EVENTS_LINK_DOWN_SEEN p = 1 ∧
      Counted s t F.CPL_HDR_ERR_HDR_ERR errs p ∧ Counted s t F.CPL_TOKEN_LOST_TOKEN_LOST c.unacked.length p ∧ (t.cplPort p).unacked = [] ∧
      (t.cplPort p).gap = .none ∧ t.tbu = s.tbu)) ∧
    (s.cplUp p = false → ∀ errs, exec (.cplLinkDown p errs) s = .next s) ∧
    (∀ (l : Fin 5) (bip : Fin 9) errs,
      (s.flag F.CPL_PORT_CTRL_EN p = true → Completes (.markerReceived p l true bip errs) s (fun t => Counted s t F.CPL_HDR_ERR_HDR_ERR errs p ∧
        Counted s t F.CPL_BIP_ERR_BIP_ERR bip p ∧ RegsBut s t [.CPL_HDR_ERR, .CPL_BIP_ERR] ∧ OnlyRegs s t)) ∧
      (∀ al, s.flag F.CPL_PORT_CTRL_EN p = false → s.flag F.CPL_LANE_CTRL_LOOPCHK_EN p l = true → Completes (.markerReceived p l al bip errs) s
        (fun t => Counted s t F.CPL_LANE_LOOP_ERR_LOOP_ERR bip p l ∧ RegsBut s t [.CPL_LANE_LOOP_ERR] ∧ OnlyRegs s t))) ∧
    (s.cplUp p = true → s.domState (112 + p) = 3 → s.flag F.PWR_DOM_STATE_PENDING_VALID 0 (112 + p) = false →
      Completes (.returnOfSignal p) s (fun t => t.domState (112 + p) = 0 ∧ Counted s t F.PWR_DOM_WAKES_WAKES 1 0 (112 + p) ∧
        (∀ n, n < 4 → t.get F.CPL_LANE_PHASE_PHASE p n = 0) ∧ RegsBut s t [.PWR_DOM_STATE, .PWR_DOM_WAKES, .CPL_LANE_PHASE] ∧
        t = { s with regs := t.regs, pwr := t.pwr }))

/-- R372, R390 to R392 and R396 to R399. -/
def Obligations.CouplersCarrySamplesTokensAndTime : Prop :=
  (∀ (p : Fin 16) (sid : BitVec 8) (slot : Word) (sy : Fin 16) (bs : List Byte) (s : State), s.cplUp p = true → s.cplRxOn p = true →
    (s.stream p 0 sid.toNat = none → Completes (.sampleMessageReceived p sid slot sy bs true) s (fun t =>
      Counted s t F.CPL_SID_NOMATCH_SID_NOMATCH 1 p ∧ RegsBut s t [.CPL_SID_NOMATCH] ∧ OnlyRegs s t)) ∧
    (∀ w0 w1 w2 x, s.stream p 0 sid.toNat = some (w0, w1, w2) → w0.testBit 2 = false → s.queue (natBits w0 16 10) = some x →
      s.queueOn (natBits w0 16 10) = true → s.flag F.SQ_CTRL_EN = true → x.items.length < x.ent.depth - 1 →
      ∀ ok, Completes (.sampleMessageReceived p sid slot sy bs ok) s (fun t => (∃ z i, t.queue (natBits w0 16 10) = some z ∧
        z.items.getLast? = some i ∧ i.symbol = sy ∧ i.stream = natBits w1 8 9 ∧ i.slot = slot.toNat ∧ i.length = bs.length) ∧
        (ok = false → Counted s t F.CPL_CRC_ERR_SAMPLE_CRC_ERR_SAMPLE 1 p) ∧ t.tbu = s.tbu ∧ t.gdx = s.gdx)) ∧
    (∀ w0 w1 w2, s.stream p 0 sid.toNat = some (w0, w1, w2) → w0.testBit 2 = true → (s.cplPort p).rawRx + bs.length ≤ 16384 →
      Completes (.sampleMessageReceived p sid slot sy bs true) s (fun t => (t.cplPort p).rawRx = (s.cplPort p).rawRx + bs.length ∧
        t = { s with cpl := t.cpl }))) ∧
  (∀ (q : BitVec 10) (x : Queue) (i : QItem) (rest : List QItem) (h : SampleHead) (s : State), s.flag F.SQ_CTRL_EN = true →
    s.HeadOf q.toNat x i rest → x.ent.consumer = 2 → s.sampleHead q.toNat = some h →
    (h.window = .due → s.sampleMay h.port = true → s.cplMinor h.port ≠ 0 → Tab.find (s.cplPort h.port).credits h.linkQueue = none →
      Completes (.sampleSend (.queue q)) s (fun t =>
        (∃ before later, t.out = s.out ++ before ++ .coupler h.port (.sample h.sid h.slot h.symbol h.samples) :: later) ∧
        (∃ z, t.queue q.toNat = some z ∧ z.items = rest) ∧ t.cpl = s.cpl ∧ (i.pool = 63 → SameMem s t))) ∧
    (∀ n, h.window = .due → s.sampleMay h.port = true → Tab.find (s.cplPort h.port).credits h.linkQueue = some (n + 1) →
      Completes (.sampleSend (.queue q)) s (fun t => Tab.find (t.cplPort h.port).credits h.linkQueue = some n ∧
        (∃ before later, t.out = s.out ++ before ++ .coupler h.port (.sample h.sid h.slot h.symbol h.samples) :: later) ∧
        (∃ z, t.queue q.toNat = some z ∧ z.items = rest))) ∧
    (h.window ≠ .due ∨ s.sampleMay h.port = false → exec (.sampleSend (.queue q)) s = .next s) ∧
    (h.window = .late → Completes (.sampleLateDiscard q) s (fun t => Counted s t F.CPL_TX_LATE_TX_LATE 1 h.port ∧
      (∃ z, t.queue q.toNat = some z ∧ z.items = rest) ∧ t.cpl = s.cpl ∧ (i.pool = 63 → SameMem s t))) ∧
    (h.window ≠ .late → exec (.sampleLateDiscard q) s = .next s)) ∧
  (∀ (p : Fin 16) (sid : BitVec 8) (n : Nat) w0 w1 w2 (s : State), s.stream p 1 sid.toNat = some (w0, w1, w2) → w0.testBit 2 = true →
    s.sampleMay p = true → n ≤ (s.cplPort p).rawTx → Completes (.sampleSend (.raw p sid n)) s (fun t =>
      (t.cplPort p).rawTx = (s.cplPort p).rawTx - n ∧ t.out = s.out ++ [.coupler p (.rawSample sid.toNat n)] ∧
      t = { s with cpl := t.cpl, out := t.out })) ∧
  (∀ (k : Nat) (n : Option Nat) (r : RemoteToken) (s : State), s.gdx.remoteOut[k]? = some (n, r) →
    let p := s.routePort r.car
    (s.routeUp r.car = true → (∀ x ∈ s.gdx.remoteOut.take k, s.routePort x.2.car ≠ p) → s.cplTxOn p = true → s.cplGap p = false →
      s.cplXoff p = false →
      (s.cplMinor p = 2 → (s.cplPort p).unacked.length < 256 → Completes (.tokenMessageSend k) s (fun t =>
        t.out = s.out ++ [.coupler p (.token (s.cplPort p).txSeq r.msg)] ∧ t.gdx.remoteOut = s.gdx.remoteOut.eraseIdx k ∧
        (t.cplPort p).txSeq = ((s.cplPort p).txSeq + 1) % 2 ^ 16 ∧
        (t.cplPort p).unacked = (s.cplPort p).unacked ++ [⟨(s.cplPort p).txSeq, r.msg, r.token, 0⟩] ∧
        t = { s with gdx := { s.gdx with remoteOut := t.gdx.remoteOut }, cpl := t.cpl, out := t.out })) ∧
      (s.cplMinor p = 1 → r.token.empty = true → Completes (.tokenMessageSend k) s (fun t => t.out = s.out ++ [.coupler p (.token 0 r.msg)] ∧
        t.gdx.remoteOut = s.gdx.remoteOut.eraseIdx k ∧ t = { s with gdx := { s.gdx with remoteOut := t.gdx.remoteOut }, out := t.out }))) ∧
    (s.routeUp r.car = false → n = none → r.token.empty = true → Completes (.tokenMessageSend k) s (fun t =>
      Counted s t F.CPL_TOKEN_LOST_TOKEN_LOST 1 p ∧ t.gdx.remoteOut = s.gdx.remoteOut.eraseIdx k ∧ t.out = s.out ∧
      RegsBut s t [.CPL_TOKEN_LOST]))) ∧
  (∀ (p : Fin 16) (seq : BitVec 16) (m : TokenMsg) (ok : Bool) (s : State), s.cplUp p = true → s.cplRxOn p = true → s.cplMinor p = 2 →
    s.GdxEmpty → s.flag F.GDX_CTRL_EN = false →
    (seq.toNat ≠ (s.cplPort p).rxNext ∨ ok = false → (s.cplPort p).nakOut = false → Completes (.tokenMessageReceived p seq m ok false) s
      (fun t => t.out = s.out ++ [.coupler p (.nak (s.cplPort p).rxNext)] ∧ (t.cplPort p).nakOut = true ∧
        (t.cplPort p).rxNext = (s.cplPort p).rxNext ∧ RegsBut s t gdxShown ∧ SameMem s t)) ∧
    (seq.toNat = (s.cplPort p).rxNext → ok = true →
      (m.car ≠ s.get F.CPL_CONSIST_CAR → m.hops < 7 → Completes (.tokenMessageReceived p seq m ok false) s (fun t =>
        (t.cplPort p).rxNext = ((s.cplPort p).rxNext + 1) % 2 ^ 16 ∧ (t.cplPort p).rxPending = (s.cplPort p).rxPending + 1 ∧
        (∃ r, t.gdx.remoteOut = s.gdx.remoteOut ++ [(none, r)] ∧ r.car = m.car ∧ r.hops = m.hops + 1 ∧ r.tag = m.tag ∧ r.payload = m.payload) ∧
        RegsBut s t gdxShown ∧ SameMem s t)) ∧
      (∀ tl, m.car = s.get F.CPL_CONSIST_CAR → m.kind = 1 → s.tlOfTag m.tag = some tl → Tab.find s.gdx.newest (m.template, tl) = none →
        Completes (.tokenMessageReceived p seq m ok false) s (fun t => (t.cplPort p).rxNext = ((s.cplPort p).rxNext + 1) % 2 ^ 16 ∧
          t.gdx.held = [⟨m.template, tl, slotId m.slotWord, m.node, m.port, false, emptyToken⟩] ∧ RegsBut s t gdxShown ∧ SameMem s t)))) ∧
  (∀ (p : Fin 16) (s : State), s.cplUp p = true →
    ((s.cplPort p).rxPending ≠ 0 → Completes (.tokenAckSend p) s (fun t => (t.cplPort p).rxPending = 0 ∧
      t.out = s.out ++ [.coupler p (.ack (((s.cplPort p).rxNext + 65535) % 65536))] ∧ t = { s with cpl := t.cpl, out := t.out })) ∧
    ((s.cplPort p).rxPending = 0 → exec (.tokenAckSend p) s = .next s) ∧
    (∀ seq : BitVec 16, Completes (.ackReceived p seq) s (fun t => (t.cplPort p).unacked =
      (s.cplPort p).unacked.filter (fun u => !decide ((seq.toNat + 65536 - u.seq) % 65536 < 32768)) ∧ t.tbu = s.tbu) ∧
      (∀ u, (s.cplPort p).unacked.find? (fun t => t.seq = seq.toNat) = some u →
        (u.naks < 3 → Completes (.nakReceived p seq) s (fun t =>
          t.out = s.out ++ ((s.cplPort p).unacked.filter (fun u => decide ((u.seq + 65536 - seq.toNat) % 65536 < 32768))).map
            (fun u => Out.coupler p (.token u.seq u.msg)) ∧
          (t.cplPort p).unacked.map (·.seq) = (s.cplPort p).unacked.map (·.seq) ∧ RegsBut s t [.CPL_TOKEN_RESENT])) ∧
        (3 ≤ u.naks → Completes (.nakReceived p seq) s (fun t => t.get F.CPL_PORT_STATUS_STATE p = 1 ∧ (t.cplPort p).unacked = [] ∧
          Counted s t F.CPL_LINK_DOWN_LINK_DOWN 1 p))) ∧
      ((s.cplPort p).unacked.find? (fun t => t.seq = seq.toNat) = none → exec (.nakReceived p seq) s = .next s)) ∧
    (∀ (lq : BitVec 8) (n : BitVec 16), Completes (.creditReceived p lq n) s (fun t =>
      Tab.get 0 (t.cplPort p).credits lq.toNat = Tab.get 0 (s.cplPort p).credits lq.toNat + n.toNat ∧ t = { s with cpl := t.cpl })) ∧
    (∀ lk, s.flag F.CPL_PORT_CTRL_TIME_TX p = true → 1 ≤ s.cplMinor p → s.get F.CPL_CONSIST_CAR = 0 → s.cplTxOn p = true →
      s.cplGap p = false → Completes (.timeMessageSend p lk) s (fun t =>
        t = { s with out := s.out ++ [.coupler p (.time s.activeTime 0 0 lk)] })) ∧
    (∀ lk, s.flag F.CPL_PORT_CTRL_TIME_TX p = false → exec (.timeMessageSend p lk) s = .next s)) ∧
  (∀ (p : Fin 16) sec ns frac (car hops : Fin 8) lk (sub : Fin 320) (s : State),
    (∀ dl, exec (.timeMessageReceived p dl sec ns frac car hops lk false sub) s = .next s) ∧
    (∀ d, s.cplUp p = true → s.cplRxOn p = true → 1 ≤ s.cplMinor p → s.flag F.CPL_CONSIST_UP_EN = true →
      s.get F.CPL_CONSIST_UP_PORT = p.val → s.consistDom = some d →
      Completes (.timeMessageReceived p false sec ns frac car hops lk true sub) s (fun t => t.get F.CPL_TIME_INFO_SRC_CAR p = car ∧
        t.get F.CPL_TIME_INFO_HOPS p = hops ∧ t.get F.CPL_TIME_INFO_LOCKED p = (if lk then 1 else 0) ∧ t.get F.CPL_TIME_INFO_NEW p = 1 ∧
        (∀ ps off : Int, (((Tai.units ⟨sec.toNat, ns.toNat, frac.toNat⟩ : Int) - (s.tbu.dom d).counter.units) * 1000 = ps * 2 ^ 32) →
          off = ps + signed 32 (s.get F.CPL_DELAY_OWD_RX_OWD_PS p) - sub.val * 5 → -(2 ^ 31) ≤ off → off < 2 ^ 31 → t.get F.CPL_TIME_OFFSET_OFFSET_PS p = unsigned 32 off) ∧
        RegsBut s t [.CPL_TIME_OFFSET, .CPL_TIME_INFO] ∧ t.tbu = s.tbu ∧ SameMem s t)))

/-- R411 to R414. -/
def Obligations.MailboxesTakeAndAnswerRequests : Prop :=
  (∀ (f : Fin 17) (m : BitVec 8) (seq : BitVec 16) (s : State), let st := s.get F.MBX_STATUS_STATE 0 m.toNat
    (s.mbxOwner m.toNat = f.val → st ≠ 1 → st ≠ 2 → Completes (.mbxDoorbell f m seq) s (fun t => t.get F.MBX_STATUS_STATE 0 m.toNat = 1 ∧
      t.get F.MBX_STATUS_SEQ 0 m.toNat = seq.toNat ∧ FieldsBut s t [(F.MBX_STATUS_STATE, 0, m.toNat), (F.MBX_STATUS_SEQ, 0, m.toNat)] ∧
      t = { s with regs := t.regs, host := { s.host with doorbells := s.host.doorbells + 1 } })) ∧
    (s.mbxOwner m.toNat = f.val → st = 1 ∨ st = 2 → Completes (.mbxDoorbell f m seq) s (fun t =>
      t.get F.MBX_STATUS_DB_IGNORED 0 m.toNat = 1 ∧ FieldsBut s t [(F.MBX_STATUS_DB_IGNORED, 0, m.toNat)] ∧
      t = { s with regs := t.regs, host := { s.host with doorbells := s.host.doorbells + 1 } })) ∧
    (s.mbxOwner m.toNat ≠ f.val → exec (.mbxDoorbell f m seq) s = .next s)) ∧
  (∀ (tlv : TlvCheck) (s : State),
    (s.nextPending = none ∨ s.flag F.MBX_DEV_STATUS_STEOL_READY = false → exec (.requestTake tlv) s = .next s) ∧
    (∀ m, s.nextPending = some m → s.flag F.MBX_DEV_STATUS_STEOL_READY = true →
      ((List.range 256).filter (fun k => s.get F.MBX_STATUS_STATE 0 k = 2)).length < 16 →
      let w0 := s.word (reqArea m)
      let w1 := s.word (reqArea m + 4)
      let r : Req := ⟨natBits w0 16 16, natBits w1 0 16, w1.testBit 16, natBits w0 8 8, natBits w0 0 8, false⟩
      (r.seq ≠ s.get F.MBX_STATUS_SEQ 0 m → Completes (.requestTake tlv) s (fun t => Replied t m r 0x1E (· = []) ∧
        (t.mbx m).last = (s.mbx m).last ∧ RegsBut s t [.MBX_STATUS] ∧ MemBut s t (replyArea m) 4096)) ∧
      (r.seq = s.get F.MBX_STATUS_SEQ 0 m →
        (∀ y, (s.mbx m).last = some y → y.seq = r.seq → Completes (.requestTake tlv) s (fun t => .reply m y ∈ t.out ∧
          t.get F.MBX_STATUS_STATE 0 m = 3 ∧ (t.mbx m).cur = none ∧ RegsBut s t [.MBX_STATUS])) ∧
        ((∀ y, (s.mbx m).last = some y → y.seq ≠ r.seq) →
          (s.headerStatus m r (s.word (reqArea m + 8)) tlv = 0 → Completes (.requestTake tlv) s (fun t =>
            t.get F.MBX_STATUS_STATE 0 m = 2 ∧ (t.mbx m).cur = some r ∧ t.host.turn = m ∧ FieldsBut s t [(F.MBX_STATUS_STATE, 0, m)] ∧
            t = { s with regs := t.regs, host := t.host })) ∧
          (∀ c, s.headerStatus m r (s.word (reqArea m + 8)) tlv = c → c ≠ 0 → Completes (.requestTake tlv) s (fun t =>
            Replied t m r c (· = []) ∧ RegsBut s t [.MBX_STATUS] ∧ MemBut s t (replyArea m) 4096)))))) ∧
  (∀ (m : BitVec 8) (seq : BitVec 16) (j : Job) (s : State),
    s.host.jobs.find? (fun j => decide (j.mbx = m.toNat ∧ j.seq = seq.toNat ∧ j.kind ≠ .fwSwap ∧ j.kind ≠ .fwAbort)) = some j →
    Completes (.asyncCommandComplete m seq .failed) s (fun t => t.host.jobs = s.host.jobs.erase j ∧ t.exu = s.exu ∧ t.gdx = s.gdx ∧
      t.memx.repairs = s.memx.repairs ∧ t.host.fw = s.host.fw) ∧
    (∀ u, j.kind = .repairRemove u → Completes (.asyncCommandComplete m seq .done) s (fun t => t.host.jobs = s.host.jobs.erase j ∧
      t.memx.repairs = s.memx.repairs.filter (fun r => !(r.kind = 3 && r.macroId = u)) ∧ t.exu = s.exu ∧ t.gdx = s.gdx)) ∧
    (∀ v sv rv, j.kind = .fwStage v sv rv → Completes (.asyncCommandComplete m seq .done) s (fun t => t.host.jobs = s.host.jobs.erase j ∧
      t.host.fw.phase = .staged ∧ Tab.find t.host.fw.vers (1 - s.get F.MBX_DEV_STATUS_ACTIVE_PAIR) = some v ∧ t.exu = s.exu ∧ t.gdx = s.gdx)) ∧
    (∀ a len, j.kind = .kernel a len →
      ((s.kernelCause a len true).1 ≠ 0 → Completes (.asyncCommandComplete m seq .done) s (fun t =>
        t.host.jobs = s.host.jobs.erase j ∧ t.exu = s.exu)) ∧
      ((s.kernelCause a len true).1 = 0 → Completes (.asyncCommandComplete m seq .done) s (fun t => t.host.jobs = s.host.jobs.erase j ∧
        ∃ k, Tab.find t.exu.kernels (natBits (s.word (a + 8)) 0 16) = some k ∧ k.revision = natBits (s.word (a + 8)) 16 16 ∧
          k.version = s.exu.nextKernel)))) ∧
  (∀ (m : BitVec 8) (seq : BitVec 16) (o : JobOutcome) (s : State), (∀ j ∈ s.host.jobs, j.mbx ≠ m.toNat ∨ j.seq ≠ seq.toNat) →
    exec (.asyncCommandComplete m seq o) s = .next s)

/-- R404, R418 to R422 and R426. -/
def Obligations.SessionsOpenCloseAndShareTheDevice : Prop :=
  ∀ (mb : BitVec 8) (r : Req) (s : State), let m := mb.toNat
    (∀ (lo up : BitVec 16) (base : BitVec 64) (v : Nat × Nat), s.Serving m 0x0001 r →
      (lo.toNat / 256 ≤ 3 ∧ 3 ≤ up.toNat / 256 ∧ v = (3, if up.toNat / 256 = 3 then min 2 (up.toNat % 256) else 2) ∨
        lo.toNat / 256 ≤ 2 ∧ up.toNat / 256 = 2 ∧ v = (2, min 3 (up.toNat % 256))) →
      Completes (.openSession mb lo up base) s (fun t => Replied t m r 0 (fun l => l.head? = some (.features (featureBits v))) ∧
        t.get F.MBX_OWNER_SESSION_OPEN 0 m = 1 ∧ (t.mbx m).version = some v ∧ Tab.find t.host.hostBase (s.mbxOwner m) = some base.toNat ∧
        RegsBut s t [.MBX_STATUS, .MBX_OWNER] ∧ MemBut s t (replyArea m) 4096)) ∧
    (∀ (lo up : BitVec 16) (base : BitVec 64), s.Serving m 0x0001 r → up.toNat / 256 < 2 ∨ 3 < lo.toNat / 256 →
      Completes (.openSession mb lo up base) s (fun t => Replied t m r 0x10 (· = [.versions [(2, 3), (3, 2)]]) ∧ AnswerOnly s t m)) ∧
    (s.Serving m 0x0002 r → Completes (.closeSession mb) s (fun t => Replied t m r 0 (· = []) ∧ t.get F.MBX_OWNER_SESSION_OPEN 0 m = 0 ∧
      (t.mbx m).version = none ∧ RegsBut s t [.MBX_STATUS, .MBX_OWNER] ∧ MemBut s t (replyArea m) 4096)) ∧
    (s.Serving m 0x0003 r → Completes (.ping mb) s (fun t =>
      Replied t m r 0 (fun l => ∃ v, l = [.detail [v, s.get F.MBX_DEV_STATUS_ACTIVE_PAIR]]) ∧ AnswerOnly s t m)) ∧
    (∀ (f : Fin 17) (p : Partition), s.Serving m 0x0004 r →
      (s.partOk f p = false → Completes (.partition mb f p) s (fun t => Refused s t m r 0x15)) ∧
      ((s.partition f p).isRight = true → Completes (.partition mb f p) s (fun t => Replied t m r 0 (· = []) ∧
        Tab.find t.host.parts f = some p ∧ (∀ n, n < 256 → t.mbxOwner n = t.ownerOf Partition.mailboxes n % 32) ∧
        RegsBut s t [.MBX_STATUS, .MBX_OWNER] ∧ MemBut s t (replyArea m) 4096))) ∧
    (∀ (ring : BitVec 9) (mask : BitVec 11), s.Serving m 0x0005 r →
      (s.ring ring.toNat = none → Completes (.eventRing mb ring mask) s (fun t => Refused s t m r 0x1A)) ∧
      (∀ x, s.ring ring.toNat = some x →
        (x.func ≠ s.mbxOwner m → Completes (.eventRing mb ring mask) s (fun t => Refused s t m r 0x16)) ∧
        (x.func = s.mbxOwner m → x.out = true → x.kind = .event → Completes (.eventRing mb ring mask) s (fun t => Replied t m r 0 (· = []) ∧
          Tab.find t.host.evRings (s.mbxOwner m) = some (ring.toNat, mask.toNat) ∧ AnswerOnly s t m)))) ∧
    (s.Serving m 0x0101 r → Completes (.getDevice mb) s (fun t => Replied t m r 0 (fun l => ∃ a b, l = [.detail
      ((List.range 16).map (Tab.get 0 s.memx.fuses) ++ [s.get F.CPL_CONSIST_CAR, s.get F.BOOT_STATUS_SLOT, a, b])]) ∧ AnswerOnly s t m)) ∧
    (s.Serving m 0x0102 r → Completes (.getUnits mb) s (fun t =>
      Replied t m r 0 (· = [.detail ((List.range 12).flatMap s.unitCounts)]) ∧ AnswerOnly s t m)) ∧
    (s.Serving m 0x0103 r → Completes (.getCapacity mb) s (fun t => Replied t m r 0 (· = [.detail
      (capacity (s.car.list.map (·.2)) (102400, 102400, 256) ++ capacity (s.carsOf (s.mbxOwner m)) (s.share (s.mbxOwner m)))]) ∧
      AnswerOnly s t m))

/-- R113, R150, R423, R424, R436 and R496. -/
def Obligations.CarriersGraphsAndKernelsAreManaged : Prop :=
  ∀ (mb : BitVec 8) (r : Req) (s : State), let m := mb.toNat
    let f := s.mbxOwner m
    (∀ rm add, s.Serving m 0x0201 r → let old := (s.mbx m).version.any (·.1 = 2)
      (∀ e, s.configureIn old f rm add = .inl e → Completes (.configure mb rm add) s (fun t => 1 < e.status → Refused s t m r e.status)) ∧
      (∀ l u, s.configureIn old f rm add = .inr (l, u) → Completes (.configure mb rm add) s (fun t => t.car = u.car ∧ t.aft = u.aft ∧ t.gdx = u.gdx ∧
        t.sq = u.sq ∧ Replied t m r 0 (· = l) ∧
        (∀ d, rm = [] → add = [d] → ∃ h, l = [.handle h] ∧ Tab.find t.car.list h = some ⟨f, d, false, none⟩)))) ∧
    (∀ h, s.Serving m 0x0202 r →
      (Tab.find s.car.list h = none → Completes (.getCarrier mb h) s (fun t => Refused s t m r 0x1A)) ∧
      (∀ c, Tab.find s.car.list h = some c → (c.func ≠ f → Completes (.getCarrier mb h) s (fun t => Refused s t m r 0x16)) ∧
        (c.func = f → Completes (.getCarrier mb h) s (fun t => Replied t m r 0 (fun l => ∃ k, l = [.detail k]) ∧ AnswerOnly s t m)))) ∧
    (∀ h c lk dl, s.Serving m 0x0203 r → Tab.find s.car.list h = some c → c.func = f →
      (c.started = true → Completes (.startCarrier mb h lk dl) s (fun t => Refused s t m r 0x1B)) ∧
      (c.started = false → s.stacksHold = false → s.consistCause c.desc.tag lk dl = 0 → Completes (.startCarrier mb h lk dl) s (fun t =>
        Replied t m r 0 (· = []) ∧ Tab.find t.car.list h = some { c with started := true, shed := none } ∧
        (∀ g, g ≠ h → Tab.find t.car.list g = Tab.find s.car.list g)))) ∧
    (∀ h c, s.Serving m 0x0204 r → Tab.find s.car.list h = some c → c.func = f →
      (c.started = false → Completes (.stopCarrier mb h) s (fun t => Refused s t m r 0x1B)) ∧
      (c.started = true → s.GdxEmpty → s.flag F.GDX_CTRL_EN = false → Completes (.stopCarrier mb h) s (fun t => Replied t m r 0 (· = []) ∧
        Tab.find t.car.list h = some { c with started := false, shed := none } ∧
        (∀ g, g ≠ h → Tab.find t.car.list g = Tab.find s.car.list g)))) ∧
    (∀ hs, s.Serving m 0x0205 r →
      ((∀ h ∈ hs, Tab.find s.car.list h ≠ none) → Completes (.setPrecedence mb hs) s (fun t => Replied t m r 0 (· = []) ∧
        t.car = { s.car with prec := hs } ∧ RegsBut s t [.MBX_STATUS] ∧ MemBut s t (replyArea m) 4096)) ∧
      ((∃ h ∈ hs, Tab.find s.car.list h = none) → Completes (.setPrecedence mb hs) s (fun t => Refused s t m r 0x1A))) ∧
    (∀ hs rs, s.Serving m 0x0206 r → s.badHandle f 0 hs = none → (∀ q ∈ rs, ∃ x, s.ring q = some x ∧ x.func = f) →
      Completes (.claim mb hs rs) s (fun t => Replied t m r 0 (· = []) ∧ f ∉ t.host.unclaimed ∧
        (∀ q ∈ rs, t.ringDetached q = false) ∧ RegsBut s t [.MBX_STATUS, .MBX_RING_STATUS] ∧ t.car = s.car)) ∧
    (∀ (a : BitVec 48) (n : Word),
      (s.Serving m 0x0301 r → Completes (.installGraph mb a n) s (fun t => Accepted s t m r (.graph a.toNat n.toNat) ∧ AnswerOnly s t m)) ∧
      (s.Serving m 0x0302 r → Completes (.installKernel mb a n) s (fun t => Accepted s t m r (.kernel a.toNat n.toNat) ∧ AnswerOnly s t m))) ∧
    (∀ (tp : BitVec 12), s.Serving m 0x0303 r →
      (∀ o, s.ownerOf Partition.templates tp.toNat ≠ f → Completes (.templateOp mb tp o) s (fun t => Refused s t m r 0x16)) ∧
      (s.ownerOf Partition.templates tp.toNat = f →
        (∀ o, s.tplCur tp.toNat = none → Completes (.templateOp mb tp o) s (fun t => Refused s t m r 0x1A)) ∧
        (∀ o g, s.tplCur tp.toNat = some g → Completes (.templateOp mb tp o) s (fun t => Replied t m r 0 (· = []) ∧
          t.tplCur tp.toNat = (if o = .remove then none else some g) ∧
          (o = .block → t.tplBlocked tp.toNat = true) ∧ (o = .unblock → t.tplBlocked tp.toNat = false) ∧
          (∀ k, k ≠ tp.toNat → t.tplCur k = s.tplCur k ∧ t.tplBlocked k = s.tplBlocked k) ∧ t.gdx.insts = s.gdx.insts ∧
          RegsBut s t [.MBX_STATUS] ∧ MemBut s t (replyArea m) 4096)))) ∧
    (∀ (k : BitVec 16), s.Serving m 0x0304 r →
      (Tab.find s.exu.kernels k.toNat = none → Completes (.removeKernel mb k) s (fun t => Refused s t m r 0x1A)) ∧
      (Tab.find s.exu.kernels k.toNat ≠ none → Completes (.removeKernel mb k) s (fun t => Replied t m r 0 (· = []) ∧
        Tab.find t.exu.kernels k.toNat = none ∧ (∀ j, j ≠ k.toNat → Tab.find t.exu.kernels j = Tab.find s.exu.kernels j) ∧ t.gdx = s.gdx ∧
        RegsBut s t [.MBX_STATUS]))) ∧
    (s.Serving m 0x0305 r → Completes (.list mb) s (fun t => Replied t m r 0 (fun l => ∃ k, l = [.detail k]) ∧ AnswerOnly s t m)) ∧
    (∀ c n, s.Serving m 0x0306 r →
      (9 < c ∨ 255 < n → Completes (.setReserve mb c n) s (fun t => Refused s t m r 0x15)) ∧
      (c ≤ 9 → n ≤ 255 → n < classActive c → Completes (.setReserve mb c n) s (fun t => Replied t m r 0 (· = []) ∧
        t.get F.GDX_CLASS_RESERVE_RESERVE 0 c = n ∧ RegsBut s t [.MBX_STATUS, .GDX_CLASS_RESERVE] ∧ MemBut s t (replyArea m) 4096))) ∧
    (∀ n lim, s.Serving m 0x0307 r →
      (n < 1 ∨ 3 < n ∨ 4095 < lim → Completes (.setReplay mb n lim) s (fun t => Refused s t m r 0x15)) ∧
      (1 ≤ n → n ≤ 3 → lim ≤ 4095 → Completes (.setReplay mb n lim) s (fun t => Replied t m r 0 (· = []) ∧
        t.get F.GDX_CFG_REPLAY_MAX = n ∧ t.get F.GDX_CFG_L0_LIMIT_NS = lim ∧ RegsBut s t [.MBX_STATUS, .GDX_CFG] ∧
        MemBut s t (replyArea m) 4096)))

/-- R46, R50, R52, R54, R57, R59, R88 and R96. -/
def Obligations.TimeWhistlesAndPinsAreServed : Prop :=
  ∀ (mb : BitVec 8) (r : Req) (s : State), let m := mb.toNat
    let f := s.mbxOwner m
    (s.Serving m 0x0401 r → Completes (.timeStatus mb) s (fun t => Replied t m r 0 (fun l => ∃ k, l = [.detail k]) ∧ AnswerOnly s t m)) ∧
    (∀ (d : Dom) (src : Fin 4) (ports : List (Fin 32)) (ptp : BitVec 8) sy up, s.Serving m 0x0402 r →
      Completes (.timeSource mb d src ports ptp sy up) s (fun t => Replied t m r 0 (· = []) ∧
        t.get F.TBU_D_SOURCE_SRC 0 (domIdx d) = src ∧ t.get F.TBU_D_SOURCE_PTP_DOMAIN 0 (domIdx d) = ptp.toNat ∧
        (∀ q : Fin 32, t.get F.TBU_PORT_CFG_DOMAIN 0 q = (if q ∈ ports then domIdx d + 1
          else if s.get F.TBU_PORT_CFG_DOMAIN 0 q = domIdx d + 1 then 0 else s.get F.TBU_PORT_CFG_DOMAIN 0 q)) ∧
        RegsBut s t [.MBX_STATUS, .TBU_D_SOURCE, .TBU_PORT_CFG, .CPL_CONSIST] ∧ MemBut s t (replyArea m) 4096 ∧ t.tbu = s.tbu)) ∧
    (∀ ns : Word, s.Serving m 0x0403 r → Completes (.jumpLimit mb ns) s (fun t => Replied t m r 0 (· = []) ∧
      t.get F.TBU_JUMP_LIMIT_LIMIT_NS = max 1 (min 1000000000 ns.toNat) ∧ RegsBut s t [.MBX_STATUS, .TBU_JUMP_LIMIT] ∧
      MemBut s t (replyArea m) 4096)) ∧
    (∀ (d : Dom) force (tl : BitVec 8), s.Serving m 0x0404 r →
      (s.tbu.switch ≠ none → Completes (.switch mb d force tl) s (fun t => Replied t m r 0x19 (· = []) ∧ t.tbu = s.tbu ∧
        t.get F.TBU_STATUS_SWITCH_BUSY = 1 ∧ RegsBut s t [.MBX_STATUS, .TBU_SWITCH, .TBU_STATUS])) ∧
      (s.tbu.switch = none → s.active ≠ d → Completes (.switch mb d force tl) s (fun t => Replied t m r 0 (· = []) ∧
        t.tbu = { s.tbu with switch := some ⟨d, force, tl.toNat⟩ } ∧ t.get F.TBU_STATUS_SWITCH_PENDING = 1 ∧
        RegsBut s t [.MBX_STATUS, .TBU_SWITCH, .TBU_STATUS])) ∧
      (s.tbu.switch = none → s.active = d → Completes (.switch mb d force tl) s (fun t => Replied t m r 0 (· = []) ∧ t.tbu = s.tbu ∧
        RegsBut s t [.MBX_STATUS, .TBU_SWITCH]))) ∧
    (∀ (sec : BitVec 48) utc, s.Serving m 0x0405 r → Completes (.timeOfDay mb sec utc) s (fun t => Replied t m r 0 (· = []) ∧
      t.host.tod = some (sec.toNat, utc) ∧ AnswerOnly s t m)) ∧
    (∀ (q : Fin 32) prof role one sy ec, s.Serving m 0x0406 r →
      (1 < prof ∨ 2 < role → Completes (.ptpPort mb q prof role one sy ec) s (fun t => Refused s t m r 0x15)) ∧
      (prof = 1 → role ≤ 2 → role = 0 ∨ one = true → Completes (.ptpPort mb q prof role one sy ec) s (fun t => Refused s t m r 0x17)) ∧
      (prof = 0 → role ≤ 2 → Completes (.ptpPort mb q prof role one sy ec) s (fun t => Replied t m r 0 (· = []) ∧
        t.get F.TBU_PORT_CFG_ONE_STEP 0 q = (if one then 1 else 0) ∧ t.get F.TBU_PORT_CFG_SYNCE_OUT 0 q = (if sy then 1 else 0) ∧
        t.get F.TBU_PORT_CFG_ECPRI_OWD_EN 0 q = (if ec then 1 else 0) ∧ Tab.find t.host.ptp q.val = some (prof, role) ∧
        RegsBut s t [.MBX_STATUS, .TBU_PORT_CFG] ∧ MemBut s t (replyArea m) 4096))) ∧
    (s.Serving m 0x0407 r → Completes (.consist mb) s (fun t => Replied t m r 0 (· = [.detail ([s.get F.CPL_CONSIST_CAR,
      s.get F.CPL_CONSIST_UP_PORT, s.get F.CPL_TIME_OFFSET_OFFSET_PS (s.get F.CPL_CONSIST_UP_PORT)] ++ s.gdx.mismatch)]) ∧ AnswerOnly s t m)) ∧
    (∀ (ch : BitVec 10),
      (∀ ws, s.Serving m 0x0501 r →
        (s.ownerOf Partition.whistles ch.toNat ≠ f → Completes (.whistleArm mb ch ws) s (fun t => Refused s t m r 0x16)) ∧
        (s.ownerOf Partition.whistles ch.toNat = f →
          let u := (s.clr F.WHS_STATUS_ARM_REFUSED).whsWriteArm ch.toNat (ws.map (·.toNat))
          (u.flag F.WHS_STATUS_ARM_REFUSED = true → Completes (.whistleArm mb ch ws) s (fun t => Replied t m r 0x15 (· = []) ∧
            t.get F.WHS_STATUS_CAUSE = u.get F.WHS_STATUS_CAUSE ∧ t.tbu = s.tbu)) ∧
          (u.flag F.WHS_STATUS_ARM_REFUSED = false → Completes (.whistleArm mb ch ws) s (fun t => Replied t m r 0 (· = []) ∧
            t.whs ch.toNat = u.whs ch.toNat ∧ t.get F.WHS_STATUS_ARM_REFUSED = s.get F.WHS_STATUS_ARM_REFUSED ∧ t.tbu = s.tbu)))) ∧
      (∀ x, s.Serving m 0x0502 r → s.ownerOf Partition.whistles ch.toNat = f → s.whs ch.toNat = some x →
        Completes (.whistleDisarm mb ch) s (fun t => Replied t m r 0 (· = []) ∧ t.whs ch.toNat = some { x with armed := false } ∧
          (∀ k, k ≠ ch.toNat → t.whs k = s.whs k) ∧ RegsBut s t [.MBX_STATUS])) ∧
      (s.Serving m 0x0503 r →
        (s.ownerOf Partition.whistles ch.toNat = f → Completes (.whistleGet mb ch) s (fun t =>
          Replied t m r 0 (· = [.detail (s.words (s.whsAddr ch.toNat) 8)]) ∧ AnswerOnly s t m)) ∧
        (s.ownerOf Partition.whistles ch.toNat ≠ f → Completes (.whistleGet mb ch) s (fun t => Refused s t m r 0x16)))) ∧
    (∀ ns : Word, s.Serving m 0x0504 r →
      (2 ^ 19 ≤ ns.toNat → Completes (.grace mb ns) s (fun t => Refused s t m r 0x15)) ∧
      (ns.toNat < 2 ^ 19 → Completes (.grace mb ns) s (fun t => Replied t m r 0 (· = []) ∧ t.get F.WHS_GRACE_GRACE_NS = ns.toNat ∧
        RegsBut s t [.MBX_STATUS, .WHS_GRACE] ∧ MemBut s t (replyArea m) 4096))) ∧
    (∀ (n : BitVec 6) (ctrl coord delta timing : Word), s.Serving m 0x0505 r → Completes (.pin mb n ctrl coord delta timing) s (fun t =>
      Replied t m r 0 (· = []) ∧
      t.rd ⟨.WHS_PIN_COORD, 0, n.toNat⟩ = storedWord .WHS_PIN_COORD (s.rd ⟨.WHS_PIN_COORD, 0, n.toNat⟩) coord ∧
      t.rd ⟨.WHS_PIN_DELTA_NS, 0, n.toNat⟩ = storedWord .WHS_PIN_DELTA_NS (s.rd ⟨.WHS_PIN_DELTA_NS, 0, n.toNat⟩) delta ∧
      t.rd ⟨.WHS_PIN_TIMING, 0, n.toNat⟩ = storedWord .WHS_PIN_TIMING (s.rd ⟨.WHS_PIN_TIMING, 0, n.toNat⟩) timing ∧
      (ctrl.getLsbD 0 = false → t.get F.WHS_PIN_CTRL_EN 0 n.toNat = 0) ∧ t.tbu = s.tbu ∧ t.gdx = s.gdx))

/-- R109, R331 to R333, R383, R390, R407, R428, R448, R452 and R459. -/
def Obligations.RingsQueuesPoolsAndPowerAreServed : Prop :=
  ∀ (mb : BitVec 8) (r : Req) (s : State), let m := mb.toNat
    let f := s.mbxOwner m
    (∀ (n : BitVec 9) (p : RingParams), s.Serving m 0x0601 r →
      (s.ownerOf Partition.rings n.toNat ≠ f → Completes (.ringCreate mb n p) s (fun t => Refused s t m r 0x16)) ∧
      (s.ownerOf Partition.rings n.toNat = f →
        (s.ring n.toNat ≠ none → Completes (.ringCreate mb n p) s (fun t => Refused s t m r 0x1B)) ∧
        (s.ring n.toNat = none → (∀ v, (s.mbx m).version = some v → v.1 = 3) →
          (ringOk p = false → Completes (.ringCreate mb n p) s (fun t => Refused s t m r 0x15)) ∧
          (ringOk p = true → Completes (.ringCreate mb n p) s (fun t => Replied t m r 0 (· = []) ∧
            (∃ x, t.ring n.toNat = some x ∧ x.func = f ∧ x.out = p.out ∧ x.kind = p.kind ∧ x.base = p.base ∧ x.entries = p.entries ∧ x.items = []) ∧
            t.get F.MBX_RING_STATUS_ENABLED 0 n.toNat = 1 ∧ t.get F.MBX_RING_TAIL_TAIL 0 n.toNat = 0 ∧ t.get F.MBX_RING_HEAD_HEAD 0 n.toNat = 0 ∧
            t.get F.MBX_RING_IRQ_VECTOR 0 n.toNat = p.vector ∧ (∀ k, k ≠ n.toNat → t.ring k = s.ring k) ∧
            RegsBut s t [.MBX_STATUS, .MBX_RING_STATUS, .MBX_RING_TAIL, .MBX_RING_HEAD, .MBX_RING_IRQ] ∧ MemBut s t (replyArea m) 4096))))) ∧
    (∀ (n : BitVec 9), s.Serving m 0x0602 r →
      (s.ring n.toNat = none → Completes (.ringDestroy mb n) s (fun t => Refused s t m r 0x1A)) ∧
      (∀ x, s.ring n.toNat = some x →
        (x.func ≠ f → Completes (.ringDestroy mb n) s (fun t => Refused s t m r 0x16)) ∧
        (x.func = f → Completes (.ringDestroy mb n) s (fun t => Replied t m r 0 (· = []) ∧ t.ring n.toNat = none ∧
          (∀ k, k ≠ n.toNat → t.ring k = s.ring k) ∧ t.get F.MBX_RING_STATUS_ENABLED 0 n.toNat = 0 ∧
          (∀ e ∈ t.host.evRings, e.2.1 ≠ n.toNat) ∧ RegsBut s t [.MBX_STATUS, .MBX_RING_STATUS] ∧
          (x.items = [] → MemBut s t (replyArea m) 4096))))) ∧
    (∀ (q : BitVec 10), s.Serving m 0x0603 r →
      (∀ o, s.ownerOf Partition.queues q.toNat ≠ f → Completes (.queueConfig mb q o) s (fun t => Refused s t m r 0x16)) ∧
      (s.ownerOf Partition.queues q.toNat = f →
        (∀ ws, ws.length = 16 → Completes (.queueConfig mb q (.entry ws)) s (fun t => Replied t m r 0 (· = []) ∧
          t.words (sramBase + s.get F.SQ_TABLE_BASE_BASE + 64 * q.toNat) 16 = ws.map (·.toNat) ∧ t.sq = s.sq ∧ RegsBut s t [.MBX_STATUS] ∧
          MemOut s t [(replyArea m, 4096), (sramBase + s.get F.SQ_TABLE_BASE_BASE + 64 * q.toNat, 64)])) ∧
        (∀ e c, queueEntry (s.queueWords q.toNat) = e → e.refusal (s.queueOn q.toNat) = c →
          (c = 0 → Completes (.queueConfig mb q .enable) s (fun t => Replied t m r 0 (· = []) ∧
            t.queueOn q.toNat = true ∧ ∃ x, t.queue q.toNat = some x ∧ x.ent = e)) ∧
          (c ≠ 0 → Completes (.queueConfig mb q .enable) s (fun t =>
            Replied t m r (if 6 ≤ c then 0x1B else 0x15) (· = []) ∧ t.sq = s.sq ∧ t.get F.SQ_CMD_STATUS_CAUSE = c))) ∧
        Completes (.queueConfig mb q .disable) s (fun t => Replied t m r 0 (· = []) ∧ t.queueOn q.toNat = false))) ∧
    (∀ (q : BitVec 10), s.Serving m 0x0604 r → s.ownerOf Partition.queues q.toNat = f → s.gdx.snap = none →
      Completes (.queueStatus mb q) s (fun t => Replied t m r 0 (fun l => ∃ a b c d, l = [.detail [a, b, c, d]]) ∧
        t.get F.SQ_SEL_QUEUE = q.toNat ∧
        RegsBut s t [.MBX_STATUS, .SQ_SEL, .SQ_Q_LEVEL, .SQ_Q_DROPS, .SQ_Q_GAPS, .SQ_Q_STATUS] ∧ t.sq = s.sq)) ∧
    (∀ (p : BitVec 6) (ws : List Word), s.Serving m 0x0605 r →
      (61 < p.toNat → Completes (.bufpool mb p ws) s (fun t => Refused s t m r 0x15)) ∧
      (p.toNat ≤ 61 → s.ownerOf Partition.bufPools p.toNat = f → ws.length = 5 → Completes (.bufpool mb p ws) s (fun t => Replied t m r 0 (· = []) ∧
        t.words (s.poolAddr p.toNat) 7 = ws.map (·.toNat) ++ List.replicate 2 (natBits (ws.getD 3 0).toNat 0 20) ∧
        RegsBut s t [.MBX_STATUS] ∧ MemOut s t [(replyArea m, 4096), (s.poolAddr p.toNat, 28)]))) ∧
    (∀ (p : Fin 16) ign pol, s.Serving m 0x0606 r → Completes (.xoffIn mb p ign pol) s (fun t => Replied t m r 0 (· = []) ∧
      (∀ k, k < 16 → (t.get F.SQ_XOFF_IN_POLICY_POLICY).testBit k = (if k = p.val then ign else (s.get F.SQ_XOFF_IN_POLICY_POLICY).testBit k) ∧
        (t.get F.SQ_XOFF_IN_POL_POL).testBit k = (if k = p.val then pol else (s.get F.SQ_XOFF_IN_POL_POL).testBit k)) ∧
      RegsBut s t [.MBX_STATUS, .SQ_XOFF_IN_POLICY, .SQ_XOFF_IN_POL] ∧ MemBut s t (replyArea m) 4096)) ∧
    (∀ (g : Fin 17) (w : Fin 8) (a : BitVec 48), s.Serving m 0x0607 r →
      (g.val = 0 ∨ a.toNat < hbmBase ∨ hbmBase + 0x2400000000 ≤ a.toNat ∨ a.toNat % 0x80000000 ≠ 0 →
        Completes (.bar2Window mb g w a) s (fun t => Refused s t m r 0x15)) ∧
      (g.val ≠ 0 → hbmBase ≤ a.toNat → a.toNat < hbmBase + 0x2400000000 → a.toNat % 0x80000000 = 0 → Completes (.bar2Window mb g w a) s (fun t =>
        Replied t m r 0 (· = []) ∧ Tab.find t.host.windows (g.val, w.val) = some a.toNat ∧ AnswerOnly s t m))) ∧
    (∀ (p : Fin 16) gm pr amin amax, s.Serving m 0x0608 r →
      (gm < 1000 ∨ 20000 < gm → Completes (.couplerPort mb p gm pr amin amax) s (fun t => Refused s t m r 0x15)) ∧
      (1000 ≤ gm → gm ≤ 20000 → 1 ≤ pr → pr ≤ 15 → amin < 2 ^ 21 → amax < 2 ^ 21 → Completes (.couplerPort mb p gm pr amin amax) s (fun t =>
        Replied t m r 0 (· = [.detail [gm, pr, amin, amax]]) ∧ t.get F.CPL_GAP_MAX_GAP_MAX_NS p = gm ∧ t.get F.CPL_PORT_CTRL_PROBES p = pr ∧
        t.get F.CPL_TX_ADV_MIN_TX_ADV_MIN_NS p = amin ∧ t.get F.CPL_TX_ADV_MAX_TX_ADV_MAX_NS p = amax ∧
        RegsBut s t [.MBX_STATUS, .CPL_GAP_MAX, .CPL_PORT_CTRL, .CPL_TX_ADV_MIN, .CPL_TX_ADV_MAX] ∧ MemBut s t (replyArea m) 4096))) ∧
    (∀ (d : BitVec 8) (deep : Fin 6) dwell (ret : BitVec 25), s.Serving m 0x0701 r → dwell < 2 ^ 24 →
      (domAllowed d.toNat = [] → Completes (.powerPolicy mb d deep dwell ret []) s (fun t => Refused s t m r 0x15)) ∧
      (d.toNat < 24 → Completes (.powerPolicy mb d deep dwell ret []) s (fun t => Replied t m r 0 (· = []) ∧
        t.get F.PWR_DOM_POLICY_DEEPEST 0 d.toNat = deep ∧ t.get F.PWR_DOM_POLICY_MIN_DWELL_US 0 d.toNat = dwell ∧
        t.get F.PWR_DOM_RETAIN_RETAIN 0 d.toNat = ret.toNat ∧ RegsBut s t [.MBX_STATUS, .PWR_DOM_POLICY, .PWR_DOM_RETAIN] ∧
        MemBut s t (replyArea m) 4096))) ∧
    (s.Serving m 0x0702 r → s.gdx.snap = none → Completes (.powerState mb) s (fun t =>
      Replied t m r 0 (fun l => ∃ k, l = [.detail k]) ∧ RegsBut s t [.MBX_STATUS, .PWR_DOM_SEL, .PWR_DOM_ABANDONED] ∧ t.pwr = s.pwr)) ∧
    (∀ (k : Fin 32) (cfg tm th ac : Word), s.Serving m 0x0703 r → Completes (.tenderRule mb k cfg tm th ac) s (fun t => Replied t m r 0 (· = []) ∧
      t.rd ⟨.TND_RULE_CFG, 0, k⟩ = storedWord .TND_RULE_CFG (s.rd ⟨.TND_RULE_CFG, 0, k⟩) cfg ∧
      t.rd ⟨.TND_RULE_TIMING, 0, k⟩ = storedWord .TND_RULE_TIMING (s.rd ⟨.TND_RULE_TIMING, 0, k⟩) tm ∧
      t.rd ⟨.TND_RULE_THRESH, 0, k⟩ = storedWord .TND_RULE_THRESH (s.rd ⟨.TND_RULE_THRESH, 0, k⟩) th ∧
      t.rd ⟨.TND_RULE_ACTION, 0, k⟩ = storedWord .TND_RULE_ACTION (s.rd ⟨.TND_RULE_ACTION, 0, k⟩) ac ∧
      RegsBut s t [.MBX_STATUS, .TND_RULE_CFG, .TND_RULE_TIMING, .TND_RULE_THRESH, .TND_RULE_ACTION] ∧ MemBut s t (replyArea m) 4096)) ∧
    (∀ mask : Word, s.Serving m 0x0704 r →
      ((∃ c ∈ s.car.list, c.2.started = true) → Completes (.hibernate mb mask) s (fun t => Refused s t m r 0x1B)) ∧
      ((∀ c ∈ s.car.list, c.2.started = false) → s.domMoving 255 = false → s.domState 255 = 0 → s.pwrJudge 255 4 = 0 →
        Completes (.hibernate mb mask) s (fun t => Replied t m r 1 (· = []) ∧ t.get F.MBX_DEV_STATUS_STEOL_READY = 0 ∧
          t.get F.PWR_DOM_STATE_TARGET 0 255 = 4 ∧ t.get F.PWR_DOM_STATE_ENTERING 0 255 = 1 ∧
          RegsBut s t [.MBX_STATUS, .MBX_DEV_STATUS, .TND_RULE_CFG, .PWR_DOM_STATE] ∧ MemBut s t (replyArea m) 4096)))

/-- R154, R362, R410, R425, R437, R438, R491, R501, R502, R521 and R562. -/
def Obligations.TestsRecordsAndFirmwareAreServed : Prop :=
  (∀ (mb : BitVec 8) (r : Req) (s : State), let m := mb.toNat
    let f := s.mbxOwner m
    (∀ ty ix, s.Serving m 0x0801 r →
      (testUnits ty ≤ ix → Completes (.selftest mb ty ix) s (fun t => Refused s t m r 0x15)) ∧
      (ix < testUnits ty → (∀ d, unitDomain ty ix = some d → s.domState d ≠ 3 ∧ s.domState d ≠ 5) →
        (s.dep.asked.filter (fun a => a.unit / 2048 = ty)).length < 8 → s.onBench (ty * 2048 + ix) = false →
        Completes (.selftest mb ty ix) s (fun t => Replied t m r 1 (· = []) ∧
          t.dep = { s.dep with asked := s.dep.asked ++ [⟨ty * 2048 + ix, m, r.seq, f, false⟩] } ∧ RegsBut s t [.MBX_STATUS] ∧
          MemBut s t (replyArea m) 4096))) ∧
    (∀ (n : Fin 32) loop pat, s.Serving m 0x0802 r → loop ≤ 3 → pat ≤ 7 →
      (∀ p, s.portOfLane n = some p → s.flag F.NET_PORT_CTRL_EN p = true → Completes (.laneTest mb (.net n) loop pat) s (fun t =>
        Refused s t m r 0x19)) ∧
      (s.portOfLane n = none → pat < 5 → loop < 3 → Completes (.laneTest mb (.net n) loop pat) s (fun t =>
        Accepted s t m r (.laneTest false 0 n loop pat) ∧ t.get F.NET_LANE_PRBS_CTRL_GEN_EN n = 1 ∧ t.get F.NET_LANE_PRBS_CTRL_CHK_EN n = 1 ∧
        t.get F.NET_LANE_PRBS_CTRL_PATTERN n = pat ∧ t.get F.NET_LANE_PRBS_CTRL_LOOP n = loop ∧
        RegsBut s t [.MBX_STATUS, .NET_LANE_PRBS_CTRL, .NET_LANE_PRBS_STATUS] ∧ MemBut s t (replyArea m) 4096))) ∧
    (∀ (a : BitVec 28) n, s.Serving m 0x0803 r →
      (n < 1 ∨ 1000 < n → Completes (.readCsr mb a n) s (fun t => Refused s t m r 0x15)) ∧
      (1 ≤ n → n ≤ 1000 → (∀ k, k < n → s.csrPeek (a.toNat + 4 * k) ≠ none) → Completes (.readCsr mb a n) s (fun t =>
        Replied t m r 0 (· = [.detail ((List.range n).map (fun k => (s.csrPeek (a.toNat + 4 * k)).getD 0))]) ∧ AnswerOnly s t m))) ∧
    (∀ (a : BitVec 28) (v : Word), s.Serving m 0x0804 r →
      (s.dbgScope 1 = false → Completes (.writeCsr mb a v) s (fun t => Refused s t m r 0x16)) ∧
      (s.dbgScope 1 = true → a.toNat % 4 = 0 → csrAt a.toNat ≠ none → Completes (.writeCsr mb a v) s (fun t => Replied t m r 0 (· = []) ∧
        RegsBut (s.csrWrite .steward a.toNat v) t [.MBX_STATUS] ∧ MemBut (s.csrWrite .steward a.toNat v) t (replyArea m) 4096))) ∧
    (∀ (n : BitVec 9) x, s.ring n.toNat = some x → x.func = f →
      (s.Serving m 0x0805 r → (x.out = true → Completes (.telemetry mb n) s (fun t => Replied t m r 0 (· = []) ∧
          t.host.telemRing = some n.toNat ∧ AnswerOnly s t m)) ∧
        (x.out = false → Completes (.telemetry mb n) s (fun t => Refused s t m r 0x15))) ∧
      (∀ mask : BitVec 3, s.Serving m 0x0B03 r → (x.out = true → Completes (.errStream mb n mask) s (fun t => Replied t m r 0 (· = []) ∧
          t.host.errStream = some (n.toNat, mask.toNat) ∧ AnswerOnly s t m)) ∧
        (x.out = false → Completes (.errStream mb n mask) s (fun t => Refused s t m r 0x15)))) ∧
    (s.Serving m 0x0806 r → Completes (.snapshot mb) s (fun t => Replied t m r 0 (fun l => ∃ k, l = [.detail k] ∧ k.length = snapKeys.length) ∧
      t.gdx.snap = none ∧ t.get F.GDX_SNAP_HOLD = 0 ∧ t.gdx.insts = s.gdx.insts ∧ t.gdx.nodes = s.gdx.nodes)) ∧
    (∀ k, s.Serving m 0x0901 r →
      (s.recBody (recNumber k) = none → Completes (.readRecord mb k) s (fun t => Refused s t m r 0x1A)) ∧
      (∀ ws, s.recBody (recNumber k) = some ws → Completes (.readRecord mb k) s (fun t => Replied t m r 0 (· = [.detail ws]) ∧ AnswerOnly s t m))) ∧
    (s.Serving m 0x0902 r →
      (∀ k l, k ≠ .repairMap → 64 + (l.length + 7) / 8 * 32 ≤ (recRegion (recNumber k)).2 → Completes (.writeRecord mb k (.words l)) s (fun t =>
        Accepted s t m r (.writeRecord (recNumber k) (l.map (·.toNat))) ∧ AnswerOnly s t m)) ∧
      (∀ u, (∀ x ∈ s.memx.repairs, x.kind = 3 → x.macroId ≠ u.toNat) → Completes (.writeRecord mb .repairMap (.removeUnit u)) s (fun t =>
        Refused s t m r 0x1A)) ∧
      (∀ u, (∃ x ∈ s.memx.repairs, x.kind = 3 ∧ x.macroId = u.toNat) → Completes (.writeRecord mb .repairMap (.removeUnit u)) s (fun t =>
        Accepted s t m r (.repairRemove u.toNat) ∧ AnswerOnly s t m))) ∧
    (∀ a n, s.Serving m 0x0903 r → Completes (.faultLog mb a n) s (fun t => Replied t m r 0 (· = (s.logRead a n).map .detail) ∧
      AnswerOnly s t m)) ∧
    (∀ sig (sv : BitVec 7) v sup (rv : BitVec 4) (sg : Fin 4), s.Serving m 0x0A01 r →
      (s.host.fw.phase ≠ .idle → Completes (.fwStage mb sig sv v sup rv sg) s (fun t => Refused s t m r 0x19)) ∧
      (s.host.fw.phase = .idle → (∀ j ∈ s.host.jobs, j.kind.stages = false) →
        (sig = false → Completes (.fwStage mb sig sv v sup rv sg) s (fun t => Refused s t m r 0x1C)) ∧
        (s.rollback ≤ sv.toNat → s.flag F.MBX_DEV_STATUS_STANDBY_READY = true → rv.getLsbD sg = false →
          Completes (.fwStage mb true sv v true rv sg) s (fun t => Accepted s t m r (.fwStage v sv.toNat rv.toNat) ∧ AnswerOnly s t m ∧
            t.host.fw = s.host.fw)))) ∧
    (s.Serving m 0x0A02 r → Completes (.fwStatus mb) s (fun t => Replied t m r 0 (· = [.detail [s.host.fw.phase.code,
      Tab.get 0 s.host.fw.vers 0, Tab.get 0 s.host.fw.vers 1]]) ∧ AnswerOnly s t m)) ∧
    (∀ tl : Option (BitVec 8), s.Serving m 0x0A03 r →
      (s.host.fw.phase ≠ .staged → Completes (.fwSwap mb tl) s (fun t => Refused s t m r 0x1B)) ∧
      (s.host.fw.phase = .staged → s.host.fw.swap = none → Completes (.fwSwap mb tl) s (fun t => Accepted s t m r .fwSwap ∧
        t.host.fw = { s.host.fw with swap := some (tl.map (·.toNat)) } ∧ AnswerOnly s t m))) ∧
    (s.Serving m 0x0A04 r →
      (s.host.fw.phase ≠ .trial → Completes (.fwCommit mb) s (fun t => Refused s t m r 0x1B)) ∧
      (s.host.fw.phase = .trial → s.host.fw.swap = none → Completes (.fwCommit mb) s (fun t => Accepted s t m r .fwCommit ∧
        t.host.fw.phase = .noStandby ∧ t.get F.MBX_DEV_STATUS_STANDBY_READY = 0 ∧ RegsBut s t [.MBX_STATUS, .MBX_DEV_STATUS]))) ∧
    (s.Serving m 0x0A05 r →
      (s.host.fw.phase ≠ .trial → Completes (.fwAbort mb) s (fun t => Refused s t m r 0x1B)) ∧
      (s.host.fw.phase = .trial → s.host.fw.swap = none → Completes (.fwAbort mb) s (fun t => Accepted s t m r .fwAbort ∧
        t.host.fw = { s.host.fw with swap := some none } ∧ AnswerOnly s t m))) ∧
    (∀ (sev : Fin 3) n, s.Serving m 0x0B01 r → Completes (.errRead mb sev n) s (fun t => Replied t m r 0
      (· = ((s.memx.errStore.filter (fun x => x.1 = sev.val)).take n).map (fun x => .detail x.2)) ∧ AnswerOnly s t m)) ∧
    (s.Serving m 0x0B02 r →
      (∀ k : BitVec 8, 216 ≤ k.toNat → Completes (.errClearFirst mb (.vsc k)) s (fun t => Refused s t m r 0x15)) ∧
      (∀ k : BitVec 8, k.toNat < 216 → Completes (.errClearFirst mb (.vsc k)) s (fun t => Replied t m r 0 (· = []) ∧
        t.get F.VSC_FAULT_VALID k.toNat = 0 ∧ RegsBut s t [.MBX_STATUS, .VSC_FAULT] ∧ MemBut s t (replyArea m) 4096)) ∧
      (∀ n : Fin 12, Completes (.errClearFirst mb (.ecc n)) s (fun t => Replied t m r 0 (· = []) ∧
        t.get F.ECC_FIRST_STATUS_VALID 0 n = 0 ∧ RegsBut s t [.MBX_STATUS, .ECC_FIRST_STATUS] ∧ MemBut s t (replyArea m) 4096)) ∧
      Completes (.errClearFirst mb .ump) s (fun t => Replied t m r 0 (· = []) ∧ t.get F.UMP_FIRST_NODE_VALID = 0 ∧
        RegsBut s t [.MBX_STATUS, .UMP_FIRST_NODE] ∧ MemBut s t (replyArea m) 4096) ∧
      (∀ q : Fin 3, Completes (.errClearFirst mb (.erq q)) s (fun t => Replied t m r 0 (· = []) ∧
        (∀ k, (t.get F.ECC_ERQ_FIRST_VALID_VALID).testBit k = (decide (k ≠ q.val) && (s.get F.ECC_ERQ_FIRST_VALID_VALID).testBit k)) ∧
        RegsBut s t [.MBX_STATUS, .ECC_ERQ_FIRST_VALID] ∧ MemBut s t (replyArea m) 4096)))) ∧
  (∀ s : State,
    (s.host.fw.swap ≠ none → s.flag F.MBX_DEV_STATUS_STANDBY_READY = true → Completes .fwSwapPoint s (fun t =>
      t.get F.MBX_DEV_STATUS_ACTIVE_PAIR = 1 - s.get F.MBX_DEV_STATUS_ACTIVE_PAIR ∧ t.get F.MBX_DEV_EVENT_SWAP = 1 ∧ t.host.fw.swap = none ∧
      (s.host.fw.phase = .staged → t.host.fw.phase = .trial ∧ t.get F.MBX_DEV_STATUS_TRIAL = 1) ∧
      (s.host.fw.phase ≠ .staged → t.host.fw.phase = .idle ∧ t.get F.MBX_DEV_STATUS_TRIAL = 0) ∧ t.tbu = s.tbu ∧ t.gdx = s.gdx)) ∧
    (s.host.fw.swap = none ∨ s.flag F.MBX_DEV_STATUS_STANDBY_READY = false → exec .fwSwapPoint s = .next s))

/-- R443, R445, R447 to R451, R453, R456 and R457. -/
def Obligations.DomainsEnterWakeAndHibernate : Prop :=
  (∀ (db : BitVec 8) (tb : BitVec 3) (s : State), let d := db.toNat
    let t' := tb.toNat
    let i := Instr.powerRequest db tb
    let cur := s.domState d
    let ref : Nat → Prop := fun c => Completes i s (fun t => t.get F.PWR_REQ_STATUS_REFUSED = 1 ∧ t.get F.PWR_REQ_STATUS_CAUSE = c ∧
      t.get F.PWR_REQ_STATUS_DOMAIN = d ∧ (domAllowed d ≠ [] → Counted s t F.PWR_DOM_REFUSED_REFUSED 1 0 d) ∧ OnlyRegs s t ∧
      RegsBut s t [.PWR_REQ, .PWR_REQ_STATUS, .PWR_DOM_REFUSED])
    Completes i s (fun t => t.get F.PWR_REQ_DOMAIN = d ∧ t.get F.PWR_REQ_TARGET = t') ∧
    (t' ∉ domAllowed d → ref 1) ∧
    (t' ∈ domAllowed d →
      (d = 255 → 4 ≤ t' → ref 5) ∧
      ((d = 255 → t' < 4) →
        (s.pwrWaits d = true → Completes i s (fun t => OnlyRegs s t ∧ t.get F.PWR_DOM_STATE_PENDING_VALID 0 d = 1 ∧
          t.get F.PWR_DOM_STATE_PENDING 0 d = t' ∧ FieldsBut s t [(F.PWR_REQ_DOMAIN, 0, 0), (F.PWR_REQ_TARGET, 0, 0),
            (F.PWR_DOM_STATE_PENDING_VALID, 0, d), (F.PWR_DOM_STATE_PENDING, 0, d)])) ∧
        (s.pwrWaits d = false →
          (t' = cur → Completes i s (fun t => OnlyRegs s t ∧ RegsBut s t [.PWR_REQ])) ∧
          (cur < t' → s.get F.PWR_DOM_POLICY_DEEPEST 0 d < t' → d ≠ 255 → ref 2) ∧
          (cur < t' → t' ≤ s.get F.PWR_DOM_POLICY_DEEPEST 0 d → s.pwrDwelt d = false → ref 3) ∧
          (t' ≠ cur → s.pwrJudge d t' ≠ 0 → ref (s.pwrJudge d t')) ∧
          (s.pwrJudge d t' = 0 →
            (cur < t' → (24 ≤ d ∧ d < 28 ∧ cur = 3) → Completes i s (fun t => t.domState d = t' ∧ t.get F.PWR_DOM_STATE_ENTERING 0 d = 0 ∧
              Counted s t F.PWR_DOM_ENTRIES_ENTRIES 1 0 d ∧ RegsBut s t [.PWR_REQ, .PWR_DOM_STATE, .PWR_DOM_ENTRIES])) ∧
            (cur < t' → ¬ (24 ≤ d ∧ d < 28 ∧ cur = 3) → Completes i s (fun t => t.domState d = cur ∧
              t.get F.PWR_DOM_STATE_TARGET 0 d = t' ∧ t.get F.PWR_DOM_STATE_ENTERING 0 d = 1 ∧
              t.get F.PWR_DOM_STATE_STEP 0 d = (if t' = 1 then 0 else if d < 24 ∧ cur = 3 then 4 else 1) ∧ t.mem = s.mem ∧
              RegsBut s t [.PWR_REQ, .PWR_DOM_STATE])) ∧
            (t' < cur → Completes i s (fun t => OnlyRegs s t ∧ t.domState d = cur ∧ t.get F.PWR_DOM_STATE_TARGET 0 d = t' ∧
              t.get F.PWR_DOM_STATE_WAKING 0 d = 1 ∧ RegsBut s t [.PWR_REQ, .PWR_DOM_STATE]))))))) ∧
  (∀ (db : BitVec 8) (s : State), let d := db.toNat
    let pend : Prop := s.flag F.PWR_DOM_STATE_PENDING_VALID 0 d = true
    (s.mayDoze d = false → exec (.autoDoze db) s = .next s) ∧
    (s.mayDoze d = true → Completes (.autoDoze db) s (fun t => t.domState d = s.domState d ∧ t.get F.PWR_DOM_STATE_TARGET 0 d = 2 ∧
      t.get F.PWR_DOM_STATE_ENTERING 0 d = 1 ∧ t.get F.PWR_DOM_STATE_STEP 0 d = 1 ∧ Tab.get 0 t.pwr.dozedFrom d = s.domState d ∧
      t.mem = s.mem ∧ RegsBut s t [.PWR_DOM_STATE])) ∧
    (s.drained d = false ∨ s.get F.PWR_DOM_STATE_STEP 0 d ≠ 1 ∨ s.get F.PWR_DOM_STATE_ENTERING 0 d = 0 ∨ 28 ≤ d →
      exec (.domainDrainComplete db) s = .next s) ∧
    (s.drained d = true → s.get F.PWR_DOM_STATE_STEP 0 d = 1 → s.get F.PWR_DOM_STATE_ENTERING 0 d = 1 → d < 28 → s.domState d ≠ 3 →
      (s.pwrOvertaken d = false → Completes (.domainDrainComplete db) s (fun t => OnlyRegs s t ∧ t.get F.PWR_DOM_STATE_STEP 0 d = 2 ∧
        FieldsBut s t [(F.PWR_DOM_STATE_STEP, 0, d)])) ∧
      (pend → s.get F.PWR_DOM_STATE_PENDING 0 d = s.domState d → Completes (.domainDrainComplete db) s (fun t =>
        t.domState d = s.domState d ∧ t.get F.PWR_DOM_STATE_ENTERING 0 d = 0 ∧ t.get F.PWR_DOM_STATE_STEP 0 d = 0 ∧
        t.get F.PWR_DOM_STATE_PENDING_VALID 0 d = 0 ∧ Counted s t F.PWR_DOM_ABANDONED_ABANDONED 1 0 d ∧ t.mem = s.mem ∧
        RegsBut s t [.PWR_DOM_STATE, .PWR_DOM_ABANDONED])) ∧
      (pend → s.get F.PWR_DOM_STATE_PENDING 0 d < s.domState d → s.get F.PWR_DOM_STATE_WAKING 0 d = 0 →
        Completes (.domainDrainComplete db) s (fun t => t.domState d = s.domState d ∧ t.get F.PWR_DOM_STATE_ENTERING 0 d = 0 ∧
          t.get F.PWR_DOM_STATE_WAKING 0 d = 1 ∧ t.get F.PWR_DOM_STATE_TARGET 0 d = s.get F.PWR_DOM_STATE_PENDING 0 d ∧
          Counted s t F.PWR_DOM_ABANDONED_ABANDONED 1 0 d))) ∧
    (s.get F.PWR_DOM_STATE_ENTERING 0 d = 0 ∨ s.get F.PWR_DOM_STATE_STEP 0 d = 0 → exec (.entryStepComplete db) s = .next s) ∧
    (s.get F.PWR_DOM_STATE_ENTERING 0 d = 1 → s.get F.PWR_DOM_STATE_STEP 0 d ≠ 0 → ¬ pend →
      (32 ≤ d → d < 64 → Completes (.entryStepComplete db) s (fun t => t.domState d = s.get F.PWR_DOM_STATE_TARGET 0 d ∧
        t.get F.PWR_DOM_STATE_ENTERING 0 d = 0 ∧ Counted s t F.PWR_DOM_ENTRIES_ENTRIES 1 0 d ∧ t.mem = s.mem ∧
        RegsBut s t [.PWR_DOM_STATE, .PWR_DOM_ENTRIES])) ∧
      (d < 24 → s.domState d ≠ 3 → s.get F.PWR_DOM_STATE_STEP 0 d = 4 → Completes (.entryStepComplete db) s (fun t => OnlyRegs s t ∧
        t.get F.PWR_DOM_STATE_STEP 0 d = 5 ∧ FieldsBut s t [(F.PWR_DOM_STATE_STEP, 0, d)])) ∧
      (d < 24 → s.domState d ≠ 3 → s.get F.PWR_DOM_STATE_STEP 0 d = 6 → 3 ≤ s.get F.PWR_DOM_STATE_TARGET 0 d →
        Completes (.entryStepComplete db) s (fun t => t.domState d = s.get F.PWR_DOM_STATE_TARGET 0 d ∧
          t.get F.PWR_DOM_STATE_ENTERING 0 d = 0 ∧ Counted s t F.PWR_DOM_ENTRIES_ENTRIES 1 0 d ∧
          (∀ k, s.pageIn d k = true → t.rd k = k.resetWord) ∧ (∀ k, vscCluster k = d → t.core k = none) ∧ t.mem = s.mem ∧
          (∀ k : RegKey, s.pageIn d k = false → k.reg ∉ [Reg.PWR_DOM_STATE, .PWR_DOM_ENTRIES] → t.rd k = s.rd k)))) ∧
    (∀ bad, s.get F.PWR_DOM_STATE_WAKING 0 d = 0 ∨ s.domState d = 1 → exec (.wakeComplete db bad) s = .next s) ∧
    (∀ bad, s.get F.PWR_DOM_STATE_WAKING 0 d = 1 → s.domState d ≠ 1 → ¬ pend → s.pwr.rstDom ≠ some d →
      (32 ≤ d → d < 64 → Completes (.wakeComplete db bad) s (fun t => t.domState d = s.get F.PWR_DOM_STATE_TARGET 0 d ∧
        t.get F.PWR_DOM_STATE_WAKING 0 d = 0 ∧ Counted s t F.PWR_DOM_WAKES_WAKES 1 0 d ∧ t.mem = s.mem ∧
        RegsBut s t [.PWR_DOM_STATE, .PWR_DOM_WAKES])) ∧
      (d < 24 → s.domState d = 3 →
        (∀ b x, Tab.find s.pwr.sigs (d, b) = some x → (∀ k ∈ bad, k.val ≠ b) ∧ x = crc32 (s.bytes (bankBase d b) bankSize)) →
        Completes (.wakeComplete db bad) s (fun t => t.domState d = s.get F.PWR_DOM_STATE_TARGET 0 d ∧
          Counted s t F.PWR_DOM_WAKES_WAKES 1 0 d ∧
          (∀ b a, b < 25 → Tab.find s.pwr.sigs (d, b) = none → bankBase d b ≤ a → a < bankBase d b + bankSize → t.mem.read a = 0) ∧
          (∀ a, (∀ b, b < 25 → Tab.find s.pwr.sigs (d, b) = none → a < bankBase d b ∨ bankBase d b + bankSize ≤ a) →
            t.mem.read a = s.mem.read a) ∧ (∀ b, Tab.find t.pwr.sigs (d, b) = none) ∧ RegsBut s t [.PWR_DOM_STATE, .PWR_DOM_WAKES]))) ∧
    (28 ≤ d → exec (.trimChangeComplete db) s = .next s) ∧
    (d < 28 → ¬ pend →
      (s.get F.PWR_DOM_STATE_ENTERING 0 d = 1 → s.get F.PWR_DOM_STATE_TARGET 0 d = 1 → Completes (.trimChangeComplete db) s (fun t =>
        t.domState d = 1 ∧ t.get F.PWR_DOM_STATE_ENTERING 0 d = 0 ∧ Counted s t F.PWR_DOM_ENTRIES_ENTRIES 1 0 d ∧ t.mem = s.mem ∧
        RegsBut s t [.PWR_DOM_STATE, .PWR_DOM_ENTRIES])) ∧
      (s.get F.PWR_DOM_STATE_ENTERING 0 d = 0 → s.get F.PWR_DOM_STATE_WAKING 0 d = 1 → s.domState d = 1 → s.pwr.rstDom ≠ some d →
        Completes (.trimChangeComplete db) s (fun t => t.domState d = s.get F.PWR_DOM_STATE_TARGET 0 d ∧
          t.get F.PWR_DOM_STATE_WAKING 0 d = 0 ∧ Counted s t F.PWR_DOM_WAKES_WAKES 1 0 d ∧ t.mem = s.mem ∧
          RegsBut s t [.PWR_DOM_STATE, .PWR_DOM_WAKES])))) ∧
  (∀ (addr : BitVec 48) (s : State), let d := stackDomain (stackOf addr.toNat)
    (memKind addr.toNat ≠ some .hbm ∨ s.stackAsleep (stackOf addr.toNat) = false → exec (.stackWakeOnAccess addr) s = .next s) ∧
    (memKind addr.toNat = some .hbm → s.stackAsleep (stackOf addr.toNat) = true → s.domMoving d = false →
      Completes (.stackWakeOnAccess addr) s (fun t => t.memx.waiting = s.memx.waiting ++ [.read addr.toNat] ∧
        t.get F.PWR_DOM_STATE_WAKING 0 d = 1 ∧ t.get F.PWR_DOM_STATE_TARGET 0 d = 0 ∧ t.domState d = 3 ∧ t.mem = s.mem ∧
        RegsBut s t [.PWR_DOM_STATE]))) ∧
  (∀ (n : Fin 32) (s : State), let hib := s.domState 255 = 4
    let waking := s.get F.PWR_DOM_STATE_WAKING 0 255
    (¬ hib ∨ waking = 1 → exec (.chipWake n) s = .next s) ∧
    (hib → waking = 0 → Completes (.chipWake n) s (fun t => t.get F.TND_STATUS_WAKE_RULE = n ∧ t.get F.TND_STATUS_WAKE_VALID = 1 ∧
      t.get F.PWR_DOM_STATE_TARGET 0 255 = 0 ∧ t.get F.PWR_DOM_STATE_WAKING 0 255 = 1 ∧ t.domState 255 = 4 ∧ t.pwr.wakeFails = 0 ∧
      t.mem = s.mem ∧ FieldsBut s t [(F.TND_STATUS_WAKE_RULE, 0, 0), (F.TND_STATUS_WAKE_VALID, 0, 0), (F.TND_STATUS_ALERT, 0, 0),
        (F.PWR_DOM_STATE_TARGET, 0, 255), (F.PWR_DOM_STATE_WAKING, 0, 255)])) ∧
    (¬ hib ∨ waking = 0 → exec .wakeFail s = .next s) ∧
    (hib → waking = 1 → Completes .wakeFail s (fun t => t.get F.TND_STATUS_WAKE_FAIL = 1 ∧ t.get F.TND_STATUS_ALERT = 1 ∧
      t.pwr.wakeFails = s.pwr.wakeFails + 1 ∧ t.domState 255 = 4 ∧ t.mem = s.mem ∧
      t.get F.PWR_DOM_STATE_WAKING 0 255 = (if s.pwr.wakeFails = 0 then 1 else 0) ∧ RegsBut s t [.TND_STATUS, .PWR_DOM_STATE])))

/-- R458 to R460, R465 to R467, R469 to R471, R474 and R479. -/
def Obligations.SensorsLimitsTripsAndTenderRulesAct : Prop :=
  (∀ (q : Fin 100) (nb : BitVec 16) (s : State), let k := q.val
    let n := nb.toNat
    let w := Tab.get 0 s.memx.fuses (0x50 + k)
    let i := Instr.sensorSample q nb
    (s.sampled k = false → exec i s = .next s) ∧
    (∀ T : Int, s.sampled k = true → natBits w 0 16 ≠ natBits w 16 16 →
      (T - 400) * ((natBits w 16 16 : Int) - natBits w 0 16) = ((n : Int) - natBits w 0 16) * 85 * 16 →
      let bad : Prop := n = 0 ∨ T < -880 ∨ 2400 < T
      let trips : Prop := 1840 < T ∧ (s.sensor k).above = true ∧ s.thm.tripped = false
      Completes i s (fun t => Tab.find t.thm.sensors k = some ⟨T, n, s.intervalClass T, decide (1840 < T)⟩) ∧
      (s.sensorFailed k = true → Completes i s (fun t => t.regs = s.regs ∧ t.mem = s.mem ∧ t.out = s.out)) ∧
      (s.sensorFailed k = false → bad → Completes i s (fun t => t.sensorFailed k = true ∧ t.thm.tripped = s.thm.tripped ∧ t.out = s.out)) ∧
      (s.sensorFailed k = false → ¬ bad →
        Completes i s (fun t => signed 16 (t.get F.THM_PEAK_PEAK) = max (signed 16 (s.get F.THM_PEAK_PEAK)) T) ∧
        (trips → Completes i s (fun t => t.thm.tripped = true ∧ t.get F.THM_TRIP_HIST_TRIP_CAUSE = 1 ∧ t.get F.THM_TRIP_HIST_SENSOR = k ∧
          t.get F.RCS_STATUS_BLOCKED = 1 ∧ t.tbu.started = false ∧ t.out = s.out ++ [.thermtrip true] ∧ t.mem = s.mem)) ∧
        (¬ trips → Completes i s (fun t => t.thm.tripped = s.thm.tripped ∧ t.out = s.out ∧ t.mem = s.mem ∧
          RegsBut s t [.THM_MAX, .THM_PEAK, .THM_STATUS] ∧
          (∀ m j, t.hottest t.working = some (m, j) → t.get F.THM_MAX_TEMP = unsigned 16 m) ∧
          ((∀ j ∈ t.working, t.limitTemp j ≤ ((t.get F.THM_LIMIT_WARN : Int) - t.get F.THM_LIMIT_HYST) * 16) →
            t.get F.THM_STATUS_WARN = 0) ∧
          ((∀ j ∈ t.working, t.limitTemp j ≤ ((t.get F.THM_LIMIT_THROTTLE : Int) - t.get F.THM_LIMIT_HYST) * 16) →
            t.get F.THM_STATUS_THROTTLE = 0) ∧
          (s.get F.THM_INJ_EN = 0 → s.get F.THM_LIMIT_HYST ≠ 0 →
            (s.get F.THM_CTRL_WARN_EN = 1 → (s.get F.THM_LIMIT_WARN * 16 : Int) ≤ T → t.get F.THM_STATUS_WARN = 1) ∧
            (s.get F.THM_CTRL_THROTTLE_EN = 1 → (s.get F.THM_LIMIT_THROTTLE * 16 : Int) ≤ T → t.get F.THM_STATUS_THROTTLE = 1))))))) ∧
  (∀ s : State,
    (s.thm.warnDue = none → exec .warnResponse s = .next s) ∧
    (∀ k T, s.thm.warnDue = some (k, T) →
      Completes .warnResponse s (fun t => t.thm = { s.thm with warnDue := none } ∧ t.get F.MBX_DEV_EVENT_THERM_WARN = 1) ∧
      (∀ r mask, Tab.find s.host.evRings 0 = some (r, mask) → mask.testBit 8 = true → s.ringHasRoom r = true → s.ringDetached r = false →
        Completes .warnResponse s (fun t => .event 0 (Tab.get 0 s.host.evLost 0) (.thermal false k (unsigned 16 T)) ∈ t.out))) ∧
    (s.thm.throttleDue = false → exec .throttleResponse s = .next s) ∧
    (s.thm.throttleDue = true → s.within512 = true → Completes .throttleResponse s (fun t => t.thm.throttleDue = false ∧ t.car = s.car ∧
      t.thm.trim = (s.thm.trim ++ (List.range 28).filter (fun d => s.domState d = 0)).eraseDups ∧
      (∀ d, d < 28 → s.domState d = 0 → s.domMoving d = false → 1 ≤ s.get F.PWR_DOM_POLICY_DEEPEST 0 d → s.pwrDwelt d = true →
        t.get F.PWR_DOM_STATE_ENTERING 0 d = 1 ∧ t.get F.PWR_DOM_STATE_TARGET 0 d = 1) ∧
      RegsBut s t [.PWR_DOM_STATE, .PWR_REQ_STATUS, .PWR_DOM_REFUSED] ∧ t.mem = s.mem)) ∧
    (s.get F.THM_STATUS_THROTTLE = 0 ∨ s.thm.throttleDue = true ∨ s.lowest = none → exec .throttleShedTimer s = .next s) ∧
    (∀ h c, s.get F.THM_STATUS_THROTTLE = 1 → s.thm.throttleDue = false → s.lowest = some h → Tab.find s.car.list h = some c →
      s.GdxEmpty → s.flag F.GDX_CTRL_EN = false → Completes .throttleShedTimer s (fun t =>
        Tab.find t.car.list h = some { c with started := false, shed := some .thermal } ∧
        (∀ g, g ≠ h → Tab.find t.car.list g = Tab.find s.car.list g))) ∧
    (s.get F.THM_STATUS_THROTTLE = 1 → exec .throttleRestore s = .next s) ∧
    (s.get F.THM_STATUS_THROTTLE = 0 → (∀ x ∈ s.car.list, x.2.shed ≠ some .thermal) → Completes .throttleRestore s (fun t =>
      t.thm = { s.thm with trim := [] } ∧ t.car = s.car ∧
      (∀ d ∈ s.thm.trim, d < 28 → s.domState d = 1 → s.domMoving d = false →
        t.get F.PWR_DOM_STATE_WAKING 0 d = 1 ∧ t.get F.PWR_DOM_STATE_TARGET 0 d = 0) ∧
      RegsBut s t [.PWR_DOM_STATE, .PWR_REQ_STATUS, .PWR_DOM_REFUSED] ∧ t.mem = s.mem)) ∧
    (∀ v : Word, let a := natBits v.toNat 0 8
      let b := natBits v.toNat 8 8
      let h := natBits v.toNat 24 4
      (100 < a ∨ 105 < b ∨ b < a → Completes (.thmLimitWrite v) s (fun t => OnlyRegs s t ∧ t.get F.THM_STATUS_LIMIT_REFUSED = 1 ∧
        FieldsBut s t [(F.THM_STATUS_LIMIT_REFUSED, 0, 0)])) ∧
      (a ≤ 100 → b ≤ 105 → a ≤ b → Completes (.thmLimitWrite v) s (fun t =>
        t.get F.THM_LIMIT_WARN = (if 60 ≤ a then a else s.get F.THM_LIMIT_WARN) ∧
        t.get F.THM_LIMIT_THROTTLE = (if 60 ≤ b then b else s.get F.THM_LIMIT_THROTTLE) ∧ t.get F.THM_LIMIT_HYST = max 1 h ∧
        t.get F.THM_LIMIT_TRIP = s.get F.THM_LIMIT_TRIP ∧ RegsBut s t [.THM_LIMIT, .THM_STATUS] ∧ t.mem = s.mem))) ∧
    (s.thm.tripped = false ∨ s.pins.rails = 0 → exec .tripSupplyOff s = .next s) ∧
    (s.thm.tripped = true → s.pins.rails ≠ 0 → Completes .tripSupplyOff s (fun t => t.pins.rails = 0 ∧ t.pins.enabled = 0 ∧
      t.tbu.started = false ∧ t.boot.rcs = none ∧ t.out = s.out ++ [.enables 0] ∧ t.regs = s.regs ∧
      (s.boot.rcs = none → t.mem = s.mem) ∧ (∀ j, s.boot.rcs = some j → MemBut s t (rcsWord j.word) 32))) ∧
    (s.thm.tripped = false ∨ s.thm.lockout = true ∨ s.pins.rails ≠ 0 ∨ s.tenderCool = false → exec .tripRestart s = .next s) ∧
    (s.thm.tripped = true → s.thm.lockout = false → s.pins.rails = 0 → s.tenderCool = true → Completes .tripRestart s (fun t =>
      t.thm = { s.thm with tripped := false } ∧ t.boot = { s.boot with why := if s.thm.released then .lockout else .thermal } ∧
      t.pins = { s.pins with enabled := 1 } ∧ t.out = s.out ++ [.thermtrip false, .enables 1] ∧ t.regs = s.regs ∧ t.mem = s.mem))) ∧
  (∀ (q : Fin 32) (mv : BitVec 16) (s : State), let j := q.val
    let i := Instr.tenderRuleSample q mv
    let input := s.get F.TND_RULE_CFG_INPUT 0 j
    let N := s.get F.TND_RULE_CFG_N 0 j
    let hi := signed 16 (s.get F.TND_RULE_THRESH_HI 0 j) * 2 ^ N
    let lo := signed 16 (s.get F.TND_RULE_THRESH_LO 0 j) * 2 ^ N
    let kind := s.get F.TND_RULE_ACTION_KIND 0 j
    let dom := s.get F.TND_RULE_ACTION_DOMAIN 0 j
    let tgt := s.get F.TND_RULE_ACTION_TARGET 0 j
    (s.get F.TND_CTRL_RULES_EN = 0 ∨ s.get F.TND_RULE_CFG_EN 0 j = 0 ∨ s.inputNow j input mv.toInt = none → exec i s = .next s) ∧
    (∀ x l, s.get F.TND_CTRL_RULES_EN = 1 → s.get F.TND_RULE_CFG_EN 0 j = 1 → s.inputNow j input mv.toInt = some x →
      (0x70 ≤ input → input ≤ 0x77 → x = mv.toInt) ∧
      (s.get F.TND_RULE_CFG_FILTER 0 j = 0 → (x :: (s.rule j).samples).take (2 ^ N) = l → l.length = 2 ^ N → lo < hi →
        let sum := l.foldl (· + ·) 0
        let up : Prop := (s.get F.TND_RULE_CFG_POLARITY 0 j = 0 ∧ hi ≤ sum) ∨ (s.get F.TND_RULE_CFG_POLARITY 0 j = 1 ∧ sum ≤ lo)
        let down : Prop := (s.get F.TND_RULE_CFG_POLARITY 0 j = 0 ∧ sum ≤ lo) ∨ (s.get F.TND_RULE_CFG_POLARITY 0 j = 1 ∧ hi ≤ sum)
        Completes i s (fun t => (t.rule j).samples = l ∧ Tab.get 0 t.pwr.inputs input = x ∧ t.mem = s.mem) ∧
        (down → Completes i s (fun t => t.get F.TND_RULE_ACTION_ASSERTED 0 j = 0 ∧ t.out = s.out ∧
          FieldsBut s t [(F.TND_RULE_ACTION_ASSERTED, 0, j), (F.TND_STATUS_ALERT, 0, 0)])) ∧
        ((¬ up ∧ ¬ down) ∨ (up ∧ s.get F.TND_RULE_ACTION_ASSERTED 0 j = 1) → Completes i s (fun t => t.regs = s.regs ∧ t.out = s.out)) ∧
        (up → s.get F.TND_RULE_ACTION_ASSERTED 0 j = 0 →
          Completes i s (fun t => t.get F.TND_RULE_ACTION_ASSERTED 0 j = 1 ∧ t.get F.TND_RULE_ACTION_FIRED 0 j = 1) ∧
          (kind = 0 → s.get F.MBX_DEV_STATUS_STEOL_READY = 1 → Completes i s (fun t => t.out = s.out ++ [.tenderEvent j])) ∧
          (kind = 0 → s.get F.MBX_DEV_STATUS_STEOL_READY = 0 → Completes i s (fun t => t.out = s.out ∧ t.pwr.held = s.pwr.held ++ [j])) ∧
          (kind = 1 → dom = 255 → s.domState 255 = 4 → s.get F.PWR_DOM_STATE_WAKING 0 255 = 0 → Completes i s (fun t =>
            t.get F.TND_STATUS_WAKE_RULE = j ∧ t.get F.TND_STATUS_WAKE_VALID = 1 ∧ t.get F.PWR_DOM_STATE_WAKING 0 255 = 1)) ∧
          (kind = 1 → dom < 28 → tgt ∈ domAllowed dom → tgt < s.domState dom → s.domMoving dom = false → Completes i s (fun t =>
            t.get F.PWR_DOM_STATE_WAKING 0 dom = 1 ∧ t.get F.PWR_DOM_STATE_TARGET 0 dom = tgt)) ∧
          (kind = 1 → dom < 28 → s.domState dom ≤ tgt → Completes i s (fun t => t.out = s.out ∧
            FieldsBut s t [(F.TND_RULE_ACTION_ASSERTED, 0, j), (F.TND_RULE_ACTION_FIRED, 0, j), (F.TND_STATUS_ALERT, 0, 0)])) ∧
          (kind = 2 → Completes i s (fun t => t.get F.TND_STATUS_ALERT = 1 ∧ t.out = s.out ∧
            FieldsBut s t [(F.TND_RULE_ACTION_ASSERTED, 0, j), (F.TND_RULE_ACTION_FIRED, 0, j), (F.TND_STATUS_ALERT, 0, 0)])) ∧
          (kind = 3 → tgt % 2 = 0 → s.get F.THM_CTRL_WARN_EN = 1 → Completes i s (fun t => t.get F.THM_STATUS_WARN = 1)) ∧
          (kind = 3 → tgt % 2 = 1 → s.get F.THM_CTRL_THROTTLE_EN = 1 → Completes i s (fun t => t.get F.THM_STATUS_THROTTLE = 1))))))

/-- R485, R486, R488 to R494 and R498. -/
def Obligations.FaultyUnitsAreReplacedRotatedAndTested : Prop :=
  (∀ (e : Fin 416) (pass : Bool) (s : State), e.val ∉ s.gdx.quarantine → exec (.unitFaultHandle (.exec e) pass) s = .next s) ∧
  (∀ (e : Fin 416) (pass : Bool) (s : State), e.val ∈ s.gdx.quarantine → s.MapRoom →
    let i := Instr.unitFaultHandle (.exec e) pass
    let c := e.val / 8
    let k := e.val % 8
    let old := s.sclPos c k
    let own := s.get F.SCL_STATUS_BENCH_POS c
    (e.val < 192 → s.lender e.val = none → own ≤ 8 → old ≤ 8 → own ≠ old → s.qualifies (c * 9 + own) = true →
      s.sclMapBad c (mapSet (s.get F.SCL_MAP_SLOT c) k own) = false → s.posIdle c old = true → s.posIdle c own = true →
      Completes i s (fun t => t.sclPos c k = own ∧ (∀ j, j < 8 → j ≠ k → t.sclPos c j = s.sclPos c j) ∧ (t.exec e).out = false ∧
        e.val ∉ t.gdx.quarantine ∧ t.Gone (c * 9 + old) ∧ t.get F.SCL_STATUS_MAP_PENDING c = 0 ∧ t.car = s.car)) ∧
    (192 ≤ e.val → e.val < 352 →
      let cl := execClass e
      let u := (2 + cl) * 2048 + s.get F.T_CTRL_MAP_PHYS (engInst cl (execLocal e))
      (∀ b, b < classBench cl → s.qualifies (s.benchUnit cl b) = false) → s.car.list = [] →
      Completes i s (fun t => t.Gone u ∧ e.val ∉ t.gdx.quarantine ∧ t.car = s.car ∧ RegsBut s t ([.RCS_PROGRAMS] ++ recordRegs)))) ∧
  (∀ (c n : Fin 24) (pass : Bool) (s : State), s.MapRoom → n ≠ c → s.qualifies (2048 + n) = true →
    (∀ m, m < n.val → m ≠ c.val → s.qualifies (2048 + m) = false) →
    Completes (.unitFaultHandle (.mxc c) pass) s (fun t => t.get F.MXC_STATUS_IN_SERVICE n = 1 ∧ t.get F.MXC_CTRL_SERVICE n = 1 ∧
      t.get F.MXC_CTRL_SERVICE c = 0 ∧ (t.mx c).removing = s.flag F.MXC_STATUS_IN_SERVICE c ∧ t.Gone (2048 + c) ∧ t.car = s.car ∧
      RegsBut s t ([.MXC_CTRL, .MXC_STATUS, .MXC_OWNER, .MXC_WAITERS, .RCS_PROGRAMS] ++ recordRegs))) ∧
  (∀ (g : RotGroup) (s : State),
    (s.rotIn g = none → exec (.rotationStep g) s = .next s) ∧
    (∀ u, s.rotIn g = some u → s.mayRotate u = false ∨ s.rotOut u = none → exec (.rotationStep g) s = .next s) ∧
    (∀ u, s.rotIn g = some u → Tab.find s.dep.tests u ≠ some .passed → exec (.rotationStep g) s = .next s)) ∧
  (∀ (u out : Nat) (s : State), s.rotIn .mxc = some u → s.mayRotate u = true → s.rotOut u = some out →
    Completes (.rotationStep .mxc) s (fun t => Tab.find t.dep.steps u = some out ∧ t.get F.MXC_STATUS_IN_SERVICE (u % 2048) = 1 ∧
      t.get F.MXC_CTRL_SERVICE (out % 2048) = 0 ∧ (t.mx (out % 2048)).removing = true ∧
      RegsBut s t [.MXC_CTRL, .MXC_STATUS, .MXC_OWNER, .MXC_WAITERS] ∧ t.mem = s.mem)) ∧
  (∀ (u out : Nat) (s : State), u / 2048 = 1 → out / 2048 = 1 → u ≠ out → s.dep.steps = [(u, out)] →
    (s.get F.MXC_STATUS_IN_SERVICE (out % 2048) = 1 → exec (.rotationMapSwap .mxc) s = .next s) ∧
    (s.get F.MXC_STATUS_IN_SERVICE (out % 2048) = 0 → Completes (.rotationMapSwap .mxc) s (fun t => t.dep.steps = [] ∧
      Tab.find t.dep.tests out = some .running ∧ Tab.find t.dep.tests u = none ∧ t.dep.passed = s.dep.passed ∧ t.regs = s.regs ∧
      t.mem = s.mem))) ∧
  (∀ (c : Fin 24) (s : State), s.dep.steps = [] → Tab.find s.scl.mapPending c.val = none → exec (.rotationMapSwap (.vsc c)) s = .next s) ∧
  (∀ (ub : BitVec 16) (pass : Bool) (s : State), let u := ub.toNat
    let test := Tab.find s.dep.tests u
    let i := Instr.benchSelfTest ub pass
    (¬ s.Gone u → s.onBench u = false → exec i s = .next s) ∧
    ((∀ a ∈ s.dep.asked, a.unit ≠ u) →
      (s.Gone u ∨ test = some .passed ∨ test = some .failed → exec i s = .next s) ∧
      (¬ s.Gone u → s.onBench u = true → test ≠ some .passed → test ≠ some .failed →
        (pass = true → Completes i s (fun t => Tab.find t.dep.tests u = some .passed ∧ u ∈ t.dep.passed ∧ t.dep.asked = s.dep.asked ∧
          RegsBut s t [.T_STATUS] ∧ t.mem = s.mem)) ∧
        (pass = false → s.MapRoom → Completes i s (fun t => Tab.find t.dep.tests u = some .failed ∧ u ∉ t.dep.passed ∧ t.Gone u))))) ∧
  (∀ s : State,
    (s.get F.MBX_DEV_STATUS_STANDBY_READY = 0 → Completes .stewardFailover s (fun t => OnlyRegs s t ∧
      t.get F.MBX_DEV_STATUS_STEOL_READY = 0 ∧ FieldsBut s t [(F.MBX_DEV_STATUS_STEOL_READY, 0, 0)])) ∧
    (s.get F.MBX_DEV_STATUS_STANDBY_READY = 1 → s.get F.MBX_DEV_STATUS_TRIAL = 0 → s.NoEvents → (∀ q, q < 3 → s.erqLevel q = 0) →
      Completes .stewardFailover s (fun t => t.get F.MBX_DEV_STATUS_ACTIVE_PAIR = 1 - s.get F.MBX_DEV_STATUS_ACTIVE_PAIR ∧
        t.get F.MBX_DEV_STATUS_STANDBY_READY = 0 ∧ t.get F.MBX_DEV_EVENT_FAILOVER = 1 ∧ Counted s t F.MBX_DEV_STATUS_FAILOVERS 1 ∧
        (∀ m, m < 256 → s.get F.MBX_STATUS_STATE 0 m = 2 → t.get F.MBX_STATUS_FAILOVER_SEEN 0 m = 1) ∧
        (∀ m, s.get F.MBX_STATUS_STATE 0 m ≠ 2 → t.rd ⟨.MBX_STATUS, 0, m⟩ = s.rd ⟨.MBX_STATUS, 0, m⟩) ∧
        RegsBut s t [.MBX_DEV_STATUS, .MBX_DEV_EVENT, .MBX_STATUS] ∧ t.mem = s.mem)) ∧
    (∀ pass, let p := 1 - s.get F.MBX_DEV_STATUS_ACTIVE_PAIR
      let late := ((Tab.get [] s.dep.pairFails p).filter (fun x => decide (s.tenderSec - x ≤ 86400))).length
      (s.get F.MBX_DEV_STATUS_STANDBY_READY = 1 ∨ s.get F.MBX_DEV_STATUS_STEOL_READY = 0 ∨ s.Gone (15 * 2048 + p) →
        exec (.standbyReady pass) s = .next s) ∧
      (s.get F.MBX_DEV_STATUS_STANDBY_READY = 0 → s.get F.MBX_DEV_STATUS_STEOL_READY = 1 → ¬ s.Gone (15 * 2048 + p) →
        (pass = true → late < 2 → Completes (.standbyReady pass) s (fun t => OnlyRegs s t ∧ t.get F.MBX_DEV_STATUS_STANDBY_READY = 1 ∧
          FieldsBut s t [(F.MBX_DEV_STATUS_STANDBY_READY, 0, 0)])) ∧
        (pass = false ∨ 2 ≤ late → s.MapRoom → Completes (.standbyReady pass) s (fun t => t.Gone (15 * 2048 + p) ∧
          t.get F.MBX_DEV_STATUS_STANDBY_READY = 0 ∧ RegsBut s t ([.RCS_PROGRAMS] ++ recordRegs))))) ∧
    (∀ d : Fin 28, let u := if d.val < 24 then 16 * 2048 + d.val else 17 * 2048 + (d.val - 24)
      (s.repairEntry (u / 2048) (u % 2048) = true → exec (.degradedDeclare d) s = .next s) ∧
      (s.repairEntry (u / 2048) (u % 2048) = false → s.car.list = [] → s.MapRoom → Completes (.degradedDeclare d) s (fun t =>
        t.Gone u ∧ (∀ e, e < 352 → s.execDomain e = some d.val → (t.exec e).out = true) ∧
        (∀ e, s.execDomain e ≠ some d.val → t.exec e = s.exec e) ∧ (d.val < 24 → t.get F.MXC_STATUS_IN_SERVICE d.val = 0)))) ∧
    ((∀ x ∈ s.car.list, x.2.shed = none ∨ x.2.shed = some .thermal) → exec .carrierRestore s = .next s) ∧
    (s.stacksHold = true → exec .carrierRestore s = .next s) ∧
    (∀ h c, s.car.list = [(h, c)] → h ∉ s.car.prec → c.shed ≠ none → c.shed ≠ some .thermal → s.fitsWith h = true → s.stacksHold = false →
      Completes .carrierRestore s (fun t => t.car = { s.car with list := [(h, { c with started := true, shed := none })] })))

/-- R499 to R502. -/
-- covers: errorReport, eccErqPushGo
def Obligations.ErrorRecordsAreWrittenMergedAndRead : Prop :=
  (∀ (i : Instr) (r : Report) (s : State),
    (∃ kind cls sev id detail addr, i = .errorReport kind cls sev id detail addr ∧
      r = ⟨kind % 16, cls % 256, min 2 sev, id % 2 ^ 16, detail % 2 ^ 16, addr % 2 ^ 48⟩) ∨ (i = .eccErqPushGo ∧ r = s.pushed) →
    let q := r.sev
    let w := s.get F.ECC_ERQ_WR_WR 0 q
    let en := s.get F.ECC_ERQ_CTRL_EN
    let fit := if s.get F.ECC_ERQ_CTRL_COAL_EN = 1 then s.erqMatches r else []
    let first := (s.get F.ECC_ERQ_FIRST_VALID_VALID).testBit q
    (first = true → Completes i s (fun t => ∀ k, t.rd ⟨.ECC_ERQ_FIRST, 0, k⟩ = s.rd ⟨.ECC_ERQ_FIRST, 0, k⟩)) ∧
    (first = false → s.activeTime.ns < 1000000000 → Completes i s (fun t => (t.get F.ECC_ERQ_FIRST_VALID_VALID).testBit q = true ∧
      (∀ k, k < 8 → t.get F.ECC_ERQ_FIRST_WORD 0 (8 * q + k) = (r.words s.activeTime w).getD k 0))) ∧
    (en = 0 → Completes i s (fun t => Counted s t F.ECC_ERQ_LOST_LOST 1 0 r.kind ∧ t.mem = s.mem ∧ OnlyRegs s t ∧
      RegsBut s t [.ECC_ERQ_LOST, .ECC_ERQ_FIRST, .ECC_ERQ_FIRST_VALID])) ∧
    (en = 1 → fit = [] → s.erqLevel q < 512 → s.activeTime.ns < 1000000000 → Completes i s (fun t =>
      t.get F.ECC_ERQ_WR_WR 0 q = (w + 1) % 2 ^ 16 ∧ t.erqLevel q = s.erqLevel q + 1 ∧
      t.get F.ECC_ERQ_STATUS_LEVEL 0 q = s.erqLevel q + 1 ∧ t.get F.ECC_ERQ_STATUS_NONEMPTY 0 q = 1 ∧
      t.words (s.erqAddr q w) 8 = r.words s.activeTime w ∧ MemBut s t (s.erqAddr q w) 32 ∧ t.out = s.out ∧
      RegsBut s t [.ECC_ERQ_WR, .ECC_ERQ_STATUS, .ECC_ERQ_FIRST, .ECC_ERQ_FIRST_VALID])) ∧
    (en = 1 → fit = [] → 512 ≤ s.erqLevel q → Completes i s (fun t => Counted s t F.ECC_ERQ_LOST_LOST 1 0 r.kind ∧
      t.get F.ECC_ERQ_STATUS_OVF 0 q = 1 ∧ t.mem = s.mem ∧ OnlyRegs s t ∧
      RegsBut s t [.ECC_ERQ_LOST, .ECC_ERQ_STATUS, .ECC_ERQ_FIRST, .ECC_ERQ_FIRST_VALID])) ∧
    (∀ m ms, en = 1 → fit = m :: ms → let a := s.erqAddr q m
      Completes i s (fun t => t.word (a + 4) = s.word (a + 4) % 2 ^ 16 + min 0xFFFF (s.word (a + 4) / 2 ^ 16 + 1) * 2 ^ 16 ∧
        t.word (a + 24) = min 0xFFFFFFFF (s.activeTime.sec % 2 ^ 32 * 1000000000 + s.activeTime.ns -
          (s.word (a + 16) * 1000000000 + s.word (a + 20))) ∧
        Tab.get 0 t.erqLast (q, m) = s.activeNs ∧ Counted s t F.ECC_ERQ_COALESCED_COALESCED 1 0 q ∧
        MemOut s t [(a + 4, 4), (a + 24, 4)] ∧ RegsBut s t [.ECC_ERQ_COALESCED, .ECC_ERQ_FIRST, .ECC_ERQ_FIRST_VALID]))) ∧
  (∀ (q : Fin 3) (v : BitVec 16) (s : State), let rd := s.get F.ECC_ERQ_RD_RD 0 q
    let n := (v.toNat + 2 ^ 16 - rd) % 2 ^ 16
    (s.erqLevel q < n → exec (.erqRdWrite q v) s = .next s) ∧
    (n ≤ s.erqLevel q → s.erqLevel q ≤ 512 → Completes (.erqRdWrite q v) s (fun t => OnlyRegs s t ∧ t.get F.ECC_ERQ_RD_RD 0 q = v.toNat ∧
      t.erqLevel q = s.erqLevel q - n ∧ t.get F.ECC_ERQ_STATUS_LEVEL 0 q = s.erqLevel q - n ∧
      t.get F.ECC_ERQ_STATUS_NONEMPTY 0 q = (if n = s.erqLevel q then 0 else 1) ∧
      FieldsBut s t [(F.ECC_ERQ_RD_RD, 0, q), (F.ECC_ERQ_STATUS_LEVEL, 0, q), (F.ECC_ERQ_STATUS_NONEMPTY, 0, q)])) ∧
    let ws := s.words (s.erqAddr q rd) 8
    (s.erqLevel q = 0 → exec (.errorRecordRead q) s = .next s) ∧
    (s.erqLevel q ≠ 0 → s.erqLevel q ≤ 512 → s.host.errStream = none →
      (q.val < 2 → Completes (.errorRecordRead q) s (fun t => t.get F.ECC_ERQ_RD_RD 0 q = (rd + 1) % 2 ^ 16 ∧
        t.erqLevel q = s.erqLevel q - 1 ∧ t.memx.errStore = s.memx.errStore ++ [(q.val, ws)] ∧ t.mem = s.mem ∧ t.out = s.out ∧
        RegsBut s t [.ECC_ERQ_RD, .ECC_ERQ_STATUS])) ∧
      (q.val = 2 → s.NoEvents → s.memx.logNext < 16384 → let a := rcsBase + 0x80000 + s.memx.logNext * 64
        Completes (.errorRecordRead q) s (fun t => t.get F.ECC_ERQ_RD_RD 0 q = (rd + 1) % 2 ^ 16 ∧
          t.memx.errStore = s.memx.errStore ++ [(2, ws)] ∧ t.words a 8 = ws ∧ t.word (a + 32) = 0xC04417 ∧
          t.word (a + 36) = s.memx.logNext ∧ MemBut s t a 64 ∧ t.memx.logNext = (s.memx.logNext + 1) % 16384 ∧
          Counted s t F.RCS_PROGRAMS_PROGRAMS 2 ∧ RegsBut s t [.ECC_ERQ_RD, .ECC_ERQ_STATUS, .RCS_PROGRAMS]))))

/-- R257, R258, R261, R263, R267, R269, R270, R272 to R274 and R523. -/
-- covers: memoryRead
def Obligations.MemoriesAnswerCorrectAndPoison : Prop :=
  (∀ (addr : BitVec 48) (tb : Bool) (cl : Fin 4) (s : State), let a := addr.toNat
    (∀ up, memKind a = none → exec (.memoryRead addr tb cl up) s = .next (s.send .busError)) ∧
    (∀ data, memKind a = none ∨ memKind a = some .rcs → exec (.fullWordWrite addr data cl) s = .next (s.send .busError)) ∧
    (∀ data up, memKind a = none ∨ memKind a = some .rcs → exec (.partialWrite addr data cl up) s = .next (s.send .busError)) ∧
    (∀ k, memKind a = some k → let w := wordOf k a
      let n := wordBytes k
      let i := fun up => Instr.memoryRead addr tb cl up
      let ready : Prop := k = .hbm → s.lineReady a = true
      let quiet : Prop := s.get F.ECC_CTRL_REPORT_EN = 0
      (∀ up, s.memWaits k a false = true → Completes (i up) s (fun t => t.out = s.out ∧ t.mem = s.mem ∧
        t.memx.waiting = s.memx.waiting ++ [.read a] ∧ RegsBut s t [.PWR_DOM_STATE])) ∧
      (s.memWaits k a false = false →
        (ready → s.chkOf w = none → Completes (i .none) s (fun t => t.out = s.out ++ [.memData w (s.bytes w n) false false] ∧ t.mem = s.mem ∧
          t.memx = s.memx ∧ (k = .hbm → Counted s t F.MEM_CH_BYTES_BYTES 1 (stackOf a) (4 * channelOf a + cl)) ∧
          (k ≠ .hbm → t.regs = s.regs) ∧ RegsBut s t [.MEM_CH_BYTES])) ∧
        (k = .hbm → s.lineReady a = false → quiet → Completes (i .none) s (fun t => t.mem = s.mem ∧
          t.out = s.out ++ [.memData w (List.replicate 64 0) false true] ∧ Counted s t F.ECC_UNINIT_READ_UNINIT_READ 1)) ∧
        (∀ p f, ready → s.chkOf w = none → quiet → (k = .hbm → s.get F.MEM_CH_ERASE_EN (stackOf w) (channelOf w) = 0) →
          eccCounter (ceClass k) = some f → Completes (i (.correctable p)) s (fun t =>
            t.out = s.out ++ [.memData w (s.bytes w n) false false] ∧ t.chkOf w = none ∧ Counted s t f 1)) ∧
        (∀ p l f, ready → s.chkOf w = none → quiet → k ≠ .rcs → l.length = n → eccCounter (ceClass k + 3) = some f →
          Completes (i (.uncorrectable p l)) s (fun t => t.out = s.out ++ [.memData w l true false] ∧ t.chkOf w = some .poison ∧
            Counted s t f 1)) ∧
        (∀ up, up ≠ .onDie → ready → s.chkOf w = some .poison → quiet → Completes (i up) s (fun t =>
          t.out = s.out ++ [.memData w (s.bytes w n) true false] ∧ t.chkOf w = some .poison ∧
          Counted s t F.ECC_POISON_READ_POISON_READ 1 ∧ t.mem = s.mem))) ∧
      (k ≠ .rcs → ∀ data,
        (data.length ≠ n ∨ a % n ≠ 0 → exec (.fullWordWrite addr data cl) s = .next s) ∧
        (data.length = n → a % n = 0 →
          (s.memWaits k a true = true → Completes (.fullWordWrite addr data cl) s (fun t => t.out = s.out ∧ t.mem = s.mem ∧
            t.memx.waiting = s.memx.waiting ++ [.write a data] ∧ RegsBut s t [.PWR_DOM_STATE, .MEM_INIT])) ∧
          (s.memWaits k a true = false → s.get F.ECC_INJ_ARM = 0 → Completes (.fullWordWrite addr data cl) s (fun t =>
            t.bytes a n = data ∧ t.chkOf a = none ∧ t.out = s.out ∧ MemBut s t a n ∧ RegsBut s t [.MEM_CH_BYTES]))) ∧
        (∀ up, data.length = 0 ∨ n ≤ data.length ∨ wordOf k (a + data.length - 1) ≠ w →
          exec (.partialWrite addr data cl up) s = .next s) ∧
        (0 < data.length → data.length < n → wordOf k (a + data.length - 1) = w →
          (∀ up, s.memWaits k a true = true → Completes (.partialWrite addr data cl up) s (fun t => t.out = s.out ∧ t.mem = s.mem ∧
            t.memx.waiting = s.memx.waiting ++ [.write a data] ∧ RegsBut s t [.PWR_DOM_STATE, .MEM_INIT])) ∧
          (s.memWaits k a true = false → s.get F.ECC_INJ_ARM = 0 →
            (s.chkOf w = none → Completes (.partialWrite addr data cl .none) s (fun t => t.bytes a data.length = data ∧ t.chkOf w = none ∧
              t.out = s.out ∧ MemBut s t a data.length ∧ RegsBut s t [.MEM_CH_BYTES])) ∧
            (s.chkOf w = some .poison → quiet → Completes (.partialWrite addr data cl .none) s (fun t => t.bytes a data.length = data ∧
              t.chkOf w = some .poison ∧ Counted s t F.ECC_POISON_MERGE_POISON_MERGE 1 ∧ t.out = s.out))))))) ∧
  (∀ (st : Fin 4) (s : State), let g := s.get F.MEM_INIT_GRANULE st
    let trained := s.get F.MEM_STATUS_TRAINED st
    let done := s.get F.MEM_STATUS_INIT_DONE st
    (trained = 0 ∨ done = 1 → exec (.granuleReady st) s = .next s) ∧
    (trained = 1 → done = 0 → g < 36 → Tab.get [] s.memx.prio st.val = [] → Tab.find s.memx.paused st.val = none → s.memx.waiting = [] →
      Completes (.granuleReady st) s (fun t => t.granReady st g = true ∧ (∀ h, h < 36 → h ≠ g → t.granReady st h = s.granReady st h) ∧
        t.get F.MEM_INIT_PRIORITY st = 0 ∧
        ((∀ h, h < 36 → t.granReady st h = true) → t.get F.MEM_STATUS_INIT_DONE st = 1) ∧
        (∀ h, h < 36 → t.granReady st h = false → (∀ j, j < h → t.granReady st j = true) →
          t.get F.MEM_INIT_GRANULE st = h ∧ t.get F.MEM_INIT_PTR st = 0 ∧ t.get F.MEM_STATUS_INIT_DONE st = 0) ∧
        RegsBut s t [.MEM_READY_LO, .MEM_READY_HI, .MEM_INIT, .MEM_STATUS] ∧ t.mem = s.mem))) ∧
  (∀ s : State,
    (s.thm.tripped = true → Completes .rcsProgram s (fun t => OnlyRegs s t ∧ t.get F.RCS_STATUS_BLOCKED = 1 ∧
      FieldsBut s t [(F.RCS_STATUS_BLOCKED, 0, 0)])) ∧
    (s.thm.tripped = false → s.get F.RCS_STATUS_BUSY = 1 → Completes .rcsProgram s (fun t => OnlyRegs s t ∧ t.get F.RCS_STATUS_IGNORED = 1 ∧
      FieldsBut s t [(F.RCS_STATUS_IGNORED, 0, 0)])) ∧
    (s.thm.tripped = false → s.get F.RCS_STATUS_BUSY = 0 → Completes .rcsProgram s (fun t => t.get F.RCS_STATUS_BUSY = 1 ∧
      t.boot.rcs = some ⟨s.get F.RCS_ADDR_WORD, (List.range 8).map (fun j => s.get F.RCS_DATA_DATA 0 j), 0⟩ ∧
      Counted s t F.RCS_PROGRAMS_PROGRAMS 1 ∧ t.mem = s.mem ∧ RegsBut s t [.RCS_STATUS, .RCS_PROGRAMS])) ∧
    (∀ ok, s.boot.rcs = none → exec (.rcsProgramComplete ok) s = .next s) ∧
    (∀ j, s.boot.rcs = some j → let a := rcsWord j.word
      (j.data.length = 8 → (∀ x ∈ j.data, x < 2 ^ 32) → Completes (.rcsProgramComplete true) s (fun t => t.words a 8 = j.data ∧
        t.chkOf a = none ∧ t.boot.rcs = none ∧ t.get F.RCS_STATUS_BUSY = 0 ∧ MemBut s t a 32 ∧ FieldsBut s t [(F.RCS_STATUS_BUSY, 0, 0)])) ∧
      (j.fails < 3 → s.thm.tripped = false → s.boot.warmDue = none → Completes (.rcsProgramComplete false) s (fun t =>
        t.boot.rcs = some { j with fails := j.fails + 1 } ∧ t.get F.RCS_STATUS_BUSY = 1 ∧ t.get F.RCS_STATUS_VERIFY_FAIL = 1 ∧
        Counted s t F.RCS_PROGRAMS_PROGRAMS 1 ∧ MemBut s t a 32 ∧ RegsBut s t [.RCS_STATUS, .RCS_PROGRAMS])) ∧
      (3 ≤ j.fails → Completes (.rcsProgramComplete false) s (fun t => t.boot.rcs = none ∧ t.get F.RCS_STATUS_BUSY = 0 ∧
        t.get F.RCS_STATUS_VERIFY_FAIL = 1 ∧ RegsBut s t ([.RCS_STATUS] ++ recordRegs)))))

/-- R506, R507, R509 to R512, R515, R517, R518, R525, R526 and R556. -/
def Obligations.BootResetsAndDebugUnlockFollowTheirChapter : Prop :=
  (∀ (car : BitVec 3) (keep : BitVec 2) (p0 : Bool) (b : BoardDesc) (fr : Option (Fin 3)) (s : State),
    let i := Instr.coldStart car keep p0 b fr
    let desc := (s.recBody 0).isSome
    (s.boot.romDue = false ∨ s.pins.resetN = true → exec (.coldStart car keep p0 b fr) s = .next s) ∧
    (s.boot.romDue = true → s.pins.resetN = false → Completes i s (fun t => t.get F.BOOT_STATUS_STATE = 1 ∧
      t.get F.MBX_DEV_STATUS_BOOT_STATE = 1 ∧ t.boot.romDue = false ∧ t.boot.wdog = some s.tbu.ticks ∧ t.boot.failed = [] ∧
      t.get F.CPL_CONSIST_CAR = car.toNat ∧ t.get F.FUS_STATUS_LOADED = 1 ∧ t.get F.BOOT_CTRL_SLOT_NEXT_VALID = 0 ∧
      t.get F.PWR_KEEP_MODE = (if keep = 1 ∨ (keep = 2 ∧ desc = true ∧ b.lpreg = true) then 1 else 0) ∧
      t.get F.BOOT_STATUS_DESC_DEFAULT = (if desc then 0 else 1) ∧
      (desc = true → t.get F.TBU_CTRL_REF_SEL = b.refSel ∧ t.get F.TBU_CTRL_PLL_EN = 1) ∧
      (∀ n, desc = false → fr = some n → t.get F.TBU_CTRL_REF_SEL = n ∧ t.get F.TBU_CTRL_PLL_EN = 1) ∧
      t.get F.BOOT_STATUS_PAIR = (if p0 = true ∧ s.retired 15 0 = false then 0 else 1) ∧
      (s.get F.BOOT_CTRL_SLOT_NEXT_VALID = 1 → t.boot.slot = s.get F.BOOT_CTRL_SLOT_NEXT ∧ t.boot.fromNext = true) ∧
      (∀ c q p, s.get F.BOOT_CTRL_SLOT_NEXT_VALID = 0 → laterCopy s.boot.flash = some (c, q, p) → t.boot.slot = p ∧ t.boot.primary = p) ∧
      (s.boot.why = .powerOn → t.get F.RST_CAUSE_POWER_ON = 1) ∧
      (s.boot.why = .lockout → t.get F.RST_CAUSE_LOCKOUT_RELEASE = 1 ∧ t.get F.THM_TRIP_HIST_LOCKOUT_SEEN = 1) ∧
      (s.boot.why = .brownout → t.get F.TBU_HOLDOVER_BROWNOUT_LOST = 1) ∧ t.mem = s.mem))) ∧
  (∀ (fault : Fin 5) (sv : BitVec 7) (s : State), let slot := s.boot.slot
    let cause := if fault.val ≠ 0 then fault.val else if sv.toNat < s.rollback then 5 else 0
    (s.get F.BOOT_STATUS_STATE ≠ 1 → exec (.bootImageVerify fault sv) s = .next s) ∧
    (s.get F.BOOT_STATUS_STATE = 1 → cause ≠ 0 →
      Completes (.bootImageVerify fault sv) s (fun t => t.mem = s.mem ∧
        t.get (if slot = 0 then F.BOOT_STATUS_FAIL_A else F.BOOT_STATUS_FAIL_B) = cause ∧ slot ∈ t.boot.failed ∧
        RegsBut s t [.BOOT_STATUS, .MBX_DEV_STATUS]) ∧
      (1 - slot ∈ s.boot.failed → Completes (.bootImageVerify fault sv) s (fun t => t.get F.BOOT_STATUS_STATE = 15 ∧ t.boot.wdog = none)) ∧
      (1 - slot ∉ s.boot.failed → Completes (.bootImageVerify fault sv) s (fun t => t.get F.BOOT_STATUS_STATE = 1 ∧ t.boot.slot = 1 - slot))) ∧
    (s.get F.BOOT_STATUS_STATE = 1 → cause = 0 → s.memx.repairs = [] → Completes (.bootImageVerify fault sv) s (fun t =>
      t.get F.BOOT_STATUS_STATE = 4 ∧ t.get F.MBX_DEV_STATUS_BOOT_STATE = 4 ∧ t.get F.BOOT_STATUS_SECVER = sv.toNat ∧
      t.get F.BOOT_STATUS_SLOT = slot % 2 ∧ (slot = s.boot.primary → t.rollback = min 64 sv.toNat) ∧
      (slot ≠ s.boot.primary → t.memx.fuses = s.memx.fuses) ∧
      (∃ n, n < 24 ∧ ∀ c, c < 24 → c ≠ n → t.get F.MXC_STATUS_IN_SERVICE c = 1) ∧ t.mem = s.mem))) ∧
  (∀ (st : Fin 4) (ok : Bool) (bad : List Nat) (left : BitVec 16) (s : State), let i := Instr.hbmTrainingComplete st ok bad left
    (s.get F.BOOT_STATUS_STATE < 4 ∨ s.get F.BOOT_STATUS_STATE = 15 ∨ s.get F.MEM_STATUS_TRAINED st = 1 ∨ s.domState (128 + st) ≠ 0 →
      exec (.hbmTrainingComplete st ok bad left) s = .next s) ∧
    (4 ≤ s.get F.BOOT_STATUS_STATE → s.get F.BOOT_STATUS_STATE ≠ 15 → s.get F.MEM_STATUS_TRAINED st = 0 → s.domState (128 + st) = 0 →
      (ok = true → s.memx.repairs = [] → Tab.get [] s.memx.prio st.val = [] → Tab.find s.memx.paused st.val = none → Completes i s (fun t =>
        t.get F.MEM_STATUS_TRAINED st = 1 ∧ t.get F.MEM_STATUS_INIT_DONE st = 0 ∧ t.get F.MEM_READY_LO_READY st = 0 ∧
        t.get F.MEM_READY_HI_READY st = 0 ∧ t.get F.MEM_PPR_LEFT st = left.toNat ∧ t.get F.MEM_INIT_GRANULE st = 0 ∧
        t.get F.MEM_INIT_PTR st = 0 ∧ st.val ∈ t.boot.trained ∧ t.mem = s.mem ∧
        RegsBut s t [.MEM_STATUS, .MEM_READY_LO, .MEM_READY_HI, .MEM_PPR, .MEM_INIT])) ∧
      (ok = false → s.car.list = [] → s.MapRoom → Completes i s (fun t => t.Gone (18 * 2048 + st) ∧ st.val ∈ t.boot.trained ∧
        t.get F.MEM_STATUS_TRAINED st = 0 ∧ RegsBut s t ([.RCS_PROGRAMS] ++ recordRegs))))) ∧
  (∀ (b : BoardDesc) (cab : CableTable) (eq : List EqEntry) (s : State), let i := Instr.steolReady b cab eq
    (s.get F.BOOT_STATUS_STATE ≠ 4 ∨ (∃ st, st < 4 ∧ st ∉ s.boot.trained) → exec (.steolReady b cab eq) s = .next s) ∧
    (s.get F.BOOT_STATUS_STATE = 4 → (∀ st, st < 4 → st ∈ s.boot.trained) → (∀ k, k < 3 → s.recBody k = none) → Completes i s (fun t =>
      t.get F.BOOT_STATUS_STATE = 5 ∧ t.get F.MBX_DEV_STATUS_BOOT_STATE = 5 ∧ t.get F.MBX_DEV_STATUS_STEOL_READY = 1 ∧
      t.boot.wdog = none ∧ t.pwr.held = [] ∧ (∀ n ∈ s.pwr.held, .tenderEvent n ∈ t.out) ∧
      (∀ p, p < 32 → t.get F.TBU_PORT_EXT_RX_EXT_RX 0 p = 0 ∧ t.get F.TBU_PORT_EXT_TX_EXT_TX 0 p = 0 ∧
        t.get F.TBU_PORT_CFG_CABLE_DEFAULT 0 p = 1) ∧
      (∀ p, p < 16 → t.get F.CPL_PORT_STATUS_CAL_DEFAULT p = 1 ∧ t.get F.CPL_PORT_STATUS_EQ_DEFAULT p = 1 ∧
        t.get F.CPL_PORT_STATUS_CAL_DONE p = 1 ∧ t.get F.CPL_PORT_EQ_PRE p = 30 ∧ t.get F.CPL_PORT_EQ_MAIN p = 24 ∧
        t.get F.CPL_PORT_EQ_POST p = 28 ∧ t.get F.CPL_PORT_CTRL_EN p = s.get F.CPL_PORT_CTRL_EN p) ∧
      (s.dbgPolicy = 2 → t.get F.BOOT_DBG_STATUS_UNLOCKED = 1 ∧ t.get F.BOOT_DBG_STATUS_SCOPE = 3) ∧
      (s.dbgPolicy ≠ 2 → t.get F.BOOT_DBG_STATUS_UNLOCKED = s.get F.BOOT_DBG_STATUS_UNLOCKED)))) ∧
  (∀ (p0 : Bool) (s : State),
    let runs : Instr → WarmCause → Prop := fun i c => Completes i s (fun t => t.boot.warmDue = none ∧ t.get F.BOOT_STATUS_STATE = 1 ∧
      t.get (warmBit c) = 1 ∧ (∀ k : RegKey, keptReg k.reg = true → k.reg ≠ .TBU_STATUS → t.rd k = s.rd k) ∧
      (∀ k : RegKey, keptReg k.reg = false → k.reg ∉ [Reg.TBU_D_STATUS, .BOOT_CTRL, .CPL_CONSIST, .BOOT_DBG_STATUS, .MBX_DEV_STATUS, .RST_CAUSE,
        .BOOT_STATUS, .FUS_STATUS] → t.rd k = k.resetWord) ∧
      t.get F.CPL_CONSIST_CAR = s.get F.CPL_CONSIST_CAR ∧ t.tbu.a.counter = s.tbu.a.counter ∧ t.tbu.b.counter = s.tbu.b.counter ∧
      (∀ a, rcsBase ≤ a → a < rcsBase + 0x400000 → t.mem.read a = s.mem.read a) ∧
      (∀ a, a < rcsBase ∨ rcsBase + 0x400000 ≤ a → t.mem.read a = 0) ∧ t.gdx = State.reset.gdx ∧ t.car = State.reset.car ∧ t.out = s.out)
    (s.boot.warmDue = none ∨ s.boot.rcs ≠ none ∨ s.pins.resetN = true → exec (.warmReset p0) s = .next s) ∧
    (∀ c, s.boot.warmDue = some c → s.boot.rcs = none → s.pins.resetN = false → runs (.warmReset p0) c) ∧
    (s.pins.resetN = true → exec .resetNAssert s = .next s) ∧
    (s.pins.resetN = false →
      (s.dieOn = false ∨ s.boot.romDue = true → exec .resetNAssert s = .next { s with pins := { s.pins with resetN := true } }) ∧
      (s.dieOn = true → s.boot.romDue = false → Completes .resetNAssert s (fun t => t.pins.resetN = true ∧ t.boot.warmDue = some .pin ∧
        (s.boot.rcs ≠ none → t.regs = s.regs ∧ t.mem = s.mem) ∧ (s.boot.rcs = none → t.gdx = State.reset.gdx ∧ t.get F.RST_CAUSE_RESET_PIN = 1)))) ∧
    (s.pins.resetN = false → exec (.resetNRelease p0) s = .next s) ∧
    (s.pins.resetN = true →
      (s.thm.tripped = false → s.pins.lockout = false →
        (∀ c, s.boot.warmDue = some c → s.boot.rcs = none → runs (.resetNRelease p0) c) ∧
        (s.boot.warmDue = none → exec (.resetNRelease p0) s = .next { s with pins := { s.pins with resetN := false } })) ∧
      (s.thm.tripped = false → s.pins.lockout = true → Completes (.resetNRelease p0) s (fun t => t.pins.resetN = false ∧
        t.pins.lockout = false ∧ t.pins.upFails = 0 ∧ t.pins.enabled = 1 ∧ t.out = s.out ++ [.enables 1])) ∧
      (s.thm.tripped = true → s.thm.lockout = true → Completes (.resetNRelease p0) s (fun t => t.pins.resetN = false ∧
        t.thm.lockout = false ∧ t.thm.trips = [] ∧ t.thm.released = true)))) ∧
  (∀ (key db : BitVec 8) (s : State), let d := db.toNat
    (key = 0x5A → exec (.rstCtrlWarm key) s = .next { s with boot := { s.boot with warmDue := some .software } }) ∧
    (key ≠ 0x5A → exec (.rstCtrlWarm key) s = .next s) ∧
    (28 ≤ d ∨ s.pwr.rstDom ≠ none ∨ (s.domServes d = true ∧ s.domState d ≠ 5) → Completes (.rstDomain db) s (fun t => OnlyRegs s t ∧
      t.get F.RST_DOMAIN_DOMAIN = d ∧ t.get F.RST_DOMAIN_STATUS_REFUSED = 1 ∧
      FieldsBut s t [(F.RST_DOMAIN_DOMAIN, 0, 0), (F.RST_DOMAIN_STATUS_REFUSED, 0, 0)])) ∧
    (d < 28 → s.pwr.rstDom = none → s.domServes d = false ∨ s.domState d = 5 → Completes (.rstDomain db) s (fun t =>
      t.get F.RST_DOMAIN_STATUS_BUSY = 1 ∧ t.pwr.rstDom = some d ∧ t.domState d = 5 ∧ t.get F.PWR_DOM_STATE_WAKING 0 d = 1 ∧
      t.get F.PWR_DOM_STATE_TARGET 0 d = 0 ∧ (∀ k, s.pageIn d k = true → t.rd k = k.resetWord) ∧
      (∀ k : RegKey, s.pageIn d k = false → k.reg ∉ [Reg.RST_DOMAIN, .RST_DOMAIN_STATUS, .PWR_DOM_STATE] → t.rd k = s.rd k) ∧
      t.mem = s.mem))) ∧
  (∀ s : State,
    (s.boot.wdog = none → exec .bootWatchdogExpiry s = .next s) ∧
    (s.boot.wdog ≠ none → s.boot.fromNext = true → Completes .bootWatchdogExpiry s (fun t => t.get F.BOOT_STATUS_STATE = 15 ∧
      t.get (if s.boot.slot = 0 then F.BOOT_STATUS_FAIL_A else F.BOOT_STATUS_FAIL_B) = 6 ∧ t.boot.wdog = none ∧ t.mem = s.mem ∧
      RegsBut s t [.BOOT_STATUS, .MBX_DEV_STATUS])) ∧
    (s.boot.wdog ≠ none → s.boot.fromNext = false → Completes .bootWatchdogExpiry s (fun t => t.boot.warmDue = some .watchdog ∧
      t.get F.BOOT_CTRL_SLOT_NEXT_VALID = 1 ∧ t.get F.BOOT_CTRL_SLOT_NEXT = (1 - s.boot.slot) % 2 ∧
      FieldsBut s t [(F.BOOT_CTRL_SLOT_NEXT, 0, 0), (F.BOOT_CTRL_SLOT_NEXT_VALID, 0, 0)] ∧ t.mem = s.mem)) ∧
    exec .wdogKick s = .next { s with boot := { s.boot with wdog := s.boot.wdog.map (fun _ => s.tbu.ticks) } } ∧
    exec .wdogStop s = .next { s with boot := { s.boot with wdog := none } } ∧
    (∀ sc : BitVec 3, let good : Prop := s.dbgPolicy = 1 ∧ s.get F.BOOT_DBG_STATUS_LOCKED_OUT = 0 ∧ 1 ≤ sc.toNat ∧ sc.toNat ≤ 3
      (¬ good → Completes (.dbgReq sc) s (fun t => OnlyRegs s t ∧ t.get F.BOOT_DBG_CTRL_SCOPE = sc.toNat ∧
        FieldsBut s t [(F.BOOT_DBG_CTRL_SCOPE, 0, 0)])) ∧
      (good → Completes (.dbgReq sc) s (fun t => t.get F.BOOT_DBG_CTRL_SCOPE = sc.toNat ∧ t.get F.BOOT_DBG_STATUS_CHAL_VALID = 1 ∧
        t.get F.BOOT_DBG_CHAL_CHAL 0 1 = Tab.get 0 s.memx.fuses 0 % 2 ^ 32 ∧ t.get F.BOOT_DBG_CHAL_CHAL 0 2 = Tab.get 0 s.memx.fuses 1 % 2 ^ 32 ∧
        t.boot.challenges = s.boot.challenges + 1 ∧ t.mem = s.mem ∧ RegsBut s t [.BOOT_DBG_CTRL, .BOOT_DBG_STATUS, .BOOT_DBG_CHAL]))) ∧
    (∀ ok, s.get F.BOOT_DBG_STATUS_CHAL_VALID = 0 → exec (.dbgGo ok) s = .next s) ∧
    (s.get F.BOOT_DBG_STATUS_CHAL_VALID = 1 →
      Completes (.dbgGo true) s (fun t => OnlyRegs s t ∧ t.get F.BOOT_DBG_STATUS_CHAL_VALID = 0 ∧ t.get F.BOOT_DBG_STATUS_UNLOCKED = 1 ∧
        t.get F.BOOT_DBG_STATUS_SCOPE = s.get F.BOOT_DBG_CTRL_SCOPE ∧ t.get F.MBX_CSR_WIN_WR_EN = 1 ∧
        FieldsBut s t [(F.BOOT_DBG_STATUS_CHAL_VALID, 0, 0), (F.BOOT_DBG_STATUS_UNLOCKED, 0, 0), (F.BOOT_DBG_STATUS_SCOPE, 0, 0),
          (F.MBX_CSR_WIN_WR_EN, 0, 0)]) ∧
      Completes (.dbgGo false) s (fun t => OnlyRegs s t ∧ t.get F.BOOT_DBG_STATUS_CHAL_VALID = 0 ∧
        t.get F.BOOT_DBG_STATUS_UNLOCKED = s.get F.BOOT_DBG_STATUS_UNLOCKED ∧ Counted s t F.BOOT_DBG_STATUS_FAILS 1 ∧
        (2 ≤ s.get F.BOOT_DBG_STATUS_FAILS → t.get F.BOOT_DBG_STATUS_LOCKED_OUT = 1))) ∧
    Completes .dbgLock s (fun t => OnlyRegs s t ∧ t.get F.BOOT_DBG_STATUS_UNLOCKED = 0 ∧ t.get F.BOOT_DBG_STATUS_SCOPE = 0 ∧
      t.get F.MBX_CSR_WIN_WR_EN = 0 ∧
      FieldsBut s t [(F.BOOT_DBG_STATUS_UNLOCKED, 0, 0), (F.BOOT_DBG_STATUS_SCOPE, 0, 0), (F.MBX_CSR_WIN_WR_EN, 0, 0)]))

/-- R455, R480, R534 to R536, R538 and R544. -/
-- covers: tempMax, tempTender
def Obligations.SuppliesFaultsAndTheSmbusTargetBehave : Prop :=
  (∀ (q : Fin 8) (s : State), let k := q.val
    let rails := s.pins.rails ||| 2 ^ k
    let idle : Prop := s.thm.tripped = false ∧ s.pins.lockout = false
    (¬ idle → exec (.railInBand q) s = .next s) ∧
    (k = 7 → s.pins.aon = true → exec (.railInBand q) s = .next s) ∧
    (k < 7 → s.pins.aon = false ∨ s.pins.rails.testBit k = true → exec (.railInBand q) s = .next s) ∧
    (idle → k = 7 → s.pins.aon = false → exec (.railInBand q) s =
      .next { s with pins := { s.pins with aon := true, enabled := 1 }, out := s.out ++ [.enables 1] }) ∧
    (idle → k < 7 → s.pins.aon = true → s.pins.rails.testBit k = false →
      (rails ≠ 127 → s.pins.enabled < railsInOrder rails + 1 → exec (.railInBand q) s = .next { s with
        pins := { s.pins with rails := rails, enabled := railsInOrder rails + 1 }, out := s.out ++ [.enables (railsInOrder rails + 1)] }) ∧
      (rails ≠ 127 → railsInOrder rails + 1 ≤ s.pins.enabled →
        exec (.railInBand q) s = .next { s with pins := { s.pins with rails := rails } }) ∧
      (rails = 127 → Completes (.railInBand q) s (fun t => t.boot.romDue = true ∧ t.boot.why = s.boot.why ∧ t.pins.rails = 127 ∧
        t.pins.enabled = 7 ∧ t.pins.fault = false ∧ t.out = s.out ++ [.enables 7] ∧ t.gdx = State.reset.gdx ∧ t.tbu = State.reset.tbu ∧
        t.get F.PWR_KEEP_BROWNOUT = s.get F.PWR_KEEP_BROWNOUT ∧ t.rd ⟨.THM_TRIP_HIST, 0, 0⟩ = s.rd ⟨.THM_TRIP_HIST, 0, 0⟩ ∧
        (∀ k : RegKey, k.reg ∉ [Reg.PWR_KEEP, .THM_TRIP_HIST, .TND_STATUS] → t.rd k = k.resetWord) ∧
        (∀ a, rcsBase ≤ a → a < rcsBase + 0x400000 → t.mem.read a = s.mem.read a) ∧
        (∀ a, a < rcsBase ∨ rcsBase + 0x400000 ≤ a → t.mem.read a = 0))))) ∧
  (∀ s : State, let k := s.pins.enabled - 1
    let dead : Prop := s.pins.aon = false ∨ s.thm.tripped = true ∨ s.pins.lockout = true ∨ s.pins.enabled = 0 ∨ s.pins.rails.testBit k = true
    (dead → exec .railTimeout s = .next s) ∧
    (¬ dead → Completes .railTimeout s (fun t => t.pins.rails = 0 ∧ t.pins.upFails = s.pins.upFails + 1 ∧ t.pins.fault = true ∧
      t.pins.badRail = railCode k ∧ t.get F.TND_STATUS_ALERT = 1 ∧ t.tbu.started = false ∧ FieldsBut s t [(F.TND_STATUS_ALERT, 0, 0)] ∧
      (s.pins.upFails < 2 → t.pins.lockout = false ∧ t.pins.enabled = 1 ∧ t.out = s.out ++ [.enables 0, .enables 1]) ∧
      (2 ≤ s.pins.upFails → t.pins.lockout = true ∧ t.pins.enabled = 0 ∧ t.out = s.out ++ [.enables 0])))) ∧
  (∀ (q : Fin 7) (s : State), let k := q.val
    let off : Prop := s.pins.aon = false ∨ s.thm.tripped = true ∨ s.pins.enabled ≤ k ∨ s.pins.rails.testBit k = false ∨
      ((k = 1 ∨ k = 2) ∧ s.domState 255 = 4 ∧ s.get F.PWR_KEEP_MODE = 1)
    (off → exec (.powerFault q) s = .next s) ∧
    (¬ off → Completes (.powerFault q) s (fun t => t.pins.rails = 0 ∧ t.pins.enabled = 1 ∧ t.pins.fault = true ∧ t.pins.badRail = railCode k ∧
      t.boot.why = .powerOn ∧ t.get F.TND_STATUS_ALERT = 1 ∧ t.out = s.out ++ [.enables 0, .enables 1] ∧
      FieldsBut s t [(F.TND_STATUS_ALERT, 0, 0)]))) ∧
  (∀ (mv : BitVec 12) (s : State),
    exec (.avsbusWrite mv true) s = .next { s with pins := { s.pins with coreMv := mv.toNat }, out := s.out ++ [.avs mv.toNat] } ∧
    Completes (.avsbusWrite mv false) s (fun t => t.pins = s.pins ∧ t.out = s.out ++ [.avs mv.toNat] ∧ RegsBut s t recordRegs)) ∧
  (∀ s : State,
    (s.pins.aon = false → exec .brownout s = .next s) ∧
    (s.pins.aon = true → s.dieOn = false → Completes .brownout s (fun t => OnlyRegs s t ∧ t.get F.PWR_KEEP_BROWNOUT = 1 ∧
      FieldsBut s t [(F.PWR_KEEP_BROWNOUT, 0, 0)])) ∧
    (s.dieOn = true → Completes .brownout s (fun t => t.get F.PWR_KEEP_BROWNOUT = 1 ∧ t.boot.romDue = true ∧ t.boot.why = .brownout ∧
      t.boot.flash = s.boot.flash ∧ t.gdx = State.reset.gdx ∧ t.out = s.out ∧ t.rd ⟨.THM_TRIP_HIST, 0, 0⟩ = s.rd ⟨.THM_TRIP_HIST, 0, 0⟩ ∧
      (∀ k : RegKey, k.reg ∉ [Reg.PWR_KEEP, .THM_TRIP_HIST] → t.rd k = k.resetWord))) ∧
    (s.boot.rcs = none → Completes .vddAonRemoval s (fun t => t.domState 255 = 5 ∧ t.pins.aon = false ∧ t.pins.rails = 0 ∧
      t.pins.enabled = 0 ∧ t.memx.repairs = s.memx.repairs ∧ t.memx.fuses = s.memx.fuses ∧ t.boot.flash = s.boot.flash ∧
      (∀ k : RegKey, k ≠ ⟨.PWR_DOM_STATE, 0, 255⟩ → t.rd k = k.resetWord) ∧
      (∀ a, rcsBase ≤ a → a < rcsBase + 0x400000 → t.mem.read a = s.mem.read a) ∧
      (∀ a, a < rcsBase ∨ rcsBase + 0x400000 ≤ a → t.mem.read a = 0)))) ∧
  (∀ s : State, s.pins.aon = false → exec .smbusStatus s = .next s ∧ exec .tempMax s = .next s ∧ exec .tempTender s = .next s ∧
    (∀ n, exec (.rail n) s = .next s) ∧ exec .alertRules s = .next s ∧ exec .state s = .next s ∧ exec .smbusTimeout s = .next s) ∧
  (∀ s : State, s.pins.aon = true → let answer : Nat → State := fun v => s.send (.readData (BitVec.ofNat 32 v))
    let up : Prop := s.pins.rails = 127
    let seen := fun l : List Nat => l.filter (fun k => s.sampled k && !s.sensorFailed k)
    let hot : Instr → List Nat → Prop := fun i l => (seen l = [] → exec i s = .next (answer 0)) ∧
      (∀ k, k ∈ seen l → (∀ j ∈ seen l, (s.sensor j).temp ≤ (s.sensor k).temp) → exec i s = .next (answer (unsigned 16 (s.sensor k).temp)))
    (s.pins.badRail < 8 → ∃ v, exec .smbusStatus s = .next (answer v) ∧
      (up → natBits v 0 4 = s.get F.MBX_DEV_STATUS_BOOT_STATE ∧ v.testBit 4 = s.flag F.MBX_DEV_STATUS_STEOL_READY) ∧
      (¬ up → natBits v 0 5 = 0) ∧ v.testBit 5 = s.flag F.PWR_KEEP_BROWNOUT ∧ v.testBit 6 = s.flag F.THM_TRIP_HIST_TRIP_CAUSE ∧
      v.testBit 7 = s.thm.lockout ∧ natBits v 8 3 = s.pins.badRail ∧ v.testBit 11 = s.pins.lockout ∧
      v.testBit 12 = s.flag F.TND_STATUS_ALERT ∧ v < 2 ^ 13) ∧
    hot .tempMax (if s.dieOn then List.range 100 else [96, 97, 98, 99]) ∧ hot .tempTender [96, 97, 98, 99] ∧
    (∀ n : Fin 8, exec (.rail n) s = .next (answer (unsigned 16 (Tab.get 0 s.pwr.inputs (0x70 + n.val))))) ∧
    (∃ v, exec .alertRules s = .next (answer v) ∧ v < 2 ^ 32 ∧ ∀ n, n < 32 → v.testBit n = s.flag F.TND_RULE_ACTION_ASSERTED 0 n) ∧
    exec .state s = .next (answer (s.domState 255)) ∧ exec .smbusTimeout s = .next (s.send .smbRelease))

/-- R10, R551 to R553, R555, R557, R558, R562, R565 and R566. -/
def Obligations.RegistersAndClusterMapsAreAccessed : Prop :=
  (∀ (q : Requester) (a : Nat) (v : Word) (s : State),
    (0x10000000 ≤ a → exec (.registerWrite q a v) s = .next (s.send .busError) ∧ exec (.counterReadClear q a) s = .next (s.send .busError)) ∧
    (a < 0x10000000 → (∀ k, q ≠ .vsc k) → a % 4 ≠ 0 ∨ csrAt a = none →
      exec (.registerWrite q a v) s = .next (s.send .busError) ∧
      exec (.counterReadClear q a) s = .next (s.send (if q = .hostPF true then .unsupported else .busError))) ∧
    (∀ b i off, a < 0x10000000 → (∀ k, q ≠ .vsc k) → a % 4 = 0 → csrAt a = some (b, i, off) → (b = .MBX → s.mbxMem q off = none) →
      (regAt b off = none → exec (.registerWrite q a v) s = .next s ∧ exec (.counterReadClear q a) s = .next (s.send (.readData 0))) ∧
      (∀ r j, regAt b off = some (r, j) →
        (s.mayReach q r j true = false ∨ s.pageOn b i = false ∨ s.meaningful r i = false → exec (.registerWrite q a v) s = .next s) ∧
        (s.mayReach q r j false = false ∨ s.pageOn b i = false ∨ s.meaningful r i = false →
          exec (.counterReadClear q a) s = .next (s.send (.readData 0))))) ∧
    (∀ r i j, s.Reaches q a true r i j → r ∉ actingRegs → let k : RegKey := ⟨r, i, s.viewIdx r i j⟩
      exec (.registerWrite q a v) s = .next (s.wr k (storedWord r (s.rd k) v)) ∧
      Completes (.registerWrite q a v) s (fun t => OnlyRegs s t ∧ (∀ k', k' ≠ k → t.rd k' = s.rd k') ∧
        (r.reservedCodes = [] → r.zeroIsOne = [] → ∀ f ∈ r.fields,
          (f.acc = .RW → fieldGet (t.rd k) f.lo f.len = fieldGet v f.lo f.len) ∧
          (f.acc = .RO ∨ f.acc = .RC → fieldGet (t.rd k) f.lo f.len = fieldGet (s.rd k) f.lo f.len) ∧
          (f.acc = .W1C → fieldGet (t.rd k) f.lo f.len = fieldGet (s.rd k &&& ~~~v) f.lo f.len)))) ∧
    (∀ r i j, s.Reaches q a false r i j → r ∉ readingRegs → s.gdx.snap = none → s.domState 255 ≠ 4 → let k : RegKey := ⟨r, i, s.viewIdx r i j⟩
      let w := readFields (s.view r i j) r.fields
      (q ≠ .steward → exec (.counterReadClear q a) s = .next (s.send (.readData w))) ∧
      (q = .steward → Completes (.counterReadClear q a) s (fun t => t.out = s.out ++ [.readData w] ∧ t.mem = s.mem ∧
        (∀ k', k' ≠ k → t.rd k' = s.rd k') ∧
        (∀ f ∈ r.fields, fieldGet (t.rd k) f.lo f.len = (if f.acc = .RC then 0 else fieldGet (s.rd k) f.lo f.len)))))) ∧
  (∀ (c : Fin 24) (m : Word) (s : State), let map := m.toNat
    let at' : Nat → Nat := fun k => map / 16 ^ k % 16
    let idle : Nat → Prop := fun k => s.posIdle c (s.sclPos c k) = true ∧ s.posIdle c (at' k) = true
    (s.sclMapBad c map = true → Completes (.sclMapWrite c m) s (fun t => OnlyRegs s t ∧ t.get F.SCL_STATUS_MAP_REFUSED c = 1 ∧
      FieldsBut s t [(F.SCL_STATUS_MAP_REFUSED, c.val, 0)])) ∧
    (s.sclMapBad c map = false →
      ((∀ k, k < 8 → s.sclPos c k ≠ at' k → idle k) → Completes (.sclMapWrite c m) s (fun t => t.get F.SCL_MAP_SLOT c = map ∧
        Tab.find t.scl.mapPending c.val = none ∧ t.get F.SCL_STATUS_MAP_PENDING c = 0 ∧
        (∀ k, k < 8 → s.sclPos c k ≠ at' k → at' k ≠ 0xF → (t.exec (8 * c + k)).out = false) ∧ t.mem = s.mem ∧
        RegsBut s t [.SCL_MAP, .SCL_STATUS, .VSC_STATUS])) ∧
      (∀ k, k < 8 → s.sclPos c k ≠ at' k → ¬ idle k → Completes (.sclMapWrite c m) s (fun t => t.sclPos c k = s.sclPos c k ∧
        Tab.find t.scl.mapPending c.val = some map ∧ t.get F.SCL_STATUS_MAP_PENDING c = 1 ∧ t.mem = s.mem ∧
        RegsBut s t [.SCL_MAP, .SCL_STATUS, .VSC_STATUS]))) ∧
    (Tab.find s.scl.mapPending c.val = none → exec (.sclMapApply c) s = .next s) ∧
    (Tab.find s.scl.mapPending c.val = some map → (∀ k, k < 8 → s.sclPos c k ≠ at' k → idle k) →
      Completes (.sclMapApply c) s (fun t => t.get F.SCL_MAP_SLOT c = map ∧ Tab.find t.scl.mapPending c.val = none ∧
        t.get F.SCL_STATUS_MAP_PENDING c = 0 ∧ t.mem = s.mem ∧ RegsBut s t [.SCL_MAP, .SCL_STATUS, .VSC_STATUS])) ∧
    (Tab.find s.scl.mapPending c.val = some map → ∀ k, k < 8 → s.sclPos c k ≠ at' k → ¬ idle k → Completes (.sclMapApply c) s (fun t =>
      t.sclPos c k = s.sclPos c k ∧ Tab.find t.scl.mapPending c.val = some map))) ∧
  (∀ (n : Fin 24) (lb : BitVec 8) (s : State), let l := lb.toNat
    let busy := (s.core (192 + n)).isSome
    (s.lendBad n l = true → Completes (.sclLendWrite n lb true) s (fun t => OnlyRegs s t ∧ t.get F.SCL_STATUS_MAP_REFUSED n = 1 ∧
      FieldsBut s t [(F.SCL_STATUS_MAP_REFUSED, n.val, 0)])) ∧
    (s.lendBad n l = false →
      Completes (.sclLendWrite n lb true) s (fun t => t.get F.SCL_LEND_LOGICAL n = l ∧ t.get F.SCL_LEND_EN n = 1 ∧ t.mem = s.mem ∧
        RegsBut s t [.SCL_LEND, .VSC_STATUS]) ∧
      (busy = true → Completes (.sclLendWrite n lb true) s (fun t => t.scl = s.scl ∧ t.gdx = s.gdx)) ∧
      (busy = false → Completes (.sclLendWrite n lb true) s (fun t => Tab.find t.scl.lends n.val = some l ∧
        (Tab.find s.scl.lends n.val ≠ some l → (t.exec l).out = false)))) ∧
    Completes (.sclLendWrite n lb false) s (fun t => t.get F.SCL_LEND_EN n = 0 ∧ RegsBut s t [.SCL_LEND] ∧
      (busy = true → t.scl = s.scl) ∧ (busy = false → Tab.find t.scl.lends n.val = none)) ∧
    (busy = true → exec (.sclLendApply n) s = .next s) ∧
    (busy = false → s.get F.SCL_LEND_EN n = 0 → Completes (.sclLendApply n) s (fun t => Tab.find t.scl.lends n.val = none ∧ t.regs = s.regs)) ∧
    (busy = false → s.get F.SCL_LEND_EN n = 1 → Completes (.sclLendApply n) s (fun t =>
      Tab.find t.scl.lends n.val = some (s.get F.SCL_LEND_LOGICAL n) ∧ RegsBut s t [.VSC_STATUS])))

/-- R405, R430, R431, R434 to R436. -/
-- covers: mbxRingDb, ringItemFetch
def Obligations.RingsCarryItemsAndMessages : Prop :=
  (∀ (f : Fin 17) (rb : BitVec 9) (iw : Word) (s : State), let r := rb.toNat
    let idx := iw.toNat
    let i := Instr.mbxRingDb f rb iw
    let bell := { s with host := { s.host with doorbells := s.host.doorbells + 1 } }
    (s.ring r = none → exec i s = .next s) ∧
    (∀ x, s.ring r = some x → x.func ≠ f → exec i s = .next s) ∧
    (∀ x, s.ring r = some x → x.func = f →
      (x.out = true → let n := (idx + 2 ^ 32 - s.get F.MBX_RING_HEAD_HEAD 0 r) % 2 ^ 32
        (n ≤ s.ringFill r → Completes i s (fun t => t.get F.MBX_RING_HEAD_HEAD 0 r = idx ∧ t.ring r = some { x with items := x.items.drop n } ∧
          RegsBut s t [.MBX_RING_HEAD] ∧ t.out = s.out ∧ ((∀ y ∈ x.items, y.buf = none) → t.mem = s.mem ∧ t.gdx = s.gdx))) ∧
        (s.ringFill r < n → exec i s = .next (bell.set F.MBX_RING_STATUS_DB_BAD 0 r))) ∧
      (x.out = false → s.ringDetached r = true → exec i s = .next bell) ∧
      (x.out = false → s.ringDetached r = false → let n := (idx + 2 ^ 32 - s.get F.MBX_RING_TAIL_TAIL 0 r) % 2 ^ 32
        (s.ringFill r + n ≤ x.entries → Completes i s (fun t => t.get F.MBX_RING_TAIL_TAIL 0 r = idx ∧ t.host = bell.host ∧ t.mem = s.mem ∧
          FieldsBut s t [(F.MBX_RING_TAIL_TAIL, 0, r)])) ∧
        (x.entries < s.ringFill r + n → exec i s = .next (bell.set F.MBX_RING_STATUS_DB_BAD 0 r))))) ∧
  (∀ (rb : BitVec 9) (item : List Word) (pay : List Byte) (s : State), let r := rb.toNat
    let i := Instr.ringItemFetch rb item pay
    (s.ring r = none → exec i s = .next s) ∧
    (∀ x, s.ring r = some x → let given := (List.range 16).map (fun k => (item.map (·.toNat)).getD k 0)
      let here := s.words (x.base + x.fetched % x.entries * 64) 16
      let got := fun (w : List Nat) => RingItem.mk x.fetched false none false (w.getD 4 0 + natBits (w.getD 5 0) 0 16 * 2 ^ 32) w
      (x.out = true ∨ x.fetched = s.get F.MBX_RING_TAIL_TAIL 0 r → exec i s = .next s) ∧
      (x.out = false → x.fetched ≠ s.get F.MBX_RING_TAIL_TAIL 0 r →
        (x.inHost = false → Completes i s (fun t => t.ring r =
          some { x with fetched := (x.fetched + 1) % 2 ^ 32, items := x.items ++ [got here] } ∧ t.regs = s.regs ∧ t.mem = s.mem)) ∧
        (x.inHost = true → x.kind ≠ .data → Completes i s (fun t => t.ring r =
          some { x with fetched := (x.fetched + 1) % 2 ^ 32, items := x.items ++ [got given] } ∧ t.regs = s.regs ∧ t.mem = s.mem)) ∧
        (x.inHost = true → x.kind = .data → s.poolFree x.stagePool = 0 → exec i s = .next s) ∧
        (x.inHost = true → x.kind = .data → s.poolFree x.stagePool ≠ 0 → Completes i s (fun t => ∃ a,
          let body := pay.take (min (given.getD 3 0) (s.poolSize x.stagePool))
          let y := RingItem.mk x.fetched false (some (x.stagePool, a)) false a given
          t.ring r = some { x with fetched := (x.fetched + 1) % 2 ^ 32, items := x.items ++ [y] } ∧ t.bytes a body.length = body))))) ∧
  (∀ (rb : BitVec 9) (s : State), let r := rb.toNat
    (s.ring r = none → exec (.ringCoalesceTimer rb) s = .next s) ∧
    (∀ x, s.ring r = some x →
      (x.unsignalled = 0 → exec (.ringCoalesceTimer rb) s = .next s) ∧
      (x.unsignalled ≠ 0 → Completes (.ringCoalesceTimer rb) s (fun t => t.ring r = some { x with unsignalled := 0 } ∧ t.regs = s.regs ∧
        t.mem = s.mem ∧ t.out = s.out ++ (if s.get F.MBX_RING_IRQ_EN 0 r = 1 then
          [.msix (globalVector x.func (s.get F.MBX_RING_IRQ_VECTOR 0 r))] else []))))) ∧
  (∀ (rb : BitVec 9) (s : State), let r := rb.toNat
    (s.fapiHead r 0x00 = none → exec (.paramRequest rb) s = .next s) ∧
    (∀ rm add, s.fapiHead r 0x02 = none → exec (.configRequest rb rm add) s = .next s) ∧
    (∀ lk dl, s.fapiHead r 0x04 = none → exec (.startRequest rb lk dl) s = .next s) ∧
    (s.fapiHead r 0x05 = none → exec (.stopRequest rb) s = .next s)) ∧
  (∀ (rb : BitVec 9) (x : Ring) (i : RingItem) (rest : List RingItem) (s : State), let r := rb.toNat
    let low := natBits (i.words.headD 0) 16 16
    let h := s.carrierOf x.func low
    let gone : State → Prop := fun t => (∃ y, t.ring r = some y ∧ y.items = rest) ∧
      t.get F.MBX_RING_HEAD_HEAD 0 r = (s.get F.MBX_RING_HEAD_HEAD 0 r + 1) % 2 ^ 32
    (s.MessageAt r x i rest 0x00 →
      Completes (.paramRequest rb) s (fun t => gone t ∧ t.car = s.car) ∧
      (∀ q, s.Answers x.func q → Completes (.paramRequest rb) s (fun t => .fapi q 0x01 0 0 [] ∈ t.out))) ∧
    (∀ rm add hs u q, s.MessageAt r x i rest 0x02 → s.configure x.func rm add = .inr (hs, u) → u.Answers x.func q →
      Completes (.configRequest rb rm add) s (fun t => t.car = u.car ∧ .fapi q 0x03 0 0 hs ∈ t.out)) ∧
    (∀ rm add e q, s.MessageAt r x i rest 0x02 → s.configure x.func rm add = .inl e → s.Answers x.func q →
      Completes (.configRequest rb rm add) s (fun t => t.car = s.car ∧ ∃ n, .fapi q 0x03 n e.cause [] ∈ t.out)) ∧
    (∀ lk dl, s.MessageAt r x i rest 0x04 →
      (∀ c, Tab.find s.car.list h = some c → c.func = x.func → c.started = false → s.stacksHold = false → s.consistCause c.desc.tag lk dl = 0 →
        Completes (.startRequest rb lk dl) s (fun t => (c.desc.reference = false → gone t) ∧ Tab.find t.car.list h = some { c with started := true, shed := none } ∧
          (∀ g, g ≠ h → Tab.find t.car.list g = Tab.find s.car.list g))) ∧
      (∀ e q, s.startCar x.func h lk dl = .inl e → s.Answers x.func q → Completes (.startRequest rb lk dl) s (fun t => t.car = s.car ∧
        gone t ∧ ∃ n, .fapi q 0x07 n e.cause [] ∈ t.out))) ∧
    (s.MessageAt r x i rest 0x05 →
      (∀ c, Tab.find s.car.list h = some c → c.func = x.func → c.started = true → s.GdxEmpty → s.flag F.GDX_CTRL_EN = false →
        Completes (.stopRequest rb) s (fun t => Tab.find t.car.list h = some { c with started := false, shed := none } ∧
          (∀ g, g ≠ h → Tab.find t.car.list g = Tab.find s.car.list g))) ∧
      (∀ e q, s.stopCar x.func h = .inl e → s.Answers x.func q → Completes (.stopRequest rb) s (fun t => t.car = s.car ∧
        gone t ∧ ∃ n, .fapi q 0x07 n e.cause [] ∈ t.out))))

/-- R403, R406, R407, R436, R446 and R526. -/
def Obligations.FunctionResetsAndTheWindowsOfTheHost : Prop :=
  (∀ s : State, exec .perstNRelease s = .next { s with host := { s.host with link := true } }) ∧
  (∀ (f : Fin 17) (s : State),
    Completes (.flr f) s (fun t =>
      (∀ m, m < 256 → s.mbxOwner m = f → t.get F.MBX_STATUS_STATE 0 m = 0 ∧ t.get F.MBX_OWNER_SESSION_OPEN 0 m = 0 ∧
        (t.mbx m).version = none ∧ (∀ r, (t.mbx m).cur = some r → r.gone = true) ∧
        (s.get F.MBX_STATUS_STATE 0 m = 1 ∨ s.get F.MBX_STATUS_STATE 0 m = 2 → t.get F.MBX_STATUS_REQUEST_LOST 0 m = 1)) ∧
      (∀ m, s.mbxOwner m ≠ f → t.mbx m = s.mbx m ∧ t.rd ⟨.MBX_STATUS, 0, m⟩ = s.rd ⟨.MBX_STATUS, 0, m⟩ ∧
        t.rd ⟨.MBX_OWNER, 0, m⟩ = s.rd ⟨.MBX_OWNER, 0, m⟩) ∧
      (∀ r x, s.ring r = some x → x.func = f → t.ringDetached r = true ∧ (x.out = false → t.ring r = some x) ∧
        (x.out = true → t.ring r = some { x with items := [] } ∧ t.get F.MBX_RING_HEAD_HEAD 0 r = s.get F.MBX_RING_TAIL_TAIL 0 r)) ∧
      (∀ r, r ∉ s.ringsOf f → t.ring r = s.ring r ∧ t.ringDetached r = s.ringDetached r) ∧
      Tab.find t.host.hostBase f.val = none ∧ (s.ringsOf f ≠ [] ∨ s.carsOf f ≠ [] → f.val ∈ t.host.unclaimed) ∧ t.car = s.car ∧
      t.out = s.out ∧ RegsBut s t [.MBX_STATUS, .MBX_OWNER, .MBX_RING_STATUS, .MBX_RING_HEAD, .MBX_RING_DETACH_DROP]) ∧
    Completes .pcieHotReset s (fun t =>
      (∀ m, m < 256 → s.mbxOwner m < 17 → t.get F.MBX_STATUS_STATE 0 m = 0 ∧ t.get F.MBX_OWNER_SESSION_OPEN 0 m = 0 ∧
        (t.mbx m).version = none) ∧
      (∀ r x, s.ring r = some x → x.func < 17 → t.ringDetached r = true) ∧ (∀ g, g < 17 → Tab.find t.host.hostBase g = none) ∧
      t.car = s.car ∧ t.out = s.out ∧ RegsBut s t [.MBX_STATUS, .MBX_OWNER, .MBX_RING_STATUS, .MBX_RING_HEAD, .MBX_RING_DETACH_DROP]) ∧
    (f.val ∉ s.host.unclaimed → exec (.claimWaitExpiry f) s = .next s) ∧
    (f.val ∈ s.host.unclaimed → (∀ c ∈ s.car.list, c.2.func ≠ f) → Completes (.claimWaitExpiry f) s (fun t =>
      (∀ r x, s.ring r = some x → x.func = f → t.ring r = none ∧ t.get F.MBX_RING_STATUS_ENABLED 0 r = 0) ∧
      (∀ r, r ∉ s.ringsOf f → t.ring r = s.ring r) ∧ f.val ∉ t.host.unclaimed ∧ t.car = s.car ∧ t.out = s.out ∧
      RegsBut s t [.MBX_RING_STATUS]))) ∧
  (∀ (off : BitVec 24) (v : Word) (s : State), let a := s.get F.MBX_CSR_WIN_SEG * 0x1000000 + off.toNat
    (s.dbgScope 1 = false → exec (.csrWindowWrite off v) s = .next s) ∧
    (s.dbgScope 1 = true → exec (.csrWindowWrite off v) s = exec (.registerWrite (.hostPF true) a v) s) ∧
    (∀ r i j, s.dbgScope 1 = true → s.Reaches (.hostPF true) a true r i j → r ∉ actingRegs →
      exec (.csrWindowWrite off v) s = .next (s.wr ⟨r, i, s.viewIdx r i j⟩ (storedWord r (s.rd ⟨r, i, s.viewIdx r i j⟩) v)))) ∧
  (∀ (f : Fin 17) (ob : BitVec 48) (s : State), let off := ob.toNat
    (∀ w, s.domState 255 = 4 ∨ s.bar2 f off = none → exec (.bar2Access f ob w) s = .next (s.send .unsupported)) ∧
    (f.val = 0 → off < 0x2400000000 → s.bar2 f off = some (0x10000000000 + off)) ∧
    (f.val = 0 → 0x4000000000 ≤ off → off < 0x4004000000 → s.bar2 f off = some (0x10000000 + (off - 0x4000000000))) ∧
    (∀ b, f.val ≠ 0 → off < 0x400000000 → Tab.find s.host.windows (f.val, off / 0x80000000) = some b →
      s.bar2 f off = some (b + off % 0x80000000)) ∧
    (∀ a k, s.domState 255 ≠ 4 → s.bar2 f off = some a → memKind a = some k →
      (s.memWaits k a false = true → Completes (.bar2Access f ob none) s (fun t => t.memx.waiting = s.memx.waiting ++ [.read a] ∧
        t.out = s.out ∧ t.mem = s.mem)) ∧
      (s.memWaits k a false = false → (k = .hbm → s.lineReady a = true) → s.chkOf (wordOf k a) = none → Completes (.bar2Access f ob none) s (fun t =>
        t.out = s.out ++ [.memData (wordOf k a) (s.bytes (wordOf k a) (wordBytes k)) false false] ∧ t.mem = s.mem ∧
        RegsBut s t [.MEM_CH_BYTES])) ∧
      (∀ bs, k = .sram → s.memx.chk = [] → s.get F.ECC_INJ_ARM = 0 → Completes (.bar2Access f ob (some bs)) s (fun t =>
        t.bytes a bs.length = bs ∧ MemBut s t a bs.length ∧ t.regs = s.regs ∧ t.out = s.out))))
end

