-- ==== Sys2Proof/Laws/State.lean ====
section
/-!
SUPPORT. Sys2Proof/Laws/State.lean: for each update of the state one lemma per field, so that no later proof unfolds a record
update.
-/
namespace Sys2Proof.Machine

/-! ### State.wr -/

@[simp] theorem State.wr_regs (s : State) (k : RegKey) (w : Word) : (s.wr k w).regs = Tab.set s.regs k w := rfl
@[simp] theorem State.wr_mem (s : State) (k : RegKey) (w : Word) : (s.wr k w).mem = s.mem := rfl
@[simp] theorem State.wr_memx (s : State) (k : RegKey) (w : Word) : (s.wr k w).memx = s.memx := rfl
@[simp] theorem State.wr_tbu (s : State) (k : RegKey) (w : Word) : (s.wr k w).tbu = s.tbu := rfl
@[simp] theorem State.wr_aft (s : State) (k : RegKey) (w : Word) : (s.wr k w).aft = s.aft := rfl
@[simp] theorem State.wr_sq (s : State) (k : RegKey) (w : Word) : (s.wr k w).sq = s.sq := rfl
@[simp] theorem State.wr_gdx (s : State) (k : RegKey) (w : Word) : (s.wr k w).gdx = s.gdx := rfl
@[simp] theorem State.wr_exu (s : State) (k : RegKey) (w : Word) : (s.wr k w).exu = s.exu := rfl
@[simp] theorem State.wr_pwr (s : State) (k : RegKey) (w : Word) : (s.wr k w).pwr = s.pwr := rfl
@[simp] theorem State.wr_scl (s : State) (k : RegKey) (w : Word) : (s.wr k w).scl = s.scl := rfl
@[simp] theorem State.wr_dep (s : State) (k : RegKey) (w : Word) : (s.wr k w).dep = s.dep := rfl
@[simp] theorem State.wr_boot (s : State) (k : RegKey) (w : Word) : (s.wr k w).boot = s.boot := rfl
@[simp] theorem State.wr_thm (s : State) (k : RegKey) (w : Word) : (s.wr k w).thm = s.thm := rfl
@[simp] theorem State.wr_pins (s : State) (k : RegKey) (w : Word) : (s.wr k w).pins = s.pins := rfl
@[simp] theorem State.wr_cpl (s : State) (k : RegKey) (w : Word) : (s.wr k w).cpl = s.cpl := rfl
@[simp] theorem State.wr_net (s : State) (k : RegKey) (w : Word) : (s.wr k w).net = s.net := rfl
@[simp] theorem State.wr_host (s : State) (k : RegKey) (w : Word) : (s.wr k w).host = s.host := rfl
@[simp] theorem State.wr_car (s : State) (k : RegKey) (w : Word) : (s.wr k w).car = s.car := rfl
@[simp] theorem State.wr_erqLast (s : State) (k : RegKey) (w : Word) : (s.wr k w).erqLast = s.erqLast := rfl
@[simp] theorem State.wr_out (s : State) (k : RegKey) (w : Word) : (s.wr k w).out = s.out := rfl
@[simp] theorem State.wr_free (s : State) (k : RegKey) (w : Word) : (s.wr k w).free = s.free := rfl
@[simp] theorem State.wr_pending (s : State) (k : RegKey) (w : Word) : (s.wr k w).pending = s.pending := rfl

/-! ### State.setWord -/

@[simp] theorem State.setWord_regs (s : State) (a x : Nat) : (s.setWord a x).regs = s.regs := rfl
@[simp] theorem State.setWord_mem (s : State) (a x : Nat) : (s.setWord a x).mem = s.mem.setWord a x := rfl
@[simp] theorem State.setWord_memx (s : State) (a x : Nat) : (s.setWord a x).memx = s.memx := rfl
@[simp] theorem State.setWord_tbu (s : State) (a x : Nat) : (s.setWord a x).tbu = s.tbu := rfl
@[simp] theorem State.setWord_aft (s : State) (a x : Nat) : (s.setWord a x).aft = s.aft := rfl
@[simp] theorem State.setWord_sq (s : State) (a x : Nat) : (s.setWord a x).sq = s.sq := rfl
@[simp] theorem State.setWord_gdx (s : State) (a x : Nat) : (s.setWord a x).gdx = s.gdx := rfl
@[simp] theorem State.setWord_exu (s : State) (a x : Nat) : (s.setWord a x).exu = s.exu := rfl
@[simp] theorem State.setWord_pwr (s : State) (a x : Nat) : (s.setWord a x).pwr = s.pwr := rfl
@[simp] theorem State.setWord_scl (s : State) (a x : Nat) : (s.setWord a x).scl = s.scl := rfl
@[simp] theorem State.setWord_dep (s : State) (a x : Nat) : (s.setWord a x).dep = s.dep := rfl
@[simp] theorem State.setWord_boot (s : State) (a x : Nat) : (s.setWord a x).boot = s.boot := rfl
@[simp] theorem State.setWord_thm (s : State) (a x : Nat) : (s.setWord a x).thm = s.thm := rfl
@[simp] theorem State.setWord_pins (s : State) (a x : Nat) : (s.setWord a x).pins = s.pins := rfl
@[simp] theorem State.setWord_cpl (s : State) (a x : Nat) : (s.setWord a x).cpl = s.cpl := rfl
@[simp] theorem State.setWord_net (s : State) (a x : Nat) : (s.setWord a x).net = s.net := rfl
@[simp] theorem State.setWord_host (s : State) (a x : Nat) : (s.setWord a x).host = s.host := rfl
@[simp] theorem State.setWord_car (s : State) (a x : Nat) : (s.setWord a x).car = s.car := rfl
@[simp] theorem State.setWord_erqLast (s : State) (a x : Nat) : (s.setWord a x).erqLast = s.erqLast := rfl
@[simp] theorem State.setWord_out (s : State) (a x : Nat) : (s.setWord a x).out = s.out := rfl
@[simp] theorem State.setWord_free (s : State) (a x : Nat) : (s.setWord a x).free = s.free := rfl
@[simp] theorem State.setWord_pending (s : State) (a x : Nat) : (s.setWord a x).pending = s.pending := rfl

/-! ### State.setBytes -/

@[simp] theorem State.setBytes_regs (s : State) (a : Nat) (bs : List Byte) : (s.setBytes a bs).regs = s.regs := rfl
@[simp] theorem State.setBytes_mem (s : State) (a : Nat) (bs : List Byte) : (s.setBytes a bs).mem = s.mem.writeBytes a bs := rfl
@[simp] theorem State.setBytes_memx (s : State) (a : Nat) (bs : List Byte) : (s.setBytes a bs).memx = s.memx := rfl
@[simp] theorem State.setBytes_tbu (s : State) (a : Nat) (bs : List Byte) : (s.setBytes a bs).tbu = s.tbu := rfl
@[simp] theorem State.setBytes_aft (s : State) (a : Nat) (bs : List Byte) : (s.setBytes a bs).aft = s.aft := rfl
@[simp] theorem State.setBytes_sq (s : State) (a : Nat) (bs : List Byte) : (s.setBytes a bs).sq = s.sq := rfl
@[simp] theorem State.setBytes_gdx (s : State) (a : Nat) (bs : List Byte) : (s.setBytes a bs).gdx = s.gdx := rfl
@[simp] theorem State.setBytes_exu (s : State) (a : Nat) (bs : List Byte) : (s.setBytes a bs).exu = s.exu := rfl
@[simp] theorem State.setBytes_pwr (s : State) (a : Nat) (bs : List Byte) : (s.setBytes a bs).pwr = s.pwr := rfl
@[simp] theorem State.setBytes_scl (s : State) (a : Nat) (bs : List Byte) : (s.setBytes a bs).scl = s.scl := rfl
@[simp] theorem State.setBytes_dep (s : State) (a : Nat) (bs : List Byte) : (s.setBytes a bs).dep = s.dep := rfl
@[simp] theorem State.setBytes_boot (s : State) (a : Nat) (bs : List Byte) : (s.setBytes a bs).boot = s.boot := rfl
@[simp] theorem State.setBytes_thm (s : State) (a : Nat) (bs : List Byte) : (s.setBytes a bs).thm = s.thm := rfl
@[simp] theorem State.setBytes_pins (s : State) (a : Nat) (bs : List Byte) : (s.setBytes a bs).pins = s.pins := rfl
@[simp] theorem State.setBytes_cpl (s : State) (a : Nat) (bs : List Byte) : (s.setBytes a bs).cpl = s.cpl := rfl
@[simp] theorem State.setBytes_net (s : State) (a : Nat) (bs : List Byte) : (s.setBytes a bs).net = s.net := rfl
@[simp] theorem State.setBytes_host (s : State) (a : Nat) (bs : List Byte) : (s.setBytes a bs).host = s.host := rfl
@[simp] theorem State.setBytes_car (s : State) (a : Nat) (bs : List Byte) : (s.setBytes a bs).car = s.car := rfl
@[simp] theorem State.setBytes_erqLast (s : State) (a : Nat) (bs : List Byte) : (s.setBytes a bs).erqLast = s.erqLast := rfl
@[simp] theorem State.setBytes_out (s : State) (a : Nat) (bs : List Byte) : (s.setBytes a bs).out = s.out := rfl
@[simp] theorem State.setBytes_free (s : State) (a : Nat) (bs : List Byte) : (s.setBytes a bs).free = s.free := rfl
@[simp] theorem State.setBytes_pending (s : State) (a : Nat) (bs : List Byte) : (s.setBytes a bs).pending = s.pending := rfl

/-! ### State.setMemx -/

@[simp] theorem State.setMemx_regs (s : State) (m : MemSt) : (s.setMemx m).regs = s.regs := rfl
@[simp] theorem State.setMemx_mem (s : State) (m : MemSt) : (s.setMemx m).mem = s.mem := rfl
@[simp] theorem State.setMemx_memx (s : State) (m : MemSt) : (s.setMemx m).memx = m := rfl
@[simp] theorem State.setMemx_tbu (s : State) (m : MemSt) : (s.setMemx m).tbu = s.tbu := rfl
@[simp] theorem State.setMemx_aft (s : State) (m : MemSt) : (s.setMemx m).aft = s.aft := rfl
@[simp] theorem State.setMemx_sq (s : State) (m : MemSt) : (s.setMemx m).sq = s.sq := rfl
@[simp] theorem State.setMemx_gdx (s : State) (m : MemSt) : (s.setMemx m).gdx = s.gdx := rfl
@[simp] theorem State.setMemx_exu (s : State) (m : MemSt) : (s.setMemx m).exu = s.exu := rfl
@[simp] theorem State.setMemx_pwr (s : State) (m : MemSt) : (s.setMemx m).pwr = s.pwr := rfl
@[simp] theorem State.setMemx_scl (s : State) (m : MemSt) : (s.setMemx m).scl = s.scl := rfl
@[simp] theorem State.setMemx_dep (s : State) (m : MemSt) : (s.setMemx m).dep = s.dep := rfl
@[simp] theorem State.setMemx_boot (s : State) (m : MemSt) : (s.setMemx m).boot = s.boot := rfl
@[simp] theorem State.setMemx_thm (s : State) (m : MemSt) : (s.setMemx m).thm = s.thm := rfl
@[simp] theorem State.setMemx_pins (s : State) (m : MemSt) : (s.setMemx m).pins = s.pins := rfl
@[simp] theorem State.setMemx_cpl (s : State) (m : MemSt) : (s.setMemx m).cpl = s.cpl := rfl
@[simp] theorem State.setMemx_net (s : State) (m : MemSt) : (s.setMemx m).net = s.net := rfl
@[simp] theorem State.setMemx_host (s : State) (m : MemSt) : (s.setMemx m).host = s.host := rfl
@[simp] theorem State.setMemx_car (s : State) (m : MemSt) : (s.setMemx m).car = s.car := rfl
@[simp] theorem State.setMemx_erqLast (s : State) (m : MemSt) : (s.setMemx m).erqLast = s.erqLast := rfl
@[simp] theorem State.setMemx_out (s : State) (m : MemSt) : (s.setMemx m).out = s.out := rfl
@[simp] theorem State.setMemx_free (s : State) (m : MemSt) : (s.setMemx m).free = s.free := rfl
@[simp] theorem State.setMemx_pending (s : State) (m : MemSt) : (s.setMemx m).pending = s.pending := rfl

/-! ### State.setTbu -/

@[simp] theorem State.setTbu_regs (s : State) (x : Tbu) : (s.setTbu x).regs = s.regs := rfl
@[simp] theorem State.setTbu_mem (s : State) (x : Tbu) : (s.setTbu x).mem = s.mem := rfl
@[simp] theorem State.setTbu_memx (s : State) (x : Tbu) : (s.setTbu x).memx = s.memx := rfl
@[simp] theorem State.setTbu_tbu (s : State) (x : Tbu) : (s.setTbu x).tbu = x := rfl
@[simp] theorem State.setTbu_aft (s : State) (x : Tbu) : (s.setTbu x).aft = s.aft := rfl
@[simp] theorem State.setTbu_sq (s : State) (x : Tbu) : (s.setTbu x).sq = s.sq := rfl
@[simp] theorem State.setTbu_gdx (s : State) (x : Tbu) : (s.setTbu x).gdx = s.gdx := rfl
@[simp] theorem State.setTbu_exu (s : State) (x : Tbu) : (s.setTbu x).exu = s.exu := rfl
@[simp] theorem State.setTbu_pwr (s : State) (x : Tbu) : (s.setTbu x).pwr = s.pwr := rfl
@[simp] theorem State.setTbu_scl (s : State) (x : Tbu) : (s.setTbu x).scl = s.scl := rfl
@[simp] theorem State.setTbu_dep (s : State) (x : Tbu) : (s.setTbu x).dep = s.dep := rfl
@[simp] theorem State.setTbu_boot (s : State) (x : Tbu) : (s.setTbu x).boot = s.boot := rfl
@[simp] theorem State.setTbu_thm (s : State) (x : Tbu) : (s.setTbu x).thm = s.thm := rfl
@[simp] theorem State.setTbu_pins (s : State) (x : Tbu) : (s.setTbu x).pins = s.pins := rfl
@[simp] theorem State.setTbu_cpl (s : State) (x : Tbu) : (s.setTbu x).cpl = s.cpl := rfl
@[simp] theorem State.setTbu_net (s : State) (x : Tbu) : (s.setTbu x).net = s.net := rfl
@[simp] theorem State.setTbu_host (s : State) (x : Tbu) : (s.setTbu x).host = s.host := rfl
@[simp] theorem State.setTbu_car (s : State) (x : Tbu) : (s.setTbu x).car = s.car := rfl
@[simp] theorem State.setTbu_erqLast (s : State) (x : Tbu) : (s.setTbu x).erqLast = s.erqLast := rfl
@[simp] theorem State.setTbu_out (s : State) (x : Tbu) : (s.setTbu x).out = s.out := rfl
@[simp] theorem State.setTbu_free (s : State) (x : Tbu) : (s.setTbu x).free = s.free := rfl
@[simp] theorem State.setTbu_pending (s : State) (x : Tbu) : (s.setTbu x).pending = s.pending := rfl

/-! ### State.setDom -/

@[simp] theorem State.setDom_regs (s : State) (d : Dom) (x : TbuDom) : (s.setDom d x).regs = s.regs := rfl
@[simp] theorem State.setDom_mem (s : State) (d : Dom) (x : TbuDom) : (s.setDom d x).mem = s.mem := rfl
@[simp] theorem State.setDom_memx (s : State) (d : Dom) (x : TbuDom) : (s.setDom d x).memx = s.memx := rfl
@[simp] theorem State.setDom_tbu (s : State) (d : Dom) (x : TbuDom) : (s.setDom d x).tbu = s.tbu.setDom d x := rfl
@[simp] theorem State.setDom_aft (s : State) (d : Dom) (x : TbuDom) : (s.setDom d x).aft = s.aft := rfl
@[simp] theorem State.setDom_sq (s : State) (d : Dom) (x : TbuDom) : (s.setDom d x).sq = s.sq := rfl
@[simp] theorem State.setDom_gdx (s : State) (d : Dom) (x : TbuDom) : (s.setDom d x).gdx = s.gdx := rfl
@[simp] theorem State.setDom_exu (s : State) (d : Dom) (x : TbuDom) : (s.setDom d x).exu = s.exu := rfl
@[simp] theorem State.setDom_pwr (s : State) (d : Dom) (x : TbuDom) : (s.setDom d x).pwr = s.pwr := rfl
@[simp] theorem State.setDom_scl (s : State) (d : Dom) (x : TbuDom) : (s.setDom d x).scl = s.scl := rfl
@[simp] theorem State.setDom_dep (s : State) (d : Dom) (x : TbuDom) : (s.setDom d x).dep = s.dep := rfl
@[simp] theorem State.setDom_boot (s : State) (d : Dom) (x : TbuDom) : (s.setDom d x).boot = s.boot := rfl
@[simp] theorem State.setDom_thm (s : State) (d : Dom) (x : TbuDom) : (s.setDom d x).thm = s.thm := rfl
@[simp] theorem State.setDom_pins (s : State) (d : Dom) (x : TbuDom) : (s.setDom d x).pins = s.pins := rfl
@[simp] theorem State.setDom_cpl (s : State) (d : Dom) (x : TbuDom) : (s.setDom d x).cpl = s.cpl := rfl
@[simp] theorem State.setDom_net (s : State) (d : Dom) (x : TbuDom) : (s.setDom d x).net = s.net := rfl
@[simp] theorem State.setDom_host (s : State) (d : Dom) (x : TbuDom) : (s.setDom d x).host = s.host := rfl
@[simp] theorem State.setDom_car (s : State) (d : Dom) (x : TbuDom) : (s.setDom d x).car = s.car := rfl
@[simp] theorem State.setDom_erqLast (s : State) (d : Dom) (x : TbuDom) : (s.setDom d x).erqLast = s.erqLast := rfl
@[simp] theorem State.setDom_out (s : State) (d : Dom) (x : TbuDom) : (s.setDom d x).out = s.out := rfl
@[simp] theorem State.setDom_free (s : State) (d : Dom) (x : TbuDom) : (s.setDom d x).free = s.free := rfl
@[simp] theorem State.setDom_pending (s : State) (d : Dom) (x : TbuDom) : (s.setDom d x).pending = s.pending := rfl

/-! ### State.setAft -/

@[simp] theorem State.setAft_regs (s : State) (x : Aft) : (s.setAft x).regs = s.regs := rfl
@[simp] theorem State.setAft_mem (s : State) (x : Aft) : (s.setAft x).mem = s.mem := rfl
@[simp] theorem State.setAft_memx (s : State) (x : Aft) : (s.setAft x).memx = s.memx := rfl
@[simp] theorem State.setAft_tbu (s : State) (x : Aft) : (s.setAft x).tbu = s.tbu := rfl
@[simp] theorem State.setAft_aft (s : State) (x : Aft) : (s.setAft x).aft = x := rfl
@[simp] theorem State.setAft_sq (s : State) (x : Aft) : (s.setAft x).sq = s.sq := rfl
@[simp] theorem State.setAft_gdx (s : State) (x : Aft) : (s.setAft x).gdx = s.gdx := rfl
@[simp] theorem State.setAft_exu (s : State) (x : Aft) : (s.setAft x).exu = s.exu := rfl
@[simp] theorem State.setAft_pwr (s : State) (x : Aft) : (s.setAft x).pwr = s.pwr := rfl
@[simp] theorem State.setAft_scl (s : State) (x : Aft) : (s.setAft x).scl = s.scl := rfl
@[simp] theorem State.setAft_dep (s : State) (x : Aft) : (s.setAft x).dep = s.dep := rfl
@[simp] theorem State.setAft_boot (s : State) (x : Aft) : (s.setAft x).boot = s.boot := rfl
@[simp] theorem State.setAft_thm (s : State) (x : Aft) : (s.setAft x).thm = s.thm := rfl
@[simp] theorem State.setAft_pins (s : State) (x : Aft) : (s.setAft x).pins = s.pins := rfl
@[simp] theorem State.setAft_cpl (s : State) (x : Aft) : (s.setAft x).cpl = s.cpl := rfl
@[simp] theorem State.setAft_net (s : State) (x : Aft) : (s.setAft x).net = s.net := rfl
@[simp] theorem State.setAft_host (s : State) (x : Aft) : (s.setAft x).host = s.host := rfl
@[simp] theorem State.setAft_car (s : State) (x : Aft) : (s.setAft x).car = s.car := rfl
@[simp] theorem State.setAft_erqLast (s : State) (x : Aft) : (s.setAft x).erqLast = s.erqLast := rfl
@[simp] theorem State.setAft_out (s : State) (x : Aft) : (s.setAft x).out = s.out := rfl
@[simp] theorem State.setAft_free (s : State) (x : Aft) : (s.setAft x).free = s.free := rfl
@[simp] theorem State.setAft_pending (s : State) (x : Aft) : (s.setAft x).pending = s.pending := rfl

/-! ### State.setQueue -/

@[simp] theorem State.setQueue_regs (s : State) (q : Nat) (x : Queue) : (s.setQueue q x).regs = s.regs := rfl
@[simp] theorem State.setQueue_mem (s : State) (q : Nat) (x : Queue) : (s.setQueue q x).mem = s.mem := rfl
@[simp] theorem State.setQueue_memx (s : State) (q : Nat) (x : Queue) : (s.setQueue q x).memx = s.memx := rfl
@[simp] theorem State.setQueue_tbu (s : State) (q : Nat) (x : Queue) : (s.setQueue q x).tbu = s.tbu := rfl
@[simp] theorem State.setQueue_aft (s : State) (q : Nat) (x : Queue) : (s.setQueue q x).aft = s.aft := rfl
@[simp] theorem State.setQueue_sq (s : State) (q : Nat) (x : Queue) : (s.setQueue q x).sq = { s.sq with queues := Tab.set s.sq.queues q x } := rfl
@[simp] theorem State.setQueue_gdx (s : State) (q : Nat) (x : Queue) : (s.setQueue q x).gdx = s.gdx := rfl
@[simp] theorem State.setQueue_exu (s : State) (q : Nat) (x : Queue) : (s.setQueue q x).exu = s.exu := rfl
@[simp] theorem State.setQueue_pwr (s : State) (q : Nat) (x : Queue) : (s.setQueue q x).pwr = s.pwr := rfl
@[simp] theorem State.setQueue_scl (s : State) (q : Nat) (x : Queue) : (s.setQueue q x).scl = s.scl := rfl
@[simp] theorem State.setQueue_dep (s : State) (q : Nat) (x : Queue) : (s.setQueue q x).dep = s.dep := rfl
@[simp] theorem State.setQueue_boot (s : State) (q : Nat) (x : Queue) : (s.setQueue q x).boot = s.boot := rfl
@[simp] theorem State.setQueue_thm (s : State) (q : Nat) (x : Queue) : (s.setQueue q x).thm = s.thm := rfl
@[simp] theorem State.setQueue_pins (s : State) (q : Nat) (x : Queue) : (s.setQueue q x).pins = s.pins := rfl
@[simp] theorem State.setQueue_cpl (s : State) (q : Nat) (x : Queue) : (s.setQueue q x).cpl = s.cpl := rfl
@[simp] theorem State.setQueue_net (s : State) (q : Nat) (x : Queue) : (s.setQueue q x).net = s.net := rfl
@[simp] theorem State.setQueue_host (s : State) (q : Nat) (x : Queue) : (s.setQueue q x).host = s.host := rfl
@[simp] theorem State.setQueue_car (s : State) (q : Nat) (x : Queue) : (s.setQueue q x).car = s.car := rfl
@[simp] theorem State.setQueue_erqLast (s : State) (q : Nat) (x : Queue) : (s.setQueue q x).erqLast = s.erqLast := rfl
@[simp] theorem State.setQueue_out (s : State) (q : Nat) (x : Queue) : (s.setQueue q x).out = s.out := rfl
@[simp] theorem State.setQueue_free (s : State) (q : Nat) (x : Queue) : (s.setQueue q x).free = s.free := rfl
@[simp] theorem State.setQueue_pending (s : State) (q : Nat) (x : Queue) : (s.setQueue q x).pending = s.pending := rfl

/-! ### State.setGdx -/

@[simp] theorem State.setGdx_regs (s : State) (x : Gdx) : (s.setGdx x).regs = s.regs := rfl
@[simp] theorem State.setGdx_mem (s : State) (x : Gdx) : (s.setGdx x).mem = s.mem := rfl
@[simp] theorem State.setGdx_memx (s : State) (x : Gdx) : (s.setGdx x).memx = s.memx := rfl
@[simp] theorem State.setGdx_tbu (s : State) (x : Gdx) : (s.setGdx x).tbu = s.tbu := rfl
@[simp] theorem State.setGdx_aft (s : State) (x : Gdx) : (s.setGdx x).aft = s.aft := rfl
@[simp] theorem State.setGdx_sq (s : State) (x : Gdx) : (s.setGdx x).sq = s.sq := rfl
@[simp] theorem State.setGdx_gdx (s : State) (x : Gdx) : (s.setGdx x).gdx = x := rfl
@[simp] theorem State.setGdx_exu (s : State) (x : Gdx) : (s.setGdx x).exu = s.exu := rfl
@[simp] theorem State.setGdx_pwr (s : State) (x : Gdx) : (s.setGdx x).pwr = s.pwr := rfl
@[simp] theorem State.setGdx_scl (s : State) (x : Gdx) : (s.setGdx x).scl = s.scl := rfl
@[simp] theorem State.setGdx_dep (s : State) (x : Gdx) : (s.setGdx x).dep = s.dep := rfl
@[simp] theorem State.setGdx_boot (s : State) (x : Gdx) : (s.setGdx x).boot = s.boot := rfl
@[simp] theorem State.setGdx_thm (s : State) (x : Gdx) : (s.setGdx x).thm = s.thm := rfl
@[simp] theorem State.setGdx_pins (s : State) (x : Gdx) : (s.setGdx x).pins = s.pins := rfl
@[simp] theorem State.setGdx_cpl (s : State) (x : Gdx) : (s.setGdx x).cpl = s.cpl := rfl
@[simp] theorem State.setGdx_net (s : State) (x : Gdx) : (s.setGdx x).net = s.net := rfl
@[simp] theorem State.setGdx_host (s : State) (x : Gdx) : (s.setGdx x).host = s.host := rfl
@[simp] theorem State.setGdx_car (s : State) (x : Gdx) : (s.setGdx x).car = s.car := rfl
@[simp] theorem State.setGdx_erqLast (s : State) (x : Gdx) : (s.setGdx x).erqLast = s.erqLast := rfl
@[simp] theorem State.setGdx_out (s : State) (x : Gdx) : (s.setGdx x).out = s.out := rfl
@[simp] theorem State.setGdx_free (s : State) (x : Gdx) : (s.setGdx x).free = s.free := rfl
@[simp] theorem State.setGdx_pending (s : State) (x : Gdx) : (s.setGdx x).pending = s.pending := rfl

/-! ### State.setExu -/

@[simp] theorem State.setExu_regs (s : State) (x : Exu) : (s.setExu x).regs = s.regs := rfl
@[simp] theorem State.setExu_mem (s : State) (x : Exu) : (s.setExu x).mem = s.mem := rfl
@[simp] theorem State.setExu_memx (s : State) (x : Exu) : (s.setExu x).memx = s.memx := rfl
@[simp] theorem State.setExu_tbu (s : State) (x : Exu) : (s.setExu x).tbu = s.tbu := rfl
@[simp] theorem State.setExu_aft (s : State) (x : Exu) : (s.setExu x).aft = s.aft := rfl
@[simp] theorem State.setExu_sq (s : State) (x : Exu) : (s.setExu x).sq = s.sq := rfl
@[simp] theorem State.setExu_gdx (s : State) (x : Exu) : (s.setExu x).gdx = s.gdx := rfl
@[simp] theorem State.setExu_exu (s : State) (x : Exu) : (s.setExu x).exu = x := rfl
@[simp] theorem State.setExu_pwr (s : State) (x : Exu) : (s.setExu x).pwr = s.pwr := rfl
@[simp] theorem State.setExu_scl (s : State) (x : Exu) : (s.setExu x).scl = s.scl := rfl
@[simp] theorem State.setExu_dep (s : State) (x : Exu) : (s.setExu x).dep = s.dep := rfl
@[simp] theorem State.setExu_boot (s : State) (x : Exu) : (s.setExu x).boot = s.boot := rfl
@[simp] theorem State.setExu_thm (s : State) (x : Exu) : (s.setExu x).thm = s.thm := rfl
@[simp] theorem State.setExu_pins (s : State) (x : Exu) : (s.setExu x).pins = s.pins := rfl
@[simp] theorem State.setExu_cpl (s : State) (x : Exu) : (s.setExu x).cpl = s.cpl := rfl
@[simp] theorem State.setExu_net (s : State) (x : Exu) : (s.setExu x).net = s.net := rfl
@[simp] theorem State.setExu_host (s : State) (x : Exu) : (s.setExu x).host = s.host := rfl
@[simp] theorem State.setExu_car (s : State) (x : Exu) : (s.setExu x).car = s.car := rfl
@[simp] theorem State.setExu_erqLast (s : State) (x : Exu) : (s.setExu x).erqLast = s.erqLast := rfl
@[simp] theorem State.setExu_out (s : State) (x : Exu) : (s.setExu x).out = s.out := rfl
@[simp] theorem State.setExu_free (s : State) (x : Exu) : (s.setExu x).free = s.free := rfl
@[simp] theorem State.setExu_pending (s : State) (x : Exu) : (s.setExu x).pending = s.pending := rfl

/-! ### State.setPwr -/

@[simp] theorem State.setPwr_regs (s : State) (x : Pwr) : (s.setPwr x).regs = s.regs := rfl
@[simp] theorem State.setPwr_mem (s : State) (x : Pwr) : (s.setPwr x).mem = s.mem := rfl
@[simp] theorem State.setPwr_memx (s : State) (x : Pwr) : (s.setPwr x).memx = s.memx := rfl
@[simp] theorem State.setPwr_tbu (s : State) (x : Pwr) : (s.setPwr x).tbu = s.tbu := rfl
@[simp] theorem State.setPwr_aft (s : State) (x : Pwr) : (s.setPwr x).aft = s.aft := rfl
@[simp] theorem State.setPwr_sq (s : State) (x : Pwr) : (s.setPwr x).sq = s.sq := rfl
@[simp] theorem State.setPwr_gdx (s : State) (x : Pwr) : (s.setPwr x).gdx = s.gdx := rfl
@[simp] theorem State.setPwr_exu (s : State) (x : Pwr) : (s.setPwr x).exu = s.exu := rfl
@[simp] theorem State.setPwr_pwr (s : State) (x : Pwr) : (s.setPwr x).pwr = x := rfl
@[simp] theorem State.setPwr_scl (s : State) (x : Pwr) : (s.setPwr x).scl = s.scl := rfl
@[simp] theorem State.setPwr_dep (s : State) (x : Pwr) : (s.setPwr x).dep = s.dep := rfl
@[simp] theorem State.setPwr_boot (s : State) (x : Pwr) : (s.setPwr x).boot = s.boot := rfl
@[simp] theorem State.setPwr_thm (s : State) (x : Pwr) : (s.setPwr x).thm = s.thm := rfl
@[simp] theorem State.setPwr_pins (s : State) (x : Pwr) : (s.setPwr x).pins = s.pins := rfl
@[simp] theorem State.setPwr_cpl (s : State) (x : Pwr) : (s.setPwr x).cpl = s.cpl := rfl
@[simp] theorem State.setPwr_net (s : State) (x : Pwr) : (s.setPwr x).net = s.net := rfl
@[simp] theorem State.setPwr_host (s : State) (x : Pwr) : (s.setPwr x).host = s.host := rfl
@[simp] theorem State.setPwr_car (s : State) (x : Pwr) : (s.setPwr x).car = s.car := rfl
@[simp] theorem State.setPwr_erqLast (s : State) (x : Pwr) : (s.setPwr x).erqLast = s.erqLast := rfl
@[simp] theorem State.setPwr_out (s : State) (x : Pwr) : (s.setPwr x).out = s.out := rfl
@[simp] theorem State.setPwr_free (s : State) (x : Pwr) : (s.setPwr x).free = s.free := rfl
@[simp] theorem State.setPwr_pending (s : State) (x : Pwr) : (s.setPwr x).pending = s.pending := rfl

/-! ### State.setScl -/

@[simp] theorem State.setScl_regs (s : State) (x : Scl) : (s.setScl x).regs = s.regs := rfl
@[simp] theorem State.setScl_mem (s : State) (x : Scl) : (s.setScl x).mem = s.mem := rfl
@[simp] theorem State.setScl_memx (s : State) (x : Scl) : (s.setScl x).memx = s.memx := rfl
@[simp] theorem State.setScl_tbu (s : State) (x : Scl) : (s.setScl x).tbu = s.tbu := rfl
@[simp] theorem State.setScl_aft (s : State) (x : Scl) : (s.setScl x).aft = s.aft := rfl
@[simp] theorem State.setScl_sq (s : State) (x : Scl) : (s.setScl x).sq = s.sq := rfl
@[simp] theorem State.setScl_gdx (s : State) (x : Scl) : (s.setScl x).gdx = s.gdx := rfl
@[simp] theorem State.setScl_exu (s : State) (x : Scl) : (s.setScl x).exu = s.exu := rfl
@[simp] theorem State.setScl_pwr (s : State) (x : Scl) : (s.setScl x).pwr = s.pwr := rfl
@[simp] theorem State.setScl_scl (s : State) (x : Scl) : (s.setScl x).scl = x := rfl
@[simp] theorem State.setScl_dep (s : State) (x : Scl) : (s.setScl x).dep = s.dep := rfl
@[simp] theorem State.setScl_boot (s : State) (x : Scl) : (s.setScl x).boot = s.boot := rfl
@[simp] theorem State.setScl_thm (s : State) (x : Scl) : (s.setScl x).thm = s.thm := rfl
@[simp] theorem State.setScl_pins (s : State) (x : Scl) : (s.setScl x).pins = s.pins := rfl
@[simp] theorem State.setScl_cpl (s : State) (x : Scl) : (s.setScl x).cpl = s.cpl := rfl
@[simp] theorem State.setScl_net (s : State) (x : Scl) : (s.setScl x).net = s.net := rfl
@[simp] theorem State.setScl_host (s : State) (x : Scl) : (s.setScl x).host = s.host := rfl
@[simp] theorem State.setScl_car (s : State) (x : Scl) : (s.setScl x).car = s.car := rfl
@[simp] theorem State.setScl_erqLast (s : State) (x : Scl) : (s.setScl x).erqLast = s.erqLast := rfl
@[simp] theorem State.setScl_out (s : State) (x : Scl) : (s.setScl x).out = s.out := rfl
@[simp] theorem State.setScl_free (s : State) (x : Scl) : (s.setScl x).free = s.free := rfl
@[simp] theorem State.setScl_pending (s : State) (x : Scl) : (s.setScl x).pending = s.pending := rfl

/-! ### State.setDep -/

@[simp] theorem State.setDep_regs (s : State) (x : Dep) : (s.setDep x).regs = s.regs := rfl
@[simp] theorem State.setDep_mem (s : State) (x : Dep) : (s.setDep x).mem = s.mem := rfl
@[simp] theorem State.setDep_memx (s : State) (x : Dep) : (s.setDep x).memx = s.memx := rfl
@[simp] theorem State.setDep_tbu (s : State) (x : Dep) : (s.setDep x).tbu = s.tbu := rfl
@[simp] theorem State.setDep_aft (s : State) (x : Dep) : (s.setDep x).aft = s.aft := rfl
@[simp] theorem State.setDep_sq (s : State) (x : Dep) : (s.setDep x).sq = s.sq := rfl
@[simp] theorem State.setDep_gdx (s : State) (x : Dep) : (s.setDep x).gdx = s.gdx := rfl
@[simp] theorem State.setDep_exu (s : State) (x : Dep) : (s.setDep x).exu = s.exu := rfl
@[simp] theorem State.setDep_pwr (s : State) (x : Dep) : (s.setDep x).pwr = s.pwr := rfl
@[simp] theorem State.setDep_scl (s : State) (x : Dep) : (s.setDep x).scl = s.scl := rfl
@[simp] theorem State.setDep_dep (s : State) (x : Dep) : (s.setDep x).dep = x := rfl
@[simp] theorem State.setDep_boot (s : State) (x : Dep) : (s.setDep x).boot = s.boot := rfl
@[simp] theorem State.setDep_thm (s : State) (x : Dep) : (s.setDep x).thm = s.thm := rfl
@[simp] theorem State.setDep_pins (s : State) (x : Dep) : (s.setDep x).pins = s.pins := rfl
@[simp] theorem State.setDep_cpl (s : State) (x : Dep) : (s.setDep x).cpl = s.cpl := rfl
@[simp] theorem State.setDep_net (s : State) (x : Dep) : (s.setDep x).net = s.net := rfl
@[simp] theorem State.setDep_host (s : State) (x : Dep) : (s.setDep x).host = s.host := rfl
@[simp] theorem State.setDep_car (s : State) (x : Dep) : (s.setDep x).car = s.car := rfl
@[simp] theorem State.setDep_erqLast (s : State) (x : Dep) : (s.setDep x).erqLast = s.erqLast := rfl
@[simp] theorem State.setDep_out (s : State) (x : Dep) : (s.setDep x).out = s.out := rfl
@[simp] theorem State.setDep_free (s : State) (x : Dep) : (s.setDep x).free = s.free := rfl
@[simp] theorem State.setDep_pending (s : State) (x : Dep) : (s.setDep x).pending = s.pending := rfl

/-! ### State.setBoot -/

@[simp] theorem State.setBoot_regs (s : State) (x : Boot) : (s.setBoot x).regs = s.regs := rfl
@[simp] theorem State.setBoot_mem (s : State) (x : Boot) : (s.setBoot x).mem = s.mem := rfl
@[simp] theorem State.setBoot_memx (s : State) (x : Boot) : (s.setBoot x).memx = s.memx := rfl
@[simp] theorem State.setBoot_tbu (s : State) (x : Boot) : (s.setBoot x).tbu = s.tbu := rfl
@[simp] theorem State.setBoot_aft (s : State) (x : Boot) : (s.setBoot x).aft = s.aft := rfl
@[simp] theorem State.setBoot_sq (s : State) (x : Boot) : (s.setBoot x).sq = s.sq := rfl
@[simp] theorem State.setBoot_gdx (s : State) (x : Boot) : (s.setBoot x).gdx = s.gdx := rfl
@[simp] theorem State.setBoot_exu (s : State) (x : Boot) : (s.setBoot x).exu = s.exu := rfl
@[simp] theorem State.setBoot_pwr (s : State) (x : Boot) : (s.setBoot x).pwr = s.pwr := rfl
@[simp] theorem State.setBoot_scl (s : State) (x : Boot) : (s.setBoot x).scl = s.scl := rfl
@[simp] theorem State.setBoot_dep (s : State) (x : Boot) : (s.setBoot x).dep = s.dep := rfl
@[simp] theorem State.setBoot_boot (s : State) (x : Boot) : (s.setBoot x).boot = x := rfl
@[simp] theorem State.setBoot_thm (s : State) (x : Boot) : (s.setBoot x).thm = s.thm := rfl
@[simp] theorem State.setBoot_pins (s : State) (x : Boot) : (s.setBoot x).pins = s.pins := rfl
@[simp] theorem State.setBoot_cpl (s : State) (x : Boot) : (s.setBoot x).cpl = s.cpl := rfl
@[simp] theorem State.setBoot_net (s : State) (x : Boot) : (s.setBoot x).net = s.net := rfl
@[simp] theorem State.setBoot_host (s : State) (x : Boot) : (s.setBoot x).host = s.host := rfl
@[simp] theorem State.setBoot_car (s : State) (x : Boot) : (s.setBoot x).car = s.car := rfl
@[simp] theorem State.setBoot_erqLast (s : State) (x : Boot) : (s.setBoot x).erqLast = s.erqLast := rfl
@[simp] theorem State.setBoot_out (s : State) (x : Boot) : (s.setBoot x).out = s.out := rfl
@[simp] theorem State.setBoot_free (s : State) (x : Boot) : (s.setBoot x).free = s.free := rfl
@[simp] theorem State.setBoot_pending (s : State) (x : Boot) : (s.setBoot x).pending = s.pending := rfl

/-! ### State.setThm -/

@[simp] theorem State.setThm_regs (s : State) (x : Thm) : (s.setThm x).regs = s.regs := rfl
@[simp] theorem State.setThm_mem (s : State) (x : Thm) : (s.setThm x).mem = s.mem := rfl
@[simp] theorem State.setThm_memx (s : State) (x : Thm) : (s.setThm x).memx = s.memx := rfl
@[simp] theorem State.setThm_tbu (s : State) (x : Thm) : (s.setThm x).tbu = s.tbu := rfl
@[simp] theorem State.setThm_aft (s : State) (x : Thm) : (s.setThm x).aft = s.aft := rfl
@[simp] theorem State.setThm_sq (s : State) (x : Thm) : (s.setThm x).sq = s.sq := rfl
@[simp] theorem State.setThm_gdx (s : State) (x : Thm) : (s.setThm x).gdx = s.gdx := rfl
@[simp] theorem State.setThm_exu (s : State) (x : Thm) : (s.setThm x).exu = s.exu := rfl
@[simp] theorem State.setThm_pwr (s : State) (x : Thm) : (s.setThm x).pwr = s.pwr := rfl
@[simp] theorem State.setThm_scl (s : State) (x : Thm) : (s.setThm x).scl = s.scl := rfl
@[simp] theorem State.setThm_dep (s : State) (x : Thm) : (s.setThm x).dep = s.dep := rfl
@[simp] theorem State.setThm_boot (s : State) (x : Thm) : (s.setThm x).boot = s.boot := rfl
@[simp] theorem State.setThm_thm (s : State) (x : Thm) : (s.setThm x).thm = x := rfl
@[simp] theorem State.setThm_pins (s : State) (x : Thm) : (s.setThm x).pins = s.pins := rfl
@[simp] theorem State.setThm_cpl (s : State) (x : Thm) : (s.setThm x).cpl = s.cpl := rfl
@[simp] theorem State.setThm_net (s : State) (x : Thm) : (s.setThm x).net = s.net := rfl
@[simp] theorem State.setThm_host (s : State) (x : Thm) : (s.setThm x).host = s.host := rfl
@[simp] theorem State.setThm_car (s : State) (x : Thm) : (s.setThm x).car = s.car := rfl
@[simp] theorem State.setThm_erqLast (s : State) (x : Thm) : (s.setThm x).erqLast = s.erqLast := rfl
@[simp] theorem State.setThm_out (s : State) (x : Thm) : (s.setThm x).out = s.out := rfl
@[simp] theorem State.setThm_free (s : State) (x : Thm) : (s.setThm x).free = s.free := rfl
@[simp] theorem State.setThm_pending (s : State) (x : Thm) : (s.setThm x).pending = s.pending := rfl

/-! ### State.setPins -/

@[simp] theorem State.setPins_regs (s : State) (x : Pins) : (s.setPins x).regs = s.regs := rfl
@[simp] theorem State.setPins_mem (s : State) (x : Pins) : (s.setPins x).mem = s.mem := rfl
@[simp] theorem State.setPins_memx (s : State) (x : Pins) : (s.setPins x).memx = s.memx := rfl
@[simp] theorem State.setPins_tbu (s : State) (x : Pins) : (s.setPins x).tbu = s.tbu := rfl
@[simp] theorem State.setPins_aft (s : State) (x : Pins) : (s.setPins x).aft = s.aft := rfl
@[simp] theorem State.setPins_sq (s : State) (x : Pins) : (s.setPins x).sq = s.sq := rfl
@[simp] theorem State.setPins_gdx (s : State) (x : Pins) : (s.setPins x).gdx = s.gdx := rfl
@[simp] theorem State.setPins_exu (s : State) (x : Pins) : (s.setPins x).exu = s.exu := rfl
@[simp] theorem State.setPins_pwr (s : State) (x : Pins) : (s.setPins x).pwr = s.pwr := rfl
@[simp] theorem State.setPins_scl (s : State) (x : Pins) : (s.setPins x).scl = s.scl := rfl
@[simp] theorem State.setPins_dep (s : State) (x : Pins) : (s.setPins x).dep = s.dep := rfl
@[simp] theorem State.setPins_boot (s : State) (x : Pins) : (s.setPins x).boot = s.boot := rfl
@[simp] theorem State.setPins_thm (s : State) (x : Pins) : (s.setPins x).thm = s.thm := rfl
@[simp] theorem State.setPins_pins (s : State) (x : Pins) : (s.setPins x).pins = x := rfl
@[simp] theorem State.setPins_cpl (s : State) (x : Pins) : (s.setPins x).cpl = s.cpl := rfl
@[simp] theorem State.setPins_net (s : State) (x : Pins) : (s.setPins x).net = s.net := rfl
@[simp] theorem State.setPins_host (s : State) (x : Pins) : (s.setPins x).host = s.host := rfl
@[simp] theorem State.setPins_car (s : State) (x : Pins) : (s.setPins x).car = s.car := rfl
@[simp] theorem State.setPins_erqLast (s : State) (x : Pins) : (s.setPins x).erqLast = s.erqLast := rfl
@[simp] theorem State.setPins_out (s : State) (x : Pins) : (s.setPins x).out = s.out := rfl
@[simp] theorem State.setPins_free (s : State) (x : Pins) : (s.setPins x).free = s.free := rfl
@[simp] theorem State.setPins_pending (s : State) (x : Pins) : (s.setPins x).pending = s.pending := rfl

/-! ### State.setCpl -/

@[simp] theorem State.setCpl_regs (s : State) (p : Nat) (x : CplPort) : (s.setCpl p x).regs = s.regs := rfl
@[simp] theorem State.setCpl_mem (s : State) (p : Nat) (x : CplPort) : (s.setCpl p x).mem = s.mem := rfl
@[simp] theorem State.setCpl_memx (s : State) (p : Nat) (x : CplPort) : (s.setCpl p x).memx = s.memx := rfl
@[simp] theorem State.setCpl_tbu (s : State) (p : Nat) (x : CplPort) : (s.setCpl p x).tbu = s.tbu := rfl
@[simp] theorem State.setCpl_aft (s : State) (p : Nat) (x : CplPort) : (s.setCpl p x).aft = s.aft := rfl
@[simp] theorem State.setCpl_sq (s : State) (p : Nat) (x : CplPort) : (s.setCpl p x).sq = s.sq := rfl
@[simp] theorem State.setCpl_gdx (s : State) (p : Nat) (x : CplPort) : (s.setCpl p x).gdx = s.gdx := rfl
@[simp] theorem State.setCpl_exu (s : State) (p : Nat) (x : CplPort) : (s.setCpl p x).exu = s.exu := rfl
@[simp] theorem State.setCpl_pwr (s : State) (p : Nat) (x : CplPort) : (s.setCpl p x).pwr = s.pwr := rfl
@[simp] theorem State.setCpl_scl (s : State) (p : Nat) (x : CplPort) : (s.setCpl p x).scl = s.scl := rfl
@[simp] theorem State.setCpl_dep (s : State) (p : Nat) (x : CplPort) : (s.setCpl p x).dep = s.dep := rfl
@[simp] theorem State.setCpl_boot (s : State) (p : Nat) (x : CplPort) : (s.setCpl p x).boot = s.boot := rfl
@[simp] theorem State.setCpl_thm (s : State) (p : Nat) (x : CplPort) : (s.setCpl p x).thm = s.thm := rfl
@[simp] theorem State.setCpl_pins (s : State) (p : Nat) (x : CplPort) : (s.setCpl p x).pins = s.pins := rfl
@[simp] theorem State.setCpl_cpl (s : State) (p : Nat) (x : CplPort) : (s.setCpl p x).cpl = Tab.set s.cpl p x := rfl
@[simp] theorem State.setCpl_net (s : State) (p : Nat) (x : CplPort) : (s.setCpl p x).net = s.net := rfl
@[simp] theorem State.setCpl_host (s : State) (p : Nat) (x : CplPort) : (s.setCpl p x).host = s.host := rfl
@[simp] theorem State.setCpl_car (s : State) (p : Nat) (x : CplPort) : (s.setCpl p x).car = s.car := rfl
@[simp] theorem State.setCpl_erqLast (s : State) (p : Nat) (x : CplPort) : (s.setCpl p x).erqLast = s.erqLast := rfl
@[simp] theorem State.setCpl_out (s : State) (p : Nat) (x : CplPort) : (s.setCpl p x).out = s.out := rfl
@[simp] theorem State.setCpl_free (s : State) (p : Nat) (x : CplPort) : (s.setCpl p x).free = s.free := rfl
@[simp] theorem State.setCpl_pending (s : State) (p : Nat) (x : CplPort) : (s.setCpl p x).pending = s.pending := rfl

/-! ### State.setHost -/

@[simp] theorem State.setHost_regs (s : State) (x : HostIf) : (s.setHost x).regs = s.regs := rfl
@[simp] theorem State.setHost_mem (s : State) (x : HostIf) : (s.setHost x).mem = s.mem := rfl
@[simp] theorem State.setHost_memx (s : State) (x : HostIf) : (s.setHost x).memx = s.memx := rfl
@[simp] theorem State.setHost_tbu (s : State) (x : HostIf) : (s.setHost x).tbu = s.tbu := rfl
@[simp] theorem State.setHost_aft (s : State) (x : HostIf) : (s.setHost x).aft = s.aft := rfl
@[simp] theorem State.setHost_sq (s : State) (x : HostIf) : (s.setHost x).sq = s.sq := rfl
@[simp] theorem State.setHost_gdx (s : State) (x : HostIf) : (s.setHost x).gdx = s.gdx := rfl
@[simp] theorem State.setHost_exu (s : State) (x : HostIf) : (s.setHost x).exu = s.exu := rfl
@[simp] theorem State.setHost_pwr (s : State) (x : HostIf) : (s.setHost x).pwr = s.pwr := rfl
@[simp] theorem State.setHost_scl (s : State) (x : HostIf) : (s.setHost x).scl = s.scl := rfl
@[simp] theorem State.setHost_dep (s : State) (x : HostIf) : (s.setHost x).dep = s.dep := rfl
@[simp] theorem State.setHost_boot (s : State) (x : HostIf) : (s.setHost x).boot = s.boot := rfl
@[simp] theorem State.setHost_thm (s : State) (x : HostIf) : (s.setHost x).thm = s.thm := rfl
@[simp] theorem State.setHost_pins (s : State) (x : HostIf) : (s.setHost x).pins = s.pins := rfl
@[simp] theorem State.setHost_cpl (s : State) (x : HostIf) : (s.setHost x).cpl = s.cpl := rfl
@[simp] theorem State.setHost_net (s : State) (x : HostIf) : (s.setHost x).net = s.net := rfl
@[simp] theorem State.setHost_host (s : State) (x : HostIf) : (s.setHost x).host = x := rfl
@[simp] theorem State.setHost_car (s : State) (x : HostIf) : (s.setHost x).car = s.car := rfl
@[simp] theorem State.setHost_erqLast (s : State) (x : HostIf) : (s.setHost x).erqLast = s.erqLast := rfl
@[simp] theorem State.setHost_out (s : State) (x : HostIf) : (s.setHost x).out = s.out := rfl
@[simp] theorem State.setHost_free (s : State) (x : HostIf) : (s.setHost x).free = s.free := rfl
@[simp] theorem State.setHost_pending (s : State) (x : HostIf) : (s.setHost x).pending = s.pending := rfl

/-! ### State.setCar -/

@[simp] theorem State.setCar_regs (s : State) (x : Carriers) : (s.setCar x).regs = s.regs := rfl
@[simp] theorem State.setCar_mem (s : State) (x : Carriers) : (s.setCar x).mem = s.mem := rfl
@[simp] theorem State.setCar_memx (s : State) (x : Carriers) : (s.setCar x).memx = s.memx := rfl
@[simp] theorem State.setCar_tbu (s : State) (x : Carriers) : (s.setCar x).tbu = s.tbu := rfl
@[simp] theorem State.setCar_aft (s : State) (x : Carriers) : (s.setCar x).aft = s.aft := rfl
@[simp] theorem State.setCar_sq (s : State) (x : Carriers) : (s.setCar x).sq = s.sq := rfl
@[simp] theorem State.setCar_gdx (s : State) (x : Carriers) : (s.setCar x).gdx = s.gdx := rfl
@[simp] theorem State.setCar_exu (s : State) (x : Carriers) : (s.setCar x).exu = s.exu := rfl
@[simp] theorem State.setCar_pwr (s : State) (x : Carriers) : (s.setCar x).pwr = s.pwr := rfl
@[simp] theorem State.setCar_scl (s : State) (x : Carriers) : (s.setCar x).scl = s.scl := rfl
@[simp] theorem State.setCar_dep (s : State) (x : Carriers) : (s.setCar x).dep = s.dep := rfl
@[simp] theorem State.setCar_boot (s : State) (x : Carriers) : (s.setCar x).boot = s.boot := rfl
@[simp] theorem State.setCar_thm (s : State) (x : Carriers) : (s.setCar x).thm = s.thm := rfl
@[simp] theorem State.setCar_pins (s : State) (x : Carriers) : (s.setCar x).pins = s.pins := rfl
@[simp] theorem State.setCar_cpl (s : State) (x : Carriers) : (s.setCar x).cpl = s.cpl := rfl
@[simp] theorem State.setCar_net (s : State) (x : Carriers) : (s.setCar x).net = s.net := rfl
@[simp] theorem State.setCar_host (s : State) (x : Carriers) : (s.setCar x).host = s.host := rfl
@[simp] theorem State.setCar_car (s : State) (x : Carriers) : (s.setCar x).car = x := rfl
@[simp] theorem State.setCar_erqLast (s : State) (x : Carriers) : (s.setCar x).erqLast = s.erqLast := rfl
@[simp] theorem State.setCar_out (s : State) (x : Carriers) : (s.setCar x).out = s.out := rfl
@[simp] theorem State.setCar_free (s : State) (x : Carriers) : (s.setCar x).free = s.free := rfl
@[simp] theorem State.setCar_pending (s : State) (x : Carriers) : (s.setCar x).pending = s.pending := rfl

/-! ### State.send -/

@[simp] theorem State.send_regs (s : State) (o : Out) : (s.send o).regs = s.regs := rfl
@[simp] theorem State.send_mem (s : State) (o : Out) : (s.send o).mem = s.mem := rfl
@[simp] theorem State.send_memx (s : State) (o : Out) : (s.send o).memx = s.memx := rfl
@[simp] theorem State.send_tbu (s : State) (o : Out) : (s.send o).tbu = s.tbu := rfl
@[simp] theorem State.send_aft (s : State) (o : Out) : (s.send o).aft = s.aft := rfl
@[simp] theorem State.send_sq (s : State) (o : Out) : (s.send o).sq = s.sq := rfl
@[simp] theorem State.send_gdx (s : State) (o : Out) : (s.send o).gdx = s.gdx := rfl
@[simp] theorem State.send_exu (s : State) (o : Out) : (s.send o).exu = s.exu := rfl
@[simp] theorem State.send_pwr (s : State) (o : Out) : (s.send o).pwr = s.pwr := rfl
@[simp] theorem State.send_scl (s : State) (o : Out) : (s.send o).scl = s.scl := rfl
@[simp] theorem State.send_dep (s : State) (o : Out) : (s.send o).dep = s.dep := rfl
@[simp] theorem State.send_boot (s : State) (o : Out) : (s.send o).boot = s.boot := rfl
@[simp] theorem State.send_thm (s : State) (o : Out) : (s.send o).thm = s.thm := rfl
@[simp] theorem State.send_pins (s : State) (o : Out) : (s.send o).pins = s.pins := rfl
@[simp] theorem State.send_cpl (s : State) (o : Out) : (s.send o).cpl = s.cpl := rfl
@[simp] theorem State.send_net (s : State) (o : Out) : (s.send o).net = s.net := rfl
@[simp] theorem State.send_host (s : State) (o : Out) : (s.send o).host = s.host := rfl
@[simp] theorem State.send_car (s : State) (o : Out) : (s.send o).car = s.car := rfl
@[simp] theorem State.send_erqLast (s : State) (o : Out) : (s.send o).erqLast = s.erqLast := rfl
@[simp] theorem State.send_out (s : State) (o : Out) : (s.send o).out = s.out ++ [o] := rfl
@[simp] theorem State.send_free (s : State) (o : Out) : (s.send o).free = s.free := rfl
@[simp] theorem State.send_pending (s : State) (o : Out) : (s.send o).pending = s.pending := rfl

/-! ### State.put and its like: only regs -/

@[simp] theorem State.put_mem (s : State) (f : Fld) (v i j : Nat) : (s.put f v i j).mem = s.mem := rfl
@[simp] theorem State.put_memx (s : State) (f : Fld) (v i j : Nat) : (s.put f v i j).memx = s.memx := rfl
@[simp] theorem State.put_tbu (s : State) (f : Fld) (v i j : Nat) : (s.put f v i j).tbu = s.tbu := rfl
@[simp] theorem State.put_aft (s : State) (f : Fld) (v i j : Nat) : (s.put f v i j).aft = s.aft := rfl
@[simp] theorem State.put_sq (s : State) (f : Fld) (v i j : Nat) : (s.put f v i j).sq = s.sq := rfl
@[simp] theorem State.put_gdx (s : State) (f : Fld) (v i j : Nat) : (s.put f v i j).gdx = s.gdx := rfl
@[simp] theorem State.put_exu (s : State) (f : Fld) (v i j : Nat) : (s.put f v i j).exu = s.exu := rfl
@[simp] theorem State.put_pwr (s : State) (f : Fld) (v i j : Nat) : (s.put f v i j).pwr = s.pwr := rfl
@[simp] theorem State.put_scl (s : State) (f : Fld) (v i j : Nat) : (s.put f v i j).scl = s.scl := rfl
@[simp] theorem State.put_dep (s : State) (f : Fld) (v i j : Nat) : (s.put f v i j).dep = s.dep := rfl
@[simp] theorem State.put_boot (s : State) (f : Fld) (v i j : Nat) : (s.put f v i j).boot = s.boot := rfl
@[simp] theorem State.put_thm (s : State) (f : Fld) (v i j : Nat) : (s.put f v i j).thm = s.thm := rfl
@[simp] theorem State.put_pins (s : State) (f : Fld) (v i j : Nat) : (s.put f v i j).pins = s.pins := rfl
@[simp] theorem State.put_cpl (s : State) (f : Fld) (v i j : Nat) : (s.put f v i j).cpl = s.cpl := rfl
@[simp] theorem State.put_net (s : State) (f : Fld) (v i j : Nat) : (s.put f v i j).net = s.net := rfl
@[simp] theorem State.put_host (s : State) (f : Fld) (v i j : Nat) : (s.put f v i j).host = s.host := rfl
@[simp] theorem State.put_car (s : State) (f : Fld) (v i j : Nat) : (s.put f v i j).car = s.car := rfl
@[simp] theorem State.put_erqLast (s : State) (f : Fld) (v i j : Nat) : (s.put f v i j).erqLast = s.erqLast := rfl
@[simp] theorem State.put_out (s : State) (f : Fld) (v i j : Nat) : (s.put f v i j).out = s.out := rfl
@[simp] theorem State.put_free (s : State) (f : Fld) (v i j : Nat) : (s.put f v i j).free = s.free := rfl
@[simp] theorem State.put_pending (s : State) (f : Fld) (v i j : Nat) : (s.put f v i j).pending = s.pending := rfl

@[simp] theorem State.set_mem (s : State) (f : Fld) (i j : Nat) : (s.set f i j).mem = s.mem := rfl
@[simp] theorem State.set_memx (s : State) (f : Fld) (i j : Nat) : (s.set f i j).memx = s.memx := rfl
@[simp] theorem State.set_tbu (s : State) (f : Fld) (i j : Nat) : (s.set f i j).tbu = s.tbu := rfl
@[simp] theorem State.set_aft (s : State) (f : Fld) (i j : Nat) : (s.set f i j).aft = s.aft := rfl
@[simp] theorem State.set_sq (s : State) (f : Fld) (i j : Nat) : (s.set f i j).sq = s.sq := rfl
@[simp] theorem State.set_gdx (s : State) (f : Fld) (i j : Nat) : (s.set f i j).gdx = s.gdx := rfl
@[simp] theorem State.set_exu (s : State) (f : Fld) (i j : Nat) : (s.set f i j).exu = s.exu := rfl
@[simp] theorem State.set_pwr (s : State) (f : Fld) (i j : Nat) : (s.set f i j).pwr = s.pwr := rfl
@[simp] theorem State.set_scl (s : State) (f : Fld) (i j : Nat) : (s.set f i j).scl = s.scl := rfl
@[simp] theorem State.set_dep (s : State) (f : Fld) (i j : Nat) : (s.set f i j).dep = s.dep := rfl
@[simp] theorem State.set_boot (s : State) (f : Fld) (i j : Nat) : (s.set f i j).boot = s.boot := rfl
@[simp] theorem State.set_thm (s : State) (f : Fld) (i j : Nat) : (s.set f i j).thm = s.thm := rfl
@[simp] theorem State.set_pins (s : State) (f : Fld) (i j : Nat) : (s.set f i j).pins = s.pins := rfl
@[simp] theorem State.set_cpl (s : State) (f : Fld) (i j : Nat) : (s.set f i j).cpl = s.cpl := rfl
@[simp] theorem State.set_net (s : State) (f : Fld) (i j : Nat) : (s.set f i j).net = s.net := rfl
@[simp] theorem State.set_host (s : State) (f : Fld) (i j : Nat) : (s.set f i j).host = s.host := rfl
@[simp] theorem State.set_car (s : State) (f : Fld) (i j : Nat) : (s.set f i j).car = s.car := rfl
@[simp] theorem State.set_erqLast (s : State) (f : Fld) (i j : Nat) : (s.set f i j).erqLast = s.erqLast := rfl
@[simp] theorem State.set_out (s : State) (f : Fld) (i j : Nat) : (s.set f i j).out = s.out := rfl
@[simp] theorem State.set_free (s : State) (f : Fld) (i j : Nat) : (s.set f i j).free = s.free := rfl
@[simp] theorem State.set_pending (s : State) (f : Fld) (i j : Nat) : (s.set f i j).pending = s.pending := rfl

@[simp] theorem State.clr_mem (s : State) (f : Fld) (i j : Nat) : (s.clr f i j).mem = s.mem := rfl
@[simp] theorem State.clr_memx (s : State) (f : Fld) (i j : Nat) : (s.clr f i j).memx = s.memx := rfl
@[simp] theorem State.clr_tbu (s : State) (f : Fld) (i j : Nat) : (s.clr f i j).tbu = s.tbu := rfl
@[simp] theorem State.clr_aft (s : State) (f : Fld) (i j : Nat) : (s.clr f i j).aft = s.aft := rfl
@[simp] theorem State.clr_sq (s : State) (f : Fld) (i j : Nat) : (s.clr f i j).sq = s.sq := rfl
@[simp] theorem State.clr_gdx (s : State) (f : Fld) (i j : Nat) : (s.clr f i j).gdx = s.gdx := rfl
@[simp] theorem State.clr_exu (s : State) (f : Fld) (i j : Nat) : (s.clr f i j).exu = s.exu := rfl
@[simp] theorem State.clr_pwr (s : State) (f : Fld) (i j : Nat) : (s.clr f i j).pwr = s.pwr := rfl
@[simp] theorem State.clr_scl (s : State) (f : Fld) (i j : Nat) : (s.clr f i j).scl = s.scl := rfl
@[simp] theorem State.clr_dep (s : State) (f : Fld) (i j : Nat) : (s.clr f i j).dep = s.dep := rfl
@[simp] theorem State.clr_boot (s : State) (f : Fld) (i j : Nat) : (s.clr f i j).boot = s.boot := rfl
@[simp] theorem State.clr_thm (s : State) (f : Fld) (i j : Nat) : (s.clr f i j).thm = s.thm := rfl
@[simp] theorem State.clr_pins (s : State) (f : Fld) (i j : Nat) : (s.clr f i j).pins = s.pins := rfl
@[simp] theorem State.clr_cpl (s : State) (f : Fld) (i j : Nat) : (s.clr f i j).cpl = s.cpl := rfl
@[simp] theorem State.clr_net (s : State) (f : Fld) (i j : Nat) : (s.clr f i j).net = s.net := rfl
@[simp] theorem State.clr_host (s : State) (f : Fld) (i j : Nat) : (s.clr f i j).host = s.host := rfl
@[simp] theorem State.clr_car (s : State) (f : Fld) (i j : Nat) : (s.clr f i j).car = s.car := rfl
@[simp] theorem State.clr_erqLast (s : State) (f : Fld) (i j : Nat) : (s.clr f i j).erqLast = s.erqLast := rfl
@[simp] theorem State.clr_out (s : State) (f : Fld) (i j : Nat) : (s.clr f i j).out = s.out := rfl
@[simp] theorem State.clr_free (s : State) (f : Fld) (i j : Nat) : (s.clr f i j).free = s.free := rfl
@[simp] theorem State.clr_pending (s : State) (f : Fld) (i j : Nat) : (s.clr f i j).pending = s.pending := rfl

@[simp] theorem State.setTo_mem (s : State) (f : Fld) (b : Bool) (i j : Nat) : (s.setTo f b i j).mem = s.mem := rfl
@[simp] theorem State.setTo_memx (s : State) (f : Fld) (b : Bool) (i j : Nat) : (s.setTo f b i j).memx = s.memx := rfl
@[simp] theorem State.setTo_tbu (s : State) (f : Fld) (b : Bool) (i j : Nat) : (s.setTo f b i j).tbu = s.tbu := rfl
@[simp] theorem State.setTo_aft (s : State) (f : Fld) (b : Bool) (i j : Nat) : (s.setTo f b i j).aft = s.aft := rfl
@[simp] theorem State.setTo_sq (s : State) (f : Fld) (b : Bool) (i j : Nat) : (s.setTo f b i j).sq = s.sq := rfl
@[simp] theorem State.setTo_gdx (s : State) (f : Fld) (b : Bool) (i j : Nat) : (s.setTo f b i j).gdx = s.gdx := rfl
@[simp] theorem State.setTo_exu (s : State) (f : Fld) (b : Bool) (i j : Nat) : (s.setTo f b i j).exu = s.exu := rfl
@[simp] theorem State.setTo_pwr (s : State) (f : Fld) (b : Bool) (i j : Nat) : (s.setTo f b i j).pwr = s.pwr := rfl
@[simp] theorem State.setTo_scl (s : State) (f : Fld) (b : Bool) (i j : Nat) : (s.setTo f b i j).scl = s.scl := rfl
@[simp] theorem State.setTo_dep (s : State) (f : Fld) (b : Bool) (i j : Nat) : (s.setTo f b i j).dep = s.dep := rfl
@[simp] theorem State.setTo_boot (s : State) (f : Fld) (b : Bool) (i j : Nat) : (s.setTo f b i j).boot = s.boot := rfl
@[simp] theorem State.setTo_thm (s : State) (f : Fld) (b : Bool) (i j : Nat) : (s.setTo f b i j).thm = s.thm := rfl
@[simp] theorem State.setTo_pins (s : State) (f : Fld) (b : Bool) (i j : Nat) : (s.setTo f b i j).pins = s.pins := rfl
@[simp] theorem State.setTo_cpl (s : State) (f : Fld) (b : Bool) (i j : Nat) : (s.setTo f b i j).cpl = s.cpl := rfl
@[simp] theorem State.setTo_net (s : State) (f : Fld) (b : Bool) (i j : Nat) : (s.setTo f b i j).net = s.net := rfl
@[simp] theorem State.setTo_host (s : State) (f : Fld) (b : Bool) (i j : Nat) : (s.setTo f b i j).host = s.host := rfl
@[simp] theorem State.setTo_car (s : State) (f : Fld) (b : Bool) (i j : Nat) : (s.setTo f b i j).car = s.car := rfl
@[simp] theorem State.setTo_erqLast (s : State) (f : Fld) (b : Bool) (i j : Nat) : (s.setTo f b i j).erqLast = s.erqLast := rfl
@[simp] theorem State.setTo_out (s : State) (f : Fld) (b : Bool) (i j : Nat) : (s.setTo f b i j).out = s.out := rfl
@[simp] theorem State.setTo_free (s : State) (f : Fld) (b : Bool) (i j : Nat) : (s.setTo f b i j).free = s.free := rfl
@[simp] theorem State.setTo_pending (s : State) (f : Fld) (b : Bool) (i j : Nat) : (s.setTo f b i j).pending = s.pending := rfl

@[simp] theorem State.count_mem (s : State) (f : Fld) (n i j : Nat) : (s.count f n i j).mem = s.mem := rfl
@[simp] theorem State.count_memx (s : State) (f : Fld) (n i j : Nat) : (s.count f n i j).memx = s.memx := rfl
@[simp] theorem State.count_tbu (s : State) (f : Fld) (n i j : Nat) : (s.count f n i j).tbu = s.tbu := rfl
@[simp] theorem State.count_aft (s : State) (f : Fld) (n i j : Nat) : (s.count f n i j).aft = s.aft := rfl
@[simp] theorem State.count_sq (s : State) (f : Fld) (n i j : Nat) : (s.count f n i j).sq = s.sq := rfl
@[simp] theorem State.count_gdx (s : State) (f : Fld) (n i j : Nat) : (s.count f n i j).gdx = s.gdx := rfl
@[simp] theorem State.count_exu (s : State) (f : Fld) (n i j : Nat) : (s.count f n i j).exu = s.exu := rfl
@[simp] theorem State.count_pwr (s : State) (f : Fld) (n i j : Nat) : (s.count f n i j).pwr = s.pwr := rfl
@[simp] theorem State.count_scl (s : State) (f : Fld) (n i j : Nat) : (s.count f n i j).scl = s.scl := rfl
@[simp] theorem State.count_dep (s : State) (f : Fld) (n i j : Nat) : (s.count f n i j).dep = s.dep := rfl
@[simp] theorem State.count_boot (s : State) (f : Fld) (n i j : Nat) : (s.count f n i j).boot = s.boot := rfl
@[simp] theorem State.count_thm (s : State) (f : Fld) (n i j : Nat) : (s.count f n i j).thm = s.thm := rfl
@[simp] theorem State.count_pins (s : State) (f : Fld) (n i j : Nat) : (s.count f n i j).pins = s.pins := rfl
@[simp] theorem State.count_cpl (s : State) (f : Fld) (n i j : Nat) : (s.count f n i j).cpl = s.cpl := rfl
@[simp] theorem State.count_net (s : State) (f : Fld) (n i j : Nat) : (s.count f n i j).net = s.net := rfl
@[simp] theorem State.count_host (s : State) (f : Fld) (n i j : Nat) : (s.count f n i j).host = s.host := rfl
@[simp] theorem State.count_car (s : State) (f : Fld) (n i j : Nat) : (s.count f n i j).car = s.car := rfl
@[simp] theorem State.count_erqLast (s : State) (f : Fld) (n i j : Nat) : (s.count f n i j).erqLast = s.erqLast := rfl
@[simp] theorem State.count_out (s : State) (f : Fld) (n i j : Nat) : (s.count f n i j).out = s.out := rfl
@[simp] theorem State.count_free (s : State) (f : Fld) (n i j : Nat) : (s.count f n i j).free = s.free := rfl
@[simp] theorem State.count_pending (s : State) (f : Fld) (n i j : Nat) : (s.count f n i j).pending = s.pending := rfl

@[simp] theorem State.raise_mem (s : State) (f : Fld) (v i j : Nat) : (s.raise f v i j).mem = s.mem := rfl
@[simp] theorem State.raise_memx (s : State) (f : Fld) (v i j : Nat) : (s.raise f v i j).memx = s.memx := rfl
@[simp] theorem State.raise_tbu (s : State) (f : Fld) (v i j : Nat) : (s.raise f v i j).tbu = s.tbu := rfl
@[simp] theorem State.raise_aft (s : State) (f : Fld) (v i j : Nat) : (s.raise f v i j).aft = s.aft := rfl
@[simp] theorem State.raise_sq (s : State) (f : Fld) (v i j : Nat) : (s.raise f v i j).sq = s.sq := rfl
@[simp] theorem State.raise_gdx (s : State) (f : Fld) (v i j : Nat) : (s.raise f v i j).gdx = s.gdx := rfl
@[simp] theorem State.raise_exu (s : State) (f : Fld) (v i j : Nat) : (s.raise f v i j).exu = s.exu := rfl
@[simp] theorem State.raise_pwr (s : State) (f : Fld) (v i j : Nat) : (s.raise f v i j).pwr = s.pwr := rfl
@[simp] theorem State.raise_scl (s : State) (f : Fld) (v i j : Nat) : (s.raise f v i j).scl = s.scl := rfl
@[simp] theorem State.raise_dep (s : State) (f : Fld) (v i j : Nat) : (s.raise f v i j).dep = s.dep := rfl
@[simp] theorem State.raise_boot (s : State) (f : Fld) (v i j : Nat) : (s.raise f v i j).boot = s.boot := rfl
@[simp] theorem State.raise_thm (s : State) (f : Fld) (v i j : Nat) : (s.raise f v i j).thm = s.thm := rfl
@[simp] theorem State.raise_pins (s : State) (f : Fld) (v i j : Nat) : (s.raise f v i j).pins = s.pins := rfl
@[simp] theorem State.raise_cpl (s : State) (f : Fld) (v i j : Nat) : (s.raise f v i j).cpl = s.cpl := rfl
@[simp] theorem State.raise_net (s : State) (f : Fld) (v i j : Nat) : (s.raise f v i j).net = s.net := rfl
@[simp] theorem State.raise_host (s : State) (f : Fld) (v i j : Nat) : (s.raise f v i j).host = s.host := rfl
@[simp] theorem State.raise_car (s : State) (f : Fld) (v i j : Nat) : (s.raise f v i j).car = s.car := rfl
@[simp] theorem State.raise_erqLast (s : State) (f : Fld) (v i j : Nat) : (s.raise f v i j).erqLast = s.erqLast := rfl
@[simp] theorem State.raise_out (s : State) (f : Fld) (v i j : Nat) : (s.raise f v i j).out = s.out := rfl
@[simp] theorem State.raise_free (s : State) (f : Fld) (v i j : Nat) : (s.raise f v i j).free = s.free := rfl
@[simp] theorem State.raise_pending (s : State) (f : Fld) (v i j : Nat) : (s.raise f v i j).pending = s.pending := rfl

@[simp] theorem State.putAll_mem (fs : List (Fld × Nat)) (s : State) (i j : Nat) : (s.putAll i j fs).mem = s.mem := by
  induction fs generalizing s with
  | nil => rfl
  | cons x xs ih => simp [State.putAll, ih]
@[simp] theorem State.putAll_memx (fs : List (Fld × Nat)) (s : State) (i j : Nat) : (s.putAll i j fs).memx = s.memx := by
  induction fs generalizing s with
  | nil => rfl
  | cons x xs ih => simp [State.putAll, ih]
@[simp] theorem State.putAll_tbu (fs : List (Fld × Nat)) (s : State) (i j : Nat) : (s.putAll i j fs).tbu = s.tbu := by
  induction fs generalizing s with
  | nil => rfl
  | cons x xs ih => simp [State.putAll, ih]
@[simp] theorem State.putAll_aft (fs : List (Fld × Nat)) (s : State) (i j : Nat) : (s.putAll i j fs).aft = s.aft := by
  induction fs generalizing s with
  | nil => rfl
  | cons x xs ih => simp [State.putAll, ih]
@[simp] theorem State.putAll_sq (fs : List (Fld × Nat)) (s : State) (i j : Nat) : (s.putAll i j fs).sq = s.sq := by
  induction fs generalizing s with
  | nil => rfl
  | cons x xs ih => simp [State.putAll, ih]
@[simp] theorem State.putAll_gdx (fs : List (Fld × Nat)) (s : State) (i j : Nat) : (s.putAll i j fs).gdx = s.gdx := by
  induction fs generalizing s with
  | nil => rfl
  | cons x xs ih => simp [State.putAll, ih]
@[simp] theorem State.putAll_exu (fs : List (Fld × Nat)) (s : State) (i j : Nat) : (s.putAll i j fs).exu = s.exu := by
  induction fs generalizing s with
  | nil => rfl
  | cons x xs ih => simp [State.putAll, ih]
@[simp] theorem State.putAll_pwr (fs : List (Fld × Nat)) (s : State) (i j : Nat) : (s.putAll i j fs).pwr = s.pwr := by
  induction fs generalizing s with
  | nil => rfl
  | cons x xs ih => simp [State.putAll, ih]
@[simp] theorem State.putAll_scl (fs : List (Fld × Nat)) (s : State) (i j : Nat) : (s.putAll i j fs).scl = s.scl := by
  induction fs generalizing s with
  | nil => rfl
  | cons x xs ih => simp [State.putAll, ih]
@[simp] theorem State.putAll_dep (fs : List (Fld × Nat)) (s : State) (i j : Nat) : (s.putAll i j fs).dep = s.dep := by
  induction fs generalizing s with
  | nil => rfl
  | cons x xs ih => simp [State.putAll, ih]
@[simp] theorem State.putAll_boot (fs : List (Fld × Nat)) (s : State) (i j : Nat) : (s.putAll i j fs).boot = s.boot := by
  induction fs generalizing s with
  | nil => rfl
  | cons x xs ih => simp [State.putAll, ih]
@[simp] theorem State.putAll_thm (fs : List (Fld × Nat)) (s : State) (i j : Nat) : (s.putAll i j fs).thm = s.thm := by
  induction fs generalizing s with
  | nil => rfl
  | cons x xs ih => simp [State.putAll, ih]
@[simp] theorem State.putAll_pins (fs : List (Fld × Nat)) (s : State) (i j : Nat) : (s.putAll i j fs).pins = s.pins := by
  induction fs generalizing s with
  | nil => rfl
  | cons x xs ih => simp [State.putAll, ih]
@[simp] theorem State.putAll_cpl (fs : List (Fld × Nat)) (s : State) (i j : Nat) : (s.putAll i j fs).cpl = s.cpl := by
  induction fs generalizing s with
  | nil => rfl
  | cons x xs ih => simp [State.putAll, ih]
@[simp] theorem State.putAll_net (fs : List (Fld × Nat)) (s : State) (i j : Nat) : (s.putAll i j fs).net = s.net := by
  induction fs generalizing s with
  | nil => rfl
  | cons x xs ih => simp [State.putAll, ih]
@[simp] theorem State.putAll_host (fs : List (Fld × Nat)) (s : State) (i j : Nat) : (s.putAll i j fs).host = s.host := by
  induction fs generalizing s with
  | nil => rfl
  | cons x xs ih => simp [State.putAll, ih]
@[simp] theorem State.putAll_car (fs : List (Fld × Nat)) (s : State) (i j : Nat) : (s.putAll i j fs).car = s.car := by
  induction fs generalizing s with
  | nil => rfl
  | cons x xs ih => simp [State.putAll, ih]
@[simp] theorem State.putAll_erqLast (fs : List (Fld × Nat)) (s : State) (i j : Nat) : (s.putAll i j fs).erqLast = s.erqLast := by
  induction fs generalizing s with
  | nil => rfl
  | cons x xs ih => simp [State.putAll, ih]
@[simp] theorem State.putAll_out (fs : List (Fld × Nat)) (s : State) (i j : Nat) : (s.putAll i j fs).out = s.out := by
  induction fs generalizing s with
  | nil => rfl
  | cons x xs ih => simp [State.putAll, ih]
@[simp] theorem State.putAll_free (fs : List (Fld × Nat)) (s : State) (i j : Nat) : (s.putAll i j fs).free = s.free := by
  induction fs generalizing s with
  | nil => rfl
  | cons x xs ih => simp [State.putAll, ih]
@[simp] theorem State.putAll_pending (fs : List (Fld × Nat)) (s : State) (i j : Nat) : (s.putAll i j fs).pending = s.pending := by
  induction fs generalizing s with
  | nil => rfl
  | cons x xs ih => simp [State.putAll, ih]

end Sys2Proof.Machine
end

