-- ==== Sys2Proof/Laws/Memory.lean ====
section
/-!
SUPPORT. Sys2Proof/Laws/Memory.lean: the byte memory keeps its canonical form, reads back what was written, and leaves every other byte.
-/
namespace Sys2Proof.Machine

theorem Memory.wfFrom_mono {lo lo' : Nat} {m : Memory} (h : lo ≤ lo') (hm : m.wfFrom lo' = true) : m.wfFrom lo = true := by
  cases m with
  | nil => rfl
  | cons p m =>
    obtain ⟨b, w⟩ := p
    simp only [Memory.wfFrom, Bool.and_eq_true, decide_eq_true_eq] at hm ⊢
    exact ⟨⟨by omega, hm.1.2⟩, hm.2⟩

theorem Memory.wfFrom_write {m : Memory} {lo a : Nat} (v : Byte) (ha : lo ≤ a) (hm : m.wfFrom lo = true) :
    (m.write a v).wfFrom lo = true := by
  induction m generalizing lo with
  | nil =>
    simp only [Memory.write]
    split
    · rfl
    · rename_i hv
      simp only [Memory.wfFrom, Bool.and_eq_true, decide_eq_true_eq]
      exact ⟨⟨ha, hv⟩, trivial⟩
  | cons p m ih =>
    obtain ⟨b, w⟩ := p
    simp only [Memory.wfFrom, Bool.and_eq_true, decide_eq_true_eq] at hm
    obtain ⟨⟨hb, hw⟩, hm⟩ := hm
    simp only [Memory.write]
    split
    · rename_i hlt
      split
      · simp only [Memory.wfFrom, Bool.and_eq_true, decide_eq_true_eq]
        exact ⟨⟨hb, hw⟩, hm⟩
      · rename_i hv
        simp only [Memory.wfFrom, Bool.and_eq_true, decide_eq_true_eq]
        exact ⟨⟨ha, hv⟩, ⟨by omega, hw⟩, hm⟩
    · split
      · rename_i heq
        subst heq
        split
        · exact Memory.wfFrom_mono (by omega) hm
        · rename_i hv
          simp only [Memory.wfFrom, Bool.and_eq_true, decide_eq_true_eq]
          exact ⟨⟨ha, hv⟩, hm⟩
      · simp only [Memory.wfFrom, Bool.and_eq_true, decide_eq_true_eq]
        exact ⟨⟨hb, hw⟩, ih (by omega) hm⟩

/-- A write keeps the canonical form. -/
theorem Memory.wf_write {m : Memory} (a : Nat) (v : Byte) (hm : m.wf = true) : (m.write a v).wf = true :=
  Memory.wfFrom_write v (Nat.zero_le a) hm

theorem Memory.wf_writeBytes {m : Memory} (a : Nat) (bs : List Byte) (hm : m.wf = true) : (m.writeBytes a bs).wf = true := by
  induction bs generalizing m a with
  | nil => exact hm
  | cons b bs ih => exact ih (a + 1) (Memory.wf_write a b hm)

theorem Memory.wf_writeLE {m : Memory} (a n x : Nat) (hm : m.wf = true) : (m.writeLE a n x).wf = true := Memory.wf_writeBytes a _ hm

theorem Memory.wf_setWord {m : Memory} (a x : Nat) (hm : m.wf = true) : (m.setWord a x).wf = true := Memory.wf_writeLE a 4 x hm

theorem Memory.read_below {m : Memory} {lo a : Nat} (hm : m.wfFrom lo = true) (ha : a < lo) : m.read a = 0 := by
  induction m generalizing lo with
  | nil => rfl
  | cons p m ih =>
    obtain ⟨b, w⟩ := p
    simp only [Memory.wfFrom, Bool.and_eq_true, decide_eq_true_eq] at hm
    have : b ≠ a := by omega
    simp only [Memory.read, this, if_false]
    exact ih hm.2 (by omega)

/-- A byte reads back as it was written. -/
theorem Memory.read_write_self {m : Memory} (a : Nat) (v : Byte) (hm : m.wf = true) : (m.write a v).read a = v := by
  have key : ∀ (m : Memory) (lo : Nat), m.wfFrom lo = true → (m.write a v).read a = v := by
    intro m
    induction m with
    | nil =>
      intro lo _
      simp only [Memory.write]
      split
      · rename_i hv
        exact hv.symm
      · simp [Memory.read]
    | cons p m ih =>
      obtain ⟨b, w⟩ := p
      intro lo hm
      simp only [Memory.wfFrom, Bool.and_eq_true, decide_eq_true_eq] at hm
      simp only [Memory.write]
      split
      · rename_i hlt
        have hba : b ≠ a := by omega
        split
        · rename_i hv
          simp only [Memory.read, hba, if_false, hv]
          exact Memory.read_below hm.2 (by omega)
        · simp [Memory.read]
      · split
        · rename_i heq
          split
          · rename_i hv
            rw [hv]
            exact Memory.read_below hm.2 (by omega)
          · simp [Memory.read]
        · rename_i hlt hne
          have hba : b ≠ a := fun h => hne h.symm
          simp only [Memory.read, hba, if_false]
          exact ih (b + 1) hm.2
  exact key m 0 hm

/-- A write leaves every other byte. -/
theorem Memory.read_write_ne {m : Memory} {a a' : Nat} (h : a' ≠ a) (v : Byte) : (m.write a v).read a' = m.read a' := by
  induction m with
  | nil =>
    simp only [Memory.write]
    split
    · rfl
    · simp [Memory.read, Ne.symm h]
  | cons p m ih =>
    obtain ⟨b, w⟩ := p
    simp only [Memory.write]
    split
    · split
      · rfl
      · simp [Memory.read, Ne.symm h]
    · split
      · rename_i heq
        subst heq
        split <;> simp [Memory.read, Ne.symm h]
      · by_cases hb : b = a' <;> simp [Memory.read, hb, ih]

/-- Writing bytes leaves every byte outside their range. -/
theorem Memory.read_writeBytes_out {m : Memory} (a : Nat) (bs : List Byte) {x : Nat} (h : x < a ∨ a + bs.length ≤ x) :
    (m.writeBytes a bs).read x = m.read x := by
  induction bs generalizing m a with
  | nil => rfl
  | cons b bs ih =>
    have hl : (b :: bs).length = bs.length + 1 := rfl
    rw [Memory.writeBytes, ih (a + 1) (by omega), Memory.read_write_ne (by omega)]

/-- Bytes read back as they were written. -/
theorem Memory.readBytes_writeBytes {m : Memory} (a : Nat) (bs : List Byte) (hm : m.wf = true) :
    (m.writeBytes a bs).readBytes a bs.length = bs := by
  induction bs generalizing m a with
  | nil => rfl
  | cons b bs ih =>
    simp only [Memory.writeBytes, List.length_cons, Memory.readBytes]
    rw [ih (a + 1) (Memory.wf_write a b hm), Memory.read_writeBytes_out _ _ (by omega), Memory.read_write_self _ _ hm]

@[simp] theorem length_natLe (n x : Nat) : (natLe n x).length = n := by
  induction n generalizing x with
  | zero => rfl
  | succ n ih => simp [natLe, ih]

theorem leNat_natLe (n x : Nat) : leNat (natLe n x) = x % 256 ^ n := by
  induction n generalizing x with
  | zero => simp [natLe, leNat, Nat.mod_one]
  | succ n ih =>
    simp only [natLe, leNat, ih, BitVec.toNat_ofNat]
    rw [show (2 : Nat) ^ 8 = 256 from rfl, Nat.pow_succ, Nat.mul_comm (256 ^ n) 256, Nat.mod_mul]

/-- A number of n bytes reads back modulo its width. -/
theorem Memory.readLE_writeLE {m : Memory} (a n x : Nat) (hm : m.wf = true) : (m.writeLE a n x).readLE a n = x % 256 ^ n := by
  have h := Memory.readBytes_writeBytes (m := m) a (natLe n x) hm
  rw [length_natLe] at h
  rw [Memory.readLE, Memory.writeLE, h, leNat_natLe]

theorem Memory.word_setWord {m : Memory} (a x : Nat) (hm : m.wf = true) : (m.setWord a x).word a = x % 2 ^ 32 :=
  Memory.readLE_writeLE a 4 x hm

end Sys2Proof.Machine
end

