-- ==== Sys2Proof/Laws/Regs.lean ====
section
/-!
SUPPORT. Sys2Proof/Laws/Regs.lean: reading after writing, for tables, fields of a word, and the registers of the state.
-/
namespace Sys2Proof.Machine

/-! ### Tables -/

section
variable {κ α : Type} [DecidableEq κ]

@[simp] theorem Tab.get_set_self (d : α) (m : Tab κ α) (k : κ) (v : α) : Tab.get d (Tab.set m k v) k = v := by
  induction m with
  | nil => simp [Tab.set, Tab.get]
  | cons p m ih =>
    obtain ⟨k', v'⟩ := p
    by_cases h : k' = k <;> simp [Tab.set, Tab.get, h, ih]

theorem Tab.get_set_ne (d : α) (m : Tab κ α) {k k' : κ} (h : k' ≠ k) (v : α) : Tab.get d (Tab.set m k v) k' = Tab.get d m k' := by
  induction m with
  | nil => simp [Tab.set, Tab.get, Ne.symm h]
  | cons p m ih =>
    obtain ⟨k₀, v₀⟩ := p
    by_cases h₀ : k₀ = k
    · subst h₀; simp [Tab.set, Tab.get, Ne.symm h]
    · by_cases h₁ : k₀ = k' <;> simp [Tab.set, Tab.get, h₀, h₁, h, ih]

@[simp] theorem Tab.find_set_self (m : Tab κ α) (k : κ) (v : α) : Tab.find (Tab.set m k v) k = some v := by
  induction m with
  | nil => simp [Tab.set, Tab.find]
  | cons p m ih =>
    obtain ⟨k', v'⟩ := p
    by_cases h : k' = k <;> simp [Tab.set, Tab.find, h, ih]

theorem Tab.find_set_ne (m : Tab κ α) {k k' : κ} (h : k' ≠ k) (v : α) : Tab.find (Tab.set m k v) k' = Tab.find m k' := by
  induction m with
  | nil => simp [Tab.set, Tab.find, Ne.symm h]
  | cons p m ih =>
    obtain ⟨k₀, v₀⟩ := p
    by_cases h₀ : k₀ = k
    · subst h₀; simp [Tab.set, Tab.find, Ne.symm h]
    · by_cases h₁ : k₀ = k' <;> simp [Tab.set, Tab.find, h₀, h₁, h, ih]

@[simp] theorem Tab.find_erase_self (m : Tab κ α) (k : κ) : Tab.find (Tab.erase m k) k = none := by
  induction m with
  | nil => simp [Tab.erase, Tab.find]
  | cons p m ih =>
    obtain ⟨k', v'⟩ := p
    by_cases h : k' = k
    · subst h; simpa [Tab.erase] using ih
    · simp only [Tab.erase, ne_eq, List.filter_cons, h, not_false_eq_true, decide_true, if_true, Tab.find, if_false]
      simpa [Tab.erase] using ih

end

/-! ### Fields of a word -/

theorem fieldMask_bit (lo len i : Nat) (h : i < 32) : (fieldMask lo len).getLsbD i = (decide (lo ≤ i) && decide (i - lo < len)) := by
  simp only [fieldMask, BitVec.getLsbD_ofNat, h, decide_true, Bool.true_and]
  rw [Nat.testBit_mul_two_pow]
  simp

theorem fieldPut_bit (w : Word) (lo len v i : Nat) (h : i < 32) :
    (fieldPut w lo len v).getLsbD i = if lo ≤ i ∧ i - lo < len then v.testBit (i - lo) else w.getLsbD i := by
  simp only [fieldPut, BitVec.getLsbD_or, BitVec.getLsbD_and, BitVec.getLsbD_not, fieldMask_bit _ _ _ h, h, decide_true, Bool.true_and,
    BitVec.getLsbD_ofNat]
  rw [Nat.testBit_mul_two_pow, Nat.testBit_mod_two_pow]
  by_cases h1 : lo ≤ i <;> by_cases h2 : i - lo < len <;> simp [h1, h2]

theorem fieldGet_bit (w : Word) (lo len i : Nat) : (fieldGet w lo len).testBit i = (decide (i < len) && w.getLsbD (lo + i)) := by
  simp [fieldGet, Nat.testBit_mod_two_pow, Nat.testBit_shiftRight, BitVec.getLsbD]

/-- A field that lies in the word reads back as what was put, modulo its width. -/
theorem fieldGet_fieldPut (w : Word) (lo len v : Nat) (h : lo + len ≤ 32) : fieldGet (fieldPut w lo len v) lo len = v % 2 ^ len := by
  apply Nat.eq_of_testBit_eq
  intro i
  rw [fieldGet_bit, Nat.testBit_mod_two_pow]
  by_cases hi : i < len
  · rw [fieldPut_bit _ _ _ _ _ (by omega)]
    simp [hi]
  · simp [hi]

/-- Putting a field leaves every field that does not meet it. -/
theorem fieldGet_fieldPut_ne (w : Word) (lo len v lo' len' : Nat) (h : lo' + len' ≤ 32) (hd : lo + len ≤ lo' ∨ lo' + len' ≤ lo) :
    fieldGet (fieldPut w lo len v) lo' len' = fieldGet w lo' len' := by
  apply Nat.eq_of_testBit_eq
  intro i
  rw [fieldGet_bit, fieldGet_bit]
  by_cases hi : i < len'
  · rw [fieldPut_bit _ _ _ _ _ (by omega)]
    have : ¬ (lo ≤ lo' + i ∧ lo' + i - lo < len) := by omega
    simp [hi, this]
  · simp [hi]

/-! ### Registers -/

@[simp] theorem State.rd_wr_self (s : State) (k : RegKey) (w : Word) : (s.wr k w).rd k = w := by simp [State.rd, State.wr]

theorem State.rd_wr_ne (s : State) {k k' : RegKey} (h : k' ≠ k) (w : Word) : (s.wr k w).rd k' = s.rd k' := by
  simp [State.rd, State.wr, Tab.get_set_ne _ _ h]

/-- Every register after a write. -/
theorem State.rd_wr (s : State) (k k' : RegKey) (w : Word) : (s.wr k w).rd k' = if k' = k then w else s.rd k' := by
  by_cases h : k' = k
  · subst h; simp
  · simp [h, State.rd_wr_ne]

/-- Every register after a field write. -/
theorem State.rd_put (s : State) (f : Fld) (v i j : Nat) (k : RegKey) :
    (s.put f v i j).rd k = if k = ⟨f.reg, i, j⟩ then fieldPut (s.rd k) f.lo f.len v else s.rd k := by
  simp only [State.put, State.rd_wr]
  by_cases h : k = ⟨f.reg, i, j⟩ <;> simp [h]

theorem State.rd_put_self (s : State) (f : Fld) (v i j : Nat) :
    (s.put f v i j).rd ⟨f.reg, i, j⟩ = fieldPut (s.rd ⟨f.reg, i, j⟩) f.lo f.len v := by simp [State.rd_put]

theorem State.rd_put_ne (s : State) (f : Fld) (v i j : Nat) {k : RegKey} (h : k ≠ ⟨f.reg, i, j⟩) : (s.put f v i j).rd k = s.rd k := by
  simp [State.rd_put, h]

/-- A field that lies in its register reads back as what was put. -/
theorem State.get_put_self (s : State) (f : Fld) (v i j : Nat) (h : f.lo + f.len ≤ 32) : (s.put f v i j).get f i j = v % 2 ^ f.len := by
  simp [State.get, State.rd_put_self, fieldGet_fieldPut _ _ _ _ h]

/-- A field of another register, instance or index keeps its value. -/
theorem State.get_put_key (s : State) (f g : Fld) (v i j i' j' : Nat) (h : (⟨g.reg, i', j'⟩ : RegKey) ≠ ⟨f.reg, i, j⟩) :
    (s.put f v i j).get g i' j' = s.get g i' j' := by
  simp [State.get, State.rd_put_ne _ _ _ _ _ h]

/-- Another field of the same register keeps its value. -/
theorem State.get_put_fld (s : State) (f g : Fld) (v i j i' j' : Nat) (h : g.lo + g.len ≤ 32) (hd : f.lo + f.len ≤ g.lo ∨ g.lo + g.len ≤ f.lo) :
    (s.put f v i j).get g i' j' = s.get g i' j' := by
  by_cases hk : (⟨g.reg, i', j'⟩ : RegKey) = ⟨f.reg, i, j⟩
  · rw [State.get, State.get, hk, State.rd_put_self, fieldGet_fieldPut_ne _ _ _ _ _ _ h hd]
  · exact State.get_put_key _ _ _ _ _ _ _ _ hk

/-- A field that the put field does not meet keeps its value: another register, instance or index, or other bits. -/
theorem State.get_put_ne (s : State) (f g : Fld) (v i j i' j' : Nat) (h : g.lo + g.len ≤ 32)
    (hd : (⟨g.reg, i', j'⟩ : RegKey) ≠ ⟨f.reg, i, j⟩ ∨ f.lo + f.len ≤ g.lo ∨ g.lo + g.len ≤ f.lo) :
    (s.put f v i j).get g i' j' = s.get g i' j' := by
  rcases hd with hd | hd
  · exact State.get_put_key _ _ _ _ _ _ _ _ hd
  · exact State.get_put_fld _ _ _ _ _ _ _ _ h hd

/-- Registers depend on nothing but the register file. -/
theorem State.rd_congr {s t : State} (h : s.regs = t.regs) (k : RegKey) : s.rd k = t.rd k := by simp [State.rd, h]

theorem State.get_congr {s t : State} (h : s.regs = t.regs) (f : Fld) (i j : Nat) : s.get f i j = t.get f i j := by
  simp [State.get, State.rd_congr h]

/-! ### Updates of other parts leave every register -/

@[simp] theorem State.setWord_rd (s : State) (a x : Nat) (k : RegKey) : (s.setWord a x).rd k = s.rd k := rfl
@[simp] theorem State.setWord_get (s : State) (a x : Nat) (f : Fld) (i j : Nat) : (s.setWord a x).get f i j = s.get f i j := rfl
@[simp] theorem State.setWord_flag (s : State) (a x : Nat) (f : Fld) (i j : Nat) : (s.setWord a x).flag f i j = s.flag f i j := rfl
@[simp] theorem State.setBytes_rd (s : State) (a : Nat) (bs : List Byte) (k : RegKey) : (s.setBytes a bs).rd k = s.rd k := rfl
@[simp] theorem State.setBytes_get (s : State) (a : Nat) (bs : List Byte) (f : Fld) (i j : Nat) : (s.setBytes a bs).get f i j = s.get f i j := rfl
@[simp] theorem State.setBytes_flag (s : State) (a : Nat) (bs : List Byte) (f : Fld) (i j : Nat) : (s.setBytes a bs).flag f i j = s.flag f i j := rfl
@[simp] theorem State.setMemx_rd (s : State) (m : MemSt) (k : RegKey) : (s.setMemx m).rd k = s.rd k := rfl
@[simp] theorem State.setMemx_get (s : State) (m : MemSt) (f : Fld) (i j : Nat) : (s.setMemx m).get f i j = s.get f i j := rfl
@[simp] theorem State.setMemx_flag (s : State) (m : MemSt) (f : Fld) (i j : Nat) : (s.setMemx m).flag f i j = s.flag f i j := rfl
@[simp] theorem State.setTbu_rd (s : State) (x : Tbu) (k : RegKey) : (s.setTbu x).rd k = s.rd k := rfl
@[simp] theorem State.setTbu_get (s : State) (x : Tbu) (f : Fld) (i j : Nat) : (s.setTbu x).get f i j = s.get f i j := rfl
@[simp] theorem State.setTbu_flag (s : State) (x : Tbu) (f : Fld) (i j : Nat) : (s.setTbu x).flag f i j = s.flag f i j := rfl
@[simp] theorem State.setDom_rd (s : State) (d : Dom) (x : TbuDom) (k : RegKey) : (s.setDom d x).rd k = s.rd k := rfl
@[simp] theorem State.setDom_get (s : State) (d : Dom) (x : TbuDom) (f : Fld) (i j : Nat) : (s.setDom d x).get f i j = s.get f i j := rfl
@[simp] theorem State.setDom_flag (s : State) (d : Dom) (x : TbuDom) (f : Fld) (i j : Nat) : (s.setDom d x).flag f i j = s.flag f i j := rfl
@[simp] theorem State.setAft_rd (s : State) (x : Aft) (k : RegKey) : (s.setAft x).rd k = s.rd k := rfl
@[simp] theorem State.setAft_get (s : State) (x : Aft) (f : Fld) (i j : Nat) : (s.setAft x).get f i j = s.get f i j := rfl
@[simp] theorem State.setAft_flag (s : State) (x : Aft) (f : Fld) (i j : Nat) : (s.setAft x).flag f i j = s.flag f i j := rfl
@[simp] theorem State.setQueue_rd (s : State) (q : Nat) (x : Queue) (k : RegKey) : (s.setQueue q x).rd k = s.rd k := rfl
@[simp] theorem State.setQueue_get (s : State) (q : Nat) (x : Queue) (f : Fld) (i j : Nat) : (s.setQueue q x).get f i j = s.get f i j := rfl
@[simp] theorem State.setQueue_flag (s : State) (q : Nat) (x : Queue) (f : Fld) (i j : Nat) : (s.setQueue q x).flag f i j = s.flag f i j := rfl
@[simp] theorem State.setGdx_rd (s : State) (x : Gdx) (k : RegKey) : (s.setGdx x).rd k = s.rd k := rfl
@[simp] theorem State.setGdx_get (s : State) (x : Gdx) (f : Fld) (i j : Nat) : (s.setGdx x).get f i j = s.get f i j := rfl
@[simp] theorem State.setGdx_flag (s : State) (x : Gdx) (f : Fld) (i j : Nat) : (s.setGdx x).flag f i j = s.flag f i j := rfl
@[simp] theorem State.setExu_rd (s : State) (x : Exu) (k : RegKey) : (s.setExu x).rd k = s.rd k := rfl
@[simp] theorem State.setExu_get (s : State) (x : Exu) (f : Fld) (i j : Nat) : (s.setExu x).get f i j = s.get f i j := rfl
@[simp] theorem State.setExu_flag (s : State) (x : Exu) (f : Fld) (i j : Nat) : (s.setExu x).flag f i j = s.flag f i j := rfl
@[simp] theorem State.setPwr_rd (s : State) (x : Pwr) (k : RegKey) : (s.setPwr x).rd k = s.rd k := rfl
@[simp] theorem State.setPwr_get (s : State) (x : Pwr) (f : Fld) (i j : Nat) : (s.setPwr x).get f i j = s.get f i j := rfl
@[simp] theorem State.setPwr_flag (s : State) (x : Pwr) (f : Fld) (i j : Nat) : (s.setPwr x).flag f i j = s.flag f i j := rfl
@[simp] theorem State.setScl_rd (s : State) (x : Scl) (k : RegKey) : (s.setScl x).rd k = s.rd k := rfl
@[simp] theorem State.setScl_get (s : State) (x : Scl) (f : Fld) (i j : Nat) : (s.setScl x).get f i j = s.get f i j := rfl
@[simp] theorem State.setScl_flag (s : State) (x : Scl) (f : Fld) (i j : Nat) : (s.setScl x).flag f i j = s.flag f i j := rfl
@[simp] theorem State.setDep_rd (s : State) (x : Dep) (k : RegKey) : (s.setDep x).rd k = s.rd k := rfl
@[simp] theorem State.setDep_get (s : State) (x : Dep) (f : Fld) (i j : Nat) : (s.setDep x).get f i j = s.get f i j := rfl
@[simp] theorem State.setDep_flag (s : State) (x : Dep) (f : Fld) (i j : Nat) : (s.setDep x).flag f i j = s.flag f i j := rfl
@[simp] theorem State.setBoot_rd (s : State) (x : Boot) (k : RegKey) : (s.setBoot x).rd k = s.rd k := rfl
@[simp] theorem State.setBoot_get (s : State) (x : Boot) (f : Fld) (i j : Nat) : (s.setBoot x).get f i j = s.get f i j := rfl
@[simp] theorem State.setBoot_flag (s : State) (x : Boot) (f : Fld) (i j : Nat) : (s.setBoot x).flag f i j = s.flag f i j := rfl
@[simp] theorem State.setThm_rd (s : State) (x : Thm) (k : RegKey) : (s.setThm x).rd k = s.rd k := rfl
@[simp] theorem State.setThm_get (s : State) (x : Thm) (f : Fld) (i j : Nat) : (s.setThm x).get f i j = s.get f i j := rfl
@[simp] theorem State.setThm_flag (s : State) (x : Thm) (f : Fld) (i j : Nat) : (s.setThm x).flag f i j = s.flag f i j := rfl
@[simp] theorem State.setPins_rd (s : State) (x : Pins) (k : RegKey) : (s.setPins x).rd k = s.rd k := rfl
@[simp] theorem State.setPins_get (s : State) (x : Pins) (f : Fld) (i j : Nat) : (s.setPins x).get f i j = s.get f i j := rfl
@[simp] theorem State.setPins_flag (s : State) (x : Pins) (f : Fld) (i j : Nat) : (s.setPins x).flag f i j = s.flag f i j := rfl
@[simp] theorem State.setCpl_rd (s : State) (p : Nat) (x : CplPort) (k : RegKey) : (s.setCpl p x).rd k = s.rd k := rfl
@[simp] theorem State.setCpl_get (s : State) (p : Nat) (x : CplPort) (f : Fld) (i j : Nat) : (s.setCpl p x).get f i j = s.get f i j := rfl
@[simp] theorem State.setCpl_flag (s : State) (p : Nat) (x : CplPort) (f : Fld) (i j : Nat) : (s.setCpl p x).flag f i j = s.flag f i j := rfl
@[simp] theorem State.setHost_rd (s : State) (x : HostIf) (k : RegKey) : (s.setHost x).rd k = s.rd k := rfl
@[simp] theorem State.setHost_get (s : State) (x : HostIf) (f : Fld) (i j : Nat) : (s.setHost x).get f i j = s.get f i j := rfl
@[simp] theorem State.setHost_flag (s : State) (x : HostIf) (f : Fld) (i j : Nat) : (s.setHost x).flag f i j = s.flag f i j := rfl
@[simp] theorem State.setCar_rd (s : State) (x : Carriers) (k : RegKey) : (s.setCar x).rd k = s.rd k := rfl
@[simp] theorem State.setCar_get (s : State) (x : Carriers) (f : Fld) (i j : Nat) : (s.setCar x).get f i j = s.get f i j := rfl
@[simp] theorem State.setCar_flag (s : State) (x : Carriers) (f : Fld) (i j : Nat) : (s.setCar x).flag f i j = s.flag f i j := rfl
@[simp] theorem State.send_rd (s : State) (o : Out) (k : RegKey) : (s.send o).rd k = s.rd k := rfl
@[simp] theorem State.send_get (s : State) (o : Out) (f : Fld) (i j : Nat) : (s.send o).get f i j = s.get f i j := rfl
@[simp] theorem State.send_flag (s : State) (o : Out) (f : Fld) (i j : Nat) : (s.send o).flag f i j = s.flag f i j := rfl

end Sys2Proof.Machine
end

