-- ==== Sys2Proof/Laws/Frames.lean ====
section
/-!
SUPPORT. Sys2Proof/Laws/Frames.lean: how the frame relations of Safety.lean compose along the writes of a meaning.
-/
namespace Sys2Proof.Machine

/-! ### FieldsBut -/

theorem FieldsBut.refl (s : State) (fs : List FieldAt) : FieldsBut s s fs := fun _ _ _ => rfl

theorem FieldsBut.of_regs {s t : State} (fs : List FieldAt) (h : t.regs = s.regs) : FieldsBut s t fs := fun k b _ => by
  rw [State.rd_congr h]

theorem FieldsBut.trans {s t u : State} {fs : List FieldAt} (h : FieldsBut s t fs) (h' : FieldsBut t u fs) : FieldsBut s u fs :=
  fun k b hx => (h' k b hx).trans (h k b hx)

theorem FieldsBut.mono {s t : State} {fs gs : List FieldAt} (h : FieldsBut s t fs) (hs : ∀ x ∈ fs, x ∈ gs) : FieldsBut s t gs :=
  fun k b hx => h k b (fun x m => hx x (hs x m))

theorem FieldsBut.put_self (s : State) (f : Fld) (v i j : Nat) : FieldsBut s (s.put f v i j) [(f, i, j)] := by
  intro k b hx
  have hn := hx _ (List.mem_singleton.2 rfl)
  by_cases hk : k = ⟨f.reg, i, j⟩
  · subst hk
    rw [State.rd_put_self]
    by_cases hb : b < 32
    · rw [fieldPut_bit _ _ _ _ _ hb, if_neg]
      intro h
      exact hn ⟨rfl, h.1, by have := h.2; have := h.1; show b < f.lo + f.len; omega⟩
    · rw [BitVec.getLsbD_of_ge _ _ (by omega), BitVec.getLsbD_of_ge _ _ (by omega)]
  · rw [State.rd_put_ne _ _ _ _ _ hk]

/-- One more field write keeps the frame if its field is listed. -/
theorem FieldsBut.put {s t : State} {fs : List FieldAt} (h : FieldsBut s t fs) (f : Fld) (v i j : Nat) (hm : (f, i, j) ∈ fs) :
    FieldsBut s (t.put f v i j) fs :=
  h.trans ((FieldsBut.put_self t f v i j).mono (fun x hx => by rw [List.mem_singleton.1 hx]; exact hm))

theorem FieldsBut.set {s t : State} {fs : List FieldAt} (h : FieldsBut s t fs) (f : Fld) (i j : Nat) (hm : (f, i, j) ∈ fs) :
    FieldsBut s (t.set f i j) fs := h.put f 1 i j hm

theorem FieldsBut.clr {s t : State} {fs : List FieldAt} (h : FieldsBut s t fs) (f : Fld) (i j : Nat) (hm : (f, i, j) ∈ fs) :
    FieldsBut s (t.clr f i j) fs := h.put f 0 i j hm

theorem FieldsBut.setTo {s t : State} {fs : List FieldAt} (h : FieldsBut s t fs) (f : Fld) (b : Bool) (i j : Nat) (hm : (f, i, j) ∈ fs) :
    FieldsBut s (t.setTo f b i j) fs := h.put f _ i j hm

theorem FieldsBut.count {s t : State} {fs : List FieldAt} (h : FieldsBut s t fs) (f : Fld) (n i j : Nat) (hm : (f, i, j) ∈ fs) :
    FieldsBut s (t.count f n i j) fs := h.put f _ i j hm

theorem FieldsBut.raise {s t : State} {fs : List FieldAt} (h : FieldsBut s t fs) (f : Fld) (v i j : Nat) (hm : (f, i, j) ∈ fs) :
    FieldsBut s (t.raise f v i j) fs := h.put f _ i j hm

theorem FieldsBut.putAll {s t : State} {fs : List FieldAt} (h : FieldsBut s t fs) (i j : Nat) (l : List (Fld × Nat))
    (hm : ∀ x ∈ l, (x.1, i, j) ∈ fs) : FieldsBut s (t.putAll i j l) fs := by
  induction l generalizing t with
  | nil => exact h
  | cons x xs ih =>
    exact ih (h.put x.1 x.2 i j (hm x List.mem_cons_self)) (fun y hy => hm y (List.mem_cons_of_mem _ hy))

/-- What else the state holds is of no matter to a frame of registers. -/
theorem FieldsBut.of_eq {s t u : State} {fs : List FieldAt} (h : FieldsBut s t fs) (hr : u.regs = t.regs) : FieldsBut s u fs :=
  h.trans (FieldsBut.of_regs fs hr)

/-- A field that meets none of the listed ones reads as before. -/
theorem FieldsBut.get {s t : State} {fs : List FieldAt} (h : FieldsBut s t fs) (f : Fld) (i j : Nat)
    (hd : ∀ x ∈ fs, (⟨f.reg, i, j⟩ : RegKey) ≠ ⟨x.1.reg, x.2.1, x.2.2⟩ ∨ x.1.lo + x.1.len ≤ f.lo ∨ f.lo + f.len ≤ x.1.lo) :
    t.get f i j = s.get f i j := by
  apply Nat.eq_of_testBit_eq
  intro b
  rw [State.get, State.get, fieldGet_bit, fieldGet_bit]
  by_cases hb : b < f.len
  · rw [h ⟨f.reg, i, j⟩ (f.lo + b) (fun x hx hc => ?_)]
    obtain ⟨hk, h1, h2⟩ := hc
    rcases hd x hx with h' | h' | h'
    · exact h' hk
    · omega
    · omega
  · simp [hb]

/-! ### RegsBut -/

theorem RegsBut.refl (s : State) (rs : List Reg) : RegsBut s s rs := fun _ _ => rfl

theorem RegsBut.of_regs {s t : State} (rs : List Reg) (h : t.regs = s.regs) : RegsBut s t rs := fun k _ => State.rd_congr h k

theorem RegsBut.trans {s t u : State} {rs : List Reg} (h : RegsBut s t rs) (h' : RegsBut t u rs) : RegsBut s u rs :=
  fun k hk => (h' k hk).trans (h k hk)

theorem RegsBut.put {s t : State} {rs : List Reg} (h : RegsBut s t rs) (f : Fld) (v i j : Nat) (hm : f.reg ∈ rs) :
    RegsBut s (t.put f v i j) rs := fun k hk => by
  rw [State.rd_put_ne _ _ _ _ _ (fun e => hk (by rw [e]; exact hm)), h k hk]

theorem RegsBut.putAll {s t : State} {rs : List Reg} (h : RegsBut s t rs) (i j : Nat) (l : List (Fld × Nat)) (hm : ∀ x ∈ l, x.1.reg ∈ rs) :
    RegsBut s (t.putAll i j l) rs := by
  induction l generalizing t with
  | nil => exact h
  | cons x xs ih => exact ih (h.put x.1 x.2 i j (hm x List.mem_cons_self)) (fun y hy => hm y (List.mem_cons_of_mem _ hy))

theorem RegsBut.of_eq {s t u : State} {rs : List Reg} (h : RegsBut s t rs) (hr : u.regs = t.regs) : RegsBut s u rs :=
  h.trans (RegsBut.of_regs rs hr)

/-! ### Memory -/

theorem SameMem.of_mem {s t : State} (h : t.mem = s.mem) : SameMem s t := fun _ => by rw [h]

theorem MemBut.setBytes (s : State) (a : Nat) (bs : List Byte) : MemBut s (s.setBytes a bs) a bs.length := fun _ hx =>
  Memory.read_writeBytes_out a bs hx

theorem MemBut.setWord (s : State) (a x : Nat) : MemBut s (s.setWord a x) a 4 := fun _ hx =>
  Memory.read_writeBytes_out a _ (by simpa using hx)

end Sys2Proof.Machine
end

