-- ==== Sys2Proof/Laws/Time.lean ====
section
/-!
SUPPORT. Sys2Proof/Laws/Time.lean: the counters of the time base keep their ranges, and a counter is the number it holds.
-/
namespace Sys2Proof.Machine

/-- Every counter made from a number keeps its ranges. -/
theorem Tai.ofUnits_wf (x : Int) : (Tai.ofUnits x).wf := by
  simp only [Tai.wf, Tai.ofUnits, secUnits]
  omega

theorem Tai.add_wf (t : Tai) (x : Int) : (t.add x).wf := Tai.ofUnits_wf _

/-- The number that a counter holds after it was made from one, modulo 2^48 seconds. -/
theorem Tai.units_ofUnits (x : Int) : ((Tai.ofUnits x).units : Int) = x % (2 ^ 48 * secUnits : Nat) := by
  simp only [Tai.units, Tai.ofUnits, secUnits]
  omega

/-- A counter in its ranges is the counter made from its number. -/
theorem Tai.ofUnits_units {t : Tai} (h : t.wf) : Tai.ofUnits t.units = t := by
  obtain ⟨sec, ns, frac⟩ := t
  simp only [Tai.wf] at h
  simp only [Tai.units, Tai.ofUnits, secUnits, Tai.mk.injEq]
  omega

@[simp] theorem Tbu.setDom_dom (t : Tbu) (d : Dom) (x : TbuDom) : (t.setDom d x).dom d = x := by cases d <;> rfl

theorem Tbu.setDom_dom_ne (t : Tbu) {d e : Dom} (h : e ≠ d) (x : TbuDom) : (t.setDom d x).dom e = t.dom e := by
  cases d <;> cases e <;> first | rfl | exact absurd rfl h

end Sys2Proof.Machine
end

