-- ==== Sys2Proof/Tests/Slice0.lean ====
section
/-!
SUPPORT. Sys2Proof/Tests/Slice0.lean: concrete states that meet the hypotheses of the statements, clause by clause (witness_…), ill-formed
commands that WellFormed refuses (test_wf_…), and small tests of single commands with results from the spec (test_…).
-/
namespace Sys2Proof.Tests
open Sys2Proof Sys2Proof.Machine

/-- The reset state with some fields put: field, value, instance, index. -/
def mk (l : List (Fld × Nat × Nat × Nat)) (s : State := State.reset) : State :=
  l.foldl (fun s x => s.put x.1 x.2.1 x.2.2.1 x.2.2.2) s

/-! ### Steps, time -/

theorem witness_StepPerformsTheFrontCommand : State.reset.pending = [] := by decide

theorem witness_EveryStepKeepsTheInvariant : State.reset.Inv :=
  ⟨by decide, by unfold TbuDom.ok Tai.wf; decide, by unfold TbuDom.ok Tai.wf; decide⟩

/-- The time base runs with nothing pending. -/
def timeOn : State := { mk [(F.TBU_CTRL_PLL_EN, 1, 0, 0)] with tbu := { State.reset.tbu with started := true } }

theorem witness_TimebaseStartsAndTicks :
    ((mk [(F.TBU_CTRL_PLL_EN, 1, 0, 0)]).flag F.TBU_CTRL_PLL_EN = true ∧ (mk [(F.TBU_CTRL_PLL_EN, 1, 0, 0)]).tbu.started = false) ∧
    (timeOn.flag F.TBU_CTRL_PLL_EN = true ∧ timeOn.tbu.started = true) ∧
    (timeOn.tbu.switch = none ∧ timeOn.tbu.resid = 0 ∧ timeOn.tbu.snap = false ∧
      (∀ d ∈ [Dom.A, .B], (timeOn.tbu.dom d).incPend = none ∧ (timeOn.tbu.dom d).step = none ∧ (timeOn.tbu.dom d).setThisTick = false)) := by
  decide

/-- A pending increment p of domain A. -/
def incState (p : Nat) : State := { State.reset with tbu := { State.reset.tbu with a := { TbuDom.reset with incPend := some p } } }

theorem witness_IncrementsCommitOrAreRefused :
    ((incState 6870229687).tbu.dom .A).incPend = some 6870229687 ∧ 15996 * 2 ^ 32 ≤ 6870229687 * 10000 ∧ 6870229687 * 10000 ≤ 16004 * 2 ^ 32 ∧
    ((incState 6870229686).tbu.dom .A).incPend = some 6870229686 ∧ 6870229686 * 10000 < 15996 * 2 ^ 32 := by decide

/-- A step or set of domain A that is due. -/
def stepState (set_ : Bool) (a : Int) (bad : Bool) (lim : Nat) : State :=
  { mk [(F.TBU_JUMP_LIMIT_LIMIT_NS, lim, 0, 0)] with tbu := { State.reset.tbu with a := { TbuDom.reset with step := some ⟨set_, a, bad, 1⟩ } } }

theorem witness_StepsAndSetsAreRequestedTwoTicksAhead :
    (State.reset.tbu.dom .A).step = none ∧ ((stepState false 5 false 1).tbu.dom .A).step.isSome = true := by decide

theorem witness_StepsAndSetsApplyOrAreRefused :
    ((stepState false (2 ^ 32) false 1).active = .A ∧ ((2 ^ 32 : Int).natAbs : Int) ≤ ((stepState false (2 ^ 32) false 1).get F.TBU_JUMP_LIMIT_LIMIT_NS : Int) * 2 ^ 32 ∧
      (stepState false (2 ^ 32) false 1).get F.WHS_CTRL_EN = 0) ∧
    ((stepState false (2 ^ 32 + 1) false 1).get F.TBU_JUMP_LIMIT_LIMIT_NS : Int) * 2 ^ 32 < ((2 ^ 32 + 1 : Int).natAbs : Int) ∧
    ((stepState true 7 false 1).aft.tls = [] ∧ ((stepState true 7 false 1).tbu.dom .A).step = some ⟨true, 7, false, 1⟩) ∧
    (((stepState true 7 true 1).tbu.dom .A).step = some ⟨true, 7, true, 1⟩) := by decide

theorem witness_JumpLimitIsClamped :
    (0 : Word).toNat < 2 ^ 30 ∧ (0 : Word).toNat = 0 ∧ (1000000000 : Word).toNat ≤ 1000000000 ∧
    1000000000 < (1000000001 : Word).toNat ∧ (1073741823 : Word).toNat < 2 ^ 30 := by decide

/-- A switch to domain B is pending; B stands u units ahead. -/
def switchState (force : Bool) (ns : Nat) : State :=
  { State.reset with tbu := { State.reset.tbu with switch := some ⟨.B, force, 0⟩, b := { TbuDom.reset with counter := ⟨2, ns, 0⟩ } } }

theorem witness_DomainSwitchesAreContinuous :
    (State.reset.tbu.switch = none ∧ State.reset.active = .A) ∧ (switchState true 0).tbu.switch = some ⟨.B, true, 0⟩ ∧
    ((switchState false 0).tbu.switch = some ⟨.B, false, 0⟩ ∧ ((switchState false 0).get F.TBU_JUMP_LIMIT_LIMIT_NS : Int) * 2 ^ 32 <
      ((switchState false 0).activeUnits - ((switchState false 0).tbu.dom .B).counter.units).natAbs) ∧
    State.reset.tbu.resid.natAbs ≤ 68 := by decide

theorem witness_SnapshotsAndReferenceMonitor :
    (({ State.reset with tbu := { State.reset.tbu with snap := true } } : State).tbu.snap = true ∧ State.reset.tbu.a.counter.wf ∧
      State.reset.tbu.b.counter.wf) ∧ 1000 < (1001 : BitVec 16).toInt ∧ (-1001 : BitVec 16).toInt < -1000 ∧ (1000 : BitVec 16).toInt ≤ 1000 := by
  unfold Tai.wf; decide

theorem witness_PulsesPerSecondInAndOut :
    ((mk [(F.TBU_PPS_IN_CTRL_EN, 1, 0, 1)]).flag F.TBU_PPS_IN_CTRL_EN 0 1 = true ∧
      (mk [(F.TBU_PPS_IN_CTRL_EN, 1, 0, 1)]).flag F.TBU_PPS_IN_CTRL_EDGE 0 1 = false ∧
      Tab.find (mk [(F.TBU_PPS_IN_CTRL_EN, 1, 0, 1)]).tbu.ppsLast 1 = none) ∧
    (Tab.find ({ mk [] with tbu := { State.reset.tbu with ppsLast := [(1, 0)] } } : State).tbu.ppsLast 1 = some 0 ∧
      0 * 128 + 25 * 5 < 0 + 72000000000) ∧
    ((mk [(F.TBU_PPS_OUT_CTRL_EN, 1, 0, 0), (F.TBU_PPS_OUT_CTRL_WIDTH_US, 500000, 0, 0)]).flag F.TBU_PPS_OUT_CTRL_EN 0 0 = true ∧
      (mk [(F.TBU_PPS_OUT_CTRL_EN, 1, 0, 0), (F.TBU_PPS_OUT_CTRL_WIDTH_US, 500000, 0, 0)]).get F.TBU_PPS_OUT_CTRL_WIDTH_US 0 0 = 500000) ∧
    (mk [(F.TBU_CLK10M_CTRL_EN, 1, 0, 0)]).flag F.TBU_CLK10M_CTRL_EN = true ∧
    ((mk [(F.SQ_CTRL_EN, 1, 0, 0)]).flag F.SQ_CTRL_EN = true ∧ 15 ∉ (mk [(F.SQ_CTRL_EN, 1, 0, 0)]).pins.xoffParked) := by decide
/-! ### Timelines and whistles -/

/-- An NR timeline of 15 kHz, ideal offset 0. -/
def tl0 : Timeline := ⟨⟨0, 0, false, false, false, 0, 0, 0, 1, 0, 0, 0⟩, none, 0, none⟩

/-- The reset state with timeline 0 enabled and some fields put. -/
def tlState (t : Timeline) (l : List (Fld × Nat × Nat × Nat)) : State :=
  { mk l with aft := { State.reset.aft with tls := [(0, t)] } }

theorem witness_TimelinesEnableDisableOrRefuse :
    (∃ s : State, let e := tlEntry (s.tlWords 255); s.tlOn 255 = false ∧ (numerology e.std e.mu e.ecp e.nb3k75).isSome = true ∧
      -160000000 ≤ e.offset ∧ e.offset = 160000000 ∧ e.tddEn = false ∧ e.streamCount ≤ 512 ∧ e.streamBase + e.streamCount ≤ 4096 ∧
      s.flag F.TBU_D_STATUS_TIME_VALID 0 (domIdx s.active) = true) ∧
    (∃ s : State, s.tlOn 0 = true) ∧
    (∃ s : State, let e := tlEntry (s.tlWords 0); s.tlOn 0 = false ∧ numerology e.std e.mu e.ecp e.nb3k75 = none) ∧
    (∃ s : State, let e := tlEntry (s.tlWords 0); s.tlOn 0 = false ∧ (numerology e.std e.mu e.ecp e.nb3k75).isSome = true ∧ e.offset = 160000001) ∧
    (∃ s : State, let e := tlEntry (s.tlWords 0); s.tlOn 0 = false ∧ (numerology e.std e.mu e.ecp e.nb3k75).isSome = true ∧
      -160000000 ≤ e.offset ∧ e.offset ≤ 160000000 ∧ e.tddEn = false ∧ e.streamCount ≤ 512 ∧ e.streamBase + e.streamCount ≤ 4096 ∧
      s.flag F.TBU_D_STATUS_TIME_VALID 0 (domIdx s.active) = false) :=
  ⟨⟨(mk [(F.TBU_D_STATUS_TIME_VALID, 1, 0, 0)]).setWord (sramBase + 32 * 255 + 4) 160000000, by decide⟩, ⟨tlState tl0 [], by decide⟩,
   ⟨State.reset.setWord sramBase 0x20, by decide⟩, ⟨State.reset.setWord (sramBase + 4) 160000001, by decide⟩, ⟨State.reset, by decide⟩⟩

theorem witness_TddPatternsAndSlotBoundaries :
    (∃ s : State, s.tl 0 = some tl0 ∧ tl0.ent.num.lenBad (s.get F.AFT_TL_CMD_ARG_PATTERN_LEN) = false ∧
      s.codeBad tl0.ent.num (s.get F.AFT_TL_CMD_ARG_TDD_PTR) (s.get F.AFT_TL_CMD_ARG_PATTERN_LEN) = false) ∧
    (∃ s : State, s.tl 0 = some tl0 ∧ tl0.ent.num.lenBad (s.get F.AFT_TL_CMD_ARG_PATTERN_LEN) = true) ∧
    (∃ s : State, s.tl 0 = some { tl0 with pend := some (-320000000000, 1, 1) } ∧ -320000000000 ≤ (s.coordNow { tl0 with pend := some (-320000000000, 1, 1) }).slot) ∧
    (∃ s : State, s.tl 0 = some tl0 ∧ tl0.slot.map (·.slot) ≠ some (s.coordNow tl0).slot) :=
  ⟨⟨tlState tl0 [(F.AFT_TL_CMD_ARG_PATTERN_LEN, 20, 0, 0)], by decide⟩, ⟨tlState tl0 [(F.AFT_TL_CMD_ARG_PATTERN_LEN, 161, 0, 0)], by decide⟩,
   ⟨tlState { tl0 with pend := some (-320000000000, 1, 1) } [], by decide⟩, ⟨tlState tl0 [], by decide⟩⟩

/-- A channel of timeline 0 armed for one occurrence at symbol 0. -/
def armedCh : WhsCh := ⟨true, 0, 0, 0, ⟨0, 0, 0, 0, 0, 0⟩, none, none, false⟩

/-- Timeline 0 with channel 0 armed, ns nanoseconds after its symbol 0. -/
def armedState (ns : Nat) : State :=
  { State.reset with
    tbu := { State.reset.tbu with a := { TbuDom.reset with counter := ⟨315964819, ns, 0⟩ } }
    aft := { State.reset.aft with tls := [(0, tl0)], channels := [(0, armedCh)] } }

theorem witness_WhistlesArmFromTheirEntries :
    (∃ s : State, let w (i : Nat) : Nat := s.word (s.whsAddr 1023 + 4 * i)
      natBits (w 0) 2 5 = 11 ∧ s.tl (natBits (w 0) 8 8) = some tl0 ∧ tl0.coordOk (w 1) = true ∧ (w 0).testBit 1 = false ∧
      s.whs 1023 = none ∧ s.get F.WHS_CTRL_EN = 0) ∧
    (∃ s : State, natBits (s.word (s.whsAddr 0)) 2 5 = 12) ∧
    (∃ s : State, natBits (s.word (s.whsAddr 0)) 2 5 = 0 ∧ s.tl (natBits (s.word (s.whsAddr 0)) 8 8) = none) ∧
    (∃ s : State, s.tl 0 = some tl0 ∧ natBits (s.word (s.whsAddr 0)) 8 8 = 0 ∧ tl0.coordOk (s.word (s.whsAddr 0 + 4)) = false) ∧
    (∃ s : State, s.tl 0 = some tl0 ∧ tl0.coordOk (s.word (s.whsAddr 0 + 4)) = true ∧ (s.word (s.whsAddr 0)).testBit 1 = true ∧
      natBits (s.word (s.whsAddr 0 + 12)) 0 16 = 0) ∧
    (∃ s : State, s.whs 0 = some armedCh) ∧ (State.reset.aft.channels = [] ∧ State.reset.aft.pins = []) ∧
    (∃ s : State, s.aft.channels = [(0, armedCh)] ∧ s.aft.pins = [] ∧ s.tl armedCh.sched.tl = some tl0 ∧ armedCh.armed = true ∧
      s.flag F.WHS_CTRL_EN = false ∧ s.mem.wf = true ∧ (s.judgeSched armedCh.sched tl0 armedCh.last).fire.isSome = true ∧
      armedCh.sched.period = 0 ∧ (s.judgeSched armedCh.sched tl0 armedCh.last).missed = []) :=
  ⟨⟨(tlState tl0 []).setWord (sramBase + 32 * 1023) (11 * 4), by decide⟩, ⟨State.reset.setWord sramBase (12 * 4), by decide⟩,
   ⟨State.reset, by decide⟩, ⟨(tlState tl0 []).setWord (sramBase + 4) 0xFFFFFFFF, by decide⟩, ⟨(tlState tl0 []).setWord sramBase 2, by decide⟩,
   ⟨armedState 1, by decide⟩, by decide, ⟨armedState 1000, by decide⟩⟩

/-- A channel of timeline 0 whose firing is due. -/
def dueCh (action arg0 arg1 : Nat) : WhsCh := ⟨false, action, arg0, arg1, ⟨0, 0, 0, 0, 0, 0⟩, none, some (0, 0), false⟩

/-- Channel 0 fires its action in this tick, after n firings. -/
def dueState (action arg0 arg1 n : Nat) : State :=
  { mk [(F.WHS_CTRL_EN, 1, 0, 0), (F.GDX_CTRL_EN, 1, 0, 0)] with
    aft := { State.reset.aft with tls := [(0, tl0)], channels := [(0, dueCh action arg0 arg1)], delivered := n } }

theorem witness_WhistlesFireAtMostFourInATick :
    ((dueState 0 0 0 3).whsReady 0 0 = some (dueCh 0 0 0, tl0, 0) ∧ (dueState 0 0 0 3).mem.wf = true) ∧
    (dueState 10 0 0 0).whsReady 0 10 = some (dueCh 10 0 0, tl0, 0) ∧
    ((dueState 8 0 0 0).whsReady 0 8 = some (dueCh 8 0 0, tl0, 0) ∧ tl0.ent.tddEn = false) ∧
    ((dueState 9 0 0 0).whsReady 0 9 = some (dueCh 9 0 0, tl0, 0)) ∧
    ((dueState 0 0 0 4).whs 0 = some (dueCh 0 0 0) ∧ (dueState 0 0 0 4).whsDue (dueCh 0 0 0) = some (0, 0) ∧
      (dueState 0 0 0 4).tl 0 = some tl0 ∧ 4 ≤ (dueState 0 0 0 4).aft.delivered ∧ (dueCh 0 0 0).spilled = false) := by decide

/-- A pin whistle of timeline 0. -/
def pin0 (period : Nat) : WhsPinSt := ⟨true, ⟨0, 0, 0, 0, period, 0⟩, 1, none, some 0, .active⟩

/-- Pin 63 under a pulse. -/
def pinState (period : Nat) : State :=
  { mk [(F.WHS_CTRL_EN, 1, 0, 0), (F.WHS_PIN_CTRL_EN, 1, 0, 63)] with aft := { State.reset.aft with pins := [(63, pin0 period)] } }

theorem witness_PinWhistlesPulse :
    (let s := tlState tl0 []
     s.flag F.WHS_PIN_CTRL_EN 0 63 = false ∧ s.get F.WHS_CTRL_EN = 0 ∧ s.flag F.WHS_PIN_CTRL_PERIODIC 0 63 = false ∧
      s.tl (s.get F.WHS_PIN_CTRL_TL 0 63) = some tl0 ∧ tl0.coordOk (s.get F.WHS_PIN_COORD_COORD 0 63) = true ∧ s.pin 63 = none) ∧
    (State.reset.flag F.WHS_PIN_CTRL_EN 0 0 = false ∧ State.reset.tl (State.reset.get F.WHS_PIN_CTRL_TL 0 0) = none) ∧
    ((pinState 0).pin 63 = some (pin0 0) ∧ (pinState 0).flag F.WHS_CTRL_EN = true ∧ (pin0 0).due.isSome = true ∧ (pin0 0).drive = .active ∧
      (pin0 0).sched.period = 0) ∧
    ((pinState 1).pin 63 = some (pin0 1) ∧ (pin0 1).sched.period ≠ 0 ∧ (pinState 1).flag F.WHS_PIN_CTRL_EN 0 63 = true) := by decide

/-! ### Whistles that drive other blocks, the dispatcher -/

/-- A node of class c with one input port, no output and no flow. -/
def rec1 (c : Nat) (replayable : Bool) : NodeRec := ⟨c, 0, false, replayable, false, 1, 0, 0, 0, 1, 0, [0x4000], [], false, []⟩

/-- Template 7 with one node and one binding. -/
def tpl1 (r : NodeRec) (b : Nat × Nat) : Template := ⟨7, 1, false, 0, 0, 0, 0, [r], [b]⟩

/-- An instance of a template on timeline 0, slot 0. -/
def inst1 (g : Template) : SlotInst := ⟨g, 0, 0, 0, 0, [], 0, 0, false, false, false, false, none, none, 0, 0, 0, 0, 0, 0, 0⟩

/-- Its node instance. -/
def node1 (st : NodeState) (toks : List (Option Token)) (runs : List Run) (outs : List Token) : NodeInst :=
  ⟨0, 0, st, toks, none, runs, outs, 0, [], false, false, 0, 0, false⟩

/-- A dispatcher with template g installed and, where given, one live node instance, in state s. -/
def gdxIn (g : Template) (x : Option NodeInst) (s : State) : State :=
  { s with gdx := { s.gdx with templates := [(7, ⟨some g, false⟩)], insts := if x.isSome then [(0, inst1 g)] else [], nodes := (x.map (fun z => (0, z))).toList } }

/-- A REFILL whistle with an operation, for pool 1,023. -/
def refillState (op : Nat) : State := dueState 3 1023 (op * 2 ^ 30 + (2 ^ 30 - 1)) 0

theorem witness_WhistlesDriveTheDispatcher :
    (let g := tpl1 (rec1 1 true) (0, 0)
     let s := gdxIn g none (dueState 1 7 0 0)
     s.whsReady 0 1 = some (dueCh 1 7 0, tl0, 0) ∧ (s.gdx.insts = [] ∧ s.gdx.nodes = [] ∧ s.gdx.held = [] ∧ s.gdx.lastCancel.2 = []) ∧
      s.flag F.GDX_CTRL_EN = true ∧ s.tplCur ((dueCh 1 7 0).arg0 % 4096) = some g ∧ s.tplBlocked ((dueCh 1 7 0).arg0 % 4096) = false ∧
      g.nodes ≠ [] ∧ g.nodes.length ≤ 65536 ∧ (∀ r ∈ g.nodes, 1 ≤ r.nIn)) ∧
    (let g := tpl1 (rec1 1 true) (0, 0)
     let z := node1 .waiting [none] [] []
     let s := gdxIn g (some z) (dueState 2 7 0 0)
     s.whsReady 0 2 = some (dueCh 2 7 0, tl0, 0) ∧
      (s.gdx.insts = [(0, inst1 g)] ∧ s.gdx.nodes = [(0, z)] ∧ z.inst = 0 ∧ s.gdx.lastCancel.2 = []) ∧
      (z.st = .waiting ∧ z.tokens.all (·.isNone) = true ∧ z.outs = [] ∧ z.runs = [] ∧ z.flow = none ∧ z.poisonReplay = false) ∧
      (inst1 g).cancelled = false ∧ (inst1 g).tpl.id = (dueCh 2 7 0).arg0 % 4096 ∧ (inst1 g).tl = (dueCh 2 7 0).sched.tl ∧
      (inst1 g).slotWord = slotId (tl0.slotWord (tl0.slotOf 0))) ∧
    (∀ op ∈ [0, 1, 2, 3], (refillState op).whsReady 0 3 = some (dueCh 3 1023 (op * 2 ^ 30 + (2 ^ 30 - 1)), tl0, 0) ∧
      ((refillState op).gdx.insts = [] ∧ (refillState op).gdx.nodes = [] ∧ (refillState op).gdx.held = [] ∧
        (refillState op).gdx.lastCancel.2 = []) ∧ ((refillState op).pool (1023 % 1024)).wait = [] ∧
      (op * 2 ^ 30 + (2 ^ 30 - 1)) / 2 ^ 30 % 4 = op) := by decide

/-- A whistle on the coupler port of its argument, the port UP. -/
def convState (a : Nat) : State := mk [(F.CPL_PORT_STATUS_STATE, 2, 15, 0)] (dueState a 15 0 0)

/-- Port 15 in QUIET while an armed whistle names it. -/
def quietState : State :=
  { mk [(F.CPL_PORT_STATUS_STATE, 2, 15, 0), (F.PWR_DOM_STATE_STATE, 3, 0, 111)] with
    aft := { State.reset.aft with channels := [(0, { dueCh 4 15 0 with armed := true })] } }

/-- A GAP_OPEN whistle that names port 15. -/
def gapState : State := mk [(F.CPL_PORT_STATUS_STATE, 2, 15, 0), (F.CPL_PORT_PARTNER_AGREED_MINOR, 1, 15, 0)] (dueState 6 0x8000 0 0)

/-- A GAP_CLOSE whistle that names port 15, in its gap. -/
def inGapState : State := { dueState 7 0x8000 0 0 with cpl := [(15, { CplPort.reset with gap := .begun, gapOwn := true })] }

/-- A POWER whistle that asks cluster 23 for a state, from RUN. -/
def trimState (g : Nat) : State := mk [(F.PWR_DOM_POLICY_DEEPEST, 2, 0, 23), (F.PWR_DOM_POLICY_MIN_DWELL_US, 0, 0, 23)] (dueState 11 23 g 0)

/-- A POWER whistle that asks cluster 23 for RUN, from DOZE. -/
def dozeState : State := mk [(F.PWR_DOM_STATE_STATE, 2, 0, 23)] (dueState 11 23 0 0)

theorem witness_WhistlesDriveCouplersAndPower :
    (∀ a ∈ [4, 5], (convState a).whsReady 0 a = some (dueCh a 15 0, tl0, 0) ∧ (convState a).cplUp (15 % 16) = true ∧
      (convState a).domState (96 + 15 % 16) = 0) ∧
    (quietState.cplUp 15 = true ∧ quietState.domState 111 = 3 ∧ quietState.convArmed 15 = true ∧ State.reset.cplUp 0 = false) ∧
    (maskPorts 0x8000 = [15] ∧ gapState.whsReady 0 6 = some (dueCh 6 0x8000 0, tl0, 0) ∧ gapState.cplUp 15 = true ∧
      1 ≤ gapState.cplMinor 15 ∧ gapState.cplGap 15 = false ∧ (dueState 6 0x8000 0 0).cplUp 15 = false) ∧
    (inGapState.whsReady 0 7 = some (dueCh 7 0x8000 0, tl0, 0) ∧ inGapState.cplGap 15 = true ∧ (inGapState.cplPort 15).rtts = [] ∧
      (inGapState.cplPort 15).delayDue = false ∧ inGapState.flag F.PWR_DOM_STATE_PENDING_VALID 0 111 = false ∧
      inGapState.flag F.PWR_DOM_STATE_PENDING_VALID 0 127 = false) ∧
    (∀ g ∈ [1, 2], (trimState g).whsReady 0 11 = some (dueCh 11 23 g, tl0, 0) ∧ 23 % 256 < 24 ∧ (trimState g).domMoving 23 = false ∧
      g % 8 = g ∧ (trimState g).domState 23 = 0 ∧ g ≤ (trimState g).get F.PWR_DOM_POLICY_DEEPEST 0 23 ∧ (trimState g).pwrDwelt 23 = true) ∧
    (dozeState.whsReady 0 11 = some (dueCh 11 23 0, tl0, 0) ∧ dozeState.domState 23 = 2 ∧ dozeState.domMoving 23 = false) :=
  ⟨by decide, by decide, by decide, by decide, by decide, by decide⟩
/-- Word k of a list at an address. -/
def putWords (s : State) (a : Nat) (ws : List Nat) : State := (ws.zipIdx.foldl (fun s x => s.setWord (a + 4 * x.2) x.1) s)

/-- A graph image with one template of one node and one binding (Tables 4-1 to 4-5), in system SRAM. -/
def image : List Nat :=
  [0x4758494D, 2 * 2 ^ 16, 1, 136, 2251023544, 24, 32, 104] ++
  [7, 1 + 2 ^ 16, 0, 0, 0, 0, 0, 0] ++ [1 + 2 ^ 12, 0, 1, 128, 0x4000] ++ List.replicate 11 0 ++ [0, 31]

/-- The device with the image. -/
def imageState : State := putWords (mk [(F.GDX_TPL_ADDR_LO_ADDR, sramBase, 0, 0)]) sramBase image

set_option maxRecDepth 20000 in
theorem witness_TemplatesInstallWholeOrNotAtAll :
    (imageState.get F.GDX_TPL_ADDR_LO_ADDR + imageState.get F.GDX_TPL_ADDR_HI_ADDR * 2 ^ 32 = sramBase ∧
      imageState.imageCause sramBase 136 = 0 ∧
      (imageState.checkTpls sramBase (natBits (imageState.word (sramBase + 4)) 0 16) (natBits (imageState.word (sramBase + 8)) 0 13) 0 []).isRight = true) ∧
    State.reset.word (State.reset.get F.GDX_TPL_ADDR_LO_ADDR + State.reset.get F.GDX_TPL_ADDR_HI_ADDR * 2 ^ 32) ≠ 0x4758494D := by decide +kernel

/-- Template 7 with one node of class 1 that reads queue or ring id (kind k). -/
def tplIn (k id : Nat) : Template := tpl1 (rec1 1 true) (k + id * 2 ^ 16, 31)

/-- The dispatcher enabled, template 7 installed, timeline 0 enabled. -/
def createState (blocked : Bool) : State :=
  { tlState tl0 [(F.GDX_CTRL_EN, 1, 0, 0)] with gdx := { Gdx.reset with templates := [(7, ⟨some (tplIn 0 0), blocked⟩)] } }

/-- A node instance that waits for its one input. -/
def waitingNode : NodeInst := node1 .waiting [none] [] []

theorem witness_InstancesAreCreatedAndCancelledByTheRegisters :
    ((createState false).GdxEmpty ∧ (createState false).flag F.GDX_CTRL_EN = true ∧ (createState false).tplCur 7 = some (tplIn 0 0) ∧
      (createState false).tplBlocked 7 = false ∧ (createState false).tl 0 = some tl0 ∧ (tplIn 0 0).nodes ≠ [] ∧
      (tplIn 0 0).nodes.length ≤ 65536 ∧ (∀ r ∈ (tplIn 0 0).nodes, 1 ≤ r.nIn)) ∧
    ((createState false).tplCur 6 = none ∧ (createState true).GdxEmpty ∧ (createState true).tplBlocked 7 = true) ∧
    ((gdxIn (tplIn 0 0) (some waitingNode) State.reset).GdxAlone 0 (inst1 (tplIn 0 0)) 0 waitingNode ∧ waitingNode.Bare ∧
      (inst1 (tplIn 0 0)).cancelled = false) ∧
    State.reset.GdxEmpty := by
  unfold State.GdxEmpty State.GdxAlone NodeInst.Bare
  exact ⟨by decide, by decide, by decide, by decide⟩

/-- A token on its way to the waiting node instance. -/
def flying (stale : Bool) : InFlight := ⟨0, 0, ⟨0x10001000, 62, false, 4, 0, 0, .none⟩, stale⟩

/-- The waiting node instance and a token on its way, with 2 KB of credit. -/
def flyState (stale : Bool) (s : State) : State :=
  let t := gdxIn (tplIn 0 0) (some waitingNode) s
  { t with gdx := { t.gdx with inflight := [flying stale], pools := [(0, ⟨2, []⟩)] } }

/-- An item that lies at the head of a queue or ring of timeline 0, slot 0. -/
def item0 : QItem := ⟨0, false, false, 0, 0, 0, 0, 0x40000000, 62, 64, 0, 0, 0, [], false, false⟩
def queue0 : Queue := ⟨⟨true, 0, 0, 0, 32, 0, 4, 1, 4, 0, 0x10002000, 0x40000000, 64, 0, false, false, 0, 0⟩, [item0], 1, 0, 0, 0⟩
def ringItem0 : RingItem := ⟨0, false, none, false, 0x40000000, [1, 0, 0, 64, 0, 0, 0, 0]⟩
def ring0 : Ring := ⟨0, false, .control, false, 0x40001000, 4, 0, 0, 63, 0, 0, none, false, 0, 0, [ringItem0], 1⟩

/-- The waiting node instance reads queue 1,023, which holds an item. -/
def queueState (g : Template) : State :=
  { gdxIn g (some waitingNode) (mk [(F.SQ_CTRL_EN, 1, 0, 0)]) with sq := ⟨[(1023, queue0)], []⟩ }

/-- The waiting node instance reads ring 511, which holds an item. -/
def ringState : State :=
  { gdxIn (tplIn 1 511) (some waitingNode) (mk [(F.MBX_RING_TAIL_TAIL, 1, 0, 511)]) with host := { HostIf.reset with rings := [(511, ring0)] } }

theorem witness_TokensReachTheirPorts :
    ((flyState false State.reset).gdx.inflight = [flying false] ∧ (flyState false State.reset).node 0 = some waitingNode ∧
      (flyState false State.reset).inst waitingNode.inst = some (inst1 (tplIn 0 0)) ∧ (inst1 (tplIn 0 0)).cancelled = false ∧
      waitingNode.st = .waiting ∧ 0 < waitingNode.tokens.length ∧ waitingNode.tokens.getD 0 none = none ∧
      ((inst1 (tplIn 0 0)).tpl.node waitingNode.node).flowMode ≠ 3 ∧ (flyState false State.reset).gdx.lastCancel.2 = []) ∧
    (flyState false State.reset).GdxStill ∧
    (let s := flyState false (mk [(F.GDX_CTRL_EN, 1, 0, 0)])
     s.flag F.GDX_CTRL_EN = true ∧ s.gdx.nodes = [(0, waitingNode)] ∧ s.gdx.insts = [(waitingNode.inst, inst1 (tplIn 0 0))] ∧
      waitingNode.missing = [0] ∧ ((inst1 (tplIn 0 0)).tpl.node waitingNode.node).level < 8 ∧
      (s.pool ((tplIn 0 0).poolOf 0)).wait = [] ∧ ((tplIn 0 0).node 0).debit ≤ (s.pool ((tplIn 0 0).poolOf 0)).bal) ∧
    ((flyState true State.reset).gdx.inflight = [flying true] ∧ (flying true).token.ext = .none ∧ 62 ≤ (flying true).token.pool ∧
      (flyState true State.reset).GdxStill ∧ (flyState true State.reset).gdx.lastCancel.2 = []) ∧
    (let s := queueState (tplIn 0 1023)
     s.queue 1023 = some queue0 ∧ s.queueHead 1023 = some item0 ∧ queue0.ent.consumer = 0 ∧ item0.gap = false ∧ s.gdx.lastCancel.2 = [] ∧
      s.GdxStill) ∧
    (let s := queueState (tplIn 0 1023)
     s.boundTpl 0 1023 = some (tplIn 0 1023, 1023 * 2 ^ 16, 31) ∧ s.instOf (tplIn 0 1023).id queue0.ent.tl item0.slot = some 0 ∧
      s.inst 0 = some (inst1 (tplIn 0 1023)) ∧ s.itemPort 0 (inst1 (tplIn 0 1023)) 0 1023 item0.symbol = some (0, 0) ∧
      s.node 0 = some waitingNode) ∧
    ((queueState (tplIn 0 1022)).boundTpl 0 1023 = none ∧ (queueState (tplIn 0 1022)).queueHead 1023 = some item0) ∧
    (ringState.ring 511 = some ring0 ∧ ring0.head = some ringItem0 ∧ ringState.boundTpl 1 511 = some (tplIn 1 511, 1 + 511 * 2 ^ 16, 31) ∧
      (1 + 511 * 2 ^ 16).testBit 3 = false ∧ ringState.GdxStill) ∧
    (ringState.instOf (tplIn 1 511).id ring0.tl (ringItem0.words.getD 1 0) = some 0 ∧ ringState.inst 0 = some (inst1 (tplIn 1 511)) ∧
      ringState.itemPort 0 (inst1 (tplIn 1 511)) 1 511 (natBits (ringItem0.words.getD 2 0) 0 5) = some (0, 0) ∧
      ringState.node 0 = some waitingNode) := by
  unfold State.GdxStill
  exact ⟨by decide, by decide, by decide, by decide, by decide, by decide, by decide, by decide, by decide⟩

/-- A ready node instance of class c with one output port of pool 5, EN = 1 and a buffer there. -/
def readyState (c : Nat) : State :=
  let r : NodeRec := { rec1 c true with nOut := 1, outs := [5 + 0xFFF * 2 ^ 8] }
  putWords (gdxIn (tpl1 r (0, 31)) (some (node1 .ready [some ⟨0x10001000, 62, false, 4, 0, 0, .none⟩] [] [])) (mk [(F.GDX_CTRL_EN, 1, 0, 0)]))
    (sramBase + 32 * 5) [0x1000, 0x40, 0x100, 1, 0, 1, 1, 0]

/-- The record and the node instance of readyState. -/
def readyRec (c : Nat) : NodeRec := { rec1 c true with nOut := 1, outs := [5 + 0xFFF * 2 ^ 8] }
def readyNode : NodeInst := node1 .ready [some ⟨0x10001000, 62, false, 4, 0, 0, .none⟩] [] []

theorem witness_ReadyNodesAreDispatchedToChosenExecutors :
    (∀ c ∈ [1, 9, 0], (readyState c).flag F.GDX_CTRL_EN = true ∧ (readyState c).readyOrder c = [(0, readyNode)] ∧
      (readyState c).node 0 = some readyNode ∧ (readyState c).inst readyNode.inst = some (inst1 (tpl1 (readyRec c) (0, 31))) ∧
      (readyRec c).cls = c ∧ (readyRec c).paired = false ∧ readyNode.tie = false ∧ readyNode.poisonReplay = false ∧ ¬ 2 ≤ (readyRec c).level ∧
      (readyState c).choose (readyRec c) readyNode ((readyState c).candidates (readyRec c) readyNode []) =
        some (if c = 1 then 193 else if c = 9 then 337 else 1, true) ∧
      (readyState c).poolsHave (readyRec c) 1 = true) ∧
    ((readyState 0).vscInst 1 = some 1) ∧
    State.reset.flag F.GDX_CTRL_EN = false := by decide +kernel
/-- A running node instance whose executor e has reported code, with or without replay. -/
def reportState (e code : Nat) (replayable : Bool) : State :=
  let t := gdxIn (tpl1 (rec1 (execClass e) replayable) (0, 31)) (some (node1 .running [none] [⟨.first, e, [], none⟩] []))
    (mk [(F.GDX_CFG_REPLAY_MAX, 1, 0, 0)])
  { t with gdx := { t.gdx with execs := [(e, ⟨some 0, some ⟨code, 0, 0, []⟩, false, 0⟩)] } }

/-- A completed node instance of flow 3 that stands behind another and holds executor 192. -/
def stallState : State :=
  let t := gdxIn (tpl1 (rec1 1 true) (0, 31)) (some { node1 (.completed (some 192)) [none] [] [] with flow := some 3 }) State.reset
  { t with gdx := { t.gdx with flows := [(3, [1, 0])], execs := [(192, ⟨some 0, none, false, 0⟩)] } }

/-- A node instance held by ring 511, which is detached. -/
def sinkState : State :=
  let r : NodeRec := { rec1 1 true with nOut := 1, outs := [62] }
  { gdxIn (tpl1 r (2 + 511 * 2 ^ 16, 0)) (some (node1 (.sinkHold 511) [none] [] [⟨0x40000000, 62, false, 4, 0, 0, .none⟩]))
      (mk [(F.MBX_RING_STATUS_DETACHED, 1, 0, 511)]) with
    host := { HostIf.reset with rings := [(511, { ring0 with out := true, items := [] })] } }

theorem witness_CompletionsReleaseReplayOrFail :
    (∀ q ∈ [(0, true), (2, true), (6, false)], ∀ e ∈ [192, 351],
      (reportState e q.1 q.2).GdxAlone 0 (inst1 (tpl1 (rec1 (execClass e) q.2) (0, 31))) 0 (node1 .running [none] [⟨.first, e, [], none⟩] []) ∧
      ((reportState e q.1 q.2).exec e).node = some 0 ∧ ((reportState e q.1 q.2).exec e).done = some ⟨q.1, 0, 0, []⟩ ∧ execClass e ≠ 0 ∧
      (rec1 (execClass e) q.2).replayable = q.2 ∧ (rec1 (execClass e) q.2).level ≤ 1 ∧ 0 < (reportState e q.1 q.2).get F.GDX_CFG_REPLAY_MAX) ∧
    ((stallState.exec 192).node = some 0 ∧ stallState.node 0 = some { node1 (.completed (some 192)) [none] [] [] with flow := some 3 } ∧
      stallState.gdx.relbuf < 8192 ∧ stallState.atHead { node1 (.completed (some 192)) [none] [] [] with flow := some 3 } 0 = false ∧
      stallState.GdxStill) ∧
    (let g := tpl1 { rec1 1 true with nOut := 1, outs := [62] } (2 + 511 * 2 ^ 16, 0)
     let x := node1 (.sinkHold 511) [none] [] [⟨0x40000000, 62, false, 4, 0, 0, .none⟩]
     sinkState.GdxAlone 0 (inst1 g) 0 x ∧ ((inst1 g).tpl.node x.node).nOut = 1 ∧
      (inst1 g).tpl.sink (((inst1 g).tpl.node x.node).outs.getD 0 0) = some (2 + 511 * 2 ^ 16, 0) ∧ natBits (2 + 511 * 2 ^ 16) 0 3 = 2 ∧
      natBits (2 + 511 * 2 ^ 16) 16 16 = 511 ∧ (sinkState.ring 511).isSome = true ∧ sinkState.ringDetached 511 = true) := by
  unfold State.GdxAlone State.GdxStill
  exact ⟨by decide +kernel, by decide, by decide⟩

/-- Telemetry goes to output ring 511, which has room or not. -/
def telemState (tail : Nat) : State :=
  { mk [(F.GDX_TELEM_WR_WR, 1, 0, 0), (F.GDX_TELEM_SIZE_SIZE, 4, 0, 0), (F.MBX_RING_TAIL_TAIL, tail, 0, 511)] with
    host := { HostIf.reset with telemRing := some 511, rings := [(511, { ring0 with out := true, inHost := true, items := [] })] } }

theorem witness_ReservesSnapshotsAndTelemetry :
    ((191 : Word).toNat % 256 < classActive 0 ∧ classActive 0 ≤ (192 : Word).toNat % 256 ∧ (7 : Word).toNat % 256 < classActive 8 ∧
      classActive 8 ≤ (8 : Word).toNat % 256) ∧
    (∀ n ∈ [3, 4], (telemState n).host.telemRing = some 511 ∧ ((telemState n).ring 511).isSome = true ∧ (telemState n).ringDetached 511 = false ∧
      (telemState n).get F.GDX_TELEM_WR_WR ≠ (telemState n).get F.GDX_TELEM_RD_RD ∧ (telemState n).get F.GDX_TELEM_SIZE_SIZE ≠ 0 ∧
      (telemState n).ringHasRoom 511 = decide (n = 3) ∧ (((telemState n).ring 511).map (·.inHost)) = some true) ∧
    State.reset.host.telemRing = none := by decide

/-! ### Cores, coprocessors, engines -/

/-- A run on VSC instance k of a preloaded kernel at 0x10010000, with a return address and a loop count. -/
def run1 (k : Nat) : VscCore :=
  ⟨k, 9, ⟨1, 0, 0, false, false, true, 0x10010000, 4096, 0⟩, 16, [(1, 0xFFFFFFFF), (2, 2)], [(3, 0x20000010 + vscCluster k * 0x1000000)], [], [], [(4, 1)],
    [], [], [(2, (2, 1))], 0, 0, 0, 0, [64], 0, none, none⟩

/-- Core k runs, and the words of its next bundle lie at its pc. -/
def coreState (k : Nat) (ws : List Nat) (l : List (Fld × Nat × Nat × Nat)) : State :=
  let t := putWords (mk l) 0x10010010 ws
  { t with exu := { t.exu with vsc := [(k, run1 k)] } }

/-- The header word of a bundle (Table 5-2). -/
def bhead (slots ctl csel target : Nat) : Nat := slots + ctl * 2 ^ 6 + csel * 2 ^ 10 + target * 2 ^ 13

/-- A scalar operation word: D = 5, A = 1, B = 2 (Table 5-3). -/
def sword (opc : Nat) : Nat := opc * 2 ^ 25 + 5 * 2 ^ 16 + 1 * 2 ^ 11 + 2 * 2 ^ 6

/-- Decidable copies of the terms Issues and Unbound for the run of core k. -/
def issuesB (s : State) (k : Nat) : Bool :=
  decide (s.core k = some (run1 k)) && decide ((run1 k).ending = none) && decide (s.domState (vscCluster k) ≤ 1) && !s.dbgHalted k &&
  decide (s.missing k (run1 k) = []) && (s.bundleAt ((run1 k).kernel.code + (run1 k).pc)).legal (run1 k) &&
  !s.mxStalls k (run1 k) (s.bundleAt ((run1 k).kernel.code + (run1 k).pc)) && decide ((run1 k).inj = 0)

theorem issues_of_issuesB {s : State} {k : Nat} (h : issuesB s k = true) :
    s.Issues k (run1 k) (s.bundleAt ((run1 k).kernel.code + (run1 k).pc)) := by
  simp only [issuesB, Bool.and_eq_true, decide_eq_true_eq, Bool.not_eq_true'] at h
  obtain ⟨⟨⟨⟨⟨⟨⟨h1, h2⟩, h3⟩, h4⟩, h5⟩, h6⟩, h7⟩, h8⟩ := h
  exact ⟨h1, h2, h3, h4, h5, rfl, h6, h7, h8⟩

theorem witness_BundlesComputeAndBranch :
    (∀ k ∈ [0, 191, 215], ∀ opc ∈ [1, 2, 3, 4, 5, 9],
      let s := coreState k [bhead 1 0 0 0, sword opc] []
      issuesB s k = true ∧ s.bundleAt 0x10010010 = ⟨0, 0, 0, [vop 0 (sword opc)]⟩ ∧ (vop 0 (sword opc)).slot < 2 ∧
      (vop 0 (sword opc)).pen = false ∧ (vop 0 (sword opc)).opc = opc) ∧
    (∀ ctl ∈ [1, 2, 3, 4, 5], issuesB (coreState 0 [bhead 0 ctl 2 (2 ^ 19 - 1)] []) 0 = true ∧
      (coreState 0 [bhead 0 ctl 2 (2 ^ 19 - 1)] []).bundleAt 0x10010010 = ⟨ctl, 2, 2 ^ 19 - 1, []⟩) ∧
    (run1 0).stack.length < 8 ∧ (run1 0).stack = [64] ∧ Tab.get (0, 0) (run1 0).lc 2 = (2, 1) ∧
    (∀ k ∈ [0, 215], issuesB (coreState k [bhead 0 7 0 0] []) k = true ∧ (coreState k [bhead 0 7 0 0] []).bundleAt 0x10010010 = ⟨7, 0, 0, []⟩ ∧
      (coreState k [bhead 0 7 0 0] []).Unbound k (run1 k)) := by
  unfold State.Unbound
  exact ⟨by decide, by decide, by decide, by decide, by decide, by decide⟩

/-- A vector operation word with its slot: D = 3, A = 1, B = 2; a memory operation word: register 5, pointer 3, offset 1. -/
def vword (opc : Nat) : Nat := opc * 2 ^ 25 + 3 * 2 ^ 15 + 1 * 2 ^ 9 + 2 * 2 ^ 3
def mword (opc : Nat) : Nat := opc * 2 ^ 25 + 5 * 2 ^ 15 + 3 * 2 ^ 11 + 1

theorem witness_BundlesMoveVectorsAndMemory :
    (∀ opc ∈ [0x40, 0x41], issuesB (coreState 0 [bhead 32 0 0 0, vword opc] []) 0 = true ∧
      (coreState 0 [bhead 32 0 0 0, vword opc] []).bundleAt 0x10010010 = ⟨0, 0, 0, [vop 5 (vword opc)]⟩ ∧ (vop 5 (vword opc)).opc = opc ∧
      (vop 5 (vword opc)).pen = false) ∧
    (issuesB (coreState 0 [bhead 16 0 0 0, vword 0x34] []) 0 = true ∧
      (coreState 0 [bhead 16 0 0 0, vword 0x34] []).bundleAt 0x10010010 = ⟨0, 0, 0, [vop 4 (vword 0x34)]⟩ ∧ (vop 4 (vword 0x34)).opc = 0x34 ∧
      (run1 0).kmode = 0) ∧
    (∀ opc ∈ [0x22, 0x23], ∀ slot ∈ [2, 3],
      let s := coreState 191 [bhead (2 ^ slot) 0 0 0, mword opc] []
      let o := vop slot (mword opc)
      let a := ptrAdd ((run1 191).p o.ptr) (4 * o.imm9)
      issuesB s 191 = true ∧ s.bundleAt 0x10010010 = ⟨0, 0, 0, [o]⟩ ∧ o.slot = slot ∧ o.opc = opc ∧ o.pen = false ∧ o.amode = 0 ∧
      (run1 191).region o.ptr = none ∧ s.memx.chk = [] ∧ a % 4 = 0 ∧ coreReach (vscCluster 191) (a, 4) = true ∧
      bmvPages (vscCluster 191) a = false ∧ s.flag F.ECC_INJ_ARM = false ∧ storeAllowed (vscCluster 191) (s.recordAddr 191) (a, 4) = true) :=
  ⟨by decide, by decide, by decide⟩

/-- A run whose kernel is not preloaded: its next line is missing. -/
def missState : State :=
  { mk [] with exu := { State.reset.exu with vsc := [(0, { run1 0 with kernel := { (run1 0).kernel with preload := false } })] } }

theorem witness_CoreCachesWatchdogsAndFaults :
    (missState.core 0 = some { run1 0 with kernel := { (run1 0).kernel with preload := false } } ∧
      missState.missing 0 { run1 0 with kernel := { (run1 0).kernel with preload := false } } = [0x10010000] ∧
      missState.poisoned 0x10010000 256 = false) ∧
    (State.reset.core 0 = none ∧ (missState.core 0).isSome = true) ∧
    (∀ k ∈ [0, 215], (coreState k [] []).Unbound k (run1 k)) := by
  unfold State.Unbound
  exact ⟨by decide, by decide, by decide⟩

/-- Coprocessor c with an owner, a queue and waiters. -/
def mxIn (c : Nat) (m : Mxc) : State := { State.reset with exu := { State.reset.exu with mxc := [(c, m)] } }

/-- Descriptors of one-element matrices at tiles 0, 1 and 2 in M0 to M2, and the operation D = 0, A = 1, B = 2. -/
def mx1 : Mxc :=
  ⟨⟨[((1, 0), (3, 0)), ((2, 0), (5, 0))], [], [(0, 0x810), (1, 0x811), (2, 0x812)], false, false, false⟩, some ⟨8, 9, 215, 0⟩, none, true, [], [], [], true, false⟩

theorem witness_CoprocessorLocksOperatesAndLeavesService :
    (((mxIn 23 { mx1 with lock := none, waiters := [⟨8, 9, 215, 0⟩] }).mx 23).lock = none ∧
      ((mxIn 23 { mx1 with lock := none, waiters := [⟨8, 9, 215, 0⟩] }).mx 23).waiters = [⟨8, 9, 215, 0⟩]) ∧
    (∀ opc ∈ [0x61, 0x62, 0x65], let p : MxOp := ⟨opc, 0, 1, 2, 0, 0, 0, 0x812, []⟩
      ((mxIn 23 { mx1 with queue := [p] }).mx 23).lock = some ⟨8, 9, 215, 0⟩ ∧ ((mxIn 23 { mx1 with queue := [p] }).mx 23).queue = [p] ∧
      (mxIn 23 { mx1 with queue := [p] }).core 215 = none ∧ ((mxIn 23 { mx1 with queue := [p] }).mx 23).switched = true ∧
      (mxIn 23 { mx1 with queue := [p] }).flag F.MXC_CTRL_INJ_RESIDUE 23 = false ∧ (mxIn 23 { mx1 with queue := [p] }).flag F.MXC_CTRL_INJ_PARITY 23 = false) ∧
    (∀ m ∈ [0x810, 0x811, 0x812], mdFp m = false ∧ mdRows m = 1 ∧ mdCols m = 1) ∧
    (((mxIn 23 { mx1 with removing := true }).mx 23).removing = true ∧ (mxIn 23 { mx1 with removing := true }).mxUsed 23 = false ∧
      (State.reset.mx 0).removing = false) := by
  exact ⟨by decide, by decide, by decide, by decide⟩

/-- Engine instance i holds a job with words ps, inputs of 64 KB in system SRAM, and an output buffer of pool 5. -/
def engState (c op k : Nat) (ps : List Nat) : State :=
  let i := engInst c k
  let s := mk ([(F.T_DESC_DESC, c + op * 2 ^ 4 + 64 * 2 ^ 16, i, 0)] ++ ps.zipIdx.map (fun x => (F.T_DESC_DESC, x.1, i, 76 + x.2)) ++
    (List.range 3).flatMap (fun q => [(F.T_DESC_DESC, 0x10100000 + 0x10000 * q, i, 12 + 4 * q), (F.T_DESC_DESC, 0x10000, i, 14 + 4 * q)]) ++
    [(F.T_DESC_DESC, 0x10200000, i, 44), (F.T_DESC_DESC, 5 * 2 ^ 16, i, 45)])
  { putWords s (sramBase + 32 * 5) [0, 0, 0x3FFFF] with exu := { State.reset.exu with jobs := [(i, ⟨engExec c k, 0, 0⟩)] } }

/-- Parameters that every check of an operation passes (Tables 7-9 to 7-12). -/
def engParams : List (Nat × Nat × List Nat) :=
  [(1, 1, [2 * 2 + 2 ^ 10 + 2 ^ 18, 0, 64, 8]), (2, 1, [2 * 2 + 2 ^ 10 + 2 ^ 18 + 2 ^ 26, 8, 8]), (2, 2, [1 + 5 * 2 ^ 10, 16]), (2, 3, [8, 8]),
   (3, 1, [40 + 2 ^ 13 + 2 ^ 21, 8, 0]), (4, 1, [12 + 5 * 2 ^ 11 + 2 ^ 15, 16]), (4, 2, [140 + 10 * 2 ^ 11 + 8 * 2 ^ 15, 16]),
   (5, 1, [2 ^ 8 + 2 ^ 12]), (5, 2, [2 ^ 8 + 2 ^ 12, 12 * 2 ^ 12]), (5, 3, [2 ^ 8 + 2 ^ 12, 12]), (5, 4, [2 ^ 8 + 2 ^ 12, 12]),
   (6, 1, [1 + 2 ^ 7 + 2 ^ 18 + 2 ^ 27]), (6, 2, [1 + 2 ^ 7 + 2 ^ 18 + 2 ^ 27]), (6, 3, [1 + 2 ^ 7 + 2 ^ 18 + 2 ^ 27]), (6, 4, [64]),
   (6, 5, [1 + 2 ^ 7 + 2 ^ 18 + 2 ^ 27]), (7, 1, [1 + 2 ^ 7 + 2 ^ 15 + 2 ^ 24]), (7, 2, [1 + 2 ^ 7 + 2 ^ 15 + 2 ^ 24]), (8, 1, [25 + 2 ^ 6, 64]),
   (9, 1, [2 * 2 ^ 12 + 2 ^ 21, 8, 0, 0, 0, 256 + 2 ^ 16]), (9, 2, [2 * 2 ^ 12 + 2 ^ 21, 8, 0, 0, 0, 256 + 2 ^ 16])]

theorem witness_EngineJobsWriteTheirResult :
    (∀ x ∈ engParams, (engState x.1 x.2.1 0 x.2.2).EngHolds (engInst x.1 0) x.1 x.2.1 ⟨engExec x.1 0, 0, 0⟩ ∧
      (engState x.1 x.2.1 0 x.2.2).EngPasses (engInst x.1 0) x.1 x.2.1 ⟨engExec x.1 0, 0, 0⟩ ∧
      ((engState x.1 x.2.1 0 x.2.2).engOut (engInst x.1 0) 1).addr = 0) ∧
    (0 < classActive 1 + classBench 1 ∧
      16 < classActive 7 + classBench 7 ∧ (engState 7 1 16 [1]).EngHolds (engInst 7 16) 7 1 ⟨engExec 7 16, 0, 0⟩) ∧
    ((engChecks 1 1 ((engState 1 1 0 [0]).par (engInst 1 0))).find? (fun q => !q.2) = some (0, false)) := by
  unfold State.EngHolds State.EngPasses
  exact ⟨by decide +kernel, by decide +kernel, by decide +kernel⟩

/-- Bytes of the result of a job. -/
def engLen (s : State) (i c op : Nat) : Nat :=
  (((s.engYield i c op).header op 100 false).flatMap (natLe 4) ++ (s.engYield i c op).data).length

theorem header_len (o : EngOut) (op cycles : Nat) (e : Bool) (h : o.w.length = 4) :
    ((o.header op cycles e).flatMap (natLe 4)).length = 32 := by
  match hw : o.w, h with
  | [_, _, _, _], _ => simp [EngOut.header, hw]

theorem engLen_prd (s : State) (i : Nat) : engLen s i 8 1 ≤ 32 + 16 * natBits (s.par i 1) 0 7 := by
  have h : (s.engYield i 8 1).w.length = 4 := rfl
  have d : (s.engYield i 8 1).data.length = 16 * (s.engVal i 8 1 [2] % (natBits (s.par i 1) 0 7 + 1)) := by
    simp [State.engYield, State.engResult, openBytes]
  have := Nat.mod_lt (s.engVal i 8 1 [2]) (Nat.succ_pos (natBits (s.par i 1) 0 7))
  rw [engLen, List.length_append, header_len _ _ _ _ h, d]
  simp only [Nat.succ_eq_add_one] at this
  omega

theorem engLen_hce (s : State) (i n : Nat) (hc : (s.hce i).c = 1) (hn : ∀ v, (s.hce i).ncb v 0 ≤ n) :
    engLen s i 9 1 ≤ 32 + roundUp 128 n := by
  have h : (s.engYield i 9 1).w.length = 4 := rfl
  have d : (s.engYield i 9 1).data.length ≤ roundUp 128 n := by
    have hs : ∀ v st, (s.hce i).spanOf v st 0 ≤ n := fun v st => Nat.le_trans (Nat.min_le_left _ _) (hn v)
    simp only [State.engYield, State.hceCombine, hc, if_true, List.length_flatMap, List.range_one, List.map_cons, List.map_nil, List.length_map, List.length_range,
      List.sum_cons, List.sum_nil, List.foldl_cons, List.foldl_nil, Nat.zero_max, Nat.add_zero]
    exact Nat.mul_le_mul_right _ (Nat.div_le_div_right (Nat.sub_le_sub_right (Nat.add_le_add_right (hs _ _) _) _))
  rw [engLen, List.length_append, header_len _ _ _ _ h]
  omega

theorem witness_EngineJobsWriteTheirResult_fits :
    (∀ x ∈ engParams, x.1 ≠ 8 → x.1 ≠ 9 ∨ x.2.1 ≠ 1 → engLen (engState x.1 x.2.1 0 x.2.2) (engInst x.1 0) x.1 x.2.1 ≤
      (engState x.1 x.2.1 0 x.2.2).poolSize ((engState x.1 x.2.1 0 x.2.2).engOut (engInst x.1 0) 0).pool) ∧
    (let s := engState 8 1 0 [25 + 2 ^ 6, 64]
     engLen s (engInst 8 0) 8 1 ≤ s.poolSize (s.engOut (engInst 8 0) 0).pool) ∧
    (let s := engState 9 1 0 [2 * 2 ^ 12 + 2 ^ 21, 8, 0, 0, 0, 256 + 2 ^ 16]
     engLen s (engInst 9 0) 9 1 ≤ s.poolSize (s.engOut (engInst 9 0) 0).pool) :=
  ⟨by decide +kernel, Nat.le_trans (engLen_prd _ _) (by decide +kernel),
   Nat.le_trans (engLen_hce _ _ 132 (by decide +kernel) (fun v => by rw [show State.hce _ _ = ⟨0, false, 1, 0, 2, 0, 0, 0x10000000000, 64, false, 0⟩ by decide +kernel]; simp [HceJob.ncb])) (by decide +kernel)⟩

/-- Engine instance i of class 9 (its last active one) holds a job. -/
def jobState (l : List (Fld × Nat × Nat × Nat)) (maps : List (Nat × Nat)) (c k : Nat) : State :=
  { mk l with exu := { State.reset.exu with jobs := [(engInst c k, ⟨engExec c k, 0, 0⟩)], mapPhys := maps } }

theorem witness_EnginesFaultAndAreRemapped :
    (∀ x ∈ [(1, 0), (9, 16), (5, 33)], 1 ≤ x.1 ∧ x.2 < classActive x.1 + classBench x.1 ∧
      Tab.find (jobState [] [] x.1 x.2).exu.jobs (engInst x.1 x.2) = some ⟨engExec x.1 x.2, 0, 0⟩ ∧ (jobState [] [] x.1 x.2).mapWaits x.1 = []) ∧
    (engCount 9 ≤ 17 ∧ 16 < engCount 9) ∧
    (State.reset.retired (2 + 9) 16 = false ∧ State.reset.mapWaits 9 = [] ∧ State.reset.engIdle 9 16 = true ∧
      State.reset.engIdle 9 (State.reset.get F.T_CTRL_MAP_PHYS (engInst 9 0)) = true ∧
      (jobState [] [] 9 0).engIdle 9 ((jobState [] [] 9 0).get F.T_CTRL_MAP_PHYS (engInst 9 0)) = false) ∧
    (let s := { mk [] with exu := { State.reset.exu with mapPhys := [(engInst 9 0, 16)] } }
     s.exu.mapPhys = [(engInst 9 0, 16)] ∧ s.engIdle 9 16 = true ∧ s.engIdle 9 (s.get F.T_CTRL_MAP_PHYS (engInst 9 0)) = true ∧
      s.retired (2 + 9) 16 = false) := by decide +kernel

/-! ### Block movers and stream queues -/

/-- Channel 7 of a system engine with a shadow set: copy, fill or refused (length 0). -/
def chState (e mode len : Nat) (l : List (Fld × Nat × Nat × Nat)) : State :=
  mk ([(F.BMV_SH_LEN_LEN, len, e, 7), (F.BMV_SH_CFG_MODE, mode, e, 7), (F.BMV_SH_SRC_LO_ADDR, 0x10000000, e, 7),
    (F.BMV_SH_DST_LO_ADDR, 0x10100000, e, 7)] ++ l)

theorem witness_BlockMoversClaimStartAndStop :
    (((coreState 215 [] []).core 215 = some (run1 215)) ∧ (run1 215).ending = none ∧ (coreState 215 [] []).bmvHeld 23 7 = false ∧
      (coreState 215 [] []).flag F.BMV_CH_STATUS_OUT 23 7 = false ∧ (coreState 215 [] [(F.BMV_CH_OWNER_HELD, 1, 23, 7)]).bmvHeld 23 7 = true ∧
      (coreState 215 [] [(F.BMV_CH_STATUS_OUT, 1, 23, 7)]).flag F.BMV_CH_STATUS_OUT 23 7 = true) ∧
    (∀ e ∈ [0, 23, 24, 31], (mk [(F.BMV_CH_STATUS_SH_VALID, 1, e, 7)]).flag F.BMV_CH_STATUS_SH_VALID e 7 = true ∧
      (chState e 0 0 []).flag F.BMV_CH_STATUS_SH_VALID e 7 = false ∧ (chState e 0 0 []).bmvRefuses e 7 = true ∧
      (chState e 0 64 []).bmvRefuses e 7 = false ∧ (chState e 0 64 []).bmvState e 7 = 0 ∧
      (chState e 0 64 [(F.BMV_CH_STATUS_STATE, 1, e, 7)]).bmvRefuses e 7 = false ∧
      (chState e 0 64 [(F.BMV_CH_STATUS_STATE, 1, e, 7)]).bmvState e 7 = 1) ∧
    (∀ st ∈ [0, 1, 2, 3], (mk [(F.BMV_CH_STATUS_STATE, st, 31, 7)]).bmvState 31 7 = st ∧
      (mk [(F.BMV_CH_STATUS_STATE, st, 31, 7)]).flag F.BMV_ENG_STATUS_MAP_PENDING 31 = false) := by
  exact ⟨by decide, by decide, by decide⟩

/-- Channel 7 of engine e is BUSY with bursts b under way and n bytes left. -/
def busyState (e mode n : Nat) (b : List Burst) : State :=
  let s := mk [(F.BMV_CH_STATUS_STATE, 1, e, 7), (F.BMV_CH_REMAINING_REMAINING, n, e, 7), (F.BMV_ACT_LEN_LEN, 128, e, 7),
    (F.BMV_ACT_CFG_MODE, mode, e, 7), (F.BMV_ACT_SRC_LO_ADDR, 0x10000000, e, 7), (F.BMV_ACT_DST_LO_ADDR, 0x10100000, e, 7),
    (F.BMV_ACT_CFG_RETRY_MAX, 1, e, 7)]
  { s with exu := { State.reset.exu with bmv := [((e, 7), ⟨256, b, [], false⟩)] } }

theorem witness_BlockMoversMoveBurstsExactly :
    (∀ e ∈ [0, 31], (busyState e 0 128 []).bmvState e 7 = 1 ∧ (busyState e 0 128 []).get F.BMV_CH_REMAINING_REMAINING e 7 ≠ 0 ∧
      ((busyState e 0 128 []).bch e 7).failed = [] ∧ ((busyState e 0 128 []).bch e 7).diff = false ∧
      (busyState e 0 128 []).get F.BMV_ACT_CFG_REQ_SEL e 7 = 0 ∧ (busyState e 0 128 []).flag F.BMV_ENG_INJ_ARM e = false ∧
      ((busyState e 0 128 []).bch e 7).outst.length < 32 ∧ (busyState e 0 128 []).engOutstanding e < 64 ∧
      2 * ((busyState e 0 128 []).nextBurst e 7).len ≤ (busyState e 0 128 []).burstBytes e 7 * 2 ∧
      2 * ((busyState e 0 128 []).nextBurst e 7).len ≤ ((busyState e 0 128 []).bch e 7).credit ∧
      (busyState e 0 128 []).nextBurst e 7 = ⟨0, 128, 0⟩) ∧
    (∀ mode ∈ [0, 1], ∀ n ∈ [0, 64], let s := busyState 31 mode n [⟨0, 64, 0⟩]
      s.bmvState 31 7 = 1 ∧ s.bch 31 7 = ⟨(s.bch 31 7).credit, [⟨0, 64, 0⟩], [], false⟩ ∧ s.flag F.BMV_ENG_STATUS_MAP_PENDING 31 = false ∧
      s.memx.chk = [] ∧ s.flag F.ECC_INJ_ARM = false ∧ hostAddr (s.actSrc 31 7) = false ∧ hostAddr (s.actDst 31 7) = false ∧
      s.bmvReaches 31 7 ⟨0, 64, 0⟩ = true ∧ s.get F.BMV_ACT_CFG_MODE 31 7 = mode ∧ s.get F.BMV_CH_REMAINING_REMAINING 31 7 = n ∧
      s.flag F.BMV_CH_STATUS_SH_VALID 31 7 = false ∧ s.flag F.BMV_ACT_CFG_CYCLIC 31 7 = false) ∧
    (∀ tries ∈ [0, 1], let s := busyState 24 0 64 [⟨0, 64, tries⟩]
      s.bmvState 24 7 = 1 ∧ s.bch 24 7 = ⟨(s.bch 24 7).credit, [⟨0, 64, tries⟩], [], false⟩ ∧ s.get F.BMV_ACT_CFG_RETRY_MAX 24 7 = 1 ∧
      s.bmvHolder 24 7 = none) := by
  exact ⟨by decide, by decide, by decide⟩

/-- A map write of engine e waits. -/
def mapState (e map : Nat) : State :=
  { mk [(F.BMV_ENG_STATUS_MAP_PENDING, 1, e, 0)] with exu := { State.reset.exu with bmvMap := [(e, map)] } }

theorem witness_BlockMoverMapsExchangeSlices :
    (State.reset.bmvMapBad 31 0x76543211 = true ∧ State.reset.bmvMapBad 31 0x86543210 = false ∧
      (∀ k, k < 8 → State.reset.bmvState 31 k = 0 ∧ State.reset.bmvHeld 31 k = false)) ∧
    ((mapState 31 0x86543210).flag F.BMV_ENG_STATUS_MAP_PENDING 31 = true ∧ Tab.find (mapState 31 0x86543210).exu.bmvMap 31 = some 0x86543210 ∧
      (∀ k, k < 8 → (mapState 31 0x86543210).bmvState 31 k = 0 ∧ (mapState 31 0x86543210).bmvHeld 31 k = false)) ∧
    State.reset.flag F.BMV_ENG_STATUS_MAP_PENDING 0 = false := by decide +kernel

/-- Queue 1,023 with a table entry of depth d (Table 11-1). -/
def tableState (d : Nat) (l : List (Fld × Nat × Nat × Nat)) : State :=
  putWords (mk l) (sramBase + 64 * 1023) [1 + 2 * 2 ^ 1, d + 2 ^ 16, 2, 0x10000, 0x10100000, 0, 1]

/-- Queue 1,023 with items. -/
def itemsState (x : Queue) (l : List (Fld × Nat × Nat × Nat)) : State := { mk l with sq := ⟨[(1023, x)], []⟩ }

theorem witness_EveryOfferedItemTakesTheNextSequenceNumber :
    ((itemsState queue0 []).queue 1023 = some queue0 ∧ (itemsState queue0 []).queueOn 1023 = false) ∧
    (let s := itemsState queue0 [(F.SQ_Q_STATUS_EN, 1, 0, 1023), (F.SQ_CTRL_EN, 1, 0, 0)]
     s.queue 1023 = some queue0 ∧ s.queueOn 1023 = true ∧ s.flag F.SQ_CTRL_EN = true ∧ queue0.items.length < queue0.ent.depth - 1 ∧
      s.flag F.SQ_Q_STATUS_GAP_PENDING 0 1023 = false) ∧
    ({ queue0 with items := [item0, item0, item0] }.ent.depth - 1 ≤ { queue0 with items := [item0, item0, item0] }.items.length) ∧
    ((queueEntry ((tableState 4 []).queueWords 1023)).refusal ((tableState 4 []).queueOn 1023) = 0) := by decide

theorem witness_QueuesEnableDisableAndReset :
    ((queueEntry ((tableState 4 []).queueWords 1023)).refusal ((tableState 4 []).queueOn 1023) = 0 ∧ (tableState 4 []).queue 1023 = none ∧
      (queueEntry ((tableState 4 []).queueWords 1023)).credit = true) ∧
    ((queueEntry ((tableState 3 []).queueWords 1023)).depth < 4 ∧ 32768 < (queueEntry ((tableState 32769 []).queueWords 1023)).depth) ∧
    (let s := tableState 4 [(F.SQ_Q_STATUS_EN, 1, 0, 1023)]
     (queueEntry (s.queueWords 1023)).refusal false = 0 ∧ s.queueOn 1023 = true) ∧
    (mk [(F.SQ_Q_CREDITS_HELD, 1, 0, 1023)]).get F.SQ_Q_CREDITS_HELD 0 1023 ≠ 0 ∧
    (let s := itemsState { queue0 with items := [{ item0 with pool := 63 }] } [(F.SQ_Q_STATUS_XOFF_STATE, 1, 0, 1023)]
     s.queueOn 1023 = false ∧ s.get F.SQ_Q_CREDITS_HELD 0 1023 = 0 ∧ s.queue 1023 = some { queue0 with items := [{ item0 with pool := 63 }] } ∧
      (∀ i ∈ [{ item0 with pool := 63 }], i.gap = true ∨ i.pool = 63) ∧ s.flag F.SQ_Q_STATUS_XOFF_STATE 0 1023 = true) := by decide

/-- Two items whose data lies in no pool. -/
def twoItems : Queue := { queue0 with items := [{ item0 with pool := 63 }, { item0 with pool := 63, place := 1 }], unreported := 3 }

theorem witness_ItemsAreFreedAndFlowIsControlled :
    ((itemsState twoItems []).queue 1023 = some twoItems ∧ twoItems.items = { item0 with pool := 63 } :: [{ item0 with pool := 63, place := 1 }] ∧
      (∀ j ∈ [{ item0 with pool := 63, place := 1 }], j.place ≠ { item0 with pool := 63 }.place ∧ j.freed = false) ∧
      { item0 with pool := 63 }.freed = false ∧ twoItems.ent.credit = true ∧ { item0 with pool := 63 }.gap = false) ∧
    (twoItems.unreported ≠ 0 ∧ queue0.unreported = 0) ∧
    (let s := { mk [(F.NET_PORT_STATUS_STATE, 2, 31, 0)] with sq := ⟨[], [(31, 7)]⟩ }
     (31, 7) ∈ s.sq.pfcOr ∧ s.get F.NET_PORT_STATUS_STATE 31 = 2 ∧ (31, 7) ∉ State.reset.sq.pfcOr) ∧
    (true != (State.reset.get F.SQ_XOFF_IN_POL_POL).testBit 15) ≠ (false != (State.reset.get F.SQ_XOFF_IN_POL_POL).testBit 15) ∧
    ((mk [(F.SQ_XOFF_IN_STATE_STATE, 0x8000, 0, 0)]).get F.SQ_XOFF_IN_STATE_STATE).testBit 15 = true ∧
    ((mk [(F.SQ_XOFF_IN_STATE_STATE, 0x8000, 0, 0)]).get F.SQ_XOFF_IN_STATE_STUCK).testBit 15 = false := by decide

/-! ### Network ports -/

/-- Port 28 (group 7) with a mode, lanes 28 to 31 and a stage of its attempt. -/
def portState (mode stage : Nat) (l : List (Fld × Nat × Nat × Nat)) : State :=
  { mk ([(F.NET_PORT_STATUS_MODE, mode, 28, 0), (F.NET_PORT_STATUS_LANES, 0xF, 28, 0)] ++ l) with
    net := ⟨[(28, { NetPort.reset with stage := stage })], [(31, ⟨[100, -100], [50, 50], 0, 0⟩)]⟩ }

theorem witness_NetworkPortsAttemptRetryAndFail :
    ((portState 1 0 []).flag F.NET_PORT_CTRL_EN 28 = false ∧ (portState 1 0 []).netMode 28 ≠ 0 ∧ (portState 1 0 []).NoEvents ∧
      (portState 1 0 [(F.NET_PORT_CTRL_EN, 1, 28, 0)]).flag F.NET_PORT_CTRL_EN 28 = true ∧ State.reset.netMode 31 = 0) ∧
    (∀ st ∈ [1, 2, 3], ((portState 1 st [(F.NET_PORT_CTRL_DEGRADE_EN, 1, 28, 0)]).netPort 28).stage = st ∧
      (portState 1 st [(F.NET_PORT_CTRL_DEGRADE_EN, 1, 28, 0)]).flag F.NET_PORT_CTRL_DEGRADE_EN 28 = true ∧
      fallback ((portState 1 st [(F.NET_PORT_CTRL_DEGRADE_EN, 1, 28, 0)]).netMode 28) 3 = some (3, 3)) ∧
    (∀ a ∈ [1, 2], ((portState 1 1 [(F.NET_PORT_STATUS_ATTEMPTS, a, 28, 0)]).netPort 28).stage ≠ 0 ∧
      (portState 1 1 [(F.NET_PORT_STATUS_ATTEMPTS, a, 28, 0)]).get F.NET_PORT_STATUS_ATTEMPTS 28 = a ∧
      (portState 1 1 [(F.NET_PORT_STATUS_ATTEMPTS, a, 28, 0)]).get F.NET_PORT_STATUS_STATE 28 ≠ 3) ∧
    ((portState 1 0 [(F.NET_PORT_STATUS_STATE, 3, 28, 0)]).get F.NET_PORT_STATUS_STATE 28 = 3 ∧
      ((portState 1 0 [(F.NET_PORT_STATUS_STATE, 3, 28, 0)]).netPort 28).stage = 0) ∧
    ((portState 1 0 [(F.NET_PORT_STATUS_STATE, 2, 28, 0)]).netUp 28 = true ∧ State.reset.netUp 28 = false) ∧
    ((portState 7 3 [(F.NET_PORT_CTRL_PHY, 1, 28, 0)]).portOfLane 31 = some 28 ∧ ((portState 7 3 []).netPort 28).stage = 3 ∧
      (portState 7 3 [(F.NET_PORT_CTRL_PHY, 1, 28, 0)]).get F.NET_PORT_CTRL_PHY 28 = 1 ∧
      (portState 7 3 []).flag F.NET_LANE_CTRL_RX_INV_FORCE 31 = false) ∧
    ((mk [(F.NET_GRP_CFG_SHAPE, 3, 28, 0)]).groupPorts 7 = none ∧ (mk [(F.NET_GRP_CFG_SHAPE, 0, 28, 0)]).groupPorts 7 = some [] ∧
      (mk [(F.NET_GRP_CFG_SHAPE, 1, 28, 0), (F.NET_GRP_CFG_WHOLE_MODE, 2, 28, 0)]).groupPorts 7 = some [(0, 2, 0xF)] ∧
      (mk [(F.NET_GRP_CFG_SHAPE, 2, 28, 0), (F.NET_GRP_CFG_HALF_A, 0xF, 28, 0), (F.NET_GRP_CFG_HALF_B, 4, 28, 0),
        (F.NET_GRP_CFG_LANE_MODE, 0x0085, 28, 0)]).groupPorts 7 = some [(0, 5, 1), (1, 8, 2), (2, 4, 0xC)]) := by
  unfold State.NoEvents
  exact ⟨by decide, by decide, by decide, by decide, by decide, by decide, by decide⟩

theorem witness_NetworkLanesAdaptTestAndShed :
    ((portState 1 3 [(F.NET_LANE_CTRL_ADAPT_EN, 1, 31, 0)]).adapts 31 = true ∧ State.reset.adapts 31 = false ∧
      ((portState 1 3 []).netLane 31).trained[1]? = some 50 ∧ ((portState 1 3 []).netLane 31).taps.getD 1 0 = -100) ∧
    ((portState 1 3 []).portOfLane 31 = some 28 ∧ (portState 1 3 []).domState (64 + 31) ≠ 3 ∧
      (portState 1 3 [(F.NET_LANE_STATUS_FROZEN, 1, 31, 0)]).flag F.NET_LANE_STATUS_FROZEN 31 = true) ∧
    ((portState 1 0 [(F.NET_PORT_CTRL_EN, 1, 28, 0)]).flag F.NET_PORT_CTRL_EN 28 = true ∧ (1 : Word).getLsbD 0 = true ∧
      (0x20 : Word).bits 5 2 = 1 ∧ modeNrz ((portState 7 0 []).netMode 28) = true ∧ (0x14 : Word).bits 2 3 = 5 ∧ (0x10 : Word).bits 2 3 < 5 ∧
      (0x50 : Word).bits 5 2 < 3) ∧
    ((mk [(F.NET_LANE_PRBS_CTRL_INJ, 1, 31, 0), (F.NET_LANE_PRBS_CTRL_GEN_EN, 1, 31, 0)]).flag F.NET_LANE_PRBS_CTRL_INJ 31 = true ∧
      (mk [(F.NET_LANE_PRBS_CTRL_INJ, 1, 31, 0), (F.NET_LANE_PRBS_CTRL_GEN_EN, 1, 31, 0)]).flag F.NET_LANE_PRBS_CTRL_GEN_EN 31 = true ∧
      (mk [(F.NET_LANE_PRBS_CTRL_CHK_EN, 1, 31, 0), (F.NET_LANE_PRBS_STATUS_LOCK, 1, 31, 0)]).flag F.NET_LANE_PRBS_STATUS_LOCK 31 = true ∧
      (mk [(F.NET_LANE_PRBS_CTRL_CHK_EN, 1, 31, 0)]).flag F.NET_LANE_PRBS_CTRL_CHK_EN 31 = true ∧
      State.reset.flag F.NET_LANE_PRBS_CTRL_CHK_EN 31 = false) ∧
    ((mk [(F.NET_MACSEC_SA_SEL_SA, 17, 31, 0)]).get F.NET_MACSEC_SA_SEL_SA 31 = 17) ∧
    (let s := portState 1 0 [(F.NET_PORT_STATUS_STATE, 2, 28, 0), (F.NET_PORT_CTRL_DEGRADE_EN, 1, 28, 0)]
     s.portOfLane 31 = some 28 ∧ s.netUp 28 = true ∧ s.flag F.NET_PORT_CTRL_DEGRADE_EN 28 = true ∧ s.get F.NET_PORT_CTRL_PHY 28 = 0 ∧
      fallback (s.netMode 28) (31 % 4) = some (3, 3) ∧
      (∀ i, i < 4 → Nat.testBit 3 i = true → i ≠ 31 % 4 ∧ s.retired 13 (31 / 4 * 4 + i) = false) ∧
      (portState 1 0 [(F.NET_PORT_STATUS_STATE, 2, 28, 0)]).flag F.NET_PORT_CTRL_DEGRADE_EN 28 = false) :=
  ⟨by decide, by decide, by decide, by decide, by decide, by decide +kernel⟩

/-- A frame with a body and a length, to the broadcast address. -/
def frame (b : FrameBody) (n : Nat) : EthFrame := ⟨0xFFFFFFFFFFFF, 1, none, false, false, b, [1, 2, 3], n⟩

/-- A C-plane message of eAxC 5 for slot 0, symbol 0. -/
def cMsg : EcpriMsg := ⟨1, true, 5, 0, true, 0, 0, 0, 0, 0, .cPlane 0 [1] true [1, 2, 3, 4]⟩

/-- Port 31 UP with a lookup entry for the C-plane of eAxC 5 to queue 1,023, and timeline 0. -/
def rxState (l : List (Fld × Nat × Nat × Nat)) : State :=
  { mk ([(F.NET_PORT_STATUS_STATE, 2, 31, 0), (F.NET_PORT_FRAME_MAX_FRAME, 9000, 31, 0), (F.SQ_Q_STATUS_EN, 1, 0, 1023), (F.SQ_CTRL_EN, 1, 0, 0)] ++ l)
    with
    aft := { State.reset.aft with tls := [(0, tl0)] }
    sq := ⟨[(1023, queue0)], []⟩
    net := ⟨[(31, { NetPort.reset with lut := [[5, 5 + 1023 * 2 ^ 16, 7, 0]] })], []⟩ }

/-- Queue 1,023 holds a raw frame of PLANE 2 for port 31. -/
def txState (l : List (Fld × Nat × Nat × Nat)) : State :=
  putWords { mk ([(F.SQ_CTRL_EN, 1, 0, 0), (F.NET_PORT_FRAME_MAX_FRAME, 9000, 31, 0)] ++ l) with
    sq := ⟨[(1023, { queue0 with ent := { queue0.ent with consumer := 1, port := 31 } })], []⟩ } 0x40000000 [2, 0, 0, 64]

theorem witness_FramesAreReceivedAndSent :
    ((rxState []).netUp 31 = true ∧ (rxState []).domState (64 + 31) ≠ 5 ∧ (rxState []).domState (64 + 31) ≠ 3 ∧
      (frame .pause 63).length < 64 ∧ (rxState []).get F.NET_PORT_FRAME_MAX_FRAME 31 < (frame .pause 9001).length ∧
      64 ≤ (frame .pause 64).length ∧ (frame .pause 64).length ≤ (rxState []).get F.NET_PORT_FRAME_MAX_FRAME 31 ∧
      (rxState []).macOk 31 2 = false ∧ (rxState []).macOk 31 (frame .pause 64).dest = true) ∧
    (rxState [(F.NET_PORT_CTRL_PFC_RX_EN, 1, 31, 0)]).flag F.NET_PORT_CTRL_PFC_RX_EN 31 = true ∧
    ((rxState []).flag F.NET_PORT_CTRL_MACSEC_EN 31 = false ∧ (rxState []).flag F.NET_PORT_CTRLQ_CTRLQ_EN 31 = false) ∧
    (let s := rxState [(F.NET_PORT_CTRLQ_CTRLQ_EN, 1, 31, 0), (F.NET_PORT_CTRLQ_QUEUE, 1023, 31, 0)]
     s.flag F.NET_PORT_CTRLQ_CTRLQ_EN 31 = true ∧ s.queue (s.get F.NET_PORT_CTRLQ_QUEUE 31) = some queue0 ∧
      s.queueOn (s.get F.NET_PORT_CTRLQ_QUEUE 31) = true ∧ s.flag F.SQ_CTRL_EN = true ∧ queue0.items.length < queue0.ent.depth - 1 ∧
      (frame (.other 0x0800) 64).bytes.length ≤ queue0.ent.dataSize) ∧
    (EcpriOk cMsg = true ∧ cPlaneOk 0 [1] true = true ∧ (rxState []).lutRx 31 1 (cMsg.eaxc % 2 ^ 16) 1 none = some (0, [5, 5 + 1023 * 2 ^ 16, 7, 0]) ∧
      (rxState []).queue (natBits (5 + 1023 * 2 ^ 16) 16 10) = some queue0 ∧ (rxState []).tl queue0.ent.tl = some tl0 ∧
      ((rxState []).resolveMsg tl0 cMsg).isSome = true ∧ (rxState []).flag F.NET_PORT_CTRL_DROP_LATE 31 = false) ∧
    ((txState []).txQueues 31 = [1023] ∧ (txState []).flag F.SQ_CTRL_EN = true ∧
      (txState []).HeadOf 1023 { queue0 with ent := { queue0.ent with consumer := 1, port := 31 } } item0 [] ∧ (txState []).netUp 31 = false) := by
  unfold State.HeadOf
  exact ⟨by decide, by decide, by decide, by decide, by decide, by decide⟩

/-! ### Coupler ports -/

/-- Port 15 in training phase n, attempt a. -/
def trainState (n a : Nat) (l : List (Fld × Nat × Nat × Nat)) (c : CplPort) : State :=
  { mk ([(F.CPL_PORT_STATUS_STATE, 1, 15, 0), (F.CPL_PORT_STATUS_PHASE, n, 15, 0), (F.CPL_PORT_STATUS_ATTEMPTS, a, 15, 0)] ++ l) with cpl := [(15, c)] }

/-- A set of capabilities of a partner of major 3. -/
def cap0 : CapSet := ⟨3, 2, 0, 1, true, true, 0, 0, 0, 0, 0⟩

theorem witness_CouplersTrainStepByStep :
    (State.reset.flag F.CPL_PORT_CTRL_EN 15 = false ∧ State.reset.NoEvents ∧ (mk [(F.CPL_PORT_CTRL_EN, 1, 15, 0)]).flag F.CPL_PORT_CTRL_EN 15 = true) ∧
    (∀ n ∈ [1, 2, 3, 4, 5], (trainState n 2 [] CplPort.reset).cplIn 15 n = true ∧ (trainState n 2 [] CplPort.reset).cplTraining 15 = true) ∧
    (State.reset.cplIn 15 1 = false ∧ State.reset.cplIn 15 3 = false ∧ State.reset.cplTraining 15 = false) ∧
    (([3, 2, 1, 0] : List (Fin 4)).Nodup ∧ (trainState 2 3 [] CplPort.reset).get F.CPL_PORT_STATUS_ATTEMPTS 15 = 3 ∧
      (trainState 2 2 [] CplPort.reset).get F.CPL_PORT_STATUS_ATTEMPTS 15 < 3) ∧
    ((trainState 3 0 [] { CplPort.reset with slipAt := [(3, 0)] }).slipBusy 15 3 = true ∧ (trainState 3 0 [] CplPort.reset).slipBusy 15 3 = false ∧
      (trainState 3 0 [] CplPort.reset).get F.CPL_LANE_STATUS_SLIPS 15 3 < 64 ∧
      (∀ n, n < 4 → (trainState 3 0 [(F.CPL_LANE_STATUS_MATCH, 1, 15, 0), (F.CPL_LANE_STATUS_MATCH, 1, 15, 1), (F.CPL_LANE_STATUS_MATCH, 1, 15, 2),
        (F.CPL_LANE_STATUS_MATCH, 1, 15, 3)] CplPort.reset).get F.CPL_LANE_STATUS_MATCH 15 n = 1)) ∧
    (((trainState 5 0 [] CplPort.reset).cplPort 15).capLast = none ∧
      (((trainState 5 0 [] { CplPort.reset with capLast := some cap0 }).cplPort 15).capLast.map capNoAck = some (capNoAck { cap0 with ack := false }))) ∧
    (let s := trainState 5 0 [(F.CPL_PORT_PARTNER_MAJOR, 3, 15, 0), (F.CPL_PORT_PARTNER_CAR_VALID, 1, 15, 0), (F.CPL_PORT_PARTNER_CAR, 1, 15, 0)]
       { CplPort.reset with capOk := true, capAck := true }
     (s.cplPort 15).capOk = true ∧ (s.cplPort 15).capAck = true ∧ s.get F.CPL_PORT_PARTNER_MAJOR 15 = 3 ∧
      ¬ (s.flag F.CPL_PORT_PARTNER_CAR_VALID 15 = true ∧ s.get F.CPL_PORT_PARTNER_CAR 15 = s.get F.CPL_CONSIST_CAR) ∧
      ((trainState 5 0 [] { CplPort.reset with capOk := true, capAck := true }).get F.CPL_PORT_PARTNER_MAJOR 15 ≠ 3) ∧
      ((trainState 5 0 [] CplPort.reset).cplPort 15).capAck = false) ∧
    (let s := trainState 0 1 [] CplPort.reset
     s.get F.CPL_PORT_STATUS_STATE 15 = 1 ∧ s.get F.CPL_PORT_STATUS_PHASE 15 = 0) := by
  unfold State.NoEvents
  exact ⟨by decide, by decide, by decide, by decide, by decide, by decide, by decide, by decide⟩

/-- Port 15 UP with minor m. -/
def upState (m : Nat) (l : List (Fld × Nat × Nat × Nat)) (c : CplPort) : State :=
  { mk ([(F.CPL_PORT_STATUS_STATE, 2, 15, 0), (F.CPL_PORT_PARTNER_AGREED_MINOR, m, 15, 0)] ++ l) with cpl := [(15, c)] }

theorem witness_CouplerGapsDriftAndLoss :
    (∀ m ∈ [1, 2], (upState m [] CplPort.reset).cplUp 15 = true ∧ 1 ≤ (upState m [] CplPort.reset).cplMinor 15 ∧
      ((upState m [] CplPort.reset).cplPort 15).gap = .none ∧ ((upState m [] { CplPort.reset with gap := .begun }).cplPort 15).gap = .begun) ∧
    ((255#8).toNat ∈ ({ CplPort.reset with gap := .open, probes := [255] } : CplPort).probes ∧ (254#8).toNat ∉ ({ CplPort.reset with gap := .open, probes := [255] } : CplPort).probes) ∧
    (let c : CplPort := { CplPort.reset with gap := .open, gapOwn := true, rtts := [10, 20] }
     c.rtts ≠ [] ∧ 5 * c.rtts.sum = 75 * (c.rtts.length : Int) ∧ c.gap ≠ .none ∧ c.gapOwn = true ∧
      signed 32 ((upState 2 [(F.CPL_DELAY_ASYM_ASYM_PS, 5, 15, 0)] c).get F.CPL_DELAY_ASYM_ASYM_PS 15) = 5 ∧ (75 + 5 : Int) % 2 = 0) ∧
    ((upState 2 [] CplPort.reset).cplMayMove 15 = true ∧ (upState 2 [] CplPort.reset).cplRxOn 15 = true ∧
      (upState 2 [] CplPort.reset).domMoving (112 + 15) = false ∧
      (upState 2 [(F.CPL_PORT_CTRL_AUTO_LISTEN, 1, 15, 0)] CplPort.reset).flag F.CPL_PORT_CTRL_AUTO_LISTEN 15 = true ∧
      (upState 2 [(F.CPL_PORT_CTRL_AUTO_LISTEN, 0, 15, 0)] CplPort.reset).flag F.CPL_PORT_CTRL_AUTO_LISTEN 15 = false ∧
      (upState 2 [(F.CPL_PORT_STATUS_LANES, 15, 15, 0)] CplPort.reset).get F.CPL_PORT_STATUS_LANES 15 = 15) ∧
    ((upState 2 [(F.CPL_LANE_STATUS_DRIFT, 1, 15, 3)] { CplPort.reset with gap := .open }).flag F.CPL_LANE_STATUS_DRIFT 15 3 = true) ∧
    ((upState 2 [(F.CPL_PORT_CTRL_LANE_DROP_EN, 1, 15, 0)] CplPort.reset).flag F.CPL_PORT_CTRL_LANE_DROP_EN 15 = true ∧
      (upState 2 [] CplPort.reset).cplMinor 15 = 2 ∧ (upState 2 [] CplPort.reset).car.list = [] ∧
      (upState 2 [(F.CPL_PORT_CTRL_LANE_DROP_EN, 0, 15, 0)] CplPort.reset).flag F.CPL_PORT_CTRL_LANE_DROP_EN 15 = false) ∧
    (State.reset.cplUp 15 = false ∧ (mk [(F.CPL_PORT_CTRL_EN, 1, 15, 0)]).flag F.CPL_PORT_CTRL_EN 15 = true ∧
      (mk [(F.CPL_LANE_CTRL_LOOPCHK_EN, 1, 15, 4)]).flag F.CPL_LANE_CTRL_LOOPCHK_EN 15 4 = true ∧
      (mk [(F.CPL_LANE_CTRL_LOOPCHK_EN, 1, 15, 4)]).flag F.CPL_PORT_CTRL_EN 15 = false) ∧
    ((upState 2 [(F.PWR_DOM_STATE_STATE, 3, 0, 127)] CplPort.reset).domState (112 + 15) = 3 ∧
      (upState 2 [(F.PWR_DOM_STATE_STATE, 3, 0, 127)] CplPort.reset).flag F.PWR_DOM_STATE_PENDING_VALID 0 (112 + 15) = false) :=
  ⟨by decide, by decide, by decide, by decide, by decide, by decide, by decide, by decide⟩

/-- A stream of port 15, SID 255, in a direction, over the raw FIFO or queue 1,023 (Table 13-9). -/
def streamState (dir raw : Nat) (l : List (Fld × Nat × Nat × Nat)) (c : CplPort) : State :=
  { putWords (upState 2 (l ++ [(F.SQ_Q_STATUS_EN, 1, 0, 1023), (F.SQ_CTRL_EN, 1, 0, 0)]) c) sramBase
      [1 + dir * 2 + raw * 4 + 15 * 8 + 255 * 2 ^ 8 + 1023 * 2 ^ 16, 511 * 2 ^ 8, 0] with
    sq := ⟨[(1023, queue0)], []⟩ }

/-- Queue 1,023 holds a sample buffer of SID 255 for port 15; timeline 0 is enabled or not. -/
def sampleState (on : Bool) (credits : Tab Nat Nat) : State :=
  { putWords (streamState 1 0 [] { CplPort.reset with credits := credits }) 0x40000000 [0, 255 * 2 ^ 8] with
    aft := { State.reset.aft with tls := if on then [(0, tl0)] else [] }
    sq := ⟨[(1023, { queue0 with ent := { queue0.ent with consumer := 2, port := 15 }, items := [{ item0 with pool := 63 }] })], []⟩ }

/-- A remote token of the car. -/
def remote0 (car : Nat) : RemoteToken := ⟨car, 7, 0, 0, 1, 0, 0, false, emptyToken, []⟩

/-- The token waits to be sent, over port 15 where the route is enabled. -/
def remoteState (en m : Nat) : State :=
  let s := upState m [(F.CPL_ROUTE_PORT, 0xF0000000, 0, 0), (F.CPL_ROUTE_EN_EN, en, 0, 0)] CplPort.reset
  { s with gdx := { s.gdx with remoteOut := [(none, remote0 7)] } }

/-- A TOKEN message for a car. -/
def tokenMsg0 (car : Nat) : TokenMsg := ⟨car, 7, 0, 0, 1, 1, 6, 0, 0, 0, 0, []⟩

theorem witness_CouplersCarrySamplesTokensAndTime :
    ((upState 2 [] CplPort.reset).cplUp 15 = true ∧ (upState 2 [] CplPort.reset).cplRxOn 15 = true ∧ (upState 2 [] CplPort.reset).stream 15 0 255 = none) ∧
    (((streamState 0 0 [] CplPort.reset).stream 15 0 255).map (fun w => (w.1.testBit 2, natBits w.1 16 10)) = some (false, 1023) ∧
      (streamState 0 0 [] CplPort.reset).queue 1023 = some queue0 ∧ (streamState 0 0 [] CplPort.reset).queueOn 1023 = true ∧
      (streamState 0 0 [] CplPort.reset).flag F.SQ_CTRL_EN = true ∧ queue0.items.length < queue0.ent.depth - 1 ∧
      ((streamState 0 1 [] CplPort.reset).stream 15 0 255).map (fun w => w.1.testBit 2) = some true) ∧
    (∀ on ∈ [true, false], ((sampleState on []).sampleHead 1023).map (fun h => (h.port, h.sid, decide (h.window = .due), decide (h.window = .late))) =
        some (15, 255, on, !on) ∧ (sampleState on []).sampleMay 15 = true ∧ (sampleState on []).cplMinor 15 ≠ 0) ∧
    (Tab.find ((sampleState true [(0, 1)]).cplPort 15).credits 0 = some 1 ∧ Tab.find ((sampleState true []).cplPort 15).credits 0 = none) ∧
    (((streamState 1 1 [] { CplPort.reset with rawTx := 64 }).stream 15 1 255).map (fun w => w.1.testBit 2) = some true ∧
      (streamState 1 1 [] { CplPort.reset with rawTx := 64 }).sampleMay 15 = true ∧
      64 ≤ ((streamState 1 1 [] { CplPort.reset with rawTx := 64 }).cplPort 15).rawTx) ∧
    (∀ m ∈ [1, 2], (remoteState 0x80 m).gdx.remoteOut[0]? = some (none, remote0 7) ∧ (remoteState 0x80 m).routePort (remote0 7).car = 15 ∧
      (remoteState 0x80 m).routeUp (remote0 7).car = true ∧ (remoteState 0x80 m).cplTxOn 15 = true ∧ (remoteState 0x80 m).cplGap 15 = false ∧
      (remoteState 0x80 m).cplXoff 15 = false ∧ (remoteState 0x80 m).cplMinor 15 = m ∧ (remote0 7).token.empty = true ∧
      (remoteState 0 m).routeUp (remote0 7).car = false) ∧
    ((upState 2 [] CplPort.reset).GdxEmpty ∧ (upState 2 [] CplPort.reset).flag F.GDX_CTRL_EN = false ∧
      (65535#16).toNat ≠ ((upState 2 [] CplPort.reset).cplPort 15).rxNext ∧ (0#16).toNat = ((upState 2 [] CplPort.reset).cplPort 15).rxNext ∧
      (tokenMsg0 7).car ≠ (upState 2 [] CplPort.reset).get F.CPL_CONSIST_CAR ∧ (tokenMsg0 7).hops < 7) ∧
    (let s := { upState 2 [] CplPort.reset with aft := { State.reset.aft with tls := [(3, { tl0 with ent := { tl0.ent with tag := 1 } })] } }
     (tokenMsg0 0).car = s.get F.CPL_CONSIST_CAR ∧ (tokenMsg0 0).kind = 1 ∧ s.tlOfTag 1 = some 3 ∧ Tab.find s.gdx.newest (7, 3) = none) := by
  unfold State.GdxEmpty
  exact ⟨by decide +kernel, by decide +kernel, by decide +kernel, by decide, by decide +kernel, by decide, by decide, by decide⟩

/-- Two tokens sent and not acknowledged, the first negatively acknowledged k times. -/
def unackState (k pend : Nat) : State :=
  upState 2 [] { CplPort.reset with unacked := [⟨65535, tokenMsg0 1, emptyToken, k⟩, ⟨0, tokenMsg0 1, emptyToken, 0⟩], rxPending := pend }

theorem witness_CouplersCarrySamplesTokensAndTime_acks :
    ((unackState 0 1).cplUp 15 = true ∧ ((unackState 0 1).cplPort 15).rxPending ≠ 0 ∧ ((unackState 0 0).cplPort 15).rxPending = 0) ∧
    (∀ k ∈ [2, 3], ((unackState k 0).cplPort 15).unacked.find? (fun t => t.seq = 65535) = some ⟨65535, tokenMsg0 1, emptyToken, k⟩) ∧
    (((unackState 0 0).cplPort 15).unacked.find? (fun t => t.seq = 7) = none) ∧
    (let s := upState 1 [(F.CPL_PORT_CTRL_TIME_TX, 1, 15, 0)] CplPort.reset
     s.flag F.CPL_PORT_CTRL_TIME_TX 15 = true ∧ 1 ≤ s.cplMinor 15 ∧ s.get F.CPL_CONSIST_CAR = 0 ∧ s.cplTxOn 15 = true ∧ s.cplGap 15 = false ∧
      (upState 1 [(F.CPL_PORT_CTRL_TIME_TX, 0, 15, 0)] CplPort.reset).flag F.CPL_PORT_CTRL_TIME_TX 15 = false) ∧
    (let s := upState 1 [(F.CPL_CONSIST_UP_EN, 1, 0, 0), (F.CPL_CONSIST_UP_PORT, 15, 0, 0), (F.CPL_CONSIST_CAR, 1, 0, 0),
        (F.TBU_D_SOURCE_SRC, 3, 0, 1)] CplPort.reset
     s.cplUp 15 = true ∧ s.cplRxOn 15 = true ∧ 1 ≤ s.cplMinor 15 ∧ s.flag F.CPL_CONSIST_UP_EN = true ∧ s.get F.CPL_CONSIST_UP_PORT = 15 ∧
      s.consistDom = some .B ∧ ((Tai.units ⟨0, 1, 0⟩ : Int) - (s.tbu.dom .B).counter.units) * 1000 = 1000 * 2 ^ 32) := by decide

/-! ### The host interface and power -/

/-- A request of opcode op. -/
def req0 (op : Nat) : Req := ⟨op, 65535, true, 3, 2, false⟩

/-- Mailbox 255 executes command op in a 3.2 session. -/
def serve (op : Nat) (s : State := State.reset) : State :=
  let s := mk [(F.MBX_STATUS_STATE, 2, 0, 255), (F.MBX_STATUS_SEQ, 65535, 0, 255)] s
  { s with host := { s.host with mbx := [(255, ⟨some (req0 op), none, some (3, 2)⟩)] } }

/-- A request waits in mailbox 255: SEQUENCE of the request, opcode, version of the session, and the last reply. -/
def waiting (seq op : Nat) (v : Option (Nat × Nat)) (last : Option Reply) : State :=
  let s := putWords (mk [(F.MBX_STATUS_STATE, 1, 0, 255), (F.MBX_STATUS_SEQ, 7, 0, 255), (F.MBX_DEV_STATUS_STEOL_READY, 1, 0, 0)]) (reqArea 255)
    [2 + 3 * 2 ^ 8 + op * 2 ^ 16, seq, 0]
  { s with host := { s.host with mbx := [(255, ⟨none, last, v⟩)] } }

/-- A reply with a SEQUENCE. -/
def reply0 (seq : Nat) : Reply := ⟨seq, 3, 3, 2, 0, 0, 0, 0, [], []⟩

/-- A kernel image with one bundle (Table 5-14), in system SRAM. -/
def kimage : List Nat := [0x4B45524E, 3 * 2 ^ 16, 5 + 9 * 2 ^ 16, 0, 36, 4, 0, 1638864897, 40, 0]

/-- A job of mailbox 255 is under way; the kernel image lies in system SRAM. -/
def jobOf (k : JobKind) : State :=
  let s := putWords State.reset sramBase kimage
  { s with host := { s.host with jobs := [⟨254, 7, 0, .fwSwap⟩, ⟨255, 7, 0, k⟩] } }

/-- A ring of a kind. -/
def ringOf (k : RingKind) (out : Bool) (f : Nat) : Ring := { ring0 with kind := k, out := out, func := f, items := [] }

/-- Ring 511 exists. -/
def withRing (x : Ring) (s : State) : State := { s with host := { s.host with rings := [(511, x)] } }

/-- A partition. -/
def part0 (m : Nat) : Partition := ⟨[(0, m)], [(1, 511)], [], [], [], [], [], [], 100, 100, 4, 60⟩

set_option maxRecDepth 20000 in
theorem witness_MailboxesTakeAndAnswerRequests :
    (State.reset.mbxOwner 255 = 0 ∧ State.reset.get F.MBX_STATUS_STATE 0 255 = 0 ∧ (serve 3).mbxOwner 255 = 0 ∧ (serve 3).get F.MBX_STATUS_STATE 0 255 = 2 ∧
      State.reset.mbxOwner 255 ≠ 16) ∧
    (State.reset.nextPending = none) ∧
    (∀ v ∈ [none, some (3, 2)], (waiting 7 3 v none).nextPending = some 255 ∧ (waiting 7 3 v none).flag F.MBX_DEV_STATUS_STEOL_READY = true ∧
      ((List.range 256).filter (fun k => (waiting 7 3 v none).get F.MBX_STATUS_STATE 0 k = 2)).length < 16 ∧
      natBits ((waiting 7 3 v none).word (reqArea 255 + 4)) 0 16 = (waiting 7 3 v none).get F.MBX_STATUS_SEQ 0 255) ∧
    (natBits ((waiting 6 3 none none).word (reqArea 255 + 4)) 0 16 ≠ (waiting 6 3 none none).get F.MBX_STATUS_SEQ 0 255) ∧
    (((waiting 7 3 none (some (reply0 7))).mbx 255).last = some (reply0 7) ∧ ((waiting 7 3 none (some (reply0 6))).mbx 255).last = some (reply0 6)) ∧
    ((waiting 7 3 (some (3, 2)) none).headerStatus 255 ⟨3, 7, false, 3, 2, false⟩ 0 .good = 0 ∧
      (waiting 7 3 none none).headerStatus 255 ⟨3, 7, false, 3, 2, false⟩ 0 .good = 0x11) ∧
    (∀ k ∈ [.repairRemove 3, .fwStage 1 2 3, .kernel sramBase 40, .kernel sramBase 39],
      (jobOf k).host.jobs.find? (fun j => decide (j.mbx = 255 ∧ j.seq = 7 ∧ j.kind ≠ .fwSwap ∧ j.kind ≠ .fwAbort)) = some ⟨255, 7, 0, k⟩) ∧
    (((jobOf (.kernel sramBase 40)).kernelCause sramBase 40 true).1 = 0 ∧ ((jobOf (.kernel sramBase 39)).kernelCause sramBase 39 true).1 ≠ 0) ∧
    (∀ j ∈ (jobOf .fwSwap).host.jobs, j.mbx ≠ 254 ∨ j.seq ≠ 8) :=
  ⟨by decide, by decide +kernel, by decide +kernel, by decide +kernel, by decide, by decide, by decide, by decide +kernel, by decide⟩

theorem witness_SessionsOpenCloseAndShareTheDevice :
    (∀ op ∈ [1, 2, 3, 4, 5, 0x101, 0x102, 0x103], (serve op).Serving 255 op (req0 op)) ∧
    ((0x0200#16).toNat / 256 ≤ 3 ∧ 3 ≤ (0x0302#16).toNat / 256 ∧ (0x0200#16).toNat / 256 ≤ 2 ∧ (0x02FF#16).toNat / 256 = 2 ∧ (0x01FF#16).toNat / 256 < 2 ∧
      3 < (0x0400#16).toNat / 256) ∧
    ((serve 4).partOk (16 : Fin 17) (part0 256) = false ∧ ((serve 4).partition (16 : Fin 17) (part0 255)).isRight = true) ∧
    ((serve 5).ring 511 = none ∧ (withRing (ringOf .event true 0) (serve 5)).ring 511 = some (ringOf .event true 0) ∧ (serve 5).mbxOwner 255 = 0 ∧
      (withRing (ringOf .event true 16) (serve 5)).ring 511 = some (ringOf .event true 16)) :=
  ⟨by unfold State.Serving; decide, by decide, by decide +kernel, by decide⟩
/-- A carrier: LTE at 20 MHz, one stream each way, one timeline. -/
def desc0 : CarrierDesc := ⟨.lte, 20000, 100, false, 1, 1, false, false, false, [0], 0, 0, 0, [], 0, 0, [], [], [], [], false, [], false⟩

/-- Carrier 65535 of function 0, started or not. -/
def withCar (on : Bool) (s : State) : State := { s with car := { s.car with list := [(65535, ⟨0, desc0, on, none⟩)] } }

/-- A state with no stack in RUN. -/
def stacksOff (s : State) : State :=
  mk [(F.PWR_DOM_STATE_STATE, 3, 0, 128), (F.PWR_DOM_STATE_STATE, 3, 0, 129), (F.PWR_DOM_STATE_STATE, 3, 0, 130), (F.PWR_DOM_STATE_STATE, 3, 0, 131)] s

/-- Kernel 65535 is installed. -/
def withKernel (s : State) : State := { s with exu := { s.exu with kernels := [(65535, ⟨65535, 0, 0, false, false, false, 0, 0, 0⟩)] } }

theorem witness_CarriersGraphsAndKernelsAreManaged :
    (∀ op ∈ [0x201, 0x202, 0x203, 0x204, 0x205, 0x206, 0x301, 0x302, 0x303, 0x304, 0x305, 0x306, 0x307], (serve op).Serving 255 op (req0 op)) ∧
    (((mk [(F.TBU_D_STATUS_TIME_VALID, 1, 0, 0)] (serve 0x201)).configureIn false 0 [] [desc0]).isRight = true ∧
      (match (serve 0x201).configureIn false 0 [] [desc0] with | .inl e => e.status == 0x15 | .inr _ => false) = true ∧
      (match (serve 0x201).configureIn false 0 [65535] [] with | .inl e => e.status == 0x1A | .inr _ => false) = true) ∧
    ((serve 0x202).mbxOwner 255 = 0 ∧ Tab.find (serve 0x202).car.list 65535 = none ∧
      Tab.find (withCar true (serve 0x202)).car.list 65535 = some ⟨0, desc0, true, none⟩ ∧
      (mk [(F.MBX_OWNER_FUNCTION, 16, 0, 255)] (withCar true (serve 0x202))).mbxOwner 255 ≠ 0) ∧
    ((stacksOff (withCar false (serve 0x203))).stacksHold = false ∧ (stacksOff (withCar false (serve 0x203))).consistCause desc0.tag true true = 0 ∧
      Tab.find (stacksOff (withCar false (serve 0x203))).car.list 65535 = some ⟨0, desc0, false, none⟩) ∧
    ((withCar true (serve 0x204)).GdxEmpty ∧ (withCar true (serve 0x204)).flag F.GDX_CTRL_EN = false) ∧
    ((∀ h ∈ [65535], Tab.find (withCar true (serve 0x205)).car.list h ≠ none) ∧ (∃ h ∈ [65535, 65534], Tab.find (withCar true (serve 0x205)).car.list h = none)) ∧
    (let s := withRing ring0 (withCar true (serve 0x206))
     s.badHandle (s.mbxOwner 255) 0 [65535] = none ∧ s.ring 511 = some ring0 ∧ ring0.func = s.mbxOwner 255) ∧
    ((serve 0x303).ownerOf Partition.templates 4095 = (serve 0x303).mbxOwner 255 ∧ (serve 0x303).tplCur 7 = none ∧
      (gdxIn (tpl1 (rec1 1 true) (0, 0)) none (serve 0x303)).tplCur 7 = some (tpl1 (rec1 1 true) (0, 0)) ∧
      ({ serve 0x303 with host := { (serve 0x303).host with parts := [(16, { part0 0 with templates := [(4095, 4095)] })] } } : State).ownerOf
        Partition.templates 4095 ≠ 0) ∧
    (Tab.find (serve 0x304).exu.kernels (65535#16).toNat = none ∧ Tab.find (withKernel (serve 0x304)).exu.kernels (65535#16).toNat ≠ none) ∧
    (15 < classActive 9 ∧ 191 < classActive 0 ∧ ¬ 255 < classActive 0) := by
  unfold State.Serving State.GdxEmpty
  exact ⟨by decide, by decide +kernel, by decide, by decide, by decide, by decide, by decide, by decide, by decide, by decide⟩
/-- A state in which a partition gives whistles, rings, queues and pools to function 16. -/
def parted (s : State) : State :=
  { s with host := { s.host with
      parts := [(16, ⟨[], [(511, 511)], [(1023, 1023)], [], [], [(61, 61)], [(1023, 1023)], [], 0, 0, 0, 1⟩)] } }

/-- Timeline 0 is enabled and channel 1,023 armed. -/
def withTl (s : State) : State := { s with aft := { s.aft with tls := [(0, tl0)], channels := [(1023, armedCh)] } }

theorem witness_TimeWhistlesAndPinsAreServed :
    (∀ op ∈ [0x401, 0x402, 0x403, 0x404, 0x405, 0x406, 0x407, 0x501, 0x502, 0x503, 0x504, 0x505], (serve op).Serving 255 op (req0 op)) ∧
    ((serve 0x404).tbu.switch = none ∧ (serve 0x404).active = .A ∧ (serve 0x404).active ≠ .B ∧
      ({ serve 0x404 with tbu := { (serve 0x404).tbu with switch := some ⟨.B, false, 0⟩ } } : State).tbu.switch ≠ none) ∧
    ((serve 0x501).ownerOf Partition.whistles 1023 = (serve 0x501).mbxOwner 255 ∧
      (parted (serve 0x501)).ownerOf Partition.whistles 1023 ≠ (parted (serve 0x501)).mbxOwner 255) ∧
    ((((serve 0x501).clr F.WHS_STATUS_ARM_REFUSED).whsWriteArm 1023 [0, 0, 0, 0, 0, 0]).flag F.WHS_STATUS_ARM_REFUSED = true ∧
      (((withTl (serve 0x501)).clr F.WHS_STATUS_ARM_REFUSED).whsWriteArm 1023 [0, 0, 0, 0, 0, 0]).flag F.WHS_STATUS_ARM_REFUSED = false) ∧
    ((withTl (serve 0x502)).whs 1023 = some armedCh ∧ (withTl (serve 0x502)).ownerOf Partition.whistles 1023 = 0) ∧
    (2 ^ 19 ≤ (0xFFFFFFFF#32).toNat ∧ (0x7FFFF#32).toNat < 2 ^ 19) := by
  unfold State.Serving
  exact ⟨by decide, by decide, by decide, by decide +kernel, by decide, by decide⟩

/-- Parameters of an output ring. -/
def ringParams (base : Nat) : RingParams := ⟨true, .event, false, base, 64, 0, 0, 0, 0, 0, none, false, 2047, true, 1, 0⟩

/-- The words of a queue table entry of depth d. -/
def queueWords0 (d : Nat) (s : State) : State := putWords s (sramBase + s.get F.SQ_TABLE_BASE_BASE + 64 * 1023) [0, d, 3, 0, 0, 0, 1]

theorem witness_RingsQueuesPoolsAndPowerAreServed :
    (∀ op ∈ [0x601, 0x602, 0x603, 0x604, 0x605, 0x606, 0x607, 0x608, 0x701, 0x702, 0x703, 0x704], (serve op).Serving 255 op (req0 op)) ∧
    ((serve 0x601).ownerOf Partition.rings (511#9).toNat = (serve 0x601).mbxOwner 255 ∧ (parted (serve 0x601)).ownerOf Partition.rings 511 ≠ 0 ∧
      (parted (serve 0x601)).mbxOwner 255 = 0 ∧ (serve 0x601).ring 511 = none ∧ (withRing ring0 (serve 0x601)).ring 511 ≠ none ∧
      (∀ v, ((serve 0x601).mbx 255).version = some v → v.1 = 3) ∧ ringOk (ringParams 1) = false ∧ ringOk (ringParams 64) = true) ∧
    ((withRing ring0 (serve 0x602)).ring 511 = some ring0 ∧ ring0.func = (withRing ring0 (serve 0x602)).mbxOwner 255 ∧
      ring0.func ≠ (mk [(F.MBX_OWNER_FUNCTION, 16, 0, 255)] (withRing ring0 (serve 0x602))).mbxOwner 255 ∧
      (ringOf .event true 0).items = []) ∧
    ((serve 0x603).ownerOf Partition.queues (1023#10).toNat = (serve 0x603).mbxOwner 255 ∧ (parted (serve 0x603)).ownerOf Partition.queues 1023 ≠ 0 ∧
      (List.replicate 16 (5#32)).length = 16 ∧
      (queueEntry ((serve 0x603).queueWords 1023)).refusal ((serve 0x603).queueOn 1023) ≠ 0 ∧
      (queueEntry ((queueWords0 4 (serve 0x603)).queueWords 1023)).refusal ((queueWords0 4 (serve 0x603)).queueOn 1023) = 0) ∧
    ((serve 0x604).gdx.snap = none ∧ 61 < (62#6).toNat ∧ (61#6).toNat ≤ 61 ∧ (serve 0x605).ownerOf Partition.bufPools 61 = 0) ∧
    ((0x10080000000#48).toNat % 0x80000000 = 0 ∧ hbmBase ≤ (0x10080000000#48).toNat ∧ (0x10080000000#48).toNat < hbmBase + 0x2400000000 ∧
      (0x10080000001#48).toNat % 0x80000000 ≠ 0) ∧
    (domAllowed (254#8).toNat = [] ∧ (23#8).toNat < 24) ∧
    ((∃ c ∈ (withCar true (serve 0x704)).car.list, c.2.started = true) ∧ (∀ c ∈ (withCar false (serve 0x704)).car.list, c.2.started = false) ∧
      (withCar false (serve 0x704)).domMoving 255 = false ∧ (withCar false (serve 0x704)).domState 255 = 0 ∧
      (withCar false (serve 0x704)).pwrJudge 255 4 = 0) := by
  unfold State.Serving
  refine ⟨by decide, ⟨by decide, by decide, by decide, by decide, by decide, ?_, by decide, by decide⟩, by decide, by decide, by decide, by decide, by decide,
    by decide⟩
  intro v hv
  cases hv
  rfl
/-- The firmware is in a stage, with or without a change of pairs that waits. -/
def fwState (p : FwPhase) (w : Option (Option Nat)) (s : State) : State := { s with host := { s.host with fw := ⟨p, [], 0, 0, w⟩ } }

/-- A kind-3 entry of the repair map for unit 65,535. -/
def withRepair (s : State) : State := { s with memx := { s.memx with repairs := [⟨3, false, false, 0xFFFF, 0, 0⟩] } }

set_option maxRecDepth 20000 in
theorem witness_TestsRecordsAndFirmwareAreServed :
    (∀ op ∈ [0x801, 0x802, 0x803, 0x804, 0x805, 0x806, 0x901, 0x902, 0x903, 0xA01, 0xA02, 0xA03, 0xA04, 0xA05, 0xB01, 0xB02, 0xB03],
      (serve op).Serving 255 op (req0 op)) ∧
    (testUnits 0 ≤ 216 ∧ 214 < testUnits 0 ∧ (∀ d, unitDomain 0 214 = some d → (serve 0x801).domState d ≠ 3 ∧ (serve 0x801).domState d ≠ 5) ∧
      (serve 0x801).dep.asked = [] ∧ (serve 0x801).onBench (0 * 2048 + 214) = false) ∧
    ((serve 0x802).portOfLane 31 = none ∧ (mk [(F.NET_PORT_STATUS_MODE, 1, 31, 0), (F.NET_PORT_STATUS_LANES, 0x8, 31, 0), (F.NET_PORT_CTRL_EN, 1, 31, 0)] (serve 0x802)).portOfLane 31 = some 31 ∧
      (mk [(F.NET_PORT_STATUS_MODE, 1, 31, 0), (F.NET_PORT_STATUS_LANES, 0x8, 31, 0), (F.NET_PORT_CTRL_EN, 1, 31, 0)] (serve 0x802)).flag F.NET_PORT_CTRL_EN 31 = true) ∧
    ((serve 0x803).csrPeek 0 ≠ none ∧ (serve 0x803).csrPeek 4 ≠ none ∧ (serve 0x804).dbgScope 1 = false ∧ csrAt 0 ≠ none ∧
      (mk [(F.BOOT_DBG_STATUS_UNLOCKED, 1, 0, 0), (F.BOOT_DBG_STATUS_SCOPE, 1, 0, 0)] (serve 0x804)).dbgScope 1 = true) ∧
    ((withRing (ringOf .event true 0) (serve 0x805)).ring 511 = some (ringOf .event true 0) ∧ (serve 0x805).mbxOwner 255 = 0) ∧
    ((serve 0x901).recBody (recNumber .board) = none ∧ ((serve 0x901).recWrite 0 [1, 2]).recBody (recNumber .board) = some [1, 2]) ∧
    (64 + ([1#32].length + 7) / 8 * 32 ≤ (recRegion (recNumber .board)).2 ∧ (∀ x ∈ (serve 0x902).memx.repairs, x.kind = 3 → x.macroId ≠ 0xFFFF) ∧
      (∃ x ∈ (withRepair (serve 0x902)).memx.repairs, x.kind = 3 ∧ x.macroId = 0xFFFF)) ∧
    ((fwState .staged none (serve 0xA01)).host.fw.phase ≠ .idle ∧ (serve 0xA01).host.fw.phase = .idle ∧
      (∀ j ∈ (serve 0xA01).host.jobs, j.kind.stages = false) ∧ (serve 0xA01).rollback ≤ (0#7).toNat ∧
      (mk [(F.MBX_DEV_STATUS_STANDBY_READY, 1, 0, 0)] (serve 0xA01)).flag F.MBX_DEV_STATUS_STANDBY_READY = true ∧ (7#4).getLsbD 3 = false) ∧
    ((fwState .staged none (serve 0xA03)).host.fw.phase = .staged ∧ (serve 0xA03).host.fw.phase ≠ .staged ∧ (fwState .trial none (serve 0xA04)).host.fw.swap = none ∧
      (fwState .trial none (serve 0xA04)).host.fw.phase = .trial ∧ (serve 0xA04).host.fw.phase ≠ .trial) ∧
    ((∀ p ∈ [FwPhase.staged, .trial], (mk [(F.MBX_DEV_STATUS_STANDBY_READY, 1, 0, 0)] (fwState p (some none) State.reset)).host.fw.swap ≠ none ∧
      (mk [(F.MBX_DEV_STATUS_STANDBY_READY, 1, 0, 0)] (fwState p (some none) State.reset)).flag F.MBX_DEV_STATUS_STANDBY_READY = true) ∧
      (fwState .trial (some none) State.reset).flag F.MBX_DEV_STATUS_STANDBY_READY = false ∧ State.reset.host.fw.swap = none) := by
  unfold State.Serving
  refine ⟨by decide, ⟨by decide, by decide, ?_, by decide, by decide⟩, by decide, by decide, by decide, ⟨by decide +kernel, by decide +kernel⟩, by decide,
    by decide, by decide, by decide⟩
  intro d hd
  cases hd
  decide
/-- Domain d in a state, with more fields. -/
def domState0 (d st : Nat) (l : List (Fld × Nat × Nat × Nat)) : State := mk ([(F.PWR_DOM_STATE_STATE, st, 0, d)] ++ l)

/-- Domain d enters (or wakes to) a target at a step. -/
def entering (d cur tgt step : Nat) (l : List (Fld × Nat × Nat × Nat) := []) : State :=
  domState0 d cur ([(F.PWR_DOM_STATE_ENTERING, 1, 0, d), (F.PWR_DOM_STATE_TARGET, tgt, 0, d), (F.PWR_DOM_STATE_STEP, step, 0, d)] ++ l)

/-- Domain d wakes from a state. -/
def wakingFrom (d cur : Nat) (l : List (Fld × Nat × Nat × Nat) := []) : State := domState0 d cur ([(F.PWR_DOM_STATE_WAKING, 1, 0, d)] ++ l)

/-- Domain 23 is idle long enough to doze. -/
def dozeReady : State :=
  let s := mk [(F.PWR_AUTO_DOZE_IDLE_NS, 8, 0, 0), (F.PWR_DOM_POLICY_DEEPEST, 2, 0, 23), (F.PWR_DOM_POLICY_MIN_DWELL_US, 0, 0, 23)]
  { s with tbu := { s.tbu with ticks := 5 } }

theorem witness_DomainsEnterWakeAndHibernate_requests :
    (domAllowed 40 ≠ [] ∧ domAllowed 200 = [] ∧ 3 ∉ domAllowed 40 ∧ 4 ∈ domAllowed 255 ∧ 5 ∈ domAllowed 255 ∧ 0 ∈ domAllowed 255) ∧
    ((wakingFrom 23 3).pwrWaits 23 = true ∧ State.reset.pwrWaits 23 = false ∧
      (mk [(F.CPL_PORT_STATUS_GAP_OPEN, 1, 15, 0)]).pwrWaits 127 = true) ∧
    ((domState0 23 0 []).domState 23 = 0 ∧ (domState0 23 0 [(F.PWR_DOM_POLICY_DEEPEST, 1, 0, 23)]).get F.PWR_DOM_POLICY_DEEPEST 0 23 < 2 ∧
      2 ≤ (domState0 23 0 [(F.PWR_DOM_POLICY_DEEPEST, 3, 0, 23), (F.PWR_DOM_POLICY_MIN_DWELL_US, 9, 0, 23)]).get F.PWR_DOM_POLICY_DEEPEST 0 23 ∧
      (domState0 23 0 [(F.PWR_DOM_POLICY_DEEPEST, 3, 0, 23), (F.PWR_DOM_POLICY_MIN_DWELL_US, 9, 0, 23)]).pwrDwelt 23 = false ∧
      (domState0 23 0 [(F.PWR_DOM_POLICY_DEEPEST, 1, 0, 23)]).pwrJudge 23 2 = 2) ∧
    ((∀ d ∈ [23, 27], ∀ cur ∈ [0, 3],
      (domState0 d cur [(F.PWR_DOM_POLICY_DEEPEST, 5, 0, d), (F.PWR_DOM_POLICY_MIN_DWELL_US, 0, 0, d)]).pwrJudge d 5 = 0) ∧
      (domState0 23 3 []).pwrJudge 23 0 = 0 ∧ (domState0 23 3 []).pwrWaits 23 = false) := by decide +kernel

theorem witness_DomainsEnterWakeAndHibernate_steps :
    (State.reset.mayDoze 23 = false ∧ dozeReady.mayDoze 23 = true) ∧
    ((∀ d ∈ [23, 27], (entering d 0 2 1).drained d = true ∧ (entering d 0 2 1).pwrOvertaken d = false ∧ (entering d 0 2 1).domState d ≠ 3 ∧
      (entering d 0 2 1).get F.PWR_DOM_STATE_STEP 0 d = 1 ∧ (entering d 0 2 1).get F.PWR_DOM_STATE_ENTERING 0 d = 1 ∧
      (entering d 0 2 1 [(F.PWR_DOM_STATE_PENDING_VALID, 1, 0, d)]).drained d = true ∧
      (entering d 0 2 1 [(F.PWR_DOM_STATE_PENDING_VALID, 1, 0, d)]).get F.PWR_DOM_STATE_PENDING 0 d = 0 ∧
      (entering d 1 2 1 [(F.PWR_DOM_STATE_PENDING_VALID, 1, 0, d)]).get F.PWR_DOM_STATE_PENDING 0 d < 1)) ∧
    ((entering 63 0 5 1).get F.PWR_DOM_STATE_STEP 0 63 ≠ 0 ∧ (entering 63 0 5 1).flag F.PWR_DOM_STATE_PENDING_VALID 0 63 = false ∧
      (entering 23 0 5 4).get F.PWR_DOM_STATE_STEP 0 23 = 4 ∧ (entering 23 0 5 6).get F.PWR_DOM_STATE_STEP 0 23 = 6 ∧
      3 ≤ (entering 23 0 5 6).get F.PWR_DOM_STATE_TARGET 0 23) ∧
    ((∀ d ∈ [32, 63], (wakingFrom d 5).get F.PWR_DOM_STATE_WAKING 0 d = 1 ∧ (wakingFrom d 5).domState d ≠ 1 ∧
      (wakingFrom d 5).flag F.PWR_DOM_STATE_PENDING_VALID 0 d = false ∧ (wakingFrom d 5).pwr.rstDom ≠ some d) ∧
      (wakingFrom 23 3).domState 23 = 3 ∧ (wakingFrom 23 3).pwr.sigs = []) ∧
    ((entering 27 0 1 0).get F.PWR_DOM_STATE_TARGET 0 27 = 1 ∧ (wakingFrom 27 1).domState 27 = 1 ∧ (wakingFrom 27 1).pwr.rstDom ≠ some 27 ∧
      (wakingFrom 27 1).get F.PWR_DOM_STATE_ENTERING 0 27 = 0) ∧
    (memKind hbmBase = some .hbm ∧ (domState0 128 3 []).stackAsleep (stackOf hbmBase) = true ∧ (domState0 128 3 []).domMoving (stackDomain 0) = false ∧
      memKind sramBase ≠ some .hbm) ∧
    ((domState0 255 4 []).domState 255 = 4 ∧ (domState0 255 4 []).get F.PWR_DOM_STATE_WAKING 0 255 = 0 ∧
      (wakingFrom 255 4).domState 255 = 4 ∧ (wakingFrom 255 4).get F.PWR_DOM_STATE_WAKING 0 255 = 1) := by decide +kernel
/-- Sensor 99 whose fuse word puts 25 °C at count 1,000 and 1/16 °C at one count; the Tender samples it. -/
def sensorState (above : Bool) (l : List (Fld × Nat × Nat × Nat)) : State :=
  let s := mk l
  { s with memx := { s.memx with fuses := [(0x50 + 99, 1000 + 2360 * 2 ^ 16)] }
           pins := { s.pins with aon := true }
           thm := { s.thm with sensors := [(99, ⟨0, 0, 0, above⟩)] } }

/-- Event ring 511 of function 0 exists, with room. -/
def eventRing (s : State) : State :=
  let s := withRing { ringOf .event true 0 with entries := 64 } s
  { s with host := { s.host with evRings := [(0, (511, 2047))] } }

/-- The thermal part as given. -/
def thm (f : Thm → Thm) (s : State := State.reset) : State := { s with thm := f s.thm }

/-- Rule 31 of the Tender with fields put, and samples seen. -/
def ruleState (l : List (Fld × Nat)) (samples : List Int) (s : State := State.reset) : State :=
  let s := mk ([(F.TND_CTRL_RULES_EN, 1, 0, 0), (F.TND_RULE_CFG_EN, 1, 0, 31), (F.TND_RULE_CFG_INPUT, 0x77, 0, 31),
    (F.TND_RULE_THRESH_HI, 10, 0, 31), (F.TND_RULE_THRESH_LO, 5, 0, 31)] ++ l.map (fun x => (x.1, x.2, 0, 31))) s
  { s with pwr := { s.pwr with rules := [(31, ⟨samples, 0, none, 0⟩)] } }

theorem witness_SensorsLimitsTripsAndTenderRulesAct_sensors :
    ((domState0 255 4 []).sampled 92 = false ∧ (sensorState true []).sampled 99 = true ∧ (sensorState true []).sensorFailed 99 = false ∧
      (sensorState true [(F.THM_FAILED_FAILED, 8, 0, 3)]).sensorFailed 99 = true) ∧
    (natBits (Tab.get 0 (sensorState true []).memx.fuses (0x50 + 99)) 0 16 = 1000 ∧
      natBits (Tab.get 0 (sensorState true []).memx.fuses (0x50 + 99)) 16 16 = 2360 ∧
      (∀ x ∈ [((0 : Nat), (-600 : Int)), (1000, 400), (2440, 1840), (2441, 1841), (3001, 2401)],
        (x.2 - 400) * (2360 - 1000) = ((x.1 : Int) - 1000) * 85 * 16)) ∧
    (((sensorState true []).sensor 99).above = true ∧ ((sensorState false []).sensor 99).above = false ∧ (sensorState true []).thm.tripped = false) ∧
    ((sensorState false [(F.THM_LIMIT_WARN, 60, 0, 0)]).get F.THM_INJ_EN = 0 ∧ (sensorState false []).get F.THM_LIMIT_HYST ≠ 0 ∧
      (sensorState false []).get F.THM_CTRL_WARN_EN = 1 ∧ (sensorState false []).get F.THM_CTRL_THROTTLE_EN = 1 ∧
      ((sensorState false [(F.THM_LIMIT_WARN, 60, 0, 0)]).get F.THM_LIMIT_WARN * 16 : Int) ≤ 1840) := by decide +kernel

theorem witness_SensorsLimitsTripsAndTenderRulesAct_answers :
    (State.reset.thm.warnDue = none ∧ (let s := eventRing (thm (fun x => { x with warnDue := some (99, 400) }))
      s.thm.warnDue = some (99, 400) ∧ Tab.find s.host.evRings 0 = some (511, 2047) ∧ Nat.testBit 2047 8 = true ∧ s.ringHasRoom 511 = true ∧
      s.ringDetached 511 = false)) ∧
    (State.reset.thm.throttleDue = false ∧ (let s := thm (fun x => { x with throttleDue := true }) (mk [(F.PWR_DOM_POLICY_MIN_DWELL_US, 0, 0, 27)])
      s.thm.throttleDue = true ∧ s.within512 = true ∧ s.domState 27 = 0 ∧ s.domMoving 27 = false ∧ 1 ≤ s.get F.PWR_DOM_POLICY_DEEPEST 0 27 ∧
      s.pwrDwelt 27 = true)) ∧
    (State.reset.get F.THM_STATUS_THROTTLE = 0 ∧ (let s := mk [(F.THM_STATUS_THROTTLE, 1, 0, 0)] (withCar true State.reset)
      s.get F.THM_STATUS_THROTTLE = 1 ∧ s.thm.throttleDue = false ∧ s.lowest = some 65535 ∧
      Tab.find s.car.list 65535 = some ⟨0, desc0, true, none⟩ ∧ s.GdxEmpty ∧ s.flag F.GDX_CTRL_EN = false)) ∧
    ((∀ x ∈ (thm (fun x => { x with trim := [27] }) (domState0 27 1 [])).car.list, x.2.shed ≠ some .thermal) ∧
      (thm (fun x => { x with trim := [27] }) (domState0 27 1 [])).thm.trim = [27] ∧
      (thm (fun x => { x with trim := [27] }) (domState0 27 1 [])).domState 27 = 1 ∧
      (thm (fun x => { x with trim := [27] }) (domState0 27 1 [])).domMoving 27 = false) ∧
    (natBits (0x6964#32).toNat 0 8 = 100 ∧ natBits (0x6964#32).toNat 8 8 = 105 ∧ 100 < natBits (0x6965#32).toNat 0 8 ∧
      105 < natBits (0x6A00#32).toNat 8 8) ∧
    (let s : State := { thm (fun x => { x with tripped := true }) with pins := { State.reset.pins with rails := 0 } }
     s.thm.tripped = true ∧ s.thm.lockout = false ∧ s.pins.rails = 0 ∧ s.tenderCool = true ∧ State.reset.thm.tripped = false ∧
      State.reset.pins.rails ≠ 0 ∧ s.boot.rcs = none) := by
  unfold State.GdxEmpty
  exact ⟨by decide, by decide, by decide +kernel, by decide, by decide, by decide⟩

theorem witness_SensorsLimitsTripsAndTenderRulesAct_rules :
    (State.reset.get F.TND_RULE_CFG_EN 0 31 = 0 ∧ (ruleState [(F.TND_RULE_CFG_INPUT, 0x7F)] []).inputNow 31 0x7F 5 = none) ∧
    (∀ x ∈ [(10 : Int), 7, 5], (ruleState [] []).inputNow 31 0x77 x = some x ∧ (ruleState [] []).get F.TND_CTRL_RULES_EN = 1 ∧
      (ruleState [] []).get F.TND_RULE_CFG_EN 0 31 = 1 ∧ (ruleState [] []).get F.TND_RULE_CFG_FILTER 0 31 = 0 ∧
      (x :: ((ruleState [] []).rule 31).samples).take (2 ^ (ruleState [] []).get F.TND_RULE_CFG_N 0 31) = [x] ∧
      signed 16 ((ruleState [] []).get F.TND_RULE_THRESH_LO 0 31) < signed 16 ((ruleState [] []).get F.TND_RULE_THRESH_HI 0 31)) ∧
    ((ruleState [] []).get F.TND_RULE_CFG_POLARITY 0 31 = 0 ∧ (ruleState [(F.TND_RULE_CFG_POLARITY, 1)] []).get F.TND_RULE_CFG_POLARITY 0 31 = 1 ∧
      (ruleState [(F.TND_RULE_ACTION_ASSERTED, 1)] []).get F.TND_RULE_ACTION_ASSERTED 0 31 = 1) ∧
    (∀ k ∈ [0, 1, 2, 3], (ruleState [(F.TND_RULE_ACTION_KIND, k)] []).get F.TND_RULE_ACTION_KIND 0 31 = k) ∧
    ((ruleState [] [] (mk [(F.MBX_DEV_STATUS_STEOL_READY, 1, 0, 0)])).get F.MBX_DEV_STATUS_STEOL_READY = 1 ∧
      (ruleState [] []).get F.MBX_DEV_STATUS_STEOL_READY = 0) ∧
    (let s := ruleState [(F.TND_RULE_ACTION_KIND, 1), (F.TND_RULE_ACTION_DOMAIN, 27)] [] (domState0 27 3 [])
     s.get F.TND_RULE_ACTION_DOMAIN 0 31 = 27 ∧ s.get F.TND_RULE_ACTION_TARGET 0 31 ∈ domAllowed 27 ∧
      s.get F.TND_RULE_ACTION_TARGET 0 31 < s.domState 27 ∧ s.domMoving 27 = false ∧
      (ruleState [(F.TND_RULE_ACTION_TARGET, 3)] [] (domState0 27 3 [])).domState 27 ≤ 3) ∧
    (let s := ruleState [(F.TND_RULE_ACTION_KIND, 1), (F.TND_RULE_ACTION_DOMAIN, 255)] [] (domState0 255 4 [])
     s.get F.TND_RULE_ACTION_DOMAIN 0 31 = 255 ∧ s.domState 255 = 4 ∧ s.get F.PWR_DOM_STATE_WAKING 0 255 = 0) := by decide
/-- Executor e is quarantined, and some units have passed their self-test. -/
def quarState (e : Nat) (passed : List Nat) (l : List (Fld × Nat × Nat × Nat)) : State :=
  let s := mk l
  { s with gdx := { s.gdx with quarantine := [e] }, dep := { s.dep with passed := passed } }

/-- MXC 0 stands on the bench and has passed; the others serve. -/
def mxRot : State :=
  let s := mk ((List.range 23).map (fun c => (F.MXC_STATUS_IN_SERVICE, 1, c + 1, 0)))
  { s with dep := { s.dep with tests := [(2048, .passed)], passed := [2048] } }

/-- One carrier, shed for a cause. -/
def shedState (why : Option ShedCause) : State :=
  let s := stacksOff State.reset
  { s with car := { s.car with list := [(65535, ⟨0, desc0, false, why⟩)] } }

theorem witness_FaultyUnitsAreReplacedRotatedAndTested_units :
    (191 ∉ State.reset.gdx.quarantine ∧ 191 ∈ (quarState 191 [] []).gdx.quarantine ∧ (quarState 191 [] []).MapRoom) ∧
    (let s := quarState 191 [23 * 9 + 8] []
     s.lender 191 = none ∧ s.get F.SCL_STATUS_BENCH_POS 23 = 8 ∧ s.sclPos 23 7 = 7 ∧ s.qualifies (23 * 9 + 8) = true ∧
      s.sclMapBad 23 (mapSet (s.get F.SCL_MAP_SLOT 23) 7 8) = false ∧ s.posIdle 23 7 = true ∧ s.posIdle 23 8 = true) ∧
    (∀ e ∈ [192, 351], ∀ b, b < classBench (execClass e) → (quarState e [] []).qualifies ((quarState e [] []).benchUnit (execClass e) b) = false) ∧
    ((quarState 0 [2048 + 5] []).qualifies (2048 + 5) = true ∧ (∀ m, m < 5 → m ≠ 23 → (quarState 0 [2048 + 5] []).qualifies (2048 + m) = false)) ∧
    (mxRot.rotIn .mxc = some 2048 ∧ mxRot.mayRotate 2048 = true ∧ mxRot.rotOut 2048 = some 2049) ∧
    ((mk ((List.range 24).map (fun c => (F.MXC_STATUS_IN_SERVICE, 1, c, 0)))).rotIn .mxc = none ∧ State.reset.rotIn .mxc = some 2048 ∧
      State.reset.mayRotate 2048 = false ∧ Tab.find State.reset.dep.tests 2048 ≠ some .passed) ∧
    (let s : State := { mxRot with dep := { mxRot.dep with steps := [(2048, 2049)] } }
     s.dep.steps = [(2048, 2049)] ∧ s.get F.MXC_STATUS_IN_SERVICE (2049 % 2048) = 1 ∧
      ({ State.reset with dep := { State.reset.dep with steps := [(2048, 2049)] } } : State).get F.MXC_STATUS_IN_SERVICE 1 = 0) ∧
    (State.reset.dep.steps = [] ∧ Tab.find State.reset.scl.mapPending 23 = none) := by
  unfold State.MapRoom
  exact ⟨by decide, by decide +kernel, by decide +kernel, by decide +kernel, by decide +kernel, by decide +kernel, by decide +kernel, by decide⟩

theorem witness_FaultyUnitsAreReplacedRotatedAndTested_tests :
    (¬ State.reset.Gone 7 ∧ State.reset.onBench 7 = false ∧ ¬ State.reset.Gone 8 ∧ State.reset.onBench 8 = true ∧ State.reset.dep.asked = [] ∧
      Tab.find State.reset.dep.tests 8 = none ∧ State.reset.MapRoom) ∧
    ((withRepair State.reset).Gone 0xFFFF ∧ Tab.find mxRot.dep.tests 2048 = some .passed) ∧
    (State.reset.get F.MBX_DEV_STATUS_STANDBY_READY = 0 ∧ (let s := mk [(F.MBX_DEV_STATUS_STANDBY_READY, 1, 0, 0), (F.MBX_STATUS_STATE, 2, 0, 255)]
      s.get F.MBX_DEV_STATUS_STANDBY_READY = 1 ∧ s.get F.MBX_DEV_STATUS_TRIAL = 0 ∧ s.NoEvents ∧ (∀ q, q < 3 → s.erqLevel q = 0) ∧
      s.get F.MBX_STATUS_STATE 0 255 = 2)) ∧
    (let s := mk [(F.MBX_DEV_STATUS_STEOL_READY, 1, 0, 0)]
     s.get F.MBX_DEV_STATUS_STANDBY_READY = 0 ∧ s.get F.MBX_DEV_STATUS_STEOL_READY = 1 ∧ ¬ s.Gone (15 * 2048 + 1) ∧ s.dep.pairFails = [] ∧
      Tab.get [] ({ s with dep := { s.dep with pairFails := [(1, [0, 0])] } } : State).dep.pairFails 1 = [0, 0]) ∧
    (State.reset.repairEntry 17 3 = false ∧ State.reset.car.list = [] ∧
      ({ State.reset with memx := { State.reset.memx with repairs := [⟨3, false, false, 17 * 2048 + 3, 0, 0⟩] } } : State).repairEntry 17 3 = true) ∧
    ((∀ x ∈ (shedState (some .thermal)).car.list, x.2.shed = none ∨ x.2.shed = some .thermal) ∧ State.reset.stacksHold = true ∧
      (shedState (some .unit)).car.list = [(65535, ⟨0, desc0, false, some .unit⟩)] ∧ 65535 ∉ (shedState (some .unit)).car.prec ∧
      (shedState (some .unit)).fitsWith 65535 = true ∧ (shedState (some .unit)).stacksHold = false) := by
  unfold State.MapRoom State.Gone State.NoEvents
  exact ⟨by decide, by decide, by decide, by decide, by decide, by decide +kernel⟩
/-- Record n of the critical queue lies in the ring; level records are unread. -/
def erqState (q level : Nat) (l : List (Fld × Nat × Nat × Nat)) : State :=
  let s := mk ([(F.ECC_ERQ_CTRL_EN, 1, 0, 0), (F.ECC_ERQ_WR_WR, level, 0, q)] ++ l)
  s.setWords (s.erqAddr q 0) [5 + 3 * 2 ^ 8 + q * 2 ^ 12 + 9 * 2 ^ 16, 7 + 2 ^ 16, 4, 0, 0, 0, 0, 0]

/-- The report of that record again. -/
def report0 (q : Nat) : Report := ⟨3, 5, q, 9, 7, 4⟩

theorem witness_ErrorRecordsAreWrittenMergedAndRead :
    ((State.reset.get F.ECC_ERQ_FIRST_VALID_VALID).testBit 2 = false ∧ State.reset.activeTime.ns < 1000000000 ∧
      ((erqState 2 1 [(F.ECC_ERQ_FIRST_VALID_VALID, 4, 0, 0)]).get F.ECC_ERQ_FIRST_VALID_VALID).testBit 2 = true) ∧
    (State.reset.get F.ECC_ERQ_CTRL_EN = 0 ∧ (erqState 2 1 []).get F.ECC_ERQ_CTRL_EN = 1) ∧
    (∀ n ∈ [1, 511, 512], (erqState 2 n [(F.ECC_ERQ_CTRL_COAL_EN, 0, 0, 0)]).get F.ECC_ERQ_CTRL_COAL_EN = 0 ∧
      (erqState 2 n [(F.ECC_ERQ_CTRL_COAL_EN, 0, 0, 0)]).erqLevel 2 = n ∧ (erqState 2 n []).erqLevel 2 ≤ 512) ∧
    ((erqState 2 1 []).get F.ECC_ERQ_CTRL_COAL_EN = 1 ∧ (erqState 2 1 []).erqMatches (report0 2) = [0] ∧
      report0 2 = ⟨3 % 16, 5 % 256, min 2 2, 9 % 2 ^ 16, 7 % 2 ^ 16, 4 % 2 ^ 48⟩) ∧
    (State.reset.erqLevel 2 = 0 ∧ (erqState 2 1 []).host.errStream = none ∧ (erqState 2 1 []).NoEvents ∧ (erqState 2 1 []).memx.logNext < 16384) ∧
    (((1#16).toNat + 2 ^ 16 - (erqState 2 1 []).get F.ECC_ERQ_RD_RD 0 2) % 2 ^ 16 = 1 ∧
      (erqState 2 1 []).erqLevel 2 < ((65535#16).toNat + 2 ^ 16 - (erqState 2 1 []).get F.ECC_ERQ_RD_RD 0 2) % 2 ^ 16) := by
  unfold State.NoEvents
  exact ⟨by decide, by decide, by decide, by decide, by decide, by decide⟩
/-- The word of system SRAM is poisoned. -/
def poisoned0 (w : Nat) : State := { State.reset with memx := { State.reset.memx with chk := [(w, .poison)] } }

/-- Granule 0 of every stack is ready. -/
def hbmReady : State := mk ((List.range 4).map (fun st => (F.MEM_READY_LO_READY, 1, st, 0)))

/-- A program of the record store is under way, its data word j holding j, after some failures. -/
def rcsState (fails : Nat) : State :=
  { mk [(F.RCS_STATUS_BUSY, 1, 0, 0)] with boot := { State.reset.boot with rcs := some ⟨5, List.range 8, fails⟩ } }

/-- Stack 3 is trained, at granule g, with all granules below it ready. -/
def granState (g : Nat) : State :=
  mk [(F.MEM_STATUS_TRAINED, 1, 3, 0), (F.MEM_INIT_GRANULE, g, 3, 0), (F.MEM_READY_LO_READY, 2 ^ min 32 g - 1, 3, 0), (F.MEM_READY_HI_READY, 2 ^ (g - 32) - 1, 3, 0)]

theorem witness_MemoriesAnswerCorrectAndPoison :
    (memKind 0xFFFFFFFFFFFF = none ∧ memKind rcsBase = some .rcs ∧ memKind sramBase = some .sram ∧ memKind hbmBase = some .hbm ∧
      memKind 0x123FFFFFFC0 = some .hbm) ∧
    ((mk [(F.PWR_DOM_STATE_STATE, 3, 0, 128)]).memWaits .hbm hbmBase false = true ∧ (∀ k ∈ [MemKind.sram, .hbm, .rcs], ∀ w ∈ [true, false],
      hbmReady.memWaits k hbmBase w = false) ∧ State.reset.memWaits .hbm hbmBase true = true) ∧
    (hbmReady.lineReady hbmBase = true ∧ State.reset.lineReady hbmBase = false ∧ hbmReady.chkOf hbmBase = none ∧
      (mk [(F.ECC_CTRL_REPORT_EN, 0, 0, 0)] hbmReady).get F.ECC_CTRL_REPORT_EN = 0 ∧ hbmReady.get F.MEM_CH_ERASE_EN 0 0 = 0) ∧
    ((∀ k ∈ [MemKind.sram, .hbm, .rcs], (eccCounter (ceClass k)).isSome = true ∧ (eccCounter (ceClass k + 3)).isSome = true) ∧
      (List.replicate 8 (0 : Byte)).length = wordBytes .sram ∧ (poisoned0 sramBase).chkOf (wordOf .sram sramBase) = some .poison ∧
      sramBase % 8 = 0 ∧ State.reset.get F.ECC_INJ_ARM = 0) ∧
    (wordOf .sram (sramBase + 5 + [(0 : Byte), 1, 2].length - 1) = wordOf .sram (sramBase + 5) ∧
      wordOf .sram (sramBase + 6 + [(0 : Byte), 1, 2].length - 1) ≠ wordOf .sram (sramBase + 6) ∧ [(0 : Byte), 1, 2].length < wordBytes .sram) ∧
    ((∀ g ∈ [0, 34, 35], (granState g).get F.MEM_STATUS_TRAINED 3 = 1 ∧ (granState g).get F.MEM_STATUS_INIT_DONE 3 = 0 ∧
      (granState g).get F.MEM_INIT_GRANULE 3 = g ∧ (granState g).memx.prio = [] ∧ (granState g).memx.paused = [] ∧ (granState g).memx.waiting = []) ∧
      State.reset.get F.MEM_STATUS_TRAINED 3 = 0) ∧
    (State.reset.thm.tripped = false ∧ State.reset.get F.RCS_STATUS_BUSY = 0 ∧ (rcsState 0).get F.RCS_STATUS_BUSY = 1 ∧ State.reset.boot.rcs = none ∧
      ({ State.reset with thm := { State.reset.thm with tripped := true } } : State).thm.tripped = true) ∧
    ((∀ n ∈ [0, 2, 3], (rcsState n).boot.rcs = some ⟨5, List.range 8, n⟩ ∧ (rcsState n).boot.warmDue = none) ∧ (List.range 8).length = 8 ∧
      (∀ x ∈ List.range 8, x < 2 ^ 32)) :=
  ⟨by decide, by decide +kernel, by decide +kernel, by decide, by decide, by decide +kernel, by decide, by decide⟩
/-- Boot as given. -/
def bootState (l : List (Fld × Nat × Nat × Nat)) (f : Boot → Boot) : State := { mk l with boot := f State.reset.boot }

/-- A warm reset is due, RESET_N high or low. -/
def warmState (low : Bool) (rcs : Option RcsJob) : State :=
  let s := bootState [(F.BOOT_STATUS_STATE, 5, 0, 0)] (fun b => { b with romDue := false, warmDue := some .software, rcs := rcs })
  { s with pins := { s.pins with resetN := low } }

/-- The debug policy of the fuses. -/
def dbgState (p : Nat) (l : List (Fld × Nat × Nat × Nat)) : State :=
  let s := mk l
  { s with memx := { s.memx with fuses := [(0x43, p)] } }

theorem witness_BootResetsAndDebugUnlockFollowTheirChapter_boot :
    (State.reset.boot.romDue = true ∧ State.reset.pins.resetN = false ∧ (bootState [] (fun b => { b with romDue := false })).boot.romDue = false ∧
      State.reset.get F.BOOT_CTRL_SLOT_NEXT_VALID = 0 ∧ laterCopy [some (0xFFFFFFFF, 0), some (0, 1)] = some (1, 0, 1) ∧
      State.reset.boot.why = .powerOn ∧ (State.reset.recBody 0).isSome = false ∧ ((State.reset.recWrite 0 [1]).recBody 0).isSome = true ∧
      (mk [(F.BOOT_CTRL_SLOT_NEXT_VALID, 1, 0, 0)]).get F.BOOT_CTRL_SLOT_NEXT_VALID = 1) ∧
    (State.reset.get F.BOOT_STATUS_STATE ≠ 1 ∧ (bootState [(F.BOOT_STATUS_STATE, 1, 0, 0)] id).get F.BOOT_STATUS_STATE = 1 ∧
      (bootState [(F.BOOT_STATUS_STATE, 1, 0, 0)] id).rollback ≤ (127#7).toNat ∧ (bootState [(F.BOOT_STATUS_STATE, 1, 0, 0)] id).memx.repairs = [] ∧
      1 - 0 ∉ (bootState [(F.BOOT_STATUS_STATE, 1, 0, 0)] id).boot.failed ∧ 1 - 0 ∈ (bootState [] (fun b => { b with failed := [1] })).boot.failed ∧
      (bootState [] (fun b => { b with primary := 1 })).boot.slot ≠ (bootState [] (fun b => { b with primary := 1 })).boot.primary) ∧
    (let s := bootState [(F.BOOT_STATUS_STATE, 4, 0, 0)] id
     4 ≤ s.get F.BOOT_STATUS_STATE ∧ s.get F.BOOT_STATUS_STATE ≠ 15 ∧ s.get F.MEM_STATUS_TRAINED 3 = 0 ∧ s.domState (128 + 3) = 0 ∧ s.memx.repairs = [] ∧
      s.memx.prio = [] ∧ s.memx.paused = [] ∧ s.car.list = [] ∧ s.MapRoom) ∧
    (let s := bootState [(F.BOOT_STATUS_STATE, 4, 0, 0)] (fun b => { b with trained := [0, 1, 2, 3] })
     s.get F.BOOT_STATUS_STATE = 4 ∧ (∀ st, st < 4 → st ∈ s.boot.trained) ∧ (∀ k, k < 3 → s.recBody k = none) ∧ s.dbgPolicy ≠ 2 ∧
      (dbgState 2 []).dbgPolicy = 2) ∧
    ((warmState false none).boot.warmDue = some .software ∧ (warmState false none).pins.resetN = false ∧ (warmState true none).pins.resetN = true ∧
      (warmState false none).boot.rcs = none ∧ (warmState false (some ⟨0, [], 0⟩)).boot.rcs ≠ none ∧ State.reset.boot.warmDue = none ∧
      (warmState false none).dieOn = true ∧ (warmState true none).thm.tripped = false ∧ (warmState true none).pins.lockout = false ∧
      (let s : State := { warmState true none with thm := { State.reset.thm with tripped := true, lockout := true } }
       s.thm.tripped = true ∧ s.thm.lockout = true) ∧
      ({ warmState true none with pins := { (warmState true none).pins with lockout := true } } : State).pins.lockout = true) := by
  unfold State.MapRoom
  exact ⟨by decide +kernel, by decide, by decide, by decide +kernel, by decide⟩

theorem witness_BootResetsAndDebugUnlockFollowTheirChapter_debug :
    ((0x5A#8 : BitVec 8) = 0x5A ∧ (0xA5#8 : BitVec 8) ≠ 0x5A ∧ 28 ≤ (28#8).toNat ∧ State.reset.pwr.rstDom = none ∧ State.reset.domServes 27 = true ∧
      State.reset.domState 27 ≠ 5 ∧ (mk [(F.PWR_DOM_STATE_STATE, 5, 0, 27)]).domState 27 = 5) ∧
    (State.reset.boot.wdog = none ∧ (∀ b ∈ [true, false], (bootState [] (fun x => { x with wdog := some 0, fromNext := b })).boot.wdog ≠ none ∧
      (bootState [] (fun x => { x with wdog := some 0, fromNext := b })).boot.fromNext = b)) ∧
    ((dbgState 1 []).dbgPolicy = 1 ∧ (dbgState 1 []).get F.BOOT_DBG_STATUS_LOCKED_OUT = 0 ∧ 1 ≤ (3#3).toNat ∧ (3#3).toNat ≤ 3 ∧
      ¬ (4#3).toNat ≤ 3 ∧ State.reset.dbgPolicy ≠ 1) ∧
    (State.reset.get F.BOOT_DBG_STATUS_CHAL_VALID = 0 ∧ (dbgState 1 [(F.BOOT_DBG_STATUS_CHAL_VALID, 1, 0, 0)]).get F.BOOT_DBG_STATUS_CHAL_VALID = 1 ∧
      2 ≤ (dbgState 1 [(F.BOOT_DBG_STATUS_FAILS, 2, 0, 0)]).get F.BOOT_DBG_STATUS_FAILS) :=
  ⟨by decide +kernel, by decide, by decide, by decide⟩
/-- Pins as given, with fields. -/
def pinsState (l : List (Fld × Nat × Nat × Nat)) (f : Pins → Pins) : State := { mk l with pins := f State.reset.pins }

/-- A chip that powers up: some rails in their band, some enabled. -/
def powerUp (rails en fails : Nat) : State := pinsState [] (fun p => { p with rails := rails, enabled := en, upFails := fails })

/-- The Tender's sensors that it samples and that work. -/
def aonSeen (s : State) : List Nat := [96, 97, 98, 99].filter (fun k => s.sampled k && !s.sensorFailed k)

theorem witness_SuppliesFaultsAndTheSmbusTargetBehave :
    (State.reset.thm.tripped = false ∧ State.reset.pins.lockout = false ∧ (pinsState [] (fun p => { p with lockout := true })).pins.lockout = true ∧
      State.reset.pins.aon = true ∧ (pinsState [] (fun p => { p with aon := false })).pins.aon = false ∧ State.reset.pins.rails.testBit 6 = true) ∧
    ((powerUp 0 1 0).pins.rails.testBit 0 = false ∧ (powerUp 0 1 0).pins.rails ||| 2 ^ 0 ≠ 127 ∧ (powerUp 0 1 0).pins.enabled < railsInOrder 1 + 1 ∧
      (powerUp 1 2 0).pins.rails.testBit 6 = false ∧ railsInOrder 65 + 1 ≤ (powerUp 1 2 0).pins.enabled ∧ (powerUp 63 7 0).pins.rails ||| 2 ^ 6 = 127) ∧
    ((∀ n ∈ [0, 1, 2], (powerUp 0 1 n).pins.upFails = n ∧ (powerUp 0 1 n).pins.enabled ≠ 0 ∧ (powerUp 0 1 n).pins.rails.testBit 0 = false ∧
      (powerUp 0 1 n).pins.aon = true ∧ (powerUp 0 1 n).thm.tripped = false ∧ (powerUp 0 1 n).pins.lockout = false) ∧
      State.reset.pins.rails.testBit (State.reset.pins.enabled - 1) = true) ∧
    (¬ State.reset.pins.enabled ≤ 6 ∧ State.reset.domState 255 ≠ 4 ∧ (powerUp 0 1 0).pins.enabled ≤ 6) ∧
    (State.reset.dieOn = true ∧ (powerUp 0 1 0).dieOn = false ∧ State.reset.boot.rcs = none) ∧
    (State.reset.pins.rails = 127 ∧ State.reset.pins.badRail < 8 ∧ (powerUp 0 1 0).pins.rails ≠ 127 ∧
      aonSeen (pinsState [(F.THM_FAILED_FAILED, 15, 0, 3)] id) = [] ∧ 99 ∈ aonSeen State.reset ∧
      (∀ j ∈ aonSeen State.reset, (State.reset.sensor j).temp ≤ (State.reset.sensor 99).temp)) :=
  ⟨by decide, by decide, by decide, by decide, by decide, by decide⟩
/-- The logical core 183 (cluster 22, slot 7) has no core behind it, and cluster 23 has a bench core. -/
def lendState (l : List (Fld × Nat × Nat × Nat)) : State := mk ([(F.SCL_MAP_SLOT, 0xF6543210, 22, 0)] ++ l)

/-- Cluster 23 with a core running on instance k, and a map that waits. -/
def mapWaits (k : Nat) (m : Nat) : State :=
  { State.reset with exu := { State.reset.exu with vsc := [(k, run1 k)] }, scl := { State.reset.scl with mapPending := [(23, m)] } }

theorem witness_RegistersAndClusterMapsAreAccessed :
    (csrAt 0xF000 = none ∧ csrAt 0xFFC = some (.TBU, 0, 0xFFC) ∧ regAt .TBU 0xFFC = none ∧ csrAt 0 = some (.TBU, 0, 0) ∧ csrAt 4 = some (.TBU, 0, 4) ∧
      regAt .TBU 0 = some (.TBU_CTRL, 0) ∧ regAt .TBU 4 = some (.TBU_STATUS, 0) ∧
      State.reset.mayReach (.hostPF true) .TBU_CTRL 0 true = false ∧ State.reset.mayReach (.hostPF true) .TBU_CTRL 0 false = true ∧
      State.reset.mayReach (.hostVF 16) .TBU_CTRL 0 false = false ∧ (mk [(F.PWR_DOM_STATE_STATE, 5, 0, 23)]).pageOn .MXC 23 = false) ∧
    ((∀ r ∈ [Reg.TBU_STATUS, .TBU_D_INC_FRAC], r ∉ actingRegs ∧ r ∉ readingRegs ∧ r.reservedCodes = [] ∧ r.zeroIsOne = [] ∧
      State.reset.mayReach .steward r 0 true = true ∧ State.reset.mayReach .steward r 0 false = true ∧ State.reset.meaningful r 0 = true) ∧
      State.reset.pageOn .TBU 0 = true ∧ State.reset.gdx.snap = none ∧ State.reset.domState 255 ≠ 4) ∧
    (State.reset.sclMapBad 23 0x99999999 = true ∧ State.reset.sclMapBad 23 0x86543210 = false ∧ State.reset.sclPos 23 7 = 7 ∧
      State.reset.posIdle 23 7 = true ∧ State.reset.posIdle 23 8 = true ∧ (mapWaits 191 0x86543210).posIdle 23 7 = false ∧
      (mapWaits 191 0x86543210).sclMapBad 23 0x86543210 = false) ∧
    (Tab.find State.reset.scl.mapPending 23 = none ∧ Tab.find (mapWaits 0 0x86543210).scl.mapPending 23 = some 0x86543210 ∧
      (mapWaits 0 0x86543210).posIdle 23 7 = true) ∧
    (State.reset.lendBad 23 183 = true ∧ (lendState []).lendBad 23 183 = false ∧ (lendState []).core (192 + 23) = none ∧
      ((mapWaits (192 + 23) 0).core (192 + 23)).isSome = true ∧ (lendState []).get F.SCL_LEND_EN 23 = 0 ∧
      (lendState [(F.SCL_LEND_EN, 1, 23, 0), (F.SCL_LEND_LOGICAL, 183, 23, 0)]).get F.SCL_LEND_EN 23 = 1) :=
  ⟨by decide +kernel, by decide +kernel, by decide +kernel, by decide +kernel, by decide +kernel⟩
/-- Message m for the carrier with low handle bits 65,535 lies at the head of control ring 511, and ring 510 takes the answers of function 0. -/
def msgItem (m : Nat) : RingItem := ⟨0, false, none, false, 0, [m + 65535 * 2 ^ 16, 0, 0, 0, 0, 0, 0, 0, 0, 0, 0, 0, 0, 0, 0, 0]⟩

def msgRing (m : Nat) : Ring := { ring0 with items := [msgItem m] }

def msgState (m : Nat) (s : State := State.reset) : State :=
  let s := mk [(F.MBX_RING_TAIL_TAIL, 1, 0, 511)] s
  { s with host := { s.host with rings := [(511, msgRing m), (510, { ringOf .control true 0 with entries := 64 })] } }

theorem witness_RingsCarryItemsAndMessages_items :
    (State.reset.ring 511 = none ∧ (msgState 0).ring 511 = some (msgRing 0) ∧ (msgRing 0).func = 0 ∧ (msgRing 0).out = false ∧
      (msgState 0).ringDetached 511 = false ∧ (mk [(F.MBX_RING_STATUS_DETACHED, 1, 0, 511)] (msgState 0)).ringDetached 511 = true) ∧
    ((msgState 0).ringFill 511 + ((4#32).toNat + 2 ^ 32 - (msgState 0).get F.MBX_RING_TAIL_TAIL 0 511) % 2 ^ 32 = (msgRing 0).entries ∧
      (msgRing 0).entries < (msgState 0).ringFill 511 + ((5#32).toNat + 2 ^ 32 - (msgState 0).get F.MBX_RING_TAIL_TAIL 0 511) % 2 ^ 32) ∧
    (let s := mk [(F.MBX_RING_TAIL_TAIL, 3, 0, 511), (F.MBX_RING_HEAD_HEAD, 1, 0, 511)] (withRing (ringOf .event true 0) State.reset)
     s.ring 511 = some (ringOf .event true 0) ∧ ((3#32).toNat + 2 ^ 32 - s.get F.MBX_RING_HEAD_HEAD 0 511) % 2 ^ 32 ≤ s.ringFill 511 ∧
      s.ringFill 511 < ((4#32).toNat + 2 ^ 32 - s.get F.MBX_RING_HEAD_HEAD 0 511) % 2 ^ 32 ∧ (∀ y ∈ (ringOf .event true 0).items, y.buf = none)) ∧
    ((msgRing 0).fetched = (msgState 0).get F.MBX_RING_TAIL_TAIL 0 511 ∧
      (msgRing 0).fetched ≠ (mk [(F.MBX_RING_TAIL_TAIL, 2, 0, 511)] (msgState 0)).get F.MBX_RING_TAIL_TAIL 0 511 ∧ (msgRing 0).inHost = false ∧
      ({ msgRing 0 with kind := .data, inHost := true } : Ring).kind = .data ∧ State.reset.poolFree (msgRing 0).stagePool = 0 ∧
      (putWords State.reset (State.reset.poolAddr 61 + 20) [2]).poolFree 61 ≠ 0) ∧
    ((msgRing 0).unsignalled = 0 ∧ ({ msgRing 0 with unsignalled := 3 } : Ring).unsignalled ≠ 0) :=
  ⟨by decide, by decide, by decide, by decide, by decide⟩

set_option maxRecDepth 20000 in
theorem witness_RingsCarryItemsAndMessages_messages :
    (∀ m ∈ [0, 2, 4, 5], (msgState m).MessageAt 511 (msgRing m) (msgItem m) [] m ∧ (msgState m).Answers 0 510 ∧ State.reset.fapiHead 511 m = none) ∧
    (((msgState 2 (mk [(F.TBU_D_STATUS_TIME_VALID, 1, 0, 0)])).configure 0 [] [desc0]).isRight = true ∧
      ((msgState 2).configure 0 [65535] [desc0]).isLeft = true) ∧
    (let s := msgState 4 (stacksOff (withCar false State.reset))
     s.carrierOf 0 (natBits ((msgItem 4).words.headD 0) 16 16) = 65535 ∧ Tab.find s.car.list 65535 = some ⟨0, desc0, false, none⟩ ∧ s.stacksHold = false ∧
      s.consistCause desc0.tag true true = 0 ∧ desc0.reference = false) ∧
    ((match (msgState 4).startCar 0 65535 true true with | .inl _ => true | .inr _ => false) = true ∧
      (match (msgState 5).stopCar 0 65535 with | .inl _ => true | .inr _ => false) = true) ∧
    (let s := msgState 5 (withCar true State.reset)
     Tab.find s.car.list 65535 = some ⟨0, desc0, true, none⟩ ∧ s.GdxEmpty ∧ s.flag F.GDX_CTRL_EN = false) := by
  unfold State.MessageAt State.Answers State.GdxEmpty
  exact ⟨by decide +kernel, by decide +kernel, by decide, by decide, by decide⟩

theorem witness_FunctionResetsAndTheWindowsOfTheHost :
    ((serve 3).mbxOwner 255 = 0 ∧ (serve 3).get F.MBX_STATUS_STATE 0 255 = 2 ∧ (serve 3).mbxOwner 255 ≠ 16 ∧ (serve 3).mbxOwner 255 < 17) ∧
    ((msgState 5).ring 511 = some (msgRing 5) ∧ (msgRing 5).func = 0 ∧ (msgRing 5).out = false ∧ (ringOf .control true 0).out = true ∧
      500 ∉ (msgState 5).ringsOf 0 ∧ (msgState 5).ringsOf 0 ≠ []) ∧
    (0 ∉ State.reset.host.unclaimed ∧ (let s : State := { msgState 5 with host := { (msgState 5).host with unclaimed := [0] } }
      0 ∈ s.host.unclaimed ∧ (∀ c ∈ s.car.list, c.2.func ≠ 0) ∧ s.ring 511 = some (msgRing 5))) ∧
    (State.reset.dbgScope 1 = false ∧ (mk [(F.BOOT_DBG_STATUS_UNLOCKED, 1, 0, 0), (F.BOOT_DBG_STATUS_SCOPE, 1, 0, 0)]).dbgScope 1 = true ∧
      (mk [(F.BOOT_DBG_STATUS_UNLOCKED, 1, 0, 0), (F.BOOT_DBG_STATUS_SCOPE, 1, 0, 0)]).mayReach (.hostPF true) .TBU_STATUS 0 true = true ∧
      csrAt 4 = some (.TBU, 0, 4) ∧ regAt .TBU 4 = some (.TBU_STATUS, 0) ∧ Reg.TBU_STATUS ∉ actingRegs) ∧
    ((mk [(F.PWR_DOM_STATE_STATE, 4, 0, 255)]).domState 255 = 4 ∧ State.reset.bar2 0 0x2400000000 = none ∧
      State.reset.bar2 0 0x23FFFFFFFF = some 0x123FFFFFFFF ∧ State.reset.bar2 0 0x4003FFFFFF = some 0x13FFFFFF ∧
      Tab.find ({ State.reset with host := { State.reset.host with windows := [((16, 7), 0x10080000000)] } } : State).host.windows
        (16, 0x3FFFFFFFF / 0x80000000) = some 0x10080000000) ∧
    (State.reset.domState 255 ≠ 4 ∧ memKind 0x13FFFFFF = some .sram ∧ memKind 0x123FFFFFFFF = some .hbm ∧
      (mk [(F.PWR_DOM_STATE_STATE, 3, 0, 131)]).memWaits .hbm 0x123FFFFFFFF false = true ∧ State.reset.memWaits .sram 0x13FFFFFF false = false ∧
      State.reset.chkOf (wordOf .sram 0x13FFFFFF) = none ∧ State.reset.memx.chk = [] ∧ State.reset.get F.ECC_INJ_ARM = 0) :=
  ⟨by decide, by decide +kernel, by decide, by decide +kernel, by decide, by decide⟩
/-! ### Ill-formed commands -/

theorem test_wf_requesters : (∀ q ∈ [Requester.vsc 216, .hostVF 0, .hostVF 17], wellFormed (.registerWrite q 0 0) = false ∧
    wellFormed (.counterReadClear q 0) = false ∧ wellFormed (.bmvGo q 0 0) = false ∧ wellFormed (.bmvClear q 0 0) = false ∧
    wellFormed (.bmvStop q 0 0) = false) ∧ wellFormed (.registerWrite (.vsc 215) 0 0) = true ∧ wellFormed (.registerWrite (.hostVF 16) 0 0) = true := by decide

theorem test_wf_addresses : wellFormed (.registerWrite .steward (2 ^ 48) 0) = false ∧ wellFormed (.counterReadClear .steward (2 ^ 48)) = false ∧
    wellFormed (.counterReadClear .steward (2 ^ 48 - 1)) = true := by decide

theorem test_wf_instances : wellFormed (.completionReport 416) = false ∧ wellFormed (.releaseBufferEntryFree 416 0) = false ∧
    wellFormed (.bundleIssue 216 0 0) = false ∧ wellFormed (.icacheFill 216) = false ∧ wellFormed (.icacheInv 216) = false ∧
    wellFormed (.runWatchdog 216) = false ∧ wellFormed (.bmvChClaim 216 0) = false := by decide

theorem test_wf_engines : wellFormed (.lddDecode 34 0 0) = false ∧ wellFormed (.cenLdpc 17 0 0) = false ∧ wellFormed (.trdDecode 9 0 0) = false ∧
    wellFormed (.pldDecodeUl 9 0 0) = false ∧ wellFormed (.fxeRx 34 0 0) = false ∧ wellFormed (.mdeDetect 26 0 0) = false ∧
    wellFormed (.bwaPrecode 17 0 0) = false ∧ wellFormed (.prdDetect 9 0 0) = false ∧ wellFormed (.hceStore 17 0 0) = false ∧
    wellFormed (.engineMapApply 0 0) = false ∧ wellFormed (.engineMapPhysWrite 1 0 34) = false ∧ wellFormed (.engineMapPhysWrite 1 33 33) = true := by decide

theorem test_wf_widths : wellFormed (.itemOffer 0 32 0 0 [] []) = false ∧ wellFormed (.itemOffer 0 0 65536 0 [] []) = false ∧
    wellFormed (.itemOffer 0 0 0 (2 ^ 32) [] []) = false ∧ wellFormed (.itemFree 0 65536) = false ∧ wellFormed (.whistleArm 0 0 []) = false ∧
    wellFormed (.bufpool 0 0 []) = false ∧ wellFormed (.ringItemFetch 0 [] []) = false ∧ wellFormed (.errorReport 16 0 0 0 0 0) = false ∧
    wellFormed (.errorReport 0 256 0 0 0 0) = false ∧ wellFormed (.errorReport 0 0 3 0 0 0) = false ∧ wellFormed (.errorReport 0 0 0 65536 0 0) = false ∧
    wellFormed (.errorReport 0 0 0 0 65536 0) = false ∧ wellFormed (.errorReport 0 0 0 0 0 (2 ^ 48)) = false := by decide

theorem test_wf_writes : wellFormed (.fullWordWrite 0 [0] 0) = false ∧ wellFormed (.partialWrite 0 [] 0 .none) = false ∧
    wellFormed (.partialWrite 0 (List.replicate 65 0) 0 .none) = false ∧ wellFormed (.fullWordWrite 0 (List.replicate 8 0) 0) = true := by decide
/-! ### Worked examples of the spec -/

/-- 03, "reading a coordinate": timeline 3, NR of 30 kHz, at SEC = 1,753,000,000, NS = 123,456,789. -/
theorem test_coordinate_of_the_example :
    let s : State := { State.reset with tbu := { State.reset.tbu with a := { TbuDom.reset with counter := ⟨1753000000, 123456789, 0⟩ } } }
    let t : Timeline := { tl0 with ent := { tl0.ent with mu := 1 } }
    let c := s.coordNow t
    let w := t.slotWord c.slot
    natBits w 0 10 = 362 ∧ natBits w 10 10 = 928 ∧ natBits w 20 7 = 6 ∧ c.symbol = 12 ∧ c.offset / qNs = 28143 := by decide +kernel

/-- 02, R44: −1.5 ns is STEP_NS = −2 and STEP_FRAC = 0x8000_0000. -/
theorem test_step_amount_of_the_example : (signed 32 0xFFFFFFFE * 2 ^ 32 + 0x80000000) * 2 = -3 * 2 ^ 32 := by decide

/-- 05, Table 5-9: two circular pointers after the length has shrunk, and the two updates after it. -/
theorem test_circular_buffer_of_table_5_9 :
    let c (l p2 p3 : Nat) : VscCore := { run1 0 with
      pr := [(2, 0x23A81000 + p2), (3, 0x23A85000 + p3)]
      cb := [(2, 0x23A81000), (3, 0x23A85000)]
      cl := [(2, l), (3, l)]
      pbind := 0x0C }
    (c 0x3000 0x2400 0x1F80).update 2 128 = (0x23A81000 + 0x2480, false) ∧ (c 0x3000 0x2400 0x1F80).update 3 128 = (0x23A85000 + 0x2000, false) ∧
      (c 0x2000 0x2480 0x2000).update 2 128 = (0x23A81000 + 0x0500, true) ∧ (c 0x2000 0x2480 0x2000).update 3 128 = (0x23A85000 + 0x0080, true) ∧
      (c 0x2000 0x0500 0x0080).update 2 128 = (0x23A81000 + 0x0580, false) ∧ (c 0x2000 0x0500 0x0080).update 3 128 = (0x23A85000 + 0x0100, false) := by decide

/-- 07, "an uplink retransmission": sums that saturate. -/
theorem test_combined_llrs_of_the_example :
    [(100, 20), (-8, -90), (-4, 10), (4, 127)].map (fun x => satLlr (x.1 + x.2)) = [120, -98, 6, 127] := by decide

/-- 08, Table 8-5: what a carrier of each kind costs per direction, in hundredths of an SU. -/
theorem test_costs_of_table_8_5 :
    carDl { desc0 with type := .nrFr1Mu1, prbs := 273, dl := 64 } = 6400 ∧ carUl { desc0 with type := .nrFr1Mu0, prbs := 106, ul := 4 } = 76 ∧
      carDl { desc0 with type := .lte, prbs := 100, dl := 4 } = 72 ∧ carUl { desc0 with type := .nbiot375, prbs := 1, ul := 2 } = 2 ∧
      carTls { desc0 with type := .nbiot375 } = 2 := by decide

/-- 14, Table 14-9: the version that each of four OPEN requests gets. -/
theorem test_versions_of_table_14_9 :
    chooseVersion 0x0201 0x0206 = some (2, 3) ∧ featureBits (2, 3) = 2 ^ 63 ∧ chooseVersion 0x0200 0x0301 = some (3, 1) ∧
      featureBits (3, 1) = 2 ^ 9 - 1 ∧ chooseVersion 0x0300 0x0309 = some (3, 2) ∧ featureBits (3, 2) = 2 ^ 12 - 1 ∧
      chooseVersion 0x0400 0x0402 = none := by decide

/-- 20, "reaching two registers": BMV_CH_STATUS of channel 3 of BMV[5], and T_FAULT of MDE[7]. -/
theorem test_addresses_of_the_example :
    csrAt 0x01254088 = some (.BMV, 5, 0x4088) ∧ (regAt .BMV 0x4088).map (·.1) = some .BMV_CH_STATUS ∧
      (csrAt 0x020C7008).map (fun x => (x.1, x.2.2)) = some (.ENG, 8) ∧ regAt .ENG 8 = some (.T_FAULT, 0) ∧
      (csrAt 0x020C7008).map (·.2.1) = some (engInst 6 7) := by decide +kernel
end Sys2Proof.Tests
end

