-- ==== Sys2Proof/Proofs/Queue.lean ====
section
/-!
SUPPORT. Sys2Proof/Proofs/Queue.lean: the queue of waiting commands. What every operation of the model leaves of it, one lemma per
operation in the order of the model's files, and from these O2: no command touches it.
-/
namespace Sys2Proof.Machine

/-! ### Keeping the queue, and the loops that keep it -/

/-- Two states hold the same queue of waiting commands. -/
def SameQueue (s t : State) : Prop := t.pending = s.pending

-- Elaborated in step, so that the evaluating tests before this file are done with their threads when the lemmas below begin: each
-- thread holds a stack of its own, and the check bounds the sum.
set_option Elab.async false in
@[simp] theorem sameQueue_iff (s t : State) : SameQueue s t ↔ t.pending = s.pending := ⟨id, id⟩

@[simp] theorem State.ite_pending (c : Prop) [Decidable c] (s t : State) :
    (if c then s else t).pending = if c then s.pending else t.pending := apply_ite State.pending c s t

@[simp] theorem foldl_pending {α : Type} {f : State → α → State} (hf : ∀ s a, SameQueue s (f s a)) (l : List α)
    (s : State) : (l.foldl f s).pending = s.pending := by
  induction l generalizing s with
  | nil => rfl
  | cons a l ih => rw [List.foldl_cons, ih, hf]

@[simp] theorem foldl_snd_pending {α β : Type} {f : β × State → α → β × State}
    (hf : ∀ x a, SameQueue x.2 (f x a).2) (l : List α) (x : β × State) : (l.foldl f x).2.pending = x.2.pending := by
  induction l generalizing x with
  | nil => rfl
  | cons a l ih => rw [List.foldl_cons, ih, hf]

@[simp] theorem repeatN_pending {f : State → State} (hf : ∀ s, SameQueue s (f s)) (n : Nat) (s : State) :
    (repeatN f n s).pending = s.pending := by
  induction n generalizing s with
  | zero => rfl
  | succ n ih => rw [repeatN, ih, hf]

/-- A command of Brildo is refused, or its state holds the same queue. -/
def KeepsQueue {ε α : Type} (s : State) : ε ⊕ (α × State) → Prop
  | .inl _ => True
  | .inr x => SameQueue s x.2

@[simp] theorem keepsQueue_inl {ε α : Type} (s : State) (e : ε) : KeepsQueue s (.inl e : ε ⊕ (α × State)) := trivial

@[simp] theorem keepsQueue_inr {ε α : Type} (s : State) (x : α × State) :
    KeepsQueue s (.inr x : ε ⊕ (α × State)) ↔ x.2.pending = s.pending := ⟨id, id⟩

@[simp] theorem keepsQueue_ite {ε α : Type} (c : Prop) [Decidable c] (s : State) (x y : ε ⊕ (α × State)) :
    KeepsQueue s (if c then x else y) ↔ if c then KeepsQueue s x else KeepsQueue s y := by split <;> rfl

/-! ### Machine/Ops -/

@[simp] theorem State.setWords_pending (s : State) (a : Nat) (ws : List Nat) : (s.setWords a ws).pending = s.pending := by
  induction ws generalizing s a with
  | nil => rfl
  | cons w ws ih => simp [State.setWords, ih]

@[simp] theorem State.freshNat_pending (s : State) : (s.freshNat).2.pending = s.pending := rfl

@[simp] theorem State.freshBool_pending (s : State) : (s.freshBool).2.pending = s.pending := rfl

/-! ### Machine/Events -/

@[simp] theorem State.setRing_pending (s : State) (r : Nat) (x : Ring) : (s.setRing r x).pending = s.pending := rfl

@[simp] theorem State.writeOut_pending (s : State) (inHost : Bool) (f a : Nat) (bs : List Byte) :
    (s.writeOut inHost f a bs).pending = s.pending := by
  simp [State.writeOut]

@[simp] theorem State.writeBack_pending (s : State) (x : Ring) (idx : Nat) : (s.writeBack x idx).pending = s.pending := by
  simp [State.writeBack]

@[simp] theorem State.ringSignal_pending (s : State) (r n : Nat) : (s.ringSignal r n).pending = s.pending := by
  unfold State.ringSignal
  split <;> simp

@[simp] theorem State.ringPutBytes_pending (s : State) (r : Nat) (bytes : Nat → List Byte) (buf : Option (Nat × Nat)) :
    (s.ringPutBytes r bytes buf).pending = s.pending := by
  unfold State.ringPutBytes
  split <;> simp

@[simp] theorem State.ringPut_pending (s : State) (r : Nat) (i : ItemWords) (buf : Option (Nat × Nat)) :
    (s.ringPut r i buf).pending = s.pending := by
  simp [State.ringPut]

@[simp] theorem State.payload_pending (s : State) (r : Nat) : (s.payload r).2.pending = s.pending := by
  simp only [State.payload]
  repeat' split
  all_goals simp

@[simp] theorem State.messagePut_pending (s : State) (r msgId carrier slot : Nat) :
    (s.messagePut r msgId carrier slot).pending = s.pending := by
  simp [State.messagePut]

@[simp] theorem State.eventTo_pending (s : State) (f : Nat) (e : Event) : (s.eventTo f e).pending = s.pending := by
  unfold State.eventTo
  split <;> simp

@[simp] theorem State.event_pending (s : State) (e : Event) : (s.event e).pending = s.pending := by simp [State.event]

@[simp] theorem State.erqShow_pending (s : State) (sev : Nat) : (s.erqShow sev).pending = s.pending := rfl

@[simp] theorem State.erqMerge_pending (s : State) (r : Report) (w : Nat) : (s.erqMerge r w).pending = s.pending := by
  simp [State.erqMerge]

@[simp] theorem State.erqNew_pending (s : State) (r : Report) : (s.erqNew r).pending = s.pending := by simp [State.erqNew]

@[simp] theorem State.erqDrop_pending (s : State) (r : Report) : (s.erqDrop r).pending = s.pending := rfl

@[simp] theorem State.erqCapture_pending (s : State) (r : Report) : (s.erqCapture r).pending = s.pending := by
  rw [State.erqCapture, State.ite_pending, State.put_pending, foldl_pending fun _ _ => State.put_pending ..]
  exact ite_self _

@[simp] theorem State.report_pending (s : State) (r : Report) : (s.report r).pending = s.pending := by
  simp only [State.report]
  repeat' split
  all_goals simp

/-! ### Machine/Mem -/

@[simp] theorem State.setGranReady_pending (s : State) (st g : Nat) : (s.setGranReady st g).pending = s.pending := by
  simp [State.setGranReady]

@[simp] theorem State.recWrite_pending (s : State) (k : Nat) (body : List Nat) : (s.recWrite k body).pending = s.pending := by
  simp [State.recWrite]

@[simp] theorem State.setRepairs_pending (s : State) (rs : List Repair) : (s.setRepairs rs).pending = s.pending := by
  simp [State.setRepairs]

@[simp] theorem State.repairReport_pending (s : State) (cls mac : Nat) : (s.repairReport cls mac).pending = s.pending := by
  simp [State.repairReport]

@[simp] theorem State.queueRepair_pending (s : State) (kind mac index : Nat) :
    (s.queueRepair kind mac index).pending = s.pending := by
  simp [State.queueRepair]

@[simp] theorem State.applyRepair_pending (s : State) (r : Repair) : (s.applyRepair r).2.pending = s.pending := by
  simp only [State.applyRepair]
  repeat' split
  all_goals simp

@[simp] theorem State.applyRepairs_pending (s : State) (p : Nat → Bool) : (s.applyRepairs p).pending = s.pending := by
  unfold State.applyRepairs
  split
  · dsimp only
    rw [State.setRepairs_pending, foldl_snd_pending]
    intro x r
    split <;> simp
  · rfl

@[simp] theorem State.rowPlace_pending (s : State) (mac row : Nat) : (s.rowPlace mac row).2.pending = s.pending := by
  simp only [State.rowPlace]
  repeat' split
  all_goals simp

@[simp] theorem State.rowEvent_pending (s : State) (a w : Nat) : (s.rowEvent a w).pending = s.pending := by simp [State.rowEvent]

@[simp] theorem State.colEvent_pending (s : State) (a pos : Nat) : (s.colEvent a pos).pending = s.pending := by
  simp [State.colEvent]

@[simp] theorem State.symEvent_pending (s : State) (a pos : Nat) : (s.symEvent a pos).pending = s.pending := by
  simp [State.symEvent]

@[simp] theorem State.memEvent_pending (s : State) (cls : Nat) (table : Bool) (a pos : Nat) :
    (s.memEvent cls table a pos).pending = s.pending := by
  unfold State.memEvent
  split <;> simp

@[simp] theorem State.ceEvent_pending (s : State) (k : MemKind) (a pos : Nat) : (s.ceEvent k a pos).pending = s.pending := by
  cases k <;> simp [State.ceEvent]

@[simp] theorem State.setChk_pending (s : State) (w : Nat) (c : Option WordChk) : (s.setChk w c).pending = s.pending := rfl

@[simp] theorem State.hbmCount_pending (s : State) (k : MemKind) (a cls : Nat) : (s.hbmCount k a cls).pending = s.pending := by
  simp [State.hbmCount]

@[simp] theorem State.upset_pending (s : State) (w : Nat) (u : Upset) : (s.upset w u).pending = s.pending := by
  unfold State.upset
  split <;> simp

@[simp] theorem State.readWord_pending (s : State) (k : MemKind) (w : Nat) (table : Bool) :
    (s.readWord k w table).2.pending = s.pending := by
  simp only [State.readWord]
  repeat' split
  all_goals simp

@[simp] theorem State.injected_pending (s : State) (k : MemKind) (a n w : Nat) : (s.injected k a n w).pending = s.pending := by
  simp only [State.injected]
  repeat' split
  all_goals simp

@[simp] theorem State.writeFull_pending (s : State) (k : MemKind) (w : Nat) (bs : List Byte) :
    (s.writeFull k w bs).pending = s.pending := by
  simp [State.writeFull]

@[simp] theorem State.writePart_pending (s : State) (k : MemKind) (a : Nat) (bs : List Byte) :
    (s.writePart k a bs).pending = s.pending := by
  simp only [State.writePart]
  repeat' split
  all_goals simp

@[simp] theorem State.store_pending (s : State) (a : Nat) (bs : List Byte) : (s.store a bs).pending = s.pending := by
  unfold State.store
  extract_lets n hit checked stored
  have h : stored.pending = s.pending := by
    refine (State.setBytes_pending _ _ _).trans (foldl_pending (fun s w => ?_) _ _)
    split
    · simp
    split
    · simp
    split <;> simp
  split
  · rw [State.injected_pending, h]
  · exact h

@[simp] theorem State.load_pending (s : State) (a n : Nat) : (s.load a n).2.pending = s.pending := by
  unfold State.load
  refine foldl_snd_pending (fun x w => ?_) _ _
  split <;> simp

@[simp] theorem State.poisonRange_pending (s : State) (a n : Nat) : (s.poisonRange a n).pending = s.pending := by
  unfold State.poisonRange
  split <;> simp

@[simp] theorem State.priority_pending (s : State) (a : Nat) : (s.priority a).pending = s.pending := by simp [State.priority]

@[simp] theorem State.writeWithin_pending (s : State) (k : MemKind) (a : Nat) (bs : List Byte) :
    (s.writeWithin k a bs).pending = s.pending := by
  simp [State.writeWithin]

@[simp] theorem State.stackWake_pending (s : State) (st : Nat) : (s.stackWake st).pending = s.pending := by simp [State.stackWake]

@[simp] theorem State.memWait_pending (s : State) (x : MemAccess) : (s.memWait x).pending = s.pending := by simp [State.memWait]

@[simp] theorem State.memRead_pending (s : State) (k : MemKind) (a : Nat) (table : Bool) :
    (s.memRead k a table).pending = s.pending := by
  simp [State.memRead]

@[simp] theorem State.memResume_pending (s : State) : s.memResume.pending = s.pending := by
  rw [State.memResume, foldl_pending, State.setMemx_pending]
  intro s x
  cases x <;> simp

@[simp] theorem State.initNext_pending (s : State) (st : Nat) : (s.initNext st).pending = s.pending := by
  simp only [State.initNext]
  repeat' split
  all_goals simp

@[simp] theorem State.granuleReady_pending (s : State) (st : Nat) : (s.granuleReady st).pending = s.pending := by
  simp [State.granuleReady]

@[simp] theorem State.logWrite_pending (s : State) (ws : List Nat) : (s.logWrite ws).pending = s.pending := by
  simp [State.logWrite]

@[simp] theorem State.erqRead_pending (s : State) (sev : Nat) : (s.erqRead sev).pending = s.pending := by
  simp only [State.erqRead]
  repeat' split
  all_goals simp

@[simp] theorem State.erqAdvance_pending (s : State) (sev v : Nat) : (s.erqAdvance sev v).pending = s.pending := by
  simp [State.erqAdvance]

/-! ### Machine/Units -/

@[simp] theorem State.setExec_pending (s : State) (e : Nat) (x : Exec) : (s.setExec e x).pending = s.pending := rfl

/-! ### Machine/Bmv -/

@[simp] theorem State.setBch_pending (s : State) (e k : Nat) (c : BmvCh) : (s.setBch e k c).pending = s.pending := rfl

@[simp] theorem State.setBmvState_pending (s : State) (e k v : Nat) : (s.setBmvState e k v).pending = s.pending := rfl

@[simp] theorem State.shareShow_pending (s : State) (e : Nat) : (s.shareShow e).pending = s.pending := by simp [State.shareShow]

@[simp] theorem State.bmvLoad_pending (s : State) (e k : Nat) : (s.bmvLoad e k).pending = s.pending := by
  rw [State.bmvLoad, State.setBch_pending, State.putAll_pending]
  repeat rw [State.wr_pending]

@[simp] theorem State.bmvGo_pending (s : State) (e k : Nat) : (s.bmvGo e k).pending = s.pending := by simp [State.bmvGo]

@[simp] theorem State.bmvIrq_pending (s : State) (e k : Nat) (en : Fld) : (s.bmvIrq e k en).pending = s.pending := by
  simp [State.bmvIrq]

@[simp] theorem State.bmvFlag_pending (s : State) (e k : Nat) (f : Fld) : (s.bmvFlag e k f).pending = s.pending := by
  simp [State.bmvFlag]

@[simp] theorem State.bmvIdle_pending (s : State) (e k : Nat) : (s.bmvIdle e k).pending = s.pending := rfl

@[simp] theorem State.bmvHalt_pending (s : State) (e k err : Nat) (b : Burst) : (s.bmvHalt e k err b).pending = s.pending := by
  rw [State.bmvHalt, State.shareShow_pending, State.bmvIrq_pending, State.setBch_pending, State.putAll_pending]

@[simp] theorem State.devWrite_pending (s : State) (a : Nat) (bs : List Byte) : (s.devWrite a bs).pending = s.pending := by
  simp [State.devWrite]

@[simp] theorem State.bmvSettle_pending (s : State) (e k : Nat) : (s.bmvSettle e k).pending = s.pending := by
  simp only [State.bmvSettle]
  repeat' split
  all_goals simp

@[simp] theorem State.bmvDeliver_pending (s : State) (e k i : Nat) (b : Burst) (host : List Byte) :
    (s.bmvDeliver e k i b host).pending = s.pending := by
  rw [← sameQueue_iff]
  unfold State.bmvDeliver
  extract_lets src dst c pat moved differs inner freed len was counted half t
  have hm : SameQueue s moved := by
    have written (bs : List Byte) : SameQueue s (s.devWrite dst bs) := s.devWrite_pending dst bs
    unfold moved
    split
    · exact written _
    · exact written _
    · split
      · rfl
      · exact State.put_pending _ _ _ _ _
  clear_value moved
  have hc : SameQueue s counted := by
    unfold counted freed
    rw [sameQueue_iff, State.put_pending, State.setBch_pending, hm]
  clear_value counted
  rw [sameQueue_iff, State.bmvSettle_pending, State.ite_pending, State.bmvIrq_pending, State.bmvFlag_pending, ite_self, hc]

@[simp] theorem State.bmvIssue_pending (s : State) (e k : Nat) : (s.bmvIssue e k).pending = s.pending := by simp [State.bmvIssue]

@[simp] theorem State.bmvStop_pending (s : State) (e k : Nat) : (s.bmvStop e k).pending = s.pending := by simp [State.bmvStop]

@[simp] theorem State.bmvRelease_pending (s : State) (e k : Nat) : (s.bmvRelease e k).pending = s.pending := by
  simp [State.bmvRelease]

@[simp] theorem State.bmvMapApply_pending (s : State) (e : Nat) : (s.bmvMapApply e).pending = s.pending := by
  unfold State.bmvMapApply
  split <;> simp

@[simp] theorem State.bmvMapWrite_pending (s : State) (e map : Nat) : (s.bmvMapWrite e map).pending = s.pending := by
  simp [State.bmvMapWrite]

/-! ### Machine/Bufs -/

@[simp] theorem State.setPoolFree_pending (s : State) (p n : Nat) : (s.setPoolFree p n).pending = s.pending := rfl

@[simp] theorem State.bufTake_pending (s : State) (p : Nat) : (s.bufTake p).2.pending = s.pending := by simp [State.bufTake]

@[simp] theorem State.bufReturn_pending (s : State) (p a : Nat) : (s.bufReturn p a).pending = s.pending := by
  simp [State.bufReturn]

@[simp] theorem State.setRefs_pending (s : State) (t : Token) (n : Nat) : (s.setRefs t n).pending = s.pending := by
  simp [State.setRefs]

@[simp] theorem State.bufUnref_pending (s : State) (p a : Nat) : (s.bufUnref p a).pending = s.pending := by simp [State.bufUnref]

/-! ### Machine/Runs -/

@[simp] theorem State.setCore_pending (s : State) (k : Nat) (c : VscCore) : (s.setCore k c).pending = s.pending := rfl

@[simp] theorem State.domTouch_pending (s : State) (d : Nat) : (s.domTouch d).pending = s.pending := rfl

@[simp] theorem State.mxShow_pending (s : State) (c : Nat) (m : Mxc) (sb : Nat) : (s.mxShow c m sb).pending = s.pending := by
  simp [State.mxShow]

@[simp] theorem State.setMx_pending (s : State) (c : Nat) (m : Mxc) : (s.setMx c m).pending = s.pending := rfl

@[simp] theorem State.mxRunEnd_pending (s : State) (c pos node : Nat) : (s.mxRunEnd c pos node).pending = s.pending := by
  simp [State.mxRunEnd]

@[simp] theorem State.vscCapture_pending (s : State) (k code cause reason pc : Nat) :
    (s.vscCapture k code cause reason pc).pending = s.pending := by
  unfold State.vscCapture
  split
  · rfl
  · rw [State.put_pending, State.putAll_pending]

@[simp] theorem State.vscFinish_pending (s : State) (k : Nat) : (s.vscFinish k).pending = s.pending := by
  fun_cases State.vscFinish s k with
  | case1 | case2 | case4 => rfl
  | case3 =>
    rw [State.domTouch_pending, State.setExu_pending, State.setExec_pending, State.clr_pending, State.mxRunEnd_pending,
      foldl_pending fun _ _ => State.bmvRelease_pending ..]

@[simp] theorem State.runEnd_pending (s : State) (k code cause reason addr : Nat) :
    (s.runEnd k code cause reason addr).pending = s.pending := by
  fun_cases State.runEnd s k code cause reason addr with
  | case1 | case2 => rfl
  | case3 c _ _ _ _ s₁ s₂ s₃ s₄ s₅ s₆ =>
    have h₁ : s₁.pending = s.pending := State.vscCapture_pending ..
    have h₂ : s₂.pending = s₁.pending := by simp only [s₂, State.ite_pending, State.report_pending, ite_self]
    have h₃ : s₃.pending = s₂.pending := by simp only [s₃, State.ite_pending, State.report_pending, ite_self]
    have h₄ : s₄.pending = s₃.pending := foldl_pending (fun _ _ => by simp) _ _
    rw [State.vscFinish_pending, State.setCore_pending, State.mxRunEnd_pending, h₄, h₃, h₂, h₁]

@[simp] theorem State.vscStart_pending (s : State) (k e node : Nat) (kn : Kernel) :
    (s.vscStart k e node kn).pending = s.pending := by
  simp [State.vscStart]

/-! ### Machine/BmvCmd -/

@[simp] theorem State.bmvAfter_pending (s : State) (e k : Nat) : (s.bmvAfter e k).pending = s.pending := by
  simp only [State.bmvAfter]
  repeat' split
  all_goals simp

@[simp] theorem State.bmvMapTry_pending (s : State) (e : Nat) : (s.bmvMapTry e).pending = s.pending := by simp [State.bmvMapTry]

@[simp] theorem State.bmvForeign_pending (s : State) (req : Requester) (e : Nat) : (s.bmvForeign req e).pending = s.pending := by
  unfold State.bmvForeign
  split <;> simp

@[simp] theorem State.bmvClaim_pending (s : State) (v k : Nat) : (s.bmvClaim v k).pending = s.pending := by
  unfold State.bmvClaim
  split <;> simp

@[simp] theorem State.bmvClear_pending (s : State) (e k : Nat) : (s.bmvClear e k).pending = s.pending := by simp [State.bmvClear]

@[simp] theorem State.bmvStopCmd_pending (s : State) (e k : Nat) : (s.bmvStopCmd e k).pending = s.pending := by
  simp [State.bmvStopCmd]

@[simp] theorem State.bmvParity_pending (s : State) (e k : Nat) : (s.bmvParity e k).pending = s.pending := by
  simp [State.bmvParity]

@[simp] theorem State.bmvWriteCh_pending (s : State) (e k : Nat) (r : Reg) (v : Word) :
    (s.bmvWriteCh e k r v).pending = s.pending := by
  simp [State.bmvWriteCh]

@[simp] theorem State.bmvWrite_pending (s : State) (req : Requester) (e off : Nat) (v : Word) :
    (s.bmvWrite req e off v).pending = s.pending := by
  simp only [State.bmvWrite]
  repeat' split
  all_goals simp

@[simp] theorem State.bmvRead_pending (s : State) (e off : Nat) : (s.bmvRead e off).2.pending = s.pending := by
  unfold State.bmvRead
  split <;> simp

@[simp] theorem State.rawMove_pending (s : State) (r n : Nat) : (s.rawMove r n).pending = s.pending := by simp [State.rawMove]

@[simp] theorem State.bmvBusError_pending (s : State) (e k i : Nat) (b : Burst) :
    (s.bmvBusError e k i b).pending = s.pending := by
  simp [State.bmvBusError]

@[simp] theorem State.bmvPoison_pending (s : State) (e k i : Nat) (b : Burst) (off : Nat) (host : List Byte) :
    (s.bmvPoison e k i b off host).pending = s.pending := by
  unfold State.bmvPoison
  dsimp only
  split <;> simp

/-! ### Machine/Mxc -/

@[simp] theorem State.mxSwitch_pending (s : State) (c : Nat) : (s.mxSwitch c).pending = s.pending := by
  simp only [State.mxSwitch]
  repeat' split
  all_goals simp

@[simp] theorem State.mxStore_pending (s : State) (m : MxState) (o : MxOp) (md : Nat) :
    (s.mxStore m o md).2.pending = s.pending := by
  simp only [State.mxStore]
  repeat' split
  all_goals simp

@[simp] theorem State.mxFault_pending (s : State) (c cause : Nat) (o : MxOwner) (port addr : Nat) :
    (s.mxFault c cause o port addr).pending = s.pending := by
  simp [State.mxFault]

@[simp] theorem State.mxPop_pending (s : State) (c : Nat) (st : MxState) : (s.mxPop c st).pending = s.pending := rfl

@[simp] theorem State.coreUpdate_pending (s : State) (k : Nat) (f : VscCore → VscCore) :
    (s.coreUpdate k f).pending = s.pending := by
  unfold State.coreUpdate
  split <;> simp

@[simp] theorem State.mxExec_pending (s : State) (c : Nat) (o : MxOwner) (p : MxOp) : (s.mxExec c o p).pending = s.pending := by
  simp [State.mxExec]
  repeat' split
  all_goals simp

@[simp] theorem State.mxGrant_pending (s : State) (c : Nat) (o : MxOwner) (waited : Nat) :
    (s.mxGrant c o waited).pending = s.pending := rfl

@[simp] theorem State.mxUnlock_pending (s : State) (c : Nat) : (s.mxUnlock c).pending = s.pending := rfl

@[simp] theorem State.mxRequest_pending (s : State) (c : Nat) (o : MxOwner) : (s.mxRequest c o).pending = s.pending := by
  simp [State.mxRequest]

@[simp] theorem State.mxService_pending (s : State) (c : Nat) (on : Bool) : (s.mxService c on).pending = s.pending := by
  simp [State.mxService]

/-! ### Machine/Engine -/

@[simp] theorem State.mapShow_pending (s : State) (i p : Nat) : (s.mapShow i p).pending = s.pending := rfl

@[simp] theorem State.engMapApply_pending (s : State) (i : Nat) : (s.engMapApply i).pending = s.pending := by
  simp [State.engMapApply]

@[simp] theorem State.engMapWrite_pending (s : State) (i p : Nat) : (s.engMapWrite i p).pending = s.pending := by
  simp [State.engMapWrite]

@[simp] theorem State.engMapTry_pending (s : State) (c : Nat) : (s.engMapTry c).pending = s.pending := by simp [State.engMapTry]

@[simp] theorem State.engEnd_pending (s : State) (i : Nat) (j : EngJob) (busy code cause reason addr len0 len1 : Nat) :
    (s.engEnd i j busy code cause reason addr len0 len1).pending = s.pending := by
  unfold State.engEnd
  extract_lets c s₁ s₂ s₃ s₄ words u s₅ s₆ x
  have h₁ : s₁.pending = s.pending := by simp only [s₁, State.ite_pending, State.putAll_pending, ite_self]
  have h₂ : s₂.pending = s₁.pending := by simp only [s₂, State.ite_pending, State.report_pending, ite_self]
  have h₄ : s₄.pending = s₃.pending := by simp only [s₄, State.ite_pending, State.count_pending, ite_self]
  have h₆ : s₆.pending = s₅.pending := by
    simp only [s₆]
    split
    · exact State.domTouch_pending ..
    · rfl
  rw [State.engMapTry_pending, State.setExec_pending, h₆, State.setExu_pending, h₄, State.clr_pending,
    State.count_pending, h₂, h₁]

@[simp] theorem State.engWrite_pending (s : State) (i : Nat) (j : EngJob) (op cycles busy : Nat) (empty : Bool) (o : EngOut) :
    (s.engWrite i j op cycles busy empty o).pending = s.pending := by
  rw [← sameQueue_iff, State.engWrite]
  dsimp only
  rw [sameQueue_iff, State.ite_pending, State.engEnd_pending, State.engEnd_pending, State.count_pending, State.count_pending,
    State.count_pending, State.ite_pending, State.store_pending, State.store_pending, State.store_pending, foldl_pending (by simp),
    ite_self, ite_self]

@[simp] theorem State.engCompute_pending (s : State) (i c op : Nat) (j : EngJob) (cycles busy : Nat) :
    (s.engCompute i c op j cycles busy).pending = s.pending := by
  simp only [State.engCompute]
  repeat' split
  all_goals simp

@[simp] theorem State.engJobRun_pending (s : State) (i c op : Nat) (j : EngJob) (cycles busy : Nat) :
    (s.engJobRun i c op j cycles busy).pending = s.pending := by
  simp [State.engJobRun]
  repeat' split
  all_goals simp

@[simp] theorem State.engJob_pending (s : State) (c op k cycles busy : Nat) :
    (s.engJob c op k cycles busy).pending = s.pending := by
  simp only [State.engJob]
  repeat' split
  all_goals simp

@[simp] theorem State.engStop_pending (s : State) (c k busy code cause reason addr : Nat) :
    (s.engStop c k busy code cause reason addr).pending = s.pending := by
  unfold State.engStop
  split <;> simp

/-! ### Machine/PwrOps -/

@[simp] theorem State.pwrRefuse_pending (s : State) (d cause : Nat) : (s.pwrRefuse d cause).pending = s.pending := by
  simp [State.pwrRefuse]

@[simp] theorem State.pwrSettle_pending (s : State) (d t : Nat) : (s.pwrSettle d t).pending = s.pending := by
  simp [State.pwrSettle]

@[simp] theorem State.pwrEnter_pending (s : State) (d cur t : Nat) : (s.pwrEnter d cur t).pending = s.pending := by
  simp [State.pwrEnter]

@[simp] theorem State.pwrStart_pending (s : State) (d t : Nat) : (s.pwrStart d t).pending = s.pending := by simp [State.pwrStart]

@[simp] theorem State.pwrRequest_pending (s : State) (d t : Nat) (own : Bool) : (s.pwrRequest d t own).pending = s.pending := by
  simp [State.pwrRequest]

@[simp] theorem State.pwrResume_pending (s : State) (d : Nat) : (s.pwrResume d).pending = s.pending := by simp [State.pwrResume]

@[simp] theorem State.pwrDispatch_pending (s : State) (d : Nat) : (s.pwrDispatch d).pending = s.pending := by
  simp [State.pwrDispatch]

/-! ### Machine/Sq -/

@[simp] theorem State.pfcSend_pending (s : State) (port prio time : Nat) : (s.pfcSend port prio time).pending = s.pending := by
  simp [State.pfcSend]

@[simp] theorem State.xoffShow_pending (s : State) (e : QueueEntry) : (s.xoffShow e).pending = s.pending := by
  cases e
  simp [State.xoffShow]

@[simp] theorem State.queueLevel_pending (s : State) (q : Nat) : (s.queueLevel q).pending = s.pending := by
  unfold State.queueLevel
  split <;> simp

@[simp] theorem State.queueWrite_pending (s : State) (q : Nat) (x : Queue) (i : QItem) :
    (s.queueWrite q x i).pending = s.pending := by
  simp [State.queueWrite]

@[simp] theorem State.queueDrop_pending (s : State) (q : Nat) (o : Offer) (gap : Bool) :
    (s.queueDrop q o gap).pending = s.pending := by
  simp only [State.queueDrop]
  repeat' split
  all_goals simp

@[simp] theorem State.queueGap_pending (s : State) (q : Nat) : (s.queueGap q).pending = s.pending := by
  unfold State.queueGap
  split <;> simp

@[simp] theorem State.queueAccept_pending (s : State) (q : Nat) (o : Offer) : (s.queueAccept q o).pending = s.pending := by
  simp only [State.queueAccept]
  repeat' split
  all_goals simp

@[simp] theorem State.queueOffer_pending (s : State) (q : Nat) (o : Offer) : (s.queueOffer q o).pending = s.pending := by
  simp only [State.queueOffer]
  repeat' split
  all_goals simp

@[simp] theorem State.itemRelease_pending (s : State) (i : QItem) : (s.itemRelease i).pending = s.pending := by
  simp [State.itemRelease]

@[simp] theorem State.queueFree_pending (s : State) (q place : Nat) : (s.queueFree q place).pending = s.pending := by
  simp only [State.queueFree]
  repeat' split
  all_goals simp

@[simp] theorem State.queueHold_pending (s : State) (q place : Nat) : (s.queueHold q place).pending = s.pending := by
  unfold State.queueHold
  split <;> simp

@[simp] theorem State.gapSkip_pending (s : State) (q n : Nat) : (s.gapSkip q n).pending = s.pending := by
  induction n generalizing s with
  | zero => rfl
  | succ n ih =>
    unfold State.gapSkip
    split <;> simp [ih]

@[simp] theorem State.sqRefuse_pending (s : State) (cause : Nat) : (s.sqRefuse cause).pending = s.pending := rfl

@[simp] theorem State.sqCmd_pending (s : State) (q op : Nat) : (s.sqCmd q op).pending = s.pending := rfl

@[simp] theorem State.queueEnable_pending (s : State) (q : Nat) : (s.queueEnable q).pending = s.pending := by
  simp [State.queueEnable]

@[simp] theorem State.queueDisable_pending (s : State) (q : Nat) : (s.queueDisable q).pending = s.pending := by
  simp only [State.queueDisable]
  repeat' split
  all_goals simp

@[simp] theorem State.queueReset_pending (s : State) (q : Nat) : (s.queueReset q).pending = s.pending := by
  simp only [State.queueReset]
  repeat' split
  all_goals simp

/-! ### Machine/GdxOps -/

@[simp] theorem State.setNode_pending (s : State) (n : Nat) (x : NodeInst) : (s.setNode n x).pending = s.pending := rfl

@[simp] theorem State.upNode_pending (s : State) (n : Nat) (f : NodeInst → NodeInst) : (s.upNode n f).pending = s.pending := by
  unfold State.upNode
  split <;> simp

@[simp] theorem State.setInst_pending (s : State) (i : Nat) (x : SlotInst) : (s.setInst i x).pending = s.pending := rfl

@[simp] theorem State.upInst_pending (s : State) (i : Nat) (f : SlotInst → SlotInst) : (s.upInst i f).pending = s.pending := by
  unfold State.upInst
  split <;> simp

@[simp] theorem State.tplBlock_pending (s : State) (t : Nat) (b : Bool) : (s.tplBlock t b).pending = s.pending := rfl

@[simp] theorem State.gdxReport_pending (s : State) (cls sev tpl detail w tl : Nat) :
    (s.gdxReport cls sev tpl detail w tl).pending = s.pending := by
  simp [State.gdxReport]

@[simp] theorem State.ringConsume_pending (s : State) (r idx : Nat) : (s.ringConsume r idx).pending = s.pending := by
  simp only [State.ringConsume]
  repeat' split
  all_goals simp

@[simp] theorem State.errIndication_pending (s : State) (r : Nat) (i : RingItem) (code : FapiError) :
    (s.errIndication r i code).pending = s.pending := by
  simp only [State.errIndication]
  repeat' split
  all_goals simp

@[simp] theorem State.tokenFree_pending (s : State) (t : Token) : (s.tokenFree t).pending = s.pending := by
  simp only [State.tokenFree]
  repeat' split
  all_goals simp

@[simp] theorem State.tokenStale_pending (s : State) (t : Token) : (s.tokenStale t).pending = s.pending := by
  simp [State.tokenStale]

@[simp] theorem State.freeInputs_pending (s : State) (x : NodeInst) : (s.freeInputs x).pending = s.pending := by
  unfold State.freeInputs
  refine foldl_pending (fun s t => ?_) _ _
  cases t <;> simp

@[simp] theorem State.freeOutputs_pending (s : State) (ts : List Token) : (s.freeOutputs ts).pending = s.pending := by
  simp [State.freeOutputs]

@[simp] theorem State.launch_pending (s : State) (n port : Nat) (t : Token) : (s.launch n port t).pending = s.pending := rfl

@[simp] theorem State.joinFlow_pending (s : State) (f n : Nat) : (s.joinFlow f n).pending = s.pending := by simp [State.joinFlow]

@[simp] theorem State.leaveFlow_pending (s : State) (x : NodeInst) (n : Nat) : (s.leaveFlow x n).pending = s.pending := by
  unfold State.leaveFlow
  split <;> simp

@[simp] theorem State.setPool_pending (s : State) (p : Nat) (x : CreditPool) : (s.setPool p x).pending = s.pending := rfl

@[simp] theorem State.makeReady_pending (s : State) (n : Nat) : (s.makeReady n).pending = s.pending := by simp [State.makeReady]

@[simp] theorem State.poolDrain_pending (s : State) (p : Nat) : (s.poolDrain p).pending = s.pending := by simp [State.poolDrain]

@[simp] theorem State.poolLeave_pending (s : State) (p n : Nat) : (s.poolLeave p n).pending = s.pending := rfl

@[simp] theorem State.remoteSend_pending (s : State) (n : Option Nat) (i : SlotInst) (w1 : Nat) (retire : Bool) (t : Token) :
    (s.remoteSend n i w1 retire t).pending = s.pending := by
  simp [State.remoteSend]

@[simp] theorem State.endNode_pending (s : State) (n : Nat) (how : NodeEnd) : (s.endNode n how).pending = s.pending := by
  simp only [State.endNode]
  repeat' split
  all_goals simp

@[simp] theorem State.propagate_pending (s : State) (n : Nat) (ports : List Nat) : (s.propagate n ports).pending = s.pending := by
  unfold State.propagate
  split
  · rfl
  split
  · rfl
  dsimp only
  split
  · rfl
  split
  · rw [foldl_pending (by simp), foldl_pending]
    intro s m
    split <;> simp
  · refine foldl_pending (fun s k => ?_) _ _
    split
    · exact foldl_pending (fun s c => by split <;> simp) _ _
    · simp
      refine foldl_pending (fun s c => ?_) _ _
      split <;> simp

@[simp] theorem State.failOne_pending (s : State) (n : Nat) : (s.failOne n).1.pending = s.pending := by
  simp only [State.failOne]
  repeat' split
  all_goals simp

@[simp] theorem State.failAll_pending (k : Nat) (s : State) (ns : List Nat) : (State.failAll k s ns).pending = s.pending := by
  induction k generalizing s ns with
  | zero => rfl
  | succ k ih => cases ns <;> simp [State.failAll, ih]

@[simp] theorem State.failNode_pending (s : State) (n : Nat) : (s.failNode n).pending = s.pending := by simp [State.failNode]

@[simp] theorem State.askAdmission_pending (s : State) (n : Nat) : (s.askAdmission n).pending = s.pending := by
  simp only [State.askAdmission]
  repeat' split
  all_goals simp

@[simp] theorem State.admitAll_pending (s : State) : s.admitAll.pending = s.pending := by simp [State.admitAll]

@[simp] theorem State.toRing_pending (s : State) (ring : Nat) (i : SlotInst) (t : Token) :
    (s.toRing ring i t).pending = s.pending := by
  unfold State.toRing
  split <;> simp

@[simp] theorem State.deliver_pending (s : State) (n : Nat) (x : NodeInst) (i : SlotInst) (k : Nat) (t : Token) :
    (s.deliver n x i k t).pending = s.pending := by
  unfold State.deliver
  extract_lets r cons sink remote refs u launched
  have hu : u.pending = s.pending := by
    unfold u
    split <;> simp
  have hl : launched.pending = s.pending := by
    rw [← hu]
    refine foldl_pending (fun s c => ?_) _ _
    split <;> simp
  split
  · simp
  split
  · simp
  · cases sink <;> simp [hl]

@[simp] theorem State.releaseNode_pending (s : State) (n : Nat) : (s.releaseNode n).pending = s.pending := by
  simp only [State.releaseNode]
  repeat' split
  all_goals simp

@[simp] theorem State.takeTurn_pending (s : State) (n : Nat) : (s.takeTurn n).pending = s.pending := by
  simp only [State.takeTurn]
  repeat' split
  all_goals simp

@[simp] theorem State.releaseOne_pending (s : State) : s.releaseOne.pending = s.pending := by
  unfold State.releaseOne
  split <;> simp

@[simp] theorem State.releaseAll_pending (s : State) : s.releaseAll.pending = s.pending := by simp [State.releaseAll]

@[simp] theorem State.telemetry_pending (s : State) (typ : Nat) (i : SlotInst) : (s.telemetry typ i).pending = s.pending := by
  rw [State.telemetry]
  dsimp only
  split
  · rfl
  · rw [State.put_pending, State.setWords_pending]

@[simp] theorem State.retire_pending (s : State) (i : Nat) : (s.retire i).pending = s.pending := by
  unfold State.retire
  split <;> simp

@[simp] theorem State.retireAll_pending (s : State) : s.retireAll.pending = s.pending := by simp [State.retireAll]

@[simp] theorem State.gdxShow_pending (s : State) : s.gdxShow.pending = s.pending := by simp [State.gdxShow]

@[simp] theorem State.gdxCycle_pending (s : State) : s.gdxCycle.pending = s.pending := rfl

@[simp] theorem State.gdxSettle_pending (s : State) : s.gdxSettle.pending = s.pending := by simp [State.gdxSettle]

@[simp] theorem State.lateToken_pending (s : State) (hit : CancelledNode → List (Nat × Nat × Nat × Nat) → Option Nat) :
    (s.lateToken hit).pending = s.pending := by
  simp [State.lateToken]

@[simp] theorem State.tokenAt_pending (s : State) (n port : Nat) (t : Token) : (s.tokenAt n port t).pending = s.pending := by
  simp only [State.tokenAt]
  repeat' split
  all_goals simp

@[simp] theorem State.cancelInst_pending (s : State) (i : Nat) : (s.cancelInst i).pending = s.pending := by
  unfold State.cancelInst
  split
  · rfl
  rw [foldl_pending (by simp), State.setGdx_pending, foldl_pending, State.setInst_pending]
  intro s p
  split <;> simp

@[simp] theorem State.cancel_pending (s : State) (i : Option Nat) : (s.cancel i).pending = s.pending := by
  simp only [State.cancel]
  repeat' split
  all_goals simp

@[simp] theorem State.dueCancels_pending (s : State) (tl : Nat) : (s.dueCancels tl).pending = s.pending := by
  unfold State.dueCancels
  refine foldl_pending (fun s p => ?_) _ _
  dsimp only
  split <;> simp

@[simp] theorem State.lateRefill_pending (s : State) (p : Nat) (before : CreditPool) :
    (s.lateRefill p before).pending = s.pending := by
  simp [State.lateRefill]

@[simp] theorem State.refill_pending (s : State) (p op amount : Nat) : (s.refill p op amount).pending = s.pending := by
  simp [State.refill]

@[simp] theorem State.makeInst_pending (s : State) (t : Template) (e : Timeline) (tl : Nat) (slot : Int) :
    (s.makeInst t e tl slot).2.pending = s.pending := by
  rw [State.makeInst, State.setGdx_pending, foldl_pending, State.setInst_pending]
  intro s p
  dsimp only
  split <;> simp

@[simp] theorem State.retireToken_pending (s : State) (i k : Nat) : (s.retireToken i k).pending = s.pending := by
  unfold State.retireToken
  split
  · rfl
  rw [foldl_pending (by simp), foldl_pending]
  intro s m
  split <;> simp

@[simp] theorem State.remoteAt_pending (s : State) (i node port : Nat) (isRetire : Bool) (t : Token) :
    (s.remoteAt i node port isRetire t).pending = s.pending := by
  simp only [State.remoteAt]
  repeat' split
  all_goals simp

@[simp] theorem State.holdingDrain_pending (s : State) (tpl tl id : Nat) (e : Timeline) (slot : Int) (w : Nat) :
    (s.holdingDrain tpl tl id e slot w).pending = s.pending := by
  simp [State.holdingDrain]

@[simp] theorem State.create_pending (s : State) (tpl tl w : Nat) (slot : Option Int) :
    (s.create tpl tl w slot).2.pending = s.pending := by
  simp only [State.create]
  repeat' split
  all_goals simp

/-! ### Machine/GdxRun -/

@[simp] theorem State.moveRr_pending (s : State) (c e : Nat) (move : Bool) : (s.moveRr c e move).pending = s.pending := by
  simp [State.moveRr]

@[simp] theorem State.abandonTest_pending (s : State) (e : Nat) : (s.abandonTest e).pending = s.pending := by
  simp [State.abandonTest]

@[simp] theorem State.deliverRun_pending (s : State) (n : Nat) (x : NodeInst) (i : SlotInst) (kind : RunKind) (e : Nat)
    (outs : List Token) :
    (s.deliverRun n x i kind e outs).pending = s.pending := by
  simp only [State.deliverRun]
  repeat' split
  all_goals simp

@[simp] theorem State.takeOuts_pending (s : State) (r : NodeRec) : (s.takeOuts r).2.pending = s.pending := by
  simp [State.takeOuts]

@[simp] theorem State.countWait_pending (s : State) (x : NodeInst) (level : Nat) : (s.countWait x level).pending = s.pending := by
  simp [State.countWait]

theorem State.dispatchTie_pending (s : State) (n : Nat) (x : NodeInst) (i : SlotInst) (r : NodeRec) :
    ∀ t, s.dispatchTie n x i r = some t → t.pending = s.pending := by
  unfold State.dispatchTie
  split <;> simp

theorem State.dispatchNode_pending (s : State) (n : Nat) (x : NodeInst) (i : SlotInst) (r : NodeRec) :
    ∀ t, s.dispatchNode n x i r = some t → t.pending = s.pending := by
  intro t h
  unfold State.dispatchNode at h
  dsimp only at h
  split at h
  · cases h
  split at h
  · cases h
  split at h
  · cases h; simp
  split at h
  · split at h
    · cases h
    split at h <;> cases h
    simp
  split at h <;> cases h
  simp

@[simp] theorem State.dispatchFirst_pending (s : State) (l : List (Nat × NodeInst)) (lack : Bool) :
    (s.dispatchFirst l lack).pending = s.pending := by
  induction l generalizing lack with
  | nil => simp [State.dispatchFirst]
  | cons p ps ih =>
    unfold State.dispatchFirst
    split
    · exact ih _
    · dsimp only
      split
      next t h =>
        have ht : t.pending = s.pending := by
          split at h
          · exact State.dispatchTie_pending _ _ _ _ _ _ h
          · exact State.dispatchNode_pending _ _ _ _ _ _ h
        simp [ht]
      · exact ih _

@[simp] theorem State.dispatch_pending (s : State) (c : Nat) : (s.dispatch c).pending = s.pending := by simp [State.dispatch]

@[simp] theorem State.execOut_pending (s : State) (e : Nat) : (s.execOut e).pending = s.pending := by
  simp only [State.execOut]
  repeat' split
  all_goals simp

@[simp] theorem State.faultExec_pending (s : State) (e : Nat) (c : Completion) : (s.faultExec e c).pending = s.pending := by
  simp [State.faultExec]

@[simp] theorem State.replayNode_pending (s : State) (n : Nat) (bad : List Nat) : (s.replayNode n bad).pending = s.pending := by
  unfold State.replayNode
  split <;> simp

@[simp] theorem State.completeNode_pending (s : State) (n e : Nat) (outs : List Token) :
    (s.completeNode n e outs).pending = s.pending := by
  unfold State.completeNode
  split <;> simp

@[simp] theorem State.holdInputs_pending (s : State) (x : NodeInst) : (s.holdInputs x).pending = s.pending := by
  unfold State.holdInputs
  refine foldl_pending (fun s t => ?_) _ _
  cases t <;> simp

@[simp] theorem State.poisonNode_pending (s : State) (n p : Nat) : (s.poisonNode n p).pending = s.pending := by
  simp only [State.poisonNode]
  repeat' split
  all_goals simp

@[simp] theorem State.poisonDone_pending (s : State) (q : Nat) : (s.poisonDone q).pending = s.pending := by
  unfold State.poisonDone
  split <;> simp

@[simp] theorem State.umpCapture_pending (s : State) (n tpl : Nat) (a b : Run) (sa sb : Nat) :
    (s.umpCapture n tpl a b sa sb).pending = s.pending := by
  simp [State.umpCapture]

@[simp] theorem State.umpOutcome_pending (s : State) (n sc outcome : Nat) : (s.umpOutcome n sc outcome).pending = s.pending := by
  simp [State.umpOutcome]

@[simp] theorem State.judgePair_pending (s : State) (n e : Nat) (x : NodeInst) (a b : Run) (ra rb : RunResult) :
    (s.judgePair n e x a b ra rb).pending = s.pending := by
  simp [State.judgePair]

@[simp] theorem State.judgeTie_pending (s : State) (n e : Nat) (a b c : Run) (ra rb rc : RunResult) :
    (s.judgeTie n e a b c ra rb rc).pending = s.pending := by
  simp [State.judgeTie]

@[simp] theorem State.judge_pending (s : State) (n e : Nat) : (s.judge n e).pending = s.pending := by
  simp only [State.judge]
  repeat' split
  all_goals simp

@[simp] theorem State.injectSig_pending (s : State) (e sig : Nat) (paired : Bool) :
    (s.injectSig e sig paired).2.pending = s.pending := by
  unfold State.injectSig
  split <;> simp

@[simp] theorem State.complete_pending (s : State) (e : Nat) : (s.complete e).pending = s.pending := by
  simp only [State.complete]
  repeat' split
  all_goals simp

/-! ### Machine/Scl -/

@[simp] theorem State.sclShow_pending (s : State) (c : Nat) : (s.sclShow c).pending = s.pending := by simp [State.sclShow]

@[simp] theorem State.coreBack_pending (s : State) (l k : Nat) : (s.coreBack l k).pending = s.pending := rfl

@[simp] theorem State.sclMapApply_pending (s : State) (c : Nat) : (s.sclMapApply c).pending = s.pending := by
  unfold State.sclMapApply
  split <;> simp

@[simp] theorem State.sclMapWrite_pending (s : State) (c map : Nat) : (s.sclMapWrite c map).pending = s.pending := by
  simp [State.sclMapWrite]

@[simp] theorem State.lendApply_pending (s : State) (n : Nat) : (s.lendApply n).pending = s.pending := by simp [State.lendApply]

@[simp] theorem State.lendWrite_pending (s : State) (n l : Nat) (en : Bool) : (s.lendWrite n l en).pending = s.pending := by
  simp [State.lendWrite]

/-! ### Machine/GdxCmd -/

@[simp] theorem State.installAt_pending (s : State) (a regionLen : Nat) (fits : Bool) :
    (s.installAt a regionLen fits).2.pending = s.pending := by
  simp only [State.installAt]
  repeat' split
  all_goals simp

@[simp] theorem State.install_pending (s : State) (regionLen : Nat) (fits : Bool) :
    (s.install regionLen fits).pending = s.pending := by
  simp [State.install]

@[simp] theorem State.tplRemove_pending (s : State) (t : Nat) : (s.tplRemove t).pending = s.pending := rfl

@[simp] theorem State.takeQueue_pending (s : State) (q : Nat) (late : Bool) : (s.takeQueue q late).pending = s.pending := by
  simp only [State.takeQueue]
  repeat' split
  all_goals simp

@[simp] theorem State.ringTake_pending (s : State) (r idx : Nat) : (s.ringTake r idx).pending = s.pending := by
  unfold State.ringTake
  split <;> simp

@[simp] theorem State.ringStale_pending (s : State) (r : Nat) (i : RingItem) (why : FapiError) :
    (s.ringStale r i why).pending = s.pending := by
  simp [State.ringStale]

@[simp] theorem State.takeRing_pending (s : State) (r : Nat) (late : Bool) : (s.takeRing r late).pending = s.pending := by
  simp only [State.takeRing]
  repeat' split
  all_goals simp

@[simp] theorem State.remoteToken_pending (s : State) (r : RemoteToken) (late : Bool) :
    (s.remoteToken r late).pending = s.pending := by
  unfold State.remoteToken
  split
  · dsimp only
    rw [State.tokenStale_pending]
    split <;> simp
  next tl htl =>
    extract_lets u gone rc g
    have hu : u.pending = s.pending := by
      unfold u
      split <;> simp
    clear_value u
    have hc := u.create_pending r.template tl r.slotWord none
    split
    · rw [State.remoteAt_pending, hu]
    split
    · rw [State.tokenStale_pending, hu]
    split
    · split
      next i v h => rw [State.remoteAt_pending, ← hu, ← hc, h]
      next v h => rw [State.tokenStale_pending, ← hu, ← hc, h]
    · split <;> simp [g, hu]

@[simp] theorem State.snapHold_pending (s : State) (hold : Bool) : (s.snapHold hold).pending = s.pending := by
  simp only [State.snapHold]
  repeat' split
  all_goals simp

@[simp] theorem State.telemCopy_pending (s : State) : s.telemCopy.pending = s.pending := by
  unfold State.telemCopy
  split <;> simp

@[simp] theorem State.setReserve_pending (s : State) (c v : Nat) : (s.setReserve c v).pending = s.pending := by
  simp [State.setReserve]

@[simp] theorem State.instCreate_pending (s : State) (tpl tl : Nat) : (s.instCreate tpl tl).pending = s.pending := by
  simp [State.instCreate]

/-! ### Machine/Aft -/

@[simp] theorem State.setTl_pending (s : State) (t : Nat) (x : Timeline) : (s.setTl t x).pending = s.pending := rfl

@[simp] theorem State.tlRefuse_pending (s : State) (cause : Nat) : (s.tlRefuse cause).pending = s.pending := rfl

@[simp] theorem State.tddShow_pending (s : State) : s.tddShow.pending = s.pending := rfl

@[simp] theorem State.tlEnShow_pending (s : State) (t : Nat) (on : Bool) : (s.tlEnShow t on).pending = s.pending := by
  simp [State.tlEnShow]

@[simp] theorem State.latchSlot_pending (s : State) (t : Nat) (x : Timeline) (slot : Int) :
    (s.latchSlot t x slot).pending = s.pending := by
  simp [State.latchSlot]

@[simp] theorem State.tlEnable_pending (s : State) (t : Nat) : (s.tlEnable t).pending = s.pending := by simp [State.tlEnable]

@[simp] theorem State.tddUpdate_pending (s : State) (t ptr len : Nat) : (s.tddUpdate t ptr len).pending = s.pending := by
  unfold State.tddUpdate
  split <;> simp

@[simp] theorem State.tddApply_pending (s : State) (t : Nat) : (s.tddApply t).pending = s.pending := by
  simp only [State.tddApply]
  repeat' split
  all_goals simp

@[simp] theorem State.slotBoundary_pending (s : State) (t : Nat) : (s.slotBoundary t).pending = s.pending := by
  unfold State.slotBoundary
  split <;> simp

/-! ### Machine/Cpl -/

@[simp] theorem State.upCpl_pending (s : State) (p : Nat) (f : CplPort → CplPort) : (s.upCpl p f).pending = s.pending := rfl

@[simp] theorem State.cplSend_pending (s : State) (p : Nat) (b : CplBlock) : (s.cplSend p b).pending = s.pending := rfl

@[simp] theorem State.cplState_pending (s : State) (p st : Nat) : (s.cplState p st).pending = s.pending := by
  simp [State.cplState]

@[simp] theorem State.cplTrain_pending (s : State) (p : Nat) : (s.cplTrain p).pending = s.pending := by simp [State.cplTrain]

@[simp] theorem State.cplFail_pending (s : State) (p : Nat) : (s.cplFail p).pending = s.pending := by simp [State.cplFail]

@[simp] theorem State.cplMiswire_pending (s : State) (p lane : Nat) : (s.cplMiswire p lane).pending = s.pending := by
  simp [State.cplMiswire]

@[simp] theorem State.cplLanes_pending (s : State) (p : Nat) (ls : List LaneSeen) (aligned : Nat) :
    (s.cplLanes p ls aligned).pending = s.pending := by
  unfold State.cplLanes
  split <;> simp

@[simp] theorem State.cplSlip_pending (s : State) (p l : Nat) (aligned : Bool) : (s.cplSlip p l aligned).pending = s.pending := by
  simp [State.cplSlip]

@[simp] theorem State.cplCap_pending (s : State) (p : Nat) (set : CapSet) (ok : Bool) :
    (s.cplCap p set ok).pending = s.pending := by
  simp [State.cplCap]

@[simp] theorem State.cplGrant_pending (s : State) (p : Nat) : (s.cplGrant p).pending = s.pending := by simp [State.cplGrant]

@[simp] theorem State.cplAgree_pending (s : State) (p : Nat) : (s.cplAgree p).pending = s.pending := by
  unfold State.cplAgree
  split
  · simp
  · rw [State.cplGrant_pending, State.cplState_pending, State.upCpl_pending, State.putAll_pending]

@[simp] theorem State.cplDropTokens_pending (s : State) (p : Nat) : (s.cplDropTokens p).pending = s.pending := by
  simp [State.cplDropTokens]

@[simp] theorem State.cplGapOver_pending (s : State) (p : Nat) : (s.cplGapOver p).pending = s.pending := by
  simp [State.cplGapOver]

@[simp] theorem State.cplStop_pending (s : State) (p : Nat) : (s.cplStop p).pending = s.pending := by simp [State.cplStop]

@[simp] theorem State.cplDown_pending (s : State) (p : Nat) : (s.cplDown p).pending = s.pending := by simp [State.cplDown]

@[simp] theorem State.cplDisable_pending (s : State) (p : Nat) : (s.cplDisable p).pending = s.pending := by
  simp [State.cplDisable]

@[simp] theorem State.cplEnable_pending (s : State) (p : Nat) : (s.cplEnable p).pending = s.pending := by simp [State.cplEnable]

@[simp] theorem State.freeDiv_pending (s : State) (a : Int) (n : Nat) : (s.freeDiv a n).2.pending = s.pending := by
  unfold State.freeDiv
  split <;> simp

@[simp] theorem State.cplProbes_pending (s : State) (p : Nat) : (s.cplProbes p).pending = s.pending := by simp [State.cplProbes]

@[simp] theorem State.cplDelay_pending (s : State) (p : Nat) : (s.cplDelay p).pending = s.pending := by simp [State.cplDelay]

@[simp] theorem State.cplMeasure_pending (s : State) (p : Nat) : (s.cplMeasure p).pending = s.pending := by
  simp [State.cplMeasure]

@[simp] theorem State.cplEndGap_pending (s : State) (p : Nat) : (s.cplEndGap p).pending = s.pending := by simp [State.cplEndGap]

@[simp] theorem State.gapOpen_pending (s : State) (p : Nat) : (s.gapOpen p).pending = s.pending := by simp [State.gapOpen]

@[simp] theorem State.gapClose_pending (s : State) (p : Nat) : (s.gapClose p).pending = s.pending := by simp [State.gapClose]

@[simp] theorem State.gapTimeout_pending (s : State) (p : Nat) : (s.gapTimeout p).pending = s.pending := by
  simp [State.gapTimeout]

@[simp] theorem State.gapBegin_pending (s : State) (p : Nat) : (s.gapBegin p).pending = s.pending := by
  unfold State.gapBegin
  split <;> simp

@[simp] theorem State.convPut_pending (s : State) (p conv : Nat) (ctrl : Bool) (word : Nat) :
    (s.convPut p conv ctrl word).pending = s.pending := rfl

@[simp] theorem State.convFire_pending (s : State) (p conv : Nat) (ctrl : Bool) (word : Nat) :
    (s.convFire p conv ctrl word).pending = s.pending := by
  simp [State.convFire]

@[simp] theorem State.sampleIn_pending (s : State) (p sid slot sym : Nat) (bs : List Byte) (ok : Bool) :
    (s.sampleIn p sid slot sym bs ok).pending = s.pending := by
  unfold State.sampleIn
  dsimp only
  split
  · simp
  split
  · split <;> simp
  · rw [State.queueOffer_pending]
    simp

@[simp] theorem State.sampleOut_pending (s : State) (q : Nat) : (s.sampleOut q).pending = s.pending := by
  simp only [State.sampleOut]
  repeat' split
  all_goals simp

@[simp] theorem State.sampleLate_pending (s : State) (q : Nat) : (s.sampleLate q).pending = s.pending := by
  unfold State.sampleLate
  split <;> simp

@[simp] theorem State.rawOut_pending (s : State) (p sid n : Nat) : (s.rawOut p sid n).pending = s.pending := by
  unfold State.rawOut
  split <;> simp

@[simp] theorem State.tokenLost_pending (s : State) (n : Option Nat) (r : RemoteToken) :
    (s.tokenLost n r).pending = s.pending := by
  simp only [State.tokenLost]
  repeat' split
  all_goals simp

@[simp] theorem State.tokenOut_pending (s : State) (k : Nat) : (s.tokenOut k).pending = s.pending := by
  unfold State.tokenOut
  split <;> simp

@[simp] theorem State.tokenDeliver_pending (s : State) (p : Nat) (m : TokenMsg) (late : Bool) :
    (s.tokenDeliver p m late).pending = s.pending := by
  simp [State.tokenDeliver]

@[simp] theorem State.tokenForward_pending (s : State) (m : TokenMsg) : (s.tokenForward m).pending = s.pending := by
  simp [State.tokenForward]

@[simp] theorem State.tokenIn_pending (s : State) (p : Nat) (m : TokenMsg) (late : Bool) :
    (s.tokenIn p m late).pending = s.pending := by
  simp [State.tokenIn]

@[simp] theorem State.tokenRecv_pending (s : State) (p seq : Nat) (m : TokenMsg) (ok late : Bool) :
    (s.tokenRecv p seq m ok late).pending = s.pending := by
  simp [State.tokenRecv]

@[simp] theorem State.tokenAck_pending (s : State) (p seq : Nat) : (s.tokenAck p seq).pending = s.pending := by
  simp [State.tokenAck]

@[simp] theorem State.tokenNak_pending (s : State) (p seq : Nat) : (s.tokenNak p seq).pending = s.pending := by
  simp only [State.tokenNak]
  repeat' split
  all_goals simp

@[simp] theorem State.timeOut_pending (s : State) (p : Nat) (locked : Bool) : (s.timeOut p locked).pending = s.pending := by
  simp [State.timeOut]

@[simp] theorem State.timeIn_pending (s : State) (p : Nat) (t : Tai) (car hops : Nat) (locked : Bool) (sub : Nat) :
    (s.timeIn p t car hops locked sub).pending = s.pending := by
  rw [← sameQueue_iff]
  fun_cases State.timeIn s p t car hops locked sub with
  | case1 => rfl
  | case2 d hd owd units ps u hu off v w hw =>
    have hu' : u.pending = s.pending := by rw [← s.freeDiv_pending (units * 1000) (2 ^ 32), hu]
    rw [sameQueue_iff, State.putAll_pending, ← hu']
    split at hw <;> cases hw <;> rfl

@[simp] theorem State.cplDrop_pending (s : State) (p lane : Nat) : (s.cplDrop p lane).pending = s.pending := by
  simp [State.cplDrop]

/-! ### Machine/Net -/

@[simp] theorem State.upNet_pending (s : State) (p : Nat) (f : NetPort → NetPort) : (s.upNet p f).pending = s.pending := rfl

@[simp] theorem State.upLane_pending (s : State) (n : Nat) (f : NetLane → NetLane) : (s.upLane n f).pending = s.pending := rfl

@[simp] theorem State.netState_pending (s : State) (p st : Nat) : (s.netState p st).pending = s.pending := by
  simp [State.netState]

@[simp] theorem State.netSetMode_pending (s : State) (p mode lanes : Nat) : (s.netSetMode p mode lanes).pending = s.pending := by
  simp [State.netSetMode]

@[simp] theorem State.testStop_pending (s : State) (n : Nat) : (s.testStop n).pending = s.pending := rfl

@[simp] theorem State.netStart_pending (s : State) (p : Nat) : (s.netStart p).pending = s.pending := by simp [State.netStart]

@[simp] theorem State.lutCopy_pending (s : State) (p : Nat) : (s.lutCopy p).pending = s.pending := rfl

@[simp] theorem State.netEnable_pending (s : State) (p : Nat) : (s.netEnable p).pending = s.pending := by simp [State.netEnable]

@[simp] theorem State.netDisable_pending (s : State) (p : Nat) : (s.netDisable p).pending = s.pending := by
  simp [State.netDisable]

@[simp] theorem State.groupApply_pending (s : State) (g : Nat) : (s.groupApply g).pending = s.pending := by
  unfold State.groupApply
  split <;> simp

@[simp] theorem State.autoneg_pending (s : State) (p : Nat) (fb : Option Nat) : (s.autoneg p fb).pending = s.pending := by
  simp only [State.autoneg]
  repeat' split
  all_goals simp

@[simp] theorem State.trained_pending (s : State) (p polarity : Nat) (ffe : List (BitVec 24)) :
    (s.trained p polarity ffe).pending = s.pending := by
  simp [State.trained]

@[simp] theorem State.pcsLock_pending (s : State) (p laneMap : Nat) : (s.pcsLock p laneMap).pending = s.pending := by
  simp [State.pcsLock]

@[simp] theorem State.attemptFail_pending (s : State) (p : Nat) : (s.attemptFail p).pending = s.pending := by
  simp [State.attemptFail]

@[simp] theorem State.linkFail_pending (s : State) (p : Nat) : (s.linkFail p).pending = s.pending := by simp [State.linkFail]

@[simp] theorem State.adapt_pending (s : State) (n : Nat) (delta : List Int) : (s.adapt n delta).pending = s.pending := by
  simp [State.adapt]

@[simp] theorem State.stampOf_pending (s : State) (base : Int) (p sub : Nat) (d : Dir) :
    (s.stampOf base p sub d).2.pending = s.pending := by
  simp [State.stampOf]

@[simp] theorem State.stampPush_pending (s : State) (p : Nat) (d : Dir) (mtype seq : Nat) (t : Tai) :
    (s.stampPush p d mtype seq t).pending = s.pending := by
  simp [State.stampPush]

@[simp] theorem State.ptpStamp_pending (s : State) (p sub : Nat) (d : Dir) (mtype dn seq : Nat) :
    (s.ptpStamp p sub d mtype dn seq).pending = s.pending := by
  unfold State.ptpStamp
  split <;> simp

@[simp] theorem State.owdStamp_pending (s : State) (p sub : Nat) (d : Dir) (mid : Nat) :
    (s.owdStamp p sub d mid).pending = s.pending := by
  simp [State.owdStamp]

@[simp] theorem State.fceCount_pending (s : State) (lane n disagree erased : Nat) :
    (s.fceCount lane n disagree erased).pending = s.pending := by
  simp [State.fceCount]

@[simp] theorem State.netOffer_pending (s : State) (q : Nat) (o : Offer) : (s.netOffer q o).pending = s.pending := by
  unfold State.netOffer
  split <;> simp

@[simp] theorem State.sections_pending (s : State) (p q lane dataSize : Nat) (erased : List Nat) (base : Offer) (n0 n2 n3 k : Nat)
    (us : List USection) : (s.sections p q lane dataSize erased base n0 n2 n3 k us).pending = s.pending := by
  induction us generalizing s k with
  | nil => rfl
  | cons u us ih => simp [State.sections, ih]

@[simp] theorem State.fhItem_pending (s : State) (p lane : Nat) (w : List Nat) (x : Queue) (t : Timeline) (m : EcpriMsg)
    (slot : Int) (sym : Nat) (arr : Int) (erased : List Nat) (k : Nat) (seqErr : Bool) :
    (s.fhItem p lane w x t m slot sym arr erased k seqErr).pending = s.pending := by
  simp only [State.fhItem]
  repeat' split
  all_goals simp

@[simp] theorem State.fhMessage_pending (s : State) (p lane sub : Nat) (f : EthFrame) (erased : List Nat) (k : Nat) (m : EcpriMsg) :
    (s.fhMessage p lane sub f erased k m).pending = s.pending := by
  simp only [State.fhMessage]
  repeat' split
  all_goals simp

@[simp] theorem State.fhMessages_pending (s : State) (p lane sub : Nat) (f : EthFrame) (erased : List Nat) (k : Nat)
    (ms : List EcpriMsg) : (s.fhMessages p lane sub f erased k ms).pending = s.pending := by
  induction ms generalizing s k with
  | nil => rfl
  | cons m ms ih => simp [State.fhMessages, ih]

@[simp] theorem State.fronthaul_pending (s : State) (p sub : Nat) (f : EthFrame) (ms : List EcpriMsg) (disagree : Nat)
    (erased : List Nat) :
    (s.fronthaul p sub f ms disagree erased).pending = s.pending := by
  simp [State.fronthaul]

@[simp] theorem State.ctrlFrame_pending (s : State) (p sub : Nat) (f : EthFrame) : (s.ctrlFrame p sub f).pending = s.pending := by
  simp only [State.ctrlFrame]
  repeat' split
  all_goals simp

@[simp] theorem State.pfcFrame_pending (s : State) (p enable : Nat) (times : List Nat) :
    (s.pfcFrame p enable times).pending = s.pending := by
  simp [State.pfcFrame]

@[simp] theorem State.classify_pending (s : State) (p sub : Nat) (f : EthFrame) (disagree : Nat) (erased : List Nat) :
    (s.classify p sub f disagree erased).pending = s.pending := by
  unfold State.classify
  split <;> simp

@[simp] theorem State.frameIn_pending (s : State) (p sub : Nat) (f : EthFrame) (disagree : Nat) (erased : List Nat) :
    (s.frameIn p sub f disagree erased).pending = s.pending := by
  simp only [State.frameIn]
  repeat' split
  all_goals simp

@[simp] theorem State.frame_pending (s : State) (p sub : Nat) (f : EthFrame) (fcsOk : Bool) (disagree : Nat) (erased : List Nat) :
    (s.frame p sub f fcsOk disagree erased).pending = s.pending := by
  unfold State.frame
  split <;> simp

@[simp] theorem State.txFree_pending (s : State) (h : TxHead) : (s.txFree h).pending = s.pending := by simp [State.txFree]

@[simp] theorem State.txPurge_pending (s : State) (p q n : Nat) : (s.txPurge p q n).pending = s.pending := by
  induction n generalizing s with
  | zero => rfl
  | succ n ih =>
    unfold State.txPurge
    dsimp only
    split <;> simp [ih]

@[simp] theorem State.macsecTx_pending (s : State) (p : Nat) (protect : Bool) : (s.macsecTx p protect).2.pending = s.pending := by
  simp only [State.macsecTx]
  repeat' split
  all_goals simp

@[simp] theorem State.txSend_pending (s : State) (p sub : Nat) (h : TxHead) : (s.txSend p sub h).pending = s.pending := by
  simp [State.txSend]
  repeat' split
  all_goals simp

@[simp] theorem State.txDown_pending (s : State) (p : Nat) : (s.txDown p).pending = s.pending := by
  unfold State.txDown
  refine foldl_pending (fun s q => ?_) _ _
  dsimp only
  split <;> simp

@[simp] theorem State.txItem_pending (s : State) (p sub prbs disagree erased : Nat) :
    (s.txItem p sub prbs disagree erased).pending = s.pending := by
  simp only [State.txItem]
  repeat' split
  all_goals simp

@[simp] theorem State.txLate_pending (s : State) (p q sub : Nat) : (s.txLate p q sub).pending = s.pending := by
  simp only [State.txLate]
  repeat' split
  all_goals simp

@[simp] theorem State.prbsCtrl_pending (s : State) (n : Nat) (v : Word) : (s.prbsCtrl n v).pending = s.pending := by
  simp [State.prbsCtrl]

@[simp] theorem State.prbsInject_pending (s : State) (n : Nat) : (s.prbsInject n).pending = s.pending := by
  simp [State.prbsInject]

@[simp] theorem State.prbsBits_pending (s : State) (n k : Nat) : (s.prbsBits n k).pending = s.pending := by simp [State.prbsBits]

@[simp] theorem State.prbsLock_pending (s : State) (n : Nat) (lock : Bool) (bits errors : Nat) :
    (s.prbsLock n lock bits errors).pending = s.pending := by
  unfold State.prbsLock
  extract_lets was u v
  have hu : u.pending = s.pending := by
    unfold u
    split
    · rw [State.count_pending, State.prbsBits_pending]
    · rfl
  have hv : v.pending = s.pending := by
    unfold v
    split
    · rw [State.set_pending, hu]
    · exact hu
  split
  · rfl
  · rw [State.setTo_pending, hv]

/-! ### Machine/Power -/

@[simp] theorem State.zeroRange_pending (s : State) (a n : Nat) : (s.zeroRange a n).pending = s.pending := by
  simp [State.zeroRange]

@[simp] theorem State.copyRange_pending (s : State) (src dst n : Nat) : (s.copyRange src dst n).pending = s.pending := by
  simp [State.copyRange]

@[simp] theorem State.domReset_pending (s : State) (d : Nat) : (s.domReset d).pending = s.pending := by simp [State.domReset]

@[simp] theorem State.sigDrop_pending (s : State) (c : Nat) : (s.sigDrop c).pending = s.pending := by simp [State.sigDrop]

@[simp] theorem State.sigTake_pending (s : State) (c : Nat) : (s.sigTake c).pending = s.pending := by simp [State.sigTake]

@[simp] theorem State.stackOff_pending (s : State) (st : Nat) : (s.stackOff st).pending = s.pending := by simp [State.stackOff]

@[simp] theorem State.pwrEntered_pending (s : State) (d t : Nat) : (s.pwrEntered d t).pending = s.pending := by
  simp [State.pwrEntered]

@[simp] theorem State.pwrAbandon_pending (s : State) (d : Nat) : (s.pwrAbandon d).pending = s.pending := by
  simp [State.pwrAbandon]

@[simp] theorem State.pwrStepEnd_pending (s : State) (d : Nat) : (s.pwrStepEnd d).pending = s.pending := by
  simp only [State.pwrStepEnd]
  repeat' split
  all_goals simp

@[simp] theorem State.bankLoad_pending (s : State) (c b : Nat) : (s.bankLoad c b).pending = s.pending := by
  unfold State.bankLoad
  split <;> simp

@[simp] theorem State.bankLost_pending (s : State) (c b : Nat) : (s.bankLost c b).pending = s.pending := by
  simp only [State.bankLost]
  repeat' split
  all_goals simp

@[simp] theorem State.banksWake_pending (s : State) (c origin : Nat) (bad : List Nat) :
    (s.banksWake c origin bad).pending = s.pending := by
  simp [State.banksWake]

@[simp] theorem State.rstDone_pending (s : State) (d : Nat) : (s.rstDone d).pending = s.pending := by simp [State.rstDone]

@[simp] theorem State.pwrWoken_pending (s : State) (d : Nat) (bad : List Nat) : (s.pwrWoken d bad).pending = s.pending := by
  simp [State.pwrWoken]

@[simp] theorem State.alertShow_pending (s : State) : s.alertShow.pending = s.pending := by simp [State.alertShow]

@[simp] theorem State.hibStart_pending (s : State) (mbx seq mask : Nat) : (s.hibStart mbx seq mask).pending = s.pending := by
  simp [State.hibStart]

@[simp] theorem State.hibOff_pending (s : State) (h : Hib) : (s.hibOff h).pending = s.pending := by simp [State.hibOff]

@[simp] theorem State.hibWake_pending (s : State) (h : Hib) (doms : List (Nat × Nat)) :
    (s.hibWake h doms).pending = s.pending := by
  simp [State.hibWake]

@[simp] theorem State.stacksWake_pending (s : State) : s.stacksWake.pending = s.pending := by simp [State.stacksWake]

@[simp] theorem State.hibAbandon_pending (s : State) : s.hibAbandon.pending = s.pending := by
  fun_cases State.hibAbandon s with
  | case1 => rfl
  | case2 h _ _ _ s₃ =>
    have h₃ : s₃.pending = s.pending := by
      simp only [s₃, State.ite_pending, State.hibWake_pending, ite_self]
      rw [State.stacksWake_pending, State.count_pending, State.putAll_pending]
    rw [State.event_pending, State.set_pending, State.setPwr_pending, h₃]

@[simp] theorem State.hibStepEnd_pending (s : State) : s.hibStepEnd.pending = s.pending := by
  simp only [State.hibStepEnd]
  repeat' split
  all_goals simp

@[simp] theorem State.chipWake_pending (s : State) (rule : Nat) : (s.chipWake rule).pending = s.pending := by
  simp [State.chipWake]

@[simp] theorem State.heldSend_pending (s : State) : s.heldSend.pending = s.pending := by simp [State.heldSend]

@[simp] theorem State.chipWoken_pending (s : State) : s.chipWoken.pending = s.pending := by simp [State.chipWoken]

@[simp] theorem State.chipWakeFail_pending (s : State) : s.chipWakeFail.pending = s.pending := by simp [State.chipWakeFail]

@[simp] theorem State.autoDoze_pending (s : State) (d : Nat) : (s.autoDoze d).pending = s.pending := by simp [State.autoDoze]

/-! ### Machine/Whs -/

@[simp] theorem State.setWhs_pending (s : State) (ch : Nat) (x : WhsCh) : (s.setWhs ch x).pending = s.pending := by
  simp [State.setWhs]

@[simp] theorem State.whsLate_pending (s : State) (ch : Nat) : (s.whsLate ch).pending = s.pending := rfl

@[simp] theorem State.whsMissed_pending (s : State) (ch n : Nat) : (s.whsMissed ch n).pending = s.pending := by
  simp [State.whsMissed]

@[simp] theorem State.cancelMissed_pending (s : State) (x : WhsCh) (t : Timeline) (c : Int) :
    (s.cancelMissed x t c).pending = s.pending := by
  simp only [State.cancelMissed]
  repeat' split
  all_goals simp

@[simp] theorem State.whsJudge_pending (s : State) (ch : Nat) : (s.whsJudge ch).pending = s.pending := by
  simp only [State.whsJudge]
  repeat' split
  all_goals simp

@[simp] theorem State.armRefuse_pending (s : State) (cause : Nat) : (s.armRefuse cause).pending = s.pending := rfl

@[simp] theorem State.whsDisarm_pending (s : State) (ch : Nat) : (s.whsDisarm ch).pending = s.pending := by
  unfold State.whsDisarm
  split <;> simp

@[simp] theorem State.whsArm_pending (s : State) (ch : Nat) : (s.whsArm ch).pending = s.pending := by
  simp only [State.whsArm]
  repeat' split
  all_goals simp

@[simp] theorem State.whsFired_pending (s : State) (ch : Nat) (x : WhsCh) (t : Timeline) (c : Int) :
    (s.whsFired ch x t c).pending = s.pending := by
  simp [State.whsFired]

@[simp] theorem State.whsFire_pending (s : State) (ch action : Nat) {act : State → WhsCh → Timeline → Int → State}
    (h : ∀ s x t c, SameQueue s (act s x t c)) : (s.whsFire ch action act).pending = s.pending := by
  unfold State.whsFire
  split
  · rfl
  · rw [h, State.whsFired_pending]

@[simp] theorem State.whsCycle_pending (s : State) : s.whsCycle.pending = s.pending := by simp [State.whsCycle]

@[simp] theorem State.whsSpill_pending (s : State) (ch : Nat) : (s.whsSpill ch).pending = s.pending := by
  simp only [State.whsSpill]
  repeat' split
  all_goals simp

@[simp] theorem State.setPin_pending (s : State) (n : Nat) (x : WhsPinSt) : (s.setPin n x).pending = s.pending := rfl

@[simp] theorem State.pinDrive_pending (s : State) (n : Nat) (x : WhsPinSt) (d : PinDrive) :
    (s.pinDrive n x d).pending = s.pending := rfl

@[simp] theorem State.pinBit_pending (s : State) (f : Fld) (n : Nat) : (s.pinBit f n).pending = s.pending := by
  simp [State.pinBit]

@[simp] theorem State.pinMissed_pending (s : State) (n k : Nat) : (s.pinMissed n k).pending = s.pending := by
  simp [State.pinMissed]

@[simp] theorem State.pinJudge_pending (s : State) (n : Nat) : (s.pinJudge n).pending = s.pending := by
  simp only [State.pinJudge]
  repeat' split
  all_goals simp

@[simp] theorem State.pinArm_pending (s : State) (n : Nat) : (s.pinArm n).pending = s.pending := by
  simp only [State.pinArm]
  repeat' split
  all_goals simp

@[simp] theorem State.pinDisarm_pending (s : State) (n : Nat) : (s.pinDisarm n).pending = s.pending := by
  simp only [State.pinDisarm]
  repeat' split
  all_goals simp

@[simp] theorem State.pinFire_pending (s : State) (n : Nat) : (s.pinFire n).pending = s.pending := by
  simp only [State.pinFire]
  repeat' split
  all_goals simp

@[simp] theorem State.pinEnd_pending (s : State) (n : Nat) : (s.pinEnd n).pending = s.pending := by
  unfold State.pinEnd
  split <;> simp

@[simp] theorem State.whsJudgeAll_pending (s : State) : s.whsJudgeAll.pending = s.pending := by simp [State.whsJudgeAll]

@[simp] theorem State.whsPass_pending (s : State) : s.whsPass.pending = s.pending := by simp [State.whsPass]

@[simp] theorem State.whsEnable_pending (s : State) (on : Bool) : (s.whsEnable on).pending = s.pending := by
  simp [State.whsEnable]

@[simp] theorem State.tlDisable_pending (s : State) (t : Nat) : (s.tlDisable t).pending = s.pending := by simp [State.tlDisable]

@[simp] theorem State.whsCal_pending (s : State) (ch : Nat) (rx : Bool) : (s.whsCal ch rx).pending = s.pending := by
  unfold State.whsCal
  split <;> simp

/-! ### Machine/Tbu -/

@[simp] theorem State.incWrite_pending (s : State) (d : Dom) (v : Nat) : (s.incWrite d v).pending = s.pending := by
  simp [State.incWrite]

@[simp] theorem State.incCommit_pending (s : State) (d : Dom) : (s.incCommit d).pending = s.pending := by
  simp only [State.incCommit]
  repeat' split
  all_goals simp

@[simp] theorem State.stepGo_pending (s : State) (d : Dom) (isSet : Bool) : (s.stepGo d isSet).pending = s.pending := by
  simp [State.stepGo]

@[simp] theorem State.stepApply_pending (s : State) (d : Dom) : (s.stepApply d).pending = s.pending := by
  simp only [State.stepApply]
  repeat' split
  all_goals simp

@[simp] theorem State.setApply_pending (s : State) (d : Dom) : (s.setApply d).pending = s.pending := by
  simp only [State.setApply]
  repeat' split
  all_goals simp

@[simp] theorem State.domTick_pending (s : State) (d : Dom) : (s.domTick d).pending = s.pending := by simp [State.domTick]

@[simp] theorem State.slewShow_pending (s : State) : s.slewShow.pending = s.pending := by simp [State.slewShow]

@[simp] theorem State.switchGo_pending (s : State) (target : Dom) (force : Bool) (refTl : Nat) :
    (s.switchGo target force refTl).pending = s.pending := by
  simp [State.switchGo]

@[simp] theorem State.switchPoint_pending (s : State) : s.switchPoint.pending = s.pending := by
  unfold State.switchPoint
  split <;> simp

@[simp] theorem State.slew_pending (s : State) : s.slew.pending = s.pending := by simp [State.slew]

@[simp] theorem State.putTai_pending (s : State) (t : Tai) (hi lo ns frac : Fld) (j : Nat) :
    (s.putTai t hi lo ns frac j).pending = s.pending := by
  simp [State.putTai]

@[simp] theorem State.snapTake_pending (s : State) : s.snapTake.pending = s.pending := by
  rw [State.snapTake, State.setTbu_pending, State.putTai_pending, State.putTai_pending, State.putTai_pending]

@[simp] theorem State.loadTick_pending (s : State) (a b : Int) : (s.loadTick a b).pending = s.pending := by simp [State.loadTick]

@[simp] theorem State.tick_pending (s : State) : s.tick.pending = s.pending := by
  simp only [State.tick]
  repeat' split
  all_goals simp

@[simp] theorem State.ppsStamp_pending (s : State) (i sub : Nat) : (s.ppsStamp i sub).pending = s.pending := by
  simp [State.ppsStamp]

/-! ### Machine/Carriers -/

@[simp] theorem State.streamValid_pending (s : State) (k : Nat) (v : Bool) : (s.streamValid k v).pending = s.pending := rfl

@[simp] theorem State.upCar_pending (s : State) (h : Nat) (f : Carrier → Carrier) : (s.upCar h f).pending = s.pending := by
  unfold State.upCar
  split <;> simp

@[simp] theorem State.whsWriteArm_pending (s : State) (ch : Nat) (ws : List Nat) : (s.whsWriteArm ch ws).pending = s.pending := by
  simp [State.whsWriteArm]

@[simp] theorem State.carStart_pending (s : State) (h : Nat) : (s.carStart h).pending = s.pending := by
  unfold State.carStart
  split <;> simp

@[simp] theorem State.disarmOf_pending (s : State) (tls : List Nat) : (s.disarmOf tls).pending = s.pending := by
  simp [State.disarmOf]

@[simp] theorem State.cancelOf_pending (s : State) (tls : List Nat) : (s.cancelOf tls).pending = s.pending := by
  simp [State.cancelOf]

@[simp] theorem State.carStop_pending (s : State) (h : Nat) (why : Option ShedCause) : (s.carStop h why).pending = s.pending := by
  unfold State.carStop
  split <;> simp

@[simp] theorem State.setMismatch_pending (s : State) (tag : Nat) (on : Bool) : (s.setMismatch tag on).pending = s.pending := by
  simp [State.setMismatch]

@[simp] theorem State.carRemove_pending (s : State) (h : Nat) : (s.carRemove h).pending = s.pending := by
  unfold State.carRemove
  split <;> simp

@[simp] theorem State.newHandle_pending (s : State) : (s.newHandle).2.pending = s.pending := by simp [State.newHandle]

theorem State.carTimelines_pending (s : State) (d : CarrierDesc) : ∀ t, s.carTimelines d = .inr t → t.pending = s.pending := by
  unfold State.carTimelines
  refine List.foldlRecOn (motive := fun r : Nat ⊕ State => ∀ t, r = .inr t → t.pending = s.pending) _ _
    (by rintro _ ⟨⟩; simp) ?_
  intro r hr x hx t ht
  split at ht
  · cases ht
  next u =>
    dsimp only at ht
    split at ht <;> cases ht
    simpa using hr u rfl

@[simp] theorem State.carAdd_keepsQueue (s : State) (f i : Nat) (d : CarrierDesc) : KeepsQueue s (s.carAdd f i d) := by
  unfold State.carAdd
  split
  · trivial
  split
  · trivial
  split
  · trivial
  dsimp only
  split
  · trivial
  split
  · trivial
  next u hu => simpa using State.carTimelines_pending _ _ _ hu

@[simp] theorem State.configure_keepsQueue (s : State) (f : Nat) (remove : List Nat) (add : List CarrierDesc) :
    KeepsQueue s (s.configure f remove add) := by
  unfold State.configure
  split
  · trivial
  refine List.foldlRecOn (motive := KeepsQueue s) _ _ (by simp) ?_
  intro r hr x hx
  split
  · trivial
  next hs u =>
    have ha := u.carAdd_keepsQueue f x.2 x.1
    split
    · trivial
    next h v hv =>
      rw [hv, keepsQueue_inr] at ha
      rw [keepsQueue_inr] at hr ⊢
      exact ha.trans hr

theorem State.startCar_pending (s : State) (f h : Nat) (locked delay : Bool) :
    ∀ t, s.startCar f h locked delay = .inr t → t.pending = s.pending := by
  intro t ht
  unfold State.startCar at ht
  dsimp only at ht
  split at ht
  · cases ht
  repeat' split at ht
  all_goals cases ht
  simp

theorem State.stopCar_pending (s : State) (f h : Nat) : ∀ t, s.stopCar f h = .inr t → t.pending = s.pending := by
  unfold State.stopCar
  repeat' split
  all_goals simp

@[simp] theorem State.shedCar_pending (s : State) (h : Nat) (why : ShedCause) : (s.shedCar h why).pending = s.pending := by
  unfold State.shedCar
  split <;> simp

@[simp] theorem State.shedUntil_pending (ok : State → Bool) (why : ShedCause) (n : Nat) (s : State) :
    (State.shedUntil ok why n s).pending = s.pending := by
  induction n generalizing s with
  | zero => rfl
  | succ n ih =>
    unfold State.shedUntil
    split
    · rfl
    split
    · rw [ih, State.shedCar_pending]
    · rfl

@[simp] theorem State.shedPass_pending (s : State) (why : ShedCause) : (s.shedPass why).pending = s.pending := by
  simp [State.shedPass]

@[simp] theorem State.restoreCar_pending (s : State) (h : Nat) : (s.restoreCar h).pending = s.pending := by
  simp only [State.restoreCar]
  repeat' split
  all_goals simp

@[simp] theorem State.restoreOne_pending (s : State) : s.restoreOne.pending = s.pending := by
  unfold State.restoreOne
  split <;> simp

/-! ### Machine/Thermal -/

@[simp] theorem State.tempOf_pending (s : State) (k n : Nat) : (s.tempOf k n).2.pending = s.pending := by
  simp only [State.tempOf]
  repeat' split
  all_goals simp

@[simp] theorem State.warnSet_pending (s : State) (k : Nat) (t : Int) : (s.warnSet k t).pending = s.pending := by
  simp [State.warnSet]

@[simp] theorem State.throttleSet_pending (s : State) : s.throttleSet.pending = s.pending := by simp [State.throttleSet]

@[simp] theorem State.limitsClear_pending (s : State) : s.limitsClear.pending = s.pending := by simp [State.limitsClear]

@[simp] theorem State.limitsJudge_pending (s : State) (k : Nat) : (s.limitsJudge k).pending = s.pending := by
  simp [State.limitsJudge]

@[simp] theorem State.limitWrite_pending (s : State) (v : Nat) : (s.limitWrite v).pending = s.pending := by
  simp [State.limitWrite]

@[simp] theorem State.trip_pending (s : State) (k : Nat) : (s.trip k).pending = s.pending := by simp [State.trip]

@[simp] theorem State.failSensor_pending (s : State) (k : Nat) : (s.failSensor k).pending = s.pending := by
  simp [State.failSensor]

@[simp] theorem State.thmShow_pending (s : State) (k : Nat) (t : Int) : (s.thmShow k t).pending = s.pending := by
  unfold State.thmShow
  split <;> simp

@[simp] theorem State.sample_pending (s : State) (k n : Nat) : (s.sample k n).pending = s.pending := by simp [State.sample]

@[simp] theorem State.warnResponse_pending (s : State) : s.warnResponse.pending = s.pending := by
  unfold State.warnResponse
  split <;> simp

@[simp] theorem State.throttleResponse_pending (s : State) : s.throttleResponse.pending = s.pending := by
  simp [State.throttleResponse]

@[simp] theorem State.throttleShed_pending (s : State) : s.throttleShed.pending = s.pending := by
  simp only [State.throttleShed]
  repeat' split
  all_goals simp

@[simp] theorem State.throttleRestore_pending (s : State) : s.throttleRestore.pending = s.pending := by
  simp only [State.throttleRestore]
  repeat' split
  all_goals simp

@[simp] theorem State.setRule_pending (s : State) (i : Nat) (x : TndRule) : (s.setRule i x).pending = s.pending := rfl

@[simp] theorem State.filterStep_pending (s : State) (i : Nat) (x : Int) : (s.filterStep i x).2.pending = s.pending := by
  unfold State.filterStep
  dsimp only
  split
  · split <;> rfl
  split
  · rfl
  · split <;> rfl

@[simp] theorem State.ruleEvent_pending (s : State) (i : Nat) : (s.ruleEvent i).pending = s.pending := by simp [State.ruleEvent]

@[simp] theorem State.ruleWake_pending (s : State) (i : Nat) : (s.ruleWake i).pending = s.pending := by simp [State.ruleWake]

@[simp] theorem State.ruleAct_pending (s : State) (i : Nat) : (s.ruleAct i).pending = s.pending := by simp [State.ruleAct]

@[simp] theorem State.ruleSample_pending (s : State) (i : Nat) (measured : Int) :
    (s.ruleSample i measured).pending = s.pending := by
  unfold State.ruleSample
  extract_lets input
  split
  · rfl
  split
  · rfl
  next x hx =>
    extract_lets u rule v
    have hv : v.pending = s.pending := by
      unfold v
      split <;> rfl
    clear_value v
    rw [← hv, ← v.filterStep_pending i x]
    rcases v.filterStep i x with ⟨_ | y, w⟩
    · rfl
    · dsimp only
      split
      · split
        · rfl
        · rw [State.alertShow_pending, State.ruleAct_pending, State.set_pending, State.set_pending]
      · rw [State.alertShow_pending, State.clr_pending]
      · rfl

/-! ### Machine/Boot -/

@[simp] theorem State.bootState_pending (s : State) (n : Nat) : (s.bootState n).pending = s.pending := rfl

@[simp] theorem State.coldMem_pending (s : State) : s.coldMem.pending = s.pending := by simp [State.coldMem]

@[simp] theorem State.own_pending (s u : State) : (s.own u).pending = u.pending := rfl

@[simp] theorem State.bare_pending (s : State) : s.bare.pending = s.pending := rfl

@[simp] theorem State.coldReset_pending (s : State) : s.coldReset.pending = s.pending := by simp [State.coldReset]

@[simp] theorem State.warmReset_pending (s : State) (c : WarmCause) : (s.warmReset c).pending = s.pending := by
  unfold State.warmReset
  rw [State.set_pending, State.clr_pending, foldl_pending fun _ _ => State.put_pending ..]
  rfl

@[simp] theorem State.rom_pending (s : State) (pair0 : Bool) : (s.rom pair0).pending = s.pending := by simp [State.rom]

@[simp] theorem State.coldBoot_pending (s : State) (car keep : Nat) (pair0 : Bool) (board : BoardDesc) (search : Option (Fin 3)) :
    (s.coldBoot car keep pair0 board search).pending = s.pending := by
  simp only [State.coldBoot]
  repeat' split
  all_goals simp

@[simp] theorem State.burnTo_pending (s : State) (n : Nat) : (s.burnTo n).pending = s.pending := by simp [State.burnTo]

@[simp] theorem State.slotFail_pending (s : State) (slot cause : Nat) : (s.slotFail slot cause).pending = s.pending := rfl

@[simp] theorem State.bootMaps_pending (s : State) : s.bootMaps.pending = s.pending := by simp [State.bootMaps]

@[simp] theorem State.imageVerify_pending (s : State) (fault secver : Nat) :
    (s.imageVerify fault secver).pending = s.pending := by
  simp [State.imageVerify]

@[simp] theorem State.retireUnit_pending (s : State) (unit result : Nat) : (s.retireUnit unit result).pending = s.pending := by
  simp [State.retireUnit]

@[simp] theorem State.retireDomain_pending (s : State) (unit : Nat) : (s.retireDomain unit).pending = s.pending := by
  simp [State.retireDomain]

@[simp] theorem State.stackLoss_pending (s : State) (st : Nat) : (s.stackLoss st).pending = s.pending := by simp [State.stackLoss]

@[simp] theorem State.stackTrained_pending (s : State) (st : Nat) (noRes : List Nat) (left : Nat) :
    (s.stackTrained st noRes left).pending = s.pending := by
  simp [State.stackTrained]

@[simp] theorem State.hbmTrain_pending (s : State) (st : Nat) (ok : Bool) (noRes : List Nat) (left : Nat) :
    (s.hbmTrain st ok noRes left).pending = s.pending := by
  simp [State.hbmTrain]

@[simp] theorem State.netSettings_pending (s : State) (board : BoardDesc) (cable : CableTable) :
    (s.netSettings board cable).pending = s.pending := by
  rw [State.netSettings, foldl_pending]
  · simp
  intro s p
  split <;> rfl

@[simp] theorem State.cplSettings_pending (s : State) (cable : CableTable) (eq : List EqEntry) :
    (s.cplSettings cable eq).pending = s.pending := by
  rw [State.cplSettings, foldl_pending (by simp), foldl_pending]
  intro s p
  rw [sameQueue_iff, State.set_pending]
  split <;> rw [State.putAll_pending] <;> split <;> rfl

@[simp] theorem State.steolReady_pending (s : State) (board : BoardDesc) (cable : CableTable) (eq : List EqEntry) :
    (s.steolReady board cable eq).pending = s.pending := by
  simp [State.steolReady]

@[simp] theorem State.warmAsk_pending (s : State) (c : WarmCause) : (s.warmAsk c).pending = s.pending := rfl

@[simp] theorem State.warmRun_pending (s : State) (pair0 : Bool) : (s.warmRun pair0).pending = s.pending := by
  fun_cases State.warmRun s pair0 with
  | case1 | case2 => rfl
  | case3 => rw [State.slotFail_pending, State.rom_pending, State.warmReset_pending]
  | case4 => rw [State.rom_pending, State.warmReset_pending]

@[simp] theorem State.wdogExpire_pending (s : State) : s.wdogExpire.pending = s.pending := by simp [State.wdogExpire]

@[simp] theorem State.rstDomain_pending (s : State) (d : Nat) : (s.rstDomain d).pending = s.pending := by simp [State.rstDomain]

@[simp] theorem State.rcsGo_pending (s : State) : s.rcsGo.pending = s.pending := by simp [State.rcsGo]

@[simp] theorem State.rcsOpen_pending (s : State) (w : Nat) : (s.rcsOpen w).pending = s.pending := by simp [State.rcsOpen]

@[simp] theorem State.rcsDone_pending (s : State) (ok : Bool) : (s.rcsDone ok).pending = s.pending := by
  simp only [State.rcsDone]
  repeat' split
  all_goals simp

@[simp] theorem State.dbgLock_pending (s : State) : s.dbgLock.pending = s.pending := rfl

@[simp] theorem State.dbgReq_pending (s : State) (scope : Nat) : (s.dbgReq scope).pending = s.pending := by simp [State.dbgReq]

@[simp] theorem State.dbgGo_pending (s : State) (ok : Bool) : (s.dbgGo ok).pending = s.pending := by simp [State.dbgGo]

/-! ### Machine/Pins -/

@[simp] theorem State.enableRails_pending (s : State) (n : Nat) : (s.enableRails n).pending = s.pending := rfl

@[simp] theorem State.rcsCut_pending (s : State) : s.rcsCut.pending = s.pending := by
  unfold State.rcsCut
  split <;> simp

@[simp] theorem State.railsOff_pending (s : State) : s.railsOff.pending = s.pending := by simp [State.railsOff]

@[simp] theorem State.railUp_pending (s : State) (k : Nat) : (s.railUp k).pending = s.pending := by simp [State.railUp]

@[simp] theorem State.railLate_pending (s : State) : s.railLate.pending = s.pending := by simp [State.railLate]

@[simp] theorem State.powerFault_pending (s : State) (k : Nat) : (s.powerFault k).pending = s.pending := by
  simp [State.powerFault]

@[simp] theorem State.avsWrite_pending (s : State) (mv : Nat) (ack : Bool) : (s.avsWrite mv ack).pending = s.pending := by
  simp [State.avsWrite]

@[simp] theorem State.brownout_pending (s : State) : s.brownout.pending = s.pending := by simp [State.brownout]

@[simp] theorem State.aonOff_pending (s : State) : s.aonOff.pending = s.pending := by simp [State.aonOff]

@[simp] theorem State.tripOff_pending (s : State) : s.tripOff.pending = s.pending := by simp [State.tripOff]

@[simp] theorem State.restart_pending (s : State) (why : ColdCause) : (s.restart why).pending = s.pending := by
  simp [State.restart]

@[simp] theorem State.tripRestart_pending (s : State) : s.tripRestart.pending = s.pending := by simp [State.tripRestart]

@[simp] theorem State.resetLow_pending (s : State) : s.resetLow.pending = s.pending := by
  fun_cases State.resetLow s with
  | case1 => rfl
  | case2 => exact State.setPins_pending ..
  | case3 => rw [State.warmAsk_pending, State.setPins_pending]
  | case4 => rw [State.warmAsk_pending, State.warmReset_pending, State.setPins_pending]

@[simp] theorem State.resetHigh_pending (s : State) (pair0 : Bool) : (s.resetHigh pair0).pending = s.pending := by
  simp only [State.resetHigh]
  repeat' split
  all_goals simp

@[simp] theorem State.smbus_pending (s : State) (v : Nat) : (s.smbus v).pending = s.pending := by simp [State.smbus]

/-! ### Machine/Faults -/

theorem State.coreReplace_pending (s : State) (l : Nat) : ∀ t, s.coreReplace l = some t → t.pending = s.pending := by
  unfold State.coreReplace
  extract_lets c u map own
  have hu : u.pending = s.pending := by
    unfold u
    split <;> simp
  intro t h
  split at h
  · cases h
    rw [State.sclMapWrite_pending, hu]
  split at h <;> cases h
  rw [State.lendWrite_pending, State.sclMapWrite_pending, hu]

theorem State.engReplace_pending (s : State) (c k : Nat) : ∀ t, s.engReplace c k = some t → t.pending = s.pending := by
  intro t h
  obtain ⟨b, -, rfl⟩ := Option.map_eq_some_iff.1 h
  simp

theorem State.sliceReplace_pending (s : State) (e x : Nat) : ∀ t, s.sliceReplace e x = some t → t.pending = s.pending := by
  intro t h
  unfold State.sliceReplace at h
  dsimp only at h
  repeat' split at h
  all_goals cases h
  all_goals simp

theorem State.mxcReplace_pending (s : State) (c : Nat) : ∀ t, s.mxcReplace c = some t → t.pending = s.pending := by
  intro t h
  obtain ⟨b, -, rfl⟩ := Option.map_eq_some_iff.1 h
  simp

theorem State.replaceUnit_pending (s : State) (x : FaultUnit) :
    ∀ t, (s.replaceUnit x).2 = some (some t) → t.pending = s.pending := by
  intro t h
  unfold State.replaceUnit at h
  cases x with
  | exec e =>
    dsimp only at h
    split at h
    · cases h
    have h := Option.some.inj h
    split at h
    · exact State.coreReplace_pending _ _ _ h
    · exact State.engReplace_pending _ _ _ _ h
  | slice e x =>
    dsimp only at h
    split at h
    · cases h
    · exact State.sliceReplace_pending _ _ _ _ (Option.some.inj h)
  | mxc c => exact State.mxcReplace_pending _ _ _ (Option.some.inj h)

@[simp] theorem State.unitFault_pending (s : State) (x : FaultUnit) (pass : Bool) : (s.unitFault x pass).pending = s.pending := by
  unfold State.unitFault
  split
  · rfl
  have hr := s.replaceUnit_pending x
  generalize s.replaceUnit x = y at hr ⊢
  obtain ⟨u, r⟩ := y
  rcases r with _ | _ | t
  · simp
  · simp
  · simp [hr t rfl]

@[simp] theorem State.rotWrite_pending (s : State) (g : RotGroup) (u out : Nat) : (s.rotWrite g u out).pending = s.pending := by
  simp only [State.rotWrite]
  repeat' split
  all_goals simp

@[simp] theorem State.showTest_pending (s : State) (u : Nat) (on : Bool) : (s.showTest u on).pending = s.pending := by
  simp only [State.showTest]
  repeat' split
  all_goals simp

@[simp] theorem State.rotArrive_pending (s : State) (u : Nat) : (s.rotArrive u).pending = s.pending := by
  unfold State.rotArrive
  split <;> simp

@[simp] theorem State.rotStep_pending (s : State) (g : RotGroup) : (s.rotStep g).pending = s.pending := by
  simp only [State.rotStep]
  repeat' split
  all_goals simp

@[simp] theorem State.rotSwap_pending (s : State) (g : RotGroup) : (s.rotSwap g).pending = s.pending := by
  unfold State.rotSwap
  split <;> simp

@[simp] theorem State.testEnd_pending (s : State) (u : Nat) (pass : Bool) : (s.testEnd u pass).pending = s.pending := by
  simp [State.testEnd]

@[simp] theorem State.netLaneFault_pending (s : State) (n : Nat) (pass : Bool) : (s.netLaneFault n pass).pending = s.pending := by
  unfold State.netLaneFault
  split
  · rfl
  split
  · rfl
  extract_lets retired fb
  have h : retired.pending = s.pending := by rw [State.retireUnit_pending, State.count_pending]
  cases fb
  · rw [State.netState_pending, State.netDisable_pending, h]
  · dsimp only
    split
    · rw [State.netStart_pending, State.put_pending, State.count_pending, State.netSetMode_pending, h]
    · rw [State.netState_pending, State.netDisable_pending, h]

@[simp] theorem State.cplLaneFault_pending (s : State) (p l : Nat) (pass : Bool) :
    (s.cplLaneFault p l pass).pending = s.pending := by
  simp [State.cplLaneFault]

@[simp] theorem State.erqDrain_pending (s : State) : s.erqDrain.pending = s.pending := by
  unfold State.erqDrain
  rw [foldl_pending]
  intro s q
  rw [sameQueue_iff, repeatN_pending (by simp)]

@[simp] theorem State.failover_pending (s : State) : s.failover.pending = s.pending := by
  fun_cases State.failover s with
  | case1 => exact State.clr_pending ..
  | case2 old _ s₁ s₂ s₃ s₄ s₅ =>
    have h₃ : s₃.pending = s.pending := by rw [State.setDep_pending, State.count_pending, State.putAll_pending]
    have h₄ : s₄.pending = s₃.pending := foldl_pending (fun _ _ => by simp) _ _
    have h₅ : s₅.pending = s₄.pending := by
      simp only [s₅, State.ite_pending, State.event_pending, State.setHost_pending, State.clr_pending, ite_self]
    rw [State.event_pending, State.erqDrain_pending, h₅, h₄, h₃]

@[simp] theorem State.standby_pending (s : State) (pass : Bool) : (s.standby pass).pending = s.pending := by simp [State.standby]

@[simp] theorem State.degrade_pending (s : State) (d : Nat) : (s.degrade d).pending = s.pending := by simp [State.degrade]

/-! ### Machine/Mbx -/

@[simp] theorem State.setMbx_pending (s : State) (m : Nat) (x : Mbx) : (s.setMbx m x).pending = s.pending := rfl

@[simp] theorem State.itemBytes_pending (s : State) (i : ReplyItem) : (s.itemBytes i).2.pending = s.pending := by
  unfold State.itemBytes
  split <;> simp

@[simp] theorem State.itemsBytes_pending (s : State) (x0 : List ReplyItem) : (s.itemsBytes x0).2.pending = s.pending := by
  induction x0 generalizing s with
  | nil => rfl
  | cons x xs ih => simp [State.itemsBytes, ih]

@[simp] theorem State.makeReply_pending (s : State) (r : Req) (v : Nat × Nat) (e : Refuse) (items : List ReplyItem) :
    (s.makeReply r v e items).2.pending = s.pending := by
  simp [State.makeReply]

@[simp] theorem State.sendReply_pending (s : State) (m : Nat) (r : Req) (y : Reply) :
    (s.sendReply m r y).pending = s.pending := by
  simp only [State.sendReply]
  repeat' split
  all_goals simp

@[simp] theorem State.replyVersion_pending (s : State) (m : Nat) : (s.replyVersion m).2.pending = s.pending := by
  unfold State.replyVersion
  split <;> simp

@[simp] theorem State.replyWith_pending (s : State) (m : Nat) (r : Req) (e : Refuse) (items : List ReplyItem) :
    (s.replyWith m r e items).pending = s.pending := by
  simp [State.replyWith]

@[simp] theorem State.freeDetail_pending (s : State) (e : Refuse) : (s.freeDetail e).2.pending = s.pending := by
  simp only [State.freeDetail]
  repeat' split
  all_goals simp

@[simp] theorem State.refuse_pending (s : State) (m : Nat) (r : Req) (e : Refuse) : (s.refuse m r e).pending = s.pending := by
  simp [State.refuse]

@[simp] theorem State.replyOk_pending (s : State) (m : Nat) (r : Req) (items : List ReplyItem) :
    (s.replyOk m r items).pending = s.pending := by
  simp [State.replyOk]

@[simp] theorem State.serve_pending (s : State) (m op : Nat) {k : Nat → State → Refuse ⊕ (List ReplyItem × State)}
    (h : KeepsQueue s (k (s.mbxOwner m) s)) : (s.serve m op k).pending = s.pending := by
  unfold State.serve
  split
  · rfl
  split
  · simp
  next x => rw [State.replyOk_pending]; rwa [x, keepsQueue_inr] at h

@[simp] theorem State.serveAsync_pending (s : State) (m op : Nat) {k : Nat → State → Refuse ⊕ JobKind × State}
    (h : KeepsQueue s (k (s.mbxOwner m) s)) : (s.serveAsync m op k).pending = s.pending := by
  unfold State.serveAsync
  split
  · rfl
  split
  · simp
  next x => rw [State.replyWith_pending, State.setHost_pending]; rwa [x, keepsQueue_inr] at h

@[simp] theorem State.mbxDoorbell_pending (s : State) (f m seq : Nat) : (s.mbxDoorbell f m seq).pending = s.pending := by
  simp only [State.mbxDoorbell]
  repeat' split
  all_goals simp

@[simp] theorem State.takeRequest_pending (s : State) (tlv : TlvCheck) : (s.takeRequest tlv).pending = s.pending := by
  simp only [State.takeRequest]
  repeat' split
  all_goals simp

@[simp] theorem State.ringFreed_pending (s : State) (r n : Nat) : (s.ringFreed r n).pending = s.pending := by
  unfold State.ringFreed
  split
  · rfl
  rw [foldl_pending, State.setRing_pending]
  intro s i
  split <;> simp

@[simp] theorem State.ringDb_pending (s : State) (f r idx : Nat) : (s.ringDb f r idx).pending = s.pending := by
  simp only [State.ringDb]
  repeat' split
  all_goals simp

@[simp] theorem State.ringFetch_pending (s : State) (r : Nat) (item : List Nat) (payload : List Byte) :
    (s.ringFetch r item payload).pending = s.pending := by
  rw [← sameQueue_iff]
  fun_cases State.ringFetch s r item payload with
  | case1 | case2 | case3 | case5 => rfl
  | case4 x _ _ i next _ _ t u hu w v =>
    have ht := s.bufTake_pending x.stagePool
    rw [hu] at ht
    rw [sameQueue_iff, State.setRing_pending, State.store_pending, ht]

@[simp] theorem State.ringTimer_pending (s : State) (r : Nat) : (s.ringTimer r).pending = s.pending := by
  unfold State.ringTimer
  split <;> simp

@[simp] theorem State.mbxLose_pending (s : State) (m : Nat) : (s.mbxLose m).pending = s.pending := by simp [State.mbxLose]

@[simp] theorem State.ringDetach_pending (s : State) (r : Nat) : (s.ringDetach r).pending = s.pending := by
  simp only [State.ringDetach]
  repeat' split
  all_goals simp

@[simp] theorem State.flr_pending (s : State) (f : Nat) : (s.flr f).pending = s.pending := by simp [State.flr]

@[simp] theorem State.ringDestroy_pending (s : State) (r : Nat) : (s.ringDestroy r).pending = s.pending := by
  unfold State.ringDestroy
  split
  · rfl
  rw [State.putAll_pending, State.setHost_pending, foldl_pending]
  intro s i
  split <;> simp

@[simp] theorem State.claimLost_pending (s : State) (f : Nat) : (s.claimLost f).pending = s.pending := by simp [State.claimLost]

/-! ### Machine/Vsc -/

@[simp] theorem State.mxIssue_pending (s : State) (k : Nat) (o : VOp) : (s.mxIssue k o).pending = s.pending := by
  unfold State.mxIssue
  split <;> simp

@[simp] theorem State.control_pending (s : State) (k : Nat) (b : Bundle) : (s.control k b).pending = s.pending := by
  simp only [State.control]
  repeat' split
  all_goals simp

@[simp] theorem State.setIcache_pending (s : State) (k : Nat) (ls : List Nat) : (s.setIcache k ls).pending = s.pending := rfl

@[simp] theorem State.icacheAdd_pending (s : State) (k line : Nat) : (s.icacheAdd k line).pending = s.pending := by
  simp [State.icacheAdd]

@[simp] theorem State.raiseFlags_pending (s : State) (k fl : Nat) : (s.raiseFlags k fl).pending = s.pending := by
  simp [State.raiseFlags]

@[simp] theorem State.bundleOps_pending (s : State) (k : Nat) (c : VscCore) (b : Bundle) :
    (s.bundleOps k c b).pending = s.pending := by
  simp only [State.bundleOps]
  repeat' split
  all_goals simp

@[simp] theorem State.bundleIssue_pending (s : State) (k stall squashed : Nat) :
    (s.bundleIssue k stall squashed).pending = s.pending := by
  unfold State.bundleIssue
  split <;> simp

/-! ### Machine/Access -/

@[simp] theorem State.clearRead_pending (s : State) (r : Reg) (i j : Nat) : (s.clearRead r i j).pending = s.pending := by
  simp [State.clearRead]

@[simp] theorem State.regRead_pending (s : State) (r : Reg) (i j : Nat) (clear : Bool) :
    (s.regRead r i j clear).2.pending = s.pending := by
  simp only [State.regRead]
  repeat' split
  all_goals simp

@[simp] theorem State.vscBadCsr_pending (s : State) (v : Nat) : (s.vscBadCsr v).pending = s.pending := by simp [State.vscBadCsr]

@[simp] theorem State.csrRead_pending (s : State) (q : Requester) (a : Nat) : (s.csrRead q a).pending = s.pending := by
  simp only [State.csrRead]
  repeat' split
  all_goals simp

@[simp] theorem State.plainWrite_pending (s : State) (r : Reg) (i j : Nat) (v : Word) :
    (s.plainWrite r i j v).pending = s.pending := rfl

@[simp] theorem State.writeBut_pending (s : State) (r : Reg) (i j : Nat) (v : Word) (keep : List Fld) :
    (s.writeBut r i j v keep).pending = s.pending := rfl

@[simp] theorem State.cplPwrWrite_pending (s : State) (p d code : Nat) (f : Fld) :
    (s.cplPwrWrite p d code f).pending = s.pending := by
  simp [State.cplPwrWrite]

@[simp] theorem State.xoffDrive_pending (s : State) : s.xoffDrive.pending = s.pending := by simp [State.xoffDrive]

@[simp] theorem State.instCmd_pending (s : State) (v : Word) : (s.instCmd v).pending = s.pending := by simp [State.instCmd]

@[simp] theorem State.tplCmd_pending (s : State) (v : Word) : (s.tplCmd v).pending = s.pending := by
  simp only [State.tplCmd]
  repeat' split
  all_goals simp

@[simp] theorem State.tlCmd_pending (s : State) (v : Word) : (s.tlCmd v).pending = s.pending := by
  simp only [State.tlCmd]
  repeat' split
  all_goals simp

@[simp] theorem State.sqGo_pending (s : State) (v : Word) : (s.sqGo v).pending = s.pending := by
  simp only [State.sqGo]
  repeat' split
  all_goals simp

@[simp] theorem State.dbgCtrl_pending (s : State) (v : Word) : (s.dbgCtrl v).pending = s.pending := by simp [State.dbgCtrl]

@[simp] theorem State.laneCtrl_pending (s : State) (p l : Nat) (v : Word) : (s.laneCtrl p l v).pending = s.pending := by
  simp [State.laneCtrl]

@[simp] theorem State.portCtrl_pending (s : State) (p : Nat) (v : Word) : (s.portCtrl p v).pending = s.pending := by
  simp [State.portCtrl]

@[simp] theorem State.netPortCtrl_pending (s : State) (p : Nat) (v : Word) : (s.netPortCtrl p v).pending = s.pending := by
  simp [State.netPortCtrl]

@[simp] theorem State.engCtrl_pending (s : State) (q : Requester) (i : Nat) (v : Word) :
    (s.engCtrl q i v).pending = s.pending := by
  simp [State.engCtrl]

@[simp] theorem State.mxcCtrl_pending (s : State) (q : Requester) (c : Nat) (v : Word) :
    (s.mxcCtrl q c v).pending = s.pending := by
  simp [State.mxcCtrl]

@[simp] theorem State.pinCtrl_pending (s : State) (n : Nat) (v : Word) : (s.pinCtrl n v).pending = s.pending := by
  simp [State.pinCtrl]

@[simp] theorem State.sqPins_pending (s : State) (r : Reg) (v : Word) : (s.sqPins r v).pending = s.pending := by
  simp [State.sqPins]

@[simp] theorem State.switchWrite_pending (s : State) (v : Word) : (s.switchWrite v).pending = s.pending := by
  simp [State.switchWrite]

@[simp] theorem State.ruleWrite_pending (s : State) (r : Reg) (i : Nat) (v : Word) : (s.ruleWrite r i v).pending = s.pending := by
  simp [State.ruleWrite]

@[simp] theorem State.saCmd_pending (s : State) (p : Nat) (v : Word) : (s.saCmd p v).pending = s.pending := by simp [State.saCmd]

@[simp] theorem State.regWrite_pending (s : State) (q : Requester) (r : Reg) (i j : Nat) (v : Word) :
    (s.regWrite q r i j v).pending = s.pending := by
  unfold State.regWrite
  split <;> simp

@[simp] theorem State.csrWrite_pending (s : State) (q : Requester) (a : Nat) (v : Word) :
    (s.csrWrite q a v).pending = s.pending := by
  simp only [State.csrWrite]
  repeat' split
  all_goals simp

@[simp] theorem State.bar2Access_pending (s : State) (f off : Nat) (write : Option (List Byte)) :
    (s.bar2Access f off write).pending = s.pending := by
  simp only [State.bar2Access]
  repeat' split
  all_goals simp

/-! ### Machine/Session -/

@[simp] theorem State.owned_keepsQueue (s : State) (sel : Partition → List (Nat × Nat)) (f n : Nat)
    {k : Refuse ⊕ (List ReplyItem × State)}
    (h : KeepsQueue s k) : KeepsQueue s (s.owned sel f n k) := by
  unfold State.owned
  split
  · exact h
  · trivial

@[simp] theorem State.open__pending (s : State) (m lower upper base : Nat) :
    (s.open_ m lower upper base).pending = s.pending := by
  simp only [State.open_]
  repeat' split
  all_goals simp

@[simp] theorem State.close__pending (s : State) (m : Nat) : (s.close_ m).pending = s.pending := by
  unfold State.close_
  split <;> simp

@[simp] theorem State.partition_keepsQueue (s : State) (f : Nat) (p : Partition) : KeepsQueue s (s.partition f p) := by
  simp [State.partition]

@[simp] theorem State.configureIn_keepsQueue (s : State) (old : Bool) (f : Nat) (remove : List Nat) (add : List CarrierDesc) :
    KeepsQueue s (s.configureIn old f remove add) := by
  unfold State.configureIn
  split
  · trivial
  split
  · trivial
  next h => have := s.configure_keepsQueue f remove add; rwa [h] at this

@[simp] theorem State.claim_keepsQueue (s : State) (f : Nat) (hs rs : List Nat) : KeepsQueue s (s.claim f hs rs) := by
  unfold State.claim
  split <;> simp

@[simp] theorem State.kernelInstall_pending (s : State) (a : Nat) : (s.kernelInstall a).pending = s.pending := by
  simp [State.kernelInstall]

@[simp] theorem State.sclShowAll_pending (s : State) : s.sclShowAll.pending = s.pending := by simp [State.sclShowAll]

@[simp] theorem State.fwCommitted_pending (s : State) : s.fwCommitted.pending = s.pending := by simp [State.fwCommitted]

@[simp] theorem State.runJob_pending (s : State) (j : Job) (fits : Bool) : (s.runJob j fits).2.pending = s.pending := by
  simp only [State.runJob]
  repeat' split
  all_goals simp

@[simp] theorem State.jobOver_pending (s : State) (j : Job) (e : Refuse) : (s.jobOver j e).pending = s.pending := by
  unfold State.jobOver
  split <;> simp

@[simp] theorem State.jobFailed_pending (s : State) (j : Job) : (s.jobFailed j).pending = s.pending := by simp [State.jobFailed]

@[simp] theorem State.asyncEnd_pending (s : State) (m seq : Nat) (o : JobOutcome) : (s.asyncEnd m seq o).pending = s.pending := by
  unfold State.asyncEnd
  split <;> simp

/-! ### Machine/Service -/

@[simp] theorem State.serveKept_pending (s : State) (m op : Nat) {k : Nat → State → Refuse × List ReplyItem × State}
    (h : SameQueue s (k (s.mbxOwner m) s).2.2) : (s.serveKept m op k).pending = s.pending := by
  unfold State.serveKept
  split
  · rfl
  · simp [h.symm]

@[simp] theorem State.bindSource_pending (s : State) (d : Dom) (source : Nat) (ports : List Nat) (ptp : Nat) (synce : Option Nat)
    (up : Nat) : (s.bindSource d source ports ptp synce up).pending = s.pending := by
  unfold State.bindSource
  extract_lets k u v w
  have hv : SameQueue s v := by
    cases synce
    · exact (State.put_pending _ _ _ _ _).trans (State.putAll_pending _ _ _ _)
    · exact (State.putAll_pending _ _ _ _).trans (State.putAll_pending _ _ _ _)
  have hw : SameQueue s w := by
    refine (foldl_pending (fun s p => ?_) _ _).trans hv
    split
    · rfl
    · split <;> rfl
  clear_value w
  rw [State.ite_pending, State.putAll_pending, ite_self, hw]

@[simp] theorem State.timeStatus_pending (s : State) : (s.timeStatus).2.pending = s.pending := by simp [State.timeStatus]

@[simp] theorem State.brildoArm_pending (s : State) (f ch : Nat) (ws : List Nat) :
    (s.brildoArm f ch ws).2.2.pending = s.pending := by
  simp only [State.brildoArm]
  repeat' split
  all_goals simp

@[simp] theorem State.ringMake_pending (s : State) (f r : Nat) (p : RingParams) : (s.ringMake f r p).pending = s.pending := by
  simp [State.ringMake]

@[simp] theorem State.brildoQueue_pending (s : State) (f q : Nat) (op : QueueOp) :
    (s.brildoQueue f q op).2.2.pending = s.pending := by
  simp only [State.brildoQueue]
  repeat' split
  all_goals simp

@[simp] theorem State.steolRead_pending (s : State) (r : Reg) (i j : Nat) : (s.steolRead r i j).2.pending = s.pending := by
  simp [State.steolRead]

@[simp] theorem State.poolWrite_pending (s : State) (p : Nat) (ws : List Nat) : (s.poolWrite p ws).pending = s.pending := by
  simp [State.poolWrite]

@[simp] theorem State.bitTo_pending (s : State) (f : Fld) (n : Nat) (b : Bool) : (s.bitTo f n b).pending = s.pending := rfl

@[simp] theorem State.policy_keepsQueue (s : State) (d deepest dwell retain : Nat) (sources : List (Nat × Nat × List Nat)) :
    KeepsQueue s (s.policy d deepest dwell retain sources) := by
  simp [State.policy]

@[simp] theorem State.powerStates_pending (s : State) : (s.powerStates).2.pending = s.pending := by
  unfold State.powerStates
  generalize powerDomains = l
  refine foldl_snd_pending (fun x d => ?_) l _
  rw [sameQueue_iff, State.steolRead_pending, State.put_pending]

@[simp] theorem State.hibernate_pending (s : State) (m mask : Nat) : (s.hibernate m mask).pending = s.pending := by
  unfold State.hibernate
  split <;> simp

/-! ### Machine/Maint -/

@[simp] theorem State.askTest_pending (s : State) (m seq f t i : Nat) : (s.askTest m seq f t i).pending = s.pending := by
  simp [State.askTest]

@[simp] theorem State.selfTest_pending (s : State) (m t i : Nat) : (s.selfTest m t i).pending = s.pending := by
  unfold State.selfTest
  split <;> simp

@[simp] theorem State.laneTest_keepsQueue (s : State) (lane : TestLane) (loop pattern : Nat) :
    KeepsQueue s (s.laneTest lane loop pattern) := by
  cases lane <;> simp [State.laneTest]

@[simp] theorem State.outRing_keepsQueue (s : State) (f r : Nat) {k : Refuse ⊕ (List ReplyItem × State)} (h : KeepsQueue s k) :
    KeepsQueue s (s.outRing f r k) := by
  unfold State.outRing
  split
  · trivial
  · simp [h]

@[simp] theorem State.snapshotRead_pending (s : State) : (s.snapshotRead).2.pending = s.pending := by simp [State.snapshotRead]

@[simp] theorem State.recordJob_keepsQueue (s : State) (kind : Nat) (body : RecBody) : KeepsQueue s (s.recordJob kind body) := by
  cases body <;> simp [State.recordJob]

@[simp] theorem State.setFw_pending (s : State) (x : Fw) : (s.setFw x).pending = s.pending := rfl

@[simp] theorem State.swapPairs_pending (s : State) : s.swapPairs.pending = s.pending := by
  unfold State.swapPairs
  extract_lets _ _ s₁ s₂ s₃
  have h₂ : s₂.pending = s₁.pending := foldl_pending (fun _ _ => by simp) _ _
  have h₃ : s₃.pending = s.pending := by rw [State.event_pending, State.setFw_pending, h₂, State.putAll_pending]
  split
  · rw [State.jobOver_pending, h₃]
  · exact h₃

@[simp] theorem State.clearFirst_pending (s : State) (x0 : FirstClass) : (s.clearFirst x0).pending = s.pending := by
  unfold State.clearFirst
  split <;> simp

@[simp] theorem State.fapiSend_pending (s : State) (f msgId carrier : Nat) (e : Refuse) (handles : List Nat) :
    (s.fapiSend f msgId carrier e handles).pending = s.pending := by
  unfold State.fapiSend
  split
  · rfl
  split
  · rfl
  split
  · rfl
  dsimp only
  rw [State.send_pending, State.messagePut_pending]
  split <;> rfl

@[simp] theorem State.fapi_pending (s : State) (r msgId : Nat)
    {k : Nat → Nat → State → Refuse × Option Nat × List Nat × State}
    (h : ∀ f c, SameQueue s (k f c s).2.2.2) : (s.fapi r msgId k).pending = s.pending := by
  unfold State.fapi
  split
  · dsimp only
    rw [State.ringConsume_pending, State.ringTake_pending]
    split
    · rw [State.fapiSend_pending, h]
    · rw [h]
  · rfl

/-! ### The commands -/

/-- A command answers a next state with the queue it found: most arms are one operation of the state; the arms named here branch first. -/
theorem exec_pending (i : Instr) (s : State) : ∃ t, exec i s = .next t ∧ t.pending = s.pending := by
  cases i
  case timingPllLock =>
    refine ⟨_, rfl, ?_⟩
    split
    · rfl
    · dsimp only
      split <;> rfl
  case ppsInEdge | releaseBufferEntryFree =>
    refine ⟨_, rfl, ?_⟩
    split
    · rfl
    · split <;> simp
  case bmvBurstComplete =>
    refine ⟨_, rfl, ?_⟩
    split
    · rfl
    · split
      · simp
      · split <;> simp
  case outputShort output =>
    refine ⟨_, rfl, ?_⟩
    cases output with
    | whsOut n => dsimp only; split <;> simp
    | ppsOut | clk10m | xoffOut => simp
  case ppsInTimeout input level =>
    refine ⟨_, rfl, ?_⟩
    cases level <;> simp
  case memoryRead | fullWordWrite | partialWrite | tokenArrival | mxcLockGrant | mxcOpExecute | mxcFault | vscHardwareFault
      | engineHardwareFault | bmvBusError | bmvPoisonResponse | creditReport | polaritySearch | sampleSend =>
    refine ⟨_, rfl, ?_⟩
    split <;> simp
  case streamItemTake src sameCycle =>
    refine ⟨_, rfl, ?_⟩
    cases src <;> simp
  case icacheFill =>
    refine ⟨_, rfl, ?_⟩
    split
    · rfl
    · split <;> simp
  case eventRing | getCarrier | ringDestroy | setPrecedence | readRecord =>
    refine ⟨_, rfl, State.serve_pending _ _ _ ?_⟩
    split <;> simp
  case startCarrier m handle locked delay =>
    refine ⟨_, rfl, State.serve_pending _ _ _ ?_⟩
    split
    · trivial
    next t h => exact State.startCar_pending _ _ _ _ _ _ h
  case stopCarrier m handle =>
    refine ⟨_, rfl, State.serve_pending _ _ _ ?_⟩
    split
    · trivial
    next t h => exact State.stopCar_pending _ _ _ _ h
  case templateOp m template op =>
    refine ⟨_, rfl, State.serve_pending _ _ _ (State.owned_keepsQueue _ _ _ _ ?_)⟩
    cases op <;> simp
  case configRequest ring remove add =>
    refine ⟨_, rfl, State.fapi_pending _ _ _ fun f c => ?_⟩
    have h := s.configure_keepsQueue f remove add
    split
    · rfl
    next hs => rwa [hs, keepsQueue_inr] at h
  case startRequest ring locked delay =>
    refine ⟨_, rfl, State.fapi_pending _ _ _ fun f c => ?_⟩
    split
    · rfl
    next t h => exact State.startCar_pending _ _ _ _ _ _ h
  case stopRequest ring =>
    refine ⟨_, rfl, State.fapi_pending _ _ _ fun f c => ?_⟩
    split
    · rfl
    next t h => exact State.stopCar_pending _ _ _ _ h
  case refclkFreqCheck =>
    refine ⟨_, rfl, ?_⟩
    rw [State.ite_pending, State.setTbu_pending, State.putAll_pending, State.put_pending, ite_self]
  case instCmdCancel =>
    refine ⟨_, rfl, ?_⟩
    rw [State.gdxSettle_pending, State.cancel_pending, State.gdxCycle_pending, State.putAll_pending]
  case tokenAckSend =>
    refine ⟨_, rfl, ?_⟩
    dsimp only
    rw [State.ite_pending, State.cplSend_pending, State.setCpl_pending, ite_self]
  case bmvBurstIssue =>
    refine ⟨_, rfl, ?_⟩
    extract_lets _ _ _ u _
    have hu : u.pending = s.pending := State.setBch_pending ..
    clear_value u
    rw [State.ite_pending, State.ite_pending, State.ite_pending, State.ite_pending, State.count_pending, State.count_pending,
      State.set_pending, State.bmvParity_pending, State.clr_pending, State.bmvIssue_pending, State.rawMove_pending, hu]
    simp only [ite_self]
  all_goals exact ⟨_, rfl, by simp⟩

/-- Settles O2: `exec_pending`, the case split on the command, over the operations' lemmas above. -/
theorem noCommandIsDroppedOrInvented : Obligations.NoCommandIsDroppedOrInvented :=
  fun i s => exec_pending i s

end Sys2Proof.Machine
end

