-- ==== Sys2Proof/Proofs/Fields.lean ====
section
/-!
SUPPORT. Sys2Proof/Proofs/Fields.lean: the fields of a register: what a write by the access codes and a clearing read make of each of them (R10, R562).
-/
namespace Sys2Proof.Machine

/-! ### Fields of one word -/

/-- Two fields of a register share no bit. -/
abbrev FieldDef.Apart (f g : FieldDef) : Prop := f.lo + f.len ≤ g.lo ∨ g.lo + g.len ≤ f.lo

theorem FieldDef.Apart.symm {f g : FieldDef} (h : f.Apart g) : g.Apart f := Or.symm h

/-- A field's value depends on the field's bits alone. -/
theorem fieldGet_congr {a b : Word} {lo len : Nat} (h : ∀ i < len, a.getLsbD (lo + i) = b.getLsbD (lo + i)) :
    fieldGet a lo len = fieldGet b lo len := by
  apply Nat.eq_of_testBit_eq
  intro i
  rw [fieldGet_bit, fieldGet_bit]
  by_cases hi : i < len
  · rw [h i hi]
  · simp [hi]

theorem fieldGet_lt (w : Word) (lo len : Nat) : fieldGet w lo len < 2 ^ len := Nat.mod_lt _ (Nat.two_pow_pos len)

theorem fieldMask_bit_self (lo len i : Nat) (h : lo + len ≤ 32) (hi : i < len) : (fieldMask lo len).getLsbD (lo + i) = true := by
  rw [fieldMask_bit _ _ _ (by omega)]
  simp [hi]

theorem fieldMask_bit_apart {f g : FieldDef} (h : f.Apart g) (hg : g.lo + g.len ≤ 32) (i : Nat) (hi : i < g.len) :
    (fieldMask f.lo f.len).getLsbD (g.lo + i) = false := by
  rw [fieldMask_bit _ _ _ (by omega)]
  rcases h with h | h
  · simp; omega
  · simp; omega

/-- A write of one field leaves the fields apart from it. -/
theorem fieldGet_writeField_apart {f g : FieldDef} (h : f.Apart g) (hg : g.lo + g.len ≤ 32) (a v : Word) :
    fieldGet (writeField a v f) g.lo g.len = fieldGet a g.lo g.len := by
  unfold writeField
  split
  case h_1 | h_2 => exact fieldGet_fieldPut_ne _ _ _ _ _ _ hg h
  case h_3 | h_4 =>
    refine fieldGet_congr fun i hi => ?_
    have hb : g.lo + i < 32 := by omega
    simp only [BitVec.getLsbD_and, BitVec.getLsbD_or, BitVec.getLsbD_not, fieldMask_bit_apart h hg i hi, hb, decide_true, Bool.and_false,
      Bool.not_false, Bool.and_true, Bool.or_false]
  case h_5 | h_6 => rfl

/-- Clearing a read-clear field leaves the fields apart from it. -/
theorem fieldGet_clear_apart {f g : FieldDef} (h : f.Apart g) (hg : g.lo + g.len ≤ 32) (a : Word) :
    fieldGet (if f.acc = .RC then a &&& ~~~(fieldMask f.lo f.len) else a) g.lo g.len = fieldGet a g.lo g.len := by
  split
  · refine fieldGet_congr fun i hi => ?_
    have hb : g.lo + i < 32 := by omega
    simp only [BitVec.getLsbD_and, BitVec.getLsbD_not, fieldMask_bit_apart h hg i hi, hb, decide_true, Bool.not_false, Bool.and_true]
  · rfl

/-- Steps that each touch one field leave a field apart from all of theirs. -/
theorem fieldGet_foldl_apart {step : Word → FieldDef → Word} {g : FieldDef}
    (keep : ∀ f a, f.Apart g → fieldGet (step a f) g.lo g.len = fieldGet a g.lo g.len) {fs : List FieldDef} (h : ∀ f ∈ fs, f.Apart g)
    (w : Word) : fieldGet (fs.foldl step w) g.lo g.len = fieldGet w g.lo g.len := by
  induction fs generalizing w with
  | nil => rfl
  | cons f fs ih =>
    rw [List.foldl_cons, ih (fun x hx => h x (List.mem_cons_of_mem _ hx)), keep f w (h f List.mem_cons_self)]

/-- Among steps that each touch one of the fields of a register, a field is set by its own step, from its own value. -/
theorem fieldGet_foldl_mem {step : Word → FieldDef → Word} {g : FieldDef}
    (keep : ∀ f a, f.Apart g → fieldGet (step a f) g.lo g.len = fieldGet a g.lo g.len) {fs : List FieldDef}
    (hp : fs.Pairwise FieldDef.Apart) (hm : g ∈ fs) (w : Word) :
    ∃ a, fieldGet (fs.foldl step w) g.lo g.len = fieldGet (step a g) g.lo g.len ∧ fieldGet a g.lo g.len = fieldGet w g.lo g.len := by
  induction fs generalizing w with
  | nil => cases hm
  | cons f fs ih =>
    obtain ⟨hf, hp⟩ := List.pairwise_cons.1 hp
    rcases List.mem_cons.1 hm with rfl | hm
    · exact ⟨w, fieldGet_foldl_apart keep (fun x hx => (hf x hx).symm) _, rfl⟩
    · obtain ⟨a, h, ha⟩ := ih hp hm (step w f)
      exact ⟨a, h, ha.trans (keep f w (hf g hm))⟩

/-! ### The fields of the registers (R10) -/

theorem Reg.fields_inWord : ∀ r ∈ Reg.all, ∀ f ∈ r.fields, f.lo + f.len ≤ 32 := by decide +kernel

theorem Reg.fields_apart : ∀ r ∈ Reg.all, r.fields.Pairwise FieldDef.Apart := by decide +kernel

section
variable {r : Reg} {f : FieldDef} (hr : r ∈ Reg.all) (hf : f ∈ r.fields) (w v : Word)
include hr hf

/-- A write of a register gives each field what its access code makes of the field's own bits. -/
theorem fieldGet_writeFields :
    ∃ a, fieldGet (writeFields w v r.fields) f.lo f.len = fieldGet (writeField a v f) f.lo f.len ∧
      fieldGet a f.lo f.len = fieldGet w f.lo f.len :=
  fieldGet_foldl_mem (fun _ a h => fieldGet_writeField_apart h (Reg.fields_inWord r hr f hf) a v) (Reg.fields_apart r hr) hf w

theorem fieldGet_writeFields_RW (h : f.acc = .RW) : fieldGet (writeFields w v r.fields) f.lo f.len = fieldGet v f.lo f.len := by
  obtain ⟨a, e, -⟩ := fieldGet_writeFields hr hf w v
  rw [e]
  simp only [writeField, h]
  rw [fieldGet_fieldPut _ _ _ _ (Reg.fields_inWord r hr f hf), Nat.mod_eq_of_lt (fieldGet_lt ..)]

theorem fieldGet_writeFields_RO_RC (h : f.acc = .RO ∨ f.acc = .RC) :
    fieldGet (writeFields w v r.fields) f.lo f.len = fieldGet w f.lo f.len := by
  obtain ⟨a, e, ha⟩ := fieldGet_writeFields hr hf w v
  rw [e, ← ha]
  rcases h with h | h
  · simp only [writeField, h]
  · simp only [writeField, h]

theorem fieldGet_writeFields_W1C (h : f.acc = .W1C) :
    fieldGet (writeFields w v r.fields) f.lo f.len = fieldGet (w &&& ~~~v) f.lo f.len := by
  obtain ⟨a, e, ha⟩ := fieldGet_writeFields hr hf w v
  have hw := Reg.fields_inWord r hr f hf
  rw [e]
  simp only [writeField, h]
  refine fieldGet_congr fun i hi => ?_
  have ha : a.getLsbD (f.lo + i) = w.getLsbD (f.lo + i) := by
    have := congrArg (Nat.testBit · i) ha
    simpa [fieldGet_bit, hi] using this
  simp [fieldMask_bit_self _ _ _ hw hi, ha]

/-- A clearing read zeroes the RC fields and leaves the others. -/
theorem fieldGet_clearRC :
    fieldGet (clearRC w r.fields) f.lo f.len = if f.acc = .RC then 0 else fieldGet w f.lo f.len := by
  have hw := Reg.fields_inWord r hr f hf
  obtain ⟨a, e, ha⟩ := fieldGet_foldl_mem (fun _ a h => fieldGet_clear_apart h hw a) (Reg.fields_apart r hr) hf w
  rw [clearRC, e]
  split
  · apply Nat.eq_of_testBit_eq
    intro i
    rw [fieldGet_bit, Nat.zero_testBit]
    by_cases hi : i < f.len
    · simp [fieldMask_bit_self _ _ _ hw hi]
    · simp [hi]
  · exact ha

end

end Sys2Proof.Machine
end

