-- ==== Sys2Proof/Proofs/Access.lean ====
section
/-!
SUPPORT. Sys2Proof/Proofs/Access.lean: register accesses: where an address falls, what a requester reaches, and what a plain write and a plain read do
(R551 to R558, R562).
-/
namespace Sys2Proof.Machine

/-! ### The address map -/

theorem regAt_mem {b : Block} {off : Nat} {r : Reg} {j : Nat} (h : regAt b off = some (r, j)) : r ∈ Reg.all := by
  obtain ⟨x, hx, e⟩ := List.exists_of_findSome?_eq_some h
  obtain ⟨_, -, e⟩ := Option.map_eq_some_iff.1 e
  cases e
  exact (List.mem_filter.1 hx).1

theorem State.Reaches.mem_all {s : State} {q : Requester} {a : Nat} {w : Bool} {r : Reg} {i j : Nat} (h : s.Reaches q a w r i j) :
    r ∈ Reg.all := by
  obtain ⟨b, off, -, -, -, -, -, -, hr, -⟩ := h
  exact regAt_mem hr

theorem State.Reaches.near {s : State} {q : Requester} {a : Nat} {w : Bool} {r : Reg} {i j : Nat} (h : s.Reaches q a w r i j) :
    a < 0x10000000 := by
  obtain ⟨b, off, ha, -⟩ := h
  exact ha

section
variable {s : State} {q : Requester} {a : Nat} (hq : ∀ k, q ≠ .vsc k)
include hq

/-- No word of a page: a write is a bus error (R551). -/
theorem State.csrWrite_outside (v : Word) (h : a % 4 ≠ 0 ∨ csrAt a = none) : s.csrWrite q a v = s.send .busError := by
  unfold State.csrWrite
  split
  · exact absurd rfl (hq _)
  · simp_all
  · rfl

/-- No word of a page: a read is a bus error, or Unsupported Request by the CSR window (R406, R551). -/
theorem State.csrRead_outside (h : a % 4 ≠ 0 ∨ csrAt a = none) :
    s.csrRead q a = s.send (if q = .hostPF true then .unsupported else .busError) := by
  unfold State.csrRead
  split
  · exact absurd rfl (hq _)
  · simp_all
  · rfl
  · simp_all

variable {b : Block} {i off : Nat} (ha : a % 4 = 0) (hc : csrAt a = some (b, i, off)) (hm : b = .MBX → s.mbxMem q off = none)
include ha hc hm

/-- A write in a page falls on a register that the requester reaches, or on nothing (R553 to R557). -/
theorem State.csrWrite_page (v : Word) :
    s.csrWrite q a v = (regAt b off).elim s (fun x =>
      if ¬ s.mayReach q x.1 x.2 true ∨ ¬ s.pageOn b i ∨ ¬ s.meaningful x.1 i then s
      else if b = .BMV then s.bmvWrite q i off v else s.regWrite q x.1 i x.2 v) := by
  have hm : (if b = .MBX then s.mbxMem q off else none) = none := by simpa using hm
  unfold State.csrWrite
  split
  · exact absurd rfl (hq _)
  next x h _ =>
    cases hc.symm.trans h
    rw [hm]
    cases regAt b off <;> rfl
  next h => simp_all

/-- A read in a page falls on a register that the requester reaches, or answers 0 (R553 to R557). -/
theorem State.csrRead_page :
    s.csrRead q a = (regAt b off).elim (s.send (.readData 0)) (fun x =>
      if ¬ s.mayReach q x.1 x.2 false ∨ ¬ s.pageOn b i ∨ ¬ s.meaningful x.1 i ∨
          (reqBar0 q ∧ s.domState 255 = 4 ∧ (s.mbxRegOwner x.1 x.2).isSome) then s.send (.readData 0)
      else (s.regRead x.1 i x.2 (q = .steward)).2.send (.readData (s.regRead x.1 i x.2 (q = .steward)).1)) := by
  have hm : (if b = .MBX then s.mbxMem q off else none) = none := by simpa using hm
  unfold State.csrRead
  split
  · exact absurd rfl (hq _)
  next x h _ =>
    cases hc.symm.trans h
    rw [hm]
    cases regAt b off <;> rfl
  next h => simp_all
  next h => simp_all

end

/-! ### Registers that the requester reaches -/

theorem State.csrWrite_of_reaches {s : State} {q : Requester} {a : Nat} {r : Reg} {i j : Nat} (h : s.Reaches q a true r i j) (v : Word) :
    s.csrWrite q a v = s.regWrite q r i j v := by
  obtain ⟨b, off, -, ha, hc, hq, hb, hm, hr, h1, h2, h3⟩ := h
  rw [State.csrWrite_page hq ha hc hm, hr]
  simp [h1, h2, h3, hb]

theorem State.csrRead_of_reaches {s : State} {q : Requester} {a : Nat} {r : Reg} {i j : Nat} (h : s.Reaches q a false r i j)
    (hd : s.domState 255 ≠ 4) :
    s.csrRead q a = (s.regRead r i j (q = .steward)).2.send (.readData (s.regRead r i j (q = .steward)).1) := by
  obtain ⟨b, off, -, ha, hc, hq, -, hm, hr, h1, h2, h3⟩ := h
  rw [State.csrRead_page hq ha hc hm, hr]
  simp [h1, h2, h3, hd]

/-- A register with no action of its own stores by its access codes. -/
theorem State.regWrite_of_not_acting {r : Reg} (h : r ∉ actingRegs) (s : State) (q : Requester) (i j : Nat) (v : Word) :
    s.regWrite q r i j v = s.plainWrite r i j v := by
  unfold State.regWrite
  split
  case h_47 => rfl
  all_goals exact absurd (by decide) h

/-- A register whose read acts no further answers its fields, and a clearing read clears its RC fields. -/
theorem State.regRead_of_not_reading {r : Reg} (h : r ∉ readingRegs) {s : State} (hs : s.gdx.snap = none) (i j : Nat) (clear : Bool) :
    s.regRead r i j clear = (readFields (s.view r i j) r.fields,
      if clear && r.fields.any (fun f => f.acc = .RC) then s.clearRead r i j else s) := by
  have hn : r.snapshot = false := by
    rw [Reg.snapshot, decide_eq_false_iff_not]
    exact fun hm => h (List.IsPrefix.mem hm ⟨_, rfl⟩)
  unfold State.regRead
  simp only [hn, Bool.false_and, Bool.false_eq_true, if_false, hs, Option.bind_none]
  split
  case h_4 => rfl
  all_goals exact absurd (by decide) h

theorem State.clearRead_eq {r : Reg} (h : r ∉ readingRegs) (s : State) (i j : Nat) :
    s.clearRead r i j = s.wr ⟨r, i, s.viewIdx r i j⟩ (clearRC (s.rd ⟨r, i, s.viewIdx r i j⟩) r.fields) :=
  if_neg fun e => h (by rw [e]; decide)

theorem exec_registerWrite_far {a : Nat} (h : 0x10000000 ≤ a) (q : Requester) (v : Word) (s : State) :
    exec (.registerWrite q a v) s = .next (s.send .busError) := congrArg _ (if_pos h)

theorem exec_registerWrite_near {a : Nat} (h : a < 0x10000000) (q : Requester) (v : Word) (s : State) :
    exec (.registerWrite q a v) s = .next (s.csrWrite q a v) := congrArg _ (if_neg (Nat.not_le.2 h))

theorem exec_counterReadClear_far {a : Nat} (h : 0x10000000 ≤ a) (q : Requester) (s : State) :
    exec (.counterReadClear q a) s = .next (s.send .busError) := congrArg _ (if_pos h)

theorem exec_counterReadClear_near {a : Nat} (h : a < 0x10000000) (q : Requester) (s : State) :
    exec (.counterReadClear q a) s = .next (s.csrRead q a) := congrArg _ (if_neg (Nat.not_le.2 h))

theorem exec_registerWrite_plain {s : State} {q : Requester} {a : Nat} {r : Reg} {i j : Nat} (h : s.Reaches q a true r i j)
    (hr : r ∉ actingRegs) (v : Word) :
    exec (.registerWrite q a v) s =
      .next (s.wr ⟨r, i, s.viewIdx r i j⟩ (storedWord r (s.rd ⟨r, i, s.viewIdx r i j⟩) v)) := by
  rw [exec_registerWrite_near h.near, State.csrWrite_of_reaches h, State.regWrite_of_not_acting hr]
  rfl

/-- A reserved code and a 0 that stores 1 are the only departures from the access codes (R558). -/
theorem storedWord_eq_writeFields {r : Reg} (h₁ : r.reservedCodes = []) (h₂ : r.zeroIsOne = []) (w v : Word) :
    storedWord r w v = writeFields w v r.fields := by
  rw [storedWord, h₁, h₂]
  rfl

theorem State.regRead_value {r : Reg} (h : r ∉ readingRegs) {s : State} (hs : s.gdx.snap = none) (i j : Nat) (clear : Bool) :
    (s.regRead r i j clear).1 = readFields (s.view r i j) r.fields := by
  rw [State.regRead_of_not_reading h hs]

theorem clearRC_of_noRC {fs : List FieldDef} (h : ∀ f ∈ fs, f.acc ≠ .RC) (w : Word) : clearRC w fs = w := by
  induction fs generalizing w with
  | nil => rfl
  | cons f fs ih =>
    rw [clearRC, List.foldl_cons, if_neg (h f List.mem_cons_self)]
    exact ih (fun x hx => h x (List.mem_cons_of_mem _ hx)) w

/-- A read for a Steward, register by register: the RC fields of the register are cleared, and nothing else changes (R562). -/
theorem State.regRead_clear_rd {r : Reg} (h : r ∉ readingRegs) {s : State} (hs : s.gdx.snap = none) (i j : Nat) (k : RegKey) :
    (s.regRead r i j true).2.rd k = if k = ⟨r, i, s.viewIdx r i j⟩ then clearRC (s.rd k) r.fields else s.rd k := by
  rw [State.regRead_of_not_reading h hs, Bool.true_and]
  cases hc : r.fields.any (fun f => f.acc = .RC) with
  | true =>
    rw [if_pos rfl, State.clearRead_eq h, State.rd_wr]
    split
    next e => rw [e]
    · rfl
  | false =>
    rw [clearRC_of_noRC (by simpa using hc)]
    simp

theorem State.regRead_clear_frame {r : Reg} (h : r ∉ readingRegs) {s : State} (hs : s.gdx.snap = none) (i j : Nat) :
    (s.regRead r i j true).2.out = s.out ∧ (s.regRead r i j true).2.mem = s.mem := by
  rw [State.regRead_of_not_reading h hs, State.clearRead_eq h]
  dsimp only
  split
  · exact ⟨rfl, rfl⟩
  · exact ⟨rfl, rfl⟩

/-! ### Accesses of the registers: the clauses of O57 -/

/-- A write stores by the access codes, in the register that it names alone. -/
theorem registerWrite_stores {s : State} {q : Requester} {a : Nat} {r : Reg} {i j : Nat} (h : s.Reaches q a true r i j)
    (hr : r ∉ actingRegs) (v : Word) :
    Completes (.registerWrite q a v) s (fun t => OnlyRegs s t ∧ (∀ k', k' ≠ ⟨r, i, s.viewIdx r i j⟩ → t.rd k' = s.rd k') ∧
      (r.reservedCodes = [] → r.zeroIsOne = [] → ∀ f ∈ r.fields,
        (f.acc = .RW → fieldGet (t.rd ⟨r, i, s.viewIdx r i j⟩) f.lo f.len = fieldGet v f.lo f.len) ∧
        (f.acc = .RO ∨ f.acc = .RC →
          fieldGet (t.rd ⟨r, i, s.viewIdx r i j⟩) f.lo f.len = fieldGet (s.rd ⟨r, i, s.viewIdx r i j⟩) f.lo f.len) ∧
        (f.acc = .W1C →
          fieldGet (t.rd ⟨r, i, s.viewIdx r i j⟩) f.lo f.len = fieldGet (s.rd ⟨r, i, s.viewIdx r i j⟩ &&& ~~~v) f.lo f.len))) := by
  refine ⟨_, exec_registerWrite_plain h hr v, rfl, fun k' hk => State.rd_wr_ne s hk _, fun h₁ h₂ f hf => ?_⟩
  rw [State.rd_wr_self, storedWord_eq_writeFields h₁ h₂]
  exact ⟨fieldGet_writeFields_RW h.mem_all hf _ v, fieldGet_writeFields_RO_RC h.mem_all hf _ v,
    fieldGet_writeFields_W1C h.mem_all hf _ v⟩

section
variable {s : State} {q : Requester} {a : Nat} {r : Reg} {i j : Nat} (h : s.Reaches q a false r i j) (hr : r ∉ readingRegs)
  (hs : s.gdx.snap = none) (hd : s.domState 255 ≠ 4)
include h hr hs hd

theorem exec_counterReadClear_of_reaches :
    exec (.counterReadClear q a) s =
      .next ((s.regRead r i j (q = .steward)).2.send (.readData (readFields (s.view r i j) r.fields))) := by
  rw [exec_counterReadClear_near h.near, State.csrRead_of_reaches h hd, State.regRead_value hr hs]

/-- A read by another requester than a Steward answers the fields and changes nothing. -/
theorem counterReadClear_reads (hq : q ≠ .steward) :
    exec (.counterReadClear q a) s = .next (s.send (.readData (readFields (s.view r i j) r.fields))) := by
  rw [exec_counterReadClear_of_reaches h hr hs hd, State.regRead_of_not_reading hr hs]
  simp [hq]

/-- A read by a Steward answers the fields and clears the RC fields. -/
theorem counterReadClear_clears (hq : q = .steward) :
    Completes (.counterReadClear q a) s (fun t => t.out = s.out ++ [.readData (readFields (s.view r i j) r.fields)] ∧ t.mem = s.mem ∧
      (∀ k', k' ≠ ⟨r, i, s.viewIdx r i j⟩ → t.rd k' = s.rd k') ∧
      (∀ f ∈ r.fields, fieldGet (t.rd ⟨r, i, s.viewIdx r i j⟩) f.lo f.len =
        (if f.acc = .RC then 0 else fieldGet (s.rd ⟨r, i, s.viewIdx r i j⟩) f.lo f.len))) := by
  have e := exec_counterReadClear_of_reaches h hr hs hd
  rw [decide_eq_true hq] at e
  obtain ⟨ho, hm⟩ := State.regRead_clear_frame hr hs i j
  refine ⟨_, e, ?_, hm, fun k' hk => ?_, fun f hf => ?_⟩
  · rw [State.send_out, ho]
  · rw [State.send_rd, State.regRead_clear_rd hr hs, if_neg hk]
  · rw [State.send_rd, State.regRead_clear_rd hr hs, if_pos rfl, fieldGet_clearRC h.mem_all hf]

end

end Sys2Proof.Machine
end

