-- ==== Sys2Proof/Proofs/ClusterMaps.lean ====
section
/-!
SUPPORT. Sys2Proof/Proofs/ClusterMaps.lean: cluster maps: a map as positions, the slots that wait, and a map that takes effect (R565).
-/
namespace Sys2Proof.Machine

/-! ### Registers outside a frame -/

theorem RegsBut.mono {s t : State} {rs rs' : List Reg} (h : RegsBut s t rs) (hs : ∀ r ∈ rs, r ∈ rs') : RegsBut s t rs' :=
  fun k hk => h k fun hm => hk (hs _ hm)

theorem RegsBut.get {s t : State} {rs : List Reg} (h : RegsBut s t rs) (f : Fld) (hf : f.reg ∉ rs) (i j : Nat) :
    t.get f i j = s.get f i j := by
  rw [State.get, State.get, h ⟨f.reg, i, j⟩ hf]

/-! ### Maps as positions, four bits each (R565) -/

/-- The map of n slots whose slot k names position d k. -/
def mapOf (d : Nat → Nat) (n : Nat) : Nat := ((List.range n).map (fun k => d k * 16 ^ k)).foldl (· + ·) 0

theorem mapOf_succ (d : Nat → Nat) (n : Nat) : mapOf d (n + 1) = mapOf d n + d n * 16 ^ n := by
  simp [mapOf, List.range_succ]

theorem mapOf_congr {d e : Nat → Nat} {n : Nat} (h : ∀ k < n, d k = e k) : mapOf d n = mapOf e n := by
  induction n with
  | zero => rfl
  | succ n ih => rw [mapOf_succ, mapOf_succ, ih fun k hk => h k (by omega), h n (by omega)]

theorem mapOf_lt {d : Nat → Nat} {n : Nat} (h : ∀ k < n, d k < 16) : mapOf d n < 16 ^ n := by
  induction n with
  | zero => exact Nat.one_pos
  | succ n ih =>
    have hs := ih fun k hk => h k (by omega)
    have hn : d n * 16 ^ n ≤ 15 * 16 ^ n := Nat.mul_le_mul_right _ (Nat.le_of_lt_succ (h n (by omega)))
    rw [mapOf_succ, pow_succ]
    omega

/-- Slot k of a map names the position that it was made of. -/
theorem mapOf_slot {d : Nat → Nat} {n : Nat} (h : ∀ k < n, d k < 16) {k : Nat} (hk : k < n) : mapOf d n / 16 ^ k % 16 = d k := by
  induction n with
  | zero => omega
  | succ n ih =>
    have hd : ∀ k < n, d k < 16 := fun k hk => h k (by omega)
    rw [mapOf_succ]
    rcases Nat.lt_succ_iff_lt_or_eq.1 hk with hk | rfl
    · have e : d n * 16 ^ n = d n * 16 ^ (n - k - 1) * 16 * 16 ^ k := by
        rw [Nat.mul_assoc, Nat.mul_assoc, ← pow_succ', ← pow_add]
        congr 2
        omega
      rw [e, Nat.add_mul_div_right _ _ (by positivity), Nat.add_mul_mod_self_right, ih hd hk]
    · rw [Nat.add_mul_div_right _ _ (by positivity), Nat.div_eq_of_lt (mapOf_lt hd), Nat.zero_add, Nat.mod_eq_of_lt (h k hk)]

/-- A map is made of the positions that its slots name. -/
theorem mapOf_slots (m n : Nat) : mapOf (fun k => m / 16 ^ k % 16) n = m % 16 ^ n := by
  induction n with
  | zero => rw [pow_zero, Nat.mod_one]; rfl
  | succ n ih => rw [mapOf_succ, ih, Nat.mod_pow_succ, Nat.mul_comm]

/-! ### Cores that work again -/

/-- The cores of some slots of cluster c work again. -/
def State.coresBack (s : State) (c : Nat) (ks : List Nat) : State := ks.foldl (fun s k => s.coreBack (8 * c + k) (8 * c + k)) s

theorem State.coreBack_frame (s : State) (l k : Nat) :
    RegsBut s (s.coreBack l k) [.VSC_STATUS] ∧ (s.coreBack l k).mem = s.mem ∧ (s.coreBack l k).scl = s.scl :=
  ⟨((RegsBut.refl s _).of_eq rfl).put _ _ _ _ (by decide), rfl, rfl⟩

theorem State.coreBack_out (s : State) (l k : Nat) : ((s.coreBack l k).exec l).out = false := by
  simp [State.coreBack, State.exec, State.setExec, State.clr]

theorem State.coreBack_out_mono (s : State) (l k e : Nat) (h : (s.exec e).out = false) : ((s.coreBack l k).exec e).out = false := by
  by_cases he : e = l
  · rw [he, State.coreBack_out]
  · simpa [State.coreBack, State.exec, State.setExec, State.clr, Tab.get_set_ne _ _ he] using h

theorem State.coresBack_frame (s : State) (c : Nat) (ks : List Nat) :
    RegsBut s (s.coresBack c ks) [.VSC_STATUS] ∧ (s.coresBack c ks).mem = s.mem ∧ (s.coresBack c ks).scl = s.scl := by
  induction ks generalizing s with
  | nil => exact ⟨RegsBut.refl _ _, rfl, rfl⟩
  | cons k ks ih =>
    obtain ⟨h₁, h₂, h₃⟩ := ih (s.coreBack (8 * c + k) (8 * c + k))
    obtain ⟨g₁, g₂, g₃⟩ := s.coreBack_frame (8 * c + k) (8 * c + k)
    exact ⟨g₁.trans h₁, h₂.trans g₂, h₃.trans g₃⟩

theorem State.coresBack_out_mono (s : State) (c e : Nat) (ks : List Nat) (h : (s.exec e).out = false) :
    ((s.coresBack c ks).exec e).out = false := by
  induction ks generalizing s with
  | nil => exact h
  | cons k ks ih => exact ih _ (s.coreBack_out_mono _ _ e h)

theorem State.coresBack_out (s : State) (c : Nat) {k : Nat} {ks : List Nat} (h : k ∈ ks) :
    ((s.coresBack c ks).exec (8 * c + k)).out = false := by
  induction ks generalizing s with
  | nil => cases h
  | cons k' ks ih =>
    rcases List.mem_cons.1 h with rfl | h
    · exact State.coresBack_out_mono _ c _ ks (State.coreBack_out _ _ _)
    · exact ih _ h

/-! ### A map takes effect (R565) -/

/-- May the core at a slot of cluster c move from its position to the one that a map names: it stays, or both are idle? -/
def State.slotFree (s : State) (c want k : Nat) : Prop :=
  s.sclPos c k ≠ want / 16 ^ k % 16 → s.posIdle c (s.sclPos c k) = true ∧ s.posIdle c (want / 16 ^ k % 16) = true

/-- The slots of cluster c that wait for a busy core. -/
def State.slotsBusy (s : State) (c want : Nat) : List Nat :=
  (List.range 8).filter (fun k => decide (s.sclPos c k ≠ want / 16 ^ k % 16) &&
    !(s.posIdle c (s.sclPos c k) && s.posIdle c (want / 16 ^ k % 16)))

/-- One more round of slots held back by those that stay. -/
def State.slotsHeld (s : State) (c want : Nat) (h : List Nat) : List Nat :=
  (List.range 8).filter (fun k => decide (k ∈ h) ||
    (decide (want / 16 ^ k % 16 ≠ 0xF) && h.any (fun j => decide (j ≠ k) && s.sclPos c j = want / 16 ^ k % 16)))

/-- The slots of cluster c that keep their position. -/
def State.slotsStay (s : State) (c want : Nat) : List Nat := repeatN (s.slotsHeld c want) 8 (s.slotsBusy c want)

/-- The position that a slot of cluster c takes. -/
def State.slotNext (s : State) (c want k : Nat) : Nat := if k ∈ s.slotsStay c want then s.sclPos c k else want / 16 ^ k % 16

/-- The slots of cluster c whose position a map changes to another core's. -/
def State.slotsMoved (s : State) (c map : Nat) : List Nat :=
  (List.range 8).filter (fun k => map / 16 ^ k % 16 ≠ s.sclPos c k && map / 16 ^ k % 16 ≠ 0xF)

/-- Cluster c works by a map. -/
def State.mapTake (s : State) (c map : Nat) : State :=
  ((s.put F.SCL_MAP_SLOT map c).sclShow c).coresBack c (s.slotsMoved c map)

theorem State.sclMapApply_of_find {s : State} {c want : Nat} (h : Tab.find s.scl.mapPending c = some want) :
    s.sclMapApply c =
      if mapOf (s.slotNext c want) 8 = want then
        ((s.mapTake c (mapOf (s.slotNext c want) 8)).setScl { (s.mapTake c (mapOf (s.slotNext c want) 8)).scl with
          mapPending := Tab.erase (s.mapTake c (mapOf (s.slotNext c want) 8)).scl.mapPending c }).clr F.SCL_STATUS_MAP_PENDING c
      else s.mapTake c (mapOf (s.slotNext c want) 8) := by
  unfold State.sclMapApply
  rw [h]
  rfl

/-- The registers that a map changes. -/
def mapRegs : List Reg := [.SCL_MAP, .SCL_STATUS, .VSC_STATUS]

theorem State.sclPos_lt (s : State) (c k : Nat) : s.sclPos c k < 16 := Nat.mod_lt _ (by decide)

theorem State.slotNext_lt (s : State) (c want k : Nat) : s.slotNext c want k < 16 := by
  unfold State.slotNext
  split
  · exact s.sclPos_lt c k
  · exact Nat.mod_lt _ (by decide)

theorem State.slotsBusy_eq_nil {s : State} {c want : Nat} (h : ∀ k < 8, s.slotFree c want k) : s.slotsBusy c want = [] := by
  refine List.filter_eq_nil_iff.2 fun k hk => ?_
  have hf := h k (List.mem_range.1 hk)
  simpa using fun hne => hf hne

theorem State.slotsHeld_nil (s : State) (c want : Nat) : s.slotsHeld c want [] = [] :=
  List.filter_eq_nil_iff.2 fun k _ => by simp

theorem State.slotsStay_eq_nil {s : State} {c want : Nat} (h : ∀ k < 8, s.slotFree c want k) : s.slotsStay c want = [] := by
  have hr : ∀ n, repeatN (s.slotsHeld c want) n [] = [] := fun n => by
    induction n with
    | zero => rfl
    | succ n ih => rw [repeatN, s.slotsHeld_nil, ih]
  rw [State.slotsStay, State.slotsBusy_eq_nil h, hr]

theorem State.mem_slotsStay {s : State} {c want k : Nat} (hk : k < 8) (h : ¬ s.slotFree c want k) : k ∈ s.slotsStay c want := by
  have hr : ∀ n l, k ∈ l → k ∈ repeatN (s.slotsHeld c want) n l := fun n => by
    induction n with
    | zero => exact fun _ hl => hl
    | succ n ih => exact fun l hl => ih _ (List.mem_filter.2 ⟨List.mem_range.2 hk, by simp [hl]⟩)
  refine hr 8 _ (List.mem_filter.2 ⟨List.mem_range.2 hk, ?_⟩)
  rw [State.slotFree, Classical.not_imp] at h
  obtain ⟨hne, hb⟩ := h
  simp only [hne, ne_eq, not_false_eq_true, decide_true, Bool.true_and, Bool.not_eq_true', ← Bool.not_eq_true, Bool.and_eq_true]
  exact hb

/-- With every slot free to move, the whole map is taken. -/
theorem State.mapOf_slotNext_of_free {s : State} {c want : Nat} (hw : want < 2 ^ 32) (h : ∀ k < 8, s.slotFree c want k) :
    mapOf (s.slotNext c want) 8 = want := by
  have e : ∀ k < 8, s.slotNext c want k = want / 16 ^ k % 16 := fun k _ => by
    rw [State.slotNext, State.slotsStay_eq_nil h, if_neg List.not_mem_nil]
  rw [mapOf_congr e, mapOf_slots]
  exact Nat.mod_eq_of_lt hw

/-- A slot that waits keeps its position, so the whole map is not taken. -/
theorem State.mapOf_slotNext_slot_of_busy {s : State} {c want k : Nat} (hk : k < 8) (h : ¬ s.slotFree c want k) :
    mapOf (s.slotNext c want) 8 / 16 ^ k % 16 = s.sclPos c k := by
  rw [mapOf_slot (fun k _ => s.slotNext_lt c want k) hk, State.slotNext, if_pos (State.mem_slotsStay hk h)]

theorem State.mapOf_slotNext_ne_of_busy {s : State} {c want k : Nat} (hk : k < 8) (h : ¬ s.slotFree c want k) :
    mapOf (s.slotNext c want) 8 ≠ want := fun e =>
  h fun hne => absurd ((State.mapOf_slotNext_slot_of_busy hk h).symm.trans (by rw [e])) hne

theorem State.sclShow_regsBut (s : State) (c : Nat) : RegsBut s (s.sclShow c) [.SCL_STATUS] :=
  ((RegsBut.refl s _).put _ _ _ _ (by decide)).put _ _ _ _ (by decide)

theorem State.sclShow_mapPending (s : State) (c : Nat) :
    (s.sclShow c).get F.SCL_STATUS_MAP_PENDING c = s.get F.SCL_STATUS_MAP_PENDING c := by
  rw [State.sclShow, State.get_put_fld _ _ _ _ _ _ _ _ (by decide) (by decide),
    State.get_put_fld _ _ _ _ _ _ _ _ (by decide) (by decide)]

/-! Working by a map: the map reads back, the waiting map and its flag stay, the moved cores work, and nothing else changes. -/

section
variable (s : State) (c : Nat) {map : Nat}

theorem State.mapTake_regsBut : RegsBut s (s.mapTake c map) mapRegs := by
  have h₁ : RegsBut s (s.put F.SCL_MAP_SLOT map c) mapRegs := (RegsBut.refl s _).put _ _ _ _ (by decide)
  have h₂ := (State.sclShow_regsBut (s.put F.SCL_MAP_SLOT map c) c).mono (rs' := mapRegs) (by decide)
  exact (h₁.trans h₂).trans ((State.coresBack_frame _ c (s.slotsMoved c map)).1.mono (by decide))

theorem State.mapTake_mem : (s.mapTake c map).mem = s.mem := (State.coresBack_frame _ c _).2.1

theorem State.mapTake_scl : (s.mapTake c map).scl = s.scl := (State.coresBack_frame _ c _).2.2

theorem State.mapTake_slot (h : map < 2 ^ 32) : (s.mapTake c map).get F.SCL_MAP_SLOT c = map := by
  rw [State.mapTake, (State.coresBack_frame _ c _).1.get _ (by decide), (State.sclShow_regsBut _ c).get _ (by decide),
    State.get_put_self _ _ _ _ _ (by decide), Nat.mod_eq_of_lt h]

theorem State.mapTake_pending : (s.mapTake c map).get F.SCL_STATUS_MAP_PENDING c = s.get F.SCL_STATUS_MAP_PENDING c := by
  rw [State.mapTake, (State.coresBack_frame _ c _).1.get _ (by decide), State.sclShow_mapPending,
    State.get_put_key _ _ _ _ _ _ _ _ (by simp)]

theorem State.mapTake_out {k : Nat} (hk : k < 8) (hne : s.sclPos c k ≠ map / 16 ^ k % 16) (hF : map / 16 ^ k % 16 ≠ 0xF) :
    ((s.mapTake c map).exec (8 * c + k)).out = false :=
  State.coresBack_out _ c (List.mem_filter.2 ⟨List.mem_range.2 hk, by simp [Ne.symm hne, hF]⟩)

end

/-- A waiting map all of whose slots are free to move takes effect. -/
theorem State.sclMapApply_of_free {s : State} {c want : Nat} (hf : Tab.find s.scl.mapPending c = some want) (hw : want < 2 ^ 32)
    (h : ∀ k < 8, s.slotFree c want k) :
    (s.sclMapApply c).get F.SCL_MAP_SLOT c = want ∧ Tab.find (s.sclMapApply c).scl.mapPending c = none ∧
      (s.sclMapApply c).get F.SCL_STATUS_MAP_PENDING c = 0 ∧
      (∀ k < 8, s.sclPos c k ≠ want / 16 ^ k % 16 → want / 16 ^ k % 16 ≠ 0xF → ((s.sclMapApply c).exec (8 * c + k)).out = false) ∧
      (s.sclMapApply c).mem = s.mem ∧ RegsBut s (s.sclMapApply c) mapRegs := by
  rw [State.sclMapApply_of_find hf, State.mapOf_slotNext_of_free hw h, if_pos rfl]
  refine ⟨?_, ?_, State.get_put_self _ _ _ _ _ (by decide), fun k hk hne hF => s.mapTake_out c hk hne hF, s.mapTake_mem c, ?_⟩
  · rw [State.clr, State.get_put_key _ _ _ _ _ _ _ _ (by simp), State.setScl_get, State.mapTake_slot s c hw]
  · exact Tab.find_erase_self _ _
  · exact ((s.mapTake_regsBut c).of_eq rfl).put _ _ _ _ (by decide)

/-- A waiting map with a slot that is not free keeps that slot's position and goes on waiting. -/
theorem State.sclMapApply_of_busy {s : State} {c want k : Nat} (hf : Tab.find s.scl.mapPending c = some want) (hk : k < 8)
    (h : ¬ s.slotFree c want k) :
    (s.sclMapApply c).sclPos c k = s.sclPos c k ∧ Tab.find (s.sclMapApply c).scl.mapPending c = some want ∧
      (s.sclMapApply c).get F.SCL_STATUS_MAP_PENDING c = s.get F.SCL_STATUS_MAP_PENDING c ∧
      (s.sclMapApply c).mem = s.mem ∧ RegsBut s (s.sclMapApply c) mapRegs := by
  rw [State.sclMapApply_of_find hf, if_neg (State.mapOf_slotNext_ne_of_busy hk h)]
  refine ⟨?_, ?_, s.mapTake_pending c, s.mapTake_mem c, s.mapTake_regsBut c⟩
  · rw [State.sclPos, State.mapTake_slot s c (mapOf_lt fun k _ => s.slotNext_lt c want k), State.mapOf_slotNext_slot_of_busy hk h]
  · rw [State.mapTake_scl, hf]

/-! ### A map is written (R565) -/

/-- Cluster c has an accepted map waiting. -/
def State.mapAsked (s : State) (c map : Nat) : State :=
  (s.setScl { s.scl with mapPending := Tab.set s.scl.mapPending c map }).set F.SCL_STATUS_MAP_PENDING c

section
variable (s : State) (c map : Nat)

theorem State.sclMapWrite_of_bad (h : s.sclMapBad c map = true) : s.sclMapWrite c map = s.set F.SCL_STATUS_MAP_REFUSED c := if_pos h

theorem State.sclMapWrite_of_good (h : s.sclMapBad c map = false) : s.sclMapWrite c map = (s.mapAsked c map).sclMapApply c :=
  if_neg (by simp [h])

theorem State.mapAsked_find : Tab.find (s.mapAsked c map).scl.mapPending c = some map := Tab.find_set_self _ _ _

theorem State.mapAsked_regsBut : RegsBut s (s.mapAsked c map) mapRegs := ((RegsBut.refl s _).of_eq rfl).put _ _ _ _ (by decide)

theorem State.mapAsked_slot : (s.mapAsked c map).get F.SCL_MAP_SLOT c = s.get F.SCL_MAP_SLOT c :=
  State.get_put_key _ _ _ _ _ _ _ _ (by simp)

theorem State.mapAsked_benchPos : (s.mapAsked c map).get F.SCL_STATUS_BENCH_POS c = s.get F.SCL_STATUS_BENCH_POS c :=
  State.get_put_fld _ _ _ _ _ _ _ _ (by decide) (by decide)

theorem State.mapAsked_sclPos (k : Nat) : (s.mapAsked c map).sclPos c k = s.sclPos c k := by
  rw [State.sclPos, State.mapAsked_slot, State.sclPos]

theorem State.mapAsked_posIdle (p : Nat) : (s.mapAsked c map).posIdle c p = s.posIdle c p := by
  unfold State.posIdle State.posInst
  rw [State.mapAsked_slot, State.mapAsked_benchPos]
  rfl

theorem State.mapAsked_slotFree (k : Nat) : (s.mapAsked c map).slotFree c map k ↔ s.slotFree c map k := by
  simp only [State.slotFree, State.mapAsked_sclPos, State.mapAsked_posIdle]

end

/-- A field of a register set alone: the clause that a refused write meets. -/
theorem State.set_only (s : State) (f : Fld) (i : Nat) (hf : f.lo + f.len ≤ 32) (h1 : f.len = 1) :
    OnlyRegs s (s.set f i) ∧ (s.set f i).get f i = 1 ∧ FieldsBut s (s.set f i) [(f, i, 0)] :=
  ⟨rfl, by rw [State.set, State.get_put_self _ _ _ _ _ hf, h1]; rfl, FieldsBut.put_self _ _ _ _ _⟩

end Sys2Proof.Machine
end

