-- ==== Sys2Proof/Proofs/Lends.lean ====
section
/-!
SUPPORT. Sys2Proof/Proofs/Lends.lean: lends of bench cores, written and taking effect (R566).
-/
namespace Sys2Proof.Machine

/-! ### Lends (R566) -/

theorem State.flag_eq_false {s : State} {f : Fld} {i j : Nat} (h : s.get f i j = 0) : s.flag f i j = false := by simp [State.flag, h]

theorem State.flag_eq_true {s : State} {f : Fld} {i j : Nat} (h : s.get f i j = 1) : s.flag f i j = true := by simp [State.flag, h]

section
variable {s : State} {n : Nat}

theorem State.lendApply_of_busy (h : (s.core (192 + n)).isSome = true) : s.lendApply n = s := if_pos h

theorem State.lendApply_of_off (h : (s.core (192 + n)).isSome = false) (hen : s.get F.SCL_LEND_EN n = 0) :
    s.lendApply n = s.setScl { s.scl with lends := Tab.erase s.scl.lends n } := by
  rw [State.lendApply, if_neg (by simp [h]), State.flag_eq_false hen, if_neg (by decide)]

theorem State.lendApply_of_same (h : (s.core (192 + n)).isSome = false) (hen : s.get F.SCL_LEND_EN n = 1)
    (hl : Tab.find s.scl.lends n = some (s.get F.SCL_LEND_LOGICAL n)) : s.lendApply n = s := by
  rw [State.lendApply, if_neg (by simp [h]), State.flag_eq_true hen, if_pos rfl, if_pos hl]

theorem State.lendApply_of_new (h : (s.core (192 + n)).isSome = false) (hen : s.get F.SCL_LEND_EN n = 1)
    (hl : Tab.find s.scl.lends n ≠ some (s.get F.SCL_LEND_LOGICAL n)) :
    s.lendApply n = (s.setScl { s.scl with lends := Tab.set s.scl.lends n (s.get F.SCL_LEND_LOGICAL n) }).coreBack
      (s.get F.SCL_LEND_LOGICAL n) (192 + n) := by
  rw [State.lendApply, if_neg (by simp [h]), State.flag_eq_true hen, if_pos rfl, if_neg hl]

/-- A lend that is on takes effect once the bench core is idle; a newly lent core works. -/
theorem State.lendApply_of_on (h : (s.core (192 + n)).isSome = false) (hen : s.get F.SCL_LEND_EN n = 1) :
    Tab.find (s.lendApply n).scl.lends n = some (s.get F.SCL_LEND_LOGICAL n) ∧
      (Tab.find s.scl.lends n ≠ some (s.get F.SCL_LEND_LOGICAL n) → ((s.lendApply n).exec (s.get F.SCL_LEND_LOGICAL n)).out = false) := by
  by_cases hl : Tab.find s.scl.lends n = some (s.get F.SCL_LEND_LOGICAL n)
  · rw [State.lendApply_of_same h hen hl]
    exact ⟨hl, fun hne => absurd hl hne⟩
  · rw [State.lendApply_of_new h hen hl]
    exact ⟨Tab.find_set_self _ _ _, fun _ => State.coreBack_out _ _ _⟩

theorem State.lendApply_frame : RegsBut s (s.lendApply n) [.VSC_STATUS] ∧ (s.lendApply n).mem = s.mem := by
  unfold State.lendApply
  split
  · exact ⟨RegsBut.refl _ _, rfl⟩
  split
  · extract_lets l
    split
    · exact ⟨RegsBut.refl _ _, rfl⟩
    · exact ⟨(RegsBut.of_regs _ rfl).trans (State.coreBack_frame _ _ _).1, rfl⟩
  · exact ⟨RegsBut.of_regs _ rfl, rfl⟩

end

/-- SCL_LEND holds a lend of cluster n to core l. -/
def State.lendAsked (s : State) (n l : Nat) (en : Bool) : State :=
  s.putAll n 0 [(F.SCL_LEND_LOGICAL, l), (F.SCL_LEND_EN, if en then 1 else 0)]

section
variable (s : State) (n l : Nat) (en : Bool)

theorem State.lendWrite_of_bad (h : s.lendBad n l = true) : s.lendWrite n l true = s.set F.SCL_STATUS_MAP_REFUSED n :=
  if_pos ⟨rfl, h⟩

theorem State.lendWrite_of_good (h : s.lendBad n l = false) : s.lendWrite n l true = (s.lendAsked n l true).lendApply n :=
  if_neg (by simp [h])

theorem State.lendWrite_off : s.lendWrite n l false = (s.lendAsked n l false).lendApply n := if_neg (by simp)

theorem State.lendAsked_regsBut : RegsBut s (s.lendAsked n l en) [.SCL_LEND] :=
  (RegsBut.refl s _).putAll _ _ _ (by simp)

theorem State.lendAsked_en : (s.lendAsked n l en).get F.SCL_LEND_EN n = if en then 1 else 0 := by
  rw [State.lendAsked, State.putAll, State.putAll, State.putAll, State.get_put_self _ _ _ _ _ (by decide)]
  cases en <;> rfl

theorem State.lendAsked_logical (h : l < 2 ^ 8) : (s.lendAsked n l en).get F.SCL_LEND_LOGICAL n = l := by
  rw [State.lendAsked, State.putAll, State.putAll, State.putAll, State.get_put_fld _ _ _ _ _ _ _ _ (by decide) (by decide),
    State.get_put_self _ _ _ _ _ (by decide), Nat.mod_eq_of_lt h]

end

end Sys2Proof.Machine
end

