-- ==== Sys2Proof/Proofs/AccessClauses.lean ====
section
/-!
SUPPORT. Sys2Proof/Proofs/AccessClauses.lean: the commands on cluster maps and lends, and from all of these O57.
-/
namespace Sys2Proof.Machine

/-! ### The clauses of O57 on cluster maps and lends -/

section
variable (c : Fin 24) (m : Word) (s : State)

theorem sclMapWrite_refused (h : s.sclMapBad c m.toNat = true) :
    Completes (.sclMapWrite c m) s (fun t => OnlyRegs s t ∧ t.get F.SCL_STATUS_MAP_REFUSED c = 1 ∧
      FieldsBut s t [(F.SCL_STATUS_MAP_REFUSED, c.val, 0)]) := by
  refine ⟨s.sclMapWrite c m.toNat, rfl, ?_⟩
  rw [State.sclMapWrite_of_bad s c _ h]
  exact s.set_only _ _ (by decide) rfl

theorem sclMapWrite_takes (h : s.sclMapBad c m.toNat = false) (hf : ∀ k < 8, s.slotFree c m.toNat k) :
    Completes (.sclMapWrite c m) s (fun t => t.get F.SCL_MAP_SLOT c = m.toNat ∧ Tab.find t.scl.mapPending c.val = none ∧
      t.get F.SCL_STATUS_MAP_PENDING c = 0 ∧
      (∀ k, k < 8 → s.sclPos c k ≠ m.toNat / 16 ^ k % 16 → m.toNat / 16 ^ k % 16 ≠ 0xF → (t.exec (8 * c + k)).out = false) ∧
      t.mem = s.mem ∧ RegsBut s t mapRegs) := by
  refine ⟨s.sclMapWrite c m.toNat, rfl, ?_⟩
  rw [State.sclMapWrite_of_good s c _ h]
  obtain ⟨h₁, h₂, h₃, h₄, h₅, h₆⟩ := State.sclMapApply_of_free (s.mapAsked_find c m.toNat) m.isLt
    (fun k hk => (s.mapAsked_slotFree c m.toNat k).2 (hf k hk))
  refine ⟨h₁, h₂, h₃, fun k hk hne => h₄ k hk ?_, h₅, (s.mapAsked_regsBut c m.toNat).trans h₆⟩
  rwa [State.mapAsked_sclPos]

theorem sclMapWrite_waits (h : s.sclMapBad c m.toNat = false) {k : Nat} (hk : k < 8) (hb : ¬ s.slotFree c m.toNat k) :
    Completes (.sclMapWrite c m) s (fun t => t.sclPos c k = s.sclPos c k ∧ Tab.find t.scl.mapPending c.val = some m.toNat ∧
      t.get F.SCL_STATUS_MAP_PENDING c = 1 ∧ t.mem = s.mem ∧ RegsBut s t mapRegs) := by
  refine ⟨s.sclMapWrite c m.toNat, rfl, ?_⟩
  rw [State.sclMapWrite_of_good s c _ h]
  obtain ⟨h₁, h₂, h₃, h₄, h₅⟩ := State.sclMapApply_of_busy (s.mapAsked_find c m.toNat) hk
    (fun hf => hb ((s.mapAsked_slotFree c m.toNat k).1 hf))
  refine ⟨h₁.trans (s.mapAsked_sclPos c _ k), h₂, h₃.trans ?_, h₄, (s.mapAsked_regsBut c m.toNat).trans h₅⟩
  exact State.get_put_self _ _ _ _ _ (by decide)

variable {m s}

theorem sclMapApply_takes (hf : Tab.find s.scl.mapPending c.val = some m.toNat) (h : ∀ k < 8, s.slotFree c m.toNat k) :
    Completes (.sclMapApply c) s (fun t => t.get F.SCL_MAP_SLOT c = m.toNat ∧ Tab.find t.scl.mapPending c.val = none ∧
      t.get F.SCL_STATUS_MAP_PENDING c = 0 ∧ t.mem = s.mem ∧ RegsBut s t mapRegs) := by
  obtain ⟨h₁, h₂, h₃, -, h₅, h₆⟩ := State.sclMapApply_of_free hf m.isLt h
  exact ⟨s.sclMapApply c, rfl, h₁, h₂, h₃, h₅, h₆⟩

theorem sclMapApply_waits (hf : Tab.find s.scl.mapPending c.val = some m.toNat) {k : Nat} (hk : k < 8) (h : ¬ s.slotFree c m.toNat k) :
    Completes (.sclMapApply c) s (fun t => t.sclPos c k = s.sclPos c k ∧ Tab.find t.scl.mapPending c.val = some m.toNat) := by
  obtain ⟨h₁, h₂, -⟩ := State.sclMapApply_of_busy hf hk h
  exact ⟨s.sclMapApply c, rfl, h₁, h₂⟩

theorem exec_sclMapApply_of_none (h : Tab.find s.scl.mapPending c.val = none) : exec (.sclMapApply c) s = .next s := by
  show Host.Outcome.next (s.sclMapApply c) = .next s
  rw [State.sclMapApply, h]

end

section
variable (n : Fin 24) (lb : BitVec 8) (s : State)

theorem sclLendWrite_refused (h : s.lendBad n lb.toNat = true) :
    Completes (.sclLendWrite n lb true) s (fun t => OnlyRegs s t ∧ t.get F.SCL_STATUS_MAP_REFUSED n = 1 ∧
      FieldsBut s t [(F.SCL_STATUS_MAP_REFUSED, n.val, 0)]) := by
  refine ⟨s.lendWrite n lb.toNat true, rfl, ?_⟩
  rw [State.lendWrite_of_bad s n _ h]
  exact s.set_only _ _ (by decide) rfl

theorem sclLendWrite_stores (h : s.lendBad n lb.toNat = false) :
    Completes (.sclLendWrite n lb true) s (fun t => t.get F.SCL_LEND_LOGICAL n = lb.toNat ∧ t.get F.SCL_LEND_EN n = 1 ∧ t.mem = s.mem ∧
      RegsBut s t [.SCL_LEND, .VSC_STATUS]) := by
  refine ⟨s.lendWrite n lb.toNat true, rfl, ?_⟩
  rw [State.lendWrite_of_good s n _ h]
  obtain ⟨hr, hm⟩ := State.lendApply_frame (s := s.lendAsked n lb.toNat true) (n := n)
  refine ⟨?_, ?_, hm, ((s.lendAsked_regsBut n lb.toNat true).mono (by simp)).trans (hr.mono (by simp))⟩
  · rw [hr.get _ (by decide), State.lendAsked_logical _ _ _ _ lb.isLt]
  · rw [hr.get _ (by decide), State.lendAsked_en]
    rfl

theorem sclLendWrite_waits (h : s.lendBad n lb.toNat = false) (hb : (s.core (192 + n)).isSome = true) :
    Completes (.sclLendWrite n lb true) s (fun t => t.scl = s.scl ∧ t.gdx = s.gdx) := by
  refine ⟨s.lendWrite n lb.toNat true, rfl, ?_⟩
  rw [State.lendWrite_of_good s n _ h, State.lendApply_of_busy (s := s.lendAsked n lb.toNat true) hb]
  exact ⟨rfl, rfl⟩

theorem sclLendWrite_takes (h : s.lendBad n lb.toNat = false) (hb : (s.core (192 + n)).isSome = false) :
    Completes (.sclLendWrite n lb true) s (fun t => Tab.find t.scl.lends n.val = some lb.toNat ∧
      (Tab.find s.scl.lends n ≠ some lb.toNat → (t.exec lb.toNat).out = false)) := by
  refine ⟨s.lendWrite n lb.toNat true, rfl, ?_⟩
  rw [State.lendWrite_of_good s n _ h]
  have ht := State.lendApply_of_on (s := s.lendAsked n lb.toNat true) hb (s.lendAsked_en n lb.toNat true)
  rwa [State.lendAsked_logical _ _ _ _ lb.isLt] at ht

theorem sclLendWrite_ends :
    Completes (.sclLendWrite n lb false) s (fun t => t.get F.SCL_LEND_EN n = 0 ∧ RegsBut s t [.SCL_LEND] ∧
      ((s.core (192 + n)).isSome = true → t.scl = s.scl) ∧
      ((s.core (192 + n)).isSome = false → Tab.find t.scl.lends n.val = none)) := by
  refine ⟨s.lendWrite n lb.toNat false, rfl, ?_⟩
  have hen : (s.lendAsked n lb.toNat false).get F.SCL_LEND_EN n = 0 := s.lendAsked_en n lb.toNat false
  have hr := s.lendAsked_regsBut n lb.toNat false
  rw [State.lendWrite_off]
  cases hb : (s.core (192 + n)).isSome with
  | true =>
    rw [State.lendApply_of_busy (s := s.lendAsked n lb.toNat false) hb]
    exact ⟨hen, hr, fun _ => rfl, nofun⟩
  | false =>
    rw [State.lendApply_of_off (s := s.lendAsked n lb.toNat false) hb hen]
    exact ⟨hen, hr.of_eq rfl, nofun, fun _ => Tab.find_erase_self _ _⟩

theorem sclLendApply_ends (hb : (s.core (192 + n)).isSome = false) (hen : s.get F.SCL_LEND_EN n = 0) :
    Completes (.sclLendApply n) s (fun t => Tab.find t.scl.lends n.val = none ∧ t.regs = s.regs) := by
  refine ⟨s.lendApply n, rfl, ?_⟩
  rw [State.lendApply_of_off hb hen]
  exact ⟨Tab.find_erase_self _ _, rfl⟩

theorem sclLendApply_takes (hb : (s.core (192 + n)).isSome = false) (hen : s.get F.SCL_LEND_EN n = 1) :
    Completes (.sclLendApply n) s (fun t => Tab.find t.scl.lends n.val = some (s.get F.SCL_LEND_LOGICAL n) ∧
      RegsBut s t [.VSC_STATUS]) :=
  ⟨s.lendApply n, rfl, (State.lendApply_of_on hb hen).1, State.lendApply_frame.1⟩

end

/-- Settles O57: an access by the lemmas on the pages and the access codes, a map and a lend by the lemmas on what takes effect. -/
theorem registersAndClusterMapsAreAccessed : Obligations.RegistersAndClusterMapsAreAccessed := by
  unfold Obligations.RegistersAndClusterMapsAreAccessed
  refine ⟨fun q a v s => ?accesses, fun c m s => ?maps, fun n lb s => ?lends⟩
  case accesses =>
    refine ⟨fun h => ?_, fun h hq ho => ?_, fun b i off h hq ha hc hm => ?_, fun r i j h hr => ?_, fun r i j h hr hs hd => ?_⟩
    · exact ⟨exec_registerWrite_far h q v s, exec_counterReadClear_far h q s⟩
    · rw [exec_registerWrite_near h, exec_counterReadClear_near h, State.csrWrite_outside hq v ho, State.csrRead_outside hq ho]
      exact ⟨rfl, rfl⟩
    · rw [exec_registerWrite_near h, exec_counterReadClear_near h, State.csrWrite_page hq ha hc hm, State.csrRead_page hq ha hc hm]
      refine ⟨fun hr => ?_, fun r j hr => ⟨fun hno => ?_, fun hno => ?_⟩⟩
      · rw [hr]
        exact ⟨rfl, rfl⟩
      · rw [hr, Option.elim_some, if_pos (by simpa using hno)]
      · rw [hr, Option.elim_some, if_pos (by rcases hno with h | h | h <;> simp [h])]
    · exact ⟨exec_registerWrite_plain h hr v, registerWrite_stores h hr v⟩
    · exact ⟨counterReadClear_reads h hr hs hd, counterReadClear_clears h hr hs hd⟩
  case maps =>
    refine ⟨sclMapWrite_refused c m s, fun h => ⟨sclMapWrite_takes c m s h, fun k hk hne hb => ?_⟩, exec_sclMapApply_of_none c,
      sclMapApply_takes c, fun hf k hk hne hb => ?_⟩
    · exact sclMapWrite_waits c m s h hk (fun h => hb (h hne))
    · exact sclMapApply_waits c hf hk (fun h => hb (h hne))
  case lends =>
    exact ⟨sclLendWrite_refused n lb s,
      fun h => ⟨sclLendWrite_stores n lb s h, sclLendWrite_waits n lb s h, sclLendWrite_takes n lb s h⟩,
      sclLendWrite_ends n lb s, fun hb => congrArg _ (State.lendApply_of_busy hb), sclLendApply_ends n s, sclLendApply_takes n s⟩

end Sys2Proof.Machine
end

