-- ==== Sys2Proof/Proofs/Firings.lean ====
section
/-!
SUPPORT. Sys2Proof/Proofs/Firings.lean: a whistle channel moves past an occurrence that it fires or spills (R21, R90), and from this O16.
-/
namespace Sys2Proof.Machine

/-! ### Words and bytes outside what a step wrote -/

theorem Memory.readBytes_congr {m m' : Memory} {a n : Nat} (h : ∀ x, a ≤ x → x < a + n → m'.read x = m.read x) :
    m'.readBytes a n = m.readBytes a n := by
  induction n generalizing a with
  | zero => rfl
  | succ n ih => rw [Memory.readBytes, Memory.readBytes, h a (by omega) (by omega), ih fun x h₁ h₂ => h x (by omega) (by omega)]

theorem MemBut.word {s t : State} {a n b : Nat} (h : MemBut s t a n) (hb : b + 4 ≤ a ∨ a + n ≤ b) : t.word b = s.word b :=
  congrArg leNat (Memory.readBytes_congr fun x h₁ h₂ => h x (by omega))

theorem MemBut.trans {s t u : State} {a n : Nat} (h : MemBut s t a n) (h' : MemBut t u a n) : MemBut s u a n :=
  fun x hx => (h' x hx).trans (h x hx)

theorem MemBut.mono {s t : State} {a n b k : Nat} (h : MemBut s t b k) (h₁ : a ≤ b) (h₂ : b + k ≤ a + n) : MemBut s t a n :=
  fun x hx => h x (by omega)

/-- A counter field that lies in its register saturates at all ones. -/
theorem State.get_count_self (s : State) (f : Fld) (n i j : Nat) (h : f.lo + f.len ≤ 32) :
    (s.count f n i j).get f i j = min (2 ^ f.len - 1) (s.get f i j + n) := by
  have hp := Nat.two_pow_pos f.len
  rw [State.count, State.get_put_self _ _ _ _ _ h, satAdd, Nat.mod_eq_of_lt (by omega)]

/-! ### A channel is stored, and fires -/

section
variable (s : State) (ch : Nat) (x : WhsCh) (tl : Timeline) (c : Int)

theorem State.setWhs_whs : (s.setWhs ch x).whs ch = some x := Tab.find_set_self _ _ _

theorem State.setWhs_whs_ne {d : Nat} (h : d ≠ ch) : (s.setWhs ch x).whs d = s.whs d := Tab.find_set_ne _ h _

theorem State.setWhs_memBut : MemBut s (s.setWhs ch x) (s.whsAddr ch) 4 := MemBut.setWord _ _ _

theorem State.whsFired_whs : (s.whsFired ch x tl c).whs ch = some (x.past tl c) := s.setWhs_whs ch _

theorem State.whsFired_whs_ne {d : Nat} (h : d ≠ ch) : (s.whsFired ch x tl c).whs d = s.whs d := s.setWhs_whs_ne ch _ h

theorem State.whsFired_memBut : MemBut s (s.whsFired ch x tl c) (s.whsAddr ch) 32 :=
  ((s.setWhs_memBut ch _).mono (Nat.le_refl _) (by omega)).trans
    ((MemBut.setWord _ (s.whsAddr ch + 28) _).mono (Nat.le_add_right _ 28) (by omega))

/-- The last word of a channel's table entry counts its firings (R85). -/
theorem State.whsFired_count (h : s.mem.wf = true) :
    (s.whsFired ch x tl c).word (s.whsAddr ch + 28) = (s.word (s.whsAddr ch + 28) + 1) % 2 ^ 32 := by
  have hw : (s.setWhs ch (x.past tl c)).word (s.whsAddr ch + 28) = s.word (s.whsAddr ch + 28) :=
    (s.setWhs_memBut ch _).word (Or.inr (by omega))
  rw [← hw]
  exact (Memory.word_setWord _ _ (Memory.wf_setWord _ _ h)).trans (Nat.mod_mod _ _)

theorem State.whsFired_frame :
    s.whsFired ch x tl c = { s with mem := (s.whsFired ch x tl c).mem, aft := (s.whsFired ch x tl c).aft } := rfl

theorem State.whsCycle_frame : s.whsCycle = { s with gdx := s.whsCycle.gdx } := by
  unfold State.whsCycle
  split <;> rfl

variable {s ch x tl c}

/-- A channel whose turn it is fires with its action. -/
theorem State.whsFire_of_ready {action : Nat} (h : s.whsReady ch action = some (x, tl, c))
    (act : State → WhsCh → Timeline → Int → State) :
    s.whsFire ch action act = act (s.whsFired ch x tl c) x tl (tl.slotOf c) := by
  rw [State.whsFire, h]

/-- Without a TDD pattern no calibration is suppressed (R99). -/
theorem State.whsCal_of_ready {rx : Bool} (h : s.whsReady ch (if rx then 9 else 8) = some (x, tl, c)) (htdd : tl.ent.tddEn = false) :
    s.whsCal ch rx = (s.whsFired ch x tl c).send (.cal rx x.sched.tl (x.arg0 % 512) x.arg1) := by
  simp only [State.whsCal, h, htdd, Bool.false_eq_true, false_and, if_false]

/-- With four firings delivered in the tick, an occurrence waits and is counted once (R90). -/
theorem State.whsSpill_of_due {k : Nat} (hx : s.whs ch = some x) (hd : s.whsDue x = some (c, k)) (ht : s.tl x.sched.tl = some tl)
    (h4 : 4 ≤ s.aft.delivered) (hs : x.spilled = false) :
    s.whsSpill ch = (s.setWhs ch { x.past tl c with due := some (c, k), spilled := true }).count F.WHS_SPILL_SPILL := by
  have hn : ¬ (s.aft.delivered < 4 ∨ x.spilled = true) := by simp [hs, h4]
  simp only [State.whsSpill, hx, hd, ht, if_neg hn]

end

/-! ### The clauses of O16 -/

section
variable {ch : BitVec 10} {x : WhsCh} {tl : Timeline} {c : Int} {s : State}

theorem mark_counts (h : s.whsReady ch.toNat 0 = some (x, tl, c)) (hm : s.mem.wf = true) :
    Completes (.mark ch) s (fun t => t.whs ch.toNat = some (x.past tl c) ∧ (∀ d, d ≠ ch.toNat → t.whs d = s.whs d) ∧
      t.word (s.whsAddr ch.toNat + 28) = (s.word (s.whsAddr ch.toNat + 28) + 1) % 2 ^ 32 ∧ t.aft.delivered = s.aft.delivered + 1 ∧
      MemBut s t (s.whsAddr ch.toNat) 32 ∧ t = { s with mem := t.mem, aft := t.aft }) := by
  refine ⟨s.whsFire ch.toNat 0 (fun s _ _ _ => s), rfl, ?_⟩
  rw [State.whsFire_of_ready h]
  exact ⟨s.whsFired_whs _ x tl c, fun d => s.whsFired_whs_ne _ x tl c, s.whsFired_count _ x tl c hm, rfl, s.whsFired_memBut _ x tl c,
    s.whsFired_frame _ x tl c⟩

theorem corrSwap_flips (h : s.whsReady ch.toNat 10 = some (x, tl, c)) :
    Completes (.corrSwap ch) s (fun t => t.tl x.sched.tl = some { tl with curBank := 1 - tl.curBank } ∧
      (∀ u, u ≠ x.sched.tl → t.tl u = s.tl u) ∧ t.whs ch.toNat = some (x.past tl c) ∧ t.regs = s.regs ∧
      MemBut s t (s.whsAddr ch.toNat) 32) := by
  refine ⟨s.whsFire ch.toNat 10 (fun s x t _ => s.whsCycle.setTl x.sched.tl { t with curBank := 1 - t.curBank }), rfl, ?_⟩
  rw [State.whsFire_of_ready h, State.whsCycle_frame]
  exact ⟨Tab.find_set_self _ _ _, fun u hu => Tab.find_set_ne _ hu _, s.whsFired_whs _ x tl c, rfl, s.whsFired_memBut _ x tl c⟩

theorem cal_sends {rx : Bool} (h : s.whsReady ch.toNat (if rx then 9 else 8) = some (x, tl, c)) (htdd : tl.ent.tddEn = false) :
    Completes (if rx then .calRx ch else .calTx ch) s (fun t =>
      t.out = s.out ++ [.cal rx x.sched.tl (x.arg0 % 512) x.arg1] ∧ t.whs ch.toNat = some (x.past tl c) ∧ t.regs = s.regs ∧
      MemBut s t (s.whsAddr ch.toNat) 32) := by
  refine ⟨s.whsCal ch.toNat rx, by cases rx <;> rfl, ?_⟩
  rw [State.whsCal_of_ready h htdd]
  exact ⟨rfl, s.whsFired_whs _ x tl c, rfl, s.whsFired_memBut _ x tl c⟩

theorem whistleSpill_waits {k : Nat} (hx : s.whs ch.toNat = some x) (hd : s.whsDue x = some (c, k)) (ht : s.tl x.sched.tl = some tl)
    (h4 : 4 ≤ s.aft.delivered) (hs : x.spilled = false) :
    Completes (.whistleSpill ch) s (fun t => t.whs ch.toNat = some { x.past tl c with due := some (c, k), spilled := true } ∧
      t.get F.WHS_SPILL_SPILL = min (2 ^ 32 - 1) (s.get F.WHS_SPILL_SPILL + 1) ∧ FieldsBut s t [(F.WHS_SPILL_SPILL, 0, 0)] ∧
      MemBut s t (s.whsAddr ch.toNat) 4) := by
  refine ⟨s.whsSpill ch.toNat, rfl, ?_⟩
  rw [State.whsSpill_of_due hx hd ht h4 hs]
  exact ⟨s.setWhs_whs _ _, State.get_count_self _ _ _ _ _ (by decide),
    (FieldsBut.of_regs _ rfl).count _ _ _ _ (by simp), s.setWhs_memBut _ _⟩

end

/-- Settles O16, by what a firing does to its channel and its table entry, whatever the action adds. -/
theorem whistlesFireAtMostFourInATick : Obligations.WhistlesFireAtMostFourInATick := by
  unfold Obligations.WhistlesFireAtMostFourInATick
  exact ⟨fun _ _ _ _ _ h hm => mark_counts h hm, fun _ _ _ _ _ h => corrSwap_flips h, fun _ _ _ _ _ _ h htdd => cal_sends h htdd,
    fun _ _ _ _ _ _ hx hd ht h4 hs => whistleSpill_waits hx hd ht h4 hs⟩

end Sys2Proof.Machine
end

