-- ==== Sys2Proof/Proofs/DispatcherCycle.lean ====
section
/-!
SUPPORT. Sys2Proof/Proofs/DispatcherCycle.lean: a cycle of the dispatcher (R139): its start by an arrival, what it shows, when it settles
without doing more, and a token that fills its port (R108).
-/
namespace Sys2Proof.Machine

/-! ### An entry of a table, changed in its place -/

section
variable {κ α : Type} [DecidableEq κ]

theorem Tab.find_split {m : Tab κ α} {k : κ} {v : α} (h : Tab.find m k = some v) :
    ∃ l r, m = l ++ (k, v) :: r ∧ ∀ w, Tab.set m k w = l ++ (k, w) :: r := by
  induction m with
  | nil => cases h
  | cons p m ih =>
    obtain ⟨k', v'⟩ := p
    by_cases hk : k' = k
    · subst hk
      have hv : v' = v := by simpa [Tab.find] using h
      exact ⟨[], m, by rw [hv]; rfl, fun w => by simp [Tab.set]⟩
    · obtain ⟨l, r, hm, hs⟩ := ih (by simpa [Tab.find, hk] using h)
      exact ⟨(k', v') :: l, r, by rw [hm]; rfl, fun w => by simp [Tab.set, hk, hs]⟩

/-- What holds of every entry still does when an entry changes to one of which it holds as well. -/
theorem Tab.forall_set_iff {m : Tab κ α} {k : κ} {v w : α} (h : Tab.find m k = some v) {P : κ × α → Prop}
    (hP : P (k, w) ↔ P (k, v)) :
    (∀ p ∈ Tab.set m k w, P p) ↔ ∀ p ∈ m, P p := by
  obtain ⟨l, r, hm, hs⟩ := Tab.find_split h
  rw [hs, hm]
  simp only [List.forall_mem_append, List.forall_mem_cons, hP]

end

/-! ### Loops that change nothing, or registers only -/

theorem repeatN_fixed {α : Type} {f : α → α} {s : α} (h : f s = s) (n : Nat) : repeatN f n s = s := by
  induction n with
  | zero => rfl
  | succ n ih => rw [repeatN, h, ih]

theorem foldl_fixed_of_mem {α β : Type} {f : β → α → β} {s : β} {l : List α} (h : ∀ a ∈ l, f s a = s) : l.foldl f s = s := by
  induction l with
  | nil => rfl
  | cons a l ih => rw [List.foldl_cons, h a List.mem_cons_self, ih fun b hb => h b (List.mem_cons_of_mem _ hb)]

theorem OnlyRegs.refl (s : State) : OnlyRegs s s := rfl

theorem OnlyRegs.trans {s t u : State} (h : OnlyRegs s t) (h' : OnlyRegs t u) : OnlyRegs s u := by
  unfold OnlyRegs at *
  exact h'.trans (congrArg (fun v : State => { v with regs := u.regs }) h)

theorem OnlyRegs.gdx {s t : State} (h : OnlyRegs s t) : t.gdx = s.gdx := by
  unfold OnlyRegs at h
  rw [h]

theorem OnlyRegs.put {s t : State} (h : OnlyRegs s t) (f : Fld) (v i j : Nat) : OnlyRegs s (t.put f v i j) :=
  h.trans (rfl : t.put f v i j = { t with regs := (t.put f v i j).regs })

theorem OnlyRegs.putAll {s t : State} (h : OnlyRegs s t) (i j : Nat) (l : List (Fld × Nat)) : OnlyRegs s (t.putAll i j l) := by
  induction l generalizing t with
  | nil => exact h
  | cons x xs ih => exact ih (h.put x.1 x.2 i j)

theorem OnlyRegs.foldl {α : Type} {f : State → α → State} (hf : ∀ s a, OnlyRegs s (f s a)) (l : List α) (s : State) :
    OnlyRegs s (l.foldl f s) := by
  induction l generalizing s with
  | nil => exact OnlyRegs.refl s
  | cons a l ih => exact (hf s a).trans (ih _)

theorem RegsBut.comp {s t u : State} {rs rs' : List Reg} (h : RegsBut s t rs) (h' : RegsBut t u rs') : RegsBut s u (rs ++ rs') :=
  (h.mono fun _ => List.mem_append_left _).trans (h'.mono fun _ => List.mem_append_right _)

/-- Nothing but registers and the dispatcher differs. -/
def RegsGdx (s t : State) : Prop := t = { s with regs := t.regs, gdx := t.gdx }

theorem RegsGdx.trans {s t u : State} (h : RegsGdx s t) (h' : RegsGdx t u) : RegsGdx s u := by
  unfold RegsGdx at *
  exact h'.trans (congrArg (fun v : State => { v with regs := u.regs, gdx := u.gdx }) h)

section
variable {s t : State} (h : RegsGdx s t)
include h

theorem RegsGdx.mem : t.mem = s.mem := by unfold RegsGdx at h; rw [h]

theorem RegsGdx.tbu : t.tbu = s.tbu := by unfold RegsGdx at h; rw [h]

theorem RegsGdx.aft : t.aft = s.aft := by unfold RegsGdx at h; rw [h]

theorem RegsGdx.sq : t.sq = s.sq := by unfold RegsGdx at h; rw [h]

theorem RegsGdx.exu : t.exu = s.exu := by unfold RegsGdx at h; rw [h]

theorem RegsGdx.host : t.host = s.host := by unfold RegsGdx at h; rw [h]

end

theorem State.setGdx_regsGdx (s : State) (g : Gdx) : RegsGdx s (s.setGdx g) := rfl

theorem OnlyRegs.regsGdx {s t : State} (h : OnlyRegs s t) : RegsGdx s t := by
  have hg := h.gdx
  unfold OnlyRegs at h
  unfold RegsGdx
  rw [hg]
  exact h

theorem RegsBut.foldl {α : Type} {f : State → α → State} {rs : List Reg} (hf : ∀ s a, RegsBut s (f s a) rs)
    (l : List α) (s : State) :
    RegsBut s (l.foldl f s) rs := by
  induction l generalizing s with
  | nil => exact RegsBut.refl _ _
  | cons a l ih => exact (hf s a).trans (ih _)

/-! ### The end of a cycle (Table 4-16) -/

theorem State.gdxShow_onlyRegs (s : State) : OnlyRegs s s.gdxShow := by
  unfold State.gdxShow
  extract_lets depth t
  have ht : OnlyRegs s t := OnlyRegs.foldl (fun _ _ => ((OnlyRegs.refl _).put _ _ _ _).put _ _ _ _) _ s
  exact ht.putAll _ _ _

theorem State.gdxShow_regsBut (s : State) : RegsBut s s.gdxShow gdxShown := by
  unfold State.gdxShow
  extract_lets depth t
  have ht : RegsBut s t gdxShown := RegsBut.foldl (fun u c => ((RegsBut.refl u _).put _ _ _ _ (by decide)).put _ _ _ _ (by decide)) _ s
  exact ht.putAll _ _ _ (by simp [gdxShown])

theorem State.gdxShow_gdx (s : State) : s.gdxShow.gdx = s.gdx := s.gdxShow_onlyRegs.gdx

theorem State.gdxShow_node (s : State) (n : Nat) : s.gdxShow.node n = s.node n := by
  rw [State.node, State.node, s.gdxShow_gdx]

/-! ### Nothing to take in, release or retire -/

/-- Is a NodeInst completed and its turn come? -/
def State.turnCome (s : State) (p : Nat × NodeInst) : Bool :=
  match p.2.st with
  | .turn => true
  | .completed _ => s.atHead p.2 p.1
  | _ => false

section
variable {s : State}

theorem State.dueRelease_eq_none_iff : s.dueRelease = none ↔ ∀ p ∈ s.gdx.nodes, s.turnCome p = false := by
  have h : s.dueRelease = (s.gdx.nodes.find? s.turnCome).map (·.1) := rfl
  simp [h]

theorem State.retirable_iff {i : Nat} : s.retirable i = true ↔ ∀ p ∈ s.gdx.nodes, p.2.inst = i → p.2.over = true := by
  simp only [State.retirable, State.nodesOf, List.all_eq_true, List.mem_filter, decide_eq_true_eq, and_imp]

theorem State.admitAll_of_off (h : s.flag F.GDX_CTRL_EN = false) : s.admitAll = s := if_neg (by simp [h])

theorem State.releaseAll_of_none (h : s.dueRelease = none) : s.releaseAll = s := repeatN_fixed (by rw [State.releaseOne, h]) _

theorem State.retireAll_of_none (h : ∀ p ∈ s.gdx.insts, s.retirable p.1 = false) : s.retireAll = s :=
  foldl_fixed_of_mem fun p hp => if_neg (by simp [h p hp])

theorem State.gdxSettle_of_still (h : s.GdxStill) : s.gdxSettle = s.gdxShow := by
  obtain ⟨hen, hdue, hret⟩ := h
  rw [State.gdxSettle, State.admitAll_of_off hen, State.releaseAll_of_none hdue, State.retireAll_of_none hret]

/-- Whether the dispatcher has anything to do is a matter of its instances, its flows and EN. -/
theorem State.GdxStill.congr {t : State} (h : s.GdxStill) (hn : t.gdx.nodes = s.gdx.nodes) (hi : t.gdx.insts = s.gdx.insts)
    (hf : t.gdx.flows = s.gdx.flows) (he : t.flag F.GDX_CTRL_EN = s.flag F.GDX_CTRL_EN) : t.GdxStill := by
  unfold State.GdxStill State.dueRelease State.atHead State.retirable State.nodesOf at *
  rw [hn, hi, hf, he]
  exact h

/-- A NodeInst that changes, but for its state, flow and SlotInst, gives the dispatcher nothing to do. -/
theorem State.GdxStill.setNode {n : Nat} {x z : NodeInst} (h : s.GdxStill) (hx : s.node n = some x) (hst : z.st = x.st)
    (hfl : z.flow = x.flow) (hin : z.inst = x.inst) : (s.setNode n z).GdxStill := by
  obtain ⟨hen, hdue, hret⟩ := h
  refine ⟨hen, ?_, fun p hp => ?_⟩
  · rw [State.dueRelease_eq_none_iff] at hdue ⊢
    have ht : s.turnCome (n, z) = s.turnCome (n, x) := by simp only [State.turnCome, State.atHead, hst, hfl]
    exact (Tab.forall_set_iff hx (P := fun p => s.turnCome p = false) (by rw [ht])).2 hdue
  · have ho : z.over = x.over := by simp only [NodeInst.over, hst]
    rw [← hret p hp, Bool.eq_iff_iff, State.retirable_iff, State.retirable_iff]
    exact Tab.forall_set_iff hx (P := fun q => q.2.inst = p.1 → q.2.over = true) (by rw [ho, hin])

end

/-! ### The cycle of an arrival (R139) -/

/-- The cycle in which something arrives: that of a cancel, for which it may come late, or a new one. -/
def State.arrive (s : State) (late : Bool) (hit : CancelledNode → List (Nat × Nat × Nat × Nat) → Option Nat) : State :=
  if late then s.lateToken hit else s.gdxCycle

/-- Nothing but the cycle, the cancels kept for it, and their counter differ. -/
structure Arrived (s t : State) : Prop where
  rest : t = { s with regs := t.regs, gdx := { s.gdx with cycle := t.gdx.cycle, lastCancel := t.gdx.lastCancel } }
  regs : RegsBut s t [.CANCEL_SAME_CYCLE]

theorem State.gdxCycle_arrived (s : State) : Arrived s s.gdxCycle := ⟨rfl, RegsBut.of_regs _ rfl⟩

theorem Arrived.refl (s : State) : Arrived s s := ⟨rfl, RegsBut.refl _ _⟩

/-- A cancel that ended no waiting NodeInst makes nothing late. -/
theorem State.lateToken_arrived {s : State} (h : s.gdx.lastCancel.2 = [])
    (hit : CancelledNode → List (Nat × Nat × Nat × Nat) → Option Nat) : Arrived s (s.lateToken hit) := by
  simp only [State.lateToken, h]
  exact ⟨rfl, ((RegsBut.refl s _).of_eq rfl).put _ _ _ _ (by decide)⟩

theorem State.arrive_arrived {s : State} (h : s.gdx.lastCancel.2 = []) (late : Bool)
    (hit : CancelledNode → List (Nat × Nat × Nat × Nat) → Option Nat) : Arrived s (s.arrive late hit) := by
  cases late with
  | true => exact State.lateToken_arrived h hit
  | false => exact s.gdxCycle_arrived

section
variable {s t : State} (h : Arrived s t)
include h

theorem Arrived.gdx : t.gdx = { s.gdx with cycle := t.gdx.cycle, lastCancel := t.gdx.lastCancel } := congrArg State.gdx h.rest

theorem Arrived.regsGdx : RegsGdx s t := by
  unfold RegsGdx
  rw [h.gdx]
  exact h.rest

theorem Arrived.nodes : t.gdx.nodes = s.gdx.nodes := by rw [h.gdx]

theorem Arrived.insts : t.gdx.insts = s.gdx.insts := by rw [h.gdx]

theorem Arrived.flows : t.gdx.flows = s.gdx.flows := by rw [h.gdx]

theorem Arrived.flag (f : Fld) (hf : f.reg ∉ [Reg.CANCEL_SAME_CYCLE]) (i j : Nat) : t.flag f i j = s.flag f i j := by
  rw [State.flag, State.flag, h.regs.get f hf]

theorem Arrived.still (hs : s.GdxStill) : t.GdxStill :=
  hs.congr h.nodes h.insts h.flows (h.flag _ (by decide) _ _)

end

/-! ### A token fills its port (R108) -/

/-- Input port `port` of NodeInst n, x of SlotInst y, waits for its token and starts no flow with it. -/
structure State.PortOpen (s : State) (n port : Nat) (x : NodeInst) (y : SlotInst) : Prop where
  node : s.node n = some x
  inst : s.inst x.inst = some y
  live : y.cancelled = false
  waits : x.st = .waiting
  inRange : port < x.tokens.length
  isFree : x.tokens.getD port none = none
  noFlow : (y.tpl.node x.node).flowMode ≠ 3

/-- A NodeInst with a token at a port. -/
def NodeInst.fill (x : NodeInst) (port : Nat) (k : Token) : NodeInst := { x with tokens := x.tokens.set port (some k) }

theorem State.PortOpen.congr {s t : State} {n port : Nat} {x : NodeInst} {y : SlotInst} (h : s.PortOpen n port x y)
    (hn : t.gdx.nodes = s.gdx.nodes) (hi : t.gdx.insts = s.gdx.insts) : t.PortOpen n port x y :=
  { h with
    node := by rw [State.node, hn]; exact h.node
    inst := by rw [State.inst, hi]; exact h.inst }

/-- NodeInst n is z from now on; beside it only the registers of the dispatcher's live counts differ. -/
structure NodeBecomes (s t : State) (n : Nat) (z : NodeInst) : Prop where
  node : t.node n = some z
  others : ∀ m, m ≠ n → t.node m = s.node m
  regs : RegsBut s t gdxShown
  gdx : t.gdx = { s.gdx with nodes := t.gdx.nodes }
  rest : RegsGdx s t

theorem State.setNode_show_becomes (s : State) (n : Nat) (z : NodeInst) : NodeBecomes s (s.setNode n z).gdxShow n z where
  node := (State.gdxShow_node _ n).trans (Tab.find_set_self _ _ _)
  others := fun m hm => (State.gdxShow_node _ m).trans (Tab.find_set_ne _ hm _)
  regs := (RegsBut.of_regs _ rfl : RegsBut s (s.setNode n z) gdxShown).trans (State.gdxShow_regsBut _)
  gdx := by rw [State.gdxShow_gdx]; rfl
  rest := (s.setGdx_regsGdx _).trans (State.gdxShow_onlyRegs _).regsGdx

section
variable {s : State} {n port : Nat} {x : NodeInst} {y : SlotInst} (h : s.PortOpen n port x y) (k : Token)
include h

omit k in
theorem State.PortOpen.over : x.over = false := by simp only [NodeInst.over, h.waits]

theorem State.tokenAt_of_open : s.tokenAt n port k = s.setNode n (x.fill port k) := by
  have ho := h.over
  have hp : ¬ x.tokens.length ≤ port := Nat.not_le.2 h.inRange
  have hf : ¬ ((y.tpl.node x.node).flowMode = 3 ∧ port = 0) := fun hf => h.noFlow hf.1
  simp only [State.tokenAt, h.node, h.inst, h.live, h.isFree, ho, if_neg hp, if_neg hf, Option.isSome_none, Bool.false_eq_true, if_false]
  rfl

/-- Where nothing else is to be done, a token fills its port and the cycle ends. -/
theorem State.tokenAt_settles (hs : s.GdxStill) : NodeBecomes s (s.tokenAt n port k).gdxSettle n (x.fill port k) := by
  rw [State.tokenAt_of_open h, State.gdxSettle_of_still (hs.setNode (z := x.fill port k) h.node rfl rfl rfl)]
  exact s.setNode_show_becomes n _

/-- The token of the one port that lacks it completes the inputs. -/
theorem NodeInst.missing_fill (hm : x.missing = [port]) : (x.fill port k).missing = [] := by
  simp only [NodeInst.missing, NodeInst.fill, List.length_set, List.filter_eq_nil_iff, List.mem_range]
  intro p hp hnone
  by_cases hpp : p = port
  · subst hpp
    simp [List.getD_eq_getElem?_getD, hp] at hnone
  · refine hpp (List.mem_singleton.1 (hm ▸ List.mem_filter.2 ⟨List.mem_range.2 hp, ?_⟩))
    simpa [List.getD_eq_getElem?_getD, List.getElem?_set_ne (Ne.symm hpp)] using hnone

end

/-! ### Admission of one NodeInst (R125) -/

/-- A NodeInst that became ready in a cycle and tick. -/
def NodeInst.readyAt (x : NodeInst) (cycle tick : Nat) : NodeInst := { x with st := .ready, readyCycle := cycle, readyTick := tick }

/-- Credit pool p, with nobody waiting, has paid a debit. -/
def State.debited (s : State) (p debit : Nat) : State := s.setPool p ⟨(s.pool p).bal - debit, []⟩

section
variable {s : State} {n : Nat} {z : NodeInst} {y : SlotInst}

theorem State.asking_of_single (hn : s.gdx.nodes = [(n, z)]) (hst : z.st = .waiting) (hm : z.missing = [])
    (hl : (s.recOf z).level < 8) : s.asking = [n] := by
  have ha : ∀ lv, ascending (([(n, z)].filter (fun p => (s.recOf p.2).level = lv)).map (·.1)) =
      if (s.recOf z).level = lv then [n] else [] := by
    intro lv
    by_cases h : (s.recOf z).level = lv
    · simp [h, ascending, ascInsert]
    · simp [h, ascending]
  have hf : s.gdx.nodes.filter (fun p => p.2.st = .waiting && p.2.missing = []) = [(n, z)] := by simp [hn, hst, hm]
  simp only [State.asking, hf, ha]
  generalize (s.recOf z).level = l at hl
  interval_cases l <;> rfl

/-- A NodeInst becomes ready, and the pool pays for it, where nobody waits and the balance covers the debit. -/
theorem State.askAdmission_of_fits {p : Nat} (hz : s.node n = some z) (hy : s.inst z.inst = some y)
    (hp : y.tpl.poolOf (y.tpl.node z.node).level = p) (hw : (s.pool p).wait = []) (hb : (y.tpl.node z.node).debit ≤ (s.pool p).bal) :
    s.askAdmission n = (s.debited p (y.tpl.node z.node).debit).setNode n (z.readyAt s.gdx.cycle s.tbu.ticks) := by
  have hz' : ∀ q, (s.setPool p q).node n = some z := fun _ => hz
  simp only [State.askAdmission, hz, hy, hp, hw, hb, and_self, if_true, State.makeReady, State.upNode, hz']
  rfl

end

end Sys2Proof.Machine
end

