-- ==== Sys2Proof/Proofs/TokenArrivals.lean ====
section
/-!
SUPPORT. Sys2Proof/Proofs/TokenArrivals.lean: the oldest token on its way arrives (R23, R108, R122, R125): the clauses of O22 on
TOKEN_ARRIVAL.
-/
namespace Sys2Proof.Machine

/-- The tokens fs are on their way. -/
def State.setInflight (s : State) (fs : List InFlight) : State := s.setGdx { s.gdx with inflight := fs }

/-- The dispatcher as the oldest token on its way, f, arrives, with fs behind it. -/
def State.tokenArrives (s : State) (b : Bool) (f : InFlight) (fs : List InFlight) : State :=
  (s.setInflight fs).arrive (s.inCancelCycle b)
    (fun c m => if c.id = f.node then (m.find? (fun q => q.1 = f.port)).map (·.1) else none)

section
variable {s : State} {b : Bool} {f : InFlight} {fs : List InFlight}

theorem exec_tokenArrival (h : s.gdx.inflight = f :: fs) :
    exec (.tokenArrival b) s = .next (if f.stale then (s.tokenArrives b f fs).tokenStale f.token
      else (s.tokenArrives b f fs).tokenAt f.node f.port f.token).gdxSettle := by
  show execTokenArrival b s = _
  unfold execTokenArrival
  rw [h]
  rfl

theorem State.tokenArrives_arrived (h : s.gdx.lastCancel.2 = []) :
    Arrived (s.setInflight fs) (s.tokenArrives b f fs) :=
  State.arrive_arrived (s := s.setInflight fs) h _ _

/-- A token that lies in no buffer of the dispatcher and stands for no item has nothing to free (R109). -/
theorem State.tokenFree_of_no_buffer {k : Token} (he : k.ext = .none) (hp : 62 ≤ k.pool) : s.tokenFree k = s := by
  have hp : ¬ k.pool < 62 := Nat.not_lt.2 hp
  simp only [State.tokenFree, he, if_neg hp, ite_self]

end

/-! ### The token that completes the only NodeInst -/

section
variable {n port : Nat} {k : Token} {x z : NodeInst} {y : SlotInst} {s : State}

theorem State.setNode_nodes_of_single (h : s.gdx.nodes = [(n, x)]) : (s.setNode n z).gdx.nodes = [(n, z)] := by
  show Tab.set s.gdx.nodes n z = _
  simp [h, Tab.set]

/-- With one NodeInst, which is ready, nothing is released and its SlotInst goes on. -/
theorem State.releaseAll_retireAll_of_ready (hn : s.gdx.nodes = [(n, z)]) (hi : s.gdx.insts = [(z.inst, y)]) (hz : z.st = .ready) :
    s.releaseAll.retireAll = s := by
  rw [State.releaseAll_of_none, State.retireAll_of_none]
  · intro q hq
    have hq : q = (z.inst, y) := List.mem_singleton.1 (hi ▸ hq)
    rw [Bool.eq_false_iff, Ne, State.retirable_iff, hn, hq]
    exact fun h => absurd (h _ (List.mem_singleton.2 rfl) rfl) (by simp [NodeInst.over, hz])
  · rw [State.dueRelease_eq_none_iff, hn]
    intro q hq
    rw [List.mem_singleton.1 hq]
    simp [State.turnCome, hz]

/-- The only NodeInst becomes ready with its last token, where its pool pays at once (R125). -/
theorem State.tokenAt_readies {p : Nat} (ho : s.PortOpen n port x y) (hen : s.flag F.GDX_CTRL_EN = true) (hn : s.gdx.nodes = [(n, x)])
    (hi : s.gdx.insts = [(x.inst, y)]) (hm : x.missing = [port]) (hl : (y.tpl.node x.node).level < 8)
    (hp : y.tpl.poolOf (y.tpl.node x.node).level = p) (hw : (s.pool p).wait = []) (hb : (y.tpl.node x.node).debit ≤ (s.pool p).bal) :
    (s.tokenAt n port k).gdxSettle = (((s.setNode n (x.fill port k)).debited p (y.tpl.node x.node).debit).setNode n
      ((x.fill port k).readyAt s.gdx.cycle s.tbu.ticks)).gdxShow := by
  have hfill : (s.setNode n (x.fill port k)).gdx.nodes = [(n, x.fill port k)] := State.setNode_nodes_of_single hn
  have hnode : (s.setNode n (x.fill port k)).node n = some (x.fill port k) := Tab.find_set_self _ _ _
  have hinst : (s.setNode n (x.fill port k)).inst (x.fill port k).inst = some y := ho.inst
  have hrec : (s.setNode n (x.fill port k)).recOf (x.fill port k) = y.tpl.node x.node := by
    simp only [State.recOf, hinst]
    rfl
  have hask : (s.setNode n (x.fill port k)).asking = [n] :=
    State.asking_of_single hfill ho.waits (NodeInst.missing_fill ho k hm) (by rw [hrec]; exact hl)
  have hadm : (s.setNode n (x.fill port k)).admitAll = (s.setNode n (x.fill port k)).askAdmission n := by
    rw [State.admitAll, if_pos (by exact hen), hask]
    rfl
  have hpaid : ((s.setNode n (x.fill port k)).debited p (y.tpl.node x.node).debit).gdx.nodes = [(n, x.fill port k)] := hfill
  rw [State.tokenAt_of_open ho, State.gdxSettle, hadm, State.askAdmission_of_fits hnode hinst hp hw hb]
  exact congrArg State.gdxShow (State.releaseAll_retireAll_of_ready (State.setNode_nodes_of_single hpaid) hi rfl)

end

/-! ### The clauses of O22 on TOKEN_ARRIVAL -/

section
variable {b : Bool} {n port : Nat} {k : Token} {fs : List InFlight} {x : NodeInst} {y : SlotInst} {s : State}
variable (hf : s.gdx.inflight = ⟨n, port, k, false⟩ :: fs) (ho : s.PortOpen n port x y) (hc : s.gdx.lastCancel.2 = [])
include hf ho hc

theorem tokenArrival_fills (hs : s.GdxStill) :
    Completes (.tokenArrival b) s (fun t => t.node n = some (x.fill port k) ∧
      (∀ m, m ≠ n → t.node m = s.node m) ∧ t.gdx.inflight = fs ∧ t.gdx.pools = s.gdx.pools ∧
      RegsBut s t (.CANCEL_SAME_CYCLE :: gdxShown) ∧ t = { s with regs := t.regs, gdx := t.gdx }) := by
  have ha := State.tokenArrives_arrived (b := b) (f := ⟨n, port, k, false⟩) (fs := fs) hc
  have ht := State.tokenAt_settles (ho.congr ha.nodes ha.insts) k (ha.still (hs.congr rfl rfl rfl rfl))
  refine ⟨_, exec_tokenArrival hf, ?_⟩
  rw [if_neg Bool.false_ne_true]
  refine ⟨ht.node, fun m hm => ?_, ?_, ?_, ?_, (s.setGdx_regsGdx _).trans (ha.regsGdx.trans ht.rest)⟩
  · rw [ht.others m hm, State.node, ha.nodes]
    rfl
  · rw [ht.gdx, ha.gdx]
    rfl
  · rw [ht.gdx, ha.gdx]
    rfl
  · exact ha.regs.comp ht.regs

theorem tokenArrival_readies {p : Nat} (hen : s.flag F.GDX_CTRL_EN = true) (hn : s.gdx.nodes = [(n, x)])
    (hi : s.gdx.insts = [(x.inst, y)]) (hm : x.missing = [port]) (hl : (y.tpl.node x.node).level < 8)
    (hp : y.tpl.poolOf (y.tpl.node x.node).level = p) (hw : (s.pool p).wait = []) (hb : (y.tpl.node x.node).debit ≤ (s.pool p).bal) :
    Completes (.tokenArrival b) s (fun t => t.node n = some ((x.fill port k).readyAt t.gdx.cycle s.tbu.ticks) ∧
      t.pool p = ⟨(s.pool p).bal - (y.tpl.node x.node).debit, []⟩ ∧ (∀ q, q ≠ p → t.pool q = s.pool q) ∧
      RegsBut s t (.CANCEL_SAME_CYCLE :: gdxShown) ∧ t = { s with regs := t.regs, gdx := t.gdx }) := by
  have ha := State.tokenArrives_arrived (b := b) (f := ⟨n, port, k, false⟩) (fs := fs) hc
  generalize hu : s.tokenArrives b ⟨n, port, k, false⟩ fs = u at ha
  have hpool : ∀ q, u.pool q = s.pool q := fun q => by rw [State.pool, ha.gdx]; rfl
  have hticks : u.tbu = s.tbu := ha.regsGdx.tbu
  refine ⟨_, exec_tokenArrival hf, ?_⟩
  rw [if_neg Bool.false_ne_true, hu, State.tokenAt_readies (ho.congr ha.nodes ha.insts)
    ((ha.flag _ (by decide) _ _).trans hen) (ha.nodes.trans hn) (ha.insts.trans hi) hm hl hp (by rw [hpool, hw]) (by rw [hpool]; exact hb)]
  generalize hv : ((u.setNode n (x.fill port k)).debited p (y.tpl.node x.node).debit).setNode n
    ((x.fill port k).readyAt u.gdx.cycle u.tbu.ticks) = v
  have hvp : v.pool p = ⟨(u.pool p).bal - (y.tpl.node x.node).debit, []⟩ := by rw [← hv]; exact Tab.get_set_self _ _ _ _
  have hvq : ∀ q, q ≠ p → v.pool q = u.pool q := fun q hq => by rw [← hv]; exact Tab.get_set_ne _ _ hq _
  have huv : RegsGdx u v ∧ v.regs = u.regs := by rw [← hv]; exact ⟨rfl, rfl⟩
  have hshow : ∀ q, v.gdxShow.pool q = v.pool q := fun q => by rw [State.pool, State.gdxShow_gdx]; rfl
  refine ⟨?_, ?_, fun q hq => ?_, ?_, ?_⟩
  · rw [State.gdxShow_node, State.gdxShow_gdx, ← hv, hticks]
    exact Tab.find_set_self _ _ _
  · rw [hshow, hvp, hpool]
  · rw [hshow, hvq q hq, hpool]
  · exact ha.regs.comp ((RegsBut.of_regs _ huv.2).trans v.gdxShow_regsBut)
  · exact (s.setGdx_regsGdx _).trans (ha.regsGdx.trans (huv.1.trans v.gdxShow_onlyRegs.regsGdx))

omit hf ho in
theorem tokenArrival_stale {f : InFlight} (hf : s.gdx.inflight = f :: fs) (hst : f.stale = true) (he : f.token.ext = .none)
    (hp : 62 ≤ f.token.pool) (hs : s.GdxStill) :
    Completes (.tokenArrival b) s (fun t => t.gdx.nodes = s.gdx.nodes ∧ t.gdx.inflight = fs ∧
      t.get F.STALE_INPUT_COUNT = min (2 ^ 32 - 1) (s.get F.STALE_INPUT_COUNT + 1) ∧
      RegsBut s t (.CANCEL_SAME_CYCLE :: .STALE_INPUT :: gdxShown) ∧ t = { s with regs := t.regs, gdx := t.gdx }) := by
  have ha := State.tokenArrives_arrived (b := b) (f := f) (fs := fs) hc
  generalize hu : s.tokenArrives b f fs = u at ha
  have hstale : u.tokenStale f.token = u.count F.STALE_INPUT_COUNT := State.tokenFree_of_no_buffer he hp
  have hcount : RegsBut u (u.count F.STALE_INPUT_COUNT) [.STALE_INPUT] := (RegsBut.refl u _).put _ _ _ _ (by decide)
  have hstill : (u.count F.STALE_INPUT_COUNT).GdxStill :=
    (ha.still (hs.congr rfl rfl rfl rfl)).congr rfl rfl rfl (by rw [State.flag, State.flag, hcount.get _ (by decide)])
  refine ⟨_, exec_tokenArrival hf, ?_⟩
  rw [if_pos hst, hu, hstale, State.gdxSettle_of_still hstill]
  generalize hv : u.count F.STALE_INPUT_COUNT = v at hcount
  have huv : RegsGdx u v ∧ v.gdx = u.gdx := by rw [← hv]; exact ⟨rfl, rfl⟩
  refine ⟨?_, ?_, ?_, ?_, (s.setGdx_regsGdx _).trans (ha.regsGdx.trans (huv.1.trans v.gdxShow_onlyRegs.regsGdx))⟩
  · rw [State.gdxShow_gdx, huv.2, ha.nodes]
    rfl
  · rw [State.gdxShow_gdx, huv.2, ha.gdx]
    rfl
  · rw [v.gdxShow_regsBut.get _ (by decide), ← hv, State.get_count_self _ _ _ _ _ (by decide), ha.regs.get _ (by decide)]
    rfl
  · exact ha.regs.comp (hcount.comp v.gdxShow_regsBut)

end

end Sys2Proof.Machine
end

