-- ==== Sys2Proof/Proofs/StreamItems.lean ====
section
/-!
SUPPORT. Sys2Proof/Proofs/StreamItems.lean: what a stream queue changes beside itself as its consumer takes and frees items (R318 to
R330), the item at the head of a queue or ring that goes to its node (R118), and from these O22.
-/
namespace Sys2Proof.Machine

/-! ### A queue shows its level and watermarks (R328 to R330) -/

/-- The registers that follow the level and credits of a queue. -/
def queueRegs : List Reg := [.SQ_Q_LEVEL, .SQ_Q_CREDITS, .SQ_Q_STATUS, .SQ_XOFF_OUT_STATE, .NET_PFC_TX]

/-- A queue is shown: its items, memory and the units that consume it are the same. -/
structure QueueShown (s t : State) : Prop where
  queues : t.sq.queues = s.sq.queues
  mem : t.mem = s.mem
  gdx : t.gdx = s.gdx
  aft : t.aft = s.aft
  tbu : t.tbu = s.tbu
  exu : t.exu = s.exu
  regs : RegsBut s t queueRegs

theorem QueueShown.refl (s : State) : QueueShown s s := ⟨rfl, rfl, rfl, rfl, rfl, rfl, RegsBut.refl _ _⟩

theorem QueueShown.trans {s t u : State} (h : QueueShown s t) (h' : QueueShown t u) : QueueShown s u :=
  ⟨h'.queues.trans h.queues, h'.mem.trans h.mem, h'.gdx.trans h.gdx, h'.aft.trans h.aft, h'.tbu.trans h.tbu, h'.exu.trans h.exu,
    h.regs.trans h'.regs⟩

theorem QueueShown.put {s t : State} (h : QueueShown s t) (f : Fld) (v i j : Nat) (hf : f.reg ∈ queueRegs) :
    QueueShown s (t.put f v i j) :=
  { h with regs := h.regs.put f v i j hf }

theorem QueueShown.send {s t : State} (h : QueueShown s t) (o : Out) : QueueShown s (t.send o) :=
  { h with regs := h.regs.of_eq rfl }

/-- The ports and priorities whose OR of XOFF_STATE is set (R330). -/
def State.setPfcOr (s : State) (l : List (Nat × Nat)) : State := { s with sq := { s.sq with pfcOr := l } }

theorem QueueShown.setPfcOr {s t : State} (h : QueueShown s t) (l : List (Nat × Nat)) : QueueShown s (t.setPfcOr l) :=
  { h with regs := h.regs.of_eq rfl }

theorem QueueShown.pfcSend {s t : State} (h : QueueShown s t) (port prio time : Nat) : QueueShown s (t.pfcSend port prio time) := by
  unfold State.pfcSend
  split
  · exact h
  · exact (h.send _).put _ _ _ _ (by decide)

theorem State.xoffShow_shown (s : State) (e : QueueEntry) : QueueShown s (s.xoffShow e) := by
  unfold State.xoffShow
  extract_lets pin old t u pfc was
  have ht : QueueShown s t := (QueueShown.refl s).put _ _ _ _ (by decide)
  have hu : QueueShown s u := by
    unfold u
    split
    · exact QueueShown.refl s
    · split
      · exact ht
      · exact ht.send _
  split
  · exact hu
  · split
    · exact (hu.setPfcOr _).pfcSend _ _ _
    · exact (hu.setPfcOr _).pfcSend _ _ _

theorem State.queueLevel_shown (s : State) (q : Nat) : QueueShown s (s.queueLevel q) := by
  unfold State.queueLevel
  split
  · exact QueueShown.refl s
  · extract_lets level t u on v
    have hu : QueueShown s u :=
      (((QueueShown.refl s).put _ _ _ _ (by decide)).put _ _ _ _ (by decide)).put _ _ _ _ (by decide)
    have hv : QueueShown s v := by
      unfold v
      split
      · exact (hu.put _ _ _ _ (by decide)).put _ _ _ _ (by decide)
      · split
        · exact (hu.put _ _ _ _ (by decide)).put _ _ _ _ (by decide)
        · exact hu
    exact hv.trans (State.xoffShow_shown _ _)

/-! ### An item is freed (R319, R320, R326) -/

/-- Items are freed: the node and slot instances of the dispatcher, its flows and the units are the same. -/
structure ItemsFreed (s t : State) : Prop where
  nodes : t.gdx.nodes = s.gdx.nodes
  insts : t.gdx.insts = s.gdx.insts
  flows : t.gdx.flows = s.gdx.flows
  aft : t.aft = s.aft
  tbu : t.tbu = s.tbu
  exu : t.exu = s.exu
  regs : RegsBut s t queueRegs

theorem ItemsFreed.refl (s : State) : ItemsFreed s s := ⟨rfl, rfl, rfl, rfl, rfl, rfl, RegsBut.refl _ _⟩

theorem ItemsFreed.trans {s t u : State} (h : ItemsFreed s t) (h' : ItemsFreed t u) : ItemsFreed s u :=
  ⟨h'.nodes.trans h.nodes, h'.insts.trans h.insts, h'.flows.trans h.flows, h'.aft.trans h.aft, h'.tbu.trans h.tbu, h'.exu.trans h.exu,
    h.regs.trans h'.regs⟩

theorem QueueShown.freed {s t : State} (h : QueueShown s t) : ItemsFreed s t :=
  ⟨by rw [h.gdx], by rw [h.gdx], by rw [h.gdx], h.aft, h.tbu, h.exu, h.regs⟩

theorem State.setQueue_freed (s : State) (q : Nat) (x : Queue) : ItemsFreed s (s.setQueue q x) :=
  ⟨rfl, rfl, rfl, rfl, rfl, rfl, RegsBut.of_regs _ rfl⟩

theorem State.setBufRefs_freed (s : State) (l : Tab (Nat × Nat) Nat) : ItemsFreed s (s.setGdx { s.gdx with bufRefs := l }) :=
  ⟨rfl, rfl, rfl, rfl, rfl, rfl, RegsBut.of_regs _ rfl⟩

theorem State.bufReturn_freed (s : State) (p a : Nat) : ItemsFreed s (s.bufReturn p a) := by
  unfold State.bufReturn
  split
  · exact ⟨rfl, rfl, rfl, rfl, rfl, rfl, RegsBut.of_regs _ rfl⟩
  · exact ItemsFreed.refl s

theorem State.bufUnref_freed (s : State) (p a : Nat) : ItemsFreed s (s.bufUnref p a) := by
  unfold State.bufUnref
  extract_lets n
  split
  · exact (s.setBufRefs_freed _).trans (State.bufReturn_freed _ p a)
  · exact s.setBufRefs_freed _

theorem State.itemRelease_freed (s : State) (i : QItem) : ItemsFreed s (s.itemRelease i) := by
  unfold State.itemRelease
  split
  · exact ItemsFreed.refl s
  · exact s.bufUnref_freed _ _

theorem State.queueFree_freed (s : State) (q place : Nat) : ItemsFreed s (s.queueFree q place) := by
  unfold State.queueFree
  split
  · exact ItemsFreed.refl s
  split
  · exact ItemsFreed.refl s
  · extract_lets items credit
    split
    extract_lets t u
    have ht : ItemsFreed s t := s.setQueue_freed _ _
    have hu : ItemsFreed s u := by
      unfold u
      split
      · exact { ht with regs := ht.regs.put _ _ _ _ (by decide) }
      · exact ht
    exact hu.trans ((u.itemRelease_freed _).trans (State.queueLevel_shown _ q).freed)

/-! ### The consumer takes an item (R318) -/

/-- A queue whose item at a place the consumer holds. -/
def Queue.hold (x : Queue) (place : Nat) : Queue :=
  { x with items := x.items.map (fun j => if j.place = place ∧ ¬ j.freed then { j with held := true } else j) }

theorem State.queueHold_of_queue {s : State} {q place : Nat} {x : Queue} (h : s.queue q = some x) :
    s.queueHold q place = (s.setQueue q (x.hold place)).queueLevel q := by
  rw [State.queueHold, h]
  rfl

theorem State.queueHold_queue {s : State} {q place : Nat} {x : Queue} (h : s.queue q = some x) :
    (s.queueHold q place).queue q = some (x.hold place) := by
  rw [State.queueHold_of_queue h, State.queue, (State.queueLevel_shown _ q).queues]
  exact Tab.find_set_self _ _ _

/-- A ring whose item at an index GDX has taken. -/
def Ring.take (x : Ring) (idx : Nat) : Ring :=
  { x with items := x.items.map (fun j => if j.index = idx then { j with taken := true } else j) }

theorem State.ringTake_of_ring {s : State} {r idx : Nat} {x : Ring} (h : s.ring r = some x) :
    s.ringTake r idx = s.setRing r (x.take idx) := by
  rw [State.ringTake, h]
  rfl

/-! ### Which node an item goes to (R118) -/

section
variable {s : State} {g : Template} {tl w kind id sym k n p : Nat} {y : SlotInst}

theorem State.itemFate_of_port (hk : s.instOf g.id tl w = some k) (hy : s.inst k = some y) (hc : y.cancelled = false)
    (hp : s.itemPort k y kind id sym = some (n, p)) : s.itemFate g tl w kind id sym = .token n p := by
  simp only [State.itemFate, hk, hy, hc, hp, Bool.false_eq_true, if_false]

theorem Arrived.itemFate {t : State} (h : Arrived s t) : t.itemFate g tl w kind id sym = s.itemFate g tl w kind id sym := by
  rw [h.rest]
  rfl

/-- The token of an item of a queue. -/
def QItem.token (i : QItem) (q : Nat) : Token := ⟨i.addr, i.pool, false, i.length, i.flowTag, i.user, .queue q i.place⟩

/-- The token of an item of a ring (Table 14-12). -/
def RingItem.token (i : RingItem) (r : Nat) : Token :=
  ⟨i.addr, 63, false, i.words.getD 3 0, natBits (i.words.getD 7 0) 0 14, natBits (i.words.getD 7 0) 16 16, .ring r i.index⟩

variable {late : Bool} {q : Nat} {x : Queue} {i : QItem} {b0 b1 : Nat}

/-- The item at the head of a bound queue goes to the node and port that its identity selects. -/
theorem State.takeQueue_of_token (hx : s.queue q = some x) (hi : s.queueHead q = some i) (hc : x.ent.consumer = 0) (hg : i.gap = false)
    (hl : s.gdx.lastCancel.2 = []) (hb : s.boundTpl 0 q = some (g, b0, b1))
    (hfate : s.itemFate g x.ent.tl i.slot 0 q i.symbol = .token n p) :
    ∃ t, Arrived s t ∧ (if late then s else s.gdxCycle).takeQueue q late = (t.queueHold q i.place).tokenAt n p (i.token q) := by
  cases late with
  | false =>
    refine ⟨s.gdxCycle, s.gdxCycle_arrived, ?_⟩
    have hx : s.gdxCycle.queue q = some x := hx
    have hi : s.gdxCycle.queueHead q = some i := hi
    have hb : s.gdxCycle.boundTpl 0 q = some (g, b0, b1) := hb
    simp only [Bool.false_eq_true, if_false, State.takeQueue, hx, hi, hc, hg, hb, s.gdxCycle_arrived.itemFate, hfate, ne_eq,
      not_true_eq_false]
    rfl
  | true =>
    have ha := State.lateToken_arrived hl (lateItem g.id x.ent.tl i.slot 0 q i.symbol)
    refine ⟨_, ha, ?_⟩
    simp only [if_true, State.takeQueue, hx, hi, hc, hg, hb, ha.itemFate, hfate, ne_eq, not_true_eq_false, Bool.false_eq_true, if_false]
    rfl

/-- The item at the head of a queue that no template binds is stale (R118). -/
theorem State.takeQueue_of_unbound (hx : s.queue q = some x) (hi : s.queueHead q = some i) (hc : x.ent.consumer = 0) (hg : i.gap = false)
    (hb : s.boundTpl 0 q = none) : s.takeQueue q late = (s.count F.STALE_INPUT_COUNT).queueFree q i.place := by
  simp only [State.takeQueue, hx, hi, hc, hg, hb, ne_eq, not_true_eq_false, Bool.false_eq_true, if_false]

end

section
variable {s : State} {g : Template} {k n p : Nat} {y : SlotInst} {late : Bool} {r : Nat} {x : Ring} {i : RingItem} {b0 b1 : Nat}
  {z : NodeInst}

/-- The item at the head of a bound ring that creates nothing goes to the node and port that its identity selects. -/
theorem State.takeRing_of_token (hx : s.ring r = some x) (hi : x.head = some i) (hb : s.boundTpl 1 r = some (g, b0, b1))
    (hcr : b0.testBit 3 = false) (hl : s.gdx.lastCancel.2 = []) (hz : s.node n = some z) (ho : z.over = false)
    (hfate : s.itemFate g x.tl (i.words.getD 1 0) 1 r (natBits (i.words.getD 2 0) 0 5) = .token n p) :
    ∃ t, Arrived s t ∧ (if late then s else s.gdxCycle).takeRing r late = (t.ringTake r i.index).tokenAt n p (i.token r) := by
  have hn : ∀ {t : State}, Arrived s t → (t.ringTake r i.index).node n = some z := fun {t} ha => by
    have ht : t.ring r = some x := by rw [ha.rest]; exact hx
    rw [State.ringTake_of_ring ht, ← hz, State.node, State.node, ← ha.nodes]
    rfl
  cases late with
  | false =>
    refine ⟨s.gdxCycle, s.gdxCycle_arrived, ?_⟩
    have hx : s.gdxCycle.ring r = some x := hx
    have hb : s.gdxCycle.boundTpl 1 r = some (g, b0, b1) := hb
    simp only [Bool.false_eq_true, if_false, State.takeRing, hx, hi, hb, hcr, false_and, s.gdxCycle_arrived.itemFate, hfate,
      hn s.gdxCycle_arrived, ho]
    rfl
  | true =>
    have ha := State.lateToken_arrived hl (lateItem g.id x.tl (i.words.getD 1 0) 1 r (natBits (i.words.getD 2 0) 0 5))
    refine ⟨_, ha, ?_⟩
    simp only [if_true, State.takeRing, hx, hi, hb, hcr, false_and, ha.itemFate, hfate, hn ha, ho, Bool.false_eq_true, if_false]
    rfl

end

/-! ### The clauses of O22 on STREAM_ITEM_TAKE -/

section
variable {b : Bool} {q : BitVec 10} {x : Queue} {i : QItem} {g : Template} {b0 b1 k n p : Nat} {y : SlotInst} {z : NodeInst} {s : State}

theorem exec_streamItemTake_queue (q : BitVec 10) (b : Bool) (s : State) :
    exec (.streamItemTake (.queue q) b) s =
      .next ((if s.inCancelCycle b then s else s.gdxCycle).takeQueue q.toNat (s.inCancelCycle b)).gdxSettle := rfl

theorem streamItemTake_queue (hx : s.queue q.toNat = some x) (hi : s.queueHead q.toNat = some i) (hc : x.ent.consumer = 0)
    (hg : i.gap = false) (hl : s.gdx.lastCancel.2 = []) (hs : s.GdxStill) (hb : s.boundTpl 0 q.toNat = some (g, b0, b1))
    (hfate : s.itemFate g x.ent.tl i.slot 0 q.toNat i.symbol = .token n p) (ho : s.PortOpen n p z y) :
    Completes (.streamItemTake (.queue q) b) s (fun t => t.node n = some (z.fill p (i.token q.toNat)) ∧
      t.queue q.toNat = some (x.hold i.place) ∧ (∀ m, m ≠ n → t.node m = s.node m) ∧ SameMem s t ∧ t.aft = s.aft ∧ t.tbu = s.tbu ∧
      t.exu = s.exu) := by
  obtain ⟨t, ha, ht⟩ := State.takeQueue_of_token (late := s.inCancelCycle b) hx hi hc hg hl hb hfate
  have hq : t.queue q.toNat = some x := by rw [ha.rest]; exact hx
  have hshown := State.queueLevel_shown (t.setQueue q.toNat (x.hold i.place)) q.toNat
  have hqueue := State.queueHold_queue (place := i.place) hq
  rw [State.queueHold_of_queue hq] at ht hqueue
  generalize (t.setQueue q.toNat (x.hold i.place)).queueLevel q.toNat = u at ht hshown hqueue
  have hnodes : u.gdx.nodes = s.gdx.nodes := by rw [hshown.gdx]; exact ha.nodes
  have hinsts : u.gdx.insts = s.gdx.insts := by rw [hshown.gdx]; exact ha.insts
  have hstill : u.GdxStill := (ha.still hs).congr (by rw [hshown.gdx]; rfl) (by rw [hshown.gdx]; rfl) (by rw [hshown.gdx]; rfl)
    (by rw [State.flag, hshown.regs.get _ (by decide)]; rfl)
  have hr := State.tokenAt_settles (ho.congr hnodes hinsts) (i.token q.toNat) hstill
  have ha := ha.regsGdx
  refine ⟨_, by rw [exec_streamItemTake_queue, ht], hr.node, ?_, fun m hm => ?_, SameMem.of_mem ?_, ?_, ?_, ?_⟩
  · rw [← hqueue, State.queue, State.queue, hr.rest.sq]
  · rw [hr.others m hm, State.node, hnodes]
    rfl
  · exact hr.rest.mem.trans (hshown.mem.trans ha.mem)
  · exact hr.rest.aft.trans (hshown.aft.trans ha.aft)
  · exact hr.rest.tbu.trans (hshown.tbu.trans ha.tbu)
  · exact hr.rest.exu.trans (hshown.exu.trans ha.exu)

theorem streamItemTake_unbound (hx : s.queue q.toNat = some x) (hi : s.queueHead q.toNat = some i) (hc : x.ent.consumer = 0)
    (hg : i.gap = false) (hs : s.GdxStill) (hb : s.boundTpl 0 q.toNat = none) :
    Completes (.streamItemTake (.queue q) b) s (fun t => t.gdx.nodes = s.gdx.nodes ∧ t.aft = s.aft ∧ t.tbu = s.tbu ∧ t.exu = s.exu ∧
      t.get F.STALE_INPUT_COUNT = min (2 ^ 32 - 1) (s.get F.STALE_INPUT_COUNT + 1)) := by
  obtain ⟨t, ha, ht⟩ : ∃ t, Arrived s t ∧ (if s.inCancelCycle b then s else s.gdxCycle) = t := ⟨_, by
    split
    · exact Arrived.refl s
    · exact s.gdxCycle_arrived, rfl⟩
  have hx : t.queue q.toNat = some x := by rw [ha.rest]; exact hx
  have hi : t.queueHead q.toNat = some i := by
    rw [← hi, State.queueHead, State.queueHead, ha.flag _ (by decide), State.queue, State.queue, ha.regsGdx.sq]
  have hb : t.boundTpl 0 q.toNat = none := by rw [ha.rest]; exact hb
  have hcount : RegsBut t (t.count F.STALE_INPUT_COUNT) [.STALE_INPUT] := (RegsBut.refl t _).put _ _ _ _ (by decide)
  have hstale : (t.count F.STALE_INPUT_COUNT).get F.STALE_INPUT_COUNT = min (2 ^ 32 - 1) (t.get F.STALE_INPUT_COUNT + 1) :=
    State.get_count_self _ _ _ _ _ (by decide)
  have hfree := State.queueFree_freed (t.count F.STALE_INPUT_COUNT) q.toNat i.place
  have he := exec_streamItemTake_queue q b s
  rw [ht, State.takeQueue_of_unbound hx hi hc hg hb] at he
  generalize (t.count F.STALE_INPUT_COUNT).queueFree q.toNat i.place = u at hfree he
  have hstill : u.GdxStill := (ha.still hs).congr hfree.nodes hfree.insts hfree.flows
    (by rw [State.flag, hfree.regs.get _ (by decide), hcount.get _ (by decide)]; rfl)
  rw [State.gdxSettle_of_still hstill] at he
  have hshow := u.gdxShow_onlyRegs.regsGdx
  refine ⟨_, he, ?_, hshow.aft.trans (hfree.aft.trans ha.regsGdx.aft), hshow.tbu.trans (hfree.tbu.trans ha.regsGdx.tbu),
    hshow.exu.trans (hfree.exu.trans ha.regsGdx.exu), ?_⟩
  · rw [State.gdxShow_gdx]
    exact hfree.nodes.trans ha.nodes
  · rw [u.gdxShow_regsBut.get _ (by decide), hfree.regs.get _ (by decide), hstale, ha.regs.get _ (by decide)]

end

section
variable {b : Bool} {r : BitVec 9} {x : Ring} {i : RingItem} {g : Template} {b0 b1 k n p : Nat} {y : SlotInst} {z : NodeInst} {s : State}

theorem exec_streamItemTake_ring (r : BitVec 9) (b : Bool) (s : State) :
    exec (.streamItemTake (.ring r) b) s =
      .next ((if s.inCancelCycle b then s else s.gdxCycle).takeRing r.toNat (s.inCancelCycle b)).gdxSettle := rfl

theorem streamItemTake_ring (hx : s.ring r.toNat = some x) (hi : x.head = some i) (hb : s.boundTpl 1 r.toNat = some (g, b0, b1))
    (hcr : b0.testBit 3 = false) (hl : s.gdx.lastCancel.2 = []) (hs : s.GdxStill)
    (hfate : s.itemFate g x.tl (i.words.getD 1 0) 1 r.toNat (natBits (i.words.getD 2 0) 0 5) = .token n p) (ho : s.PortOpen n p z y) :
    Completes (.streamItemTake (.ring r) b) s (fun t => t.node n = some (z.fill p (i.token r.toNat)) ∧
      t.ring r.toNat = some (x.take i.index) ∧ (∀ m, m ≠ n → t.node m = s.node m) ∧ RegsBut s t (.CANCEL_SAME_CYCLE :: gdxShown) ∧
      t = { s with regs := t.regs, gdx := t.gdx, host := t.host }) := by
  obtain ⟨t, ha, ht⟩ := State.takeRing_of_token (late := s.inCancelCycle b) hx hi hb hcr hl ho.node ho.over hfate
  have hx : t.ring r.toNat = some x := by rw [ha.rest]; exact hx
  have he := exec_streamItemTake_ring r b s
  rw [ht, State.ringTake_of_ring hx] at he
  have hstill : (t.setRing r.toNat (x.take i.index)).GdxStill := (ha.still hs).congr rfl rfl rfl rfl
  have hr := State.tokenAt_settles (ho.congr (t := t.setRing r.toNat (x.take i.index)) ha.nodes ha.insts) (i.token r.toNat) hstill
  refine ⟨_, he, hr.node, ?_, fun m hm => ?_, ha.regs.comp ((RegsBut.of_regs _ rfl).trans hr.regs), ?_⟩
  · rw [State.ring, hr.rest.host]
    exact Tab.find_set_self _ _ _
  · rw [hr.others m hm]
    exact congrArg (fun l => Tab.find l m) ha.nodes
  · have hrest := hr.rest
    have hhost := hr.rest.host
    generalize ((t.setRing r.toNat (x.take i.index)).tokenAt n p (i.token r.toNat)).gdxSettle = v at hrest hhost
    unfold RegsGdx at hrest
    rw [hhost]
    exact hrest.trans (congrArg (fun w : State =>
      { w with regs := v.regs, gdx := v.gdx, host := (t.setRing r.toNat (x.take i.index)).host }) ha.rest)

end

/-- Settles O22: a token or item goes to a port that waits for it, and the dispatcher does no more than the clause says. -/
theorem tokensReachTheirPorts : Obligations.TokensReachTheirPorts := by
  unfold Obligations.TokensReachTheirPorts
  refine ⟨fun b n port k fs x y s hf hn hi hc hst hp hfree hflow hl => ?_, fun b f fs s hf hst he hp hs hl => ?_,
    fun b q x i g b0 b1 k n p y z s hx hi hc hg hl hs => ?_,
    fun b r x i g b0 b1 k n p y z s hx hi hb hcr hl hs hk hy hlive hport hz hzi hst hp hfree hflow => ?_⟩
  · have ho : s.PortOpen n port x y := ⟨hn, hi, hc, hst, hp, hfree, hflow⟩
    exact ⟨tokenArrival_fills hf ho hl, fun hen hnodes hinsts hm hlev hw hb =>
      tokenArrival_readies hf ho hl hen hnodes hinsts hm hlev rfl hw hb⟩
  · exact tokenArrival_stale hl hf hst he hp hs
  · refine ⟨fun hb hk hy hlive hport hz hzi hst hp hfree hflow => ?_, streamItemTake_unbound hx hi hc hg hs⟩
    exact streamItemTake_queue hx hi hc hg hl hs hb (State.itemFate_of_port hk hy hlive hport)
      ⟨hz, hzi ▸ hy, hlive, hst, hp, hfree, hflow⟩
  · exact streamItemTake_ring hx hi hb hcr hl hs (State.itemFate_of_port hk hy hlive hport)
      ⟨hz, hzi ▸ hy, hlive, hst, hp, hfree, hflow⟩

end Sys2Proof.Machine
end

