-- ==== Sys2Proof/Proofs/RunDelivery.lean ====
section
/-!
SUPPORT. Sys2Proof/Proofs/RunDelivery.lean: buffers are taken from their pools (R110), and a dispatch record reaches its executor and
starts a run or a job there (R131, R181, R221).
-/
namespace Sys2Proof.Machine

/-! ### What the steps of a dispatch touch -/

theorem MemOut.of_mem {s t : State} (h : t.mem = s.mem) (l : List (Nat × Nat)) : MemOut s t l := fun _ _ => by rw [h]

theorem MemOut.mono {s t : State} {l l' : List (Nat × Nat)} (h : MemOut s t l) (hl : ∀ r ∈ l, r ∈ l') : MemOut s t l' :=
  fun x hx => h x fun r hr => hx r (hl r hr)

theorem MemBut.out {s t : State} {a n : Nat} (h : MemBut s t a n) : MemOut s t [(a, n)] := fun x hx => h x (hx _ (List.mem_singleton.2 rfl))

theorem MemOut.comp {s t u : State} {l l' : List (Nat × Nat)} (h : MemOut s t l) (h' : MemOut t u l') : MemOut s u (l ++ l') :=
  fun x hx => (h' x fun r hr => hx r (List.mem_append_right _ hr)).trans (h x fun r hr => hx r (List.mem_append_left _ hr))

/-- Of the registers, the memory and the cluster maps, a step changes listed registers and bytes of listed ranges. -/
structure Touches (s t : State) (rs : List Reg) (ms : List (Nat × Nat)) : Prop where
  scl : t.scl = s.scl
  regs : RegsBut s t rs
  mem : MemOut s t ms

theorem Touches.of_eq {s t : State} (h₁ : t.scl = s.scl) (h₂ : t.regs = s.regs) (h₃ : t.mem = s.mem) : Touches s t [] [] :=
  ⟨h₁, RegsBut.of_regs _ h₂, MemOut.of_mem h₃ _⟩

theorem Touches.comp {s t u : State} {rs rs' : List Reg} {ms ms' : List (Nat × Nat)} (h : Touches s t rs ms) (h' : Touches t u rs' ms') :
    Touches s u (rs ++ rs') (ms ++ ms') :=
  ⟨h'.scl.trans h.scl, h.regs.comp h'.regs, h.mem.comp h'.mem⟩

theorem Touches.mono {s t : State} {rs rs' : List Reg} {ms : List (Nat × Nat)} (h : Touches s t rs ms) (hr : ∀ r ∈ rs, r ∈ rs') :
    Touches s t rs' ms :=
  { h with regs := h.regs.mono hr }

theorem OnlyRegs.touches {s t : State} {rs : List Reg} (h : OnlyRegs s t) (hr : RegsBut s t rs) : Touches s t rs [] := by
  refine ⟨?_, hr, MemOut.of_mem ?_ _⟩
  · unfold OnlyRegs at h
    rw [h]
  · exact h.regsGdx.mem

section
variable {s t : State} {rs : List Reg} {ms : List (Nat × Nat)} (h : Touches s t rs ms)
include h

theorem Touches.sclPos (hr : Reg.SCL_MAP ∉ rs) (c k : Nat) : t.sclPos c k = s.sclPos c k := by
  rw [State.sclPos, State.sclPos, h.regs.get F.SCL_MAP_SLOT hr]

/-- The VSC behind an executor follows from the maps and lends. -/
theorem Touches.vscInst (hr : Reg.SCL_MAP ∉ rs) (e : Nat) : t.vscInst e = s.vscInst e := by
  simp only [State.vscInst, State.coreOf, State.lender, h.scl, h.sclPos hr]

theorem Touches.localBase (hr : Reg.SCL_MAP ∉ rs) (hr' : Reg.SCL_STATUS ∉ rs) (k : Nat) : t.localBase k = s.localBase k := by
  simp only [State.localBase, State.vscPos, h.sclPos hr, h.regs.get F.SCL_STATUS_BENCH_POS hr']

theorem Touches.recordAddr (hr : Reg.SCL_MAP ∉ rs) (hr' : Reg.SCL_STATUS ∉ rs) (k : Nat) : t.recordAddr k = s.recordAddr k := by
  rw [State.recordAddr, State.recordAddr, h.localBase hr hr']

end

/-- The NodeInsts and the executors' records are the same. -/
def SameRuns (s t : State) : Prop := t.gdx.nodes = s.gdx.nodes ∧ t.gdx.execs = s.gdx.execs

theorem SameRuns.trans {s t u : State} (h : SameRuns s t) (h' : SameRuns t u) : SameRuns s u := ⟨h'.1.trans h.1, h'.2.trans h.2⟩

theorem SameRuns.of_gdx {s t : State} (h : t.gdx = s.gdx) : SameRuns s t := ⟨by rw [h], by rw [h]⟩

/-! ### Buffers (R110) -/

/-- The counts of a pool (W5 and W6 of Table 4-4). -/
def State.poolCounts (s : State) (p : Nat) : Nat × Nat := (s.poolAddr p + 20, 8)

theorem State.setPoolFree_memBut (s : State) (p n : Nat) : MemBut s (s.setPoolFree p n) (s.poolAddr p + 20) 8 :=
  ((MemBut.setWord s (s.poolAddr p + 20) n).mono (Nat.le_refl _) (by omega)).trans
    ((MemBut.setWord _ (s.poolAddr p + 24) _).mono (by omega) (by omega))

theorem State.bufTake_pool (s : State) (p : Nat) : (s.bufTake p).1.pool = p := rfl

theorem State.bufTake_sameRuns (s : State) (p : Nat) : SameRuns s (s.bufTake p).2 := ⟨rfl, rfl⟩

theorem State.bufTake_touches (s : State) (p : Nat) : Touches s (s.bufTake p).2 [] [s.poolCounts p] :=
  ⟨rfl, RegsBut.of_regs _ rfl, (State.setPoolFree_memBut s.freshNat.2 p _).out⟩

/-- One more output buffer is taken. -/
def takeOut (acc : List Token × State) (p : Nat) : List Token × State := (acc.1 ++ [(acc.2.bufTake p).1], (acc.2.bufTake p).2)

theorem foldl_takeOut (ps : List Nat) (acc : List Token × State) :
    (ps.foldl takeOut acc).1.map (·.pool) = acc.1.map (·.pool) ++ ps ∧ SameRuns acc.2 (ps.foldl takeOut acc).2 ∧
      Touches acc.2 (ps.foldl takeOut acc).2 [] (ps.map acc.2.poolCounts) := by
  induction ps generalizing acc with
  | nil => exact ⟨(List.append_nil _).symm, ⟨rfl, rfl⟩, Touches.of_eq rfl rfl rfl⟩
  | cons p ps ih =>
    obtain ⟨hp, hs, ht⟩ := ih (takeOut acc p)
    refine ⟨?_, (acc.2.bufTake_sameRuns p).trans hs, (acc.2.bufTake_touches p).comp ht⟩
    rw [List.foldl_cons, hp]
    simp [takeOut, State.bufTake_pool]

theorem State.takeOuts_eq (s : State) (r : NodeRec) : s.takeOuts r = r.outPools.foldl takeOut ([], s) := rfl

/-! ### A wait is measured (R151, R153, R155) -/

theorem State.upInst_sameRuns (s : State) (i : Nat) (f : SlotInst → SlotInst) : SameRuns s (s.upInst i f) := by
  unfold State.upInst
  split
  · exact ⟨rfl, rfl⟩
  · exact ⟨rfl, rfl⟩

theorem State.upInst_touches (s : State) (i : Nat) (f : SlotInst → SlotInst) : Touches s (s.upInst i f) [] [] := by
  unfold State.upInst
  split
  · exact Touches.of_eq rfl rfl rfl
  · exact Touches.of_eq rfl rfl rfl

theorem State.countWait_frame (s : State) (x : NodeInst) (level : Nat) :
    SameRuns s (s.countWait x level) ∧ Touches s (s.countWait x level) [.GDX_HIST, .GDX_WAIT_MAX, .L0_OVER] [] := by
  unfold State.countWait
  extract_lets ns t u
  have ht : OnlyRegs s t ∧ RegsBut s t [.GDX_HIST, .GDX_WAIT_MAX, .L0_OVER] :=
    ⟨((OnlyRegs.refl s).put _ _ _ _).put _ _ _ _, ((RegsBut.refl s _).put _ _ _ _ (by decide)).put _ _ _ _ (by decide)⟩
  have hu : OnlyRegs s u ∧ RegsBut s u [.GDX_HIST, .GDX_WAIT_MAX, .L0_OVER] := by
    unfold u
    split
    · exact ⟨ht.1.put _ _ _ _, ht.2.put _ _ _ _ (by decide)⟩
    · exact ht
  exact ⟨(SameRuns.of_gdx hu.1.gdx).trans (u.upInst_sameRuns _ _), (hu.1.touches hu.2).comp (u.upInst_touches _ _)⟩

/-! ### An executor is given a NodeInst -/

/-- Executor e runs NodeInst n, its domain is woken where it dozes, and a self-test of its unit is abandoned. -/
def State.assign (s : State) (n e : Nat) : State :=
  let t := s.setExec e { s.exec e with node := some n, done := none }
  (match t.execDomain e with
    | some d => t.pwrDispatch d
    | none => t).abandonTest e

theorem State.pwrDispatch_frame (s : State) (d : Nat) : OnlyRegs s (s.pwrDispatch d) ∧ RegsBut s (s.pwrDispatch d) [.PWR_DOM_STATE] := by
  unfold State.pwrDispatch
  split
  · exact ⟨(OnlyRegs.refl s).putAll _ _ _, (RegsBut.refl s _).putAll _ _ _ (by simp)⟩
  · exact ⟨OnlyRegs.refl s, RegsBut.refl s _⟩

theorem State.abandonTest_frame (s : State) (e : Nat) :
    SameRuns s (s.abandonTest e) ∧ Touches s (s.abandonTest e) (if execClass e = 0 then [] else [.T_STATUS]) [] := by
  unfold State.abandonTest
  extract_lets c u d t
  split
  · split
    · split
      case isTrue hc => exact ⟨⟨rfl, rfl⟩, Touches.of_eq rfl rfl rfl⟩
      case isFalse hc =>
        exact ⟨⟨rfl, rfl⟩, rfl, ((RegsBut.of_regs _ rfl : RegsBut s t _).put _ _ _ _ (by decide)), MemOut.of_mem rfl _⟩
    · exact ⟨⟨rfl, rfl⟩, rfl, RegsBut.refl _ _, MemOut.of_mem rfl _⟩
  · exact ⟨⟨rfl, rfl⟩, rfl, RegsBut.refl _ _, MemOut.of_mem rfl _⟩

/-- Executor e runs NodeInst n and has reported nothing; the NodeInsts stand as they stood. -/
structure Assigned (s t : State) (n e : Nat) : Prop where
  nodes : t.gdx.nodes = s.gdx.nodes
  node : (t.exec e).node = some n
  done : (t.exec e).done = none

theorem Assigned.trans {s t u : State} {n e : Nat} (h : Assigned s t n e) (h' : SameRuns t u) : Assigned s u n e :=
  ⟨h'.1.trans h.nodes, by rw [State.exec, h'.2]; exact h.node, by rw [State.exec, h'.2]; exact h.done⟩

theorem State.assign_frame (s : State) (n e : Nat) :
    Assigned s (s.assign n e) n e ∧
      Touches s (s.assign n e) (.PWR_DOM_STATE :: if execClass e = 0 then [] else [.T_STATUS]) [] := by
  unfold State.assign
  extract_lets w t
  have ht : Assigned s t n e := by
    refine ⟨rfl, ?_, ?_⟩
    · exact congrArg Exec.node (Tab.get_set_self _ _ _ _)
    · exact congrArg Exec.done (Tab.get_set_self _ _ _ _)
  have hts : Touches s t [] [] := Touches.of_eq rfl rfl rfl
  have hu : ∀ u : State, OnlyRegs t u → RegsBut t u [.PWR_DOM_STATE] → Assigned s (u.abandonTest e) n e ∧
      Touches s (u.abandonTest e) (.PWR_DOM_STATE :: if execClass e = 0 then [] else [.T_STATUS]) [] := fun u ho hr =>
    ⟨(ht.trans (SameRuns.of_gdx ho.gdx)).trans (u.abandonTest_frame e).1, hts.comp ((ho.touches hr).comp (u.abandonTest_frame e).2)⟩
  split
  · exact hu _ (t.pwrDispatch_frame _).1 (t.pwrDispatch_frame _).2
  · exact hu _ (OnlyRegs.refl t) (RegsBut.refl t _)

/-! ### A run or a job starts (R131, R181, R221) -/

/-- The kernel of a node's record. -/
def SlotInst.kernelOf (i : SlotInst) (r : NodeRec) : Kernel :=
  let kid := natBits r.work 0 16
  (i.kernels.find? (fun q => q.id = kid)).getD ⟨kid, 0, 0, false, false, false, 0, 0, 0⟩

theorem SlotInst.kernelOf_of_find {i : SlotInst} {r : NodeRec} {kn : Kernel}
    (h : i.kernels.find? (fun q => q.id = natBits r.work 0 16) = some kn) : i.kernelOf r = kn := by
  rw [SlotInst.kernelOf, h]
  rfl

/-- The run of a VSC starts with its record in local memory. -/
def State.startRun (s : State) (n : Nat) (x : NodeInst) (i : SlotInst) (kind : RunKind) (e : Nat) (outs : List Token) : State :=
  match s.vscInst e with
  | none => s
  | some k => (s.setWords (s.recordAddr k) (recordWords n x i kind outs)).vscStart k e n (i.kernelOf (i.tpl.node x.node))

/-- The job of an engine starts with its record in descriptor memory. -/
def State.startJob (s : State) (n : Nat) (x : NodeInst) (i : SlotInst) (kind : RunKind) (e : Nat) (outs : List Token) : State :=
  let r := i.tpl.node x.node
  let q := engInst r.cls (execLocal e)
  let desc := (List.range 8).map (fun j => r.desc.getD j 0) ++ recordWords n x i kind outs ++
    (List.range 64).map (fun j => r.desc.getD (8 + j) 0) ++ [0, 0, 0, 0]
  let s := desc.zipIdx.foldl (fun s w => s.put F.T_DESC_DESC w.1 q w.2) s
  let inj := if 5 ≤ r.cls ∧ r.cls ≤ 7 then s.injOf [F.T_CTRL_INJ_RESIDUE, F.T_CTRL_INJ_PARITY, F.T_CTRL_INJ_CRC] q
    else (match s.injOf [F.T_CTRL_INJ_PARITY, F.T_CTRL_INJ_CRC] q with
      | 0 => 0
      | k => k + 1)
  (s.setExu { s.exu with jobs := Tab.set s.exu.jobs q ⟨e, n, inj⟩ }).set F.T_STATUS_BUSY q

/-- Delivery assigns the executor, and then starts the run of a VSC or the job of an engine. -/
theorem State.deliverRun_eq (s : State) (n : Nat) (x : NodeInst) (i : SlotInst) (kind : RunKind) (e : Nat) (outs : List Token) :
    s.deliverRun n x i kind e outs =
      if (i.tpl.node x.node).cls = 0 then (s.assign n e).startRun n x i kind e outs else (s.assign n e).startJob n x i kind e outs := rfl

section
variable (s : State) (n e : Nat) (x : NodeInst) (i : SlotInst) (kind : RunKind) (outs : List Token)

/-- A job makes its engine busy and writes nothing but its descriptor memory. -/
theorem State.startJob_frame : SameRuns s (s.startJob n x i kind e outs) ∧
    Touches s (s.startJob n x i kind e outs) [.T_STATUS, .T_DESC] [] ∧
    (s.startJob n x i kind e outs).get F.T_STATUS_BUSY (engInst (i.tpl.node x.node).cls (execLocal e)) = 1 := by
  unfold State.startJob
  extract_lets r q desc u inj
  have hu : OnlyRegs s u ∧ RegsBut s u [.T_STATUS, .T_DESC] :=
    ⟨OnlyRegs.foldl (fun _ _ => (OnlyRegs.refl _).put _ _ _ _) _ s,
      RegsBut.foldl (fun _ _ => (RegsBut.refl _ _).put _ _ _ _ (by decide)) _ s⟩
  clear_value inj u
  refine ⟨SameRuns.of_gdx hu.1.gdx, ⟨(hu.1.touches hu.2).scl, ?_, (hu.1.touches hu.2).mem⟩, ?_⟩
  · exact (hu.2.trans (RegsBut.of_regs _ rfl)).put _ _ _ _ (by decide)
  · exact State.get_put_self _ _ _ _ _ (by decide)

/-- A dispatch record makes its engine busy. -/
theorem State.deliverRun_engine (h0 : (i.tpl.node x.node).cls ≠ 0) : Assigned s (s.deliverRun n x i kind e outs) n e ∧
    Touches s (s.deliverRun n x i kind e outs) [.PWR_DOM_STATE, .T_STATUS, .T_DESC] [] ∧
    (s.deliverRun n x i kind e outs).get F.T_STATUS_BUSY (engInst (i.tpl.node x.node).cls (execLocal e)) = 1 := by
  obtain ⟨ha, ht⟩ := s.assign_frame n e
  obtain ⟨hj, htj, hb⟩ := (s.assign n e).startJob_frame n e x i kind outs
  rw [State.deliverRun_eq, if_neg h0]
  refine ⟨ha.trans hj, (ht.comp htj).mono ?_, hb⟩
  split <;> simp

theorem length_recordWords : (recordWords n x i kind outs).length = 68 := by
  have h (f : Nat → List Nat) (hf : ∀ p, (f p).length = 4) : ((List.range 8).flatMap f).length = 32 := by
    simp [List.length_flatMap, hf]
  unfold recordWords
  extract_lets tok
  have ht (l : List (Option Token)) : (tok l).length = 32 := h _ fun p => by split <;> rfl
  simp only [List.length_append, ht]
  rfl

end

theorem State.setWords_rest (s : State) (a : Nat) (ws : List Nat) : s.setWords a ws = { s with mem := (s.setWords a ws).mem } := by
  induction ws generalizing s a with
  | nil => rfl
  | cons w ws ih => exact ih (s.setWord a w) (a + 4)

theorem State.setWords_memBut (s : State) (a : Nat) (ws : List Nat) : MemBut s (s.setWords a ws) a (4 * ws.length) := by
  induction ws generalizing s a with
  | nil => exact fun _ _ => rfl
  | cons w ws ih =>
    rw [List.length_cons]
    exact ((MemBut.setWord s a w).mono (Nat.le_refl _) (by omega)).trans ((ih (s.setWord a w) (a + 4)).mono (by omega) (by omega))

theorem State.setWords_touches (s : State) (a : Nat) (ws : List Nat) : Touches s (s.setWords a ws) [] [(a, 4 * ws.length)] :=
  ⟨by rw [s.setWords_rest], RegsBut.of_regs _ (by rw [s.setWords_rest]), (s.setWords_memBut a ws).out⟩

/-- VSC k runs kernel kn for NodeInst n on executor e, with its record and its local memory in P14 and P15 (R181). -/
def State.RunsKernel (s t : State) (k e n : Nat) (kn : Kernel) : Prop :=
  ∃ z, t.core k = some z ∧ z.node = n ∧ z.exec = e ∧ z.ending = none ∧ z.pr = [(14, s.recordAddr k), (15, s.localBase k)] ∧
    z.kernel = kn ∧ z.pc = kn.entry

theorem State.vscStart_frame (s : State) (k e n : Nat) (kn : Kernel) :
    SameRuns s (s.vscStart k e n kn) ∧ Touches s (s.vscStart k e n kn) [.VSC_STATUS] [] ∧
      (s.vscStart k e n kn).get F.VSC_STATUS_BUSY k = 1 ∧ s.RunsKernel (s.vscStart k e n kn) k e n kn := by
  unfold State.vscStart
  extract_lets c
  refine ⟨⟨rfl, rfl⟩, ⟨rfl, ?_, MemOut.of_mem rfl _⟩, ?_, c, Tab.find_set_self _ _ _, rfl, rfl, rfl, rfl, rfl, rfl⟩
  · exact (RegsBut.of_regs _ rfl : RegsBut s (s.setCore k c) _).putAll _ _ _ (by simp)
  · exact (State.get_put_fld _ _ _ _ _ _ _ _ (by decide) (by decide)).trans (State.get_put_self _ _ _ _ _ (by decide))

theorem execClass_of_lt {e : Nat} (h : e < 192) : execClass e = 0 := by
  have hb : ∀ c ∈ List.range 10, decide (classBase c ≤ e) = decide (c = 0) := by
    intro c hc
    have h192 := (by decide : ∀ c < 10, c ≠ 0 → 192 ≤ classBase c) c (List.mem_range.1 hc)
    rw [decide_eq_decide]
    constructor
    · omega
    · rintro rfl
      exact Nat.zero_le e
  rw [execClass, if_neg (by omega), if_neg (by omega), List.filter_congr hb]
  rfl

/-- The executors of VSCs are of class 0. -/
theorem State.execClass_of_vscInst {s : State} {e k : Nat} (h : s.vscInst e = some k) : execClass e = 0 := by
  unfold State.vscInst at h
  split at h
  case isTrue he => exact execClass_of_lt he
  case isFalse =>
    split at h
    case isTrue he =>
      rw [execClass, if_neg (by omega), if_pos he.1]
    case isFalse => cases h

theorem State.RunsKernel.of_touches {s t u : State} {rs : List Reg} {ms : List (Nat × Nat)} {k e n : Nat} {kn : Kernel}
    (h : t.RunsKernel u k e n kn) (ht : Touches s t rs ms) (hr : Reg.SCL_MAP ∉ rs) (hr' : Reg.SCL_STATUS ∉ rs) :
    s.RunsKernel u k e n kn := by
  rwa [State.RunsKernel, ← ht.recordAddr hr hr', ← ht.localBase hr hr']

section
variable {s : State} {e k : Nat} (hk : s.vscInst e = some k)
include hk

theorem State.startRun_frame (n : Nat) (x : NodeInst) (i : SlotInst) (kind : RunKind) (outs : List Token) :
    SameRuns s (s.startRun n x i kind e outs) ∧ Touches s (s.startRun n x i kind e outs) [.VSC_STATUS] [(s.recordAddr k, 272)] ∧
      (s.startRun n x i kind e outs).get F.VSC_STATUS_BUSY k = 1 ∧
      s.RunsKernel (s.startRun n x i kind e outs) k e n (i.kernelOf (i.tpl.node x.node)) := by
  have hw := s.setWords_touches (s.recordAddr k) (recordWords n x i kind outs)
  have hg : SameRuns s (s.setWords (s.recordAddr k) (recordWords n x i kind outs)) := SameRuns.of_gdx (by rw [State.setWords_rest])
  rw [length_recordWords] at hw
  rw [State.startRun, hk]
  obtain ⟨hs, ht, hb, hr⟩ := State.vscStart_frame (s.setWords (s.recordAddr k) (recordWords n x i kind outs)) k e n
    (i.kernelOf (i.tpl.node x.node))
  exact ⟨hg.trans hs, hw.comp ht, hb, hr.of_touches hw (by decide) (by decide)⟩

/-- A dispatch record starts the kernel of its node on the VSC behind the executor. -/
theorem State.deliverRun_vsc (n : Nat) (x : NodeInst) (i : SlotInst) (kind : RunKind) (outs : List Token)
    (h0 : (i.tpl.node x.node).cls = 0) :
    Assigned s (s.deliverRun n x i kind e outs) n e ∧
      Touches s (s.deliverRun n x i kind e outs) [.PWR_DOM_STATE, .VSC_STATUS] [(s.recordAddr k, 272)] ∧
      (s.deliverRun n x i kind e outs).get F.VSC_STATUS_BUSY k = 1 ∧
      s.RunsKernel (s.deliverRun n x i kind e outs) k e n (i.kernelOf (i.tpl.node x.node)) := by
  obtain ⟨ha, ht⟩ := s.assign_frame n e
  rw [if_pos (State.execClass_of_vscInst hk)] at ht
  have hk' : (s.assign n e).vscInst e = some k := (ht.vscInst (by decide) e).trans hk
  obtain ⟨hs, htr, hb, hr⟩ := State.startRun_frame hk' n x i kind outs
  rw [ht.recordAddr (by decide) (by decide)] at htr
  rw [State.deliverRun_eq, if_pos h0]
  exact ⟨ha.trans hs, ht.comp htr, hb, hr.of_touches ht (by decide) (by decide)⟩

end

end Sys2Proof.Machine
end

