-- ==== Sys2Proof/Proofs/NodeDispatch.lean ====
section
/-!
SUPPORT. Sys2Proof/Proofs/NodeDispatch.lean: the one ready NodeInst of a class is dispatched to the chosen executor (R128, R129), with
its buffers (R110), and its run or its job starts there.
-/
namespace Sys2Proof.Machine

/-- A NodeInst as it runs, on executor e with the output buffers o; a run after a replay is a replay. -/
def NodeInst.runOn (x : NodeInst) (e : Nat) (o : List Token) : NodeInst :=
  { x with st := .running, runs := [⟨if x.replays = 0 then .first else .replay, e, o, none⟩] }

/-- Before the record of a dispatch is delivered: the round robin has moved, the buffers o are taken, and the node runs. -/
def State.placed (s : State) (n : Nat) (x : NodeInst) (r : NodeRec) (e : Nat) (mv : Bool) : State :=
  let p := (s.moveRr r.cls e mv).takeOuts r
  (p.2.setNode n (x.runOn e p.1)).countWait x r.level

/-- The output buffers that a dispatch takes. -/
def State.placedOuts (s : State) (r : NodeRec) (e : Nat) (mv : Bool) : List Token := ((s.moveRr r.cls e mv).takeOuts r).1

/-- The state after the dispatch of an unpaired NodeInst. -/
def State.dispatched (s : State) (n : Nat) (x : NodeInst) (i : SlotInst) (r : NodeRec) (e : Nat) (mv : Bool) : State :=
  (s.placed n x r e mv).deliverRun n x i (if x.replays = 0 then .first else .replay) e (s.placedOuts r e mv)

/-! ### The dispatch is made -/

section
variable {s : State} {n a : Nat} {mv : Bool} {x : NodeInst} {i : SlotInst} {r : NodeRec}

/-- An unpaired NodeInst with an executor, buffers, and no reserve that holds it back is dispatched. -/
theorem State.dispatchNode_of_choice (hres : 2 ≤ r.level → s.get F.GDX_CLASS_RESERVE_RESERVE 0 r.cls < s.freeCount r.cls)
    (hc : s.choose r x (s.candidates r x []) = some (a, mv)) (hp : r.paired = false) (hx : x.poisonReplay = false)
    (hb : s.poolsHave r 1 = true) : s.dispatchNode n x i r = some (s.dispatched n x i r a mv) := by
  have hr : ¬ (2 ≤ r.level ∧ s.freeCount r.cls ≤ s.get F.GDX_CLASS_RESERVE_RESERVE 0 r.cls) := fun ⟨h, h'⟩ =>
    absurd (hres h) (Nat.not_lt.2 h')
  simp only [State.dispatchNode, if_neg hr, hc, hx, hp, hb, Bool.false_and, Bool.false_eq_true, if_false, if_true]
  rw [State.dispatched, State.placed, NodeInst.runOn, hx]
  rfl

/-- A class whose one ready NodeInst can be dispatched dispatches it. -/
theorem State.dispatch_of_single {c : Nat} {t : State} (hen : s.flag F.GDX_CTRL_EN = true) (ho : s.readyOrder c = [(n, x)])
    (hi : s.inst x.inst = some i) (ht : x.tie = false) (hd : s.dispatchNode n x i (i.tpl.node x.node) = some t) : s.dispatch c = t := by
  simp only [State.dispatch, hen, ho, State.dispatchFirst, hi, ht, hd, Bool.false_eq_true, if_false, if_true]

theorem State.dispatch_of_off (c : Nat) (h : s.flag F.GDX_CTRL_EN = false) : s.dispatch c = s := by
  simp only [State.dispatch, h, Bool.false_eq_true, if_false]

end

/-! ### What stands before the delivery -/

theorem State.moveRr_frame (s : State) (c e : Nat) (mv : Bool) :
    OnlyRegs s (s.moveRr c e mv) ∧ RegsBut s (s.moveRr c e mv) [.GDX_CLASS_STATE] := by
  unfold State.moveRr
  split
  · exact ⟨(OnlyRegs.refl s).put _ _ _ _, (RegsBut.refl s _).put _ _ _ _ (by decide)⟩
  · exact ⟨OnlyRegs.refl s, RegsBut.refl s _⟩

theorem State.get_moveRr (s : State) (c e : Nat) : (s.moveRr c e true).get F.GDX_CLASS_STATE_RR_PTR 0 c = execLocal e % 256 :=
  State.get_put_self _ _ _ _ _ (by decide)

theorem State.setNode_touches (s : State) (n : Nat) (x : NodeInst) : Touches s (s.setNode n x) [] [] := Touches.of_eq rfl rfl rfl

theorem Touches.poolCounts {s t : State} {rs : List Reg} {ms : List (Nat × Nat)} (h : Touches s t rs ms)
    (hr : Reg.GDX_BUFPOOL_BASE ∉ rs) : t.poolCounts = s.poolCounts := by
  funext p
  rw [State.poolCounts, State.poolCounts, State.poolAddr, State.poolAddr, h.regs.get F.GDX_BUFPOOL_BASE_BASE hr]

/-- The registers that the choice and the measures of a dispatch write (R26, R151, R153). -/
def placedRegs : List Reg := [.GDX_CLASS_STATE, .GDX_HIST, .GDX_WAIT_MAX, .L0_OVER]

section
variable (s : State) (n : Nat) (x : NodeInst) (r : NodeRec) (e : Nat) (mv : Bool)

/-- The outputs are one buffer of each output pool. -/
theorem State.placedOuts_pools : (s.placedOuts r e mv).map (·.pool) = r.outPools :=
  (foldl_takeOut r.outPools ([], s.moveRr r.cls e mv)).1

theorem State.placed_nodes : (s.placed n x r e mv).gdx.nodes = Tab.set s.gdx.nodes n (x.runOn e (s.placedOuts r e mv)) := by
  obtain ⟨-, hs, -⟩ := foldl_takeOut r.outPools ([], s.moveRr r.cls e mv)
  have hn : ((s.moveRr r.cls e mv).takeOuts r).2.gdx.nodes = s.gdx.nodes := hs.1.trans (by rw [(s.moveRr_frame r.cls e mv).1.gdx])
  rw [State.placed, (State.countWait_frame _ x r.level).1.1]
  exact congrArg (fun l => Tab.set l n (x.runOn e (s.placedOuts r e mv))) hn

/-- Past the choice, the counts of the pools change and the wait is measured. -/
theorem State.placed_touches_moved : Touches (s.moveRr r.cls e mv) (s.placed n x r e mv) [.GDX_HIST, .GDX_WAIT_MAX, .L0_OVER]
    (r.outPools.map (s.moveRr r.cls e mv).poolCounts) := by
  obtain ⟨-, -, ht⟩ := foldl_takeOut r.outPools ([], s.moveRr r.cls e mv)
  rw [← State.takeOuts_eq] at ht
  have h := (ht.comp (State.setNode_touches _ n (x.runOn e (s.placedOuts r e mv)))).comp (State.countWait_frame _ x r.level).2
  simp only [List.append_nil, List.nil_append] at h
  exact h

theorem State.placed_touches : Touches s (s.placed n x r e mv) placedRegs (r.outPools.map s.poolCounts) := by
  obtain ⟨hm, hr⟩ := s.moveRr_frame r.cls e mv
  have h := s.placed_touches_moved n x r e mv
  rw [(hm.touches hr).poolCounts (by decide)] at h
  exact (hm.touches hr).comp h

/-- The round robin stands at the chosen executor (R26). -/
theorem State.placed_rr : (s.placed n x r e true).get F.GDX_CLASS_STATE_RR_PTR 0 r.cls = execLocal e % 256 :=
  ((s.placed_touches_moved n x r e true).regs.get F.GDX_CLASS_STATE_RR_PTR (by decide) 0 r.cls).trans (s.get_moveRr r.cls e)

end

/-! ### What stands after the delivery -/

/-- NodeInst n runs on executor e with a buffer of each output pool, and nothing else of the NodeInsts differs; registers differ
by the choice, the measures and what the executor shows (rs), and memory in the counts of the pools and in ms. -/
structure State.Ran (s t : State) (n : Nat) (x : NodeInst) (r : NodeRec) (e : Nat) (rs : List Reg) (ms : List (Nat × Nat)) : Prop where
  node : ∃ outs, t.node n = some (x.runOn e outs) ∧ outs.map (·.pool) = r.outPools
  execNode : (t.exec e).node = some n
  execDone : (t.exec e).done = none
  others : ∀ m, m ≠ n → t.node m = s.node m
  mem : MemOut s t (r.outPools.map s.poolCounts ++ ms)
  regs : RegsBut s t (placedRegs ++ rs ++ gdxShown)

section
variable {s d : State} {n e : Nat} {x : NodeInst} {r : NodeRec} {mv : Bool} {rs : List Reg} {ms : List (Nat × Nat)}

theorem State.ran_of_delivered (ha : Assigned (s.gdxCycle.placed n x r e mv) d n e)
    (ht : Touches (s.gdxCycle.placed n x r e mv) d rs ms) : s.Ran d.gdxShow n x r e rs ms := by
  have hc : Touches s s.gdxCycle [] [] := Touches.of_eq rfl rfl rfl
  have hp := s.gdxCycle.placed_touches n x r e mv
  rw [hc.poolCounts (by decide)] at hp
  have hd : Touches s d (placedRegs ++ rs) (r.outPools.map s.poolCounts ++ ms) := (hc.comp hp).comp ht
  have hn : d.gdxShow.gdx.nodes = Tab.set s.gdx.nodes n (x.runOn e (s.gdxCycle.placedOuts r e mv)) := by
    rw [State.gdxShow_gdx, ha.nodes, State.placed_nodes]
    rfl
  refine ⟨⟨s.gdxCycle.placedOuts r e mv, ?_, State.placedOuts_pools _ _ _ _⟩, ?_, ?_, fun m hm => ?_, ?_,
    hd.regs.comp d.gdxShow_regsBut⟩
  · rw [State.node, hn, Tab.find_set_self]
  · rw [State.exec, State.gdxShow_gdx]
    exact ha.node
  · rw [State.exec, State.gdxShow_gdx]
    exact ha.done
  · rw [State.node, hn, Tab.find_set_ne _ hm]
    rfl
  · exact fun y hy => (MemOut.of_mem d.gdxShow_onlyRegs.regsGdx.mem [] y (by simp)).trans (hd.mem y hy)

end

/-! ### The dispatch of a cycle -/

section
variable {s : State} {c n a k : Nat} {mv : Bool} {x : NodeInst} {y : SlotInst}

/-- The one ready NodeInst of the class, unpaired, has an executor and its buffers, and no reserve holds it back. -/
structure State.DispatchReady (s : State) (c n a : Nat) (mv : Bool) (x : NodeInst) (y : SlotInst) : Prop where
  en : s.flag F.GDX_CTRL_EN = true
  order : s.readyOrder c = [(n, x)]
  inst : s.inst x.inst = some y
  cls : (y.tpl.node x.node).cls = c
  unpaired : (y.tpl.node x.node).paired = false
  noTie : x.tie = false
  noPoison : x.poisonReplay = false
  unreserved : 2 ≤ (y.tpl.node x.node).level → s.get F.GDX_CLASS_RESERVE_RESERVE 0 c < s.freeCount c
  chosen : s.choose (y.tpl.node x.node) x (s.candidates (y.tpl.node x.node) x []) = some (a, mv)
  buffers : s.poolsHave (y.tpl.node x.node) 1 = true

theorem State.gdxCycle_readyOrder (s : State) (c : Nat) : s.gdxCycle.readyOrder c = s.readyOrder c := by
  have hn : s.gdxCycle.gdx.nodes = s.gdx.nodes := rfl
  have hr : s.gdxCycle.recOf = s.recOf := rfl
  unfold State.readyOrder
  rw [hn, hr]

/-- The count of the cycle has no part in a dispatch. -/
theorem State.DispatchReady.gdxCycle (h : s.DispatchReady c n a mv x y) : s.gdxCycle.DispatchReady c n a mv x y :=
  ⟨h.en, (s.gdxCycle_readyOrder c).trans h.order, h.inst, h.cls, h.unpaired, h.noTie, h.noPoison, h.unreserved, h.chosen,
    h.buffers⟩

theorem State.DispatchReady.dispatch (h : s.DispatchReady c n a mv x y) :
    s.dispatch c = s.dispatched n x y (y.tpl.node x.node) a mv := by
  obtain ⟨hen, ho, hi, rfl, hp, ht, hx, hres, hc, hb⟩ := h
  exact State.dispatch_of_single hen ho hi ht (State.dispatchNode_of_choice hres hc hp hx hb)

/-- The state after a cycle that dispatches a NodeInst. -/
def State.cycleDispatched (s : State) (n : Nat) (x : NodeInst) (y : SlotInst) (a : Nat) (mv : Bool) : State :=
  (s.gdxCycle.dispatched n x y (y.tpl.node x.node) a mv).gdxShow

theorem exec_nodeDispatch {c : Fin 10} (h : s.DispatchReady c n a mv x y) :
    exec (.nodeDispatch c) s = .next (s.cycleDispatched n x y a mv) := by
  rw [State.cycleDispatched, ← h.gdxCycle.dispatch]
  rfl

/-- A dispatch to an engine starts its job. -/
theorem State.dispatched_engine (hr : (y.tpl.node x.node).cls = c) (h0 : c ≠ 0) :
    s.Ran (s.cycleDispatched n x y a mv) n x (y.tpl.node x.node) a [.PWR_DOM_STATE, .T_STATUS, .T_DESC] [] ∧
      (mv = true → (s.cycleDispatched n x y a mv).get F.GDX_CLASS_STATE_RR_PTR 0 c = execLocal a % 256) ∧
      (s.cycleDispatched n x y a mv).get F.T_STATUS_BUSY (engInst c (execLocal a)) = 1 := by
  subst hr
  obtain ⟨ha, ht, hb⟩ := (s.gdxCycle.placed n x (y.tpl.node x.node) a mv).deliverRun_engine n a x y
    (if x.replays = 0 then .first else .replay) (s.gdxCycle.placedOuts (y.tpl.node x.node) a mv) h0
  refine ⟨State.ran_of_delivered ha ht, ?_, ((State.gdxShow_regsBut _).get F.T_STATUS_BUSY (by decide) _ _).trans hb⟩
  rintro rfl
  exact ((ht.regs.comp (State.gdxShow_regsBut _)).get F.GDX_CLASS_STATE_RR_PTR (by decide) 0 _).trans (State.placed_rr _ _ _ _ _)

theorem State.RunsKernel.gdxShow {t : State} {e : Nat} {kn : Kernel} (h : s.RunsKernel t k e n kn) : s.RunsKernel t.gdxShow k e n kn := by
  rwa [State.RunsKernel, State.core, t.gdxShow_onlyRegs.regsGdx.exu]

/-- A dispatch to a VSC starts its kernel. -/
theorem State.dispatched_vsc (hr : (y.tpl.node x.node).cls = 0) (hk : s.vscInst a = some k) :
    s.Ran (s.cycleDispatched n x y a mv) n x (y.tpl.node x.node) a [.PWR_DOM_STATE, .VSC_STATUS] [(s.recordAddr k, 272)] ∧
      (s.cycleDispatched n x y a mv).get F.VSC_STATUS_BUSY k = 1 ∧
      s.RunsKernel (s.cycleDispatched n x y a mv) k a n (y.kernelOf (y.tpl.node x.node)) := by
  have hp := (Touches.of_eq rfl rfl rfl : Touches s s.gdxCycle [] []).comp (s.gdxCycle.placed_touches n x (y.tpl.node x.node) a mv)
  obtain ⟨ha, ht, hb, hz⟩ := State.deliverRun_vsc ((hp.vscInst (by decide) a).trans hk) n x y
    (if x.replays = 0 then .first else .replay) (s.gdxCycle.placedOuts (y.tpl.node x.node) a mv) hr
  rw [hp.recordAddr (by decide) (by decide)] at ht
  exact ⟨State.ran_of_delivered ha ht, ((State.gdxShow_regsBut _).get F.VSC_STATUS_BUSY (by decide) _ _).trans hb,
    (hz.of_touches hp (by decide) (by decide)).gdxShow⟩

end

/-- Settles O23: the steps of the dispatch are followed to the executor; an engine shows its job, a VSC runs its kernel. -/
theorem readyNodesAreDispatchedToChosenExecutors : Obligations.ReadyNodesAreDispatchedToChosenExecutors := by
  unfold Obligations.ReadyNodesAreDispatchedToChosenExecutors
  refine ⟨?_, fun c s hen => ?_⟩
  · intro c n a mv x y s r hen ho hn hi hc hp ht hx hres hch hb
    have hready : s.DispatchReady c n a mv x y := ⟨hen, ho, hi, hc, hp, ht, hx, hres, hch, hb⟩
    refine ⟨fun h0 => ⟨_, exec_nodeDispatch hready, ?_⟩, fun h0 k hk => ⟨_, exec_nodeDispatch hready, ?_⟩⟩
    · obtain ⟨h, hrr, hbusy⟩ := State.dispatched_engine (s := s) (n := n) (a := a) (mv := mv) hc h0
      exact ⟨h.node, h.execNode, h.execDone, hrr, hbusy, h.others, h.mem.mono (by simp [State.poolCounts, r]),
        h.regs.mono (by decide)⟩
    · obtain ⟨h, hbusy, z, hz, hzn, hze, hend, hpr, hkn, hpc⟩ := State.dispatched_vsc (s := s) (n := n) (mv := mv) (hc.trans h0) hk
      refine ⟨h.node, h.execNode, h.execDone, hbusy, ⟨z, hz, hzn, hze, hend, hpr, fun kn hfind => ?_⟩, h.others, h.mem.mono ?_,
        h.regs.mono (by decide)⟩
      · have hkey := SlotInst.kernelOf_of_find hfind
        exact ⟨hkn.trans hkey, hpc.trans (congrArg Kernel.entry hkey)⟩
      · simp [State.poolCounts, r, or_comm]
  · have hd : exec (.nodeDispatch c) s = .next s.gdxCycle.gdxShow := by
      rw [← State.dispatch_of_off c (show s.gdxCycle.flag F.GDX_CTRL_EN = false from hen)]
      rfl
    have hg : s.gdxCycle.gdxShow.gdx = s.gdxCycle.gdx := s.gdxCycle.gdxShow_gdx
    exact ⟨_, hd, by rw [hg]; rfl, by rw [hg]; rfl, s.gdxCycle.gdxShow_regsBut,
      (s.setGdx_regsGdx _).trans s.gdxCycle.gdxShow_onlyRegs.regsGdx⟩

end Sys2Proof.Machine
end

