-- ==== Sys2Proof/Proofs/TimeBase.lean ====
section
/-! SUPPORT. Sys2Proof/Proofs/TimeBase.lean: the time counters after reset, at the first lock, at a tick and at a commit, and steps asked for. -/

namespace Sys2Proof.Machine

/-! ### Flags that were set or cleared -/

theorem State.get_set_self (s : State) (f : Fld) (i j : Nat) (h : f.lo + f.len ≤ 32) (h1 : f.len ≠ 0) : (s.set f i j).get f i j = 1 := by
  rw [State.set, State.get_put_self _ _ _ _ _ h, Nat.mod_eq_of_lt (Nat.one_lt_two_pow h1)]

theorem State.get_clr_self (s : State) (f : Fld) (i j : Nat) (h : f.lo + f.len ≤ 32) : (s.clr f i j).get f i j = 0 := by
  rw [State.clr, State.get_put_self _ _ _ _ _ h, Nat.zero_mod]

/-! ### After reset -/

/-- Settles O3: the reset state lists no byte and no register, and its counters are zero. -/
theorem resetKeepsTheInvariant : Obligations.ResetKeepsTheInvariant := by
  unfold Obligations.ResetKeepsTheInvariant
  have zero : TbuDom.reset.ok := by simp [TbuDom.ok, Tai.wf, TbuDom.reset]
  exact ⟨⟨rfl, zero, zero⟩, fun _ => rfl⟩

/-! ### The jump limit (R46) -/

theorem State.get_jumpLimit {v : Nat} (s : State) (h : v < 2 ^ 30) :
    (s.put F.TBU_JUMP_LIMIT_LIMIT_NS (max 1 (min 1000000000 (v % 2 ^ 30)))).get F.TBU_JUMP_LIMIT_LIMIT_NS =
      max 1 (min 1000000000 v) := by
  rw [State.get_put_self _ _ _ _ _ (by decide), Nat.mod_eq_of_lt h]
  exact Nat.mod_eq_of_lt (show _ < 2 ^ 30 by omega)

/-- Settles O9: a written value below 2^30 reads back clamped, and the write is of one field. -/
theorem jumpLimitIsClamped : Obligations.JumpLimitIsClamped := by
  unfold Obligations.JumpLimitIsClamped
  refine ⟨by decide, fun v s hv => ⟨_, rfl, ?_⟩⟩
  beta_reduce
  rw [s.get_jumpLimit hv]
  exact ⟨by omega, by omega, by omega, FieldsBut.put_self _ _ _ _ _, rfl⟩

/-! ### Increments (R42, R43) -/

section
variable (d : Dom) (s : State)

theorem incNsWrite_schedules (v : Word) : Completes (.incNsWrite d v) s (fun t =>
      t.get F.TBU_D_INC_NS_INC_NS 0 (domIdx d) = v.toNat % 16 ∧
      t.tbu.dom d = { s.tbu.dom d with incPend := some (v.toNat % 16 * 2 ^ 32 + s.get F.TBU_D_INC_FRAC_INC_FRAC 0 (domIdx d)) } ∧
      (∀ e, e ≠ d → t.tbu.dom e = s.tbu.dom e) ∧
      FieldsBut s t [(F.TBU_D_INC_NS_INC_NS, 0, domIdx d)] ∧ t = { s with regs := t.regs, tbu := t.tbu }) := by
  have hns : (s.put F.TBU_D_INC_NS_INC_NS v.toNat 0 (domIdx d)).get F.TBU_D_INC_NS_INC_NS 0 (domIdx d) = v.toNat % 16 :=
    State.get_put_self _ _ _ _ _ (by decide)
  have hfrac : (s.put F.TBU_D_INC_NS_INC_NS v.toNat 0 (domIdx d)).get F.TBU_D_INC_FRAC_INC_FRAC 0 (domIdx d) =
      s.get F.TBU_D_INC_FRAC_INC_FRAC 0 (domIdx d) := State.get_put_key _ _ _ _ _ _ _ _ (by simp)
  refine ⟨_, rfl, hns, ?_, fun e he => Tbu.setDom_dom_ne _ he _, (FieldsBut.put_self _ _ _ _ _).of_eq rfl, rfl⟩
  rw [State.incWrite, State.setDom_tbu, Tbu.setDom_dom, hns, hfrac]
  rfl

variable {d s} {p : Nat} (hp : (s.tbu.dom d).incPend = some p)
include hp

theorem State.incCommit_of_ok (h : incOk p = true) :
    s.incCommit d = s.setDom d { s.tbu.dom d with incr := p, incPend := none, hold := 0 } := by
  simp only [State.incCommit, hp, h, if_true]

theorem State.incCommit_of_bad (h : incOk p = false) :
    s.incCommit d = (s.setDom d { s.tbu.dom d with incPend := none }).set F.TBU_D_STATUS_INC_REFUSED 0 (domIdx d) := by
  simp only [State.incCommit, hp, h, Bool.false_eq_true, if_false]

theorem incrementCommit_takes (h₁ : 15996 * 2 ^ 32 ≤ p * 10000) (h₂ : p * 10000 ≤ 16004 * 2 ^ 32) :
    Completes (.incrementCommit d) s (fun t => (t.tbu.dom d).incr = p ∧ (t.tbu.dom d).incPend = none ∧
      (t.tbu.dom d).counter = (s.tbu.dom d).counter ∧ (∀ e, e ≠ d → t.tbu.dom e = s.tbu.dom e) ∧ t = { s with tbu := t.tbu }) := by
  refine ⟨s.incCommit d, rfl, ?_⟩
  rw [State.incCommit_of_ok hp (decide_eq_true ⟨h₁, h₂⟩)]
  simp only [State.setDom_tbu, Tbu.setDom_dom]
  exact ⟨trivial, trivial, trivial, fun e he => Tbu.setDom_dom_ne _ he _, rfl⟩

theorem incrementCommit_refuses (h : p * 10000 < 15996 * 2 ^ 32 ∨ 16004 * 2 ^ 32 < p * 10000) :
    Completes (.incrementCommit d) s (fun t => t.get F.TBU_D_STATUS_INC_REFUSED 0 (domIdx d) = 1 ∧
      t.tbu.dom d = { s.tbu.dom d with incPend := none } ∧ (∀ e, e ≠ d → t.tbu.dom e = s.tbu.dom e) ∧
      FieldsBut s t [(F.TBU_D_STATUS_INC_REFUSED, 0, domIdx d)] ∧ t = { s with regs := t.regs, tbu := t.tbu }) := by
  have hbad : incOk p = false := decide_eq_false (by omega)
  refine ⟨s.incCommit d, rfl, ?_⟩
  rw [State.incCommit_of_bad hp hbad]
  refine ⟨State.get_set_self _ _ _ _ (by decide) (by decide), Tbu.setDom_dom _ _ _,
    fun e he => Tbu.setDom_dom_ne _ he _, (FieldsBut.of_regs _ rfl).set _ _ _ List.mem_cons_self, rfl⟩

end

/-- Settles O6: a pending pair of the written INC_NS and the standing INC_FRAC, taken within its bounds alone. -/
theorem incrementsCommitOrAreRefused : Obligations.IncrementsCommitOrAreRefused := by
  unfold Obligations.IncrementsCommitOrAreRefused
  exact ⟨fun d v s => incNsWrite_schedules d s v, fun _ _ _ hp h₁ h₂ => incrementCommit_takes hp h₁ h₂,
    fun _ _ _ hp h => incrementCommit_refuses hp h⟩

/-! ### Steps and sets asked for (R44, R47, R48) -/

theorem signed_fieldGet_32 (w : Word) : signed 32 (fieldGet w 0 32) = w.toInt := by
  simp only [signed, fieldGet, BitVec.toInt_eq_toNat_cond, BitVec.ushiftRight_zero]
  omega

/-- What a GO holds: a step of STEP_NS signed, or a set of SET_SEC and STEP_NS unsigned, with STEP_FRAC. -/
def State.stepAmount (s : State) (d : Dom) (isSet : Bool) : Int :=
  if isSet then
    (s.get F.TBU_D_SET_SEC_HI_SEC 0 (domIdx d) * 2 ^ 32 + s.get F.TBU_D_SET_SEC_LO_SEC 0 (domIdx d) : Nat) * (1000000000 * 2 ^ 32) +
      (s.get F.TBU_D_STEP_NS_STEP_NS 0 (domIdx d) : Nat) * 2 ^ 32 + (s.get F.TBU_D_STEP_FRAC_STEP_FRAC 0 (domIdx d) : Nat)
  else (s.rd ⟨.TBU_D_STEP_NS, 0, domIdx d⟩).toInt * 2 ^ 32 + s.get F.TBU_D_STEP_FRAC_STEP_FRAC 0 (domIdx d)

/-- The request that a GO makes. -/
def State.stepReq (s : State) (d : Dom) (isSet : Bool) : StepReq :=
  ⟨isSet, s.stepAmount d isSet, decide (999999999 < s.get F.TBU_D_STEP_NS_STEP_NS 0 (domIdx d)), 2⟩

section
variable {s : State} {d : Dom} (isSet : Bool)

theorem State.stepGo_of_pending (h : (s.tbu.dom d).step.isSome = true) :
    s.stepGo d isSet = (s.put F.TBU_D_STEP_CTRL_MODE (if isSet then 1 else 0) 0 (domIdx d)).set F.TBU_D_STATUS_STEP_BUSY 0 (domIdx d) := by
  simp only [State.stepGo, State.put_tbu, h, if_true]

theorem State.stepGo_of_none (h : (s.tbu.dom d).step = none) :
    s.stepGo d isSet = ((s.put F.TBU_D_STEP_CTRL_MODE (if isSet then 1 else 0) 0 (domIdx d)).setDom d
      { s.tbu.dom d with step := some (s.stepReq d isSet) }).set F.TBU_D_STATUS_STEP_PENDING 0 (domIdx d) := by
  have other (f : Fld) (hf : f.reg ≠ .TBU_D_STEP_CTRL) (v : Nat) :
      (s.put F.TBU_D_STEP_CTRL_MODE v 0 (domIdx d)).get f 0 (domIdx d) = s.get f 0 (domIdx d) :=
    State.get_put_key _ _ _ _ _ _ _ _ (by simp [hf])
  have hs : signed 32 (s.get F.TBU_D_STEP_NS_STEP_NS 0 (domIdx d)) = (s.rd ⟨.TBU_D_STEP_NS, 0, domIdx d⟩).toInt :=
    signed_fieldGet_32 _
  simp only [State.stepGo, State.put_tbu, h, Option.isSome_none, Bool.false_eq_true, if_false, State.stepReq, State.stepAmount,
    other F.TBU_D_STEP_NS_STEP_NS (by decide), other F.TBU_D_STEP_FRAC_STEP_FRAC (by decide),
    other F.TBU_D_SET_SEC_HI_SEC (by decide), other F.TBU_D_SET_SEC_LO_SEC (by decide), hs]
  cases isSet
  · rfl
  · simp only [if_true, secUnits]
    push_cast
    rfl

theorem stepGo_requests (h : (s.tbu.dom d).step = none) :
    (s.stepGo d isSet).tbu.dom d = { s.tbu.dom d with step := some (s.stepReq d isSet) } ∧
      (s.stepGo d isSet).get F.TBU_D_STATUS_STEP_PENDING 0 (domIdx d) = 1 ∧
      (s.stepGo d isSet).get F.TBU_D_STEP_CTRL_MODE 0 (domIdx d) = (if isSet then 1 else 0) ∧
      FieldsBut s (s.stepGo d isSet) [(F.TBU_D_STATUS_STEP_PENDING, 0, domIdx d), (F.TBU_D_STEP_CTRL_MODE, 0, domIdx d)] ∧
      (∀ e, e ≠ d → (s.stepGo d isSet).tbu.dom e = s.tbu.dom e) ∧
      s.stepGo d isSet = { s with regs := (s.stepGo d isSet).regs, tbu := (s.stepGo d isSet).tbu } := by
  rw [State.stepGo_of_none isSet h]
  refine ⟨Tbu.setDom_dom _ _ _, State.get_set_self _ _ _ _ (by decide) (by decide), ?_, ?_, fun e he => Tbu.setDom_dom_ne _ he _, rfl⟩
  · rw [State.set, State.get_put_key _ _ _ _ _ _ _ _ (by simp), State.setDom_get, State.get_put_self _ _ _ _ _ (by decide)]
    cases isSet
    · rfl
    · rfl
  · exact (((FieldsBut.refl s _).put F.TBU_D_STEP_CTRL_MODE _ _ _ (by simp)).of_eq rfl).set _ _ _ (by simp)

theorem stepGo_busy (h : (s.tbu.dom d).step.isSome = true) :
    (s.stepGo d isSet).get F.TBU_D_STATUS_STEP_BUSY 0 (domIdx d) = 1 ∧
      FieldsBut s (s.stepGo d isSet) [(F.TBU_D_STATUS_STEP_BUSY, 0, domIdx d), (F.TBU_D_STEP_CTRL_MODE, 0, domIdx d)] ∧
      s.stepGo d isSet = { s with regs := (s.stepGo d isSet).regs } := by
  rw [State.stepGo_of_pending isSet h]
  exact ⟨State.get_set_self _ _ _ _ (by decide) (by decide),
    ((FieldsBut.refl s _).put F.TBU_D_STEP_CTRL_MODE _ _ _ (by simp)).set _ _ _ (by simp), rfl⟩

end

/-- Settles O7: both GOs are one operation, which holds its request where none is pending. -/
theorem stepsAndSetsAreRequestedTwoTicksAhead : Obligations.StepsAndSetsAreRequestedTwoTicksAhead := by
  unfold Obligations.StepsAndSetsAreRequestedTwoTicksAhead
  refine fun d s => ⟨fun h => ⟨⟨_, rfl, stepGo_requests false h⟩, ⟨_, rfl, stepGo_requests true h⟩⟩, fun h c hc => ?_⟩
  rcases List.mem_pair.1 hc with rfl | rfl
  · exact ⟨_, rfl, stepGo_busy false h⟩
  · exact ⟨_, rfl, stepGo_busy true h⟩

/-! ### The clock starts and ticks (R35, R37, R38) -/

theorem timingPllLock_starts {s : State} (hen : s.flag F.TBU_CTRL_PLL_EN = true) (hst : s.tbu.started = false) :
    Completes .timingPllLock s (fun t => t.tbu.a.counter = ⟨0, 0, 0⟩ ∧ t.tbu.b.counter = ⟨0, 0, 0⟩ ∧ t.tbu.started = true ∧
      t.get F.TBU_STATUS_PLL_LOCK = 1 ∧ t.get F.TBU_D_STATUS_TIME_VALID 0 0 = 0 ∧ t.get F.TBU_D_STATUS_TIME_VALID 0 1 = 0 ∧
      FieldsBut s t [(F.TBU_STATUS_PLL_LOCK, 0, 0), (F.TBU_D_STATUS_TIME_VALID, 0, 0), (F.TBU_D_STATUS_TIME_VALID, 0, 1)] ∧
      t = { s with regs := t.regs, tbu := t.tbu }) := by
  refine ⟨_, rfl, ?_⟩
  simp only [hen, not_true_eq_false, if_false, State.set_tbu, hst, Bool.false_eq_true]
  refine ⟨rfl, rfl, rfl, ?_, ?_, State.get_clr_self _ _ _ _ (by decide), ?_, rfl⟩
  · rw [State.clr, State.clr, State.get_put_key _ _ _ _ _ _ _ _ (by simp), State.get_put_key _ _ _ _ _ _ _ _ (by simp),
      State.setTbu_get, State.get_set_self _ _ _ _ (by decide) (by decide)]
  · rw [State.clr, State.get_put_key _ _ _ _ _ _ _ _ (by simp), State.get_clr_self _ _ _ _ (by decide)]
  · exact ((((FieldsBut.refl s _).set F.TBU_STATUS_PLL_LOCK _ _ (by simp)).of_eq rfl).clr _ _ _ (by simp)).clr _ _ _ (by simp)

theorem timingPllLock_keeps {s : State} (hen : s.flag F.TBU_CTRL_PLL_EN = true) (hst : s.tbu.started = true) :
    Completes .timingPllLock s (fun t => t.get F.TBU_STATUS_PLL_LOCK = 1 ∧ FieldsBut s t [(F.TBU_STATUS_PLL_LOCK, 0, 0)] ∧
      t = { s with regs := t.regs }) := by
  refine ⟨_, rfl, ?_⟩
  simp only [hen, not_true_eq_false, if_false, State.set_tbu, hst, if_true]
  exact ⟨State.get_set_self _ _ _ _ (by decide) (by decide), FieldsBut.put_self _ _ _ _ _, rfl⟩

/-- Nothing waits for the tick of a domain. -/
structure TbuDom.Quiet (x : TbuDom) : Prop where
  incPend : x.incPend = none
  step : x.step = none
  setThisTick : x.setThisTick = false

/-- A domain with another counter and another count of R73. -/
def TbuDom.at (x : TbuDom) (c : Tai) (hold : Nat) : TbuDom := { x with counter := c, hold := hold }

theorem TbuDom.at_counter (x : TbuDom) (c : Tai) (hold : Nat) : (x.at c hold).counter = c := rfl

theorem TbuDom.at_incr (x : TbuDom) (c : Tai) (hold : Nat) : (x.at c hold).incr = x.incr := rfl

/-- A domain after a tick for which nothing waits. -/
def TbuDom.ticked (x : TbuDom) : TbuDom := x.at (x.counter.add x.incr) (x.hold + 1)

theorem State.incCommit_of_none {s : State} {d : Dom} (h : (s.tbu.dom d).incPend = none) : s.incCommit d = s := by
  simp only [State.incCommit, h]

theorem Tbu.setDom_setDom (t : Tbu) (d : Dom) (x y : TbuDom) : (t.setDom d x).setDom d y = t.setDom d y := by cases d <;> rfl

theorem State.domTick_of_quiet {s : State} {d : Dom} {x : TbuDom} (hx : x = s.tbu.dom d) (h : x.Quiet) :
    s.domTick d = s.setDom d x.ticked := by
  subst hx
  obtain ⟨-, hstep, hset⟩ := h
  have hdue : (s.tbu.dom d).stepDue = false := by simp only [TbuDom.stepDue, hstep]
  simp only [State.domTick, hdue, Bool.false_eq_true, if_false, State.setDom, Tbu.setDom_dom, Tbu.setDom_setDom, hstep, hset,
    Option.map_none, TbuDom.ticked, TbuDom.at]

theorem State.whsPass_frame (s : State) : s.whsPass = s.setAft s.whsPass.aft := by
  unfold State.whsPass
  split
  · rfl
  · rfl

theorem State.loadTick_frame (s : State) (a b : Int) : RegsGdx s (s.loadTick a b) ∧ RegsBut s (s.loadTick a b) [.GDX_LOAD] := by
  unfold State.loadTick
  extract_lets _ u v
  have hu : RegsGdx s u := rfl
  have hv : OnlyRegs u v := OnlyRegs.foldl (fun s x => by
    split
    · exact (OnlyRegs.refl s).put _ _ _ _
    · exact OnlyRegs.refl s) _ _
  have hr : RegsBut u v [.GDX_LOAD] := RegsBut.foldl (fun s x => by
    split
    · exact (RegsBut.refl s _).put _ _ _ _ (by decide)
    · exact RegsBut.refl s _) _ _
  split
  · exact ⟨hu, RegsBut.of_regs _ rfl⟩
  · exact ⟨(hu.trans hv.regsGdx).trans (v.setGdx_regsGdx _), ((RegsBut.of_regs _ rfl).trans hr).of_eq rfl⟩

/-- The state in which a tick counts. -/
def State.tickBegun (s : State) : State :=
  (s.setAft { s.aft with delivered := 0 }).setTbu { s.tbu with ticks := s.tbu.ticks + 1 }

/-- The state in which a quiet tick passes the whistles and ends the load windows. -/
def State.counted (s : State) : State := (s.tickBegun.setDom .A s.tbu.a.ticked).setDom .B s.tbu.b.ticked

theorem Tbu.setDom_rest (t : Tbu) (d : Dom) (x : TbuDom) : (t.setDom d x).switch = t.switch ∧ (t.setDom d x).resid = t.resid ∧
    (t.setDom d x).snap = t.snap ∧ (t.setDom d x).ticks = t.ticks := by
  cases d
  · exact ⟨rfl, rfl, rfl, rfl⟩
  · exact ⟨rfl, rfl, rfl, rfl⟩

theorem State.counted_rest (s : State) : s.counted.tbu.switch = s.tbu.switch ∧ s.counted.tbu.resid = s.tbu.resid ∧
    s.counted.tbu.snap = s.tbu.snap ∧ s.counted.tbu.ticks = s.tbu.ticks + 1 := by
  rw [State.counted, State.setDom_tbu, State.setDom_tbu]
  obtain ⟨h₁, h₂, h₃, h₄⟩ := (s.tickBegun.tbu.setDom .A s.tbu.a.ticked).setDom_rest .B s.tbu.b.ticked
  obtain ⟨k₁, k₂, k₃, k₄⟩ := s.tickBegun.tbu.setDom_rest .A s.tbu.a.ticked
  exact ⟨h₁.trans k₁, h₂.trans k₂, h₃.trans k₃, h₄.trans k₄⟩

theorem State.counted_dom (s : State) (d : Dom) : s.counted.tbu.dom d = (s.tbu.dom d).ticked := by
  rw [State.counted, State.setDom_tbu, State.setDom_tbu]
  cases d with
  | A => rw [Tbu.setDom_dom_ne _ (by decide), Tbu.setDom_dom]; rfl
  | B => rw [Tbu.setDom_dom]; rfl

theorem State.counted_regs (s : State) : s.counted.regs = s.regs := by
  rw [State.counted, State.setDom_regs, State.setDom_regs, State.tickBegun, State.setTbu_regs, State.setAft_regs]

theorem State.counted_mem (s : State) : s.counted.mem = s.mem := by
  rw [State.counted, State.setDom_mem, State.setDom_mem, State.tickBegun, State.setTbu_mem, State.setAft_mem]

theorem State.domTicks_of_quiet {s : State} (h : ∀ d, (s.tbu.dom d).Quiet) : (s.tickBegun.domTick .A).domTick .B = s.counted := by
  have hb : (s.tickBegun.setDom .A s.tbu.a.ticked).tbu.dom .B = s.tbu.b := by
    rw [State.setDom_tbu, Tbu.setDom_dom_ne _ (by decide)]
    rfl
  rw [State.domTick_of_quiet (s := s.tickBegun) (x := s.tbu.a) rfl (h .A), State.domTick_of_quiet (d := .B) hb.symm (h .B), State.counted]

theorem State.tick_of_quiet {s : State} (hsw : s.tbu.switch = none) (hr : s.tbu.resid = 0) (hsn : s.tbu.snap = false)
    (h : ∀ d, (s.tbu.dom d).Quiet) : s.tick = s.counted.whsPass.loadTick s.activeUnits s.counted.whsPass.activeUnits := by
  obtain ⟨hsw', hr', hsn', -⟩ := s.counted_rest
  have hA : s.incCommit .A = s := State.incCommit_of_none (h .A).incPend
  have hB : s.incCommit .B = s := State.incCommit_of_none (h .B).incPend
  have htick := State.domTicks_of_quiet h
  have hslew : s.counted.slew = s.counted := if_pos (hr'.trans hr)
  have hsnap : s.counted.whsPass.tbu.snap = false := by rw [State.whsPass_frame, State.setAft_tbu, hsn', hsn]
  rw [hsw] at hsw'
  rw [State.tickBegun] at htick
  simp only [State.tick, hA, hB, State.setAft_tbu, htick, hsw', hslew, hsnap, Bool.false_eq_true, if_false]

theorem TbuDom.ticked_counter (x : TbuDom) : (x.ticked.counter.units : Int) = (x.counter.units + x.incr) % (2 ^ 48 * secUnits : Nat) ∧
    x.ticked.counter.wf ∧ x.ticked.incr = x.incr := by
  rw [TbuDom.ticked, TbuDom.at_counter, TbuDom.at_incr]
  exact ⟨Tai.units_ofUnits _, Tai.add_wf _ _, rfl⟩

theorem timingClockTick_counts {s : State} (hst : s.tbu.started = true) (hsw : s.tbu.switch = none) (hr : s.tbu.resid = 0)
    (hsn : s.tbu.snap = false) (h : ∀ d, (s.tbu.dom d).Quiet) :
    Completes .timingClockTick s (fun t =>
      (∀ d, ((t.tbu.dom d).counter.units : Int) = ((s.tbu.dom d).counter.units + (s.tbu.dom d).incr) % (2 ^ 48 * secUnits : Nat) ∧
        (t.tbu.dom d).counter.wf ∧ (t.tbu.dom d).incr = (s.tbu.dom d).incr) ∧
      t.tbu.ticks = s.tbu.ticks + 1 ∧ RegsBut s t [.GDX_LOAD] ∧ SameMem s t) := by
  refine ⟨s.tick, congrArg _ (if_pos hst), ?_⟩
  have hw : s.counted.whsPass = s.counted.setAft s.counted.whsPass.aft := s.counted.whsPass_frame
  obtain ⟨hg, hregs⟩ := s.counted.whsPass.loadTick_frame s.activeUnits s.counted.whsPass.activeUnits
  rw [← State.tick_of_quiet hsw hr hsn h] at hg hregs
  have htbu : s.tick.tbu = s.counted.tbu := by rw [hg.tbu, hw, State.setAft_tbu]
  have hmem : s.tick.mem = s.mem := by rw [hg.mem, hw, State.setAft_mem, State.counted_mem]
  have hpass : s.counted.whsPass.regs = s.regs := by rw [hw, State.setAft_regs, State.counted_regs]
  refine ⟨fun d => ?_, ?_, (RegsBut.of_regs _ hpass).trans hregs, SameMem.of_mem hmem⟩
  · rw [htbu, State.counted_dom]
    exact (s.tbu.dom d).ticked_counter
  · rw [htbu]
    exact s.counted_rest.2.2.2

/-- Settles O5: a quiet tick is the increment of both domains, with whistles passed and load windows ended. -/
theorem timebaseStartsAndTicks : Obligations.TimebaseStartsAndTicks := by
  unfold Obligations.TimebaseStartsAndTicks
  refine ⟨fun s hen hst => timingPllLock_starts hen hst, fun s hen hst => timingPllLock_keeps hen hst, fun s hst hsw hr hsn h => ?_⟩
  exact timingClockTick_counts hst hsw hr hsn fun d => ⟨(h d).1, (h d).2.1, (h d).2.2⟩

end Sys2Proof.Machine
end

