-- ==== Sys2Proof/Proofs/TimeSteps.lean ====
section
/-! SUPPORT. Sys2Proof/Proofs/TimeSteps.lean: what events and error records leave of the time base, steps and sets that fall due, and the domain switch. -/

namespace Sys2Proof.Machine

/-! ### What events, error records and the judging of whistles leave -/

/-- The time base, the pins and every register but the listed ones are the same. -/
structure KeepsTime (s t : State) (rs : List Reg) : Prop where
  tbu : t.tbu = s.tbu
  pins : t.pins = s.pins
  regs : RegsBut s t rs

section
variable {s t u : State} {rs : List Reg}

theorem KeepsTime.refl (s : State) (rs : List Reg) : KeepsTime s s rs := ⟨rfl, rfl, RegsBut.refl s rs⟩

theorem KeepsTime.trans (h : KeepsTime s t rs) (h' : KeepsTime t u rs) : KeepsTime s u rs :=
  ⟨h'.tbu.trans h.tbu, h'.pins.trans h.pins, h.regs.trans h'.regs⟩

theorem KeepsTime.of_eq (h : KeepsTime s t rs) (h₁ : u.tbu = t.tbu) (h₂ : u.pins = t.pins) (h₃ : u.regs = t.regs) : KeepsTime s u rs :=
  ⟨h₁.trans h.tbu, h₂.trans h.pins, h.regs.of_eq h₃⟩

theorem KeepsTime.put (h : KeepsTime s t rs) (f : Fld) (v i j : Nat) (hf : f.reg ∈ rs) : KeepsTime s (t.put f v i j) rs :=
  ⟨h.tbu, h.pins, h.regs.put f v i j hf⟩

theorem KeepsTime.setHost (h : KeepsTime s t rs) (x : HostIf) : KeepsTime s (t.setHost x) rs := ⟨h.tbu, h.pins, h.regs.of_eq rfl⟩

theorem KeepsTime.send (h : KeepsTime s t rs) (o : Out) : KeepsTime s (t.send o) rs := ⟨h.tbu, h.pins, h.regs.of_eq rfl⟩

theorem KeepsTime.ite {c : Prop} [Decidable c] (h : KeepsTime s t rs) (h' : KeepsTime s u rs) :
    KeepsTime s (if c then t else u) rs := by
  split
  · exact h
  · exact h'

theorem KeepsTime.foldl {α : Type} {f : State → α → State} (hf : ∀ s a, KeepsTime s (f s a) rs) (h : KeepsTime s t rs) (l : List α) :
    KeepsTime s (l.foldl f t) rs := by
  induction l generalizing t with
  | nil => exact h
  | cons a l ih => exact ih (h.trans (hf t a))

end

theorem KeepsTime.of_parts {s t : State} (rs : List Reg) (h₁ : t.tbu = s.tbu) (h₂ : t.pins = s.pins) (h₃ : t.regs = s.regs) :
    KeepsTime s t rs := (KeepsTime.refl s rs).of_eq h₁ h₂ h₃

section
variable (s : State)

theorem State.writeOut_keepsTime (inHost : Bool) (f a : Nat) (bs : List Byte) (rs : List Reg) :
    KeepsTime s (s.writeOut inHost f a bs) rs := by
  unfold State.writeOut
  exact KeepsTime.ite (.of_parts rs rfl rfl rfl) (.of_parts rs rfl rfl rfl)

theorem State.ringSignal_keepsTime (r n : Nat) (rs : List Reg) : KeepsTime s (s.ringSignal r n) rs := by
  unfold State.ringSignal
  split
  · exact .refl s rs
  · exact KeepsTime.ite (KeepsTime.ite (.of_parts rs rfl rfl rfl) (.of_parts rs rfl rfl rfl)) (.of_parts rs rfl rfl rfl)

theorem State.ringPutBytes_keepsTime (r : Nat) (bytes : Nat → List Byte) (buf : Option (Nat × Nat)) :
    KeepsTime s (s.ringPutBytes r bytes buf) [.MBX_RING_TAIL] := by
  unfold State.ringPutBytes
  split
  · exact .refl s _
  next x _ =>
    extract_lets tail u v w z
    have hu : KeepsTime s u [.MBX_RING_TAIL] := s.writeOut_keepsTime ..
    have hv : KeepsTime s v [.MBX_RING_TAIL] := hu.of_eq rfl rfl rfl
    have hw : KeepsTime s w [.MBX_RING_TAIL] := hv.put _ _ _ _ (by decide)
    exact (hw.trans (w.writeOut_keepsTime ..)).trans (State.ringSignal_keepsTime ..)

theorem State.ringPut_keepsTime (r : Nat) (i : ItemWords) (buf : Option (Nat × Nat)) :
    KeepsTime s (s.ringPut r i buf) [.MBX_RING_TAIL] := s.ringPutBytes_keepsTime r i.bytes buf

theorem State.payload_keepsTime (r : Nat) (rs : List Reg) : KeepsTime s (s.payload r).2 rs := by
  simp only [State.payload]
  split
  · exact .of_parts rs rfl rfl rfl
  · split
    · exact .of_parts rs rfl rfl rfl
    · exact .of_parts rs rfl rfl rfl

theorem State.messagePut_eq (r msgId carrier slot : Nat) : s.messagePut r msgId carrier slot =
    (s.payload r).2.ringPut r ⟨msgId, carrier, slot, 31, (s.payload r).1.1, (s.payload r).1.2, 0, 0⟩ none := rfl

theorem State.messagePut_keepsTime (r msgId carrier slot : Nat) : KeepsTime s (s.messagePut r msgId carrier slot) [.MBX_RING_TAIL] := by
  rw [State.messagePut_eq]
  exact (s.payload_keepsTime r _).trans (State.ringPut_keepsTime ..)

theorem State.event_keepsTime (e : Event) : KeepsTime s (s.event e) [.MBX_RING_TAIL] := by
  unfold State.event State.eventTo
  split
  · exact .refl s _
  next r _ _ =>
    exact KeepsTime.ite (KeepsTime.ite (((s.messagePut_keepsTime r 0xF0 0 0).setHost _).send _) (.of_parts _ rfl rfl rfl)) (.refl s _)

theorem State.erqCapture_keepsTime (r : Report) : KeepsTime s (s.erqCapture r) recordRegs :=
  KeepsTime.ite (.refl s _) ((KeepsTime.foldl (fun s _ => (KeepsTime.refl s _).put _ _ _ _ (by decide)) (.refl s _) _).put _ _ _ _ (by decide))

theorem State.erqMerge_keepsTime (r : Report) (w : Nat) : KeepsTime s (s.erqMerge r w) recordRegs := by
  unfold State.erqMerge
  extract_lets a w1 first now u v w
  have hw : KeepsTime s w recordRegs := .of_parts _ rfl rfl rfl
  exact hw.put _ _ _ _ (by decide)

theorem State.setWords_keepsTime (a : Nat) (ws : List Nat) (rs : List Reg) : KeepsTime s (s.setWords a ws) rs := by
  rw [State.setWords_rest]
  exact .of_parts rs rfl rfl rfl

theorem State.erqNew_keepsTime (r : Report) : KeepsTime s (s.erqNew r) recordRegs := by
  unfold State.erqNew
  extract_lets w u v
  have hu : KeepsTime s u recordRegs := s.setWords_keepsTime ..
  clear_value u
  have hv : KeepsTime s v recordRegs := hu.of_eq rfl rfl rfl
  exact ((hv.put F.ECC_ERQ_WR_WR _ _ _ (by decide)).put F.ECC_ERQ_STATUS_NONEMPTY _ _ _ (by decide)).put F.ECC_ERQ_STATUS_LEVEL _ _ _
    (by decide)

theorem State.erqDrop_keepsTime (r : Report) : KeepsTime s (s.erqDrop r) recordRegs :=
  ((KeepsTime.refl s _).put _ _ _ _ (by decide)).put _ _ _ _ (by decide)

theorem State.report_keepsTime (r : Report) : KeepsTime s (s.report r) recordRegs := by
  unfold State.report
  extract_lets u
  have hu : KeepsTime s u recordRegs := s.erqCapture_keepsTime r
  split
  · exact hu.put _ _ _ _ (by decide)
  · split
    · exact hu.trans (State.erqMerge_keepsTime ..)
    · exact KeepsTime.ite (hu.trans (State.erqNew_keepsTime ..)) (hu.trans (State.erqDrop_keepsTime ..))

/-- The registers in which the judging of pin whistles shows (Table 3-8). -/
def judgedRegs : List Reg := [.WHS_PIN_LATE, .WHS_PIN_MISSED, .WHS_PIN_MISSED_CNT, .WHS_PIN_CTRL]

theorem State.cancelMissed_keepsTime (x : WhsCh) (t : Timeline) (c : Int) (rs : List Reg) : KeepsTime s (s.cancelMissed x t c) rs := by
  unfold State.cancelMissed
  split
  · split
    · unfold State.upInst
      split
      · exact .of_parts rs rfl rfl rfl
      · exact .refl s rs
    · exact .refl s rs
  · exact .refl s rs

theorem State.whsJudge_keepsTime (ch : Nat) : KeepsTime s (s.whsJudge ch) judgedRegs := by
  unfold State.whsJudge
  split
  · exact .refl s _
  next x _ =>
    split
    · exact .refl s _
    next t _ =>
      refine KeepsTime.ite (.refl s _) ?_
      extract_lets j gone due u v
      have hu : KeepsTime s u judgedRegs := .of_parts _ rfl rfl rfl
      have hv : KeepsTime s v judgedRegs := KeepsTime.ite (hu.of_eq rfl rfl rfl) hu
      have hm := hv.foldl (fun s c => s.cancelMissed_keepsTime x t c judgedRegs) j.missed
      exact hm.trans (KeepsTime.ite (.refl _ _) (.of_parts _ rfl rfl rfl))

theorem State.pinMissed_keepsTime (n k : Nat) : KeepsTime s (s.pinMissed n k) judgedRegs := by
  unfold State.pinMissed
  refine KeepsTime.ite (.refl s _) (((KeepsTime.refl s _).put _ _ _ _ (by decide)).put _ _ _ _ ?_)
  have h : n % 4 = 0 ∨ n % 4 = 1 ∨ n % 4 = 2 ∨ n % 4 = 3 := by omega
  rcases h with h | h | h | h <;> rw [h] <;> decide

theorem State.pinJudge_keepsTime (n : Nat) : KeepsTime s (s.pinJudge n) judgedRegs := by
  unfold State.pinJudge
  split
  · exact .refl s _
  · split
    · exact .refl s _
    · refine KeepsTime.ite (.refl s _) ?_
      extract_lets j one u v
      have hu : KeepsTime s u judgedRegs := .of_parts _ rfl rfl rfl
      have hv : KeepsTime s v judgedRegs := KeepsTime.ite (hu.put F.WHS_PIN_LATE_LATE _ _ _ (by decide)) hu
      exact (KeepsTime.ite (hv.put F.WHS_PIN_CTRL_EN _ _ _ (by decide)) hv).trans (State.pinMissed_keepsTime ..)

theorem State.whsJudgeAll_keepsTime : KeepsTime s s.whsJudgeAll judgedRegs :=
  KeepsTime.foldl (fun s n => s.pinJudge_keepsTime n) (KeepsTime.foldl (fun s ch => s.whsJudge_keepsTime ch) (.refl s _) _) _

end
/-- Only registers and the time base differ. -/
def RegsTbu (s t : State) : Prop := t = { s with regs := t.regs, tbu := t.tbu }

theorem RegsTbu.refl (s : State) : RegsTbu s s := rfl

theorem RegsTbu.trans {s t u : State} (h : RegsTbu s t) (h' : RegsTbu t u) : RegsTbu s u := by
  unfold RegsTbu at *
  exact h'.trans (congrArg (fun v : State => { v with regs := u.regs, tbu := u.tbu }) h)

section
variable {s t : State} (h : RegsTbu s t)
include h

theorem RegsTbu.put (f : Fld) (v i j : Nat) : RegsTbu s (t.put f v i j) :=
  h.trans (rfl : t.put f v i j = { t with regs := (t.put f v i j).regs, tbu := (t.put f v i j).tbu })

theorem RegsTbu.setTbu (x : Tbu) : RegsTbu s (t.setTbu x) := h.trans rfl

theorem RegsTbu.setDom (d : Dom) (x : TbuDom) : RegsTbu s (t.setDom d x) := h.trans rfl

theorem RegsTbu.aft : t.aft = s.aft := by unfold RegsTbu at h; rw [h]

end

/-! ### Steps and sets fall due (R44, R45, R47) -/

theorem State.active_congr {s t : State} (h : t.get F.TBU_CTRL_ACTIVE = s.get F.TBU_CTRL_ACTIVE) : t.active = s.active := by
  rw [State.active, State.active, h]

/-- The state in which a due step or set is judged: it is pending no more. -/
def State.stepTaken (s : State) (d : Dom) : State :=
  (s.setDom d { s.tbu.dom d with step := none }).clr F.TBU_D_STATUS_STEP_PENDING 0 (domIdx d)

section
variable (s : State) (d : Dom)

theorem State.stepTaken_get (f : Fld) (hf : f.reg ≠ .TBU_D_STATUS) : (s.stepTaken d).get f = s.get f :=
  State.get_put_key _ _ _ _ _ _ _ _ (by simp [hf])

theorem State.stepTaken_active : (s.stepTaken d).active = s.active := State.active_congr (s.stepTaken_get d _ (by decide))

theorem State.stepTaken_dom : (s.stepTaken d).tbu.dom d = { s.tbu.dom d with step := none } := Tbu.setDom_dom _ _ _

theorem State.stepTaken_dom_ne {e : Dom} (h : e ≠ d) : (s.stepTaken d).tbu.dom e = s.tbu.dom e := Tbu.setDom_dom_ne _ h _

theorem State.stepTaken_pending : (s.stepTaken d).get F.TBU_D_STATUS_STEP_PENDING 0 (domIdx d) = 0 :=
  State.get_clr_self _ _ _ _ (by decide)

theorem State.stepTaken_fields : FieldsBut s (s.stepTaken d) [(F.TBU_D_STATUS_STEP_PENDING, 0, domIdx d)] :=
  (FieldsBut.of_regs _ rfl).clr _ _ _ (by simp)

/-- The state after a due step or set that is taken: the counter stands at c. -/
def State.stepDone (s : State) (d : Dom) (c : Tai) (isSet : Bool) : State :=
  (s.stepTaken d).setDom d { (s.stepTaken d).tbu.dom d with
    counter := c, setThisTick := isSet || ((s.stepTaken d).tbu.dom d).setThisTick }

theorem State.stepDone_dom (c : Tai) (isSet : Bool) : (s.stepDone d c isSet).tbu.dom d =
    { s.tbu.dom d with step := none, counter := c, setThisTick := isSet || (s.tbu.dom d).setThisTick } := by
  rw [State.stepDone, State.setDom_tbu, Tbu.setDom_dom, State.stepTaken_dom]

theorem State.stepDone_dom_ne (c : Tai) (isSet : Bool) {e : Dom} (h : e ≠ d) : (s.stepDone d c isSet).tbu.dom e = s.tbu.dom e := by
  rw [State.stepDone, State.setDom_tbu, Tbu.setDom_dom_ne _ h, State.stepTaken_dom_ne _ _ h]

theorem State.stepDone_regs (c : Tai) (isSet : Bool) : (s.stepDone d c isSet).regs = (s.stepTaken d).regs := State.setDom_regs _ _ _

end

section
variable {s : State} {d : Dom} {a : Int} {bad : Bool} {n : Nat}

theorem State.stepApply_eq (h : (s.tbu.dom d).step = some ⟨false, a, bad, n⟩) :
    s.stepApply d = if (s.stepTaken d).active = d ∧ nsUnits ((s.stepTaken d).get F.TBU_JUMP_LIMIT_LIMIT_NS) < a.natAbs then
        ((s.stepTaken d).set F.TBU_D_STATUS_JUMP_REFUSED 0 (domIdx d)).event (.time d .jumpRefused)
      else
        let u := s.stepDone d ((s.tbu.dom d).counter.add a) false
        if u.active = d ∧ 0 < a ∧ u.flag F.WHS_CTRL_EN then u.whsJudgeAll else u := by
  unfold State.stepApply
  dsimp only
  rw [h]
  rfl

theorem State.setApply_eq (h : (s.tbu.dom d).step = some ⟨true, a, bad, n⟩) :
    s.setApply d = if bad ∨ (s.stepTaken d).active = d ∧ (s.stepTaken d).anyTl then
        (s.stepTaken d).set F.TBU_D_STATUS_SET_REFUSED 0 (domIdx d)
      else (s.stepDone d (Tai.ofUnits a) true).set F.TBU_D_STATUS_TIME_VALID 0 (domIdx d) := by
  unfold State.setApply
  dsimp only
  rw [h]
  rfl

theorem State.stepTaken_only (s : State) (d : Dom) : RegsTbu s (s.stepTaken d) := ((RegsTbu.refl s).setDom _ _).put _ _ _ _

theorem State.stepDone_only (s : State) (d : Dom) (c : Tai) (isSet : Bool) : RegsTbu s (s.stepDone d c isSet) :=
  (s.stepTaken_only d).setDom _ _

theorem State.stepDone_active (s : State) (d : Dom) (c : Tai) (isSet : Bool) : (s.stepDone d c isSet).active = s.active := by
  rw [← s.stepTaken_active d, State.active, State.active, State.stepDone, State.setDom_get]

theorem nsUnits_lt (m : Nat) (x : Nat) : nsUnits m < x ↔ (m : Int) * 2 ^ 32 < x := by
  rw [nsUnits]
  push_cast
  rfl

theorem TbuDom.stepDue_of_step {x : TbuDom} {isSet : Bool} (h : x.step = some ⟨isSet, a, bad, n⟩) (hn : n ≤ 1) : x.stepDue = true := by
  simp only [TbuDom.stepDue, h, hn, decide_true]

theorem exec_stepApply (h : (s.tbu.dom d).step = some ⟨false, a, bad, n⟩) (hn : n ≤ 1) :
    exec (.stepApply d) s = .next (s.stepApply d) := congrArg _ (if_pos (TbuDom.stepDue_of_step h hn))

theorem exec_setApply (h : (s.tbu.dom d).step = some ⟨true, a, bad, n⟩) (hn : n ≤ 1) :
    exec (.setApply d) s = .next (s.setApply d) := congrArg _ (if_pos (TbuDom.stepDue_of_step h hn))

theorem State.judged_keepsTime (s : State) (c : Prop) [Decidable c] : KeepsTime s (if c then s.whsJudgeAll else s) judgedRegs :=
  KeepsTime.ite s.whsJudgeAll_keepsTime (.refl s _)

theorem KeepsTime.get {s t : State} {rs : List Reg} (h : KeepsTime s t rs) (f : Fld) (hf : f.reg ∉ rs) (i j : Nat) :
    t.get f i j = s.get f i j := h.regs.get f hf i j

theorem State.stepDone_pending (s : State) (d : Dom) (c : Tai) (isSet : Bool) :
    (s.stepDone d c isSet).get F.TBU_D_STATUS_STEP_PENDING 0 (domIdx d) = 0 := s.stepTaken_pending d

theorem State.stepDone_fields (s : State) (d : Dom) (c : Tai) (isSet : Bool) :
    FieldsBut s (s.stepDone d c isSet) [(F.TBU_D_STATUS_STEP_PENDING, 0, domIdx d)] :=
  (s.stepTaken_fields d).of_eq (s.stepDone_regs d c isSet)

theorem stepApply_takes (h : (s.tbu.dom d).step = some ⟨false, a, bad, n⟩) (hn : n ≤ 1)
    (hl : s.active ≠ d ∨ (a.natAbs : Int) ≤ (s.get F.TBU_JUMP_LIMIT_LIMIT_NS : Int) * 2 ^ 32) :
    Completes (.stepApply d) s (fun t =>
      t.tbu.dom d = { s.tbu.dom d with step := none, counter := (s.tbu.dom d).counter.add a } ∧
      t.get F.TBU_D_STATUS_STEP_PENDING 0 (domIdx d) = 0 ∧ (∀ e, e ≠ d → t.tbu.dom e = s.tbu.dom e) ∧
      (s.active ≠ d ∨ a ≤ 0 ∨ s.get F.WHS_CTRL_EN = 0 →
        FieldsBut s t [(F.TBU_D_STATUS_STEP_PENDING, 0, domIdx d)] ∧ t = { s with regs := t.regs, tbu := t.tbu })) := by
  have hno : ¬ ((s.stepTaken d).active = d ∧ nsUnits ((s.stepTaken d).get F.TBU_JUMP_LIMIT_LIMIT_NS) < a.natAbs) := by
    rw [State.stepTaken_active, State.stepTaken_get _ _ _ (by decide), nsUnits_lt]
    rintro ⟨ha, hlt⟩
    exact hl.elim (fun h => h ha) (fun h => absurd hlt (not_lt.2 h))
  refine ⟨_, exec_stepApply h hn, ?_⟩
  rw [State.stepApply_eq h, if_neg hno]
  dsimp only
  have hj := (s.stepDone d ((s.tbu.dom d).counter.add a) false).judged_keepsTime
    ((s.stepDone d ((s.tbu.dom d).counter.add a) false).active = d ∧ 0 < a ∧
      (s.stepDone d ((s.tbu.dom d).counter.add a) false).flag F.WHS_CTRL_EN = true)
  refine ⟨?_, ?_, fun e he => ?_, fun hq => ?_⟩
  · rw [hj.tbu, State.stepDone_dom, Bool.false_or]
  · rw [hj.get _ (by decide), State.stepDone_pending]
  · rw [hj.tbu, State.stepDone_dom_ne _ _ _ _ he]
  · have hen : (s.stepDone d ((s.tbu.dom d).counter.add a) false).get F.WHS_CTRL_EN = s.get F.WHS_CTRL_EN :=
      s.stepTaken_get d F.WHS_CTRL_EN (by decide)
    rw [if_neg]
    · exact ⟨s.stepDone_fields d _ _, s.stepDone_only d _ _⟩
    · rw [State.stepDone_active, State.flag, hen]
      rintro ⟨h₁, h₂, h₃⟩
      rcases hq with hq | hq | hq
      · exact hq h₁
      · exact absurd h₂ (not_lt.2 hq)
      · simp [hq] at h₃

theorem stepApply_refuses (h : (s.tbu.dom d).step = some ⟨false, a, bad, n⟩) (hn : n ≤ 1) (ha : s.active = d)
    (hl : (s.get F.TBU_JUMP_LIMIT_LIMIT_NS : Int) * 2 ^ 32 < (a.natAbs : Int)) :
    Completes (.stepApply d) s (fun t =>
      t.tbu.dom d = { s.tbu.dom d with step := none } ∧ t.get F.TBU_D_STATUS_JUMP_REFUSED 0 (domIdx d) = 1 ∧
      t.get F.TBU_D_STATUS_STEP_PENDING 0 (domIdx d) = 0) := by
  have hyes : (s.stepTaken d).active = d ∧ nsUnits ((s.stepTaken d).get F.TBU_JUMP_LIMIT_LIMIT_NS) < a.natAbs := by
    rw [State.stepTaken_active, State.stepTaken_get _ _ _ (by decide), nsUnits_lt]
    exact ⟨ha, hl⟩
  refine ⟨_, exec_stepApply h hn, ?_⟩
  rw [State.stepApply_eq h, if_pos hyes]
  have he := ((s.stepTaken d).set F.TBU_D_STATUS_JUMP_REFUSED 0 (domIdx d)).event_keepsTime (.time d .jumpRefused)
  refine ⟨?_, ?_, ?_⟩
  · rw [he.tbu, State.set_tbu, State.stepTaken_dom]
  · rw [he.get _ (by decide), State.get_set_self _ _ _ _ (by decide) (by decide)]
  · rw [he.get _ (by decide), State.set, State.get_put_fld _ _ _ _ _ _ _ _ (by decide) (by decide), State.stepTaken_pending]

theorem setApply_takes (h : (s.tbu.dom d).step = some ⟨true, a, bad, n⟩) (hn : n ≤ 1) (hb : bad = false)
    (ht : s.active ≠ d ∨ s.aft.tls = []) :
    Completes (.setApply d) s (fun t =>
      (t.tbu.dom d).counter = Tai.ofUnits a ∧ (t.tbu.dom d).step = none ∧
      t.get F.TBU_D_STATUS_TIME_VALID 0 (domIdx d) = 1 ∧ t.get F.TBU_D_STATUS_STEP_PENDING 0 (domIdx d) = 0 ∧
      FieldsBut s t [(F.TBU_D_STATUS_STEP_PENDING, 0, domIdx d), (F.TBU_D_STATUS_TIME_VALID, 0, domIdx d)] ∧
      (∀ e, e ≠ d → t.tbu.dom e = s.tbu.dom e) ∧ t = { s with regs := t.regs, tbu := t.tbu }) := by
  have hno : ¬ (bad = true ∨ (s.stepTaken d).active = d ∧ (s.stepTaken d).anyTl = true) := by
    rw [State.stepTaken_active, State.anyTl, (s.stepTaken_only d).aft, hb]
    simpa [imp_iff_not_or] using ht
  refine ⟨_, exec_setApply h hn, ?_⟩
  rw [State.setApply_eq h, if_neg hno]
  refine ⟨?_, ?_, State.get_set_self _ _ _ _ (by decide) (by decide), ?_, ?_, fun e he => ?_, ?_⟩
  · rw [State.set_tbu, State.stepDone_dom]
  · rw [State.set_tbu, State.stepDone_dom]
  · rw [State.set, State.get_put_fld _ _ _ _ _ _ _ _ (by decide) (by decide), State.stepDone_pending]
  · exact ((s.stepDone_fields d _ _).mono (by simp)).set _ _ _ (by simp)
  · rw [State.set_tbu, State.stepDone_dom_ne _ _ _ _ he]
  · exact (s.stepDone_only d _ _).put _ _ _ _

theorem setApply_refuses (h : (s.tbu.dom d).step = some ⟨true, a, bad, n⟩) (hn : n ≤ 1)
    (ht : bad = true ∨ s.active = d ∧ s.aft.tls ≠ []) :
    Completes (.setApply d) s (fun t =>
      t.tbu.dom d = { s.tbu.dom d with step := none } ∧ t.get F.TBU_D_STATUS_SET_REFUSED 0 (domIdx d) = 1 ∧
      t.get F.TBU_D_STATUS_STEP_PENDING 0 (domIdx d) = 0 ∧
      FieldsBut s t [(F.TBU_D_STATUS_STEP_PENDING, 0, domIdx d), (F.TBU_D_STATUS_SET_REFUSED, 0, domIdx d)] ∧
      (∀ e, e ≠ d → t.tbu.dom e = s.tbu.dom e) ∧ t = { s with regs := t.regs, tbu := t.tbu }) := by
  have hyes : bad = true ∨ (s.stepTaken d).active = d ∧ (s.stepTaken d).anyTl = true := by
    rw [State.stepTaken_active, State.anyTl, (s.stepTaken_only d).aft]
    simpa using ht
  refine ⟨_, exec_setApply h hn, ?_⟩
  rw [State.setApply_eq h, if_pos hyes]
  refine ⟨s.stepTaken_dom d, State.get_set_self _ _ _ _ (by decide) (by decide), ?_, ?_, fun e he => s.stepTaken_dom_ne d he, ?_⟩
  · rw [State.set, State.get_put_fld _ _ _ _ _ _ _ _ (by decide) (by decide), State.stepTaken_pending]
  · exact ((s.stepTaken_fields d).mono (by simp)).set _ _ _ (by simp)
  · exact (s.stepTaken_only d).put _ _ _ _

end

/-- Settles O8: a due step or set is pending no more, and its limit or its timelines decide whether the counter moves. -/
theorem stepsAndSetsApplyOrAreRefused : Obligations.StepsAndSetsApplyOrAreRefused := by
  unfold Obligations.StepsAndSetsApplyOrAreRefused
  intro d a bad n s hn
  exact ⟨fun h => ⟨stepApply_takes h hn, fun hr => stepApply_refuses h hn hr.1 hr.2⟩,
    fun h => ⟨fun ht => setApply_takes h hn ht.1 ht.2, setApply_refuses h hn⟩⟩

/-! ### The domain switch and the slew (R51 to R54) -/

/-- The state in which a switch request is judged: the fields of TBU_SWITCH are stored. -/
def State.switchStored (s : State) (target : Dom) (force : Bool) (refTl : Nat) : State :=
  s.putAll 0 0 [(F.TBU_SWITCH_TARGET, domIdx target), (F.TBU_SWITCH_FORCE, if force then 1 else 0), (F.TBU_SWITCH_REF_TL, refTl)]

section
variable (s : State) (d : Dom) (force : Bool) (tl : Nat)

theorem State.switchStored_only : RegsTbu s (s.switchStored d force tl) := (((RegsTbu.refl s).put _ _ _ _).put _ _ _ _).put _ _ _ _

theorem State.switchStored_regs : RegsBut s (s.switchStored d force tl) [.TBU_SWITCH] := (RegsBut.refl s _).putAll _ _ _ (by simp)

theorem State.switchStored_active : (s.switchStored d force tl).active = s.active :=
  State.active_congr ((s.switchStored_regs d force tl).get F.TBU_CTRL_ACTIVE (by decide) 0 0)

theorem domIdx_lt : domIdx d < 2 := by cases d <;> decide

theorem State.switchStored_fields (h : tl < 2 ^ 8) : (s.switchStored d force tl).get F.TBU_SWITCH_TARGET = domIdx d ∧
    (s.switchStored d force tl).get F.TBU_SWITCH_FORCE = (if force then 1 else 0) ∧
    (s.switchStored d force tl).get F.TBU_SWITCH_REF_TL = tl := by
  simp only [State.switchStored, State.putAll]
  refine ⟨?_, ?_, ?_⟩
  · rw [State.get_put_fld _ _ _ _ _ _ _ _ (by decide) (by decide), State.get_put_fld _ _ _ _ _ _ _ _ (by decide) (by decide),
      State.get_put_self _ _ _ _ _ (by decide)]
    exact Nat.mod_eq_of_lt (domIdx_lt d)
  · rw [State.get_put_fld _ _ _ _ _ _ _ _ (by decide) (by decide), State.get_put_self _ _ _ _ _ (by decide)]
    cases force
    · rfl
    · rfl
  · rw [State.get_put_self _ _ _ _ _ (by decide)]
    exact Nat.mod_eq_of_lt h

theorem State.switchGo_eq : s.switchGo d force tl = if s.tbu.switch.isSome then (s.switchStored d force tl).set F.TBU_STATUS_SWITCH_BUSY
    else if s.active = d then s.switchStored d force tl
    else ((s.switchStored d force tl).setTbu { s.tbu with switch := some ⟨d, force, tl⟩ }).set F.TBU_STATUS_SWITCH_PENDING := by
  rw [← s.switchStored_active d force tl]
  rfl

theorem State.switchGo_frame : RegsBut s (s.switchGo d force tl) [.TBU_SWITCH, .TBU_STATUS] ∧ RegsTbu s (s.switchGo d force tl) := by
  have hr : RegsBut s (s.switchStored d force tl) [.TBU_SWITCH, .TBU_STATUS] := (s.switchStored_regs d force tl).mono (by simp)
  have ho := s.switchStored_only d force tl
  rw [State.switchGo_eq]
  split
  · exact ⟨hr.put _ _ _ _ (by decide), ho.put _ _ _ _⟩
  · split
    · exact ⟨hr, ho⟩
    · exact ⟨(hr.of_eq rfl).put _ _ _ _ (by decide), (ho.setTbu _).put _ _ _ _⟩

theorem State.switchGo_fields (h : tl < 2 ^ 8) : (s.switchGo d force tl).get F.TBU_SWITCH_TARGET = domIdx d ∧
    (s.switchGo d force tl).get F.TBU_SWITCH_FORCE = (if force then 1 else 0) ∧
    (s.switchGo d force tl).get F.TBU_SWITCH_REF_TL = tl := by
  have hf := s.switchStored_fields d force tl h
  have hk : ∀ f : Fld, f.reg = .TBU_SWITCH → (s.switchGo d force tl).get f = (s.switchStored d force tl).get f := by
    intro f hf
    rw [State.switchGo_eq]
    split
    · exact State.get_put_key _ _ _ _ _ _ _ _ (by simp [hf])
    · split
      · rfl
      · exact State.get_put_key _ _ _ _ _ _ _ _ (by simp [hf])
  rw [hk _ rfl, hk _ rfl, hk _ rfl]
  exact hf

end

theorem tbuSwitchRequest_holds (d : Dom) (force : Bool) (tl : BitVec 8) (s : State) :
    Completes (.tbuSwitchRequest d force tl) s (fun t =>
      t.get F.TBU_SWITCH_TARGET = domIdx d ∧ t.get F.TBU_SWITCH_FORCE = (if force then 1 else 0) ∧ t.get F.TBU_SWITCH_REF_TL = tl.toNat ∧
      (s.tbu.switch = none → s.active ≠ d → t.tbu.switch = some ⟨d, force, tl.toNat⟩ ∧ t.get F.TBU_STATUS_SWITCH_PENDING = 1) ∧
      (s.tbu.switch = none → s.active = d → t.tbu = s.tbu ∧ t.rd ⟨.TBU_STATUS, 0, 0⟩ = s.rd ⟨.TBU_STATUS, 0, 0⟩) ∧
      (s.tbu.switch ≠ none → t.tbu = s.tbu ∧ t.get F.TBU_STATUS_SWITCH_BUSY = 1) ∧
      RegsBut s t [.TBU_SWITCH, .TBU_STATUS] ∧ t = { s with regs := t.regs, tbu := t.tbu }) := by
  obtain ⟨h₁, h₂, h₃⟩ := s.switchGo_fields d force tl.toNat tl.isLt
  obtain ⟨hr, ho⟩ := s.switchGo_frame d force tl.toNat
  have htbu : (s.switchStored d force tl.toNat).tbu = s.tbu := State.putAll_tbu _ _ _ _
  refine ⟨s.switchGo d force tl.toNat, rfl, h₁, h₂, h₃, fun hn ha => ?_, fun hn ha => ?_, fun hn => ?_, hr, ho⟩
  · rw [State.switchGo_eq, hn, if_neg (by simp), if_neg ha]
    exact ⟨rfl, State.get_set_self _ _ _ _ (by decide) (by decide)⟩
  · rw [State.switchGo_eq, hn, if_neg (by simp), if_pos ha]
    exact ⟨htbu, s.switchStored_regs d force tl.toNat _ (by decide)⟩
  · rw [State.switchGo_eq, if_pos (Option.isSome_iff_ne_none.2 hn)]
    exact ⟨htbu, State.get_set_self _ _ _ _ (by decide) (by decide)⟩

/-! The switch point. -/

theorem State.slewShow_frame (s : State) : FieldsBut s s.slewShow [(F.TBU_STATUS_SLEWING, 0, 0), (F.TBU_SLEW_RESID_NS_RESID_NS, 0, 0)] ∧
    RegsTbu s s.slewShow ∧ s.slewShow.tbu = s.tbu :=
  ⟨((FieldsBut.refl s _).setTo _ _ _ _ (by simp)).put _ _ _ _ (by simp), ((RegsTbu.refl s).put _ _ _ _).put _ _ _ _, rfl⟩

theorem FieldsBut.regs {s t : State} {fs : List FieldAt} (h : FieldsBut s t fs) : RegsBut s t (fs.map (·.1.reg)) := by
  intro k hk
  apply BitVec.eq_of_getLsbD_eq
  intro b _
  refine h k b fun x hx hc => hk ?_
  rw [hc.1]
  exact List.mem_map_of_mem hx

/-- The state in which a switch that is taken shows its slew. -/
def State.switchTaken (s : State) (r : SwitchReq) (beyond : Bool) : State :=
  let u := (((s.setTbu { s.tbu with switch := none }).clr F.TBU_STATUS_SWITCH_PENDING).setTbu
    { s.tbu with switch := none, resid := s.activeUnits - (s.tbu.dom r.target).counter.units }).put F.TBU_CTRL_ACTIVE (domIdx r.target)
  if beyond then u.set F.TBU_STATUS_FORCED else u

/-- Would a switch leave a residual above the jump limit (R52)? -/
def State.switchBeyond (s : State) (r : SwitchReq) : Bool :=
  decide (nsUnits (s.get F.TBU_JUMP_LIMIT_LIMIT_NS) < (s.activeUnits - (s.tbu.dom r.target).counter.units).natAbs)

theorem State.switchBeyond_iff (s : State) (r : SwitchReq) : s.switchBeyond r = true ↔
    (s.get F.TBU_JUMP_LIMIT_LIMIT_NS : Int) * 2 ^ 32 < (s.activeUnits - (s.tbu.dom r.target).counter.units).natAbs := by
  rw [State.switchBeyond, decide_eq_true_eq, nsUnits_lt]

theorem State.switchPoint_eq {s : State} {r : SwitchReq} (h : s.tbu.switch = some r) :
    s.switchPoint = if s.switchBeyond r ∧ ¬ r.force then
        (((s.setTbu { s.tbu with switch := none }).clr F.TBU_STATUS_SWITCH_PENDING).set F.TBU_STATUS_SWITCH_REFUSED).event
          (.time r.target .switchRefused)
      else (s.switchTaken r (s.switchBeyond r)).slewShow := by
  unfold State.switchPoint
  simp only [h, State.switchTaken, State.switchBeyond, decide_eq_true_eq]
  rfl

section
variable (s : State) (r : SwitchReq) (b : Bool)

theorem State.switchTaken_tbu : (s.switchTaken r b).tbu =
    { s.tbu with switch := none, resid := s.activeUnits - (s.tbu.dom r.target).counter.units } := by
  cases b
  · rfl
  · rfl

theorem State.switchTaken_get_active : (s.switchTaken r b).get F.TBU_CTRL_ACTIVE = domIdx r.target := by
  have h (u : State) : (u.put F.TBU_CTRL_ACTIVE (domIdx r.target)).get F.TBU_CTRL_ACTIVE = domIdx r.target :=
    (State.get_put_self _ _ _ _ _ (by decide)).trans (Nat.mod_eq_of_lt (domIdx_lt _))
  cases b
  · exact h _
  · exact (State.get_put_key _ _ _ _ _ _ _ _ (by simp)).trans (h _)

theorem State.switchTaken_pending : (s.switchTaken r b).get F.TBU_STATUS_SWITCH_PENDING = 0 := by
  have h (u : State) (x : Tbu) (v : Nat) : (((u.clr F.TBU_STATUS_SWITCH_PENDING).setTbu x).put F.TBU_CTRL_ACTIVE v).get
      F.TBU_STATUS_SWITCH_PENDING = 0 := by
    rw [State.get_put_key _ _ _ _ _ _ _ _ (by simp), State.setTbu_get, State.get_clr_self _ _ _ _ (by decide)]
  cases b
  · exact h _ _ _
  · exact (State.get_put_fld _ _ _ _ _ _ _ _ (by decide) (by decide)).trans (h _ _ _)

theorem State.switchTaken_frame : RegsBut s (s.switchTaken r b) [.TBU_STATUS, .TBU_CTRL] ∧ RegsTbu s (s.switchTaken r b) := by
  have hr : RegsBut s (s.switchTaken r false) [.TBU_STATUS, .TBU_CTRL] :=
    (RegsBut.of_eq (RegsBut.put (RegsBut.of_regs _ rfl) F.TBU_STATUS_SWITCH_PENDING 0 0 0 (by decide)) rfl).put _ _ _ _ (by decide)
  have ho : RegsTbu s (s.switchTaken r false) := ((((RegsTbu.refl s).setTbu _).put _ _ _ _).setTbu _).put _ _ _ _
  cases b
  · exact ⟨hr, ho⟩
  · exact ⟨hr.put _ _ _ _ (by decide), ho.put _ _ _ _⟩

theorem domOf_domIdx (d : Dom) : domOf (domIdx d) = d := by cases d <;> rfl

theorem State.slewShow_get (f : Fld) (hf : f.reg ≠ .TBU_SLEW_RESID_NS) (hs : f.lo + f.len ≤ 32) (hl : 2 ≤ f.lo ∨ f.reg ≠ .TBU_STATUS)
    : s.slewShow.get f = s.get f := by
  rw [State.slewShow, State.get_put_key _ _ _ _ _ _ _ _ (by simp [hf]), State.setTo]
  rcases hl with hl | hl
  · exact State.get_put_fld _ _ _ _ _ _ _ _ hs (Or.inl hl)
  · exact State.get_put_key _ _ _ _ _ _ _ _ (by simp [hl])

/-- A switch that is taken makes the target active and leaves the active time (R51, R52). -/
theorem State.switchTaken_continuous : (s.switchTaken r b).slewShow.active = r.target ∧
    (s.switchTaken r b).slewShow.activeUnits = s.activeUnits := by
  have ha : (s.switchTaken r b).slewShow.active = r.target := by
    rw [State.active, State.slewShow_get _ _ (by decide) (by decide) (by decide), State.switchTaken_get_active, domOf_domIdx]
  have hd (x y : Option SwitchReq) (i : Int) : ({ s.tbu with switch := x, resid := i } : Tbu).dom r.target = s.tbu.dom r.target := by
    cases r.target
    · rfl
    · rfl
  refine ⟨ha, ?_⟩
  rw [State.activeUnits, ha, (s.switchTaken r b).slewShow_frame.2.2, State.switchTaken_tbu, hd none none]
  exact add_sub_cancel _ _

end

section
variable {r : SwitchReq} {s : State} (h : s.tbu.switch = some r)
include h

theorem switchPoint_takes
    (hl : (s.activeUnits - (s.tbu.dom r.target).counter.units).natAbs ≤ (s.get F.TBU_JUMP_LIMIT_LIMIT_NS : Int) * 2 ^ 32 ∨ r.force = true) :
    Completes .switchPoint s (fun t => t.active = r.target ∧ t.activeUnits = s.activeUnits ∧ t.tbu.switch = none ∧
        t.get F.TBU_STATUS_SWITCH_PENDING = 0 ∧
        ((s.get F.TBU_JUMP_LIMIT_LIMIT_NS : Int) * 2 ^ 32 < (s.activeUnits - (s.tbu.dom r.target).counter.units).natAbs →
          t.get F.TBU_STATUS_FORCED = 1) ∧
        RegsBut s t [.TBU_STATUS, .TBU_CTRL, .TBU_SLEW_RESID_NS] ∧ t = { s with regs := t.regs, tbu := t.tbu }) := by
  refine ⟨s.switchPoint, rfl, ?_⟩
  obtain ⟨ha, hu⟩ := s.switchTaken_continuous r (s.switchBeyond r)
  obtain ⟨hr, ho⟩ := s.switchTaken_frame r (s.switchBeyond r)
  obtain ⟨hf, ho', ht⟩ := (s.switchTaken r (s.switchBeyond r)).slewShow_frame
  rw [State.switchPoint_eq h, if_neg]
  · refine ⟨ha, hu, ?_, ?_, fun hb => ?_, (hr.mono (by simp)).trans (hf.regs.mono (by simp)), ho.trans ho'⟩
    · rw [ht, State.switchTaken_tbu]
    · rw [State.slewShow_get _ _ (by decide) (by decide) (by decide), State.switchTaken_pending]
    · rw [State.slewShow_get _ _ (by decide) (by decide) (by decide), (s.switchBeyond_iff r).2 hb]
      exact State.get_set_self _ _ _ _ (by decide) (by decide)
  · rw [State.switchBeyond_iff]
    rintro ⟨h₁, h₂⟩
    exact hl.elim (fun h => absurd h₁ (not_lt.2 h)) h₂

theorem switchPoint_refuses
    (hl : (s.get F.TBU_JUMP_LIMIT_LIMIT_NS : Int) * 2 ^ 32 < (s.activeUnits - (s.tbu.dom r.target).counter.units).natAbs)
    (hf : r.force = false) :
    Completes .switchPoint s (fun t => t.tbu = { s.tbu with switch := none } ∧ t.get F.TBU_STATUS_SWITCH_REFUSED = 1) := by
  refine ⟨s.switchPoint, rfl, ?_⟩
  rw [State.switchPoint_eq h, if_pos ⟨(s.switchBeyond_iff r).2 hl, by simp [hf]⟩]
  have he := (((s.setTbu { s.tbu with switch := none }).clr F.TBU_STATUS_SWITCH_PENDING).set F.TBU_STATUS_SWITCH_REFUSED).event_keepsTime
    (.time r.target .switchRefused)
  refine ⟨?_, ?_⟩
  · rw [he.tbu, State.set_tbu, State.clr_tbu, State.setTbu_tbu]
  · rw [he.get _ (by decide), State.get_set_self _ _ _ _ (by decide) (by decide)]

end

theorem exec_slewComplete {s : State} (h : s.tbu.resid.natAbs ≤ 68) :
    exec .slewComplete s = .next (s.setTbu { s.tbu with resid := 0 }).slewShow := congrArg Host.Outcome.next (if_pos h)

theorem slewComplete_ends {s : State} (h : s.tbu.resid.natAbs ≤ 68) :
    Completes .slewComplete s (fun t => t.tbu = { s.tbu with resid := 0 } ∧ t.get F.TBU_STATUS_SLEWING = 0 ∧
      t.get F.TBU_SLEW_RESID_NS_RESID_NS = 0 ∧ FieldsBut s t [(F.TBU_STATUS_SLEWING, 0, 0), (F.TBU_SLEW_RESID_NS_RESID_NS, 0, 0)] ∧
      t = { s with regs := t.regs, tbu := t.tbu }) := by
  refine ⟨_, exec_slewComplete h, ?_⟩
  obtain ⟨hf, ho, ht⟩ := (s.setTbu { s.tbu with resid := 0 }).slewShow_frame
  refine ⟨ht, ?_, ?_, (FieldsBut.of_regs _ rfl).trans hf, ((RegsTbu.refl s).setTbu _).trans ho⟩
  · rw [State.slewShow, State.get_put_key _ _ _ _ _ _ _ _ (by simp), State.setTo, State.get_put_self _ _ _ _ _ (by decide)]
    rfl
  · rw [State.slewShow, State.get_put_self _ _ _ _ _ (by decide)]
    rfl

/-- Settles O10: the residual that a taken switch leaves is what keeps the active time, and a slew ends at zero. -/
theorem domainSwitchesAreContinuous : Obligations.DomainSwitchesAreContinuous := by
  unfold Obligations.DomainSwitchesAreContinuous
  exact ⟨tbuSwitchRequest_holds, fun r s h => ⟨switchPoint_takes h, switchPoint_refuses h⟩, fun s h => slewComplete_ends h⟩

end Sys2Proof.Machine
end

