-- ==== Sys2Proof/Proofs/TimeSignals.lean ====
section
/-! SUPPORT. Sys2Proof/Proofs/TimeSignals.lean: snapshots, the monitor of the reference clock, pulses per second and shorted outputs. -/

namespace Sys2Proof.Machine

/-! ### Fields put one after another -/

/-- A field that a list of fields of one unit does not put keeps its value. -/
theorem State.get_putAll_ne (s : State) (l : List (Fld × Nat)) (i j : Nat) (g : Fld) (i' j' : Nat) (h : g.lo + g.len ≤ 32)
    (hd : ∀ x ∈ l, (⟨g.reg, i', j'⟩ : RegKey) ≠ ⟨x.1.reg, i, j⟩ ∨ x.1.lo + x.1.len ≤ g.lo ∨ g.lo + g.len ≤ x.1.lo) :
    (s.putAll i j l).get g i' j' = s.get g i' j' := by
  induction l generalizing s with
  | nil => rfl
  | cons x xs ih =>
    rw [State.putAll, ih _ fun y hy => hd y (List.mem_cons_of_mem _ hy), State.get_put_ne _ _ _ _ _ _ _ _ h (hd x List.mem_cons_self)]

/-- Two fields share no bit. -/
abbrev Fld.Apart (f g : Fld) : Prop := f.reg ≠ g.reg ∨ f.lo + f.len ≤ g.lo ∨ g.lo + g.len ≤ f.lo

/-- Of fields that share no bit, each reads back what the list puts into it. -/
theorem State.get_putAll_mem (s : State) {l : List (Fld × Nat)} (i j : Nat) (hw : ∀ x ∈ l, x.1.lo + x.1.len ≤ 32)
    (hp : l.Pairwise (fun x y => Fld.Apart x.1 y.1)) {f : Fld} {v : Nat} (hm : (f, v) ∈ l) :
    (s.putAll i j l).get f i j = v % 2 ^ f.len := by
  induction l generalizing s with
  | nil => cases hm
  | cons x xs ih =>
    obtain ⟨hx, hxs⟩ := List.pairwise_cons.1 hp
    rw [State.putAll]
    rcases List.mem_cons.1 hm with rfl | hm
    · rw [State.get_putAll_ne _ _ _ _ _ _ _ (hw _ List.mem_cons_self), State.get_put_self _ _ _ _ _ (hw _ List.mem_cons_self)]
      intro y hy
      rcases hx y hy with h | h | h
      · exact Or.inl (by simp [h])
      · exact Or.inr (Or.inr h)
      · exact Or.inr (Or.inl h)
    · exact ih _ (fun y hy => hw y (List.mem_cons_of_mem _ hy)) hxs hm

/-! ### Snapshots (R75) -/

/-- Four registers of one counter, with the widths of Table 2-1. -/
structure TaiFlds (hi lo ns frac : Fld) : Prop where
  whole : hi.lo = 0 ∧ lo.lo = 0 ∧ ns.lo = 0 ∧ frac.lo = 0
  widths : hi.len = 16 ∧ lo.len = 32 ∧ ns.len = 30 ∧ frac.len = 32
  apart : [hi.reg, lo.reg, ns.reg, frac.reg].Nodup

theorem State.putTai_reads (s : State) {t : Tai} (h : t.wf) {hi lo ns frac : Fld} (hf : TaiFlds hi lo ns frac) (j : Nat) :
    (⟨(s.putTai t hi lo ns frac j).get hi 0 j * 2 ^ 32 + (s.putTai t hi lo ns frac j).get lo 0 j,
      (s.putTai t hi lo ns frac j).get ns 0 j, (s.putTai t hi lo ns frac j).get frac 0 j⟩ : Tai) = t := by
  obtain ⟨⟨z₁, z₂, z₃, z₄⟩, ⟨w₁, w₂, w₃, w₄⟩, ha⟩ := hf
  obtain ⟨sec, n, fr⟩ := t
  obtain ⟨hs, hn, hfr⟩ := h
  simp only [List.nodup_cons, List.mem_cons, List.not_mem_nil, or_false, not_or] at ha
  obtain ⟨⟨h₁, h₂, h₃⟩, ⟨h₄, h₅⟩, h₆, -⟩ := ha
  have hw : ∀ x ∈ [(hi, sec / 2 ^ 32), (lo, sec), (ns, n), (frac, fr)], x.1.lo + x.1.len ≤ 32 := by simp; omega
  have hp : [(hi, sec / 2 ^ 32), (lo, sec), (ns, n), (frac, fr)].Pairwise (fun x y => Fld.Apart x.1 y.1) := by
    simp [Fld.Apart, h₁, h₂, h₃, h₄, h₅, h₆]
  simp only [State.putTai, s.get_putAll_mem 0 j hw hp (f := hi) (v := sec / 2 ^ 32) (by simp),
    s.get_putAll_mem 0 j hw hp (f := lo) (v := sec) (by simp), s.get_putAll_mem 0 j hw hp (f := ns) (v := n) (by simp),
    s.get_putAll_mem 0 j hw hp (f := frac) (v := fr) (by simp), w₁, w₂, w₃, w₄, Tai.mk.injEq]
  dsimp only at hs hn hfr
  omega

/-- Registers of another name, or another index of the same ones, keep their fields. -/
theorem State.putTai_get_ne (s : State) (t : Tai) (hi lo ns frac : Fld) (j : Nat) (g : Fld) (j' : Nat) (hg : g.lo + g.len ≤ 32)
    (h : g.reg ∉ [hi.reg, lo.reg, ns.reg, frac.reg] ∨ j' ≠ j) : (s.putTai t hi lo ns frac j).get g 0 j' = s.get g 0 j' := by
  refine State.get_putAll_ne _ _ _ _ _ _ _ hg fun x hx => Or.inl fun he => ?_
  rcases h with h | h
  · refine h ?_
    have hr : g.reg = x.1.reg := congrArg RegKey.reg he
    rw [hr]
    simp only [List.mem_cons, List.not_mem_nil, or_false] at hx ⊢
    rcases hx with rfl | rfl | rfl | rfl <;> simp
  · exact h (congrArg RegKey.idx he)

/-- The state whose registers show the capture. -/
def State.snapShown (s : State) : State :=
  ((s.putTai s.tbu.a.counter F.TBU_D_SNAP_SEC_HI_SEC F.TBU_D_SNAP_SEC_LO_SEC F.TBU_D_SNAP_NS_NS F.TBU_D_SNAP_FRAC_FRAC 0).putTai
    s.tbu.b.counter F.TBU_D_SNAP_SEC_HI_SEC F.TBU_D_SNAP_SEC_LO_SEC F.TBU_D_SNAP_NS_NS F.TBU_D_SNAP_FRAC_FRAC 1).putTai
    s.activeTime F.TBU_ACT_SNAP_SEC_HI_SEC F.TBU_ACT_SNAP_SEC_LO_SEC F.TBU_ACT_SNAP_NS_NS F.TBU_ACT_SNAP_FRAC_FRAC 0

theorem State.activeTime_congr {s t : State} (h : t.tbu = s.tbu) (ha : t.get F.TBU_CTRL_ACTIVE = s.get F.TBU_CTRL_ACTIVE) :
    t.activeTime = s.activeTime := by
  rw [State.activeTime, State.activeTime, State.activeUnits, State.activeUnits, State.active_congr ha, h]

theorem State.putTai_tbu (s : State) (t : Tai) (hi lo ns frac : Fld) (j : Nat) : (s.putTai t hi lo ns frac j).tbu = s.tbu :=
  State.putAll_tbu _ _ _ _

theorem State.putTai_activeTime (s : State) (t : Tai) (j : Nat) :
    (s.putTai t F.TBU_D_SNAP_SEC_HI_SEC F.TBU_D_SNAP_SEC_LO_SEC F.TBU_D_SNAP_NS_NS F.TBU_D_SNAP_FRAC_FRAC j).activeTime = s.activeTime :=
  State.activeTime_congr (State.putTai_tbu ..) (State.putTai_get_ne _ _ _ _ _ _ _ _ _ (by decide) (Or.inl (by decide)))

theorem State.snapTake_eq (s : State) : s.snapTake = s.snapShown.setTbu { s.tbu with snap := false, snapActive := some s.activeTime } := by
  have ha : s.snapShown.activeTime = s.activeTime := by
    refine State.activeTime_congr ?_ ?_
    · rw [State.snapShown, State.putTai_tbu, State.putTai_tbu, State.putTai_tbu]
    · rw [State.snapShown, State.putTai_get_ne _ _ _ _ _ _ _ _ _ (by decide) (Or.inl (by decide)),
        State.putTai_get_ne _ _ _ _ _ _ _ _ _ (by decide) (Or.inl (by decide)),
        State.putTai_get_ne _ _ _ _ _ _ _ _ _ (by decide) (Or.inl (by decide))]
  rw [State.snapShown] at ha
  simp only [State.snapTake, State.putTai_tbu, State.putTai_activeTime, ha, State.snapShown]

/-- The time that four fields of one index show. -/
def State.tai (s : State) (hi lo ns frac : Fld) (j : Nat) : Tai :=
  ⟨s.get hi 0 j * 2 ^ 32 + s.get lo 0 j, s.get ns 0 j, s.get frac 0 j⟩

theorem State.putTai_tai (s : State) {t : Tai} (h : t.wf) {hi lo ns frac : Fld} (hf : TaiFlds hi lo ns frac) (j : Nat) :
    (s.putTai t hi lo ns frac j).tai hi lo ns frac j = t := s.putTai_reads h hf j

theorem State.putTai_tai_ne (s : State) (t : Tai) (hi lo ns frac : Fld) (j : Nat) {hi' lo' ns' frac' : Fld} (j' : Nat)
    (hg : ∀ g ∈ [hi', lo', ns', frac'], g.lo + g.len ≤ 32 ∧ (g.reg ∉ [hi.reg, lo.reg, ns.reg, frac.reg] ∨ j' ≠ j)) :
    (s.putTai t hi lo ns frac j).tai hi' lo' ns' frac' j' = s.tai hi' lo' ns' frac' j' := by
  have h : ∀ g ∈ [hi', lo', ns', frac'], (s.putTai t hi lo ns frac j).get g 0 j' = s.get g 0 j' := fun g hm =>
    s.putTai_get_ne t hi lo ns frac j g j' (hg g hm).1 (hg g hm).2
  simp only [List.mem_cons, List.not_mem_nil, or_false, forall_eq_or_imp, forall_eq] at h
  obtain ⟨h₁, h₂, h₃, h₄⟩ := h
  rw [State.tai, State.tai, h₁, h₂, h₃, h₄]

theorem snapFlds : TaiFlds F.TBU_D_SNAP_SEC_HI_SEC F.TBU_D_SNAP_SEC_LO_SEC F.TBU_D_SNAP_NS_NS F.TBU_D_SNAP_FRAC_FRAC :=
  ⟨by decide, by decide, by decide⟩

theorem actSnapFlds : TaiFlds F.TBU_ACT_SNAP_SEC_HI_SEC F.TBU_ACT_SNAP_SEC_LO_SEC F.TBU_ACT_SNAP_NS_NS F.TBU_ACT_SNAP_FRAC_FRAC :=
  ⟨by decide, by decide, by decide⟩

theorem State.activeTime_wf (s : State) : s.activeTime.wf := Tai.ofUnits_wf _

theorem State.snapShown_dom (s : State) (ha : s.tbu.a.counter.wf) (hb : s.tbu.b.counter.wf) (d : Dom) :
    s.snapShown.tai F.TBU_D_SNAP_SEC_HI_SEC F.TBU_D_SNAP_SEC_LO_SEC F.TBU_D_SNAP_NS_NS F.TBU_D_SNAP_FRAC_FRAC (domIdx d) =
      (s.tbu.dom d).counter := by
  rw [State.snapShown]
  cases d with
  | A =>
    rw [State.putTai_tai_ne _ _ _ _ _ _ _ _ (by decide), State.putTai_tai_ne _ _ _ _ _ _ _ _ (by decide)]
    exact State.putTai_tai _ ha snapFlds _
  | B =>
    rw [State.putTai_tai_ne _ _ _ _ _ _ _ _ (by decide)]
    exact State.putTai_tai _ hb snapFlds _

theorem State.snapShown_active (s : State) :
    s.snapShown.tai F.TBU_ACT_SNAP_SEC_HI_SEC F.TBU_ACT_SNAP_SEC_LO_SEC F.TBU_ACT_SNAP_NS_NS F.TBU_ACT_SNAP_FRAC_FRAC 0 = s.activeTime :=
  State.putTai_tai _ s.activeTime_wf actSnapFlds 0

/-- The registers of a capture. -/
abbrev snapRegs : List Reg := [.TBU_D_SNAP_SEC_HI, .TBU_D_SNAP_SEC_LO, .TBU_D_SNAP_NS, .TBU_D_SNAP_FRAC, .TBU_ACT_SNAP_SEC_HI,
  .TBU_ACT_SNAP_SEC_LO, .TBU_ACT_SNAP_NS, .TBU_ACT_SNAP_FRAC]

theorem RegsBut.putTai {s t : State} {rs : List Reg} (h : RegsBut s t rs) (x : Tai) (hi lo ns frac : Fld) (j : Nat)
    (hm : ∀ f ∈ [hi, lo, ns, frac], f.reg ∈ rs) : RegsBut s (t.putTai x hi lo ns frac j) rs :=
  h.putAll _ _ _ (by simpa using hm)

theorem OnlyRegs.putTai {s t : State} (h : OnlyRegs s t) (x : Tai) (hi lo ns frac : Fld) (j : Nat) :
    OnlyRegs s (t.putTai x hi lo ns frac j) := h.putAll _ _ _

theorem State.snapShown_regsBut (s : State) : RegsBut s s.snapShown snapRegs :=
  (((RegsBut.refl s _).putTai _ _ _ _ _ _ (by decide)).putTai _ _ _ _ _ _ (by decide)).putTai _ _ _ _ _ _ (by decide)

theorem State.snapShown_onlyRegs (s : State) : OnlyRegs s s.snapShown :=
  (((OnlyRegs.refl s).putTai _ _ _ _ _ _).putTai _ _ _ _ _ _).putTai _ _ _ _ _ _

theorem OnlyRegs.regsTbu {s t : State} (h : OnlyRegs s t) : RegsTbu s t := by
  unfold OnlyRegs at h
  unfold RegsTbu
  rw [h]

/-- After the capture is shown, the request is over. -/
theorem State.snapTake_frame (s : State) : s.snapTake.regs = s.snapShown.regs ∧ s.snapTake.tbu.snap = false ∧ RegsTbu s s.snapTake := by
  have h := s.snapShown_onlyRegs.regsTbu
  rw [s.snapTake_eq]
  generalize s.snapShown = u at h ⊢
  exact ⟨rfl, rfl, h.setTbu _⟩

theorem State.tai_congr {s t : State} (h : t.regs = s.regs) (hi lo ns frac : Fld) (j : Nat) : t.tai hi lo ns frac j = s.tai hi lo ns frac j := by
  simp only [State.tai, State.get, State.rd_congr h]

theorem snapshotCapture_takes {s : State} (hp : s.tbu.snap = true) (ha : s.tbu.a.counter.wf) (hb : s.tbu.b.counter.wf) :
    Completes .snapshotCapture s (fun t => t.tbu.snap = false ∧
      (∀ d, t.tai F.TBU_D_SNAP_SEC_HI_SEC F.TBU_D_SNAP_SEC_LO_SEC F.TBU_D_SNAP_NS_NS F.TBU_D_SNAP_FRAC_FRAC (domIdx d) =
        (s.tbu.dom d).counter) ∧
      t.tai F.TBU_ACT_SNAP_SEC_HI_SEC F.TBU_ACT_SNAP_SEC_LO_SEC F.TBU_ACT_SNAP_NS_NS F.TBU_ACT_SNAP_FRAC_FRAC 0 = s.activeTime ∧
      RegsBut s t snapRegs ∧ RegsTbu s t) := by
  obtain ⟨hr, hs, hk⟩ := s.snapTake_frame
  exact ⟨s.snapTake, congrArg Host.Outcome.next (if_pos hp), hs,
    fun d => (State.tai_congr hr _ _ _ _ _).trans (s.snapShown_dom ha hb d),
    (State.tai_congr hr _ _ _ _ _).trans s.snapShown_active, s.snapShown_regsBut.of_eq hr, hk⟩

/-! ### The reference clock (R39, R40) -/

section
variable (s : State) {l : List (Fld × Nat)} (i j : Nat)

/-- Fields of one unit that share no bit, put together. -/
theorem State.get_putAll_each (hw : ∀ x ∈ l, x.1.lo + x.1.len ≤ 32) (hp : l.Pairwise (fun x y => Fld.Apart x.1 y.1)) :
    ∀ x ∈ l, (s.putAll i j l).get x.1 i j = x.2 % 2 ^ x.1.len := fun _ hx => s.get_putAll_mem i j hw hp hx

end

theorem refclkLoss_flags (s : State) : Completes .refclkLoss s (fun t => t.get F.TBU_REF_STATUS_REF_LOC = 1 ∧
    t.get F.TBU_REF_STATUS_REF_LOC_SEEN = 1 ∧ t.tbu = { s.tbu with holding := true } ∧
    FieldsBut s t [(F.TBU_REF_STATUS_REF_LOC, 0, 0), (F.TBU_REF_STATUS_REF_LOC_SEEN, 0, 0)] ∧ RegsTbu s t) := by
  have h := s.get_putAll_each (l := [(F.TBU_REF_STATUS_REF_LOC, 1), (F.TBU_REF_STATUS_REF_LOC_SEEN, 1)]) 0 0 (by decide) (by decide)
  exact ⟨_, rfl, h (F.TBU_REF_STATUS_REF_LOC, 1) (by decide), h (F.TBU_REF_STATUS_REF_LOC_SEEN, 1) (by decide), rfl,
    ((FieldsBut.refl s _).putAll _ _ _ (by decide)).of_eq rfl, ((OnlyRegs.refl s).putAll _ _ _).regsTbu.setTbu _⟩

theorem refclkRelock_flags (s : State) : Completes .refclkRelock s (fun t => t.get F.TBU_REF_STATUS_REF_LOC = 0 ∧
    t.get F.TBU_REF_STATUS_FREQ_ERR = 0 ∧ t.tbu = { s.tbu with holding := false } ∧
    FieldsBut s t [(F.TBU_REF_STATUS_REF_LOC, 0, 0), (F.TBU_REF_STATUS_FREQ_ERR, 0, 0)] ∧ RegsTbu s t) := by
  have h := s.get_putAll_each (l := [(F.TBU_REF_STATUS_REF_LOC, 0), (F.TBU_REF_STATUS_FREQ_ERR, 0)]) 0 0 (by decide) (by decide)
  exact ⟨_, rfl, h (F.TBU_REF_STATUS_REF_LOC, 0) (by decide), h (F.TBU_REF_STATUS_FREQ_ERR, 0) (by decide), rfl,
    ((FieldsBut.refl s _).putAll _ _ _ (by decide)).of_eq rfl, ((OnlyRegs.refl s).putAll _ _ _).regsTbu.setTbu _⟩

/-- The state in which a measured deviation is judged. -/
def State.freqShown (s : State) (ppm : BitVec 16) : State := s.put F.TBU_REF_STATUS_FREQ_DEV ppm.toNat

/-- The state after a deviation above 1,000 ppm. -/
def State.freqFaulty (s : State) (ppm : BitVec 16) : State :=
  ((s.freqShown ppm).putAll 0 0 [(F.TBU_REF_STATUS_FREQ_ERR, 1), (F.TBU_REF_STATUS_FREQ_ERR_SEEN, 1)]).setTbu
    { s.tbu with holding := true }

theorem State.freqShown_dev (s : State) (ppm : BitVec 16) : (s.freqShown ppm).get F.TBU_REF_STATUS_FREQ_DEV = ppm.toNat :=
  (State.get_put_self _ _ _ _ _ (by decide)).trans (Nat.mod_eq_of_lt ppm.isLt)

theorem State.freqShown_fields (s : State) (ppm : BitVec 16) : FieldsBut s (s.freqShown ppm) [(F.TBU_REF_STATUS_FREQ_DEV, 0, 0)] :=
  FieldsBut.put_self _ _ _ _ _

theorem State.freqFaulty_flags (s : State) (ppm : BitVec 16) : (s.freqFaulty ppm).get F.TBU_REF_STATUS_FREQ_ERR = 1 ∧
    (s.freqFaulty ppm).get F.TBU_REF_STATUS_FREQ_ERR_SEEN = 1 ∧ (s.freqFaulty ppm).get F.TBU_REF_STATUS_FREQ_DEV = ppm.toNat := by
  have h := (s.freqShown ppm).get_putAll_each (l := [(F.TBU_REF_STATUS_FREQ_ERR, 1), (F.TBU_REF_STATUS_FREQ_ERR_SEEN, 1)]) 0 0
    (by decide) (by decide)
  exact ⟨h (F.TBU_REF_STATUS_FREQ_ERR, 1) (by decide), h (F.TBU_REF_STATUS_FREQ_ERR_SEEN, 1) (by decide),
    (State.get_putAll_ne _ _ _ _ _ _ _ (by decide) (by decide)).trans (s.freqShown_dev ppm)⟩

theorem refclkFreqCheck_flags (ppm : BitVec 16) (s : State) : Completes (.refclkFreqCheck ppm) s (fun t =>
    (1000 < ppm.toInt ∨ ppm.toInt < -1000 → t.get F.TBU_REF_STATUS_FREQ_ERR = 1 ∧ t.get F.TBU_REF_STATUS_FREQ_ERR_SEEN = 1) ∧
    (-1000 ≤ ppm.toInt → ppm.toInt ≤ 1000 → t.tbu = s.tbu ∧ FieldsBut s t [(F.TBU_REF_STATUS_FREQ_DEV, 0, 0)]) ∧
    t.get F.TBU_REF_STATUS_FREQ_DEV = ppm.toNat ∧
    FieldsBut s t [(F.TBU_REF_STATUS_FREQ_DEV, 0, 0), (F.TBU_REF_STATUS_FREQ_ERR, 0, 0), (F.TBU_REF_STATUS_FREQ_ERR_SEEN, 0, 0)] ∧
    RegsTbu s t) := by
  have hk : OnlyRegs s (s.freqShown ppm) := (OnlyRegs.refl s).put _ _ _ _
  have hf := (s.freqShown_fields ppm).mono (gs := [(F.TBU_REF_STATUS_FREQ_DEV, 0, 0), (F.TBU_REF_STATUS_FREQ_ERR, 0, 0),
    (F.TBU_REF_STATUS_FREQ_ERR_SEEN, 0, 0)]) (by simp)
  by_cases hb : 1000 < ppm.toInt ∨ ppm.toInt < -1000
  · obtain ⟨h₁, h₂, h₃⟩ := s.freqFaulty_flags ppm
    refine ⟨s.freqFaulty ppm, congrArg Host.Outcome.next (if_pos hb), fun _ => ⟨h₁, h₂⟩, fun h h' => ?_, h₃,
      (hf.putAll _ _ _ (by decide)).of_eq rfl, (hk.putAll _ _ _).regsTbu.setTbu _⟩
    omega
  · exact ⟨s.freqShown ppm, congrArg Host.Outcome.next (if_neg hb), fun h => absurd h hb,
      fun _ _ => ⟨rfl, s.freqShown_fields ppm⟩, s.freqShown_dev ppm, hf, hk.regsTbu⟩

/-- Settles O11: the capture shows the counters as they stand, and the monitor's flags are put one by one. -/
theorem snapshotsAndReferenceMonitor : Obligations.SnapshotsAndReferenceMonitor := by
  unfold Obligations.SnapshotsAndReferenceMonitor
  exact ⟨fun s => ⟨_, rfl, rfl⟩, fun _ hp ha hb => snapshotCapture_takes hp ha hb, refclkLoss_flags, refclkFreqCheck_flags,
    refclkRelock_flags⟩

/-! ### Pulses per second (R68 to R70) -/

section
variable (s : State) (i sub : Nat)

/-- OVERRUN is set where NEW was. -/
def State.ppsOver : State := if s.flag F.TBU_PPS_IN_STATUS_NEW 0 i then s.set F.TBU_PPS_IN_STATUS_OVERRUN 0 i else s

/-- What a stamped edge puts: the two times of the edge, and the flags. -/
def ppsPuts (a b : Tai) : List (Fld × Nat) :=
  [(F.TBU_PPS_IN_STAMP_A_SEC_SEC, a.sec), (F.TBU_PPS_IN_STAMP_A_NS_NS, a.ns), (F.TBU_PPS_IN_STAMP_A_FRAC_FRAC, a.frac),
    (F.TBU_PPS_IN_STAMP_B_SEC_SEC, b.sec), (F.TBU_PPS_IN_STAMP_B_NS_NS, b.ns), (F.TBU_PPS_IN_STAMP_B_FRAC_FRAC, b.frac),
    (F.TBU_PPS_IN_STATUS_NEW, 1), (F.TBU_PPS_IN_STATUS_LOST, 0), (F.TBU_PPS_IN_STATUS_STUCK_HI, 0), (F.TBU_PPS_IN_STATUS_STUCK_LO, 0)]

/-- The registers of a stamped edge. -/
abbrev ppsRegs : List Reg := [.TBU_PPS_IN_STATUS, .TBU_PPS_IN_STAMP_A_SEC, .TBU_PPS_IN_STAMP_A_NS, .TBU_PPS_IN_STAMP_A_FRAC,
  .TBU_PPS_IN_STAMP_B_SEC, .TBU_PPS_IN_STAMP_B_NS, .TBU_PPS_IN_STAMP_B_FRAC]

theorem ppsPuts_shape (a b : Tai) : (∀ x ∈ ppsPuts a b, x.1.lo + x.1.len ≤ 32) ∧
    (ppsPuts a b).Pairwise (fun x y => Fld.Apart x.1 y.1) ∧ (∀ x ∈ ppsPuts a b, x.1.reg ∈ ppsRegs) ∧
    ∀ x ∈ ppsPuts a b, Fld.Apart F.TBU_PPS_IN_STATUS_OVERRUN x.1 ∧ Fld.Apart F.TBU_PPS_IN_STATUS_EXTRA_EDGES x.1 := by
  have hl : (ppsPuts a b).map Prod.fst = (ppsPuts ⟨0, 0, 0⟩ ⟨0, 0, 0⟩).map Prod.fst := rfl
  have h : (∀ f ∈ (ppsPuts ⟨0, 0, 0⟩ ⟨0, 0, 0⟩).map Prod.fst, f.lo + f.len ≤ 32) ∧
      ((ppsPuts ⟨0, 0, 0⟩ ⟨0, 0, 0⟩).map Prod.fst).Pairwise Fld.Apart ∧
      (∀ f ∈ (ppsPuts ⟨0, 0, 0⟩ ⟨0, 0, 0⟩).map Prod.fst, f.reg ∈ ppsRegs) ∧
      ∀ f ∈ (ppsPuts ⟨0, 0, 0⟩ ⟨0, 0, 0⟩).map Prod.fst,
        Fld.Apart F.TBU_PPS_IN_STATUS_OVERRUN f ∧ Fld.Apart F.TBU_PPS_IN_STATUS_EXTRA_EDGES f := by decide
  rw [← hl] at h
  obtain ⟨h₁, h₂, h₃, h₄⟩ := h
  exact ⟨fun x hx => h₁ _ (List.mem_map_of_mem hx), List.pairwise_map.1 h₂, fun x hx => h₃ _ (List.mem_map_of_mem hx),
    fun x hx => h₄ _ (List.mem_map_of_mem hx)⟩

theorem State.ppsStamp_eq : s.ppsStamp i sub =
    (s.ppsOver i).putAll 0 i (ppsPuts (s.tbu.a.counter.add (sub * 2 ^ 28 : Nat)) (s.tbu.b.counter.add (sub * 2 ^ 28 : Nat))) := by
  have h : (s.ppsOver i).tbu = s.tbu := by
    unfold State.ppsOver
    split
    · exact State.set_tbu ..
    · rfl
  rw [← h]
  rfl

theorem Fld.Apart.of_reg {f g : Fld} (i j : Nat) (h : Fld.Apart f g) :
    (⟨f.reg, i, j⟩ : RegKey) ≠ ⟨g.reg, i, j⟩ ∨ g.lo + g.len ≤ f.lo ∨ f.lo + f.len ≤ g.lo := by
  rcases h with h | h | h
  · exact Or.inl (by simp [h])
  · exact Or.inr (Or.inr h)
  · exact Or.inr (Or.inl h)

theorem State.ppsOver_get (f : Fld) (hf : f.lo + f.len ≤ 32) (ha : Fld.Apart f F.TBU_PPS_IN_STATUS_OVERRUN) :
    (s.ppsOver i).get f 0 i = s.get f 0 i := by
  unfold State.ppsOver
  split
  · exact State.get_put_ne _ _ _ _ _ _ _ _ hf (ha.of_reg 0 i)
  · rfl

theorem State.ppsOver_regsBut : RegsBut s (s.ppsOver i) ppsRegs := by
  unfold State.ppsOver
  split
  · exact (RegsBut.refl s _).put _ _ _ _ (by decide)
  · exact RegsBut.refl s _

theorem State.ppsOver_onlyRegs : OnlyRegs s (s.ppsOver i) := by
  unfold State.ppsOver
  split
  · exact (OnlyRegs.refl s).put _ _ _ _
  · exact OnlyRegs.refl s

theorem State.ppsOver_overrun (h : s.get F.TBU_PPS_IN_STATUS_NEW 0 i = 1) : (s.ppsOver i).get F.TBU_PPS_IN_STATUS_OVERRUN 0 i = 1 := by
  rw [State.ppsOver, if_pos (State.flag_eq_true h)]
  exact s.get_set_self _ _ _ (by decide) (by decide)

/-- What an edge stamped with the times a and b leaves in t, seen from s. -/
structure PpsStamped (s : State) (i : Nat) (a b : Tai) (t : State) : Prop where
  new : t.get F.TBU_PPS_IN_STATUS_NEW 0 i = 1
  overrun : s.get F.TBU_PPS_IN_STATUS_NEW 0 i = 1 → t.get F.TBU_PPS_IN_STATUS_OVERRUN 0 i = 1
  lost : t.get F.TBU_PPS_IN_STATUS_LOST 0 i = 0
  stuckHi : t.get F.TBU_PPS_IN_STATUS_STUCK_HI 0 i = 0
  stuckLo : t.get F.TBU_PPS_IN_STATUS_STUCK_LO 0 i = 0
  stampA : t.get F.TBU_PPS_IN_STAMP_A_NS_NS 0 i = a.ns
  stampB : t.get F.TBU_PPS_IN_STAMP_B_NS_NS 0 i = b.ns
  extra : t.get F.TBU_PPS_IN_STATUS_EXTRA_EDGES 0 i = s.get F.TBU_PPS_IN_STATUS_EXTRA_EDGES 0 i
  regs : RegsBut s t ppsRegs
  rest : RegsTbu s t

/-- The nanoseconds of a counter fit their field. -/
theorem Tai.add_ns_field (x : Tai) (n : Int) : (x.add n).ns % 2 ^ 30 = (x.add n).ns := by
  have h : (x.add n).ns < 1000000000 := (Tai.add_wf x n).2.1
  generalize (x.add n).ns = m at h ⊢
  omega

theorem State.ppsStamp_stamped : PpsStamped s i (s.tbu.a.counter.add (sub * 2 ^ 28 : Nat)) (s.tbu.b.counter.add (sub * 2 ^ 28 : Nat))
    (s.ppsStamp i sub) := by
  rw [State.ppsStamp_eq]
  have ha := s.tbu.a.counter.add_ns_field (sub * 2 ^ 28 : Nat)
  have hb := s.tbu.b.counter.add_ns_field (sub * 2 ^ 28 : Nat)
  generalize s.tbu.a.counter.add (sub * 2 ^ 28 : Nat) = a at ha ⊢
  generalize s.tbu.b.counter.add (sub * 2 ^ 28 : Nat) = b at hb ⊢
  obtain ⟨hw, hp, hr, hd⟩ := ppsPuts_shape a b
  have hm := (s.ppsOver i).get_putAll_each 0 i hw hp
  simp only [ppsPuts, List.forall_mem_cons] at hm
  obtain ⟨-, h₁, -, -, h₂, -, h₃, h₄, h₅, h₆, -⟩ := hm
  have hover := State.get_putAll_ne (s.ppsOver i) (ppsPuts a b) 0 i F.TBU_PPS_IN_STATUS_OVERRUN 0 i (by decide)
    fun x hx => (hd x hx).1.of_reg 0 i
  have hextra := State.get_putAll_ne (s.ppsOver i) (ppsPuts a b) 0 i F.TBU_PPS_IN_STATUS_EXTRA_EDGES 0 i (by decide)
    fun x hx => (hd x hx).2.of_reg 0 i
  exact
    { new := h₃
      overrun := fun h => hover.trans (s.ppsOver_overrun i h)
      lost := h₄
      stuckHi := h₅
      stuckLo := h₆
      stampA := h₁.trans ha
      stampB := h₂.trans hb
      extra := hextra.trans (s.ppsOver_get i _ (by decide) (by decide))
      regs := (s.ppsOver_regsBut i).putAll _ _ _ hr
      rest := ((s.ppsOver_onlyRegs i).putAll _ _ _).regsTbu }

end

section
variable {s : State} {i : Fin 2} {falling : Bool} {sub : Fin 26} (hen : s.flag F.TBU_PPS_IN_CTRL_EN 0 i = true)
  (hed : s.flag F.TBU_PPS_IN_CTRL_EDGE 0 i = falling)
include hen hed

/-- The state in which the last accepted edge is the one at hand. -/
def State.ppsTimed (s : State) (i : Nat) (sub : Nat) : State :=
  s.setTbu { s.tbu with ppsLast := Tab.set s.tbu.ppsLast i (s.tbu.ticks * 128 + sub * 5) }

theorem exec_ppsInEdge_taken (h : ∀ last, Tab.find s.tbu.ppsLast i.val = some last → last + 72000000000 ≤ s.tbu.ticks * 128 + sub.val * 5) :
    exec (.ppsInEdge i falling sub) s = .next ((s.ppsTimed i sub).ppsStamp i sub) := by
  refine congrArg Host.Outcome.next ((if_neg (by simp [hen, hed])).trans ?_)
  dsimp only
  cases hl : Tab.find s.tbu.ppsLast i.val with
  | none => rfl
  | some last => exact if_neg (Nat.not_lt.2 (h last hl))

theorem exec_ppsInEdge_early {last : Nat} (hl : Tab.find s.tbu.ppsLast i.val = some last)
    (h : s.tbu.ticks * 128 + sub.val * 5 < last + 72000000000) :
    exec (.ppsInEdge i falling sub) s = .next (s.count F.TBU_PPS_IN_STATUS_EXTRA_EDGES 1 0 i) := by
  refine congrArg Host.Outcome.next ((if_neg (by simp [hen, hed])).trans ?_)
  dsimp only
  rw [hl]
  exact if_pos h

end

/-- The time base may have changed before the edge is stamped. -/
theorem PpsStamped.of_regsTbu {s u t : State} {i : Nat} {a b : Tai} (h : PpsStamped u i a b t) (hr : u.regs = s.regs) (hu : RegsTbu s u) :
    PpsStamped s i a b t :=
  { h with
    overrun := fun hn => h.overrun ((State.get_congr hr _ _ _).trans hn)
    extra := h.extra.trans (State.get_congr hr _ _ _)
    regs := (RegsBut.of_regs _ hr).trans h.regs
    rest := hu.trans h.rest }

theorem State.ppsTimed_stamped (s : State) (i sub : Nat) : PpsStamped s i (s.tbu.a.counter.add (sub * 2 ^ 28 : Nat))
    (s.tbu.b.counter.add (sub * 2 ^ 28 : Nat)) ((s.ppsTimed i sub).ppsStamp i sub) :=
  ((s.ppsTimed i sub).ppsStamp_stamped i sub).of_regsTbu (State.setTbu_regs _ _) ((RegsTbu.refl s).setTbu _)

theorem ppsInTimeout_sets {s : State} {i : Fin 2} (hen : s.flag F.TBU_PPS_IN_CTRL_EN 0 i = true) : ∀ x ∈
    [(PinLevel.mid, F.TBU_PPS_IN_STATUS_LOST), (.high, F.TBU_PPS_IN_STATUS_STUCK_HI), (.low, F.TBU_PPS_IN_STATUS_STUCK_LO)],
    Completes (.ppsInTimeout i x.1) s (fun t => t.get x.2 0 i = 1 ∧ FieldsBut s t [(x.2, 0, i)] ∧ OnlyRegs s t) := by
  have hx : ∀ x : PinLevel × Fld, exec (.ppsInTimeout i x.1) s = .next (s.set x.2 0 i) → x.2.lo + x.2.len ≤ 32 → x.2.len ≠ 0 →
      Completes (.ppsInTimeout i x.1) s (fun t => t.get x.2 0 i = 1 ∧ FieldsBut s t [(x.2, 0, i)] ∧ OnlyRegs s t) := fun x he hw hl =>
    ⟨_, he, State.get_set_self _ _ _ _ hw hl, FieldsBut.put_self _ _ _ _ _, (OnlyRegs.refl s).put _ _ _ _⟩
  have hn : ¬¬ s.flag F.TBU_PPS_IN_CTRL_EN 0 i = true := not_not_intro hen
  simp only [List.mem_cons, List.not_mem_nil, or_false]
  rintro x (rfl | rfl | rfl)
  · exact hx (_, _) (congrArg Host.Outcome.next (if_neg hn)) (by decide) (by decide)
  · exact hx (_, _) (congrArg Host.Outcome.next (if_neg hn)) (by decide) (by decide)
  · exact hx (_, _) (congrArg Host.Outcome.next (if_neg hn)) (by decide) (by decide)

theorem ppsOutEdge_drives {s : State} {i : Fin 2} (hen : s.flag F.TBU_PPS_OUT_CTRL_EN 0 i = true)
    (h₁ : 1 ≤ s.get F.TBU_PPS_OUT_CTRL_WIDTH_US 0 i) (h₂ : s.get F.TBU_PPS_OUT_CTRL_WIDTH_US 0 i ≤ 500000) :
    Completes (.ppsOutEdge i) s (fun t => t = { s with out := s.out ++ [.ppsEdge i (s.get F.TBU_PPS_OUT_CTRL_WIDTH_US 0 i)] }) :=
  ⟨_, congrArg Host.Outcome.next ((if_neg (not_not_intro hen)).trans (if_pos ⟨h₁, h₂⟩)), rfl⟩

/-! ### Shorted outputs (R546) -/

theorem State.clr_report_get (s : State) (r : Report) (f : Fld) (i j : Nat) (hf : f.lo + f.len ≤ 32) (hr : f.reg ∉ recordRegs) :
    ((s.clr f i j).report r).get f i j = 0 :=
  (((s.clr f i j).report_keepsTime r).get f hr i j).trans (s.get_clr_self f i j hf)

theorem outputShort_clk10m {s : State} (hen : s.flag F.TBU_CLK10M_CTRL_EN = true) :
    Completes (.outputShort .clk10m) s (fun t => t.get F.TBU_CLK10M_CTRL_EN = 0) :=
  ⟨_, congrArg Host.Outcome.next (if_pos hen), s.clr_report_get _ _ _ _ (by decide) (by decide)⟩

theorem outputShort_ppsOut {s : State} {i : Fin 2} (hen : s.flag F.TBU_PPS_OUT_CTRL_EN 0 i = true) :
    Completes (.outputShort (.ppsOut i)) s (fun t => t.get F.TBU_PPS_OUT_CTRL_EN 0 i = 0) :=
  ⟨_, congrArg Host.Outcome.next (if_pos ⟨i.isLt, hen⟩), s.clr_report_get _ _ _ _ (by decide) (by decide)⟩

theorem outputShort_xoffOut {s : State} {n : Fin 16} (hen : s.flag F.SQ_CTRL_EN = true) (hn : n.val ∉ s.pins.xoffParked) :
    Completes (.outputShort (.xoffOut n)) s (fun t => n.val ∈ t.pins.xoffParked) :=
  ⟨_, congrArg Host.Outcome.next (if_pos ⟨n.isLt, hen, hn⟩),
    (congrArg (n.val ∈ ·.xoffParked) (State.report_keepsTime _ _).pins).mpr List.mem_cons_self⟩

/-- Settles O12: the gap to the last accepted edge decides, and a short is recorded after the enable cleared. -/
theorem pulsesPerSecondInAndOut : Obligations.PulsesPerSecondInAndOut := by
  unfold Obligations.PulsesPerSecondInAndOut
  refine ⟨fun i falling sub s hen hed => ⟨fun h => ⟨_, exec_ppsInEdge_taken hen hed h, ?_⟩, fun last hl h =>
      ⟨_, exec_ppsInEdge_early hen hed hl h, ?_, FieldsBut.put_self _ _ _ _ _, (OnlyRegs.refl s).put _ _ _ _⟩⟩,
    fun i s hen => ppsInTimeout_sets hen, fun i s => ppsOutEdge_drives, fun s => outputShort_clk10m, fun i s => outputShort_ppsOut,
    fun n s => outputShort_xoffOut⟩
  · have h := s.ppsTimed_stamped i sub
    exact ⟨h.new, h.overrun, h.lost, h.stuckHi, h.stuckLo, h.stampA, h.stampB, h.extra, h.regs, h.rest⟩
  · exact (s.get_count_self _ _ _ _ (by decide)).trans rfl

end Sys2Proof.Machine
end

