-- ==== Sys2Proof/Proofs/Invariant.lean ====
section
/-!
SUPPORT. Sys2Proof/Proofs/Invariant.lean: the memory and the counters of a state in the invariant; loops, branches and the operations that write them.
-/
namespace Sys2Proof.Machine

/-! ### The invariant, and what of a state it speaks of -/

section
variable {s t : State} (h : s.Inv)
include h

/-- The invariant speaks of the memory and of the counters only. -/
theorem State.Inv.of_eq (hm : t.mem = s.mem) (ht : t.tbu = s.tbu) : t.Inv := ⟨hm ▸ h.mem, ht ▸ h.timeA, ht ▸ h.timeB⟩

theorem State.Inv.ite {c : Prop} [Decidable c] (ht : t.Inv) : (if c then s else t).Inv := by
  split
  · exact h
  · exact ht

theorem State.Inv.foldl {α : Type} {f : State → α → State} (hf : ∀ t a, t.Inv → (f t a).Inv) (l : List α) : (l.foldl f s).Inv :=
  List.foldlRecOn l f h fun t ht a _ => hf t a ht

theorem State.Inv.repeatN {f : State → State} (hf : ∀ t, t.Inv → (f t).Inv) (n : Nat) : (repeatN f n s).Inv := by
  induction n generalizing s with
  | zero => exact h
  | succ n ih => exact ih (hf s h)

end

theorem State.Inv.ite_snd {α : Type} {x y : α × State} {c : Prop} [Decidable c] (hx : x.2.Inv) (hy : y.2.Inv) :
    (if c then x else y).2.Inv := by
  split
  · exact hx
  · exact hy

theorem State.Inv.foldl_snd {α β : Type} {f : β × State → α → β × State} {x : β × State} (h : x.2.Inv)
    (hf : ∀ x a, x.2.Inv → (f x a).2.Inv) (l : List α) : (l.foldl f x).2.Inv :=
  List.foldlRecOn (motive := fun y => y.2.Inv) l f h fun y hy a _ => hf y a hy

theorem State.Inv.of_snd {α : Type} {x : α × State} {a : α} {t : State} (he : x = (a, t)) (h : x.2.Inv) : t.Inv := by
  rw [he] at h
  exact h

/-- A command is refused, or the state that it answers with meets the invariant. -/
def AnswersInv {ε α : Type} : ε ⊕ (α × State) → Prop
  | .inl _ => True
  | .inr x => x.2.Inv

theorem AnswersInv.inl {ε α : Type} (e : ε) : AnswersInv (.inl e : ε ⊕ (α × State)) := trivial

theorem State.Inv.answers {ε α : Type} {a : α} {t : State} (h : t.Inv) : AnswersInv (.inr (a, t) : ε ⊕ (α × State)) := h

theorem AnswersInv.ite {ε α : Type} {x y : ε ⊕ (α × State)} {c : Prop} [Decidable c] (hx : AnswersInv x) (hy : AnswersInv y) :
    AnswersInv (if c then x else y) := by
  split
  · exact hx
  · exact hy

/-- A step of a command is refused, or its state meets the invariant. -/
def StateInv {ε : Type} : ε ⊕ State → Prop
  | .inl _ => True
  | .inr t => t.Inv

theorem StateInv.ite {ε : Type} {x y : ε ⊕ State} {c : Prop} [Decidable c] (hx : StateInv x) (hy : StateInv y) :
    StateInv (if c then x else y) := by
  split
  · exact hx
  · exact hy

/-! ### Registers, memory and the time base -/

theorem Memory.wfFrom_filter (p : Nat × Byte → Bool) {m : Memory} {lo : Nat} (h : m.wfFrom lo = true) :
    Memory.wfFrom lo (m.filter p) = true := by
  induction m generalizing lo with
  | nil => rfl
  | cons c m ih =>
    obtain ⟨b, w⟩ := c
    simp only [Memory.wfFrom, Bool.and_eq_true, decide_eq_true_eq] at h
    obtain ⟨⟨hb, hw⟩, hm⟩ := h
    rw [List.filter_cons]
    split
    · simp only [Memory.wfFrom, Bool.and_eq_true, decide_eq_true_eq]
      exact ⟨⟨hb, hw⟩, ih hm⟩
    · exact Memory.wfFrom_mono (Nat.le_succ_of_le hb) (ih hm)

theorem Memory.wf_filter (p : Nat × Byte → Bool) {m : Memory} (h : m.wf = true) : Memory.wf (m.filter p) = true :=
  Memory.wfFrom_filter p h

/-- A counter that counts, or that was set in this tick, keeps its ranges. -/
theorem TbuDom.ok_counted {x : TbuDom} (hx : x.ok) {c : Prop} [Decidable c] (a : Int) :
    (if c then x.counter else x.counter.add a).wf := by
  split
  · exact hx
  · exact Tai.add_wf _ _

theorem State.reset_inv : State.reset.Inv := resetKeepsTheInvariant.1

section
variable {s : State} (h : s.Inv)
include h

theorem State.Inv.wr (k : RegKey) (w : Word) : (s.wr k w).Inv := h.of_eq rfl rfl

theorem State.Inv.put (f : Fld) (v i j : Nat) : (s.put f v i j).Inv := h.wr ..

theorem State.Inv.putAll (i j : Nat) (l : List (Fld × Nat)) : (s.putAll i j l).Inv := h.of_eq (State.putAll_mem ..) (State.putAll_tbu ..)

theorem State.Inv.setWord (a x : Nat) : (s.setWord a x).Inv := ⟨Memory.wf_setWord a x h.mem, h.timeA, h.timeB⟩

theorem State.Inv.setBytes (a : Nat) (bs : List Byte) : (s.setBytes a bs).Inv := ⟨Memory.wf_writeBytes a bs h.mem, h.timeA, h.timeB⟩

theorem State.Inv.setWords (a : Nat) (ws : List Nat) : (s.setWords a ws).Inv := by
  induction ws generalizing s a with
  | nil => exact h
  | cons w ws ih => exact ih (h.setWord a w) (a + 4)

theorem State.Inv.dom (d : Dom) : (s.tbu.dom d).ok := by
  cases d with
  | A => exact h.timeA
  | B => exact h.timeB

/-- The time base may change where its counters keep their ranges. -/
theorem State.Inv.setTbu {x : Tbu} (ha : x.a.ok) (hb : x.b.ok) : (s.setTbu x).Inv := ⟨h.mem, ha, hb⟩

theorem State.Inv.setDom (d : Dom) {x : TbuDom} (hx : x.ok) : (s.setDom d x).Inv := by
  cases d with
  | A => exact ⟨h.mem, hx, h.timeB⟩
  | B => exact ⟨h.mem, h.timeA, hx⟩

end

end Sys2Proof.Machine
end

