-- ==== Sys2Proof/Proofs/InvariantUnits.lean ====
section
/-!
SUPPORT. Sys2Proof/Proofs/InvariantUnits.lean: the memories, the movers and the engines leave the invariant as it was, operation by operation.
-/
namespace Sys2Proof.Machine

section
variable {s : State} (h : s.Inv)
include h

/-! ### Machine/Ops -/

theorem State.Inv.send (o : Out) : (s.send o).Inv := h.of_eq rfl rfl

theorem State.Inv.freshNat : s.freshNat.2.Inv := h.of_eq rfl rfl

theorem State.Inv.freshBool : s.freshBool.2.Inv := h.of_eq rfl rfl

/-! ### Machine/Flags -/

theorem State.Inv.set (f : Fld) (i j : Nat) : (s.set f i j).Inv := h.put ..

theorem State.Inv.clr (f : Fld) (i j : Nat) : (s.clr f i j).Inv := h.put ..

theorem State.Inv.setTo (f : Fld) (b : Bool) (i j : Nat) : (s.setTo f b i j).Inv := h.put ..

theorem State.Inv.count (f : Fld) (n i j : Nat) : (s.count f n i j).Inv := h.put ..

theorem State.Inv.raise (f : Fld) (v i j : Nat) : (s.raise f v i j).Inv := h.put ..

/-! ### Machine/Events -/

theorem State.Inv.setHost (h' : HostIf) : (s.setHost h').Inv := h.of_eq rfl rfl

theorem State.Inv.setRing (r : Nat) (x : Ring) : (s.setRing r x).Inv := h.setHost ..

theorem State.Inv.writeOut (inHost : Bool) (f a : Nat) (bs : List Byte) : (s.writeOut inHost f a bs).Inv :=
  (h.send ..).ite (h.setBytes ..)

theorem State.Inv.writeBack (x : Ring) (idx : Nat) : (s.writeBack x idx).Inv := h.writeOut ..

theorem State.Inv.ringSignal (r n : Nat) : (s.ringSignal r n).Inv := by
  unfold State.ringSignal
  split
  · exact h
  · exact (((h.setRing ..).send ..).ite (h.setRing ..)).ite (h.setRing ..)

theorem State.Inv.ringPutBytes (r : Nat) (bytes : Nat → List Byte) (buf : Option (Nat × Nat)) : (s.ringPutBytes r bytes buf).Inv := by
  unfold State.ringPutBytes
  split
  · exact h
  · exact ((((h.writeOut ..).setRing ..).put ..).writeBack ..).ringSignal ..

theorem State.Inv.ringPut (r : Nat) (i : ItemWords) (buf : Option (Nat × Nat)) : (s.ringPut r i buf).Inv := h.ringPutBytes ..

theorem State.Inv.payload (r : Nat) : (s.payload r).2.Inv := by
  unfold State.payload
  dsimp only
  split
  · exact h.freshNat
  · exact State.Inv.ite_snd h.freshNat h.freshNat.freshNat

theorem State.Inv.messagePut (r msgId carrier slot : Nat) : (s.messagePut r msgId carrier slot).Inv := by
  unfold State.messagePut
  dsimp only
  exact (h.payload ..).ringPut ..

theorem State.Inv.eventTo (f : Nat) (e : Event) : (s.eventTo f e).Inv := by
  unfold State.eventTo
  split
  · exact h
  · exact ((((h.messagePut ..).setHost ..).send ..).ite (h.setHost ..)).ite h

theorem State.Inv.event (e : Event) : (s.event e).Inv := h.eventTo ..

theorem State.Inv.erqShow (sev : Nat) : (s.erqShow sev).Inv := (h.setTo ..).put ..

theorem State.Inv.erqMerge (r : Report) (w : Nat) : (s.erqMerge r w).Inv := by
  unfold State.erqMerge
  extract_lets _ _ _ _ s₁ s₂ s₃
  have h₁ : s₁.Inv := h.setWord ..
  have h₂ : s₂.Inv := h₁.setWord ..
  have h₃ : s₃.Inv := h₂.of_eq rfl rfl
  exact h₃.count ..

theorem State.Inv.erqNew (r : Report) : (s.erqNew r).Inv := by
  unfold State.erqNew
  extract_lets w u v
  have hu : u.Inv := h.setWords ..
  clear_value u
  have hv : v.Inv := hu.of_eq rfl rfl
  exact (hv.put ..).erqShow ..

theorem State.Inv.erqDrop (r : Report) : (s.erqDrop r).Inv := (h.count ..).set ..

theorem State.Inv.erqCapture (r : Report) : (s.erqCapture r).Inv := h.ite ((h.foldl (fun _ _ h => h.put ..) _).put ..)

theorem State.Inv.report (r : Report) : (s.report r).Inv := by
  unfold State.report
  extract_lets s₁
  have h₁ : s₁.Inv := h.erqCapture ..
  split
  · exact h₁.count ..
  · split
    · exact h₁.erqMerge ..
    · exact (h₁.erqNew ..).ite (h₁.erqDrop ..)

/-! ### Machine/Mem -/

theorem State.Inv.setMemx (m : MemSt) : (s.setMemx m).Inv := h.of_eq rfl rfl

theorem State.Inv.setGranReady (st g : Nat) : (s.setGranReady st g).Inv := (h.put ..).ite (h.put ..)

theorem State.Inv.recWrite (k : Nat) (body : List Nat) : (s.recWrite k body).Inv := ((h.setWords ..).setWords ..).count ..

theorem State.Inv.setRepairs (rs : List Repair) : (s.setRepairs rs).Inv := (h.setMemx ..).recWrite ..

theorem State.Inv.repairReport (cls mac : Nat) : (s.repairReport cls mac).Inv := (h.report ..).ite h

theorem State.Inv.queueRepair (kind mac index : Nat) : (s.queueRepair kind mac index).Inv :=
  (h.repairReport ..).ite ((h.setRepairs ..).repairReport ..)

theorem State.Inv.applyRepair (r : Repair) : (s.applyRepair r).2.Inv := State.Inv.ite_snd (h.repairReport ..) (h.setMemx ..)

theorem State.Inv.applyRepairs (p : Nat → Bool) : (s.applyRepairs p).Inv := by
  unfold State.applyRepairs
  split
  · dsimp only
    refine State.Inv.setRepairs ?_ ..
    refine State.Inv.foldl_snd ?_ (fun t a h => ?_) _
    · exact h
    · exact State.Inv.ite_snd (h.applyRepair ..) h
  · exact h

theorem State.Inv.rowPlace (mac row : Nat) : (s.rowPlace mac row).2.Inv := by
  unfold State.rowPlace
  split
  · exact h
  · extract_lets
    split
    · exact h
    · exact (h.setMemx ..).count ..

theorem State.Inv.rowEvent (a w : Nat) : (s.rowEvent a w).Inv := by
  unfold State.rowEvent
  extract_lets
  dsimp only
  split
  · split
    · exact ((((((h.rowPlace ..).setMemx ..).put ..).put ..).put ..).set ..).queueRepair ..
    · exact ((((h.rowPlace ..).setMemx ..).put ..).put ..).put ..
  · split
    · exact (((((((h.rowPlace ..).setMemx ..).put ..).put ..).put ..).clr ..).set ..).queueRepair ..
    · exact (((((h.rowPlace ..).setMemx ..).put ..).put ..).put ..).clr ..

theorem State.Inv.colEvent (a pos : Nat) : (s.colEvent a pos).Inv := ((h.setMemx ..).queueRepair ..).ite (h.setMemx ..)

theorem State.Inv.symEvent (a pos : Nat) : (s.symEvent a pos).Inv :=
  (((((h.setMemx ..).put ..).set ..).report ..).ite (((h.setMemx ..).put ..).set ..)).ite (h.setMemx ..)

theorem State.Inv.memEvent (cls : Nat) (table : Bool) (a pos : Nat) : (s.memEvent cls table a pos).Inv := by
  unfold State.memEvent
  extract_lets s₁ _ s₂
  have h₁ : s₁.Inv := by
    unfold s₁
    split
    · exact h.count ..
    · exact h
  have h₂ : s₂.Inv := h₁.ite (h₁.putAll ..)
  exact (h₂.report ..).ite h₂

theorem State.Inv.ceEvent (k : MemKind) (a pos : Nat) : (s.ceEvent k a pos).Inv := by
  unfold State.ceEvent
  extract_lets s₁
  have h₁ : s₁.Inv := h.memEvent ..
  split
  · exact (h₁.rowEvent ..).colEvent ..
  · exact (h₁.rowEvent ..).symEvent ..
  · exact h₁

theorem State.Inv.setChk (w : Nat) (c : Option WordChk) : (s.setChk w c).Inv := h.setMemx ..

theorem State.Inv.hbmCount (k : MemKind) (a cls : Nat) : (s.hbmCount k a cls).Inv := (h.count ..).ite h

theorem State.Inv.upset (w : Nat) (u : Upset) : (s.upset w u).Inv := by
  unfold State.upset
  split
  · exact h.setChk ..
  · exact (h.setChk ..).setBytes ..
  · exact h.count ..
  · exact h

theorem State.Inv.readWord (k : MemKind) (w : Nat) (table : Bool) : (s.readWord k w table).2.Inv := by
  unfold State.readWord
  split
  · exact h
  · exact State.Inv.ite_snd (h.count ..) ((h.setChk ..).ceEvent ..)
  · exact (h.memEvent ..).ite (((h.memEvent ..).setChk ..).rowEvent ..)
  · exact h.memEvent ..

theorem State.Inv.injected (k : MemKind) (a n w : Nat) : (s.injected k a n w).Inv := by
  unfold State.injected
  extract_lets
  split
  · dsimp only
    split
    · exact (h.freshNat.clr ..).setChk ..
    · exact (h.freshNat.clr ..).setChk ..
    · exact (h.freshNat.clr ..).setChk ..
    · exact (h.freshNat.clr ..).setChk ..
  · exact h

theorem State.Inv.writeFull (k : MemKind) (w : Nat) (bs : List Byte) : (s.writeFull k w bs).Inv := ((h.setChk ..).setBytes ..).injected ..

theorem State.Inv.writePart (k : MemKind) (a : Nat) (bs : List Byte) : (s.writePart k a bs).Inv := by
  unfold State.writePart
  extract_lets _ s₁
  have h₁ : s₁.Inv := by
    unfold s₁
    split
    · exact h
    · exact (h.setChk ..).ceEvent ..
    · exact ((h.setChk ..).memEvent ..).rowEvent ..
  exact (h₁.setBytes ..).injected ..

theorem State.Inv.store (a : Nat) (bs : List Byte) : (s.store a bs).Inv := by
  unfold State.store
  extract_lets _ _ s₁ s₂
  have h₁ : s₁.Inv := by
    unfold s₁
    refine h.foldl (fun t a h => ?_) _
    split
    · exact h
    · split
      · exact h.setChk ..
      · split
        · exact (h.setChk ..).ceEvent ..
        · exact ((h.setChk ..).memEvent ..).rowEvent ..
        · exact h
  have h₂ : s₂.Inv := h₁.setBytes ..
  split
  · exact h₂.injected ..
  · exact h₂

theorem State.Inv.load (a n : Nat) : (s.load a n).2.Inv := by
  unfold State.load
  refine State.Inv.foldl_snd ?_ (fun t a h => ?_) _
  · exact h
  · split
    · exact h
    · dsimp only
      exact h.readWord ..

theorem State.Inv.poisonRange (a n : Nat) : (s.poisonRange a n).Inv := by
  unfold State.poisonRange
  split
  · exact h
  · exact h.foldl (fun _ _ h => h.setChk ..) _

theorem State.Inv.priority (a : Nat) : (s.priority a).Inv :=
  (h.ite (h.setMemx ..)).ite ((h.set ..).ite ((((h.setMemx ..).put ..).put ..).set ..))

theorem State.Inv.writeWithin (k : MemKind) (a : Nat) (bs : List Byte) : (s.writeWithin k a bs).Inv :=
  (h.writeFull ..).ite (h.writePart ..)

theorem State.Inv.stackWake (st : Nat) : (s.stackWake st).Inv := h.ite ((h.putAll ..).ite (h.putAll ..))

theorem State.Inv.memWait (x : MemAccess) : (s.memWait x).Inv := (h.setMemx ..).stackWake ..

theorem State.Inv.memRead (k : MemKind) (a : Nat) (table : Bool) : (s.memRead k a table).Inv := by
  unfold State.memRead
  extract_lets
  split
  · exact (h.memEvent ..).send ..
  · dsimp only
    exact (h.readWord ..).send ..

theorem State.Inv.memResume : s.memResume.Inv := by
  unfold State.memResume
  extract_lets
  refine (h.setMemx ..).foldl (fun t a h => ?_) _
  split
  · exact (h.memWait ..).ite (h.writeWithin ..)
  · exact (h.memWait ..).ite (h.memRead ..)

theorem State.Inv.initNext (st : Nat) : (s.initNext st).Inv := by
  unfold State.initNext
  split
  · exact (((h.setMemx ..).put ..).put ..).set ..
  · split
    · exact (((h.setMemx ..).put ..).put ..).clr ..
    · extract_lets s₁
      have h₁ : s₁.Inv := h.clr ..
      split
      · exact (h₁.put ..).put ..
      · exact h₁.set ..

theorem State.Inv.granuleReady (st : Nat) : (s.granuleReady st).Inv := (((h.setGranReady ..).initNext ..).memResume).ite h

theorem State.Inv.logWrite (ws : List Nat) : (s.logWrite ws).Inv := ((h.setWords ..).setMemx ..).count ..

theorem State.Inv.erqRead (sev : Nat) : (s.erqRead sev).Inv := by
  unfold State.erqRead
  extract_lets _ _ s₁ _ s₂ s₃
  have h₁ : s₁.Inv := (h.put ..).erqShow ..
  have h₂ : s₂.Inv := h₁.setMemx ..
  have h₃ : s₃.Inv := by
    unfold s₃
    split
    · exact (h₂.ringPutBytes ..).ite h₂
    · exact h₂
  exact h.ite (((h₃.event ..).logWrite ..).ite h₃)

theorem State.Inv.erqAdvance (sev v : Nat) : (s.erqAdvance sev v).Inv := ((h.put ..).erqShow ..).ite h

/-! ### Machine/Units -/

theorem State.Inv.setGdx (g : Gdx) : (s.setGdx g).Inv := h.of_eq rfl rfl

theorem State.Inv.setExec (e : Nat) (x : Exec) : (s.setExec e x).Inv := h.setGdx ..

/-! ### Machine/Bmv -/

theorem State.Inv.setExu (x : Exu) : (s.setExu x).Inv := h.of_eq rfl rfl

theorem State.Inv.setBch (e k : Nat) (c : BmvCh) : (s.setBch e k c).Inv := h.setExu ..

theorem State.Inv.setBmvState (e k v : Nat) : (s.setBmvState e k v).Inv := h.put ..

theorem State.Inv.shareShow (e : Nat) : (s.shareShow e).Inv := ((h.put ..).set ..).ite (h.put ..)

theorem State.Inv.bmvLoad (e k : Nat) : (s.bmvLoad e k).Inv :=
  ((((((((h.wr ..).wr ..).wr ..).wr ..).wr ..).wr ..).wr ..).putAll ..).setBch ..

theorem State.Inv.bmvGo (e k : Nat) : (s.bmvGo e k).Inv :=
  (h.set ..).ite ((h.set ..).ite ((((h.putAll ..).bmvLoad ..).ite ((h.putAll ..).set ..)).shareShow ..))

theorem State.Inv.bmvIrq (e k : Nat) (en : Fld) : (s.bmvIrq e k en).Inv := ((h.send ..).ite (h.send ..)).ite h

theorem State.Inv.bmvFlag (e k : Nat) (f : Fld) : (s.bmvFlag e k f).Inv := ((h.set ..).ite h).set ..

theorem State.Inv.bmvIdle (e k : Nat) : (s.bmvIdle e k).Inv := (h.putAll ..).setBch ..

theorem State.Inv.bmvHalt (e k err : Nat) (b : Burst) : (s.bmvHalt e k err b).Inv := (((h.putAll ..).setBch ..).bmvIrq ..).shareShow ..

theorem State.Inv.devWrite (a : Nat) (bs : List Byte) : (s.devWrite a bs).Inv := (h.send ..).ite (h.store ..)

theorem State.Inv.bmvSettle (e k : Nat) : (s.bmvSettle e k).Inv := by
  unfold State.bmvSettle
  extract_lets _ s₁ s₂ s₃
  have h₁ : s₁.Inv := (h.setTo ..).ite h
  have h₂ : s₂.Inv := (h₁.bmvFlag ..).bmvIrq ..
  have h₃ : s₃.Inv := (h₂.bmvLoad ..).ite (((h₂.putAll ..).setBch ..).ite ((h₂.setBmvState ..).setBch ..))
  split
  · exact h
  · split
    · exact (h.bmvIdle ..).shareShow ..
    · split
      · exact h
      · split
        · exact ((h.setBch ..).count ..).ite (h.bmvHalt ..)
        · exact (h₃.shareShow ..).ite h

theorem State.Inv.bmvDeliver (e k i : Nat) (b : Burst) (host : List Byte) : (s.bmvDeliver e k i b host).Inv := by
  unfold State.bmvDeliver
  extract_lets _ _ _ _ s₁ _ _ s₂ _ _ s₃ _ s₄
  have h₁ : s₁.Inv := by
    unfold s₁
    split
    · exact h.devWrite ..
    · exact h.devWrite ..
    · split
      · exact h
      · exact h.put ..
  have h₂ : s₂.Inv := h₁.setBch ..
  have h₃ : s₃.Inv := h₂.put ..
  have h₄ : s₄.Inv := ((h₃.bmvFlag ..).bmvIrq ..).ite h₃
  exact h₄.bmvSettle ..

theorem State.Inv.bmvIssue (e k : Nat) : (s.bmvIssue e k).Inv := (((h.setBch ..).put ..).count ..).clr ..

theorem State.Inv.bmvStop (e k : Nat) : (s.bmvStop e k).Inv := (((h.setBmvState ..).setBch ..).bmvSettle ..).ite h

theorem State.Inv.bmvRelease (e k : Nat) : (s.bmvRelease e k).Inv := ((h.bmvIdle ..).putAll ..).shareShow ..

theorem State.Inv.bmvMapApply (e : Nat) : (s.bmvMapApply e).Inv := by
  unfold State.bmvMapApply
  split
  · exact h
  · extract_lets _ _ _ _ _ s₁ _ s₂ _ s₃
    have h₁ : s₁.Inv := h.put ..
    have h₂ : s₂.Inv := h₁.foldl (fun _ _ h => h.clr ..) _
    have h₃ : s₃.Inv := h₂.put ..
    exact ((h₃.setExu ..).clr ..).ite h₃

theorem State.Inv.bmvMapWrite (e map : Nat) : (s.bmvMapWrite e map).Inv := (h.set ..).ite (((h.setExu ..).set ..).bmvMapApply ..)

/-! ### Machine/Bufs -/

theorem State.Inv.setPoolFree (p n : Nat) : (s.setPoolFree p n).Inv := (h.setWord ..).setWord ..

theorem State.Inv.bufTake (p : Nat) : (s.bufTake p).2.Inv := by
  unfold State.bufTake
  extract_lets
  dsimp only
  exact (h.freshNat.setPoolFree ..).setGdx ..

theorem State.Inv.bufReturn (p a : Nat) : (s.bufReturn p a).Inv := ((h.setGdx ..).setPoolFree ..).ite h

theorem State.Inv.setRefs (t : Token) (n : Nat) : (s.setRefs t n).Inv := h.setGdx ..

theorem State.Inv.bufUnref (p a : Nat) : (s.bufUnref p a).Inv := ((h.setGdx ..).bufReturn ..).ite (h.setGdx ..)

/-! ### Machine/Runs -/

theorem State.Inv.setCore (k : Nat) (c : VscCore) : (s.setCore k c).Inv := h.setExu ..

theorem State.Inv.setPwr (p : Pwr) : (s.setPwr p).Inv := h.of_eq rfl rfl

theorem State.Inv.domTouch (d : Nat) : (s.domTouch d).Inv := h.setPwr ..

theorem State.Inv.mxShow (c : Nat) (m : Mxc) (sb : Nat) : (s.mxShow c m sb).Inv := h.putAll ..

theorem State.Inv.setMx (c : Nat) (m : Mxc) : (s.setMx c m).Inv := (h.setExu ..).mxShow ..

theorem State.Inv.mxRunEnd (c pos node : Nat) : (s.mxRunEnd c pos node).Inv := h.setMx ..

theorem State.Inv.vscCapture (k code cause reason pc : Nat) : (s.vscCapture k code cause reason pc).Inv := h.ite ((h.putAll ..).put ..)

theorem State.Inv.vscFinish (k : Nat) : (s.vscFinish k).Inv := by
  unfold State.vscFinish
  split
  · exact h
  · split
    · exact h
    · exact ((((((h.foldl (fun _ _ h => h.bmvRelease ..) _).mxRunEnd ..).clr ..).setExec ..).setExu ..).domTouch ..).ite h

theorem State.Inv.runEnd (k code cause reason addr : Nat) : (s.runEnd k code cause reason addr).Inv := by
  unfold State.runEnd
  split
  · exact h
  · extract_lets _ _ s₁ s₂ s₃ s₄ s₅ s₆
    have h₁ : s₁.Inv := h.vscCapture ..
    have h₂ : s₂.Inv := h₁.ite ((h₁.report ..).ite (h₁.report ..))
    have h₃ : s₃.Inv := (h₂.report ..).ite h₂
    have h₄ : s₄.Inv := h₃.foldl (fun _ _ h => ((h.clr ..).bmvIdle ..).ite ((h.clr ..).bmvStop ..)) _
    have h₅ : s₅.Inv := h₄.mxRunEnd ..
    have h₆ : s₆.Inv := h₅.setCore ..
    exact h.ite (h₆.vscFinish ..)

theorem State.Inv.vscStart (k e node : Nat) (kn : Kernel) : (s.vscStart k e node kn).Inv := (h.setCore ..).putAll ..

/-! ### Machine/BmvCmd -/

theorem State.Inv.bmvAfter (e k : Nat) : (s.bmvAfter e k).Inv := by
  unfold State.bmvAfter
  split
  · exact h
  · split
    · exact h
    · exact ((h.runEnd ..).ite h).vscFinish ..

theorem State.Inv.bmvMapTry (e : Nat) : (s.bmvMapTry e).Inv := (h.bmvMapApply ..).ite h

theorem State.Inv.bmvForeign (req : Requester) (e : Nat) : (s.bmvForeign req e).Inv := by
  unfold State.bmvForeign
  split
  · exact (h.count ..).ite h
  · exact h

theorem State.Inv.bmvClaim (v k : Nat) : (s.bmvClaim v k).Inv := by
  unfold State.bmvClaim
  split
  · exact h
  · exact h.ite (h.putAll ..)

theorem State.Inv.bmvClear (e k : Nat) : (s.bmvClear e k).Inv := (((h.bmvIdle ..).shareShow ..).bmvMapTry ..).ite h

theorem State.Inv.bmvStopCmd (e k : Nat) : (s.bmvStopCmd e k).Inv := ((h.bmvStop ..).bmvMapTry ..).ite h

theorem State.Inv.bmvParity (e k : Nat) : (s.bmvParity e k).Inv := (((h.bmvHalt ..).set ..).bmvAfter ..).ite (h.set ..)

theorem State.Inv.bmvWriteCh (e k : Nat) (r : Reg) (v : Word) : (s.bmvWriteCh e k r v).Inv := by
  unfold State.bmvWriteCh
  extract_lets s₁ s₂
  have h₁ : s₁.Inv := (h.bmvGo ..).ite h
  have h₂ : s₂.Inv := (h₁.bmvClear ..).ite h₁
  exact ((h.set ..).ite (h.wr ..)).ite (((h₂.bmvStopCmd ..).ite h₂).ite (h.ite (h.wr ..)))

theorem State.Inv.bmvWrite (req : Requester) (e off : Nat) (v : Word) : (s.bmvWrite req e off v).Inv := by
  unfold State.bmvWrite
  split
  · exact h
  · split
    · split
      · exact h.bmvForeign ..
      · exact (h.bmvMapWrite ..).ite (h.wr ..)
    · split
      · exact ((h.bmvClaim ..).ite h).ite ((h.bmvWriteCh ..).ite (h.bmvForeign ..))
      · exact h.bmvWriteCh ..

theorem State.Inv.bmvRead (e off : Nat) : (s.bmvRead e off).2.Inv := by
  unfold State.bmvRead
  split
  · exact h
  · exact (h.wr ..).ite h

theorem State.Inv.rawMove (r n : Nat) : (s.rawMove r n).Inv := h.ite (h.of_eq rfl rfl)

theorem State.Inv.bmvBusError (e k i : Nat) (b : Burst) : (s.bmvBusError e k i b).Inv := ((h.setBch ..).bmvSettle ..).bmvAfter ..

theorem State.Inv.bmvPoison (e k i : Nat) (b : Burst) (off : Nat) (host : List Byte) : (s.bmvPoison e k i b off host).Inv := by
  unfold State.bmvPoison
  dsimp only
  split
  · exact ((((h.bmvDeliver ..).poisonRange ..).ite (h.bmvDeliver ..)).set ..).runEnd ..
  · exact (h.bmvHalt ..).bmvAfter ..

/-! ### Machine/Mxc -/

theorem State.Inv.mxSwitch (c : Nat) : (s.mxSwitch c).Inv := by
  unfold State.mxSwitch
  extract_lets _ s₁ _ s₂
  have h₁ : s₁.Inv := by
    unfold s₁
    split
    · exact (((h.store ..).count ..).count ..).ite h
    · exact h
  have h₂ : s₂.Inv := (h₁.count ..).count ..
  split
  · exact h
  · exact h.ite ((h.setMx ..).ite ((h₂.setMx ..).ite ((h₁.count ..).setMx ..)))

theorem State.Inv.mxStore (m : MxState) (o : MxOp) (md : Nat) : (s.mxStore m o md).2.Inv :=
  State.Inv.foldl_snd h (fun _ _ h => State.Inv.ite_snd (h.store ..) (State.Inv.ite_snd (h.store ..) (h.store ..))) _

theorem State.Inv.mxFault (c cause : Nat) (o : MxOwner) (port addr : Nat) : (s.mxFault c cause o port addr).Inv := by
  unfold State.mxFault
  extract_lets s₁ s₂ s₃ _ s₄
  have h₁ : s₁.Inv := (h.putAll ..).ite h
  have h₂ : s₂.Inv := h₁.runEnd ..
  have h₃ : s₃.Inv := (h₂.clr ..).clr ..
  have h₄ : s₄.Inv := h₃.foldl (fun _ _ h => h.runEnd ..) _
  exact (h₄.setMx ..).ite h₂

theorem State.Inv.mxPop (c : Nat) (st : MxState) : (s.mxPop c st).Inv := h.setMx ..

theorem State.Inv.coreUpdate (k : Nat) (f : VscCore → VscCore) : (s.coreUpdate k f).Inv := by
  unfold State.coreUpdate
  split
  · exact h
  · exact h.setCore ..

theorem State.Inv.mxExec (c : Nat) (o : MxOwner) (p : MxOp) : (s.mxExec c o p).Inv := by
  unfold State.mxExec
  extract_lets m d a b u sz bad sz' all r rest v
  have hu : u.Inv := h.count ..
  clear_value u
  refine .ite ((hu.clr ..).mxFault ..) (.ite ((hu.clr ..).mxFault ..) (.ite (hu.runEnd ..) (.ite (hu.mxPop ..)
    (.ite (.ite (hu.runEnd ..) ?_)
    (.ite (.ite (hu.runEnd ..) (.ite (hu.runEnd ..) ((hu.mxStore ..).mxPop ..))) (.ite (hu.mxPop ..) (.ite (hu.mxPop ..)
    (.ite (hu.mxPop ..) (.ite (hu.mxPop ..) (.ite ((hu.coreUpdate ..).mxPop ..) (.ite (hu.mxPop ..)
    (.ite ((hu.coreUpdate ..).mxPop ..) (hu.mxPop ..)))))))))))))
  split
  · split
    · exact hu.runEnd ..
    · exact hu.runEnd ..
  · exact hu.mxPop ..

theorem State.Inv.mxGrant (c : Nat) (o : MxOwner) (waited : Nat) : (s.mxGrant c o waited).Inv := (h.setMx ..).count ..

theorem State.Inv.mxUnlock (c : Nat) : (s.mxUnlock c).Inv := h.setMx ..

theorem State.Inv.mxRequest (c : Nat) (o : MxOwner) : (s.mxRequest c o).Inv := (h.mxGrant ..).ite (h.setMx ..)

theorem State.Inv.mxService (c : Nat) (on : Bool) : (s.mxService c on).Inv := (((h.set ..).set ..).setMx ..).ite ((h.clr ..).setMx ..)

/-! ### Machine/Engine -/

theorem State.Inv.mapShow (i p : Nat) : (s.mapShow i p).Inv := h.putAll ..

theorem State.Inv.engMapApply (i : Nat) : (s.engMapApply i).Inv :=
  ((h.setExu ..).foldl (fun _ _ h => ((h.mapShow ..).clr ..).setExec ..) _).ite h

theorem State.Inv.engMapWrite (i p : Nat) : (s.engMapWrite i p).Inv := h.ite (((h.setExu ..).set ..).engMapApply ..)

theorem State.Inv.engMapTry (c : Nat) : (s.engMapTry c).Inv := h.foldl (fun _ _ h => h.engMapApply ..) _

theorem State.Inv.engEnd (i : Nat) (j : EngJob) (busy code cause reason addr len0 len1 : Nat) :
    (s.engEnd i j busy code cause reason addr len0 len1).Inv := by
  unfold State.engEnd
  extract_lets _ s₁ s₂ s₃ s₄ _ _ s₅ s₆
  have h₁ : s₁.Inv := h.ite (h.putAll ..)
  have h₂ : s₂.Inv := h₁.ite (h₁.report ..)
  have h₃ : s₃.Inv := (h₂.count ..).clr ..
  have h₄ : s₄.Inv := (h₃.count ..).ite h₃
  have h₅ : s₅.Inv := h₄.setExu ..
  have h₆ : s₆.Inv := by
    unfold s₆
    split
    · exact h₅.domTouch ..
    · exact h₅
  exact (h₆.setExec ..).engMapTry ..

theorem State.Inv.engWrite (i : Nat) (j : EngJob) (op cycles busy : Nat) (empty : Bool) (o : EngOut) :
    (s.engWrite i j op cycles busy empty o).Inv := by
  unfold State.engWrite
  extract_lets _ _ s₁ s₂ s₃ s₄
  have h₁ : s₁.Inv := h.foldl (fun _ _ h => h.store ..) _
  have h₂ : s₂.Inv := h₁.store ..
  have h₃ : s₃.Inv := h₂.ite (h₂.store ..)
  have h₄ : s₄.Inv := (h₃.count ..).count ..
  exact (h.engEnd ..).ite ((h₄.count ..).engEnd ..)

theorem State.Inv.engCompute (i c op : Nat) (j : EngJob) (cycles busy : Nat) : (s.engCompute i c op j cycles busy).Inv := by
  unfold State.engCompute
  extract_lets
  split
  · exact h.engEnd ..
  · exact ((h.clr ..).engEnd ..).ite (((h.clr ..).engEnd ..).ite (h.engWrite ..))

theorem State.Inv.engJobRun (i c op : Nat) (j : EngJob) (cycles busy : Nat) : (s.engJobRun i c op j cycles busy).Inv := by
  unfold State.engJobRun
  extract_lets u paramIn pp len off stop pt ins v used
  have hu : u.Inv := h.put ..
  have hv : v.Inv := (hu.foldl (fun _ _ h => h.put ..) _).ite hu
  have hstop {t : State} (ht : t.Inv) (cause reason : Nat) : (stop t cause reason).Inv := ht.engEnd ..
  clear_value u v stop
  refine .ite (hstop hu.freshNat _ _) (.ite (hu.engWrite ..) (.ite (hstop hu _ _) (.ite (hstop hu _ _) (.ite (hu.engEnd ..) ?_))))
  split
  · exact hstop hv _ _
  · refine .ite (hstop hv _ _) (.ite (hv.engWrite ..) ?_)
    split
    · exact hstop hv _ _
    · refine .ite (hstop hv _ _) ?_
      split
      · exact hstop hv _ _
      · exact ((hv.clr ..).engEnd ..).ite (hv.engCompute ..)

theorem State.Inv.engJob (c op k cycles busy : Nat) : (s.engJob c op k cycles busy).Inv := by
  unfold State.engJob
  extract_lets
  split
  · exact (h.engJobRun ..).ite h
  · exact h

theorem State.Inv.engStop (c k busy code cause reason addr : Nat) : (s.engStop c k busy code cause reason addr).Inv := by
  unfold State.engStop
  split
  · exact (h.engEnd ..).ite h
  · exact h

end

end Sys2Proof.Machine
end

