-- ==== Sys2Proof/Proofs/InvariantGraph.lean ====
section
/-!
SUPPORT. Sys2Proof/Proofs/InvariantGraph.lean: queues, slot graphs, clusters and whistles' air time leave the invariant as it was.
-/
namespace Sys2Proof.Machine

section
variable {s : State} (h : s.Inv)
include h

/-! ### Machine/PwrOps -/

theorem State.Inv.pwrRefuse (d cause : Nat) : (s.pwrRefuse d cause).Inv := (h.putAll ..).ite ((h.putAll ..).count ..)

theorem State.Inv.pwrSettle (d t : Nat) : (s.pwrSettle d t).Inv := (h.putAll ..).setPwr ..

theorem State.Inv.pwrEnter (d cur t : Nat) : (s.pwrEnter d cur t).Inv := ((h.pwrSettle ..).count ..).ite (h.putAll ..)

theorem State.Inv.pwrStart (d t : Nat) : (s.pwrStart d t).Inv :=
  h.ite ((h.pwrRefuse ..).ite (((h.setPwr ..).pwrEnter ..).ite (h.putAll ..)))

theorem State.Inv.pwrRequest (d t : Nat) (own : Bool) : (s.pwrRequest d t own).Inv :=
  (h.pwrRefuse ..).ite ((h.pwrRefuse ..).ite ((h.putAll ..).ite (h.pwrStart ..)))

theorem State.Inv.pwrResume (d : Nat) : (s.pwrResume d).Inv := ((h.putAll ..).pwrStart ..).ite h

theorem State.Inv.pwrDispatch (d : Nat) : (s.pwrDispatch d).Inv := (h.putAll ..).ite h

/-! ### Machine/Sq -/

theorem State.Inv.setQueue (q : Nat) (x : Queue) : (s.setQueue q x).Inv := h.of_eq rfl rfl

theorem State.Inv.pfcSend (port prio time : Nat) : (s.pfcSend port prio time).Inv := h.ite ((h.send ..).count ..)

theorem State.Inv.xoffShow (e : QueueEntry) : (s.xoffShow e).Inv := by
  unfold State.xoffShow
  extract_lets _ _ s₁ s₂
  have h₁ : s₁.Inv := h.put ..
  have h₂ : s₂.Inv := h.ite (h₁.ite (h₁.send ..))
  split
  · exact h₂
  · split
    · refine State.Inv.pfcSend ?_ ..
      exact h₂.of_eq rfl rfl
    · refine State.Inv.pfcSend ?_ ..
      exact h₂.of_eq rfl rfl

theorem State.Inv.queueLevel (q : Nat) : (s.queueLevel q).Inv := by
  unfold State.queueLevel
  split
  · exact h
  · extract_lets _ s₁ s₂ _ s₃
    have h₁ : s₁.Inv := (h.put ..).raise ..
    have h₂ : s₂.Inv := h₁.put ..
    have h₃ : s₃.Inv := ((h₂.set ..).set ..).ite (((h₂.clr ..).set ..).ite h₂)
    exact h₃.xoffShow ..

theorem State.Inv.queueWrite (q : Nat) (x : Queue) (i : QItem) : (s.queueWrite q x i).Inv := (h.setBytes ..).setQueue ..

theorem State.Inv.queueDrop (q : Nat) (o : Offer) (gap : Bool) : (s.queueDrop q o gap).Inv := by
  unfold State.queueDrop
  extract_lets _ s₁ s₂
  have h₁ : s₁.Inv := (h.count ..).put ..
  have h₂ : s₂.Inv := by
    unfold s₂
    split
    · exact h₁.bufUnref ..
    · exact h₁
  split
  · split
    · exact h₂
    · exact (h₂.setQueue ..).ite ((h₂.setQueue ..).set ..)
  · exact h₂

theorem State.Inv.queueGap (q : Nat) : (s.queueGap q).Inv := by
  unfold State.queueGap
  split
  · exact h
  · exact (((h.queueWrite ..).clr ..).count ..).ite h

theorem State.Inv.queueAccept (q : Nat) (o : Offer) : (s.queueAccept q o).Inv := by
  unfold State.queueAccept
  extract_lets s₁
  have h₁ : s₁.Inv := h.queueGap ..
  split
  · exact h₁
  · exact (((((h₁.setBytes ..).ite h₁).queueWrite ..).put ..).put ..).ite ((((h₁.setBytes ..).ite h₁).queueWrite ..).put ..)

theorem State.Inv.queueOffer (q : Nat) (o : Offer) : (s.queueOffer q o).Inv := by
  unfold State.queueOffer
  split
  · split
    · exact h.bufUnref ..
    · exact h
  · exact (h.queueDrop ..).ite (((h.queueAccept ..).queueLevel ..).ite (((((h.set ..).report ..).ite h).queueDrop ..).queueLevel ..))

theorem State.Inv.itemRelease (i : QItem) : (s.itemRelease i).Inv := h.ite (h.bufUnref ..)

theorem State.Inv.queueFree (q place : Nat) : (s.queueFree q place).Inv := by
  unfold State.queueFree
  split
  · exact h
  · split
    · exact h
    · exact ((((h.setQueue ..).put ..).ite (h.setQueue ..)).itemRelease ..).queueLevel ..

theorem State.Inv.queueHold (q place : Nat) : (s.queueHold q place).Inv := by
  unfold State.queueHold
  split
  · exact h
  · exact (h.setQueue ..).queueLevel ..

theorem State.Inv.gapSkip (q n : Nat) : (s.gapSkip q n).Inv := by
  induction n generalizing s with
  | zero => exact h
  | succ n ih =>
    unfold State.gapSkip
    split
    · exact (ih ((h.queueHold ..).queueFree ..)).ite h
    · exact h

theorem State.Inv.sqRefuse (cause : Nat) : (s.sqRefuse cause).Inv := (h.set ..).put ..

theorem State.Inv.sqCmd (q op : Nat) : (s.sqCmd q op).Inv := (h.put ..).put ..

theorem State.Inv.queueEnable (q : Nat) : (s.queueEnable q).Inv := by
  unfold State.queueEnable
  extract_lets _ _ _ s₁ s₂ s₃ s₄
  have h₁ : s₁.Inv := h.setQueue ..
  have h₂ : s₂.Inv := (h₁.set ..).clr ..
  have h₃ : s₃.Inv := h₂.put ..
  have h₄ : s₄.Inv := (h₃.put ..).ite h₃
  exact (h.sqRefuse ..).ite (h₄.queueLevel ..)

theorem State.Inv.queueDisable (q : Nat) : (s.queueDisable q).Inv := by
  unfold State.queueDisable
  extract_lets s₁
  have h₁ : s₁.Inv := h.clr ..
  split
  · exact h₁
  · exact h₁.xoffShow ..

theorem State.Inv.queueReset (q : Nat) : (s.queueReset q).Inv := by
  unfold State.queueReset
  split
  · exact h.sqRefuse ..
  · split
    · exact h
    · extract_lets s₁ s₂ s₃ s₄ s₅
      have h₁ : s₁.Inv := h.foldl (fun _ _ h => h.itemRelease ..) _
      have h₂ : s₂.Inv := h₁.setQueue ..
      have h₃ : s₃.Inv := (h₂.put ..).clr ..
      have h₄ : s₄.Inv := h₃.put ..
      have h₅ : s₅.Inv := ((h₄.clr ..).set ..).ite h₄
      exact h₅.xoffShow ..

/-! ### Machine/GdxOps -/

theorem State.Inv.setNode (n : Nat) (x : NodeInst) : (s.setNode n x).Inv := h.setGdx ..

theorem State.Inv.upNode (n : Nat) (f : NodeInst → NodeInst) : (s.upNode n f).Inv := by
  unfold State.upNode
  split
  · exact h.setNode ..
  · exact h

theorem State.Inv.setInst (i : Nat) (x : SlotInst) : (s.setInst i x).Inv := h.setGdx ..

theorem State.Inv.upInst (i : Nat) (f : SlotInst → SlotInst) : (s.upInst i f).Inv := by
  unfold State.upInst
  split
  · exact h.setInst ..
  · exact h

theorem State.Inv.tplBlock (t : Nat) (b : Bool) : (s.tplBlock t b).Inv := h.setGdx ..

theorem State.Inv.gdxReport (cls sev tpl detail w tl : Nat) : (s.gdxReport cls sev tpl detail w tl).Inv := h.report ..

theorem State.Inv.ringConsume (r idx : Nat) : (s.ringConsume r idx).Inv := by
  unfold State.ringConsume
  split
  · exact h
  · split
    · exact h
    · extract_lets s₁
      have h₁ : s₁.Inv := by
        unfold s₁
        split
        · exact h.bufReturn ..
        · exact h
      exact (h₁.setRing ..).ite ((((h₁.setRing ..).put ..).writeBack ..).ringSignal ..)

theorem State.Inv.errIndication (r : Nat) (i : RingItem) (code : FapiError) : (s.errIndication r i code).Inv := by
  unfold State.errIndication
  extract_lets s₁
  have h₁ : s₁.Inv := h.count ..
  split
  · exact h₁
  · split
    · exact h₁.count ..
    · exact (h₁.count ..).ite (((h₁.messagePut ..).send ..).ite (h₁.count ..))

theorem State.Inv.tokenFree (t : Token) : (s.tokenFree t).Inv := by
  unfold State.tokenFree
  split
  · exact h
  · split
    · exact h.queueFree ..
    · exact h.ringConsume ..
    · exact (h.bufUnref ..).ite h

theorem State.Inv.tokenStale (t : Token) : (s.tokenStale t).Inv := (h.count ..).tokenFree ..

theorem State.Inv.freeInputs (x : NodeInst) : (s.freeInputs x).Inv := by
  unfold State.freeInputs
  refine h.foldl (fun t a h => ?_) _
  split
  · exact h.tokenFree ..
  · exact h

theorem State.Inv.freeOutputs (ts : List Token) : (s.freeOutputs ts).Inv := h.foldl (fun _ _ h => (h.bufReturn ..).ite h) _

theorem State.Inv.launch (n port : Nat) (t : Token) : (s.launch n port t).Inv := h.setGdx ..

theorem State.Inv.joinFlow (f n : Nat) : (s.joinFlow f n).Inv := h.setGdx ..

theorem State.Inv.leaveFlow (x : NodeInst) (n : Nat) : (s.leaveFlow x n).Inv := by
  unfold State.leaveFlow
  split
  · exact h
  · exact h.setGdx ..

theorem State.Inv.setPool (p : Nat) (x : CreditPool) : (s.setPool p x).Inv := h.setGdx ..

theorem State.Inv.makeReady (n : Nat) : (s.makeReady n).Inv := h.upNode ..

theorem State.Inv.poolDrain (p : Nat) : (s.poolDrain p).Inv := (h.setPool ..).foldl (fun _ _ h => h.makeReady ..) _

theorem State.Inv.poolLeave (p n : Nat) : (s.poolLeave p n).Inv := h.setPool ..

theorem State.Inv.remoteSend (n : Option Nat) (i : SlotInst) (w1 : Nat) (retire : Bool) (t : Token) :
    (s.remoteSend n i w1 retire t).Inv :=
  h.setGdx ..

theorem State.Inv.endNode (n : Nat) (how : NodeEnd) : (s.endNode n how).Inv := by
  unfold State.endNode
  split
  · exact h
  · extract_lets s₁ _ s₂ s₃ s₄ s₅
    have h₁ : s₁.Inv := by
      unfold s₁
      split
      · exact h.poolLeave ..
      · exact h
    have h₂ : s₂.Inv := by
      unfold s₂
      split
      · exact h₁.setGdx ..
      · exact h₁.setExec ..
      · exact h₁
    have h₃ : s₃.Inv := h₂.freeOutputs ..
    have h₄ : s₄.Inv := (h₃.leaveFlow ..).freeInputs ..
    have h₅ : s₅.Inv := h₄.setNode ..
    exact h.ite (((h.freeInputs ..).setNode ..).ite (h₅.upInst ..))

theorem State.Inv.propagate (n : Nat) (ports : List Nat) : (s.propagate n ports).Inv := by
  unfold State.propagate
  split
  · exact h
  · split
    · exact h
    · extract_lets _ _ s₁
      have h₁ : s₁.Inv := by
        unfold s₁
        refine h.foldl (fun t a h => ?_) _
        split
        · exact h.ite (h.endNode ..)
        · exact h
      split
      · exact h
      · split
        · exact h₁.foldl (fun _ _ h => h.remoteSend ..) _
        · refine h.foldl (fun t a h => ?_) _
          extract_lets s₂
          have h₂ : s₂.Inv := by
            unfold s₂
            refine h.foldl (fun t a h => ?_) _
            split
            · exact h.launch ..
            · exact h
          split
          · exact h₂
          · split
            · exact h₂.remoteSend ..
            · split
              · exact h₂.queueOffer ..
              · split
                · dsimp only
                  exact h₂.freshNat.freshNat.ringPut ..
                · exact h₂

theorem State.Inv.failOne (n : Nat) : (s.failOne n).1.Inv := by
  unfold State.failOne
  split
  · exact h
  · split
    · exact h.endNode ..
    · split
      · exact h
      · exact (((h.endNode ..).count ..).gdxReport ..).propagate ..

theorem State.Inv.failAll (k : Nat) (ns : List Nat) : (State.failAll k s ns).Inv := by
  induction k generalizing s ns with
  | zero => exact h
  | succ k ih =>
    cases ns with
    | nil => exact h
    | cons n ns => exact ih (h.failOne n) _

theorem State.Inv.failNode (n : Nat) : (s.failNode n).Inv := h.failAll ..

theorem State.Inv.askAdmission (n : Nat) : (s.askAdmission n).Inv := by
  unfold State.askAdmission
  split
  · exact h
  · split
    · exact h
    · extract_lets _ _ _ s₁ s₂
      have h₁ : s₁.Inv := h.upNode ..
      have h₂ : s₂.Inv := h.count ..
      exact ((h.setPool ..).makeReady ..).ite (((h₁.setPool ..).poolDrain ..).ite ((h₂.failNode ..).ite ((h₂.endNode ..).propagate ..)))

theorem State.Inv.admitAll : s.admitAll.Inv := (h.foldl (fun _ _ h => h.askAdmission ..) _).ite h

theorem State.Inv.toRing (ring : Nat) (i : SlotInst) (t : Token) : (s.toRing ring i t).Inv := by
  unfold State.toRing
  split
  · exact h.bufUnref ..
  · split
    · exact (h.count ..).bufUnref ..
    · dsimp only
      exact (((h.freshNat.freshNat.send ..).ringPut ..).bufUnref ..).ite (h.freshNat.freshNat.ringPut ..)

theorem State.Inv.deliver (n : Nat) (x : NodeInst) (i : SlotInst) (k : Nat) (t : Token) : (s.deliver n x i k t).Inv := by
  unfold State.deliver
  extract_lets r cons sink remote refs u launched
  have hu : u.Inv := (h.setRefs ..).ite h
  have hl : launched.Inv := by
    refine hu.foldl (fun t c ht => ?_) _
    split
    · exact ht.launch ..
    · exact ht
  clear_value u launched remote refs
  refine .ite ((h.freeOutputs ..).propagate ..) (.ite (h.freeOutputs ..) ?_)
  cases sink with
  | none => exact hl
  | some w => exact .ite (hl.remoteSend ..) (.ite (hl.queueOffer ..) (hl.toRing ..))

theorem State.Inv.releaseNode (n : Nat) : (s.releaseNode n).Inv := by
  unfold State.releaseNode
  split
  · exact h
  · split
    · exact h
    · split
      · exact h.setNode ..
      · exact ((((h.foldl (fun _ _ h => h.deliver ..) _).leaveFlow ..).freeInputs ..).setNode ..).upInst ..

theorem State.Inv.takeTurn (n : Nat) : (s.takeTurn n).Inv := by
  unfold State.takeTurn
  split
  · exact h
  · extract_lets _ s₁
    have h₁ : s₁.Inv := by
      unfold s₁
      split
      · exact h.setGdx ..
      · exact h.setExec ..
      · exact h
    exact h₁.upNode ..

theorem State.Inv.releaseOne : s.releaseOne.Inv := by
  unfold State.releaseOne
  split
  · exact (h.takeTurn ..).releaseNode ..
  · exact h

theorem State.Inv.releaseAll : s.releaseAll.Inv := h.repeatN (fun _ h => h.releaseOne) _

theorem State.Inv.telemetry (typ : Nat) (i : SlotInst) : (s.telemetry typ i).Inv := (h.count ..).ite ((h.setWords ..).put ..)

theorem State.Inv.retire (i : Nat) : (s.retire i).Inv := by
  unfold State.retire
  split
  · exact h
  · exact (h.telemetry ..).setGdx ..

theorem State.Inv.retireAll : s.retireAll.Inv := h.foldl (fun _ _ h => (h.retire ..).ite h) _

theorem State.Inv.gdxShow : s.gdxShow.Inv := (h.foldl (fun _ _ h => (h.put ..).raise ..) _).putAll ..

theorem State.Inv.gdxCycle : s.gdxCycle.Inv := h.setGdx ..

theorem State.Inv.gdxSettle : s.gdxSettle.Inv := h.admitAll.releaseAll.retireAll.gdxShow

theorem State.Inv.lateToken (hit : CancelledNode → List (Nat × Nat × Nat × Nat) → Option Nat) : (s.lateToken hit).Inv :=
  (h.setGdx ..).count ..

theorem State.Inv.tokenAt (n port : Nat) (t : Token) : (s.tokenAt n port t).Inv := by
  unfold State.tokenAt
  split
  · exact h.tokenStale ..
  · split
    · exact h.tokenStale ..
    · split
      · exact h.tokenStale ..
      · extract_lets s₁
        have h₁ : s₁.Inv := h.setNode ..
        exact (h.tokenStale ..).ite ((h.tokenStale ..).ite (((h.count ..).tokenFree ..).ite (((h₁.upNode ..).joinFlow ..).ite h₁)))

theorem State.Inv.cancelInst (i : Nat) : (s.cancelInst i).Inv := by
  unfold State.cancelInst
  split
  · exact h
  · extract_lets _ _ _ s₁ s₂ _ _ s₃
    have h₁ : s₁.Inv := h.setInst ..
    have h₂ : s₂.Inv := by
      unfold s₂
      refine h₁.foldl (fun t a h => ?_) _
      split
      · exact h.upNode ..
      · exact h.endNode ..
    have h₃ : s₃.Inv := h₂.setGdx ..
    exact h₃.foldl (fun _ _ h => h.poolDrain ..) _

theorem State.Inv.cancel (i : Option Nat) : (s.cancel i).Inv := by
  unfold State.cancel
  split
  · exact h.count ..
  · split
    · exact h.count ..
    · exact h.ite (h.cancelInst ..)

theorem State.Inv.dueCancels (tl : Nat) : (s.dueCancels tl).Inv := by
  unfold State.dueCancels
  refine h.foldl (fun t a h => ?_) _
  extract_lets s₁ s₂ s₃
  have h₁ : s₁.Inv := h.upInst ..
  have h₂ : s₂.Inv := (h₁.count ..).cancelInst ..
  have h₃ : s₃.Inv := h₂.gdxReport ..
  split
  · exact h₃.telemetry ..
  · exact h₃

theorem State.Inv.lateRefill (p : Nat) (before : CreditPool) : (s.lateRefill p before).Inv := h.ite ((h.setGdx ..).count ..)

theorem State.Inv.refill (p op amount : Nat) : (s.refill p op amount).Inv :=
  (h.count ..).ite (((h.setPool ..).lateRefill ..).poolDrain ..)

theorem State.Inv.makeInst (t : Template) (e : Timeline) (tl : Nat) (slot : Int) : (s.makeInst t e tl slot).2.Inv := by
  unfold State.makeInst
  extract_lets _ _ _ s₁ s₂
  have h₁ : s₁.Inv := h.setInst ..
  have h₂ : s₂.Inv := by
    unfold s₂
    refine h₁.foldl (fun t a h => ?_) _
    extract_lets _ s₃
    have h₃ : s₃.Inv := h.setNode ..
    split
    · exact h₃.joinFlow ..
    · exact h₃
  exact h₂.setGdx ..

theorem State.Inv.retireToken (i k : Nat) : (s.retireToken i k).Inv := by
  unfold State.retireToken
  split
  · exact h
  · extract_lets _ s₁
    have h₁ : s₁.Inv := by
      unfold s₁
      refine h.foldl (fun t a h => ?_) _
      split
      · exact h.ite (h.endNode ..)
      · exact h
    exact h₁.foldl (fun _ _ h => h.remoteSend ..) _

theorem State.Inv.remoteAt (i node port : Nat) (isRetire : Bool) (t : Token) : (s.remoteAt i node port isRetire t).Inv := by
  unfold State.remoteAt
  split
  · exact h.retireToken ..
  · split
    · exact h.tokenAt ..
    · exact h.tokenStale ..

theorem State.Inv.holdingDrain (tpl tl id : Nat) (e : Timeline) (slot : Int) (w : Nat) : (s.holdingDrain tpl tl id e slot w).Inv :=
  ((h.setGdx ..).foldl (fun _ _ h => h.remoteAt ..) _).foldl (fun _ _ h => h.tokenStale ..) _

theorem State.Inv.create (tpl tl w : Nat) (slot : Option Int) : (s.create tpl tl w slot).2.Inv := by
  unfold State.create
  extract_lets
  split
  · split
    · exact (h.count ..).gdxReport ..
    · extract_lets
      split
      · exact h.count ..
      · split
        · exact (h.count ..).gdxReport ..
        · dsimp only
          exact (h.makeInst ..).holdingDrain ..
  · exact (h.count ..).gdxReport ..

/-! ### Machine/GdxRun -/

theorem State.Inv.moveRr (c e : Nat) (move : Bool) : (s.moveRr c e move).Inv := (h.put ..).ite h

theorem State.Inv.abandonTest (e : Nat) : (s.abandonTest e).Inv := by
  unfold State.abandonTest
  extract_lets _ _ _ s₁
  have h₁ : s₁.Inv := h.of_eq rfl rfl
  exact ((h₁.ite (h₁.clr ..)).ite h).ite h

theorem State.Inv.deliverRun (n : Nat) (x : NodeInst) (i : SlotInst) (kind : RunKind) (e : Nat) (outs : List Token) :
    (s.deliverRun n x i kind e outs).Inv := by
  unfold State.deliverRun
  extract_lets _ _ _ s₁ s₂ s₃ _ _ _ _ s₄ _ _ s₅
  have h₁ : s₁.Inv := h.setExec ..
  have h₂ : s₂.Inv := by
    unfold s₂
    split
    · exact h₁.pwrDispatch ..
    · exact h₁
  have h₃ : s₃.Inv := h₂.abandonTest ..
  have h₄ : s₄.Inv := h₃.foldl (fun _ _ h => h.put ..) _
  have h₅ : s₅.Inv := h₄.setExu ..
  split
  · split
    · exact h₃
    · exact (h₃.setWords ..).vscStart ..
  · exact h₅.set ..

theorem State.Inv.takeOuts (r : NodeRec) : (s.takeOuts r).2.Inv := by
  unfold State.takeOuts
  refine State.Inv.foldl_snd ?_ (fun t a h => ?_) _
  · exact h
  · dsimp only
    exact h.bufTake ..

theorem State.Inv.countWait (x : NodeInst) (level : Nat) : (s.countWait x level).Inv :=
  ((((h.count ..).raise ..).count ..).ite ((h.count ..).raise ..)).upInst ..

theorem State.Inv.dispatchTie (n : Nat) (x : NodeInst) (i : SlotInst) (r : NodeRec) : ∀ t, s.dispatchTie n x i r = some t → t.Inv := by
  intro t ht
  unfold State.dispatchTie at ht
  split at ht
  · cases ht
  · split at ht
    · cases ht
      exact (((((h.takeOuts ..).setNode ..).putAll ..).ite ((h.takeOuts ..).setNode ..)).countWait ..).deliverRun ..
    · cases ht

theorem State.Inv.dispatchNode (n : Nat) (x : NodeInst) (i : SlotInst) (r : NodeRec) :
    ∀ t, s.dispatchNode n x i r = some t → t.Inv := by
  intro t ht
  unfold State.dispatchNode at ht
  dsimp only at ht
  split at ht
  · cases ht
  split at ht
  · cases ht
  split at ht
  · cases ht
    exact (((h.moveRr ..).setNode ..).countWait ..).deliverRun ..
  split at ht
  · split at ht
    · cases ht
    split at ht
    · cases ht
      exact ((((((h.moveRr ..).moveRr ..).takeOuts ..).takeOuts ..).setNode ..).countWait ..).deliverRun .. |>.deliverRun ..
    · cases ht
  split at ht
  · cases ht
    exact (((((h.moveRr ..).count ..).ite (h.moveRr ..)).takeOuts ..).setNode ..).countWait .. |>.deliverRun ..
  · cases ht

theorem State.Inv.dispatchFirst (l : List (Nat × NodeInst)) (lack : Bool) : (s.dispatchFirst l lack).Inv := by
  induction l generalizing lack with
  | nil => exact (h.count ..).ite h
  | cons p ps ih =>
    unfold State.dispatchFirst
    split
    · exact ih _
    · dsimp only
      split
      next t ht =>
        have h₁ : t.Inv := by
          split at ht
          · exact h.dispatchTie _ _ _ _ _ ht
          · exact h.dispatchNode _ _ _ _ _ ht
        exact (h₁.count ..).ite h₁
      · exact ih _

theorem State.Inv.dispatch (c : Nat) : (s.dispatch c).Inv := (h.dispatchFirst ..).ite h

theorem State.Inv.execOut (e : Nat) : (s.execOut e).Inv := by
  unfold State.execOut
  extract_lets _ s₁ _ s₂
  have h₁ : s₁.Inv := h.setExec ..
  have h₂ : s₂.Inv := h₁.setGdx ..
  split
  · split
    · exact h₂.set ..
    · exact h₂
  · exact h₂.set ..

theorem State.Inv.faultExec (e : Nat) (c : Completion) : (s.faultExec e c).Inv := (h.ite (h.execOut ..)).ite h

theorem State.Inv.replayNode (n : Nat) (bad : List Nat) : (s.replayNode n bad).Inv := by
  unfold State.replayNode
  split
  · exact h
  · extract_lets _ s₁ s₂ s₃
    have h₁ : s₁.Inv := h.setNode ..
    have h₂ : s₂.Inv := h₁.upInst ..
    have h₃ : s₃.Inv := (h₂.count ..).upNode ..
    exact ((h₃.makeReady ..).ite (h₃.upNode ..)).ite (h₁.failNode ..)

theorem State.Inv.completeNode (n e : Nat) (outs : List Token) : (s.completeNode n e outs).Inv := by
  unfold State.completeNode
  split
  · exact h
  · exact (h.setNode ..).ite (((h.setNode ..).setGdx ..).ite ((h.setNode ..).setExec ..))

theorem State.Inv.holdInputs (x : NodeInst) : (s.holdInputs x).Inv := by
  unfold State.holdInputs
  refine h.foldl (fun t a h => ?_) _
  split
  · exact h.ite (h.setRefs ..)
  · exact h

theorem State.Inv.poisonNode (n p : Nat) : (s.poisonNode n p).Inv := by
  unfold State.poisonNode
  split
  · exact h
  · extract_lets _ _ s₁
    have h₁ : s₁.Inv := h.setNode ..
    split
    · exact h₁.failNode ..
    · split
      · exact h₁.failNode ..
      · extract_lets _ s₂ s₃ s₄ s₅
        have h₂ : s₂.Inv := h₁.upNode ..
        have h₃ : s₃.Inv := h₂.upInst ..
        have h₄ : s₄.Inv := (h₃.count ..).holdInputs ..
        have h₅ : s₅.Inv := h₄.setNode ..
        exact (h₁.upNode ..).ite (((h₅.makeReady ..).ite h₅).ite (h₁.failNode ..))

theorem State.Inv.poisonDone (q : Nat) : (s.poisonDone q).Inv := by
  unfold State.poisonDone
  split
  · exact h
  · exact ((h.freeInputs ..).setNode ..).foldl (fun _ _ h => h.makeReady ..) _

theorem State.Inv.umpCapture (n tpl : Nat) (a b : Run) (sa sb : Nat) : (s.umpCapture n tpl a b sa sb).Inv := h.ite (h.putAll ..)

theorem State.Inv.umpOutcome (n sc outcome : Nat) : (s.umpOutcome n sc outcome).Inv := (h.putAll ..).ite h

theorem State.Inv.judgePair (n e : Nat) (x : NodeInst) (a b : Run) (ra rb : RunResult) : (s.judgePair n e x a b ra rb).Inv := by
  unfold State.judgePair
  extract_lets free u v tpl w
  have hf {t : State} (ht : t.Inv) (r : Run) : (free r t).Inv := ht.freeOutputs ..
  have hw : w.Inv := ((h.count ..).upInst ..).umpCapture ..
  have hab : (free b (free a s)).Inv := hf (hf h a) b
  clear_value w free
  exact .ite (.ite (((hf h b).count ..).completeNode ..) ((hw.upNode ..).makeReady ..)) (.ite ((hab.upNode ..).failNode ..)
    (.ite (((hf h b).count ..).completeNode ..) (.ite (((hf h a).count ..).completeNode ..) (.ite (hab.poisonNode ..)
    (.ite (hab.poisonNode ..) (hab.replayNode ..))))))

theorem State.Inv.judgeTie (n e : Nat) (a b c : Run) (ra rb rc : RunResult) : (s.judgeTie n e a b c ra rb rc).Inv := by
  unfold State.judgeTie
  extract_lets s₁ s₂ s₃
  have h₁ : s₁.Inv := ((h.umpOutcome ..).count ..).freeOutputs ..
  have h₂ : s₂.Inv := ((h.umpOutcome ..).count ..).freeOutputs ..
  have h₃ : s₃.Inv := ((h.umpOutcome ..).count ..).freeOutputs ..
  exact ((h₁.execOut ..).completeNode ..).ite (((h₂.execOut ..).completeNode ..).ite ((h₃.upNode ..).failNode ..))

theorem State.Inv.judge (n e : Nat) : (s.judge n e).Inv := by
  unfold State.judge
  split
  · exact h
  · split
    · split
      · exact (h.poisonDone ..).ite ((h.failNode ..).ite ((h.failNode ..).ite (h.replayNode ..)))
      · split
        · exact h.completeNode ..
        · exact (((h.freeOutputs ..).upNode ..).failNode ..).ite (((h.freeOutputs ..).poisonNode ..).ite ((h.freeOutputs ..).replayNode ..))
    · split
      · exact h.judgePair ..
      · exact h
    · split
      · exact h.judgeTie ..
      · exact h
    · exact h

theorem State.Inv.injectSig (e sig : Nat) (paired : Bool) : (s.injectSig e sig paired).2.Inv := State.Inv.ite_snd (h.clr ..) h

theorem State.Inv.complete (e : Nat) : (s.complete e).Inv := by
  unfold State.complete
  extract_lets _ s₁
  have h₁ : s₁.Inv := h.setExec ..
  split
  · split
    · exact h₁.faultExec ..
    · extract_lets
      dsimp only
      split
      · exact ((((h₁.injectSig ..).setNode ..).faultExec ..).endNode ..).ite (((h₁.injectSig ..).setNode ..).faultExec ..)
      · exact (((h₁.injectSig ..).setNode ..).faultExec ..).judge ..
  · exact h

/-! ### Machine/Scl -/

theorem State.Inv.setScl (x : Scl) : (s.setScl x).Inv := h.of_eq rfl rfl

theorem State.Inv.sclShow (c : Nat) : (s.sclShow c).Inv := (h.put ..).put ..

theorem State.Inv.coreBack (l k : Nat) : (s.coreBack l k).Inv := (h.setExec ..).clr ..

theorem State.Inv.sclMapApply (c : Nat) : (s.sclMapApply c).Inv := by
  unfold State.sclMapApply
  split
  · exact h
  · extract_lets _ _ _ _ _ _ _ s₁ s₂
    have h₁ : s₁.Inv := (h.put ..).sclShow ..
    have h₂ : s₂.Inv := h₁.foldl (fun _ _ h => h.coreBack ..) _
    exact ((h₂.setScl ..).clr ..).ite h₂

theorem State.Inv.sclMapWrite (c map : Nat) : (s.sclMapWrite c map).Inv := (h.set ..).ite (((h.setScl ..).set ..).sclMapApply ..)

theorem State.Inv.lendApply (n : Nat) : (s.lendApply n).Inv := h.ite ((h.ite ((h.setScl ..).coreBack ..)).ite (h.setScl ..))

theorem State.Inv.lendWrite (n l : Nat) (en : Bool) : (s.lendWrite n l en).Inv := (h.set ..).ite ((h.putAll ..).lendApply ..)

/-! ### Machine/GdxCmd -/

theorem State.Inv.installAt (a regionLen : Nat) (fits : Bool) : (s.installAt a regionLen fits).2.Inv := by
  unfold State.installAt
  extract_lets
  split
  · exact h
  · split
    · exact h
    · exact State.Inv.ite_snd h (h.setGdx ..)

theorem State.Inv.install (regionLen : Nat) (fits : Bool) : (s.install regionLen fits).Inv := by
  unfold State.install
  extract_lets
  dsimp only
  exact (h.installAt ..).ite ((h.installAt ..).putAll ..)

theorem State.Inv.tplRemove (t : Nat) : (s.tplRemove t).Inv := h.setGdx ..

theorem State.Inv.takeQueue (q : Nat) (late : Bool) : (s.takeQueue q late).Inv := by
  unfold State.takeQueue
  split
  · split
    · exact h
    · split
      · exact h.queueFree ..
      · split
        · exact (h.count ..).queueFree ..
        · extract_lets s₁
          have h₁ : s₁.Inv := (h.lateToken ..).ite h
          split
          · exact (h₁.queueHold ..).tokenAt ..
          · exact (h₁.count ..).queueFree ..
          · exact h₁
  · exact h

theorem State.Inv.ringTake (r idx : Nat) : (s.ringTake r idx).Inv := by
  unfold State.ringTake
  split
  · exact h
  · exact h.setRing ..

theorem State.Inv.ringStale (r : Nat) (i : RingItem) (why : FapiError) : (s.ringStale r i why).Inv :=
  (((h.ringTake ..).count ..).errIndication ..).ringConsume ..

theorem State.Inv.takeRing (r : Nat) (late : Bool) : (s.takeRing r late).Inv := by
  unfold State.takeRing
  split
  · exact h
  · split
    · exact h
    · extract_lets
      split
      · exact h.ringStale ..
      · extract_lets _ _ s₁
        have h₁ : s₁.Inv := (h.lateToken ..).ite h
        split
        · exact h
        · dsimp only
          split
          · exact (State.Inv.ite_snd (h₁.create ..) h₁).ringStale ..
          · exact (State.Inv.ite_snd (h₁.create ..) h₁).ringStale ..
          · exact (State.Inv.ite_snd (h₁.create ..) h₁).ringStale ..
          · split
            · split
              · refine State.Inv.tokenAt ?_ ..
                split
                · exact ((State.Inv.ite_snd (h₁.create ..) h₁).ringTake ..).errIndication ..
                · exact (State.Inv.ite_snd (h₁.create ..) h₁).ringTake ..
              · exact (State.Inv.ite_snd (h₁.create ..) h₁).ringTake ..
            · exact (State.Inv.ite_snd (h₁.create ..) h₁).ringStale ..
            · exact State.Inv.ite_snd (h₁.create ..) h₁

theorem State.Inv.remoteToken (r : RemoteToken) (late : Bool) : (s.remoteToken r late).Inv := by
  unfold State.remoteToken
  split
  · exact ((h.create ..).ite h).tokenStale ..
  · extract_lets u gone rc
    have hu : u.Inv := (h.lateToken ..).ite h
    clear_value u
    split
    · exact hu.remoteAt ..
    · refine .ite (hu.tokenStale ..) (.ite ?_ (.ite ((hu.count ..).tokenFree ..) (hu.setGdx ..)))
      split
      next he => exact (State.Inv.of_snd he (hu.create ..)).remoteAt ..
      next he => exact (State.Inv.of_snd he (hu.create ..)).tokenStale ..

theorem State.Inv.snapHold (hold : Bool) : (s.snapHold hold).Inv := by
  unfold State.snapHold
  extract_lets s₁
  have h₁ : s₁.Inv := h.setTo ..
  split
  · split
    · exact h₁
    · exact h₁.setGdx ..
  · exact h₁.setGdx ..

theorem State.Inv.telemCopy : s.telemCopy.Inv := by
  unfold State.telemCopy
  split
  · exact h
  · exact h.ite (((h.count ..).ite ((h.ringPutBytes ..).ite (h.count ..))).put ..)

theorem State.Inv.setReserve (c v : Nat) : (s.setReserve c v).Inv := ((h.put ..).set ..).ite (h.put ..)

theorem State.Inv.instCreate (tpl tl : Nat) : (s.instCreate tpl tl).Inv := ((h.gdxCycle.create ..).gdxSettle).ite h

/-! ### Machine/Aft -/

theorem State.Inv.setAft (a : Aft) : (s.setAft a).Inv := h.of_eq rfl rfl

theorem State.Inv.setTl (t : Nat) (x : Timeline) : (s.setTl t x).Inv := h.setAft ..

theorem State.Inv.tlRefuse (cause : Nat) : (s.tlRefuse cause).Inv := h.putAll ..

theorem State.Inv.tddShow : s.tddShow.Inv := h.setTo ..

theorem State.Inv.tlEnShow (t : Nat) (on : Bool) : (s.tlEnShow t on).Inv := h.put ..

theorem State.Inv.latchSlot (t : Nat) (x : Timeline) (slot : Int) : (s.latchSlot t x slot).Inv := h.setTl ..

theorem State.Inv.tlEnable (t : Nat) : (s.tlEnable t).Inv := (h.tlRefuse ..).ite ((((h.setTl ..).tlEnShow ..).setGdx ..).latchSlot ..)

theorem State.Inv.tddUpdate (t ptr len : Nat) : (s.tddUpdate t ptr len).Inv := by
  unfold State.tddUpdate
  split
  · exact h.tlRefuse ..
  · exact (h.tlRefuse ..).ite ((h.tlRefuse ..).ite ((h.setTl ..).tddShow))

theorem State.Inv.tddApply (t : Nat) : (s.tddApply t).Inv := by
  unfold State.tddApply
  split
  · exact h
  · split
    · exact h
    · exact ((h.setTl ..).tddShow).ite h

theorem State.Inv.slotBoundary (t : Nat) : (s.slotBoundary t).Inv := by
  unfold State.slotBoundary
  split
  · exact h
  · exact h.ite (h.latchSlot ..)

end

end Sys2Proof.Machine
end

