-- ==== Sys2Proof/Proofs/InvariantLinks.lean ====
section
/-!
SUPPORT. Sys2Proof/Proofs/InvariantLinks.lean: couplers and network ports leave the invariant as it was.
-/
namespace Sys2Proof.Machine

section
variable {s : State} (h : s.Inv)
include h

/-! ### Machine/Cpl -/

theorem State.Inv.setCpl (p : Nat) (c : CplPort) : (s.setCpl p c).Inv := h.of_eq rfl rfl

theorem State.Inv.upCpl (p : Nat) (f : CplPort → CplPort) : (s.upCpl p f).Inv := h.setCpl ..

theorem State.Inv.cplSend (p : Nat) (b : CplBlock) : (s.cplSend p b).Inv := h.send ..

theorem State.Inv.cplState (p st : Nat) : (s.cplState p st).Inv := h.ite ((h.put ..).event ..)

theorem State.Inv.cplTrain (p : Nat) : (s.cplTrain p).Inv := by
  unfold State.cplTrain
  extract_lets s₁ s₂ s₃
  have h₁ : s₁.Inv := (h.put ..).put ..
  have h₂ : s₂.Inv := h₁.ite (h₁.pwrSettle ..)
  have h₃ : s₃.Inv := h₂.ite (h₂.pwrSettle ..)
  exact h₃.upCpl ..

theorem State.Inv.cplFail (p : Nat) : (s.cplFail p).Inv := (((h.count ..).put ..).cplState ..).ite ((h.count ..).put ..)

theorem State.Inv.cplMiswire (p lane : Nat) : (s.cplMiswire p lane).Inv := (((h.put ..).put ..).set ..).cplState ..

theorem State.Inv.cplLanes (p : Nat) (ls : List LaneSeen) (aligned : Nat) : (s.cplLanes p ls aligned).Inv := by
  unfold State.cplLanes
  split
  · exact h.cplMiswire ..
  · exact ((h.putAll ..).foldl (fun _ _ h => h.putAll ..) _).ite (h.cplFail ..)

theorem State.Inv.cplSlip (p l : Nat) (aligned : Bool) : (s.cplSlip p l aligned).Inv :=
  h.ite ((h.set ..).ite (((((h.upCpl ..).count ..).setTo ..).cplFail ..).ite (((h.upCpl ..).count ..).setTo ..)))

theorem State.Inv.cplCap (p : Nat) (set : CapSet) (ok : Bool) : (s.cplCap p set ok).Inv :=
  (h.setCpl ..).ite (((h.setCpl ..).putAll ..).ite (h.setCpl ..))

theorem State.Inv.cplGrant (p : Nat) : (s.cplGrant p).Inv := h.foldl (fun _ _ h => (h.setQueue ..).send ..) _

theorem State.Inv.cplAgree (p : Nat) : (s.cplAgree p).Inv :=
  ((h.put ..).cplState ..).ite ((((h.putAll ..).upCpl ..).cplState ..).cplGrant ..)

theorem State.Inv.cplDropTokens (p : Nat) : (s.cplDropTokens p).Inv := by
  unfold State.cplDropTokens
  exact ((h.count ..).foldl (fun _ _ h => h.tokenFree ..) _).upCpl ..

theorem State.Inv.cplGapOver (p : Nat) : (s.cplGapOver p).Inv := (((h.upCpl ..).clr ..).pwrResume ..).pwrResume ..

theorem State.Inv.cplStop (p : Nat) : (s.cplStop p).Inv :=
  ((((h.cplDropTokens ..).upCpl ..).putAll ..).cplGapOver ..).ite (((h.cplDropTokens ..).upCpl ..).putAll ..)

theorem State.Inv.cplDown (p : Nat) : (s.cplDown p).Inv := ((((h.cplState ..).cplStop ..).count ..).set ..).ite h

theorem State.Inv.cplDisable (p : Nat) : (s.cplDisable p).Inv := (((h.clr ..).cplState ..).cplStop ..).put ..

theorem State.Inv.cplEnable (p : Nat) : (s.cplEnable p).Inv := h.ite ((((h.set ..).put ..).cplState ..).cplTrain ..)

theorem State.Inv.freeDiv (a : Int) (n : Nat) : (s.freeDiv a n).2.Inv := State.Inv.ite_snd h (h.of_eq rfl rfl)

theorem State.Inv.cplProbes (p : Nat) : (s.cplProbes p).Inv := (h.upCpl ..).foldl (fun _ _ h => h.cplSend ..) _

theorem State.Inv.cplDelay (p : Nat) : (s.cplDelay p).Inv := ((h.upCpl ..).cplSend ..).ite h

theorem State.Inv.cplMeasure (p : Nat) : (s.cplMeasure p).Inv := by
  unfold State.cplMeasure
  extract_lets
  split
  · exact h
  · dsimp only
    exact ((((h.freeDiv ..).freeDiv ..).freeDiv ..).putAll ..).upCpl ..

theorem State.Inv.cplEndGap (p : Nat) : (s.cplEndGap p).Inv := ((h.cplMeasure ..).cplGapOver ..).cplDelay ..

theorem State.Inv.gapOpen (p : Nat) : (s.gapOpen p).Inv := (h.ite (((h.upCpl ..).set ..).cplSend ..)).ite (h.count ..)

theorem State.Inv.gapClose (p : Nat) : (s.gapClose p).Inv := ((h.cplSend ..).cplEndGap ..).ite h

theorem State.Inv.gapTimeout (p : Nat) : (s.gapTimeout p).Inv := (((h.cplSend ..).set ..).cplEndGap ..).ite h

theorem State.Inv.gapBegin (p : Nat) : (s.gapBegin p).Inv := by
  unfold State.gapBegin
  split
  · exact ((h.set ..).cplSend ..).cplProbes ..
  · exact h.cplProbes ..
  · exact h

theorem State.Inv.convPut (p conv : Nat) (ctrl : Bool) (word : Nat) : (s.convPut p conv ctrl word).Inv := by
  unfold State.convPut
  dsimp only
  exact (h.freshNat.count ..).cplSend ..

theorem State.Inv.convFire (p conv : Nat) (ctrl : Bool) (word : Nat) : (s.convFire p conv ctrl word).Inv :=
  h.ite (((((h.convPut ..).ite (((h.count ..).cplSend ..).report ..)).upCpl ..).cplSend ..).ite ((h.upCpl ..).convPut ..))

theorem State.Inv.sampleIn (p sid slot sym : Nat) (bs : List Byte) (ok : Bool) : (s.sampleIn p sid slot sym bs ok).Inv := by
  unfold State.sampleIn
  extract_lets s₁
  have h₁ : s₁.Inv := h.ite (h.count ..)
  split
  · exact h₁.count ..
  · exact ((h₁.count ..).ite (h₁.upCpl ..)).ite (h₁.queueOffer ..)

theorem State.Inv.sampleOut (q : Nat) : (s.sampleOut q).Inv := by
  unfold State.sampleOut
  extract_lets s₁
  have h₁ : s₁.Inv := (h.gapSkip ..).ite h
  split
  · exact h₁
  · exact (((((h₁.upCpl ..).ite h₁).queueHold ..).cplSend ..).queueFree ..).ite h₁

theorem State.Inv.sampleLate (q : Nat) : (s.sampleLate q).Inv := by
  unfold State.sampleLate
  split
  · exact h
  · exact (((h.queueHold ..).count ..).queueFree ..).ite h

theorem State.Inv.rawOut (p sid n : Nat) : (s.rawOut p sid n).Inv := by
  unfold State.rawOut
  split
  · exact ((h.upCpl ..).cplSend ..).ite h
  · exact h

theorem State.Inv.tokenLost (n : Option Nat) (r : RemoteToken) : (s.tokenLost n r).Inv := by
  unfold State.tokenLost
  extract_lets s₁
  have h₁ : s₁.Inv := (h.count ..).tokenFree ..
  split
  · exact h₁
  · split
    · exact h₁
    · exact h₁.setGdx ..

theorem State.Inv.tokenOut (k : Nat) : (s.tokenOut k).Inv := by
  unfold State.tokenOut
  split
  · exact h
  · extract_lets _ s₁
    have h₁ : s₁.Inv := h.setGdx ..
    exact (h₁.tokenLost ..).ite (h.ite (((h₁.setCpl ..).cplSend ..).ite ((h₁.cplSend ..).tokenFree ..)))

theorem State.Inv.tokenDeliver (p : Nat) (m : TokenMsg) (late : Bool) : (s.tokenDeliver p m late).Inv := by
  unfold State.tokenDeliver
  extract_lets
  split
  · exact h.remoteToken ..
  · split
    · exact h.count ..
    · split
      · exact h.count ..
      · dsimp only
        exact (((h.bufTake ..).setRefs ..).store ..).remoteToken ..

theorem State.Inv.tokenForward (m : TokenMsg) : (s.tokenForward m).Inv := (h.count ..).ite (h.setGdx ..)

theorem State.Inv.tokenIn (p : Nat) (m : TokenMsg) (late : Bool) : (s.tokenIn p m late).Inv := (h.tokenDeliver ..).ite (h.tokenForward ..)

theorem State.Inv.tokenRecv (p seq : Nat) (m : TokenMsg) (ok late : Bool) : (s.tokenRecv p seq m ok late).Inv :=
  (((h.setCpl ..).tokenIn ..).ite (h.ite ((h.setCpl ..).cplSend ..))).ite ((h.tokenIn ..).ite (h.count ..))

theorem State.Inv.tokenAck (p seq : Nat) : (s.tokenAck p seq).Inv := (h.setCpl ..).foldl (fun _ _ h => h.tokenFree ..) _

theorem State.Inv.tokenNak (p seq : Nat) : (s.tokenNak p seq).Inv := by
  unfold State.tokenNak
  extract_lets _ s₁
  have h₁ : s₁.Inv := h.setCpl ..
  split
  · exact h
  · exact (h₁.cplDown ..).ite ((h₁.count ..).foldl (fun _ _ h => h.cplSend ..) _)

theorem State.Inv.timeOut (p : Nat) (locked : Bool) : (s.timeOut p locked).Inv := (h.cplSend ..).ite h

theorem State.Inv.timeIn (p : Nat) (t : Tai) (car hops : Nat) (locked : Bool) (sub : Nat) : (s.timeIn p t car hops locked sub).Inv := by
  fun_cases State.timeIn s p t car hops locked sub with
  | case1 => exact h
  | case2 d hd owd units ps u hu off v w hw =>
    have hu : u.Inv := .of_snd hu (h.freeDiv ..)
    exact (State.Inv.of_snd hw (.ite_snd hu hu.freshNat)).putAll ..

theorem State.Inv.cplDrop (p lane : Nat) : (s.cplDrop p lane).Inv := ((h.put ..).set ..).cplSend ..

/-! ### Machine/Net -/

theorem State.Inv.upNet (p : Nat) (f : NetPort → NetPort) : (s.upNet p f).Inv := h.of_eq rfl rfl

theorem State.Inv.upLane (n : Nat) (f : NetLane → NetLane) : (s.upLane n f).Inv := h.of_eq rfl rfl

theorem State.Inv.netState (p st : Nat) : (s.netState p st).Inv := h.ite ((h.put ..).event ..)

theorem State.Inv.netSetMode (p mode lanes : Nat) : (s.netSetMode p mode lanes).Inv := (h.putAll ..).putAll ..

theorem State.Inv.testStop (n : Nat) : (s.testStop n).Inv := h.putAll ..

theorem State.Inv.netStart (p : Nat) : (s.netStart p).Inv :=
  ((h.foldl (fun _ _ h => h.upLane ..) _).upNet ..).ite (((h.foldl (fun _ _ h => h.upLane ..) _).upNet ..).netState ..)

theorem State.Inv.lutCopy (p : Nat) : (s.lutCopy p).Inv := by
  unfold State.lutCopy
  exact h.upNet ..

theorem State.Inv.netEnable (p : Nat) : (s.netEnable p).Inv := h.ite (((((h.set ..).put ..).netState ..).lutCopy ..).netStart ..)

theorem State.Inv.netDisable (p : Nat) : (s.netDisable p).Inv := (((h.clr ..).upNet ..).put ..).netState ..

theorem State.Inv.groupApply (g : Nat) : (s.groupApply g).Inv := by
  unfold State.groupApply
  split
  · exact h.set ..
  · extract_lets s₁ s₂
    have h₁ : s₁.Inv := h.foldl (fun _ _ h => ((((h.testStop ..).put ..).netState ..).netSetMode ..).upNet ..) _
    have h₂ : s₂.Inv := h₁.foldl (fun _ _ h => h.netSetMode ..) _
    exact h₂.foldl (fun _ _ h => (h.netStart ..).ite h) _

theorem State.Inv.autoneg (p : Nat) (fb : Option Nat) : (s.autoneg p fb).Inv := by
  unfold State.autoneg
  extract_lets s₁
  have h₁ : s₁.Inv := h.upNet ..
  split
  · exact h
  · split
    · exact h₁
    · split
      · exact (h₁.netSetMode ..).ite h₁
      · exact h₁

theorem State.Inv.trained (p polarity : Nat) (ffe : List (BitVec 24)) : (s.trained p polarity ffe).Inv :=
  h.ite ((h.upNet ..).foldl (fun _ _ h => (h.put ..).putAll ..) _)

theorem State.Inv.pcsLock (p laneMap : Nat) : (s.pcsLock p laneMap).Inv :=
  h.ite ((((h.foldl (fun _ _ h => (h.set ..).upLane ..) _).putAll ..).upNet ..).netState ..)

theorem State.Inv.attemptFail (p : Nat) : (s.attemptFail p).Inv := by
  unfold State.attemptFail
  extract_lets s₁
  have h₁ : s₁.Inv := (h.upNet ..).count ..
  exact h.ite ((h₁.ite ((h₁.count ..).netState ..)).ite (h₁.netStart ..))

theorem State.Inv.linkFail (p : Nat) : (s.linkFail p).Inv := (((((h.count ..).set ..).put ..).netState ..).netStart ..).ite h

theorem State.Inv.adapt (n : Nat) (delta : List Int) : (s.adapt n delta).Inv := (h.upLane ..).ite h

theorem State.Inv.stampOf (base : Int) (p sub : Nat) (d : Dir) : (s.stampOf base p sub d).2.Inv := by
  unfold State.stampOf
  dsimp only
  exact h.freeDiv ..

theorem State.Inv.stampPush (p : Nat) (d : Dir) (mtype seq : Nat) (t : Tai) : (s.stampPush p d mtype seq t).Inv := by
  unfold State.stampPush
  exact (h.count ..).ite ⟨h.mem, h.timeA, h.timeB⟩

theorem State.Inv.ptpStamp (p sub : Nat) (d : Dir) (mtype dn seq : Nat) : (s.ptpStamp p sub d mtype dn seq).Inv := by
  unfold State.ptpStamp
  split
  · exact h
  · split
    · dsimp only
      exact (h.stampOf ..).stampPush ..
    · exact h

theorem State.Inv.owdStamp (p sub : Nat) (d : Dir) (mid : Nat) : (s.owdStamp p sub d mid).Inv := by
  unfold State.owdStamp
  split
  · dsimp only
    exact (h.stampOf ..).stampPush ..
  · exact h

theorem State.Inv.fceCount (lane n disagree erased : Nat) : (s.fceCount lane n disagree erased).Inv :=
  h.ite ((((h.clr ..).count ..).count ..).count ..)

theorem State.Inv.netOffer (q : Nat) (o : Offer) : (s.netOffer q o).Inv := by
  unfold State.netOffer
  split
  · exact h
  · exact h.queueOffer ..

theorem State.Inv.sections (p q lane dataSize : Nat) (erased : List Nat) (base : Offer) (n0 n2 n3 k : Nat) (us : List USection) :
    (s.sections p q lane dataSize erased base n0 n2 n3 k us).Inv := by
  induction us generalizing s k with
  | nil => exact h
  | cons u us ih => exact .ite (ih (h.count ..) _) (.ite (ih (h.count ..) _) (ih (h.netOffer ..) _))

theorem State.Inv.fhItem (p lane : Nat) (w : List Nat) (x : Queue) (t : Timeline) (m : EcpriMsg) (slot : Int) (sym : Nat)
    (arr : Int) (erased : List Nat) (k : Nat) (seqErr : Bool) :
    (s.fhItem p lane w x t m slot sym arr erased k seqErr).Inv := by
  unfold State.fhItem
  extract_lets _ _ _ _ _ _ _ s₁ s₂
  have h₁ : s₁.Inv := (h.count ..).ite h
  have h₂ : s₂.Inv := (h₁.count ..).ite h₁
  split
  · exact h₂
  · dsimp only
    split
    · exact (h₂.freeDiv ..).sections ..
    · exact ((h₂.freeDiv ..).count ..).ite ((((h₂.freeDiv ..).freshNat).freshNat).netOffer ..)
    · exact h₂.freeDiv ..

theorem State.Inv.fhMessage (p lane sub : Nat) (f : EthFrame) (erased : List Nat) (k : Nat) (m : EcpriMsg) :
    (s.fhMessage p lane sub f erased k m).Inv := by
  unfold State.fhMessage
  extract_lets
  split
  · exact h.count ..
  · split
    · exact h.owdStamp ..
    · split
      · exact h.count ..
      · split
        · exact h.count ..
        · extract_lets _ s₁ s₂
          have h₁ : s₁.Inv := h.upNet ..
          have h₂ : s₂.Inv := (h₁.count ..).ite h₁
          split
          · exact h₂
          · split
            · exact h₂
            · split
              · exact h₂.count ..
              · exact h₂.fhItem ..

theorem State.Inv.fhMessages (p lane sub : Nat) (f : EthFrame) (erased : List Nat) (k : Nat) (ms : List EcpriMsg) :
    (s.fhMessages p lane sub f erased k ms).Inv := by
  induction ms generalizing s k with
  | nil => exact h
  | cons m ms ih => exact ih (h.fhMessage ..) _

theorem State.Inv.fronthaul (p sub : Nat) (f : EthFrame) (ms : List EcpriMsg) (disagree : Nat) (erased : List Nat) :
    (s.fronthaul p sub f ms disagree erased).Inv :=
  ((h.ite (h.upNet ..)).fceCount ..).fhMessages ..

theorem State.Inv.ctrlFrame (p sub : Nat) (f : EthFrame) : (s.ctrlFrame p sub f).Inv := by
  unfold State.ctrlFrame
  extract_lets
  split
  · exact h.count ..
  · split
    · exact h
    · split
      · exact h.count ..
      · dsimp only
        exact (((((((h.stampOf ..).freshNat).freshNat).freshNat).freshNat).freshNat).freshNat).netOffer ..

theorem State.Inv.pfcFrame (p enable : Nat) (times : List Nat) : (s.pfcFrame p enable times).Inv :=
  ((h.count ..).upNet ..).ite (h.count ..)

theorem State.Inv.classify (p sub : Nat) (f : EthFrame) (disagree : Nat) (erased : List Nat) :
    (s.classify p sub f disagree erased).Inv := by
  unfold State.classify
  split
  · exact h.fronthaul ..
  · exact h.ctrlFrame ..

theorem State.Inv.frameIn (p sub : Nat) (f : EthFrame) (disagree : Nat) (erased : List Nat) :
    (s.frameIn p sub f disagree erased).Inv := by
  unfold State.frameIn
  extract_lets
  split
  · exact ((h.classify ..).ite (h.count ..)).ite (h.ctrlFrame ..)
  · split
    · exact h.pfcFrame ..
    · exact h.count ..
    · exact (h.count ..).ite (h.classify ..)

theorem State.Inv.frame (p sub : Nat) (f : EthFrame) (fcsOk : Bool) (disagree : Nat) (erased : List Nat) :
    (s.frame p sub f fcsOk disagree erased).Inv := by
  unfold State.frame
  extract_lets s₁ s₂ _ s₃
  have h₁ : s₁.Inv := h.count ..
  have h₂ : s₂.Inv := by
    unfold s₂
    split
    · exact h₁.ite (h₁.ptpStamp ..)
    · exact h₁
  have h₃ : s₃.Inv := (h₂.upLane ..).ite h₂
  exact (h₂.count ..).ite ((h₂.count ..).ite ((h₂.count ..).ite (h₃.ite (h₃.frameIn ..))))

theorem State.Inv.txFree (h' : TxHead) : (s.txFree h').Inv := (h.queueHold ..).queueFree ..

theorem State.Inv.txPurge (p q n : Nat) : (s.txPurge p q n).Inv := by
  induction n generalizing s with
  | zero => exact h
  | succ n ih =>
    unfold State.txPurge
    extract_lets u
    have hu : u.Inv := h.gapSkip ..
    split
    · exact hu
    · exact .ite (ih ((hu.count ..).txFree ..)) (.ite (ih ((hu.count ..).txFree ..)) hu)

theorem State.Inv.macsecTx (p : Nat) (protect : Bool) : (s.macsecTx p protect).2.Inv := by
  fun_cases State.macsecTx s p protect with
  | case1 => exact h
  | case2 => exact h
  | case3 =>
    dsimp only
    exact h.upNet ..

theorem State.Inv.txSend (p sub : Nat) (x : TxHead) : (s.txSend p sub x).Inv := by
  fun_cases State.txSend s p sub x with
  | case1 bs ptp et protect sync origin u hu v pn w hw seq y hy =>
    have hu : u.Inv := by
      refine .of_snd hu ?_
      split
      · refine .ite_snd ?_ h
        split
        next ht => exact .of_snd ht (h.stampOf ..)
      · exact h
    have hv : v.Inv := by
      unfold v
      cases ptp with
      | none => exact hu
      | some a => exact hu.ptpStamp ..
    have hw : w.Inv := .of_snd hw (hv.macsecTx ..)
    have hy : y.Inv := by
      refine .of_snd hy ?_
      split
      · dsimp only
        exact hw.upNet ..
      · exact hw
    exact ((hy.send ..).count ..).txFree ..

theorem State.Inv.txDown (p : Nat) : (s.txDown p).Inv := by
  unfold State.txDown
  refine h.foldl (fun t a h => ?_) _
  extract_lets s₁
  have h₁ : s₁.Inv := h.gapSkip ..
  split
  · exact ((h₁.count ..).queueHold ..).queueFree ..
  · exact h₁

theorem State.Inv.txItem (p sub prbs disagree erased : Nat) : (s.txItem p sub prbs disagree erased).Inv := by
  unfold State.txItem
  extract_lets s₁
  have h₁ : s₁.Inv := h.foldl (fun _ _ h => h.txPurge ..) _
  split
  · exact h.txDown ..
  · split
    · exact h₁
    · exact (((h₁.upNet ..).fceCount ..).ite h₁).txSend ..

theorem State.Inv.txLate (p q sub : Nat) : (s.txLate p q sub).Inv := by
  unfold State.txLate
  extract_lets s₁
  have h₁ : s₁.Inv := (h.txPurge ..).ite h
  split
  · exact h₁
  · split
    · exact ((h₁.count ..).txFree ..).ite h₁
    · exact h₁

theorem State.Inv.prbsCtrl (n : Nat) (v : Word) : (s.prbsCtrl n v).Inv := by
  unfold State.prbsCtrl
  extract_lets _ _ _ _ _ _ _ _ s₁ s₂ s₃ s₄ s₅
  have h₁ : s₁.Inv := h.putAll ..
  have h₂ : s₂.Inv := h₁.ite (h₁.put ..)
  have h₃ : s₃.Inv := h₂.ite (h₂.put ..)
  have h₄ : s₄.Inv := h₃.ite (h₃.put ..)
  have h₅ : s₅.Inv := (h₄.set ..).ite h₄
  exact (h.set ..).ite ((h.set ..).ite ((h₅.clr ..).ite h₅))

theorem State.Inv.prbsInject (n : Nat) : (s.prbsInject n).Inv := ((h.clr ..).send ..).ite h

theorem State.Inv.prbsBits (n k : Nat) : (s.prbsBits n k).Inv := (h.put ..).put ..

theorem State.Inv.prbsLock (n : Nat) (lock : Bool) (bits errors : Nat) : (s.prbsLock n lock bits errors).Inv :=
  h.ite ((((((h.prbsBits ..).count ..).ite h).set ..).ite (((h.prbsBits ..).count ..).ite h)).setTo ..)

end

end Sys2Proof.Machine
end

