-- ==== Sys2Proof/Proofs/InvariantDevice.lean ====
section
/-!
SUPPORT. Sys2Proof/Proofs/InvariantDevice.lean: power, whistles, the time base, carriers, heat, boot, pins and faults keep the invariant.
-/
namespace Sys2Proof.Machine

section
variable {s : State} (h : s.Inv)
include h

/-! ### Machine/Power -/

theorem State.Inv.zeroRange (a n : Nat) : (s.zeroRange a n).Inv := ⟨Memory.wf_filter _ h.mem, h.timeA, h.timeB⟩

theorem State.Inv.copyRange (src dst n : Nat) : (s.copyRange src dst n).Inv := by
  unfold State.copyRange
  refine State.Inv.foldl (h.zeroRange dst n) (fun t c ht => ?_) _
  exact ⟨Memory.wf_write _ _ ht.mem, ht.timeA, ht.timeB⟩

theorem State.Inv.domReset (d : Nat) : (s.domReset d).Inv := by
  unfold State.domReset
  extract_lets _ s₁
  have h₁ : s₁.Inv := h.of_eq rfl rfl
  exact (h₁.setExu ..).ite (h₁.setExu ..)

theorem State.Inv.sigDrop (c : Nat) : (s.sigDrop c).Inv := h.setPwr ..

theorem State.Inv.sigTake (c : Nat) : (s.sigTake c).Inv := by
  unfold State.sigTake
  extract_lets
  refine h.foldl (fun t a h => ?_) _
  dsimp only
  exact (h.load ..).setPwr ..

theorem State.Inv.stackOff (st : Nat) : (s.stackOff st).Inv := ((h.zeroRange ..).putAll ..).setMemx ..

theorem State.Inv.pwrEntered (d t : Nat) : (s.pwrEntered d t).Inv := by
  unfold State.pwrEntered
  extract_lets s₁ s₂ s₃ s₄ s₅ s₆
  have h₁ : s₁.Inv := (h.pwrSettle ..).count ..
  have h₂ : s₂.Inv := (h₁.domReset ..).ite h₁
  have h₃ : s₃.Inv := (h₂.sigDrop ..).ite h₂
  have h₄ : s₄.Inv := (h₃.set ..).ite h₃
  have h₅ : s₅.Inv := (h₄.cplSend ..).ite h₄
  have h₆ : s₆.Inv := (h₅.stackOff ..).ite h₅
  exact h₆.pwrResume ..

theorem State.Inv.pwrAbandon (d : Nat) : (s.pwrAbandon d).Inv := by
  unfold State.pwrAbandon
  extract_lets s₁ s₂ _ s₃
  have h₁ : s₁.Inv := (h.putAll ..).count ..
  have h₂ : s₂.Inv := (h₁.sigDrop ..).ite h₁
  have h₃ : s₃.Inv := h₂.setPwr ..
  exact (h₃.putAll ..).ite (h₃.pwrResume ..)

theorem State.Inv.pwrStepEnd (d : Nat) : (s.pwrStepEnd d).Inv := by
  unfold State.pwrStepEnd
  extract_lets _ _ s₁
  have h₁ : s₁.Inv := (h.sigTake ..).ite h
  split
  · exact h₁.pwrAbandon ..
  · split
    · exact h₁.put ..
    · exact h₁.pwrEntered ..

theorem State.Inv.bankLoad (c b : Nat) : (s.bankLoad c b).Inv := by
  unfold State.bankLoad
  split
  · exact h.copyRange ..
  · exact h

theorem State.Inv.bankLost (c b : Nat) : (s.bankLost c b).Inv := by
  unfold State.bankLost
  extract_lets s₁ s₂ _ _ s₃ _ s₄ s₅ s₆
  have h₁ : s₁.Inv := h.zeroRange ..
  have h₂ : s₂.Inv := h₁.put ..
  have h₃ : s₃.Inv := h₂.foldl (fun _ _ h => h.tplBlock ..) _
  have h₄ : s₄.Inv := h₃.ite ((h₃.gdxCycle.foldl (fun _ _ h => h.cancel ..) _).gdxSettle)
  have h₅ : s₅.Inv := h₄.bankLoad ..
  have h₆ : s₆.Inv := h₅.foldl (fun _ _ h => h.tplBlock ..) _
  exact h₆.report ..

theorem State.Inv.banksWake (c origin : Nat) (bad : List Nat) : (s.banksWake c origin bad).Inv := by
  unfold State.banksWake
  extract_lets _ s₁ s₂ s₃
  have h₁ : s₁.Inv := h.foldl (fun _ _ h => h.zeroRange ..) _
  have h₂ : s₂.Inv := h₁.foldl (fun _ _ h => h.ite (h.bankLost ..)) _
  have h₃ : s₃.Inv := h₂.ite ((h₂.applyRepairs ..).foldl (fun _ _ h => h.bankLoad ..) _)
  exact h₃.sigDrop ..

theorem State.Inv.rstDone (d : Nat) : (s.rstDone d).Inv := ((h.setPwr ..).clr ..).ite h

theorem State.Inv.pwrWoken (d : Nat) (bad : List Nat) : (s.pwrWoken d bad).Inv := by
  unfold State.pwrWoken
  extract_lets _ s₁ s₂ _ s₃ s₄ _ s₅ s₆
  have h₁ : s₁.Inv := (h.pwrSettle ..).count ..
  have h₂ : s₂.Inv := (h₁.banksWake ..).ite h₁
  have h₃ : s₃.Inv := (h₂.setPwr ..).ite h₂
  have h₄ : s₄.Inv := (h₃.clr ..).ite h₃
  have h₅ : s₅.Inv := ((((h₄.cplState ..).cplStop ..).cplTrain ..).ite (h₄.cplDelay ..)).ite h₄
  have h₆ : s₆.Inv := h₅.memResume.ite h₅
  exact (h₆.rstDone ..).pwrResume ..

theorem State.Inv.alertShow : s.alertShow.Inv := h.setTo ..

theorem State.Inv.hibStart (mbx seq mask : Nat) : (s.hibStart mbx seq mask).Inv :=
  (((h.foldl (fun _ _ h => h.set ..) _).setPwr ..).clr ..).putAll ..

theorem State.Inv.hibOff (h' : Hib) : (s.hibOff h').Inv := by
  unfold State.hibOff
  extract_lets _ _ _ _ s₁ s₂ s₃ s₄
  have h₁ : s₁.Inv := h.setPwr ..
  have h₂ : s₂.Inv := h₁.foldl (fun _ _ h => ((h.pwrSettle ..).domReset ..).sigDrop ..) _
  have h₃ : s₃.Inv := h₂.foldl (fun _ _ h => ((((h.cplState ..).cplStop ..).ite h).pwrSettle ..).pwrSettle ..) _
  have h₄ : s₄.Inv := h₃.foldl (fun _ _ h => h.netDisable ..) _
  exact h₄.foldl (fun _ _ h => ((h.pwrSettle ..).set ..).ite ((h.pwrSettle ..).pwrSettle ..)) _

theorem State.Inv.hibWake (h' : Hib) (doms : List (Nat × Nat)) : (s.hibWake h' doms).Inv := by
  unfold State.hibWake
  extract_lets s₁ s₂ s₃
  have h₁ : s₁.Inv := h.foldl (fun _ _ h => h.ite ((((h.pwrSettle ..).count ..).banksWake ..).ite ((h.pwrSettle ..).count ..))) _
  have h₂ : s₂.Inv := h₁.foldl (fun _ _ h => (h.clr ..).ite h) _
  have h₃ : s₃.Inv := h₂.foldl (fun _ _ h => (h.cplTrain ..).ite h) _
  exact h₃.foldl (fun _ _ h => h.netEnable ..) _

theorem State.Inv.stacksWake : s.stacksWake.Inv := (h.foldl (fun _ _ h => (h.pwrSettle ..).ite h) _).memResume

theorem State.Inv.hibAbandon : s.hibAbandon.Inv := by
  unfold State.hibAbandon
  split
  · exact h
  · exact ((((((h.putAll ..).count ..).stacksWake).ite ((((h.putAll ..).count ..).stacksWake).hibWake ..)).setPwr ..).set ..).event ..

theorem State.Inv.hibStepEnd : s.hibStepEnd.Inv := by
  unfold State.hibStepEnd
  split
  · exact h
  · extract_lets _ s₁
    have h₁ : s₁.Inv := (h.hibOff ..).ite ((h.foldl (fun _ _ h => (h.pwrSettle ..).ite h) _).ite h)
    exact h₁.hibAbandon.ite ((h₁.put ..).ite (((h₁.pwrSettle ..).count ..).pwrResume ..))

theorem State.Inv.chipWake (rule : Nat) : (s.chipWake rule).Inv := ((((h.setPwr ..).putAll ..).putAll ..).alertShow).ite h

theorem State.Inv.heldSend : s.heldSend.Inv := (h.setPwr ..).foldl (fun _ _ h => h.send ..) _

theorem State.Inv.chipWoken : s.chipWoken.Inv :=
  (((((((((h.pwrSettle ..).count ..).stacksWake).hibWake ..).setPwr ..).set ..).heldSend).event ..).alertShow).pwrResume ..

theorem State.Inv.chipWakeFail : s.chipWakeFail.Inv := (((((h.set ..).setPwr ..).putAll ..).ite ((h.set ..).setPwr ..)).alertShow).ite h

theorem State.Inv.autoDoze (d : Nat) : (s.autoDoze d).Inv := ((h.setPwr ..).pwrEnter ..).ite h

/-! ### Machine/Whs -/

theorem State.Inv.setWhs (ch : Nat) (x : WhsCh) : (s.setWhs ch x).Inv := (h.setAft ..).setWord ..

theorem State.Inv.whsLate (ch : Nat) : (s.whsLate ch).Inv := h.setWord ..

theorem State.Inv.whsMissed (ch n : Nat) : (s.whsMissed ch n).Inv := h.ite (h.setWord ..)

theorem State.Inv.cancelMissed (x : WhsCh) (t : Timeline) (c : Int) : (s.cancelMissed x t c).Inv := by
  unfold State.cancelMissed
  split
  · split
    · exact h.upInst ..
    · exact h
  · exact h

theorem State.Inv.whsJudge (ch : Nat) : (s.whsJudge ch).Inv := by
  unfold State.whsJudge
  split
  · exact h
  · split
    · exact h
    · exact h.ite (((((h.setWhs ..).whsLate ..).ite (h.setWhs ..)).foldl (fun _ _ h => h.cancelMissed ..) _).whsMissed ..)

theorem State.Inv.armRefuse (cause : Nat) : (s.armRefuse cause).Inv := h.putAll ..

theorem State.Inv.whsDisarm (ch : Nat) : (s.whsDisarm ch).Inv := by
  unfold State.whsDisarm
  split
  · exact h.setWhs ..
  · exact h

theorem State.Inv.whsArm (ch : Nat) : (s.whsArm ch).Inv := by
  unfold State.whsArm
  extract_lets _ _ _ _ _ _ _ _ _ _ _ _ s₁
  have h₁ : s₁.Inv := (h.setWord ..).setWord ..
  split
  · exact (h.armRefuse ..).whsDisarm ..
  · exact ((h.armRefuse ..).whsDisarm ..).ite (((h.armRefuse ..).whsDisarm ..).ite (((h₁.setWhs ..).whsJudge ..).ite (h₁.setWhs ..)))

theorem State.Inv.whsFired (ch : Nat) (x : WhsCh) (t : Timeline) (c : Int) : (s.whsFired ch x t c).Inv :=
  ((h.setWhs ..).setWord ..).setAft ..

theorem State.Inv.whsFire (ch action : Nat) {act : State → WhsCh → Timeline → Int → State}
    (ha : ∀ t x l c, t.Inv → (act t x l c).Inv) : (s.whsFire ch action act).Inv := by
  unfold State.whsFire
  split
  · exact h
  · exact ha _ _ _ _ (h.whsFired ..)

theorem State.Inv.whsCycle : s.whsCycle.Inv := h.ite (h.gdxCycle.setGdx ..)

theorem State.Inv.whsSpill (ch : Nat) : (s.whsSpill ch).Inv := by
  unfold State.whsSpill
  split
  · exact h
  · split
    · exact h.ite ((h.setWhs ..).count ..)
    · exact h

theorem State.Inv.setPin (n : Nat) (x : WhsPinSt) : (s.setPin n x).Inv := h.setAft ..

theorem State.Inv.pinDrive (n : Nat) (x : WhsPinSt) (d : PinDrive) : (s.pinDrive n x d).Inv := (h.setPin ..).send ..

theorem State.Inv.pinBit (f : Fld) (n : Nat) : (s.pinBit f n).Inv := h.put ..

theorem State.Inv.pinMissed (n k : Nat) : (s.pinMissed n k).Inv := h.ite ((h.pinBit ..).count ..)

theorem State.Inv.pinJudge (n : Nat) : (s.pinJudge n).Inv := by
  unfold State.pinJudge
  split
  · exact h
  · split
    · exact h
    · extract_lets _ _ s₁ s₂
      have h₁ : s₁.Inv := h.setPin ..
      have h₂ : s₂.Inv := (h₁.pinBit ..).ite h₁
      exact h.ite (((h₂.clr ..).ite h₂).pinMissed ..)

theorem State.Inv.pinArm (n : Nat) : (s.pinArm n).Inv := by
  unfold State.pinArm
  extract_lets
  split
  · exact (h.armRefuse ..).clr ..
  · extract_lets _ s₁
    have h₁ : s₁.Inv := (h.set ..).pinDrive ..
    exact ((h.armRefuse ..).clr ..).ite (((h.armRefuse ..).clr ..).ite ((h₁.pinJudge ..).ite h₁))

theorem State.Inv.pinDisarm (n : Nat) : (s.pinDisarm n).Inv := by
  unfold State.pinDisarm
  extract_lets s₁
  have h₁ : s₁.Inv := h.clr ..
  split
  · exact (h₁.setPin ..).ite (h₁.pinDrive ..)
  · exact h₁

theorem State.Inv.pinFire (n : Nat) : (s.pinFire n).Inv := by
  unfold State.pinFire
  split
  · exact h
  · split
    · exact h
    · split
      · exact h.pinDrive ..
      · split
        · exact h
        · split
          · exact h
          · exact h.pinDrive ..

theorem State.Inv.pinEnd (n : Nat) : (s.pinEnd n).Inv := by
  unfold State.pinEnd
  split
  · exact h
  · exact h.ite (((h.clr ..).pinDrive ..).ite (h.pinDrive ..))

theorem State.Inv.whsJudgeAll : s.whsJudgeAll.Inv := (h.foldl (fun _ _ h => h.whsJudge ..) _).foldl (fun _ _ h => h.pinJudge ..) _

theorem State.Inv.whsPass : s.whsPass.Inv := h.ite (h.setAft ..)

theorem State.Inv.whsEnable (on : Bool) : (s.whsEnable on).Inv := ((h.setTo ..).whsJudgeAll).ite (h.setTo ..)

theorem State.Inv.tlDisable (t : Nat) : (s.tlDisable t).Inv := by
  unfold State.tlDisable
  extract_lets s₁ s₂ _ s₃ _ s₄
  have h₁ : s₁.Inv := h.foldl (fun _ _ h => h.whsDisarm ..) _
  have h₂ : s₂.Inv := h₁.foldl (fun _ _ h => h.pinDisarm ..) _
  have h₃ : s₃.Inv := (h₂.setAft ..).tlEnShow ..
  have h₄ : s₄.Inv := h₃.setGdx ..
  exact (h.tlRefuse ..).ite h₄.tddShow

theorem State.Inv.whsCal (ch : Nat) (rx : Bool) : (s.whsCal ch rx).Inv := by
  unfold State.whsCal
  split
  · exact h
  · exact ((h.setWhs ..).count ..).ite ((h.whsFired ..).send ..)

/-! ### Machine/Tbu -/

theorem State.Inv.incWrite (d : Dom) (v : Nat) : (s.incWrite d v).Inv := by
  have hu := h.put F.TBU_D_INC_NS_INC_NS v 0 (domIdx d)
  exact hu.setDom d (hu.dom d)

theorem State.Inv.incCommit (d : Dom) : (s.incCommit d).Inv := by
  fun_cases State.incCommit s d with
  | case1 => exact h
  | case2 => exact h.setDom d (h.dom d)
  | case3 =>
    refine State.Inv.set ?_ ..
    exact h.setDom d (h.dom d)

theorem State.Inv.stepGo (d : Dom) (isSet : Bool) : (s.stepGo d isSet).Inv := by
  have hu := h.put F.TBU_D_STEP_CTRL_MODE (if isSet then 1 else 0) 0 (domIdx d)
  fun_cases State.stepGo s d isSet with
  | case1 => exact hu.set ..
  | case2 =>
    refine State.Inv.set ?_ ..
    exact hu.setDom d (hu.dom d)

theorem State.Inv.stepTaken (d : Dom) : (s.stepTaken d).Inv := by
  refine State.Inv.clr ?_ ..
  exact h.setDom d (h.dom d)

theorem State.Inv.stepApply (d : Dom) : (s.stepApply d).Inv := by
  have hu := h.stepTaken d
  fun_cases State.stepApply s d with
  | case1 => exact (hu.set ..).event ..
  | case2 x a _ _ _ u =>
    refine State.Inv.whsJudgeAll ?_
    exact hu.setDom d (Tai.add_wf _ a)
  | case3 x a => exact hu.setDom d (Tai.add_wf _ a)
  | case4 => exact h

theorem State.Inv.setApply (d : Dom) : (s.setApply d).Inv := by
  have hu := h.stepTaken d
  fun_cases State.setApply s d with
  | case1 => exact hu.set ..
  | case2 x a => 
    refine State.Inv.set ?_ ..
    exact hu.setDom d (Tai.ofUnits_wf a)
  | case3 => exact h

theorem State.Inv.domTick (d : Dom) : (s.domTick d).Inv := by
  unfold State.domTick
  extract_lets _ u x
  have hu : u.Inv := .ite ((h.stepApply d).setApply d) (h.setDom d (h.dom d))
  have hx : x.ok := hu.dom d
  clear_value u x
  exact hu.setDom d (TbuDom.ok_counted hx _)

theorem State.Inv.slewShow : s.slewShow.Inv := (h.setTo ..).put ..

theorem State.Inv.switchGo (target : Dom) (force : Bool) (refTl : Nat) : (s.switchGo target force refTl).Inv := by
  unfold State.switchGo
  extract_lets u
  have hu : u.Inv := h.putAll ..
  clear_value u
  refine .ite (hu.set ..) (.ite hu (State.Inv.set ?_ ..))
  exact hu.setTbu hu.timeA hu.timeB

theorem State.Inv.switchPoint : s.switchPoint.Inv := by
  fun_cases State.switchPoint s with
  | case1 => exact h
  | case2 =>
    refine State.Inv.event (State.Inv.set (State.Inv.clr ?_ ..) ..) ..
    exact h.setTbu h.timeA h.timeB
  | case3 r _ resid beyond u _ v =>
    have hu : u.Inv := by
      refine State.Inv.clr ?_ ..
      exact h.setTbu h.timeA h.timeB
    have hv : v.Inv := by
      refine State.Inv.put ?_ ..
      exact hu.setTbu hu.timeA hu.timeB
    clear_value v
    exact ((hv.set ..).ite hv).slewShow

theorem State.Inv.slew : s.slew.Inv := by
  unfold State.slew
  extract_lets
  split
  · exact h
  · refine State.Inv.slewShow ?_
    exact h.setTbu h.timeA h.timeB

theorem State.Inv.putTai (t : Tai) (hi lo ns frac : Fld) (j : Nat) : (s.putTai t hi lo ns frac j).Inv := h.putAll ..

theorem State.Inv.snapTake : s.snapTake.Inv := by
  unfold State.snapTake
  extract_lets u v w
  have hw : w.Inv := ((h.putTai ..).putTai ..).putTai ..
  clear_value w
  exact hw.setTbu hw.timeA hw.timeB

theorem State.Inv.loadTick (a b : Int) : (s.loadTick a b).Inv :=
  (h.setGdx ..).ite (((h.setGdx ..).foldl (fun _ _ h => (h.put ..).ite h) _).setGdx ..)

theorem State.Inv.tick : s.tick.Inv := by
  unfold State.tick
  extract_lets _ _ s₁ _ s₂ s₃ s₄ s₅ s₆
  have h₁ : s₁.Inv := ((h.incCommit ..).incCommit ..).setAft ..
  have h₂ : s₂.Inv := h₁.setTbu h₁.timeA h₁.timeB
  have h₃ : s₃.Inv := (h₂.domTick ..).domTick ..
  have h₄ : s₄.Inv := by
    unfold s₄
    split
    · exact h₃.switchPoint.ite h₃
    · exact h₃
  have h₅ : s₅.Inv := h₄.slew.whsPass
  have h₆ : s₆.Inv := h₅.snapTake.ite h₅
  exact h₆.loadTick ..

theorem State.Inv.ppsStamp (i sub : Nat) : (s.ppsStamp i sub).Inv := ((h.set ..).ite h).putAll ..

/-! ### Machine/Carriers -/

theorem State.Inv.setCar (c : Carriers) : (s.setCar c).Inv := h.of_eq rfl rfl

theorem State.Inv.streamValid (k : Nat) (v : Bool) : (s.streamValid k v).Inv := h.setWord ..

theorem State.Inv.upCar (h' : Nat) (f : Carrier → Carrier) : (s.upCar h' f).Inv := by
  unfold State.upCar
  split
  · exact h.setCar ..
  · exact h

theorem State.Inv.whsWriteArm (ch : Nat) (ws : List Nat) : (s.whsWriteArm ch ws).Inv := (h.setWords ..).whsArm ..

theorem State.Inv.carStart (h' : Nat) : (s.carStart h').Inv := by
  unfold State.carStart
  split
  · exact h
  · extract_lets s₁ s₂ s₃
    have h₁ : s₁.Inv := h.foldl (fun _ _ h => h.ite (h.queueEnable ..)) _
    have h₂ : s₂.Inv := h₁.foldl (fun _ _ h => h.streamValid ..) _
    have h₃ : s₃.Inv := (h₂.foldl (fun _ _ h => h.whsWriteArm ..) _).ite h₂
    exact h₃.upCar ..

theorem State.Inv.disarmOf (tls : List Nat) : (s.disarmOf tls).Inv := h.foldl (fun _ _ h => h.whsDisarm ..) _

theorem State.Inv.cancelOf (tls : List Nat) : (s.cancelOf tls).Inv := (h.foldl (fun _ _ h => h.gdxCycle.cancel ..) _).gdxSettle

theorem State.Inv.carStop (h' : Nat) (why : Option ShedCause) : (s.carStop h' why).Inv := by
  unfold State.carStop
  split
  · exact h
  · exact ((h.disarmOf ..).cancelOf ..).upCar ..

theorem State.Inv.setMismatch (tag : Nat) (on : Bool) : (s.setMismatch tag on).Inv := h.ite ((h.setGdx ..).event ..)

theorem State.Inv.carRemove (h' : Nat) : (s.carRemove h').Inv := by
  unfold State.carRemove
  split
  · exact h
  · extract_lets s₁ s₂ s₃ s₄ _ s₅
    have h₁ : s₁.Inv := (h.disarmOf ..).foldl (fun _ _ h => (h.tlDisable ..).ite h) _
    have h₂ : s₂.Inv := h₁.cancelOf ..
    have h₃ : s₃.Inv := h₂.foldl (fun _ _ h => (h.queueDisable ..).ite h) _
    have h₄ : s₄.Inv := h₃.foldl (fun _ _ h => h.streamValid ..) _
    have h₅ : s₅.Inv := h₄.setCar ..
    exact h₅.setMismatch ..

theorem State.Inv.newHandle : s.newHandle.2.Inv := h.of_eq rfl rfl

theorem State.Inv.carTimelines (d : CarrierDesc) : StateInv (s.carTimelines d) := by
  unfold State.carTimelines
  extract_lets u
  have hu : StateInv (.inr u : Nat ⊕ State) := h.setWords ..
  refine List.foldlRecOn _ _ hu fun r hr t _ => ?_
  split
  · trivial
  next v =>
    have hv : v.Inv := hr
    dsimp only
    split
    · trivial
    · exact (hv.setWords ..).tlEnable ..

theorem State.Inv.carAdd (f i : Nat) (d : CarrierDesc) : AnswersInv (s.carAdd f i d) := by
  fun_cases State.carAdd s f i d with
  | case1 => exact .inl _
  | case2 => exact .inl _
  | case3 => exact .inl _
  | case4 => exact .inl _
  | case5 => exact .inl _
  | case6 _ _ _ n u hn v c hc w hw =>
    have hu : u.Inv := .of_snd hn h.newHandle
    have hv : v.Inv := hu.setCar ..
    have ht := hv.carTimelines d
    rw [hw] at ht
    exact State.Inv.setMismatch (s := w) ht ..

theorem State.Inv.configure (f : Nat) (remove : List Nat) (add : List CarrierDesc) : AnswersInv (s.configure f remove add) := by
  unfold State.configure
  split
  · trivial
  · have hr : AnswersInv (.inr ([], remove.foldl State.carRemove s) : Refuse ⊕ (List Nat × State)) :=
      h.foldl (fun _ _ h => h.carRemove ..) _
    refine List.foldlRecOn _ _ hr fun r hr d _ => ?_
    split
    · trivial
    next u =>
      have hu : u.Inv := hr
      have ht := hu.carAdd f d.2 d.1
      split
      · trivial
      next he =>
        rw [he] at ht
        exact ht

theorem State.Inv.startCar (f n : Nat) (locked delay : Bool) : StateInv (s.startCar f n locked delay) := by
  unfold State.startCar
  split
  · trivial
  · exact .ite trivial (.ite trivial (.ite trivial (h.carStart ..)))

theorem State.Inv.stopCar (f n : Nat) : StateInv (s.stopCar f n) := by
  unfold State.stopCar
  split
  · trivial
  · exact .ite trivial (.ite trivial (h.carStop ..))

theorem State.Inv.shedCar (h' : Nat) (why : ShedCause) : (s.shedCar h' why).Inv := by
  unfold State.shedCar
  split
  · exact (h.carStop ..).eventTo ..
  · exact h

theorem State.Inv.shedUntil (ok : State → Bool) (why : ShedCause) (n : Nat) : (State.shedUntil ok why n s).Inv := by
  induction n generalizing s with
  | zero => exact h
  | succ n ih =>
    unfold State.shedUntil
    refine h.ite ?_
    split
    · exact ih (h.shedCar ..)
    · exact h

theorem State.Inv.shedPass (why : ShedCause) : (s.shedPass why).Inv := h.shedUntil ..

theorem State.Inv.restoreCar (h' : Nat) : (s.restoreCar h').Inv := by
  unfold State.restoreCar
  split
  · split
    · exact (h.carStart ..).eventTo ..
    · exact h
  · exact h

theorem State.Inv.restoreOne : s.restoreOne.Inv := by
  unfold State.restoreOne
  split
  · exact h.restoreCar ..
  · exact h

/-! ### Machine/Thermal -/

theorem State.Inv.setThm (t : Thm) : (s.setThm t).Inv := h.of_eq rfl rfl

theorem State.Inv.tempOf (k n : Nat) : (s.tempOf k n).2.Inv := by
  unfold State.tempOf
  extract_lets
  split
  · exact h.of_eq rfl rfl
  · dsimp only
    exact State.Inv.ite_snd (h.freeDiv ..) (h.freeDiv ..)

theorem State.Inv.warnSet (k : Nat) (t : Int) : (s.warnSet k t).Inv := (((h.set ..).set ..).setThm ..).ite h

theorem State.Inv.throttleSet : s.throttleSet.Inv := (((h.set ..).set ..).setThm ..).ite h

theorem State.Inv.limitsClear : s.limitsClear.Inv := (((h.clr ..).ite h).clr ..).ite ((h.clr ..).ite h)

theorem State.Inv.limitsJudge (k : Nat) : (s.limitsJudge k).Inv := (((h.warnSet ..).ite h).throttleSet).ite ((h.warnSet ..).ite h)

theorem State.Inv.limitWrite (v : Nat) : (s.limitWrite v).Inv := by
  unfold State.limitWrite
  extract_lets _ _ _ s₁ s₂ s₃
  have h₁ : s₁.Inv := (h.put ..).ite h
  have h₂ : s₂.Inv := (h₁.put ..).ite h₁
  have h₃ : s₃.Inv := h₂.put ..
  exact (h.set ..).ite ((h₃.foldl (fun _ _ h => h.limitsJudge ..) _).limitsClear)

theorem State.Inv.trip (k : Nat) : (s.trip k).Inv := by
  unfold State.trip
  extract_lets _ u _ v _ w y
  have hw : w.Inv := ⟨h.mem, h.timeA, h.timeB⟩
  clear_value w
  exact (((hw.set ..).put ..).set ..).send ..

theorem State.Inv.failSensor (k : Nat) : (s.failSensor k).Inv := (h.put ..).report ..

theorem State.Inv.thmShow (k : Nat) (t : Int) : (s.thmShow k t).Inv := by
  unfold State.thmShow
  extract_lets s₁
  have h₁ : s₁.Inv := by
    unfold s₁
    split
    · exact h.putAll ..
    · exact h
  exact (h₁.putAll ..).ite h₁

theorem State.Inv.sample (k n : Nat) : (s.sample k n).Inv := by
  unfold State.sample
  extract_lets
  split
  · exact h
  · dsimp only
    split
    · exact (h.tempOf ..).setThm ..
    · split
      · exact (((h.tempOf ..).setThm ..).failSensor ..).limitsClear
      · split
        · exact (((((h.tempOf ..).setThm ..).thmShow ..).limitsJudge ..).limitsClear).trip ..
        · exact ((((h.tempOf ..).setThm ..).thmShow ..).limitsJudge ..).limitsClear

theorem State.Inv.warnResponse : s.warnResponse.Inv := by
  unfold State.warnResponse
  split
  · exact h
  · exact (((h.setThm ..).event ..).set ..).report ..

theorem State.Inv.throttleResponse : s.throttleResponse.Inv := by
  unfold State.throttleResponse
  extract_lets _ u v ds _ w
  have hw : w.Inv := ((h.setThm ..).shedUntil ..).setThm ..
  clear_value w
  exact h.ite (hw.foldl (fun _ _ h => h.pwrRequest ..) _)

theorem State.Inv.throttleShed : s.throttleShed.Inv := by
  unfold State.throttleShed
  split
  · split
    · exact h.shedCar ..
    · exact h
  · exact h

theorem State.Inv.throttleRestore : s.throttleRestore.Inv := by
  unfold State.throttleRestore
  extract_lets _ _ s₁ s₂
  have h₁ : s₁.Inv := h.setThm ..
  have h₂ : s₂.Inv := h₁.foldl (fun _ _ h => h.pwrRequest ..) _
  split
  · exact h
  · split
    · exact h₂.restoreCar ..
    · exact h₂

theorem State.Inv.setRule (i : Nat) (x : TndRule) : (s.setRule i x).Inv := h.setPwr ..

theorem State.Inv.filterStep (i : Nat) (x : Int) : (s.filterStep i x).2.Inv := by
  unfold State.filterStep
  extract_lets _ _ _ s₁
  have h₁ : s₁.Inv := h.setRule ..
  split
  · exact State.Inv.ite_snd (h₁.of_eq rfl rfl) h₁
  · split
    · exact h.setRule ..
    · dsimp only
      refine State.Inv.setRule ?_ ..
      split
      · exact h
      · exact h.freshNat

theorem State.Inv.ruleEvent (i : Nat) : (s.ruleEvent i).Inv := (h.send ..).ite (h.setPwr ..)

theorem State.Inv.ruleWake (i : Nat) : (s.ruleWake i).Inv := (h.chipWake ..).ite (h.ite (h.pwrRequest ..))

theorem State.Inv.ruleAct (i : Nat) : (s.ruleAct i).Inv :=
  (h.ruleEvent ..).ite ((h.ruleWake ..).ite (((h.warnSet ..).ite h.throttleSet).ite h))

theorem State.Inv.ruleSample (i : Nat) (measured : Int) : (s.ruleSample i measured).Inv := by
  unfold State.ruleSample
  extract_lets
  split
  · exact h
  · split
    · exact h
    · extract_lets s₁ _ s₂
      have h₁ : s₁.Inv := h.setPwr ..
      have h₂ : s₂.Inv := by
        unfold s₂
        split
        · exact h₁.setRule ..
        · exact h₁
      dsimp only
      split
      · exact h₂.filterStep ..
      · split
        · exact (h₂.filterStep ..).ite (((((h₂.filterStep ..).set ..).set ..).ruleAct ..).alertShow)
        · exact ((h₂.filterStep ..).clr ..).alertShow
        · exact h₂.filterStep ..

/-! ### Machine/Boot -/

theorem State.Inv.setBoot (b : Boot) : (s.setBoot b).Inv := h.of_eq rfl rfl

theorem State.Inv.bootState (n : Nat) : (s.bootState n).Inv := (h.put ..).put ..

theorem State.Inv.coldMem : s.coldMem.Inv := ⟨Memory.wf_filter _ h.mem, h.timeA, h.timeB⟩

theorem State.Inv.bare : s.bare.Inv := ⟨h.coldMem.mem, State.reset_inv.timeA, State.reset_inv.timeB⟩

theorem State.Inv.coldReset : s.coldReset.Inv := by
  unfold State.coldReset
  extract_lets s₁ _ _ _ s₂
  have h₁ : s₁.Inv := h.bare
  have h₂ : s₂.Inv := h₁.of_eq rfl rfl
  exact (h₂.put ..).wr ..

theorem State.Inv.warmReset (c : WarmCause) : (s.warmReset c).Inv := by
  unfold State.warmReset
  extract_lets _ _ _ _ _ _ _ u v
  have hu : u.Inv := ⟨h.bare.mem, h.timeA, h.timeB⟩
  have hv : v.Inv := hu.foldl (fun _ _ h => h.put ..) _
  clear_value v
  exact (hv.clr ..).set ..

theorem State.Inv.rom (pair0 : Bool) : (s.rom pair0).Inv := ((h.setBoot ..).putAll ..).bootState ..

theorem State.Inv.coldBoot (car keep : Nat) (pair0 : Bool) (board : BoardDesc) (search : Option (Fin 3)) :
    (s.coldBoot car keep pair0 board search).Inv := by
  unfold State.coldBoot
  extract_lets _ s₁ s₂ _ s₃ s₄ s₅ s₆
  have h₁ : s₁.Inv := h.put ..
  have h₂ : s₂.Inv := h₁.setTo ..
  have h₃ : s₃.Inv := h₂.setBoot ..
  have h₄ : s₄.Inv := h₃.setTo ..
  have h₅ : s₅.Inv := by
    unfold s₅
    split
    · exact (h₄.put ..).set ..
    · split
      · exact (h₄.put ..).set ..
      · exact h₄
  have h₆ : s₆.Inv := by
    unfold s₆
    split
    · exact h₅.set ..
    · exact (h₅.set ..).set ..
    · exact h₅.set ..
    · exact h₅
  exact h.ite (h₆.rom ..)

theorem State.Inv.burnTo (n : Nat) : (s.burnTo n).Inv := h.ite ((h.setMemx ..).put ..)

theorem State.Inv.slotFail (slot cause : Nat) : (s.slotFail slot cause).Inv := h.put ..

theorem State.Inv.bootMaps : s.bootMaps.Inv := by
  unfold State.bootMaps
  extract_lets s₁ s₂ s₃
  have h₁ : s₁.Inv := h.foldl (fun _ _ h => ((h.put ..).sclShow ..).ite h) _
  have h₂ : s₂.Inv := h₁.foldl (fun _ _ h => (h.foldl (fun _ _ h => h.put ..) _).ite h) _
  have h₃ : s₃.Inv := h₂.foldl (fun _ _ h => (h.put ..).ite h) _
  dsimp only
  exact h₃.freshNat.foldl (fun _ _ h => h.mxService ..) _

theorem State.Inv.imageVerify (fault secver : Nat) : (s.imageVerify fault secver).Inv := by
  unfold State.imageVerify
  extract_lets _ _ s₁ _ s₂ _ s₃ s₄
  have h₁ : s₁.Inv := h.slotFail ..
  have h₂ : s₂.Inv := h₁.setBoot ..
  have h₃ : s₃.Inv := h.putAll ..
  have h₄ : s₄.Inv := (h₃.burnTo ..).ite h₃
  exact h.ite ((((h₂.setBoot ..).bootState ..).ite (h₂.setBoot ..)).ite (((h₄.applyRepairs ..).bootMaps).bootState ..))

theorem State.Inv.retireUnit (unit result : Nat) : (s.retireUnit unit result).Inv :=
  (h.ite ((h.repairReport ..).ite (h.setRepairs ..))).report ..

theorem State.Inv.retireDomain (unit : Nat) : (s.retireDomain unit).Inv := (h.ite ((h.repairReport ..).ite (h.setRepairs ..))).report ..

theorem State.Inv.stackLoss (st : Nat) : (s.stackLoss st).Inv := (h.retireDomain ..).foldl (fun _ _ h => h.carStop ..) _

theorem State.Inv.stackTrained (st : Nat) (noRes : List Nat) (left : Nat) : (s.stackTrained st noRes left).Inv :=
  ((((h.ite (h.setRepairs ..)).foldl (fun _ _ h => h.repairReport ..) _).raise ..).putAll ..).initNext ..

theorem State.Inv.hbmTrain (st : Nat) (ok : Bool) (noRes : List Nat) (left : Nat) : (s.hbmTrain st ok noRes left).Inv :=
  h.ite (((h.setBoot ..).stackTrained ..).ite ((h.setBoot ..).stackLoss ..))

theorem State.Inv.netSettings (board : BoardDesc) (cable : CableTable) : (s.netSettings board cable).Inv := by
  unfold State.netSettings
  extract_lets s₁ s₂ _ s₃
  have h₁ : s₁.Inv := h.foldl (fun _ _ h => h.set ..) _
  have h₂ : s₂.Inv := h₁.foldl (fun _ _ h => h.putAll ..) _
  have h₃ : s₃.Inv := (h₂.setCar ..).ite h
  refine h₃.foldl (fun t a h => ?_) _
  split
  · exact (h.put ..).put ..
  · exact ((h.put ..).put ..).set ..

theorem State.Inv.cplSettings (cable : CableTable) (eq : List EqEntry) : (s.cplSettings cable eq).Inv := by
  unfold State.cplSettings
  extract_lets _ _ s₁
  have h₁ : s₁.Inv := by
    unfold s₁
    refine h.foldl (fun t a h => ?_) _
    extract_lets s₂ s₃
    have h₂ : s₂.Inv := by
      unfold s₂
      split
      · exact h.put ..
      · exact (h.put ..).set ..
    have h₃ : s₃.Inv := by
      unfold s₃
      split
      · exact h₂.putAll ..
      · exact h₂.putAll ..
    exact h₃.set ..
  exact h₁.foldl (fun _ _ h => (h.cplEnable ..).ite h) _

theorem State.Inv.steolReady (board : BoardDesc) (cable : CableTable) (eq : List EqEntry) : (s.steolReady board cable eq).Inv := by
  unfold State.steolReady
  extract_lets _ s₁ s₂ _ s₃ s₄ s₅ s₆
  have h₁ : s₁.Inv := ((h.bootState ..).set ..).setBoot ..
  have h₂ : s₂.Inv := (h₁.netSettings ..).cplSettings ..
  have h₃ : s₃.Inv := ((h₂.report ..).setBoot ..).ite h₂
  have h₄ : s₄.Inv := (h₃.report ..).ite h₃
  have h₅ : s₅.Inv := (h₄.event ..).ite h₄
  have h₆ : s₆.Inv := (h₅.putAll ..).ite h₅
  exact h.ite h₆.heldSend

theorem State.Inv.warmAsk (c : WarmCause) : (s.warmAsk c).Inv := h.setBoot ..

theorem State.Inv.warmRun (pair0 : Bool) : (s.warmRun pair0).Inv := by
  unfold State.warmRun
  split
  · exact h
  · exact h.ite ((((h.warmReset ..).rom ..).slotFail ..).ite ((h.warmReset ..).rom ..))

theorem State.Inv.wdogExpire : s.wdogExpire.Inv := h.ite ((((h.setBoot ..).slotFail ..).bootState ..).ite ((h.putAll ..).warmAsk ..))

theorem State.Inv.rstDomain (d : Nat) : (s.rstDomain d).Inv :=
  (h.set ..).ite ((((((h.pwrSettle ..).domReset ..).sigDrop ..).setPwr ..).set ..).putAll ..)

theorem State.Inv.rcsGo : s.rcsGo.Inv := (h.set ..).ite ((h.set ..).ite (((h.set ..).count ..).setBoot ..))

theorem State.Inv.rcsOpen (w : Nat) : (s.rcsOpen w).Inv := by
  unfold State.rcsOpen
  extract_lets
  refine State.Inv.setBytes ?_ ..
  exact h.of_eq rfl rfl

theorem State.Inv.rcsDone (ok : Bool) : (s.rcsDone ok).Inv := by
  unfold State.rcsDone
  split
  · exact h
  · extract_lets _ s₁ s₂
    have h₁ : s₁.Inv := (h.clr ..).setBoot ..
    have h₂ : s₂.Inv := (h₁.rcsOpen ..).set ..
    exact ((h₁.setWords ..).setChk ..).ite (h₂.ite ((((h₂.set ..).count ..).setBoot ..).ite (h₂.report ..)))

theorem State.Inv.dbgLock : s.dbgLock.Inv := h.putAll ..

theorem State.Inv.dbgReq (scope : Nat) : (s.dbgReq scope).Inv := by
  unfold State.dbgReq
  extract_lets s₁ _ s₂
  have h₁ : s₁.Inv := h.put ..
  have h₂ : s₂.Inv := h₁.setBoot ..
  split
  · exact h₁
  · dsimp only
    exact (h₂.freshNat.foldl (fun _ _ h => h.put ..) _).set ..

theorem State.Inv.dbgGo (ok : Bool) : (s.dbgGo ok).Inv :=
  h.ite (((h.clr ..).putAll ..).ite ((((h.clr ..).count ..).set ..).ite ((h.clr ..).count ..)))

/-! ### Machine/Pins -/

theorem State.Inv.setPins (p : Pins) : (s.setPins p).Inv := h.of_eq rfl rfl

theorem State.Inv.enableRails (n : Nat) : (s.enableRails n).Inv := (h.setPins ..).send ..

theorem State.Inv.rcsCut : s.rcsCut.Inv := by
  unfold State.rcsCut
  split
  · exact h
  · extract_lets _ s₁
    have h₁ : s₁.Inv := (h.rcsOpen ..).setBoot ..
    dsimp only
    exact h₁.freshBool.freshNat.setChk ..

theorem State.Inv.railsOff : s.railsOff.Inv := by
  unfold State.railsOff
  extract_lets _ _ u
  have hu : u.Inv := ⟨h.rcsCut.mem, h.rcsCut.timeA, h.rcsCut.timeB⟩
  clear_value u
  exact (hu.setPins ..).enableRails ..

theorem State.Inv.railUp (k : Nat) : (s.railUp k).Inv := by
  unfold State.railUp
  extract_lets _ _ s₁
  have h₁ : s₁.Inv := h.setPins ..
  split
  · exact h
  · exact (h.ite ((h.setPins ..).enableRails ..)).ite (h.ite (((h₁.coldReset.send ..).alertShow).ite ((h₁.enableRails ..).ite h₁)))

theorem State.Inv.railLate : s.railLate.Inv :=
  h.ite (((h.railsOff.setPins ..).alertShow).ite (((h.railsOff.setPins ..).alertShow).enableRails ..))

theorem State.Inv.powerFault (k : Nat) : (s.powerFault k).Inv := h.ite ((((h.railsOff.setPins ..).setBoot ..).alertShow).enableRails ..)

theorem State.Inv.avsWrite (mv : Nat) (ack : Bool) : (s.avsWrite mv ack).Inv := ((h.send ..).setPins ..).ite ((h.send ..).report ..)

theorem State.Inv.brownout : s.brownout.Inv := h.ite ((h.set ..).ite ((((h.set ..).rcsCut).setBoot ..).coldReset))

theorem State.Inv.aonOff : s.aonOff.Inv := by
  unfold State.aonOff
  extract_lets s₁ s₂ _ _ s₃
  have h₁ : s₁.Inv := h.rcsCut
  have h₂ : s₂.Inv := h₁.bare
  have h₃ : s₃.Inv := h₂.of_eq rfl rfl
  exact h₃.put ..

theorem State.Inv.tripOff : s.tripOff.Inv := h.ite h.railsOff

theorem State.Inv.restart (why : ColdCause) : (s.restart why).Inv := (((h.setThm ..).setBoot ..).send ..).enableRails ..

theorem State.Inv.tripRestart : s.tripRestart.Inv := h.ite (h.restart ..)

theorem State.Inv.resetLow : s.resetLow.Inv :=
  h.ite ((h.setPins ..).ite (((h.setPins ..).warmAsk ..).ite (((h.setPins ..).warmReset ..).warmAsk ..)))

theorem State.Inv.resetHigh (pair0 : Bool) : (s.resetHigh pair0).Inv := by
  unfold State.resetHigh
  extract_lets _ s₁ _ s₂
  have h₁ : s₁.Inv := h.setPins ..
  have h₂ : s₂.Inv := h₁.setThm ..
  exact h.ite ((h₁.ite ((h₂.restart ..).ite h₂)).ite ((((h₁.setPins ..).alertShow).enableRails ..).ite (h₁.warmRun ..)))

theorem State.Inv.smbus (v : Nat) : (s.smbus v).Inv := (h.send ..).ite h

/-! ### Machine/Faults -/

theorem State.Inv.setDep (d : Dep) : (s.setDep d).Inv := h.of_eq rfl rfl

theorem State.Inv.coreReplace (l : Nat) : ∀ t, s.coreReplace l = some t → t.Inv := by
  intro t ht
  have hu : (match s.lender l with
      | some n => s.lendWrite n l false
      | none => s).Inv := by
    split
    · exact h.lendWrite ..
    · exact h
  unfold State.coreReplace at ht
  extract_lets c u map own at ht
  have hu : u.Inv := hu
  split at ht
  · cases ht
    exact hu.sclMapWrite ..
  · split at ht
    · cases ht
      exact (hu.sclMapWrite ..).lendWrite ..
    · cases ht

theorem State.Inv.engReplace (c k : Nat) : ∀ t, s.engReplace c k = some t → t.Inv := by
  intro t ht
  obtain ⟨b, -, rfl⟩ := Option.map_eq_some_iff.1 ht
  exact (h.engMapWrite ..).engMapWrite ..

theorem State.Inv.sliceReplace (e x : Nat) : ∀ t, s.sliceReplace e x = some t → t.Inv := by
  intro t ht
  unfold State.sliceReplace at ht
  dsimp only at ht
  split at ht
  · cases ht
    exact h
  · split at ht
    · cases ht
      exact h.bmvMapWrite ..
    · cases ht

theorem State.Inv.mxcReplace (c : Nat) : ∀ t, s.mxcReplace c = some t → t.Inv := by
  intro t ht
  obtain ⟨n, -, rfl⟩ := Option.map_eq_some_iff.1 ht
  exact (h.mxService ..).mxService ..

theorem State.Inv.replaceUnit (x : FaultUnit) : ∀ t, (s.replaceUnit x).2 = some (some t) → t.Inv := by
  intro t ht
  cases x with
  | exec e =>
    unfold State.replaceUnit at ht
    dsimp only at ht
    split at ht
    · cases ht
    · have ht := Option.some.inj ht
      split at ht
      · exact h.coreReplace _ _ ht
      · exact h.engReplace _ _ _ ht
  | slice e x =>
    unfold State.replaceUnit at ht
    dsimp only at ht
    split at ht
    · cases ht
    · exact h.sliceReplace _ _ _ (Option.some.inj ht)
  | mxc c => exact h.mxcReplace _ _ (Option.some.inj ht)

theorem State.Inv.unitFault (x : FaultUnit) (pass : Bool) : (s.unitFault x pass).Inv := by
  have hq := h.replaceUnit x
  have hshow {t : State} (u : Nat) (ht : t.Inv) :
      (if u < 2048 then (t.retireUnit u (testResult pass)).sclShow (u / 9) else t.retireUnit u (testResult pass)).Inv :=
    ((ht.retireUnit ..).sclShow ..).ite (ht.retireUnit ..)
  fun_cases State.unitFault s x pass with
  | case1 => exact h
  | case2 => exact (hshow _ (h.setGdx ..)).shedPass ..
  | case3 _ u r hr v q w =>
    refine hshow _ ?_
    rcases r with _ | _ | t
    · exact h.setGdx ..
    · exact h.setGdx ..
    · exact State.Inv.setGdx (hq t (congrArg Prod.snd hr)) ..

theorem State.Inv.rotWrite (g : RotGroup) (u out : Nat) : (s.rotWrite g u out).Inv := by
  unfold State.rotWrite
  split
  · split
    · exact h.sclMapWrite ..
    · exact h
  · exact (h.mxService ..).mxService ..
  · split
    · exact h.bmvMapWrite ..
    · exact h
  · split
    · exact (h.engMapWrite ..).engMapWrite ..
    · exact h

theorem State.Inv.showTest (u : Nat) (on : Bool) : (s.showTest u on).Inv := by
  unfold State.showTest
  split
  · split
    · exact h.setTo ..
    · exact h
  · exact h

theorem State.Inv.rotArrive (u : Nat) : (s.rotArrive u).Inv := by
  unfold State.rotArrive
  split
  · exact h
  · exact ((h.setDep ..).showTest ..).ite h

theorem State.Inv.rotStep (g : RotGroup) : (s.rotStep g).Inv := by
  unfold State.rotStep
  split
  · exact h
  · split
    · exact h
    · split
      · exact h
      · exact ((h.rotWrite ..).setDep ..).rotArrive ..

theorem State.Inv.rotSwap (g : RotGroup) : (s.rotSwap g).Inv := by
  unfold State.rotSwap
  extract_lets s₁
  have h₁ : s₁.Inv := by
    unfold s₁
    split
    · exact h.sclMapApply ..
    · exact h
    · exact h.bmvMapApply ..
    · exact h.engMapTry ..
  exact h₁.foldl (fun _ _ h => h.rotArrive ..) _

theorem State.Inv.testEnd (u : Nat) (pass : Bool) : (s.testEnd u pass).Inv := by
  unfold State.testEnd
  extract_lets _ _ _ _ _ s₁ s₂ s₃
  have h₁ : s₁.Inv := (h.setDep ..).showTest ..
  have h₂ : s₂.Inv := h₁.retireUnit ..
  have h₃ : s₃.Inv := h₁.ite ((h₂.sclShow ..).ite h₂)
  split
  · exact h
  · refine h₃.foldl (fun t a h => ?_) _
    split
    · exact h.eventTo ..
    · dsimp only
      exact h.freshNat.eventTo ..

theorem State.Inv.netLaneFault (n : Nat) (pass : Bool) : (s.netLaneFault n pass).Inv := by
  fun_cases State.netLaneFault s n pass with
  | case1 => exact h
  | case2 => exact h
  | case3 =>
    refine State.Inv.netStart (State.Inv.put (State.Inv.count (State.Inv.netSetMode ?_ ..) ..) ..) ..
    exact (h.count ..).retireUnit ..
  | case4 =>
    refine State.Inv.netState (State.Inv.netDisable ?_ ..) ..
    exact (h.count ..).retireUnit ..
  | case5 =>
    refine State.Inv.netState (State.Inv.netDisable ?_ ..) ..
    exact (h.count ..).retireUnit ..

theorem State.Inv.cplLaneFault (p l : Nat) (pass : Bool) : (s.cplLaneFault p l pass).Inv :=
  h.ite (((((h.set ..).retireUnit ..).cplDrop ..).ite ((((h.set ..).retireUnit ..).cplDisable ..).cplState ..)).shedPass ..)

theorem State.Inv.erqDrain : s.erqDrain.Inv := h.foldl (fun _ _ h => h.repeatN (fun _ h => h.erqRead ..) _) _

theorem State.Inv.failover : s.failover.Inv := by
  unfold State.failover
  extract_lets _ s₁ s₂ _ s₃ s₄ _ s₅
  have h₁ : s₁.Inv := h.putAll ..
  have h₂ : s₂.Inv := h₁.count ..
  have h₃ : s₃.Inv := h₂.setDep ..
  have h₄ : s₄.Inv := h₃.foldl (fun _ _ h => (h.set ..).ite h) _
  have h₅ : s₅.Inv := (((h₄.clr ..).setHost ..).event ..).ite h₄
  exact (h.clr ..).ite (h₅.erqDrain.event ..)

theorem State.Inv.standby (pass : Bool) : (s.standby pass).Inv := h.ite ((h.retireUnit ..).ite (h.set ..))

theorem State.Inv.degrade (d : Nat) : (s.degrade d).Inv := by
  unfold State.degrade
  extract_lets _ _ s₁ s₂ _ _ s₃
  have h₁ : s₁.Inv := (h.retireDomain ..).foldl (fun _ _ h => h.execOut ..) _
  have h₂ : s₂.Inv := (((h₁.clr ..).clr ..).sclShow ..).ite h₁
  have h₃ : s₃.Inv := (h₂.setCar ..).foldl (fun _ _ h => h.tplBlock ..) _
  exact h.ite (h₃.shedPass ..)

end

end Sys2Proof.Machine
end

