-- ==== Sys2Proof/Proofs/InvariantHost.lean ====
section
/-!
SUPPORT. Sys2Proof/Proofs/InvariantHost.lean: mailboxes, cores, register access and Brildo's commands keep the invariant.
-/
namespace Sys2Proof.Machine

section
variable {s : State} (h : s.Inv)
include h

/-! ### Machine/Mbx -/

theorem State.Inv.setMbx (m : Nat) (x : Mbx) : (s.setMbx m x).Inv := h.setHost ..

theorem State.Inv.itemBytes (i : ReplyItem) : (s.itemBytes i).2.Inv := by
  unfold State.itemBytes
  split
  · exact h
  · exact h
  · exact h
  · exact h.of_eq rfl rfl

theorem State.Inv.itemsBytes (l : List ReplyItem) : (s.itemsBytes l).2.Inv := by
  induction l generalizing s with
  | nil => exact h
  | cons i l ih => exact ih (h.itemBytes i)

theorem State.Inv.makeReply (r : Req) (v : Nat × Nat) (e : Refuse) (items : List ReplyItem) : (s.makeReply r v e items).2.Inv :=
  h.itemsBytes ..

theorem State.Inv.sendReply (m : Nat) (r : Req) (y : Reply) : (s.sendReply m r y).Inv := by
  unfold State.sendReply
  extract_lets _ s₁ s₂
  have h₁ : s₁.Inv := h.setMbx ..
  have h₂ : s₂.Inv := ((h₁.setBytes ..).put ..).send ..
  exact (h.setMbx ..).ite ((h₂.send ..).ite h₂)

theorem State.Inv.replyVersion (m : Nat) : (s.replyVersion m).2.Inv := by
  unfold State.replyVersion
  split
  · exact h
  · dsimp only
    exact h.freshNat.freshNat

theorem State.Inv.replyWith (m : Nat) (r : Req) (e : Refuse) (items : List ReplyItem) : (s.replyWith m r e items).Inv := by
  unfold State.replyWith
  dsimp only
  exact ((h.replyVersion ..).makeReply ..).sendReply ..

theorem State.Inv.freeDetail (e : Refuse) : (s.freeDetail e).2.Inv := by
  unfold State.freeDetail
  split
  next c u hu =>
  have hu : u.Inv := .of_snd hu (.ite_snd h.freshNat h)
  split
  next o v hv => exact .of_snd hv (.ite_snd hu.freshNat hu)

theorem State.Inv.refuse (m : Nat) (r : Req) (e : Refuse) : (s.refuse m r e).Inv := by
  unfold State.refuse
  dsimp only
  exact (h.freeDetail ..).replyWith ..

theorem State.Inv.replyOk (m : Nat) (r : Req) (items : List ReplyItem) : (s.replyOk m r items).Inv := h.replyWith ..

theorem State.Inv.serve (m op : Nat) {k : Nat → State → Refuse ⊕ (List ReplyItem × State)}
    (hk : AnswersInv (k (s.mbxOwner m) s)) : (s.serve m op k).Inv := by
  unfold State.serve
  split
  · exact h
  · split
    · exact h.refuse ..
    next t he =>
      rw [he] at hk
      have ht : t.Inv := hk
      exact ht.replyOk ..

theorem State.Inv.serveAsync (m op : Nat) {k : Nat → State → Refuse ⊕ JobKind × State}
    (hk : AnswersInv (k (s.mbxOwner m) s)) : (s.serveAsync m op k).Inv := by
  unfold State.serveAsync
  split
  · exact h
  · split
    · exact h.refuse ..
    next t he =>
      rw [he] at hk
      have ht : t.Inv := hk
      exact (ht.setHost ..).replyWith ..

theorem State.Inv.mbxDoorbell (f m seq : Nat) : (s.mbxDoorbell f m seq).Inv :=
  h.ite (((h.setHost ..).set ..).ite (((h.setHost ..).put ..).put ..))

theorem State.Inv.takeRequest (tlv : TlvCheck) : (s.takeRequest tlv).Inv := by
  unfold State.takeRequest
  split
  · exact h
  · extract_lets _ _ _ _ _ s₁
    have h₁ : s₁.Inv := (h.setHost ..).put ..
    split
    · exact h
    · split
      · exact h₁.refuse ..
      · split
        · exact h₁.sendReply ..
        · exact (h₁.refuse ..).ite (h₁.setMbx ..)

theorem State.Inv.ringFreed (r n : Nat) : (s.ringFreed r n).Inv := by
  unfold State.ringFreed
  split
  · exact h
  · extract_lets s₁
    have h₁ : s₁.Inv := h.setRing ..
    refine h₁.foldl (fun t a h => ?_) _
    split
    · exact h.bufUnref ..
    · exact h

theorem State.Inv.ringDb (f r idx : Nat) : (s.ringDb f r idx).Inv := by
  unfold State.ringDb
  split
  · exact h
  · extract_lets _ s₁
    have h₁ : s₁.Inv := h.setHost ..
    exact h.ite (((h₁.set ..).ite ((h₁.put ..).ringFreed ..)).ite (h₁.ite ((h₁.set ..).ite (h₁.put ..))))

theorem State.Inv.ringFetch (r : Nat) (item : List Nat) (payload : List Byte) : (s.ringFetch r item payload).Inv := by
  unfold State.ringFetch
  split
  · exact h
  · exact h.ite (.ite (h.ite (((h.bufTake ..).store ..).setRing ..)) (h.setRing ..))

theorem State.Inv.ringTimer (r : Nat) : (s.ringTimer r).Inv := by
  unfold State.ringTimer
  split
  · exact h
  · exact h.ite (((h.setRing ..).send ..).ite (h.setRing ..))

theorem State.Inv.mbxLose (m : Nat) : (s.mbxLose m).Inv := (((h.setMbx ..).putAll ..).set ..).ite ((h.setMbx ..).putAll ..)

theorem State.Inv.ringDetach (r : Nat) : (s.ringDetach r).Inv := by
  unfold State.ringDetach
  extract_lets s₁
  have h₁ : s₁.Inv := h.set ..
  split
  · exact h₁
  · exact (((h₁.ringFreed ..).count ..).put ..).ite h₁

theorem State.Inv.flr (f : Nat) : (s.flr f).Inv :=
  ((h.foldl (fun _ _ h => h.mbxLose ..) _).foldl (fun _ _ h => h.ringDetach ..) _).setHost ..

theorem State.Inv.ringDestroy (r : Nat) : (s.ringDestroy r).Inv := by
  unfold State.ringDestroy
  split
  · exact h
  · extract_lets s₁ _ s₂
    have h₁ : s₁.Inv := by
      unfold s₁
      refine h.foldl (fun t a h => ?_) _
      split
      · exact (h.bufUnref ..).ite (h.bufReturn ..)
      · exact h
    have h₂ : s₂.Inv := h₁.setHost ..
    exact h₂.putAll ..

theorem State.Inv.claimLost (f : Nat) : (s.claimLost f).Inv :=
  h.ite (((h.foldl (fun _ _ h => h.carRemove ..) _).foldl (fun _ _ h => h.ringDestroy ..) _).setHost ..)

/-! ### Machine/Vsc -/

theorem State.Inv.mxIssue (k : Nat) (o : VOp) : (s.mxIssue k o).Inv := by
  unfold State.mxIssue
  split
  · exact h
  · extract_lets
    split
    · exact h
    · split
      · exact h
      · split
        · exact (h.runEnd ..).ite ((h.runEnd ..).ite ((h.setCore ..).mxRequest ..))
        · exact (h.runEnd ..).ite ((h.runEnd ..).ite (h.setMx ..))

theorem State.Inv.control (k : Nat) (b : Bundle) : (s.control k b).Inv := by
  unfold State.control
  split
  · exact h
  · extract_lets
    split
    · exact h.setCore ..
    · exact h.setCore ..
    · exact h.setCore ..
    · exact (h.runEnd ..).ite (h.setCore ..)
    · split
      · exact h.runEnd ..
      · exact h.setCore ..
    · exact h.setCore ..
    · split
      · exact h.setCore ..
      · exact h.setCore ..
    · exact (h.setCore ..).vscFinish ..
    · exact h.runEnd ..

theorem State.Inv.setIcache (k : Nat) (ls : List Nat) : (s.setIcache k ls).Inv := h.setExu ..

theorem State.Inv.icacheAdd (k line : Nat) : (s.icacheAdd k line).Inv := by
  unfold State.icacheAdd
  extract_lets
  split
  · exact h
  · split
    · exact h.setIcache ..
    · dsimp only
      exact h.freshNat.setIcache ..

theorem State.Inv.raiseFlags (k fl : Nat) : (s.raiseFlags k fl).Inv := (((h.coreUpdate ..).put ..).put ..).put ..

theorem State.Inv.bundleOps (k : Nat) (c : VscCore) (b : Bundle) : (s.bundleOps k c b).Inv := by
  unfold State.bundleOps
  extract_lets _ _ s₁ _ s₂ s₃ s₄ s₅ s₆
  have h₁ : s₁.Inv := h.foldl (fun _ _ h => h.load ..) _
  have h₂ : s₂.Inv := h₁.foldl (fun _ _ h => (h.bmvRead ..).coreUpdate ..) _
  have h₃ : s₃.Inv := h₂.coreUpdate ..
  have h₄ : s₄.Inv := h₃.raiseFlags ..
  have h₅ : s₅.Inv := h₄.foldl (fun _ _ h => h.store ..) _
  have h₆ : s₆.Inv := h₅.foldl (fun _ _ h => h.bmvWrite ..) _
  split
  · exact h₁.runEnd ..
  · split
    · exact (h₁.clr ..).runEnd ..
    · exact ((h₁.clr ..).runEnd ..).ite (((h₁.raiseFlags ..).runEnd ..).ite ((h₆.foldl (fun _ _ h => h.mxIssue ..) _).control ..))

theorem State.Inv.bundleIssue (k stall squashed : Nat) : (s.bundleIssue k stall squashed).Inv := by
  unfold State.bundleIssue
  split
  · exact h
  · extract_lets s₁ _ s₂
    have h₁ : s₁.Inv := (h.clr ..).count ..
    have h₂ : s₂.Inv := h₁.bundleOps ..
    exact h.ite ((h.set ..).ite (h₁.ite ((h₁.runEnd ..).ite (h₁.ite ((h₂.count ..).ite h₂)))))

/-! ### Machine/Access -/

theorem State.Inv.clearRead (r : Reg) (i j : Nat) : (s.clearRead r i j).Inv := ((h.wr ..).put ..).ite (h.wr ..)

theorem State.Inv.regRead (r : Reg) (i j : Nat) (clear : Bool) : (s.regRead r i j clear).2.Inv := by
  unfold State.regRead
  extract_lets s₁ _ _ _ _ _ s₂
  have h₁ : s₁.Inv := h.tick.ite h
  have h₂ : s₂.Inv := h₁.upLane ..
  split
  · exact State.Inv.ite_snd ((h₁.wr ..).setGdx ..) h₁
  · split
    · exact h₁.putAll ..
    · exact ((h₂.clearRead ..).put ..).ite h₂
    · exact (h₁.upLane ..).ite h₁
    · exact (h₁.clearRead ..).ite h₁

theorem State.Inv.vscBadCsr (v : Nat) : (s.vscBadCsr v).Inv := h.runEnd ..

theorem State.Inv.csrRead (q : Requester) (a : Nat) : (s.csrRead q a).Inv := by
  unfold State.csrRead
  split
  · split
    · split
      · dsimp only
        exact (h.bmvRead ..).send ..
      · exact h.vscBadCsr ..
    · exact h.vscBadCsr ..
  · split
    · exact h.send ..
    · split
      · exact h.send ..
      · split
        · exact h.send ..
        · dsimp only
          exact (h.regRead ..).send ..
  · exact h.send ..
  · exact h.send ..

theorem State.Inv.plainWrite (r : Reg) (i j : Nat) (v : Word) : (s.plainWrite r i j v).Inv := h.wr ..

theorem State.Inv.writeBut (r : Reg) (i j : Nat) (v : Word) (keep : List Fld) : (s.writeBut r i j v keep).Inv := h.plainWrite ..

theorem State.Inv.cplPwrWrite (p d code : Nat) (f : Fld) : (s.cplPwrWrite p d code f).Inv :=
  h.ite ((h.pwrRequest ..).ite ((h.pwrRequest ..).put ..))

theorem State.Inv.xoffDrive : s.xoffDrive.Inv := (h.foldl (fun _ _ h => h.send ..) _).ite h

theorem State.Inv.instCmd (v : Word) : (s.instCmd v).Inv := h.ite (((h.gdxCycle.cancel ..).gdxSettle).ite (h.instCreate ..))

theorem State.Inv.tplCmd (v : Word) : (s.tplCmd v).Inv := by
  unfold State.tplCmd
  extract_lets
  split
  · exact h
  · split
    · dsimp only
      exact h.freshNat.freshBool.install ..
    · exact h.tplRemove ..
    · exact h.tplBlock ..
    · exact h.tplBlock ..

theorem State.Inv.tlCmd (v : Word) : (s.tlCmd v).Inv := by
  unfold State.tlCmd
  extract_lets
  split
  · exact h
  · split
    · exact h.tlEnable ..
    · exact h.tlDisable ..
    · exact h.tddUpdate ..

theorem State.Inv.sqGo (v : Word) : (s.sqGo v).Inv := by
  unfold State.sqGo
  extract_lets
  split
  · exact h
  · split
    · exact h.queueEnable ..
    · exact h.queueDisable ..
    · exact h.queueReset ..

theorem State.Inv.dbgCtrl (v : Word) : (s.dbgCtrl v).Inv := by
  unfold State.dbgCtrl
  extract_lets s₁ s₂ s₃
  have h₁ : s₁.Inv := h.put ..
  have h₂ : s₂.Inv := (h₁.dbgReq ..).ite h₁
  have h₃ : s₃.Inv := by
    unfold s₃
    split
    · dsimp only
      exact h₂.freshBool.dbgGo ..
    · exact h₂
  exact h₃.dbgLock.ite h₃

theorem State.Inv.laneCtrl (p l : Nat) (v : Word) : (s.laneCtrl p l v).Inv := by
  unfold State.laneCtrl
  extract_lets s₁
  have h₁ : s₁.Inv := (h.set ..).ite (h.plainWrite ..)
  split
  · dsimp only
    exact h₁.freshBool.cplSlip ..
  · exact h₁

theorem State.Inv.portCtrl (p : Nat) (v : Word) : (s.portCtrl p v).Inv := by
  unfold State.portCtrl
  extract_lets s₁ s₂ s₃
  have h₁ : s₁.Inv := h.writeBut ..
  have h₂ : s₂.Inv := h₁.cplPwrWrite ..
  have h₃ : s₃.Inv := h₂.cplPwrWrite ..
  exact (h₃.cplEnable ..).ite ((h₃.cplDisable ..).ite h₃)

theorem State.Inv.netPortCtrl (p : Nat) (v : Word) : (s.netPortCtrl p v).Inv :=
  ((h.writeBut ..).netEnable ..).ite (((h.writeBut ..).netDisable ..).ite (h.writeBut ..))

theorem State.Inv.engCtrl (q : Requester) (i : Nat) (v : Word) : (s.engCtrl q i v).Inv :=
  ((h.writeBut ..).engMapWrite ..).ite (h.writeBut ..)

theorem State.Inv.mxcCtrl (q : Requester) (c : Nat) (v : Word) : (s.mxcCtrl q c v).Inv :=
  ((h.writeBut ..).mxService ..).ite (h.writeBut ..)

theorem State.Inv.pinCtrl (n : Nat) (v : Word) : (s.pinCtrl n v).Inv :=
  ((h.writeBut ..).ite ((h.writeBut ..).pinArm ..)).ite (((h.writeBut ..).pinDisarm ..).ite (h.writeBut ..))

theorem State.Inv.sqPins (r : Reg) (v : Word) : (s.sqPins r v).Inv := by
  unfold State.sqPins
  extract_lets _ s₁
  have h₁ : s₁.Inv := h.plainWrite ..
  split
  · refine State.Inv.xoffDrive ?_
    exact h₁.of_eq rfl rfl
  · exact h₁.ite h₁.xoffDrive

theorem State.Inv.switchWrite (v : Word) : (s.switchWrite v).Inv := (h.switchGo ..).ite (h.plainWrite ..)

theorem State.Inv.ruleWrite (r : Reg) (i : Nat) (v : Word) : (s.ruleWrite r i v).Inv :=
  ((h.plainWrite ..).setPwr ..).ite (h.plainWrite ..)

theorem State.Inv.saCmd (p : Nat) (v : Word) : (s.saCmd p v).Inv := by
  unfold State.saCmd
  split
  · exact h
  · dsimp only
    exact (h.freshNat.freshNat.upNet ..).ite h.freshNat.freshNat

theorem State.Inv.regWrite (q : Requester) (r : Reg) (i j : Nat) (v : Word) : (s.regWrite q r i j v).Inv := by
  unfold State.regWrite
  have hp : (s.plainWrite r i j v).Inv := h.plainWrite ..
  split
  · exact hp.tlCmd ..
  · exact State.Inv.ite (State.Inv.setBoot ((h.setBoot ..).ite h) ..) ((h.setBoot ..).ite h)
  · exact h.dbgCtrl ..
  · exact h.laneCtrl ..
  · exact h.portCtrl ..
  · exact h.ite hp
  · exact (h.report ..).ite h
  · exact h.erqAdvance ..
  · exact h.setReserve ..
  · exact hp.instCmd ..
  · exact hp.tplCmd ..
  · exact h.snapHold ..
  · exact h.mbxDoorbell ..
  · exact h.ringDb ..
  · exact h.mxcCtrl ..
  · exact (h.lutCopy ..).ite h
  · exact (hp.groupApply ..).ite hp
  · exact h.prbsCtrl ..
  · exact h.ite hp
  · exact h.saCmd ..
  · exact h.netPortCtrl ..
  · exact (hp.pwrRequest ..).ite hp
  · exact h.rcsGo.ite h
  · exact (h.warmAsk ..).ite h
  · exact (hp.rstDomain ..).ite hp
  · exact h.sclMapWrite ..
  · exact h.lendWrite ..
  · exact hp.sqGo ..
  · exact h.sqPins ..
  · exact h.sqPins ..
  · exact h.incWrite ..
  · exact (h.stepGo ..).ite hp
  · exact h.put ..
  · refine State.Inv.ite ?_ h
    exact h.setTbu h.timeA h.timeB
  · exact h.switchWrite ..
  · exact h.limitWrite ..
  · exact h.ruleWrite ..
  · exact h.ruleWrite ..
  · exact h.ruleWrite ..
  · exact h.ruleWrite ..
  · exact h.engCtrl ..
  · exact (hp.setIcache ..).ite hp
  · exact (hp.whsArm ..).ite hp
  · exact (hp.whsDisarm ..).ite hp
  · exact h.whsEnable ..
  · exact h.pinCtrl ..
  · exact hp

theorem State.Inv.csrWrite (q : Requester) (a : Nat) (v : Word) : (s.csrWrite q a v).Inv := by
  unfold State.csrWrite
  split
  · split
    · exact (h.bmvWrite ..).ite (h.vscBadCsr ..)
    · exact h.vscBadCsr ..
  · split
    · exact (h.setWord ..).ite h
    · split
      · exact h
      · exact h.ite ((h.bmvWrite ..).ite (h.regWrite ..))
  · exact h.send ..

theorem State.Inv.bar2Access (f off : Nat) (write : Option (List Byte)) : (s.bar2Access f off write).Inv := by
  unfold State.bar2Access
  split
  · exact h.send ..
  · split
    · exact h.send ..
    · split
      · exact (h.memWait ..).ite ((h.hbmCount ..).memRead ..)
      · exact h.foldl (fun _ _ h => ((h.memWait ..).priority ..).ite ((h.hbmCount ..).writeWithin ..)) _

/-! ### Machine/Session -/

omit h in
theorem AnswersInv.owned (sel : Partition → List (Nat × Nat)) (f n : Nat) {k : Refuse ⊕ (List ReplyItem × State)}
    (hk : AnswersInv k) : AnswersInv (s.owned sel f n k) := hk.ite (.inl _)

theorem State.Inv.open_ (m lower upper base : Nat) : (s.open_ m lower upper base).Inv := by
  unfold State.open_
  split
  · exact h
  · split
    · dsimp only
      exact ((h.freeDetail ..).makeReply ..).sendReply ..
    · dsimp only
      exact (((h.freshNat.putAll ..).setMbx ..).setHost ..).replyOk ..

theorem State.Inv.close_ (m : Nat) : (s.close_ m).Inv := by
  unfold State.close_
  split
  · exact h
  · dsimp only
    refine State.Inv.sendReply ?_ ..
    exact (((((h.replyVersion ..).putAll ..).setMbx ..).setHost ..).ite (((h.replyVersion ..).putAll ..).setMbx ..)).makeReply ..

theorem State.Inv.partition (f : Nat) (p : Partition) : AnswersInv (s.partition f p) := by
  fun_cases State.partition s f p with
  | case1 => exact .inl _
  | case2 => exact .inl _
  | case3 =>
    have ht := State.Inv.foldl (f := fun t m => t.put F.MBX_OWNER_FUNCTION (t.ownerOf Partition.mailboxes m) 0 m)
      (h.setHost { s.host with parts := Tab.set s.host.parts f p }) (fun _ _ h => h.put ..) (List.range 256)
    generalize List.range 256 = l at ht
    exact ht

theorem State.Inv.configureIn (old : Bool) (f : Nat) (remove : List Nat) (add : List CarrierDesc) :
    AnswersInv (s.configureIn old f remove add) := by
  refine .ite (.inl _) ?_
  have ht := h.configure f remove add
  split
  · trivial
  next he =>
    rw [he] at ht
    exact ht

theorem State.Inv.claim (f : Nat) (hs rs : List Nat) : AnswersInv (s.claim f hs rs) := by
  unfold State.claim
  split
  · exact .inl _
  · exact .inl _
  · exact ((h.foldl (fun _ _ h => h.clr ..) _).setHost ..).answers

theorem State.Inv.kernelInstall (a : Nat) : (s.kernelInstall a).Inv := by
  unfold State.kernelInstall
  extract_lets
  dsimp only
  exact (h.freshNat.setBytes ..).setExu ..

theorem State.Inv.sclShowAll : s.sclShowAll.Inv := h.foldl (fun _ _ h => h.sclShow ..) _

theorem State.Inv.fwCommitted : s.fwCommitted.Inv := (((((h.setBoot ..).burnTo ..).setMemx ..).setHost ..).putAll ..).event ..

theorem State.Inv.runJob (j : Job) (fits : Bool) : (s.runJob j fits).2.Inv := by
  unfold State.runJob
  split
  · split
    · exact h
    · dsimp only
      exact h.installAt ..
  · exact State.Inv.ite_snd (h.kernelInstall ..) h
  · exact (h.laneCtrl ..).ite (h.prbsCtrl ..)
  · exact State.Inv.ite_snd ((h.setRepairs ..).sclShowAll) (h.recWrite ..)
  · exact (h.setRepairs ..).sclShowAll
  · exact (h.setHost ..).event ..
  · exact h.fwCommitted
  · exact h
  · exact h

theorem State.Inv.jobOver (j : Job) (e : Refuse) : (s.jobOver j e).Inv := by
  unfold State.jobOver
  extract_lets _ s₁
  have h₁ : s₁.Inv := h.setHost ..
  dsimp only
  exact (State.Inv.ite_snd h₁ (h₁.freeDetail ..)).eventTo ..

theorem State.Inv.jobFailed (j : Job) : (s.jobFailed j).Inv := by
  unfold State.jobFailed
  dsimp only
  exact (h.freshNat.freshNat.freshNat.report ..).jobOver ..

theorem State.Inv.asyncEnd (m seq : Nat) (o : JobOutcome) : (s.asyncEnd m seq o).Inv := by
  unfold State.asyncEnd
  split
  · exact h
  · split
    · exact h.jobFailed ..
    · dsimp only
      exact (h.runJob ..).jobOver ..

/-! ### Machine/Service -/

theorem State.Inv.serveKept (m op : Nat) {k : Nat → State → Refuse × List ReplyItem × State}
    (hk : (k (s.mbxOwner m) s).2.2.Inv) : (s.serveKept m op k).Inv := by
  unfold State.serveKept
  split
  · exact h
  · exact (hk.replyOk ..).ite (hk.refuse ..)

theorem State.Inv.bindSource (d : Dom) (source : Nat) (ports : List Nat) (ptp : Nat) (synce : Option Nat) (up : Nat) :
    (s.bindSource d source ports ptp synce up).Inv := by
  unfold State.bindSource
  extract_lets _ s₁ s₂ s₃
  have h₁ : s₁.Inv := h.putAll ..
  have h₂ : s₂.Inv := by
    unfold s₂
    split
    · exact h₁.putAll ..
    · exact h₁.put ..
  have h₃ : s₃.Inv := h₂.foldl (fun _ _ h => (h.put ..).ite ((h.put ..).ite h)) _
  exact (h₃.putAll ..).ite h₃

theorem State.Inv.timeStatus : s.timeStatus.2.Inv := by
  unfold State.timeStatus
  dsimp only
  exact h.freshNat.freshNat.freshNat.freshNat

theorem State.Inv.brildoArm (f ch : Nat) (ws : List Nat) : (s.brildoArm f ch ws).2.2.Inv := by
  unfold State.brildoArm
  extract_lets _ s₁
  have h₁ : s₁.Inv := (h.clr ..).whsWriteArm ..
  split
  · exact h
  · split
    · exact h₁
    · exact h₁.setTo ..

theorem State.Inv.ringMake (f r : Nat) (p : RingParams) : (s.ringMake f r p).Inv := (h.setRing ..).putAll ..

theorem State.Inv.brildoQueue (f q : Nat) (op : QueueOp) : (s.brildoQueue f q op).2.2.Inv := by
  unfold State.brildoQueue
  extract_lets ran c
  have hr {t : State} (ht : t.Inv) : (ran t).2.2.Inv := by
    unfold ran
    split
    · exact ht
    · exact ht.setTo ..
  have hc : c.Inv := h.clr ..
  clear_value c
  split
  · exact h
  · cases op with
    | entry ws => exact h.setWords ..
    | enable => exact hr ((hc.sqCmd ..).queueEnable ..)
    | disable => exact hr ((hc.sqCmd ..).queueDisable ..)
    | reset => exact hr ((hc.sqCmd ..).queueReset ..)

theorem State.Inv.steolRead (r : Reg) (i j : Nat) : (s.steolRead r i j).2.Inv := by
  unfold State.steolRead
  dsimp only
  exact h.regRead ..

theorem State.Inv.poolWrite (p : Nat) (ws : List Nat) : (s.poolWrite p ws).Inv := ((h.setWords ..).setGdx ..).setWords ..

theorem State.Inv.bitTo (f : Fld) (n : Nat) (b : Bool) : (s.bitTo f n b).Inv := h.put ..

theorem State.Inv.policy (d deepest dwell retain : Nat) (sources : List (Nat × Nat × List Nat)) :
    AnswersInv (s.policy d deepest dwell retain sources) :=
  AnswersInv.ite (.inl _) (((((h.putAll ..).put ..).ite (h.putAll ..)).setPwr ..).answers)

theorem State.Inv.powerStates : s.powerStates.2.Inv := by
  unfold State.powerStates
  generalize powerDomains = l
  exact State.Inv.foldl_snd (x := ([], s)) h (fun _ _ h => (h.put ..).steolRead ..) l

theorem State.Inv.hibernate (m mask : Nat) : (s.hibernate m mask).Inv := by
  unfold State.hibernate
  split
  · exact h
  · exact (h.refuse ..).ite (((h.pwrRefuse ..).refuse ..).ite ((h.replyWith ..).hibStart ..))

/-! ### Machine/Maint -/

theorem State.Inv.askTest (m seq f t i : Nat) : (s.askTest m seq f t i).Inv := (((h.setDep ..).setDep ..).showTest ..).ite (h.setDep ..)

theorem State.Inv.selfTest (m t i : Nat) : (s.selfTest m t i).Inv := by
  unfold State.selfTest
  split
  · exact h
  · exact (h.refuse ..).ite ((h.refuse ..).ite ((h.refuse ..).ite ((h.askTest ..).replyWith ..)))

theorem State.Inv.laneTest (lane : TestLane) (loop pattern : Nat) : AnswersInv (s.laneTest lane loop pattern) := by
  unfold State.laneTest
  split
  · exact AnswersInv.ite (.inl _) (AnswersInv.ite (.inl _) ((h.prbsCtrl ..).answers))
  · exact AnswersInv.ite (.inl _) (AnswersInv.ite (.inl _) ((h.laneCtrl ..).answers))

omit h in
theorem AnswersInv.outRing (f r : Nat) {k : Refuse ⊕ (List ReplyItem × State)} (hk : AnswersInv k) :
    AnswersInv (s.outRing f r k) := by
  unfold State.outRing
  split
  · trivial
  · exact .ite (.inl _) (.ite (.inl _) hk)

theorem State.Inv.snapshotRead : s.snapshotRead.2.Inv := by
  unfold State.snapshotRead
  generalize snapKeys = l
  split
  next vs t ht =>
  have ht : t.Inv := .of_snd ht (State.Inv.foldl_snd (x := ([], s.snapHold true)) (h.snapHold true) (fun _ _ h => h.steolRead ..) l)
  dsimp only
  exact ht.snapHold ..

theorem State.Inv.recordJob (kind : Nat) (body : RecBody) : AnswersInv (s.recordJob kind body) := by
  unfold State.recordJob
  split
  · exact AnswersInv.ite (.inl _) (h.answers)
  · exact AnswersInv.ite (.inl _) (AnswersInv.ite (h.answers) (.inl _))

theorem State.Inv.setFw (x : Fw) : (s.setFw x).Inv := h.setHost ..

theorem State.Inv.swapPairs : s.swapPairs.Inv := by
  unfold State.swapPairs
  extract_lets _ _ s₁ s₂ s₃
  have h₁ : s₁.Inv := h.putAll ..
  have h₂ : s₂.Inv := h₁.foldl (fun _ _ h => (h.set ..).ite h) _
  have h₃ : s₃.Inv := (h₂.setFw ..).event ..
  split
  · exact h₃.jobOver ..
  · exact h₃

theorem State.Inv.clearFirst (x1 : FirstClass) : (s.clearFirst x1).Inv := by
  unfold State.clearFirst
  split
  · exact h.clr ..
  · exact h.clr ..
  · exact h.clr ..
  · exact h.clr ..
  · exact h.clr ..
  · exact h.bitTo ..

theorem State.Inv.fapiSend (f msgId carrier : Nat) (e : Refuse) (handles : List Nat) : (s.fapiSend f msgId carrier e handles).Inv := by
  unfold State.fapiSend
  split
  · exact h
  · split
    · exact h.count ..
    · split
      · exact h.set ..
      · dsimp only
        exact ((State.Inv.ite_snd h h.freshNat).messagePut ..).send ..

theorem State.Inv.fapi (r msgId : Nat) {k : Nat → Nat → State → Refuse × Option Nat × List Nat × State}
    (hk : ∀ f c, (k f c s).2.2.2.Inv) : (s.fapi r msgId k).Inv := by
  unfold State.fapi
  split
  · dsimp only
    refine State.Inv.ringConsume (State.Inv.ringTake ?_ ..) ..
    split
    · exact (hk ..).fapiSend ..
    · exact hk ..
  · exact h

end

end Sys2Proof.Machine
end

