-- ==== Sys2Proof/Proofs/InvariantStep.lean ====
section
/-!
SUPPORT. Sys2Proof/Proofs/InvariantStep.lean: O4: the case split on the command over the operations, and the step.
-/
namespace Sys2Proof.Machine

theorem Tai.zero_wf : (⟨0, 0, 0⟩ : Tai).wf := by simp [Tai.wf]

/-- A command answers a next state, and the invariant holds of it where it held before. -/
theorem exec_inv {s : State} (h : s.Inv) (i : Instr) : ∃ t, exec i s = .next t ∧ t.Inv := by
  cases i with
  | registerWrite => exact ⟨_, rfl, (h.send ..).ite (h.csrWrite ..)⟩
  | counterReadClear => exact ⟨_, rfl, (h.send ..).ite (h.csrRead ..)⟩
  | timingPllLock =>
    refine ⟨_, rfl, ?_⟩
    split
    · exact h
    · extract_lets u z _ v
      have hu : u.Inv := h.set ..
      have hv : v.Inv := ⟨hu.mem, Tai.zero_wf, Tai.zero_wf⟩
      exact hu.ite ((hv.clr ..).clr ..)
  | incNsWrite => exact ⟨_, rfl, h.incWrite ..⟩
  | incrementCommit => exact ⟨_, rfl, h.incCommit ..⟩
  | tbuStepRequest => exact ⟨_, rfl, h.stepGo ..⟩
  | tbuSetRequest => exact ⟨_, rfl, h.stepGo ..⟩
  | stepApply => exact ⟨_, rfl, (h.stepApply ..).ite h⟩
  | setApply => exact ⟨_, rfl, (h.setApply ..).ite h⟩
  | jumpLimitWrite => exact ⟨_, rfl, h.put ..⟩
  | tbuSwitchRequest => exact ⟨_, rfl, h.switchGo ..⟩
  | switchPoint => exact ⟨_, rfl, h.switchPoint⟩
  | slewComplete =>
    refine ⟨_, rfl, .ite (State.Inv.slewShow ?_) h⟩
    exact h.setTbu h.timeA h.timeB
  | snapshotRequest => exact ⟨_, rfl, h.setTbu h.timeA h.timeB⟩
  | snapshotCapture => exact ⟨_, rfl, h.snapTake.ite h⟩
  | refclkLoss => exact ⟨_, rfl, (h.putAll ..).setTbu h.timeA h.timeB⟩
  | refclkFreqCheck ppm =>
    refine ⟨_, rfl, ?_⟩
    have hu := h.put F.TBU_REF_STATUS_FREQ_DEV ppm.toNat 0 0
    refine State.Inv.ite ?_ hu
    exact (hu.putAll ..).setTbu h.timeA h.timeB
  | refclkRelock => exact ⟨_, rfl, (h.putAll ..).setTbu h.timeA h.timeB⟩
  | ppsInEdge =>
    refine ⟨_, rfl, ?_⟩
    extract_lets
    split
    · exact h
    · split
      · split
        · exact h.count ..
        · refine State.Inv.ppsStamp ?_ ..
          exact h.setTbu h.timeA h.timeB
      · refine State.Inv.ppsStamp ?_ ..
        exact h.setTbu h.timeA h.timeB
  | ppsInTimeout =>
    refine ⟨_, rfl, ?_⟩
    split
    · exact h
    · split
      · exact h.set ..
      · exact h.set ..
      · exact h.set ..
  | ppsOutEdge =>
    refine ⟨_, rfl, ?_⟩
    extract_lets
    split
    · exact h
    · split
      · exact h.send ..
      · dsimp only
        exact h.freshNat.send ..
  | timelineEnable => exact ⟨_, rfl, (h.putAll ..).tlEnable ..⟩
  | timelineDisable => exact ⟨_, rfl, (h.putAll ..).tlDisable ..⟩
  | tddUpdate => exact ⟨_, rfl, (h.putAll ..).tddUpdate ..⟩
  | tddUpdateApply => exact ⟨_, rfl, h.tddApply ..⟩
  | aftSlotBoundary => exact ⟨_, rfl, h.slotBoundary ..⟩
  | whsArm => exact ⟨_, rfl, (h.put ..).whsArm ..⟩
  | whsDisarm => exact ⟨_, rfl, (h.put ..).whsDisarm ..⟩
  | whsEnable => exact ⟨_, rfl, h.whsEnable ..⟩
  | whistleSpill => exact ⟨_, rfl, h.whsSpill ..⟩
  | mark => exact ⟨_, rfl, h.whsFire _ _ fun _ _ _ _ h => h⟩
  | create =>
    refine ⟨_, rfl, h.whsFire _ _ fun _ _ _ _ h => State.Inv.gdxSettle ?_⟩
    exact ((h.whsCycle.dueCancels ..).create ..).ite (h.whsCycle.dueCancels ..)
  | cancel => exact ⟨_, rfl, h.whsFire _ _ fun _ _ _ _ h => (h.whsCycle.cancel ..).gdxSettle⟩
  | refill => exact ⟨_, rfl, h.whsFire _ _ fun _ _ _ _ h => (h.whsCycle.refill ..).gdxSettle⟩
  | convStart => exact ⟨_, rfl, h.whsFire _ _ fun _ _ _ _ h => h.convFire ..⟩
  | convCtrl => exact ⟨_, rfl, h.whsFire _ _ fun _ _ _ _ h => h.convFire ..⟩
  | quietExitForConv => exact ⟨_, rfl, (h.upCpl ..).ite h⟩
  | gapOpen => exact ⟨_, rfl, h.whsFire _ _ fun _ _ _ _ h => h.foldl (fun _ _ h => h.gapOpen ..) _⟩
  | gapClose => exact ⟨_, rfl, h.whsFire _ _ fun _ _ _ _ h => h.foldl (fun _ _ h => h.gapClose ..) _⟩
  | calTx => exact ⟨_, rfl, h.whsCal ..⟩
  | calRx => exact ⟨_, rfl, h.whsCal ..⟩
  | corrSwap => exact ⟨_, rfl, h.whsFire _ _ fun _ _ _ _ h => h.whsCycle.setTl ..⟩
  | power => exact ⟨_, rfl, h.whsFire _ _ fun _ _ _ _ h => h.pwrRequest ..⟩
  | pinArm => exact ⟨_, rfl, h.ite (h.pinArm ..)⟩
  | pinFire => exact ⟨_, rfl, h.pinFire ..⟩
  | pinPulseEnd => exact ⟨_, rfl, h.pinEnd ..⟩
  | outputShort =>
    refine ⟨_, rfl, ?_⟩
    split
    · split
      · exact (((h.pinDrive ..).clr ..).pinBit ..).report ..
      · exact h
    · exact ((h.clr ..).report ..).ite h
    · exact ((h.clr ..).report ..).ite h
    · extract_lets
      split
      · refine State.Inv.report ?_ ..
        exact h.of_eq rfl rfl
      · exact h
  | instCmdCreate => exact ⟨_, rfl, (h.putAll ..).instCreate ..⟩
  | instCmdCancel => exact ⟨_, rfl, (((h.putAll ..).gdxCycle).cancel ..).gdxSettle⟩
  | templateInstall => exact ⟨_, rfl, (h.put ..).install ..⟩
  | templateRemove => exact ⟨_, rfl, (h.putAll ..).tplRemove ..⟩
  | templateBlock => exact ⟨_, rfl, (h.putAll ..).tplBlock ..⟩
  | templateUnblock => exact ⟨_, rfl, (h.putAll ..).tplBlock ..⟩
  | tokenArrival =>
    refine ⟨_, rfl, ?_⟩
    split
    · exact h
    · extract_lets _ _ s₁ s₂
      have h₁ : s₁.Inv := h.setGdx ..
      have h₂ : s₂.Inv := (h₁.lateToken ..).ite h₁.gdxCycle
      exact ((h₂.tokenStale ..).ite (h₂.tokenAt ..)).gdxSettle
  | streamItemTake =>
    refine ⟨_, rfl, ?_⟩
    extract_lets _ s₁
    have h₁ : s₁.Inv := h.ite h.gdxCycle
    refine State.Inv.gdxSettle ?_
    split
    · exact h₁.takeQueue ..
    · exact h₁.takeRing ..
  | nodeDispatch => exact ⟨_, rfl, (h.gdxCycle.dispatch ..).gdxShow⟩
  | completionReport => exact ⟨_, rfl, (h.gdxCycle.complete ..).gdxSettle⟩
  | releaseBufferEntryFree =>
    refine ⟨_, rfl, ?_⟩
    split
    · exact h
    · split
      · exact ((((((h.count ..).gdxCycle).setExec ..).setNode ..).setGdx ..).gdxSettle).ite h
      · exact h
  | ringSinkSpace => exact ⟨_, rfl, ((((h.count ..).gdxCycle).foldl (fun _ _ h => h.upNode ..) _).gdxSettle).ite h⟩
  | telemetryCopy => exact ⟨_, rfl, h.telemCopy⟩
  | gdxSnapHold => exact ⟨_, rfl, h.snapHold ..⟩
  | reserveWrite => exact ⟨_, rfl, h.setReserve ..⟩
  | bundleIssue => exact ⟨_, rfl, h.bundleIssue ..⟩
  | mxcLockGrant =>
    refine ⟨_, rfl, ?_⟩
    split
    · exact h.mxGrant ..
    · exact h
  | mxcOpExecute =>
    refine ⟨_, rfl, ?_⟩
    split
    · exact ((h.mxUnlock ..).ite ((h.mxSwitch ..).mxExec ..)).vscFinish ..
    · exact h
  | mxcFault =>
    refine ⟨_, rfl, ?_⟩
    split
    · exact h
    · exact h.mxFault ..
  | mxcServiceWrite => exact ⟨_, rfl, h.mxService ..⟩
  | mxcRemovalComplete => exact ⟨_, rfl, ((h.clr ..).setMx ..).ite h⟩
  | icacheFill =>
    refine ⟨_, rfl, ?_⟩
    split
    · exact h
    · split
      · exact h
      · exact (h.runEnd ..).ite ((h.icacheAdd ..).icacheAdd ..)
  | icacheInv => exact ⟨_, rfl, h.ite (h.setIcache ..)⟩
  | runWatchdog => exact ⟨_, rfl, h.runEnd ..⟩
  | vscHardwareFault =>
    refine ⟨_, rfl, ?_⟩
    split
    · exact h.runEnd ..
    · exact h.runEnd ..
    · exact h.runEnd ..
    · exact h.runEnd ..
    · exact h.runEnd ..
    · exact h.runEnd ..
  | lddDecode => exact ⟨_, rfl, h.engJob ..⟩
  | cenLdpc => exact ⟨_, rfl, h.engJob ..⟩
  | cenPolar => exact ⟨_, rfl, h.engJob ..⟩
  | cenTurbo => exact ⟨_, rfl, h.engJob ..⟩
  | trdDecode => exact ⟨_, rfl, h.engJob ..⟩
  | pldDecodeUl => exact ⟨_, rfl, h.engJob ..⟩
  | pldDecodeDl => exact ⟨_, rfl, h.engJob ..⟩
  | fxeRx => exact ⟨_, rfl, h.engJob ..⟩
  | fxeTx => exact ⟨_, rfl, h.engJob ..⟩
  | fxeTpdft => exact ⟨_, rfl, h.engJob ..⟩
  | fxeTpidft => exact ⟨_, rfl, h.engJob ..⟩
  | mdeDetect => exact ⟨_, rfl, h.engJob ..⟩
  | mdeMmse => exact ⟨_, rfl, h.engJob ..⟩
  | mdeMmseIrc => exact ⟨_, rfl, h.engJob ..⟩
  | mdeCalEst => exact ⟨_, rfl, h.engJob ..⟩
  | mdeDemap => exact ⟨_, rfl, h.engJob ..⟩
  | bwaPrecode => exact ⟨_, rfl, h.engJob ..⟩
  | bwaCombine => exact ⟨_, rfl, h.engJob ..⟩
  | prdDetect => exact ⟨_, rfl, h.engJob ..⟩
  | hceCombine => exact ⟨_, rfl, h.engJob ..⟩
  | hceStore => exact ⟨_, rfl, h.engJob ..⟩
  | engineWatchdog => exact ⟨_, rfl, h.engStop ..⟩
  | engineHardwareFault =>
    refine ⟨_, rfl, ?_⟩
    split
    · exact (h.engStop ..).ite h
    · exact h.engStop ..
    · exact h.engStop ..
    · exact h.engStop ..
    · exact h.engStop ..
    · exact h.engStop ..
  | engineMapPhysWrite => exact ⟨_, rfl, (h.engMapWrite ..).ite h⟩
  | engineMapApply => exact ⟨_, rfl, (h.engMapApply ..).ite h⟩
  | bmvChClaim => exact ⟨_, rfl, h.bmvClaim ..⟩
  | bmvGo => exact ⟨_, rfl, (h.bmvGo ..).ite (h.bmvForeign ..)⟩
  | bmvClear => exact ⟨_, rfl, (h.bmvClear ..).ite (h.bmvForeign ..)⟩
  | bmvStop => exact ⟨_, rfl, (h.bmvStopCmd ..).ite (h.bmvForeign ..)⟩
  | bmvBurstIssue =>
    refine ⟨_, rfl, ?_⟩
    extract_lets _ _ _ s₁
    have h₁ : s₁.Inv := h.setBch ..
    exact h.ite (((h₁.set ..).count ..).ite (((h₁.clr ..).bmvParity ..).ite ((((h₁.rawMove ..).bmvIssue ..).count ..).ite h₁)))
  | bmvBurstComplete =>
    refine ⟨_, rfl, ?_⟩
    split
    · exact h
    · split
      · exact h.bmvBusError ..
      · split
        · exact h.bmvPoison ..
        · exact ((h.bmvDeliver ..).bmvAfter ..).bmvMapTry ..
  | bmvBusError =>
    refine ⟨_, rfl, ?_⟩
    split
    · exact h
    · exact h.bmvBusError ..
  | bmvPoisonResponse =>
    refine ⟨_, rfl, ?_⟩
    split
    · exact h
    · exact h.bmvPoison ..
  | bmvParityError => exact ⟨_, rfl, h.bmvParity ..⟩
  | bmvEngMapWrite => exact ⟨_, rfl, h.bmvMapWrite ..⟩
  | bmvMapApply => exact ⟨_, rfl, h.bmvMapTry ..⟩
  | queueEnable => exact ⟨_, rfl, (h.sqCmd ..).queueEnable ..⟩
  | queueDisable => exact ⟨_, rfl, (h.sqCmd ..).queueDisable ..⟩
  | queueReset => exact ⟨_, rfl, (h.sqCmd ..).queueReset ..⟩
  | itemOffer => exact ⟨_, rfl, h.queueOffer ..⟩
  | itemFree => exact ⟨_, rfl, h.queueFree ..⟩
  | pfcRefresh => exact ⟨_, rfl, (h.pfcSend ..).ite h⟩
  | creditReport =>
    refine ⟨_, rfl, ?_⟩
    split
    · exact h
    · exact h.ite ((h.setQueue ..).send ..)
  | xoffInChange => exact ⟨_, rfl, (((h.put ..).put ..).event ..).ite (h.put ..)⟩
  | xoffInStuck => exact ⟨_, rfl, ((((h.put ..).put ..).report ..).event ..).ite h⟩
  | netGroupApply => exact ⟨_, rfl, h.groupApply ..⟩
  | portEnable => exact ⟨_, rfl, h.netEnable ..⟩
  | autonegComplete => exact ⟨_, rfl, h.autoneg ..⟩
  | linkTrainingComplete => exact ⟨_, rfl, h.trained ..⟩
  | pcsLock => exact ⟨_, rfl, h.pcsLock ..⟩
  | attemptFail => exact ⟨_, rfl, h.attemptFail ..⟩
  | nopartnerRetry => exact ⟨_, rfl, (h.netStart ..).ite h⟩
  | linkFail => exact ⟨_, rfl, h.linkFail ..⟩
  | polaritySearch =>
    refine ⟨_, rfl, ?_⟩
    split
    · exact (h.put ..).ite h
    · exact h
  | adaptationUpdate => exact ⟨_, rfl, h.adapt ..⟩
  | adaptationFreeze => exact ⟨_, rfl, ((h.count ..).ite h).putAll ..⟩
  | netLaneFault => exact ⟨_, rfl, h.netLaneFault ..⟩
  | frameReceive => exact ⟨_, rfl, ((((h.count ..).count ..).count ..).frame ..).ite h⟩
  | pfcPauseExpiry => exact ⟨_, rfl, h.upNet ..⟩
  | txItemSend => exact ⟨_, rfl, h.txItem ..⟩
  | txLateDiscard => exact ⟨_, rfl, h.txLate ..⟩
  | fhReload => exact ⟨_, rfl, h.lutCopy ..⟩
  | macsecSaInstall => exact ⟨_, rfl, (h.upNet ..).ite h⟩
  | prbsCtrlWrite => exact ⟨_, rfl, h.prbsCtrl ..⟩
  | prbsInject => exact ⟨_, rfl, h.prbsInject ..⟩
  | prbsLock => exact ⟨_, rfl, h.prbsLock ..⟩
  | cplPortEnable => exact ⟨_, rfl, h.cplEnable ..⟩
  | clockDetect => exact ⟨_, rfl, h.ite ((h.put ..).ite (h.cplMiswire ..))⟩
  | laneDetect => exact ⟨_, rfl, (h.cplLanes ..).ite h⟩
  | symbolAlignment => exact ⟨_, rfl, (h.put ..).ite h⟩
  | deskew => exact ⟨_, rfl, ((h.put ..).foldl (fun _ _ h => h.putAll ..) _).ite h⟩
  | capabilityExchange => exact ⟨_, rfl, (h.cplAgree ..).ite h⟩
  | trainingPhaseTimeout => exact ⟨_, rfl, (h.cplFail ..).ite h⟩
  | trainingRetry => exact ⟨_, rfl, (h.cplTrain ..).ite h⟩
  | ckActivityLoss => exact ⟨_, rfl, (h.put ..).ite h⟩
  | slip => exact ⟨_, rfl, h.cplSlip ..⟩
  | capSetReceived => exact ⟨_, rfl, (h.cplCap ..).ite h⟩
  | markerReceived => exact ⟨_, rfl, ((h.count ..).ite h).ite (((h.count ..).count ..).ite (((h.count ..).count ..).cplDown ..))⟩
  | sampleMessageReceived => exact ⟨_, rfl, (h.sampleIn ..).ite h⟩
  | sampleSend =>
    refine ⟨_, rfl, ?_⟩
    split
    · exact h.sampleOut ..
    · exact h.rawOut ..
  | sampleLateDiscard => exact ⟨_, rfl, h.sampleLate ..⟩
  | tokenMessageSend => exact ⟨_, rfl, h.tokenOut ..⟩
  | tokenMessageReceived => exact ⟨_, rfl, (((h.ite h.gdxCycle).tokenRecv ..).gdxSettle).ite h⟩
  | tokenAckSend => exact ⟨_, rfl, ((h.setCpl ..).cplSend ..).ite h⟩
  | ackReceived => exact ⟨_, rfl, (h.tokenAck ..).ite h⟩
  | nakReceived => exact ⟨_, rfl, (h.tokenNak ..).ite h⟩
  | timeMessageSend => exact ⟨_, rfl, h.timeOut ..⟩
  | timeMessageReceived => exact ⟨_, rfl, (h.timeIn ..).ite h⟩
  | creditReceived => exact ⟨_, rfl, (h.upCpl ..).ite h⟩
  | gapBeginReceived => exact ⟨_, rfl, (h.gapBegin ..).ite h⟩
  | gapAckReceived => exact ⟨_, rfl, (h.cplProbes ..).ite h⟩
  | gapEndReceived => exact ⟨_, rfl, (h.cplEndGap ..).ite h⟩
  | gapTimeout => exact ⟨_, rfl, h.gapTimeout ..⟩
  | probeReceived => exact ⟨_, rfl, (h.cplSend ..).ite h⟩
  | echoReceived => exact ⟨_, rfl, (h.setCpl ..).ite h⟩
  | quietEnterReceived => exact ⟨_, rfl, ((h.pwrSettle ..).count ..).ite h⟩
  | laneDropReceived => exact ⟨_, rfl, (h.cplDrop ..).ite h⟩
  | drift => exact ⟨_, rfl, (h.putAll ..).ite h⟩
  | laneRetrain => exact ⟨_, rfl, (((h.count ..).upCpl ..).ite (((h.count ..).putAll ..).upCpl ..)).ite h⟩
  | cplLaneFault => exact ⟨_, rfl, h.cplLaneFault ..⟩
  | cplLinkDown => exact ⟨_, rfl, ((h.count ..).cplDown ..).ite h⟩
  | perstNRelease => exact ⟨_, rfl, h.setHost ..⟩
  | flr => exact ⟨_, rfl, h.flr ..⟩
  | pcieHotReset => exact ⟨_, rfl, h.foldl (fun _ _ h => h.flr ..) _⟩
  | claimWaitExpiry => exact ⟨_, rfl, h.claimLost ..⟩
  | csrWindowWrite => exact ⟨_, rfl, (h.csrWrite ..).ite h⟩
  | bar2Access => exact ⟨_, rfl, h.bar2Access ..⟩
  | mbxDoorbell => exact ⟨_, rfl, h.mbxDoorbell ..⟩
  | requestTake => exact ⟨_, rfl, h.takeRequest ..⟩
  | asyncCommandComplete => exact ⟨_, rfl, h.asyncEnd ..⟩
  | openSession => exact ⟨_, rfl, h.open_ ..⟩
  | closeSession => exact ⟨_, rfl, h.close_ ..⟩
  | ping =>
    refine ⟨_, rfl, h.serve _ _ ?_⟩
    dsimp only
    exact h.freshNat.answers
  | partition => exact ⟨_, rfl, h.serve _ _ (h.partition ..)⟩
  | eventRing =>
    refine ⟨_, rfl, ?_⟩
    refine h.serve _ _ ?_
    split
    · exact .inl _
    · exact AnswersInv.ite (.inl _) (AnswersInv.ite (.inl _) ((h.setHost ..).answers))
  | getDevice =>
    refine ⟨_, rfl, ?_⟩
    refine h.serve _ _ ?_
    dsimp only
    exact h.freshNat.freshNat.answers
  | getUnits => exact ⟨_, rfl, h.serve _ _ h.answers⟩
  | getCapacity => exact ⟨_, rfl, h.serve _ _ h.answers⟩
  | configure => exact ⟨_, rfl, h.serve _ _ (h.configureIn ..)⟩
  | getCarrier =>
    refine ⟨_, rfl, ?_⟩
    refine h.serve _ _ ?_
    split
    · exact .inl _
    · exact AnswersInv.ite (.inl _) (h.answers)
  | startCarrier m handle locked delay =>
    refine ⟨_, rfl, h.serve _ _ ?_⟩
    have ht := h.startCar (s.mbxOwner m.toNat) handle locked delay
    split
    · exact .inl _
    next he =>
      rw [he] at ht
      exact ht
  | stopCarrier m handle =>
    refine ⟨_, rfl, h.serve _ _ ?_⟩
    have ht := h.stopCar (s.mbxOwner m.toNat) handle
    split
    · exact .inl _
    next he =>
      rw [he] at ht
      exact ht
  | setPrecedence =>
    refine ⟨_, rfl, ?_⟩
    refine h.serve _ _ ?_
    split
    · exact .inl _
    · exact (h.setCar ..).answers
  | claim => exact ⟨_, rfl, h.serve _ _ (h.claim ..)⟩
  | installGraph => exact ⟨_, rfl, h.serveAsync _ _ h.answers⟩
  | installKernel => exact ⟨_, rfl, h.serveAsync _ _ h.answers⟩
  | templateOp =>
    refine ⟨_, rfl, ?_⟩
    refine h.serve _ _ ?_
    refine AnswersInv.owned _ _ _ ?_
    split
    · exact .inl _
    · split
      · exact (h.tplRemove ..).answers
      · exact (h.tplBlock ..).answers
      · exact (h.tplBlock ..).answers
  | removeKernel => exact ⟨_, rfl, h.serve _ _ (AnswersInv.ite (.inl _) ((h.setExu ..).answers))⟩
  | list => exact ⟨_, rfl, h.serve _ _ h.answers⟩
  | setReserve => exact ⟨_, rfl, h.serve _ _ (AnswersInv.ite (.inl _) ((h.setReserve ..).answers))⟩
  | setReplay => exact ⟨_, rfl, h.serve _ _ (AnswersInv.ite (.inl _) ((h.putAll ..).answers))⟩
  | timeStatus =>
    refine ⟨_, rfl, ?_⟩
    refine h.serve _ _ ?_
    dsimp only
    exact h.timeStatus.answers
  | timeSource => exact ⟨_, rfl, h.serve _ _ (h.bindSource ..).answers⟩
  | jumpLimit => exact ⟨_, rfl, h.serve _ _ (h.put ..).answers⟩
  | switch => exact ⟨_, rfl, h.serveKept _ _ (h.switchGo ..)⟩
  | timeOfDay => exact ⟨_, rfl, h.serve _ _ (h.setHost ..).answers⟩
  | ptpPort =>
    refine ⟨_, rfl, ?_⟩
    refine h.serve _ _ ?_
    exact AnswersInv.ite (.inl _) (AnswersInv.ite (.inl _) (((h.putAll ..).setHost ..).answers))
  | consist => exact ⟨_, rfl, h.serve _ _ h.answers⟩
  | whistleArm => exact ⟨_, rfl, h.serveKept _ _ (h.brildoArm ..)⟩
  | whistleDisarm => exact ⟨_, rfl, h.serve _ _ (AnswersInv.owned _ _ _ ((h.whsDisarm ..).answers))⟩
  | whistleGet => exact ⟨_, rfl, h.serve _ _ (AnswersInv.owned _ _ _ (h.answers))⟩
  | grace => exact ⟨_, rfl, h.serve _ _ (AnswersInv.ite (.inl _) ((h.put ..).answers))⟩
  | pin => exact ⟨_, rfl, h.serve _ _ (((((h.plainWrite ..).plainWrite ..).plainWrite ..).pinCtrl ..).answers)⟩
  | ringCreate =>
    refine ⟨_, rfl, ?_⟩
    refine h.serve _ _ ?_
    refine AnswersInv.owned _ _ _ ?_
    split
    · exact .inl _
    · exact AnswersInv.ite (.inl _) (AnswersInv.ite (.inl _) ((h.ringMake ..).answers))
  | ringDestroy =>
    refine ⟨_, rfl, ?_⟩
    refine h.serve _ _ ?_
    split
    · exact .inl _
    · exact AnswersInv.ite (.inl _) (((h.ringDestroy ..).setHost ..).answers)
  | queueConfig => exact ⟨_, rfl, h.serveKept _ _ (h.brildoQueue ..)⟩
  | queueStatus =>
    refine ⟨_, rfl, ?_⟩
    refine h.serve _ _ ?_
    extract_lets s₁
    have h₁ : s₁.Inv := h.put ..
    refine AnswersInv.owned _ _ _ ?_
    dsimp only
    exact ((((h₁.steolRead ..).steolRead ..).steolRead ..).steolRead ..).answers
  | bufpool =>
    refine ⟨_, rfl, ?_⟩
    exact h.serve _ _ (AnswersInv.ite (.inl _) (AnswersInv.owned _ _ _ ((h.poolWrite ..).answers)))
  | xoffIn => exact ⟨_, rfl, h.serve _ _ ((h.bitTo ..).bitTo ..).answers⟩
  | bar2Window => exact ⟨_, rfl, h.serve _ _ (AnswersInv.ite (.inl _) ((h.setHost ..).answers))⟩
  | couplerPort => exact ⟨_, rfl, h.serve _ _ (AnswersInv.ite (.inl _) ((h.putAll ..).answers))⟩
  | powerPolicy => exact ⟨_, rfl, h.serve _ _ (h.policy ..)⟩
  | powerState =>
    refine ⟨_, rfl, h.serve _ _ ?_⟩
    have hp := h.powerStates
    dsimp only
    generalize s.powerStates = x at hp ⊢
    exact hp
  | tenderRule =>
    refine ⟨_, rfl, h.serve _ _ ?_⟩
    exact ((((h.ruleWrite ..).ruleWrite ..).ruleWrite ..).ruleWrite ..).answers
  | hibernate => exact ⟨_, rfl, h.hibernate ..⟩
  | selftest => exact ⟨_, rfl, h.selfTest ..⟩
  | laneTest => exact ⟨_, rfl, h.serveAsync _ _ (h.laneTest ..)⟩
  | readCsr => exact ⟨_, rfl, h.serve _ _ (AnswersInv.ite (.inl _) (h.answers))⟩
  | writeCsr =>
    refine ⟨_, rfl, ?_⟩
    exact h.serve _ _ (AnswersInv.ite (.inl _) (AnswersInv.ite (.inl _) ((h.csrWrite ..).answers)))
  | telemetry => exact ⟨_, rfl, h.serve _ _ (AnswersInv.outRing _ _ ((h.setHost ..).answers))⟩
  | snapshot =>
    refine ⟨_, rfl, h.serve _ _ ?_⟩
    have hp := h.snapshotRead
    dsimp only
    generalize s.snapshotRead = x at hp ⊢
    exact hp
  | readRecord =>
    refine ⟨_, rfl, ?_⟩
    refine h.serve _ _ ?_
    split
    · exact h.answers
    · exact .inl _
  | writeRecord => exact ⟨_, rfl, h.serveAsync _ _ (h.recordJob ..)⟩
  | faultLog => exact ⟨_, rfl, h.serve _ _ h.answers⟩
  | fwStage =>
    refine ⟨_, rfl, ?_⟩
    exact h.serveAsync _ _ (AnswersInv.ite (.inl _) (AnswersInv.ite (.inl _) (h.answers)))
  | fwStatus => exact ⟨_, rfl, h.serve _ _ h.answers⟩
  | fwSwap => exact ⟨_, rfl, h.serveAsync _ _ (AnswersInv.ite (.inl _) ((h.setFw ..).answers))⟩
  | fwSwapPoint => exact ⟨_, rfl, h.swapPairs.ite h⟩
  | fwCommit => exact ⟨_, rfl, h.serveAsync _ _ (AnswersInv.ite (.inl _) (((h.setFw ..).clr ..).answers))⟩
  | fwAbort => exact ⟨_, rfl, h.serveAsync _ _ (AnswersInv.ite (.inl _) ((h.setFw ..).answers))⟩
  | errRead => exact ⟨_, rfl, h.serve _ _ h.answers⟩
  | errClearFirst => exact ⟨_, rfl, h.serve _ _ (AnswersInv.ite ((h.clearFirst ..).answers) (.inl _))⟩
  | errStream => exact ⟨_, rfl, h.serve _ _ (AnswersInv.outRing _ _ ((h.setHost ..).answers))⟩
  | mbxRingDb => exact ⟨_, rfl, h.ringDb ..⟩
  | ringItemFetch => exact ⟨_, rfl, h.ringFetch ..⟩
  | ringCoalesceTimer => exact ⟨_, rfl, h.ringTimer ..⟩
  | paramRequest => exact ⟨_, rfl, h.fapi _ _ fun _ _ => h⟩
  | configRequest ring remove add =>
    refine ⟨_, rfl, h.fapi _ _ fun f c => ?_⟩
    have ht := h.configure f remove add
    split
    · exact h
    next he =>
      rw [he] at ht
      exact ht
  | startRequest ring locked delay =>
    refine ⟨_, rfl, h.fapi _ _ fun f c => ?_⟩
    have ht := h.startCar f (s.carrierOf f c) locked delay
    split
    · exact h
    next he =>
      rw [he] at ht
      exact ht
  | stopRequest =>
    refine ⟨_, rfl, h.fapi _ _ fun f c => ?_⟩
    have ht := h.stopCar f (s.carrierOf f c)
    split
    · exact h
    next he =>
      rw [he] at ht
      exact ht
  | powerRequest => exact ⟨_, rfl, (h.putAll ..).pwrRequest ..⟩
  | autoDoze => exact ⟨_, rfl, h.autoDoze ..⟩
  | domainDrainComplete => exact ⟨_, rfl, (h.pwrStepEnd ..).ite h⟩
  | entryStepComplete => exact ⟨_, rfl, h.ite (h.hibStepEnd.ite (h.ite (h.pwrStepEnd ..)))⟩
  | wakeComplete => exact ⟨_, rfl, h.ite (h.chipWoken.ite (h.pwrWoken ..))⟩
  | trimChangeComplete => exact ⟨_, rfl, h.ite ((h.pwrEntered ..).ite ((h.pwrWoken ..).ite h))⟩
  | stackWakeOnAccess => exact ⟨_, rfl, (h.memWait ..).ite h⟩
  | chipWake => exact ⟨_, rfl, h.chipWake ..⟩
  | wakeFail => exact ⟨_, rfl, h.chipWakeFail⟩
  | brownout => exact ⟨_, rfl, h.brownout⟩
  | tenderRuleSample => exact ⟨_, rfl, h.ruleSample ..⟩
  | sensorSample => exact ⟨_, rfl, h.sample ..⟩
  | tripSupplyOff => exact ⟨_, rfl, h.tripOff⟩
  | tripRestart => exact ⟨_, rfl, h.tripRestart⟩
  | warnResponse => exact ⟨_, rfl, h.warnResponse⟩
  | throttleResponse => exact ⟨_, rfl, h.throttleResponse⟩
  | throttleShedTimer => exact ⟨_, rfl, h.throttleShed⟩
  | throttleRestore => exact ⟨_, rfl, h.throttleRestore⟩
  | thmLimitWrite => exact ⟨_, rfl, h.limitWrite ..⟩
  | unitFaultHandle => exact ⟨_, rfl, h.unitFault ..⟩
  | rotationStep => exact ⟨_, rfl, h.rotStep ..⟩
  | rotationMapSwap => exact ⟨_, rfl, h.rotSwap ..⟩
  | benchSelfTest => exact ⟨_, rfl, h.testEnd ..⟩
  | stewardFailover => exact ⟨_, rfl, h.failover⟩
  | standbyReady => exact ⟨_, rfl, h.standby ..⟩
  | degradedDeclare => exact ⟨_, rfl, h.degrade ..⟩
  | carrierRestore => exact ⟨_, rfl, h.restoreOne⟩
  | errorReport => exact ⟨_, rfl, h.report ..⟩
  | eccErqPushGo => exact ⟨_, rfl, h.report ..⟩
  | erqRdWrite => exact ⟨_, rfl, h.erqAdvance ..⟩
  | errorRecordRead => exact ⟨_, rfl, h.erqRead ..⟩
  | memoryRead =>
    refine ⟨_, rfl, ?_⟩
    split
    · exact h.send ..
    · exact (h.memWait ..).ite (((h.upset ..).hbmCount ..).memRead ..)
  | fullWordWrite =>
    refine ⟨_, rfl, ?_⟩
    split
    · exact h.send ..
    · exact h.send ..
    · exact (((h.memWait ..).priority ..).ite ((h.hbmCount ..).writeFull ..)).ite h
  | partialWrite =>
    refine ⟨_, rfl, ?_⟩
    split
    · exact h.send ..
    · exact h.send ..
    · exact (((h.memWait ..).priority ..).ite (((h.upset ..).hbmCount ..).writePart ..)).ite h
  | granuleReady => exact ⟨_, rfl, h.granuleReady ..⟩
  | rcsProgram => exact ⟨_, rfl, h.rcsGo⟩
  | rcsProgramComplete => exact ⟨_, rfl, h.rcsDone ..⟩
  | coldStart => exact ⟨_, rfl, h.coldBoot ..⟩
  | bootImageVerify => exact ⟨_, rfl, h.imageVerify ..⟩
  | hbmTrainingComplete => exact ⟨_, rfl, h.hbmTrain ..⟩
  | steolReady => exact ⟨_, rfl, h.steolReady ..⟩
  | warmReset => exact ⟨_, rfl, h.warmRun ..⟩
  | resetNRelease => exact ⟨_, rfl, h.resetHigh ..⟩
  | rstCtrlWarm => exact ⟨_, rfl, (h.warmAsk ..).ite h⟩
  | rstDomain => exact ⟨_, rfl, (h.put ..).rstDomain ..⟩
  | bootWatchdogExpiry => exact ⟨_, rfl, h.wdogExpire⟩
  | wdogKick => exact ⟨_, rfl, (h.setBoot ..).ite h⟩
  | wdogStop => exact ⟨_, rfl, h.setBoot ..⟩
  | dbgReq => exact ⟨_, rfl, h.dbgReq ..⟩
  | dbgGo => exact ⟨_, rfl, h.dbgGo ..⟩
  | dbgLock => exact ⟨_, rfl, h.dbgLock⟩
  | railInBand => exact ⟨_, rfl, h.railUp ..⟩
  | railTimeout => exact ⟨_, rfl, h.railLate⟩
  | powerFault => exact ⟨_, rfl, h.powerFault ..⟩
  | avsbusWrite => exact ⟨_, rfl, h.avsWrite ..⟩
  | smbusStatus => exact ⟨_, rfl, h.smbus ..⟩
  | tempMax => exact ⟨_, rfl, h.smbus ..⟩
  | tempTender => exact ⟨_, rfl, h.smbus ..⟩
  | rail => exact ⟨_, rfl, h.smbus ..⟩
  | alertRules => exact ⟨_, rfl, h.smbus ..⟩
  | state => exact ⟨_, rfl, h.smbus ..⟩
  | smbusTimeout => exact ⟨_, rfl, (h.send ..).ite h⟩
  | sclMapWrite => exact ⟨_, rfl, h.sclMapWrite ..⟩
  | sclMapApply => exact ⟨_, rfl, h.sclMapApply ..⟩
  | sclLendWrite => exact ⟨_, rfl, h.lendWrite ..⟩
  | sclLendApply => exact ⟨_, rfl, h.lendApply ..⟩
  | timingClockTick => exact ⟨_, rfl, h.tick.ite h⟩
  | vddAonRemoval => exact ⟨_, rfl, h.aonOff⟩
  | resetNAssert => exact ⟨_, rfl, h.resetLow⟩
  | returnOfSignal => exact ⟨_, rfl, ((((h.pwrSettle ..).count ..).foldl (fun _ _ h => h.put ..) _).pwrResume ..).ite h⟩

theorem step_inv {s t : State} (h : s.Inv) (hs : step s = .next t) : t.Inv := by
  unfold step at hs
  split at hs
  · cases hs
    exact h
  next i is _ =>
    have hi : State.Inv { s with pending := is } := h.of_eq rfl rfl
    obtain ⟨u, hu, hinv⟩ := exec_inv hi i
    cases hu.symm.trans hs
    exact hinv

/-- Settles O4: `exec_inv`, the case split on the command, over the lemmas about the operations above. -/
theorem everyStepKeepsTheInvariant : Obligations.EveryStepKeepsTheInvariant :=
  fun _ _ h hs => step_inv h hs

end Sys2Proof.Machine
end

