-- ==== Sys2Proof/Proofs/TimeServices.lean ====
section
/-!
SUPPORT. Sys2Proof/Proofs/TimeServices.lean: a reply that memory out of canonical form does not give back (O47).
-/
namespace Sys2Proof.Machine

/-- A request of TIME_OF_DAY that mailbox 0 executes. -/
def strayReq : Req := ⟨0x0405, 0, false, 3, 0, false⟩

/-- A state whose memory is not in canonical form: a byte of the reply area of mailbox 0 is listed behind a higher address. -/
def strayState : State := State.put { State.reset with
    mem := [(2 ^ 32, 1), (replyArea 0 + 12, 7)]
    host := { State.reset.host with mbx := [(0, ⟨some strayReq, none, some (3, 0)⟩)] } } F.MBX_STATUS_STATE 2 0 0

/-- The same state after the command is served. -/
def strayServed : State := strayState.serve 0 0x0405 fun _ s => .inr ([], s.setHost { s.host with tod := some (0, 0) })

/-- The reply that the command stores. -/
def strayReply : Reply := ⟨0, 0x0405, 3, 0, 0, 0, 0, 0, [], natLe 1 0 ++ natLe 1 3 ++ natLe 2 0x0405 ++ natLe 4 0 ++ natLe 4 0 ++ natLe 4 0⟩

theorem strayServed_last : (strayServed.mbx 0).last = some strayReply := by decide

theorem strayServed_bytes : strayServed.bytes (replyArea 0) strayReply.bytes.length ≠ strayReply.bytes := by decide

theorem strayState_serving : strayState.Serving 0 0x0405 strayReq := ⟨by decide, rfl⟩

/-- Refutes O47: the statement does not ask for a memory in canonical form. In `strayState`, whose memory lists a byte of the reply area
out of order, the zero bytes that the reply to TIME_OF_DAY writes do not read back, where `Replied` says that the reply lies there. -/
theorem not_timeWhistlesAndPinsAreServed : ¬ Obligations.TimeWhistlesAndPinsAreServed := by
  unfold Obligations.TimeWhistlesAndPinsAreServed
  intro h
  obtain ⟨-, -, -, -, htod, -⟩ := h 0#8 strayReq strayState
  obtain ⟨t, ht, ⟨y, -, hlast, -, -, -, -, -, -, hbytes, -⟩, -⟩ := htod 0#48 0 strayState_serving
  have hs : t = strayServed := (Host.Outcome.next.inj ht).symm
  subst hs
  have hy : some strayReply = some y := strayServed_last.symm.trans (hlast (by decide))
  cases hy
  exact strayServed_bytes hbytes

end Sys2Proof.Machine
end

