-- ==== Sys2Proof/Proofs/Timelines.lean ====
section
/-!
SUPPORT. Sys2Proof/Proofs/Timelines.lean: what timelines and schedules are judged by, and the timelines' own commands: enable and disable
(R80 to R82), TDD patterns (R83) and slot boundaries (R84), and from these O13 and O14.
-/
namespace Sys2Proof.Machine

/-! ### What timelines and schedules are judged by -/

/-- The registers that the judging of timelines, slots and schedules reads. -/
def airRegs : List Reg :=
  [.AFT_TL_TABLE_BASE, .AFT_TDD_TABLE_BASE, .AFT_STREAM_TABLE_BASE, .TBU_CTRL, .TBU_D_STATUS, .WHS_GRACE, .WHS_TABLE_BASE]

/-- Timelines and schedules are judged alike in both states. -/
structure SameAir (s t : State) : Prop where
  mem : t.mem = s.mem
  tbu : t.tbu = s.tbu
  tls : t.aft.tls = s.aft.tls
  regs : ∀ f : Fld, f.reg ∈ airRegs → ∀ i j, t.get f i j = s.get f i j

theorem OnlyRegs.sameAir {s t : State} {rs : List Reg} (h : OnlyRegs s t) (hr : RegsBut s t rs) (hd : ∀ r ∈ airRegs, r ∉ rs) :
    SameAir s t where
  mem := h.regsGdx.mem
  tbu := h.regsGdx.tbu
  tls := by rw [h.regsGdx.aft]
  regs := fun f hf i j => hr.get f (hd _ hf) i j

section
variable {s t : State} (h : SameAir s t)
include h

theorem SameAir.word (a : Nat) : t.word a = s.word a := by rw [State.word, State.word, h.mem]

theorem SameAir.words (a n : Nat) : t.words a n = s.words a n := by
  induction n generalizing a with
  | zero => rfl
  | succ n ih => rw [State.words, State.words, ih, h.word]

theorem SameAir.tl (u : Nat) : t.tl u = s.tl u := by rw [State.tl, State.tl, h.tls]

theorem SameAir.tlOn (u : Nat) : t.tlOn u = s.tlOn u := by rw [State.tlOn, State.tlOn, h.tl]

theorem SameAir.tlWords (u : Nat) : t.tlWords u = s.tlWords u := by
  rw [State.tlWords, State.tlWords, h.words, h.regs _ (by decide)]

theorem SameAir.flag (f : Fld) (hf : f.reg ∈ airRegs) (i j : Nat) : t.flag f i j = s.flag f i j := by
  rw [State.flag, State.flag, h.regs f hf]

theorem SameAir.active : t.active = s.active := State.active_congr (h.regs _ (by decide) _ _)

theorem SameAir.qActive : t.qActive = s.qActive := by
  simp only [State.qActive, State.activeUnits, h.active, h.tbu]

theorem SameAir.coordNow (x : Timeline) : t.coordNow x = s.coordNow x := by rw [State.coordNow, State.coordNow, h.qActive]

theorem SameAir.tddTable (i : Nat) : t.tddTable i = s.tddTable i := by
  rw [State.tddTable, State.tddTable, h.word, h.regs _ (by decide)]

theorem SameAir.codeBad (n : Numerology) (ptr len : Nat) : t.codeBad n ptr len = s.codeBad n ptr len := by
  simp only [State.codeBad, h.tddTable]

theorem SameAir.enableCause (u : Nat) (e : TlEntry) : t.enableCause u e = s.enableCause u e := by
  simp only [State.enableCause, h.tlOn, h.codeBad, h.active, h.flag F.TBU_D_STATUS_TIME_VALID (by decide)]

end

/-! ### Timelines in their table -/

theorem Tab.mem_of_find {κ α : Type} [DecidableEq κ] {m : Tab κ α} {k : κ} {v : α} (h : Tab.find m k = some v) : (k, v) ∈ m := by
  obtain ⟨l, r, hm, -⟩ := Tab.find_split h
  simp [hm]

theorem Tab.find_erase_ne {κ α : Type} [DecidableEq κ] (m : Tab κ α) {k k' : κ} (h : k' ≠ k) :
    Tab.find (Tab.erase m k) k' = Tab.find m k' := by
  induction m with
  | nil => rfl
  | cons p m ih =>
    obtain ⟨k₀, v⟩ := p
    by_cases hk : k₀ = k
    · subst hk
      simpa [Tab.erase, Tab.find, Ne.symm h] using ih
    · by_cases hk' : k₀ = k'
      · subst hk'
        simp [Tab.erase, Tab.find, h]
      · simpa [Tab.erase, Tab.find, hk, hk'] using ih

section
variable (s : State) (u : Nat) (x : Timeline)

theorem State.setTl_tl : (s.setTl u x).tl u = some x := Tab.find_set_self _ _ _

theorem State.setTl_tl_ne {v : Nat} (h : v ≠ u) : (s.setTl u x).tl v = s.tl v := Tab.find_set_ne _ h _

end

/-- What the AFT reads at the start of a slot of timeline x (R83, R84). -/
def State.latchOf (s : State) (x : Timeline) (slot : Int) : SlotLatch :=
  ⟨slot, s.tddTable ((x.pattern slot).1 + (slot % (max 1 (x.pattern slot).2 : Nat)).toNat),
    (List.range x.ent.streamCount).map (fun k =>
      signed 24 (s.word (sramBase + s.get F.AFT_STREAM_TABLE_BASE_BASE + 4 * (x.ent.streamBase + k))))⟩

theorem State.latchSlot_eq (s : State) (u : Nat) (x : Timeline) (slot : Int) :
    s.latchSlot u x slot = s.setTl u { x with slot := some (s.latchOf x slot) } := rfl

theorem State.latchOf_delay (s : State) (x : Timeline) (slot : Int) {k : Nat} (hk : k < x.ent.streamCount) :
    (s.latchOf x slot).delays[k]? =
      some (signed 24 (s.word (sramBase + s.get F.AFT_STREAM_TABLE_BASE_BASE + 4 * (x.ent.streamBase + k)))) := by
  simp [State.latchOf, hk]

theorem State.latchOf_word (s : State) {x : Timeline} (slot : Int) (h : x.pend = none) :
    (s.latchOf x slot).word = s.tddTable (x.ent.tddPtr + (slot % (max 1 x.ent.patLen : Nat)).toNat) := by
  simp only [State.latchOf, Timeline.pattern, h]

/-! ### The bits of AFT_TL_EN -/

theorem Nat.testBit_sub_two_pow_self (w k : Nat) : (w - if w.testBit k then 2 ^ k else 0).testBit k = false := by
  by_cases h : w.testBit k = true
  · rw [if_pos h]
    rw [Nat.testBit_eq_decide_div_mod_eq, decide_eq_true_eq] at h
    have hd : (w - 2 ^ k) / 2 ^ k = w / 2 ^ k - 1 := by simpa using Nat.sub_mul_div w (2 ^ k) 1
    rw [Nat.testBit_eq_decide_div_mod_eq, hd, decide_eq_false_iff_not]
    omega
  · rw [if_neg h]
    simpa using h

theorem State.tlEnShow_bit (s : State) (u : Nat) (on : Bool) :
    ((s.tlEnShow u on).get F.AFT_TL_EN_EN 0 (u / 32)).testBit (u % 32) = on := by
  have hu : u % 32 < 32 := Nat.mod_lt _ (by decide)
  rw [State.tlEnShow, State.get_put_self _ _ _ _ _ (by decide), Nat.testBit_mod_two_pow, decide_eq_true hu, Bool.true_and]
  cases on with
  | true => simp
  | false => exact Nat.testBit_sub_two_pow_self _ _

/-! ### A command in AFT_TL_CMD, and its refusal -/

/-- A timeline command stands in AFT_TL_CMD. -/
def State.tlAsked (s : State) (u op : Nat) : State := s.putAll 0 0 [(F.AFT_TL_CMD_TL, u), (F.AFT_TL_CMD_OP, op)]

section
variable (s : State) (u op : Nat)

theorem State.tlAsked_onlyRegs : OnlyRegs s (s.tlAsked u op) := (OnlyRegs.refl s).putAll _ _ _

theorem State.tlAsked_regsBut : RegsBut s (s.tlAsked u op) [.AFT_TL_CMD] := (RegsBut.refl s _).putAll _ _ _ (by simp)

theorem State.tlAsked_sameAir : SameAir s (s.tlAsked u op) := (s.tlAsked_onlyRegs u op).sameAir (s.tlAsked_regsBut u op) (by decide)

/-- A refusal shows its cause, and nothing but the registers of the command and of its status differs. -/
theorem State.tlAsked_refuse {c : Nat} (hc : c < 8) :
    ((s.tlAsked u op).tlRefuse c).get F.AFT_STATUS_CMD_REFUSED = 1 ∧ ((s.tlAsked u op).tlRefuse c).get F.AFT_STATUS_CAUSE = c ∧
    RegsBut s ((s.tlAsked u op).tlRefuse c) [.AFT_TL_CMD, .AFT_STATUS] ∧ OnlyRegs s ((s.tlAsked u op).tlRefuse c) := by
  have h := (s.tlAsked u op).get_putAll_each (l := [(F.AFT_STATUS_CMD_REFUSED, 1), (F.AFT_STATUS_CAUSE, c)]) 0 0
    (by simp) (by simp [Fld.Apart])
  have hr : RegsBut s (s.tlAsked u op) [.AFT_TL_CMD, .AFT_STATUS] := (s.tlAsked_regsBut u op).mono (by decide)
  have ho := s.tlAsked_onlyRegs u op
  generalize s.tlAsked u op = v at h hr ho ⊢
  exact ⟨h (F.AFT_STATUS_CMD_REFUSED, 1) List.mem_cons_self,
    (h (F.AFT_STATUS_CAUSE, c) (List.mem_cons_of_mem _ List.mem_cons_self)).trans (Nat.mod_eq_of_lt hc),
    hr.putAll _ _ _ (by simp), ho.putAll _ _ _⟩

end

/-! ### TIMELINE_ENABLE (R81) -/

section
variable {s : State} {tl : BitVec 8}

/-- The dispatcher without its notes of the slots created on a timeline (R118). -/
def Gdx.forget (g : Gdx) (u : Nat) : Gdx :=
  { g with newest := g.newest.filter (fun y => y.1.2 ≠ u), made := g.made.filter (fun y => y.2.1 ≠ u) }

/-- Timeline u is enabled as x, before its first slot is read. -/
def State.tlEnabled (s : State) (u : Nat) (x : Timeline) : State :=
  ((s.setTl u x).tlEnShow u true).setGdx (Gdx.forget s.gdx u)

/-- A timeline as TIMELINE_ENABLE makes it. -/
def TlEntry.fresh (e : TlEntry) : Timeline := ⟨e, none, 0, none⟩

theorem State.tlEnable_of_ok {u : Nat} (h : s.enableCause u (tlEntry (s.tlWords u)) = 0) :
    s.tlEnable u = (s.tlEnabled u (tlEntry (s.tlWords u)).fresh).latchSlot u (tlEntry (s.tlWords u)).fresh
      ((s.tlEnabled u (tlEntry (s.tlWords u)).fresh).coordNow (tlEntry (s.tlWords u)).fresh).slot :=
  if_neg (not_not_intro h)

theorem State.tlEnable_of_cause {u c : Nat} (h : s.enableCause u (tlEntry (s.tlWords u)) = c) (hc : c ≠ 0) :
    s.tlEnable u = s.tlRefuse c := by
  subst h
  exact if_pos hc

theorem timelineEnable_enables (h : s.enableCause tl.toNat (tlEntry (s.tlWords tl.toNat)) = 0) :
    Completes (.timelineEnable tl) s (fun t =>
      (∃ x, t.tl tl.toNat = some x ∧ x.ent = tlEntry (s.tlWords tl.toNat) ∧ x.pend = none ∧ x.curBank = 0) ∧
      (t.get F.AFT_TL_EN_EN 0 (tl.toNat / 32)).testBit (tl.toNat % 32) = true ∧
      (∀ u, u ≠ tl.toNat → t.tl u = s.tl u) ∧ RegsBut s t [.AFT_TL_CMD, .AFT_TL_EN] ∧ SameMem s t) := by
  have ha := s.tlAsked_sameAir tl.toNat 0
  have hr := s.tlAsked_regsBut tl.toNat 0
  refine ⟨(s.tlAsked tl.toNat 0).tlEnable tl.toNat, rfl, ?_⟩
  rw [State.tlEnable_of_ok (by rw [ha.tlWords, ha.enableCause, h]), ha.tlWords, State.latchSlot_eq]
  generalize s.tlAsked tl.toNat 0 = u at ha hr
  refine ⟨⟨_, State.setTl_tl _ _ _, rfl, rfl, rfl⟩, State.tlEnShow_bit _ _ _, fun v hv => ?_, ?_, SameMem.of_mem ha.mem⟩
  · exact (State.setTl_tl_ne _ _ _ hv).trans ((State.setTl_tl_ne _ _ _ hv).trans (ha.tl v))
  · exact ((hr.mono (by decide)).of_eq rfl |>.put F.AFT_TL_EN_EN _ _ _ (by decide)).of_eq rfl

theorem timelineEnable_refused {c : Nat} (h : s.enableCause tl.toNat (tlEntry (s.tlWords tl.toNat)) = c) (hc : c ≠ 0) (hc' : c < 8) :
    Completes (.timelineEnable tl) s (fun t => t.aft = s.aft ∧ t.get F.AFT_STATUS_CMD_REFUSED = 1 ∧ t.get F.AFT_STATUS_CAUSE = c ∧
      RegsBut s t [.AFT_TL_CMD, .AFT_STATUS] ∧ t = { s with regs := t.regs }) := by
  have ha := s.tlAsked_sameAir tl.toNat 0
  obtain ⟨h₁, h₂, h₃, h₄⟩ := s.tlAsked_refuse tl.toNat 0 hc'
  refine ⟨(s.tlAsked tl.toNat 0).tlEnable tl.toNat, rfl, ?_⟩
  rw [State.tlEnable_of_cause (by rw [ha.tlWords, ha.enableCause, h]) hc]
  exact ⟨h₄.regsGdx.aft, h₁, h₂, h₃, h₄⟩

end

section
variable {s : State} {u : Nat} {e : TlEntry}

theorem State.enableCause_of_on (h : s.tlOn u = true) : s.enableCause u e = 7 := if_pos h

section
variable (h : s.tlOn u = false)
include h

theorem State.enableCause_of_no_row (hn : numerology e.std e.mu e.ecp e.nb3k75 = none) : s.enableCause u e = 1 := by
  simp only [State.enableCause, h, Bool.false_eq_true, if_false, hn]

theorem State.enableCause_of_far (hn : (numerology e.std e.mu e.ecp e.nb3k75).isSome = true)
    (ho : e.offset < -160000000 ∨ 160000000 < e.offset) : s.enableCause u e = 2 := by
  obtain ⟨n, hn⟩ := Option.isSome_iff_exists.1 hn
  simp only [State.enableCause, h, Bool.false_eq_true, if_false, hn]
  exact if_pos ho

/-- Without TDD, with an offset and streams within their ranges, the validity of the active time decides (R81). -/
theorem State.enableCause_of_sound (hn : (numerology e.std e.mu e.ecp e.nb3k75).isSome = true) (ho : -160000000 ≤ e.offset)
    (ho' : e.offset ≤ 160000000) (htdd : e.tddEn = false) (hc : e.streamCount ≤ 512) (hb : e.streamBase + e.streamCount ≤ 4096) :
    s.enableCause u e = if s.flag F.TBU_D_STATUS_TIME_VALID 0 (domIdx s.active) = true then 0 else 6 := by
  obtain ⟨n, hn⟩ := Option.isSome_iff_exists.1 hn
  have hoff : ¬ (e.offset < -maxOffset ∨ maxOffset < e.offset) := by
    simp only [maxOffset]
    omega
  have hs : ¬ (512 < e.streamCount ∨ 4096 < e.streamBase + e.streamCount) := by omega
  simp only [State.enableCause, h, hn, htdd, if_neg hoff, if_neg hs, Bool.false_eq_true, false_and, if_false, ite_not]

end
end

/-! ### TIMELINE_DISABLE (R82) -/

/-- A channel that is disarmed (R88). -/
def WhsCh.disarmed (x : WhsCh) : WhsCh := { x with armed := false }

/-- A pin that is disarmed: a pulse ends at its width, and otherwise the pin parks (R96). -/
def WhsPinSt.disarmed (x : WhsPinSt) : WhsPinSt :=
  { x with armed := false, due := none, drive := if x.drive = .active then .active else .hiz }

section
variable (s : State)

theorem State.whsDisarm_whs (c d : Nat) : (s.whsDisarm c).whs d = if d = c then (s.whs d).map WhsCh.disarmed else s.whs d := by
  unfold State.whsDisarm
  by_cases h : d = c
  · subst h
    cases hx : s.whs d with
    | none => simp [hx]
    | some x =>
      rw [if_pos rfl]
      exact s.setWhs_whs d _
  · rw [if_neg h]
    cases hx : s.whs c with
    | none => rfl
    | some x => exact s.setWhs_whs_ne c _ h

variable {s} in
theorem State.pinDisarm_of_none {c : Nat} (hx : s.pin c = none) : s.pinDisarm c = s.clr F.WHS_PIN_CTRL_EN 0 c := by
  have hx' : (s.clr F.WHS_PIN_CTRL_EN 0 c).pin c = none := hx
  simp only [State.pinDisarm, hx']

variable {s} in
/-- A disarm of a pin clears its enable and stores it disarmed; it may send what the pin drives. -/
theorem State.pinDisarm_of_some {c : Nat} {x : WhsPinSt} (hx : s.pin c = some x) :
    ∃ o, s.pinDisarm c = { (s.clr F.WHS_PIN_CTRL_EN 0 c).setPin c x.disarmed with out := o } := by
  have hx' : (s.clr F.WHS_PIN_CTRL_EN 0 c).pin c = some x := hx
  by_cases ha : x.drive = .active
  · exact ⟨s.out, by simp only [State.pinDisarm, hx', ha, if_true, WhsPinSt.disarmed]; rfl⟩
  · exact ⟨s.out ++ [.pin c .hiz], by simp only [State.pinDisarm, hx', ha, if_false, WhsPinSt.disarmed]; rfl⟩

theorem State.pinDisarm_pin (c d : Nat) : (s.pinDisarm c).pin d = if d = c then (s.pin d).map WhsPinSt.disarmed else s.pin d := by
  cases hx : s.pin c with
  | none =>
    rw [State.pinDisarm_of_none hx]
    by_cases h : d = c
    · rw [if_pos h, h, hx]
      exact hx
    · rw [if_neg h]
      rfl
  | some x =>
    obtain ⟨o, ho⟩ := State.pinDisarm_of_some hx
    rw [ho]
    by_cases h : d = c
    · rw [if_pos h, h, hx]
      exact Tab.find_set_self _ _ _
    · rw [if_neg h]
      exact Tab.find_set_ne _ h _

/-- A disarm of a channel leaves the timelines and the pins. -/
theorem State.whsDisarm_rest (c : Nat) : (s.whsDisarm c).aft.tls = s.aft.tls ∧ (s.whsDisarm c).pin = s.pin := by
  unfold State.whsDisarm
  split
  · exact ⟨rfl, rfl⟩
  · exact ⟨rfl, rfl⟩

/-- A disarm of a pin leaves the timelines and the channels. -/
theorem State.pinDisarm_rest (c : Nat) : (s.pinDisarm c).aft.tls = s.aft.tls ∧ (s.pinDisarm c).whs = s.whs := by
  cases hx : s.pin c with
  | none =>
    rw [State.pinDisarm_of_none hx]
    exact ⟨rfl, rfl⟩
  | some x =>
    obtain ⟨o, ho⟩ := State.pinDisarm_of_some hx
    rw [ho]
    exact ⟨rfl, rfl⟩

end

/-- Disarm the channels, and then the pins, that stand armed in the tables at the start and are bound to timeline u (R82). -/
def State.whistlesOff (s : State) (u : Nat) : State :=
  (((s.aft.channels.filter (fun x => x.2.sched.tl = u && x.2.armed)).foldl (fun s x => s.whsDisarm x.1) s).aft.pins.filter
    (fun x => x.2.sched.tl = u && x.2.armed)).foldl (fun s x => s.pinDisarm x.1)
    ((s.aft.channels.filter (fun x => x.2.sched.tl = u && x.2.armed)).foldl (fun s x => s.whsDisarm x.1) s)

section
variable {α β : Type} (s : State) (l : List (Nat × α))

theorem State.foldl_whsDisarm_rest : (l.foldl (fun s x => s.whsDisarm x.1) s).aft.tls = s.aft.tls ∧
    (l.foldl (fun s x => s.whsDisarm x.1) s).pin = s.pin := by
  induction l generalizing s with
  | nil => exact ⟨rfl, rfl⟩
  | cons x l ih => exact ⟨(ih _).1.trans (s.whsDisarm_rest _).1, (ih _).2.trans (s.whsDisarm_rest _).2⟩

theorem State.foldl_pinDisarm_rest : (l.foldl (fun s x => s.pinDisarm x.1) s).aft.tls = s.aft.tls ∧
    (l.foldl (fun s x => s.pinDisarm x.1) s).whs = s.whs := by
  induction l generalizing s with
  | nil => exact ⟨rfl, rfl⟩
  | cons x l ih => exact ⟨(ih _).1.trans (s.pinDisarm_rest _).1, (ih _).2.trans (s.pinDisarm_rest _).2⟩

/-- Changing the entries of a list of keys one after another, with a change that does not add up, changes each of them once. -/
theorem foldl_changes {f : State → Nat → State} {read : State → Nat → Option β} {g : β → β} (hg : ∀ x, g (g x) = g x)
    (hf : ∀ s c d, read (f s c) d = if d = c then (read s d).map g else read s d) (d : Nat) :
    read (l.foldl (fun s x => f s x.1) s) d = if d ∈ l.map (·.1) then (read s d).map g else read s d := by
  induction l generalizing s with
  | nil => rfl
  | cons x l ih =>
    have hgg : g ∘ g = g := funext hg
    rw [List.foldl_cons, ih, hf]
    by_cases hd : d = x.1
    · simp [hd, hgg]
    · rw [if_neg hd]
      simp only [List.map_cons, List.mem_cons, hd, false_or]

end

section
variable (s : State) (u : Nat)

theorem State.whistlesOff_tls : (s.whistlesOff u).aft.tls = s.aft.tls :=
  (State.foldl_pinDisarm_rest _ _).1.trans (State.foldl_whsDisarm_rest _ _).1

/-- No channel that is bound to the timeline stays armed. -/
theorem State.whistlesOff_whs {c : Nat} {x : WhsCh} (h : (s.whistlesOff u).whs c = some x) (ht : x.sched.tl = u) : x.armed = false := by
  rw [State.whistlesOff, (State.foldl_pinDisarm_rest _ _).2,
    foldl_changes (g := WhsCh.disarmed) s _ (fun _ => rfl) State.whsDisarm_whs c] at h
  split at h
  · obtain ⟨y, -, rfl⟩ := Option.map_eq_some_iff.1 h
    rfl
  next hn =>
    by_contra ha
    exact hn (List.mem_map.2 ⟨(c, x), List.mem_filter.2 ⟨Tab.mem_of_find h, by simp [ht, ha]⟩, rfl⟩)

theorem WhsPinSt.disarmed_disarmed (x : WhsPinSt) : x.disarmed.disarmed = x.disarmed := by
  by_cases h : x.drive = .active <;> simp [WhsPinSt.disarmed, h]

/-- No pin that is bound to the timeline stays armed. -/
theorem State.whistlesOff_pin {n : Nat} {x : WhsPinSt} (h : (s.whistlesOff u).pin n = some x) (ht : x.sched.tl = u) : x.armed = false := by
  rw [State.whistlesOff, foldl_changes (g := WhsPinSt.disarmed) _ _ WhsPinSt.disarmed_disarmed State.pinDisarm_pin n] at h
  split at h
  · obtain ⟨y, -, rfl⟩ := Option.map_eq_some_iff.1 h
    rfl
  next hn =>
    by_contra ha
    exact hn (List.mem_map.2 ⟨(n, x), List.mem_filter.2 ⟨Tab.mem_of_find h, by simp [ht, ha]⟩, rfl⟩)

/-- A SlotInst of timeline u is an orphan (R82). -/
def orphanOn (u : Nat) (p : Nat × SlotInst) : Nat × SlotInst := if p.2.tl = u then (p.1, { p.2 with orphan := true }) else p

theorem orphan_of_find {m : Tab Nat SlotInst} {i : Nat} {x : SlotInst} (h : Tab.find (m.map (orphanOn u)) i = some x) (ht : x.tl = u) :
    x.orphan = true := by
  obtain ⟨p, -, hp⟩ := List.mem_map.1 (Tab.mem_of_find h)
  unfold orphanOn at hp
  split at hp
  · rw [← (Prod.mk.inj hp).2]
  next hn => exact absurd (by rw [hp]; exact ht) hn

/-- The timeline is gone, and its bit is clear. -/
def State.tlGone (s : State) (u : Nat) : State := (s.setAft { s.aft with tls := Tab.erase s.aft.tls u }).tlEnShow u false

theorem State.tlDisable_of_on (h : s.tlOn u = true) :
    s.tlDisable u = (((s.whistlesOff u).tlGone u).setGdx { ((s.whistlesOff u).tlGone u).gdx with
      insts := ((s.whistlesOff u).tlGone u).gdx.insts.map (orphanOn u) }).tddShow :=
  if_neg (not_not_intro h)

theorem State.tlDisable_of_off (h : s.tlOn u = false) : s.tlDisable u = s.tlRefuse 7 := if_pos (by simp [h])

end

section
variable {s : State} {tl : BitVec 8}

theorem timelineDisable_disables (h : s.tlOn tl.toNat = true) :
    Completes (.timelineDisable tl) s (fun t => t.tl tl.toNat = none ∧ (∀ u, u ≠ tl.toNat → t.tl u = s.tl u) ∧
      (∀ ch x, t.whs ch = some x → x.sched.tl = tl.toNat → x.armed = false) ∧
      (∀ n x, t.pin n = some x → x.sched.tl = tl.toNat → x.armed = false) ∧
      (∀ i x, t.inst i = some x → x.tl = tl.toNat → x.orphan = true) ∧
      (t.get F.AFT_TL_EN_EN 0 (tl.toNat / 32)).testBit (tl.toNat % 32) = false) := by
  have ha := s.tlAsked_sameAir tl.toNat 1
  refine ⟨(s.tlAsked tl.toNat 1).tlDisable tl.toNat, rfl, ?_⟩
  rw [State.tlDisable_of_on _ _ (by rw [ha.tlOn, h])]
  generalize s.tlAsked tl.toNat 1 = v at ha
  refine ⟨Tab.find_erase_self _ _, fun u hu => ?_, fun _ _ => v.whistlesOff_whs _, fun _ _ => v.whistlesOff_pin _,
    fun _ _ => orphan_of_find _, ?_⟩
  · exact (Tab.find_erase_ne _ hu).trans ((congrArg (Tab.find · u) (v.whistlesOff_tls tl.toNat)).trans (ha.tl u))
  · rw [State.tddShow, State.setTo, State.get_put_key _ _ _ _ _ _ _ _ (by simp)]
    exact State.tlEnShow_bit _ _ _

theorem timelineDisable_refused (h : s.tlOn tl.toNat = false) :
    Completes (.timelineDisable tl) s (fun t => t.get F.AFT_STATUS_CMD_REFUSED = 1 ∧ t.get F.AFT_STATUS_CAUSE = 7 ∧
      RegsBut s t [.AFT_TL_CMD, .AFT_STATUS] ∧ t = { s with regs := t.regs }) := by
  refine ⟨(s.tlAsked tl.toNat 1).tlDisable tl.toNat, rfl, ?_⟩
  rw [State.tlDisable_of_off _ _ (by rw [(s.tlAsked_sameAir tl.toNat 1).tlOn, h])]
  exact s.tlAsked_refuse tl.toNat 1 (by decide)

end

/-- Settles O13: the cause of an enable is found check by check, and a disable disarms what stands armed in the tables. -/
theorem timelinesEnableDisableOrRefuse : Obligations.TimelinesEnableDisableOrRefuse := by
  unfold Obligations.TimelinesEnableDisableOrRefuse
  refine ⟨fun tl s hoff hn ho ho' htdd hc hb hv => timelineEnable_enables ?_, fun tl s c hcase => ?_,
    fun _ _ => timelineDisable_disables, fun _ _ => timelineDisable_refused⟩
  · rw [State.enableCause_of_sound hoff hn ho ho' htdd hc hb, if_pos hv]
  · rcases hcase with ⟨rfl, hon⟩ | ⟨hoff, ⟨rfl, hn⟩ | ⟨hn, ⟨rfl, ho⟩ | ⟨rfl, ho, ho', htdd, hc, hb, hv⟩⟩⟩
    · exact timelineEnable_refused (State.enableCause_of_on hon) (by decide) (by decide)
    · exact timelineEnable_refused (State.enableCause_of_no_row hoff hn) (by decide) (by decide)
    · exact timelineEnable_refused (State.enableCause_of_far hoff hn ho) (by decide) (by decide)
    · exact timelineEnable_refused ((State.enableCause_of_sound hoff hn ho ho' htdd hc hb).trans (if_neg (by simp [hv])))
        (by decide) (by decide)

/-! ### TDD patterns (R83) and slot boundaries (R84) -/

theorem numerology_slots_pos {std mu : Nat} {ecp nb : Bool} {n : Numerology} (h : numerology std mu ecp nb = some n) : 0 < n.slots := by
  unfold numerology at h
  split at h
  · split at h
    · cases h
    · split at h <;> cases h <;> decide
  · split at h
    · cases h
    · split at h
      · split at h <;> cases h
        decide
      · split at h
        · split at h <;> cases h
          decide
        · cases h
          decide

theorem TlEntry.num_slots_pos (e : TlEntry) : 0 < e.num.slots := by
  unfold TlEntry.num
  cases h : numerology e.std e.mu e.ecp e.nb3k75 with
  | none => decide
  | some n => exact numerology_slots_pos h

/-- The first slot of the next even-numbered frame lies ahead, by no more than two frames. -/
theorem Timeline.nextEven_spec (x : Timeline) (slot : Int) :
    slot < x.nextEven slot ∧ x.nextEven slot ≤ slot + 2 * x.ent.num.slots ∧ x.nextEven slot % (2 * x.ent.num.slots) = 0 := by
  have hp : (0 : Int) < 2 * x.ent.num.slots := by have := x.ent.num_slots_pos; omega
  unfold Timeline.nextEven
  generalize (2 * x.ent.num.slots : Int) = m at hp ⊢
  have h₁ := Int.emod_add_mul_ediv slot m
  have h₂ := Int.emod_nonneg slot hp.ne'
  have h₃ := Int.emod_lt_of_pos slot hp
  rw [Int.add_mul, Int.one_mul, Int.mul_comm]
  exact ⟨by omega, by omega, by simp⟩

section
variable {s : State} {u : Nat} {x : Timeline}

theorem State.tddUpdate_of_ok {ptr len : Nat} (hx : s.tl u = some x) (hl : x.ent.num.lenBad len = false)
    (hc : s.codeBad x.ent.num ptr len = false) :
    s.tddUpdate u ptr len = (s.setTl u { x with pend := some (x.nextEven (s.coordNow x).slot, ptr, len) }).tddShow := by
  simp only [State.tddUpdate, hx, hl, hc, Bool.false_eq_true, if_false]

theorem State.tddUpdate_of_bad_length {ptr len : Nat} (hx : s.tl u = some x) (hl : x.ent.num.lenBad len = true) :
    s.tddUpdate u ptr len = s.tlRefuse 3 := by
  simp only [State.tddUpdate, hx, hl, if_true]

theorem State.tddApply_of_due {b : Int} {p l : Nat} (hx : s.tl u = some x) (hp : x.pend = some (b, p, l)) (hb : b ≤ (s.coordNow x).slot) :
    s.tddApply u = (s.setTl u { x with ent := { x.ent with tddPtr := p, patLen := l }, pend := none }).tddShow := by
  simp only [State.tddApply, hx, hp, if_pos hb]

theorem State.slotBoundary_of_new (hx : s.tl u = some x) (hn : x.slot.map (·.slot) ≠ some (s.coordNow x).slot) :
    s.slotBoundary u = s.latchSlot u x (s.coordNow x).slot := by
  simp only [State.slotBoundary, hx, if_neg hn]

/-- An update that waits shows in TDD_PENDING. -/
theorem State.tddShow_shows {b : Int × Nat × Nat} (hx : s.tl u = some x) (hp : x.pend = some b) :
    s.tddShow.get F.AFT_STATUS_TDD_PENDING = 1 := by
  have hany : s.aft.tls.any (fun y => y.2.pend.isSome) = true := List.any_eq_true.2 ⟨(u, x), Tab.mem_of_find hx, by simp [hp]⟩
  rw [State.tddShow, State.setTo, hany]
  exact State.get_put_self _ _ _ _ _ (by decide)

theorem State.tddShow_fields (s : State) : FieldsBut s s.tddShow [(F.AFT_STATUS_TDD_PENDING, 0, 0)] := FieldsBut.put_self _ _ _ _ _

end

section
variable {s : State} {tl : BitVec 8} {x : Timeline} (hx : s.tl tl.toNat = some x)
include hx

theorem tddUpdate_waits (hl : x.ent.num.lenBad (s.get F.AFT_TL_CMD_ARG_PATTERN_LEN) = false)
    (hc : s.codeBad x.ent.num (s.get F.AFT_TL_CMD_ARG_TDD_PTR) (s.get F.AFT_TL_CMD_ARG_PATTERN_LEN) = false) :
    Completes (.tddUpdate tl) s (fun t =>
      (∃ b, t.tl tl.toNat = some { x with pend := some (b, s.get F.AFT_TL_CMD_ARG_TDD_PTR, s.get F.AFT_TL_CMD_ARG_PATTERN_LEN) } ∧
        (s.coordNow x).slot < b ∧ b ≤ (s.coordNow x).slot + 2 * x.ent.num.slots ∧ b % (2 * x.ent.num.slots) = 0) ∧
      t.get F.AFT_STATUS_TDD_PENDING = 1 ∧ RegsBut s t [.AFT_TL_CMD, .AFT_STATUS] ∧ t = { s with regs := t.regs, aft := t.aft }) := by
  have ha := s.tlAsked_sameAir tl.toNat 2
  have hr := s.tlAsked_regsBut tl.toNat 2
  have ho := s.tlAsked_onlyRegs tl.toNat 2
  refine ⟨(s.tlAsked tl.toNat 2).tddUpdate tl.toNat _ _, rfl, ?_⟩
  rw [State.tddUpdate_of_ok ((ha.tl _).trans hx) hl ((ha.codeBad _ _ _).trans hc), ha.coordNow]
  generalize s.tlAsked tl.toNat 2 = u at ha hr ho
  have htl := u.setTl_tl tl.toNat
    { x with pend := some (x.nextEven (s.coordNow x).slot, s.get F.AFT_TL_CMD_ARG_TDD_PTR, s.get F.AFT_TL_CMD_ARG_PATTERN_LEN) }
  refine ⟨⟨_, htl, x.nextEven_spec _⟩, State.tddShow_shows htl rfl, ((hr.mono (by decide)).of_eq rfl).put _ _ _ _ (by decide), ?_⟩
  unfold OnlyRegs at ho
  rw [ho]
  rfl

theorem tddUpdate_refused (hl : x.ent.num.lenBad (s.get F.AFT_TL_CMD_ARG_PATTERN_LEN) = true) :
    Completes (.tddUpdate tl) s (fun t =>
      t.get F.AFT_STATUS_CMD_REFUSED = 1 ∧ t.get F.AFT_STATUS_CAUSE = 3 ∧ t = { s with regs := t.regs }) := by
  obtain ⟨h₁, h₂, -, h₄⟩ := s.tlAsked_refuse tl.toNat 2 (c := 3) (by decide)
  refine ⟨(s.tlAsked tl.toNat 2).tddUpdate tl.toNat _ _, rfl, ?_⟩
  rw [State.tddUpdate_of_bad_length (((s.tlAsked_sameAir tl.toNat 2).tl _).trans hx) hl]
  exact ⟨h₁, h₂, h₄⟩

theorem tddUpdateApply_replaces {b : Int} {p l : Nat} (hp : x.pend = some (b, p, l)) (hb : b ≤ (s.coordNow x).slot) :
    Completes (.tddUpdateApply tl) s (fun t =>
      t.tl tl.toNat = some { x with ent := { x.ent with tddPtr := p, patLen := l }, pend := none } ∧
      (∀ u, u ≠ tl.toNat → t.tl u = s.tl u) ∧ FieldsBut s t [(F.AFT_STATUS_TDD_PENDING, 0, 0)] ∧
      t = { s with regs := t.regs, aft := t.aft }) := by
  refine ⟨s.tddApply tl.toNat, rfl, ?_⟩
  rw [State.tddApply_of_due hx hp hb]
  exact ⟨State.setTl_tl _ _ _, fun u hu => State.setTl_tl_ne _ _ _ hu, (FieldsBut.of_regs _ rfl).trans (State.tddShow_fields _), rfl⟩

theorem aftSlotBoundary_latches (hn : x.slot.map (·.slot) ≠ some (s.coordNow x).slot) :
    Completes (.aftSlotBoundary tl) s (fun t =>
      (∃ y, t.tl tl.toNat = some { x with slot := some y } ∧ y.slot = (s.coordNow x).slot ∧ y.delays.length = x.ent.streamCount ∧
        (x.pend = none → y.word = s.tddTable (x.ent.tddPtr + ((s.coordNow x).slot % (max 1 x.ent.patLen : Nat)).toNat)) ∧
        ∀ k, k < x.ent.streamCount → y.delays[k]? =
          some (signed 24 (s.word (sramBase + s.get F.AFT_STREAM_TABLE_BASE_BASE + 4 * (x.ent.streamBase + k))))) ∧
      (∀ u, u ≠ tl.toNat → t.tl u = s.tl u) ∧ t = { s with aft := t.aft }) := by
  refine ⟨s.slotBoundary tl.toNat, rfl, ?_⟩
  rw [State.slotBoundary_of_new hx hn, State.latchSlot_eq]
  exact ⟨⟨_, State.setTl_tl _ _ _, rfl, by simp [State.latchOf], s.latchOf_word _, fun _ => s.latchOf_delay x _⟩,
    fun u hu => State.setTl_tl_ne _ _ _ hu, rfl⟩

end

/-- Settles O14: an accepted pattern waits for the next even frame, and what is read at a slot boundary is the latch of that slot. -/
theorem tddPatternsAndSlotBoundaries : Obligations.TddPatternsAndSlotBoundaries := by
  unfold Obligations.TddPatternsAndSlotBoundaries
  exact ⟨fun _ _ _ hx => tddUpdate_waits hx, fun _ _ _ hx => tddUpdate_refused hx, fun _ _ _ _ _ _ hx => tddUpdateApply_replaces hx,
    fun _ _ _ hx => aftSlotBoundary_latches hx⟩

end Sys2Proof.Machine
end

