-- ==== Sys2Proof/Proofs/WhistleArms.lean ====
section
/-!
SUPPORT. Sys2Proof/Proofs/WhistleArms.lean: arming, disarming and judging of whistle channels (R88, R89, R92, R573), and from these O15.
-/
namespace Sys2Proof.Machine

/-! ### Schedules are judged alike in the same air -/

section
variable {s t : State} (h : SameAir s t)
include h

theorem SameAir.whsAddr (ch : Nat) : t.whsAddr ch = s.whsAddr ch := by rw [State.whsAddr, State.whsAddr, h.regs _ (by decide)]

theorem SameAir.slotWordOf (x : Timeline) (slot : Int) : t.slotWordOf x slot = s.slotWordOf x slot := by
  simp only [State.slotWordOf, h.tddTable]

theorem SameAir.symType (x : Timeline) (slot : Int) : t.symType x slot = s.symType x slot :=
  funext fun i => by rw [State.symType, State.symType, h.slotWordOf]

theorem SameAir.slotMatches (x : Timeline) (filter : Nat) (slot : Int) : t.slotMatches x filter slot = s.slotMatches x filter slot := by
  simp only [State.slotMatches, State.slotType, h.symType]

theorem SameAir.occs (x : Sched) (e : Timeline) (c : Int) : t.occs x e c = s.occs x e c := by
  simp only [State.occs, h.slotMatches]

theorem SameAir.grace (e : Timeline) (q : Int) : t.grace e q = s.grace e q := by
  simp only [State.grace, h.regs F.WHS_GRACE_GRACE_NS (by decide)]

theorem SameAir.judgeSched (x : Sched) (e : Timeline) (last : Option Int) : t.judgeSched x e last = s.judgeSched x e last := by
  simp only [State.judgeSched, h.qActive, h.occs, h.grace]

theorem SameAir.schedCause (u w : Nat) (p : Bool) (unit count : Nat) : t.schedCause u w p unit count = s.schedCause u w p unit count := by
  rw [State.schedCause, State.schedCause, h.tl]

end

/-! ### The table entry of a channel (R85) -/

/-- Word i of a channel's table entry. -/
def State.whsWord (s : State) (ch i : Nat) : Nat := s.word (s.whsAddr ch + 4 * i)

theorem State.words_getD (s : State) (a : Nat) {n i : Nat} (h : i < n) : (s.words a n).getD i 0 = s.word (a + 4 * i) := by
  induction n generalizing a i with
  | zero => omega
  | succ n ih =>
    cases i with
    | zero => rfl
    | succ i =>
      rw [State.words, List.getD_cons_succ, ih (a + 4) (by omega)]
      exact congrArg s.word (by omega)

/-- The action, timeline and PERIODIC bit of word 0, and unit and count of the period in word 3 (Table 3-3). -/
def State.armAction (s : State) (ch : Nat) : Nat := natBits (s.whsWord ch 0) 2 5

def State.armTl (s : State) (ch : Nat) : Nat := natBits (s.whsWord ch 0) 8 8

def State.armPeriodic (s : State) (ch : Nat) : Bool := (s.whsWord ch 0).testBit 1

def State.armUnit (s : State) (ch : Nat) : Nat := natBits (s.whsWord ch 3) 16 2

def State.armCount (s : State) (ch : Nat) : Nat := natBits (s.whsWord ch 3) 0 16

/-- The cause for which the arm of a channel is refused before its calibration windows are checked, 0 for none (R89). -/
def State.armCause (s : State) (ch : Nat) : Nat :=
  if 12 ≤ s.armAction ch then 1 else s.schedCause (s.armTl ch) (s.whsWord ch 1) (s.armPeriodic ch) (s.armUnit ch) (s.armCount ch)

/-- The channel that an accepted arm of a channel with no earlier one makes, for timeline x. -/
def State.armEntry (s : State) (ch : Nat) (x : Timeline) : WhsCh :=
  ⟨true, s.armAction ch, s.whsWord ch 4, s.whsWord ch 5,
    s.makeSched x (s.armTl ch) (s.whsWord ch 1) (s.armPeriodic ch) (s.armUnit ch) (s.armCount ch) (signed 32 (s.whsWord ch 2)) 0
      (natBits (s.whsWord ch 0) 16 3), none, none, false⟩

/-- A channel is stored anew: its flags and its count of firings are 0. -/
def State.whsStored (s : State) (ch : Nat) (y : WhsCh) : State :=
  ((s.setWord (s.whsAddr ch + 24) 0).setWord (s.whsAddr ch + 28) 0).setWhs ch y

section
variable {s : State} {ch : Nat}

theorem State.whsStored_whs (y : WhsCh) : (s.whsStored ch y).whs ch = some y := State.setWhs_whs _ _ _

theorem State.whsStored_memBut (y : WhsCh) : MemBut s (s.whsStored ch y) (s.whsAddr ch) 32 :=
  (((MemBut.setWord s (s.whsAddr ch + 24) 0).mono (Nat.le_add_right _ 24) (by omega)).trans
    ((MemBut.setWord _ (s.whsAddr ch + 28) 0).mono (Nat.le_add_right _ 28) (by omega))).trans
    ((State.setWhs_memBut _ ch y).mono (Nat.le_refl _) (Nat.add_le_add_left (by decide) _))

theorem State.whsArm_of_cause {c : Nat} (h : s.armCause ch = c) (hc : c ≠ 0) : s.whsArm ch = (s.armRefuse c).whsDisarm ch := by
  subst h
  simp only [State.armCause, State.armAction, State.armTl, State.armPeriodic, State.armUnit, State.armCount, State.whsWord] at hc ⊢
  simp only [State.whsArm, s.words_getD _ (show 0 < 6 by decide), s.words_getD _ (show 1 < 6 by decide),
    s.words_getD _ (show 3 < 6 by decide)]
  split
  next ht => simp only [State.schedCause, ht]
  next x ht => exact if_pos hc

theorem State.whsArm_of_fresh {x : Timeline} (h : s.armCause ch = 0) (ht : s.tl (s.armTl ch) = some x) (h8 : s.armAction ch ≠ 8)
    (h9 : s.armAction ch ≠ 9) (hn : s.whs ch = none) :
    s.whsArm ch = if (s.whsStored ch (s.armEntry ch x)).flag F.WHS_CTRL_EN then (s.whsStored ch (s.armEntry ch x)).whsJudge ch
      else s.whsStored ch (s.armEntry ch x) := by
  simp only [State.armCause, State.armAction, State.armTl, State.armPeriodic, State.armUnit, State.armCount, State.whsWord] at h ht h8 h9
  have h89 : ¬ (natBits (s.word (s.whsAddr ch + 4 * 0)) 2 5 = 8 ∨ natBits (s.word (s.whsAddr ch + 4 * 0)) 2 5 = 9) := by
    simp only [h8, h9, or_self, not_false_eq_true]
  simp only [State.whsArm, s.words_getD _ (show 0 < 6 by decide), s.words_getD _ (show 1 < 6 by decide),
    s.words_getD _ (show 2 < 6 by decide), s.words_getD _ (show 3 < 6 by decide), s.words_getD _ (show 4 < 6 by decide),
    s.words_getD _ (show 5 < 6 by decide), ht, hn, h89, false_and, if_false]
  exact (if_neg (not_not_intro h)).trans rfl

theorem State.whsDisarm_regs (s : State) (c : Nat) : (s.whsDisarm c).regs = s.regs := by
  unfold State.whsDisarm
  split <;> rfl

theorem State.whsDisarm_memBut (s : State) (c : Nat) : MemBut s (s.whsDisarm c) (s.whsAddr c) 4 := by
  unfold State.whsDisarm
  split
  · exact s.setWhs_memBut _ _
  · exact fun _ _ => rfl

end

theorem MemBut.of_mem {s t : State} (h : t.mem = s.mem) (a n : Nat) : MemBut s t a n := fun _ _ => by rw [h]

/-! ### The causes of a refused arm (R89) -/

/-- A refused arm shows its cause in WHS_STATUS. -/
theorem State.armRefuse_shows (s : State) {c : Nat} (hc : c < 8) :
    (s.armRefuse c).get F.WHS_STATUS_ARM_REFUSED = 1 ∧ (s.armRefuse c).get F.WHS_STATUS_CAUSE = c ∧
    RegsBut s (s.armRefuse c) [.WHS_STATUS] ∧ OnlyRegs s (s.armRefuse c) := by
  have h := s.get_putAll_each (l := [(F.WHS_STATUS_ARM_REFUSED, 1), (F.WHS_STATUS_CAUSE, c)]) 0 0 (by simp) (by simp [Fld.Apart])
  exact ⟨h (F.WHS_STATUS_ARM_REFUSED, 1) List.mem_cons_self,
    (h (F.WHS_STATUS_CAUSE, c) (List.mem_cons_of_mem _ List.mem_cons_self)).trans (Nat.mod_eq_of_lt hc),
    (RegsBut.refl s _).putAll _ _ _ (by simp), (OnlyRegs.refl s).putAll _ _ _⟩

section
variable {s : State} {ch : Nat} {x : Timeline}

theorem State.armCause_of_action (h : 12 ≤ s.armAction ch) : s.armCause ch = 1 := if_pos h

section
variable (ha : s.armAction ch < 12)
include ha

theorem State.armCause_of_no_timeline (ht : s.tl (s.armTl ch) = none) : s.armCause ch = 2 := by
  simp only [State.armCause, if_neg (Nat.not_le.2 ha), State.schedCause, ht]

theorem State.armCause_of_coord (ht : s.tl (s.armTl ch) = some x) (hc : x.coordOk (s.whsWord ch 1) = false) : s.armCause ch = 3 := by
  simp only [State.armCause, if_neg (Nat.not_le.2 ha), State.schedCause, ht, hc, Bool.false_eq_true, not_false_eq_true, if_true]

/-- On an enabled timeline that has the coordinate, the period decides. -/
theorem State.armCause_of_timeline (ht : s.tl (s.armTl ch) = some x) (hc : x.coordOk (s.whsWord ch 1) = true) :
    s.armCause ch = if s.armPeriodic ch = true ∧ (s.armCount ch = 0 ∨ s.armUnit ch = 3) then 4 else 0 := by
  simp only [State.armCause, if_neg (Nat.not_le.2 ha), State.schedCause, ht, hc, not_true_eq_false, if_false]

end
end

/-! ### Judging (R92, R93) -/

section
variable (s : State)

theorem State.judgeSched_tl (x : Sched) (t : Timeline) (last : Option Int) : (s.judgeSched x t last).rest.tl = x.tl := by
  have hskip : ∀ k, (x.skip k).tl = x.tl := fun k => by unfold Sched.skip; split <;> rfl
  simp only [State.judgeSched]
  split
  · split
    · exact hskip _
    · rfl
  · split <;> dsimp only <;> split <;> rfl

theorem State.cancelMissed_aft (x : WhsCh) (t : Timeline) (c : Int) : (s.cancelMissed x t c).aft = s.aft := by
  unfold State.cancelMissed State.upInst
  repeat' split
  all_goals rfl

theorem State.foldl_cancelMissed_aft (x : WhsCh) (t : Timeline) (l : List Int) :
    (l.foldl (fun s c => s.cancelMissed x t c) s).aft = s.aft := by
  induction l generalizing s with
  | nil => rfl
  | cons c l ih => exact (ih _).trans (s.cancelMissed_aft x t c)

theorem State.whsMissed_aft (ch n : Nat) : (s.whsMissed ch n).aft = s.aft := by
  unfold State.whsMissed
  extract_lets w
  split <;> rfl

/-- A channel after its judging at a tick. -/
def WhsCh.judged (x : WhsCh) (j : Judged) (tick : Nat) : WhsCh :=
  { x with
    armed := decide (¬ (x.sched.period = 0 ∧ (j.fire.isSome ∨ j.missed ≠ [])))
    sched := j.rest
    last := j.last
    due := match j.fire with
      | some c => some (c, tick)
      | none => x.due }

/-- The state with a judged channel, before its missed occurrences are counted. -/
def State.whsDecided (s : State) (ch : Nat) (x : WhsCh) (j : Judged) : State :=
  if j.fire.isSome then (s.setWhs ch (x.judged j s.tbu.ticks)).whsLate ch else s.setWhs ch (x.judged j s.tbu.ticks)

variable {s}

theorem State.whsDecided_whs (ch : Nat) (x : WhsCh) (j : Judged) : (s.whsDecided ch x j).whs ch = some (x.judged j s.tbu.ticks) := by
  unfold State.whsDecided
  split <;> exact s.setWhs_whs ch _

theorem State.whsJudge_of_armed {ch : Nat} {x : WhsCh} {t : Timeline} (hx : s.whs ch = some x) (ht : s.tl x.sched.tl = some t)
    (ha : x.armed = true) :
    s.whsJudge ch = ((s.judgeSched x.sched t x.last).missed.foldl (fun s c => s.cancelMissed x t c)
      (s.whsDecided ch x (s.judgeSched x.sched t x.last))).whsMissed ch (s.judgeSched x.sched t x.last).missed.length := by
  simp only [State.whsJudge, hx, ht, ha, not_true_eq_false, if_false]
  rfl

/-- Judging leaves the channel its action, its arguments and its timeline. -/
theorem State.whsJudge_whs {ch : Nat} {x : WhsCh} (hx : s.whs ch = some x) : ∃ y, (s.whsJudge ch).whs ch = some y ∧
    y.action = x.action ∧ y.arg0 = x.arg0 ∧ y.arg1 = x.arg1 ∧ y.sched.tl = x.sched.tl := by
  cases ht : s.tl x.sched.tl with
  | none =>
    have h : s.whsJudge ch = s := by simp only [State.whsJudge, hx, ht]
    exact ⟨x, by rw [h, hx], rfl, rfl, rfl, rfl⟩
  | some t =>
    by_cases ha : x.armed = true
    · rw [State.whsJudge_of_armed hx ht ha, State.whs, State.whsMissed_aft, State.foldl_cancelMissed_aft]
      exact ⟨_, State.whsDecided_whs ch x _, rfl, rfl, rfl, s.judgeSched_tl _ _ _⟩
    · have h : s.whsJudge ch = s := by simp only [State.whsJudge, hx, ht, ha, Bool.false_eq_true, not_false_eq_true, if_true]
      exact ⟨x, by rw [h, hx], rfl, rfl, rfl, rfl⟩

end

/-! ### The clauses of O15 -/

section
variable {s : State} {ch : BitVec 10}

/-- A command on channel ch stands in its register. -/
theorem State.put_channel_sameAir (s : State) (f : Fld) (v : Nat) (h : f.reg ∉ airRegs) : SameAir s (s.put f v) :=
  ((OnlyRegs.refl s).put f v 0 0).sameAir (rs := [f.reg]) ((RegsBut.refl s _).put f v 0 0 List.mem_cons_self)
    fun _ hr he => h (List.mem_singleton.1 he ▸ hr)

/-- The state in which WHS_ARM is judged. -/
def State.armAsked (s : State) (ch : Nat) : State := s.put F.WHS_ARM_CHANNEL ch

theorem State.armAsked_sameAir (s : State) (ch : Nat) : SameAir s (s.armAsked ch) := s.put_channel_sameAir _ _ (by decide)

theorem SameAir.whsWord {t : State} (h : SameAir s t) (c i : Nat) : t.whsWord c i = s.whsWord c i := by
  rw [State.whsWord, State.whsWord, h.word, h.whsAddr]

theorem SameAir.armAction {t : State} (h : SameAir s t) (c : Nat) : t.armAction c = s.armAction c := by
  rw [State.armAction, State.armAction, h.whsWord]

theorem SameAir.armTl {t : State} (h : SameAir s t) (c : Nat) : t.armTl c = s.armTl c := by rw [State.armTl, State.armTl, h.whsWord]

theorem SameAir.armCause {t : State} (h : SameAir s t) (c : Nat) : t.armCause c = s.armCause c := by
  simp only [State.armCause, h.armAction, h.armTl, State.armPeriodic, State.armUnit, State.armCount, h.whsWord, h.schedCause]

theorem whsArm_arms {x : Timeline} (h : s.armCause ch.toNat = 0) (ht : s.tl (s.armTl ch.toNat) = some x) (h8 : s.armAction ch.toNat ≠ 8)
    (h9 : s.armAction ch.toNat ≠ 9) (hn : s.whs ch.toNat = none) :
    Completes (.whsArm ch) s (fun t => ∃ y, t.whs ch.toNat = some y ∧ y.action = s.armAction ch.toNat ∧ y.arg0 = s.whsWord ch.toNat 4 ∧
      y.arg1 = s.whsWord ch.toNat 5 ∧ y.sched.tl = s.armTl ch.toNat ∧
      (s.get F.WHS_CTRL_EN = 0 → y.armed = true ∧ MemBut s t (s.whsAddr ch.toNat) 32 ∧ FieldsBut s t [(F.WHS_ARM_CHANNEL, 0, 0)])) := by
  have ha := s.armAsked_sameAir ch.toNat
  have hf : FieldsBut s (s.armAsked ch.toNat) [(F.WHS_ARM_CHANNEL, 0, 0)] := FieldsBut.put_self _ _ _ _ _
  have hen : (s.armAsked ch.toNat).get F.WHS_CTRL_EN = s.get F.WHS_CTRL_EN := State.get_put_key _ _ _ _ _ _ _ _ (by decide)
  have hw : (s.armAsked ch.toNat).whs ch.toNat = s.whs ch.toNat := rfl
  refine ⟨(s.armAsked ch.toNat).whsArm ch.toNat, rfl, ?_⟩
  rw [← ha.armCause] at h
  rw [← ha.armTl, ← ha.tl] at ht
  rw [← ha.armAction] at h8 h9
  rw [State.whsArm_of_fresh h ht h8 h9 (hw.trans hn), ← ha.armAction, ← ha.armTl, ← ha.whsWord, ← ha.whsWord]
  generalize s.armAsked ch.toNat = u at ha hf hen
  have hst := State.whsStored_whs (s := u) (ch := ch.toNat) (u.armEntry ch.toNat x)
  split
  next hon =>
    obtain ⟨y, hy, h₁, h₂, h₃, h₄⟩ := State.whsJudge_whs hst
    refine ⟨y, hy, h₁, h₂, h₃, h₄, fun h0 => absurd hon ?_⟩
    have hoff : (u.whsStored ch.toNat (u.armEntry ch.toNat x)).flag F.WHS_CTRL_EN = false := State.flag_eq_false (hen.trans h0)
    rw [hoff]
    exact Bool.false_ne_true
  · refine ⟨_, hst, rfl, rfl, rfl, rfl, fun _ => ⟨rfl, ?_, hf.of_eq rfl⟩⟩
    rw [← ha.whsAddr]
    exact (MemBut.of_mem ha.mem _ _).trans (State.whsStored_memBut _)

theorem whsArm_refused {c : Nat} (h : s.armCause ch.toNat = c) (hc : c ≠ 0) (hc' : c < 8) :
    Completes (.whsArm ch) s (fun t => t.get F.WHS_STATUS_ARM_REFUSED = 1 ∧ t.get F.WHS_STATUS_CAUSE = c ∧
      (∀ y, t.whs ch.toNat = some y → y.armed = false) ∧ RegsBut s t [.WHS_STATUS, .WHS_ARM] ∧ MemBut s t (s.whsAddr ch.toNat) 4) := by
  have ha := s.armAsked_sameAir ch.toNat
  have hr : RegsBut s (s.armAsked ch.toNat) [.WHS_STATUS, .WHS_ARM] := (RegsBut.refl s _).put _ _ _ _ (by decide)
  refine ⟨(s.armAsked ch.toNat).whsArm ch.toNat, rfl, ?_⟩
  rw [State.whsArm_of_cause ((ha.armCause _).trans h) hc]
  generalize s.armAsked ch.toNat = u at ha hr
  obtain ⟨h₁, h₂, h₃, h₄⟩ := u.armRefuse_shows hc'
  have hregs : ((u.armRefuse c).whsDisarm ch.toNat).regs = (u.armRefuse c).regs := State.whsDisarm_regs _ _
  have hu := h₄.sameAir h₃ (by decide)
  refine ⟨(State.get_congr hregs _ _ _).trans h₁, (State.get_congr hregs _ _ _).trans h₂, fun y hy => ?_,
    (hr.trans (h₃.mono (by decide))).of_eq hregs, ?_⟩
  · rw [State.whsDisarm_whs, if_pos rfl] at hy
    obtain ⟨z, -, rfl⟩ := Option.map_eq_some_iff.1 hy
    rfl
  · rw [← ha.whsAddr, ← hu.whsAddr]
    exact (MemBut.of_mem (hu.mem.trans ha.mem) _ _).trans (State.whsDisarm_memBut _ _)

theorem whsDisarm_disarms {x : WhsCh} (hx : s.whs ch.toNat = some x) :
    Completes (.whsDisarm ch) s (fun t => t.whs ch.toNat = some { x with armed := false } ∧ (∀ c, c ≠ ch.toNat → t.whs c = s.whs c) ∧
      MemBut s t (s.whsAddr ch.toNat) 4 ∧ FieldsBut s t [(F.WHS_DISARM_CHANNEL, 0, 0)]) := by
  have ha := s.put_channel_sameAir F.WHS_DISARM_CHANNEL ch.toNat (by decide)
  have hf : FieldsBut s (s.put F.WHS_DISARM_CHANNEL ch.toNat) [(F.WHS_DISARM_CHANNEL, 0, 0)] := FieldsBut.put_self _ _ _ _ _
  have hw : (s.put F.WHS_DISARM_CHANNEL ch.toNat).whs = s.whs := rfl
  refine ⟨(s.put F.WHS_DISARM_CHANNEL ch.toNat).whsDisarm ch.toNat, rfl, ?_⟩
  generalize s.put F.WHS_DISARM_CHANNEL ch.toNat = u at ha hf hw
  refine ⟨?_, fun c hc => ?_, ?_, hf.of_eq (State.whsDisarm_regs _ _)⟩
  · rw [State.whsDisarm_whs, if_pos rfl, hw, hx]
    rfl
  · rw [State.whsDisarm_whs, if_neg hc, hw]
  · rw [← ha.whsAddr]
    exact (MemBut.of_mem ha.mem _ _).trans (State.whsDisarm_memBut _ _)

/-- The state in which WHS_CTRL.EN is just set. -/
def State.whsOn (s : State) : State := s.setTo F.WHS_CTRL_EN true

theorem State.whsOn_en (s : State) : s.whsOn.get F.WHS_CTRL_EN = 1 := State.get_put_self _ _ _ _ _ (by decide)

theorem State.whsOn_sameAir (s : State) : SameAir s s.whsOn := s.put_channel_sameAir F.WHS_CTRL_EN 1 (by decide)

theorem State.whsJudgeAll_of_none (hc : s.aft.channels = []) (hp : s.aft.pins = []) : s.whsJudgeAll = s := by
  simp only [State.whsJudgeAll, hc, List.map_nil, List.foldl_nil, hp]

theorem whsEnable_of_none (hc : s.aft.channels = []) (hp : s.aft.pins = []) :
    Completes .whsEnable s (fun t => t.get F.WHS_CTRL_EN = 1 ∧ FieldsBut s t [(F.WHS_CTRL_EN, 0, 0)] ∧ t = { s with regs := t.regs }) := by
  have h : s.whsEnable true = s.whsOn := by
    unfold State.whsEnable
    extract_lets was u
    have hu : u.whsJudgeAll = u := State.whsJudgeAll_of_none hc hp
    rw [hu, ite_self]
    rfl
  exact ⟨s.whsEnable true, rfl, by rw [h, s.whsOn_en], by rw [h]; exact FieldsBut.put_self _ _ _ _ _, by rw [h]; rfl⟩

theorem State.whsEnable_of_off (h : s.flag F.WHS_CTRL_EN = false) : s.whsEnable true = s.whsOn.whsJudgeAll :=
  if_pos ⟨rfl, by simp [h]⟩

theorem State.whsLate_set (c : Nat) (h : s.mem.wf = true) : ((s.whsLate c).word (s.whsAddr c + 24)).testBit 0 = true := by
  have hw : (s.whsLate c).word (s.whsAddr c + 24) = (s.word (s.whsAddr c + 24) ||| 1) % 2 ^ 32 := Memory.word_setWord _ _ h
  rw [hw, Nat.testBit_mod_two_pow, Nat.testBit_or]
  simp

/-- With one channel and no pin, all judging is that of the channel. -/
theorem State.whsJudgeAll_of_single {c : Nat} {x : WhsCh} (hc : s.aft.channels = [(c, x)]) (hp : (s.whsJudge c).aft.pins = []) :
    s.whsJudgeAll = s.whsJudge c := by
  simp only [State.whsJudgeAll, hc, List.map_cons, List.map_nil, List.foldl_cons, List.foldl_nil, hp]

theorem whsEnable_fires_late {c : Nat} {x : WhsCh} {tl : Timeline} (hc : s.aft.channels = [(c, x)]) (hp : s.aft.pins = [])
    (ht : s.tl x.sched.tl = some tl) (ha : x.armed = true) (hen : s.flag F.WHS_CTRL_EN = false) (hm : s.mem.wf = true)
    (hf : (s.judgeSched x.sched tl x.last).fire.isSome = true) (h1 : x.sched.period = 0)
    (hmiss : (s.judgeSched x.sched tl x.last).missed = []) :
    Completes .whsEnable s (fun t => t.get F.WHS_CTRL_EN = 1 ∧ (∃ y, t.whs c = some y ∧ y.armed = false ∧ y.due.isSome = true) ∧
      (t.word (s.whsAddr c + 24)).testBit 0 = true) := by
  have hair := s.whsOn_sameAir
  have hon := s.whsOn_en
  have hwc : s.whsOn.aft.channels = [(c, x)] := hc
  have hwp : s.whsOn.aft.pins = [] := hp
  refine ⟨s.whsEnable true, rfl, ?_⟩
  rw [State.whsEnable_of_off hen, ← hair.whsAddr]
  rw [← hair.judgeSched] at hf hmiss
  rw [← hair.tl] at ht
  rw [← hair.mem] at hm
  generalize s.whsOn = u at hair hon hwc hwp hf hmiss ht hm
  have hx : u.whs c = some x := by simp [State.whs, hwc, Tab.find]
  have hj : u.whsJudge c = (u.setWhs c (x.judged (u.judgeSched x.sched tl x.last) u.tbu.ticks)).whsLate c := by
    rw [State.whsJudge_of_armed hx ht ha, hmiss, State.whsDecided, if_pos hf]
    rfl
  generalize u.judgeSched x.sched tl x.last = j at hf hmiss hj
  obtain ⟨k, hk⟩ := Option.isSome_iff_exists.1 hf
  rw [State.whsJudgeAll_of_single hwc (by rw [hj]; exact hwp), hj]
  refine ⟨hon, ⟨x.judged j u.tbu.ticks, State.setWhs_whs _ _ _, ?_, ?_⟩, State.whsLate_set (s := u.setWhs c _) c (Memory.wf_setWord _ _ hm)⟩
  · simp [WhsCh.judged, h1, hf]
  · simp [WhsCh.judged, hk]

end

/-- Settles O15: the cause of an arm is found check by check, and the judging that EN starts decides the one late firing. -/
theorem whistlesArmFromTheirEntries : Obligations.WhistlesArmFromTheirEntries := by
  unfold Obligations.WhistlesArmFromTheirEntries
  refine ⟨fun ch x s => ⟨fun hact ht hco h8 h9 hper hn => whsArm_arms ?_ ht h8 h9 hn, fun c hcase => ?_⟩, fun _ _ _ => whsDisarm_disarms,
    fun _ => whsEnable_of_none, fun _ _ _ _ => whsEnable_fires_late⟩
  · refine (State.armCause_of_timeline hact ht hco).trans (if_neg ?_)
    rintro ⟨hp, h0 | h3⟩
    · exact (hper hp).1 h0
    · exact (hper hp).2 h3
  · rcases hcase with ⟨rfl, h12⟩ | ⟨hact, ⟨rfl, ht⟩ | ⟨ht, ⟨rfl, hco⟩ | ⟨rfl, hco, hp, hbad⟩⟩⟩
    · exact whsArm_refused (State.armCause_of_action h12) (by decide) (by decide)
    · exact whsArm_refused (State.armCause_of_no_timeline hact ht) (by decide) (by decide)
    · exact whsArm_refused (State.armCause_of_coord hact ht hco) (by decide) (by decide)
    · exact whsArm_refused ((State.armCause_of_timeline hact ht hco).trans (if_pos ⟨hp, hbad⟩)) (by decide) (by decide)

end Sys2Proof.Machine
end

