-- ==== Sys2Proof/Proofs/PinWhistles.lean ====
section
/-!
SUPPORT. Sys2Proof/Proofs/PinWhistles.lean: a pin is armed from its registers, pulses and parks (R95, R96, R546), and from these O17.
-/
namespace Sys2Proof.Machine

/-! ### A pin is stored and driven -/

section
variable (s : State) (n : Nat) (x : WhsPinSt) (d : PinDrive)

theorem State.pinDrive_pin : (s.pinDrive n x d).pin n = some { x with drive := d } := Tab.find_set_self _ _ _

theorem State.pinDrive_pin_ne {m : Nat} (h : m ≠ n) : (s.pinDrive n x d).pin m = s.pin m := Tab.find_set_ne _ h _

theorem State.pinDrive_out : (s.pinDrive n x d).out = s.out ++ [.pin n d] := rfl

theorem State.pinDrive_regs : (s.pinDrive n x d).regs = s.regs := rfl

end

/-! ### PIN_ARM (R96) -/

section
variable {s : State} {n : Nat} {tl : Timeline}

/-- The one-shot that the registers of pin n describe, on timeline tl, as an arm stores it. -/
def State.pinOneShot (s : State) (n : Nat) (tl : Timeline) : WhsPinSt :=
  ⟨true, s.makeSched tl (s.get F.WHS_PIN_CTRL_TL 0 n) (s.get F.WHS_PIN_COORD_COORD 0 n) false (s.get F.WHS_PIN_CTRL_PERIOD_UNIT 0 n)
    (s.get F.WHS_PIN_TIMING_PERIOD_COUNT 0 n) (signed 32 (s.get F.WHS_PIN_DELTA_NS_DELTA_NS 0 n)) (s.get F.WHS_PIN_CTRL_SUB_100PS 0 n)
    (s.get F.WHS_PIN_CTRL_FILTER 0 n), s.get F.WHS_PIN_TIMING_WIDTH 0 n, none, none, .idle⟩

/-- Pin n with EN set, driven idle as the one-shot of its registers. -/
def State.pinArmed (s : State) (n : Nat) (tl : Timeline) : State :=
  (s.set F.WHS_PIN_CTRL_EN 0 n).pinDrive n (s.pinOneShot n tl) .idle

theorem State.pinArm_of_oneShot (hper : s.flag F.WHS_PIN_CTRL_PERIODIC 0 n = false) (ht : s.tl (s.get F.WHS_PIN_CTRL_TL 0 n) = some tl)
    (hc : tl.coordOk (s.get F.WHS_PIN_COORD_COORD 0 n) = true) (hn : s.pin n = none) :
    s.pinArm n = if (s.pinArmed n tl).flag F.WHS_CTRL_EN then (s.pinArmed n tl).pinJudge n else s.pinArmed n tl := by
  simp only [State.pinArm, State.schedCause, hper, ht, hc, hn, not_true_eq_false, Bool.false_eq_true, false_and, if_false, ne_eq]
  rfl

theorem State.pinArm_of_no_timeline (ht : s.tl (s.get F.WHS_PIN_CTRL_TL 0 n) = none) :
    s.pinArm n = (s.armRefuse 2).clr F.WHS_PIN_CTRL_EN 0 n := by
  simp only [State.pinArm, ht]

end

section
variable {s : State} {n : Fin 64}

theorem exec_pinArm_of_off (h : s.flag F.WHS_PIN_CTRL_EN 0 n = false) : exec (.pinArm n) s = .next (s.pinArm n) :=
  congrArg Host.Outcome.next (if_neg (by simp [h]))

theorem pinArm_arms {tl : Timeline} (h : s.flag F.WHS_PIN_CTRL_EN 0 n = false) (h0 : s.get F.WHS_CTRL_EN = 0)
    (hper : s.flag F.WHS_PIN_CTRL_PERIODIC 0 n = false) (ht : s.tl (s.get F.WHS_PIN_CTRL_TL 0 n) = some tl)
    (hc : tl.coordOk (s.get F.WHS_PIN_COORD_COORD 0 n) = true) (hn : s.pin n = none) :
    Completes (.pinArm n) s (fun t => t.get F.WHS_PIN_CTRL_EN 0 n = 1 ∧
      (∃ y, t.pin n = some y ∧ y.armed = true ∧ y.width = s.get F.WHS_PIN_TIMING_WIDTH 0 n ∧ y.sched.tl = s.get F.WHS_PIN_CTRL_TL 0 n ∧
        y.drive = .idle) ∧
      t.out = s.out ++ [.pin n .idle] ∧ FieldsBut s t [(F.WHS_PIN_CTRL_EN, 0, n)] ∧
      t = { s with regs := t.regs, aft := t.aft, out := t.out }) := by
  have hen : (s.set F.WHS_PIN_CTRL_EN 0 n).get F.WHS_CTRL_EN = 0 := (State.get_put_key _ _ _ _ _ _ _ _ (by simp)).trans h0
  have hoff : (s.pinArmed n tl).flag F.WHS_CTRL_EN = false := State.flag_eq_false hen
  refine ⟨s.pinArm n, exec_pinArm_of_off h, ?_⟩
  rw [State.pinArm_of_oneShot hper ht hc hn, if_neg (by simp [hoff])]
  exact ⟨s.get_set_self _ _ _ (by decide) (by decide), ⟨_, State.pinDrive_pin _ _ _ _, rfl, rfl, rfl, rfl⟩, rfl,
    (FieldsBut.put_self s F.WHS_PIN_CTRL_EN 1 0 n).of_eq rfl, rfl⟩

theorem pinArm_refused (h : s.flag F.WHS_PIN_CTRL_EN 0 n = false) (ht : s.tl (s.get F.WHS_PIN_CTRL_TL 0 n) = none) :
    Completes (.pinArm n) s (fun t => t.get F.WHS_STATUS_ARM_REFUSED = 1 ∧ t.get F.WHS_STATUS_CAUSE = 2 ∧
      t.get F.WHS_PIN_CTRL_EN 0 n = 0 ∧ t = { s with regs := t.regs }) := by
  obtain ⟨h₁, h₂, -, h₄⟩ := s.armRefuse_shows (c := 2) (by decide)
  refine ⟨s.pinArm n, exec_pinArm_of_off h, ?_⟩
  rw [State.pinArm_of_no_timeline ht]
  exact ⟨(State.get_put_key _ _ _ _ _ _ _ _ (by simp)).trans h₁, (State.get_put_key _ _ _ _ _ _ _ _ (by simp)).trans h₂,
    State.get_clr_self _ _ _ _ (by decide), h₄.put _ _ _ _⟩

end

/-! ### PIN_FIRE and PIN_PULSE_END (R95) -/

section
variable {s : State} {n : Fin 64} {x : WhsPinSt} (hx : s.pin n = some x)
include hx

theorem State.pinFire_of_due {c : Int} (hen : s.flag F.WHS_CTRL_EN = true) (hd : x.due = some c) :
    s.pinFire n = s.pinDrive n { x with due := none } .active := by
  simp only [State.pinFire, hx, hen, hd, not_true_eq_false, if_false]

theorem State.pinEnd_of_oneShot (ha : x.drive = .active) (hp : x.sched.period = 0) :
    s.pinEnd n = (s.clr F.WHS_PIN_CTRL_EN 0 n).pinDrive n x .hiz := by
  simp only [State.pinEnd, hx, ha, hp, ne_eq, not_true_eq_false, if_false, if_true]

theorem State.pinEnd_of_periodic (ha : x.drive = .active) (hp : x.sched.period ≠ 0) :
    s.pinEnd n = s.pinDrive n x (if s.flag F.WHS_PIN_CTRL_EN 0 n then .idle else .hiz) := by
  simp only [State.pinEnd, hx, ha, ne_eq, not_true_eq_false, if_false, if_neg hp]

theorem pinFire_drives (hen : s.flag F.WHS_CTRL_EN = true) (hd : x.due.isSome = true) :
    Completes (.pinFire n) s (fun t => t.pin n = some { x with due := none, drive := .active } ∧ t.out = s.out ++ [.pin n .active] ∧
      (∀ m, m ≠ n.val → t.pin m = s.pin m) ∧ t = { s with aft := t.aft, out := t.out }) := by
  obtain ⟨c, hc⟩ := Option.isSome_iff_exists.1 hd
  refine ⟨s.pinFire n, rfl, ?_⟩
  rw [State.pinFire_of_due hx hen hc]
  exact ⟨State.pinDrive_pin _ _ _ _, rfl, fun m hm => State.pinDrive_pin_ne _ _ _ _ hm, rfl⟩

theorem pinPulseEnd_ends (ha : x.drive = .active) :
    Completes (.pinPulseEnd n) s (fun t =>
      (x.sched.period = 0 → t.get F.WHS_PIN_CTRL_EN 0 n = 0 ∧ t.pin n = some { x with drive := .hiz } ∧ t.out = s.out ++ [.pin n .hiz]) ∧
      (x.sched.period ≠ 0 → s.flag F.WHS_PIN_CTRL_EN 0 n = true →
        t.pin n = some { x with drive := .idle } ∧ t.out = s.out ++ [.pin n .idle] ∧ t.regs = s.regs) ∧
      FieldsBut s t [(F.WHS_PIN_CTRL_EN, 0, n)] ∧ t = { s with regs := t.regs, aft := t.aft, out := t.out }) := by
  refine ⟨s.pinEnd n, rfl, ?_⟩
  by_cases hp : x.sched.period = 0
  · rw [State.pinEnd_of_oneShot hx ha hp]
    exact ⟨fun _ => ⟨s.get_clr_self F.WHS_PIN_CTRL_EN 0 n (by decide), State.pinDrive_pin _ _ _ _, rfl⟩, fun h => absurd hp h,
      (FieldsBut.put_self s F.WHS_PIN_CTRL_EN 0 0 n).of_eq rfl, rfl⟩
  · rw [State.pinEnd_of_periodic hx ha hp]
    refine ⟨fun h => absurd h hp, fun _ hen => ?_, FieldsBut.of_regs _ rfl, rfl⟩
    rw [if_pos hen]
    exact ⟨State.pinDrive_pin _ _ _ _, rfl, rfl⟩

end

/-! ### A shorted pin (R546) -/

section
variable (s : State) (r : Report)

theorem State.erqCapture_onlyRegs : OnlyRegs s (s.erqCapture r) := by
  unfold State.erqCapture
  extract_lets v ws u
  have hu : OnlyRegs s u := OnlyRegs.foldl (fun _ _ => (OnlyRegs.refl _).put _ _ _ _) _ s
  split
  · exact OnlyRegs.refl s
  · exact hu.put _ _ _ _

theorem State.setWords_aft (a : Nat) (ws : List Nat) : (s.setWords a ws).aft = s.aft := by rw [State.setWords_rest]

theorem State.erqNew_aft : (s.erqNew r).aft = s.aft := by
  unfold State.erqNew
  extract_lets w u v
  have hu : u.aft = s.aft := s.setWords_aft _ _
  clear_value u
  exact hu

/-- An error record leaves the timelines, the channels and the pins. -/
theorem State.report_aft : (s.report r).aft = s.aft := by
  unfold State.report
  extract_lets u
  have hu : u.aft = s.aft := (s.erqCapture_onlyRegs r).regsGdx.aft
  split
  · exact hu
  · split
    · exact hu
    · split
      · exact (u.erqNew_aft r).trans hu
      · exact hu

variable {s}

theorem outputShort_whsOut {n : Fin 64} {x : WhsPinSt} (hx : s.pin n = some x) :
    Completes (.outputShort (.whsOut n)) s (fun t => t.get F.WHS_PIN_CTRL_EN 0 n = 0 ∧
      t.pin n = some { x with armed := false, due := none, drive := .hiz }) := by
  have he : exec (.outputShort (.whsOut n)) s = .next ((((s.pinDrive n { x with armed := false, due := none } .hiz).clr
      F.WHS_PIN_CTRL_EN 0 n).pinBit F.WHS_PIN_SHORT_SHORT n).report ⟨6, 0x40, 1, 0, n, 0⟩) := by
    show execOutputShort (.whsOut n) s = _
    simp only [execOutputShort, hx]
  refine ⟨_, he, ?_, ?_⟩
  · rw [(State.report_keepsTime _ _).regs.get _ (by decide), State.pinBit, State.get_put_key _ _ _ _ _ _ _ _ (by simp)]
    exact State.get_clr_self _ _ _ _ (by decide)
  · rw [State.pin, State.report_aft]
    exact Tab.find_set_self _ _ _

end

/-- Settles O17: each command on a pin is one drive of it, with the enable put before or after. -/
theorem pinWhistlesPulse : Obligations.PinWhistlesPulse := by
  unfold Obligations.PinWhistlesPulse
  exact ⟨fun _ _ _ => pinArm_arms, fun _ _ => pinArm_refused, fun _ _ _ => pinFire_drives, fun _ _ _ => pinPulseEnd_ends,
    fun _ _ _ => outputShort_whsOut⟩

end Sys2Proof.Machine
end

