-- ==== Sys2Proof/Proofs/WhistleDispatch.lean ====
section
/-!
SUPPORT. Sys2Proof/Proofs/WhistleDispatch.lean: a whistle's action in the dispatcher cycle of its tick (R21): a creation in an empty
dispatcher (R115 to R117), the cancel of a SlotInst that is alone (R138), a refill without waiters (R124), and from these O18.
-/
namespace Sys2Proof.Machine

/-! ### The dispatcher takes a firing (R21, R86) -/

theorem State.whsReady_tl {s : State} {ch action : Nat} {x : WhsCh} {tl : Timeline} {c : Int}
    (h : s.whsReady ch action = some (x, tl, c)) : s.tl x.sched.tl = some tl := by
  unfold State.whsReady at h
  split at h
  · cases h
  · split at h
    next ht =>
      split at h
      · cases h
        exact ht
      · cases h
    · cases h

/-- In t a channel is past occurrence c, and the dispatcher is in the cycle that takes the firings of the tick. -/
structure WhistleTaken (s t : State) (ch : Nat) (y : WhsCh) : Prop where
  gdx : t.gdx = { s.gdx with cycle := t.gdx.cycle, whistleTick := t.gdx.whistleTick }
  regs : t.regs = s.regs
  whs : t.whs ch = some y
  tls : t.aft.tls = s.aft.tls
  mem : MemBut s t (s.whsAddr ch) 32
  rest : t = { s with mem := t.mem, aft := t.aft, gdx := t.gdx }

theorem State.whsCycle_gdx (s : State) :
    s.whsCycle.gdx = { s.gdx with cycle := s.whsCycle.gdx.cycle, whistleTick := s.whsCycle.gdx.whistleTick } := by
  unfold State.whsCycle
  split <;> rfl

theorem State.whsCycle_taken (s : State) (ch : Nat) (x : WhsCh) (tl : Timeline) (c : Int) :
    WhistleTaken s (s.whsFired ch x tl c).whsCycle ch (x.past tl c) := by
  have hg := (s.whsFired ch x tl c).whsCycle_gdx
  have hm := s.whsFired_memBut ch x tl c
  have hw := s.whsFired_whs ch x tl c
  have hf := (s.whsFired ch x tl c).whsCycle_frame
  generalize (s.whsFired ch x tl c).whsCycle = t at hg hf
  rw [hf]
  exact ⟨hg, rfl, hw, rfl, hm, rfl⟩

section
variable {s t u : State} {ch : Nat} {y : WhsCh} (h : WhistleTaken s t ch y)
include h

theorem WhistleTaken.tl (v : Nat) : t.tl v = s.tl v := by rw [State.tl, State.tl, h.tls]

theorem WhistleTaken.flag (f : Fld) (i j : Nat) : t.flag f i j = s.flag f i j := by rw [State.flag, State.flag, State.get_congr h.regs]

theorem WhistleTaken.pool (p : Nat) : t.pool p = s.pool p := by rw [State.pool, State.pool, h.gdx]

theorem WhistleTaken.insts : t.gdx.insts = s.gdx.insts := by rw [h.gdx]

theorem WhistleTaken.nodes : t.gdx.nodes = s.gdx.nodes := by rw [h.gdx]

theorem WhistleTaken.lastCancel : t.gdx.lastCancel = s.gdx.lastCancel := by rw [h.gdx]

theorem WhistleTaken.empty (he : s.GdxEmpty) : t.GdxEmpty := by
  unfold State.GdxEmpty
  rw [h.gdx]
  exact he

theorem WhistleTaken.whs_of_regsGdx (hu : RegsGdx t u) : u.whs ch = some y := by rw [State.whs, hu.aft]; exact h.whs

theorem WhistleTaken.mem_of_regsGdx (hu : RegsGdx t u) : MemBut s u (s.whsAddr ch) 32 := h.mem.trans (MemBut.of_mem hu.mem _ _)

theorem WhistleTaken.rest_of_regsGdx (hu : RegsGdx t u) : u = { s with regs := u.regs, mem := u.mem, aft := u.aft, gdx := u.gdx } := by
  have hr := h.rest
  unfold RegsGdx at hu
  rw [hr] at hu
  rw [hu]

end

/-! ### A cycle that ends with nothing more to do -/

section
variable {s : State}

theorem State.asking_eq_nil (h : ∀ p ∈ s.gdx.nodes, p.2.st = .waiting → p.2.missing ≠ []) : s.asking = [] := by
  have hf : s.gdx.nodes.filter (fun p => p.2.st = .waiting && p.2.missing = []) = [] := by
    simpa [List.filter_eq_nil_iff] using fun a b hm => h (a, b) hm
  simp [State.asking, hf, ascending]

theorem State.admitAll_of_none (h : s.asking = []) : s.admitAll = s := by
  rw [State.admitAll, h, List.foldl_nil, ite_self]

theorem State.gdxSettle_of_waiting (h : ∀ p ∈ s.gdx.nodes, p.2.st = .waiting ∧ p.2.missing ≠ [])
    (hi : ∀ p ∈ s.gdx.insts, ∃ q ∈ s.gdx.nodes, q.2.inst = p.1) : s.gdxSettle = s.gdxShow := by
  have ha : s.admitAll = s := State.admitAll_of_none (State.asking_eq_nil fun p hp _ => (h p hp).2)
  have hd : s.dueRelease = none := State.dueRelease_eq_none_iff.2 fun p hp => by simp only [State.turnCome, (h p hp).1]
  have hr : ∀ p ∈ s.gdx.insts, s.retirable p.1 = false := fun p hp => by
    obtain ⟨q, hq, hqi⟩ := hi p hp
    rw [Bool.eq_false_iff, Ne, State.retirable_iff]
    exact fun hall => absurd (hall q hq hqi) (by simp only [NodeInst.over, (h q hq).1]; decide)
  rw [State.gdxSettle, ha, State.releaseAll_of_none hd, State.retireAll_of_none hr]

theorem State.gdxSettle_of_empty (hi : s.gdx.insts = []) (hn : s.gdx.nodes = []) : s.gdxSettle = s.gdxShow :=
  State.gdxSettle_of_waiting (by simp [hn]) (by simp [hi])

end

/-! ### A creation in an empty dispatcher (R115 to R117) -/

theorem Tab.set_of_not_mem {κ α : Type} [DecidableEq κ] {m : Tab κ α} {k : κ} (h : k ∉ m.map (·.1)) (v : α) :
    Tab.set m k v = m ++ [(k, v)] := by
  induction m with
  | nil => rfl
  | cons p m ih =>
    obtain ⟨k', v'⟩ := p
    rw [List.map_cons, List.mem_cons, not_or] at h
    obtain ⟨hk, hm⟩ := h
    rw [Tab.set, if_neg (Ne.symm hk), ih hm, List.cons_append]

/-- The lowest free ids of an unused range. -/
theorem freeIds_nil {max k : Nat} (h : k ≤ max) : freeIds [] max k = List.range k := by
  simp [freeIds, List.take_range, h]

/-- Add the NodeInst of a numbered record to SlotInst i, with an id. -/
def State.addNode (s : State) (i tl : Nat) (p : Nat × NodeRec × Nat) : State :=
  match (newNode i p.2.2 p.2.1 tl).flow with
  | some f => (s.setNode p.1 (newNode i p.2.2 p.2.1 tl)).joinFlow f p.1
  | none => s.setNode p.1 (newNode i p.2.2 p.2.1 tl)

/-- The NodeInsts of a list of ids and numbered records. -/
def newNodes (i tl : Nat) (l : List (Nat × NodeRec × Nat)) : Tab Nat NodeInst := l.map (fun p => (p.1, newNode i p.2.2 p.2.1 tl))

section
variable (s : State) (i tl : Nat)

theorem State.addNode_gdx (p : Nat × NodeRec × Nat) : (s.addNode i tl p).gdx = { s.gdx with
    nodes := Tab.set s.gdx.nodes p.1 (newNode i p.2.2 p.2.1 tl), flows := (s.addNode i tl p).gdx.flows } := by
  unfold State.addNode
  split <;> rfl

theorem State.addNode_rest (p : Nat × NodeRec × Nat) : s.addNode i tl p = { s with gdx := (s.addNode i tl p).gdx } := by
  unfold State.addNode
  split <;> rfl

/-- Node instances with fresh ids of their own line up behind those that live. -/
theorem State.foldl_addNode_gdx {l : List (Nat × NodeRec × Nat)} (hl : (l.map (·.1)).Nodup)
    (hd : ∀ p ∈ l, p.1 ∉ s.gdx.nodes.map (·.1)) :
    (l.foldl (fun s p => s.addNode i tl p) s).gdx = { s.gdx with
      nodes := s.gdx.nodes ++ newNodes i tl l, flows := (l.foldl (fun s p => s.addNode i tl p) s).gdx.flows } := by
  induction l generalizing s with
  | nil => simp [newNodes]
  | cons p l ih =>
    rw [List.map_cons, List.nodup_cons] at hl
    obtain ⟨hp, hl⟩ := hl
    have hset := Tab.set_of_not_mem (hd p List.mem_cons_self) (newNode i p.2.2 p.2.1 tl)
    have hg := s.addNode_gdx i tl p
    rw [hset] at hg
    have hfresh : ∀ q ∈ l, q.1 ∉ (s.addNode i tl p).gdx.nodes.map (·.1) := fun q hq => by
      have hqp : q.1 ≠ p.1 := fun he => hp (he ▸ List.mem_map_of_mem hq)
      have hqs := hd q (List.mem_cons_of_mem _ hq)
      rw [hg]
      simpa [hqp] using hqs
    rw [List.foldl_cons, ih _ hl hfresh, hg]
    simp [newNodes]

theorem State.foldl_addNode_rest (l : List (Nat × NodeRec × Nat)) :
    l.foldl (fun s p => s.addNode i tl p) s = { s with gdx := (l.foldl (fun s p => s.addNode i tl p) s).gdx } := by
  induction l generalizing s with
  | nil => rfl
  | cons p l ih => rw [List.foldl_cons, ih, s.addNode_rest i tl p]

end

/-- The first ids, with the numbered records of a template. -/
def Template.numbered (g : Template) : List (Nat × NodeRec × Nat) := (List.range g.nodes.length).zip g.nodes.zipIdx

section
variable (g : Template)

theorem Template.numbered_ids : g.numbered.map (·.1) = List.range g.nodes.length := by
  simp [Template.numbered, List.map_fst_zip]

/-- Ids and numbers of the NodeInsts agree (R115). -/
theorem Template.newNodes_numbers (i tl : Nat) :
    (newNodes i tl g.numbered).map (fun p => (p.1, p.2.inst, p.2.node)) = (List.range g.nodes.length).map (fun k => (k, i, k)) := by
  apply List.ext_getElem
  · simp [newNodes, Template.numbered]
  · intro k h₁ h₂
    simp [newNodes, Template.numbered, newNode]

theorem NodeInst.missing_newNode (i k : Nat) (r : NodeRec) (tl : Nat) : (newNode i k r tl).missing = List.range r.nIn := by
  simp only [NodeInst.missing, newNode, List.length_replicate, List.filter_eq_self, List.mem_range]
  intro p hp
  simp [List.getD_eq_getElem?_getD, hp]

variable {g}

theorem mem_newNodes {i tl : Nat} {p : Nat × NodeInst} (h : p ∈ newNodes i tl g.numbered) :
    ∃ r ∈ g.nodes, ∃ k, p.2 = newNode i k r tl := by
  obtain ⟨q, hq, rfl⟩ := List.mem_map.1 h
  exact ⟨q.2.1, List.fst_mem_of_mem_zipIdx (List.of_mem_zip hq).2, q.2.2, rfl⟩

theorem newNodes_ne_nil {i tl : Nat} (h : g.nodes ≠ []) : newNodes i tl g.numbered ≠ [] := by
  have hl : 0 < g.nodes.length := List.length_pos_iff.2 h
  refine List.ne_nil_of_length_pos ?_
  simp [newNodes, Template.numbered, hl]

end

section
variable {s : State} {g : Template} {e : Timeline} {tl : Nat} {slot : Int}

/-- SlotInst 0 of template g on timeline tl, which is e, for a slot, with its NodeInsts, is all that lives. -/
structure Made (s t : State) (g : Template) (e : Timeline) (tl : Nat) (slot : Int) : Prop where
  inst : ∃ y, t.gdx.insts = [(0, y)] ∧ y.tpl = g ∧ y.tl = tl ∧ y.slot = slot ∧ y.slotWord = slotId (e.slotWord slot) ∧ y.bank = e.curBank ∧
    y.cancelled = false
  nodes : t.gdx.nodes = newNodes 0 tl g.numbered
  held : t.gdx.held = s.gdx.held
  rest : t = { s with gdx := t.gdx }

theorem Made.regsGdx {t : State} (h : Made s t g e tl slot) : RegsGdx s t := by
  have hr := h.rest
  unfold RegsGdx
  rw [hr]

theorem State.makeInst_made (hi : s.gdx.insts = []) (hn : s.gdx.nodes = []) (hl : g.nodes.length ≤ 65536) :
    (s.makeInst g e tl slot).1 = 0 ∧ Made s (s.makeInst g e tl slot).2 g e tl slot := by
  unfold State.makeInst
  extract_lets id ids x u v old new
  have hid : id = 0 := by simp only [id, hi, List.map_nil, freeIds_nil (show 1 ≤ 4096 by decide)]; rfl
  have hids : ids.zip g.nodes.zipIdx = g.numbered := by
    simp only [ids, hn, List.map_nil, freeIds_nil hl]
    rfl
  have hv : v = g.numbered.foldl (fun s p => s.addNode id tl p) u := by rw [← hids]; rfl
  have hun : u.gdx.nodes = [] := hn
  have hg := u.foldl_addNode_gdx id tl (l := g.numbered) (by rw [g.numbered_ids]; exact List.nodup_range) (by simp [hun])
  have hr := u.foldl_addNode_rest id tl g.numbered
  rw [← hv] at hg hr
  have hx : x.tpl = g ∧ x.tl = tl ∧ x.slot = slot ∧ x.slotWord = slotId (e.slotWord slot) ∧ x.bank = e.curBank ∧ x.cancelled = false :=
    ⟨rfl, rfl, rfl, rfl, rfl, rfl⟩
  have hui : u.gdx.insts = [(id, x)] := by
    show Tab.set s.gdx.insts id x = _
    rw [hi]
    rfl
  have huh : u.gdx.held = s.gdx.held := rfl
  have hur : u = { s with gdx := u.gdx } := rfl
  clear_value new old v u x ids id
  subst hid
  rw [hun, List.nil_append] at hg
  refine ⟨rfl, ⟨x, ?_, hx⟩, ?_, ?_, ?_⟩
  · show v.gdx.insts = _
    rw [hg, hui]
  · show v.gdx.nodes = _
    rw [hg]
  · show v.gdx.held = _
    rw [hg, huh]
  · rw [hr, hur]
    rfl

theorem State.holdingDrain_of_none {tpl id w : Nat} (h : s.gdx.held = []) : s.holdingDrain tpl tl id e slot w = s := by
  have hg : ({ s.gdx with held := [] } : Gdx) = s.gdx := by rw [← h]
  simp only [State.holdingDrain, h, List.filter_nil, List.foldl_nil, hg]
  rfl

theorem State.create_of_empty {tpl w : Nat} (hs : s.GdxEmpty) (hg : s.tplCur tpl = some g) (hb : s.tplBlocked tpl = false)
    (he : s.tl tl = some e) (hl : g.nodes.length ≤ 65536) : Made s (s.create tpl tl w (some slot)).2 g e tl slot := by
  obtain ⟨hi, hn, hh, -⟩ := hs
  obtain ⟨-, hm⟩ := State.makeInst_made (s := s) (g := g) (e := e) (tl := tl) (slot := slot) hi hn hl
  have hnone : s.instOf tpl tl w = none := by simp [State.instOf, hi]
  have hroom : ¬ (4096 ≤ s.gdx.insts.length ∨ 65536 < s.gdx.nodes.length + g.nodes.length) := by
    simp only [hi, hn, List.length_nil]
    omega
  have hc : (s.create tpl tl w (some slot)).2 = (s.makeInst g e tl slot).2 := by
    simp only [State.create, hg, hb, he, hnone, if_neg hroom, Option.isSome_none, Bool.false_eq_true, if_false]
    exact State.holdingDrain_of_none (hm.held.trans hh)
  rw [hc]
  exact hm

theorem Made.settles {t : State} (h : Made s t g e tl slot) (hne : g.nodes ≠ []) (hin : ∀ r ∈ g.nodes, 1 ≤ r.nIn) :
    t.gdxSettle = t.gdxShow := by
  obtain ⟨y, hy, -⟩ := h.inst
  obtain ⟨q, hq⟩ := List.exists_mem_of_ne_nil _ (newNodes_ne_nil (i := 0) (tl := tl) hne)
  rw [← h.nodes] at hq
  refine State.gdxSettle_of_waiting (fun p hp => ?_) fun p hp => ⟨q, hq, ?_⟩
  · obtain ⟨r, hr, k, hk⟩ := mem_newNodes (h.nodes ▸ hp)
    have hpos := hin r hr
    rw [hk, NodeInst.missing_newNode, Ne, List.range_eq_nil]
    exact ⟨rfl, by omega⟩
  · obtain ⟨r, -, k, hk⟩ := mem_newNodes (h.nodes ▸ hq)
    rw [hy] at hp
    rw [hk, List.mem_singleton.1 hp]
    rfl

theorem Made.created {t : State} (h : Made s t g e tl slot) : t.gdxShow.Created g tl e slot := by
  unfold State.Created
  rw [t.gdxShow_gdx]
  refine ⟨h.inst, by rw [h.nodes, g.newNodes_numbers], fun p hp => ?_⟩
  obtain ⟨r, -, k, hk⟩ := mem_newNodes (h.nodes ▸ hp)
  rw [hk, NodeInst.missing_newNode]
  exact ⟨rfl, by simp [newNode]⟩

theorem State.dueCancels_of_none (hi : s.gdx.insts = []) : s.dueCancels tl = s := by
  simp only [State.dueCancels, hi, List.filter_nil, List.foldl_nil]

end

/-! ### The cancel of a SlotInst that is alone (R138, R155) -/

section
variable {s : State} {i n : Nat} {y : SlotInst} {z : NodeInst}

theorem State.freeInputs_of_none (h : z.tokens.all (·.isNone) = true) : s.freeInputs z = s := by
  refine foldl_fixed_of_mem fun k hk => ?_
  rw [Option.isNone_iff_eq_none.1 (List.all_eq_true.1 h k hk)]

/-- A bare NodeInst ends without freeing anything. -/
theorem State.endNode_of_bare (hz : s.node n = some z) (hb : z.Bare) (how : NodeEnd) :
    ∃ z' f, z'.inst = z.inst ∧ z'.st = .ended how ∧ s.endNode n how = (s.setNode n z').upInst z.inst f := by
  obtain ⟨hst, htok, hout, hrun, hflow, hpoison⟩ := hb
  have hover : z.over = false := by simp only [NodeInst.over, hst]
  simp only [State.endNode, hz, hover, hpoison, hst, hout, hrun, State.leaveFlow, hflow, State.freeOutputs, List.flatMap_nil, List.append_nil,
    List.foldl_nil, State.freeInputs_of_none htok, Bool.false_eq_true, if_false]
  refine ⟨_, _, ?_, ?_, rfl⟩
  · rfl
  · rfl

/-- SlotInst i and its NodeInst n, which has ended, are all that lives; nothing but the dispatcher differs from s. -/
structure Ended (s t : State) (i n : Nat) : Prop where
  insts : ∃ y, t.gdx.insts = [(i, y)]
  nodes : ∃ z how, t.gdx.nodes = [(n, z)] ∧ z.inst = i ∧ z.st = .ended how
  rest : t = { s with gdx := t.gdx }

/-- A SlotInst is marked as cancelled. -/
def State.cancelMarked (s : State) (i : Nat) (y : SlotInst) : State := s.setInst i { y with cancelled := true }

/-- The NodeInsts that a cancel ended are kept for the rest of the cycle (R139). -/
def State.noteCancel (s : State) (l : List CancelledNode) : State :=
  s.setGdx { s.gdx with
    lastCancel := (s.gdx.cycle, (if s.gdx.lastCancel.1 = s.gdx.cycle then s.gdx.lastCancel.2 else []) ++ l) }

theorem State.cancelInst_of_waiting (hi : s.inst i = some y) (hn : s.nodesOf i = [(n, z)]) (hst : z.st = .waiting) :
    s.cancelInst i = ((s.cancelMarked i y).endNode n .cancelled).noteCancel [s.cancelRec n z y] := by
  have hw : (s.cancelRec n z y).wait = none := by simp [State.cancelRec, hst]
  simp only [State.cancelInst, hi, hn, hst, List.filter_cons, List.filter_nil, decide_true, Bool.true_or, if_true, List.map_cons,
    List.map_nil, List.filterMap_cons, List.filterMap_nil, hw, Option.map_none, List.eraseDups_nil, List.foldl_cons, List.foldl_nil]
  rfl

theorem State.cancelInst_alone (h : s.GdxAlone i y n z) (hb : z.Bare) : Ended s (s.cancelInst i) i n := by
  obtain ⟨hi, hn, hzi, -⟩ := h
  have hof : s.nodesOf i = [(n, z)] := by simp [State.nodesOf, hn, hzi]
  have hinst : s.inst i = some y := by simp [State.inst, hi, Tab.find]
  have hz : (s.cancelMarked i y).node n = some z := by
    show Tab.find s.gdx.nodes n = _
    simp [hn, Tab.find]
  have hm : (s.cancelMarked i y).inst i = some { y with cancelled := true } := Tab.find_set_self _ _ _
  have hmi : (s.cancelMarked i y).gdx.insts = [(i, { y with cancelled := true })] := by
    show Tab.set s.gdx.insts i _ = _
    simp [hi, Tab.set]
  obtain ⟨z', f, hz'i, hz'st, hf⟩ := State.endNode_of_bare hz hb .cancelled
  have hup : ((s.cancelMarked i y).setNode n z').upInst z.inst f =
      ((s.cancelMarked i y).setNode n z').setInst i (f { y with cancelled := true }) := by
    rw [hzi, State.upInst]
    show (match (s.cancelMarked i y).inst i with | some x => _ | none => _) = _
    rw [hm]
  rw [State.cancelInst_of_waiting hinst hof hb.1, hf, hup]
  refine ⟨⟨f { y with cancelled := true }, ?_⟩, ⟨z', .cancelled, ?_, hz'i.trans hzi, hz'st⟩, rfl⟩
  · show Tab.set (s.cancelMarked i y).gdx.insts i _ = _
    simp [hmi, Tab.set]
  · show Tab.set s.gdx.nodes n z' = _
    simp [hn, Tab.set]

/-! Its retirement -/

theorem State.telemetry_frame (s : State) (typ : Nat) (y : SlotInst) : (s.telemetry typ y).gdx = s.gdx ∧ (s.telemetry typ y).aft = s.aft ∧
    RegsBut s (s.telemetry typ y) [.GDX_TELEM_WR, .GDX_TELEM_LOST] ∧ MemOut s (s.telemetry typ y) [s.telemRange] := by
  unfold State.telemetry
  extract_lets wr size ns w9 v
  split
  · exact ⟨rfl, rfl, (RegsBut.refl s _).put _ _ _ _ (by decide), MemOut.of_mem rfl _⟩
  · have hv : v = { s with mem := v.mem } := s.setWords_rest _ _
    have hm : MemOut s v [s.telemRange] := (s.setWords_memBut _ _).out
    clear_value v
    rw [hv] at hm ⊢
    exact ⟨rfl, rfl, ((RegsBut.refl s _).of_eq rfl).put _ _ _ _ (by decide), hm⟩

/-- SlotInst i, ended and alone, retires: nothing lives, and its record is written (R155). -/
theorem State.retire_ended {t : State} (h : Ended s t i n) :
    (t.retire i).gdx.insts = [] ∧ (t.retire i).gdx.nodes = [] ∧ (t.retire i).aft = s.aft ∧
    RegsBut s (t.retire i) [.GDX_TELEM_WR, .GDX_TELEM_LOST] ∧ MemOut s (t.retire i) [s.telemRange] := by
  obtain ⟨⟨y, hi⟩, ⟨z, how, hn, hz, -⟩, hr⟩ := h
  have hinst : t.inst i = some y := by simp [State.inst, hi, Tab.find]
  obtain ⟨hg, ha, hregs, hmem⟩ := t.telemetry_frame 1 y
  have hrange : t.telemRange = s.telemRange := by rw [hr]; rfl
  have hst : RegsBut s t [.GDX_TELEM_WR, .GDX_TELEM_LOST] := RegsBut.of_regs _ (by rw [hr])
  have hsm : MemOut s t [] := MemOut.of_mem (by rw [hr]) _
  simp only [State.retire, hinst]
  refine ⟨?_, ?_, ha.trans (by rw [hr]), (hst.trans hregs).of_eq rfl, hrange ▸ hsm.comp hmem⟩
  · show Tab.erase (t.telemetry 1 y).gdx.insts i = []
    rw [hg, hi]
    simp [Tab.erase]
  · show (t.telemetry 1 y).gdx.nodes.filter (fun p => p.2.inst ≠ i) = []
    rw [hg, hn]
    simp [hz]

theorem State.gdxSettle_of_ended {t : State} (h : Ended s t i n) : t.gdxSettle = (t.retire i).gdxShow := by
  obtain ⟨⟨y, hi⟩, ⟨z, how, hn, hz, hst⟩, -⟩ := h
  have ha : t.admitAll = t := State.admitAll_of_none (State.asking_eq_nil (by simp [hn, hst]))
  have hd : t.dueRelease = none := State.dueRelease_eq_none_iff.2 (by simp [hn, State.turnCome, hst])
  have hret : t.retirable i = true := State.retirable_iff.2 (by simp [hn, NodeInst.over, hst])
  rw [State.gdxSettle, ha, State.releaseAll_of_none hd, State.retireAll, hi, List.foldl_cons, List.foldl_nil, if_pos hret]

theorem State.cancel_of_alone {tpl tl w : Nat} (h : s.GdxAlone i y n z) (hc : y.cancelled = false) (ht : y.tpl.id = tpl) (hl : y.tl = tl)
    (hw : y.slotWord = slotId w) : s.cancel (s.instOf tpl tl w) = s.cancelInst i := by
  obtain ⟨hi, -⟩ := h
  have hof : s.instOf tpl tl w = some i := by simp [State.instOf, hi, ht, hl, hw]
  have hinst : s.inst i = some y := by simp [State.inst, hi, Tab.find]
  simp only [State.cancel, hof, hinst, hc, Bool.false_eq_true, if_false]

end

/-! ### A refill of a pool that nobody waits for (R124) -/

section
variable {s : State} {p op amount : Nat}

/-- A cancel that ended no waiting NodeInst leaves no entry that a refill would have admitted (R139). -/
theorem State.lateRefill_arrived (h : s.gdx.lastCancel.2 = []) (before : CreditPool) : Arrived s (s.lateRefill p before) := by
  simp only [State.lateRefill, h]
  split
  · exact Arrived.refl s
  · exact ⟨rfl, ((RegsBut.refl s _).of_eq rfl).put _ _ _ _ (by decide)⟩

theorem State.poolDrain_of_none (h : (s.pool p).wait = []) : s.poolDrain p = s.setPool p ⟨(s.pool p).bal, []⟩ := by
  simp only [State.poolDrain, h, CreditPool.drain, List.foldl_nil]

/-- The balance that a refill sets or adds up to (R124). -/
def refilledBal (op amount bal : Nat) : Nat := if op = 0 then amount * 1024 else min (2 ^ 40 - 1) (bal + amount * 1024)

/-- Pool p of t is x; of the dispatcher besides the pools only the cancels kept for the cycle differ from s. -/
structure Refilled (s t : State) (p : Nat) (x : CreditPool) : Prop where
  pool : t.pool p = x
  others : ∀ q, q ≠ p → t.pool q = s.pool q
  insts : t.gdx.insts = s.gdx.insts
  nodes : t.gdx.nodes = s.gdx.nodes
  regs : RegsBut s t [.REFILL_BAD, .CANCEL_SAME_CYCLE]
  rest : RegsGdx s t

theorem State.refill_of_good (hop : op < 2) (hl : s.gdx.lastCancel.2 = []) (hw : (s.pool p).wait = []) :
    Refilled s (s.refill p op amount) p ⟨refilledBal op amount (s.pool p).bal, []⟩ := by
  generalize hb : refilledBal op amount (s.pool p).bal = b
  have hlast : (s.setPool p ⟨b, []⟩).gdx.lastCancel.2 = [] := hl
  have hset : (s.setPool p ⟨b, []⟩).pool p = ⟨b, []⟩ := Tab.get_set_self _ _ _ _
  have hsetne : ∀ q, q ≠ p → (s.setPool p ⟨b, []⟩).pool q = s.pool q := fun q hq => Tab.get_set_ne _ _ hq _
  have hr : s.refill p op amount = ((s.setPool p ⟨b, []⟩).lateRefill p ⟨b, []⟩).poolDrain p := by
    simp only [State.refill, if_neg (Nat.not_le.2 hop), hw, ← hb]
    rfl
  have ha := State.lateRefill_arrived (p := p) hlast ⟨b, []⟩
  have hsr : RegsGdx s (s.setPool p ⟨b, []⟩) := s.setGdx_regsGdx _
  have hsi : (s.setPool p ⟨b, []⟩).gdx.insts = s.gdx.insts := rfl
  have hsn : (s.setPool p ⟨b, []⟩).gdx.nodes = s.gdx.nodes := rfl
  have hsregs : (s.setPool p ⟨b, []⟩).regs = s.regs := rfl
  generalize s.setPool p ⟨b, []⟩ = u at hset hsetne hr ha hsr hsi hsn hsregs
  generalize u.lateRefill p ⟨b, []⟩ = v at hr ha
  have hv : ∀ q, v.pool q = u.pool q := fun q => by rw [State.pool, ha.gdx]; rfl
  rw [hr, State.poolDrain_of_none (by rw [hv, hset])]
  refine ⟨?_, fun q hq => ?_, ha.insts.trans hsi, ha.nodes.trans hsn, ?_, hsr.trans (ha.regsGdx.trans (v.setGdx_regsGdx _))⟩
  · rw [hv, hset]
    exact Tab.get_set_self _ _ _ _
  · rw [← hsetne q hq, ← hv q]
    exact Tab.get_set_ne _ _ hq _
  · exact ((RegsBut.of_regs _ hsregs).trans (ha.regs.mono (by decide))).of_eq rfl

theorem State.refill_of_bad (hop : 2 ≤ op) : Refilled s (s.refill p op amount) p (s.pool p) ∧
    (s.refill p op amount).get F.REFILL_BAD_COUNT = min (2 ^ 32 - 1) (s.get F.REFILL_BAD_COUNT + 1) := by
  have hr : s.refill p op amount = s.count F.REFILL_BAD_COUNT := if_pos hop
  rw [hr]
  exact ⟨⟨rfl, fun _ _ => rfl, rfl, rfl, (RegsBut.refl s _).put _ _ _ _ (by decide), rfl⟩, State.get_count_self _ _ _ _ _ (by decide)⟩

end

/-! ### The clauses of O18 -/

section
variable {ch : BitVec 10} {x : WhsCh} {tl : Timeline} {c : Int} {s : State}

theorem create_makes {g : Template} (h : s.whsReady ch.toNat 1 = some (x, tl, c)) (he : s.GdxEmpty) (hen : s.flag F.GDX_CTRL_EN = true)
    (hg : s.tplCur (x.arg0 % 4096) = some g) (hb : s.tplBlocked (x.arg0 % 4096) = false) (hne : g.nodes ≠ [])
    (hl : g.nodes.length ≤ 65536) (hin : ∀ r ∈ g.nodes, 1 ≤ r.nIn) :
    Completes (.create ch) s (fun t => t.Created g x.sched.tl tl (tl.slotOf c) ∧ t.whs ch.toNat = some (x.past tl c) ∧
      RegsBut s t gdxShown ∧ MemBut s t (s.whsAddr ch.toNat) 32 ∧
      t = { s with regs := t.regs, mem := t.mem, aft := t.aft, gdx := t.gdx }) := by
  have ht := s.whsCycle_taken ch.toNat x tl c
  have htl := (ht.tl _).trans (State.whsReady_tl h)
  refine ⟨s.whsFire ch.toNat 1 (fun s x t slot =>
    let s := s.whsCycle.dueCancels x.sched.tl
    let s := if s.flag F.GDX_CTRL_EN then (s.create (x.arg0 % 4096) x.sched.tl (t.slotWord slot) (some slot)).2 else s
    s.gdxSettle), rfl, ?_⟩
  rw [State.whsFire_of_ready h]
  generalize (s.whsFired ch.toNat x tl c).whsCycle = u at ht htl
  have hue := ht.empty he
  have hm : Made u (u.create (x.arg0 % 4096) x.sched.tl (tl.slotWord (tl.slotOf c)) (some (tl.slotOf c))).2 g tl x.sched.tl (tl.slotOf c) :=
    State.create_of_empty hue (by rw [State.tplCur, ht.gdx]; exact hg) (by rw [State.tplBlocked, ht.gdx]; exact hb) htl hl
  dsimp only
  rw [State.dueCancels_of_none hue.1, if_pos ((ht.flag _ _ _).trans hen), hm.settles hne hin]
  generalize (u.create (x.arg0 % 4096) x.sched.tl (tl.slotWord (tl.slotOf c)) (some (tl.slotOf c))).2 = v at hm
  have huv : RegsGdx u v.gdxShow := hm.regsGdx.trans v.gdxShow_onlyRegs.regsGdx
  have hregs : v.regs = s.regs := by rw [hm.rest]; exact ht.regs
  exact ⟨hm.created, ht.whs_of_regsGdx huv, (RegsBut.of_regs _ hregs).trans v.gdxShow_regsBut, ht.mem_of_regsGdx huv,
    ht.rest_of_regsGdx huv⟩

theorem cancel_ends {i n : Nat} {y : SlotInst} {z : NodeInst} (h : s.whsReady ch.toNat 2 = some (x, tl, c)) (ha : s.GdxAlone i y n z)
    (hb : z.Bare) (hc : y.cancelled = false) (hid : y.tpl.id = x.arg0 % 4096) (hl : y.tl = x.sched.tl)
    (hw : y.slotWord = slotId (tl.slotWord (tl.slotOf c))) :
    Completes (.cancel ch) s (fun t => t.gdx.insts = [] ∧ t.gdx.nodes = [] ∧ t.whs ch.toNat = some (x.past tl c) ∧
      RegsBut s t (gdxShown ++ [.GDX_TELEM_WR, .GDX_TELEM_LOST]) ∧ MemOut s t [(s.whsAddr ch.toNat, 32), s.telemRange]) := by
  have ht := s.whsCycle_taken ch.toNat x tl c
  refine ⟨s.whsFire ch.toNat 2 (fun s x t slot =>
    let s := s.whsCycle
    (s.cancel (s.instOf (x.arg0 % 4096) x.sched.tl (t.slotWord slot))).gdxSettle), rfl, ?_⟩
  rw [State.whsFire_of_ready h]
  generalize (s.whsFired ch.toNat x tl c).whsCycle = u at ht
  have hua : u.GdxAlone i y n z := by
    unfold State.GdxAlone
    rw [ht.gdx]
    exact ha
  have hended := State.cancelInst_alone hua hb
  obtain ⟨hi, hn, haft, hregs, hmem⟩ := State.retire_ended hended
  dsimp only
  rw [State.cancel_of_alone hua hc hid hl hw, State.gdxSettle_of_ended hended]
  generalize (u.cancelInst i).retire i = v at hi hn haft hregs hmem
  have hrange : u.telemRange = s.telemRange := by simp only [State.telemRange, State.get_congr ht.regs]
  refine ⟨by rw [v.gdxShow_gdx, hi], by rw [v.gdxShow_gdx, hn], ?_, ?_, ?_⟩
  · rw [State.whs, v.gdxShow_onlyRegs.regsGdx.aft, haft]
    exact ht.whs
  · exact ((RegsBut.of_regs _ ht.regs).trans (hregs.mono (by decide))).trans (v.gdxShow_regsBut.mono (by decide))
  · rw [← hrange]
    exact (ht.mem.out.comp hmem).comp (MemOut.of_mem v.gdxShow_onlyRegs.regsGdx.mem [])

theorem refill_fills (h : s.whsReady ch.toNat 3 = some (x, tl, c)) (he : s.GdxEmpty) (hw : (s.pool (x.arg0 % 1024)).wait = []) :
    Completes (.refill ch) s (fun t =>
      (x.arg1 / 2 ^ 30 % 4 = 0 → t.pool (x.arg0 % 1024) = ⟨x.arg1 % 2 ^ 30 * 1024, []⟩) ∧
      (x.arg1 / 2 ^ 30 % 4 = 1 → t.pool (x.arg0 % 1024) = ⟨min (2 ^ 40 - 1) ((s.pool (x.arg0 % 1024)).bal + x.arg1 % 2 ^ 30 * 1024), []⟩) ∧
      (2 ≤ x.arg1 / 2 ^ 30 % 4 → t.pool (x.arg0 % 1024) = s.pool (x.arg0 % 1024) ∧
        t.get F.REFILL_BAD_COUNT = min (2 ^ 32 - 1) (s.get F.REFILL_BAD_COUNT + 1)) ∧
      (∀ p, p ≠ x.arg0 % 1024 → t.pool p = s.pool p) ∧ t.whs ch.toNat = some (x.past tl c) ∧
      RegsBut s t (gdxShown ++ [.REFILL_BAD, .CANCEL_SAME_CYCLE]) ∧ MemBut s t (s.whsAddr ch.toNat) 32) := by
  have ht := s.whsCycle_taken ch.toNat x tl c
  refine ⟨s.whsFire ch.toNat 3 (fun s x _ _ => (s.whsCycle.refill (x.arg0 % 1024) (x.arg1 / 2 ^ 30 % 4) (x.arg1 % 2 ^ 30)).gdxSettle), rfl, ?_⟩
  rw [State.whsFire_of_ready h]
  generalize (s.whsFired ch.toNat x tl c).whsCycle = u at ht
  generalize x.arg0 % 1024 = p at hw ⊢
  generalize x.arg1 / 2 ^ 30 % 4 = op
  generalize x.arg1 % 2 ^ 30 = amount
  obtain ⟨hui, hun, -, hul⟩ := ht.empty he
  have hall : ∃ b, Refilled u (u.refill p op amount) p b ∧ (op = 0 → b = ⟨amount * 1024, []⟩) ∧
      (op = 1 → b = ⟨min (2 ^ 40 - 1) ((s.pool p).bal + amount * 1024), []⟩) ∧
      (2 ≤ op → b = s.pool p ∧ (u.refill p op amount).get F.REFILL_BAD_COUNT = min (2 ^ 32 - 1) (s.get F.REFILL_BAD_COUNT + 1)) := by
    rcases Nat.lt_or_ge op 2 with hop | hop
    · refine ⟨_, State.refill_of_good hop hul ((congrArg CreditPool.wait (ht.pool p)).trans hw), fun h0 => ?_, fun h1 => ?_,
        fun h2 => absurd h2 (Nat.not_le.2 hop)⟩
      · rw [h0]; rfl
      · rw [h1, ht.pool]; rfl
    · obtain ⟨hr, hc⟩ := State.refill_of_bad (s := u) (p := p) (amount := amount) hop
      exact ⟨_, hr, fun h0 => by omega, fun h1 => by omega, fun _ => ⟨ht.pool p, by rw [hc, State.get_congr ht.regs]⟩⟩
  obtain ⟨b, hr, h0, h1, h2⟩ := hall
  generalize u.refill p op amount = v at hr h2
  have hpool : ∀ q, v.gdxShow.pool q = v.pool q := fun q => by rw [State.pool, v.gdxShow_gdx]; rfl
  have huv : RegsGdx u v.gdxShow := hr.rest.trans v.gdxShow_onlyRegs.regsGdx
  rw [State.gdxSettle_of_empty (hr.insts.trans hui) (hr.nodes.trans hun), hpool p, hr.pool]
  refine ⟨h0, h1, fun hop => ⟨(h2 hop).1, (v.gdxShow_regsBut.get _ (by decide) _ _).trans (h2 hop).2⟩, fun q hq => ?_,
    ht.whs_of_regsGdx huv, ?_, ht.mem_of_regsGdx huv⟩
  · rw [hpool, hr.others q hq, ht.pool]
  · exact ((RegsBut.of_regs _ ht.regs).trans (hr.regs.mono (by decide))).trans (v.gdxShow_regsBut.mono (by decide))

end

/-- Settles O18: each action finds the dispatcher as it was but for its cycle, and leaves it nothing more to do. -/
theorem whistlesDriveTheDispatcher : Obligations.WhistlesDriveTheDispatcher := by
  unfold Obligations.WhistlesDriveTheDispatcher
  exact ⟨fun _ _ _ _ _ _ => create_makes, fun _ _ _ _ _ _ _ _ _ => cancel_ends, fun _ _ _ _ _ => refill_fills⟩

end Sys2Proof.Machine
end

