-- ==== Sys2Proof/Proofs/WhistleLinks.lean ====
section
/-!
SUPPORT. Sys2Proof/Proofs/WhistleLinks.lean: a whistle's action in its tick outside the dispatcher: CONV blocks (R393, R394), gaps
(R383) and requests to power control (R447, R449), and from these O19.
-/
namespace Sys2Proof.Machine

/-! ### A channel fires -/

/-- In u a channel is y, stored in its table entry; nothing but memory and the air time differs from s. -/
structure WhistleFired (s u : State) (ch : Nat) (y : WhsCh) : Prop where
  whs : u.whs ch = some y
  mem : MemBut s u (s.whsAddr ch) 32
  rest : u = { s with mem := u.mem, aft := u.aft }

theorem State.whsFired_fired (s : State) (ch : Nat) (x : WhsCh) (tl : Timeline) (c : Int) :
    WhistleFired s (s.whsFired ch x tl c) ch (x.past tl c) :=
  ⟨s.whsFired_whs ch x tl c, s.whsFired_memBut ch x tl c, s.whsFired_frame ch x tl c⟩

section
variable {s u : State} {ch : Nat} {y : WhsCh} (h : WhistleFired s u ch y)
include h

theorem WhistleFired.regs : u.regs = s.regs := by rw [h.rest]

theorem WhistleFired.cpl : u.cpl = s.cpl := by rw [h.rest]

theorem WhistleFired.out : u.out = s.out := by rw [h.rest]

theorem WhistleFired.get (f : Fld) (i j : Nat) : u.get f i j = s.get f i j := State.get_congr h.regs f i j

theorem WhistleFired.flag (f : Fld) (i j : Nat) : u.flag f i j = s.flag f i j := by rw [State.flag, State.flag, h.get]

theorem WhistleFired.cplPort (p : Nat) : u.cplPort p = s.cplPort p := by rw [State.cplPort, State.cplPort, h.cpl]

theorem WhistleFired.cplUp (p : Nat) : u.cplUp p = s.cplUp p := by rw [State.cplUp, State.cplUp, h.get]

theorem WhistleFired.cplMinor (p : Nat) : u.cplMinor p = s.cplMinor p := h.get _ _ _

theorem WhistleFired.cplGap (p : Nat) : u.cplGap p = s.cplGap p := by rw [State.cplGap, State.cplGap, h.cplPort]

theorem WhistleFired.domState (d : Nat) : u.domState d = s.domState d := h.get _ _ _

theorem WhistleFired.domMoving (d : Nat) : u.domMoving d = s.domMoving d := by
  rw [State.domMoving, State.domMoving, h.flag, h.flag]

theorem WhistleFired.pwrDwelt (d : Nat) : u.pwrDwelt d = s.pwrDwelt d := by
  have hp : u.pwr = s.pwr := by rw [h.rest]
  have ht : u.tbu = s.tbu := by rw [h.rest]
  rw [State.pwrDwelt, State.pwrDwelt, h.get, hp, ht]

theorem WhistleFired.fieldsBut {t : State} {fs : List FieldAt} (ht : FieldsBut u t fs) : FieldsBut s t fs :=
  (FieldsBut.of_regs fs h.regs).trans ht

theorem WhistleFired.memBut {t : State} (ht : t.mem = u.mem) : MemBut s t (s.whsAddr ch) 32 := h.mem.trans (MemBut.of_mem ht _ _)

end

/-! ### What a port sends (R383, R393) -/

/-- Port p sends a block; of the registers only its field f differs, and memory and air time are the same. -/
structure PortSent (s t : State) (p : Nat) (b : CplBlock) (f : Fld) : Prop where
  out : t.out = s.out ++ [.coupler p b]
  fields : FieldsBut s t [(f, p, 0)]
  mem : t.mem = s.mem
  aft : t.aft = s.aft

section
variable {s : State} {p : Nat}

theorem State.cplPort_upCpl (f : CplPort → CplPort) : (s.upCpl p f).cplPort p = f (s.cplPort p) := Tab.get_set_self _ _ _ _

/-- A port with its transmitter ON places the block and counts it. -/
theorem State.convFire_of_on {conv word : Nat} {ctrl : Bool} (hu : s.cplUp p = true) (hd : s.domState (96 + p) = 0) :
    ∃ d < 66, PortSent s (s.convFire p conv ctrl word) p (.conv conv ctrl d word) F.CPL_CONV_SENT_CONV_SENT ∧
      (s.convFire p conv ctrl word).get F.CPL_CONV_SENT_CONV_SENT p = min (2 ^ 32 - 1) (s.get F.CPL_CONV_SENT_CONV_SENT p + 1) := by
  have hf : s.convFire p conv ctrl word = (s.upCpl p (fun c => { c with convExit := none })).convPut p conv ctrl word := by
    rw [State.convFire, hd, if_neg (by simp [hu]), if_neg (by decide)]
  rw [hf]
  exact ⟨_, Nat.mod_lt _ (by decide), ⟨rfl, ((FieldsBut.refl s _).of_eq rfl).count _ _ _ _ List.mem_cons_self, rfl, rfl⟩,
    State.get_count_self _ _ _ _ _ (by decide)⟩

/-- BEGIN is sent on an UP port that has no gap. -/
theorem State.gapOpen_of_up (hu : s.cplUp p = true) (hm : 1 ≤ s.cplMinor p) (hg : s.cplGap p = false) :
    PortSent s (s.gapOpen p) p .gapBegin F.CPL_PORT_STATUS_GAP_OPEN ∧
      ((s.gapOpen p).cplPort p).gap = .begun ∧ ((s.gapOpen p).cplPort p).gapOwn = true ∧
      (s.gapOpen p).get F.CPL_PORT_STATUS_GAP_OPEN p = 1 := by
  have ho : s.gapOpen p = ((s.upCpl p (fun c => { c with gap := .begun, gapOwn := true })).set F.CPL_PORT_STATUS_GAP_OPEN p).cplSend p
      .gapBegin := by
    rw [State.gapOpen, if_pos ⟨hu, hm⟩, if_neg (by simp [hg])]
  have hport := s.cplPort_upCpl (p := p) (fun c => { c with gap := .begun, gapOwn := true })
  rw [ho]
  exact ⟨⟨rfl, ((FieldsBut.refl s _).of_eq rfl).set _ _ _ List.mem_cons_self, rfl, rfl⟩, congrArg CplPort.gap hport,
    congrArg CplPort.gapOwn hport, State.get_set_self _ _ _ _ (by decide) (by decide)⟩

theorem State.gapOpen_of_down (hu : s.cplUp p = false) : s.gapOpen p = s.count F.CPL_GAP_IGNORED_GAP_IGNORED 1 p := by
  rw [State.gapOpen, if_neg (by simp [hu])]

theorem State.pwrResume_of_none {d : Nat} (h : s.flag F.PWR_DOM_STATE_PENDING_VALID 0 d = false) : s.pwrResume d = s := by
  rw [State.pwrResume, if_neg (by simp [h])]

/-- A port without a gap. -/
def CplPort.gapless (c : CplPort) : CplPort := { c with gap := .none, gapOwn := false, probes := [], rtts := [] }

/-- The port's part of the end of a gap that no power request waits for (R386). -/
theorem State.cplGapOver_of_none (ht : s.flag F.PWR_DOM_STATE_PENDING_VALID 0 (96 + p) = false)
    (hr : s.flag F.PWR_DOM_STATE_PENDING_VALID 0 (112 + p) = false) :
    s.cplGapOver p = (s.upCpl p CplPort.gapless).clr F.CPL_PORT_STATUS_GAP_OPEN p := by
  show (((s.upCpl p CplPort.gapless).clr F.CPL_PORT_STATUS_GAP_OPEN p).pwrResume (96 + p)).pwrResume (112 + p) = _
  generalize hv : (s.upCpl p CplPort.gapless).clr F.CPL_PORT_STATUS_GAP_OPEN p = v
  have hb : FieldsBut s v [(F.CPL_PORT_STATUS_GAP_OPEN, p, 0)] := by
    rw [← hv]
    exact ((FieldsBut.refl s _).of_eq rfl).clr _ _ _ List.mem_cons_self
  have hflag : ∀ d, v.flag F.PWR_DOM_STATE_PENDING_VALID 0 d = s.flag F.PWR_DOM_STATE_PENDING_VALID 0 d := fun d => by
    rw [State.flag, State.flag, hb.get _ _ _ (by simp)]
  rw [State.pwrResume_of_none ((hflag _).trans ht), State.pwrResume_of_none ((hflag _).trans hr)]

/-- A gap in which nothing was measured ends with END alone. -/
theorem State.gapClose_of_unmeasured (hg : s.cplGap p = true) (hrtt : (s.cplPort p).rtts = []) (hdue : (s.cplPort p).delayDue = false)
    (ht : s.flag F.PWR_DOM_STATE_PENDING_VALID 0 (96 + p) = false) (hr : s.flag F.PWR_DOM_STATE_PENDING_VALID 0 (112 + p) = false) :
    PortSent s (s.gapClose p) p .gapEnd F.CPL_PORT_STATUS_GAP_OPEN ∧ ((s.gapClose p).cplPort p).gap = .none ∧
      (s.gapClose p).get F.CPL_PORT_STATUS_GAP_OPEN p = 0 := by
  have hmeasure : (s.cplSend p .gapEnd).cplMeasure p = s.cplSend p .gapEnd := if_pos hrtt
  have hport := (s.cplSend p .gapEnd).cplPort_upCpl (p := p) CplPort.gapless
  have hover : (s.cplSend p .gapEnd).cplGapOver p = ((s.cplSend p .gapEnd).upCpl p CplPort.gapless).clr F.CPL_PORT_STATUS_GAP_OPEN p :=
    State.cplGapOver_of_none ht hr
  have hdelay : (((s.cplSend p .gapEnd).upCpl p CplPort.gapless).clr F.CPL_PORT_STATUS_GAP_OPEN p).cplDelay p =
      ((s.cplSend p .gapEnd).upCpl p CplPort.gapless).clr F.CPL_PORT_STATUS_GAP_OPEN p :=
    if_neg fun h => Bool.false_ne_true (((congrArg CplPort.delayDue hport).trans hdue).symm.trans h.1)
  have hc : s.gapClose p = ((s.cplSend p .gapEnd).upCpl p CplPort.gapless).clr F.CPL_PORT_STATUS_GAP_OPEN p := by
    rw [State.gapClose, if_pos hg, State.cplEndGap, hmeasure, hover, hdelay]
  rw [hc]
  exact ⟨⟨rfl, ((FieldsBut.refl s _).of_eq rfl).clr _ _ _ List.mem_cons_self, rfl, rfl⟩, congrArg CplPort.gap hport,
    State.get_clr_self _ _ _ _ (by decide)⟩

end

/-! ### Requests for a cluster (R447, R449) -/

section
variable {s : State} {d : Nat}

theorem domAllowed_of_cluster (h : d < 24) : domAllowed d = [0, 1, 2, 3, 5] := if_pos (by omega)

/-- A request of a state that a resting cluster may be in starts at once. -/
theorem State.pwrRequest_of_cluster {g : Nat} (hd : d < 24) (hm : s.domMoving d = false) (hg : g ≤ 2) :
    s.pwrRequest d g = s.pwrStart d g := by
  have hw : s.pwrWaits d = false := by
    have hlt : ¬ 96 ≤ d := by omega
    simp [State.pwrWaits, hm, hlt]
  have hin : g ∈ domAllowed d := by
    rw [domAllowed_of_cluster hd]
    interval_cases g <;> decide
  rw [State.pwrRequest, if_neg (not_not_intro hin), if_neg (by omega), hw, if_neg Bool.false_ne_true]

/-- The judge lets a cluster, dwelt in RUN, into a state that its policy allows, and out of any state. -/
theorem State.pwrJudge_of_cluster {g : Nat} (hd : d < 24) (hg : g ≤ 2)
    (h : s.domState d < g → g ≤ s.get F.PWR_DOM_POLICY_DEEPEST 0 d ∧ s.pwrDwelt d = true) : s.pwrJudge d g = 0 := by
  have hdeep : ¬ (s.domState d < g ∧ s.get F.PWR_DOM_POLICY_DEEPEST 0 d < g ∧ d ≠ 255) := fun ⟨hlt, hdp, _⟩ =>
    absurd (h hlt).1 (Nat.not_le.2 hdp)
  rw [State.pwrJudge, if_neg hdeep, if_neg fun ⟨hlt, hdw⟩ => hdw (h hlt).2, if_neg (by omega), if_neg (by omega)]

/-- A cluster in RUN starts its entry into TRIM or DOZE. -/
theorem State.pwrRequest_enters {g : Nat} (hd : d < 24) (hm : s.domMoving d = false) (hg : g = 1 ∨ g = 2) (hs : s.domState d = 0)
    (hp : g ≤ s.get F.PWR_DOM_POLICY_DEEPEST 0 d) (hw : s.pwrDwelt d = true) :
    s.pwrRequest d g = (s.setPwr { s.pwr with dozedFrom := Tab.erase s.pwr.dozedFrom d }).putAll 0 d
      [(F.PWR_DOM_STATE_TARGET, g), (F.PWR_DOM_STATE_ENTERING, 1), (F.PWR_DOM_STATE_STEP, g - 1)] := by
  have hpos : 0 < g := by omega
  have hstep : (if g = 1 then 0 else if domCore d ∧ (0 : Nat) = 3 then 4 else 1) = g - 1 := by
    rcases hg with rfl | rfl
    · rfl
    · simp
  have hj : s.pwrJudge d g = 0 := State.pwrJudge_of_cluster hd (by omega) fun _ => ⟨hp, hw⟩
  rw [State.pwrRequest_of_cluster hd hm (by omega), State.pwrStart, hs, if_neg (by omega), hj]
  dsimp only
  rw [if_neg (by decide), if_pos hpos, State.pwrEnter, if_neg (by omega), hstep]

/-- A cluster in DOZE starts its wake into RUN. -/
theorem State.pwrRequest_wakes (hd : d < 24) (hm : s.domMoving d = false) (hs : s.domState d = 2) :
    s.pwrRequest d 0 = s.putAll 0 d [(F.PWR_DOM_STATE_TARGET, 0), (F.PWR_DOM_STATE_WAKING, 1)] := by
  have hj : s.pwrJudge d 0 = 0 := State.pwrJudge_of_cluster hd (by decide) fun h => absurd h (Nat.not_lt_zero _)
  rw [State.pwrRequest_of_cluster hd hm (by decide), State.pwrStart, hs, if_neg (by decide), hj]
  dsimp only
  rw [if_neg (by decide), if_neg (by decide)]

end

/-! ### The clauses of O19 -/

section
variable {ch : BitVec 10} {x : WhsCh} {tl : Timeline} {c : Int} {s : State}

theorem exec_conv (ctrl : Bool) : exec (if ctrl then .convCtrl ch else .convStart ch) s = .next (s.whsFire ch.toNat (if ctrl then 5 else 4)
    (fun s x _ _ => s.convFire (x.arg0 % 16) (natBits x.arg0 8 8) ctrl x.arg1)) := by
  cases ctrl <;> rfl

theorem conv_sends {ctrl : Bool} (h : s.whsReady ch.toNat (if ctrl then 5 else 4) = some (x, tl, c)) (hu : s.cplUp (x.arg0 % 16) = true)
    (hd : s.domState (96 + x.arg0 % 16) = 0) :
    Completes (if ctrl then .convCtrl ch else .convStart ch) s (fun t =>
      (∃ d, d < 66 ∧ t.out = s.out ++ [.coupler (x.arg0 % 16) (.conv (natBits x.arg0 8 8) ctrl d x.arg1)]) ∧
      t.get F.CPL_CONV_SENT_CONV_SENT (x.arg0 % 16) = min (2 ^ 32 - 1) (s.get F.CPL_CONV_SENT_CONV_SENT (x.arg0 % 16) + 1) ∧
      t.whs ch.toNat = some (x.past tl c) ∧ FieldsBut s t [(F.CPL_CONV_SENT_CONV_SENT, x.arg0 % 16, 0)] ∧
      MemBut s t (s.whsAddr ch.toNat) 32) := by
  have hf := s.whsFired_fired ch.toNat x tl c
  refine ⟨_, exec_conv ctrl, ?_⟩
  rw [State.whsFire_of_ready h]
  generalize s.whsFired ch.toNat x tl c = u at hf
  obtain ⟨d, hd66, hsent, hcount⟩ := u.convFire_of_on (conv := natBits x.arg0 8 8) (ctrl := ctrl) (word := x.arg1)
    ((hf.cplUp _).trans hu) ((hf.domState _).trans hd)
  refine ⟨⟨d, hd66, by rw [hsent.out, hf.out]⟩, by rw [hcount, hf.get], ?_, hf.fieldsBut hsent.fields, hf.memBut hsent.mem⟩
  rw [State.whs, hsent.aft]
  exact hf.whs

theorem quietExit_starts {port : Fin 16} (hu : s.cplUp port = true) (hd : s.domState (96 + port.val) = 3) (ha : s.convArmed port = true) :
    Completes (.quietExitForConv port) s (fun t => (t.cplPort port).convExit = some s.tbu.ticks ∧ t = { s with cpl := t.cpl }) :=
  ⟨s.upCpl port (fun c => { c with convExit := some s.tbu.ticks }), congrArg Host.Outcome.next (if_pos ⟨hu, hd, ha⟩),
    congrArg CplPort.convExit (s.cplPort_upCpl _), rfl⟩

theorem quietExit_ignored {port : Fin 16} (h : s.cplUp port = false ∨ s.domState (96 + port.val) ≠ 3 ∨ s.convArmed port = false) :
    exec (.quietExitForConv port) s = .next s := by
  refine congrArg Host.Outcome.next (if_neg fun ⟨hu, hd, ha⟩ => ?_)
  rcases h with h | h | h
  · exact absurd hu (by simp [h])
  · exact h hd
  · exact absurd ha (by simp [h])

/-- A GAP whistle does its operation on the one port of its mask, after it fired. -/
theorem whsFire_port {p action : Nat} (h : s.whsReady ch.toNat action = some (x, tl, c)) (hp : maskPorts x.arg0 = [p])
    (f : State → Nat → State) :
    s.whsFire ch.toNat action (fun s x _ _ => (maskPorts x.arg0).foldl f s) = f (s.whsFired ch.toNat x tl c) p := by
  rw [State.whsFire_of_ready h, hp, List.foldl_cons, List.foldl_nil]

theorem gapOpen_begins {p : Nat} (h : s.whsReady ch.toNat 6 = some (x, tl, c)) (hp : maskPorts x.arg0 = [p]) (hu : s.cplUp p = true)
    (hm : 1 ≤ s.cplMinor p) (hg : s.cplGap p = false) :
    Completes (.gapOpen ch) s (fun t => (t.cplPort p).gap = .begun ∧ (t.cplPort p).gapOwn = true ∧
      t.out = s.out ++ [.coupler p .gapBegin] ∧ t.get F.CPL_PORT_STATUS_GAP_OPEN p = 1 ∧
      FieldsBut s t [(F.CPL_PORT_STATUS_GAP_OPEN, p, 0)] ∧ MemBut s t (s.whsAddr ch.toNat) 32) := by
  have hf := s.whsFired_fired ch.toNat x tl c
  refine ⟨_, rfl, ?_⟩
  rw [whsFire_port h hp State.gapOpen]
  generalize s.whsFired ch.toNat x tl c = u at hf
  obtain ⟨hsent, hgap, hown, hopen⟩ := u.gapOpen_of_up ((hf.cplUp p).trans hu) (hf.cplMinor p ▸ hm) ((hf.cplGap p).trans hg)
  exact ⟨hgap, hown, by rw [hsent.out, hf.out], hopen, hf.fieldsBut hsent.fields, hf.memBut hsent.mem⟩

theorem gapOpen_ignored {p : Nat} (h : s.whsReady ch.toNat 6 = some (x, tl, c)) (hp : maskPorts x.arg0 = [p]) (hu : s.cplUp p = false) :
    Completes (.gapOpen ch) s (fun t => t.cpl = s.cpl ∧ t.out = s.out ∧ FieldsBut s t [(F.CPL_GAP_IGNORED_GAP_IGNORED, p, 0)] ∧
      t.get F.CPL_GAP_IGNORED_GAP_IGNORED p =
        min (2 ^ F.CPL_GAP_IGNORED_GAP_IGNORED.len - 1) (s.get F.CPL_GAP_IGNORED_GAP_IGNORED p + 1)) := by
  have hf := s.whsFired_fired ch.toNat x tl c
  refine ⟨_, rfl, ?_⟩
  rw [whsFire_port h hp State.gapOpen]
  generalize s.whsFired ch.toNat x tl c = u at hf
  rw [State.gapOpen_of_down ((hf.cplUp p).trans hu)]
  exact ⟨hf.cpl, hf.out, hf.fieldsBut ((FieldsBut.refl u _).count _ _ _ _ List.mem_cons_self),
    by rw [State.get_count_self _ _ _ _ _ (by decide), hf.get]⟩

theorem gapClose_ends {p : Nat} (h : s.whsReady ch.toNat 7 = some (x, tl, c)) (hp : maskPorts x.arg0 = [p]) (hg : s.cplGap p = true)
    (hrtt : (s.cplPort p).rtts = []) (hdue : (s.cplPort p).delayDue = false)
    (ht : s.flag F.PWR_DOM_STATE_PENDING_VALID 0 (96 + p) = false) (hr : s.flag F.PWR_DOM_STATE_PENDING_VALID 0 (112 + p) = false) :
    Completes (.gapClose ch) s (fun t => (t.cplPort p).gap = .none ∧ t.out = s.out ++ [.coupler p .gapEnd] ∧
      t.get F.CPL_PORT_STATUS_GAP_OPEN p = 0 ∧ FieldsBut s t [(F.CPL_PORT_STATUS_GAP_OPEN, p, 0)] ∧
      MemBut s t (s.whsAddr ch.toNat) 32) := by
  have hf := s.whsFired_fired ch.toNat x tl c
  refine ⟨_, rfl, ?_⟩
  rw [whsFire_port h hp State.gapClose]
  generalize s.whsFired ch.toNat x tl c = u at hf
  obtain ⟨hsent, hgap, hopen⟩ := u.gapClose_of_unmeasured ((hf.cplGap p).trans hg) ((congrArg CplPort.rtts (hf.cplPort p)).trans hrtt)
    ((congrArg CplPort.delayDue (hf.cplPort p)).trans hdue) ((hf.flag _ _ _).trans ht) ((hf.flag _ _ _).trans hr)
  exact ⟨hgap, by rw [hsent.out, hf.out], hopen, hf.fieldsBut hsent.fields, hf.memBut hsent.mem⟩

theorem power_enters {g : Nat} (h : s.whsReady ch.toNat 11 = some (x, tl, c)) (hd : x.arg0 % 256 < 24)
    (hm : s.domMoving (x.arg0 % 256) = false) (hx : x.arg1 % 8 = g) (hg : g = 1 ∨ g = 2) (hs : s.domState (x.arg0 % 256) = 0)
    (hp : g ≤ s.get F.PWR_DOM_POLICY_DEEPEST 0 (x.arg0 % 256)) (hw : s.pwrDwelt (x.arg0 % 256) = true) :
    Completes (.power ch) s (fun t => t.get F.PWR_DOM_STATE_TARGET 0 (x.arg0 % 256) = g ∧
      t.get F.PWR_DOM_STATE_ENTERING 0 (x.arg0 % 256) = 1 ∧ t.get F.PWR_DOM_STATE_STEP 0 (x.arg0 % 256) = g - 1 ∧
      t.domState (x.arg0 % 256) = 0 ∧ RegsBut s t [.PWR_DOM_STATE] ∧ MemBut s t (s.whsAddr ch.toNat) 32) := by
  have hf := s.whsFired_fired ch.toNat x tl c
  refine ⟨s.whsFire ch.toNat 11 (fun s x _ _ => s.pwrRequest (x.arg0 % 256) (x.arg1 % 8)), rfl, ?_⟩
  rw [State.whsFire_of_ready h, hx]
  generalize s.whsFired ch.toNat x tl c = u at hf
  generalize x.arg0 % 256 = d at hd hm hs hp hw ⊢
  rw [State.pwrRequest_enters hd ((hf.domMoving d).trans hm) hg ((hf.domState d).trans hs) (hf.get _ _ _ ▸ hp) ((hf.pwrDwelt d).trans hw)]
  have hv : (u.setPwr { u.pwr with dozedFrom := Tab.erase u.pwr.dozedFrom d }).regs = s.regs := hf.regs
  have hvm : (u.setPwr { u.pwr with dozedFrom := Tab.erase u.pwr.dozedFrom d }).mem = u.mem := rfl
  generalize u.setPwr { u.pwr with dozedFrom := Tab.erase u.pwr.dozedFrom d } = v at hv hvm
  have hg7 : g % 2 ^ 3 = g := by rcases hg with rfl | rfl <;> rfl
  have hg8 : (g - 1) % 2 ^ 3 = g - 1 := by rcases hg with rfl | rfl <;> rfl
  have hall := v.get_putAll_each (l := [(F.PWR_DOM_STATE_TARGET, g), (F.PWR_DOM_STATE_ENTERING, 1), (F.PWR_DOM_STATE_STEP, g - 1)])
    0 d (by simp) (by simp [Fld.Apart])
  refine ⟨(hall (F.PWR_DOM_STATE_TARGET, g) (by simp)).trans hg7, hall (F.PWR_DOM_STATE_ENTERING, 1) (by simp),
    (hall (F.PWR_DOM_STATE_STEP, g - 1) (by simp)).trans hg8, ?_, (RegsBut.of_regs _ hv).putAll _ _ _ (by simp), ?_⟩
  · rw [State.domState, State.get_putAll_ne _ _ _ _ _ _ _ (by decide) (by simp), State.get_congr hv]
    exact hs
  · exact hf.memBut hvm

theorem power_wakes (h : s.whsReady ch.toNat 11 = some (x, tl, c)) (hd : x.arg0 % 256 < 24)
    (hm : s.domMoving (x.arg0 % 256) = false) (hx : x.arg1 % 8 = 0) (hs : s.domState (x.arg0 % 256) = 2) :
    Completes (.power ch) s (fun t => t.get F.PWR_DOM_STATE_TARGET 0 (x.arg0 % 256) = 0 ∧
      t.get F.PWR_DOM_STATE_WAKING 0 (x.arg0 % 256) = 1 ∧ t.domState (x.arg0 % 256) = 2 ∧
      FieldsBut s t [(F.PWR_DOM_STATE_TARGET, 0, x.arg0 % 256), (F.PWR_DOM_STATE_WAKING, 0, x.arg0 % 256)] ∧
      MemBut s t (s.whsAddr ch.toNat) 32) := by
  have hf := s.whsFired_fired ch.toNat x tl c
  refine ⟨s.whsFire ch.toNat 11 (fun s x _ _ => s.pwrRequest (x.arg0 % 256) (x.arg1 % 8)), rfl, ?_⟩
  rw [State.whsFire_of_ready h, hx]
  generalize s.whsFired ch.toNat x tl c = u at hf
  generalize x.arg0 % 256 = d at hd hm hs ⊢
  rw [State.pwrRequest_wakes hd ((hf.domMoving d).trans hm) ((hf.domState d).trans hs)]
  have hall := u.get_putAll_each (l := [(F.PWR_DOM_STATE_TARGET, 0), (F.PWR_DOM_STATE_WAKING, 1)]) 0 d (by simp) (by simp [Fld.Apart])
  refine ⟨hall (F.PWR_DOM_STATE_TARGET, 0) (by simp), hall (F.PWR_DOM_STATE_WAKING, 1) (by simp), ?_,
    hf.fieldsBut ((FieldsBut.refl u _).putAll _ _ _ (by simp)), hf.memBut rfl⟩
  rw [State.domState, State.get_putAll_ne _ _ _ _ _ _ _ (by decide) (by simp), hf.get]
  exact hs

end

/-- Settles O19: each action finds the coupler ports and the power domains as they were before the whistle fired. -/
theorem whistlesDriveCouplersAndPower : Obligations.WhistlesDriveCouplersAndPower := by
  unfold Obligations.WhistlesDriveCouplersAndPower
  exact ⟨fun _ _ _ _ _ _ => conv_sends, fun _ _ => ⟨quietExit_starts, quietExit_ignored⟩,
    fun _ _ _ _ _ _ h hp => ⟨gapOpen_begins h hp, gapOpen_ignored h hp⟩, fun _ _ _ _ _ _ => gapClose_ends,
    fun _ _ _ _ _ h hd hm => ⟨fun _ hx => power_enters h hd hm hx, power_wakes h hd hm⟩⟩

end Sys2Proof.Machine
end

