-- ==== Sys2Proof/Proofs/TemplateInstalls.lean ====
section
/-!
SUPPORT. Sys2Proof/Proofs/TemplateInstalls.lean: an image is installed whole or not at all, and templates are removed, blocked and
unblocked one by one (R112, R113); from these O20.
-/
namespace Sys2Proof.Machine

/-! ### What is read of an image (R105 to R112) -/

/-- Both states hold the same images, kernels and templates, and their pools lie at the same place. -/
structure SameImages (s t : State) : Prop where
  mem : t.mem = s.mem
  gdx : t.gdx = s.gdx
  exu : t.exu = s.exu
  pools : t.get F.GDX_BUFPOOL_BASE_BASE = s.get F.GDX_BUFPOOL_BASE_BASE

theorem OnlyRegs.sameImages {s t : State} {rs : List Reg} (h : OnlyRegs s t) (hr : RegsBut s t rs) (hn : Reg.GDX_BUFPOOL_BASE ∉ rs) :
    SameImages s t :=
  ⟨h.regsGdx.mem, h.gdx, h.regsGdx.exu, hr.get F.GDX_BUFPOOL_BASE_BASE hn 0 0⟩

section
variable {s t : State} (h : SameImages s t)
include h

theorem SameImages.word (a : Nat) : t.word a = s.word a := by rw [State.word, State.word, h.mem]

theorem SameImages.words (a n : Nat) : t.words a n = s.words a n := by
  induction n generalizing a with
  | zero => rfl
  | succ n ih => rw [State.words, State.words, h.word, ih]

theorem SameImages.bytes (a n : Nat) : t.bytes a n = s.bytes a n := by rw [State.bytes, State.bytes, h.mem]

theorem SameImages.dirEntry (a k : Nat) : t.dirEntry a k = s.dirEntry a k := by simp only [State.dirEntry, h.word]

theorem SameImages.imageCause (a len : Nat) : t.imageCause a len = s.imageCause a len := by
  simp only [State.imageCause, h.word, h.bytes, h.dirEntry]

theorem SameImages.parseTpl (a off minor version : Nat) : t.parseTpl a off minor version = s.parseTpl a off minor version := by
  simp only [State.parseTpl, State.nodeRec, State.jobTemplate, h.word, h.words, h.exu]

theorem SameImages.poolCount (p : Nat) : t.poolCount p = s.poolCount p := by
  rw [State.poolCount, State.poolCount, State.poolAddr, State.poolAddr, h.word, h.pools]

theorem SameImages.tplCause (n : Nat) (g : Template) : t.tplCause n g = s.tplCause n g := by
  simp only [State.tplCause, h.poolCount, h.exu]

theorem SameImages.checkTpls (a minor n k : Nat) (acc : List Template) : t.checkTpls a minor n k acc = s.checkTpls a minor n k acc := by
  induction n generalizing k acc with
  | zero => rfl
  | succ n ih => simp only [State.checkTpls, h.word, h.dirEntry, h.parseTpl, h.tplCause, h.gdx, ih]

end

/-- No template stands twice in an image that passes every check (cause 0xC of Table 4-6). -/
theorem State.checkTpls_nodup {s : State} {a minor n k : Nat} {acc ts : List Template} (h : s.checkTpls a minor n k acc = .inr ts)
    (hacc : (acc.map (·.id)).Nodup) : (ts.map (·.id)).Nodup := by
  induction n generalizing k acc with
  | zero =>
    cases h
    exact hacc
  | succ n ih =>
    simp only [State.checkTpls] at h
    split at h
    · cases h
    · split at h
      · cases h
      next hnew =>
        refine ih h ?_
        simp only [List.any_eq_true, decide_eq_true_eq, not_exists, not_and] at hnew
        rw [List.map_append, List.nodup_append]
        refine ⟨hacc, List.nodup_singleton _, fun i hi j hj => ?_⟩
        obtain ⟨u, hu, rfl⟩ := List.mem_map.1 hi
        rw [List.mem_singleton.1 hj]
        exact hnew u hu

/-! ### The table of installed templates -/

/-- The templates of an image, unblocked, in the table. -/
def withTemplates (m : Tab Nat TplSlot) (ts : List Template) : Tab Nat TplSlot :=
  ts.foldl (fun m g => Tab.set m g.id ⟨some g, false⟩) m

section
variable {m : Tab Nat TplSlot} {ts : List Template} (d : TplSlot)

theorem get_withTemplates_ne {k : Nat} (h : ∀ g ∈ ts, g.id ≠ k) : Tab.get d (withTemplates m ts) k = Tab.get d m k := by
  induction ts generalizing m with
  | nil => rfl
  | cons g ts ih =>
    rw [List.forall_mem_cons] at h
    exact (ih h.2).trans (Tab.get_set_ne d m h.1.symm _)

theorem get_withTemplates_mem (h : (ts.map (·.id)).Nodup) {g : Template} (hg : g ∈ ts) :
    Tab.get d (withTemplates m ts) g.id = ⟨some g, false⟩ := by
  induction ts generalizing m with
  | nil => cases hg
  | cons u ts ih =>
    rw [List.map_cons, List.nodup_cons] at h
    obtain ⟨hu, h⟩ := h
    rcases List.mem_cons.1 hg with rfl | hg
    · exact (get_withTemplates_ne d fun v hv he => hu (List.mem_map.2 ⟨v, hv, he⟩)).trans (Tab.get_set_self d m _ _)
    · exact ih h hg

end

/-! ### The install (R112) -/

/-- The address of an image that is to be installed (Table 4-16). -/
def State.imageAddr (s : State) : Nat := s.get F.GDX_TPL_ADDR_LO_ADDR + s.get F.GDX_TPL_ADDR_HI_ADDR * 2 ^ 32

/-- n templates more have been checked, and those of ts are installed. -/
def State.withImage (s : State) (n : Nat) (ts : List Template) : State :=
  s.setGdx { s.gdx with nextVersion := s.gdx.nextVersion + n, templates := withTemplates s.gdx.templates ts }

/-- An install has been refused with cause c at index k. -/
def State.installRefused (s : State) (c k : Nat) : State :=
  s.putAll 0 0 [(F.GDX_TPL_STATUS_REFUSED, 1), (F.GDX_TPL_STATUS_CAUSE, c), (F.GDX_TPL_STATUS_INDEX, k)]

/-- TEMPLATE_INSTALL has stored its operation. -/
def State.installAsked (s : State) : State := s.put F.GDX_TPL_CMD_OP 0

section
variable {s : State} {len c : Nat} {fits : Bool} {ts : List Template}

theorem State.installAsked_regsBut (s : State) : RegsBut s s.installAsked [.GDX_TPL_CMD] := (RegsBut.refl s _).put _ _ _ _ (by decide)

theorem State.installAsked_sameImages (s : State) : SameImages s s.installAsked :=
  ((OnlyRegs.refl s).put _ _ _ _).sameImages s.installAsked_regsBut (by decide)

theorem State.installAsked_imageAddr (s : State) : s.installAsked.imageAddr = s.imageAddr := by
  rw [State.imageAddr, State.imageAddr, s.installAsked_regsBut.get _ (by decide), s.installAsked_regsBut.get _ (by decide)]

theorem State.install_eq {t : State} {k : Nat} (h : s.installAt s.imageAddr len fits = ((c, k), t)) :
    s.install len fits = if c = 0 then t else t.installRefused c k := by
  unfold State.imageAddr at h
  simp only [State.install, h]
  rfl

theorem State.install_of_cause (h : s.imageCause s.imageAddr len = c) (hc : c ≠ 0) : s.install len fits = s.installRefused c 0 := by
  have hi : s.installAt s.imageAddr len fits = ((c, 0), s) := by simp only [State.installAt, h, if_pos hc]
  rw [State.install_eq hi, if_neg hc]

theorem State.install_of_valid (h : s.imageCause s.imageAddr len = 0)
    (ht : s.checkTpls s.imageAddr (natBits (s.word (s.imageAddr + 4)) 0 16) (natBits (s.word (s.imageAddr + 8)) 0 13) 0 [] = .inr ts) :
    s.install len fits = if fits then s.withImage (natBits (s.word (s.imageAddr + 8)) 0 13) ts else s.installRefused 0xB 0 := by
  have hi : s.installAt s.imageAddr len fits =
      if fits then ((0, 0), s.withImage (natBits (s.word (s.imageAddr + 8)) 0 13) ts) else ((0xB, 0), s) := by
    simp only [State.installAt, h, ht]
    cases fits
    · rfl
    · rfl
  cases fits
  · exact State.install_eq hi
  · exact State.install_eq hi

theorem installRefused_shows {s t : State} (hr : RegsBut s t [.GDX_TPL_CMD]) (ho : OnlyRegs s t) (hc : c < 16) :
    (t.installRefused c 0).get F.GDX_TPL_STATUS_REFUSED = 1 ∧ (t.installRefused c 0).get F.GDX_TPL_STATUS_CAUSE = c ∧
    RegsBut s (t.installRefused c 0) [.GDX_TPL_CMD, .GDX_TPL_STATUS] ∧ OnlyRegs s (t.installRefused c 0) := by
  have hall := t.get_putAll_each (l := [(F.GDX_TPL_STATUS_REFUSED, 1), (F.GDX_TPL_STATUS_CAUSE, c), (F.GDX_TPL_STATUS_INDEX, 0)]) 0 0
    (by simp) (by simp [Fld.Apart])
  refine ⟨hall (F.GDX_TPL_STATUS_REFUSED, 1) (by simp), (hall (F.GDX_TPL_STATUS_CAUSE, c) (by simp)).trans (Nat.mod_eq_of_lt hc),
    (hr.mono (by simp)).putAll _ _ _ (by simp), ho.putAll _ _ _⟩

theorem exec_templateInstall (len : Nat) (fits : Bool) (s : State) :
    exec (.templateInstall len fits) s = .next (s.installAsked.install len fits) := rfl

theorem templateInstall_refused (h : s.imageCause s.imageAddr len = c) (hc : c ≠ 0) (hc16 : c < 16) :
    Completes (.templateInstall len fits) s (fun t => t.get F.GDX_TPL_STATUS_REFUSED = 1 ∧ t.get F.GDX_TPL_STATUS_CAUSE = c ∧
      RegsBut s t [.GDX_TPL_CMD, .GDX_TPL_STATUS] ∧ t = { s with regs := t.regs }) := by
  refine ⟨_, exec_templateInstall len fits s, ?_⟩
  rw [State.install_of_cause (by rw [s.installAsked_sameImages.imageCause, s.installAsked_imageAddr, h]) hc]
  exact installRefused_shows s.installAsked_regsBut ((OnlyRegs.refl s).put _ _ _ _) hc16

theorem templateInstall_valid (h : s.imageCause s.imageAddr len = 0)
    (ht : s.checkTpls s.imageAddr (natBits (s.word (s.imageAddr + 4)) 0 16) (natBits (s.word (s.imageAddr + 8)) 0 13) 0 [] = .inr ts) :
    (Completes (.templateInstall len true) s (fun t => (∀ g ∈ ts, t.tplCur g.id = some g ∧ t.tplBlocked g.id = false) ∧
      (∀ k, (∀ g ∈ ts, g.id ≠ k) → t.tplCur k = s.tplCur k ∧ t.tplBlocked k = s.tplBlocked k) ∧ t.gdx.insts = s.gdx.insts ∧
      FieldsBut s t [(F.GDX_TPL_CMD_OP, 0, 0)] ∧ t = { s with regs := t.regs, gdx := t.gdx })) ∧
    Completes (.templateInstall len false) s (fun t => t.get F.GDX_TPL_STATUS_REFUSED = 1 ∧ t.get F.GDX_TPL_STATUS_CAUSE = 0xB ∧
      RegsBut s t [.GDX_TPL_CMD, .GDX_TPL_STATUS] ∧ t = { s with regs := t.regs }) := by
  have hs := s.installAsked_sameImages
  have hnd := State.checkTpls_nodup ht List.nodup_nil
  have hi (fits : Bool) := State.install_of_valid (s := s.installAsked) (len := len) (fits := fits) (ts := ts)
    (by rw [hs.imageCause, s.installAsked_imageAddr, h]) (by rw [hs.checkTpls, hs.word, hs.word, s.installAsked_imageAddr, ht])
  refine ⟨⟨_, (exec_templateInstall len true s).trans (congrArg Host.Outcome.next (hi true)), fun g hg => ?_, fun k hk => ?_, rfl,
    (FieldsBut.put_self s _ _ _ _).of_eq rfl, rfl⟩, ⟨_, (exec_templateInstall len false s).trans (congrArg Host.Outcome.next (hi false)),
    installRefused_shows s.installAsked_regsBut ((OnlyRegs.refl s).put _ _ _ _) (by decide)⟩⟩
  · have hg := get_withTemplates_mem (m := s.gdx.templates) ⟨none, false⟩ hnd hg
    exact ⟨congrArg TplSlot.cur hg, congrArg TplSlot.blocked hg⟩
  · have hk := get_withTemplates_ne (m := s.gdx.templates) ⟨none, false⟩ hk
    exact ⟨congrArg TplSlot.cur hk, congrArg TplSlot.blocked hk⟩

/-- An image without the magic number is no image (cause 1 of Table 4-6). -/
theorem State.imageCause_of_magic {a : Nat} (h : s.word a ≠ 0x4758494D) : s.imageCause a len = 1 := if_pos (Or.inl h)

end

/-! ### Remove, block and unblock (R113) -/

/-- The entry of template k is x; nothing else of the dispatcher differs, and of the registers the command register alone. -/
structure TplBecomes (s t : State) (k : Nat) (x : TplSlot) : Prop where
  self : Tab.get ⟨none, false⟩ t.gdx.templates k = x
  others : ∀ m, m ≠ k → t.tplCur m = s.tplCur m ∧ t.tplBlocked m = s.tplBlocked m
  insts : t.gdx.insts = s.gdx.insts
  regs : RegsBut s t [.GDX_TPL_CMD]
  rest : RegsGdx s t

/-- A template command of the registers has stored its operation. -/
def State.tplAsked (s : State) (op k : Nat) : State := s.putAll 0 0 [(F.GDX_TPL_CMD_OP, op), (F.GDX_TPL_CMD_TEMPLATE, k)]

theorem State.tplAsked_set (s : State) (op k : Nat) (x : TplSlot) :
    TplBecomes s ((s.tplAsked op k).setGdx { s.gdx with templates := Tab.set s.gdx.templates k x }) k x where
  self := Tab.get_set_self _ _ _ _
  others := fun _ hm => ⟨congrArg TplSlot.cur (Tab.get_set_ne _ _ hm _), congrArg TplSlot.blocked (Tab.get_set_ne _ _ hm _)⟩
  insts := rfl
  regs := ((RegsBut.refl s _).putAll 0 0 [(F.GDX_TPL_CMD_OP, op), (F.GDX_TPL_CMD_TEMPLATE, k)] (by simp)).of_eq rfl
  rest := rfl

theorem templateRemove_removes (k : BitVec 12) (s : State) :
    Completes (.templateRemove k) s (fun t => t.tplCur k.toNat = none ∧ t.tplBlocked k.toNat = s.tplBlocked k.toNat ∧
      (∀ m, m ≠ k.toNat → t.tplCur m = s.tplCur m ∧ t.tplBlocked m = s.tplBlocked m) ∧ t.gdx.insts = s.gdx.insts ∧
      RegsBut s t [.GDX_TPL_CMD] ∧ t = { s with regs := t.regs, gdx := t.gdx }) := by
  have h := s.tplAsked_set 1 k.toNat { Tab.get ⟨none, false⟩ s.gdx.templates k.toNat with cur := none }
  exact ⟨_, rfl, congrArg TplSlot.cur h.self, (congrArg TplSlot.blocked h.self).trans rfl, h.others, h.insts, h.regs, h.rest⟩

theorem templateBlock_sets (k : BitVec 12) (s : State) (b : Bool) :
    Completes (if b then .templateBlock k else .templateUnblock k) s (fun t =>
      t.tplBlocked k.toNat = b ∧ (∀ m, t.tplCur m = s.tplCur m) ∧ (∀ m, m ≠ k.toNat → t.tplBlocked m = s.tplBlocked m) ∧
      t.gdx.insts = s.gdx.insts ∧ RegsBut s t [.GDX_TPL_CMD] ∧ t = { s with regs := t.regs, gdx := t.gdx }) := by
  have h := s.tplAsked_set (if b then 2 else 3) k.toNat { Tab.get ⟨none, false⟩ s.gdx.templates k.toNat with blocked := b }
  refine ⟨(s.tplAsked (if b then 2 else 3) k.toNat).tplBlock k.toNat b, by cases b <;> rfl, congrArg TplSlot.blocked h.self, fun m => ?_,
    fun m hm => (h.others m hm).2, h.insts, h.regs, h.rest⟩
  by_cases hm : m = k.toNat
  · subst hm
    exact (congrArg TplSlot.cur h.self).trans rfl
  · exact (h.others m hm).1

/-- Settles O20: an image is read as it was before the command, its templates have ids of their own, and each command changes one entry. -/
theorem templatesInstallWholeOrNotAtAll : Obligations.TemplatesInstallWholeOrNotAtAll := by
  unfold Obligations.TemplatesInstallWholeOrNotAtAll
  exact ⟨fun _ _ _ => templateInstall_valid, fun _ _ _ h => templateInstall_refused (State.imageCause_of_magic h) (by decide) (by decide),
    fun k s => ⟨templateRemove_removes k s, templateBlock_sets k s⟩⟩

end Sys2Proof.Machine
end

