-- ==== Sys2Proof/Proofs/Retirement.lean ====
section
/-!
SUPPORT. Sys2Proof/Proofs/Retirement.lean: a SlotInst alone with its one NodeInst, what its retirement leaves (R138, R155), and what an
error record leaves (R499 to R502).
-/
namespace Sys2Proof.Machine

/-! ### A NodeInst, a SlotInst or an executor is stored -/

theorem Tab.set_of_find {κ α : Type} [DecidableEq κ] {m : Tab κ α} {k : κ} {v : α} (h : Tab.find m k = some v) :
    Tab.set m k v = m := by
  obtain ⟨l, r, hm, hs⟩ := Tab.find_split h
  rw [hs, hm]

section
variable {s : State} {n i : Nat} {x : NodeInst} {y : SlotInst}

theorem State.setNode_of_node (h : s.node n = some x) : s.setNode n x = s := by
  rw [State.setNode, Tab.set_of_find h]
  rfl

theorem State.setNode_node (s : State) (n : Nat) (z : NodeInst) : (s.setNode n z).node n = some z := Tab.find_set_self _ _ _

theorem State.upNode_of_node (h : s.node n = some x) (f : NodeInst → NodeInst) : s.upNode n f = s.setNode n (f x) := by
  rw [State.upNode, h]

theorem State.upInst_of_inst (h : s.inst i = some y) (f : SlotInst → SlotInst) : s.upInst i f = s.setInst i (f y) := by
  rw [State.upInst, h]

theorem State.setExec_exec (s : State) (e : Nat) (w : Exec) : (s.setExec e w).exec e = w := Tab.get_set_self _ _ _ _

theorem State.exec_congr {t : State} (h : t.gdx.execs = s.gdx.execs) (e : Nat) : t.exec e = s.exec e := by rw [State.exec, State.exec, h]

end

/-! ### A SlotInst alone with its NodeInst -/

section
variable {s t : State} {i n : Nat} {y : SlotInst} {x z : NodeInst}

theorem State.GdxAlone.congr (h : s.GdxAlone i y n x) (hi : t.gdx.insts = s.gdx.insts) (hn : t.gdx.nodes = s.gdx.nodes)
    (hl : t.gdx.lastCancel = s.gdx.lastCancel) : t.GdxAlone i y n x := by
  unfold State.GdxAlone at *
  rw [hi, hn, hl]
  exact h

section
variable (h : s.GdxAlone i y n x)
include h

theorem State.GdxAlone.node : s.node n = some x := by
  obtain ⟨-, hn, -⟩ := h
  simp [State.node, hn, Tab.find]

theorem State.GdxAlone.instOf : s.inst i = some y := by
  obtain ⟨hi, -⟩ := h
  simp [State.inst, hi, Tab.find]

theorem State.GdxAlone.inst : s.inst x.inst = some y := by
  obtain ⟨-, -, hx, -⟩ := id h
  rw [hx]
  exact h.instOf

theorem State.GdxAlone.recOf : s.recOf x = y.tpl.node x.node := by rw [State.recOf, h.inst]

theorem State.GdxAlone.setNode (hz : z.inst = x.inst) : (s.setNode n z).GdxAlone i y n z := by
  obtain ⟨hi, hn, hx, hl⟩ := h
  exact ⟨hi, State.setNode_nodes_of_single hn, hz.trans hx, hl⟩

theorem State.GdxAlone.setInst (w : SlotInst) : (s.setInst i w).GdxAlone i w n x := by
  obtain ⟨hi, hn, hx, hl⟩ := h
  refine ⟨?_, hn, hx, hl⟩
  show Tab.set s.gdx.insts i w = _
  simp [hi, Tab.set]

theorem State.GdxAlone.upInst (f : SlotInst → SlotInst) : s.upInst x.inst f = s.setInst i (f y) := by
  obtain ⟨-, -, hx, -⟩ := id h
  rw [State.upInst_of_inst h.inst, hx]

theorem State.GdxAlone.ended {how : NodeEnd} (hx : x.st = .ended how) : Ended s s i n := by
  obtain ⟨hi, hn, hxi, -⟩ := h
  exact ⟨⟨y, hi⟩, ⟨x, how, hn, hxi, hx⟩, rfl⟩

end

end

/-! ### The only SlotInst retires (R138, R155) -/

/-- Registers, memory and the dispatcher apart, nothing differs. -/
def RegsMemGdx (s t : State) : Prop := t = { s with regs := t.regs, mem := t.mem, gdx := t.gdx }

theorem RegsMemGdx.trans {s t u : State} (h : RegsMemGdx s t) (h' : RegsMemGdx t u) : RegsMemGdx s u := by
  unfold RegsMemGdx at *
  exact h'.trans (congrArg (fun v : State => { v with regs := u.regs, mem := u.mem, gdx := u.gdx }) h)

theorem RegsGdx.regsMemGdx {s t : State} (h : RegsGdx s t) : RegsMemGdx s t := by
  unfold RegsGdx at h
  rw [h]
  rfl

section
variable {s t : State} (h : RegsMemGdx s t)
include h

theorem RegsMemGdx.tbu : t.tbu = s.tbu := by unfold RegsMemGdx at h; rw [h]

theorem RegsMemGdx.aft : t.aft = s.aft := by unfold RegsMemGdx at h; rw [h]

theorem RegsMemGdx.exu : t.exu = s.exu := by unfold RegsMemGdx at h; rw [h]

end

/-- The registers that show what lives, and those that a retirement writes. -/
def retiredRegs : List Reg := gdxShown ++ [Reg.GDX_TELEM_WR, Reg.GDX_TELEM_LOST]

/-- Nothing lives any more in t, and the telemetry record is written. -/
structure Retired (s t : State) : Prop where
  insts : t.gdx.insts = []
  nodes : t.gdx.nodes = []
  execs : t.gdx.execs = s.gdx.execs
  regs : RegsBut s t retiredRegs
  mem : MemOut s t [s.telemRange]
  rest : RegsMemGdx s t

theorem State.telemetry_rest (s : State) (typ : Nat) (y : SlotInst) :
    s.telemetry typ y = { s with regs := (s.telemetry typ y).regs, mem := (s.telemetry typ y).mem } := by
  unfold State.telemetry
  extract_lets wr size ns w9 v
  split
  · rfl
  · have hv : v = { s with mem := v.mem } := s.setWords_rest _ _
    clear_value v
    rw [hv]
    rfl

theorem RegsBut.telemRange {s t : State} {rs : List Reg} (h : RegsBut s t rs)
    (hr : ∀ r ∈ [Reg.GDX_TELEM_BASE, .GDX_TELEM_WR, .GDX_TELEM_SIZE], r ∉ rs) : t.telemRange = s.telemRange := by
  simp only [List.forall_mem_cons] at hr
  obtain ⟨hb, hw, hs, -⟩ := hr
  rw [State.telemRange, State.telemRange, h.get F.GDX_TELEM_BASE_BASE hb, h.get F.GDX_TELEM_WR_WR hw, h.get F.GDX_TELEM_SIZE_SIZE hs]

section
variable {s t : State} {i n : Nat} (h : Ended s t i n)
include h

theorem Ended.regsGdx : RegsGdx s t := by
  rw [h.rest]
  rfl

theorem Ended.regs : RegsBut s t [] := RegsBut.of_regs _ (by rw [h.rest])

theorem Ended.retireAll : t.retireAll = t.retire i := by
  obtain ⟨⟨y, hi⟩, ⟨z, how, hn, hz, hst⟩, -⟩ := h
  have hret : t.retirable i = true := State.retirable_iff.2 (by simp [hn, NodeInst.over, hst])
  rw [State.retireAll, hi, List.foldl_cons, List.foldl_nil, if_pos hret]

theorem Ended.retired : Retired t (t.retire i).gdxShow := by
  obtain ⟨⟨y, hi⟩, hz, -⟩ := h
  obtain ⟨hi', hn', -, hregs, hmem⟩ := State.retire_ended (⟨⟨y, hi⟩, hz, rfl⟩ : Ended t t i n)
  have hinst : t.inst i = some y := by simp [State.inst, hi, Tab.find]
  have hrest : RegsMemGdx t (t.retire i) ∧ (t.retire i).gdx.execs = t.gdx.execs := by
    simp only [State.retire, hinst]
    rw [t.telemetry_rest 1 y]
    exact ⟨rfl, rfl⟩
  obtain ⟨hr, he⟩ := hrest
  generalize t.retire i = v at *
  have hv := v.gdxShow_onlyRegs.regsGdx
  refine ⟨by rw [v.gdxShow_gdx, hi'], by rw [v.gdxShow_gdx, hn'], by rw [v.gdxShow_gdx, he], ?_, ?_, hr.trans hv.regsMemGdx⟩
  · exact (hregs.mono (by simp [retiredRegs])).trans (v.gdxShow_regsBut.mono (by simp +contextual [retiredRegs]))
  · exact hmem.comp (MemOut.of_mem hv.mem [])

end

/-! ### What an error record leaves (R499 to R502) -/

/-- Registers, memory and the times of the queued error records apart, nothing differs. -/
def RecordOnly (s t : State) : Prop := t = { s with regs := t.regs, mem := t.mem, erqLast := t.erqLast }

theorem RecordOnly.trans {s t u : State} (h : RecordOnly s t) (h' : RecordOnly t u) : RecordOnly s u := by
  unfold RecordOnly at *
  exact h'.trans (congrArg (fun v : State => { v with regs := u.regs, mem := u.mem, erqLast := u.erqLast }) h)

theorem OnlyRegs.recordOnly {s t : State} (h : OnlyRegs s t) : RecordOnly s t := by
  unfold OnlyRegs at h
  rw [h]
  rfl

section
variable {s t : State} (h : RecordOnly s t)
include h

theorem RecordOnly.put (f : Fld) (v i j : Nat) : RecordOnly s (t.put f v i j) :=
  h.trans (OnlyRegs.recordOnly ((OnlyRegs.refl t).put f v i j))

theorem RecordOnly.gdx : t.gdx = s.gdx := by unfold RecordOnly at h; rw [h]

theorem RecordOnly.aft : t.aft = s.aft := by unfold RecordOnly at h; rw [h]

theorem RecordOnly.tbu : t.tbu = s.tbu := by unfold RecordOnly at h; rw [h]

theorem RecordOnly.exu : t.exu = s.exu := by unfold RecordOnly at h; rw [h]

end

section
variable (s : State) (r : Report)

theorem State.erqNew_recordOnly : RecordOnly s (s.erqNew r) := by
  unfold State.erqNew
  extract_lets w u v
  have hu : u = { s with mem := u.mem } := s.setWords_rest _ _
  have hv : RecordOnly s v := by
    unfold RecordOnly v
    rw [hu]
  exact ((hv.put F.ECC_ERQ_WR_WR _ _ _).put F.ECC_ERQ_STATUS_NONEMPTY _ _ _).put F.ECC_ERQ_STATUS_LEVEL _ _ _

theorem State.setWord_recordOnly (s : State) (a x : Nat) : RecordOnly s (s.setWord a x) := rfl

theorem State.erqMerge_recordOnly (w : Nat) : RecordOnly s (s.erqMerge r w) := by
  unfold State.erqMerge
  extract_lets a w1 start now t u v
  have hu : RecordOnly s u := (s.setWord_recordOnly _ _).trans (t.setWord_recordOnly _ _)
  have hv : RecordOnly u v := rfl
  exact (hu.trans hv).put F.ECC_ERQ_COALESCED_COALESCED _ _ _

theorem State.report_recordOnly : RecordOnly s (s.report r) := by
  unfold State.report
  extract_lets u
  have hu : RecordOnly s u := (s.erqCapture_onlyRegs r).recordOnly
  split
  · exact hu.put _ _ _ _
  · split
    next w _ _ => exact hu.trans (u.erqMerge_recordOnly r w)
    · split
      · exact hu.trans (u.erqNew_recordOnly r)
      · exact (hu.put F.ECC_ERQ_LOST_LOST _ _ _).put F.ECC_ERQ_STATUS_OVF _ _ _

end

end Sys2Proof.Machine
end

