-- ==== Sys2Proof/Proofs/InstanceCommands.lean ====
section
/-!
SUPPORT. Sys2Proof/Proofs/InstanceCommands.lean: the register commands that make a SlotInst in an empty
dispatcher or end the one that lives (R113 to R117, R137, R138); from these O21.
-/
namespace Sys2Proof.Machine

/-! ### The register commands on SlotInsts (Table 4-17) -/

section
variable {s t : State}

/-- Nothing but the command register and the dispatcher's cycle differs. -/
structure InstAsked (s t : State) : Prop where
  gdx : t.gdx = { s.gdx with cycle := t.gdx.cycle }
  regs : RegsBut s t [.GDX_INST_CMD]
  rest : RegsGdx s t

theorem State.instAsked (s : State) (l : List (Fld × Nat)) (hl : ∀ x ∈ l, x.1.reg ∈ [Reg.GDX_INST_CMD]) :
    InstAsked s (s.putAll 0 0 l).gdxCycle where
  gdx := by
    simp only [State.gdxCycle, State.setGdx, State.putAll_gdx]
  regs := ((RegsBut.refl s _).putAll _ _ _ hl).of_eq rfl
  rest := ((OnlyRegs.refl s).putAll _ _ _).regsGdx.trans (State.setGdx_regsGdx _ _)

section
variable (h : InstAsked s t)
include h

theorem InstAsked.empty (he : s.GdxEmpty) : t.GdxEmpty := by
  unfold State.GdxEmpty
  rw [h.gdx]
  exact he

theorem InstAsked.alone {i n : Nat} {y : SlotInst} {x : NodeInst} (ha : s.GdxAlone i y n x) : t.GdxAlone i y n x := by
  unfold State.GdxAlone
  rw [h.gdx]
  exact ha

theorem InstAsked.tplCur (k : Nat) : t.tplCur k = s.tplCur k := by rw [State.tplCur, State.tplCur, h.gdx]

theorem InstAsked.tplBlocked (k : Nat) : t.tplBlocked k = s.tplBlocked k := by rw [State.tplBlocked, State.tplBlocked, h.gdx]

theorem InstAsked.sameAir : SameAir s t where
  mem := h.rest.mem
  tbu := h.rest.tbu
  tls := by rw [h.rest.aft]
  regs := fun f hf i j => h.regs.get f (fun hc => absurd (List.mem_singleton.1 hc ▸ hf) (by decide)) i j

theorem InstAsked.tl (k : Nat) : t.tl k = s.tl k := by rw [State.tl, State.tl, h.rest.aft]

end

/-! ### A creation with no slot given, or refused (R113, R116) -/

/-- A creation that is given no slot takes the one of its coordinate nearest the present. -/
theorem State.create_none_slot {tpl tl w : Nat} {e : Timeline} (he : s.tl tl = some e) :
    s.create tpl tl w none = s.create tpl tl w (some (e.ent.num.slotOfWord w (s.coordNow e).slot)) := by
  simp only [State.create, he, Option.getD_none, Option.getD_some]

/-- A template that is not installed, or blocked, makes no SlotInst and is counted (R116, check 1). -/
theorem State.create_of_blocked {tpl tl w : Nat} {slot : Option Int} (h : s.tplCur tpl = none ∨ s.tplBlocked tpl = true) :
    (s.create tpl tl w slot).2 = (s.count F.BLOCKED_CREATE_COUNT).gdxReport 0x03 0 tpl 0 (slotId w) tl := by
  unfold State.create
  split
  next hc hb =>
    rcases h with h | h
    · rw [h] at hc
      cases hc
    · rw [h] at hb
      cases hb
  · rfl

end

section
variable {s : State}

theorem exec_instCmdCreate {k : BitVec 12} {tl : BitVec 8} (hen : s.flag F.GDX_CTRL_EN = true) :
    ∃ u, InstAsked s u ∧ exec (.instCmdCreate k tl) s = .next (u.create k.toNat tl.toNat (s.get F.GDX_INST_STATUS_SLOT) none).2.gdxSettle := by
  have hr : RegsBut s _ [Reg.GDX_INST_CMD] := (RegsBut.refl s _).putAll 0 0
    [(F.GDX_INST_CMD_ID, k.toNat), (F.GDX_INST_CMD_OP, 1), (F.GDX_INST_CMD_TL, tl.toNat)] (by simp)
  refine ⟨_, s.instAsked [(F.GDX_INST_CMD_ID, k.toNat), (F.GDX_INST_CMD_OP, 1), (F.GDX_INST_CMD_TL, tl.toNat)] (by simp), ?_⟩
  show execInstCmdCreate k tl s = _
  rw [execInstCmdCreate, State.instCreate, State.flag, hr.get _ (by decide), hr.get _ (by decide)]
  exact congrArg Host.Outcome.next (if_pos hen)

theorem instCmdCreate_makes {k : BitVec 12} {tl : BitVec 8} {g : Template} {e : Timeline} (hs : s.GdxEmpty)
    (hen : s.flag F.GDX_CTRL_EN = true) (hg : s.tplCur k.toNat = some g) (hb : s.tplBlocked k.toNat = false)
    (he : s.tl tl.toNat = some e) (hne : g.nodes ≠ []) (hl : g.nodes.length ≤ 65536) (hin : ∀ r ∈ g.nodes, 1 ≤ r.nIn) :
    Completes (.instCmdCreate k tl) s (fun t =>
      t.Created g tl.toNat e (e.ent.num.slotOfWord (s.get F.GDX_INST_STATUS_SLOT) (s.coordNow e).slot) ∧
      RegsBut s t (Reg.GDX_INST_CMD :: gdxShown) ∧ t = { s with regs := t.regs, gdx := t.gdx }) := by
  obtain ⟨u, hu, hx⟩ := exec_instCmdCreate (k := k) (tl := tl) hen
  have htl := (hu.tl _).trans he
  rw [State.create_none_slot htl, hu.sameAir.coordNow] at hx
  generalize e.ent.num.slotOfWord (s.get F.GDX_INST_STATUS_SLOT) (s.coordNow e).slot = slot at hx ⊢
  have hm : Made u _ g e tl.toNat slot := State.create_of_empty (w := s.get F.GDX_INST_STATUS_SLOT) (hu.empty hs)
    ((hu.tplCur _).trans hg) ((hu.tplBlocked _).trans hb) htl hl
  rw [hm.settles hne hin] at hx
  refine ⟨_, hx, hm.created, ?_, hu.rest.trans (hm.regsGdx.trans (State.gdxShow_onlyRegs _).regsGdx)⟩
  exact hu.regs.comp ((RegsBut.of_regs _ (by rw [hm.rest]) : RegsBut u _ gdxShown).trans (State.gdxShow_regsBut _))

theorem instCmdCreate_blocked {k : BitVec 12} {tl : BitVec 8} (hs : s.GdxEmpty) (hen : s.flag F.GDX_CTRL_EN = true)
    (hb : s.tplCur k.toNat = none ∨ s.tplBlocked k.toNat = true) :
    Completes (.instCmdCreate k tl) s (fun t => t.gdx.insts = [] ∧ t.gdx.nodes = [] ∧
      t.get F.BLOCKED_CREATE_COUNT = min (2 ^ 32 - 1) (s.get F.BLOCKED_CREATE_COUNT + 1) ∧ t.aft = s.aft ∧ t.tbu = s.tbu) := by
  obtain ⟨u, hu, hx⟩ := exec_instCmdCreate (k := k) (tl := tl) hen
  obtain ⟨hi, hn, -⟩ := hu.empty hs
  rw [State.create_of_blocked (by rw [hu.tplCur, hu.tplBlocked]; exact hb)] at hx
  have hv : RecordOnly u ((u.count F.BLOCKED_CREATE_COUNT).gdxReport 0x03 0 k.toNat 0 (slotId (s.get F.GDX_INST_STATUS_SLOT)) tl.toNat) :=
    (OnlyRegs.recordOnly ((OnlyRegs.refl u).put _ _ _ _)).trans (State.report_recordOnly _ _)
  have hc : State.get ((u.count F.BLOCKED_CREATE_COUNT).gdxReport 0x03 0 k.toNat 0 (slotId (s.get F.GDX_INST_STATUS_SLOT)) tl.toNat)
      F.BLOCKED_CREATE_COUNT = min (2 ^ 32 - 1) (s.get F.BLOCKED_CREATE_COUNT + 1) := by
    rw [State.gdxReport, (State.report_keepsTime _ _).regs.get _ (by decide), State.get_count_self _ _ _ _ _ (by decide),
      hu.regs.get _ (by decide)]
  generalize (u.count F.BLOCKED_CREATE_COUNT).gdxReport 0x03 0 k.toNat 0 (slotId (s.get F.GDX_INST_STATUS_SLOT)) tl.toNat = v at hx hv hc
  rw [State.gdxSettle_of_empty (hv.gdx ▸ hi) (hv.gdx ▸ hn)] at hx
  have ho := v.gdxShow_onlyRegs
  refine ⟨_, hx, ?_, ?_, ?_, ?_, ?_⟩
  · rw [v.gdxShow_gdx, hv.gdx, hi]
  · rw [v.gdxShow_gdx, hv.gdx, hn]
  · rw [v.gdxShow_regsBut.get _ (by decide), hc]
  · rw [ho.regsGdx.aft, hv.aft, hu.rest.aft]
  · rw [ho.regsGdx.tbu, hv.tbu, hu.rest.tbu]

/-! ### Cancels by id (R137, R138) -/

theorem State.cancel_of_live {i : Nat} {y : SlotInst} (h : s.inst i = some y) (hc : y.cancelled = false) : s.cancel (some i) = s.cancelInst i := by
  simp only [State.cancel, h, hc, Bool.false_eq_true, if_false]

theorem exec_instCmdCancel (id : BitVec 12) (s : State) : ∃ u, InstAsked s u ∧
    exec (.instCmdCancel id) s = .next (u.cancel (if (s.inst id.toNat).isSome then some id.toNat else none)).gdxSettle :=
  ⟨_, s.instAsked [(F.GDX_INST_CMD_ID, id.toNat), (F.GDX_INST_CMD_OP, 0)] (by simp), rfl⟩

theorem instCmdCancel_ends {id : BitVec 12} {n : Nat} {y : SlotInst} {x : NodeInst} (ha : s.GdxAlone id.toNat y n x) (hb : x.Bare)
    (hc : y.cancelled = false) :
    Completes (.instCmdCancel id) s (fun t => t.gdx.insts = [] ∧ t.gdx.nodes = [] ∧
      RegsBut s t (gdxShown ++ [Reg.GDX_INST_CMD, Reg.GDX_TELEM_WR, Reg.GDX_TELEM_LOST]) ∧ MemOut s t [s.telemRange] ∧
      t = { s with regs := t.regs, mem := t.mem, gdx := t.gdx }) := by
  obtain ⟨u, hu, hx⟩ := exec_instCmdCancel id s
  have hua := hu.alone ha
  have hinst : (s.inst id.toNat).isSome = true := by simp [State.inst, ha.1, Tab.find]
  have hended := State.cancelInst_alone hua hb
  rw [if_pos hinst, State.cancel_of_live hua.instOf hc, State.gdxSettle_of_ended hended] at hx
  have hr := hended.retired
  refine ⟨_, hx, hr.insts, hr.nodes, ?_, ?_, (hu.rest.trans hended.regsGdx).regsMemGdx.trans hr.rest⟩
  · exact ((hu.regs.comp hended.regs).comp hr.regs).mono (by decide)
  · rw [← hu.regs.telemRange (by decide), ← hended.regs.telemRange (by decide)]
    exact (MemOut.of_mem (hu.rest.trans hended.regsGdx).mem []).comp hr.mem

theorem instCmdCancel_counts {id : BitVec 12} (hs : s.GdxEmpty) :
    Completes (.instCmdCancel id) s (fun t => t.gdx.insts = [] ∧ t.gdx.nodes = [] ∧
      t.get F.CANCEL_NOINST_COUNT = min (2 ^ 32 - 1) (s.get F.CANCEL_NOINST_COUNT + 1) ∧
      RegsBut s t (gdxShown ++ [Reg.GDX_INST_CMD, Reg.CANCEL_NOINST]) ∧ t = { s with regs := t.regs, gdx := t.gdx }) := by
  obtain ⟨u, hu, hx⟩ := exec_instCmdCancel id s
  obtain ⟨hi, hn, -⟩ := hu.empty hs
  have hno : (s.inst id.toNat).isSome = false := by rw [State.inst, hs.1]; rfl
  rw [if_neg (by simp [hno])] at hx
  have hv : RegsBut u (u.cancel none) [.CANCEL_NOINST] := (RegsBut.refl u _).put _ _ _ _ (by decide)
  have hc : (u.cancel none).get F.CANCEL_NOINST_COUNT = min (2 ^ 32 - 1) (s.get F.CANCEL_NOINST_COUNT + 1) := by
    rw [← hu.regs.get _ (by decide)]
    exact State.get_count_self _ _ _ _ _ (by decide)
  have hg : OnlyRegs u (u.cancel none) := (OnlyRegs.refl u).put _ _ _ _
  generalize u.cancel none = v at hx hv hc hg
  rw [State.gdxSettle_of_empty (hg.gdx ▸ hi) (hg.gdx ▸ hn)] at hx
  refine ⟨_, hx, ?_, ?_, ?_, ?_, hu.rest.trans (hg.regsGdx.trans v.gdxShow_onlyRegs.regsGdx)⟩
  · rw [v.gdxShow_gdx, hg.gdx, hi]
  · rw [v.gdxShow_gdx, hg.gdx, hn]
  · rw [v.gdxShow_regsBut.get _ (by decide), hc]
  · exact ((hu.regs.comp hv).comp v.gdxShow_regsBut).mono (by decide)

end

/-- Settles O21: a creation in the empty dispatcher as a whistle makes it, and the cancel of what is alone or absent. -/
theorem instancesAreCreatedAndCancelledByTheRegisters : Obligations.InstancesAreCreatedAndCancelledByTheRegisters := by
  unfold Obligations.InstancesAreCreatedAndCancelledByTheRegisters
  exact ⟨fun _ _ _ _ _ => instCmdCreate_makes, fun _ _ _ => instCmdCreate_blocked, fun _ _ _ _ _ => instCmdCancel_ends,
    fun _ _ => instCmdCancel_counts⟩

end Sys2Proof.Machine
end

