-- ==== Sys2Proof/Proofs/Releases.lean ====
section
/-!
SUPPORT. Sys2Proof/Proofs/Releases.lean: the only NodeInst is released at its turn, and releases that stalled or were held go on (R135,
R136, R436).
-/
namespace Sys2Proof.Machine

/-! ### The release of the only NodeInst (R136) -/

/-- The outputs of a NodeInst are delivered. -/
def State.delivered (s : State) (n : Nat) (x : NodeInst) (y : SlotInst) : State :=
  x.outs.zipIdx.foldl (fun s t => s.deliver n x y t.2 t.1) s

section
variable {s v : State} {i n : Nat} {y : SlotInst} {x : NodeInst}

/-- A NodeInst without inputs and flow ends released once its outputs are delivered; these do not concern NodeInsts. -/
theorem State.releaseNode_of_turn (ha : s.GdxAlone i y n x) (hflow : x.flow = none) (htok : x.tokens.all (·.isNone) = true)
    (hroom : s.fullSink y (y.tpl.node x.node) = none) (hv : (s.delivered n x y).GdxAlone i y n x) :
    Ended (s.delivered n x y) (s.releaseNode n) i n ∧ (s.releaseNode n).gdx.execs = (s.delivered n x y).gdx.execs := by
  have he : ∃ f, s.releaseNode n =
      ((s.delivered n x y).setNode n { x with st := .ended .released, runs := [] }).upInst x.inst f := by
    simp only [State.releaseNode, ha.node, ha.inst, hroom, State.leaveFlow, hflow, State.freeInputs_of_none htok]
    exact ⟨_, rfl⟩
  obtain ⟨f, hf⟩ := he
  have hz := hv.setNode (z := { x with st := .ended .released, runs := [] }) rfl
  have hs := hf.trans (hz.upInst f)
  obtain ⟨hinsts, hnodes, -⟩ := (hz.setInst (f y)).ended rfl
  rw [hs]
  exact ⟨⟨hinsts, hnodes, rfl⟩, rfl⟩

/-- A cycle that finds the only NodeInst at its turn releases it, and its SlotInst retires. -/
theorem State.gdxSettle_of_turn (ha : s.GdxAlone i y n x) (hst : x.st = .turn) (hflow : x.flow = none)
    (htok : x.tokens.all (·.isNone) = true) (hroom : s.fullSink y (y.tpl.node x.node) = none)
    (hv : (s.delivered n x y).GdxAlone i y n x) : Retired (s.delivered n x y) s.gdxSettle := by
  obtain ⟨hend, hexecs⟩ := State.releaseNode_of_turn ha hflow htok hroom hv
  obtain ⟨-, hn, -⟩ := id ha
  have hadm : s.admitAll = s := State.admitAll_of_none (State.asking_eq_nil (by simp [hn, hst]))
  have hdue : s.dueRelease = some n := by simp [State.dueRelease, hn, hst]
  have hturn : s.takeTurn n = s := by
    have hz : ({ x with st := .turn } : NodeInst) = x := by rw [← hst]
    simp only [State.takeTurn, ha.node, hst, State.upNode_of_node ha.node, hz, State.setNode_of_node ha.node]
  have hrel : s.releaseAll = s.releaseNode n := by
    have hone : s.releaseOne = s.releaseNode n := by simp only [State.releaseOne, hdue, hturn]
    rw [State.releaseAll, hn]
    exact hone
  have hret := hend.retired
  rw [State.gdxSettle, hadm, hrel, hend.retireAll]
  exact ⟨hret.insts, hret.nodes, hret.execs.trans hexecs, (hend.regs.comp hret.regs),
    hend.regs.telemRange (by simp) ▸ (MemOut.of_mem hend.regsGdx.mem []).comp hret.mem, hend.regsGdx.regsMemGdx.trans hret.rest⟩

end

/-! ### A stalled member takes a release-buffer entry (R135) -/

section
variable {s : State} {n : Nat} {x z : NodeInst}

/-- A NodeInst that changes, but with its turn, its end and its SlotInst as before, gives the dispatcher nothing to do. -/
theorem State.GdxStill.setNode_of_turnCome (h : s.GdxStill) (hx : s.node n = some x) (ht : s.turnCome (n, z) = s.turnCome (n, x))
    (ho : z.over = x.over) (hin : z.inst = x.inst) : (s.setNode n z).GdxStill := by
  obtain ⟨hen, hdue, hret⟩ := h
  refine ⟨hen, ?_, fun p hp => ?_⟩
  · rw [State.dueRelease_eq_none_iff] at hdue ⊢
    exact (Tab.forall_set_iff hx (P := fun p => s.turnCome p = false) (by rw [ht])).2 hdue
  · rw [← hret p hp, Bool.eq_iff_iff, State.retirable_iff, State.retirable_iff]
    exact Tab.forall_set_iff hx (P := fun q => q.2.inst = p.1 → q.2.over = true) (by rw [ho, hin])

variable {e : BitVec 9} {cycles : Nat}

theorem releaseBufferEntryFree_buffers (he : (s.exec e.toNat).node = some n) (hx : s.node n = some x)
    (hst : x.st = .completed (some e.toNat)) (hbuf : s.gdx.relbuf < 8192) (hs : s.GdxStill) :
    Completes (.releaseBufferEntryFree e cycles) s (fun t => t.node n = some { x with st := .completed none } ∧
      t.gdx.relbuf = s.gdx.relbuf + 1 ∧ (t.exec e.toNat).node = none ∧ (∀ m, m ≠ n → t.node m = s.node m) ∧
      t.get F.RELBUF_STALL_COUNT = min (2 ^ 32 - 1) (s.get F.RELBUF_STALL_COUNT + cycles) ∧
      RegsBut s t (Reg.RELBUF_STALL :: gdxShown) ∧ t = { s with regs := t.regs, gdx := t.gdx }) := by
  obtain ⟨u, hu⟩ : ∃ u, u = (s.count F.RELBUF_STALL_COUNT cycles).gdxCycle.setExec e.toNat { s.exec e.toNat with node := none } :=
    ⟨_, rfl⟩
  have hregs : RegsBut s u [.RELBUF_STALL] := hu ▸ ((RegsBut.refl s _).put _ _ _ _ (by decide)).of_eq rfl
  have hcount : u.get F.RELBUF_STALL_COUNT = min (2 ^ 32 - 1) (s.get F.RELBUF_STALL_COUNT + cycles) :=
    hu ▸ State.get_count_self s _ _ _ _ (by decide)
  have hexec : (u.exec e.toNat).node = none := by rw [hu, State.setExec_exec]
  have hrest : RegsGdx s u := hu ▸ rfl
  obtain ⟨hn, hi, hf, hb⟩ : u.gdx.nodes = s.gdx.nodes ∧ u.gdx.insts = s.gdx.insts ∧ u.gdx.flows = s.gdx.flows ∧
    u.gdx.relbuf = s.gdx.relbuf := by rw [hu]; exact ⟨rfl, rfl, rfl, rfl⟩
  obtain ⟨v, hv⟩ : ∃ v, v = (u.setNode n { x with st := .completed none }).setGdx
    { (u.setNode n { x with st := .completed none }).gdx with relbuf := u.gdx.relbuf + 1 } := ⟨_, rfl⟩
  have hus : u.GdxStill := hs.congr hn hi hf (by rw [State.flag, hregs.get _ (by decide)]; rfl)
  have hun : ∀ m, u.node m = s.node m := fun m => by rw [State.node, hn]; rfl
  have hvs : v.GdxStill := hv ▸ (hus.setNode_of_turnCome (z := { x with st := .completed none }) ((hun n).trans hx)
    (by simp only [State.turnCome, hst]; rfl) (by simp only [NodeInst.over, hst]) rfl).congr rfl rfl rfl rfl
  have hex : exec (.releaseBufferEntryFree e cycles) s = .next v.gdxSettle := by
    show execReleaseBufferEntryFree e cycles s = _
    simp only [execReleaseBufferEntryFree, he, hx, hst, hbuf, and_self, if_true]
    rw [hv, hu]
    rfl
  have hshow := v.gdxShow_regsBut
  refine ⟨_, hex, ?_⟩
  rw [State.gdxSettle_of_still hvs]
  refine ⟨?_, ?_, ?_, fun m hm => ?_, ?_, ?_, ?_⟩
  · rw [v.gdxShow_node, hv]
    exact Tab.find_set_self _ _ _
  · rw [v.gdxShow_gdx, hv, ← hb]
    rfl
  · rw [State.exec_congr (s := u) (by rw [v.gdxShow_gdx, hv]; rfl), hexec]
  · rw [v.gdxShow_node, ← hun, hv]
    exact Tab.find_set_ne _ hm _
  · rw [hshow.get _ (by decide), ← hcount, hv]
    rfl
  · exact hregs.comp ((RegsBut.of_regs _ (by rw [hv]; rfl)).trans hshow)
  · exact hrest.trans (RegsGdx.trans (by rw [hv]; rfl) v.gdxShow_onlyRegs.regsGdx)

end

end Sys2Proof.Machine
end

