-- ==== Sys2Proof/Proofs/DetachedSinks.lean ====
section
/-!
SUPPORT. Sys2Proof/Proofs/DetachedSinks.lean: a token for a detached ring is dropped and counted (R436), which lets a held release go on
(R136).
-/
namespace Sys2Proof.Machine

section
variable {s t u : State} {n r : Nat} {x : NodeInst} {y : SlotInst} {k : Token}

/-! ### Tokens are launched, and buffers given up (R24, R122) -/

/-- Only the tokens on their way and the references of buffers differ. -/
def TokensOnly (s t : State) : Prop := t = { s with gdx := { s.gdx with inflight := t.gdx.inflight, bufRefs := t.gdx.bufRefs } }

theorem TokensOnly.trans (h : TokensOnly s t) (h' : TokensOnly t u) : TokensOnly s u := by
  unfold TokensOnly at *
  exact h'.trans (congrArg (fun v : State => { v with gdx := { v.gdx with inflight := u.gdx.inflight, bufRefs := u.gdx.bufRefs } }) h)

theorem TokensOnly.foldl {α : Type} {f : State → α → State} (h : ∀ s a, TokensOnly s (f s a)) (l : List α) (s : State) :
    TokensOnly s (l.foldl f s) := by
  induction l generalizing s with
  | nil => rfl
  | cons a l ih => exact (h s a).trans (ih _)

section
variable (h : TokensOnly s t)
include h

theorem TokensOnly.gdx : t.gdx = { s.gdx with inflight := t.gdx.inflight, bufRefs := t.gdx.bufRefs } := congrArg State.gdx h

theorem TokensOnly.regsGdx : RegsGdx s t := by
  unfold TokensOnly at h
  rw [h]
  rfl

theorem TokensOnly.regs : t.regs = s.regs := by
  unfold TokensOnly at h
  rw [h]

theorem TokensOnly.alone {i : Nat} (ha : s.GdxAlone i y n x) : t.GdxAlone i y n x :=
  ha.congr (by rw [h.gdx]) (by rw [h.gdx]) (by rw [h.gdx])

end

/-- A token for the consumers in SlotInst i is launched to those that live (R122). -/
def State.launched (s : State) (i : Nat) (k : Token) (l : List (Nat × Nat)) : State :=
  l.foldl (fun s c => match s.nodeAt i c.1 with
    | some id => s.launch id c.2 k
    | none => s) s

theorem State.launched_tokensOnly (s : State) (i : Nat) (k : Token) (l : List (Nat × Nat)) : TokensOnly s (s.launched i k l) := by
  refine TokensOnly.foldl (fun s c => ?_) l s
  split <;> rfl

/-- A consumer gives up what lies in no buffer of pools 0 to 61 (R24, R109). -/
theorem State.bufUnref_tokensOnly (s : State) {p : Nat} (hp : 62 ≤ p) (a : Nat) : TokensOnly s (s.bufUnref p a) := by
  have hp : ¬ p < 62 := Nat.not_lt.2 hp
  simp only [State.bufUnref, State.bufReturn, if_neg hp]
  split <;> rfl

/-! ### Delivery to a detached ring (R436) -/

/-- The sink of the only output is ring r. -/
structure SinksTo (y : SlotInst) (x : NodeInst) (r w0 w1 : Nat) : Prop where
  one : (y.tpl.node x.node).nOut = 1
  sink : y.tpl.sink ((y.tpl.node x.node).outs.getD 0 0) = some (w0, w1)
  kind : natBits w0 0 3 = 2
  ring : natBits w0 16 16 = r

theorem SinksTo.turn {w0 w1 : Nat} (h : SinksTo y x r w0 w1) : SinksTo y { x with st := .turn } r w0 w1 :=
  ⟨h.one, h.sink, h.kind, h.ring⟩

/-- A detached ring keeps no release waiting. -/
theorem State.fullSink_of_detached {w0 w1 : Nat} (h : SinksTo y x r w0 w1) (hd : s.ringDetached r = true) :
    s.fullSink y (y.tpl.node x.node) = none := by
  simp only [State.fullSink, h.one, List.range_one, List.findSome?_cons, List.findSome?_nil, h.sink, h.ring, hd, not_true_eq_false,
    false_and, and_false, if_false]

/-- A detached ring counts what it drops. -/
theorem State.toRing_of_detached {rg : Ring} (hr : s.ring r = some rg) (hd : s.ringDetached r = true) :
    s.toRing r y k = (s.count F.MBX_RING_DETACH_DROP_DETACH_DROP 1 0 r).bufUnref k.pool k.addr := by
  simp only [State.toRing, hr, hd, if_true]

/-- A token in no buffer goes to its consumers and to its sink. -/
theorem State.deliver_of_sink {w0 w1 : Nat} (h : SinksTo y x r w0 w1) (hp : 62 ≤ k.pool) :
    s.deliver n x y 0 k = (s.launched x.inst k (y.tpl.consumers x.node 0)).toRing r y k := by
  have hp : ¬ k.pool < 62 := Nat.not_lt.2 hp
  simp only [State.deliver, h.sink, h.kind, h.ring, hp, Option.isSome_some, if_true, Nat.add_eq_zero_iff, Nat.one_ne_zero, and_false,
    if_false]
  rfl

theorem State.deliver_of_detached {w0 w1 : Nat} {rg : Ring} (h : SinksTo y x r w0 w1) (hp : 62 ≤ k.pool) (hr : s.ring r = some rg)
    (hd : s.ringDetached r = true) : ∃ u, TokensOnly s u ∧
      TokensOnly (u.count F.MBX_RING_DETACH_DROP_DETACH_DROP 1 0 r) (s.deliver n x y 0 k) := by
  have hu := s.launched_tokensOnly x.inst k (y.tpl.consumers x.node 0)
  refine ⟨_, hu, ?_⟩
  rw [State.deliver_of_sink h hp]
  generalize s.launched x.inst k (y.tpl.consumers x.node 0) = u at hu
  have hur : u.ring r = some rg := by rw [← hr, State.ring, hu.regsGdx.host]; rfl
  have hud : u.ringDetached r = true := by rw [← hd, State.ringDetached, State.flag, State.get_congr hu.regs]; rfl
  rw [State.toRing_of_detached hur hud]
  exact State.bufUnref_tokensOnly _ hp _

end

/-! ### A held release goes on (R136) -/

section
variable {s : State} {i n w0 w1 : Nat} {r : BitVec 9} {cycles : Nat} {k : Token} {rg : Ring} {x : NodeInst} {y : SlotInst}

theorem ringSinkSpace_releases (ha : s.GdxAlone i y n x) (hst : x.st = .sinkHold r.toNat) (hout : x.outs = [k]) (hp : 62 ≤ k.pool)
    (hflow : x.flow = none) (htok : x.tokens.all (·.isNone) = true) (hsink : SinksTo y x r.toNat w0 w1)
    (hr : s.ring r.toNat = some rg) (hd : s.ringDetached r.toNat = true) :
    Completes (.ringSinkSpace r cycles) s (fun t => t.gdx.insts = [] ∧ t.gdx.nodes = [] ∧
      t.get F.SINK_FULL_COUNT = min (2 ^ 32 - 1) (s.get F.SINK_FULL_COUNT + cycles) ∧
      t.get F.MBX_RING_DETACH_DROP_DETACH_DROP 0 r.toNat = min (2 ^ 32 - 1) (s.get F.MBX_RING_DETACH_DROP_DETACH_DROP 0 r.toNat + 1) ∧
      RegsBut s t (gdxShown ++ [Reg.SINK_FULL, Reg.MBX_RING_DETACH_DROP, Reg.GDX_TELEM_WR, Reg.GDX_TELEM_LOST]) ∧ MemOut s t [s.telemRange] ∧
      t = { s with regs := t.regs, mem := t.mem, gdx := t.gdx }) := by
  obtain ⟨u, hu⟩ : ∃ u, u = (s.count F.SINK_FULL_COUNT cycles).gdxCycle.setNode n { x with st := .turn } := ⟨_, rfl⟩
  have hregs : RegsBut s u [.SINK_FULL] := hu ▸ ((RegsBut.refl s _).put _ _ _ _ (by decide)).of_eq rfl
  have hcount : u.get F.SINK_FULL_COUNT = min (2 ^ 32 - 1) (s.get F.SINK_FULL_COUNT + cycles) :=
    hu ▸ State.get_count_self s _ _ _ _ (by decide)
  have hrest : RegsGdx s u := hu ▸ rfl
  have hua : u.GdxAlone i y n { x with st := .turn } := by
    have hc : (s.count F.SINK_FULL_COUNT cycles).gdxCycle.GdxAlone i y n x := ha.congr rfl rfl rfl
    exact hu ▸ hc.setNode rfl
  have hex : exec (.ringSinkSpace r cycles) s = .next u.gdxSettle := by
    have hc : (s.count F.SINK_FULL_COUNT cycles).gdxCycle.node n = some x := ha.node
    obtain ⟨-, hn, -⟩ := ha
    show execRingSinkSpace r cycles s = _
    simp [execRingSinkSpace, hn, hst, hd, State.upNode_of_node hc, hu]
  have hud : u.ringDetached r.toNat = true := by rw [← hd, State.ringDetached, State.flag, hregs.get _ (by decide)]; rfl
  have hur : u.ring r.toNat = some rg := by rw [← hr, State.ring, hrest.host]; rfl
  obtain ⟨a, hua', hv⟩ := State.deliver_of_detached (s := u) (n := n) (x := { x with st := .turn }) hsink.turn hp hur hud
  have hdel : u.delivered n { x with st := .turn } y = u.deliver n { x with st := .turn } y 0 k := by simp [State.delivered, hout]
  rw [← hdel] at hv
  have hac : (a.count F.MBX_RING_DETACH_DROP_DETACH_DROP 1 0 r.toNat).GdxAlone i y n { x with st := .turn } := hua'.alone hua
  have hva := hv.alone hac
  have hret := State.gdxSettle_of_turn hua rfl hflow htok
    (State.fullSink_of_detached hsink.turn hud) hva
  generalize u.delivered n { x with st := .turn } y = v at hv hret
  have hvr : RegsBut u v [.MBX_RING_DETACH_DROP] :=
    (((RegsBut.of_regs _ hua'.regs).put _ _ _ _ (by decide)).of_eq hv.regs)
  have hvc : v.get F.MBX_RING_DETACH_DROP_DETACH_DROP 0 r.toNat =
      min (2 ^ 32 - 1) (s.get F.MBX_RING_DETACH_DROP_DETACH_DROP 0 r.toNat + 1) := by
    rw [State.get_congr hv.regs, State.get_count_self _ _ _ _ _ (by decide), State.get_congr hua'.regs, hregs.get _ (by decide)]
  have huv : RegsGdx u v := hua'.regsGdx.trans (((OnlyRegs.refl a).put _ _ _ _).regsGdx.trans hv.regsGdx)
  refine ⟨_, hex, hret.insts, hret.nodes, ?_, ?_, ?_, ?_, ?_⟩
  · rw [hret.regs.get _ (by decide), hvr.get _ (by decide), hcount]
  · rw [hret.regs.get _ (by decide), hvc]
  · exact ((hregs.comp hvr).comp hret.regs).mono (by decide)
  · rw [← hregs.telemRange (by decide), ← hvr.telemRange (by decide)]
    exact (MemOut.of_mem (hrest.trans huv).mem []).comp hret.mem
  · exact (hrest.trans huv).regsMemGdx.trans hret.rest

end

end Sys2Proof.Machine
end

