-- ==== Sys2Proof/Proofs/RunCompletions.lean ====
section
/-!
SUPPORT. Sys2Proof/Proofs/RunCompletions.lean: the one run of the only NodeInst reports: it is released, replayed elsewhere or fails
(R132, R136, R141, R143); from these and the releases that waited, O24.
-/
namespace Sys2Proof.Machine

/-! ### A run reports (R132) -/

/-- The report of a run without outputs. -/
def reportedRun (k : RunKind) (e : Nat) (c : Completion) : Run := ⟨k, e, [], some ⟨c.code, c.port, 0⟩⟩

/-- Executor e is free, and NodeInst n is z. -/
def State.reported (s : State) (e n : Nat) (z : NodeInst) : State :=
  (s.setExec e { s.exec e with node := none, done := none }).setNode n z

section
variable {s : State} {i n e : Nat} {k : RunKind} {c : Completion} {x : NodeInst} {y : SlotInst}

theorem State.complete_of_single (hx : s.node n = some x) (hr : x.runs = [⟨k, e, [], none⟩]) (hdis : x.discard = false)
    (hn : (s.exec e).node = some n) (hd : (s.exec e).done = some c) :
    s.complete e = ((s.reported e n { x with runs := [reportedRun k e c] }).faultExec e c).judge n e := by
  have hx' : ∀ w, (s.setExec e w).node n = some x := fun _ => hx
  simp [State.complete, hn, hd, hx', hr, hdis, withWords, State.injectSig, State.signature, reportedRun, State.reported]

theorem State.reported_alone (ha : s.GdxAlone i y n x) (rs : List Run) :
    (s.reported e n { x with runs := rs }).GdxAlone i y n { x with runs := rs } := by
  have hw : (s.setExec e { s.exec e with node := none, done := none }).GdxAlone i y n x := ha.congr rfl rfl rfl
  exact hw.setNode rfl

theorem State.reported_exec (s : State) (e n : Nat) (z : NodeInst) :
    (s.reported e n z).exec e = { s.exec e with node := none, done := none } := Tab.get_set_self _ _ _ _

theorem faultCode_iff {c : Nat} : faultCode c = true ↔ 2 ≤ c ∧ c ≤ 6 := by simp [faultCode]

theorem State.faultExec_of_ok (h : c.code = 0) : s.faultExec e c = s := by
  have hf : faultCode c.code = false := by rw [h]; rfl
  rw [State.faultExec, hf, if_neg (by simp)]

/-- Executor e has left dispatch (R143, item 2); nothing else but the quarantine and its OUT flag differs. -/
structure TakenOut (s t : State) (e : Nat) : Prop where
  exec : t.exec e = { s.exec e with out := true }
  gdx : t.gdx = { s.gdx with execs := t.gdx.execs, quarantine := t.gdx.quarantine }
  regs : RegsBut s t [.T_STATUS]
  rest : RegsGdx s t

/-- A detected fault of an engine takes it out of dispatch. -/
theorem State.faultExec_takenOut (h : 2 ≤ c.code ∧ c.code ≤ 6) (he : execClass e ≠ 0) : TakenOut s (s.faultExec e c) e := by
  have ht : s.faultExec e c = s.execOut e := by
    rw [State.faultExec, if_pos (faultCode_iff.2 h), if_neg (fun hc => he hc.1)]
  rw [ht, State.execOut]
  simp only [if_neg he]
  refine ⟨?_, rfl, ?_, rfl⟩
  · exact Tab.get_set_self _ _ _ _
  · exact ((RegsBut.refl s [.T_STATUS]).of_eq rfl).put _ _ _ _ (by decide)

/-! ### The one run is judged (R132) -/

section
variable {z : NodeInst} (ha : s.GdxAlone i y n z) (hr : z.runs = [reportedRun k e c]) (hp : z.poisonReplay = false)
include ha hr hp

/-- A NodeInst whose run ended well comes to its turn, where no flow keeps it. -/
theorem State.judge_of_ok (hc : c.code = 0) (hf : z.flow = none) :
    s.judge n e = s.setNode n { z with st := .turn, runs := [], outs := [], tie := false } := by
  simp only [State.judge, ha.node, hr, reportedRun, hp, Bool.false_eq_true, if_false, hc, if_true, State.completeNode, State.atHead, hf]

theorem State.judge_of_fault (hc : 2 ≤ c.code ∧ c.code ≤ 6) : s.judge n e = s.replayNode n [e] := by
  obtain ⟨hlo, hhi⟩ := hc
  have h0 : c.code ≠ 0 := by omega
  have h1 : c.code ≠ 1 := by omega
  have h7 : c.code ≠ 7 := by omega
  simp only [State.judge, ha.node, hr, reportedRun, hp, Bool.false_eq_true, if_false, h0, h1, h7, State.freeOutputs, List.foldl_nil]

end

end

/-! ### A replay (R127, R143) -/

/-- A NodeInst whose run is void, with the executor that it must avoid. -/
def NodeInst.voided (x : NodeInst) (e : Nat) : NodeInst := { x with runs := [], excluded := x.excluded ++ [e], tie := false }

/-- A NodeInst that is ready again in a cycle and tick. -/
def NodeInst.again (x : NodeInst) (cycle tick : Nat) : NodeInst := { x with replays := x.replays + 1 }.readyAt cycle tick

section
variable {s : State} {i n e : Nat} {x : NodeInst} {y : SlotInst}

theorem State.gdxSettle_of_ready (ha : s.GdxAlone i y n x) (hst : x.st = .ready) : s.gdxSettle = s.gdxShow := by
  obtain ⟨hi, hn, hx, -⟩ := ha
  have hadm : s.admitAll = s := State.admitAll_of_none (State.asking_eq_nil (by simp [hn, hst]))
  rw [State.gdxSettle, hadm, State.releaseAll_retireAll_of_ready hn (hx ▸ hi) hst]

theorem State.makeReady_of_node (h : s.node n = some x) : s.makeReady n = s.setNode n (x.readyAt s.gdx.cycle s.tbu.ticks) := by
  rw [State.makeReady, State.upNode_of_node h]
  rfl

/-- NodeInst n is ready again, alone; the replay is counted. -/
structure Replayed (s t : State) (i n e : Nat) (x : NodeInst) : Prop where
  alone : ∃ y z, t.GdxAlone i y n z ∧ z.st = .ready ∧ z.replays = x.replays + 1 ∧ z.excluded = x.excluded ++ [e] ∧ z.runs = []
  execs : t.gdx.execs = s.gdx.execs
  count : t.get F.REPLAYS_COUNT = min (2 ^ 32 - 1) (s.get F.REPLAYS_COUNT + 1)
  regs : RegsBut s t [.REPLAYS]
  rest : RegsGdx s t

/-- A replayable NodeInst of level 0 or 1 with replays left is ready again at once. -/
theorem State.replayNode_replays (ha : s.GdxAlone i y n x) (hrep : (y.tpl.node x.node).replayable = true)
    (hlv : (y.tpl.node x.node).level ≤ 1) (hmax : x.replays < s.get F.GDX_CFG_REPLAY_MAX) :
    Replayed s (s.replayNode n [e]) i n e x := by
  have h1 : (s.setNode n (x.voided e)).GdxAlone i y n (x.voided e) := ha.setNode rfl
  obtain ⟨v, hv⟩ : ∃ v, v = ((s.setNode n (x.voided e)).setInst i { y with replayed := y.replayed + 1 }).count F.REPLAYS_COUNT := ⟨_, rfl⟩
  have h2 : v.GdxAlone i { y with replayed := y.replayed + 1 } n (x.voided e) := hv ▸ (h1.setInst _).congr rfl rfl rfl
  have h3 := h2.setNode (z := { x.voided e with replays := x.replays + 1 }) rfl
  have h4 := h3.setNode (z := (x.voided e).again v.gdx.cycle v.tbu.ticks) rfl
  have hup : (s.setNode n (x.voided e)).upInst x.inst (fun i => { i with replayed := i.replayed + 1 }) =
      (s.setNode n (x.voided e)).setInst i { y with replayed := y.replayed + 1 } := h1.upInst _
  have he : s.replayNode n [e] = (v.setNode n { x.voided e with replays := x.replays + 1 }).setNode n
      ((x.voided e).again v.gdx.cycle v.tbu.ticks) := by
    have hready := State.makeReady_of_node h3.node
    have hguard : (y.tpl.node x.node).replayable = true ∧ x.replays < (s.setNode n (x.voided e)).get F.GDX_CFG_REPLAY_MAX := ⟨hrep, hmax⟩
    have hnode := State.upNode_of_node h2.node (fun x => { x with replays := x.replays + 1 })
    have hshape : s.replayNode n [e] = ((((s.setNode n (x.voided e)).upInst x.inst (fun i => { i with replayed := i.replayed + 1 })).count
        F.REPLAYS_COUNT).upNode n (fun x => { x with replays := x.replays + 1 })).makeReady n := by
      simp only [State.replayNode, ha.node, ha.recOf]
      exact (if_pos hguard).trans (if_pos hlv)
    rw [hshape, hup, ← hv, hnode]
    exact hready
  rw [he]
  refine ⟨⟨_, _, h4, rfl, rfl, rfl, rfl⟩, by rw [hv]; rfl, ?_, ?_, by rw [hv]; rfl⟩
  · rw [hv]
    exact State.get_count_self s _ _ _ _ (by decide)
  · rw [hv]
    exact ((RegsBut.refl s [.REPLAYS]).put _ _ _ _ (by decide)).of_eq rfl

end

/-! ### The end FAILED (R141, R142) -/

section
variable {s : State} {i n e : Nat} {x : NodeInst} {y : SlotInst}

/-- A running NodeInst that holds nothing ends without freeing anything. -/
theorem State.endNode_of_running (hx : s.node n = some x) (hst : x.st = .running) (htok : x.tokens.all (·.isNone) = true)
    (hout : x.outs = []) (hrun : x.runs = []) (hflow : x.flow = none) (hpoison : x.poisonReplay = false) :
    s.endNode n .failed = (s.setNode n { x with st := .ended .failed, runs := [], outs := [], tie := false }).upInst x.inst
      (fun i => { i with failed := i.failed + 1 }) := by
  have hover : x.over = false := by simp only [NodeInst.over, hst]
  simp only [State.endNode, hx, hover, hpoison, hst, hout, hrun, State.leaveFlow, hflow, State.freeOutputs, List.flatMap_nil, List.append_nil,
    List.foldl_nil, State.freeInputs_of_none htok, Bool.false_eq_true, if_false]

/-- Nothing is reachable from no port. -/
theorem Template.reach_nil (g : Template) (k : Nat) : g.reach k [] = [] := by
  refine foldl_fixed_of_mem fun m _ => if_neg ?_
  simp

/-- A NodeInst without outputs ends with nothing to propagate. -/
theorem State.propagate_nil (s : State) (n : Nat) : s.propagate n [] = s := by
  unfold State.propagate
  split
  · rfl
  · split
    · rfl
    · simp [Template.reach_nil, Template.remotes]

/-- NodeInst n has ended FAILED, alone; it is counted and recorded (R141, R502). -/
structure Failed (s t : State) (i n : Nat) : Prop where
  ended : Ended t t i n
  execs : t.gdx.execs = s.gdx.execs
  count : t.get F.FAILED_COUNT = min (2 ^ 32 - 1) (s.get F.FAILED_COUNT + 1)
  aft : t.aft = s.aft
  tbu : t.tbu = s.tbu
  exu : t.exu = s.exu

theorem State.failNode_fails (ha : s.GdxAlone i y n x) (hst : x.st = .running) (htok : x.tokens.all (·.isNone) = true)
    (hout : x.outs = []) (hrun : x.runs = []) (hflow : x.flow = none) (hpoison : x.poisonReplay = false)
    (hnout : (y.tpl.node x.node).nOut = 0) : Failed s (s.failNode n) i n := by
  obtain ⟨u, hu⟩ : ∃ u, u = s.setNode n { x with st := .ended .failed, runs := [], outs := [], tie := false } := ⟨_, rfl⟩
  have hua : u.GdxAlone i y n { x with st := .ended .failed, runs := [], outs := [], tie := false } := hu ▸ ha.setNode rfl
  have hend : s.endNode n .failed = u.setInst i { y with failed := y.failed + 1 } := by
    rw [State.endNode_of_running ha.node hst htok hout hrun hflow hpoison, ← hu]
    exact hua.upInst _
  have hva := hua.setInst { y with failed := y.failed + 1 }
  have hone : s.failOne n = (((u.setInst i { y with failed := y.failed + 1 }).count F.FAILED_COUNT).gdxReport 0x01 1 y.tpl.id x.node
      y.slotWord y.tl, []) := by
    simp only [State.failOne, ha.node, hpoison, ha.inst, hend, hnout, List.range_zero, State.propagate_nil, Bool.false_eq_true, if_false]
  have hall : s.failNode n = (s.failOne n).1 := by
    obtain ⟨-, hn, -⟩ := ha
    have hnil : (s.failOne n).2 ++ [] = [] := by rw [hone]; rfl
    rw [State.failNode, hn]
    show State.failAll 1 (s.failOne n).1 ((s.failOne n).2 ++ []) = _
    rw [hnil]
    rfl
  rw [hall, hone]
  obtain ⟨w, hw⟩ : ∃ w, w = (u.setInst i { y with failed := y.failed + 1 }).count F.FAILED_COUNT := ⟨_, rfl⟩
  rw [← hw]
  have hwa : w.GdxAlone i { y with failed := y.failed + 1 } n { x with st := .ended .failed, runs := [], outs := [], tie := false } :=
    hw ▸ hva.congr rfl rfl rfl
  have hws : RegsGdx s w := by rw [hw, hu]; rfl
  have hwc : w.get F.FAILED_COUNT = min (2 ^ 32 - 1) (s.get F.FAILED_COUNT + 1) := by
    rw [hw, hu]
    exact State.get_count_self s _ _ _ _ (by decide)
  have hwe : w.gdx.execs = s.gdx.execs := by rw [hw, hu]; rfl
  show Failed s (w.gdxReport 0x01 1 y.tpl.id x.node y.slotWord y.tl) i n
  have hrec : RecordOnly w (w.gdxReport 0x01 1 y.tpl.id x.node y.slotWord y.tl) := w.report_recordOnly _
  have hkeep : (w.gdxReport 0x01 1 y.tpl.id x.node y.slotWord y.tl).get F.FAILED_COUNT = w.get F.FAILED_COUNT :=
    (State.report_keepsTime _ _).regs.get _ (by decide) _ _
  generalize w.gdxReport 0x01 1 y.tpl.id x.node y.slotWord y.tl = t at hrec hkeep
  have hta := hwa.congr (t := t) (by rw [hrec.gdx]) (by rw [hrec.gdx]) (by rw [hrec.gdx])
  exact ⟨hta.ended rfl, by rw [hrec.gdx, hwe], hkeep.trans hwc, hrec.aft.trans hws.aft, hrec.tbu.trans hws.tbu, hrec.exu.trans hws.exu⟩

/-- What may not be replayed fails. -/
theorem State.replayNode_fails (ha : s.GdxAlone i y n x) (hrep : (y.tpl.node x.node).replayable = false) :
    s.replayNode n [e] = (s.setNode n (x.voided e)).failNode n := by
  simp only [State.replayNode, ha.node, ha.recOf]
  exact if_neg fun h => absurd h.1 (by simp [hrep])

end

/-! ### The clauses of O24 on COMPLETION_REPORT -/

/-- The one run, kind k on executor e, of the only NodeInst has ended with completion c; the NodeInst holds no buffer and is in no flow. -/
structure LastRun (s : State) (i : Nat) (y : SlotInst) (n : Nat) (x : NodeInst) (e : Nat) (k : RunKind) (c : Completion) : Prop where
  alone : s.GdxAlone i y n x
  st : x.st = .running
  runs : x.runs = [⟨k, e, [], none⟩]
  keep : x.discard = false
  noPoison : x.poisonReplay = false
  noFlow : x.flow = none
  outs : x.outs = []
  nOut : (y.tpl.node x.node).nOut = 0
  tokens : x.tokens.all (·.isNone) = true
  busy : (s.exec e).node = some n
  done : (s.exec e).done = some c

/-- The NodeInst whose run has reported. -/
def NodeInst.heard (x : NodeInst) (k : RunKind) (e : Nat) (c : Completion) : NodeInst := { x with runs := [reportedRun k e c] }

section
variable {s : State} {i n : Nat} {e : BitVec 9} {k : RunKind} {c : Completion} {x : NodeInst} {y : SlotInst}
variable (h : LastRun s i y n x e.toNat k c)
include h

/-- The report of the run: the executor is free, and what it said is judged. -/
theorem LastRun.reports : ∃ u, u.GdxAlone i y n (x.heard k e.toNat c) ∧ u.regs = s.regs ∧ RegsGdx s u ∧
    u.exec e.toNat = { s.exec e.toNat with node := none, done := none } ∧
    exec (.completionReport e) s = .next ((u.faultExec e.toNat c).judge n e.toNat).gdxSettle := by
  have ha : s.gdxCycle.GdxAlone i y n x := h.alone.congr rfl rfl rfl
  have hc := State.complete_of_single ha.node h.runs h.keep h.busy h.done
  refine ⟨s.gdxCycle.reported e.toNat n (x.heard k e.toNat c), State.reported_alone ha _, rfl, rfl, State.reported_exec _ _ _ _, ?_⟩
  show execCompletionReport e s = _
  rw [execCompletionReport, hc]
  rfl

theorem completionReport_releases (hc : c.code = 0) :
    Completes (.completionReport e) s (fun t => t.gdx.insts = [] ∧ t.gdx.nodes = [] ∧
      (t.exec e.toNat).node = none ∧ (t.exec e.toNat).out = (s.exec e.toNat).out ∧
      RegsBut s t (gdxShown ++ [Reg.GDX_TELEM_WR, Reg.GDX_TELEM_LOST]) ∧ MemOut s t [s.telemRange] ∧
      t = { s with regs := t.regs, mem := t.mem, gdx := t.gdx }) := by
  obtain ⟨u, hua, hur, hus, hue, hex⟩ := h.reports
  obtain ⟨v, hv⟩ : ∃ v, v = u.setNode n { x.heard k e.toNat c with st := .turn, runs := [], outs := [], tie := false } := ⟨_, rfl⟩
  rw [State.faultExec_of_ok hc, State.judge_of_ok hua rfl h.noPoison hc h.noFlow, ← hv] at hex
  have hva : v.GdxAlone i y n { x.heard k e.toNat c with st := .turn, runs := [], outs := [], tie := false } := hv ▸ hua.setNode rfl
  have hroom : v.fullSink y (y.tpl.node x.node) = none := by rw [State.fullSink, h.nOut]; rfl
  have hret : Retired v v.gdxSettle := State.gdxSettle_of_turn hva rfl h.noFlow h.tokens hroom hva
  have hregs : RegsBut s v [] := RegsBut.of_regs _ (by rw [hv]; exact hur)
  have hrest : RegsGdx s v := hus.trans (by rw [hv]; rfl)
  have hexec : v.gdxSettle.exec e.toNat = { s.exec e.toNat with node := none, done := none } := by
    rw [State.exec_congr hret.execs, ← hue, hv]
    rfl
  refine ⟨_, hex, hret.insts, hret.nodes, by rw [hexec], by rw [hexec], hregs.comp hret.regs, ?_, hrest.regsMemGdx.trans hret.rest⟩
  rw [← hregs.telemRange (by simp)]
  exact (MemOut.of_mem hrest.mem []).comp hret.mem

variable (hc : 2 ≤ c.code ∧ c.code ≤ 6) (he : execClass e.toNat ≠ 0)
include hc he

/-- After a fault of an engine, which has left dispatch, the NodeInst is replayed or fails. -/
theorem LastRun.faults : ∃ u, u.GdxAlone i y n (x.heard k e.toNat c) ∧ RegsBut s u [.T_STATUS] ∧ RegsGdx s u ∧
    u.exec e.toNat = { s.exec e.toNat with node := none, done := none, out := true } ∧
    exec (.completionReport e) s = .next (u.replayNode n [e.toNat]).gdxSettle := by
  obtain ⟨u, hua, hur, hus, hue, hex⟩ := h.reports
  have hout := State.faultExec_takenOut (s := u) hc he
  generalize u.faultExec e.toNat c = v at hex hout
  have hva := hua.congr (t := v) (by rw [hout.gdx]) (by rw [hout.gdx]) (by rw [hout.gdx])
  rw [State.judge_of_fault hva rfl h.noPoison hc] at hex
  exact ⟨v, hva, (RegsBut.of_regs _ hur).trans hout.regs, hus.trans hout.rest, by rw [hout.exec, hue], hex⟩

theorem completionReport_replays (hrep : (y.tpl.node x.node).replayable = true) (hlv : (y.tpl.node x.node).level ≤ 1)
    (hmax : x.replays < s.get F.GDX_CFG_REPLAY_MAX) :
    Completes (.completionReport e) s (fun t => (t.exec e.toNat).out = true ∧ (t.exec e.toNat).node = none ∧
      (∃ z, t.node n = some z ∧ z.st = .ready ∧ z.replays = x.replays + 1 ∧ z.excluded = x.excluded ++ [e.toNat] ∧ z.runs = []) ∧
      t.get F.REPLAYS_COUNT = min (2 ^ 32 - 1) (s.get F.REPLAYS_COUNT + 1) ∧
      RegsBut s t (gdxShown ++ [Reg.REPLAYS, Reg.T_STATUS]) ∧ t = { s with regs := t.regs, gdx := t.gdx }) := by
  obtain ⟨u, hua, hur, hus, hue, hex⟩ := h.faults hc he
  have hr := State.replayNode_replays (e := e.toNat) hua hrep hlv (by rw [hur.get _ (by decide)]; exact hmax)
  generalize u.replayNode n [e.toNat] = v at hex hr
  obtain ⟨⟨w, z, hva, hst, hreplays, hexcl, hruns⟩, hexecs, hcount, hregs, hrest⟩ := hr
  rw [State.gdxSettle_of_ready hva hst] at hex
  have hexec : v.gdxShow.exec e.toNat = { s.exec e.toNat with node := none, done := none, out := true } := by
    rw [← hue]
    exact State.exec_congr (by rw [v.gdxShow_gdx, hexecs]) _
  refine ⟨_, hex, by rw [hexec], by rw [hexec], ⟨z, (v.gdxShow_node n).trans hva.node, hst, hreplays, hexcl, hruns⟩, ?_, ?_,
    hus.trans (hrest.trans v.gdxShow_onlyRegs.regsGdx)⟩
  · rw [v.gdxShow_regsBut.get _ (by decide), hcount, hur.get _ (by decide)]
  · exact ((hur.comp hregs).comp v.gdxShow_regsBut).mono (by decide)

theorem completionReport_fails (hrep : (y.tpl.node x.node).replayable = false) :
    Completes (.completionReport e) s (fun t => (t.exec e.toNat).out = true ∧ t.gdx.insts = [] ∧ t.gdx.nodes = [] ∧
      t.get F.FAILED_COUNT = min (2 ^ 32 - 1) (s.get F.FAILED_COUNT + 1) ∧ t.aft = s.aft ∧ t.tbu = s.tbu ∧ t.exu = s.exu) := by
  obtain ⟨u, hua, hur, hus, hue, hex⟩ := h.faults hc he
  rw [State.replayNode_fails hua hrep] at hex
  obtain ⟨v, hv⟩ : ∃ v, v = u.setNode n ((x.heard k e.toNat c).voided e.toNat) := ⟨_, rfl⟩
  have hva : v.GdxAlone i y n ((x.heard k e.toNat c).voided e.toNat) := hv ▸ hua.setNode rfl
  have huv : RegsGdx u v := by rw [hv]; rfl
  have hvr : RegsBut u v [] := RegsBut.of_regs _ (by rw [hv]; rfl)
  have hve : v.exec e.toNat = u.exec e.toNat := State.exec_congr (by rw [hv]; rfl) _
  rw [← hv] at hex
  have hf := State.failNode_fails hva h.st h.tokens h.outs rfl h.noFlow h.noPoison h.nOut
  generalize v.failNode n = w at hex hf
  rw [State.gdxSettle_of_ended hf.ended] at hex
  have hret := hf.ended.retired
  have hsv := hus.trans huv
  refine ⟨_, hex, ?_, hret.insts, hret.nodes, ?_, ?_, ?_, ?_⟩
  · rw [State.exec_congr hret.execs, State.exec_congr hf.execs, hve, hue]
  · rw [hret.regs.get _ (by decide), hf.count, hvr.get _ (by decide), hur.get _ (by decide)]
  · rw [hret.rest.aft, hf.aft, hsv.aft]
  · rw [hret.rest.tbu, hf.tbu, hsv.tbu]
  · rw [hret.rest.exu, hf.exu, hsv.exu]

end

/-- Settles O24: what a report, a free buffer entry or space in a ring lets go on leads to one release, replay or end. -/
theorem completionsReleaseReplayOrFail : Obligations.CompletionsReleaseReplayOrFail := by
  unfold Obligations.CompletionsReleaseReplayOrFail
  refine ⟨fun e i n k c x y s => ?_,
    fun e cycles n x s he hx hst hbuf _ hs => releaseBufferEntryFree_buffers he hx hst hbuf hs,
    fun r cycles i n w0 w1 k rg x y s ha _ hst hout hp _ hflow _ htok hone hsink hkind hring =>
      ringSinkSpace_releases ha hst hout hp hflow htok ⟨hone, hsink, hkind, hring⟩⟩
  intro r ha _ hst hruns hdis _ hpoison hflow hout hnout htok hbusy hdone
  have h : LastRun s i y n x e.toNat k c := ⟨ha, hst, hruns, hdis, hpoison, hflow, hout, hnout, htok, hbusy, hdone⟩
  exact ⟨completionReport_releases h, fun hlo hhi he => ⟨completionReport_replays h ⟨hlo, hhi⟩ he, completionReport_fails h ⟨hlo, hhi⟩ he⟩⟩

end Sys2Proof.Machine
end

