-- ==== Sys2Proof/Proofs/GraphMeasures.lean ====
section
/-!
SUPPORT. Sys2Proof/Proofs/GraphMeasures.lean: reserves (Table 4-19), the hold of the measures (R154), and the copy of telemetry records to
a host ring (R155); from these O25.
-/
namespace Sys2Proof.Machine

/-! ### Reserves (Table 4-19) -/

theorem classActive_le (c : Fin 10) : classActive c ≤ 256 := by
  revert c
  decide

section
variable {c : Fin 10} {v : Word} {s : State}

theorem exec_reserveWrite : exec (.reserveWrite c v) s = .next (s.setReserve c (v.toNat % 256)) := by
  show execReserveWrite c v s = _
  rw [execReserveWrite, natBits, Nat.pow_zero, Nat.div_one]
  rfl

theorem reserveWrite_stores (h : v.toNat % 256 < classActive c) :
    Completes (.reserveWrite c v) s (fun t => t.get F.GDX_CLASS_RESERVE_RESERVE 0 c = v.toNat % 256 ∧
      FieldsBut s t [(F.GDX_CLASS_RESERVE_RESERVE, 0, c)] ∧ t = { s with regs := t.regs }) := by
  refine ⟨_, exec_reserveWrite, ?_⟩
  rw [State.setReserve, if_neg (Nat.not_le.2 h)]
  refine ⟨?_, FieldsBut.put_self _ _ _ _ _, rfl⟩
  rw [State.get_put_self _ _ _ _ _ (by decide)]
  exact Nat.mod_mod _ _

theorem reserveWrite_overcommits (h : classActive c ≤ v.toNat % 256) :
    Completes (.reserveWrite c v) s (fun t => t.get F.GDX_CLASS_RESERVE_RESERVE 0 c = classActive c - 1 ∧
      t.get F.GDX_STATUS_OVERCOMMIT = 1 ∧
      FieldsBut s t [(F.GDX_CLASS_RESERVE_RESERVE, 0, c), (F.GDX_STATUS_OVERCOMMIT, 0, 0)] ∧ t = { s with regs := t.regs }) := by
  refine ⟨_, exec_reserveWrite, ?_⟩
  rw [State.setReserve, if_pos h]
  refine ⟨?_, State.get_set_self _ _ _ _ (by decide) (by decide), ?_, rfl⟩
  · rw [State.set, State.get_put_key _ _ _ _ _ _ _ _ (by simp), State.get_put_self _ _ _ _ _ (by decide)]
    have := classActive_le c
    exact Nat.mod_eq_of_lt (show classActive c - 1 < 256 by omega)
  · exact ((FieldsBut.refl s _).put _ _ _ _ (by simp)).set _ _ _ (by simp)

end

/-! ### The hold (R154) -/

/-- HOLD itself is no measure. -/
theorem reg_ne_of_mem_snapKeys {k : RegKey} (h : k ∈ snapKeys) : k.reg ≠ .GDX_SNAP := by
  simp only [snapKeys, List.mem_append, List.mem_map, List.mem_flatMap, List.mem_cons, List.not_mem_nil, or_false] at h
  rcases h with ((⟨_, -, rfl⟩ | ⟨_, -, rfl⟩) | ⟨_, -, rfl | rfl⟩) | ⟨r, hr, rfl⟩
  · exact Reg.noConfusion
  · exact Reg.noConfusion
  · exact Reg.noConfusion
  · exact Reg.noConfusion
  · rintro rfl
    simp at hr

section
variable {s : State}

/-- The measures as HOLD = 1 captures them are those before it. -/
theorem snap_set_hold (s : State) : snapKeys.map (fun k => (k, (s.setTo F.GDX_SNAP_HOLD true).rd k)) = snapKeys.map (fun k => (k, s.rd k)) := by
  have hr : RegsBut s (s.setTo F.GDX_SNAP_HOLD true) [.GDX_SNAP] := (RegsBut.refl s _).put _ _ _ _ (by decide)
  refine List.map_congr_left fun k hk => ?_
  rw [hr k (fun hc => reg_ne_of_mem_snapKeys hk (List.mem_singleton.1 hc))]

theorem gdxSnapHold_captures : Completes (.gdxSnapHold true) s (fun t =>
    t.gdx.snap = some (s.gdx.snap.getD (snapKeys.map (fun k => (k, s.rd k)))) ∧
    t.get F.GDX_SNAP_HOLD = 1 ∧ FieldsBut s t [(F.GDX_SNAP_HOLD, 0, 0)] ∧
    t = { s with regs := t.regs, gdx := { s.gdx with snap := t.gdx.snap } }) := by
  have hset : (s.setTo F.GDX_SNAP_HOLD true).get F.GDX_SNAP_HOLD = 1 := State.get_set_self _ _ _ _ (by decide) (by decide)
  have hfields : FieldsBut s (s.setTo F.GDX_SNAP_HOLD true) [(F.GDX_SNAP_HOLD, 0, 0)] := (FieldsBut.refl s _).setTo _ _ _ _ (by simp)
  refine ⟨s.snapHold true, rfl, ?_⟩
  cases hs : s.gdx.snap with
  | some m =>
    have he : s.snapHold true = s.setTo F.GDX_SNAP_HOLD true := by
      have hs' : (s.setTo F.GDX_SNAP_HOLD true).gdx.snap = some m := hs
      simp only [State.snapHold, if_true, hs']
    rw [he]
    exact ⟨hs, hset, hfields, rfl⟩
  | none =>
    have he : s.snapHold true = (s.setTo F.GDX_SNAP_HOLD true).setGdx
        { s.gdx with snap := some (snapKeys.map (fun k => (k, s.rd k))) } := by
      have hs' : (s.setTo F.GDX_SNAP_HOLD true).gdx.snap = none := hs
      simp only [State.snapHold, if_true, hs', snap_set_hold]
      rfl
    rw [he]
    exact ⟨rfl, hset, hfields.of_eq rfl, rfl⟩

theorem gdxSnapHold_ends : Completes (.gdxSnapHold false) s (fun t => t.gdx.snap = none ∧ t.get F.GDX_SNAP_HOLD = 0 ∧
    FieldsBut s t [(F.GDX_SNAP_HOLD, 0, 0)] ∧ t = { s with regs := t.regs, gdx := { s.gdx with snap := none } }) :=
  ⟨s.snapHold false, rfl, rfl, State.get_clr_self _ _ _ _ (by decide),
    ((FieldsBut.refl s _).setTo F.GDX_SNAP_HOLD false 0 0 (by simp)).of_eq rfl, rfl⟩

end

/-! ### A ring entry is written (R430, R433, R434) -/

/-- The dispatcher is the same, and what was sent stays sent. -/
structure SendsMore (s t : State) : Prop where
  gdx : t.gdx = s.gdx
  out : s.out ⊆ t.out

theorem SendsMore.trans {s t u : State} (h : SendsMore s t) (h' : SendsMore t u) : SendsMore s u :=
  ⟨h'.gdx.trans h.gdx, List.Subset.trans h.out h'.out⟩

section
variable (s : State)

theorem SendsMore.refl : SendsMore s s := ⟨rfl, List.Subset.refl _⟩

theorem State.writeOut_sendsMore (inHost : Bool) (f a : Nat) (bs : List Byte) : SendsMore s (s.writeOut inHost f a bs) := by
  unfold State.writeOut
  split
  · exact ⟨rfl, List.subset_append_left _ _⟩
  · exact ⟨rfl, List.Subset.refl _⟩

theorem State.ringSignal_sendsMore (r n : Nat) : SendsMore s (s.ringSignal r n) := by
  unfold State.ringSignal
  split
  · exact .refl s
  · dsimp only
    split
    · split
      · exact ⟨rfl, List.subset_append_left _ _⟩
      · exact ⟨rfl, List.Subset.refl _⟩
    · exact ⟨rfl, List.Subset.refl _⟩

variable {s} {r : Nat} {x : Ring} {bytes : Nat → List Byte} {buf : Option (Nat × Nat)}

/-- A ring in host memory: the entry at TAIL is written through the host window, and TAIL advances. -/
theorem State.ringPutBytes_inHost (hr : s.ring r = some x) (hh : x.inHost = true) :
    (s.ringPutBytes r bytes buf).gdx = s.gdx ∧
    .hostWrite x.func (x.base + s.get F.MBX_RING_TAIL_TAIL 0 r % x.entries * 64) (bytes x.outSeq) ∈ (s.ringPutBytes r bytes buf).out ∧
    (s.ringPutBytes r bytes buf).get F.MBX_RING_TAIL_TAIL 0 r = (s.get F.MBX_RING_TAIL_TAIL 0 r + 1) % 2 ^ 32 := by
  simp only [State.ringPutBytes, hr, hh]
  generalize s.get F.MBX_RING_TAIL_TAIL 0 r = tail
  generalize hu : (((s.writeOut true x.func (x.base + tail % x.entries * 64) (bytes x.outSeq)).setRing r _).put
    F.MBX_RING_TAIL_TAIL (tail + 1) 0 r) = u
  have hug : u.gdx = s.gdx := by rw [← hu]; rfl
  have huo : .hostWrite x.func (x.base + tail % x.entries * 64) (bytes x.outSeq) ∈ u.out := by
    rw [← hu]
    exact List.mem_append_right _ (List.mem_singleton.2 rfl)
  have hut : u.get F.MBX_RING_TAIL_TAIL 0 r = (tail + 1) % 2 ^ 32 := by
    rw [← hu]
    exact State.get_put_self _ _ _ _ _ (by decide)
  have hv : SendsMore u (u.writeBack x ((tail + 1) % 2 ^ 32)) := u.writeOut_sendsMore _ _ _ _
  have hk : KeepsTime u (u.writeBack x ((tail + 1) % 2 ^ 32)) [] := u.writeOut_keepsTime _ _ _ _ _
  generalize u.writeBack x ((tail + 1) % 2 ^ 32) = v at hv hk
  have hw := hv.trans (v.ringSignal_sendsMore r 1)
  have hk := hk.trans (v.ringSignal_keepsTime r 1 [])
  exact ⟨hw.gdx.trans hug, hw.out huo, (hk.regs.get _ (by simp) _ _).trans hut⟩

end

/-! ### A record is copied or lost (R155) -/

section
variable {s : State} {r : Nat} {x : Ring} (ht : s.host.telemRing = some r) (hd : s.ringDetached r = false)
  (hw : s.get F.GDX_TELEM_WR_WR ≠ s.get F.GDX_TELEM_RD_RD) (hs : s.get F.GDX_TELEM_SIZE_SIZE ≠ 0)
include ht hd hw hs

theorem telemetryCopy_copies (hr : s.ring r = some x) (hroom : s.ringHasRoom r = true) (hh : x.inHost = true) :
    Completes .telemetryCopy s (fun t => t.get F.GDX_TELEM_RD_RD = (s.get F.GDX_TELEM_RD_RD + 1) % 2 ^ 16 ∧
      .hostWrite x.func (x.base + s.get F.MBX_RING_TAIL_TAIL 0 r % x.entries * 64)
        (s.bytes (sramBase + s.get F.GDX_TELEM_BASE_BASE + s.get F.GDX_TELEM_RD_RD % s.get F.GDX_TELEM_SIZE_SIZE * 64) 64) ∈ t.out ∧
      t.get F.MBX_RING_TAIL_TAIL 0 r = (s.get F.MBX_RING_TAIL_TAIL 0 r + 1) % 2 ^ 32 ∧ t.gdx = s.gdx) := by
  refine ⟨s.telemCopy, rfl, ?_⟩
  simp only [State.telemCopy, ht, hw, hs, or_self, if_false, hd, hroom, if_true, Bool.false_eq_true]
  generalize s.bytes _ 64 = bs
  obtain ⟨hg, ho, htail⟩ := State.ringPutBytes_inHost (bytes := fun _ => bs) (buf := none) hr hh
  generalize s.ringPutBytes r (fun _ => bs) none = u at hg ho htail
  refine ⟨State.get_put_self _ _ _ _ _ (by decide), ho, ?_, hg⟩
  rw [State.get_put_key _ _ _ _ _ _ _ _ (by simp), htail]

theorem telemetryCopy_loses (hroom : s.ringHasRoom r = false) :
    Completes .telemetryCopy s (fun t => t.get F.GDX_TELEM_RD_RD = (s.get F.GDX_TELEM_RD_RD + 1) % 2 ^ 16 ∧
      t.get F.GDX_TELEM_LOST_COUNT = min (2 ^ 32 - 1) (s.get F.GDX_TELEM_LOST_COUNT + 1) ∧
      FieldsBut s t [(F.GDX_TELEM_RD_RD, 0, 0), (F.GDX_TELEM_LOST_COUNT, 0, 0)] ∧ t = { s with regs := t.regs }) := by
  refine ⟨s.telemCopy, rfl, ?_⟩
  simp only [State.telemCopy, ht, hw, hs, or_self, if_false, hd, hroom, Bool.false_eq_true]
  refine ⟨State.get_put_self _ _ _ _ _ (by decide), ?_, ?_, rfl⟩
  · rw [State.get_put_key _ _ _ _ _ _ _ _ (by simp), State.get_count_self _ _ _ _ _ (by decide)]
  · exact ((FieldsBut.refl s _).count _ _ _ _ (by simp)).put _ _ _ _ (by simp)

end

/-- Settles O25: each of the four only writes its registers, and the copy, besides, an entry of the ring. -/
theorem reservesSnapshotsAndTelemetry : Obligations.ReservesSnapshotsAndTelemetry := by
  unfold Obligations.ReservesSnapshotsAndTelemetry
  refine ⟨fun c v s => ⟨reserveWrite_stores, reserveWrite_overcommits⟩, fun s => ⟨gdxSnapHold_captures, gdxSnapHold_ends⟩,
    fun r x s ht hr hd hw hs => ⟨telemetryCopy_copies ht hd hw hs hr, telemetryCopy_loses ht hd hw hs⟩, fun s hn => ?_⟩
  show execTelemetryCopy s = _
  rw [execTelemetryCopy, State.telemCopy, hn]

end Sys2Proof.Machine
end

