-- ==== Sys2Proof/Proofs/UnreadReplies.lean ====
section
/-!
SUPPORT. Sys2Proof/Proofs/UnreadReplies.lean: replies that memory out of canonical form does not give back, for one command of O46, O48
and O49 each; the state is that of O47's refutation but for the command that the mailbox executes.
-/
namespace Sys2Proof.Machine

/-! ### A command whose reply does not read back -/

/-- Mailbox 0 executes command op in the memory of `strayState`. -/
def strayRequest (op : Nat) : Req := { strayReq with op := op }

def strayMbx (op : Nat) : Mbx := ⟨some (strayRequest op), none, some (3, 0)⟩

def strayFor (op : Nat) : State := strayState.setHost { strayState.host with mbx := [(0, strayMbx op)] }

/-- The reply OK to it, without items. -/
def strayAnswer (op : Nat) : Reply :=
  ⟨0, op, 3, 0, 0, 0, 0, 0, [], natLe 1 0 ++ natLe 1 3 ++ natLe 2 op ++ natLe 4 0 ++ natLe 4 0 ++ natLe 4 0⟩

theorem strayFor_serving (op : Nat) : (strayFor op).Serving 0 op (strayRequest op) := by
  have hstate : (strayFor op).get F.MBX_STATUS_STATE 0 0 = 2 := by
    show strayState.get F.MBX_STATUS_STATE 0 0 = 2
    decide
  have hcur : ((strayFor op).mbx 0).cur = some (strayRequest op) := rfl
  refine ⟨?_, rfl⟩
  rw [State.request, if_pos (.inl hstate), hcur]
  simp [strayRequest]

/-- The commands below: SET_PRECEDENCE, BAR2_WINDOW and ERR_READ. -/
theorem strayAnswer_unread : ∀ op ∈ [0x0205, 0x0607, 0x0B01],
    (strayState.mem.writeBytes (replyArea 0) (strayAnswer op).bytes).readBytes (replyArea 0) (strayAnswer op).bytes.length ≠
      (strayAnswer op).bytes := by decide

section
variable {u : State} {op : Nat}

/-- A reply lies in memory as it was written there, and is the last one. -/
theorem State.sendReply_stores {m : Nat} {r : Req} {y : Reply} (hr : r.gone = false) (hy : y.status ≠ 0x1E) :
    (u.sendReply m r y).mem = u.mem.writeBytes (replyArea m) y.bytes ∧ ((u.sendReply m r y).mbx m).last = some y := by
  unfold State.sendReply
  extract_lets x v w
  have hwm : w.mem = u.mem.writeBytes (replyArea m) y.bytes := rfl
  have hwx : w.mbx m = { x with cur := none, last := some y } := by
    have hv : v.mbx m = { x with cur := none, last := if y.status = 0x1E then x.last else some y } := Tab.get_set_self _ _ _ _
    rw [if_neg hy] at hv
    exact hv
  clear_value w
  have hwl : (w.mbx m).last = some y := by rw [hwx]
  rw [if_neg (by simp [hr])]
  split
  · exact ⟨hwm, hwl⟩
  · exact ⟨hwm, hwl⟩

theorem State.replyOk_stray (hx : u.mbx 0 = strayMbx op) :
    u.replyOk 0 (strayRequest op) [] = u.sendReply 0 (strayRequest op) (strayAnswer op) := by
  simp only [State.replyOk, State.replyWith, State.replyVersion, hx, strayMbx]
  rfl

theorem not_replied_stray (hop : op ∈ [0x0205, 0x0607, 0x0B01]) (hm : u.mem = strayState.mem) (hx : u.mbx 0 = strayMbx op)
    (p : List ReplyItem → Prop) : ¬ Replied (u.replyOk 0 (strayRequest op) []) 0 (strayRequest op) 0 p := by
  rw [State.replyOk_stray hx]
  obtain ⟨hmem, hlast⟩ := State.sendReply_stores (u := u) (m := 0) (r := strayRequest op) (y := strayAnswer op) rfl (by simp [strayAnswer])
  rintro ⟨y, -, hy, -, -, -, -, -, -, hbytes, -⟩
  cases hlast.symm.trans (hy (by decide))
  rw [State.bytes, hmem, hm] at hbytes
  exact strayAnswer_unread op hop hbytes

end

/-- A command that succeeds without items replies OK. -/
theorem State.serve_of_ok {s t : State} {m op : Nat} {r : Req} {k : Nat → State → Refuse ⊕ (List ReplyItem × State)}
    (h : s.Serving m op r) (hk : k (s.mbxOwner m) s = .inr ([], t)) : s.serve m op k = t.replyOk m r [] := by
  obtain ⟨hr, -⟩ := h
  simp only [State.serve, hr, hk]

/-! ### The refutations -/

/-- Refutes O46: as O47, the statement does not ask for a memory in canonical form. In `strayFor 0x0205`, whose memory lists a byte of the
reply area out of order, the reply to SET_PRECEDENCE of no carrier does not read back, where `Replied` says that it lies there. -/
theorem not_carriersGraphsAndKernelsAreManaged : ¬ Obligations.CarriersGraphsAndKernelsAreManaged := by
  unfold Obligations.CarriersGraphsAndKernelsAreManaged
  intro h
  obtain ⟨-, -, -, -, hprec, -⟩ := h 0#8 (strayRequest 0x0205) (strayFor 0x0205)
  obtain ⟨hok, -⟩ := hprec [] (strayFor_serving _)
  obtain ⟨t, ht, hreply, -⟩ := hok (by simp)
  have hx : exec (.setPrecedence 0#8 []) (strayFor 0x0205) = .next (((strayFor 0x0205).setCar
      { (strayFor 0x0205).car with prec := [] }).replyOk 0 (strayRequest 0x0205) []) :=
    congrArg Host.Outcome.next (State.serve_of_ok (strayFor_serving _) rfl)
  cases ht.symm.trans hx
  refine not_replied_stray (by decide) ?_ ?_ _ hreply
  · rfl
  · rfl

/-- Refutes O48 in the same way: the reply to a good BAR2_WINDOW does not read back in `strayFor 0x0607`. -/
theorem not_ringsQueuesPoolsAndPowerAreServed : ¬ Obligations.RingsQueuesPoolsAndPowerAreServed := by
  unfold Obligations.RingsQueuesPoolsAndPowerAreServed
  intro h
  obtain ⟨-, -, -, -, -, -, hwin, -⟩ := h 0#8 (strayRequest 0x0607) (strayFor 0x0607)
  obtain ⟨-, hok⟩ := hwin 1 0 (BitVec.ofNat 48 hbmBase) (strayFor_serving _)
  obtain ⟨t, ht, hreply, -⟩ := hok (by decide) (by decide) (by decide) (by decide)
  have hx : exec (.bar2Window 0#8 1 0 (BitVec.ofNat 48 hbmBase)) (strayFor 0x0607) = .next (((strayFor 0x0607).setHost
      { (strayFor 0x0607).host with windows := Tab.set (strayFor 0x0607).host.windows (1, 0) hbmBase }).replyOk 0 (strayRequest 0x0607) []) :=
    congrArg Host.Outcome.next (State.serve_of_ok (strayFor_serving _) rfl)
  cases ht.symm.trans hx
  refine not_replied_stray (by decide) ?_ ?_ _ hreply
  · rfl
  · rfl

/-- Refutes O49 in the same way: the reply to ERR_READ of no record does not read back in `strayFor 0x0B01`. -/
theorem not_testsRecordsAndFirmwareAreServed : ¬ Obligations.TestsRecordsAndFirmwareAreServed := by
  unfold Obligations.TestsRecordsAndFirmwareAreServed
  intro h
  obtain ⟨h, -⟩ := h
  obtain ⟨-, -, -, -, -, -, -, -, -, -, -, -, -, -, hread, -⟩ := h 0#8 (strayRequest 0x0B01) (strayFor 0x0B01)
  obtain ⟨t, ht, hreply, -⟩ := hread 0 0 (strayFor_serving _)
  have hx : exec (.errRead 0#8 0 0) (strayFor 0x0B01) = .next ((strayFor 0x0B01).replyOk 0 (strayRequest 0x0B01) []) :=
    congrArg Host.Outcome.next (State.serve_of_ok (strayFor_serving _) rfl)
  cases ht.symm.trans hx
  refine not_replied_stray (by decide) ?_ ?_ _ hreply
  · rfl
  · rfl

end Sys2Proof.Machine
end

