-- ==== Sys2Proof/Proofs/CoreSteps.lean ====
section
/-!
SUPPORT. Sys2Proof/Proofs/CoreSteps.lean: what a step inside one core changes (R165), a bundle whose operations write registers only, and
its control action (R166, R180).
-/
namespace Sys2Proof.Machine

/-! ### Steps inside one core -/

/-- The registers that show a bundle's issue and its flags (Table 5-16). -/
noncomputable def issueRegs : List Reg := [.VSC_STATUS, .VSC_STALL, .VSC_STICKY]

/-- Of the device, a step changes the run of core k and listed registers. -/
structure InCore (s t : State) (k : Nat) (rs : List Reg) : Prop where
  others : ∀ j, j ≠ k → t.core j = s.core j
  regs : RegsBut s t rs
  rest : t = { s with regs := t.regs, exu := { s.exu with vsc := t.exu.vsc } }

section
variable {s t u : State} {k : Nat} {rs : List Reg}

theorem InCore.refl (s : State) (k : Nat) (rs : List Reg) : InCore s s k rs := ⟨fun _ _ => rfl, RegsBut.refl s rs, rfl⟩

theorem InCore.trans (h : InCore s t k rs) (h' : InCore t u k rs) : InCore s u k rs where
  others j hj := (h'.others j hj).trans (h.others j hj)
  regs := h.regs.trans h'.regs
  rest := by
    have ht := h.rest
    have hu := h'.rest
    rw [ht] at hu
    exact hu

theorem InCore.put (h : InCore s t k rs) (f : Fld) (v i j : Nat) (hf : f.reg ∈ rs) : InCore s (t.put f v i j) k rs :=
  h.trans ⟨fun _ _ => rfl, (RegsBut.refl t rs).put f v i j hf, rfl⟩

theorem InCore.setCore (h : InCore s t k rs) (c : VscCore) : InCore s (t.setCore k c) k rs :=
  h.trans ⟨fun _ hj => Tab.find_set_ne _ hj _, RegsBut.of_regs _ rfl, rfl⟩

theorem InCore.coreUpdate (h : InCore s t k rs) (f : VscCore → VscCore) : InCore s (t.coreUpdate k f) k rs := by
  unfold State.coreUpdate
  split
  · exact h
  · exact h.setCore _

theorem InCore.rest_exu (h : InCore s t k rs) : t = { s with regs := t.regs, exu := t.exu } := by
  have he : t.exu = { s.exu with vsc := t.exu.vsc } := congrArg State.exu h.rest
  rw [he]
  exact h.rest

theorem InCore.mem (h : InCore s t k rs) : t.mem = s.mem := by rw [h.rest]

theorem InCore.icache (h : InCore s t k rs) (j : Nat) : t.icache j = s.icache j := by
  rw [State.icache, State.icache, h.rest]

theorem InCore.mx (h : InCore s t k rs) (cl : Nat) : t.mx cl = s.mx cl := by rw [State.mx, State.mx, h.rest]

end

theorem State.setCore_core (s : State) (k : Nat) (c : VscCore) : (s.setCore k c).core k = some c := Tab.find_set_self _ _ _

theorem State.setCore_core_ne (s : State) {k j : Nat} (h : j ≠ k) (c : VscCore) : (s.setCore k c).core j = s.core j := Tab.find_set_ne _ h _

theorem State.setCore_mx (s : State) (k cl : Nat) (c : VscCore) : (s.setCore k c).mx cl = s.mx cl := rfl

theorem State.setCore_regs (s : State) (k : Nat) (c : VscCore) : (s.setCore k c).regs = s.regs := rfl

theorem State.coreUpdate_of_core {s : State} {k : Nat} {c : VscCore} (h : s.core k = some c) (f : VscCore → VscCore) :
    s.coreUpdate k f = s.setCore k (f c) := by
  rw [State.coreUpdate, h]

/-! ### Reading a bundle, in states that agree on what it is read from -/

/-- The registers that name the position of a core (R156, R565). -/
noncomputable def posRegs : List Reg := [.SCL_MAP, .SCL_STATUS]

section
variable {s t : State} {rs : List Reg}

theorem RegsBut.vscPos (h : RegsBut s t rs) (hd : ∀ r ∈ posRegs, r ∉ rs) (k : Nat) : t.vscPos k = s.vscPos k := by
  simp only [State.vscPos, State.sclPos, h.get F.SCL_MAP_SLOT (hd _ (by decide)), h.get F.SCL_STATUS_BENCH_POS (hd _ (by decide))]

theorem State.word_of_mem (h : t.mem = s.mem) (a : Nat) : t.word a = s.word a := by
  rw [State.word, State.word, h]

theorem State.slotOps_congr (h : t.mem = s.mem) (a slots : Nat) (l : List Nat) : t.slotOps a slots l = s.slotOps a slots l := by
  induction l generalizing a with
  | nil => rfl
  | cons i l ih =>
    change (if slots.testBit i then vop i (t.word a) :: t.slotOps (a + 4) slots l else t.slotOps a slots l) = _
    rw [ih, ih, State.word_of_mem h]
    rfl

theorem State.bundleAt_congr (h : t.mem = s.mem) (a : Nat) : t.bundleAt a = s.bundleAt a := by
  have hs : t.slotOps = s.slotOps := funext fun _ => funext fun _ => funext (State.slotOps_congr h _ _)
  delta State.bundleAt
  rw [State.word_of_mem h, hs]

section
variable {k : Nat} (h : InCore s t k rs) (c : VscCore)
include h

theorem InCore.missing (j : Nat) : t.missing j c = s.missing j c := by
  delta State.missing
  rw [h.icache, show t.bundleAt = s.bundleAt from funext (State.bundleAt_congr h.mem)]

theorem InCore.mxStalls (hd : ∀ r ∈ posRegs, r ∉ rs) (j : Nat) (b : Bundle) : t.mxStalls j c b = s.mxStalls j c b := by
  delta State.mxStalls
  rw [show t.mx = s.mx from funext h.mx, h.regs.vscPos hd]

end
end

/-! ### Flags -/

section
variable {s : State} {k : Nat}

theorem State.raiseFlags_inCore (fl : Nat) : InCore s (s.raiseFlags k fl) k issueRegs :=
  ((((InCore.refl s k _).coreUpdate _).put _ _ _ _ (by decide)).put _ _ _ _ (by decide)).put _ _ _ _ (by decide)

theorem State.raiseFlags_core {c : VscCore} (h : s.core k = some c) (fl : Nat) :
    (s.raiseFlags k fl).core k = some { c with flags := c.flags ||| fl } := by
  unfold State.raiseFlags
  rw [State.coreUpdate_of_core h]
  exact State.setCore_core _ _ _

end

/-! ### Operations that write registers only -/

section
variable {s : State} {k : Nat} {c : VscCore} {b : Bundle}

/-- The state where a bundle's register writes w have reached core k, and its control action is to follow. -/
noncomputable def State.written (s : State) (k : Nat) (c : VscCore) (w : List VWr) : State := (s.setCore k (w.foldl VscCore.apply c)).raiseFlags k 0

theorem State.written_inCore (w : List VWr) : InCore s (s.written k c w) k issueRegs :=
  ((InCore.refl s k _).setCore _).trans (State.raiseFlags_inCore 0)

theorem State.written_core (w : List VWr) : (s.written k c w).core k = some (w.foldl VscCore.apply c) :=
  (State.raiseFlags_core (s.setCore_core _ _) 0).trans (by rw [Nat.or_zero])

/-- A bundle without operations is its control action. -/
theorem State.bundleOps_of_nil (hc : s.core k = some c) (hb : b.ops = []) : s.bundleOps k c b = (s.written k c []).control k b := by
  obtain ⟨ctl, csel, target, ops⟩ := b
  subst hb
  refine (if_neg fun h => Bool.false_ne_true h.2).trans ((if_neg fun h => Bool.false_ne_true h.2).trans ?_)
  refine (if_neg fun h => h.1 (by simp [natBits])).trans ?_
  exact congrArg (fun t : State => (t.raiseFlags k 0).control k ⟨ctl, csel, target, []⟩)
    (State.coreUpdate_of_core hc (List.foldl VscCore.apply · []))

/-- The register writes of an operation reach the core, and the control action of its bundle follows. -/
theorem State.bundleOps_of_regs {o : VOp} {w : List VWr} (hc : s.core k = some c) (hinj : c.inj = 0) (hb : b.ops = [o])
    (hmx : o.isMx = false) (hr : s.vopRes k c o = VRes.regs w) : s.bundleOps k c b = (s.written k c w).control k b := by
  obtain ⟨ctl, csel, target, ops⟩ := b
  subst hb
  have hfl : ([VRes.regs w].map (·.flags)).foldl (· ||| ·) 0 = 0 := Nat.zero_or 0
  delta State.bundleOps
  rw [List.map_singleton, hr]
  refine (if_neg (by simp [hinj])).trans ((if_neg (by simp [hinj])).trans ((if_neg fun h => h.1 (congrArg (natBits · 8 8) hfl)).trans ?_))
  rw [List.filter_cons, hmx, hfl]
  exact congrArg (fun t : State => (t.raiseFlags k 0).control k ⟨ctl, csel, target, [o]⟩) <|
    (State.coreUpdate_of_core hc (List.foldl VscCore.apply · (w ++ []))).trans <|
    congrArg (fun w => s.setCore k (List.foldl VscCore.apply c w)) (List.append_nil w)

end

/-! ### Control actions (R166, R180) -/

theorem loope_eq (n : Nat) : loope n = (n - 1, decide (1 < n)) := by
  by_cases h : 1 < n
  · rw [loope, if_pos h, decide_eq_true h]
  · rw [loope, if_neg h, decide_eq_false h, Nat.sub_eq_zero_of_le (Nat.not_lt.1 h)]

/-- A run goes on at an address. -/
noncomputable def VscCore.at (c : VscCore) (pc : Nat) : VscCore := { c with pc := pc }

/-- A run that has ended. -/
noncomputable def VscCore.ended (c : VscCore) (r : RunEnd) : VscCore := { c with ending := some r }

/-- A run with another return stack. -/
noncomputable def VscCore.withStack (c : VscCore) (l : List Nat) : VscCore := { c with stack := l }

/-- A run with another loop counter. -/
noncomputable def VscCore.withLoop (c : VscCore) (i : Nat) (x : Nat × Nat) : VscCore := { c with lc := Tab.set c.lc i x }

/-- The control actions that keep a run going take it from c to z; next is the address behind the bundle. -/
def Bundle.Flow (b : Bundle) (c z : VscCore) (next : Nat) : Prop :=
  b.ctl = 1 ∧ z = c.at (b.dest c.pc) ∨
  b.ctl = 2 ∧ z = c.at (if (c.q b.csel).testBit 0 then b.dest c.pc else next) ∨
  b.ctl = 3 ∧ c.stack.length < 8 ∧ z = (c.at (b.dest c.pc)).withStack (next :: c.stack) ∨
  b.ctl = 4 ∧ (∃ a, c.stack = a :: z.stack ∧ z = (c.at a).withStack z.stack) ∨
  b.ctl = 5 ∧ (∃ n ec, Tab.get (0, 0) c.lc b.csel = (n, ec) ∧
    z = (c.withLoop b.csel (n - 1, ec)).at (if 1 < n then b.dest c.pc else next))

/-- What f makes of a state with the run of core k. -/
noncomputable def State.onCore (s : State) (k : Nat) (f : VscCore → State) : State :=
  match s.core k with
  | none => s
  | some c => f c

section
variable {s : State} {k : Nat} {c z : VscCore} {b : Bundle}

theorem State.onCore_of_core (hc : s.core k = some c) (f : VscCore → State) : s.onCore k f = f c := by
  rw [State.onCore, hc]

theorem Bundle.eq_of_ctl {n : Nat} (h : b.ctl = n) : b = { b with ctl := n } := by
  cases h
  rfl

theorem State.control_next (hc : s.core k = some c) (hctl : b.ctl = 0) : s.control k b = s.setCore k (c.at (c.pc + b.bytes)) :=
  (congrArg (s.control k) (Bundle.eq_of_ctl hctl)).trans (State.onCore_of_core hc fun c => s.setCore k (c.at (c.pc + b.bytes)))

theorem State.control_end (hc : s.core k = some c) (hctl : b.ctl = 7) : s.control k b = (s.setCore k (c.ended ⟨0, 0, 0⟩)).vscFinish k :=
  (congrArg (s.control k) (Bundle.eq_of_ctl hctl)).trans (State.onCore_of_core hc fun c => (s.setCore k (c.ended ⟨0, 0, 0⟩)).vscFinish k)

theorem State.control_flow (hc : s.core k = some c) (h : b.Flow c z (c.pc + b.bytes)) :
    s.control k b = s.setCore k z ∧ z.ending = c.ending := by
  have hb {n : Nat} (hctl : b.ctl = n) : s.control k b = s.control k { b with ctl := n } := congrArg (s.control k) (Bundle.eq_of_ctl hctl)
  rcases h with ⟨hctl, rfl⟩ | ⟨hctl, rfl⟩ | ⟨hctl, hl, rfl⟩ | ⟨hctl, a, hs, hz⟩ | ⟨hctl, n, ec, hn, rfl⟩ <;> rw [hb hctl]
  · exact ⟨State.onCore_of_core hc fun c => s.setCore k (c.at (b.dest c.pc)), rfl⟩
  · exact ⟨State.onCore_of_core hc fun c => s.setCore k (c.at (if (c.q b.csel).testBit 0 then b.dest c.pc else c.pc + b.bytes)), rfl⟩
  · refine ⟨(State.onCore_of_core hc fun c => if 8 ≤ c.stack.length then s.runEnd k 1 5 0 0
      else s.setCore k ((c.at (b.dest c.pc)).withStack ((c.pc + b.bytes) :: c.stack))).trans ?_, rfl⟩
    exact if_neg (Nat.not_le.2 hl)
  · refine ⟨(State.onCore_of_core hc fun c => match c.stack with
      | [] => s.runEnd k 1 5 0 0
      | a :: st => s.setCore k ((c.at a).withStack st)).trans ?_, by rw [hz]; rfl⟩
    rw [hs]
    exact congrArg (s.setCore k) hz.symm
  · refine ⟨(State.onCore_of_core hc fun c => s.setCore k ((c.withLoop b.csel ((loope (Tab.get (0, 0) c.lc b.csel).1).1,
      (Tab.get (0, 0) c.lc b.csel).2)).at (if (loope (Tab.get (0, 0) c.lc b.csel).1).2 then b.dest c.pc else c.pc + b.bytes))).trans ?_, rfl⟩
    simp only [hn, loope_eq, decide_eq_true_eq]

end

/-! ### Issue (R165) -/

/-- A bundle of core k has waited some cycles and issues now. -/
noncomputable def State.waited (s : State) (k stall : Nat) : State := (s.clr F.VSC_STATUS_HALTED k).count F.VSC_STALL_STALL stall k

/-- The effects of a bundle that issues; what the end of its run squashes is counted (R209). -/
noncomputable def State.issued (s : State) (k squashed : Nat) (c : VscCore) (b : Bundle) : State :=
  let t := s.bundleOps k c b
  let ended := match t.core k with
    | some z => z.ending.isSome
    | none => true
  if ended then t.count F.MXC_SQUASHED_SQUASHED squashed (vscCluster k) else t

section
variable {s t : State} {k stall squashed : Nat} {c z : VscCore} {b : Bundle}

theorem State.waited_inCore : InCore s (s.waited k stall) k issueRegs :=
  ((InCore.refl s k _).put _ _ _ _ (by decide)).put _ _ _ _ (by decide)

section
variable (h : s.Issues k c b)
include h

theorem State.Issues.core : s.core k = some c := h.1

theorem State.Issues.ending : c.ending = none := h.2.1

theorem State.Issues.power : s.domState (vscCluster k) ≤ 1 := h.2.2.1

theorem State.Issues.inj : c.inj = 0 := h.2.2.2.2.2.2.2.2

theorem State.Issues.bundleIssue_eq : s.bundleIssue k stall squashed = (s.waited k stall).issued k squashed c b := by
  obtain ⟨hh, hm, hb, hl, hx, -⟩ := h.2.2.2
  have hw := s.waited_inCore (k := k) (stall := stall)
  have hrun : ¬ (c.ending.isSome = true ∨ 2 ≤ s.domState (vscCluster k)) := by
    rw [h.ending]
    exact fun h' => h'.elim Bool.false_ne_true (Nat.not_le.2 (Nat.lt_succ_of_le h.power))
  have hb := (State.bundleAt_congr hw.mem (c.kernel.code + c.pc)).trans hb
  delta State.bundleIssue
  rw [h.core]
  refine (if_neg hrun).trans ((if_neg (Bool.eq_false_iff.1 hh)).trans ?_)
  refine (if_neg (not_not_intro ((hw.missing c k).trans hm))).trans ?_
  refine (if_neg (not_not_intro ((congrArg (Bundle.legal · c) hb).trans hl))).trans ?_
  refine (if_neg (Bool.eq_false_iff.1 ((hw.mxStalls c (by decide) k _).trans ((congrArg (s.mxStalls k c) hb).trans hx)))).trans ?_
  exact congrArg ((s.waited k stall).issued k squashed c) hb

end

theorem State.Issues.bundleIssue_goes_on (h : s.Issues k c b) (ht : (s.waited k stall).bundleOps k c b = t) (hc : t.core k = some z)
    (hz : z.ending = none) : s.bundleIssue k stall squashed = t := by
  rw [h.bundleIssue_eq, State.issued, ht, hc]
  exact if_neg (Bool.eq_false_iff.1 (congrArg Option.isSome hz))

theorem State.Issues.bundleIssue_ends (h : s.Issues k c b) (ht : (s.waited k stall).bundleOps k c b = t) (hc : t.core k = none) :
    s.bundleIssue k stall squashed = t.count F.MXC_SQUASHED_SQUASHED squashed (vscCluster k) := by
  rw [h.bundleIssue_eq, State.issued, ht, hc]
  rfl

end

end Sys2Proof.Machine
end

