-- ==== Sys2Proof/Proofs/CoreEnds.lean ====
section
/-!
SUPPORT. Sys2Proof/Proofs/CoreEnds.lean: the end of a run that holds no channel and no lock: what it captures and reports (R185, R186), and
its completion (R182, R211).
-/
namespace Sys2Proof.Machine

/-! ### Channels and positions, in states that agree on their registers -/

section
variable {s t : State} {rs : List Reg}

theorem RegsBut.bmvOf (h : RegsBut s t rs) (hr : Reg.BMV_CH_OWNER ∉ rs) (e pos node : Nat) : t.bmvOf e pos node = s.bmvOf e pos node := by
  have hrd : (fun n => t.rd ⟨.BMV_CH_OWNER, e, n⟩) = fun n => s.rd ⟨.BMV_CH_OWNER, e, n⟩ := funext fun _ => h _ hr
  exact congrArg (fun rd : Nat → Word => (List.range 8).filter fun n =>
    decide (fieldGet (rd n) F.BMV_CH_OWNER_HELD.lo F.BMV_CH_OWNER_HELD.len ≠ 0) &&
    decide (fieldGet (rd n) F.BMV_CH_OWNER_POS.lo F.BMV_CH_OWNER_POS.len = pos) &&
    decide (fieldGet (rd n) F.BMV_CH_OWNER_NODE_INST_ID.lo F.BMV_CH_OWNER_NODE_INST_ID.len = node)) hrd

theorem RegsBut.recordAddr (h : RegsBut s t rs) (hd : ∀ r ∈ posRegs, r ∉ rs) (k : Nat) : t.recordAddr k = s.recordAddr k :=
  congrArg (fun p => 0x20800000 + vscCluster k * 0x1000000 + p * 0x80000 + 0x7C000) (h.vscPos hd k)

theorem State.outWords_congr (h : t.mem = s.mem) (a : Nat) : t.outWords a = s.outWords a := by
  delta State.outWords
  rw [show t.word = s.word from funext (State.word_of_mem h)]

end

/-! ### The parts of a run -/

/-- Registers, executors, the dispatcher and power control apart, nothing differs. -/
def RunParts (s t : State) : Prop := t = { s with regs := t.regs, exu := t.exu, gdx := t.gdx, pwr := t.pwr }

section
variable {s t u : State}

theorem RunParts.trans (h : RunParts s t) (h' : RunParts t u) : RunParts s u := by
  unfold RunParts at *
  exact h'.trans (congrArg (fun v : State => { v with regs := u.regs, exu := u.exu, gdx := u.gdx, pwr := u.pwr }) h)

theorem RunParts.put (h : RunParts s t) (f : Fld) (v i j : Nat) : RunParts s (t.put f v i j) := h.trans rfl

theorem RunParts.setCore (h : RunParts s t) (k : Nat) (c : VscCore) : RunParts s (t.setCore k c) := h.trans rfl

theorem OnlyRegs.runParts (h : OnlyRegs s t) : RunParts s t := by
  unfold OnlyRegs at h
  rw [h]
  rfl

theorem InCore.runParts {k : Nat} {rs : List Reg} (h : InCore s t k rs) : RunParts s t := by
  rw [h.rest]
  rfl

end

/-! ### The coprocessor's lock at the end of a run (R211) -/

section
variable (s : State) (cl pos node : Nat)

theorem State.setMx_mx (m : Mxc) : (s.setMx cl m).mx cl = m := Tab.get_set_self _ _ _ _

theorem State.setMx_regs (m : Mxc) : RegsBut s (s.setMx cl m) mxcShown :=
  (RegsBut.of_regs _ rfl : RegsBut s (s.setExu { s.exu with mxc := Tab.set s.exu.mxc cl m }) _).putAll _ _ _ <| List.forall_mem_map.1 <|
    show ∀ r ∈ [Reg.MXC_STATUS, .MXC_STATUS, .MXC_OWNER, .MXC_STATUS, .MXC_STATUS, .MXC_STATUS, .MXC_STATUS, .MXC_WAITERS], r ∈ mxcShown by
      decide

theorem State.setMx_runParts (m : Mxc) : RunParts s (s.setMx cl m) :=
  RunParts.trans (t := s.setExu { s.exu with mxc := Tab.set s.exu.mxc cl m }) rfl ((OnlyRegs.refl _).putAll _ _ _).runParts

theorem State.mxRunEnd_regs : RegsBut s (s.mxRunEnd cl pos node) mxcShown := s.setMx_regs cl _

theorem State.mxRunEnd_runParts : RunParts s (s.mxRunEnd cl pos node) := s.setMx_runParts ..

variable {s} in
theorem State.mxRunEnd_lock (h : (s.mx cl).lock = none) : ((s.mxRunEnd cl pos node).mx cl).lock = none := by
  unfold State.mxRunEnd
  rw [State.setMx_mx]
  simp only [h, ite_self]

end

theorem Mxc.ownedBy_of_free {m : Mxc} (h : m.lock = none) (pos node : Nat) : m.ownedBy pos node = false := by
  simp [Mxc.ownedBy, h]

/-! ### A run that has ended reports (R182) -/

/-- The run c of core k is over in t: the core is free, the executor's record carries the end r with the token words, and else only the
coprocessor and auto-doze differ. -/
def RunOver (s t : State) (k : Nat) (c : VscCore) (r : RunEnd) : Prop :=
  t.core k = none ∧ (∀ j, j ≠ k → t.core j = s.core j) ∧ t.get F.VSC_STATUS_BUSY k = 0 ∧
  (t.exec c.exec).done = some ⟨r.code, r.cause, r.reason, s.outWords (s.recordAddr k)⟩ ∧
  RegsBut s t (mxcShown ++ [.VSC_STATUS]) ∧ RunParts s t

/-- The run of core k has ended with r, holds no channel, and nobody owns the coprocessor of its cluster. -/
def EndedFree (s : State) (k : Nat) (c : VscCore) (r : RunEnd) : Prop :=
  s.core k = some c ∧ c.ending = some r ∧ s.bmvOf (vscCluster k) (s.vscPos k) c.node = [] ∧ (s.mx (vscCluster k)).lock = none

section
variable (s : State) (k pos : Nat) (c : VscCore) (r : RunEnd)

/-- The run at a position leaves the coprocessor, and the core shows itself free. -/
noncomputable def State.runLeft : State := (s.mxRunEnd (vscCluster k) pos c.node).clr F.VSC_STATUS_BUSY k

/-- The executor's record carries the end of its run. -/
noncomputable def State.runReported : State :=
  s.setExec c.exec { s.exec c.exec with done := some ⟨r.code, r.cause, r.reason, s.outWords (s.recordAddr k)⟩ }

/-- The core holds no run any more. -/
noncomputable def State.coreEmptied : State :=
  (s.setExu { s.exu with vsc := Tab.erase s.exu.vsc k }).domTouch (vscCluster k)

/-- The completion of a run that has released the channels l. -/
noncomputable def State.finished (l : List Nat) : State :=
  (((l.foldl (fun s ch => s.bmvRelease (vscCluster k) ch) s).runLeft k pos c).runReported k c r).coreEmptied k

theorem State.runLeft_regs : RegsBut s (s.runLeft k pos c) (mxcShown ++ [.VSC_STATUS]) :=
  (s.mxRunEnd_regs _ _ _).comp ((RegsBut.refl _ [.VSC_STATUS]).put _ _ _ _ (by decide))

theorem State.runLeft_busy : (s.runLeft k pos c).get F.VSC_STATUS_BUSY k = 0 := State.get_put_self _ _ _ _ _ (by decide)

/-- A report and a free core change no register. -/
theorem State.runReported_coreEmptied : let t := (s.runReported k c r).coreEmptied k
    t.core k = none ∧ (∀ j, j ≠ k → t.core j = s.core j) ∧ t.regs = s.regs ∧ RunParts s t ∧
    (t.exec c.exec).done = some ⟨r.code, r.cause, r.reason, s.outWords (s.recordAddr k)⟩ :=
  ⟨Tab.find_erase_self _ _, fun _ hj => Tab.find_erase_ne _ hj, rfl, rfl, congrArg Exec.done (s.setExec_exec _ _)⟩

theorem State.finished_nil : s.finished k pos c r [] = ((s.runLeft k pos c).runReported k c r).coreEmptied k := rfl

variable {s k c r} in
theorem EndedFree.vscFinish_eq (h : EndedFree s k c r) : s.vscFinish k = s.finished k (s.vscPos k) c r [] := by
  obtain ⟨hc, he, hch, hlock⟩ := h
  have hown : ¬ ((s.mx (vscCluster k)).ownedBy (s.vscPos k) c.node) = true := by simp [Mxc.ownedBy_of_free hlock]
  refine (State.onCore_of_core hc fun c => match c.ending with
    | none => s
    | some r => if (s.bmvOf (vscCluster k) (s.vscPos k) c.node).all (fun ch =>
          s.bmvState (vscCluster k) ch = 0 && !s.flag F.BMV_CH_STATUS_SH_VALID (vscCluster k) ch) ∧
        (r.code ≠ 0 ∨ ¬ (s.mx (vscCluster k)).ownedBy (s.vscPos k) c.node ∨ (s.mx (vscCluster k)).queue = []) then
      s.finished k (s.vscPos k) c r (s.bmvOf (vscCluster k) (s.vscPos k) c.node) else s).trans ?_
  rw [he, hch]
  exact if_pos ⟨rfl, .inr (.inl hown)⟩

variable {s k c r} in
theorem EndedFree.vscFinish (h : EndedFree s k c r) : RunOver s (s.vscFinish k) k c r := by
  have hleft := s.runLeft_regs k (s.vscPos k) c
  have hparts : RunParts s (s.runLeft k (s.vscPos k) c) := (s.mxRunEnd_runParts _ _ _).put _ _ _ _
  obtain ⟨hcore, hothers, hregs, hrest, hdone⟩ := (s.runLeft k (s.vscPos k) c).runReported_coreEmptied k c r
  rw [State.outWords_congr (t := s.runLeft k (s.vscPos k) c) (s := s) rfl, hleft.recordAddr (by decide)] at hdone
  rw [h.vscFinish_eq, State.finished_nil]
  exact ⟨hcore, hothers, (State.get_congr hregs _ _ _).trans (s.runLeft_busy k _ c), hdone, hleft.of_eq hregs, hparts.trans hrest⟩

end

/-! ### A run is ended (R185, R186, R502) -/

/-- The reports of a hardware or coprocessor fault of a run (R186, R502). -/
noncomputable def State.faultReports (s : State) (k : Nat) (c : VscCore) (cause reason addr : Nat) : State :=
  let t := if cause < 0x10 ∨ (0x20 ≤ cause ∧ cause < 0x30) then s
    else if cause < 0x20 then s.report ⟨1, cause, 1, s.vscUnit k, if cause = 0x16 then reason else 0, addr⟩
    else s.report ⟨2, cause, 1, 2048 + vscCluster k, if cause = 0x34 then reason else 0, addr⟩
  if cause = 0x15 then t.report ⟨15, 0x01, 1, 0, c.kernel.id, 0⟩ else t

/-- What a fault leaves before the run ends: the capture of a first one, and the reports. -/
noncomputable def State.faulted (s : State) (k : Nat) (c : VscCore) (code cause reason addr : Nat) : State :=
  (s.vscCapture k code cause (if cause = 0x01 ∨ cause = 0x16 ∨ cause = 0x34 then reason else 0) c.pc).faultReports k c cause reason addr

/-- The registers that capture the first fault of a core. -/
noncomputable def captureRegs : List Reg := [.VSC_FAULT, .VSC_FAULT_PC]

section
variable {s t : State} (h : RecordOnly s t)
include h

theorem RecordOnly.out : t.out = s.out := by unfold RecordOnly at h; rw [h]

theorem RecordOnly.core (k : Nat) : t.core k = s.core k := by rw [State.core, State.core, h.exu]

theorem RecordOnly.mx (cl : Nat) : t.mx cl = s.mx cl := by rw [State.mx, State.mx, h.exu]

end

section
variable (s : State) (k : Nat) (c : VscCore) (code cause reason addr : Nat)

theorem State.vscCapture_frame (pc : Nat) : OnlyRegs s (s.vscCapture k code cause reason pc) ∧
    RegsBut s (s.vscCapture k code cause reason pc) captureRegs := by
  unfold State.vscCapture
  split
  · exact ⟨OnlyRegs.refl s, RegsBut.refl s _⟩
  · have h₁ := ((RegsBut.refl s captureRegs).put F.VSC_FAULT_CAUSE cause k 0 (by decide)).put F.VSC_FAULT_CODE code k 0 (by decide)
    have h₂ := (h₁.put F.VSC_FAULT_VALID 1 k 0 (by decide)).put F.VSC_FAULT_REASON reason k 0 (by decide)
    exact ⟨((OnlyRegs.refl s).putAll _ _ _).put _ _ _ _, h₂.put _ _ _ _ (by decide)⟩

/-- VSC_FAULT shows a fault. -/
def State.Captured (s : State) (k code cause : Nat) : Prop :=
  s.get F.VSC_FAULT_CAUSE k = cause ∧ s.get F.VSC_FAULT_CODE k = code ∧ s.get F.VSC_FAULT_VALID k = 1

variable {s k} in
theorem State.Captured.mono {t : State} {rs : List Reg} {code cause : Nat} (h : s.Captured k code cause) (ht : RegsBut s t rs)
    (hr : Reg.VSC_FAULT ∉ rs) : t.Captured k code cause := by
  obtain ⟨h₁, h₂, h₃⟩ := h
  exact ⟨(ht.get _ hr _ _).trans h₁, (ht.get _ hr _ _).trans h₂, (ht.get _ hr _ _).trans h₃⟩

variable {s k code cause} in
theorem State.vscCapture_first (hv : s.flag F.VSC_FAULT_VALID k = false) (hcode : code < 8) (hcause : cause < 256) (pc : Nat) :
    (s.vscCapture k code cause reason pc).Captured k code cause := by
  unfold State.vscCapture
  rw [hv]
  refine State.Captured.mono ⟨?_, ?_, ?_⟩ ((RegsBut.refl _ [.VSC_FAULT_PC]).put _ _ _ _ (by decide)) (by decide)
  · refine (State.get_put_fld _ _ _ _ _ _ _ _ (by decide) (by decide)).trans ((State.get_put_fld _ _ _ _ _ _ _ _ (by decide) (by decide)).trans
      ((State.get_put_fld _ _ _ _ _ _ _ _ (by decide) (by decide)).trans ((State.get_put_self _ _ _ _ _ (by decide)).trans ?_)))
    exact Nat.mod_eq_of_lt hcause
  · refine (State.get_put_fld _ _ _ _ _ _ _ _ (by decide) (by decide)).trans ((State.get_put_fld _ _ _ _ _ _ _ _ (by decide) (by decide)).trans
      ((State.get_put_self _ _ _ _ _ (by decide)).trans ?_))
    exact Nat.mod_eq_of_lt hcode
  · exact (State.get_put_fld _ _ _ _ _ _ _ _ (by decide) (by decide)).trans (State.get_put_self _ _ _ _ _ (by decide))

/-- Only what reports write differs: error records and their registers. -/
def Reported (s t : State) : Prop := RecordOnly s t ∧ RegsBut s t recordRegs

theorem State.report_reported (r : Report) : Reported s (s.report r) := ⟨s.report_recordOnly r, (s.report_keepsTime r).regs⟩

theorem Reported.refl : Reported s s := ⟨rfl, RegsBut.refl s _⟩

variable {s} in
theorem Reported.trans {t u : State} (h : Reported s t) (h' : Reported t u) : Reported s u := ⟨h.1.trans h'.1, h.2.trans h'.2⟩

variable {s} in
theorem Reported.ite {t u : State} {p : Prop} [Decidable p] (h : Reported s t) (h' : Reported s u) : Reported s (if p then t else u) := by
  split
  · exact h
  · exact h'

theorem State.faultReports_reported : Reported s (s.faultReports k c cause reason addr) := by
  unfold State.faultReports
  extract_lets t
  have ht : Reported s t := (Reported.refl s).ite ((s.report_reported _).ite (s.report_reported _))
  exact (ht.trans (t.report_reported _)).ite ht

variable {cause} in
/-- Faults of the program are not reported. -/
theorem State.faultReports_of_low (h : cause < 0x10) : s.faultReports k c cause reason addr = s := by
  unfold State.faultReports
  rw [if_neg (show ¬ cause = 0x15 by omega), if_pos (.inl h)]

/-- The registers that a faulted run writes before it ends. -/
theorem State.faulted_frame : RecordOnly s (s.faulted k c code cause reason addr) ∧
    RegsBut s (s.faulted k c code cause reason addr) (captureRegs ++ recordRegs) := by
  obtain ⟨hco, hcr⟩ := s.vscCapture_frame k code cause (if cause = 0x01 ∨ cause = 0x16 ∨ cause = 0x34 then reason else 0) c.pc
  obtain ⟨ho, hr⟩ := State.faultReports_reported (s.vscCapture k code cause _ c.pc) k c cause reason addr
  exact ⟨hco.recordOnly.trans ho, hcr.comp hr⟩

variable {s k code cause} in
theorem State.faulted_captures (hv : s.flag F.VSC_FAULT_VALID k = false) (hcode : code < 8) (hcause : cause < 256) :
    (s.faulted k c code cause reason addr).Captured k code cause :=
  (State.vscCapture_first _ hv hcode hcause c.pc).mono (State.faultReports_reported _ _ _ _ _ _).2 (by decide)

variable {s k c} in
/-- The run has ended, and is not yet complete. -/
theorem State.runEnd_eq (hc : s.core k = some c) (he : c.ending = none) (hch : s.bmvOf (vscCluster k) (s.vscPos k) c.node = []) :
    s.runEnd k code cause reason addr = (((s.faulted k c code cause reason addr).mxRunEnd (vscCluster k) (s.vscPos k) c.node).setCore k
      (c.ended ⟨code, cause, reason⟩)).vscFinish k := by
  have hno : (s.faulted k c code cause reason addr).bmvOf (vscCluster k) (s.vscPos k) c.node = [] :=
    ((s.faulted_frame k c code cause reason addr).2.bmvOf (by decide) _ _ _).trans hch
  delta State.runEnd
  rw [hc]
  refine (if_neg (Bool.eq_false_iff.1 (congrArg Option.isSome he))).trans ?_
  exact congrArg (fun l => (((l.foldl (fun s ch =>
    let s := s.clr F.BMV_CH_STATUS_SH_VALID (vscCluster k) ch
    if s.bmvState (vscCluster k) ch = 2 then s.bmvIdle (vscCluster k) ch else s.bmvStop (vscCluster k) ch)
    (s.faulted k c code cause reason addr)).mxRunEnd (vscCluster k) (s.vscPos k) c.node).setCore k
    (c.ended ⟨code, cause, reason⟩)).vscFinish k) hno

/-- An end of a run that holds no channel and no lock: capture, reports, and at once its completion. -/
theorem State.Unbound.runEnd {s : State} {k : Nat} {c : VscCore} (h : s.Unbound k c) :
    ∃ v, RunOver v (s.runEnd k code cause reason addr) k (c.ended ⟨code, cause, reason⟩) ⟨code, cause, reason⟩ ∧
      (∀ j, j ≠ k → v.core j = s.core j) ∧ RegsBut (s.faulted k c code cause reason addr) v mxcShown ∧
      RunParts (s.faulted k c code cause reason addr) v := by
  obtain ⟨hc, he, hb, hm⟩ := h
  obtain ⟨ho, hr⟩ := s.faulted_frame k c code cause reason addr
  rw [State.runEnd_eq _ _ _ _ hc he hb]
  generalize s.faulted k c code cause reason addr = u at ho hr
  have hlock := State.mxRunEnd_lock (vscCluster k) (s.vscPos k) c.node ((congrArg Mxc.lock (ho.mx _)).trans hm)
  have hparts := u.mxRunEnd_runParts (vscCluster k) (s.vscPos k) c.node
  have hv := (u.mxRunEnd_regs (vscCluster k) (s.vscPos k) c.node).of_eq (State.setCore_regs _ k (c.ended ⟨code, cause, reason⟩))
  have hch := (hv.bmvOf (by decide) _ _ _).trans ((hr.bmvOf (by decide) _ _ _).trans hb)
  have hpos := (hv.vscPos (by decide) k).trans (hr.vscPos (by decide) k)
  refine ⟨_, EndedFree.vscFinish ⟨State.setCore_core _ _ _, rfl, ?_, ?_⟩, fun j hj => ?_, hv, hparts.setCore k _⟩
  · rw [hpos]
    exact hch
  · exact (congrArg Mxc.lock (State.setCore_mx ..)).trans hlock
  · exact (State.setCore_core_ne _ hj _).trans (ho.core j)

end

end Sys2Proof.Machine
end

