-- ==== Sys2Proof/Proofs/CoreBundles.lean ====
section
/-!
SUPPORT. Sys2Proof/Proofs/CoreBundles.lean: what a bundle with one scalar operation, with a control action or with the end of the run does
(R165, R166, R180, R182); from these O26.
-/
namespace Sys2Proof.Machine

/-! ### A run goes on -/

theorem State.waited_written_inCore (s : State) (k stall : Nat) (c : VscCore) (w : List VWr) :
    InCore s ((s.waited k stall).written k c w) k issueRegs := State.waited_inCore.trans (State.written_inCore w)

/-- A bundle of core k leaves its run at z; else only the registers of its issue differ. -/
def LeavesRun (k : Nat) (z : VscCore) (s t : State) : Prop :=
  t.core k = some z ∧ (∀ j, j ≠ k → t.core j = s.core j) ∧ RegsBut s t issueRegs ∧ t = { s with regs := t.regs, exu := t.exu }

section
variable {k : BitVec 8} {st sq : Nat} {s t u : State} {c z : VscCore} {o : VOp} {b : Bundle} {v : Nat}

/-- A bundle whose effects lie inside core k and leave its run at z. -/
theorem bundleIssue_inCore (h : s.Issues k.toNat c b)
    (hb : (s.waited k.toNat st).bundleOps k.toNat c b = t.setCore k.toNat z) (hi : InCore s t k.toNat issueRegs)
    (hz : z.ending = none) :
    Completes (.bundleIssue k st sq) s (LeavesRun k.toNat z s) := by
  have hc := t.setCore_core k.toNat z
  have ht := hi.setCore z
  exact ⟨_, congrArg Host.Outcome.next (h.bundleIssue_goes_on hb hc hz), hc, ht.others, ht.regs, ht.rest_exu⟩

theorem Bundle.bytes_one (hops : b.ops = [o]) : b.bytes = 8 := by
  rw [Bundle.bytes, hops]
  rfl

theorem Bundle.bytes_nil (hops : b.ops = []) : b.bytes = 4 := by
  rw [Bundle.bytes, hops]
  rfl

/-! ### The clauses of O26 -/

theorem VOp.scalar_of_opc {n : Nat} (hp : o.pen = false) (h : o.opc = n) :
    o.isMx = VOp.isMx { o with opc := n, pen := false } ∧ c.scalar o = c.scalar { o with opc := n, pen := false } := by
  rw [← hp, ← h]
  exact ⟨rfl, rfl⟩

/-- The scalar operations of O26, unpredicated (Table 5-4). -/
theorem VscCore.scalar_of_enabled (hp : o.pen = false)
    (hv : o.opc = 1 ∧ v = (c.s o.sA + c.s o.sB) % 2 ^ 32 ∨ o.opc = 2 ∧ v = (c.s o.sA + 2 ^ 32 - c.s o.sB) % 2 ^ 32 ∨
      o.opc = 3 ∧ v = c.s o.sA &&& c.s o.sB ∨ o.opc = 4 ∧ v = c.s o.sA ||| c.s o.sB ∨ o.opc = 5 ∧ v = c.s o.sA ^^^ c.s o.sB ∨
      o.opc = 9 ∧ v = c.s o.sA * c.s o.sB % 2 ^ 32) :
    o.isMx = false ∧ c.scalar o = VRes.regs [.s o.sD v] := by
  have hs {n : Nat} (h : o.opc = n) := VOp.scalar_of_opc (c := c) hp h
  rcases hv with ⟨h, rfl⟩ | ⟨h, rfl⟩ | ⟨h, rfl⟩ | ⟨h, rfl⟩ | ⟨h, rfl⟩ | ⟨h, rfl⟩ <;> exact hs h

theorem bundleIssue_scalar (h : s.Issues k.toNat c b) (hctl : b.ctl = 0) (hops : b.ops = [o]) (hs : o.slot < 2)
    (hr : o.isMx = false ∧ c.scalar o = VRes.regs [.s o.sD v]) :
    Completes (.bundleIssue k st sq) s (LeavesRun k.toNat { c with sr := Tab.set c.sr o.sD v, pc := c.pc + 8 } s) := by
  obtain ⟨hmx, hr⟩ := hr
  have ht := State.bundleOps_of_regs (s := s.waited k.toNat st) h.core h.inj hops hmx ((if_pos hs).trans hr)
  rw [State.control_next (State.written_core _) hctl, Bundle.bytes_one hops] at ht
  exact bundleIssue_inCore h ht (s.waited_written_inCore ..) h.ending

/-- A bundle without operations whose control action leaves the run at z. -/
theorem bundleIssue_flow (h : s.Issues k.toNat c b) (hops : b.ops = []) (hflow : b.Flow c z (c.pc + 4)) :
    Completes (.bundleIssue k st sq) s (LeavesRun k.toNat z s) := by
  obtain ⟨hctl, hz⟩ := State.control_flow (State.written_core (s := s.waited k.toNat st) []) (by rw [Bundle.bytes_nil hops]; exact hflow)
  have ht := (State.bundleOps_of_nil (s := s.waited k.toNat st) h.core hops).trans hctl
  exact bundleIssue_inCore h ht (s.waited_written_inCore ..) (hz.trans h.ending)

/-- The end of the run of core k with OK: the core is free and its report waits; else only registers, executors and auto-doze differ. -/
def EndsRun (k : Nat) (c : VscCore) (s t : State) : Prop :=
  t.core k = none ∧ t.get F.VSC_STATUS_BUSY k = 0 ∧ (t.exec c.exec).done = some ⟨0, 0, 0, s.outWords (s.recordAddr k)⟩ ∧
  (∀ j, j ≠ k → t.core j = s.core j) ∧ RegsBut s t (mxcShown ++ [.VSC_STATUS, .VSC_STALL, .VSC_STICKY, .MXC_SQUASHED]) ∧ RunParts s t

theorem RunOver.endsRun {k : Nat} (h : RunOver t u k (c.ended ⟨0, 0, 0⟩) ⟨0, 0, 0⟩) (hi : InCore s t k issueRegs) (v cl : Nat) :
    EndsRun k c s (u.count F.MXC_SQUASHED_SQUASHED v cl) := by
  obtain ⟨hcore, hothers, hbusy, hdone, hregs, hrest⟩ := h
  rw [State.outWords_congr hi.mem, hi.regs.recordAddr (by decide)] at hdone
  have hsq : Reg.VSC_STATUS ≠ .MXC_SQUASHED := by decide
  exact ⟨hcore, (State.get_put_key _ _ _ _ _ _ _ _ fun h => hsq (congrArg RegKey.reg h)).trans hbusy, hdone,
    fun j hj => (hothers j hj).trans (hi.others j hj), ((hi.regs.comp hregs).mono (by decide)).put _ _ _ _ (by decide),
    (hi.runParts.trans hrest).put _ _ _ _⟩

theorem InCore.endedFree {k : Nat} {r : RunEnd} (hi : InCore s t k issueRegs) (hc : t.core k = some (c.ended r)) (hu : s.Unbound k c) :
    EndedFree t k (c.ended r) r := by
  obtain ⟨-, -, hch, hlock⟩ := hu
  refine ⟨hc, rfl, (hi.regs.bmvOf (by decide) ..).trans ?_, (congrArg Mxc.lock (hi.mx _)).trans hlock⟩
  rw [hi.regs.vscPos (by decide)]
  exact hch

/-- A bundle without operations that ends a run which holds no channel and no lock. -/
theorem bundleIssue_end (h : s.Issues k.toNat c b) (hops : b.ops = []) (hctl : b.ctl = 7) (hu : s.Unbound k.toNat c) :
    Completes (.bundleIssue k st sq) s (EndsRun k.toNat c s) := by
  have ht := (State.bundleOps_of_nil (s := s.waited k.toNat st) h.core hops).trans (State.control_end (c := c) (State.written_core []) hctl)
  have hi := (s.waited_written_inCore k.toNat st c []).setCore (c.ended ⟨0, 0, 0⟩)
  have hover := (hi.endedFree (State.setCore_core _ _ _) hu).vscFinish
  exact ⟨_, congrArg Host.Outcome.next (h.bundleIssue_ends ht hover.1), hover.endsRun hi _ _⟩

end

/-- Settles O26: one scalar operation and the control actions 1 to 5 act inside the core, and CTL 7 completes the run at once. -/
theorem bundlesComputeAndBranch : Obligations.BundlesComputeAndBranch := by
  unfold Obligations.BundlesComputeAndBranch
  exact ⟨fun _ _ _ _ _ _ _ _ h hctl hops hs hp hv => bundleIssue_scalar h hctl hops hs (VscCore.scalar_of_enabled hp hv),
    fun _ _ _ _ _ _ _ h hops hflow => bundleIssue_flow h hops hflow, fun _ _ _ _ _ _ h hops hctl hu => bundleIssue_end h hops hctl hu⟩

end Sys2Proof.Machine
end

