-- ==== Sys2Proof/Proofs/CoreFaults.lean ====
section
/-!
SUPPORT. Sys2Proof/Proofs/CoreFaults.lean: the instruction cache (R161, R192), watchdogs and hardware faults of cores (R185, R186); from
these O28.
-/
namespace Sys2Proof.Machine

/-! ### The instruction cache (R161) -/

/-- The cache of core k and the free values apart, nothing differs. -/
def CacheOnly (s t : State) (k : Nat) : Prop :=
  (∀ j, j ≠ k → t.icache j = s.icache j) ∧ t = { s with exu := { s.exu with icache := t.exu.icache }, free := t.free }

/-- A line comes into the cache of core k; a line of another set stays. -/
def BringsLine (s t : State) (k line : Nat) : Prop :=
  CacheOnly s t k ∧ line ∈ t.icache k ∧ ∀ l ∈ s.icache k, l / 256 % 64 ≠ line / 256 % 64 → l ∈ t.icache k

theorem CacheOnly.trans {s t u : State} {k : Nat} (h : CacheOnly s t k) (h' : CacheOnly t u k) : CacheOnly s u k := by
  obtain ⟨ho, hs⟩ := h
  obtain ⟨ho', hs'⟩ := h'
  rw [hs] at hs'
  exact ⟨fun j hj => (ho' j hj).trans (ho j hj), hs'⟩

section
variable (s : State) (k line : Nat)

theorem State.setIcache_icache (ls : List Nat) : (s.setIcache k ls).icache k = ls := Tab.get_set_self _ _ _ _

theorem State.setIcache_frame (ls : List Nat) : CacheOnly s (s.setIcache k ls) k := ⟨fun _ hj => Tab.get_set_ne _ _ hj _, rfl⟩

variable {s k line} in
theorem State.setIcache_brings {ls : List Nat} (h : ∀ l ∈ s.icache k, l / 256 % 64 ≠ line / 256 % 64 → l ∈ ls) :
    BringsLine s (s.setIcache k (ls ++ [line])) k line := by
  rw [BringsLine, State.setIcache_icache]
  exact ⟨s.setIcache_frame k _, List.mem_append_right _ List.mem_cons_self, fun l hl hset => List.mem_append_left _ (h l hl hset)⟩

/-- The victim of a full set is a line of that set. -/
theorem victim_set {ls lines : List Nat} {set n : Nat} (hs : lines = ls.filter (fun l => l / 256 % 64 = set)) (hfull : ¬ lines.length < 4) :
    lines.getD (n % 4) 0 / 256 % 64 = set := by
  have hlt : n % 4 < lines.length := Nat.lt_of_lt_of_le (Nat.mod_lt _ (by decide)) (Nat.not_lt.1 hfull)
  have hmem := List.getElem_mem hlt
  rw [List.getD_eq_getElem _ _ hlt]
  generalize lines[n % 4] = l at hmem
  rw [hs] at hmem
  exact of_decide_eq_true (List.mem_filter.1 hmem).2

theorem State.icacheAdd_brings : BringsLine s (s.icacheAdd k line) k line := by
  unfold State.icacheAdd
  extract_lets ls lines
  split
  case isTrue hin => exact ⟨⟨fun _ _ => rfl, rfl⟩, hin, fun l hl _ => hl⟩
  case isFalse =>
    split
    case isTrue => exact State.setIcache_brings fun l hl _ => hl
    case isFalse hfull =>
      have hkeep : ∀ l ∈ ls, l / 256 % 64 ≠ line / 256 % 64 → l ∈ ls.filter (· ≠ lines.getD (s.freshNat.1 % 4) 0) := fun l hl hset =>
        List.mem_filter.2 ⟨hl, decide_eq_true fun h => hset (h ▸ victim_set rfl hfull)⟩
      obtain ⟨hframe, hin, hstay⟩ := State.setIcache_brings (s := s.freshNat.2) (k := k) (line := line) hkeep
      have hfresh : CacheOnly s s.freshNat.2 k := ⟨fun _ _ => rfl, rfl⟩
      exact ⟨hfresh.trans hframe, hin, hstay⟩

end

theorem next_line_set (l : Nat) : l / 256 % 64 ≠ (l + 256) / 256 % 64 := by
  rw [Nat.add_div_right l (by decide)]
  exact fun h => absurd (Nat.ModEq.add_left_cancel' (l / 256) (show l / 256 + 0 ≡ l / 256 + 1 [MOD 64] from h)) (by decide)

section
variable {k : BitVec 8} {s : State} {c : VscCore}

/-- A fill brings in the missed line and the next one, which lies in another set. -/
theorem icacheFill_brings {l : Nat} {ls : List Nat} (hc : s.core k.toNat = some c) (hm : s.missing k.toNat c = l :: ls)
    (hp : s.poisoned l 256 = false) :
    Completes (.icacheFill k) s (fun t => l ∈ t.icache k.toNat ∧ l + 256 ∈ t.icache k.toNat ∧
      (∀ j, j ≠ k.toNat → t.icache j = s.icache j) ∧ t.exu.vsc = s.exu.vsc ∧ t = { s with exu := t.exu, free := t.free }) := by
  have hexec : exec (.icacheFill k) s = .next ((s.icacheAdd k.toNat l).icacheAdd k.toNat (l + 256)) := by
    refine congrArg Host.Outcome.next ((State.onCore_of_core hc fun c => match s.missing k.toNat c with
      | [] => s
      | l :: _ => if s.poisoned l 256 then s.runEnd k.toNat 6 0x15 0 l else (s.icacheAdd k.toNat l).icacheAdd k.toNat (l + 256)).trans ?_)
    rw [hm]
    exact if_neg (Bool.eq_false_iff.1 hp)
  obtain ⟨h₁, hin, -⟩ := s.icacheAdd_brings k.toNat l
  obtain ⟨h₂, hin', hstay⟩ := (s.icacheAdd k.toNat l).icacheAdd_brings k.toNat (l + 256)
  generalize (s.icacheAdd k.toNat l).icacheAdd k.toNat (l + 256) = t at hexec h₂ hin' hstay
  obtain ⟨hothers, hrest⟩ := h₁.trans h₂
  exact ⟨t, hexec, hstay l hin (next_line_set l), hin', hothers, congrArg (·.exu.vsc) hrest, hrest.trans (by rw [hrest])⟩

theorem icacheInv_empties (hc : s.core k.toNat = none) :
    Completes (.icacheInv k) s (fun t => t.icache k.toNat = [] ∧ (∀ j, j ≠ k.toNat → t.icache j = s.icache j) ∧
      t = { s with exu := { s.exu with icache := t.exu.icache } }) :=
  ⟨s.setIcache k.toNat [], congrArg Host.Outcome.next (if_neg (Bool.eq_false_iff.1 (congrArg Option.isSome hc))), s.setIcache_icache _ _,
    (s.setIcache_frame _ _).1, rfl⟩

theorem icacheInv_ignored (hc : (s.core k.toNat).isSome = true) : exec (.icacheInv k) s = .next s :=
  congrArg Host.Outcome.next (if_pos hc)

/-! ### Watchdogs and hardware faults (R185, R186) -/

/-- The run of core k, which s holds, has ended in t with a code, cause and reason, and u is the state with the fault captured. -/
def RunFailed (s u t : State) (k : Nat) (c : VscCore) (code cause reason : Nat) : Prop :=
  t.core k = none ∧ (∀ j, j ≠ k → t.core j = s.core j) ∧ t.get F.VSC_STATUS_BUSY k = 0 ∧
  (∃ ws, (t.exec c.exec).done = some ⟨code, cause, reason, ws⟩) ∧ RegsBut u t (mxcShown ++ [.VSC_STATUS]) ∧ RunParts u t

theorem RunOver.runFailed {s u v t : State} {k code cause reason : Nat} (h : RunOver v t k (c.ended ⟨code, cause, reason⟩) ⟨code, cause, reason⟩)
    (hv : (∀ j, j ≠ k → v.core j = s.core j) ∧ RegsBut u v mxcShown ∧ RunParts u v) : RunFailed s u t k c code cause reason := by
  obtain ⟨hcore, hothers, hbusy, hdone, hregs, hrest⟩ := h
  obtain ⟨hvothers, hvregs, hvrest⟩ := hv
  exact ⟨hcore, fun j hj => (hothers j hj).trans (hvothers j hj), hbusy, ⟨_, hdone⟩,
    (hvregs.mono fun _ => List.mem_append_left _).trans hregs, hvrest.trans hrest⟩

theorem State.Unbound.fails {k : Nat} (h : s.Unbound k c) (code cause reason addr : Nat) :
    RunFailed s (s.faulted k c code cause reason addr) (s.runEnd k code cause reason addr) k c code cause reason := by
  obtain ⟨v, hover, hv⟩ := h.runEnd code cause reason addr
  exact hover.runFailed hv

theorem runWatchdog_ends (h : s.Unbound k.toNat c) :
    Completes (.runWatchdog k) s (fun t => t.core k.toNat = none ∧ t.get F.VSC_STATUS_BUSY k.toNat = 0 ∧
      (∃ ws, (t.exec c.exec).done = some ⟨1, 7, 0, ws⟩) ∧
      (s.flag F.VSC_FAULT_VALID k.toNat = false → t.Captured k.toNat 1 7) ∧
      RegsBut s t (mxcShown ++ [.VSC_STATUS, .VSC_FAULT, .VSC_FAULT_PC]) ∧ RunParts s t) := by
  have hcap := fun hv => s.faulted_captures (k := k.toNat) (code := 1) (cause := 7) c 0 0 hv (by decide) (by decide)
  have hlow : s.faulted k.toNat c 1 7 0 0 = s.vscCapture k.toNat 1 7 0 c.pc := State.faultReports_of_low _ _ _ _ _ (by decide)
  obtain ⟨ho, hr⟩ := s.vscCapture_frame k.toNat 1 7 0 c.pc
  rw [← hlow] at ho hr
  obtain ⟨hcore, -, hbusy, hdone, hregs, hrest⟩ := h.fails 1 7 0 0
  exact ⟨_, rfl, hcore, hbusy, hdone, fun hv => (hcap hv).mono hregs (by decide), (hr.comp hregs).mono (by decide), ho.runParts.trans hrest⟩

/-- The code and cause of a hardware fault of each kind (R186). -/
theorem exec_vscHardwareFault {kind : VscFaultKind} {code cause reason : Nat}
    (hkind : kind = .residue ∧ code = 2 ∧ cause = 0x10 ∧ reason = 0 ∨ kind = .parity ∧ code = 3 ∧ cause = 0x11 ∧ reason = 0 ∨
      kind = .ecc ∧ code = 4 ∧ cause = 0x12 ∧ reason = 0 ∨ (∃ a, kind = .bus a) ∧ code = 6 ∧ cause = 0x13 ∧ reason = 0 ∨
      kind = .fetch ∧ code = 6 ∧ cause = 0x15 ∧ reason = 0 ∨ (∃ p a, kind = .poisonIn p a ∧ reason = p) ∧ code = 7 ∧ cause = 0x16) :
    ∃ addr, exec (.vscHardwareFault k kind) s = .next (s.runEnd k.toNat code cause reason addr) ∧ code < 8 ∧ cause < 256 := by
  rcases hkind with ⟨rfl, rfl, rfl, rfl⟩ | ⟨rfl, rfl, rfl, rfl⟩ | ⟨rfl, rfl, rfl, rfl⟩ | ⟨⟨a, rfl⟩, rfl, rfl, rfl⟩ |
    ⟨rfl, rfl, rfl, rfl⟩ | ⟨⟨p, a, rfl, rfl⟩, rfl, rfl⟩
  all_goals exact ⟨_, rfl, by decide, by decide⟩

theorem vscHardwareFault_ends {kind : VscFaultKind} {code cause reason addr : Nat} (h : s.Unbound k.toNat c)
    (hexec : exec (.vscHardwareFault k kind) s = .next (s.runEnd k.toNat code cause reason addr)) (hcode : code < 8) (hcause : cause < 256) :
    Completes (.vscHardwareFault k kind) s (fun t => t.core k.toNat = none ∧ t.get F.VSC_STATUS_BUSY k.toNat = 0 ∧
      (∃ ws, (t.exec c.exec).done = some ⟨code, cause, reason, ws⟩) ∧
      (s.flag F.VSC_FAULT_VALID k.toNat = false → t.Captured k.toNat code cause) ∧
      (∀ j, j ≠ k.toNat → t.core j = s.core j) ∧ t.aft = s.aft ∧ t.tbu = s.tbu ∧ t.out = s.out) := by
  have hcap := fun hv => s.faulted_captures (k := k.toNat) c reason addr hv hcode hcause
  obtain ⟨hrec, -⟩ := s.faulted_frame k.toNat c code cause reason addr
  obtain ⟨hcore, hothers, hbusy, hdone, hregs, hrest⟩ := h.fails code cause reason addr
  refine ⟨_, hexec, hcore, hbusy, hdone, fun hv => (hcap hv).mono hregs (by decide), hothers, ?_⟩
  rw [hrest]
  exact ⟨hrec.aft, hrec.tbu, hrec.out⟩

end

/-- Settles O28: a filled line and the next lie in different sets, and an unbound run is over in the step that ends it. -/
theorem coreCachesWatchdogsAndFaults : Obligations.CoreCachesWatchdogsAndFaults := by
  unfold Obligations.CoreCachesWatchdogsAndFaults
  refine ⟨fun _ _ _ _ _ hc hm hp => icacheFill_brings hc hm hp, fun _ _ => ⟨icacheInv_empties, icacheInv_ignored⟩,
    fun _ _ _ h => runWatchdog_ends h, fun _ _ _ _ _ _ _ h hkind => ?_⟩
  obtain ⟨addr, hexec, hcode, hcause⟩ := exec_vscHardwareFault hkind
  exact vscHardwareFault_ends h hexec hcode hcause

end Sys2Proof.Machine
end

