-- ==== Sys2Proof/Proofs/UnreadStores.lean ====
section
/-!
SUPPORT. Sys2Proof/Proofs/UnreadStores.lean: a store of a core that memory out of canonical form does not give back (O27).
-/
namespace Sys2Proof.Machine

/-! ### A stored word that does not read back -/

/-- SST of S5, which holds 0, at the word behind P3. -/
def strayStoreWord : Nat := 0x23 * 2 ^ 25 + 5 * 2 ^ 15 + 3 * 2 ^ 11 + 1

/-- A run of a preloaded kernel at its first bundle, with P3 in the cluster's memory. -/
def strayRun : VscCore :=
  { exec := 0, node := 0, kernel := ⟨1, 0, 0, false, false, true, 0x10000000, 4096, 0⟩, pc := 0, sr := [], pr := [(3, 0x20000010)], vr := [],
    ar := [], qr := [], cb := [], cl := [], lc := [], pbind := 0, kmode := 0, flags := 0, rrb := 0, stack := [], inj := 0, save := none,
    ending := none }

/-- Core 0 is to issue the store from a memory that lists a byte of the stored word behind a higher address. -/
def strayCore : State := { State.reset with
  mem := (Memory.setWord (Memory.setWord [] 0x10000000 4) 0x10000004 strayStoreWord) ++ [(2 ^ 32, 1), (0x20000014, 7)]
  exu := { State.reset.exu with vsc := [(0, strayRun)] } }

theorem strayCore_issues : strayCore.Issues 0 strayRun ⟨0, 0, 0, [vop 2 strayStoreWord]⟩ := by
  unfold State.Issues
  decide

theorem strayCore_word : (strayCore.bundleIssue 0 0 0).word 0x20000014 = 7 := by decide

/-- Refutes O27: the statement does not ask for a memory in canonical form. In `strayCore`, whose memory lists a byte of the cluster's memory
out of order, the zero that an SST writes there does not read back. -/
theorem not_bundlesMoveVectorsAndMemory : ¬ Obligations.BundlesMoveVectorsAndMemory := by
  unfold Obligations.BundlesMoveVectorsAndMemory
  intro h
  obtain ⟨-, -, hmem⟩ := h 0#8 0 0 strayRun (vop 2 strayStoreWord) _ strayCore strayCore_issues rfl rfl rfl
  obtain ⟨hstore, -⟩ := hmem (.inl rfl) (by decide) (by decide) rfl (by decide) (by decide) (by decide)
  obtain ⟨t, ht, hword, -⟩ := hstore (by decide) (by decide) (by decide)
  cases ht
  exact absurd (strayCore_word.symm.trans hword) (by decide)

end Sys2Proof.Machine
end
